-- ==== Sys2Proof/Word.lean ====
section
/-!
DEFINITION. The plain value types of Sisan (R2, R4): bytes, 32-bit register words and the 64-bit quantities of
addresses, times and digests. Addresses are computed on natural numbers, "without truncation" (R9).
-/
namespace Sys2Proof

/-- One byte of memory or of an in-memory structure (R2). -/
abbrev Byte := BitVec 8

/-- One register (R4). -/
abbrev Word := BitVec 32

/-- A 64-bit quantity: a lo/hi pair of registers (R5), an address (R27), a time (R1) or a digest (R357). -/
abbrev DWord := BitVec 64

/-- A status code: class in bits 15 to 12, detail in bits 11 to 0 (R83, R375). -/
abbrev Status := BitVec 16

end Sys2Proof
end

