-- ==== Sys2Proof/Syntax.lean ====
section
/-!
DEFINITION. The commands the block takes: one constructor per row of spec/opcode_table.json, with the operands the
row's event brings from outside (log 5). The table gives the rows no bits; operands that name a register, a queue, a
ring, an engine and the like are bounded by their type.
-/
namespace Sys2Proof

/-- Who makes a register access: each has staged and latched words of its own (R5). -/
inductive Requester where
  | host
  | core (n : Fin 8)
  | cp
deriving DecidableEq, Repr

/-- A task, by its submission queue and its entry index (R52). `life` tells tasks apart whose indices agree, since a queue
created anew, and the index past 2^32 entries, starts at 0 again. -/
structure TaskRef where
  sq : Fin 1024
  index : Nat
  life : Nat
deriving DecidableEq, Repr

/-- What a memory access meets at the memory: data that passes its check, an error its code corrects, or an uncorrectable
code word (R352, R355). What a tier-B controller corrects comes with TIER_B_READ (R301). -/
inductive MemCond where
  | good
  | corrected
  | uncorrectable
deriving DecidableEq, Repr

/-- The marks a read response carries for the cause of a hold (R220). -/
structure ReadMarks where
  corrected : Bool
  refresh : Bool
  fabricRetry : Bool
  arbitration : Bool
deriving DecidableEq, Repr

/-- The answer to a task's read (R15). `bytes` are the bytes the host or another node returns; a read of this chip's
memory takes its bytes from that memory. `parity` is data whose path to the staging buffer fails its parity (R352). -/
inductive ReadAnswer where
  | data (marks : ReadMarks) (bytes : List Byte)
  | uncorrectable
  | parity
  | error (status : Status)
deriving DecidableEq, Repr

/-- The internal memories an engine's data lies in (R356, SOURCE 7): its staging buffer and issue queue, the partial store of its
lane, the reorder buffer, the range store. -/
inductive InternalMemory where
  | engine | partialStore | reorder | rangeStore
deriving DecidableEq, Repr

/-- What the internal memories and the data paths of an engine meet as data passes (R352): nothing, errors that are corrected, an
uncorrectable code word, a parity failure. -/
inductive PathCheck where
  | good
  | corrected (count : Nat)
  | uncorrectable (place : InternalMemory)
  | parity
deriving DecidableEq, Repr

/-- The answer to a task's write at its point of coherence (R21, R283). -/
inductive WriteAnswer where
  | accepted
  | uncorrectable
  | error (status : Status)
deriving DecidableEq, Repr

/-- The answer to a read of a ring, a list or a packet: `bytes` are what the host returns for a host ring; a ring in
device memory is read there. -/
inductive RingAnswer where
  | data (bytes : List Byte)
  | uncorrectable
  | error
deriving DecidableEq, Repr

/-- The outcome of the write of a record (R87, R364): acknowledged, failed on the host link, or refused by an
uncorrectable code word. -/
inductive RecordAnswer where
  | acknowledged
  | hostError
  | uncorrectable
deriving DecidableEq, Repr

/-- The host's answer to an aperture load (R40): data, an error, or none yet. -/
inductive HostAnswer where
  | data (bytes : List Byte)
  | error
  | pending
deriving DecidableEq, Repr

/-- The atomics of R167. `fadd32` adds one binary32; `faddHalf` adds to the selected halves of a word that holds two
BF16 (`bf = true`) or two binary16 values. -/
inductive AtomicOp where
  | add | swap | cas | max | min | and | or | xor
  | fadd32
  | faddHalf (bf : Bool) (lo : Bool) (hi : Bool)
deriving DecidableEq, Repr

/-- An atomic request on an aligned word of 4 or 8 bytes; `a` is the operand (the compare value of a CAS), `b` the
swap value of a CAS (R167). -/
structure AtomicReq where
  op : AtomicOp
  wide : Bool
  a : DWord
  b : DWord
deriving DecidableEq, Repr

/-- An access arriving from the fabric (R43). -/
inductive RemoteAccess where
  | read (addr : Nat) (len : Nat)
  | write (addr : Nat) (bytes : List Byte)
  | atomic (addr : Nat) (req : AtomicReq)
deriving DecidableEq, Repr

/-- One translation of a Translation Completion (R241): how many bytes it covers from the first byte asked for, the
translated address, and its read, write and untranslated bits. -/
structure Xlation where
  len : Nat
  addr : Nat
  r : Bool
  w : Bool
  u : Bool
deriving DecidableEq, Repr

/-- A Translation Completion: translations in ascending order, or an error (R242). -/
inductive XlateAnswer where
  | ok (xs : List Xlation)
  | error
deriving DecidableEq, Repr

/-- A PRG Response code (R246). -/
inductive PrgCode where
  | success | invalidRequest | responseFailure
deriving DecidableEq, Repr

/-- What the translation of a host ring gives QUEUE_CREATE (R334): the translations of the whole ring, an error, or a
page that is not present. -/
inductive RingXlate where
  | ok (xs : List Xlation)
  | error
  | notPresent
deriving DecidableEq, Repr

/-- Who owns a host request that expires or fails (R367, R379). -/
inductive HostOwner where
  | taskRead (t : TaskRef) (no : Nat)
  | taskFlush (t : TaskRef)
  | ringRead (q : Fin 1024)
  | recordFlush (t : TaskRef)
  | aperture (core : Fin 8) (ap : Fin 16)
deriving DecidableEq, Repr

/-- Who owns a fabric request that expires (R261). -/
inductive FabricOwner where
  | taskRead (t : TaskRef) (no : Nat)
  | taskWrite (t : TaskRef)
  | piece (t : TaskRef) (rank : Nat) (stage : Nat) (index : Nat)
  | sendPort (p : Fin 64)
deriving DecidableEq, Repr

/-- What a collective member announces with a piece, compared by its receiver (R175). -/
structure Announcement where
  kind : Nat
  op : Nat
  outFmt : Nat
  group : Nat
  root : Nat
  chunkLog2 : Nat
  wire : Bool
  shape : List Nat
  fmt : Nat
  seqNo : Nat
deriving DecidableEq, Repr

/-- A received collective piece (R176, R177): the sender's rank, whether it carries contributions (stage 0) or reduced
parts of an all-reduce (stage 1), its index among the pieces for this member, its announcement and its bytes, as they
crossed the fabric. With WIRE the bytes are wire ingots (R179). -/
structure Piece where
  rank : Nat
  stage : Nat
  index : Nat
  ann : Announcement
  bytes : List Byte
deriving DecidableEq, Repr

/-- The answer to a credit request (R269). -/
inductive CreditAnswer where
  | grant (slots : List Nat)
  | queued
  | retry
deriving DecidableEq, Repr

/-- A message packet (R264, R265). -/
structure MessagePacket where
  src : Nat
  tag : Nat
  slot : Nat
  port : Nat
  seq : Word
  payload : List Byte
deriving DecidableEq, Repr

/-- What is wrong with a tier-B line as its devices return it (R299, R300): symbols XORed on the 72 stored ones, by position,
and the index of the line returned where the row or the column is a wrong one. -/
structure LineErrors where
  symbols : List (Fin 72 × Byte)
  returned : Option Nat
deriving DecidableEq, Repr

/-- Where a tier-B line's row stands (R306). -/
structure RowAddr where
  dev : Nat
  bank : Nat
  row : Nat
deriving DecidableEq, Repr

/-- Whose request a burst at an arbiter is (R313, R314, R322). A task's is one of data or of control (its record, its
journal record, a generation word, a flushing read); the queue interface's and the translation unit's may be for a task; a
request from another node comes with its class and its age key. -/
inductive BurstOwner where
  | task (t : TaskRef) (control : Bool)
  | queues (t : Option TaskRef)
  | translation (t : Option TaskRef)
  | remote (node : Nat) (session : Bool) (age : Nat)
  | endpoint
  | heartbeat
  | bar2Read
  | bar2Write
  | coreLoad (n : Fin 8)
  | coreStore (n : Fin 8)
  | coreAtomic (n : Fin 8)
  | copy
  | scrub
  | commandProcessor
deriving DecidableEq, Repr

/-- A request at a port arbiter (R312): its owner, its direction, the bytes it covers, and the group of slots it uses: the
tier-B channel at the tier-B port group, the direction at the host port, the link at the fabric port, 0 elsewhere. -/
structure BurstReq where
  owner : BurstOwner
  write : Bool
  addr : Nat
  len : Nat
  channel : Nat
deriving DecidableEq, Repr

/-- An access that waits: a TLP held while the block is below Active (R389), or a tier-B request while tier B does not
serve (R391). A remote access waits behind the window `win` that it has passed. -/
inductive HeldAccess where
  | reg (src : Requester) (offset : Nat) (bytes : List Byte)
  | regRead (src : Requester) (offset : Nat) (len : Nat)
  | bar2Read (offset : Nat) (len : Nat) (pasid : Option (BitVec 20)) (cond : MemCond)
  | bar2Write (offset : Nat) (bytes : List Byte) (pasid : Option (BitVec 20)) (relaxed : Bool) (cond : MemCond)
  | coreLoad (core : Fin 8) (addr : Nat) (len : Nat) (cond : MemCond)
  | coreStore (core : Fin 8) (addr : Nat) (bytes : List Byte) (cond : MemCond)
  | coreAtomic (core : Fin 8) (addr : Nat) (req : AtomicReq) (cond : MemCond)
  | remote (node : Nat) (acc : RemoteAccess) (cond : MemCond) (win : Nat)
deriving DecidableEq, Repr

/-- A wake source with its detail (R392). -/
inductive WakeSource where
  | doorbell (q : Fin 1024)
  | hostLink (bar : Nat)
  | timer (t : Fin 16)
  | fabric (node : Nat)
  | management
deriving DecidableEq, Repr

/-- The result of a tier-A stack's start-up check, in the encoding of R347: 0 passed, 1 no answer, 2 capacity
mismatch, 3 speed mismatch. -/
abbrev StackCheck := Fin 4

/-- What a site's SPD readout finds (R296). -/
structure SpdResult where
  answered : Bool
  crcOk : Bool
  typeOk : Bool
  capacityOk : Bool
  rateOk : Bool
  serial : Nat
  image : List Byte
deriving DecidableEq, Repr

/-- What the start-up checks find: which firmware images verify, each stack's result with the identity it returned
(R382, R383), and whether each pending tier-A row was applied (R397). -/
structure BootResult where
  imageAOk : Bool
  imageBOk : Bool
  stackChecks : List StackCheck
  identities : List (List Byte)
  rowsApplied : List Bool
deriving DecidableEq, Repr

/-- The bytes of a register access: the offset of the first, and how many (R4, R5). -/
structure BusSpan where
  offset : Nat
  len : Nat
deriving DecidableEq, Repr

/-- What a posted write of the host carries beside its bytes: a PASID (R48), the Relaxed Ordering attribute (R287). -/
structure WriteAttr where
  pasid : Option (BitVec 20)
  relaxed : Bool
deriving DecidableEq, Repr

/-- A turn of a task's execute side, and what the data meet on their way (R204, R352). -/
structure ExecuteUnit where
  task : TaskRef
  check : PathCheck
deriving DecidableEq, Repr

/-- A credit for a piece, with what the member that grants it announces (R175, R176). -/
structure PieceGrant where
  piece : Nat
  ann : Announcement
deriving DecidableEq, Repr

/-- A refusal: the message it answers, none where it answers a credit request, and its status (R273). -/
structure MessageRefusal where
  num : Option Word
  status : Status
deriving DecidableEq, Repr

/-- What competes in an arbiter's decision beside the parked requests: requests that arrive, and requests in back-off that
retry, by their place there (R316, R318). -/
structure Contenders where
  arriving : List BurstReq
  retries : List Nat
deriving DecidableEq, Repr

/-- One command: one row of spec/opcode_table.json. -/
inductive Instr where
  | registerWrite (src : Requester) (offset : Nat) (len : Nat) (value : Nat)
  | pairLowRead (src : Requester) (span : BusSpan)
  | rcRegisterRead (src : Requester) (offset : Nat) (len : Nat)
  | fabricTimeCorrection (delta : Int)
  | lockstepDisagree
  | nodeIdWrite (src : Requester) (value : Word)
  | drtCtlWrite (src : Requester) (group : Fin 3) (n : Fin 1024) (value : Word)
  | bar2Read (offset : Nat) (len : Nat) (pasid : Option (BitVec 20)) (cond : MemCond)
  | bar2Write (offset : Nat) (bytes : List Byte) (attr : WriteAttr) (cond : MemCond)
  | bar2Atomicop (offset : Nat)
  | peerToPeerRequest (read : Bool)
  | apertureLoad (core : Fin 8) (ap : Fin 16) (offset : Nat) (len : Nat) (answer : HostAnswer)
  | apertureStore (core : Fin 8) (ap : Fin 16) (offset : Nat) (bytes : List Byte)
  | coreLoad (core : Fin 8) (addr : Nat) (len : Nat) (buffered : Option (List Byte)) (cond : MemCond)
  | coreStore (core : Fin 8) (addr : Nat) (bytes : List Byte) (cond : MemCond)
  | coreAtomic (core : Fin 8) (addr : Nat) (req : AtomicReq) (cond : MemCond)
  | fabricRemoteAccess (node : Nat) (acc : RemoteAccess) (cond : MemCond)
  | sqDoorbell (src : Requester) (q : Fin 1024) (value : Word)
  | pushWindowWrite (src : Requester) (q : Fin 1024) (offset : Nat) (bytes : List Byte)
  | cqHeadDoorbell (src : Requester) (q : Fin 1024) (value : Word)
  | cqHeadWrite (src : Requester) (c : Fin 256) (value : Word)
  | sqHeaderReadResponse (q : Fin 1024) (answer : RingAnswer)
  | sqHeaderReread (q : Fin 1024)
  | sqMarkTimeout (q : Fin 1024)
  | sqPrefetchRead (q : Fin 1024) (answer : RingAnswer)
  | entryAccept (q : Fin 1024) (answer : RingAnswer)
  | sqPause (src : Requester) (q : Fin 1024)
  | sqResume (src : Requester) (q : Fin 1024)
  | sqSkip (src : Requester) (q : Fin 1024)
  | blockListFetchComplete (t : TaskRef) (cond : MemCond)
  | rangeStoreReserve (t : TaskRef)
  | translationRequestIssue
  | translationCompletion (t : TaskRef) (answer : XlateAnswer)
  | translationTimeout (t : TaskRef)
  | pageRequestGroup (t : TaskRef)
  | prgResponse (prg : Fin 512) (code : PrgCode)
  | priReenable
  | invalidateRequest (pasid : Option (BitVec 20)) (global : Bool) (addr : Nat) (len : Nat)
  | invalidateCompletion
  | ctxMapWrite (src : Requester) (c : Fin 4096) (value : Word)
  | dispatch
  | readIssue (t : TaskRef)
  | readResponse (t : TaskRef) (no : Nat) (answer : ReadAnswer)
  | ingotExpand (t : TaskRef)
  | executeWrite (e : ExecuteUnit)
  | compressBlockDone (t : TaskRef)
  | writeAck (t : TaskRef) (answer : WriteAnswer)
  | flushReadCompletion (t : TaskRef) (ok : Bool)
  | completionRecordWrite (t : TaskRef)
  | completionRecordAck (t : TaskRef) (answer : RecordAnswer)
  | cqIrqDelayExpiry (c : Fin 256)
  | journalAppend (t : TaskRef) (cond : MemCond)
  | journalEnable (src : Requester) (value : Word)
  | journalDisable (src : Requester) (value : Word)
  | waitComplete (t : TaskRef)
  | fenceComplete (t : TaskRef)
  | eventSetWrite (src : Requester) (k : Fin 16) (value : Word)
  | eventClrWrite (src : Requester) (k : Fin 16) (value : Word)
  | timerFire (t : Fin 16)
  | tmrCtlWrite (src : Requester) (t : Fin 16) (value : Word)
  | stepStartStrobe
  | stepEndStrobe
  | tileDeadline (n : Fin 256) (tile : Nat)
  | barrierCycle
  | generationWordWrite (n : Fin 256)
  | tileComplete (n : Fin 256)
  | holdLimitReached
  | releaseFailed (src : Requester) (value : Word)
  | crdAddWrite (src : Requester) (n : Fin 64) (value : Word)
  | crdValWrite (src : Requester) (n : Fin 64) (value : Word)
  | stepBoundaryApply
  | stepCloseComplete
  | collectiveCreditGrant (t : TaskRef) (rank : Nat) (stage : Nat) (grant : PieceGrant)
  | collectivePieceSend (t : TaskRef) (rank : Nat)
  | collectivePieceReceive (t : TaskRef) (piece : Piece)
  | collectiveFailureNotice (ctag : BitVec 16) (status : Status)
  | multicastDetachTimeout (t : TaskRef) (rank : Nat)
  | feCtlWrite (src : Requester) (value : Word)
  | fabricPortDrained (p : Fin 32)
  | fabricRequestTimeout (owner : FabricOwner)
  | hostRequestTimeout (owner : HostOwner)
  | lateResponse (host : Bool)
  | fabricPacketCrcFail (p : Fin 32) (resent : Bool) (source : Nat) (owner : FabricOwner)
  | rxEnable (src : Requester) (r : Fin 256) (value : Word)
  | rxDisable (src : Requester) (r : Fin 256) (value : Word)
  | rxHeadWrite (src : Requester) (r : Fin 256) (value : Word)
  | creditRequestArrival (node : Nat) (tag : Nat) (count : Nat)
  | creditAnswerArrival (node : Nat) (tag : Nat) (answer : CreditAnswer)
  | creditRetryBackoff (node : Nat) (tag : Nat)
  | messagePacketArrival (packet : MessagePacket) (cond : MemCond)
  | messageSlotWritten (r : Fin 256) (slot : Nat)
  | deliveryReply (node : Nat) (tag : Nat) (seq : Word)
  | messageRefusalAnswer (p : Fin 64) (answer : MessageRefusal)
  | slotGrantTimeout (r : Fin 256) (slot : Nat)
  | spSend (src : Requester) (p : Fin 64) (value : Word)
  | spResume (src : Requester) (p : Fin 64)
  | spDiscard (src : Requester) (p : Fin 64)
  | spFlush (src : Requester) (p : Fin 64)
  | sendWatchdogExpiry (p : Fin 64)
  | heartbeatSend
  | heartbeatReceive (node : Nat) (incarnation : DWord)
  | peerHeartbeatTimeout (n : Fin 1024)
  | peerCfgWrite (src : Requester) (n : Fin 1024) (value : Word)
  | tierBRead (addr : Nat) (errors : LineErrors) (row : RowAddr) (owner : Option TaskRef)
  | rowLogCopy (site : Fin 9) (n : Fin 16)
  | scrubRead (site : Fin 9) (errors : LineErrors) (row : RowAddr)
  | refreshDue (site : Fin 9) (bank : Nat) (writes : Nat)
  | refreshRatePoll (site : Fin 9) (rate : Fin 3)
  | evacuationCopyLine (errors : LineErrors) (row : RowAddr)
  | spdReadout (site : Fin 9) (result : SpdResult)
  | spdResponseTimeout (site : Fin 9)
  | arbiterRequestArrival (port : Fin 48) (req : BurstReq)
  | arbiterDecision (port : Fin 48) (ending : List Nat) (contenders : Contenders)
  | arbiterRetryBackoff (port : Fin 48) (index : Nat)
  | portWatchdogExpiry (port : Fin 48) (slot : Nat)
  | mqEnable (src : Requester) (value : Word)
  | mqDisable (src : Requester) (value : Word)
  | mqDoorbell (src : Requester) (value : Word)
  | mqPacketRead (cond : MemCond)
  | mqPacketReread
  | mqMarkTimeout
  | mqReplyWrite
  | mqCqHeadWrite (src : Requester) (value : Word)
  | queueCreate (xlate : RingXlate)
  | queueDestroy
  | abort
  | abortComplete
  | tableLoad (cond : MemCond)
  | tableInstallComplete
  | windowOpen
  | windowClose
  | windowCloseDrained
  | epochSet
  | powerSet
  | engineRetire
  | engineRetireDrained
  | siteEvacuate (spd : SpdResult) (trained : Bool)
  | siteEvacuateCancel
  | identRead (cond : MemCond)
  | telemetrySnap (cond : MemCond)
  | flagWrite
  | firmwareStage (signatureOk : Bool) (cond : MemCond)
  | firmwareStageDone (readBackOk : Bool)
  | firmwareSwitch
  | firmwareSwitchFinal
  | firmwareSwitchTimeout
  | powerOn
  | powerRemoved
  | hostLinkDown
  | hostLinkUp
  | linkLossTimeout
  | hotReset
  | functionLevelReset
  | perstAssert
  | selfResetRestoreDone
  | startupChecksDone (result : BootResult)
  | padRelease (src : Requester) (value : Word)
  | startupContinuationDone (trained : List Bool) (rowsApplied : List Bool)
  | coreHoldRelease (src : Requester) (value : Word)
  | autoIdleExpiry
  | powerEntryComplete
  | wakeEvent (source : WakeSource) (held : List HeldAccess)
  | wakeComplete
  | laneRemap (src : Requester) (p : Fin 32) (value : Word)
  | laneRestore (src : Requester) (p : Fin 32) (value : Word)
  | laneRemapDone (p : Fin 32) (trained : Bool)
  | cpPairSwitch (src : Requester) (value : Word)
  | sparePairReady (imageAOk : Bool) (imageBOk : Bool)
  | repairRecordWriteDone (readBackOk : Bool)
  | selfRefreshExit
  | atsEnable (en : Bool)
  | tierARowReport (stack : Fin 8) (pseudoChannel : Nat) (bank : Nat) (row : Nat)
deriving DecidableEq, Repr

end Sys2Proof
end

