-- ==== Sys2Proof/WellFormed.lean ====
section
/-!
DEFINITION. Well-formed commands: what an operand can be. Operands that name a register, a queue, a ring and the like
are bounded by their type already (Syntax.lean); the checks here bound the addresses, the lengths, the node IDs and the
tags that the type leaves open.
-/
namespace Sys2Proof

/-- An offset in BAR0, 64 MiB (R47). -/
def wfOffset (off : Nat) : Bool := decide (off < 2 ^ 26)

/-- A local address has 48 bits (R27). -/
def wfLocal (a : Nat) : Bool := decide (a < 2 ^ 48)

/-- A host address has 64 bits. -/
def wfHost (a : Nat) : Bool := decide (a < 2 ^ 64)

/-- An offset in BAR2, at most 8 TiB (R48). -/
def wfBar2 (off : Nat) : Bool := decide (off < 2 ^ 43)

/-- A node ID has 16 bits (R27). -/
def wfNode (n : Nat) : Bool := decide (n < 2 ^ 16)

/-- A message tag has 16 bits (R262). -/
def wfTag (t : Nat) : Bool := decide (t < 2 ^ 16)

/-- An offset in a host aperture, 64 GiB (R29). -/
def wfAperture (off : Nat) : Bool := decide (off < 2 ^ 36)

/-- A task's index has 32 bits (R52). -/
def TaskRef.wf (t : TaskRef) : Bool := decide (t.index < 2 ^ 32)

/-- A PCIe request carries at most 4,096 bytes. -/
def wfPayload (n : Nat) : Bool := decide (0 < n) && decide (n ≤ 4096)

/-- A request at an arbiter covers 1 to 512 bytes; the fabric port has the most groups of slots, 32 (R312). -/
def BurstReq.wf (b : BurstReq) : Bool := decide (0 < b.len) && decide (b.len ≤ 512) && decide (b.channel < 32)

/-- A message packet: node, tag, slot and port number in range, payload of whole 8-byte words up to 240 bytes (R264). -/
def MessagePacket.wf (m : MessagePacket) : Bool :=
  wfNode m.src && wfTag m.tag && decide (m.slot < 65536) && decide (m.port < 64) &&
    decide (m.payload.length ≤ 240) && decide (m.payload.length % 8 = 0)

/-- A translation covers at least a page of 4 KiB and ends in the address space (R237). -/
def Xlation.wf (x : Xlation) : Bool := decide (0 < x.len) && wfHost x.addr

/-- A line index of a module has 33 bits (R299). -/
def LineErrors.wf (e : LineErrors) : Bool := e.returned.all (fun i => decide (i < 2 ^ 33))

/-- A row of a module: device 0 to 17, a 4-bit bank, an 18-bit row (R310). -/
def RowAddr.wf (r : RowAddr) : Bool := decide (r.dev < 18) && decide (r.bank < 16) && decide (r.row < 2 ^ 18)

/-- Who owns a request. -/
def FabricOwner.wf : FabricOwner → Bool
  | .taskRead t _ => t.wf
  | .taskWrite t => t.wf
  | .piece t _ _ _ => t.wf
  | .sendPort _ => true

/-- Who owns a host request. -/
def HostOwner.wf : HostOwner → Bool
  | .taskRead t _ => t.wf
  | .taskFlush t => t.wf
  | .ringRead _ => true
  | .recordFlush t => t.wf
  | .aperture _ _ => true

/-- A well-formed command. -/
def Instr.wf : Instr → Bool
  | .registerWrite _ off len value => wfOffset off && wfPayload len && decide (value < 256 ^ len)
  | .pairLowRead _ span => wfOffset span.offset && wfPayload span.len
  | .rcRegisterRead _ off len => wfOffset off && wfPayload len
  | .bar2Read off len _ _ => wfBar2 off && wfPayload len
  | .bar2Write off bytes _ _ => wfBar2 off && wfPayload bytes.length
  | .bar2Atomicop off => wfBar2 off
  | .apertureLoad _ _ off _ _ => wfAperture off
  | .apertureStore _ _ off _ => wfAperture off
  | .coreLoad _ a _ _ _ => wfLocal a
  | .coreStore _ a _ _ => wfLocal a
  | .coreAtomic _ a _ _ => wfLocal a
  | .fabricRemoteAccess n (.read a _) _ => wfNode n && wfLocal a
  | .fabricRemoteAccess n (.write a _) _ => wfNode n && wfLocal a
  | .fabricRemoteAccess n (.atomic a _) _ => wfNode n && wfLocal a
  | .pushWindowWrite _ _ off _ => decide (off < 1024)
  | .blockListFetchComplete t _ => t.wf
  | .rangeStoreReserve t => t.wf
  | .translationCompletion t (.ok xs) => t.wf && xs.all Xlation.wf
  | .translationCompletion t .error => t.wf
  | .translationTimeout t => t.wf
  | .pageRequestGroup t => t.wf
  | .invalidateRequest _ _ a len => wfHost a && decide (0 < len)
  | .readIssue t => t.wf
  | .readResponse t _ _ => t.wf
  | .ingotExpand t => t.wf
  | .executeWrite e => e.task.wf
  | .compressBlockDone t => t.wf
  | .writeAck t _ => t.wf
  | .flushReadCompletion t _ => t.wf
  | .completionRecordWrite t => t.wf
  | .completionRecordAck t _ => t.wf
  | .journalAppend t _ => t.wf
  | .waitComplete t => t.wf
  | .fenceComplete t => t.wf
  | .collectiveCreditGrant t rank _ _ => t.wf && decide (rank < 65536)
  | .collectivePieceSend t rank => t.wf && decide (rank < 65536)
  | .collectivePieceReceive t p => t.wf && decide (p.rank < 65536)
  | .multicastDetachTimeout t rank => t.wf && decide (rank < 65536)
  | .fabricRequestTimeout o => o.wf
  | .hostRequestTimeout o => o.wf
  | .fabricPacketCrcFail _ _ src o => wfNode src && o.wf
  | .creditRequestArrival n t _ => wfNode n && wfTag t
  | .creditAnswerArrival n t _ => wfNode n && wfTag t
  | .creditRetryBackoff n t => wfNode n && wfTag t
  | .messagePacketArrival p _ => p.wf
  | .messageSlotWritten _ slot => decide (slot < 65536)
  | .deliveryReply n t _ => wfNode n && wfTag t
  | .slotGrantTimeout _ slot => decide (slot < 65536)
  | .heartbeatReceive n _ => wfNode n
  | .tierBRead a e row _ => wfLocal a && e.wf && row.wf
  | .scrubRead _ e row => e.wf && row.wf
  | .evacuationCopyLine e row => e.wf && row.wf
  | .refreshDue _ bank _ => decide (bank < 16)
  | .arbiterRequestArrival _ r => r.wf
  | .arbiterDecision _ _ contenders => contenders.arriving.all BurstReq.wf
  | .queueCreate (.ok xs) => xs.all Xlation.wf
  | .wakeEvent (.fabric n) _ => wfNode n
  | .tierARowReport _ pc bank row => decide (pc < 256) && decide (bank < 256) && decide (row < 2 ^ 32)
  | _ => true

end Sys2Proof
end

