-- ==== Sys2Proof/Decode.lean ====
section
/-!
DEFINITION. Words of spec/opcode_table.json: the table lists 172 commands and gives none of them any bits, so no word
spells a command.
-/
namespace Sys2Proof

/-- The command a word of `nbits` bits spells: none, since no row of the table gives bits. -/
def decodeTableWord (_nbits _w : Nat) : Option Instr := none

end Sys2Proof
end

