-- ==== Sys2Proof/Machine/State.lean ====
section
/-!
DEFINITION. The state of the block, as plain data: the register file, local memory, and every queue, buffer, table,
timer and mode the spec gives Sisan outside its register tables. Registers have ONE home, `State.regs`, keyed by their
offset in the register region (R46); `Sys2Proof/Machine/RegMap.lean` names them and gives their reset values.
-/
namespace Sys2Proof.Machine

/-- Sparse data by key, in one canonical form: keys strictly rising, no entry equal to what an unlisted key reads as. -/
abbrev SMap (α : Type) := List (Nat × α)

/-! ### Memory protection and translation -/

/-- A device region table entry in force (R41, R42): first byte of the first page, first byte of the last page. -/
structure DrtEntry where
  base : Nat
  limit : Nat
  valid : Bool
  read : Bool
  write : Bool
  atomic : Bool
  ctx : Nat
deriving DecidableEq, Repr

/-- One range of a range list (R237): host start, address it is sent to, length, permissions, whether it is addressed
untranslated (R241), and whether an invalidation has marked it (R252). -/
structure XRange where
  host : Nat
  addr : Nat
  len : Nat
  read : Bool
  write : Bool
  untranslated : Bool
  marked : Bool
deriving DecidableEq, Repr

/-- A cached translation (R244), by the PASID it was formed under. -/
structure CacheEntry where
  pasid : Option (BitVec 20)
  range : XRange
deriving DecidableEq, Repr

/-- A page that faulted (R241, R245): its host address, the access it needs, and how often it has been requested. -/
structure FaultPage where
  addr : Nat
  read : Bool
  write : Bool
  tries : Nat
deriving DecidableEq, Repr

/-- A page-request group outstanding (R245). -/
structure PrgRun where
  prg : Nat
  task : TaskRef
  pages : List FaultPage
deriving DecidableEq, Repr

/-- An Invalidate Request being processed (R251). -/
structure Inval where
  pasid : Option (BitVec 20)
  global : Bool
  addr : Nat
  len : Nat
deriving DecidableEq, Repr

/-- A Translation Request outstanding (R240): the first host address, the length asked for, the core cycle of the
request, and the invalidations that have arrived since and may make its answer void (R253). With length 0 it has been
answered in vain, and is issued again once the invalidations in `voids` have completed. -/
structure XlateReq where
  addr : Nat
  len : Nat
  write : Bool
  at_ : Nat
  voids : List Inval
deriving DecidableEq, Repr

/-- A piece of a task's host footprint (R236, R237). -/
structure HostPiece where
  addr : Nat
  len : Nat
  read : Bool
  write : Bool
deriving DecidableEq, Repr

/-! ### Tasks and their data path -/

/-- Where a request of a task goes: this chip's memory, another node's memory, or the host (R27). -/
inductive Space where
  | device
  | host
deriving DecidableEq, Repr

/-- What a read is for (R15, R131, R165, R200). -/
inductive ReadKind where
  | data
  | index
  | prior
  | ingotHeader (i : Nat)
  | ingotPayload (i : Nat)
deriving DecidableEq, Repr

/-- A read request of at most 512 bytes (R204). A device address is a global address (R27). -/
structure ReadReq where
  space : Space
  addr : Nat
  len : Nat
  kind : ReadKind
  first : Nat
deriving DecidableEq, Repr

/-- An issue-queue entry (R204): the read's number, the staging space it holds, the core cycle it was issued in, and what
has come back, with the marks of the tier-B controllers (R301, R303). `emitted` is set once an expander has turned a payload into its block (R202), `taken` once the execute side
has taken the bytes: the entry leaves the issue queue then, and its staging space is held until every byte is consumed. -/
structure Issued where
  no : Nat
  req : ReadReq
  alloc : Nat
  at_ : Nat
  answered : Bool
  bytes : List Byte
  corrected : Bool
  refreshed : Bool
  emitted : Bool
  taken : Bool
deriving DecidableEq, Repr

/-- One byte of a write: its address, the bits written and their values (R102). -/
structure WCell where
  addr : Nat
  mask : Byte
  val : Byte
deriving DecidableEq, Repr

/-- A write request on its way to its point of coherence; `tile` is the delivery tile it fills; `atomic` is set for the
combination an arrival-mode task sends to another node (R166); `at_` is the core cycle it left in. -/
structure WriteReq where
  space : Space
  cells : List WCell
  tile : Option Nat
  atomic : Option AtomicReq
  at_ : Nat
deriving DecidableEq, Repr

/-- Where a task stands on its way (How a task flows, R21 to R22, R57, R248). -/
inductive Phase where
  | blockList
  | waitRanges
  | translating
  | bindWait
  | queued
  | running
  | failing
  | finished
  | recordIssued
  | journal
deriving DecidableEq, Repr

/-- The tiles of a delivery stream that a task carries (R212). -/
structure Binding where
  stream : Fin 256
  first : Nat
  count : Nat
deriving DecidableEq, Repr

/-- A piece on its way to another member: its node and tag, its rank, stage and index, the core cycle it was sent in and
its fabric port (R260, R261, R275). -/
structure PieceOut where
  node : Nat
  tag : Nat
  rank : Nat
  stage : Nat
  index : Nat
  at_ : Nat
  port : Option Nat
deriving DecidableEq, Repr

/-- The exchange state of a COLLECTIVE task (R175 to R181): its sequence number, what peers announced before it was
dispatched, credits held as (rank, stage, piece), credits granted to others, pieces sent and those of them that wait for
their delivery reply, received bytes keyed by rank, stage and position, pieces received, detached members, and the core cycle in which
a BROADCAST root became ready to send its present piece. -/
structure CollRun where
  seqNo : Nat
  announced : List Announcement
  credits : List (Nat × Nat × Nat)
  granted : List (Nat × Nat × Nat)
  sent : List (Nat × Nat × Nat)
  awaiting : List PieceOut
  received : List (Nat × Nat × Nat)
  bytes : SMap (Option Byte)
  detached : List Nat
  readyAt : Option Nat
deriving DecidableEq, Repr

/-- An accepted task, from acceptance until its journal record is appended (R16, R73). `todo` is the host footprint not
yet translated, `seen` the wait flags already seen set, `hdrs` the checked ingot headers in the order of the stream,
`emitted` the destination's elements written so far in output order, none for one that is not kept, `record` the
completion record whose write has been issued and, once that has ended, the journal record, `acceptAt` the core cycle of
acceptance and `closeWait` the core cycles it has waited behind an incomplete STEP_CLOSE (R230). `subCycle` is the core
cycle of submission (R74), `failedAt` that of its failure (R22), `reachAt` the one in which its record reached its ring
(R85), `journalAt` the one in which its journal record was ready (R363), `flushAt` and `recordAt` those in which its flushing read and its record left (R90). `gather` holds the lines its
writes are being gathered into (R36). -/
structure Task where
  ref : TaskRef
  entry : List Byte
  phase : Phase
  status : Status
  tSubmit : Nat
  subCycle : Nat
  acceptAt : Nat
  closeWait : Nat
  failedAt : Nat
  reachAt : Option Nat
  journalAt : Nat
  tDispatch : Nat
  tDone : Nat
  eligible : Bool
  seen : List Nat
  ranges : List XRange
  reserved : Nat
  todo : List HostPiece
  faults : List FaultPage
  xreq : Option XlateReq
  blocks : List (Nat × Nat)
  fillBind : Option Binding
  drainBind : Option Binding
  engine : Option (Fin 68)
  lane : Option (Fin 16)
  expander : Option Nat
  compressor : Option Nat
  robUnits : Nat
  readsIssued : Nat
  issueQ : List Issued
  consumed : SMap (Option Byte)
  runsTaken : Nat
  blocksWritten : List Nat
  emitted : List (Option Nat)
  hdrs : List (List Byte)
  image : SMap (Option Byte)
  ingotsDone : Nat
  gather : List WriteReq
  pendingW : List WriteReq
  hostLast : Option Nat
  flushing : Bool
  flushAt : Nat
  flushed : Bool
  freeBase : Nat
  bytes : Nat
  digest : DWord
  record : List Byte
  recordPos : Nat
  recordAt : Nat
  recordLost : Bool
  coll : CollRun
deriving DecidableEq, Repr

/-! ### Queues and rings -/

/-- What the queue interface holds of a submission queue beside its registers (R50, R64, R66, R68, R74): `life` tells its
tasks from those of an earlier queue of its number, `answeredAt` is the core cycle of the last header response, `pubs` the
published units not yet accepted with the counter and the core cycle of their doorbell, `stale` the host reads of
abandoned fetches that have not answered, by address and core cycle of issue. -/
structure SqRun where
  ranges : List XRange
  life : Nat
  firstRead : Option Nat
  lastRead : Nat
  answeredAt : Nat
  outstanding : Bool
  stale : List (Nat × Nat)
  header : Option (List Byte)
  pushed : Option (List Byte)
  prefetched : List (Nat × List Byte)
  pubs : List (Nat × Nat × Nat)
  latched : Option (List Byte)
deriving DecidableEq, Repr

/-- What the queue interface holds of a completion ring beside its registers (R50, R89): the records written since one
last triggered the ring's message, when the first of them was written, that record while it has not been acknowledged,
and the records whose acknowledgement sends a message. -/
structure CqRun where
  ranges : List XRange
  written : Nat
  firstAt : Option Nat
  first : Option TaskRef
  due : List TaskRef
deriving DecidableEq, Repr

/-- A load through a host aperture that the host has not answered: the core cycle it was sent in, and the host bytes it
reads under which PASID (R39, R40, R254). -/
structure ApLoad where
  core : Nat
  ap : Nat
  offset : Nat
  len : Nat
  at_ : Nat
  pasid : Option (BitVec 20)
  host : List (Nat × Nat)
deriving DecidableEq, Repr

/-! ### Streams and the step -/

/-- The active copy of a delivery stream (R209, R210) with what the running step has done with it: whether
RELEASE_FAILED has released it (R222); the tiles filled with every line acknowledged, or read out (R214, R215), those
whose generation word has been issued, those whose word is never written since their task failed (R206), those complete; and the marks of the last read of each tile to answer, with
whether it crossed the host link (R220). -/
structure DsRun where
  drain : Bool
  barrier : Bool
  lead : Nat
  tileBytes : Nat
  queue : Nat
  ring : Nat
  gen : Nat
  first : Nat
  period : Nat
  use : Nat
  tiles : Nat
  bad : Bool
  released : Bool
  ready : List Nat
  genIssued : List Nat
  voided : List Nat
  done : List Nat
  lastMarks : SMap (Option (ReadMarks × Bool))
deriving DecidableEq, Repr

/-- A hold cycle whose cause is decided later (R220): the stream, the judged tile, the cycles so far. -/
structure Deferred where
  stream : Nat
  tile : Nat
  cycles : Nat
deriving DecidableEq, Repr

/-! ### Fabric -/

/-- A message in a send port's FIFO (R267, R268). `order` is its place in the order of acceptance: 64 × the core cycle of
acceptance, or of the RESUME that resumed it (R270), + its port's number. `sent` is set once it has gone to its granted
slot, in core cycle `at_` by fabric port `port` (R261, R406). -/
structure Msg where
  num : Word
  seq : Word
  node : Nat
  tag : Nat
  len8m1 : Nat
  payload : List Byte
  order : Nat
  slot : Option Nat
  sent : Bool
  at_ : Nat
  port : Option Nat
deriving DecidableEq, Repr

/-- A send port (R267, R274): its messages, oldest first, and the core cycles its oldest undelivered one has waited. -/
structure SendPort where
  fifo : List Msg
  waited : Nat
deriving DecidableEq, Repr

/-- A credit request's state at the source (R269). -/
inductive CreditState where
  | requested
  | queued
  | backoff (wait : Nat)
deriving DecidableEq, Repr

/-- The one credit request of a (destination node, tag) (R269): its slots, its state, its next back-off, the core cycle it
was sent in or was told to retry in, and the fabric port it was sent on (R406). -/
structure CreditPair where
  node : Nat
  tag : Nat
  count : Nat
  state : CreditState
  wait : Nat
  at_ : Nat
  port : Option Nat
deriving DecidableEq, Repr

/-- A slot granted by a receive endpoint (R269, R271): its address, the phase its header carries, the grantee, the core cycle
of the grant, and the message whose payload has been written, once it has arrived (R265). -/
structure RxGrant where
  slot : Nat
  addr : Nat
  node : Nat
  phase : Bool
  at_ : Nat
  msg : Option MessagePacket
deriving DecidableEq, Repr

/-- A receive endpoint (R269): waiting requests in order of arrival, and granted slots. -/
structure RxRun where
  wait : List (Nat × Nat)
  granted : List RxGrant
deriving DecidableEq, Repr

/-- The last heartbeat seen of a watched peer (R277). -/
structure PeerRun where
  lastBeat : Nat
  incarnation : Option DWord
deriving DecidableEq, Repr

/-! ### Tier B, arbiters -/

/-- A row of a controller's tracking table, most recently corrected first (R306). -/
structure RowTrack where
  row : RowAddr
  count : Nat
deriving DecidableEq, Repr

/-- What a line read at a tier-B controller is for: a request (of a task, or of another requester), the scrub, the
evacuation's copy. -/
inductive LineUse where
  | request (owner : Option TaskRef)
  | scrub
  | copy
deriving DecidableEq, Repr

/-- A line read that waits: one its controller has accepted, for the refresh of its bank (R303); one of the scrub or the copy that
it has not, for tier B to serve (R391). -/
structure HeldLine where
  use : LineUse
  accepted : Bool
  addr : Nat
  errors : LineErrors
  row : RowAddr
deriving DecidableEq, Repr

/-- A tier-B site (R296, R302, R303, R306): tracking table, next scrub line and the core cycle of the last scrub read, banks under
refresh with the core cycle each ends in, the reads that wait for them, refresh rate to apply from the next interval and the core
cycle it was last read in, serial number of the module, whether its SPD hub has answered at this start. -/
structure SiteRun where
  track : List RowTrack
  scrubLine : Nat
  scrubAt : Option Nat
  refreshing : List (Nat × Nat)
  held : List HeldLine
  nextRate : Nat
  polledAt : Option Nat
  serial : Nat
  spdDone : Bool
deriving DecidableEq, Repr

/-- A running evacuation (R308). -/
structure EvacRun where
  lm : Nat
  source : Nat
  target : Nat
  line : Nat
deriving DecidableEq, Repr

/-- What a request competes with (R313 to R315): its requester number, its stream, its rank and its age key. -/
structure ReqKey where
  requester : Nat
  stream : Nat
  rank : Nat
  age : Nat
deriving DecidableEq, Repr

/-- A burst on a slot, with the core cycle of its grant (R316, R322). -/
structure Burst where
  req : BurstReq
  key : ReqKey
  at_ : Nat
deriving DecidableEq, Repr

/-- A request at an arbiter that has not been granted: its place in the order of issue, when it first arrived, and in retry
service when it was last refused and how long it waits (R313, R318). -/
structure Waiting where
  req : BurstReq
  key : ReqKey
  seq : Nat
  at_ : Nat
  since : Nat
  wait : Nat
deriving DecidableEq, Repr

/-- A port arbiter (R312, R316, R318, R320): its slots, its pending queue, the requests in back-off, those a requester
holds because the pending queue is full, the grants counted on each channel, and the requests that have arrived. -/
structure ArbRun where
  slots : SMap (Option Burst)
  parked : List Waiting
  backoff : List Waiting
  held : List Waiting
  grants : SMap Nat
  issued : Nat
deriving DecidableEq, Repr

/-! ### Management, repair record, power -/

/-- A packet read from the management ring (R326, R330). -/
structure Packet where
  bytes : List Byte
  index : Word
deriving DecidableEq, Repr

/-- A reply that is ready (R327, R331), without its PHASE. `last` marks a final reply; `waits` are the tasks in the scope of
an ABORT, counted as the reply is written (R337). -/
structure Reply where
  cmdId : Word
  status : Status
  opcode : Byte
  last : Bool
  index : Word
  result : List Byte
  waits : List TaskRef
deriving DecidableEq, Repr

/-- A row entry of the repair record (R397). -/
structure RowEntry where
  kind : Nat
  unit : Nat
  state : Nat
  dev : Nat
  serial : Nat
  bank : Nat
  row : Nat
deriving DecidableEq, Repr

/-- A lane map entry (R396). -/
structure LaneMap where
  spared : Bool
  lane : Nat
deriving DecidableEq, Repr

/-- The repair record's content (R396). `engPos` names the engine at each logical position, 0xFF for a vacant one. -/
structure RepairRecord where
  seq : Word
  pair : Nat
  engPos : List Nat
  engRetired : List Nat
  compRetired : List Nat
  expRetired : List Nat
  siteMap : List Nat
  siteState : List Nat
  serials : List Nat
  laneTx : List LaneMap
  laneRx : List LaneMap
  rows : List RowEntry
deriving DecidableEq, Repr

/-- An ENGINE_RETIRE in progress (R344): the unit, the task it waits for, and the outcome once the spare is in. -/
structure RetireRun where
  packet : Packet
  kind : Nat
  unit : Nat
  persist : Bool
  task : Option TaskRef
  spare : Option Nat
  position : Nat
  drained : Bool
deriving DecidableEq, Repr

/-- What an ABORT waits for (R337). -/
structure AbortRun where
  packet : Packet
  tasks : List TaskRef
  scope : List TaskRef
deriving DecidableEq, Repr

/-- A FIRMWARE_STAGE in progress (R350). -/
structure StageRun where
  packet : Packet
  image : Nat
  version : Word
deriving DecidableEq, Repr

/-- A FIRMWARE_SWITCH in progress (R351). -/
structure SwitchRun where
  packet : Packet
  image : Nat
  persist : Bool
  at_ : Nat
deriving DecidableEq, Repr

/-- A TABLE_LOAD whose image is being installed (R192). -/
structure LoadRun where
  packet : Packet
  slot : Nat
  gen : Nat
  lens : List Nat
deriving DecidableEq, Repr

/-- What the command processor holds beside its registers (R325 to R328). `readFirst` is the core cycle of the first
read of the packet at HEAD, `readLast` of the latest. -/
structure MqRun where
  readFirst : Option Nat
  readLast : Nat
  outstanding : Bool
  tail : Nat
  cur : Option Packet
  replies : List Reply
  epoch : Option Packet
  retire : Option RetireRun
  evac : Option Packet
  stage : Option StageRun
  switch : Option SwitchRun
  abort : Option AbortRun
  load : Option LoadRun
  close : Option (Packet × Nat)
  powerTo : Option Nat
deriving DecidableEq, Repr

/-- The block's power state (R385). -/
inductive PState where
  | active | idleGated | bankHold | retention | off
deriving DecidableEq, Repr

/-- Where start-up stands (R382 to R384): Zuqueco's checks not finished, paused until PAD_RELEASE, continuing, done,
stopped because a stack failed or no image verified. -/
inductive Startup where
  | checks | paused | continuing | done | stopped
deriving DecidableEq, Repr

/-- What has left the block. The list is the model's own (log 7). -/
inductive Out where
  | msix (vector : Nat)
  | regData (src : Requester) (value : Word)
  | bar2Data (bytes : List Byte)
  | unsupportedRequest
  | completerAbort
  | coreData (core : Nat) (bytes : List Byte)
  | hostRead (addr : Nat) (len : Nat) (pasid : Option (BitVec 20)) (translated : Bool)
  | hostWrite (addr : Nat) (bytes : List Byte) (pasid : Option (BitVec 20)) (noSnoop : Bool) (translated : Bool)
  | flushRead (addr : Nat) (pasid : Option (BitVec 20)) (translated : Bool)
  | remoteRead (addr : Nat) (len : Nat) (port : Nat)
  | remoteWrite (cells : List WCell) (port : Nat)
  | remoteAtomic (addr : Nat) (req : AtomicReq) (port : Nat)
  | fabricAnswer (node : Nat) (status : Status) (bytes : List Byte)
  | translationRequest (addr : Nat) (len : Nat) (pasid : Option (BitVec 20)) (noWrite : Bool)
  | pageRequest (addr : Nat) (prg : Nat) (read : Bool) (write : Bool) (last : Bool) (pasid : Option (BitVec 20))
  | invalidateCompletion
  | creditRequest (node : Nat) (tag : Nat) (count : Nat) (port : Nat)
  | creditGrant (node : Nat) (tag : Nat) (slots : List Nat) (port : Nat)
  | creditQueued (node : Nat) (tag : Nat) (port : Nat)
  | creditRetry (node : Nat) (tag : Nat) (port : Nat)
  | message (node : Nat) (tag : Nat) (slot : Nat) (seq : Word) (payload : List Byte) (port : Nat)
  | creditWithdrawn (node : Nat) (tag : Nat) (port : Nat)
  | creditRefused (node : Nat) (tag : Nat) (status : Status) (port : Nat)
  | messageAnswer (node : Nat) (tag : Nat) (seq : Word) (status : Status) (port : Nat)
  | heartbeat (node : Nat) (incarnation : DWord) (port : Nat)
  | collectiveCredit (node : Nat) (ctag : Nat) (stage : Nat) (piece : Nat) (ann : Announcement) (port : Nat)
  | collectivePiece (node : Nat) (ctag : Nat) (piece : Piece) (port : Nat)
  | failureNotice (node : Nat) (ctag : Nat) (status : Status) (port : Nat)
  | resendRequest (port : Nat) (source : Nat)
  | retryAnswer (port : Nat) (requester : Nat)
  | burstError (port : Nat) (owner : BurstOwner)
  | i3cRead (site : Nat)
deriving DecidableEq, Repr

/-- A wake event presented while the block enters a state (R387): its source, its core cycle, the global time counter then. -/
structure LatchedWake where
  source : WakeSource
  at_ : Nat
  time : Nat
deriving DecidableEq, Repr

/-! ### The present core cycle (R7, R283, R413) -/

/-- A first-event record that a failure latches (R413): it lands in the next core cycle. Of those of one cycle the one
with the lowest `key` is recorded; `off` is the register with VALID in bit 31, `also` the registers recorded with it. -/
structure Latch where
  off : Nat
  key : Nat
  val : Nat
  also : List (Nat × Word)
deriving DecidableEq, Repr

/-- A machine-check event (R356, R373): `time` is the global time counter as it was detected. -/
structure McEvent where
  source : Nat
  unit : Nat
  status : Status
  task : Option TaskRef
  addr : Nat
  time : Nat
deriving DecidableEq, Repr

/-- What the events of this core cycle cause elsewhere; it lands in the next one (R413): flags set or cleared by records that have
been acknowledged, statuses latched by failures, entries of the machine-check log, the failure notices of COLLECTIVE tasks
(R181). -/
structure Later where
  events : List McEvent
  flags : List (Nat × Bool)
  latches : List Latch
  notices : List TaskRef
deriving DecidableEq, Repr

/-- What has happened in the present core cycle, for the same-cycle rules: the W1C bits that hardware has set, by register
(R7, R79); the RC registers hardware has counted up, with the word before and the amount (R7); the bytes of local memory
accepted at their point of coherence, with the byte before (R283); whether a task has been dispatched (R74); the timers
that have been armed or have fired (R81). -/
structure CycleRun where
  sets : SMap Word
  counted : SMap (Option (Word × Nat))
  before : SMap (Option Byte)
  dispatched : Bool
  timers : List Nat
deriving DecidableEq, Repr

/-- A core cycle in which nothing has happened yet. -/
def CycleRun.fresh : CycleRun := { sets := [], counted := [], before := [], dispatched := false, timers := [] }

/-- The state of the block. -/
structure State where
  /-- The register file (R46), keyed by offset; an unlisted register reads as its reset value. -/
  regs : SMap Word
  /-- Staged low words (R5), keyed by requester and offset. -/
  staged : SMap (Option Word)
  /-- Latched high words (R5), keyed by requester and offset. -/
  latched : SMap (Option Word)
  /-- Device region tables in force (R42), keyed by 1,024 × group + entry. -/
  drt : SMap DrtEntry
  /-- log2 of the BAR2 size (R48). -/
  bar2Log2 : Nat
  /-- Local memory: tier A, tier B and the scratchpad, keyed by local address (R29). -/
  mem : SMap Byte
  /-- Which loss of power the content that nothing has written since dates from (R377, log 12); 0 from reset (log 1). -/
  memGen : Nat
  /-- The push windows (R58), keyed by 1,024 × queue + offset. -/
  push : SMap Byte
  /-- The payload windows of the send ports (R281), keyed by 256 × port + offset. -/
  spPayload : SMap Byte
  /-- MODEL'S OWN (log 8): the counter that free values are applied to. -/
  freeCtr : Nat
  /-- MODEL'S OWN (log 7): what has left the block, newest first. -/
  out : List Out
  /-- MODEL'S OWN (log 3): core cycles since power came on. Waits are measured by it; times that software sees are the
  global time counter's. -/
  cycle : Nat
  /-- Host requests that wait for DL_Up at the host port arbiter (R379), oldest first, and the core cycle of the last DL_Up. -/
  hostHeld : List Out
  linkUpAt : Nat
  /-- What has happened in this core cycle. -/
  now : CycleRun
  /-- What lands in the next core cycle. -/
  later : Later
  /-- Second core cycle of the array cycle (R1). -/
  halfCycle : Bool
  /-- Core cycles by which a backward correction holds the global time counter (R393). -/
  gtcHold : Nat
  sqs : SMap SqRun
  cqs : SMap CqRun
  /-- Accepted tasks, in order of acceptance (R73). -/
  tasks : List Task
  /-- Bound host apertures (R38): the owning task, keyed by aperture. -/
  apertures : SMap (Option TaskRef)
  apLoads : List ApLoad
  /-- Active delivery streams (R209), keyed by stream. -/
  ds : SMap (Option DsRun)
  barriers : List Nat
  /-- The step-end strobe lies in the present array cycle, which is the step's last (R207). -/
  stepEnding : Bool
  /-- The step-end strobe has been seen since the last boundary (R232). -/
  stepEndSeen : Bool
  /-- A step boundary stands that no step has used (R207). -/
  boundaryFresh : Bool
  /-- Array cycles the present hold has lasted, and whether R221 has reported it. -/
  holdLen : Nat
  holdReported : Bool
  deferred : List Deferred
  /-- The step whose hold counts are kept at the end of this array cycle (R365). -/
  holdClose : Option Word
  /-- The STEP_CLOSE being carried out, and whether its boundary has been applied (R232). -/
  closing : Option (TaskRef × Bool)
  xcache : List CacheEntry
  invals : List Inval
  /-- Translation Requests outstanding whose tasks have left the block, with the core cycle of each (R240). -/
  xorphans : List (TaskRef × Nat)
  prgs : List PrgRun
  /-- The host's Outstanding Page Request Allocation and the Response Failure bit (R245, R246). -/
  priAlloc : Nat
  priFailure : Bool
  /-- COLLECTIVE tasks dispatched per CTAG since reset (R175). -/
  ctagSeq : SMap Nat
  /-- Installed decode tables (R190): code lengths, keyed by slot. -/
  tables : SMap (List Nat)
  /-- Retired compressors and expanders, in force (R344, R400). -/
  compRetired : List Nat
  expRetired : List Nat
  /-- Fabric ports draining (R260). -/
  draining : List Nat
  /-- Packets that wait for a fabric port, oldest first (R260, R406). -/
  fabricHeld : List Out
  ports : SMap SendPort
  /-- Messages per (destination node, tag) since FE_CTL.EN was last set (R268), keyed by 65,536 × node + tag. -/
  msgSeq : SMap Word
  credits : List CreditPair
  rx : SMap RxRun
  peers : SMap PeerRun
  /-- The core cycle in which the next heartbeats are due (R276). -/
  beatDue : Nat
  sites : SMap SiteRun
  evac : Option EvacRun
  arbs : SMap ArbRun
  mq : MqRun
  /-- The two copies of the repair record in flash, `none` for an invalid one (R395). -/
  flash0 : Option RepairRecord
  flash1 : Option RepairRecord
  /-- The repair record in force with every change applied since (R398). -/
  record : RepairRecord
  /-- The copy being written (R398). -/
  recordWrite : Option RepairRecord
  /-- Changes have arrived during a record write, or wait for one (R398). -/
  recordDirty : Bool
  stackIds : List (List Byte)
  power : PState
  entering : Option PState
  /-- A wake in progress: the state left (R386). -/
  waking : Option PState
  /-- The core cycle in which the entry or the wake in progress began, and that of the event behind the wake (R386, R387, R392). -/
  powerAt : Nat
  wakeSeen : Nat
  latchedWake : Option LatchedWake
  wakeBuf : List HeldAccess
  /-- The processor supplies power (R385). -/
  powered : Bool
  /-- Tier-B requests that wait for tier B to serve (R391), oldest first; the requests of tasks wait in their tasks. -/
  padWait : List HeldAccess
  startup : Startup
  /-- A self-reset or Off exit has this start's sites kept in self-refresh (R384, R390). -/
  coldStart : Bool
  /-- A self-reset is being restored (R380). -/
  restoring : Bool
  padExit : Bool
  /-- The core cycle of the last PAD_RELEASE that acted (R390). -/
  padAt : Nat
  /-- The core cycle in which this start began to read the SPDs (R296). -/
  checksAt : Nat
  linkDown : Bool
  linkDownCycles : Nat
  idleCycles : Nat
  /-- The commands waiting, first in, first out: the block form's queue. -/
  pending : List Instr
deriving DecidableEq, Repr

/-- Why a step stops. No command of this block stops (every row of the table has an effect on state); the one fault is
kept for a command term that no event of the table spells. SAFE: nothing raises it. -/
inductive Fault where
  /-- Raised by nothing: kept so that the type is inhabited. -/
  | illFormed
deriving DecidableEq, Repr

/-- Why a command is refused. -/
inductive Refusal where
  /-- An arm of `exec` that is not modelled yet, by the row's mnemonic. SAFE: the run stops there. -/
  | notModelled (mnemonic : String)
deriving DecidableEq, Repr

/-- The repair record at shipment (R396). -/
def RepairRecord.shipment : RepairRecord :=
  { seq := 1, pair := 0, engPos := List.range 64, engRetired := [], compRetired := [], expRetired := [],
    siteMap := List.range 8, siteState := [1, 1, 1, 1, 1, 1, 1, 1, 2], serials := List.replicate 9 0,
    laneTx := List.replicate 32 ⟨false, 0⟩, laneRx := List.replicate 32 ⟨false, 0⟩, rows := [] }

/-- The command processor's own state after a reset (R324). -/
def MqRun.empty : MqRun :=
  { readFirst := none, readLast := 0, outstanding := false, tail := 0, cur := none, replies := [], epoch := none,
    retire := none, evac := none, stage := none, switch := none, abort := none, load := none, close := none,
    powerTo := none }

/-- The block right after reset: every register at the reset value of its table (R51 and the other tables), every
structure empty (R377), nothing in memory; start-up stands before Zuqueco's checks (R382). DESIGN CHOICE (log 6): the
power state is Active. DESIGN CHOICE (log 17): flash holds the shipment record in copy 0. -/
def State.reset : State :=
  { regs := [], staged := [], latched := [], drt := [], bar2Log2 := 43, mem := [], memGen := 0, push := [], spPayload := [],
    freeCtr := 0, out := [], cycle := 0, hostHeld := [], linkUpAt := 0, now := CycleRun.fresh, later := { events := [], flags := [], latches := [], notices := [] }, halfCycle := false, gtcHold := 0, sqs := [], cqs := [], tasks := [], apertures := [],
    apLoads := [], ds := [], barriers := [], stepEnding := false, stepEndSeen := false, boundaryFresh := true, holdLen := 0,
    holdReported := false, deferred := [], holdClose := none, closing := none, xcache := [], invals := [], xorphans := [], prgs := [], priAlloc := 512,
    priFailure := false, ctagSeq := [], tables := [], compRetired := [], expRetired := [], draining := [], fabricHeld := [], ports := [], msgSeq := [],
    credits := [], rx := [], peers := [], beatDue := 0, sites := [], evac := none, arbs := [], mq := MqRun.empty,
    flash0 := some RepairRecord.shipment, flash1 := none, record := RepairRecord.shipment, recordWrite := none,
    recordDirty := false, stackIds := [], power := .active, entering := none, waking := none, powerAt := 0, wakeSeen := 0, latchedWake := none,
    wakeBuf := [], powered := true, padWait := [], startup := .checks, coldStart := true, restoring := false, padExit := false, padAt := 0, checksAt := 0, linkDown := false,
    linkDownCycles := 0, idleCycles := 0, pending := [] }

end Sys2Proof.Machine
end

