-- ==== Sys2Proof/Machine/Sparse.lean ====
section
/-!
DEFINITION. Sparse data by key: reading, writing and the canonical form of `SMap` (memory, the register file and every
table of the state).
-/
namespace Sys2Proof.Machine

/-- What a key reads as: its entry, or the value `d` gives an unlisted key. -/
def sget {α : Type} (d : Nat → α) : SMap α → Nat → α
  | [], k => d k
  | (k', v) :: t, k => if k = k' then v else sget d t k

/-- The entries of every other key. -/
def serase {α : Type} (m : SMap α) (k : Nat) : SMap α := m.filter (fun p => decide (p.1 ≠ k))

/-- The entry put before the first greater key. -/
def sinsert {α : Type} : SMap α → Nat → α → SMap α
  | [], k, v => [(k, v)]
  | (k', v') :: t, k, v => if k < k' then (k, v) :: (k', v') :: t else (k', v') :: sinsert t k v

/-- Writing a key. Writing what an unlisted key reads as removes the entry. -/
def sset {α : Type} [DecidableEq α] (d : Nat → α) (m : SMap α) (k : Nat) (v : α) : SMap α :=
  if v = d k then serase m k else sinsert (serase m k) k v

/-- Keys strictly rise. -/
def ssorted {α : Type} : SMap α → Bool
  | [] => true
  | [_] => true
  | (k, _) :: (k', v') :: t => decide (k < k') && ssorted ((k', v') :: t)

/-- No entry equals what an unlisted key reads as. -/
def sminimal {α : Type} [DecidableEq α] (d : Nat → α) (m : SMap α) : Bool := m.all (fun p => decide (p.2 ≠ d p.1))

/-- The canonical form. -/
def swf {α : Type} [DecidableEq α] (d : Nat → α) (m : SMap α) : Bool := ssorted m && sminimal d m

end Sys2Proof.Machine
end

