-- ==== Sys2Proof/Machine/Bits.lean ====
section
/-!
DEFINITION. Bit fields of registers and structures, little-endian byte strings (R2) and the small arithmetic the other
files share.
-/
namespace Sys2Proof.Machine

/-- A mask of `n` ones from bit `lo` up. -/
def fieldMask (lo n : Nat) : Word := BitVec.ofNat 32 ((2 ^ n - 1) * 2 ^ lo)

/-- The field of `n` bits from bit `lo` of a register, as a number. -/
def getField (w : Word) (lo n : Nat) : Nat := w.toNat / 2 ^ lo % 2 ^ n

/-- The register with the field of `n` bits from bit `lo` replaced; the value is taken modulo 2^n. -/
def putField (w : Word) (lo n v : Nat) : Word :=
  (w &&& ~~~ (fieldMask lo n)) ||| BitVec.ofNat 32 (v % 2 ^ n * 2 ^ lo)

/-- The bit `i` of a natural number. -/
def natBit (v i : Nat) : Bool := v.testBit i

/-- The field of `n` bits from bit `lo` of a natural number. -/
def natField (v lo n : Nat) : Nat := v / 2 ^ lo % 2 ^ n

/-- A Bool as the bit it stands for. -/
def boolBit (b : Bool) : Nat := if b then 1 else 0

/-- The number a little-endian byte string spells (R2). -/
def leNat : List Byte → Nat
  | [] => 0
  | b :: t => b.toNat + 256 * leNat t

/-- The `n` bytes of a number, little-endian (R2). -/
def leBytes : Nat → Nat → List Byte
  | 0, _ => []
  | n + 1, v => BitVec.ofNat 8 v :: leBytes n (v / 256)

/-- Byte `i` of a structure; bytes past its end read as zero. -/
def byteAt (bs : List Byte) (i : Nat) : Nat := ((bs.drop i).headD 0).toNat

/-- The `n` bytes of a structure from offset `i`, as a number. -/
def uintAt (bs : List Byte) (i n : Nat) : Nat := leNat ((bs.drop i).take n)

/-- A two's-complement reading of the low `n` bits (R9). -/
def signedOf (n v : Nat) : Int := if v % 2 ^ n < 2 ^ (n - 1) then (v % 2 ^ n : Nat) else (v % 2 ^ n : Nat) - (2 ^ n : Nat)

/-- The quotient rounded up. -/
def ceilDiv (a b : Nat) : Nat := if b = 0 then 0 else (a + b - 1) / b

/-- The multiple of `b` at or above `a`. -/
def roundUp (a b : Nat) : Nat := ceilDiv a b * b

/-- A 32-bit counter that saturates at all ones. -/
def satAdd (w : Word) (n : Nat) : Word :=
  if w.toNat + n ≥ 0xFFFFFFFF then 0xFFFFFFFF else BitVec.ofNat 32 (w.toNat + n)

/-- Bytes `bs` written over `old` from offset `i`. -/
def patchBytes (old : List Byte) (i : Nat) (bs : List Byte) : List Byte :=
  old.take i ++ bs ++ old.drop (i + bs.length)

/-- A list brought to length `n`, with zero bytes where it is short. -/
def fitBytes (n : Nat) (bs : List Byte) : List Byte := (bs ++ List.replicate n 0).take n

/-- Do two address intervals of the given lengths share a byte? -/
def overlaps (a la b lb : Nat) : Bool := decide (a < b + lb) && decide (b < a + la)

/-- The numbers of a list that a test keeps, as a bit string. -/
def bitsOfList (n : Nat) (f : Nat → Bool) : Nat :=
  (List.range n).foldl (fun acc i => acc + if f i then 2 ^ i else 0) 0

end Sys2Proof.Machine
end

