-- ==== Sys2Proof/Machine/Formats.lean ====
section
/-!
DEFINITION. Element formats (R95), exact values, rounding (R145, R152), casts (R143 to R152), MX blocks (R97, R149,
R150) and the floating-point arithmetic of the reduce unit (R158).
-/
namespace Sys2Proof.Machine

/-! ### The format table (R95) -/

/-- The width of an element in bits; `none` for a value the table does not list. -/
def fmtWidth : Nat → Option Nat
  | 0x01 => some 8
  | 0x02 => some 16
  | 0x03 => some 32
  | 0x04 => some 64
  | 0x10 => some 2
  | 0x11 => some 4
  | 0x12 => some 8
  | 0x13 => some 16
  | 0x14 => some 32
  | 0x15 => some 64
  | 0x20 => some 16
  | 0x21 => some 16
  | 0x22 => some 32
  | 0x30 => some 8
  | 0x31 => some 8
  | 0x40 => some 8
  | 0x41 => some 8
  | 0x42 => some 6
  | 0x43 => some 6
  | 0x44 => some 4
  | 0x45 => some 8
  | _ => none

/-- The width of a listed format; zero otherwise. -/
def widthOf (f : Nat) : Nat := (fmtWidth f).getD 0

/-- The MX formats (R97). -/
def isMx (f : Nat) : Bool := decide (0x40 ≤ f) && decide (f ≤ 0x45)

/-- The RAW formats. -/
def isRaw (f : Nat) : Bool := decide (1 ≤ f) && decide (f ≤ 4)

/-- The packed formats (R96): narrower than a byte. -/
def isPacked (f : Nat) : Bool := decide (f = 0x10 ∨ f = 0x11 ∨ f = 0x42 ∨ f = 0x43 ∨ f = 0x44)

/-- The integer formats that can be cast (R144). -/
def isInt (f : Nat) : Bool := decide (0x10 ≤ f) && decide (f ≤ 0x14)

/-- The scalar floating-point formats. -/
def isFloat (f : Nat) : Bool := decide (f = 0x20 ∨ f = 0x21 ∨ f = 0x22 ∨ f = 0x30 ∨ f = 0x31)

/-- The arithmetic formats (R144). -/
def isArith (f : Nat) : Bool := isInt f || isFloat f || isMx f

/-- The bytes of an MX row of `e` elements of width `w` (R97). -/
def mxRowBytes (e w : Nat) : Nat := ceilDiv e 256 * 8 + e * w / 8

/-! ### Values -/

/-- The exact value of an element: NaN, an infinity, or sign × m × 2^e. -/
inductive FVal where
  | nan
  | inf (neg : Bool)
  | fin (neg : Bool) (m : Nat) (e : Int)
deriving DecidableEq, Repr

/-- A floating-point format (R146): exponent and mantissa bits, bias, the code of the largest finite magnitude, and
whether it has infinities; `nan` is its canonical NaN where it has one (R147). -/
structure FloatFmt where
  ebits : Nat
  mbits : Nat
  bias : Nat
  maxCode : Nat
  hasInf : Bool
  nan : Nat
deriving DecidableEq, Repr

/-- The parameters of R146, by format; an MX format gives those of its elements. -/
def floatFmt : Nat → Option FloatFmt
  | 0x22 => some ⟨8, 23, 127, 0x7F7FFFFF, true, 0x7FC00000⟩
  | 0x20 => some ⟨5, 10, 15, 0x7BFF, true, 0x7E00⟩
  | 0x21 => some ⟨8, 7, 127, 0x7F7F, true, 0x7FC0⟩
  | 0x30 => some ⟨4, 3, 7, 0x7E, false, 0x7F⟩
  | 0x31 => some ⟨5, 2, 15, 0x7B, true, 0x7E⟩
  | 0x40 => some ⟨4, 3, 7, 0x7E, false, 0x7F⟩
  | 0x41 => some ⟨5, 2, 15, 0x7B, true, 0x7E⟩
  | 0x42 => some ⟨3, 2, 3, 0x1F, false, 0⟩
  | 0x43 => some ⟨2, 3, 1, 0x1F, false, 0⟩
  | 0x44 => some ⟨2, 1, 1, 0x7, false, 0⟩
  | _ => none

/-- The MX emax of R146. -/
def mxEmax : Nat → Int
  | 0x40 => 8
  | 0x41 => 15
  | 0x42 => 4
  | 0x43 => 2
  | 0x44 => 2
  | _ => 0

/-- The value of a code. Magnitudes above the largest finite one are infinity or NaN where the format has them. -/
def FloatFmt.decode (f : FloatFmt) (c : Nat) : FVal :=
  let sign := c.testBit (f.ebits + f.mbits)
  let mag := c % 2 ^ (f.ebits + f.mbits)
  let ex := mag / 2 ^ f.mbits
  let man := mag % 2 ^ f.mbits
  if f.maxCode < mag then (if f.hasInf && decide (man = 0) then .inf sign else .nan)
  else if ex = 0 then .fin sign man (1 - (f.bias : Int) - f.mbits)
  else .fin sign (man + 2 ^ f.mbits) ((ex : Int) - f.bias - f.mbits)

/-- How a cast rounds (R143). -/
inductive Rounding where
  | nearest
  | zero
  | stochastic (r : Nat)
deriving DecidableEq, Repr

/-- A magnitude `m × 2^e` in units of 2^q, rounded to a whole number of units (R145, R152). -/
def roundUnits (rd : Rounding) (m : Nat) (e q : Int) : Nat :=
  if q ≤ e then m * 2 ^ (e - q).toNat
  else
    let sh := (q - e).toNat
    let n := m / 2 ^ sh
    let rem := m % 2 ^ sh
    match rd with
    | .zero => n
    | .nearest =>
      if 2 ^ sh < 2 * rem then n + 1 else if 2 * rem = 2 ^ sh then n + n % 2 else n
    | .stochastic r => if 2 ^ 32 ≤ rem * 2 ^ 32 / 2 ^ sh + r then n + 1 else n

/-- The code of the magnitude nearest `m × 2^e` under a rounding, with an unbounded exponent: the codes of a format
rise with the magnitude, so a code above `maxCode` is an overflow. -/
def FloatFmt.magCode (f : FloatFmt) (rd : Rounding) (m : Nat) (e : Int) : Nat :=
  if m = 0 then 0
  else
    let top : Int := (Nat.log2 m : Int) + e
    let q : Int := max (top - f.mbits) (1 - (f.bias : Int) - f.mbits)
    let n := roundUnits rd m e q
    if n < 2 ^ f.mbits then n
    else if n < 2 ^ (f.mbits + 1) then (q + f.mbits + f.bias).toNat * 2 ^ f.mbits + (n - 2 ^ f.mbits)
    else (q + f.mbits + f.bias + 1).toNat * 2 ^ f.mbits

/-- The sign bit of a format. -/
def FloatFmt.signed (f : FloatFmt) (neg : Bool) (mag : Nat) : Nat :=
  mag + if neg then 2 ^ (f.ebits + f.mbits) else 0

/-- A value in a scalar floating-point target (R145, R147). -/
def FloatFmt.encode (f : FloatFmt) (rd : Rounding) (sat : Bool) : FVal → Nat
  | .nan => f.nan
  | .inf neg =>
    if sat then f.signed neg f.maxCode
    else if f.hasInf then f.signed neg ((2 ^ f.ebits - 1) * 2 ^ f.mbits)
    else f.nan
  | .fin neg m e =>
    let c := f.magCode rd m e
    if c ≤ f.maxCode then f.signed neg c
    else if sat || decide (rd = .zero) then f.signed neg f.maxCode
    else if f.hasInf then f.signed neg ((2 ^ f.ebits - 1) * 2 ^ f.mbits)
    else f.nan

/-- The two's-complement code of an integer in `w` bits. -/
def intCode (w : Nat) (v : Int) : Nat := (v % (2 ^ w : Nat)).toNat

/-- A value in an integer target of `w` bits: rounded, then saturated (R147, R148). -/
def encodeInt (w : Nat) (rd : Rounding) : FVal → Nat
  | .nan => 0
  | .inf neg => if neg then 2 ^ (w - 1) else 2 ^ (w - 1) - 1
  | .fin neg m e =>
    let n := roundUnits rd m e 0
    if neg then intCode w (-(min n (2 ^ (w - 1)) : Nat)) else min n (2 ^ (w - 1) - 1)

/-- The exact value of an element of an arithmetic format that is not MX. -/
def decodeElem (fmt : Nat) (c : Nat) : FVal :=
  match floatFmt fmt with
  | some f => f.decode c
  | none =>
    let v := signedOf (widthOf fmt) c
    .fin (decide (v < 0)) v.natAbs 0

/-- A value scaled by a power of two. -/
def FVal.scale (v : FVal) (x : Int) : FVal :=
  match v with
  | .fin neg m e => .fin neg m (e + x)
  | v => v

/-- The exact value of an MX element: its scale byte above its code (R150). -/
def decodeMx (fmt : Nat) (v : Nat) : FVal :=
  let scale := v / 256
  let code := v % 256
  if scale = 0xFF then .nan
  else
    let e := match floatFmt fmt with
      | some f => f.decode code
      | none => let n := signedOf 8 code; .fin (decide (n < 0)) n.natAbs (-6)
    e.scale ((scale : Int) - 127)

/-- The exact value of an element of any arithmetic format. -/
def valueOf (fmt c : Nat) : FVal := if isMx fmt then decodeMx fmt c else decodeElem fmt c

/-- A value in a target that is not MX (R147, R148). -/
def encodeElem (fmt : Nat) (rd : Rounding) (sat : Bool) (v : FVal) : Nat :=
  match floatFmt fmt with
  | some f => f.encode rd sat v
  | none => encodeInt (widthOf fmt) rd v

/-- One element cast to a target that is not MX; a cast to the input's own format passes the bits (R144). -/
def castElem (src dst : Nat) (rd : Rounding) (sat : Bool) (c : Nat) : Nat :=
  if src = dst then c else encodeElem dst rd sat (valueOf src c)

/-! ### MX blocks (R149) -/

/-- The exponent of a value's magnitude: floor(log2 m). -/
def FVal.log2 : FVal → Option Int
  | .fin _ m e => if m = 0 then none else some ((Nat.log2 m : Int) + e)
  | _ => none

/-- The scale byte of a block (R149). -/
def mxScale (fmt : Nat) (vs : List FVal) : Nat :=
  if vs.any (fun v => decide (v = .nan)) then 0xFF
  else if vs.any (fun v => match v with | .inf _ => true | _ => false) then 254
  else
    match (vs.filterMap FVal.log2).foldl (fun (a : Option Int) x => some (match a with | none => x | some y => max x y)) none with
    | none => 0
    | some x => (min (max (x - mxEmax fmt + 127) 0) 254).toNat

/-- An element of a block under its scale: rounded, then saturated to the largest finite magnitude (R149). -/
def mxElem (fmt scale : Nat) (rd : Rounding) (v : FVal) : Nat :=
  if scale = 0xFF then 0
  else
    match floatFmt fmt with
    | some f =>
      (match v.scale (127 - (scale : Int)) with
       | .nan => 0
       | .inf neg => f.signed neg f.maxCode
       | .fin neg m e => f.signed neg (min (f.magCode rd m e) f.maxCode))
    | none =>
      match v.scale (133 - (scale : Int)) with
      | .nan => 0
      | .inf neg => if neg then intCode 8 (-127) else 127
      | .fin neg m e =>
        let n := min (roundUnits rd m e 0) 127
        if neg then intCode 8 (-(n : Int)) else n

/-- The scale byte and the elements of one block; `rd i` is the rounding of its element `i`. -/
def mxBlock (fmt : Nat) (rd : Nat → Rounding) (vs : List FVal) : Nat × List Nat :=
  let scale := mxScale fmt vs
  (scale, (List.range vs.length).map (fun i => mxElem fmt scale (rd i) (vs.getD i .nan)))

/-! ### Stochastic rounding (R151) -/

/-- The 32 random bits of element `k`, keyed by seed and side. -/
def stochasticBits (seed side k : Nat) : Nat :=
  let z0 : DWord := BitVec.ofNat 64 (seed + (k + 1) * 0x9E3779B97F4A7C15 + side * 0xD1B54A32D192ED03)
  let z1 := (z0 ^^^ (z0 >>> 30)) * 0xBF58476D1CE4E5B9
  let z2 := (z1 ^^^ (z1 >>> 27)) * 0x94D049BB133111EB
  let z3 := z2 ^^^ (z2 >>> 31)
  z3.toNat / 2 ^ 32

/-! ### Reduce-unit arithmetic (R158) -/

/-- The canonical NaN of a format. -/
def canonicalNan (fmt : Nat) : Nat := match floatFmt fmt with | some f => f.nan | none => 0

/-- The exact sum of two finite values as a signed number of units of 2^q. -/
def unitsOf (neg : Bool) (m : Nat) (e q : Int) : Int :=
  if neg then -((m * 2 ^ (e - q).toNat : Nat) : Int) else ((m * 2 ^ (e - q).toNat : Nat) : Int)

/-- One addition in a floating format, rounded to nearest even (R158). -/
def addFloat (fmt a b : Nat) : Nat :=
  match floatFmt fmt with
  | none => 0
  | some f =>
    match f.decode a, f.decode b with
    | .nan, _ => f.nan
    | _, .nan => f.nan
    | .inf x, .inf y => if x = y then f.encode .nearest false (.inf x) else f.nan
    | .inf x, .fin _ _ _ => f.encode .nearest false (.inf x)
    | .fin _ _ _, .inf y => f.encode .nearest false (.inf y)
    | .fin x m e, .fin y n g =>
      let q := min e g
      let sum := unitsOf x m e q + unitsOf y n g q
      if sum = 0 then f.signed (x && y && decide (m = 0) && decide (n = 0)) 0
      else f.encode .nearest false (.fin (decide (sum < 0)) sum.natAbs q)

/-- The numerical order of two codes of a floating format, −0 below +0; neither is NaN (R158). -/
def floatKey (f : FloatFmt) (c : Nat) : Int :=
  let mag := c % 2 ^ (f.ebits + f.mbits)
  if c.testBit (f.ebits + f.mbits) then -(mag : Int) - 1 else mag

/-- The reduce operations (R156). -/
inductive ReduceOp where
  | sum | max | min
deriving DecidableEq, Repr

/-- One step of a reduction in a result format (R158). -/
def reduceStep (op : ReduceOp) (fmt a b : Nat) : Nat :=
  match floatFmt fmt with
  | none =>
    let w := widthOf fmt
    let x := signedOf w a
    let y := signedOf w b
    (match op with
     | .sum => intCode w (x + y)
     | .max => intCode w (max x y)
     | .min => intCode w (min x y))
  | some f =>
    match op with
    | .sum => addFloat fmt a b
    | .max =>
      if f.decode a = .nan ∨ f.decode b = .nan then f.nan
      else if floatKey f a < floatKey f b then b else a
    | .min =>
      if f.decode a = .nan ∨ f.decode b = .nan then f.nan
      else if floatKey f b < floatKey f a then b else a

/-- The result of a reduction over zero terms (R159). -/
def reduceEmpty (op : ReduceOp) (fmt : Nat) : Nat :=
  match floatFmt fmt with
  | none => (match op with | .sum => 0 | .max => intCode (widthOf fmt) (-(2 ^ 31 : Nat)) | .min => 2 ^ 31 - 1)
  | some f =>
    match op with
    | .sum => 0
    | .max => f.encode .nearest false (.inf true)
    | .min => f.encode .nearest false (.inf false)

end Sys2Proof.Machine
end

