-- ==== Sys2Proof/Config.lean ====
section
/-!
DEFINITION. What the spec leaves open: FREE VALUES, opaque functions nothing in Lean can evaluate. Each is applied to a
number that the step reads from the plain counter of the state (`State.freeCtr`) and to the place the value stands at.
-/
namespace Sys2Proof.Config

/-- DESIGN CHOICE (log 12). The byte at an address that the spec calls undefined: a destination byte of a failed task
(R22, R206), a line whose write was in flight at a self-reset (R377), a command buffer after a failed command (R332). -/
opaque freeByte (n : Nat) (addr : Nat) : Byte

/-- DESIGN CHOICE (log 13). The order and grouping in arrival mode (R162): at step `i` of combining the terms of result
element `x`, which two of the remaining values combine next. -/
opaque arrivalPick (n : Nat) (x : Nat) (i : Nat) : Nat × Nat

/-- DESIGN CHOICE (log 24). A word the block's identity record holds and the spec does not state: silicon revision and
the like (R347). -/
opaque freeIdent (n : Nat) (offset : Nat) : Byte

/-- DESIGN CHOICE (log 26). The encodings allowed, the word width and the symbol position a sender uses for wire ingots of
a format (R179), which the spec does not state; the model brings them into the ranges of R187. -/
opaque wireCoding (fmt : Nat) : Nat × Nat × Nat

/-- DESIGN CHOICE (log 23). The fixed hash over the ports in service (R260), by what it hashes: a destination node and a
tag, a 4 KiB granule, a peer. The spec says it is fixed and does not state it. -/
opaque portHash (ports : List Nat) (a : Nat) (b : Nat) : Nat

end Sys2Proof.Config
end

