-- ==== Sys2Proof/Machine/RegMap.lean ====
section
/-!
DEFINITION. The register map of Sisan: one row per register of the spec's register tables (R28, R40, R42, R45, R48,
R51, R58, R80 to R82, R88, R183, R203, R209, R233 to R235, R258, R259, R278 to R282, R309 to R311, R323, R329, R342,
R371 to R374, R394, R407, R412), at its offset in the 16 MiB register region (R46), and the address of each by name.
-/
namespace Sys2Proof.Machine

/-- One register, or one array of registers, of the register tables: its first offset, up to two array dimensions
(a stride and a count each), the bits of each access type of R6 and the reset value. -/
structure RegRow where
  base : Nat
  s1 : Nat
  c1 : Nat
  s2 : Nat
  c2 : Nat
  rw : Nat
  w1c : Nat
  w1s : Nat
  rc : Nat
  reset : Nat
deriving DecidableEq, Repr

namespace R

/-- NODE_ID (02, R28). -/
def nodeId : Nat := 0x40

/-- BAR2_BASE_LO (02, R48). -/
def bar2BaseLo : Nat := 0x48

/-- BAR2_BASE_HI (02, R48). -/
def bar2BaseHi : Nat := 0x4c

/-- GTC_LO (16, R394). -/
def gtcLo : Nat := 0x60

/-- GTC_HI (16, R394). -/
def gtcHi : Nat := 0x64

/-- GTC_STATUS (16, R394). -/
def gtcStatus : Nat := 0x68

/-- EPOCH_STAGED (14, R342). -/
def epochStaged : Nat := 0x80

/-- EPOCH_APPLIED (14, R342). -/
def epochApplied (i : Nat) : Nat := 0x90 + 0x4 * i

/-- PW_STATUS (16, R394). -/
def pwStatus : Nat := 0x100

/-- PW_CFG (16, R394). -/
def pwCfg : Nat := 0x104

/-- PW_WAKE (16, R394). -/
def pwWake : Nat := 0x108

/-- PW_WAKE_DETAIL (16, R394). -/
def pwWakeDetail : Nat := 0x10c

/-- PW_WAKE_TIME_LO (16, R394). -/
def pwWakeTimeLo : Nat := 0x110

/-- PW_WAKE_TIME_HI (16, R394). -/
def pwWakeTimeHi : Nat := 0x114

/-- PAD_RELEASE (16, R394). -/
def padRelease : Nat := 0x118

/-- PW_CORE_HOLD (16, R394). -/
def pwCoreHold : Nat := 0x11c

/-- RST_CAUSE (16, R394). -/
def rstCause : Nat := 0x120

/-- RST_COUNT (16, R394). -/
def rstCount : Nat := 0x124

/-- ST_STATUS (16, R394). -/
def stStatus : Nat := 0x128

/-- PW_PAD_WAIT (16, R394). -/
def pwPadWait : Nat := 0x12c

/-- SQ_BASE_LO (03, R51). -/
def sqBaseLo (i : Nat) : Nat := 0x100000 + 0x40 * i

/-- SQ_BASE_HI (03, R51). -/
def sqBaseHi (i : Nat) : Nat := 0x100004 + 0x40 * i

/-- SQ_CFG (03, R51). -/
def sqCfg (i : Nat) : Nat := 0x100008 + 0x40 * i

/-- SQ_LIMITS (03, R51). -/
def sqLimits (i : Nat) : Nat := 0x10000c + 0x40 * i

/-- SQ_STATE (03, R51). -/
def sqState (i : Nat) : Nat := 0x100010 + 0x40 * i

/-- SQ_TAIL (03, R51). -/
def sqTail (i : Nat) : Nat := 0x100014 + 0x40 * i

/-- SQ_ERR (03, R51). -/
def sqErr (i : Nat) : Nat := 0x100018 + 0x40 * i

/-- SQ_ERR_INDEX (03, R51). -/
def sqErrIndex (i : Nat) : Nat := 0x10001c + 0x40 * i

/-- SQ_ERR_TAG (03, R51). -/
def sqErrTag (i : Nat) : Nat := 0x100020 + 0x40 * i

/-- SQ_CTL (03, R51). -/
def sqCtl (i : Nat) : Nat := 0x100024 + 0x40 * i

/-- SQ_PUSH_USED (03, R51). -/
def sqPushUsed (i : Nat) : Nat := 0x100028 + 0x40 * i

/-- SQ_PUSH_DISCARDED (03, R51). -/
def sqPushDiscarded (i : Nat) : Nat := 0x10002c + 0x40 * i

/-- SQ_REFETCH (03, R51). -/
def sqRefetch (i : Nat) : Nat := 0x100030 + 0x40 * i

/-- SQ_INDEX (03, R51). -/
def sqIndex (i : Nat) : Nat := 0x100034 + 0x40 * i

/-- CQ_BASE_LO (03, R88). -/
def cqBaseLo (i : Nat) : Nat := 0x110000 + 0x40 * i

/-- CQ_BASE_HI (03, R88). -/
def cqBaseHi (i : Nat) : Nat := 0x110004 + 0x40 * i

/-- CQ_CFG (03, R88). -/
def cqCfg (i : Nat) : Nat := 0x110008 + 0x40 * i

/-- CQ_PASID (03, R88). -/
def cqPasid (i : Nat) : Nat := 0x11000c + 0x40 * i

/-- CQ_TAIL (03, R88). -/
def cqTail (i : Nat) : Nat := 0x110010 + 0x40 * i

/-- CQ_HEAD (03, R88). -/
def cqHead (i : Nat) : Nat := 0x110014 + 0x40 * i

/-- CQ_IRQ (03, R88). -/
def cqIrq (i : Nat) : Nat := 0x110018 + 0x40 * i

/-- CQ_IRQ_DELAY (03, R88). -/
def cqIrqDelay (i : Nat) : Nat := 0x11001c + 0x40 * i

/-- CQ_FULL_STALL (03, R88). -/
def cqFullStall (i : Nat) : Nat := 0x110020 + 0x40 * i

/-- CQ_DROPPED (03, R88). -/
def cqDropped (i : Nat) : Nat := 0x110024 + 0x40 * i

/-- CQ_ERR (03, R88). -/
def cqErr (i : Nat) : Nat := 0x110028 + 0x40 * i

/-- EVENT_SET (03, R80). -/
def eventSet (i : Nat) : Nat := 0x120000 + 0x4 * i

/-- EVENT_CLR (03, R80). -/
def eventClr (i : Nat) : Nat := 0x120040 + 0x4 * i

/-- EVENT_CTX (03, R80). -/
def eventCtx (i : Nat) : Nat := 0x121000 + 0x4 * i

/-- TMR_CMP_LO (03, R81). -/
def tmrCmpLo (i : Nat) : Nat := 0x130000 + 0x20 * i

/-- TMR_CMP_HI (03, R81). -/
def tmrCmpHi (i : Nat) : Nat := 0x130004 + 0x20 * i

/-- TMR_PERIOD (03, R81). -/
def tmrPeriod (i : Nat) : Nat := 0x130008 + 0x20 * i

/-- TMR_CTL (03, R81). -/
def tmrCtl (i : Nat) : Nat := 0x13000c + 0x20 * i

/-- TMR_MISSED (03, R81). -/
def tmrMissed (i : Nat) : Nat := 0x130010 + 0x20 * i

/-- QI_SQERR (03, R82). -/
def qiSqerr (i : Nat) : Nat := 0x140000 + 0x4 * i

/-- QI_IRQ (03, R82). -/
def qiIrq : Nat := 0x140080

/-- DRT_BASE_LO (02, R42). -/
def drtBaseLo (i j : Nat) : Nat := 0x200000 + 0x8000 * i + 0x20 * j

/-- DRT_BASE_HI (02, R42). -/
def drtBaseHi (i j : Nat) : Nat := 0x200004 + 0x8000 * i + 0x20 * j

/-- DRT_LIMIT_LO (02, R42). -/
def drtLimitLo (i j : Nat) : Nat := 0x200008 + 0x8000 * i + 0x20 * j

/-- DRT_LIMIT_HI (02, R42). -/
def drtLimitHi (i j : Nat) : Nat := 0x20000c + 0x8000 * i + 0x20 * j

/-- DRT_CTL (02, R42). -/
def drtCtl (i j : Nat) : Nat := 0x200010 + 0x8000 * i + 0x20 * j

/-- CTX_MAP (09, R258). -/
def ctxMap (i : Nat) : Nat := 0x220000 + 0x4 * i

/-- TU_STATUS (09, R259). -/
def tuStatus : Nat := 0x230000

/-- TU_GROUP_CFG (09, R259). -/
def tuGroupCfg : Nat := 0x230004

/-- TU_RANGES_FREE (09, R259). -/
def tuRangesFree : Nat := 0x230008

/-- TU_XLATING (09, R259). -/
def tuXlating : Nat := 0x23000c

/-- TU_FAULT (09, R259). -/
def tuFault : Nat := 0x230010

/-- TU_FAULT_VA_LO (09, R259). -/
def tuFaultVaLo : Nat := 0x230014

/-- TU_FAULT_VA_HI (09, R259). -/
def tuFaultVaHi : Nat := 0x230018

/-- TU_INVAL_PENDING (09, R259). -/
def tuInvalPending : Nat := 0x23001c

/-- TU_XLATE_REQS (09, R259). -/
def tuXlateReqs : Nat := 0x230020

/-- TU_PAGE_REQS (09, R259). -/
def tuPageReqs : Nat := 0x230024

/-- TU_PRGS (09, R259). -/
def tuPrgs : Nat := 0x230028

/-- TU_INVALS (09, R259). -/
def tuInvals : Nat := 0x23002c

/-- TU_INVAL_FAILED (09, R259). -/
def tuInvalFailed : Nat := 0x230030

/-- TU_RETRANSLATED (09, R259). -/
def tuRetranslated : Nat := 0x230034

/-- TU_FRAGMENTED (09, R259). -/
def tuFragmented : Nat := 0x230038

/-- TU_REFUSED (09, R259). -/
def tuRefused (i : Nat) : Nat := 0x230040 + 0x4 * i

/-- TU_CORE_CTX (09, R259). -/
def tuCoreCtx (i : Nat) : Nat := 0x230100 + 0x4 * i

/-- APERTURE_FAULT (02, R40). -/
def apertureFault : Nat := 0x2f0000

/-- APERTURE_FAULT_COUNT (02, R40). -/
def apertureFaultCount : Nat := 0x2f0004

/-- APERTURE_FAULT_OFS_LO (02, R40). -/
def apertureFaultOfsLo : Nat := 0x2f0008

/-- APERTURE_FAULT_OFS_HI (02, R40). -/
def apertureFaultOfsHi : Nat := 0x2f000c

/-- ENG_STATUS (08, R233). -/
def engStatus (i : Nat) : Nat := 0x300000 + 0x1000 * i

/-- ENG_TASK_SQ (08, R233). -/
def engTaskSq (i : Nat) : Nat := 0x300004 + 0x1000 * i

/-- ENG_TASK_INDEX (08, R233). -/
def engTaskIndex (i : Nat) : Nat := 0x300008 + 0x1000 * i

/-- ENG_STAGED (08, R233). -/
def engStaged (i : Nat) : Nat := 0x30000c + 0x1000 * i

/-- ENG_ISSUEQ (08, R233). -/
def engIssueq (i : Nat) : Nat := 0x300010 + 0x1000 * i

/-- ENG_GATED (08, R233). -/
def engGated (i : Nat) : Nat := 0x300014 + 0x1000 * i

/-- STR_SC_LO (08, R234). -/
def strScLo : Nat := 0x380000

/-- STR_SC_HI (08, R234). -/
def strScHi : Nat := 0x380004

/-- STR_STEP (08, R234). -/
def strStep : Nat := 0x380008

/-- STR_RUN (08, R234). -/
def strRun : Nat := 0x38000c

/-- STR_HOLD (08, R234). -/
def strHold : Nat := 0x380010

/-- STR_HOLD_CTL (08, R234). -/
def strHoldCtl : Nat := 0x380014

/-- STR_HOLD_LIMIT (08, R234). -/
def strHoldLimit : Nat := 0x380018

/-- STR_HOLD_LONG (08, R234). -/
def strHoldLong : Nat := 0x38001c

/-- STR_SESSION_CFG (08, R234). -/
def strSessionCfg : Nat := 0x380020

/-- STR_SESSION_ACTIVE (08, R234). -/
def strSessionActive : Nat := 0x380024

/-- STR_SESSION_LATE (08, R234). -/
def strSessionLate : Nat := 0x380028

/-- STR_BARRIERS (08, R234). -/
def strBarriers : Nat := 0x38002c

/-- STR_BAD (08, R234). -/
def strBad (i : Nat) : Nat := 0x380040 + 0x4 * i

/-- STR_FAILED (08, R234). -/
def strFailed (i : Nat) : Nat := 0x380060 + 0x4 * i

/-- CRD_VAL (08, R235). -/
def crdVal (i : Nat) : Nat := 0x390000 + 0x10 * i

/-- CRD_ADD (08, R235). -/
def crdAdd (i : Nat) : Nat := 0x390004 + 0x10 * i

/-- CRD_STATUS (08, R235). -/
def crdStatus (i : Nat) : Nat := 0x390008 + 0x10 * i

/-- DS_CFG (08, R209). -/
def dsCfg (i : Nat) : Nat := 0x3a0000 + 0x40 * i

/-- DS_RING (08, R209). -/
def dsRing (i : Nat) : Nat := 0x3a0004 + 0x40 * i

/-- DS_GEN (08, R209). -/
def dsGen (i : Nat) : Nat := 0x3a0008 + 0x40 * i

/-- DS_FIRST_LO (08, R209). -/
def dsFirstLo (i : Nat) : Nat := 0x3a000c + 0x40 * i

/-- DS_FIRST_HI (08, R209). -/
def dsFirstHi (i : Nat) : Nat := 0x3a0010 + 0x40 * i

/-- DS_PERIOD (08, R209). -/
def dsPeriod (i : Nat) : Nat := 0x3a0014 + 0x40 * i

/-- DS_USE (08, R209). -/
def dsUse (i : Nat) : Nat := 0x3a0018 + 0x40 * i

/-- DS_TILES (08, R209). -/
def dsTiles (i : Nat) : Nat := 0x3a001c + 0x40 * i

/-- DS_NEXT (08, R209). -/
def dsNext (i : Nat) : Nat := 0x3a0020 + 0x40 * i

/-- DS_DONE (08, R209). -/
def dsDone (i : Nat) : Nat := 0x3a0024 + 0x40 * i

/-- DS_STATE (08, R209). -/
def dsState (i : Nat) : Nat := 0x3a0028 + 0x40 * i

/-- RD_ARRIVAL_CFG (06, R183). -/
def rdArrivalCfg : Nat := 0x400000

/-- RD_ARRIVAL_ACTIVE (06, R183). -/
def rdArrivalActive : Nat := 0x400004

/-- RD_LANE_BUSY (06, R183). -/
def rdLaneBusy : Nat := 0x400010

/-- RD_ROB_USED (06, R183). -/
def rdRobUsed : Nat := 0x400020

/-- RD_MCAST_DETACH (06, R183). -/
def rdMcastDetach : Nat := 0x400030

/-- RD_MCAST_DETACH_COUNT (06, R183). -/
def rdMcastDetachCount : Nat := 0x400034

/-- RD_ATOMIC_REFUSED (06, R183). -/
def rdAtomicRefused : Nat := 0x400040

/-- RD_FADD_REFUSED (06, R183). -/
def rdFaddRefused : Nat := 0x400044

/-- RD_LANE_TERMS_LO (06, R183). -/
def rdLaneTermsLo (i : Nat) : Nat := 0x400100 + 0x8 * i

/-- RD_LANE_TERMS_HI (06, R183). -/
def rdLaneTermsHi (i : Nat) : Nat := 0x400104 + 0x8 * i

/-- CX_SLOT (07, R203). -/
def cxSlot (i : Nat) : Nat := 0x401000 + 0x8 * i

/-- CX_SLOT_REFS (07, R203). -/
def cxSlotRefs (i : Nat) : Nat := 0x401004 + 0x8 * i

/-- CX_COMP_ACTIVE (07, R203). -/
def cxCompActive : Nat := 0x401040

/-- CX_EXP_ACTIVE (07, R203). -/
def cxExpActive : Nat := 0x401044

/-- CX_COMP_BUSY (07, R203). -/
def cxCompBusy : Nat := 0x401048

/-- CX_EXP_BUSY (07, R203). -/
def cxExpBusy : Nat := 0x40104c

/-- CX_ENC_COUNT (07, R203). -/
def cxEncCount (i : Nat) : Nat := 0x401080 + 0x4 * i

/-- CX_IN_LO (07, R203). -/
def cxInLo : Nat := 0x4010a0

/-- CX_IN_HI (07, R203). -/
def cxInHi : Nat := 0x4010a4

/-- CX_OUT_LO (07, R203). -/
def cxOutLo : Nat := 0x4010a8

/-- CX_OUT_HI (07, R203). -/
def cxOutHi : Nat := 0x4010ac

/-- CX_ERR (07, R203). -/
def cxErr : Nat := 0x4010c0

/-- CX_ERR_COUNT (07, R203). -/
def cxErrCount : Nat := 0x4010c4

/-- FE_CTL (10, R278). -/
def feCtl : Nat := 0x500000

/-- FE_STATUS (10, R278). -/
def feStatus : Nat := 0x500004

/-- FE_INCARN_LO (10, R278). -/
def feIncarnLo : Nat := 0x500008

/-- FE_INCARN_HI (10, R278). -/
def feIncarnHi : Nat := 0x50000c

/-- FE_NO_READER (10, R278). -/
def feNoReader : Nat := 0x500010

/-- FE_DEAD_REFUSED (10, R278). -/
def feDeadRefused : Nat := 0x500014

/-- WIN_BASE_LO (02, R45). -/
def winBaseLo (i : Nat) : Nat := 0x501000 + 0x20 * i

/-- WIN_BASE_HI (02, R45). -/
def winBaseHi (i : Nat) : Nat := 0x501004 + 0x20 * i

/-- WIN_LIMIT_LO (02, R45). -/
def winLimitLo (i : Nat) : Nat := 0x501008 + 0x20 * i

/-- WIN_LIMIT_HI (02, R45). -/
def winLimitHi (i : Nat) : Nat := 0x50100c + 0x20 * i

/-- WIN_CTL (02, R45). -/
def winCtl (i : Nat) : Nat := 0x501010 + 0x20 * i

/-- WIN_SRC (02, R45). -/
def winSrc (i : Nat) : Nat := 0x501014 + 0x20 * i

/-- FE_WIN_REFUSED (10, R278). -/
def feWinRefused : Nat := 0x501800

/-- FE_WIN_FAULT (10, R278). -/
def feWinFault : Nat := 0x501804

/-- FE_PEER_CFG (10, R279). -/
def fePeerCfg (i : Nat) : Nat := 0x510000 + 0x10 * i

/-- FE_PEER_DEATHS (10, R279). -/
def fePeerDeaths (i : Nat) : Nat := 0x510004 + 0x10 * i

/-- FE_PEER_RESETS (10, R279). -/
def fePeerResets (i : Nat) : Nat := 0x510008 + 0x10 * i

/-- RX_BASE_LO (10, R280). -/
def rxBaseLo (i : Nat) : Nat := 0x520000 + 0x40 * i

/-- RX_BASE_HI (10, R280). -/
def rxBaseHi (i : Nat) : Nat := 0x520004 + 0x40 * i

/-- RX_CFG (10, R280). -/
def rxCfg (i : Nat) : Nat := 0x520008 + 0x40 * i

/-- RX_TAG (10, R280). -/
def rxTag (i : Nat) : Nat := 0x52000c + 0x40 * i

/-- RX_SRC (10, R280). -/
def rxSrc (i : Nat) : Nat := 0x520010 + 0x40 * i

/-- RX_HEAD (10, R280). -/
def rxHead (i : Nat) : Nat := 0x520014 + 0x40 * i

/-- RX_TAIL (10, R280). -/
def rxTail (i : Nat) : Nat := 0x520018 + 0x40 * i

/-- RX_WAIT (10, R280). -/
def rxWait (i : Nat) : Nat := 0x52001c + 0x40 * i

/-- RX_RECEIVED (10, R280). -/
def rxReceived (i : Nat) : Nat := 0x520020 + 0x40 * i

/-- RX_REFUSED (10, R280). -/
def rxRefused (i : Nat) : Nat := 0x520024 + 0x40 * i

/-- RX_VOIDED (10, R280). -/
def rxVoided (i : Nat) : Nat := 0x520028 + 0x40 * i

/-- TC_CFG (10, R282). -/
def tcCfg (i : Nat) : Nat := 0x530000 + 0x20 * i

/-- TC_SENT (10, R282). -/
def tcSent (i : Nat) : Nat := 0x530004 + 0x20 * i

/-- TC_RECEIVED (10, R282). -/
def tcReceived (i : Nat) : Nat := 0x530008 + 0x20 * i

/-- TC_DROPPED (10, R282). -/
def tcDropped (i : Nat) : Nat := 0x53000c + 0x20 * i

/-- TC_STALL (10, R282). -/
def tcStall (i : Nat) : Nat := 0x530010 + 0x20 * i

/-- TC_FAILED (10, R282). -/
def tcFailed (i : Nat) : Nat := 0x530014 + 0x20 * i

/-- FE_LANE_STATUS (17, R407). -/
def feLaneStatus (i : Nat) : Nat := 0x540000 + 0x20 * i

/-- FE_LANE_CTL (17, R407). -/
def feLaneCtl (i : Nat) : Nat := 0x540004 + 0x20 * i

/-- FE_LANE_ERR (17, R407). -/
def feLaneErr (i j : Nat) : Nat := 0x540008 + 0x20 * i + 0x4 * j

/-- SP_DEST (10, R281). -/
def spDest (i : Nat) : Nat := 0x580000 + 0x1000 * i

/-- SP_SEND (10, R281). -/
def spSend (i : Nat) : Nat := 0x580004 + 0x1000 * i

/-- SP_STATUS (10, R281). -/
def spStatus (i : Nat) : Nat := 0x580008 + 0x1000 * i

/-- SP_CTL (10, R281). -/
def spCtl (i : Nat) : Nat := 0x58000c + 0x1000 * i

/-- SP_WDOG (10, R281). -/
def spWdog (i : Nat) : Nat := 0x580010 + 0x1000 * i

/-- SP_ACCEPTED (10, R281). -/
def spAccepted (i : Nat) : Nat := 0x580014 + 0x1000 * i

/-- SP_DELIVERED (10, R281). -/
def spDelivered (i : Nat) : Nat := 0x580018 + 0x1000 * i

/-- SP_FAILED (10, R281). -/
def spFailed (i : Nat) : Nat := 0x58001c + 0x1000 * i

/-- SP_ERR_NUM (10, R281). -/
def spErrNum (i : Nat) : Nat := 0x580020 + 0x1000 * i

/-- TB_SITE_MAP (12, R309). -/
def tbSiteMap : Nat := 0x600000

/-- TB_EVAC (12, R309). -/
def tbEvac : Nat := 0x600004

/-- TB_EVAC_CFG (12, R309). -/
def tbEvacCfg : Nat := 0x600008

/-- TB_EVAC_DONE_LO (12, R309). -/
def tbEvacDoneLo : Nat := 0x600010

/-- TB_EVAC_DONE_HI (12, R309). -/
def tbEvacDoneHi : Nat := 0x600014

/-- TB_SCRUB_CFG (12, R309). -/
def tbScrubCfg : Nat := 0x600020

/-- TB_ROW_CFG (12, R309). -/
def tbRowCfg : Nat := 0x600024

/-- TB_UE_ADDR_LO (12, R309). -/
def tbUeAddrLo : Nat := 0x600030

/-- TB_UE_ADDR_HI (12, R309). -/
def tbUeAddrHi : Nat := 0x600034

/-- TB_UE (12, R309). -/
def tbUe : Nat := 0x600038

/-- TB_SITE_STATUS (12, R310). -/
def tbSiteStatus (i : Nat) : Nat := 0x601000 + 0x100 * i

/-- TB_CE (12, R310). -/
def tbCe (i : Nat) : Nat := 0x601004 + 0x100 * i

/-- TB_UE_COUNT (12, R310). -/
def tbUeCount (i : Nat) : Nat := 0x601008 + 0x100 * i

/-- TB_REFRESH_HIT (12, R310). -/
def tbRefreshHit (i : Nat) : Nat := 0x60100c + 0x100 * i

/-- TB_ROW_OVERFLOW (12, R310). -/
def tbRowOverflow (i : Nat) : Nat := 0x601010 + 0x100 * i

/-- TB_ROW (12, R310). -/
def tbRow (i j : Nat) : Nat := 0x601040 + 0x100 * i + 0x4 * j

/-- SPD_IMAGE (12, R311). -/
def spdImage (i j : Nat) : Nat := 0x610000 + 0x400 * i + 0x4 * j

/-- ARB_CTL (13, R323). -/
def arbCtl (i : Nat) : Nat := 0x700000 + 0x100 * i

/-- ARB_STATUS (13, R323). -/
def arbStatus (i : Nat) : Nat := 0x700004 + 0x100 * i

/-- ARB_WDOG (13, R323). -/
def arbWdog (i : Nat) : Nat := 0x700008 + 0x100 * i

/-- ARB_WDOG_FAULT (13, R323). -/
def arbWdogFault (i : Nat) : Nat := 0x70000c + 0x100 * i

/-- ARB_WDOG_COUNT (13, R323). -/
def arbWdogCount (i : Nat) : Nat := 0x700010 + 0x100 * i

/-- ARB_PARKED (13, R323). -/
def arbParked (i : Nat) : Nat := 0x700014 + 0x100 * i

/-- ARB_FULL_STALL (13, R323). -/
def arbFullStall (i : Nat) : Nat := 0x700018 + 0x100 * i

/-- ARB_RETRIES (13, R323). -/
def arbRetries (i : Nat) : Nat := 0x70001c + 0x100 * i

/-- ARB_BEATS_LO (13, R323). -/
def arbBeatsLo (i j : Nat) : Nat := 0x700020 + 0x100 * i + 0x8 * j

/-- ARB_BEATS_HI (13, R323). -/
def arbBeatsHi (i j : Nat) : Nat := 0x700024 + 0x100 * i + 0x8 * j

/-- ARB_COPY_BEATS_LO (13, R323). -/
def arbCopyBeatsLo (i : Nat) : Nat := 0x700040 + 0x100 * i

/-- ARB_COPY_BEATS_HI (13, R323). -/
def arbCopyBeatsHi (i : Nat) : Nat := 0x700044 + 0x100 * i

/-- ARB_MAX_WAIT (13, R323). -/
def arbMaxWait (i j : Nat) : Nat := 0x700050 + 0x100 * i + 0x4 * j

/-- JR_BASE_LO (15, R371). -/
def jrBaseLo : Nat := 0x800000

/-- JR_BASE_HI (15, R371). -/
def jrBaseHi : Nat := 0x800004

/-- JR_CFG (15, R371). -/
def jrCfg : Nat := 0x800008

/-- JR_TAIL (15, R371). -/
def jrTail : Nat := 0x80000c

/-- JR_HEAD (15, R371). -/
def jrHead : Nat := 0x800010

/-- JR_FULL_STALL (15, R371). -/
def jrFullStall : Nat := 0x800014

/-- JR_DROPPED (15, R371). -/
def jrDropped : Nat := 0x800018

/-- JR_OVERWRITTEN (15, R371). -/
def jrOverwritten : Nat := 0x80001c

/-- JR_ERR (15, R371). -/
def jrErr : Nat := 0x800020

/-- HOLD_CUR_LO (15, R372). -/
def holdCurLo (i : Nat) : Nat := 0x801000 + 0x8 * i

/-- HOLD_CUR_HI (15, R372). -/
def holdCurHi (i : Nat) : Nat := 0x801004 + 0x8 * i

/-- HOLD_LAST_LO (15, R372). -/
def holdLastLo (i : Nat) : Nat := 0x801080 + 0x8 * i

/-- HOLD_LAST_HI (15, R372). -/
def holdLastHi (i : Nat) : Nat := 0x801084 + 0x8 * i

/-- HOLD_TOTAL_LO (15, R372). -/
def holdTotalLo (i : Nat) : Nat := 0x801100 + 0x8 * i

/-- HOLD_TOTAL_HI (15, R372). -/
def holdTotalHi (i : Nat) : Nat := 0x801104 + 0x8 * i

/-- HOLD_LAST_STEP (15, R372). -/
def holdLastStep : Nat := 0x801180

/-- MC_CTL (15, R373). -/
def mcCtl : Nat := 0x802000

/-- MC_COUNT (15, R373). -/
def mcCount : Nat := 0x802004

/-- MC_LOST (15, R373). -/
def mcLost : Nat := 0x802008

/-- MC_INFO (15, R373). -/
def mcInfo (i : Nat) : Nat := 0x802100 + 0x20 * i

/-- MC_TASK (15, R373). -/
def mcTask (i : Nat) : Nat := 0x802104 + 0x20 * i

/-- MC_INDEX (15, R373). -/
def mcIndex (i : Nat) : Nat := 0x802108 + 0x20 * i

/-- MC_ADDR_LO (15, R373). -/
def mcAddrLo (i : Nat) : Nat := 0x802110 + 0x20 * i

/-- MC_ADDR_HI (15, R373). -/
def mcAddrHi (i : Nat) : Nat := 0x802114 + 0x20 * i

/-- MC_TIME_LO (15, R373). -/
def mcTimeLo (i : Nat) : Nat := 0x802118 + 0x20 * i

/-- MC_TIME_HI (15, R373). -/
def mcTimeHi (i : Nat) : Nat := 0x80211c + 0x20 * i

/-- TM_SRAM_CE (15, R374). -/
def tmSramCe : Nat := 0x803000

/-- TM_PATH_PARITY (15, R374). -/
def tmPathParity : Nat := 0x803004

/-- TM_FABRIC_RESENT (15, R374). -/
def tmFabricResent : Nat := 0x803008

/-- TM_LATE_HOST (15, R374). -/
def tmLateHost : Nat := 0x80300c

/-- TM_LATE_FABRIC (15, R374). -/
def tmLateFabric : Nat := 0x803010

/-- TM_TIER_A_CE (15, R374). -/
def tmTierACe : Nat := 0x803014

/-- TM_SCRATCH_CE (15, R374). -/
def tmScratchCe : Nat := 0x803018

/-- TM_ENG_TASKS (15, R374). -/
def tmEngTasks (i : Nat) : Nat := 0x804000 + 0x10 * i

/-- TM_ENG_FAILED (15, R374). -/
def tmEngFailed (i : Nat) : Nat := 0x804004 + 0x10 * i

/-- TM_ENG_BYTES_LO (15, R374). -/
def tmEngBytesLo (i : Nat) : Nat := 0x804008 + 0x10 * i

/-- TM_ENG_BYTES_HI (15, R374). -/
def tmEngBytesHi (i : Nat) : Nat := 0x80400c + 0x10 * i

/-- MQ_SQ_BASE_LO (14, R329). -/
def mqSqBaseLo : Nat := 0x900000

/-- MQ_SQ_BASE_HI (14, R329). -/
def mqSqBaseHi : Nat := 0x900004

/-- MQ_CQ_BASE_LO (14, R329). -/
def mqCqBaseLo : Nat := 0x900008

/-- MQ_CQ_BASE_HI (14, R329). -/
def mqCqBaseHi : Nat := 0x90000c

/-- MQ_CFG (14, R329). -/
def mqCfg : Nat := 0x900010

/-- MQ_STATE (14, R329). -/
def mqState : Nat := 0x900014

/-- MQ_DOORBELL (14, R329). -/
def mqDoorbell : Nat := 0x900018

/-- MQ_SQ_HEAD (14, R329). -/
def mqSqHead : Nat := 0x90001c

/-- MQ_CQ_TAIL (14, R329). -/
def mqCqTail : Nat := 0x900020

/-- MQ_CQ_HEAD (14, R329). -/
def mqCqHead : Nat := 0x900024

/-- MQ_IRQ (14, R329). -/
def mqIrq : Nat := 0x900028

/-- MQ_PENDING (14, R329). -/
def mqPending : Nat := 0x90002c

/-- MQ_INDEX (14, R329). -/
def mqIndex : Nat := 0x900030

/-- CP_VERSION_A (14, R329). -/
def cpVersionA : Nat := 0x900040

/-- CP_VERSION_B (14, R329). -/
def cpVersionB : Nat := 0x900044

/-- CP_BOOT (14, R329). -/
def cpBoot : Nat := 0x900048

/-- CP_RECORD (17, R412). -/
def cpRecord : Nat := 0x90004c

/-- CP_RECORD_SEQ (17, R412). -/
def cpRecordSeq : Nat := 0x900050

/-- CP_PAIR (17, R412). -/
def cpPair : Nat := 0x900054

/-- SQ_DOORBELL (03, R58). -/
def sqDoorbell (i : Nat) : Nat := 0xc00000 + 0x1000 * i

/-- CQ_HEAD_DOORBELL (03, R58). -/
def cqHeadDoorbell (i : Nat) : Nat := 0xc00010 + 0x1000 * i

end R

/-- Rows 0 to 39 of the register tables, by ascending offset. -/
def regRows0 : List RegRow :=

   -- NODE_ID
  [⟨0x40, 0x1, 1, 0x1, 1, 0xffff, 0x0, 0x0, 0x0, 0x0⟩,
   -- BAR2_BASE_LO
   ⟨0x48, 0x1, 1, 0x1, 1, 0xc0000000, 0x0, 0x0, 0x0, 0x0⟩,
   -- BAR2_BASE_HI
   ⟨0x4c, 0x1, 1, 0x1, 1, 0xffff, 0x0, 0x0, 0x0, 0x0⟩,
   -- GTC_LO
   ⟨0x60, 0x1, 1, 0x1, 1, 0x0, 0x0, 0x0, 0x0, 0x0⟩,
   -- GTC_HI
   ⟨0x64, 0x1, 1, 0x1, 1, 0x0, 0x0, 0x0, 0x0, 0x0⟩,
   -- GTC_STATUS
   ⟨0x68, 0x1, 1, 0x1, 1, 0x0, 0x0, 0x0, 0x0, 0x0⟩,
   -- EPOCH_STAGED
   ⟨0x80, 0x1, 1, 0x1, 1, 0x0, 0x0, 0x0, 0x0, 0x0⟩,
   -- EPOCH_APPLIED
   ⟨0x90, 0x4, 12, 0x1, 1, 0x0, 0x0, 0x0, 0x0, 0x0⟩,
   -- PW_STATUS
   ⟨0x100, 0x1, 1, 0x1, 1, 0x0, 0x0, 0x0, 0x0, 0x80000000⟩,
   -- PW_CFG
   ⟨0x104, 0x1, 1, 0x1, 1, 0x8000ffff, 0x0, 0x0, 0x0, 0x64⟩,
   -- PW_WAKE
   ⟨0x108, 0x1, 1, 0x1, 1, 0x0, 0x80000000, 0x0, 0x0, 0x0⟩,
   -- PW_WAKE_DETAIL
   ⟨0x10c, 0x1, 1, 0x1, 1, 0x0, 0x0, 0x0, 0x0, 0x0⟩,
   -- PW_WAKE_TIME_LO
   ⟨0x110, 0x1, 1, 0x1, 1, 0x0, 0x0, 0x0, 0x0, 0x0⟩,
   -- PW_WAKE_TIME_HI
   ⟨0x114, 0x1, 1, 0x1, 1, 0x0, 0x0, 0x0, 0x0, 0x0⟩,
   -- PAD_RELEASE
   ⟨0x118, 0x1, 1, 0x1, 1, 0x0, 0x0, 0x0, 0x0, 0x0⟩,
   -- PW_CORE_HOLD
   ⟨0x11c, 0x1, 1, 0x1, 1, 0x0, 0x0, 0x0, 0x0, 0x0⟩,
   -- RST_CAUSE
   ⟨0x120, 0x1, 1, 0x1, 1, 0x0, 0xfc000000, 0x0, 0x0, 0x80000000⟩,
   -- RST_COUNT
   ⟨0x124, 0x1, 1, 0x1, 1, 0x0, 0x0, 0x0, 0xffffffff, 0x0⟩,
   -- ST_STATUS
   ⟨0x128, 0x1, 1, 0x1, 1, 0x0, 0x0, 0x0, 0x0, 0x0⟩,
   -- PW_PAD_WAIT
   ⟨0x12c, 0x1, 1, 0x1, 1, 0x0, 0x0, 0x0, 0xffffffff, 0x0⟩,
   -- SQ_BASE_LO
   ⟨0x100000, 0x40, 1024, 0x1, 1, 0x0, 0x0, 0x0, 0x0, 0x0⟩,
   -- SQ_BASE_HI
   ⟨0x100004, 0x40, 1024, 0x1, 1, 0x0, 0x0, 0x0, 0x0, 0x0⟩,
   -- SQ_CFG
   ⟨0x100008, 0x40, 1024, 0x1, 1, 0x0, 0x0, 0x0, 0x0, 0x0⟩,
   -- SQ_LIMITS
   ⟨0x10000c, 0x40, 1024, 0x1, 1, 0x0, 0x0, 0x0, 0x0, 0x0⟩,
   -- SQ_STATE
   ⟨0x100010, 0x40, 1024, 0x1, 1, 0x0, 0x0, 0x0, 0x0, 0x0⟩,
   -- SQ_TAIL
   ⟨0x100014, 0x40, 1024, 0x1, 1, 0x0, 0x0, 0x0, 0x0, 0x0⟩,
   -- SQ_ERR
   ⟨0x100018, 0x40, 1024, 0x1, 1, 0x0, 0x0, 0x0, 0x0, 0x0⟩,
   -- SQ_ERR_INDEX
   ⟨0x10001c, 0x40, 1024, 0x1, 1, 0x0, 0x0, 0x0, 0x0, 0x0⟩,
   -- SQ_ERR_TAG
   ⟨0x100020, 0x40, 1024, 0x1, 1, 0x0, 0x0, 0x0, 0x0, 0x0⟩,
   -- SQ_CTL
   ⟨0x100024, 0x40, 1024, 0x1, 1, 0x0, 0x0, 0x0, 0x0, 0x0⟩,
   -- SQ_PUSH_USED
   ⟨0x100028, 0x40, 1024, 0x1, 1, 0x0, 0x0, 0x0, 0xffffffff, 0x0⟩,
   -- SQ_PUSH_DISCARDED
   ⟨0x10002c, 0x40, 1024, 0x1, 1, 0x0, 0x0, 0x0, 0xffffffff, 0x0⟩,
   -- SQ_REFETCH
   ⟨0x100030, 0x40, 1024, 0x1, 1, 0x0, 0x0, 0x0, 0xffffffff, 0x0⟩,
   -- SQ_INDEX
   ⟨0x100034, 0x40, 1024, 0x1, 1, 0x0, 0x0, 0x0, 0x0, 0x0⟩,
   -- CQ_BASE_LO
   ⟨0x110000, 0x40, 256, 0x1, 1, 0x0, 0x0, 0x0, 0x0, 0x0⟩,
   -- CQ_BASE_HI
   ⟨0x110004, 0x40, 256, 0x1, 1, 0x0, 0x0, 0x0, 0x0, 0x0⟩,
   -- CQ_CFG
   ⟨0x110008, 0x40, 256, 0x1, 1, 0x0, 0x0, 0x0, 0x0, 0x0⟩,
   -- CQ_PASID
   ⟨0x11000c, 0x40, 256, 0x1, 1, 0x0, 0x0, 0x0, 0x0, 0x0⟩,
   -- CQ_TAIL
   ⟨0x110010, 0x40, 256, 0x1, 1, 0x0, 0x0, 0x0, 0x0, 0x80000000⟩,
   -- CQ_HEAD
   ⟨0x110014, 0x40, 256, 0x1, 1, 0xffff, 0x0, 0x0, 0x0, 0x0⟩]

/-- Rows 40 to 79 of the register tables, by ascending offset. -/
def regRows1 : List RegRow :=

   -- CQ_IRQ
  [⟨0x110018, 0x40, 256, 0x1, 1, 0x87ffff00, 0x0, 0x0, 0x0, 0x0⟩,
   -- CQ_IRQ_DELAY
   ⟨0x11001c, 0x40, 256, 0x1, 1, 0x3ff, 0x0, 0x0, 0x0, 0x0⟩,
   -- CQ_FULL_STALL
   ⟨0x110020, 0x40, 256, 0x1, 1, 0x0, 0x0, 0x0, 0xffffffff, 0x0⟩,
   -- CQ_DROPPED
   ⟨0x110024, 0x40, 256, 0x1, 1, 0x0, 0x0, 0x0, 0xffffffff, 0x0⟩,
   -- CQ_ERR
   ⟨0x110028, 0x40, 256, 0x1, 1, 0x0, 0x0, 0x0, 0x0, 0x0⟩,
   -- EVENT_SET
   ⟨0x120000, 0x4, 16, 0x1, 1, 0x0, 0x0, 0xffffffff, 0x0, 0x0⟩,
   -- EVENT_CLR
   ⟨0x120040, 0x4, 16, 0x1, 1, 0x0, 0xffffffff, 0x0, 0x0, 0x0⟩,
   -- EVENT_CTX
   ⟨0x121000, 0x4, 512, 0x1, 1, 0xfff, 0x0, 0x0, 0x0, 0x0⟩,
   -- TMR_CMP_LO
   ⟨0x130000, 0x20, 16, 0x1, 1, 0xffffffff, 0x0, 0x0, 0x0, 0x0⟩,
   -- TMR_CMP_HI
   ⟨0x130004, 0x20, 16, 0x1, 1, 0xffffffff, 0x0, 0x0, 0x0, 0x0⟩,
   -- TMR_PERIOD
   ⟨0x130008, 0x20, 16, 0x1, 1, 0xffffffff, 0x0, 0x0, 0x0, 0x0⟩,
   -- TMR_CTL
   ⟨0x13000c, 0x20, 16, 0x1, 1, 0xc00001ff, 0x20000000, 0x0, 0x0, 0x0⟩,
   -- TMR_MISSED
   ⟨0x130010, 0x20, 16, 0x1, 1, 0x0, 0x0, 0x0, 0xffffffff, 0x0⟩,
   -- QI_SQERR
   ⟨0x140000, 0x4, 32, 0x1, 1, 0x0, 0xffffffff, 0x0, 0x0, 0x0⟩,
   -- QI_IRQ
   ⟨0x140080, 0x1, 1, 0x1, 1, 0x800007ff, 0x0, 0x0, 0x0, 0x0⟩,
   -- DRT_BASE_LO
   ⟨0x200000, 0x8000, 3, 0x20, 1024, 0xfffff000, 0x0, 0x0, 0x0, 0x0⟩,
   -- DRT_BASE_HI
   ⟨0x200004, 0x8000, 3, 0x20, 1024, 0xffff, 0x0, 0x0, 0x0, 0x0⟩,
   -- DRT_LIMIT_LO
   ⟨0x200008, 0x8000, 3, 0x20, 1024, 0xfffff000, 0x0, 0x0, 0x0, 0x0⟩,
   -- DRT_LIMIT_HI
   ⟨0x20000c, 0x8000, 3, 0x20, 1024, 0xffff, 0x0, 0x0, 0x0, 0x0⟩,
   -- DRT_CTL
   ⟨0x200010, 0x8000, 3, 0x20, 1024, 0xf0000fff, 0x0, 0x0, 0x0, 0x0⟩,
   -- CTX_MAP
   ⟨0x220000, 0x4, 4096, 0x1, 1, 0xc00fffff, 0x0, 0x0, 0x0, 0x0⟩,
   -- TU_STATUS
   ⟨0x230000, 0x1, 1, 0x1, 1, 0x0, 0x3, 0x0, 0x0, 0x0⟩,
   -- TU_GROUP_CFG
   ⟨0x230004, 0x1, 1, 0x1, 1, 0x3ff, 0x0, 0x0, 0x0, 0x40⟩,
   -- TU_RANGES_FREE
   ⟨0x230008, 0x1, 1, 0x1, 1, 0x0, 0x0, 0x0, 0x0, 0x8000⟩,
   -- TU_XLATING
   ⟨0x23000c, 0x1, 1, 0x1, 1, 0x0, 0x0, 0x0, 0x0, 0x0⟩,
   -- TU_FAULT
   ⟨0x230010, 0x1, 1, 0x1, 1, 0x0, 0x80000000, 0x0, 0x0, 0x0⟩,
   -- TU_FAULT_VA_LO
   ⟨0x230014, 0x1, 1, 0x1, 1, 0x0, 0x0, 0x0, 0x0, 0x0⟩,
   -- TU_FAULT_VA_HI
   ⟨0x230018, 0x1, 1, 0x1, 1, 0x0, 0x0, 0x0, 0x0, 0x0⟩,
   -- TU_INVAL_PENDING
   ⟨0x23001c, 0x1, 1, 0x1, 1, 0x0, 0x0, 0x0, 0x0, 0x0⟩,
   -- TU_XLATE_REQS
   ⟨0x230020, 0x1, 1, 0x1, 1, 0x0, 0x0, 0x0, 0xffffffff, 0x0⟩,
   -- TU_PAGE_REQS
   ⟨0x230024, 0x1, 1, 0x1, 1, 0x0, 0x0, 0x0, 0xffffffff, 0x0⟩,
   -- TU_PRGS
   ⟨0x230028, 0x1, 1, 0x1, 1, 0x0, 0x0, 0x0, 0xffffffff, 0x0⟩,
   -- TU_INVALS
   ⟨0x23002c, 0x1, 1, 0x1, 1, 0x0, 0x0, 0x0, 0xffffffff, 0x0⟩,
   -- TU_INVAL_FAILED
   ⟨0x230030, 0x1, 1, 0x1, 1, 0x0, 0x0, 0x0, 0xffffffff, 0x0⟩,
   -- TU_RETRANSLATED
   ⟨0x230034, 0x1, 1, 0x1, 1, 0x0, 0x0, 0x0, 0xffffffff, 0x0⟩,
   -- TU_FRAGMENTED
   ⟨0x230038, 0x1, 1, 0x1, 1, 0x0, 0x0, 0x0, 0xffffffff, 0x0⟩,
   -- TU_REFUSED
   ⟨0x230040, 0x4, 3, 0x1, 1, 0x0, 0x0, 0x0, 0xffffffff, 0x0⟩,
   -- TU_CORE_CTX
   ⟨0x230100, 0x4, 8, 0x1, 1, 0xfff, 0x0, 0x0, 0x0, 0x0⟩,
   -- APERTURE_FAULT
   ⟨0x2f0000, 0x1, 1, 0x1, 1, 0x0, 0x80000000, 0x0, 0x0, 0x0⟩,
   -- APERTURE_FAULT_COUNT
   ⟨0x2f0004, 0x1, 1, 0x1, 1, 0x0, 0x0, 0x0, 0xffffffff, 0x0⟩]

/-- Rows 80 to 119 of the register tables, by ascending offset. -/
def regRows2 : List RegRow :=

   -- APERTURE_FAULT_OFS_LO
  [⟨0x2f0008, 0x1, 1, 0x1, 1, 0x0, 0x0, 0x0, 0x0, 0x0⟩,
   -- APERTURE_FAULT_OFS_HI
   ⟨0x2f000c, 0x1, 1, 0x1, 1, 0x0, 0x0, 0x0, 0x0, 0x0⟩,
   -- ENG_STATUS
   ⟨0x300000, 0x1000, 68, 0x1, 1, 0x0, 0x0, 0x0, 0x0, 0x0⟩,
   -- ENG_TASK_SQ
   ⟨0x300004, 0x1000, 68, 0x1, 1, 0x0, 0x0, 0x0, 0x0, 0x0⟩,
   -- ENG_TASK_INDEX
   ⟨0x300008, 0x1000, 68, 0x1, 1, 0x0, 0x0, 0x0, 0x0, 0x0⟩,
   -- ENG_STAGED
   ⟨0x30000c, 0x1000, 68, 0x1, 1, 0x0, 0x0, 0x0, 0x0, 0x0⟩,
   -- ENG_ISSUEQ
   ⟨0x300010, 0x1000, 68, 0x1, 1, 0x0, 0x0, 0x0, 0x0, 0x0⟩,
   -- ENG_GATED
   ⟨0x300014, 0x1000, 68, 0x1, 1, 0x0, 0x0, 0x0, 0xffffffff, 0x0⟩,
   -- STR_SC_LO
   ⟨0x380000, 0x1, 1, 0x1, 1, 0x0, 0x0, 0x0, 0x0, 0x0⟩,
   -- STR_SC_HI
   ⟨0x380004, 0x1, 1, 0x1, 1, 0x0, 0x0, 0x0, 0x0, 0x0⟩,
   -- STR_STEP
   ⟨0x380008, 0x1, 1, 0x1, 1, 0x0, 0x0, 0x0, 0x0, 0x0⟩,
   -- STR_RUN
   ⟨0x38000c, 0x1, 1, 0x1, 1, 0x0, 0x40000000, 0x0, 0x0, 0x0⟩,
   -- STR_HOLD
   ⟨0x380010, 0x1, 1, 0x1, 1, 0x0, 0x0, 0x0, 0x0, 0x0⟩,
   -- STR_HOLD_CTL
   ⟨0x380014, 0x1, 1, 0x1, 1, 0x0, 0x0, 0x0, 0x0, 0x0⟩,
   -- STR_HOLD_LIMIT
   ⟨0x380018, 0x1, 1, 0x1, 1, 0xffffffff, 0x0, 0x0, 0x0, 0x1000000⟩,
   -- STR_HOLD_LONG
   ⟨0x38001c, 0x1, 1, 0x1, 1, 0x0, 0x80000000, 0x0, 0x0, 0x0⟩,
   -- STR_SESSION_CFG
   ⟨0x380020, 0x1, 1, 0x1, 1, 0x1f, 0x0, 0x0, 0x0, 0x0⟩,
   -- STR_SESSION_ACTIVE
   ⟨0x380024, 0x1, 1, 0x1, 1, 0x0, 0x0, 0x0, 0x0, 0x0⟩,
   -- STR_SESSION_LATE
   ⟨0x380028, 0x1, 1, 0x1, 1, 0x0, 0x0, 0x0, 0xffffffff, 0x0⟩,
   -- STR_BARRIERS
   ⟨0x38002c, 0x1, 1, 0x1, 1, 0x0, 0x0, 0x0, 0x0, 0x0⟩,
   -- STR_BAD
   ⟨0x380040, 0x4, 8, 0x1, 1, 0x0, 0x0, 0x0, 0x0, 0x0⟩,
   -- STR_FAILED
   ⟨0x380060, 0x4, 8, 0x1, 1, 0x0, 0x0, 0x0, 0x0, 0x0⟩,
   -- CRD_VAL
   ⟨0x390000, 0x10, 64, 0x1, 1, 0xffffffff, 0x0, 0x0, 0x0, 0x0⟩,
   -- CRD_ADD
   ⟨0x390004, 0x10, 64, 0x1, 1, 0x0, 0x0, 0x0, 0x0, 0x0⟩,
   -- CRD_STATUS
   ⟨0x390008, 0x10, 64, 0x1, 1, 0x0, 0x80000000, 0x0, 0x0, 0x0⟩,
   -- DS_CFG
   ⟨0x3a0000, 0x40, 256, 0x1, 1, 0xefff03ff, 0x0, 0x0, 0x0, 0x0⟩,
   -- DS_RING
   ⟨0x3a0004, 0x40, 256, 0x1, 1, 0x1ffff000, 0x0, 0x0, 0x0, 0x0⟩,
   -- DS_GEN
   ⟨0x3a0008, 0x40, 256, 0x1, 1, 0x1ffffff8, 0x0, 0x0, 0x0, 0x0⟩,
   -- DS_FIRST_LO
   ⟨0x3a000c, 0x40, 256, 0x1, 1, 0xffffffff, 0x0, 0x0, 0x0, 0x0⟩,
   -- DS_FIRST_HI
   ⟨0x3a0010, 0x40, 256, 0x1, 1, 0xffff, 0x0, 0x0, 0x0, 0x0⟩,
   -- DS_PERIOD
   ⟨0x3a0014, 0x40, 256, 0x1, 1, 0xffffffff, 0x0, 0x0, 0x0, 0x0⟩,
   -- DS_USE
   ⟨0x3a0018, 0x40, 256, 0x1, 1, 0xffffffff, 0x0, 0x0, 0x0, 0x0⟩,
   -- DS_TILES
   ⟨0x3a001c, 0x40, 256, 0x1, 1, 0xffffffff, 0x0, 0x0, 0x0, 0x0⟩,
   -- DS_NEXT
   ⟨0x3a0020, 0x40, 256, 0x1, 1, 0x0, 0x0, 0x0, 0x0, 0x0⟩,
   -- DS_DONE
   ⟨0x3a0024, 0x40, 256, 0x1, 1, 0x0, 0x0, 0x0, 0x0, 0x0⟩,
   -- DS_STATE
   ⟨0x3a0028, 0x40, 256, 0x1, 1, 0x0, 0x0, 0x0, 0x0, 0x0⟩,
   -- RD_ARRIVAL_CFG
   ⟨0x400000, 0x1, 1, 0x1, 1, 0x1, 0x0, 0x0, 0x0, 0x0⟩,
   -- RD_ARRIVAL_ACTIVE
   ⟨0x400004, 0x1, 1, 0x1, 1, 0x0, 0x0, 0x0, 0x0, 0x0⟩,
   -- RD_LANE_BUSY
   ⟨0x400010, 0x1, 1, 0x1, 1, 0x0, 0x0, 0x0, 0x0, 0x0⟩,
   -- RD_ROB_USED
   ⟨0x400020, 0x1, 1, 0x1, 1, 0x0, 0x0, 0x0, 0x0, 0x0⟩]

/-- Rows 120 to 159 of the register tables, by ascending offset. -/
def regRows3 : List RegRow :=

   -- RD_MCAST_DETACH
  [⟨0x400030, 0x1, 1, 0x1, 1, 0x0, 0x80000000, 0x0, 0x0, 0x0⟩,
   -- RD_MCAST_DETACH_COUNT
   ⟨0x400034, 0x1, 1, 0x1, 1, 0x0, 0x0, 0x0, 0xffffffff, 0x0⟩,
   -- RD_ATOMIC_REFUSED
   ⟨0x400040, 0x1, 1, 0x1, 1, 0x0, 0x0, 0x0, 0xffffffff, 0x0⟩,
   -- RD_FADD_REFUSED
   ⟨0x400044, 0x1, 1, 0x1, 1, 0x0, 0x0, 0x0, 0xffffffff, 0x0⟩,
   -- RD_LANE_TERMS_LO
   ⟨0x400100, 0x8, 16, 0x1, 1, 0x0, 0x0, 0x0, 0x0, 0x0⟩,
   -- RD_LANE_TERMS_HI
   ⟨0x400104, 0x8, 16, 0x1, 1, 0x0, 0x0, 0x0, 0x0, 0x0⟩,
   -- CX_SLOT
   ⟨0x401000, 0x8, 4, 0x1, 1, 0x0, 0x0, 0x0, 0x0, 0x0⟩,
   -- CX_SLOT_REFS
   ⟨0x401004, 0x8, 4, 0x1, 1, 0x0, 0x0, 0x0, 0x0, 0x0⟩,
   -- CX_COMP_ACTIVE
   ⟨0x401040, 0x1, 1, 0x1, 1, 0x0, 0x0, 0x0, 0x0, 0xffffff⟩,
   -- CX_EXP_ACTIVE
   ⟨0x401044, 0x1, 1, 0x1, 1, 0x0, 0x0, 0x0, 0x0, 0xffffff⟩,
   -- CX_COMP_BUSY
   ⟨0x401048, 0x1, 1, 0x1, 1, 0x0, 0x0, 0x0, 0x0, 0x0⟩,
   -- CX_EXP_BUSY
   ⟨0x40104c, 0x1, 1, 0x1, 1, 0x0, 0x0, 0x0, 0x0, 0x0⟩,
   -- CX_ENC_COUNT
   ⟨0x401080, 0x4, 5, 0x1, 1, 0x0, 0x0, 0x0, 0xffffffff, 0x0⟩,
   -- CX_IN_LO
   ⟨0x4010a0, 0x1, 1, 0x1, 1, 0x0, 0x0, 0x0, 0x0, 0x0⟩,
   -- CX_IN_HI
   ⟨0x4010a4, 0x1, 1, 0x1, 1, 0x0, 0x0, 0x0, 0x0, 0x0⟩,
   -- CX_OUT_LO
   ⟨0x4010a8, 0x1, 1, 0x1, 1, 0x0, 0x0, 0x0, 0x0, 0x0⟩,
   -- CX_OUT_HI
   ⟨0x4010ac, 0x1, 1, 0x1, 1, 0x0, 0x0, 0x0, 0x0, 0x0⟩,
   -- CX_ERR
   ⟨0x4010c0, 0x1, 1, 0x1, 1, 0x0, 0x80000000, 0x0, 0x0, 0x0⟩,
   -- CX_ERR_COUNT
   ⟨0x4010c4, 0x1, 1, 0x1, 1, 0x0, 0x0, 0x0, 0xffffffff, 0x0⟩,
   -- FE_CTL
   ⟨0x500000, 0x1, 1, 0x1, 1, 0x80000000, 0x0, 0x0, 0x0, 0x0⟩,
   -- FE_STATUS
   ⟨0x500004, 0x1, 1, 0x1, 1, 0x0, 0x0, 0x0, 0x0, 0x0⟩,
   -- FE_INCARN_LO
   ⟨0x500008, 0x1, 1, 0x1, 1, 0x0, 0x0, 0x0, 0x0, 0x0⟩,
   -- FE_INCARN_HI
   ⟨0x50000c, 0x1, 1, 0x1, 1, 0x0, 0x0, 0x0, 0x0, 0x0⟩,
   -- FE_NO_READER
   ⟨0x500010, 0x1, 1, 0x1, 1, 0x0, 0x0, 0x0, 0xffffffff, 0x0⟩,
   -- FE_DEAD_REFUSED
   ⟨0x500014, 0x1, 1, 0x1, 1, 0x0, 0x0, 0x0, 0xffffffff, 0x0⟩,
   -- WIN_BASE_LO
   ⟨0x501000, 0x20, 64, 0x1, 1, 0x0, 0x0, 0x0, 0x0, 0x0⟩,
   -- WIN_BASE_HI
   ⟨0x501004, 0x20, 64, 0x1, 1, 0x0, 0x0, 0x0, 0x0, 0x0⟩,
   -- WIN_LIMIT_LO
   ⟨0x501008, 0x20, 64, 0x1, 1, 0x0, 0x0, 0x0, 0x0, 0x0⟩,
   -- WIN_LIMIT_HI
   ⟨0x50100c, 0x20, 64, 0x1, 1, 0x0, 0x0, 0x0, 0x0, 0x0⟩,
   -- WIN_CTL
   ⟨0x501010, 0x20, 64, 0x1, 1, 0x0, 0x0, 0x0, 0x0, 0x0⟩,
   -- WIN_SRC
   ⟨0x501014, 0x20, 64, 0x1, 1, 0x0, 0x0, 0x0, 0x0, 0x0⟩,
   -- FE_WIN_REFUSED
   ⟨0x501800, 0x1, 1, 0x1, 1, 0x0, 0x0, 0x0, 0xffffffff, 0x0⟩,
   -- FE_WIN_FAULT
   ⟨0x501804, 0x1, 1, 0x1, 1, 0x0, 0x80000000, 0x0, 0x0, 0x0⟩,
   -- FE_PEER_CFG
   ⟨0x510000, 0x10, 1024, 0x1, 1, 0x8000ffff, 0x0, 0x0, 0x0, 0x0⟩,
   -- FE_PEER_DEATHS
   ⟨0x510004, 0x10, 1024, 0x1, 1, 0x0, 0x0, 0x0, 0xffffffff, 0x0⟩,
   -- FE_PEER_RESETS
   ⟨0x510008, 0x10, 1024, 0x1, 1, 0x0, 0x0, 0x0, 0xffffffff, 0x0⟩,
   -- RX_BASE_LO
   ⟨0x520000, 0x40, 256, 0x1, 1, 0xfffff000, 0x0, 0x0, 0x0, 0x0⟩,
   -- RX_BASE_HI
   ⟨0x520004, 0x40, 256, 0x1, 1, 0xffff, 0x0, 0x0, 0x0, 0x0⟩,
   -- RX_CFG
   ⟨0x520008, 0x40, 256, 0x1, 1, 0xcf7fcfff, 0x20000000, 0x0, 0x0, 0x0⟩,
   -- RX_TAG
   ⟨0x52000c, 0x40, 256, 0x1, 1, 0xffff, 0x0, 0x0, 0x0, 0x0⟩]

/-- Rows 160 to 199 of the register tables, by ascending offset. -/
def regRows4 : List RegRow :=

   -- RX_SRC
  [⟨0x520010, 0x40, 256, 0x1, 1, 0xffffffff, 0x0, 0x0, 0x0, 0x0⟩,
   -- RX_HEAD
   ⟨0x520014, 0x40, 256, 0x1, 1, 0xffff, 0x0, 0x0, 0x0, 0x0⟩,
   -- RX_TAIL
   ⟨0x520018, 0x40, 256, 0x1, 1, 0x0, 0x0, 0x0, 0x0, 0x80000000⟩,
   -- RX_WAIT
   ⟨0x52001c, 0x40, 256, 0x1, 1, 0x0, 0x0, 0x0, 0x0, 0x0⟩,
   -- RX_RECEIVED
   ⟨0x520020, 0x40, 256, 0x1, 1, 0x0, 0x0, 0x0, 0xffffffff, 0x0⟩,
   -- RX_REFUSED
   ⟨0x520024, 0x40, 256, 0x1, 1, 0x0, 0x0, 0x0, 0xffffffff, 0x0⟩,
   -- RX_VOIDED
   ⟨0x520028, 0x40, 256, 0x1, 1, 0x0, 0x0, 0x0, 0xffffffff, 0x0⟩,
   -- TC_CFG
   ⟨0x530000, 0x20, 64, 0x1, 1, 0x8000ffff, 0x0, 0x0, 0x0, 0x0⟩,
   -- TC_SENT
   ⟨0x530004, 0x20, 64, 0x1, 1, 0x0, 0x0, 0x0, 0xffffffff, 0x0⟩,
   -- TC_RECEIVED
   ⟨0x530008, 0x20, 64, 0x1, 1, 0x0, 0x0, 0x0, 0xffffffff, 0x0⟩,
   -- TC_DROPPED
   ⟨0x53000c, 0x20, 64, 0x1, 1, 0x0, 0x0, 0x0, 0xffffffff, 0x0⟩,
   -- TC_STALL
   ⟨0x530010, 0x20, 64, 0x1, 1, 0x0, 0x0, 0x0, 0xffffffff, 0x0⟩,
   -- TC_FAILED
   ⟨0x530014, 0x20, 64, 0x1, 1, 0x0, 0x0, 0x0, 0xffffffff, 0x0⟩,
   -- FE_LANE_STATUS
   ⟨0x540000, 0x20, 32, 0x1, 1, 0x0, 0xc00000, 0x0, 0x0, 0x2⟩,
   -- FE_LANE_CTL
   ⟨0x540004, 0x20, 32, 0x1, 1, 0x0, 0x0, 0x0, 0x0, 0x0⟩,
   -- FE_LANE_ERR
   ⟨0x540008, 0x20, 32, 0x4, 5, 0x0, 0x0, 0x0, 0xffffffff, 0x0⟩,
   -- SP_DEST
   ⟨0x580000, 0x1000, 64, 0x1, 1, 0xffffffff, 0x0, 0x0, 0x0, 0x0⟩,
   -- SP_SEND
   ⟨0x580004, 0x1000, 64, 0x1, 1, 0x0, 0x0, 0x0, 0x0, 0x0⟩,
   -- SP_STATUS
   ⟨0x580008, 0x1000, 64, 0x1, 1, 0x0, 0x40000000, 0x0, 0x0, 0x100000⟩,
   -- SP_CTL
   ⟨0x58000c, 0x1000, 64, 0x1, 1, 0x0, 0x0, 0x0, 0x0, 0x0⟩,
   -- SP_WDOG
   ⟨0x580010, 0x1000, 64, 0x1, 1, 0xffffffff, 0x0, 0x0, 0x0, 0x1000000⟩,
   -- SP_ACCEPTED
   ⟨0x580014, 0x1000, 64, 0x1, 1, 0x0, 0x0, 0x0, 0x0, 0x0⟩,
   -- SP_DELIVERED
   ⟨0x580018, 0x1000, 64, 0x1, 1, 0x0, 0x0, 0x0, 0x0, 0x0⟩,
   -- SP_FAILED
   ⟨0x58001c, 0x1000, 64, 0x1, 1, 0x0, 0x0, 0x0, 0x0, 0x0⟩,
   -- SP_ERR_NUM
   ⟨0x580020, 0x1000, 64, 0x1, 1, 0x0, 0x0, 0x0, 0x0, 0x0⟩,
   -- TB_SITE_MAP
   ⟨0x600000, 0x1, 1, 0x1, 1, 0x0, 0x0, 0x0, 0x0, 0x76543210⟩,
   -- TB_EVAC
   ⟨0x600004, 0x1, 1, 0x1, 1, 0x0, 0x0, 0x0, 0x0, 0x0⟩,
   -- TB_EVAC_CFG
   ⟨0x600008, 0x1, 1, 0x1, 1, 0xf, 0x0, 0x0, 0x0, 0x4⟩,
   -- TB_EVAC_DONE_LO
   ⟨0x600010, 0x1, 1, 0x1, 1, 0x0, 0x0, 0x0, 0x0, 0x0⟩,
   -- TB_EVAC_DONE_HI
   ⟨0x600014, 0x1, 1, 0x1, 1, 0x0, 0x0, 0x0, 0x0, 0x0⟩,
   -- TB_SCRUB_CFG
   ⟨0x600020, 0x1, 1, 0x1, 1, 0xff, 0x0, 0x0, 0x0, 0x18⟩,
   -- TB_ROW_CFG
   ⟨0x600024, 0x1, 1, 0x1, 1, 0xf, 0x0, 0x0, 0x0, 0x3⟩,
   -- TB_UE_ADDR_LO
   ⟨0x600030, 0x1, 1, 0x1, 1, 0x0, 0x0, 0x0, 0x0, 0x0⟩,
   -- TB_UE_ADDR_HI
   ⟨0x600034, 0x1, 1, 0x1, 1, 0x0, 0x0, 0x0, 0x0, 0x0⟩,
   -- TB_UE
   ⟨0x600038, 0x1, 1, 0x1, 1, 0x0, 0x80000000, 0x0, 0x0, 0x0⟩,
   -- TB_SITE_STATUS
   ⟨0x601000, 0x100, 9, 0x1, 1, 0x0, 0x0, 0x0, 0x0, 0x0⟩,
   -- TB_CE
   ⟨0x601004, 0x100, 9, 0x1, 1, 0x0, 0x0, 0x0, 0xffffffff, 0x0⟩,
   -- TB_UE_COUNT
   ⟨0x601008, 0x100, 9, 0x1, 1, 0x0, 0x0, 0x0, 0xffffffff, 0x0⟩,
   -- TB_REFRESH_HIT
   ⟨0x60100c, 0x100, 9, 0x1, 1, 0x0, 0x0, 0x0, 0xffffffff, 0x0⟩,
   -- TB_ROW_OVERFLOW
   ⟨0x601010, 0x100, 9, 0x1, 1, 0x0, 0x0, 0x0, 0xffffffff, 0x0⟩]

/-- Rows 200 to 239 of the register tables, by ascending offset. -/
def regRows5 : List RegRow :=

   -- TB_ROW
  [⟨0x601040, 0x100, 9, 0x4, 16, 0x0, 0x80000000, 0x0, 0x0, 0x0⟩,
   -- SPD_IMAGE
   ⟨0x610000, 0x400, 9, 0x4, 256, 0x0, 0x0, 0x0, 0x0, 0x0⟩,
   -- ARB_CTL
   ⟨0x700000, 0x100, 11, 0x1, 1, 0x80000000, 0x0, 0x0, 0x0, 0x80000000⟩,
   ⟨0x701000, 0x100, 32, 0x1, 1, 0x80000000, 0x0, 0x0, 0x0, 0x80000000⟩,
   -- ARB_STATUS
   ⟨0x700004, 0x100, 11, 0x1, 1, 0x0, 0x0, 0x0, 0x0, 0x0⟩,
   ⟨0x701004, 0x100, 32, 0x1, 1, 0x0, 0x0, 0x0, 0x0, 0x0⟩,
   -- ARB_WDOG
   ⟨0x700008, 0x100, 11, 0x1, 1, 0xffffffff, 0x0, 0x0, 0x0, 0x100000⟩,
   ⟨0x701008, 0x100, 32, 0x1, 1, 0xffffffff, 0x0, 0x0, 0x0, 0x100000⟩,
   -- ARB_WDOG_FAULT
   ⟨0x70000c, 0x100, 11, 0x1, 1, 0x0, 0x80000000, 0x0, 0x0, 0x0⟩,
   ⟨0x70100c, 0x100, 32, 0x1, 1, 0x0, 0x80000000, 0x0, 0x0, 0x0⟩,
   -- ARB_WDOG_COUNT
   ⟨0x700010, 0x100, 11, 0x1, 1, 0x0, 0x0, 0x0, 0xffffffff, 0x0⟩,
   ⟨0x701010, 0x100, 32, 0x1, 1, 0x0, 0x0, 0x0, 0xffffffff, 0x0⟩,
   -- ARB_PARKED
   ⟨0x700014, 0x100, 11, 0x1, 1, 0x0, 0x0, 0x0, 0xffffffff, 0x0⟩,
   ⟨0x701014, 0x100, 32, 0x1, 1, 0x0, 0x0, 0x0, 0xffffffff, 0x0⟩,
   -- ARB_FULL_STALL
   ⟨0x700018, 0x100, 11, 0x1, 1, 0x0, 0x0, 0x0, 0xffffffff, 0x0⟩,
   ⟨0x701018, 0x100, 32, 0x1, 1, 0x0, 0x0, 0x0, 0xffffffff, 0x0⟩,
   -- ARB_RETRIES
   ⟨0x70001c, 0x100, 11, 0x1, 1, 0x0, 0x0, 0x0, 0xffffffff, 0x0⟩,
   ⟨0x70101c, 0x100, 32, 0x1, 1, 0x0, 0x0, 0x0, 0xffffffff, 0x0⟩,
   -- ARB_BEATS_LO
   ⟨0x700020, 0x100, 11, 0x8, 4, 0x0, 0x0, 0x0, 0x0, 0x0⟩,
   ⟨0x701020, 0x100, 32, 0x8, 4, 0x0, 0x0, 0x0, 0x0, 0x0⟩,
   -- ARB_BEATS_HI
   ⟨0x700024, 0x100, 11, 0x8, 4, 0x0, 0x0, 0x0, 0x0, 0x0⟩,
   ⟨0x701024, 0x100, 32, 0x8, 4, 0x0, 0x0, 0x0, 0x0, 0x0⟩,
   -- ARB_COPY_BEATS_LO
   ⟨0x700040, 0x100, 11, 0x1, 1, 0x0, 0x0, 0x0, 0x0, 0x0⟩,
   ⟨0x701040, 0x100, 32, 0x1, 1, 0x0, 0x0, 0x0, 0x0, 0x0⟩,
   -- ARB_COPY_BEATS_HI
   ⟨0x700044, 0x100, 11, 0x1, 1, 0x0, 0x0, 0x0, 0x0, 0x0⟩,
   ⟨0x701044, 0x100, 32, 0x1, 1, 0x0, 0x0, 0x0, 0x0, 0x0⟩,
   -- ARB_MAX_WAIT
   ⟨0x700050, 0x100, 11, 0x4, 4, 0x0, 0x0, 0x0, 0xffffffff, 0x0⟩,
   ⟨0x701050, 0x100, 32, 0x4, 4, 0x0, 0x0, 0x0, 0xffffffff, 0x0⟩,
   -- JR_BASE_LO
   ⟨0x800000, 0x1, 1, 0x1, 1, 0xfffff000, 0x0, 0x0, 0x0, 0x0⟩,
   -- JR_BASE_HI
   ⟨0x800004, 0x1, 1, 0x1, 1, 0xffff, 0x0, 0x0, 0x0, 0x0⟩,
   -- JR_CFG
   ⟨0x800008, 0x1, 1, 0x1, 1, 0xc000000f, 0x20000000, 0x0, 0x0, 0x0⟩,
   -- JR_TAIL
   ⟨0x80000c, 0x1, 1, 0x1, 1, 0x0, 0x0, 0x0, 0x0, 0x80000000⟩,
   -- JR_HEAD
   ⟨0x800010, 0x1, 1, 0x1, 1, 0xfffff, 0x0, 0x0, 0x0, 0x0⟩,
   -- JR_FULL_STALL
   ⟨0x800014, 0x1, 1, 0x1, 1, 0x0, 0x0, 0x0, 0xffffffff, 0x0⟩,
   -- JR_DROPPED
   ⟨0x800018, 0x1, 1, 0x1, 1, 0x0, 0x0, 0x0, 0xffffffff, 0x0⟩,
   -- JR_OVERWRITTEN
   ⟨0x80001c, 0x1, 1, 0x1, 1, 0x0, 0x0, 0x0, 0xffffffff, 0x0⟩,
   -- JR_ERR
   ⟨0x800020, 0x1, 1, 0x1, 1, 0x0, 0x0, 0x0, 0x0, 0x0⟩,
   -- HOLD_CUR_LO
   ⟨0x801000, 0x8, 16, 0x1, 1, 0x0, 0x0, 0x0, 0x0, 0x0⟩,
   -- HOLD_CUR_HI
   ⟨0x801004, 0x8, 16, 0x1, 1, 0x0, 0x0, 0x0, 0x0, 0x0⟩,
   -- HOLD_LAST_LO
   ⟨0x801080, 0x8, 16, 0x1, 1, 0x0, 0x0, 0x0, 0x0, 0x0⟩,
   -- HOLD_LAST_HI
   ⟨0x801084, 0x8, 16, 0x1, 1, 0x0, 0x0, 0x0, 0x0, 0x0⟩,
   -- HOLD_TOTAL_LO
   ⟨0x801100, 0x8, 16, 0x1, 1, 0x0, 0x0, 0x0, 0x0, 0x0⟩,
   -- HOLD_TOTAL_HI
   ⟨0x801104, 0x8, 16, 0x1, 1, 0x0, 0x0, 0x0, 0x0, 0x0⟩,
   -- HOLD_LAST_STEP
   ⟨0x801180, 0x1, 1, 0x1, 1, 0x0, 0x0, 0x0, 0x0, 0x0⟩,
   -- MC_CTL
   ⟨0x802000, 0x1, 1, 0x1, 1, 0x800007ff, 0x0, 0x0, 0x0, 0x0⟩,
   -- MC_COUNT
   ⟨0x802004, 0x1, 1, 0x1, 1, 0x0, 0x0, 0x0, 0xffffffff, 0x0⟩,
   -- MC_LOST
   ⟨0x802008, 0x1, 1, 0x1, 1, 0x0, 0x0, 0x0, 0xffffffff, 0x0⟩,
   -- MC_INFO
   ⟨0x802100, 0x20, 16, 0x1, 1, 0x0, 0x80000000, 0x0, 0x0, 0x0⟩,
   -- MC_TASK
   ⟨0x802104, 0x20, 16, 0x1, 1, 0x0, 0x0, 0x0, 0x0, 0x0⟩,
   -- MC_INDEX
   ⟨0x802108, 0x20, 16, 0x1, 1, 0x0, 0x0, 0x0, 0x0, 0x0⟩,
   -- MC_ADDR_LO
   ⟨0x802110, 0x20, 16, 0x1, 1, 0x0, 0x0, 0x0, 0x0, 0x0⟩,
   -- MC_ADDR_HI
   ⟨0x802114, 0x20, 16, 0x1, 1, 0x0, 0x0, 0x0, 0x0, 0x0⟩,
   -- MC_TIME_LO
   ⟨0x802118, 0x20, 16, 0x1, 1, 0x0, 0x0, 0x0, 0x0, 0x0⟩]

/-- Rows 240 to 272 of the register tables, by ascending offset. -/
def regRows6 : List RegRow :=

   -- MC_TIME_HI
  [⟨0x80211c, 0x20, 16, 0x1, 1, 0x0, 0x0, 0x0, 0x0, 0x0⟩,
   -- TM_SRAM_CE
   ⟨0x803000, 0x1, 1, 0x1, 1, 0x0, 0x0, 0x0, 0xffffffff, 0x0⟩,
   -- TM_PATH_PARITY
   ⟨0x803004, 0x1, 1, 0x1, 1, 0x0, 0x0, 0x0, 0xffffffff, 0x0⟩,
   -- TM_FABRIC_RESENT
   ⟨0x803008, 0x1, 1, 0x1, 1, 0x0, 0x0, 0x0, 0xffffffff, 0x0⟩,
   -- TM_LATE_HOST
   ⟨0x80300c, 0x1, 1, 0x1, 1, 0x0, 0x0, 0x0, 0xffffffff, 0x0⟩,
   -- TM_LATE_FABRIC
   ⟨0x803010, 0x1, 1, 0x1, 1, 0x0, 0x0, 0x0, 0xffffffff, 0x0⟩,
   -- TM_TIER_A_CE
   ⟨0x803014, 0x1, 1, 0x1, 1, 0x0, 0x0, 0x0, 0xffffffff, 0x0⟩,
   -- TM_SCRATCH_CE
   ⟨0x803018, 0x1, 1, 0x1, 1, 0x0, 0x0, 0x0, 0xffffffff, 0x0⟩,
   -- TM_ENG_TASKS
   ⟨0x804000, 0x10, 68, 0x1, 1, 0x0, 0x0, 0x0, 0xffffffff, 0x0⟩,
   -- TM_ENG_FAILED
   ⟨0x804004, 0x10, 68, 0x1, 1, 0x0, 0x0, 0x0, 0xffffffff, 0x0⟩,
   -- TM_ENG_BYTES_LO
   ⟨0x804008, 0x10, 68, 0x1, 1, 0x0, 0x0, 0x0, 0x0, 0x0⟩,
   -- TM_ENG_BYTES_HI
   ⟨0x80400c, 0x10, 68, 0x1, 1, 0x0, 0x0, 0x0, 0x0, 0x0⟩,
   -- MQ_SQ_BASE_LO
   ⟨0x900000, 0x1, 1, 0x1, 1, 0xfffff000, 0x0, 0x0, 0x0, 0x0⟩,
   -- MQ_SQ_BASE_HI
   ⟨0x900004, 0x1, 1, 0x1, 1, 0xffff, 0x0, 0x0, 0x0, 0x0⟩,
   -- MQ_CQ_BASE_LO
   ⟨0x900008, 0x1, 1, 0x1, 1, 0xfffff000, 0x0, 0x0, 0x0, 0x0⟩,
   -- MQ_CQ_BASE_HI
   ⟨0x90000c, 0x1, 1, 0x1, 1, 0xffff, 0x0, 0x0, 0x0, 0x0⟩,
   -- MQ_CFG
   ⟨0x900010, 0x1, 1, 0x1, 1, 0x80000f0f, 0x60000000, 0x0, 0x0, 0x0⟩,
   -- MQ_STATE
   ⟨0x900014, 0x1, 1, 0x1, 1, 0x0, 0x0, 0x0, 0x0, 0x0⟩,
   -- MQ_DOORBELL
   ⟨0x900018, 0x1, 1, 0x1, 1, 0x0, 0x0, 0x0, 0x0, 0x0⟩,
   -- MQ_SQ_HEAD
   ⟨0x90001c, 0x1, 1, 0x1, 1, 0x0, 0x0, 0x0, 0x0, 0x80000000⟩,
   -- MQ_CQ_TAIL
   ⟨0x900020, 0x1, 1, 0x1, 1, 0x0, 0x0, 0x0, 0x0, 0x80000000⟩,
   -- MQ_CQ_HEAD
   ⟨0x900024, 0x1, 1, 0x1, 1, 0xffff, 0x0, 0x0, 0x0, 0x0⟩,
   -- MQ_IRQ
   ⟨0x900028, 0x1, 1, 0x1, 1, 0x800007ff, 0x0, 0x0, 0x0, 0x0⟩,
   -- MQ_PENDING
   ⟨0x90002c, 0x1, 1, 0x1, 1, 0x0, 0x0, 0x0, 0x0, 0x0⟩,
   -- MQ_INDEX
   ⟨0x900030, 0x1, 1, 0x1, 1, 0x0, 0x0, 0x0, 0x0, 0x0⟩,
   -- CP_VERSION_A
   ⟨0x900040, 0x1, 1, 0x1, 1, 0x0, 0x0, 0x0, 0x0, 0x1⟩,
   -- CP_VERSION_B
   ⟨0x900044, 0x1, 1, 0x1, 1, 0x0, 0x0, 0x0, 0x0, 0x0⟩,
   -- CP_BOOT
   ⟨0x900048, 0x1, 1, 0x1, 1, 0x0, 0x0, 0x0, 0x0, 0x0⟩,
   -- CP_RECORD
   ⟨0x90004c, 0x1, 1, 0x1, 1, 0x0, 0x20000000, 0x0, 0x0, 0x0⟩,
   -- CP_RECORD_SEQ
   ⟨0x900050, 0x1, 1, 0x1, 1, 0x0, 0x0, 0x0, 0x0, 0x0⟩,
   -- CP_PAIR
   ⟨0x900054, 0x1, 1, 0x1, 1, 0x0, 0x0, 0x0, 0x0, 0x0⟩,
   -- SQ_DOORBELL
   ⟨0xc00000, 0x1000, 1024, 0x1, 1, 0x0, 0x0, 0x0, 0x0, 0x0⟩,
   -- CQ_HEAD_DOORBELL
   ⟨0xc00010, 0x1000, 1024, 0x1, 1, 0x0, 0x0, 0x0, 0x0, 0x0⟩]

/-- The register tables as one list. -/
def regRows : List RegRow := regRows0 ++ regRows1 ++ regRows2 ++ regRows3 ++ regRows4 ++ regRows5 ++ regRows6

/-- The row that holds an offset: within the array, 4-byte aligned by construction (R4, R46). -/
def RegRow.holds (r : RegRow) (off : Nat) : Bool :=
  decide (r.base ≤ off) &&
    (let d := off - r.base
     let i := if r.s1 = 1 then 0 else d / r.s1
     let e := if r.s1 = 1 then d else d % r.s1
     let j := if r.s2 = 1 then 0 else e / r.s2
     let e' := if r.s2 = 1 then e else e % r.s2
     decide (i < r.c1) && decide (j < r.c2) && decide (e' = 0))
/-- The rows whose registers do not all reset to zero: first offset, stride, count, value (the tables above). CTX_MAP 0
is valid (R258). The vector-control words of the MSI-X table have their mask bit set (PRESUMED, log 21). -/
def resetRows : List (Nat × Nat × Nat × Nat) :=
  [(0x100, 4, 1, 0x80000000), (0x104, 4, 1, 0x64), (0x120, 4, 1, 0x80000000), (0x110010, 0x40, 256, 0x80000000),
   (0x220000, 4, 1, 0x80000000), (0x230004, 4, 1, 0x40), (0x230008, 4, 1, 0x8000),
   (0x380018, 4, 1, 0x1000000), (0x401040, 4, 1, 0xffffff),
   (0x401044, 4, 1, 0xffffff), (0x520018, 0x40, 256, 0x80000000), (0x540000, 0x20, 32, 0x2),
   (0x580008, 0x1000, 64, 0x100000), (0x580010, 0x1000, 64, 0x1000000), (0x600000, 4, 1, 0x76543210),
   (0x600008, 4, 1, 0x4), (0x600020, 4, 1, 0x18), (0x600024, 4, 1, 0x3), (0x700000, 0x100, 11, 0x80000000), (0x701000, 0x100, 32, 0x80000000),
   (0x700008, 0x100, 11, 0x100000), (0x701008, 0x100, 32, 0x100000), (0x80000c, 4, 1, 0x80000000), (0x90001c, 4, 1, 0x80000000),
   (0x900020, 4, 1, 0x80000000), (0x900040, 4, 1, 0x1), (0x100000c, 0x10, 2048, 0x1)]

/-- Is an offset one of an array of registers? -/
def inArray (base stride count off : Nat) : Bool :=
  Nat.ble base off && Nat.beq ((off - base) % stride) 0 && Nat.blt ((off - base) / stride) count

/-- What a register reads as after a cold reset (R51, R88 and the other tables). ENG_STATUS n resets to position n,
active, for n below 64, and to spare above (R13, R35). -/
def resetWord (off : Nat) : Word :=
  if inArray 0x300000 0x1000 68 off then
    (if (off - 0x300000) / 0x1000 < 64 then BitVec.ofNat 32 ((off - 0x300000) / 0x1000) else 0x40000000)
  else
    match resetRows.find? (fun r => inArray r.1 r.2.1 r.2.2.1 off) with
    | some r => BitVec.ofNat 32 r.2.2.2
    | none => 0

/-- The access types of an offset in the register region or the MSI-X window: the row that holds it (R46, R47). The
MSI-X table's words are plain words; the rest of its window, the pending-bit array in it, reads 0 (PRESUMED, log 21). -/
def regRow (off : Nat) : Option RegRow :=
  if 0x1000000 ≤ off then
    (if off < 0x1008000 ∧ off % 4 = 0 then some ⟨off, 1, 1, 1, 1, 0xffffffff, 0, 0, 0, 0⟩ else none)
  else regRows.find? (fun r => r.holds off)

/-- The low words of the lo/hi pairs: every register whose name ends in _LO (R5). -/
def pairRows : List RegRow :=
  [⟨0x48, 0x1, 1, 0x1, 1, 0, 0, 0, 0, 0⟩,
   ⟨0x60, 0x1, 1, 0x1, 1, 0, 0, 0, 0, 0⟩,
   ⟨0x110, 0x1, 1, 0x1, 1, 0, 0, 0, 0, 0⟩,
   ⟨0x100000, 0x40, 1024, 0x1, 1, 0, 0, 0, 0, 0⟩,
   ⟨0x110000, 0x40, 256, 0x1, 1, 0, 0, 0, 0, 0⟩,
   ⟨0x130000, 0x20, 16, 0x1, 1, 0, 0, 0, 0, 0⟩,
   ⟨0x200000, 0x8000, 3, 0x20, 1024, 0, 0, 0, 0, 0⟩,
   ⟨0x200008, 0x8000, 3, 0x20, 1024, 0, 0, 0, 0, 0⟩,
   ⟨0x230014, 0x1, 1, 0x1, 1, 0, 0, 0, 0, 0⟩,
   ⟨0x2f0008, 0x1, 1, 0x1, 1, 0, 0, 0, 0, 0⟩,
   ⟨0x380000, 0x1, 1, 0x1, 1, 0, 0, 0, 0, 0⟩,
   ⟨0x3a000c, 0x40, 256, 0x1, 1, 0, 0, 0, 0, 0⟩,
   ⟨0x400100, 0x8, 16, 0x1, 1, 0, 0, 0, 0, 0⟩,
   ⟨0x4010a0, 0x1, 1, 0x1, 1, 0, 0, 0, 0, 0⟩,
   ⟨0x4010a8, 0x1, 1, 0x1, 1, 0, 0, 0, 0, 0⟩,
   ⟨0x500008, 0x1, 1, 0x1, 1, 0, 0, 0, 0, 0⟩,
   ⟨0x501000, 0x20, 64, 0x1, 1, 0, 0, 0, 0, 0⟩,
   ⟨0x501008, 0x20, 64, 0x1, 1, 0, 0, 0, 0, 0⟩,
   ⟨0x520000, 0x40, 256, 0x1, 1, 0, 0, 0, 0, 0⟩,
   ⟨0x600010, 0x1, 1, 0x1, 1, 0, 0, 0, 0, 0⟩,
   ⟨0x600030, 0x1, 1, 0x1, 1, 0, 0, 0, 0, 0⟩,
   ⟨0x700020, 0x100, 11, 0x8, 4, 0, 0, 0, 0, 0⟩,
   ⟨0x701020, 0x100, 32, 0x8, 4, 0, 0, 0, 0, 0⟩,
   ⟨0x700040, 0x100, 11, 0x1, 1, 0, 0, 0, 0, 0⟩,
   ⟨0x701040, 0x100, 32, 0x1, 1, 0, 0, 0, 0, 0⟩,
   ⟨0x800000, 0x1, 1, 0x1, 1, 0, 0, 0, 0, 0⟩,
   ⟨0x801000, 0x8, 16, 0x1, 1, 0, 0, 0, 0, 0⟩,
   ⟨0x801080, 0x8, 16, 0x1, 1, 0, 0, 0, 0, 0⟩,
   ⟨0x801100, 0x8, 16, 0x1, 1, 0, 0, 0, 0, 0⟩,
   ⟨0x802110, 0x20, 16, 0x1, 1, 0, 0, 0, 0, 0⟩,
   ⟨0x802118, 0x20, 16, 0x1, 1, 0, 0, 0, 0, 0⟩,
   ⟨0x804008, 0x10, 68, 0x1, 1, 0, 0, 0, 0, 0⟩,
   ⟨0x900000, 0x1, 1, 0x1, 1, 0, 0, 0, 0, 0⟩,
   ⟨0x900008, 0x1, 1, 0x1, 1, 0, 0, 0, 0, 0⟩]

/-- Is an offset the low word of a pair? -/
def isPairLow (off : Nat) : Bool := pairRows.any (fun r => r.holds off)

/-- Is an offset the high word of a pair? -/
def isPairHigh (off : Nat) : Bool := decide (4 ≤ off) && isPairLow (off - 4)

end Sys2Proof.Machine
end

