-- ==== Sys2Proof/Machine/Ops.lean ====
section
/-!
DEFINITION. The named operations over the state that every meaning shares: the register file, local memory and its map,
the device region table, the event log, messages out of the block, tasks by reference.
-/
namespace Sys2Proof.Machine

/-! ### Status codes (R375) -/

namespace St
def success : Status := 0x0000
def length : Status := 0x1001
def overflow : Status := 0x1002
def align : Status := 0x1003
def opcode : Status := 0x1004
def phase : Status := 0x1005
def reserved : Status := 0x1006
def ring : Status := 0x1007
def format : Status := 0x1008
def shape : Status := 0x1009
def sharding : Status := 0x100A
def stage : Status := 0x100B
def indexRange : Status := 0x100C
def group : Status := 0x100D
def fragmented : Status := 0x2001
def pageFault : Status := 0x2002
def invalidated : Status := 0x2003
def translationError : Status := 0x2004
def context : Status := 0x3001
def window : Status := 0x3002
def unmapped : Status := 0x3003
def uncorrectable : Status := 0x4001
def moduleAbsent : Status := 0x4002
def siteCheck : Status := 0x4003
def fabricCrc : Status := 0x4004
def overrun : Status := 0x5001
def underrun : Status := 0x5002
def tableGeneration : Status := 0x5003
def headerCrc : Status := 0x5004
def payloadCrc : Status := 0x5005
def tableImage : Status := 0x5006
def headerValue : Status := 0x5007
def deadDestination : Status := 0x6001
def detached : Status := 0x6002
def mismatch : Status := 0x6003
def noReader : Status := 0x6004
def host : Status := 0x7001
def fabric : Status := 0x7002
def sendWatchdog : Status := 0x7003
def portWatchdog : Status := 0x7004
def aborted : Status := 0x8001
def tableBusy : Status := 0x9001
def delivery : Status := 0x9002
def state : Status := 0x9003
def image : Status := 0x9004
end St

/-! ### The register file -/

/-- The word a register holds. -/
def State.reg (s : State) (off : Nat) : Word := sget resetWord s.regs off

/-- A register given a word. -/
def State.setReg (s : State) (off : Nat) (v : Word) : State := { s with regs := sset resetWord s.regs off v }

/-- A field of a register. -/
def State.fld (s : State) (off lo n : Nat) : Nat := getField (s.reg off) lo n

/-- A field of a register given a value; its other bits keep theirs. -/
def State.setFld (s : State) (off lo n v : Nat) : State := s.setReg off (putField (s.reg off) lo n v)

/-- A bit of a register. -/
def State.bit (s : State) (off i : Nat) : Bool := decide (s.fld off i 1 = 1)

/-- A bit of a register given a value. -/
def State.setBit (s : State) (off i : Nat) (b : Bool) : State := s.setFld off i 1 (boolBit b)

/-- A lo/hi pair (R5), by the offset of its low word. -/
def State.reg64 (s : State) (off : Nat) : Nat := (s.reg off).toNat + 2 ^ 32 * (s.reg (off + 4)).toNat

/-- A lo/hi pair given a value, modulo 2^64. -/
def State.setReg64 (s : State) (off v : Nat) : State :=
  (s.setReg off (BitVec.ofNat 32 v)).setReg (off + 4) (BitVec.ofNat 32 (v / 2 ^ 32))

/-- A saturating counter advanced; the core cycle's own count is kept beside it for a read that clears it (R7). -/
def State.bump (s : State) (off : Nat) (n : Nat) : State :=
  let c := (sget (fun _ => none) s.now.counted off).getD (s.reg off, 0)
  { s.setReg off (satAdd (s.reg off) n) with
      now := { s.now with counted := sset (fun _ => none) s.now.counted off (some (c.1, c.2 + n)) } }

/-- What hardware has counted into a register in this core cycle: the word before, and the amount (R7). -/
def State.countedNow (s : State) (off : Nat) : Word × Nat := (sget (fun _ => none) s.now.counted off).getD (s.reg off, 0)

/-- What a read of an RC register returns: the value before this core cycle's increments (R7). -/
def State.rcWord (s : State) (off : Nat) (rc : Word) : Word := (s.reg off &&& ~~~ rc) ||| ((s.countedNow off).1 &&& rc)

/-- The RC fields of a register after such a read: this core cycle's increments alone (R6, R7). -/
def State.clearRc (s : State) (off : Nat) (rc : Word) : State :=
  let c := s.countedNow off
  let rest := s.reg off &&& ~~~ rc
  { s.setReg off (rest ||| (BitVec.ofNat 32 (min c.2 0xFFFFFFFF) &&& rc)) with
      now := { s.now with counted := sset (fun _ => none) s.now.counted off (some (rest, c.2)) } }

/-- Hardware has set W1C bits of a register in this core cycle: a write of this cycle does not clear them (R7). -/
def State.noteSet (s : State) (off : Nat) (bits : Word) : State :=
  { s with now := { s.now with sets := sset (fun _ => 0) s.now.sets off (sget (fun _ => 0) s.now.sets off ||| bits) } }

/-- The W1C bits of a register that hardware has set in this core cycle. -/
def State.setNow (s : State) (off : Nat) : Word := sget (fun _ => 0) s.now.sets off

/-- Hardware sets a W1C bit of a register. -/
def State.hwSet (s : State) (off i : Nat) : State := (s.setBit off i true).noteSet off (BitVec.ofNat 32 (2 ^ i))

/-! ### Consequences (R413) -/

/-- A flag set or cleared as a consequence: it lands in the next core cycle (R413). -/
def State.flagLater (s : State) (e : Nat) (b : Bool) : State :=
  { s with later := { s.later with flags := s.later.flags ++ [(e, b)] } }

/-- A value as the words of a lo/hi pair. -/
def pairWords (low v : Nat) : List (Nat × Word) := [(low, BitVec.ofNat 32 v), (low + 4, BitVec.ofNat 32 (v / 2 ^ 32))]

/-- A first-event register that records an event of this core cycle: it lands in the next one (R413). -/
def State.latch (s : State) (l : Latch) : State := { s with later := { s.later with latches := s.later.latches ++ [l] } }

/-! ### Counters that wrap, time and what leaves the block -/

/-- A 64-bit counter advanced; it wraps. -/
def State.bump64 (s : State) (off : Nat) (n : Nat) : State := s.setReg64 off (s.reg64 off + n)

/-- A 32-bit counter advanced modulo 2^32. -/
def State.wrapAdd (s : State) (off : Nat) (n : Nat) : State := s.setReg off (s.reg off + BitVec.ofNat 32 n)

/-- The global time counter (R1, R393). -/
def State.gtc (s : State) : Nat := s.reg64 R.gtcLo

/-- This chip's node ID (R28). -/
def State.node (s : State) : Nat := s.fld R.nodeId 0 16

/-- Is a message or a transfer a request on the host link (R379)? -/
def Out.toHost : Out → Bool
  | .msix _ => true
  | .hostRead _ _ _ _ => true
  | .hostWrite _ _ _ _ _ => true
  | .flushRead _ _ _ => true
  | .translationRequest _ _ _ _ => true
  | .pageRequest _ _ _ _ _ _ => true
  | .invalidateCompletion => true
  | _ => false

/-- A message, a transfer or an answer leaves the block; a host request waits for DL_Up while the link is down (R379). -/
def State.emit (s : State) (o : Out) : State :=
  if o.toHost && s.linkDown then { s with hostHeld := s.hostHeld ++ [o] } else { s with out := o :: s.out }

/-- Has a host request that was handed to its port in a core cycle been outstanding for `age` core cycles? Its count starts as it is
granted, so not before the last DL_Up (R367, R379). -/
def State.hostOverdue (s : State) (at_ age : Nat) : Bool := decide (max at_ s.linkUpAt + age ≤ s.cycle)

/-- An MSI-X message (R71, R89, R327, R356). -/
def State.msix (s : State) (vector : Nat) : State := s.emit (.msix vector)

/-- The counter of free values stepped on (log 8). -/
def State.stepFree (s : State) : State := { s with freeCtr := s.freeCtr + 1 }

/-! ### The local map (R29 to R32) -/

/-- The ranges of the local map. -/
inductive Region where
  | tierA | tierB | aperture | scratch | registers | unmapped
deriving DecidableEq, Repr

/-- The range a local address lies in (R29); scratchpad banks 192 to 255 are unmapped (R32). -/
def regionOf (a : Nat) : Region :=
  if a < 0x80_0000_0000 then .tierA
  else if 0x0400_0000_0000 ≤ a ∧ a < 0x0800_0000_0000 then .tierB
  else if 0x0E00_0000_0000 ≤ a ∧ a < 0x0F00_0000_0000 then .aperture
  else if 0x0F00_0000_0000 ≤ a ∧ a < 0x0F00_1800_0000 then .scratch
  else if 0x0F10_0000_0000 ≤ a ∧ a < 0x0F10_0100_0000 then .registers
  else .unmapped

/-- Is a range one of memory: tier A, tier B or the scratchpad? -/
def Region.isMemory : Region → Bool
  | .tierA => true
  | .tierB => true
  | .scratch => true
  | _ => false

/-- Do all bytes of an interval lie in one range of memory? The ranges are intervals, so its two ends decide. -/
def inMemory (a len : Nat) : Bool :=
  (regionOf a).isMemory && decide (regionOf (a + (len - 1)) = regionOf a)

/-- Do all bytes of an interval lie in tier A, or all in tier B (R49, R332, R361)? -/
def inTier (a len : Nat) : Bool :=
  decide (regionOf a = .tierA ∨ regionOf a = .tierB) && decide (regionOf (a + (len - 1)) = regionOf a)

/-- The tier-A stack of an address (R30). -/
def stackOf (a : Nat) : Nat := natField a 9 3

/-- The stack-internal address (R30). -/
def stackInternal (a : Nat) : Nat := natField a 12 27 * 2 ^ 9 + natField a 0 9

/-- The logical module of a tier-B address (R31). -/
def moduleOf (a : Nat) : Nat := natField (a - 0x0400_0000_0000) 12 3

/-- The module-internal address (R31). -/
def moduleInternal (a : Nat) : Nat :=
  natField (a - 0x0400_0000_0000) 15 27 * 2 ^ 12 + natField (a - 0x0400_0000_0000) 0 12

/-- The local address of a module-internal address (R31). -/
def moduleAddress (lm internal : Nat) : Nat :=
  0x0400_0000_0000 + internal / 2 ^ 12 * 2 ^ 15 + lm * 2 ^ 12 + internal % 2 ^ 12

/-- The scratchpad bank of an address (R32). -/
def bankOf (a : Nat) : Nat := natField (a - 0x0F00_0000_0000) 21 8

/-- The latency from an array-side port to a bank, in array cycles (R33). -/
def bankLatency (p b : Nat) : Nat :=
  let row := b / 16
  let col := b % 16
  let pcol := p % 16
  let dcol := if pcol ≤ col then col - pcol else pcol - col
  let drow := if row ≤ 5 then 5 - row else row - 6
  let cross := if (decide (row ≤ 5)) = (decide (p < 16)) then 0 else 1
  14 + dcol + drow + 4 * cross

/-- The site a logical module is bound to (R31): 0xF for none. -/
def State.siteOf (s : State) (lm : Nat) : Nat := s.fld R.tbSiteMap (4 * lm) 4

/-- Is every byte of a memory interval bound to a module (R295)? An interval outside tier B is. The interval is taken
granule by granule. -/
def State.bound (s : State) (a len : Nat) : Bool :=
  decide (regionOf a ≠ .tierB) ||
    (List.range ((a + (len - 1)) / 4096 - a / 4096 + 1)).all
      (fun i => decide (s.siteOf (moduleOf ((a / 4096 + i) * 4096)) ≠ 0xF))

/-! ### Local memory -/

/-- What a byte of local memory that nothing has written since content `g` dates from reads as: zero from reset (DESIGN
CHOICE, log 1); a free value after a loss of power (R377, log 12). -/
def memDefault (g a : Nat) : Byte := if g = 0 then 0 else Config.freeByte (g - 1) a

/-- A byte of local memory, as a request serialized with the writes at the point of coherence finds it (R292). -/
def State.readByte (s : State) (a : Nat) : Byte := sget (memDefault s.memGen) s.mem a

/-- The bytes of an interval, serialized with the writes. -/
def State.readMem (s : State) (a len : Nat) : List Byte := (List.range len).map (fun i => s.readByte (a + i))

/-- A byte of local memory as a read finds it: a write accepted in this same core cycle is not seen (R283). -/
def State.seenByte (s : State) (a : Nat) : Byte := (sget (fun _ => none) s.now.before a).getD (s.readByte a)

/-- The bytes of an interval as a read finds them. -/
def State.seenMem (s : State) (a len : Nat) : List Byte := (List.range len).map (fun i => s.seenByte (a + i))

/-- One byte written. -/
def memPut (g : Nat) (m : SMap Byte) (a : Nat) (b : Byte) : SMap Byte := sset (memDefault g) m a b

/-- Bytes written from an address up. -/
def memPutAll (g : Nat) : SMap Byte → Nat → List Byte → SMap Byte
  | m, _, [] => m
  | m, a, b :: t => memPutAll g (memPut g m a b) (a + 1) t

/-- The bytes at some addresses before the first write of this core cycle (R283). -/
def State.noteBefore (s : State) (as : List Nat) : SMap (Option Byte) :=
  as.foldl (fun m a => if (sget (fun _ => none) m a).isSome then m else sset (fun _ => none) m a (some (s.readByte a))) s.now.before

/-- Bytes written to local memory. -/
def State.writeMem (s : State) (a : Nat) (bs : List Byte) : State :=
  { s with mem := memPutAll s.memGen s.mem a bs, now := { s.now with before := s.noteBefore (List.range' a bs.length) } }

/-- The byte a cell leaves: its masked bits replaced (R102). -/
def WCell.apply (c : WCell) (old : Byte) : Byte := (old &&& ~~~ c.mask) ||| (c.val &&& c.mask)

/-- Cells written to memory, at the local part of their addresses (R27). -/
def memPutCells (g : Nat) : SMap Byte → List WCell → SMap Byte
  | m, [] => m
  | m, c :: t => memPutCells g (memPut g m (c.addr % 2 ^ 48) (c.apply (sget (memDefault g) m (c.addr % 2 ^ 48)))) t

/-- Cells written to this chip's memory. -/
def State.writeCells (s : State) (cs : List WCell) : State :=
  { s with mem := memPutCells s.memGen s.mem cs,
           now := { s.now with before := s.noteBefore (cs.map (fun c => c.addr % 2 ^ 48)) } }

/-- A whole byte to write. -/
def cellsOf (a : Nat) (bs : List Byte) : List WCell :=
  (List.range bs.length).map (fun i => { addr := a + i, mask := 0xFF, val := bs.getD i 0 })

/-- The cells of some bits whose content the spec calls undefined: free values (log 12). -/
def freeCells (n : Nat) (cs : List (Nat × Byte)) : List WCell :=
  cs.map (fun c => { addr := c.1, mask := c.2, val := Config.freeByte n c.1 })

/-- The given bits of the bytes at the given local addresses become free values (R22, R206). -/
def State.freeBits (s : State) (cs : List (Nat × Byte)) : State := (s.writeCells (freeCells s.freeCtr cs)).stepFree

/-- The bytes at the given local addresses become free values. -/
def State.freeBytes (s : State) (as : List Nat) : State := s.freeBits (as.map (fun a => (a, 0xFF)))

/-- All of local memory loses its content: every byte becomes a free value (R377). -/
def State.loseMemory (s : State) : State := ({ s with mem := [], memGen := s.freeCtr + 1 } : State).stepFree

/-! ### The device region table (R41, R42) -/

/-- The access types of R41. -/
inductive Acc where
  | read | write | atomic
deriving DecidableEq, Repr

/-- An entry nothing has committed. -/
def drtDefault (_k : Nat) : DrtEntry :=
  { base := 0, limit := 0, valid := false, read := false, write := false, atomic := false, ctx := 0 }

/-- The controller group of an address (R42): 0 for A, 1 for B, 2 for the scratchpad. -/
def groupOf (a : Nat) : Nat :=
  match regionOf a with
  | .tierB => 1
  | .scratch => 2
  | _ => 0

/-- Does an entry grant an access type? -/
def DrtEntry.grants (e : DrtEntry) : Acc → Bool
  | .read => e.read
  | .write => e.write
  | .atomic => e.atomic

/-- Does an entry allow a page under a context (R41)? An entry whose LIMIT is below its BASE covers no page. -/
def DrtEntry.admits (e : DrtEntry) (ctx : Nat) (acc : Acc) (page : Nat) : Bool :=
  e.valid && decide (e.ctx = ctx) && e.grants acc && decide (e.base / 4096 ≤ page) && decide (page ≤ e.limit / 4096)

/-- Do the memory controllers accept a burst (R41)? Entries cover whole 4 KiB pages. -/
def State.drtAllows (s : State) (ctx : Nat) (acc : Acc) (a len : Nat) : Bool :=
  decide (ctx = 0) ||
    (List.range ((a + (len - 1)) / 4096 - a / 4096 + 1)).all
      (fun i => s.drt.any (fun p => decide (p.1 / 1024 = groupOf a) && p.2.admits ctx acc (a / 4096 + i)))

/-- A refusal at the memory is counted for its controller group, whatever the requester (R257). -/
def State.countRefused (s : State) (a : Nat) : State := s.bump (R.tuRefused (groupOf a)) 1

/-! ### The machine-check log (R356) -/

/-- The lowest log entry whose VALID is 0. -/
def State.freeMcEntry (s : State) : Option Nat := (List.range 16).find? (fun n => ! s.bit (R.mcInfo n) 31)

/-- A machine-check event: counted; its log entry and its message follow in the next core cycle (R356, R413). -/
def State.mcEvent (s : State) (source unit : Nat) (status : Status) (task : Option TaskRef) (addr : Nat) : State :=
  let e : McEvent := { source := source, unit := unit, status := status, task := task, addr := addr, time := s.gtc }
  { (s.bump R.mcCount 1) with later := { s.later with events := s.later.events ++ [e] } }

/-- An event is logged, or counted as lost; the MSI-X message follows if enabled (R356, R373). -/
def State.logEvent (s : State) (e : McEvent) : State :=
  let s2 := match s.freeMcEntry with
    | none => s.bump R.mcLost 1
    | some n =>
      let a := (s.noteSet (R.mcInfo n) 0x80000000).setReg (R.mcInfo n)
        (BitVec.ofNat 32 (2 ^ 31 + e.source * 2 ^ 24 + e.unit * 2 ^ 16 + e.status.toNat))
      let b := match e.task with
        | none => (a.setReg (R.mcTask n) 0).setReg (R.mcIndex n) 0
        | some t => (a.setReg (R.mcTask n) (BitVec.ofNat 32 (2 ^ 31 + t.sq))).setReg (R.mcIndex n) (BitVec.ofNat 32 t.index)
      (b.setReg64 (R.mcAddrLo n) e.addr).setReg64 (R.mcTimeLo n) e.time
  if s2.bit R.mcCtl 31 then s2.msix (s2.fld R.mcCtl 0 11) else s2

/-- An uncorrectable line of tier B is counted at its site, and the first one recorded in TB_UE (R301, R309, R310). -/
def State.tbUe (s : State) (a site : Nat) (scrub : Bool) : State :=
  let s1 := s.bump (R.tbUeCount site) 1
  s1.latch { off := R.tbUe, key := 0, val := boolBit scrub * 2 ^ 30 + site % 16, also := pairWords R.tbUeAddrLo (a / 64 * 64) }

/-- The event of an uncorrectable code word at a local address (R356): source and unit by the memory it lies in. -/
def State.mcUncorrectable (s : State) (a : Nat) (status : Status) (task : Option TaskRef) : State :=
  match regionOf a with
  | .tierB =>
    let b := s.siteOf (moduleOf a)
    (s.tbUe a b false).mcEvent 4 b status task (a / 64 * 64)
  | .scratch => s.mcEvent 6 (bankOf a) status task (a / 64 * 64)
  | _ => s.mcEvent 3 (stackOf a) status task (a / 64 * 64)

/-- What a request meets at this chip's memory: refused by the region table, an unbound module, an uncorrectable code
word, or served (R41, R295, R352). -/
def State.memVerdict (s : State) (ctx : Nat) (acc : Acc) (a len : Nat) (c : MemCond) : Option Status :=
  if ! s.drtAllows ctx acc a len then some St.context
  else if ! s.bound a len then some St.moduleAbsent
  else match c with
    | .good => none
    | .corrected => none
    | .uncorrectable => some St.uncorrectable

/-- A read whose data the memory's own code has corrected is counted: a stack's, the scratchpad's (R352, R374). -/
def State.noteCorrected (s : State) (a : Nat) (c : MemCond) : State :=
  if c ≠ .corrected then s
  else match regionOf a with
    | .tierA => s.bump R.tmTierACe 1
    | .scratch => s.bump R.tmScratchCe 1
    | _ => s

/-- Does a store of whole code words reach the memory whatever the words held: 64-byte lines in the tiers, 8-byte words
in the scratchpad (R355)? -/
def wholeWords (a len : Nat) : Bool :=
  if regionOf a = .scratch then decide (a % 8 = 0) && decide (len % 8 = 0)
  else decide (a % 64 = 0) && decide (len % 64 = 0)

/-- What a write meets: a write of whole code words reads none of them (R355). -/
def writeCond (a len : Nat) (c : MemCond) : MemCond := if wholeWords a len then .good else c

/-- The side effects of a request that its memory turned away: the refusal is counted (R257), the uncorrectable code
word raises its event (R356). -/
def State.memRefusal (s : State) (st : Status) (a : Nat) (task : Option TaskRef) : State :=
  if st = St.context then s.countRefused a
  else if st = St.uncorrectable then s.mcUncorrectable a st task
  else s

/-! ### Event flags (R79, R80) -/

/-- An event flag. -/
def State.flag (s : State) (e : Nat) : Bool := s.bit (R.eventSet (e / 32)) (e % 32)

/-- A flag set or cleared. -/
def State.putFlag (s : State) (e : Nat) (b : Bool) : State := s.setBit (R.eventSet (e / 32)) (e % 32) b

/-- A flag set: a clear in the same core cycle leaves it set (R79). -/
def State.setFlag (s : State) (e : Nat) : State := s.hwSet (R.eventSet (e / 32)) (e % 32)

/-- A flag cleared, unless it has been set in this core cycle (R79). -/
def State.clearFlag (s : State) (e : Nat) : State :=
  if getField (s.setNow (R.eventSet (e / 32))) (e % 32) 1 = 1 then s else s.putFlag e false

/-! ### Tasks by reference -/

/-- The task of a reference. -/
def State.task (s : State) (t : TaskRef) : Option Task := s.tasks.find? (fun x => decide (x.ref = t))

/-- A task replaced by its new self. -/
def State.putTask (s : State) (t : Task) : State :=
  { s with tasks := s.tasks.map (fun x => if x.ref = t.ref then t else x) }

/-- A task leaves the block. -/
def State.dropTask (s : State) (t : TaskRef) : State :=
  { s with tasks := s.tasks.filter (fun x => decide (x.ref ≠ t)) }

/-- A task changed by a function. -/
def State.modTask (s : State) (t : TaskRef) (f : Task → Task) : State :=
  { s with tasks := s.tasks.map (fun x => if x.ref = t then f x else x) }

/-! ### Small tables -/

/-- A queue nothing has used. -/
def sqDefault (_q : Nat) : SqRun :=
  { ranges := [], life := 0, firstRead := none, lastRead := 0, answeredAt := 0, outstanding := false, stale := [],
    header := none, pushed := none, prefetched := [], pubs := [], latched := none }

/-- A completion ring nothing has used. -/
def cqDefault (_c : Nat) : CqRun := { ranges := [], written := 0, firstAt := none, first := none, due := [] }

/-- A send port with nothing in it. -/
def portDefault (_p : Nat) : SendPort := { fifo := [], waited := 0 }

/-- A receive endpoint with nothing in it. -/
def rxDefault (_r : Nat) : RxRun := { wait := [], granted := [] }

/-- A peer no heartbeat has come from. -/
def peerDefault (_n : Nat) : PeerRun := { lastBeat := 0, incarnation := none }

/-- A tier-B site at rest. -/
def siteDefault (_b : Nat) : SiteRun := 
  { track := [], scrubLine := 0, scrubAt := none, refreshing := [], held := [], nextRate := 0, polledAt := none, serial := 0, spdDone := false }

/-- An arbiter with nothing waiting. -/
def arbDefault (_a : Nat) : ArbRun := { slots := [], parked := [], backoff := [], held := [], grants := [], issued := 0 }

def State.sq (s : State) (q : Nat) : SqRun := sget sqDefault s.sqs q
def State.putSq (s : State) (q : Nat) (r : SqRun) : State := { s with sqs := sset sqDefault s.sqs q r }
def State.cq (s : State) (c : Nat) : CqRun := sget cqDefault s.cqs c
def State.putCq (s : State) (c : Nat) (r : CqRun) : State := { s with cqs := sset cqDefault s.cqs c r }
def State.port (s : State) (p : Nat) : SendPort := sget portDefault s.ports p
def State.putPort (s : State) (p : Nat) (r : SendPort) : State := { s with ports := sset portDefault s.ports p r }
def State.endpoint (s : State) (r : Nat) : RxRun := sget rxDefault s.rx r
def State.putEndpoint (s : State) (r : Nat) (x : RxRun) : State := { s with rx := sset rxDefault s.rx r x }
def State.peer (s : State) (n : Nat) : PeerRun := sget peerDefault s.peers n
def State.putPeer (s : State) (n : Nat) (x : PeerRun) : State := { s with peers := sset peerDefault s.peers n x }
def State.site (s : State) (b : Nat) : SiteRun := sget siteDefault s.sites b
def State.putSite (s : State) (b : Nat) (x : SiteRun) : State := { s with sites := sset siteDefault s.sites b x }
def State.arb (s : State) (a : Nat) : ArbRun := sget arbDefault s.arbs a
def State.putArb (s : State) (a : Nat) (x : ArbRun) : State := { s with arbs := sset arbDefault s.arbs a x }

/-- The stream a delivery-stream number holds in the active copy (R209). -/
def State.stream (s : State) (n : Nat) : Option DsRun := sget (fun _ => none) s.ds n
def State.putStream (s : State) (n : Nat) (d : DsRun) : State := { s with ds := sset (fun _ => none) s.ds n (some d) }

/-- The task an aperture is bound to (R38). -/
def State.apertureOwner (s : State) (n : Nat) : Option TaskRef := sget (fun _ => none) s.apertures n
def State.putAperture (s : State) (n : Nat) (t : Option TaskRef) : State :=
  { s with apertures := sset (fun _ => none) s.apertures n t }

/-! ### Fabric ports (R260, R405, R406) -/

/-- The ports in service. -/
def State.servingPorts (s : State) : List Nat := (List.range 32).filter (fun p => s.bit (R.feLaneStatus p) 1)

/-- The ports that packets are hashed over: those in service, and those that have left it and still drain (R260). -/
def State.hashPorts (s : State) : List Nat :=
  (List.range 32).filter (fun p => s.bit (R.feLaneStatus p) 1 || s.draining.contains p)

/-- The port of a list that the hash picks. -/
def pickPort (ports : List Nat) (a b : Nat) : Option Nat := ports[Config.portHash ports a b % ports.length]?

/-- The (destination node, tag) a packet belongs to (R260); none for memory requests, which spread by granule, and for
heartbeats. -/
def Out.triple : Out → Option (Nat × Nat)
  | .creditRequest n t _ _ => some (n, t)
  | .creditGrant n t _ _ => some (n, t)
  | .creditQueued n t _ => some (n, t)
  | .creditRetry n t _ => some (n, t)
  | .message n t _ _ _ _ => some (n, t)
  | .creditRefused n t _ _ => some (n, t)
  | .creditWithdrawn n t _ => some (n, t)
  | .messageAnswer n t _ _ _ => some (n, t)
  | .collectiveCredit n t _ _ _ _ => some (n, t)
  | .collectivePiece n t _ _ => some (n, t)
  | .failureNotice n t _ _ => some (n, t)
  | _ => none

/-- What else the hash takes: the 4 KiB granule of a memory request, the peer of a heartbeat (log 23). -/
def Out.spread : Out → Nat × Nat
  | .remoteRead a _ _ => (a / 4096, 65536)
  | .remoteWrite cs _ => ((match cs with | c :: _ => c.addr | [] => 0) / 4096, 65536)
  | .remoteAtomic a _ _ => (a / 4096, 65536)
  | .heartbeat n _ _ => (n, 65537)
  | _ => (0, 0)

/-- A packet with the port it is sent on. -/
def Out.withPort (p : Nat) : Out → Out
  | .remoteRead a n _ => .remoteRead a n p
  | .remoteWrite cs _ => .remoteWrite cs p
  | .remoteAtomic a q _ => .remoteAtomic a q p
  | .creditRequest n t k _ => .creditRequest n t k p
  | .creditGrant n t l _ => .creditGrant n t l p
  | .creditQueued n t _ => .creditQueued n t p
  | .creditRetry n t _ => .creditRetry n t p
  | .message n t k q bs _ => .message n t k q bs p
  | .creditRefused n t st _ => .creditRefused n t st p
  | .creditWithdrawn n t _ => .creditWithdrawn n t p
  | .messageAnswer n t q st _ => .messageAnswer n t q st p
  | .heartbeat n i _ => .heartbeat n i p
  | .collectiveCredit n t st i a _ => .collectiveCredit n t st i a p
  | .collectivePiece n t x _ => .collectivePiece n t x p
  | .failureNotice n t st _ => .failureNotice n t st p
  | o => o

/-- Is a packet of a triple, sent on another port than `p`, still to be answered (R406)? -/
def State.unansweredElsewhere (s : State) (node tag p : Nat) : Bool :=
  let other (q : Option Nat) : Bool := match q with | some x => decide (x ≠ p) | none => false
  s.credits.any (fun c => decide (c.node = node) && decide (c.tag = tag) && decide (c.state = .requested) && other c.port) ||
    s.ports.any (fun x => x.2.fifo.any (fun m => decide (m.node = node) && decide (m.tag = tag) && m.sent && other m.port)) ||
    s.tasks.any (fun t => t.coll.awaiting.any (fun w => decide (w.node = node) && decide (w.tag = tag) && other w.port))

/-- The port a packet may be sent on now: none while its port drains (R260), while packets of its triple sent on another
port are to be answered (R406), or behind packets of its triple that wait. -/
def State.portOf (s : State) (o : Out) : Option Nat :=
  match o.triple with
  | none => pickPort s.servingPorts o.spread.1 o.spread.2
  | some (n, t) =>
    match pickPort s.hashPorts n t with
    | none => none
    | some p =>
      if s.bit (R.feLaneStatus p) 1 && ! s.unansweredElsewhere n t p && ! s.fabricHeld.any (fun x => decide (x.triple = some (n, t)))
      then some p else none

/-- The port a credit request, a message or a piece was sent on is noted with it (R406). -/
def State.notePort (s : State) (o : Out) (p : Nat) : State :=
  match o with
  | .creditRequest n t _ _ =>
    { s with credits := s.credits.map (fun c => if c.node = n ∧ c.tag = t then { c with port := some p } else c) }
  | .message n t _ q _ _ =>
    { s with ports := s.ports.map (fun x => (x.1, { x.2 with fifo := x.2.fifo.map (fun m =>
        if m.node = n ∧ m.tag = t ∧ m.seq = q then { m with port := some p } else m) })) }
  | .collectivePiece n t x _ =>
    { s with tasks := s.tasks.map (fun u => { u with coll := { u.coll with awaiting := u.coll.awaiting.map (fun w =>
        if w.node = n ∧ w.tag = t ∧ w.stage = x.stage ∧ w.index = x.index then { w with port := some p } else w) } }) }
  | _ => s

/-- A packet is placed on its port, or waits for it (R260, R406). -/
def State.placeOut (s : State) (o : Out) : State :=
  match s.portOf o with
  | some p => (s.notePort o p).emit (o.withPort p)
  | none => { s with fabricHeld := s.fabricHeld ++ [o] }

/-- The packets that wait are placed, in order, as far as they can be. -/
def State.releaseHeld (s : State) : State := s.fabricHeld.foldl State.placeOut { s with fabricHeld := [] }

/-- A packet leaves by the fabric while the endpoint is enabled (R276, R278). -/
def State.emitFabric (s : State) (o : Out) : State := if s.bit R.feCtl 31 then s.placeOut o else s

/-- A packet to a node: on chip where it is this one (R267). -/
def State.emitTo (s : State) (node : Nat) (o : Out) : State := if node = s.node then s.emit o else s.emitFabric o

/-- The answer to a packet of a node leaves while the endpoint runs (R278). -/
def State.answerTo (s : State) (node : Nat) (o : Out) : State :=
  if node = s.node then s.emit o else if s.bit R.feStatus 0 then s.placeOut o else s

/-! ### Accesses below Active (R385, R389) -/

/-- What a meaning answers. -/
abbrev Result := Host.Outcome State Fault Refusal

/-- Is the block below Active: in a lower state, entering one, or waking from one? -/
def State.below (s : State) : Bool := decide (s.power ≠ .active) || s.entering.isSome || s.waking.isSome

/-- The number of a power state (R343). -/
def powerNumber : PState → Nat
  | .active => 0
  | .idleGated => 1
  | .bankHold => 2
  | .retention => 3
  | .off => 4

/-- SRC and DETAIL of a wake source (R392). -/
def wakeCode : WakeSource → Nat × Nat
  | .doorbell q => (1, q.val)
  | .hostLink bar => (2, bar % 2 ^ 16)
  | .timer t => (3, t.val)
  | .fabric node => (4, node % 2 ^ 16)
  | .management => (5, 0)

/-- Does a source wake the block from a state: the host link's training only, from Off (R385)? -/
def wakes (from_ : PState) (w : WakeSource) : Bool :=
  match from_, w with
  | .active, _ => false
  | .off, .hostLink _ => true
  | .off, _ => false
  | _, _ => true

/-- A wake starts and is recorded (R392). -/
def State.startWake (s : State) (w : LatchedWake) : State :=
  let (src, detail) := wakeCode w.source
  let s1 := (s.setReg R.pwWake (BitVec.ofNat 32 (2 ^ 31 + src * 2 ^ 28 + powerNumber s.power * 2 ^ 25))).setReg R.pwWakeDetail
    (BitVec.ofNat 32 detail)
  let s2 := (s1.setReg64 R.pwWakeTimeLo w.time).noteSet R.pwWake 0x80000000
  let s3 := if s.power = .off then s2.hwSet R.rstCause 26 else s2
  { s3 with waking := some s.power, powerAt := s.cycle, wakeSeen := w.at_, latchedWake := none }

/-- Of two wake events, does the second one replace the first: presented in the same core cycle, with a lower SRC (R392)? -/
def replacesWake (at_ src now : Nat) (w : WakeSource) : Bool := decide (at_ = now) && decide ((wakeCode w).1 < src)

/-- A wake source below Active: latched while the block enters a state; the start of a wake; neither recorded nor acted on
while a wake is in progress, but that a lower source of the same core cycle is the one recorded (R386, R387, R392). -/
def State.wakeBy (s : State) (w : WakeSource) : State :=
  let l : LatchedWake := { source := w, at_ := s.cycle, time := s.gtc }
  match s.entering with
  | some p =>
    if ! wakes p w then s
    else match s.latchedWake with
      | none => { s with latchedWake := some l }
      | some x => if replacesWake x.at_ (wakeCode x.source).1 s.cycle w then { s with latchedWake := some l } else s
  | none =>
    if ! wakes s.power w then s
    else if s.waking.isNone || replacesWake s.wakeSeen (s.fld R.pwWake 28 3) s.cycle w then s.startWake l
    else s

/-- An access held in the 16-entry wake buffer; while it is full no further one arrives, since no credit is given. -/
def State.hold (s : State) (a : HeldAccess) : State :=
  if s.wakeBuf.length < 16 then { s with wakeBuf := s.wakeBuf ++ [a] } else s

/-- Does an access wait behind one that waits for tier B: a core's register write behind its own earlier stores (R286), a
BAR0 write and a BAR2 read behind the posted BAR2 writes without Relaxed Ordering (R287), a register read behind the
requester's own register writes? A write of PAD_RELEASE, which ends the wait, does not (R391; DEDUCED, log 20). -/
def State.waitsBehindHeld (s : State) (a : HeldAccess) : Bool :=
  s.padWait.any (fun w => match a, w with
    | .reg (.core n) _ _, .coreStore m _ _ _ => decide (n = m)
    | .reg .host off _, .bar2Write _ _ _ relaxed _ => ! relaxed && decide (off ≠ R.padRelease)
    | .bar2Read _ _ _ _, .bar2Write _ _ _ relaxed _ => ! relaxed
    | .regRead src _ _, .reg src' _ _ => decide (src = src')
    | _, _ => false)

/-- An access applied when the block is Active and nothing it is ordered behind waits; held otherwise (R286, R287,
R389). -/
def State.gate (s : State) (a : HeldAccess) (f : State → State) : State :=
  if s.below then s.hold a else if s.waitsBehindHeld a then { s with padWait := s.padWait ++ [a] } else f s

/-- A 4-byte write of a register that has a row of its own. -/
def State.regWrite (s : State) (src : Requester) (off : Nat) (value : Word) (f : State → State) : Result :=
  .next (s.gate (.reg src off (leBytes 4 value.toNat)) f)

end Sys2Proof.Machine
end

