-- ==== Sys2Proof/Machine/Operands.lean ====
section
/-!
DEFINITION. The operand forms of a task entry: the Limdex header (R53, R54), tensor views (R92 to R115), extension
blocks (R121, R122), the control blocks of the opcodes (R120, R164, R171, R225, R231, R359), block descriptors (R226),
and the addresses a view gives its elements.
-/
namespace Sys2Proof.Machine

/-- The first failing check of a list in order: each a condition that must hold and the status it gives otherwise. -/
def firstFail : List (Bool × Status) → Option Status
  | [] => none
  | (ok, st) :: t => if ok then firstFail t else some st

/-- Are bytes `i` to `i + n − 1` of a structure zero? -/
def zeroAt (bs : List Byte) (i n : Nat) : Bool := ((bs.drop i).take n).all (fun b => decide (b = 0))

/-- Are bits `lo` to `lo + n − 1` of byte `i` zero? -/
def zeroBits (bs : List Byte) (i lo n : Nat) : Bool := decide (natField (byteAt bs i) lo n = 0)

/-! ### The header (R53) -/

/-- The event word of two bytes (R54). -/
structure EventWord where
  en : Bool
  clr : Bool
  rsv : Nat
  event : Nat
deriving DecidableEq, Repr

def eventWord (v : Nat) : EventWord :=
  { en := natBit v 15, clr := natBit v 14, rsv := natField v 9 5, event := natField v 0 9 }

/-- Is a wait word legal: CLR reserved, reserved bits zero, an unused word wholly zero (R54)? -/
def waitWordOk (v : Nat) : Bool :=
  if natBit v 15 then decide (natField v 9 6 = 0) else decide (natField v 0 15 = 0)

/-- Is a set word legal (R54)? -/
def setWordOk (v : Nat) : Bool :=
  if natBit v 15 then decide (natField v 9 5 = 0) else decide (natField v 0 15 = 0)

def entryOpcode (e : List Byte) : Nat := byteAt e 0
def entryMark (e : List Byte) : Bool := natBit (byteAt e 1) 7
def entryUnits (e : List Byte) : Nat := natField (byteAt e 1) 0 4 + 1
def entryApt (e : List Byte) : Bool := natBit (byteAt e 2) 7
def entryNoSnoop (e : List Byte) : Bool := natBit (byteAt e 2) 6
def entryIrqNow (e : List Byte) : Bool := natBit (byteAt e 2) 5
def entryAperture (e : List Byte) : Nat := natField (byteAt e 2) 0 4
def entrySession (e : List Byte) : Bool := natBit (byteAt e 3) 7
def entryOrder (e : List Byte) : Nat := natField (byteAt e 3) 0 2
def entryTag (e : List Byte) : Nat := uintAt e 4 4
def entryRing (e : List Byte) : Nat := byteAt e 8
def entryWait (e : List Byte) : EventWord := eventWord (uintAt e 10 2)
def entrySet (e : List Byte) : EventWord := eventWord (uintAt e 12 2)

/-- The reserved fields and values of the header (R53, R54, R55), check 4 of R57. -/
def headerReservedOk (e : List Byte) : Bool :=
  zeroBits e 1 4 3 && zeroBits e 2 4 1 && (entryApt e || zeroBits e 2 0 4) && zeroBits e 3 2 5 &&
    decide (entryOrder e ≠ 3) && zeroAt e 9 1 && waitWordOk (uintAt e 10 2) && setWordOk (uintAt e 12 2) && zeroAt e 14 2

/-- The lengths an opcode allows, in units (R56). -/
def opcodeLengths : Nat → Option (Nat × Nat)
  | 0x01 => some (5, 16)
  | 0x02 => some (7, 16)
  | 0x03 => some (7, 16)
  | 0x04 => some (5, 16)
  | 0x05 => some (5, 16)
  | 0x06 => some (3, 16)
  | 0x07 => some (3, 16)
  | 0x08 => some (2, 16)
  | 0x09 => some (1, 1)
  | 0x0A => some (1, 1)
  | 0x0B => some (1, 16)
  | _ => none

/-- A task that runs in the queue interface: WAIT, FENCE and STEP_CLOSE (R74). -/
def isQueueTask (op : Nat) : Bool := decide (op = 0x09 ∨ op = 0x0A ∨ op = 0x0B)

/-! ### Tensor views (R93) -/

/-- A dimension record. -/
structure Dim where
  stride : Int
  kind : Nat
  axis : Nat
  blk : Nat
  rsv : Nat
  extent : Nat
deriving DecidableEq, Repr

/-- A view. -/
structure View where
  base : Nat
  ownOnly : Bool
  host : Bool
  axes : Nat
  rank : Nat
  fmt : Nat
  nodeBase : Nat
  axisSize : List Nat
  nodeStride : List Nat
  dims : List Dim
deriving DecidableEq, Repr

/-- The dimension record at an offset. -/
def dimAt (bs : List Byte) (o : Nat) : Dim :=
  let sh := uintAt bs (o + 6) 2
  { stride := signedOf 48 (uintAt bs o 6), kind := natField sh 14 2, axis := natField sh 12 2, blk := natField sh 0 5,
    rsv := natField sh 5 7, extent := uintAt bs (o + 8) 4 }

/-- The view at an offset of an entry. -/
def viewAt (bs : List Byte) (o : Nat) : View :=
  let w := uintAt bs (o + 8) 4
  let rank := natField w 8 3 + 1
  { base := uintAt bs o 8, ownOnly := natBit w 17, host := natBit w 16, axes := natField w 12 3, rank := rank,
    fmt := natField w 0 8, nodeBase := uintAt bs (o + 12) 2,
    axisSize := (List.range 4).map (fun a => uintAt bs (o + 16 + 4 * a) 2),
    nodeStride := (List.range 4).map (fun a => uintAt bs (o + 18 + 4 * a) 2),
    dims := (List.range rank).map (fun d => dimAt bs (o + 32 + 12 * d)) }

def View.dim (v : View) (d : Nat) : Dim := v.dims.getD d ⟨0, 0, 0, 0, 0, 0⟩
def View.size (v : View) (a : Nat) : Nat := v.axisSize.getD a 0
def View.shape (v : View) : List Nat := v.dims.map Dim.extent
def View.width (v : View) : Nat := widthOf v.fmt

/-- The product of extents (R98). -/
def prodOf (l : List Nat) : Nat := l.foldl (· * ·) 1

def View.count (v : View) : Nat := prodOf v.shape

/-- The reserved fields of a view (R93, R94). -/
def viewReservedOk (bs : List Byte) (o : Nat) : Bool :=
  let v := viewAt bs o
  let w := uintAt bs (o + 8) 4
  decide (natField w 18 14 = 0) && decide (natField w 15 1 = 0) && decide (natField w 11 1 = 0) && zeroAt bs (o + 14) 2 &&
    (decide (v.axes ≠ 0) || decide (v.nodeBase = 0)) &&
    (List.range 4).all (fun a => decide (a < v.axes) || zeroAt bs (o + 16 + 4 * a) 4) &&
    (List.range 8).all (fun d => decide (d < v.rank) || zeroAt bs (o + 32 + 12 * d) 12) &&
    v.dims.all (fun d => decide (d.rsv = 0) && (decide (d.kind ≠ 0) || decide (d.axis = 0 ∧ d.blk = 0)) &&
      (decide (d.kind = 3) || decide (d.blk = 0)))

/-- A direct count with all bits set (R8, R107). -/
def View.countsOk (v : View) : Bool :=
  v.dims.all (fun d => decide (d.extent ≠ 0xFFFFFFFF)) &&
    (List.range 4).all (fun a => decide (v.axes ≤ a) || decide (v.size a ≠ 0xFFFF))

/-- The format and its constraints (R95, R96, R97). -/
def View.formatOk (v : View) : Bool :=
  (fmtWidth v.fmt).isSome &&
    (! (isPacked v.fmt || isMx v.fmt) || decide ((v.dim 0).stride = 0)) &&
    (! isMx v.fmt || (decide ((v.dim 0).extent % 32 = 0) && decide ((v.dim 0).kind = 0)))

/-- Mesh axes: none zero, product at most 65,536 (R113, R172). -/
def meshOk (axes : Nat) (sizes : List Nat) : Bool :=
  decide (axes ≤ 4) && (sizes.take axes).all (fun n => decide (n ≠ 0)) && decide (prodOf (sizes.take axes) ≤ 65536)

/-- The axes that dimensions name. -/
def View.namedAxes (v : View) : List Nat := (v.dims.filter (fun d => decide (d.kind ≠ 0))).map Dim.axis

/-- Mesh and sharding fields (R113). -/
def View.shardingOk (v : View) : Bool :=
  meshOk v.axes v.axisSize && v.dims.all (fun d => decide (d.kind = 0) || decide (d.axis < v.axes)) &&
    decide v.namedAxes.Nodup && (decide (v.axes = 0) || (decide (v.base < 2 ^ 48) && ! v.host)) && ! (v.host && v.ownOnly)

/-- The block of a sharded dimension over `p` nodes (R112). -/
def Dim.block (d : Dim) (p : Nat) : Nat :=
  match d.kind with
  | 1 => ceilDiv d.extent p
  | 2 => 1
  | 3 => 2 ^ d.blk
  | _ => d.extent

/-- The largest local extent of a dimension: that of coordinate 0 (R108, R112). -/
def Dim.localExtent (d : Dim) (p : Nat) : Nat :=
  match d.kind with
  | 0 => d.extent
  | 1 => min d.extent (ceilDiv d.extent p)
  | 2 => ceilDiv d.extent p
  | _ => let b := 2 ^ d.blk; d.extent / (b * p) * b + min (d.extent % (b * p)) b

/-- The nodes of the axis that shards a dimension. -/
def View.axisOf (v : View) (d : Dim) : Nat := if d.kind = 0 then 1 else v.size d.axis

/-- The bytes of the last unit of a span (R108). DESIGN CHOICE (log 20): a packed view's last unit has its global EXTENT 0, also
where dimension 0 is sharded, as R108's words for the unit have it; R108 also ends the span at the highest byte an element
addresses, which a share of the row lies below. -/
def View.unitBytes (v : View) : Nat :=
  if isMx v.fmt then mxRowBytes (v.dim 0).extent v.width
  else if isPacked v.fmt then ceilDiv ((v.dim 0).extent * v.width) 8
  else ceilDiv v.width 8

/-- The byte size of a view, in bits (R108). -/
def View.bitSize (v : View) : Nat := v.count * v.width + if isMx v.fmt then v.count / 32 * 8 else 0

/-- The base a span starts from: the local part of a device address, or the host address (R108). -/
def View.spanBase (v : View) : Nat := if v.host then v.base else v.base % 2 ^ 48

/-- The lowest and the highest byte a view addresses; `none` for a view with no elements (R108). -/
def View.span (v : View) : Option (Int × Int) :=
  if v.count = 0 then none
  else
    let t := v.dims.map (fun d => ((d.localExtent (v.axisOf d) : Int) - 1) * d.stride)
    some ((v.spanBase : Int) + (t.filter (fun x => decide (x < 0))).sum,
      (v.spanBase : Int) + (t.filter (fun x => decide (0 < x))).sum + v.unitBytes - 1)

/-- Byte size and span (R9, R108). -/
def View.spanOk (v : View) : Bool :=
  decide (v.bitSize ≤ 8 * 2 ^ 48) &&
    match v.span with
    | none => true
    | some (lo, hi) => decide (0 ≤ lo) && decide (hi < if v.host then 2 ^ 64 else 2 ^ 48)

/-- The indices of a dimension that one segment of a run holds (R100). -/
def View.segment (v : View) (d : Dim) : Nat := d.block (v.axisOf d)

/-- How far a run reaches (R100): its elements (or rows), the last dimension inside it, and the unit × n_before × tail
of a dimension that ended it because its segment is partial. -/
structure RunForm where
  unit : Nat
  n : Nat
  last : Int
  partialTail : Nat
  done : Bool
deriving DecidableEq, Repr

/-- The scan of R100 over the dimensions from `d` on. -/
def View.runScan (v : View) : Nat → List Dim → RunForm → RunForm
  | _, [], r => r
  | d, x :: t, r =>
    if r.done then r
    else if x.extent = 1 then v.runScan (d + 1) t { r with last := d }
    else if (decide (d = 0) && decide (v.width < 8)) || decide (8 * x.stride = (r.unit * r.n : Nat)) then
      let seg := v.segment x
      let r' := { r with n := r.n * min seg x.extent, last := d }
      if seg < x.extent then { r' with partialTail := r.unit * r.n * (x.extent % seg), done := true }
      else v.runScan (d + 1) t r'
    else { r with done := true }

/-- The run of a view. -/
def View.run (v : View) : RunForm :=
  if isMx v.fmt then
    v.runScan 1 (v.dims.drop 1) { unit := 8 * mxRowBytes (v.dim 0).extent v.width, n := 1, last := 0, partialTail := 0, done := false }
  else v.runScan 0 v.dims { unit := v.width, n := 1, last := -1, partialTail := 0, done := false }

/-- Alignment (R101). -/
def View.aligned (v : View) : Bool :=
  let r := v.run
  decide (v.base % 64 = 0) && decide (r.unit * r.n % 64 = 0) && decide (r.partialTail % 64 = 0) &&
    (List.range v.rank).all (fun d => decide ((d : Int) ≤ r.last) || decide ((v.dim d).extent ≤ 1) ||
      decide ((v.dim d).stride % 8 = 0))

/-- The per-view checks, in the order of R110; `upTo` = 6 for all of them. -/
def viewCheck (bs : List Byte) (o : Nat) : Option Status :=
  let v := viewAt bs o
  firstFail [(viewReservedOk bs o, St.reserved), (v.countsOk, St.length), (v.formatOk, St.format),
    (v.shardingOk, St.sharding), (v.spanOk, St.overflow), (v.aligned, St.align)]

/-- Is a view dense and ascending: do its runs in k order follow one another without gap or overlap (R195)? With no
sharding, a run that takes in every dimension says so. -/
def View.dense (v : View) : Bool := decide (v.axes = 0) && decide (v.run.last = (v.rank : Int) - 1) && ! v.run.done

/-! ### Element addresses (R98, R111, R112) -/

/-- The index vector of element `k` (R98). -/
def unravel : List Nat → Nat → List Nat
  | [], _ => []
  | e :: t, k => k % e :: unravel t (k / e)

/-- The element number of an index vector (R98). -/
def ravel : List Nat → List Nat → Nat
  | [], _ => 0
  | _ :: _, [] => 0
  | e :: t, i :: it => i + e * ravel t it

/-- The owner coordinate and the local index of index `i` (R112). -/
def Dim.owner (d : Dim) (p i : Nat) : Nat × Nat :=
  match d.kind with
  | 1 => let b := ceilDiv d.extent p; (i / b, i % b)
  | 2 => (i % p, i / p)
  | 3 => let b := 2 ^ d.blk; (i / b % p, i / (b * p) * b + i % b)
  | _ => (0, i)

/-- The dimensions with the indices of an element. -/
def View.zip (v : View) (k : Nat) : List (Dim × Nat) := v.dims.zip (unravel v.shape k)

/-- The coordinate of an element's owner along an axis; `none` where no dimension names the axis (R112, R114). -/
def View.coord (v : View) (k a : Nat) : Option Nat :=
  ((v.zip k).find? (fun p => decide (p.1.kind ≠ 0) && decide (p.1.axis = a))).map
    (fun p => (p.1.owner (v.size a) p.2).1)

/-- The node of a mesh coordinate (R111). -/
def meshNode (nodeBase : Nat) (strides coords : List Nat) : Nat :=
  (nodeBase + ((strides.zip coords).map (fun p => p.1 * p.2)).sum) % 65536

/-- The coordinates of an element's replicas: every value on an axis no dimension names (R114). -/
def View.coordsFrom (v : View) (k : Nat) : Nat → Nat → List (List Nat)
  | 0, _ => [[]]
  | n + 1, a =>
    let rest := v.coordsFrom k n (a + 1)
    let cs := match v.coord k a with | some c => [c] | none => List.range (v.size a)
    cs.flatMap (fun c => rest.map (fun t => c :: t))

/-- The nodes that hold an element, the replica read first (R114, R115). -/
def View.nodes (v : View) (k : Nat) : List Nat :=
  if v.axes = 0 then [v.base / 2 ^ 48]
  else (v.coordsFrom k v.axes 0).map (meshNode v.nodeBase v.nodeStride)

/-- The node an element is read from: the replica at coordinate 0 of every unnamed axis (R114). -/
def View.readNode (v : View) (k : Nat) : Nat :=
  if v.axes = 0 then v.base / 2 ^ 48
  else meshNode v.nodeBase v.nodeStride ((List.range v.axes).map (fun a => (v.coord k a).getD 0))

/-- The offset of an element's storage unit from BASE: the sum of local index × stride (R112). -/
def View.offset (v : View) (k : Nat) : Int :=
  ((v.zip k).map (fun p => (((p.1.owner (v.axisOf p.1) p.2).2 : Nat) : Int) * p.1.stride)).sum

/-- The index of an element along dimension 0, in its node's storage. -/
def View.inner (v : View) (k : Nat) : Nat :=
  match v.zip k with
  | [] => 0
  | p :: _ => (p.1.owner (v.axisOf p.1) p.2).2

/-- The address of the storage unit of an element on a node: a global address, or a host address (R27, R112). -/
def View.unitAddr (v : View) (node k : Nat) : Nat :=
  if v.host then ((v.base : Int) + v.offset k).toNat
  else node * 2 ^ 48 + (((v.base % 2 ^ 48 : Nat) : Int) + v.offset k).toNat

/-- Where an element's bits lie on a node: their first byte, the bit they start at, and their width (R96, R97). -/
def View.bitsAt (v : View) (node k : Nat) : Nat × Nat × Nat :=
  let u := v.unitAddr node k
  let w := v.width
  if isMx v.fmt then
    let b := v.inner k * w
    (u + ceilDiv (v.dim 0).extent 256 * 8 + b / 8, b % 8, w)
  else if isPacked v.fmt then
    let b := v.inner k * w
    (u + b / 8, b % 8, w)
  else (u, 0, w)

/-- The scale byte of an MX element (R97). -/
def View.scaleAt (v : View) (node k : Nat) : Nat := v.unitAddr node k + v.inner k / 32

/-- Is an element kept by a source view under OWN_ONLY (R115)? -/
def View.keepsSource (v : View) (self k : Nat) : Bool := ! v.ownOnly || decide (v.readNode k = self)

/-- Is an element kept by a destination view under OWN_ONLY (R115)? -/
def View.keepsDest (v : View) (self k : Nat) : Bool := ! v.ownOnly || (v.nodes k).any (fun n => decide (n = self))

/-- The nodes a kept element is written to: every replica, or this chip's only (R114, R115). -/
def View.writeNodes (v : View) (self k : Nat) : List Nat :=
  if v.ownOnly then (v.nodes k).filter (fun n => decide (n = self)) else v.nodes k

/-! ### Extension blocks (R121, R122) -/

/-- An extension block: its type and its bytes. -/
structure Block where
  type : Nat
  bytes : List Byte
deriving DecidableEq, Repr

/-- The size of a block type in 16-byte units (R122). -/
def blockUnits : Nat → Option Nat
  | 0x01 => some 2
  | 0x10 => some 1
  | 0x20 => some 7
  | 0x21 => some 1
  | 0x22 => some 5
  | 0x23 => some 5
  | 0x24 => some 1
  | 0x30 => some 1
  | 0x40 => some 2
  | _ => none

/-- The block types an opcode accepts (R122, R164, R165, R171, R359); `op1` is OP of a SCATTER, `acc` ACC of a
REDUCE. -/
def accepts (opcode : Nat) (op1 acc : Bool) (t : Nat) : Bool :=
  match opcode with
  | 0x01 => true
  | 0x02 => true
  | 0x03 => decide (t = 0x01 ∨ t = 0x10 ∨ t = 0x30) || (! op1 && decide (0x20 ≤ t ∧ t ≤ 0x24))
  | 0x04 => decide (t = 0x01 ∨ t = 0x10 ∨ t = 0x30) || ! acc
  | 0x05 => decide (t = 0x01 ∨ t = 0x10 ∨ t = 0x30 ∨ t = 0x40)
  | 0x06 => decide (t = 0x30 ∨ t = 0x40)
  | 0x07 => decide (t = 0x01 ∨ t = 0x10 ∨ t = 0x30)
  | _ => false

/-- The reserved bytes of a block that depend on neither rank nor format (R121). -/
def blockReservedOk (b : Block) : Bool :=
  let bs := b.bytes
  match b.type with
  | 0x10 => zeroBits bs 3 3 5 && zeroAt bs 4 4 && (decide (2 ≤ natField (byteAt bs 3) 0 2) || zeroAt bs 8 8)
  | 0x30 => zeroBits bs 3 3 5 && zeroAt bs 4 4 && (decide (2 ≤ natField (byteAt bs 3) 0 2) || zeroAt bs 8 8)
  | 0x20 => zeroAt bs 3 13 && (List.range 8).all (fun d => natBit (byteAt bs 2) d || zeroAt bs (16 + 12 * d) 12)
  | 0x21 => zeroAt bs 2 2 && zeroAt bs 8 8 && (List.range 8).all (fun d => decide (natField (uintAt bs 4 4) (4 * d + 3) 1 = 0))
  | 0x22 => zeroAt bs 2 6
  | 0x23 => zeroBits bs 2 3 5 && zeroAt bs 3 13 &&
      (List.range 8).all (fun d => zeroBits bs (20 + 8 * d) 3 4 && zeroAt bs (21 + 8 * d) 3)
  | 0x24 => zeroBits bs 3 4 4 && zeroBits bs 4 4 4 && zeroAt bs 5 11 &&
      (decide (byteAt bs 2 ≠ 1) || (decide (byteAt bs 3 = 0) && decide (byteAt bs 4 = 0)))
  | _ => true

/-- The blocks from an offset on (R121), with the offset after the END block where there is one. `last` is the type of
the block before. -/
def blocksFrom (ok : Nat → Bool) (e : List Byte) : Nat → Nat → Nat → Option (List Block × Nat)
  | 0, _, _ => some ([], e.length)
  | fuel + 1, o, last =>
    if e.length ≤ o then some ([], e.length)
    else
      let t := byteAt e o
      if t = 0 then some ([], o + 1)
      else
        match blockUnits t with
        | none => none
        | some u =>
          if t ≤ last ∨ byteAt e (o + 1) ≠ u - 1 ∨ e.length < o + 16 * u ∨ ok t = false then none
          else (blocksFrom ok e fuel (o + 16 * u) t).map (fun r => (⟨t, (e.drop o).take (16 * u)⟩ :: r.1, r.2))

/-- A block of a list, by type. -/
def findBlock (bl : List Block) (t : Nat) : Option (List Byte) := (bl.find? (fun b => decide (b.type = t))).map Block.bytes

/-! ### Where the bodies lie (R119, R164, R171, R359) -/

/-- SCATTER's OP, REDUCE's ACC. -/
def entryOp1 (e : List Byte) : Bool := decide (entryOpcode e = 0x03) && natBit (byteAt e 402) 0
def entryAcc (e : List Byte) : Bool := decide (entryOpcode e = 0x04) && natBit (byteAt e 275) 0

/-- The offset extension blocks start at. -/
def blocksOffset (e : List Byte) : Option Nat :=
  match entryOpcode e with
  | 0x01 => some 272
  | 0x02 => some 432
  | 0x03 => some 432
  | 0x04 => some 288
  | 0x05 => some 304
  | 0x06 => some 160
  | 0x07 => some (if natBit (byteAt e 144) 0 then 288 else 160)
  | _ => none

/-- The block list of an entry, or the failure of order 2 of R124: the list first, then its reserved fields. -/
def entryBlocks (e : List Byte) : Except Status (List Block) :=
  match blocksOffset e with
  | none => .ok []
  | some o =>
    match blocksFrom (accepts (entryOpcode e) (entryOp1 e) (entryAcc e)) e 64 o 0 with
    | none => .error St.stage
    | some (l, tail) =>
      if l.all blockReservedOk && zeroAt e tail (e.length - tail) then .ok l else .error St.reserved

/-- The blocks of an accepted entry. -/
def blocksOf (e : List Byte) : List Block := match entryBlocks e with | .ok l => l | .error _ => []

def blockOf (e : List Byte) (t : Nat) : Option (List Byte) := findBlock (blocksOf e) t

/-- The source view: read by every moving opcode but FILL and STREAM. -/
def sourceView (e : List Byte) : Option View :=
  match entryOpcode e with
  | 0x01 => some (viewAt e 16)
  | 0x02 => some (viewAt e 16)
  | 0x03 => some (viewAt e 16)
  | 0x04 => some (viewAt e 16)
  | 0x05 => some (viewAt e 16)
  | 0x07 => some (viewAt e 16)
  | _ => none

/-- The index view of GATHER and SCATTER. -/
def indexView (e : List Byte) : Option View :=
  match entryOpcode e with
  | 0x02 => some (viewAt e 144)
  | 0x03 => some (viewAt e 144)
  | _ => none

/-- The destination view. DIGEST and STREAM have none. -/
def destView (e : List Byte) : Option View :=
  match entryOpcode e with
  | 0x01 => some (viewAt e 144)
  | 0x02 => some (viewAt e 272)
  | 0x03 => some (viewAt e 272)
  | 0x04 => some (viewAt e 144)
  | 0x05 => some (viewAt e 144)
  | 0x06 => some (viewAt e 16)
  | _ => none

/-- The select view of a DIGEST with SELECT (R359). -/
def selectView (e : List Byte) : Option View :=
  if entryOpcode e = 0x07 ∧ natBit (byteAt e 144) 0 then some (viewAt e 160) else none

/-- The offsets of an entry's views, in the order they occur. -/
def viewOffsets (e : List Byte) : List Nat :=
  match entryOpcode e with
  | 0x01 => [16, 144]
  | 0x02 => [16, 144, 272]
  | 0x03 => [16, 144, 272]
  | 0x04 => [16, 144]
  | 0x05 => [16, 144]
  | 0x06 => [16]
  | 0x07 => if natBit (byteAt e 144) 0 then [16, 160] else [16]
  | _ => []

/-! ### Gather and scatter control (R120) -/

def ctlDim (e : List Byte) : Nat := natField (byteAt e 400) 0 3
def ctlPolicy (e : List Byte) : Nat := natField (byteAt e 401) 0 2
def ctlFill (e : List Byte) : Nat := uintAt e 408 8

/-- Where an index maps (R127): a source index, a fill, or a fault. -/
inductive IndexMap where
  | elem (i : Nat)
  | fill
  | fault
deriving DecidableEq, Repr

/-- The policy mapping of an index against extent `e` (R127). -/
def mapIndex (policy e : Nat) (i : Int) : IndexMap :=
  if 0 ≤ i ∧ i < e then .elem i.toNat
  else match policy with
    | 1 => if -(e : Int) ≤ i ∧ i < 0 then .elem (i + e).toNat else .fault
    | 2 => if e = 0 then .fault else if i < 0 then .elem 0 else .elem (e - 1)
    | 3 => .fill
    | _ => .fault

/-! ### Compress and expand blocks (R194, R199) -/

/-- The parameters of a COMPRESS or an EXPAND block. -/
structure CodecParams where
  slot : Nat
  encMask : Nat
  width : Nat
  expPos : Nat
  listBase : Nat
  dataBase : Nat
  imageLen : Nat
deriving DecidableEq, Repr

def codecParams (b : List Byte) : CodecParams :=
  { slot := natField (byteAt b 2) 0 2, encMask := natField (byteAt b 3) 0 4, width := natField (byteAt b 4) 0 2,
    expPos := natField (byteAt b 5) 0 5, listBase := uintAt b 8 8, dataBase := uintAt b 16 8, imageLen := uintAt b 24 8 }

def entryExpand (e : List Byte) : Option CodecParams := (blockOf e 0x01).map codecParams
def entryCompress (e : List Byte) : Option CodecParams := (blockOf e 0x40).map codecParams

/-- The ingots of a stream (R194). -/
def CodecParams.ingots (p : CodecParams) : Nat := ceilDiv p.imageLen 4096

/-- The bytes ingot `i` covers. -/
def CodecParams.ulen (p : CodecParams) (i : Nat) : Nat := min 4096 (p.imageLen - 4096 * i)

/-- The bytes of a word (R185). -/
def wordBytes (width : Nat) : Nat := 2 ^ width

/-! ### Collective control (R171, R172) -/

structure CollCtl where
  kind : Nat
  op : Nat
  outFmt : Nat
  axesMask : Nat
  root : Nat
  ctag : Nat
  detachUs : Nat
  chunkLog2 : Nat
  wire : Bool
  wslot : Nat
  rwin : Nat
  axes : Nat
  nodeBase : Nat
  axisSize : List Nat
  nodeStride : List Nat
deriving DecidableEq, Repr

def collCtl (e : List Byte) : CollCtl :=
  { kind := natField (byteAt e 272) 0 3, op := natField (byteAt e 273) 0 2, outFmt := byteAt e 274,
    axesMask := natField (byteAt e 275) 0 4, root := uintAt e 276 2, ctag := uintAt e 278 2, detachUs := uintAt e 280 2,
    chunkLog2 := natField (byteAt e 282) 0 5, wire := natBit (byteAt e 283) 0, wslot := natField (byteAt e 283) 1 2,
    rwin := natField (byteAt e 284) 0 4 + 1, axes := natField (byteAt e 285) 0 3, nodeBase := uintAt e 286 2,
    axisSize := (List.range 4).map (fun a => uintAt e (288 + 4 * a) 2),
    nodeStride := (List.range 4).map (fun a => uintAt e (290 + 4 * a) 2) }

/-- Every coordinate of a mesh. -/
def meshCoords : List Nat → List (List Nat)
  | [] => [[]]
  | n :: t => (List.range n).flatMap (fun c => (meshCoords t).map (fun r => c :: r))

def CollCtl.mesh (c : CollCtl) : List (List Nat) := meshCoords (c.axisSize.take c.axes)

def CollCtl.nodeOf (c : CollCtl) (coords : List Nat) : Nat := meshNode c.nodeBase c.nodeStride coords

/-- The coordinates whose node is a given one. -/
def CollCtl.coordsAt (c : CollCtl) (node : Nat) : List (List Nat) := c.mesh.filter (fun x => decide (c.nodeOf x = node))

/-- The rank of a coordinate: mixed radix over the named axes, the lowest fastest (R172). -/
def CollCtl.rankOf (c : CollCtl) (coords : List Nat) : Nat :=
  let named := (List.range c.axes).filter (fun a => natBit c.axesMask a)
  ravel (named.map (fun a => c.axisSize.getD a 1)) (named.map (fun a => coords.getD a 0))

/-- The size of the group. -/
def CollCtl.size (c : CollCtl) : Nat :=
  prodOf (((List.range c.axes).filter (fun a => natBit c.axesMask a)).map (fun a => c.axisSize.getD a 1))

/-- The nodes of the group of a node, by rank (R172). -/
def CollCtl.members (c : CollCtl) (self : Nat) : List Nat :=
  match c.coordsAt self with
  | [me] =>
    let group := c.mesh.filter (fun x => (List.range c.axes).all (fun a => natBit c.axesMask a || decide (x.getD a 0 = me.getD a 0)))
    (List.range c.size).map (fun r => match group.find? (fun x => decide (c.rankOf x = r)) with
      | some x => c.nodeOf x
      | none => 0)
  | _ => []

/-- This chip's rank. -/
def CollCtl.rank (c : CollCtl) (self : Nat) : Nat := match c.coordsAt self with | [me] => c.rankOf me | _ => 0

/-! ### STREAM control and descriptors (R225, R226) -/

def streamList (e : List Byte) : Nat := uintAt e 16 8
def streamCount (e : List Byte) : Nat := uintAt e 24 4
def streamBlockBytes (e : List Byte) : Nat := uintAt e 28 4
def streamCredit (e : List Byte) : Option Nat := if natBit (byteAt e 32) 7 then some (natField (byteAt e 32) 0 6) else none
def streamSrcHost (e : List Byte) : Bool := natBit (byteAt e 33) 0
def streamDstHost (e : List Byte) : Bool := natBit (byteAt e 33) 1

/-- The descriptors in a byte string: source and destination of each block. -/
def descriptors (bs : List Byte) (n : Nat) : List (Nat × Nat) :=
  (List.range n).map (fun i => (uintAt bs (16 * i) 8, uintAt bs (16 * i + 8) 8))

/-- The runs of blocks from a present run on (R227): `first` is its first block, `n` its blocks, `last` its last
descriptor. -/
def solderFrom (blockBytes first n : Nat) (last : Nat × Nat) : List (Nat × Nat) → List (Nat × Nat)
  | [] => [(first, n)]
  | d :: t =>
    if d.1 = last.1 + blockBytes ∧ d.2 = last.2 + blockBytes ∧ (n + 1) * blockBytes ≤ 65536 then
      solderFrom blockBytes first (n + 1) d t
    else (first, n) :: solderFrom blockBytes (first + n) 1 d t

/-- The runs of a block list: the first block and the number of blocks of each. They form greedily in list order,
within 65,536 bytes (R227). -/
def solder (blockBytes : Nat) : List (Nat × Nat) → List (Nat × Nat)
  | [] => []
  | d :: t => solderFrom blockBytes 0 1 d t

/-! ### STEP_CLOSE (R231) -/

def closeStepId (e : List Byte) : Nat := uintAt e 16 8
def closeCores (e : List Byte) : Bool := natBit (byteAt e 24) 0
def closeCount (e : List Byte) : Nat := byteAt e 25
def closeBarriers (e : List Byte) : List Nat := (List.range (closeCount e)).map (fun j => uintAt e (64 + 8 * j) 6)

end Sys2Proof.Machine
end

