-- ==== Sys2Proof/Machine/Access.lean ====
section
/-!
DEFINITION. Memory accesses that no task makes: BAR2 (R48), host apertures (R38 to R40), the compute cores (R167 to R169,
R257, R285), the fabric (R43 to R45, R169), with NODE_ID (R28) and the device region table's commit (R42).
-/
namespace Sys2Proof.Machine

/-! ### Small registers shared by the families -/

/-- A fault register that keeps the first event, and of one core cycle's the one with the lowest key (R40, R183, R203,
R278, R309). -/
def State.latchReg (s : State) (off key v : Nat) : State := s.latch { off := off, key := key, val := v, also := [] }

/-- The PASID a context's host requests carry (R255). -/
def State.pasidOf (s : State) (ctx : Nat) : Option (BitVec 20) :=
  if s.bit (R.ctxMap ctx) 30 then some (BitVec.ofNat 20 (s.fld (R.ctxMap ctx) 0 20)) else none

/-- The context of a BAR2 request: context 0 without a PASID, else the one valid entry that holds the PASID with
PASID_EN (R48, R255). -/
def State.ctxOfPasid (s : State) : Option (BitVec 20) → Option Nat
  | none => some 0
  | some p => (List.range 4096).find? (fun c =>
      s.bit (R.ctxMap c) 31 && s.bit (R.ctxMap c) 30 && decide (s.fld (R.ctxMap c) 0 20 = p.toNat))

/-- Does tier B serve (R391)? -/
def State.tbReady (s : State) : Bool := s.bit R.pwStatus 30

/-- Does an access to an address wait for tier B (R391)? -/
def State.tierBWaits (s : State) (a : Nat) : Bool := decide (regionOf a = .tierB) && ! s.tbReady

/-- An access that waits under R391 joins the waiting ones; any other is made. -/
def State.tierBGate (s : State) (a : Nat) (w : HeldAccess) (f : State → State) : State :=
  if s.tierBWaits a then { s with padWait := s.padWait ++ [w] } else f s

/-! ### NODE_ID and the device region table -/

/-- A write of NODE_ID (R28). -/
def setNodeId (value : Word) (s : State) : State :=
  if s.bit R.feCtl 31 || s.bit R.feStatus 0 then s
  else s.setReg R.nodeId (BitVec.ofNat 32 (2 ^ 16 + getField value 0 16))

def execNodeIdWrite (src : Requester) (value : Word) (s : State) : Result :=
  s.regWrite src R.nodeId value (setNodeId value)

/-- The entry that a write of DRT_CTL commits, from the staged BASE and LIMIT (R42). -/
def drtCommitted (s : State) (group n : Nat) (value : Word) : DrtEntry :=
  { base := s.reg64 (R.drtBaseLo group n), limit := s.reg64 (R.drtLimitLo group n), valid := decide (getField value 31 1 = 1),
    read := decide (getField value 30 1 = 1), write := decide (getField value 29 1 = 1),
    atomic := decide (getField value 28 1 = 1), ctx := getField value 0 12 }

/-- A write of DRT_CTL: the entry is in force from this core cycle on (R42). -/
def commitDrt (group n : Nat) (value : Word) (s : State) : State :=
  let s1 := s.setReg (R.drtCtl group n) (value &&& 0xF0000FFF)
  { s1 with drt := sset drtDefault s1.drt (1024 * group + n) (drtCommitted s group n value) }

def execDrtCtlWrite (src : Requester) (group : Fin 3) (n : Fin 1024) (value : Word) (s : State) : Result :=
  s.regWrite src (R.drtCtl group n) value (commitDrt group n value)

/-! ### BAR2 (R48) -/

/-- The local address of a BAR2 offset: at 8 TiB the offset itself; else BAR2_BASE above the size, plus the offset. -/
def State.bar2Local (s : State) (off : Nat) : Nat :=
  if 43 ≤ s.bar2Log2 then off else s.reg64 R.bar2BaseLo / 2 ^ s.bar2Log2 * 2 ^ s.bar2Log2 + off

/-- What a BAR2 request meets: Unsupported Request for an unmapped PASID, a byte outside tier A and tier B or a refusal
of the region table (R257); Completer Abort for an unbound module or uncorrectable data (R355). -/
inductive Bar2Verdict where
  | serve
  | unsupported (st : Option Status)
  | abort (st : Status)
deriving DecidableEq, Repr

def State.bar2Verdict (s : State) (acc : Acc) (a len : Nat) (pasid : Option (BitVec 20)) (cond : MemCond) : Bar2Verdict :=
  match s.ctxOfPasid pasid with
  | none => .unsupported none
  | some ctx =>
    if ! inTier a len then .unsupported none
    else match s.memVerdict ctx acc a len cond with
      | none => .serve
      | some st => if st = St.context then .unsupported (some st) else .abort st

/-- A BAR2 read served or completed with its error. -/
def doBar2Read (off len : Nat) (pasid : Option (BitVec 20)) (cond : MemCond) (s : State) : State :=
  let a := s.bar2Local off
  match s.bar2Verdict .read a len pasid cond with
  | .serve => (s.noteCorrected a cond).emit (.bar2Data (s.seenMem a len))
  | .unsupported none => s.emit .unsupportedRequest
  | .unsupported (some st) => (s.memRefusal st a none).emit .unsupportedRequest
  | .abort st => (s.memRefusal st a none).emit .completerAbort

/-- A BAR2 write made or discarded. -/
def doBar2Write (off : Nat) (bytes : List Byte) (pasid : Option (BitVec 20)) (cond : MemCond) (s : State) : State :=
  let a := s.bar2Local off
  match s.bar2Verdict .write a bytes.length pasid (writeCond a bytes.length cond) with
  | .serve => (s.noteCorrected a (writeCond a bytes.length cond)).writeMem a bytes
  | .unsupported none => s
  | .unsupported (some st) => s.memRefusal st a none
  | .abort st => s.memRefusal st a none

/-- A BAR2 access below Active is held (R389); one that touches tier B waits for it (R391). -/
def State.bar2Gate (s : State) (off : Nat) (w : HeldAccess) (f : State → State) : State :=
  s.gate w (fun t => t.tierBGate (t.bar2Local off) w f)

def execBar2Read (offset len : Nat) (pasid : Option (BitVec 20)) (cond : MemCond) (s : State) : Result :=
  .next (s.bar2Gate offset (.bar2Read offset len pasid cond) (doBar2Read offset len pasid cond))

def execBar2Write (offset : Nat) (bytes : List Byte) (attr : WriteAttr) (cond : MemCond) (s : State) : Result :=
  .next (s.bar2Gate offset (.bar2Write offset bytes attr.pasid attr.relaxed cond) (doBar2Write offset bytes attr.pasid cond))

/-- PCIe AtomicOp requests to BAR2 complete with Unsupported Request (R169). -/
def execBar2Atomicop (_offset : Nat) (s : State) : Result := .next (s.emit .unsupportedRequest)

/-- There is no peer-to-peer path into BAR0 or BAR2 (after R48). -/
def execPeerToPeerRequest (_read : Bool) (s : State) : Result := .next (s.emit .unsupportedRequest)

/-! ### Host apertures (R38 to R40) -/

/-- The total length of a range list. -/
def rangesLength (rs : List XRange) : Nat := (rs.map XRange.len).sum

/-- The pieces of `len` bytes at offset `off` of the concatenation of a range list: the range, the offset in it and the
length (R38). -/
def concatPieces : List XRange → Nat → Nat → List (XRange × Nat × Nat)
  | [], _, _ => []
  | r :: t, off, len =>
    if len = 0 then []
    else if r.len ≤ off then concatPieces t (off - r.len) len
    else
      let n := min len (r.len - off)
      (r, off, n) :: concatPieces t 0 (len - n)

/-- The address a byte of a range is sent to: translated, or the host address under an untranslated range (R241). -/
def XRange.target (r : XRange) (off : Nat) : Nat := if r.untranslated then r.host + off else r.addr + off

/-- An aperture access fails (R40): it is counted, and recorded if it is the first, of one core cycle's the one of the
lowest aperture. Causes: 0 unbound, 1 beyond the range list, 2 host error, 3 host timeout. -/
def State.apertureFault (s : State) (write : Bool) (cause ap core off : Nat) : State :=
  (s.bump R.apertureFaultCount 1).latch
    { off := R.apertureFault, key := ap, val := boolBit write * 2 ^ 30 + cause * 2 ^ 28 + ap * 2 ^ 16 + core * 2 ^ 13,
      also := pairWords R.apertureFaultOfsLo off }

/-- The task that an aperture's accesses run under; `none` while it is unbound. -/
def State.apertureTask (s : State) (ap : Nat) : Option Task :=
  match s.apertureOwner ap with
  | none => none
  | some t => s.task t

/-- The context of a task: its queue's (R50). -/
def State.ctxOf (s : State) (t : TaskRef) : Nat := s.fld (R.sqCfg t.sq) 0 12

/-- The cause an access fails for before it leaves; `none` for one that goes to the host. No request leaves under a
marked range (R252; the cause is then that of an unbound aperture, log 20). -/
def State.apertureCause (s : State) (ap off len : Nat) : Option Nat :=
  match s.apertureTask ap with
  | none => some 0
  | some t =>
    if rangesLength t.ranges < off + len then some 1
    else if (concatPieces t.ranges off len).any (fun p => p.1.marked) then some 0
    else none

/-- The requests an aperture access makes of the host, by piece: the address, whether it is a translated one (R241), the
length, and the offset in the access. -/
def State.aperturePieces (s : State) (ap off len : Nat) : List (Nat × Bool × Nat × Nat) :=
  match s.apertureTask ap with
  | none => []
  | some t =>
    let ps := concatPieces t.ranges off len
    (ps.zip ((List.range ps.length).map (fun i => ((ps.take i).map (fun p => p.2.2)).sum))).map
      (fun q => (q.1.1.target q.1.2.1, ! q.1.1.untranslated, q.1.2.2, q.2))

/-- The host bytes an aperture access covers. -/
def State.apertureHost (s : State) (ap off len : Nat) : List (Nat × Nat) :=
  match s.apertureTask ap with
  | none => []
  | some t => (concatPieces t.ranges off len).map (fun p => (p.1.host + p.2.1, p.2.2))

/-- The PASID an aperture's requests carry (R38). -/
def State.aperturePasid (s : State) (ap : Nat) : Option (BitVec 20) :=
  match s.apertureOwner ap with
  | none => none
  | some t => s.pasidOf (s.ctxOf t)

/-- Are an aperture access's size and alignment those the network makes (R39)? -/
def apertureSize (off len : Nat) : Bool := decide (len = 4 ∨ len = 8 ∨ len = 64) && decide (off % len = 0)

/-- A load sent to the host: one read a piece. -/
def State.apertureReads (s : State) (ap off len : Nat) : State :=
  (s.aperturePieces ap off len).foldl (fun t p => t.emit (.hostRead p.1 p.2.2.1 (s.aperturePasid ap) p.2.1)) s

/-- A load through an aperture: the host's data, or zeros with the failure recorded; a load the host has not answered
stays outstanding (R39, R40). -/
def doApertureLoad (core ap off len : Nat) (answer : HostAnswer) (s : State) : State :=
  match s.apertureCause ap off len with
  | some c => (s.apertureFault false c ap core off).emit (.coreData core (List.replicate len 0))
  | none =>
    let s1 := s.apertureReads ap off len
    match answer with
    | .data bytes => s1.emit (.coreData core (fitBytes len bytes))
    | .error => (s1.apertureFault false 2 ap core off).emit (.coreData core (List.replicate len 0))
    | .pending => 
      { s1 with apLoads := s1.apLoads ++ [{ core := core, ap := ap, offset := off, len := len, at_ := s1.cycle,
                                            pasid := s1.aperturePasid ap, host := s1.apertureHost ap off len }] }

def execApertureLoad (core : Fin 8) (ap : Fin 16) (offset len : Nat) (answer : HostAnswer) (s : State) : Result :=
  .next (if apertureSize offset len then doApertureLoad core ap offset len answer s else s)

/-- A store through an aperture: posted writes, or discarded with the failure recorded (R39, R40). -/
def doApertureStore (core ap off : Nat) (bytes : List Byte) (s : State) : State :=
  match s.apertureCause ap off bytes.length with
  | some c => s.apertureFault true c ap core off
  | none => (s.aperturePieces ap off bytes.length).foldl
      (fun t p => t.emit (.hostWrite p.1 ((bytes.drop p.2.2.2).take p.2.2.1) (s.aperturePasid ap) false p.2.1)) s

def execApertureStore (core : Fin 8) (ap : Fin 16) (offset : Nat) (bytes : List Byte) (s : State) : Result :=
  .next (if apertureSize offset bytes.length then doApertureStore core ap offset bytes s else s)

/-! ### Compute cores (R257, R285, R355) -/

/-- The context of a core's accesses (R257). -/
def State.coreCtx (s : State) (core : Nat) : Nat := s.fld (R.tuCoreCtx core) 0 12

/-- What a core's access meets (R257, R355): the region table and the module binding for tier A and tier B; the bank
only, for the scratchpad; an unmapped byte. -/
def State.coreVerdict (s : State) (core : Nat) (acc : Acc) (a len : Nat) (cond : MemCond) : Option Status :=
  if ! inMemory a len then some St.unmapped
  else s.memVerdict (if regionOf a = .scratch then 0 else s.coreCtx core) acc a len cond

/-- A core's load: its data, or zeros. -/
def doCoreLoad (core a len : Nat) (cond : MemCond) (s : State) : State :=
  match s.coreVerdict core .read a len cond with
  | none => (s.noteCorrected a cond).emit (.coreData core (s.seenMem a len))
  | some st => (s.memRefusal st a none).emit (.coreData core (List.replicate len 0))

/-- A core's store: made, or discarded. -/
def doCoreStore (core a : Nat) (bytes : List Byte) (cond : MemCond) (s : State) : State :=
  match s.coreVerdict core .write a bytes.length (writeCond a bytes.length cond) with
  | none => (s.noteCorrected a (writeCond a bytes.length cond)).writeMem a bytes
  | some st => s.memRefusal st a none

/-! ### Atomics (R167, R168) -/

/-- One half of a word that holds two 16-bit floating values. -/
def faddHalfWord (fmt : Nat) (sel : Bool) (old operand : Nat) : Nat := if sel then addFloat fmt old operand else old

/-- The word an atomic leaves: `w` is its width in bits. -/
def atomicResult (r : AtomicReq) (old : Nat) : Nat :=
  let w := if r.wide then 64 else 32
  let a := r.a.toNat % 2 ^ w
  match r.op with
  | .add => (old + a) % 2 ^ w
  | .swap => a
  | .cas => if old = a then r.b.toNat % 2 ^ w else old
  | .max => if signedOf w old < signedOf w a then a else old
  | .min => if signedOf w a < signedOf w old then a else old
  | .and => old &&& a
  | .or => old ||| a
  | .xor => old ^^^ a
  | .fadd32 => addFloat 0x22 old a
  | .faddHalf bf lo hi =>
    let f := if bf then 0x21 else 0x20
    faddHalfWord f lo (old % 2 ^ 16) (a % 2 ^ 16) + 2 ^ 16 * faddHalfWord f hi (old / 2 ^ 16) (a / 2 ^ 16)

/-- The bytes of an atomic's word. -/
def atomicSize (r : AtomicReq) : Nat := if r.wide then 8 else 4

/-- A floating-point atomic add. -/
def isFadd (r : AtomicReq) : Bool :=
  match r.op with
  | .fadd32 => true
  | .faddHalf _ _ _ => true
  | _ => false

/-- Is an atomic one that Sisan performs at an address: a naturally aligned word in tier A or tier B, an FADD of 4 bytes
(R167)? -/
def atomicLegal (r : AtomicReq) (a : Nat) : Bool :=
  decide (a % atomicSize r = 0) && inTier a (atomicSize r) && (! isFadd r || ! r.wide)

/-- The word replaced; the prior value is what the requester gets. -/
def State.applyAtomic (s : State) (a : Nat) (r : AtomicReq) : State :=
  s.writeMem a (leBytes (atomicSize r) (atomicResult r (leNat (s.readMem a (atomicSize r)))))

/-- A core's atomic (R168, R169): the prior value, or zero; a refusal is counted in RD_ATOMIC_REFUSED. -/
def doCoreAtomic (core a : Nat) (r : AtomicReq) (cond : MemCond) (s : State) : State :=
  let zero : List Byte := List.replicate (atomicSize r) 0
  if ! atomicLegal r a then (s.bump R.rdAtomicRefused 1).emit (.coreData core zero)
  else match s.memVerdict (s.coreCtx core) .atomic a (atomicSize r) cond with
    | none => ((s.noteCorrected a cond).applyAtomic a r).emit (.coreData core (s.readMem a (atomicSize r)))
    | some st =>
      let s1 := s.memRefusal st a none
      (if st = St.context then s1.bump R.rdAtomicRefused 1 else s1).emit (.coreData core zero)

def execCoreAtomic (core : Fin 8) (addr : Nat) (req : AtomicReq) (cond : MemCond) (s : State) : Result :=
  .next (s.tierBGate addr (.coreAtomic core addr req cond) (doCoreAtomic core addr req cond))

/-! ### Accesses from the fabric (R43 to R45, R169) -/

/-- The address, the length and the type of a remote access. -/
def remoteAddr : RemoteAccess → Nat
  | .read a _ => a
  | .write a _ => a
  | .atomic a _ => a

def remoteLen : RemoteAccess → Nat
  | .read _ n => n
  | .write _ bs => bs.length
  | .atomic _ r => atomicSize r

def remoteAcc : RemoteAccess → Acc
  | .read _ _ => .read
  | .write _ _ => .write
  | .atomic _ _ => .atomic

/-- The bit of WIN_CTL that grants an access type (R45). -/
def winBit : Acc → Nat
  | .read => 30
  | .write => 29
  | .atomic => 28

/-- Does an open window serve an access: it falls wholly within the window, the source matches, the type is granted
(R43)? -/
def State.winServes (s : State) (w node : Nat) (acc : Acc) (a len : Nat) : Bool :=
  let mask := s.fld (R.winSrc w) 16 16
  s.bit (R.winCtl w) 31 && s.bit (R.winCtl w) (winBit acc) &&
    decide (s.reg64 (R.winBaseLo w) / 4096 ≤ a / 4096) && decide ((a + (len - 1)) / 4096 ≤ s.reg64 (R.winLimitLo w) / 4096) &&
    decide (node &&& mask = s.fld (R.winSrc w) 0 16 &&& mask)

/-- The window that serves an access: the lowest-numbered one (DESIGN CHOICE where several do, log 20). -/
def State.winFor (s : State) (node : Nat) (acc : Acc) (a len : Nat) : Option Nat :=
  (List.range 64).find? (fun w => s.winServes w node acc a len)

/-- A refusal by the windows: counted, the first one recorded, of one core cycle's the one of the lowest source node (R43,
R278). -/
def State.winRefused (s : State) (node : Nat) : State := (s.bump R.feWinRefused 1).latchReg R.feWinFault node node

/-- What a remote access meets: a write of whole code words reads none of them (R355). -/
def remoteCond (r : RemoteAccess) (c : MemCond) : MemCond :=
  match r with
  | .write a bs => writeCond a bs.length c
  | _ => c

/-- A remote access that its window serves, at the memory under the window's context. -/
def serveRemote (w node : Nat) (r : RemoteAccess) (cond : MemCond) (s : State) : State :=
  match s.memVerdict (s.fld (R.winCtl w) 0 12) (remoteAcc r) (remoteAddr r) (remoteLen r) (remoteCond r cond) with
  | some st => (s.memRefusal st (remoteAddr r) none).emit (.fabricAnswer node st [])
  | none =>
    let s1 := s.noteCorrected (remoteAddr r) (remoteCond r cond)
    match r with
    | .read a n => s1.emit (.fabricAnswer node St.success (s.seenMem a n))
    | .write a bs => (s1.writeMem a bs).emit (.fabricAnswer node St.success [])
    | .atomic a q => (s1.applyAtomic a q).emit (.fabricAnswer node St.success (s.readMem a (atomicSize q)))

/-- What an access past its window meets before the memory: an atomic R167 and, for a floating-point add, the arrival
configuration (R45, R169). -/
def pastWindow (w node : Nat) (r : RemoteAccess) (cond : MemCond) (s : State) : State :=
  match r with
  | .atomic a q =>
    if ! atomicLegal q a then (s.winRefused node).emit (.fabricAnswer node St.window [])
    else if isFadd q && ! s.bit R.rdArrivalActive 0 then
      (s.bump R.rdFaddRefused 1).emit (.fabricAnswer node St.window [])
    else serveRemote w node r cond s
  | _ => serveRemote w node r cond s

/-- An access arriving from the fabric: its window is judged as it arrives (R45); one that touches tier B then waits for
it (R391). -/
def doRemote (node : Nat) (r : RemoteAccess) (cond : MemCond) (s : State) : State :=
  match s.winFor node (remoteAcc r) (remoteAddr r) (remoteLen r) with
  | none => (s.winRefused node).emit (.fabricAnswer node St.window [])
  | some w => s.tierBGate (remoteAddr r) (.remote node r cond w) (pastWindow w node r cond)

/-- While the endpoint is not running no access arrives (R278). -/
def execFabricRemoteAccess (node : Nat) (acc : RemoteAccess) (cond : MemCond) (s : State) : Result :=
  .next (if s.bit R.feStatus 0 then doRemote node acc cond s else s)

end Sys2Proof.Machine
end

