-- ==== Sys2Proof/Machine/Flags.lean ====
section
/-!
DEFINITION. Flags and status bits that more than one family computes: the W1C rule for a bit that hardware sets in the
same cycle (R7), the interrupt-enable fields, the waiting times in core cycles (1.6 GHz, R1), free 64-bit words (log 8).
-/
namespace Sys2Proof.Machine

/-- A register after a write: read-write bits take the value written, W1C bits written as 1 clear, W1S bits written as 1
set, and a bit hardware sets in the same core cycle stays set (R7). -/
def writtenWord (old value : Word) (rw w1c w1s hwSet : Nat) : Word :=
  let keep : Word := ~~~ (BitVec.ofNat 32 rw)
  let a := (old &&& keep) ||| (value &&& BitVec.ofNat 32 rw)
  let b := a &&& ~~~ (value &&& BitVec.ofNat 32 w1c)
  b ||| (value &&& BitVec.ofNat 32 w1s) ||| BitVec.ofNat 32 hwSet

/-- Core cycles in a microsecond (R1). -/
def cyclesPerUs : Nat := 1600

/-- A number that nothing constrains (log 8). -/
def freeNat64 (n addr : Nat) : Nat := leNat ((List.range 8).map (fun i => Config.freeByte n (addr + i)))

/-- The address a byte of host memory is sent to under a range list, and whether it is a translated one (R241); none for a
byte no unmarked range holds (R50, R250). -/
def hostTarget (rs : List XRange) (a : Nat) : Option (Nat × Bool) :=
  (rs.find? (fun r => decide (r.host ≤ a) && decide (a < r.host + r.len) && ! r.marked)).map
    (fun r => (r.target (a - r.host), ! r.untranslated))

/-- A tag counter advanced in every counter set that counts the tag (R282). -/
def State.countTag (s : State) (off : Nat → Nat) (tag n : Nat) : State :=
  (List.range 64).foldl (fun u k =>
    if u.bit (R.tcCfg k) 31 && decide (u.fld (R.tcCfg k) 0 16 = tag) then u.bump (off k) n else u) s

end Sys2Proof.Machine
end

