-- ==== Sys2Proof/Machine/Check.lean ====
section
/-!
DEFINITION. The checks of an entry (R57): orders 2 to 4 of the header, the bodies of order 7 (R110, R124, R182, R195,
R226, R231, R360), event ownership (order 8, R76), the host footprint of order 9 (R236), the local map of order 10
(R29, R109).
-/
namespace Sys2Proof.Machine

/-- A logical tensor's shape and format (R123). -/
structure TMeta where
  dims : List Nat
  fmt : Nat
deriving DecidableEq, Repr

def TMeta.count (t : TMeta) : Nat := prodOf t.dims
def TMeta.ext (t : TMeta) (d : Nat) : Nat := t.dims.getD d 0
def TMeta.width (t : TMeta) : Nat := widthOf t.fmt

/-- Within the limits of R124. -/
def TMeta.ok (t : TMeta) : Bool :=
  t.dims.all (fun e => decide (e ≤ 0xFFFFFFFE)) &&
    decide (t.count * t.width + (if isMx t.fmt then t.count / 32 * 8 else 0) ≤ 8 * 2 ^ 48)

/-! ### Records of the stage blocks -/

def sliceMask (b : List Byte) : Nat := byteAt b 2
def sliceStart (b : List Byte) (d : Nat) : Nat := uintAt b (16 + 12 * d) 4
def sliceCount (b : List Byte) (d : Nat) : Nat := uintAt b (20 + 12 * d) 4
def sliceStep (b : List Byte) (d : Nat) : Int := signedOf 32 (uintAt b (24 + 12 * d) 4)
def permOf (b : List Byte) (d : Nat) : Nat := natField (uintAt b 4 4) (4 * d) 3
def padValue (b : List Byte) : Nat := uintAt b 8 8
def padLow (b : List Byte) (d : Nat) : Nat := uintAt b (16 + 8 * d) 4
def padHigh (b : List Byte) (d : Nat) : Nat := uintAt b (20 + 8 * d) 4
def bcRank (b : List Byte) : Nat := natField (byteAt b 2) 0 3 + 1
def bcExtent (b : List Byte) (d : Nat) : Nat := uintAt b (16 + 8 * d) 4
def bcNew (b : List Byte) (d : Nat) : Bool := natBit (byteAt b (20 + 8 * d)) 7
def bcDim (b : List Byte) (d : Nat) : Nat := natField (byteAt b (20 + 8 * d)) 0 3
def rsMode (b : List Byte) : Nat := byteAt b 2
def rsGroup (b : List Byte) : Nat := natField (byteAt b 3) 0 4
def rsFactor (b : List Byte) : Nat := natField (byteAt b 4) 0 4
def castTo (b : List Byte) : Nat := byteAt b 2
def castRound (b : List Byte) : Nat := natField (byteAt b 3) 0 2
def castSat (b : List Byte) : Bool := natBit (byteAt b 3) 2
def castSeed (b : List Byte) : Nat := uintAt b 8 8

/-! ### The shape each stage gives -/

def sliceMeta (b : List Byte) (t : TMeta) : TMeta :=
  { t with dims := (List.range t.dims.length).map (fun d => if natBit (sliceMask b) d then sliceCount b d else t.ext d) }

def transposeMeta (b : List Byte) (t : TMeta) : TMeta :=
  { t with dims := (List.range t.dims.length).map (fun d => t.ext (permOf b d)) }

def padMeta (b : List Byte) (t : TMeta) : TMeta :=
  { t with dims := (List.range t.dims.length).map (fun d => padLow b d + t.ext d + padHigh b d) }

def broadcastMeta (b : List Byte) (t : TMeta) : TMeta := { t with dims := (List.range (bcRank b)).map (bcExtent b) }

def reshuffleMeta (b : List Byte) (t : TMeta) : TMeta :=
  if rsMode b = 1 then { dims := t.ext 0 / 64 * t.width :: t.dims.drop 1, fmt := 0x04 } else t

def castMeta (b : List Byte) (t : TMeta) : TMeta := { t with fmt := castTo b }

/-- The gathered shape (R125). -/
def gatherMeta (idx : List Nat) (dim : Nat) (t : TMeta) : TMeta :=
  { t with dims := t.dims.take dim ++ idx ++ t.dims.drop (dim + 1) }

/-- The reduced shape (R164). -/
def reduceMeta (rmask outFmt : Nat) (t : TMeta) : TMeta :=
  let kept := (List.range t.dims.length).filter (fun d => ! natBit rmask d)
  { dims := if kept = [] then [1] else kept.map t.ext, fmt := outFmt }

/-! ### Stage checks (order 3 of R124) -/

/-- SLICE (R133, R142). -/
def checkSlice (b : List Byte) (t : TMeta) : Option Status :=
  let n := t.dims.length
  let on := (List.range n).filter (fun d => natBit (sliceMask b) d)
  firstFail [
    (decide (sliceMask b < 2 ^ n), St.reserved),
    (on.all (fun d => decide (sliceCount b d ≠ 0xFFFFFFFF)), St.length),
    (on.all (fun d => decide (sliceStep b d ≠ 0) && (decide (sliceCount b d = 0) ||
      (decide (sliceStart b d < t.ext d) &&
        decide (0 ≤ (sliceStart b d : Int) + ((sliceCount b d : Int) - 1) * sliceStep b d) &&
        decide ((sliceStart b d : Int) + ((sliceCount b d : Int) - 1) * sliceStep b d < t.ext d)))), St.stage),
    (! (isMx t.fmt && natBit (sliceMask b) 0), St.format),
    ((sliceMeta b t).ok, St.overflow)]

/-- TRANSPOSE (R135, R142). -/
def checkTranspose (b : List Byte) (t : TMeta) : Option Status :=
  let n := t.dims.length
  firstFail [
    ((List.range 8).all (fun d => decide (d < n) || decide (permOf b d = 0)), St.reserved),
    ((List.range n).all (fun i => (List.range n).any (fun d => decide (permOf b d = i))), St.stage),
    (! isMx t.fmt || decide (permOf b 0 = 0), St.format),
    ((transposeMeta b t).ok, St.overflow)]

/-- PAD (R137, R142). -/
def checkPad (b : List Byte) (t : TMeta) : Option Status :=
  let n := t.dims.length
  firstFail [
    ((List.range 8).all (fun d => decide (d < n) || zeroAt b (16 + 8 * d) 8) &&
      decide (padValue b < if isMx t.fmt then 1 else 2 ^ t.width), St.reserved),
    ((List.range n).all (fun d => decide (padLow b d ≠ 0xFFFFFFFF) && decide (padHigh b d ≠ 0xFFFFFFFF)), St.length),
    (! isMx t.fmt || decide (padLow b 0 = 0 ∧ padHigh b 0 = 0), St.format),
    ((padMeta b t).ok, St.overflow)]

/-- BROADCAST (R138, R142). -/
def checkBroadcast (b : List Byte) (t : TMeta) : Option Status :=
  let m := bcRank b
  let kept := (List.range m).filter (fun d => ! bcNew b d)
  firstFail [
    ((List.range 8).all (fun d => decide (d < m) || zeroAt b (16 + 8 * d) 8), St.reserved),
    ((List.range m).all (fun d => decide (bcExtent b d ≠ 0xFFFFFFFF)), St.length),
    (decide (kept.map (bcDim b) = List.range t.dims.length) &&
      kept.all (fun d => decide (bcExtent b d = t.ext (bcDim b d)) || decide (t.ext (bcDim b d) = 1)) &&
      (List.range m).all (fun d => ! bcNew b d || decide (bcDim b d = 0)), St.stage),
    (! isMx t.fmt || (! bcNew b 0 && decide (bcDim b 0 = 0) && decide (bcExtent b 0 = t.ext 0)), St.format),
    ((broadcastMeta b t).ok, St.overflow)]

/-- RESHUFFLE (R139 to R142). -/
def checkReshuffle (b : List Byte) (t : TMeta) : Option Status :=
  firstFail [
    (decide (rsMode b = 1 ∨ rsMode b = 2), St.stage),
    (decide (rsMode b ≠ 1) || decide (t.ext 0 % 64 = 0), St.stage),
    (decide (rsMode b ≠ 2) || (decide (1 ≤ rsFactor b) && decide (rsFactor b ≤ rsGroup b) && decide (rsGroup b ≤ 10) &&
      decide (t.ext 0 % 2 ^ rsGroup b = 0)), St.stage),
    (! isMx t.fmt && (decide (rsMode b ≠ 1) || decide (t.width = 2 ∨ t.width = 4 ∨ t.width = 8)), St.format),
    ((reshuffleMeta b t).ok, St.overflow)]

/-- CAST_IN and CAST_OUT (R143, R144, R149). -/
def checkCast (out : Bool) (b : List Byte) (t : TMeta) : Option Status :=
  let target := castTo b
  firstFail [
    (decide (castRound b ≠ 3), St.stage),
    (decide (target = t.fmt) || (isArith t.fmt && (if out then isArith target && ! isMx t.fmt
        else decide (target = 0x22 ∨ target = 0x21 ∨ target = 0x20 ∨ target = 0x14)) &&
      (! isMx target || decide (t.ext 0 % 32 = 0))), St.format),
    ((castMeta b t).ok, St.overflow)]

/-- The formats of a reduction (R156, R157); `order` is the ORDER field. -/
def reduceFormatsOk (inFmt outFmt order : Nat) : Bool :=
  if inFmt = 0x12 ∨ inFmt = 0x13 ∨ inFmt = 0x14 then decide (outFmt = 0x14)
  else if isFloat inFmt then
    decide (outFmt = 0x20 ∨ outFmt = 0x21 ∨ outFmt = 0x22) &&
      (decide (order = 1) ||
        (match inFmt with
         | 0x22 => decide (outFmt = 0x22)
         | 0x21 => decide (outFmt = 0x21 ∨ outFmt = 0x22)
         | 0x20 => decide (outFmt = 0x20 ∨ outFmt = 0x22)
         | _ => true))
  else false

/-- The accumulation formats of scatter-add (R156). -/
def scatterAccOk (f : Nat) : Bool := decide (f = 0x20 ∨ f = 0x21 ∨ f = 0x22 ∨ f = 0x14)

/-- The parameters of COMPRESS and EXPAND with their view (R195, R199). -/
def checkCodec (expand : Bool) (self : Nat) (b : List Byte) (v : View) : Option Status :=
  let p := codecParams b
  let spanOk (f : Int → Int → Bool) : Bool := match v.span with | none => true | some (lo, hi) => f lo hi
  firstFail [
    (zeroBits b 2 2 6 && decide (p.listBase < 2 ^ 48) && decide (p.dataBase < 2 ^ 48) &&
      (expand || (zeroBits b 3 4 4 && zeroBits b 4 2 6 && zeroBits b 5 5 3 && zeroAt b 6 2)), St.reserved),
    (decide (p.imageLen ≠ 2 ^ 64 - 1), St.length),
    (! expand || zeroAt b 3 5, St.reserved),
    (expand || (decide (p.width ≠ 3) && decide (p.expPos + 8 ≤ 8 * wordBytes p.width)), St.stage),
    (decide (p.imageLen % 8 = 0) && decide (p.listBase % 64 = 0) && decide (p.dataBase % 4096 = 0), St.align),
    (decide (p.imageLen ≤ 2 ^ 48) && spanOk (fun lo hi => decide (0 ≤ lo) && decide (hi < p.imageLen)), St.overflow),
    (decide (v.base / 2 ^ 48 = self) && decide (v.axes = 0) && ! v.host &&
      (expand || (v.dense && spanOk (fun lo hi => decide (lo % 4096 = 0) &&
        (decide ((hi + 1) % 4096 = 0) || decide (hi + 1 = p.imageLen))))), St.stage)]

/-- One stage of a list: the metadata it leaves, or the status of its failure. -/
def stageStep (dest : Option View) (src : Option View) (self : Nat) (b : Block) (t : TMeta) : Except Status TMeta :=
  let run (f : Option Status) (m : TMeta) : Except Status TMeta := match f with | some st => .error st | none => .ok m
  match b.type with
  | 0x01 => run (match src with | some v => checkCodec true self b.bytes v | none => none) t
  | 0x10 => run (checkCast false b.bytes t) (castMeta b.bytes t)
  | 0x20 => run (checkSlice b.bytes t) (sliceMeta b.bytes t)
  | 0x21 => run (checkTranspose b.bytes t) (transposeMeta b.bytes t)
  | 0x22 => run (checkPad b.bytes t) (padMeta b.bytes t)
  | 0x23 => run (checkBroadcast b.bytes t) (broadcastMeta b.bytes t)
  | 0x24 => run (checkReshuffle b.bytes t) (reshuffleMeta b.bytes t)
  | 0x30 => run (checkCast true b.bytes t) (castMeta b.bytes t)
  | 0x40 => run (match dest with | some v => checkCodec false self b.bytes v | none => none) t
  | _ => .ok t

/-- The stages of a block list whose types lie in a range, in order. -/
def stagesIn (dest src : Option View) (self lo hi : Nat) : List Block → TMeta → Except Status TMeta
  | [], t => .ok t
  | b :: l, t =>
    if lo ≤ b.type ∧ b.type ≤ hi then
      match stageStep dest src self b t with
      | .error st => .error st
      | .ok t' => stagesIn dest src self lo hi l t'
    else stagesIn dest src self lo hi l t

/-- The index path: the index view's rules and the gathered shape (R125, R126, R142). DESIGN CHOICE (log 20): of an index view
with a wrong format and with mesh axes the format decides the status; R126 does not order the two. -/
def gatherStep (e : List Byte) (t : TMeta) : Except Status TMeta :=
  match indexView e with
  | none => .ok t
  | some x =>
    if x.fmt ≠ 0x14 ∧ x.fmt ≠ 0x15 then .error St.format
    else if x.axes ≠ 0 then .error St.stage
    else if entryOpcode e = 0x02 then
      (if isMx t.fmt ∧ ctlDim e = 0 then .error St.format
       else
         let m := gatherMeta x.shape (ctlDim e) t
         if m.ok then .ok m else .error St.overflow)
    else .ok t

/-- The result tensor of a collective (R173). -/
def collectiveMeta (c : CollCtl) (t : TMeta) : TMeta :=
  let n := t.dims.length
  match c.kind with
  | 0 => { t with dims := t.dims ++ [c.size] }
  | 1 => { dims := t.dims.take (n - 1) ++ [t.ext (n - 1) / c.size], fmt := c.outFmt }
  | 2 => { t with fmt := c.outFmt }
  | _ => t

/-- The bytes of a partial in a lane's store (R178). -/
def partialBytes (inFmt outFmt op order : Nat) : Nat :=
  if order = 1 ∧ op = 0 ∧ isFloat inFmt then (if inFmt = 0x21 ∨ inFmt = 0x22 then 36 else 12) else widthOf outFmt / 8

/-- The requirements of R173 and R178. -/
def collectiveNeeds (e : List Byte) (c : CollCtl) (t : TMeta) : Bool :=
  let n := t.dims.length
  (match c.kind with
   | 0 => decide (n ≤ 7)
   | 1 => decide (0 < c.size) && decide (t.ext (n - 1) % c.size = 0)
   | 3 => decide (c.root < c.size)
   | 4 => decide (0 < c.size) && decide (t.ext (n - 1) % c.size = 0)
   | _ => true) &&
  (decide (c.kind ≠ 1 ∧ c.kind ≠ 2) ||
    decide (2 ^ c.chunkLog2 / (t.width / 8) * partialBytes t.fmt c.outFmt c.op (entryOrder e) ≤ 2 ^ 21))

/-- The reduce stage of REDUCE, SCATTER with OP 1 and COLLECTIVE (R131, R156, R164, R173). -/
def reduceStep' (e : List Byte) (t : TMeta) : Except Status TMeta :=
  match entryOpcode e with
  | 0x03 => if entryOp1 e && ! scatterAccOk t.fmt then .error St.format else .ok t
  | 0x04 =>
    if 2 ^ t.dims.length ≤ byteAt e 273 then .error St.stage
    else if reduceFormatsOk t.fmt (byteAt e 274) (entryOrder e) = false then .error St.format
    else if (reduceMeta (byteAt e 273) (byteAt e 274) t).ok = false then .error St.overflow
    else .ok (reduceMeta (byteAt e 273) (byteAt e 274) t)
  | 0x05 =>
    let c := collCtl e
    if (c.kind = 1 ∨ c.kind = 2) ∧ reduceFormatsOk t.fmt c.outFmt (entryOrder e) = false then .error St.format
    else if collectiveNeeds e c t = false then .error St.stage
    else if (collectiveMeta c t).ok = false then .error St.overflow
    else .ok (collectiveMeta c t)
  | _ => .ok t

/-- The metadata that enters the first stage (R123). -/
def firstMeta (e : List Byte) : TMeta :=
  match entryOpcode e with
  | 0x06 =>
    let d := viewAt e 16
    { dims := d.shape, fmt := if byteAt e 152 = 0 then d.fmt else byteAt e 152 }
  | _ => let v := viewAt e 16; { dims := v.shape, fmt := v.fmt }

/-- The stages in pipeline order (R18): expand, gather, cast-in, reduce, the transforms, cast-out, compress. -/
def runStages (e : List Byte) (self : Nat) (bl : List Block) : Except Status TMeta :=
  let go := stagesIn (destView e) (sourceView e) self
  if (firstMeta e).ok = false then .error St.overflow
  else match go 0x01 0x01 bl (firstMeta e) with
  | .error st => .error st
  | .ok t1 => match gatherStep e t1 with
    | .error st => .error st
    | .ok t2 => match go 0x10 0x10 bl t2 with
      | .error st => .error st
      | .ok t3 => match reduceStep' e t3 with
        | .error st => .error st
        | .ok t4 => go 0x20 0x40 bl t4

/-- The formats of the final match (R123). -/
def formatsMatch (a b : Nat) : Bool :=
  decide (a = b) || ((isRaw a || isRaw b) && decide (widthOf a = widthOf b) && ! isPacked a && ! isPacked b &&
    ! isMx a && ! isMx b)

/-- A cast-out to an MX format needs a destination whose dimension 0 is the logical tensor's (R149). -/
def castFits (bl : List Block) (d : View) (t : TMeta) : Bool :=
  ! (isMx d.fmt && bl.any (fun b => decide (b.type = 0x30) && isMx (castTo b.bytes))) || decide ((d.dim 0).extent = t.ext 0)

/-- The final match (R110 last, R123, R130, R149, R360). -/
def finalMatch (e : List Byte) (bl : List Block) (t : TMeta) : Option Status :=
  match entryOpcode e with
  | 0x07 => (match selectView e with
      | some v => firstFail [(decide (v.count = t.count), St.shape)]
      | none => none)
  | 0x03 =>
    let d := viewAt e 272
    firstFail [
      (decide (t.dims = d.shape.take (ctlDim e) ++ (viewAt e 144).shape ++ d.shape.drop (ctlDim e + 1)) && castFits bl d t, St.shape),
      (formatsMatch t.fmt d.fmt, St.format)]
  | _ => match destView e with
    | none => none
    | some d => firstFail [
        (decide (d.count = t.count) && castFits bl d t, St.shape),
        (formatsMatch t.fmt d.fmt, St.format)]

/-! ### Control blocks (order 1 of R124) -/

/-- The control of GATHER and SCATTER (R120, R125, R130). -/
def gatherCtlCheck (e : List Byte) : Option Status :=
  let scatter := decide (entryOpcode e = 0x03)
  let src := viewAt e 16
  let idx := viewAt e 144
  let d := if scatter then viewAt e 272 else src
  let fillOk := if scatter || decide (ctlPolicy e ≠ 3) || isMx src.fmt then decide (ctlFill e = 0)
    else decide (ctlFill e < 2 ^ src.width)
  firstFail [
    (zeroBits e 400 3 5 && zeroBits e 401 2 6 && zeroBits e 402 1 7 && (scatter || zeroBits e 402 0 1) && zeroAt e 403 5 &&
      zeroAt e 416 16 && fillOk, St.reserved),
    (decide (ctlDim e < d.rank) && (scatter || decide (src.rank - 1 + idx.rank ≤ 8)), St.stage)]

/-- The fill control (R120, R153). -/
def fillCtlCheck (e : List Byte) : Option Status :=
  let d := viewAt e 16
  let vf := if byteAt e 152 = 0 then d.fmt else byteAt e 152
  firstFail [
    (zeroAt e 153 7, St.reserved),
    ((fmtWidth vf).isSome && ! isMx vf, St.format),
    (decide (uintAt e 144 8 < 2 ^ widthOf vf), St.reserved)]

/-- The reduce control (R164, R182). -/
def reduceCtlCheck (e : List Byte) : Option Status :=
  firstFail [
    (zeroBits e 272 2 6 && zeroBits e 275 1 7 && zeroAt e 276 12, St.reserved),
    (decide (natField (byteAt e 272) 0 2 ≠ 3), St.stage)]

/-- The digest control (R359, R360). -/
def digestCtlCheck (e : List Byte) : Option Status :=
  firstFail [
    (zeroBits e 144 1 7 && zeroAt e 145 15, St.reserved),
    ((match selectView e with | some v => ! v.host | none => true), St.stage)]

/-- The collective control (R171, R172, R180, R182); `self` is NODE_ID, or `none` before it is written. -/
def collectiveCtlCheck (e : List Byte) (self : Option Nat) : Option Status :=
  let c := collCtl e
  let sv := viewAt e 16
  let rv := viewAt e 144
  let reduces := decide (c.kind = 1 ∨ c.kind = 2)
  let plain (v : View) : Bool := decide (v.axes = 0) && ! v.host && ! v.ownOnly &&
    (match self with | some n => decide (v.base / 2 ^ 48 = n) | none => true)
  firstFail [
    (zeroBits e 272 3 5 && zeroBits e 273 2 6 && zeroBits e 275 4 4 && zeroBits e 282 5 3 && zeroBits e 283 3 5 &&
      zeroBits e 284 4 4 && zeroBits e 285 3 5 && (reduces || (zeroAt e 273 1 && zeroAt e 274 1)) &&
      (decide (c.kind = 3) || (zeroAt e 276 2 && zeroAt e 280 2)) && (c.wire || zeroBits e 283 1 2) &&
      (List.range 4).all (fun a => decide (a < c.axes) || zeroAt e (288 + 4 * a) 4), St.reserved),
    (decide (c.detachUs ≠ 0xFFFF), St.length),
    (decide (c.op ≠ 3) && decide (c.kind ≤ 4) && decide (12 ≤ c.chunkLog2) && decide (c.chunkLog2 ≤ 20), St.stage),
    ((List.range 4).all (fun a => decide (c.axes ≤ a) || decide (c.axisSize.getD a 0 ≠ 0xFFFF)), St.length),
    (decide (c.axes ≠ 0) && meshOk c.axes c.axisSize, St.sharding),
    (decide (c.axesMask ≠ 0) && decide (c.axesMask < 2 ^ c.axes) &&
      (match self with | some n => decide ((c.coordsAt n).length = 1) | none => true), St.group),
    (plain sv && plain rv, St.stage),
    (! c.wire || ((blockOf e 0x01).isNone && (blockOf e 0x40).isNone), St.stage)]

/-- The control block of an opcode. -/
def controlCheck (e : List Byte) (self : Option Nat) : Option Status :=
  match entryOpcode e with
  | 0x02 => gatherCtlCheck e
  | 0x03 => gatherCtlCheck e
  | 0x04 => reduceCtlCheck e
  | 0x05 => collectiveCtlCheck e self
  | 0x06 => fillCtlCheck e
  | 0x07 => digestCtlCheck e
  | _ => none

/-! ### Bodies without views -/

/-- STREAM (R225, R226). -/
def streamCheck (e : List Byte) : Option Status :=
  let n := streamCount e
  let inline := decide (streamList e = 0)
  let bb := streamBlockBytes e
  firstFail [
    (decide (streamList e < 2 ^ 48) && zeroBits e 32 6 1 && (natBit (byteAt e 32) 7 || zeroBits e 32 0 6) && zeroBits e 33 2 6 &&
      zeroAt e 34 46 && (if inline then zeroAt e (80 + 16 * n) (e.length - (80 + 16 * n)) else zeroAt e 80 (e.length - 80)), St.reserved),
    (decide (n ≠ 0xFFFFFFFF) && decide (bb ≠ 0xFFFFFFFF) && (! inline || decide (80 + 16 * n ≤ e.length)), St.length),
    (decide (n ≤ 65536) && decide (0 < bb) && decide (bb ≤ 65536) && (! inline || decide (n ≤ 59)), St.overflow),
    (decide (streamList e % 64 = 0) && decide (bb % 8 = 0), St.align)]

/-- WAIT (R77). -/
def waitCheck (e : List Byte) : Option Status :=
  firstFail [((List.range 24).all (fun i => waitWordOk (uintAt e (16 + 2 * i) 2)), St.reserved)]

/-- FENCE (R78). -/
def fenceCheck (e : List Byte) : Option Status := firstFail [(zeroAt e 16 48, St.reserved)]

/-- STEP_CLOSE (R231). -/
def closeCheck (e : List Byte) : Option Status :=
  let n := closeCount e
  let bs := closeBarriers e
  firstFail [
    (zeroBits e 24 1 7 && zeroAt e 26 38 &&
      (List.range 120).all (fun j => if j < n then zeroAt e (64 + 8 * j + 6) 2 else zeroAt e (64 + 8 * j) 8), St.reserved),
    (decide (n ≠ 0xFF) && decide (n ≤ 8 * (entryUnits e - 1)), St.length),
    ((bs.zip (bs.drop 1)).all (fun p => decide (p.1 < p.2)), St.stage)]

/-! ### The body check (order 7 of R57) -/

/-- The per-view checks of an entry, in the order the views occur (R110). -/
def viewsCheck (e : List Byte) : Option Status := (viewOffsets e).findSome? (viewCheck e)

/-- A moving entry: views, control, block list, stages, final match (R110, R124). -/
def moveCheck (e : List Byte) (self : Option Nat) : Option Status :=
  match viewsCheck e with
  | some st => some st
  | none => match controlCheck e self with
    | some st => some st
    | none => match entryBlocks e with
      | .error st => some st
      | .ok bl => match runStages e (self.getD 0) bl with
        | .error st => some st
        | .ok t => finalMatch e bl t

/-- Check 7 of R57. -/
def bodyCheck (e : List Byte) (self : Option Nat) : Option Status :=
  match entryOpcode e with
  | 0x08 => streamCheck e
  | 0x09 => waitCheck e
  | 0x0A => fenceCheck e
  | 0x0B => closeCheck e
  | 0x07 => if natBit (byteAt e 144) 0 && decide (entryUnits e < 5) then some St.length else moveCheck e self
  | _ => moveCheck e self

/-- NODE_ID where it has been written (R28). -/
def State.nodeSet (s : State) : Option Nat := if s.bit R.nodeId 16 then some s.node else none

/-- Checks 2 to 7 of R57 on a whole entry of a queue; check 1 is the mark's (R64). -/
def entryCheck (s : State) (q : Nat) (e : List Byte) : Option Status :=
  let op := entryOpcode e
  let u := entryUnits e
  firstFail [
    ((opcodeLengths op).isSome, St.opcode),
    ((match opcodeLengths op with | some (a, b) => decide (a ≤ u) && decide (u ≤ b) | none => false), St.length),
    (headerReservedOk e, St.reserved),
    (s.bit (R.cqCfg (entryRing e)) 31, St.ring),
    (decide (s.fld (R.cqCfg (entryRing e)) 0 12 = s.fld (R.sqCfg q) 0 12), St.context)] |>.or (bodyCheck e s.nodeSet)

/-! ### Check 8: event ownership (R76) -/

/-- The event words of an entry that name a flag. -/
def entryEvents (e : List Byte) : List Nat :=
  let body := if entryOpcode e = 0x09 then (List.range 24).map (fun i => eventWord (uintAt e (16 + 2 * i) 2)) else []
  ((entryWait e :: entrySet e :: body).filter EventWord.en).map EventWord.event

/-- Does a context own every flag an entry names (R76)? -/
def State.ownsEvents (s : State) (ctx : Nat) (e : List Byte) : Bool :=
  decide (ctx = 0) || (entryEvents e).all (fun f => decide (s.fld (R.eventCtx f) 0 12 = ctx))

/-! ### Check 9: the host footprint (R236) -/

/-- The piece a host view names. -/
def viewPiece (v : View) (r w : Bool) : List HostPiece :=
  if v.host then match v.span with
    | none => []
    | some (lo, hi) => [⟨lo.toNat, (hi - lo + 1).toNat, r, w⟩]
  else []

/-- The host pieces of an entry with its block list. A destination that is combined with its prior value is read too
(DEDUCED, log 20). -/
def hostPieces (e : List Byte) (blocks : List (Nat × Nat)) : List HostPiece :=
  if entryOpcode e = 0x08 then
    blocks.flatMap (fun b => (if streamSrcHost e then [⟨b.1, streamBlockBytes e, true, false⟩] else []) ++
      (if streamDstHost e then [⟨b.2, streamBlockBytes e, false, true⟩] else []))
  else
    let rmw := entryOp1 e || entryAcc e
    (match sourceView e with | some v => viewPiece v true false | none => []) ++
    (match indexView e with | some v => viewPiece v true false | none => []) ++
    (match destView e with | some v => viewPiece v rmw true | none => [])

/-! ### Check 10: the local map (R29, R109) -/

/-- The length-list and granule spans of the ingots a view touches (R195, R212). -/
def codecSpans (p : CodecParams) (v : View) : List (Nat × Nat) :=
  match v.span with
  | none => []
  | some (lo, hi) =>
    let a := lo.toNat / 4096
    let b := hi.toNat / 4096
    [(p.listBase + 16 * a, 16 * (b - a + 1)), (p.dataBase + 4096 * a, 4096 * (b - a + 1))]

/-- The local spans a view touches: its own, or its stream's (R195, R199, R212). -/
def viewSpans (c : Option CodecParams) (v : View) : List (Nat × Nat) :=
  if v.host then []
  else match c with
    | some p => codecSpans p v
    | none => match v.span with
      | none => []
      | some (lo, hi) => [(lo.toNat, (hi - lo + 1).toNat)]

/-- The local spans of an entry, whatever node they lie on. -/
def entrySpans (e : List Byte) (blocks : List (Nat × Nat)) : List (Nat × Nat) :=
  if entryOpcode e = 0x08 then
    blocks.flatMap (fun b => (if streamSrcHost e then [] else [(b.1 % 2 ^ 48, streamBlockBytes e)]) ++
      (if streamDstHost e then [] else [(b.2 % 2 ^ 48, streamBlockBytes e)]))
  else
    (match sourceView e with | some v => viewSpans (entryExpand e) v | none => []) ++
    (match indexView e with | some v => viewSpans none v | none => []) ++
    (match destView e with | some v => viewSpans (entryCompress e) v | none => [])

/-- Does an entry name a node before NODE_ID is written (R28, R117, R172)? A DIGEST's select view names one as any view
does; only the map check passes it over (R360). -/
def namesNode (e : List Byte) (blocks : List (Nat × Nat)) : Bool :=
  match entryOpcode e with
  | 0x05 => true
  | 0x08 => blocks.any (fun b => (! streamSrcHost e && decide (2 ^ 48 ≤ b.1)) || (! streamDstHost e && decide (2 ^ 48 ≤ b.2)))
  | _ =>
    let names (v : View) : Bool := ! v.host && (decide (v.axes ≠ 0) || decide (2 ^ 48 ≤ v.base))
    (match sourceView e with | some v => names v | none => false) ||
    (match selectView e with | some v => names v | none => false) ||
    (match indexView e with | some v => names v | none => false) ||
    (match destView e with | some v => names v | none => false)

/-- Check 10 (R29, R109), with the node rule of R28 before it (DEDUCED, log 20). DESIGN CHOICE (log 20): a view span or a stream
block in the range of the host apertures or of the registers, where R109 lets none lie, fails as one outside the map does; no
rule gives its status. -/
def mapCheck (s : State) (e : List Byte) (blocks : List (Nat × Nat)) : Option Status :=
  firstFail [
    (s.nodeSet.isSome || ! namesNode e blocks, St.window),
    ((entrySpans e blocks).all (fun p => inMemory p.1 p.2), St.unmapped)]

end Sys2Proof.Machine
end

