-- ==== Sys2Proof/Machine/Crc.lean ====
section
/-!
DEFINITION. CRC-32C (R186) and the CRC-64 of the digest (R357), both reflected.
-/
namespace Sys2Proof.Machine

/-- One bit of a reflected CRC of `w` bits with polynomial `poly`. -/
def crcBit {w : Nat} (poly c : BitVec w) : BitVec w := if c.getLsbD 0 then (c >>> 1) ^^^ poly else c >>> 1

/-- `n` bits. -/
def crcBits {w : Nat} (poly : BitVec w) : Nat → BitVec w → BitVec w
  | 0, c => c
  | n + 1, c => crcBits poly n (crcBit poly c)

/-- The register after a byte string. -/
def crcBytes {w : Nat} (poly : BitVec w) : List Byte → BitVec w → BitVec w
  | [], c => c
  | b :: t, c => crcBytes poly t (crcBits poly 8 (c ^^^ b.setWidth w))

/-- CRC-32C (R186). -/
def crc32c (bs : List Byte) : Word := crcBytes 0x82F63B78#32 bs 0xFFFFFFFF#32 ^^^ 0xFFFFFFFF#32

/-- CRC-64, ECMA-182, reflected (R357). -/
def crc64 (bs : List Byte) : DWord :=
  crcBytes 0xC96C5795D7870F42#64 bs 0xFFFFFFFFFFFFFFFF#64 ^^^ 0xFFFFFFFFFFFFFFFF#64

end Sys2Proof.Machine
end

