-- ==== Sys2Proof/Machine/Codec.lean ====
section
/-!
DEFINITION. The Pewter codec: decode tables (R190, R191), ingot headers (R185), the encodings (R187 to R189), building an
ingot (R196, R197) and expanding one (R200, R201).
-/
namespace Sys2Proof.Machine

/-- x rounded up to a multiple of 8 (R188). -/
def pad8 (x : Nat) : Nat := roundUp x 8

/-! ### Decode tables -/

/-- The code length of a symbol in a table image (R190). -/
def imageLenOf (img : List Byte) (s : Nat) : Nat := natField (byteAt img (8 + s / 2)) (4 * (s % 2)) 4

/-- The code lengths of an image, by symbol. -/
def imageLens (img : List Byte) : List Nat := (List.range 256).map (imageLenOf img)

/-- The Kraft sum of code lengths, in units of 2^−15. -/
def kraft (lens : List Nat) : Nat := (lens.map (fun l => if l = 0 then 0 else 2 ^ (15 - l))).sum

/-- A valid table image (R190). -/
def imageValid (img : List Byte) : Bool :=
  decide (byteAt img 0 = 1) && zeroAt img 1 7 && zeroAt img 140 4 &&
    decide (uintAt img 136 4 = (crc32c (img.take 136)).toNat) &&
    (imageLens img).any (fun l => decide (l ≠ 0)) && decide (kraft (imageLens img) ≤ 2 ^ 15)

/-- The first canonical code of each length 1 to 15, by length (R191). -/
def firstCodes (lens : List Nat) : List Nat :=
  let count (l : Nat) : Nat := if l = 0 then 0 else (lens.filter (fun x => decide (x = l))).length
  ((List.range 15).foldl (fun (acc : List Nat × Nat) i =>
    let code := (acc.2 + count i) * 2
    (acc.1 ++ [code], code)) ([0], 0)).1

/-- The canonical code of a symbol: its length and its value; `none` where the symbol has no code (R191). -/
def codeOf (lens : List Nat) (s : Nat) : Option (Nat × Nat) :=
  let l := lens.getD s 0
  if l = 0 then none
  else some (l, (firstCodes lens).getD l 0 + ((lens.take s).filter (fun x => decide (x = l))).length)

/-- The symbol of a code of length `l` and value `v`. -/
def symbolOf (lens : List Nat) (l v : Nat) : Option Nat :=
  (List.range 256).find? (fun s => decide (codeOf lens s = some (l, v)))

/-! ### Bit strings (R189) -/

/-- The bits of a byte string, the least significant bit of byte 0 first. -/
def bitsOf (bs : List Byte) : List Bool := bs.flatMap (fun b => (List.range 8).map (fun i => b.getLsbD i))

/-- Bits packed into bytes, padded with zero bits to a whole byte. -/
def packBits (bits : List Bool) : List Byte :=
  (List.range (ceilDiv bits.length 8)).map (fun i =>
    BitVec.ofNat 8 ((List.range 8).foldl (fun acc j => acc + if bits.getD (8 * i + j) false then 2 ^ j else 0) 0))

/-- The `n` low bits of a number, least significant first. -/
def lowBits (n v : Nat) : List Bool := (List.range n).map (fun i => v.testBit i)

/-- The number a bit string spells, least significant first. -/
def bitsNat : List Bool → Nat
  | [] => 0
  | b :: t => boolBit b + 2 * bitsNat t

/-- A section: bits padded with zero bits to a multiple of 8 bytes (R188). -/
def section8 (bits : List Bool) : List Byte :=
  let bs := packBits bits
  bs ++ List.replicate (pad8 bs.length - bs.length) 0

/-! ### Words and symbols (R187) -/

/-- The words of a block. -/
def blockWords (wb : Nat) (bs : List Byte) : List Nat :=
  (List.range (bs.length / wb)).map (fun j => leNat ((bs.drop (wb * j)).take wb))

/-- The symbol of a word. -/
def symbolField (p w : Nat) : Nat := w / 2 ^ p % 256

/-- The rest of a word. -/
def restField (p w : Nat) : Nat := w % 2 ^ p + w / 2 ^ (p + 8) * 2 ^ p

/-- A word from its symbol and its rest. -/
def joinWord (p s r : Nat) : Nat := r % 2 ^ p + s * 2 ^ p + r / 2 ^ p * 2 ^ (p + 8)

/-- The bits of a symbol's code, its most significant bit first (R189, R191). -/
def codeBits (lens : List Nat) (s : Nat) : List Bool :=
  match codeOf lens s with
  | none => []
  | some (l, v) => (List.range l).map (fun i => v.testBit (l - 1 - i))

/-! ### Building an ingot -/

/-- The payload of a candidate encoding; `none` where it is not eligible (R188, R196). -/
def payloadOf (enc width p : Nat) (lens : List Nat) (bs : List Byte) : Option (List Byte) :=
  let wb := wordBytes width
  let ws := blockWords wb bs
  let nz := ws.filter (fun w => decide (w ≠ 0))
  let rw := 8 * wb - 8
  let coded (l : List Nat) : Bool := l.all (fun w => (codeOf lens (symbolField p w)).isSome)
  match enc with
  | 0 => some bs
  | 1 => if bs.all (fun b => decide (b = 0)) then some [] else none
  | 2 => some (section8 (ws.map (fun w => decide (w ≠ 0))) ++ section8 (nz.flatMap (lowBits (8 * wb))))
  | 3 => if coded ws then
      some (section8 (ws.flatMap (fun w => lowBits rw (restField p w))) ++ section8 (ws.flatMap (fun w => codeBits lens (symbolField p w))))
    else none
  | 4 => if coded nz then
      some (section8 (ws.map (fun w => decide (w ≠ 0))) ++ section8 (nz.flatMap (fun w => lowBits rw (restField p w))) ++
        section8 (nz.flatMap (fun w => codeBits lens (symbolField p w))))
    else none
  | _ => none

/-- The encoding the compressor chooses, with its payload (R196). -/
def chooseEncoding (c : CodecParams) (lens : List Nat) (bs : List Byte) : Nat × List Byte :=
  let cands := (List.range 4).filterMap (fun i =>
    if natBit c.encMask i then (payloadOf (i + 1) c.width c.expPos lens bs).map (fun p => (i + 1, p)) else none)
  match cands with
  | [] => (0, bs)
  | x :: t =>
    let best := t.foldl (fun a b => if b.2.length < a.2.length then b else a) x
    if 15 * bs.length < 16 * best.2.length then (0, bs) else best

/-- The first twelve bytes of an ingot header (R185). -/
def headerBody (enc width slot expPos gen ulen : Nat) (payload : List Byte) : List Byte :=
  leBytes 1 (enc + (if 2 ≤ enc then width else 0) * 8) ++ leBytes 1 ((if 3 ≤ enc then expPos else 0) + slot * 64) ++
    leBytes 2 gen ++ leBytes 2 (ulen / 8 - 1) ++ leBytes 2 (payload.length / 8) ++ leBytes 4 (crc32c payload).toNat

/-- The header and the payload of the ingot of a block (R196): a fixed function of the block, the COMPRESS block, the
slot's table and its generation. -/
def buildIngot (c : CodecParams) (lens : List Nat) (gen : Nat) (bs : List Byte) : List Byte × List Byte :=
  let (enc, payload) := chooseEncoding c lens bs
  let h := headerBody enc c.width c.slot c.expPos gen bs.length payload
  (h ++ leBytes 4 (crc32c h).toNat, payload)

/-! ### Expanding an ingot -/

def hdrEnc (h : List Byte) : Nat := natField (byteAt h 0) 0 3
def hdrWidth (h : List Byte) : Nat := natField (byteAt h 0) 3 2
def hdrExpPos (h : List Byte) : Nat := natField (byteAt h 1) 0 5
def hdrSlot (h : List Byte) : Nat := natField (byteAt h 1) 6 2
def hdrGen (h : List Byte) : Nat := uintAt h 2 2
def hdrUlen (h : List Byte) : Nat := (natField (uintAt h 4 2) 0 9 + 1) * 8
def hdrSlen (h : List Byte) : Nat := natField (uintAt h 6 2) 0 10 * 8

/-- Checks 1 to 3 of R200 on a header: `ulen` is the length the stream gives the ingot. -/
def headerCheck (h : List Byte) (ulen slot gen : Nat) : Option Status :=
  let enc := hdrEnc h
  let wb := wordBytes (hdrWidth h)
  firstFail [
    (decide (uintAt h 12 4 = (crc32c (h.take 12)).toNat), St.headerCrc),
    (zeroBits h 0 5 3 && zeroBits h 1 5 1 && decide (natField (uintAt h 4 2) 9 7 = 0) && decide (natField (uintAt h 6 2) 10 6 = 0) &&
      decide (enc ≤ 4) && decide (hdrWidth h ≠ 3) && (decide (2 ≤ enc) || decide (hdrWidth h = 0)) &&
      (if 3 ≤ enc then decide (hdrExpPos h + 8 ≤ 8 * wb) else decide (hdrExpPos h = 0)) &&
      decide (hdrSlen h ≤ 4096) && decide (hdrUlen h = ulen), St.headerValue),
    (decide (hdrSlot h = slot) && decide (hdrGen h = gen), St.tableGeneration)]

/-- One symbol from a bit string: the symbol and the bits left; `none` where no code matches within 15 bits or the
string ends. -/
def takeSymbol (lens : List Nat) : Nat → Nat → Nat → List Bool → Option (Nat × List Bool)
  | 0, _, _, _ => none
  | fuel + 1, l, v, bits =>
    match bits with
    | [] => none
    | b :: t =>
      match symbolOf lens (l + 1) (2 * v + boolBit b) with
      | some s => some (s, t)
      | none => takeSymbol lens fuel (l + 1) (2 * v + boolBit b) t

/-- `n` symbols. -/
def takeSymbols (lens : List Nat) : Nat → List Bool → Option (List Nat × List Bool)
  | 0, bits => some ([], bits)
  | n + 1, bits =>
    match takeSymbol lens 15 0 0 bits with
    | none => none
    | some (s, t) => (takeSymbols lens n t).map (fun r => (s :: r.1, r.2))

/-- A section of `n` bits at a payload offset: its bits, its padding bits and the offset of the next; `none` where the
payload ends before it (R188, R201). -/
def takeSection (payload : List Byte) (o n : Nat) : Option (List Bool × List Bool × Nat) :=
  if payload.length < o + ceilDiv n 8 then none
  else
    let e := o + pad8 (ceilDiv n 8)
    let bits := bitsOf ((payload.drop o).take (e - o))
    some (bits.take n, bits.drop n, e)

/-- Words put back among zero words by a bitmap. -/
def spread : List Bool → List Nat → List Nat
  | [], _ => []
  | false :: t, ws => 0 :: spread t ws
  | true :: t, w :: ws => w :: spread t ws
  | true :: t, [] => 0 :: spread t []

/-- A fixed number of fields of `w` bits from a bit string. -/
def fieldsOf (w n : Nat) (bits : List Bool) : List Nat :=
  (List.range n).map (fun j => bitsNat ((bits.drop (w * j)).take w))

/-- The end of a decode: nonzero padding or bytes beyond the last section are an overrun (R201). -/
def finishDecode (payload : List Byte) (e : Nat) (pads : List Bool) (out : List Byte) : Except Status (List Byte) :=
  if pads.any (fun b => b) || decide (e < payload.length) then .error St.overrun else .ok out

/-- A payload decoded to the bytes of its block (R200 order 5, R201). -/
def decodePayload (h : List Byte) (lens : List Nat) (ulen : Nat) (payload : List Byte) : Except Status (List Byte) :=
  let wb := wordBytes (hdrWidth h)
  let n := ulen / wb
  let p := hdrExpPos h
  let rw := 8 * wb - 8
  let words (ws : List Nat) : List Byte := ws.flatMap (leBytes wb)
  match hdrEnc h with
  | 0 => if ulen < payload.length then .error St.overrun else if payload.length < ulen then .error St.underrun else .ok payload
  | 1 => if payload.length = 0 then .ok (List.replicate ulen 0) else .error St.overrun
  | 2 =>
    match takeSection payload 0 n with
    | none => .error St.underrun
    | some (map, pad1, o1) =>
      let m := (map.filter (fun b => b)).length
      match takeSection payload o1 (8 * wb * m) with
      | none => .error St.underrun
      | some (vals, pad2, o2) => finishDecode payload o2 (pad1 ++ pad2) (words (spread map (fieldsOf (8 * wb) m vals)))
  | 3 =>
    match takeSection payload 0 (n * rw) with
    | none => .error St.underrun
    | some (rests, pad1, o1) =>
      let bits := bitsOf (payload.drop o1)
      match takeSymbols lens n bits with
      | none => .error St.underrun
      | some (syms, left) =>
        let used := bits.length - left.length
        let e := o1 + pad8 (ceilDiv used 8)
        finishDecode payload e (pad1 ++ left.take (8 * (e - o1) - used))
          (words (((fieldsOf rw n rests).zip syms).map (fun q => joinWord p q.2 q.1)))
  | _ =>
    match takeSection payload 0 n with
    | none => .error St.underrun
    | some (map, pad1, o1) =>
      let m := (map.filter (fun b => b)).length
      match takeSection payload o1 (m * rw) with
      | none => .error St.underrun
      | some (rests, pad2, o2) =>
        let bits := bitsOf (payload.drop o2)
        match takeSymbols lens m bits with
        | none => .error St.underrun
        | some (syms, left) =>
          let used := bits.length - left.length
          let e := o2 + pad8 (ceilDiv used 8)
          finishDecode payload e (pad1 ++ pad2 ++ left.take (8 * (e - o2) - used))
            (words (spread map (((fieldsOf rw m rests).zip syms).map (fun q => joinWord p q.2 q.1))))

/-- Checks 4 and 5 of R200: the payload's CRC, then its decode. -/
def expandPayload (h : List Byte) (lens : List Nat) (ulen : Nat) (payload : List Byte) : Except Status (List Byte) :=
  if uintAt h 8 4 = (crc32c payload).toNat then decodePayload h lens ulen payload else .error St.payloadCrc

end Sys2Proof.Machine
end

