-- ==== Sys2Proof/Machine/Tensor.lean ====
section
/-!
DEFINITION. Logical tensors and the stages that act on them (R18, R123 to R165): gather, cast-in, reduce, slice,
transpose, pad, broadcast, reshuffle and cast-out, as functions of what the execute side has consumed so far. An MX
element's value is its scale byte above its code.
-/
namespace Sys2Proof.Machine

/-- A logical tensor (R123): its shape and format; the value of each element, none while bytes it is formed from have
not been consumed; whether OWN_ONLY of the source keeps it (R115, R414); the elements of the read stage it is formed
from. -/
structure LTensor where
  dims : List Nat
  fmt : Nat
  val : Nat → Option Nat
  keep : Nat → Bool
  deps : Nat → List Nat

/-- The elements of a tensor. -/
def LTensor.count (t : LTensor) : Nat := prodOf t.dims

/-- The extent of a dimension. -/
def LTensor.ext (t : LTensor) (d : Nat) : Nat := t.dims.getD d 0

/-- A tensor whose elements are those of another, each at a position a map names; where the map names none, the element
is generated with a fixed value and kept on every chip (R128, R137; log 20). -/
def LTensor.remap (t : LTensor) (dims : List Nat) (f : Nat → Option Nat) (gen : Nat) : LTensor :=
  { dims := dims, fmt := t.fmt,
    val := fun k => match f k with | some j => t.val j | none => some gen,
    keep := fun k => match f k with | some j => t.keep j | none => true,
    deps := fun k => match f k with | some j => t.deps j | none => [] }

/-! ### Values in bytes -/

/-- The number in `w` bits from bit `b` of the bytes at `a`; none while one of the bytes is not there. -/
def readBits (f : Nat → Option Byte) (a b w : Nat) : Option Nat :=
  let bs := (List.range (ceilDiv (b + w) 8)).map (fun i => f (a + i))
  if bs.all Option.isSome then some (leNat (bs.map (fun x => x.getD 0)) / 2 ^ b % 2 ^ w) else none

/-- The value of element `k` of a view, stored on a node. -/
def View.elem (v : View) (f : Nat → Option Byte) (node k : Nat) : Option Nat :=
  let p := v.bitsAt node k
  if isMx v.fmt then
    match f (v.scaleAt node k), readBits f p.1 p.2.1 p.2.2 with
    | some s, some x => some (s.toNat * 256 + x)
    | _, _ => none
  else readBits f p.1 p.2.1 p.2.2

/-- Keys of the bytes a task has consumed: source bytes by address, host addresses above 2^64. -/
def dataKey (host : Bool) (a : Nat) : Nat := if host then 2 ^ 64 + a else a
/-- Bytes of an expanded stream image, by image offset. -/
def imageKey (o : Nat) : Nat := 2 ^ 66 + o
/-- Prior values of the destination (R131, R165). -/
def priorKey (host : Bool) (a : Nat) : Nat := if host then 2 ^ 68 + a else 2 ^ 67 + a
/-- Bytes of an index tensor (R125). -/
def indexKey (host : Bool) (a : Nat) : Nat := if host then 2 ^ 69 + 2 ^ 64 + a else 2 ^ 69 + a

/-- A byte a task has consumed. -/
def Task.got (t : Task) (key : Nat) : Option Byte := sget (fun _ => none) t.consumed key

/-! ### Rounding of a cast block -/

/-- How element `k` of a cast rounds (R143, R151). -/
def castRounding (b : List Byte) (side k : Nat) : Rounding :=
  match castRound b with
  | 1 => .zero
  | 2 => .stochastic (stochasticBits (castSeed b) side k)
  | _ => .nearest

/-- The elements of the block of 32 that element `k` belongs to (R149). -/
def mxMembers (count k : Nat) : List Nat := (List.range 32).map (fun i => k / 32 * 32 + i) |>.filter (fun j => decide (j < count))

/-- A cast (R143 to R152). A cast to the tensor's own format passes the bits; one to an MX format forms blocks. -/
def castStage (b : List Byte) (side : Nat) (t : LTensor) : LTensor :=
  let dst := castTo b
  if t.fmt = dst then t
  else if isMx dst then
    { dims := t.dims, fmt := dst,
      val := fun k =>
        let ms := mxMembers t.count k
        let vs := ms.map t.val
        if vs.all Option.isSome then
          let r := mxBlock dst (fun i => castRounding b side (k / 32 * 32 + i)) (vs.map (fun x => valueOf t.fmt (x.getD 0)))
          some (r.1 * 256 + r.2.getD (k % 32) 0)
        else none,
      keep := fun k => t.keep (k / 32 * 32),
      deps := fun k => (mxMembers t.count k).flatMap t.deps }
  else
    { t with fmt := dst, val := fun k => (t.val k).map (castElem t.fmt dst (castRounding b side k) (castSat b)) }

/-! ### The transform stages -/

/-- SLICE (R133). -/
def sliceStage (b : List Byte) (t : LTensor) : LTensor :=
  let dims := (sliceMeta b ⟨t.dims, t.fmt⟩).dims
  t.remap dims (fun k => some (ravel t.dims ((List.range t.dims.length).map (fun d =>
    let j := (unravel dims k).getD d 0
    if natBit (sliceMask b) d then ((sliceStart b d : Int) + (j : Int) * sliceStep b d).toNat else j)))) 0

/-- TRANSPOSE (R135). -/
def transposeStage (b : List Byte) (t : LTensor) : LTensor :=
  let n := t.dims.length
  let dims := (transposeMeta b ⟨t.dims, t.fmt⟩).dims
  t.remap dims (fun k =>
    let j := unravel dims k
    some (ravel t.dims ((List.range n).map (fun i =>
      j.getD (((List.range n).find? (fun d => decide (permOf b d = i))).getD 0) 0)))) 0

/-- The value of a generated element: an MX one has scale 0x7F and the code of +0 (R142). -/
def generated (fmt value : Nat) : Nat := if isMx fmt then 0x7F * 256 else value

/-- PAD (R137). -/
def padStage (b : List Byte) (t : LTensor) : LTensor :=
  let dims := (padMeta b ⟨t.dims, t.fmt⟩).dims
  t.remap dims (fun k =>
    let j := unravel dims k
    if (List.range t.dims.length).all (fun d => decide (padLow b d ≤ j.getD d 0) && decide (j.getD d 0 < padLow b d + t.ext d)) then
      some (ravel t.dims ((List.range t.dims.length).map (fun d => j.getD d 0 - padLow b d)))
    else none) (generated t.fmt (padValue b))

/-- BROADCAST (R138). -/
def broadcastStage (b : List Byte) (t : LTensor) : LTensor :=
  let dims := (List.range (bcRank b)).map (bcExtent b)
  t.remap dims (fun k =>
    let j := unravel dims k
    some (ravel t.dims ((List.range t.dims.length).map (fun i =>
      match (List.range (bcRank b)).find? (fun d => ! bcNew b d && decide (bcDim b d = i)) with
      | some d => if 1 < t.ext i then j.getD d 0 else 0
      | none => 0)))) 0

/-- INTERLEAVE (R141): the input element that the output position `p` of a group of `g` elements holds; `f` is F. -/
def interleaveFrom (g f p : Nat) : Nat := p % f * (g / f) + p / f

/-- RESHUFFLE (R139 to R141). -/
def reshuffleStage (b : List Byte) (t : LTensor) : LTensor :=
  let e := t.ext 0
  if rsMode b = 1 then
    let w := widthOf t.fmt
    let dims := (reshuffleMeta b ⟨t.dims, t.fmt⟩).dims
    let members (k : Nat) : List Nat :=
      let row := k / (e / 64 * w)
      let word := k % (e / 64 * w)
      (List.range 64).map (fun j => row * e + word / w * 64 + j)
    { dims := dims, fmt := 0x04,
      val := fun k =>
        let vs := (members k).map t.val
        if vs.all Option.isSome then
          some (bitsOfList 64 (fun j => natBit ((vs.getD j none).getD 0) (k % (e / 64 * w) % w)))
        else none,
      keep := fun k => match members k with | [] => false | j :: _ => t.keep j,
      deps := fun k => (members k).flatMap t.deps }
  else
    let g := 2 ^ rsGroup b
    let f := 2 ^ rsFactor b
    t.remap t.dims (fun k => some (k / e * e + k % e / g * g + interleaveFrom g f (k % e % g))) 0

/-! ### Combining values (R158 to R162) -/

/-- The operation a control byte names (R156). -/
def reduceOpOf : Nat → ReduceOp
  | 1 => .max
  | 2 => .min
  | _ => .sum

/-- A term as it takes part: a NaN term of a MAX or a MIN makes the result the canonical NaN, be it the only one (R158). -/
def canonTerm (op : ReduceOp) (fmt v : Nat) : Nat :=
  match op, floatFmt fmt with
  | .sum, _ => v
  | _, some f => if valueOf fmt v = .nan then f.nan else v
  | _, none => v

/-- The terms of a reduction, converted to the result format. -/
def convTerms (op : ReduceOp) (inFmt outFmt : Nat) (ts : List Nat) : List Nat :=
  ts.map (fun v => canonTerm op outFmt (castElem inFmt outFmt .nearest false v))

/-- One partial, or none where it is absent (R161). -/
def combineOpt (op : ReduceOp) (fmt : Nat) : Option Nat → Option Nat → Option Nat
  | some a, some b => some (reduceStep op fmt a b)
  | some a, none => some a
  | none, b => b

/-- A list folded left to right; none for an empty one. -/
def foldTerms (op : ReduceOp) (fmt : Nat) : List Nat → Option Nat
  | [] => none
  | x :: t => some (t.foldl (reduceStep op fmt) x)

/-- One level of the tree: neighbours combined in pairs. -/
def treeLevel (op : ReduceOp) (fmt : Nat) : List (Option Nat) → List (Option Nat)
  | a :: b :: t => combineOpt op fmt a b :: treeLevel op fmt t
  | l => l

/-- The value of terms in Constantan mode within a task: 64 partials, then the fixed tree (R161). -/
def constantanTree (op : ReduceOp) (fmt : Nat) (ts : List Nat) : Option Nat :=
  let partials := (List.range 64).map (fun p =>
    foldTerms op fmt ((List.range ((ts.length + 63 - p) / 64)).map (fun i => ts.getD (64 * i + p) 0)))
  let up := treeLevel op fmt
  match up (up (up (up (up (up partials))))) with
  | x :: _ => x
  | [] => none

/-- Arrival mode (R162): the free choice of which two values combine next, until one is left. -/
def arrivalFold (op : ReduceOp) (fmt n x : Nat) : Nat → Nat → List Nat → Option Nat
  | 0, _, l => l.head?
  | fuel + 1, i, l =>
    match l with
    | [] => none
    | [v] => some v
    | _ =>
      let p := Config.arrivalPick n x i
      let a := p.1 % l.length
      let rest := l.eraseIdx a
      let b := p.2 % rest.length
      arrivalFold op fmt n x fuel (i + 1) (reduceStep op fmt (l.getD a 0) (rest.getD b 0) :: rest.eraseIdx b)

/-- The lowest weight of an exact accumulator (R160). -/
def accumulatorWeight (wide : Bool) : Int := if wide then -149 else -24

/-- A finite value in units of an accumulator's lowest weight. -/
def accumulatorUnits (wide : Bool) : FVal → Int
  | .fin neg m e =>
    let q := accumulatorWeight wide
    let u : Nat := if q ≤ e then m * 2 ^ (e - q).toNat else m / 2 ^ (q - e).toNat
    if neg then -(u : Int) else u
  | _ => 0

/-- Exact floating SUM (R160): an accumulator of 96 or 288 bits that wraps, and its flags. -/
def exactSum (wide : Bool) (outFmt : Nat) (vs : List FVal) : Nat :=
  match floatFmt outFmt with
  | none => 0
  | some f =>
    let pos := vs.any (fun v => decide (v = .inf false))
    let neg := vs.any (fun v => decide (v = .inf true))
    if vs.any (fun v => decide (v = .nan)) || (pos && neg) then f.nan
    else if pos || neg then f.encode .nearest false (.inf neg)
    else
      let acc := signedOf (if wide then 288 else 96) (intCode (if wide then 288 else 96) (vs.map (accumulatorUnits wide)).sum)
      if acc = 0 then
        f.signed (vs.all (fun v => match v with | .fin true 0 _ => true | _ => false)) 0
      else f.encode .nearest false (.fin (decide (acc < 0)) acc.natAbs (accumulatorWeight wide))

/-- Formats whose exact sums need the 288-bit accumulator (R160). -/
def wideFormat (f : Nat) : Bool := decide (f = 0x21 ∨ f = 0x22)

/-- The value of a reduction within one task (R158 to R162): its terms in their input format, the prior value in the
result format where one takes part; `n` and `x` name the free order of arrival mode. -/
def reduceValue (op : ReduceOp) (inFmt outFmt order : Nat) (prior : Option Nat) (ts : List Nat) (n x : Nat) : Nat :=
  let conv := convTerms op inFmt outFmt ts
  if order = 1 ∧ op = .sum ∧ isFloat inFmt then
    let terms := ts.map (valueOf inFmt) ++ (match prior with | some p => [valueOf outFmt p] | none => [])
    if ts = [] then prior.getD (reduceEmpty op outFmt)
    else exactSum (wideFormat inFmt || (prior.isSome && wideFormat outFmt)) outFmt terms
  else if order = 2 then
    let l := (match prior with | some p => [p] | none => []) ++ conv
    (arrivalFold op outFmt n x l.length 0 l).getD (reduceEmpty op outFmt)
  else
    match constantanTree op outFmt conv with
    | none => prior.getD (reduceEmpty op outFmt)
    | some v => match prior with
      | some p => reduceStep op outFmt p v
      | none => v

/-- The value of one element of a SCATTER with OP 1 (R131, R161): a left fold from the prior value in Constantan mode. -/
def scatterValue (fmt order prior : Nat) (ts : List Nat) (n x : Nat) : Nat :=
  if order = 0 then ts.foldl (reduceStep .sum fmt) prior
  else reduceValue .sum fmt fmt order (some prior) ts n x

/-- The contributions of a collective combined in rank order (R161). -/
def rankValue (op : ReduceOp) (inFmt outFmt order : Nat) (ts : List Nat) (n x : Nat) : Nat :=
  if order = 0 then (foldTerms op outFmt (convTerms op inFmt outFmt ts)).getD (reduceEmpty op outFmt)
  else reduceValue op inFmt outFmt order none ts n x

/-! ### REDUCE (R164) -/

/-- The terms of result element `x`, as elements of the tensor that enters the stage, in term order. -/
def termsOf (dims : List Nat) (rmask x : Nat) : List Nat :=
  let ds := List.range dims.length
  let red := ds.filter (fun d => natBit rmask d)
  let kept := ds.filter (fun d => ! natBit rmask d)
  let redExt := red.map (fun d => dims.getD d 0)
  let xs := unravel (kept.map (fun d => dims.getD d 0)) x
  (List.range (prodOf redExt)).map (fun i =>
    let rs := unravel redExt i
    ravel dims (ds.map (fun d =>
      if natBit rmask d then rs.getD (red.findIdx (fun e => decide (e = d))) 0
      else xs.getD (kept.findIdx (fun e => decide (e = d))) 0)))

/-- The reduce stage of REDUCE. `prior x` is the prior value of result element `x` in the result format: `some none`
while it has not been read; `emptyKeep` keeps a result element with no terms (R414). -/
def reduceStage (op : ReduceOp) (rmask outFmt order n : Nat) (prior : Nat → Option (Option Nat)) (emptyKeep : Bool)
    (t : LTensor) : LTensor :=
  { dims := (reduceMeta rmask outFmt ⟨t.dims, t.fmt⟩).dims, fmt := outFmt,
    val := fun x =>
      let vs := (termsOf t.dims rmask x).map t.val
      if vs.all Option.isSome then
        match prior x with
        | none => some (reduceValue op t.fmt outFmt order none (vs.map (fun v => v.getD 0)) n x)
        | some none => none
        | some (some p) => some (reduceValue op t.fmt outFmt order (some p) (vs.map (fun v => v.getD 0)) n x)
      else none,
    keep := fun x => match termsOf t.dims rmask x with | [] => emptyKeep | j :: _ => t.keep j,
    deps := fun x => (termsOf t.dims rmask x).flatMap t.deps }

end Sys2Proof.Machine
end

