-- ==== Sys2Proof/Machine/Pipe.lean ====
section
/-!
DEFINITION. The pipeline of one task (R15, R18): its read plan (R102, R200, R204, R227), the logical tensor it leaves,
what it writes (R96, R97, R105, R114), and its digest (R358). Everything here is a function of the task and of this
chip's node number; `Machine/TaskFlow.lean` and `Machine/Data.lean` say when each part happens.
-/
namespace Sys2Proof.Machine

/-! ### Index tensors (R125 to R130) -/

/-- The value of index `j`. -/
def Task.indexVal (t : Task) (j : Nat) : Option Int :=
  match indexView t.entry with
  | none => none
  | some x => (x.elem (fun a => t.got (indexKey x.host a)) (x.readNode j) j).map (signedOf x.width)

/-- The number of indices. -/
def Task.indexCount (t : Task) : Nat := match indexView t.entry with | some x => x.count | none => 0

/-- Have all indices been read? -/
def Task.indicesKnown (t : Task) : Bool := (List.range t.indexCount).all (fun j => (t.indexVal j).isSome)

/-- The extent the indices select from (R126, R130). -/
def Task.indexExtent (t : Task) : Nat :=
  if entryOpcode t.entry = 0x03 then ((viewAt t.entry 272).dim (ctlDim t.entry)).extent
  else ((viewAt t.entry 16).dim (ctlDim t.entry)).extent

/-- Where index `j` maps; none while it is not known. -/
def Task.indexMap (t : Task) (j : Nat) : Option IndexMap :=
  (t.indexVal j).map (mapIndex (ctlPolicy t.entry) t.indexExtent)

/-- Has an index been read that maps to a fault, with all indices before it known (R128)? -/
def Task.indexFault (t : Task) : Bool :=
  match (List.range t.indexCount).find? (fun j => decide (t.indexMap j = none ∨ t.indexMap j = some .fault)) with
  | some j => decide (t.indexMap j = some .fault)
  | none => false

/-- The index and the element of the other tensor that position `p` of a gathered shape names: `dims` are that shape's,
`full` those of the tensor the index selects from. -/
def gatherAt (dims full idx : List Nat) (d p i : Nat) : Nat :=
  let v := unravel dims p
  ravel full (v.take d ++ [i] ++ v.drop (d + idx.length))

/-- The index number that position `p` of a gathered shape uses. -/
def gatherIndex (dims idx : List Nat) (d p : Nat) : Nat := ravel idx (((unravel dims p).drop d).take idx.length)

/-! ### The read stage -/

/-- The bytes of a STREAM, as one dense RAW8 tensor. -/
def Task.streamBytes (t : Task) : Nat := t.blocks.length * streamBlockBytes t.entry

/-- The source address of byte `k` of a STREAM. -/
def Task.streamSrc (t : Task) (k : Nat) : Nat :=
  (t.blocks.getD (k / streamBlockBytes t.entry) (0, 0)).1 + k % streamBlockBytes t.entry

/-- The destination address of byte `k` of a STREAM. -/
def Task.streamDst (t : Task) (k : Nat) : Nat :=
  (t.blocks.getD (k / streamBlockBytes t.entry) (0, 0)).2 + k % streamBlockBytes t.entry

/-- The shape of the tensor of the read stage. -/
def Task.readDims (t : Task) : List Nat :=
  match entryOpcode t.entry with
  | 0x02 => (gatherMeta (viewAt t.entry 144).shape (ctlDim t.entry) ⟨(viewAt t.entry 16).shape, 0⟩).dims
  | 0x06 => (viewAt t.entry 16).shape
  | 0x08 => [t.streamBytes]
  | _ => (viewAt t.entry 16).shape

/-- The source element that element `p` of the read stage is; none for one that reads nothing or is not known yet. -/
def Task.sourceElem (t : Task) (p : Nat) : Option Nat :=
  match entryOpcode t.entry with
  | 0x06 => none
  | 0x02 =>
    let src := viewAt t.entry 16
    let idx := (viewAt t.entry 144).shape
    (match t.indexMap (gatherIndex t.readDims idx (ctlDim t.entry) p) with
     | some (.elem i) => some (gatherAt t.readDims src.shape idx (ctlDim t.entry) p i)
     | _ => none)
  | _ => some p

/-- The value of a source element. -/
def Task.sourceVal (t : Task) (k : Nat) : Option Nat :=
  if entryOpcode t.entry = 0x08 then (t.got (dataKey (streamSrcHost t.entry) (t.streamSrc k))).map BitVec.toNat
  else
    let v := viewAt t.entry 16
    if (entryExpand t.entry).isSome then v.elem (fun a => t.got (imageKey a)) 0 k
    else v.elem (fun a => t.got (dataKey v.host a)) (v.readNode k) k

/-- The tensor of the read stage. -/
def Task.readTensor (t : Task) (self : Nat) : LTensor :=
  match entryOpcode t.entry with
  | 0x06 =>
    let d := viewAt t.entry 16
    { dims := d.shape, fmt := if byteAt t.entry 152 = 0 then d.fmt else byteAt t.entry 152,
      val := fun _ => some (uintAt t.entry 144 8), keep := fun _ => true, deps := fun _ => [] }
  | 0x08 => { dims := t.readDims, fmt := 0x01, val := t.sourceVal, keep := fun _ => true, deps := fun k => [k] }
  | 0x02 =>
    let v := viewAt t.entry 16
    let m (p : Nat) := t.indexMap (gatherIndex t.readDims (viewAt t.entry 144).shape (ctlDim t.entry) p)
    { dims := t.readDims, fmt := v.fmt,
      val := fun p => match m p with
        | some .fill => some (generated v.fmt (ctlFill t.entry))
        | some (.elem _) => (match t.sourceElem p with | some k => t.sourceVal k | none => none)
        | _ => none,
      keep := fun p => match t.sourceElem p with | some k => v.keepsSource self k | none => true,
      deps := fun p => [p] }
  | _ =>
    let v := viewAt t.entry 16
    { dims := v.shape, fmt := v.fmt, val := t.sourceVal, keep := v.keepsSource self, deps := fun k => [k] }

/-! ### Destinations and prior values -/

/-- The node whose replica a prior value is read from: this chip's under OWN_ONLY, and in arrival mode where it has one,
since the others are combined by their owners (R166); else the one read under R114 (log 20). -/
def View.priorNode (v : View) (arrival : Bool) (self k : Nat) : Nat :=
  if v.ownOnly || (arrival && (v.writeNodes self k).contains self) then self else v.readNode k

/-- The destination element that update `p` of a SCATTER targets; none for a discarded one (R130). -/
def Task.target (t : Task) (dims : List Nat) (p : Nat) : Option Nat :=
  let d := viewAt t.entry 272
  let idx := (viewAt t.entry 144).shape
  match t.indexMap (gatherIndex dims idx (ctlDim t.entry) p) with
  | some (.elem i) => some (gatherAt dims d.shape idx (ctlDim t.entry) p i)
  | _ => none

/-- The distinct elements of a list, in the order of their first occurrence. -/
def distinct (l : List Nat) : List Nat := l.foldl (fun acc x => if acc.contains x then acc else acc ++ [x]) []

/-- The prior value of a destination element, as bits of the task's final format; none while it has not been read. -/
def Task.priorBits (t : Task) (self k : Nat) : Option Nat :=
  match destView t.entry with
  | none => none
  | some d => d.elem (fun a => t.got (priorKey d.host a)) (d.priorNode (decide (entryOrder t.entry = 2)) self k) k

/-- The stages of a block list whose types lie in a range, applied in order. -/
def stagesOn (lo hi : Nat) (bl : List Block) (t : LTensor) : LTensor :=
  bl.foldl (fun u b =>
    if b.type < lo ∨ hi < b.type then u
    else match b.type with
      | 0x10 => castStage b.bytes 1 u
      | 0x20 => sliceStage b.bytes u
      | 0x21 => transposeStage b.bytes u
      | 0x22 => padStage b.bytes u
      | 0x23 => broadcastStage b.bytes u
      | 0x24 => reshuffleStage b.bytes u
      | 0x30 => castStage b.bytes 2 u
      | _ => u) t

/-- The tensor that leaves cast-in. -/
def Task.castInTensor (t : Task) (self : Nat) : LTensor := stagesOn 0x10 0x10 (blocksOf t.entry) (t.readTensor self)

/-- The final logical format of a task. -/
def Task.finalFmt (t : Task) : Nat :=
  match blockOf t.entry 0x30 with
  | some b => castTo b
  | none => match entryOpcode t.entry with
    | 0x04 => byteAt t.entry 274
    | _ => match blockOf t.entry 0x10 with
      | some b => castTo b
      | none => (viewAt t.entry 16).fmt

/-- The format values combine in: OUT_FMT of a REDUCE, the accumulation format of a SCATTER (R131, R164). -/
def Task.combineFmt (t : Task) : Nat :=
  match entryOpcode t.entry with
  | 0x04 => byteAt t.entry 274
  | _ => match blockOf t.entry 0x10 with
    | some b => castTo b
    | none => (viewAt t.entry 16).fmt

/-- The updates of a SCATTER with OP 1 by target: update position and target element, discarded updates left out. -/
def Task.updates (t : Task) : List (Nat × Nat) :=
  let dims := (viewAt t.entry 16).shape
  (List.range (prodOf dims)).filterMap (fun p => (t.target dims p).map (fun k => (p, k)))

/-- The distinct targets of a SCATTER with OP 1, in the order of their first update (R131). -/
def Task.targets (t : Task) : List Nat := distinct (t.updates.map Prod.snd)

/-! ### Combination at another node (R166) -/

/-- The atomic that adds `v` in a format at an address; none for a format no atomic adds (R167). -/
def addAtomic (fmt a v : Nat) : Option (Nat × AtomicReq) :=
  let word (op : AtomicOp) (x : Nat) : AtomicReq := { op := op, wide := false, a := BitVec.ofNat 64 x, b := 0 }
  let half := decide (a % 4 = 2)
  let shifted := if half then v * 2 ^ 16 else v
  match fmt with
  | 0x14 => some (a, word .add v)
  | 0x22 => some (a, word .fadd32 v)
  | 0x20 => some (a / 4 * 4, word (.faddHalf false (! half) half) shifted)
  | 0x21 => some (a / 4 * 4, word (.faddHalf true (! half) half) shifted)
  | _ => none

/-- Does an arrival-mode task send the combination with destination element `k` to owners on other nodes as atomics: SUM,
in a final format that an atomic adds (R166, R168)? With a converting cast-out the combination is cast out before it is
sent; MAX, MIN and formats that no atomic adds are read, combined and written back (DEDUCED, log 20). -/
def Task.byAtomic (t : Task) (self k : Nat) : Bool :=
  (entryAcc t.entry || entryOp1 t.entry) && decide (entryOrder t.entry = 2) &&
    (decide (entryOpcode t.entry ≠ 0x04) || decide (natField (byteAt t.entry 272) 0 2 = 0)) &&
    (addAtomic t.finalFmt 0 0).isSome &&
    match destView t.entry with
    | none => false
    | some d => ! d.host && (d.writeNodes self k).any (fun n => decide (n ≠ self))

/-- Is the combination made by atomics alone: no replica on this chip? -/
def Task.awayOnly (t : Task) (self k : Nat) : Bool :=
  t.byAtomic self k && match destView t.entry with
    | none => false
    | some d => ! (d.writeNodes self k).contains self

/-- The prior value of a result element in the format values combine in (R131, R165): `some none` while it has not been
read, `none` where none takes part. -/
def Task.prior (t : Task) (self k : Nat) : Option (Option Nat) :=
  if t.awayOnly self k then none
  else some ((t.priorBits self k).map (castElem t.finalFmt t.combineFmt .nearest false))

/-- The tensor of a SCATTER with OP 1 that enters cast-out: one combined value for each distinct target. -/
def Task.scatterAdd (t : Task) (self : Nat) (u : LTensor) : LTensor :=
  let ts := t.targets
  let terms (x : Nat) : List Nat := (t.updates.filter (fun q => decide (q.2 = ts.getD x 0))).map Prod.fst
  { dims := [ts.length], fmt := u.fmt,
    val := fun x =>
      let vs := (terms x).map u.val
      if vs.all Option.isSome then
        let l := vs.map (fun v => v.getD 0)
        match t.prior self (ts.getD x 0) with
        | none => some (reduceValue .sum u.fmt u.fmt 2 none l t.freeBase x)
        | some none => none
        | some (some p) => some (scatterValue u.fmt (entryOrder t.entry) p l t.freeBase x)
      else none,
    keep := fun x => match terms x with | [] => false | p :: _ => u.keep p,
    deps := fun x => (terms x).flatMap u.deps }

/-- What the combination of result element `x` with the value of an owner elsewhere adds, in the final format; none where
nothing is combined, or a term is not known yet (R159, R166). -/
def Task.updateVal (t : Task) (u : LTensor) (x : Nat) : Option Nat :=
  let ts := if entryOpcode t.entry = 0x04 then termsOf u.dims (byteAt t.entry 273) x
    else (t.updates.filter (fun q => decide (some q.2 = t.targets[x]?))).map Prod.fst
  let vs := ts.map u.val
  if ts = [] ∨ ! vs.all Option.isSome then none
  else
    let v := reduceValue .sum u.fmt t.combineFmt 2 none (vs.map (fun v => v.getD 0)) t.freeBase x
    some (match blockOf t.entry 0x30 with
      | some b => if t.combineFmt = castTo b then v else castElem t.combineFmt (castTo b) (castRounding b 2 x) (castSat b) v
      | none => v)

/-- Is a result element with no terms kept by a source view (R414)? -/
def View.emptyKeep (v : View) (self : Nat) : Bool :=
  ! v.ownOnly || (if v.axes = 0 then decide (v.base / 2 ^ 48 = self) else decide (v.nodeBase = self))

/-- The reduce stage of a task (R18). A COLLECTIVE's is `Task.collectiveTensor`. -/
def Task.reduced (t : Task) (self : Nat) (u : LTensor) : LTensor :=
  match entryOpcode t.entry with
  | 0x04 => reduceStage (reduceOpOf (natField (byteAt t.entry 272) 0 2)) (byteAt t.entry 273) (byteAt t.entry 274)
      (entryOrder t.entry) t.freeBase
      (fun x => if entryAcc t.entry then t.prior self x else none) ((viewAt t.entry 16).emptyKeep self) u
  | 0x03 => if entryOp1 t.entry then t.scatterAdd self u else u
  | _ => u

/-! ### Collectives (R173 to R178) -/

/-- This chip's group and rank. -/
def Task.group (t : Task) (self : Nat) : List Nat := (collCtl t.entry).members self
def Task.rank (t : Task) (self : Nat) : Nat := (collCtl t.entry).rank self

/-- The elements of S a rank owns in a reducing collective: its first element and how many. REDUCE_SCATTER cuts the
outermost dimension, ALL_REDUCE the k order, the last part taking the remainder (R173). -/
def collectivePart (kind g count q : Nat) : Nat × Nat :=
  let part := count / g
  if kind = 2 ∧ q + 1 = g then (part * q, count - part * q) else (part * q, part)

/-- The elements of S that member `q` sends to member `r`, as first and count (R173, R176). -/
def collectiveSend (kind root g count q r : Nat) : Nat × Nat :=
  match kind with
  | 0 => (0, count)
  | 3 => if q = root then (0, count) else (0, 0)
  | 4 => (count / g * r, count / g)
  | _ => collectivePart kind g count r

/-- The byte stream of one part of a tensor (R176): its format, the row of an MX format and its elements, packed in k
order as the digest packs them (DEDUCED, log 20). -/
structure PStream where
  fmt : Nat
  row : Nat
  count : Nat
deriving DecidableEq, Repr

/-- The stream of `n` elements of S. -/
def LTensor.part (u : LTensor) (n : Nat) : PStream :=
  { fmt := u.fmt, row := if u.dims.length ≤ 1 then n else u.ext 0, count := n }

/-- The length of a stream in bytes. -/
def PStream.bytes (p : PStream) : Nat :=
  if isMx p.fmt then ceilDiv p.count p.row * mxRowBytes p.row (widthOf p.fmt) else ceilDiv (p.count * widthOf p.fmt) 8

/-- Element `i` of a stream, by its bytes. -/
def PStream.elem (p : PStream) (f : Nat → Option Byte) (i : Nat) : Option Nat :=
  let w := widthOf p.fmt
  if isMx p.fmt then
    let base := i / p.row * mxRowBytes p.row w
    let bit := w * (i % p.row)
    match f (base + i % p.row / 32), readBits f (base + ceilDiv p.row 256 * 8 + bit / 8) (bit % 8) w with
    | some s, some x => some (s.toNat * 256 + x)
    | _, _ => none
  else readBits f (w * i / 8) (w * i % 8) w

/-- Key of a byte received from a rank in a stage of the exchange. -/
def pieceKey (stage rank pos : Nat) : Nat := (stage * 65536 + rank) * 2 ^ 50 + pos

/-- The bytes received from a rank in a stage. -/
def CollRun.byteOf (c : CollRun) (stage rank pos : Nat) : Option Byte := sget (fun _ => none) c.bytes (pieceKey stage rank pos)

/-- The stream of `n` reduced elements of an all-reduce. -/
def reducedStream (fmt n : Nat) : PStream := { fmt := fmt, row := 1, count := n }

/-- The contribution of rank `q` at element `i` of its part for this chip. -/
def Task.contribution (t : Task) (self : Nat) (u : LTensor) (q i : Nat) : Option Nat :=
  let c := collCtl t.entry
  let r := t.rank self
  if q = r then u.val ((collectiveSend c.kind c.root c.size u.count q r).1 + i)
  else (u.part (collectiveSend c.kind c.root c.size u.count q r).2).elem (t.coll.byteOf 0 q) i

/-- The reduced value of element `i` of this chip's part. -/
def Task.ownReduced (t : Task) (self : Nat) (u : LTensor) (i : Nat) : Option Nat :=
  let c := collCtl t.entry
  let vs := (List.range c.size).map (fun q => t.contribution self u q i)
  if vs.all Option.isSome then
    some (rankValue (reduceOpOf c.op) u.fmt c.outFmt (entryOrder t.entry) (vs.map (fun v => v.getD 0)) t.freeBase
      ((collectivePart c.kind c.size u.count (t.rank self)).1 + i))
  else none

/-- The result tensor of a collective, before cast-out (R173). -/
def Task.collectiveTensor (t : Task) (self : Nat) (u : LTensor) : LTensor :=
  let c := collCtl t.entry
  let m := collectiveMeta c ⟨u.dims, u.fmt⟩
  let r := t.rank self
  { dims := m.dims, fmt := m.fmt,
    val := fun x => match c.kind with
      | 0 => t.contribution self u (x / u.count) (x % u.count)
      | 1 => t.ownReduced self u x
      | 2 =>
        let part := u.count / c.size
        let q := if part = 0 then c.size - 1 else min (x / part) (c.size - 1)
        let i := x - (collectivePart 2 c.size u.count q).1
        if q = r then t.ownReduced self u i
        else (reducedStream c.outFmt (collectivePart 2 c.size u.count q).2).elem (t.coll.byteOf 1 q) i
      | 3 => if r = c.root then u.val x else (u.part u.count).elem (t.coll.byteOf 0 c.root) x
      | _ =>
        let block := u.count / c.size
        t.contribution self u (x / block) (x % block),
    keep := fun _ => true,
    deps := fun x => [x] }

/-! ### The final tensor -/

/-- The tensor a task writes: after cast-out. -/
def Task.finalTensor (t : Task) (self : Nat) : LTensor :=
  let u := t.castInTensor self
  let v := if entryOpcode t.entry = 0x05 then t.collectiveTensor self u else t.reduced self u
  stagesOn 0x20 0x30 (blocksOf t.entry) v

/-- The destination element that output `x` is written to; none for one that is not written (R99, R123, R130). -/
def Task.destElem (t : Task) (dims : List Nat) (x : Nat) : Option Nat :=
  match entryOpcode t.entry with
  | 0x03 => if entryOp1 t.entry then t.targets[x]? else t.target dims x
  | _ => some x

/-- Is output `x` kept (R115, R360, R414)? -/
def Task.keepsOutput (t : Task) (self : Nat) (u : LTensor) (x : Nat) : Bool :=
  u.keep x && match t.destElem u.dims x with
    | none => false
    | some k => match entryOpcode t.entry with
      | 0x07 => (match selectView t.entry with | some v => v.keepsDest self k | none => true)
      | _ => (match destView t.entry with | some v => v.keepsDest self k | none => true)

/-! ### The read plan -/

/-- Does any view of a task restrict it to this chip's elements? The bit of an index view has no effect (DESIGN CHOICE,
log 20: R115 speaks of source and destination views). -/
def entryOwnOnly (e : List Byte) : Bool :=
  (match sourceView e with | some v => v.ownOnly | none => false) ||
  (match destView e with | some v => v.ownOnly | none => false) ||
  (match selectView e with | some v => v.ownOnly | none => false)

/-- The block of a slice that is folded into the read (R134, note b of R155). -/
def foldedSlice (e : List Byte) : Option (List Byte) :=
  if entryOpcode e = 0x01 ∨ entryOpcode e = 0x03 ∨ entryOpcode e = 0x06 then blockOf e 0x20 else none

/-- The elements of the read stage that a task reads, in the order it reads them (R102, R114, R134, R414). The root of a
BROADCAST alone reads its send view (R173). -/
def Task.readOrder (t : Task) (self : Nat) : List Nat :=
  let r := t.readTensor self
  let all := match foldedSlice t.entry with
    | some b => let u := sliceStage b r; (List.range u.count).flatMap u.deps
    | none => List.range r.count
  let used := if entryOwnOnly t.entry then
      let u := t.finalTensor self
      let need := ((List.range u.count).filter (t.keepsOutput self u)).flatMap u.deps
      all.filter (fun p => need.contains p)
    else all
  match entryOpcode t.entry with
  | 0x06 => []
  | 0x05 => if (collCtl t.entry).kind = 3 ∧ t.rank self ≠ (collCtl t.entry).root then [] else used
  | 0x02 => used.filter (fun p => (t.sourceElem p).isSome)
  | _ => used

/-- A stretch of bits to read: a tag that joins the elements of one MX row, the last element taken into it, its first and
its end bit, and where its first element stands in the read order. -/
structure BitRun where
  tag : Nat
  last : Nat
  lo : Nat
  hi : Nat
  first : Nat
deriving DecidableEq, Repr

/-- The bits of element `k` of a view: those of its whole row for an MX view (R142). -/
def View.bitRun (v : View) (node k pos : Nat) : BitRun :=
  if isMx v.fmt then
    let a := v.unitAddr node k
    { tag := k / (v.dim 0).extent, last := k, lo := 8 * a, hi := 8 * (a + mxRowBytes (v.dim 0).extent v.width), first := pos }
  else
    let p := v.bitsAt node k
    { tag := 2 ^ 64 + pos, last := k, lo := 8 * p.1 + p.2.1, hi := 8 * p.1 + p.2.1 + p.2.2, first := pos }

/-- Runs joined where the next continues the last, or is a later element of the row the last one reads; a row that comes
again is read again (R100, R103, R129). -/
def joinRuns : List BitRun → List BitRun → List BitRun
  | acc, [] => acc.reverse
  | [], r :: t => joinRuns [r] t
  | a :: acc, r :: t =>
    if a.tag = r.tag ∧ a.last < r.last then joinRuns ({ a with last := r.last } :: acc) t
    else if a.hi = r.lo then joinRuns ({ a with hi := r.hi, tag := r.tag, last := r.last } :: acc) t
    else joinRuns (r :: a :: acc) t

/-- A byte interval cut at 512-byte boundaries (R204). -/
def cut512 (a len : Nat) : List (Nat × Nat) :=
  (List.range ((a + len - 1) / 512 - a / 512 + 1)).map (fun i =>
    let lo := max a ((a / 512 + i) * 512)
    (lo, min (a + len) ((a / 512 + i + 1) * 512) - lo))

/-- A host interval cut at range boundaries; whole where the ranges leave a byte out (R250). -/
def cutRanges (rs : List XRange) (a len : Nat) : List (Nat × Nat) :=
  let ps := rs.filterMap (fun r =>
    let lo := max a r.host
    let hi := min (a + len) (r.host + r.len)
    if lo < hi then some (lo, hi - lo) else none)
  if (ps.map Prod.snd).sum = len then ps else [(a, len)]

/-- The element of the read stage at an address of a run: `order` is the read order, `unit` the elements and the bits of
a unit of the run. -/
def BitRun.elemAt (r : BitRun) (order : List Nat) (unit : Nat × Nat) (a : Nat) : Nat :=
  order.getD (r.first + (8 * a - r.lo) / unit.2 * unit.1) 0

/-- The requests of a run: whole 8-byte granules (R102), at most 512 bytes each. -/
def runRequests (host : Bool) (rs : List XRange) (kind : ReadKind) (order : List Nat) (unit : Nat × Nat) (r : BitRun) :
    List ReadReq :=
  let a := r.lo / 64 * 8
  let z := ceilDiv r.hi 64 * 8
  (cut512 a (z - a)).flatMap (fun p =>
    (if host then cutRanges rs p.1 p.2 else [p]).map (fun q =>
      { space := if host then .host else .device, addr := q.1, len := q.2, kind := kind,
        first := r.elemAt order unit q.1 }))

/-- The elements and the bits of a unit of a view's runs: an MX row, or one element. -/
def View.unit (v : View) : Nat × Nat :=
  if isMx v.fmt then ((v.dim 0).extent, 8 * mxRowBytes (v.dim 0).extent v.width) else (1, v.width)

/-- The runs that elements of a view form, each element with the node it is read from. -/
def View.runs (v : View) (elems : List (Nat × Nat)) : List BitRun :=
  joinRuns [] ((List.range elems.length).map (fun i =>
    let p := elems.getD i (0, 0)
    v.bitRun p.1 p.2 i))

/-- The requests that read elements of a view, each with the position it stands for in the read order. -/
def viewRequests (v : View) (rs : List XRange) (kind : ReadKind) (elems : List (Nat × Nat)) (order : List Nat) : List ReadReq :=
  (v.runs elems).flatMap (runRequests v.host rs kind order v.unit)

/-- The requests for the indices. OWN_ONLY in an index view has no effect: R115 speaks of source and destination views
only (DESIGN CHOICE, log 20). -/
def Task.indexRequests (t : Task) : List ReadReq :=
  match indexView t.entry with
  | none => []
  | some x => viewRequests x t.ranges .index ((List.range x.count).map (fun j => (x.readNode j, j))) []

/-- The touches of the ingots that runs cover, newest first, beside the runs that began in the last one: a run in the
ingot last touched goes on with that touch, unless it is a run read in it before, which reads the ingot again (R103,
R202). -/
def touchRuns (order : List Nat) (unit : Nat × Nat) : List (Nat × Nat) × List Nat → List BitRun → List (Nat × Nat)
  | acc, [] => acc.1.reverse
  | (ts, seen), r :: l =>
    let i0 := r.lo / 32768
    let n := (r.hi - 1) / 32768 - i0
    let again := decide ((ts.head?).map Prod.fst = some i0) && ! seen.contains r.lo
    let ts1 := if again then ts else (i0, r.elemAt order unit (r.lo / 8)) :: ts
    let more := (List.range n).map (fun k => (i0 + 1 + k, r.elemAt order unit (4096 * (i0 + 1 + k))))
    touchRuns order unit (more.reverse ++ ts1, if n = 0 then (if again then r.lo :: seen else [r.lo]) else []) l

/-- The ingots the read order touches, one entry a touch, each with the element of the read stage that begins it (R200,
R202). -/
def Task.touchFirsts (t : Task) (self : Nat) : List (Nat × Nat) :=
  let v := viewAt t.entry 16
  let order := (t.readOrder self).filter (fun p => (t.sourceElem p).isSome)
  touchRuns order v.unit ([], []) (v.runs (order.filterMap (fun p => (t.sourceElem p).map (fun k => (0, k)))))

/-- The ingots of the touches. -/
def Task.touches (t : Task) (self : Nat) : List Nat := (t.touchFirsts self).map Prod.fst

/-- The payload bytes of an ingot as read: its length rounded up to whole lines (R200). -/
def payloadBytes (h : List Byte) : Nat := roundUp (hdrSlen h) 64

/-- The requests of an expanding task: for each touch the line of its header, then, once that has been checked, its
payload (R200). -/
def Task.ingotRequests (t : Task) (self : Nat) (p : CodecParams) : List ReadReq :=
  let touches := t.touchFirsts self
  (List.range (min touches.length (t.hdrs.length + 1))).flatMap (fun i =>
    let ing := (touches.getD i (0, 0)).1
    let req (kind : ReadKind) (a len : Nat) : ReadReq :=
      { space := .device, addr := self * 2 ^ 48 + a, len := len, kind := kind, first := (touches.getD i (0, 0)).2 }
    req (.ingotHeader i) ((p.listBase + 16 * ing) / 64 * 64) 64 ::
      (match t.hdrs[i]? with
       | none => []
       | some h =>
         if payloadBytes h = 0 then []
         else (cut512 (p.dataBase + 4096 * ing) (payloadBytes h)).map (fun q => req (.ingotPayload i) q.1 q.2)))

/-- The requests for source data. -/
def Task.dataRequests (t : Task) (self : Nat) : List ReadReq :=
  match entryOpcode t.entry with
  | 0x06 => []
  | 0x08 =>
    let bb := streamBlockBytes t.entry
    let order := List.range t.streamBytes
    (solder bb t.blocks).flatMap (fun r =>
      if bb = 0 then [] else
      let a := 8 * t.streamSrc (r.1 * bb)
      runRequests (streamSrcHost t.entry) t.ranges .data order (1, 8)
        { tag := 0, last := 0, lo := a, hi := a + 8 * (r.2 * bb), first := r.1 * bb })
  | _ =>
    match entryExpand t.entry with
    | some p => t.ingotRequests self p
    | none =>
      let v := viewAt t.entry 16
      let order := t.readOrder self
      viewRequests v t.ranges .data (order.filterMap (fun p => (t.sourceElem p).map (fun k => (v.readNode k, k)))) order

/-- The destination elements whose prior values a task reads (R131, R165). DESIGN CHOICE (log 20): the prior value of a
result that the source view does not keep is read too, and a refusal of that read fails the task; R165 and R131 read
each destination element, R414 forms no such result. -/
def Task.priorElems (t : Task) (self : Nat) : List Nat :=
  match destView t.entry with
  | none => []
  | some d =>
    let l := if entryOp1 t.entry then t.targets else if entryAcc t.entry then List.range d.count else []
    l.filter (fun k => d.keepsDest self k && ! t.awayOnly self k)

/-- The requests for prior values. -/
def Task.priorRequests (t : Task) (self : Nat) : List ReadReq :=
  match destView t.entry with
  | none => []
  | some d => viewRequests d t.ranges .prior ((t.priorElems self).map (fun k => (d.priorNode (decide (entryOrder t.entry = 2)) self k, k))) []

/-- The requests of a task in order of issue, as far as they are known: indices, source data, prior values. -/
def Task.plan (t : Task) (self : Nat) : List ReadReq :=
  t.indexRequests ++ (if t.indicesKnown then t.dataRequests self ++ t.priorRequests self else [])

/-- Is the whole plan known: every index read, every ingot header checked? -/
def Task.planKnown (t : Task) (self : Nat) : Bool :=
  t.indicesKnown && ((entryExpand t.entry).isNone || decide ((t.touches self).length ≤ t.hdrs.length))

/-- The ingot of a touch. -/
def Task.touchIngot (t : Task) (self i : Nat) : Nat := (t.touches self).getD i 0

/-- The key that the bytes of a read are consumed under. -/
def ReadReq.key (r : ReadReq) : Nat :=
  match r.kind with
  | .data => dataKey (decide (r.space = .host)) r.addr
  | .index => indexKey (decide (r.space = .host)) r.addr
  | .prior => priorKey (decide (r.space = .host)) r.addr
  | _ => 0

/-- Bytes consumed under the keys from one up. -/
def consumeBytes : SMap (Option Byte) → Nat → List Byte → SMap (Option Byte)
  | m, _, [] => m
  | m, k, b :: t => consumeBytes (sset (fun _ => none) m k (some b)) (k + 1) t

/-- An issue-queue entry whose bytes can pass to the execute side: answered, and expanded where it is an ingot. -/
def Issued.ready (i : Issued) : Bool :=
  match i.req.kind with
  | .ingotHeader _ => i.emitted
  | .ingotPayload _ => false
  | _ => i.answered

/-- The key an entry's bytes are consumed under. -/
def Task.keyOf (t : Task) (self : Nat) (i : Issued) : Nat :=
  match i.req.kind with
  | .ingotHeader n => imageKey (4096 * t.touchIngot self n)
  | _ => i.req.key

/-- A task with all that its fetch side has staged and expanded (R15). -/
def Task.fetched (t : Task) (self : Nat) : Task :=
  let staged := t.issueQ.filter (fun i => i.ready && ! i.taken)
  { t with consumed := staged.foldl (fun m i => consumeBytes m (t.keyOf self i) i.bytes) t.consumed }

/-- Has every read been issued? -/
def Task.readsDone (t : Task) (self : Nat) : Bool := t.planKnown self && decide ((t.plan self).length ≤ t.readsIssued)

/-! ### Writes -/

/-- The cells of `w` bits from bit `b` at an address (R96). -/
def bitCells (a b w v : Nat) : List WCell :=
  (List.range (ceilDiv (b + w) 8)).map (fun i =>
    { addr := a + i, mask := BitVec.ofNat 8 ((2 ^ w - 1) * 2 ^ b / 2 ^ (8 * i)), val := BitVec.ofNat 8 (v * 2 ^ b / 2 ^ (8 * i)) })

/-- The cells of element `k` of a view on a node. An MX element writes its block's scale with the block's first element,
and the row's padding with the row's first (R97). -/
def View.cells (v : View) (node k val : Nat) : List WCell :=
  let p := v.bitsAt node k
  if isMx v.fmt then
    let e := (v.dim 0).extent
    let i := v.inner k
    let a := v.unitAddr node k
    (if i = 0 then (List.range' (e / 32) (ceilDiv e 256 * 8 - e / 32)).map (fun j => { addr := a + j, mask := 0xFF, val := 0 }) else []) ++
      (if i % 32 = 0 then [{ addr := v.scaleAt node k, mask := 0xFF, val := BitVec.ofNat 8 (val / 256) }] else []) ++
      bitCells p.1 p.2.1 p.2.2 (val % 256)
  else bitCells p.1 p.2.1 p.2.2 (val % 2 ^ p.2.2)

/-- The bound tile that a byte of this chip's scratchpad lies in: its task's first tile and the distance from it. -/
def tileOf (ringBase tileBytes first slot0 : Nat) (a : Nat) : Nat := first + (a - ringBase) / tileBytes - slot0

/-- The cells of output `x` at every node it is written to. -/
def Task.outputCells (t : Task) (self : Nat) (dims : List Nat) (x v : Nat) : List WCell :=
  match entryOpcode t.entry with
  | 0x07 => []
  | 0x08 => [{ addr := t.streamDst x, mask := 0xFF, val := BitVec.ofNat 8 v }]
  | _ => match destView t.entry, t.destElem dims x with
    | some d, some k => (d.writeNodes self k).flatMap (fun n => d.cells n k v)
    | _, _ => []

/-- Are a task's destinations host addresses? -/
def entryDestHost (e : List Byte) : Bool :=
  if entryOpcode e = 0x08 then streamDstHost e else match destView e with | some d => d.host | none => false

/-- A cell put over the cells of a line: a later write of a byte replaces an earlier one (R36, R105). -/
def putCell (c : WCell) : List WCell → List WCell
  | [] => [c]
  | a :: l =>
    if a.addr = c.addr then { addr := a.addr, mask := a.mask ||| c.mask, val := (a.val &&& ~~~ c.mask) ||| (c.val &&& c.mask) } :: l
    else a :: putCell c l

/-- The 64-byte line of a write. -/
def WriteReq.line (w : WriteReq) : Nat := (match w.cells with | c :: _ => c.addr | [] => 0) / 64

/-- A cell gathered into the line of its tile (R36). -/
def gatherCell (tileAt : Nat → Option Nat) (c : WCell) : List WriteReq → List WriteReq
  | [] => [{ space := .device, cells := [c], tile := tileAt c.addr, atomic := none, at_ := 0 }]
  | w :: l =>
    if w.line = c.addr / 64 ∧ w.tile = tileAt c.addr then { w with cells := putCell c w.cells } :: l
    else w :: gatherCell tileAt c l

/-- Cells gathered into lines, in the order of each line's first cell. -/
def gatherCells (tileAt : Nat → Option Nat) (g : List WriteReq) (cs : List WCell) : List WriteReq :=
  cs.foldl (fun acc c => gatherCell tileAt c acc) g

/-! ### Outputs -/

/-- The number of outputs of a task. -/
def Task.outputs (t : Task) (self : Nat) : Nat := (t.finalTensor self).count

/-- Output `x`: none while it is not available; `some none` for one that is not kept. -/
def Task.output (t : Task) (self : Nat) (u : LTensor) (x : Nat) : Option (Option Nat) :=
  if ! t.indicesKnown then none
  else if t.keepsOutput self u x then (u.val x).map some else some none

/-- Does an output from number `x` on fall in a line: a line being gathered waits for it (R36)? -/
def Task.lineOpen (t : Task) (self : Nat) (u : LTensor) (x line : Nat) : Bool :=
  (List.range' x (u.count - x)).any (fun y => t.keepsOutput self u y &&
    (t.outputCells self u.dims y 0).any (fun c => decide (c.addr / 64 = line)))

/-- Every output has been written. -/
def Task.outputsDone (t : Task) (self : Nat) : Bool := t.indicesKnown && decide (t.outputs self ≤ t.emitted.length)

/-! ### The digest (R358) -/

/-- The bytes of the kept blocks of one MX row: scales, padding, elements. -/
def mxRowDigest (w : Nat) (row : List (Option Nat)) : List Byte :=
  let kept := (List.range row.length).filter (fun i => (row.getD i none).isSome)
  let scales := kept.filter (fun i => decide (i % 32 = 0))
  if kept = [] then []
  else
    let sc := scales.map (fun i => BitVec.ofNat 8 ((row.getD i none).getD 0 / 256))
    fitBytes (pad8 sc.length) sc ++ packBits (kept.flatMap (fun i => lowBits w ((row.getD i none).getD 0 % 256)))

/-- The bytes that the digest stage passes. -/
def digestBytes (dims : List Nat) (fmt : Nat) (out : List (Option Nat)) : List Byte :=
  let w := widthOf fmt
  if isMx fmt then
    let e := dims.getD 0 1
    (List.range (ceilDiv out.length e)).flatMap (fun r => mxRowDigest w ((out.drop (r * e)).take e))
  else packBits ((out.filterMap id).flatMap (lowBits w))

/-- The bytes a task's digest covers. -/
def Task.digestInput (t : Task) (self : Nat) : List Byte :=
  let u := t.finalTensor self
  digestBytes u.dims u.fmt t.emitted

/-! ### Compression (R195 to R197) -/

/-- The ingots a compressing task writes: the first and how many. -/
def Task.ingotSpan (t : Task) : Nat × Nat :=
  match entryCompress t.entry, destView t.entry with
  | some _, some v => (match v.span with
    | none => (0, 0)
    | some (lo, hi) => (lo.toNat / 4096, hi.toNat / 4096 - lo.toNat / 4096 + 1))
  | _, _ => (0, 0)

/-- The block of ingot `i`, once every byte of it has been produced. -/
def Task.imageBlock (t : Task) (p : CodecParams) (i : Nat) : Option (List Byte) :=
  let bs := (List.range (p.ulen i)).map (fun j => sget (fun _ => none) t.image (4096 * i + j))
  if bs.all Option.isSome then some (bs.map (fun x => x.getD 0)) else none

/-- Has every ingot been built? -/
def Task.ingotsBuilt (t : Task) : Bool := decide (t.ingotSpan.2 ≤ t.ingotsDone)

/-! ### What a task writes, whether or not it has (R22) -/

/-- The bytes of the ingots that a compressing task writes: each header, and each payload as far as its block is known;
else all the payload may take (R188, R196). -/
def Task.imageCells (t : Task) (p : CodecParams) (lens : List Nat) (gen : Nat) : List (Nat × Byte) :=
  ((List.range' t.ingotSpan.1 t.ingotSpan.2).flatMap (fun i =>
    let n := match t.imageBlock p i with
      | some b => (buildIngot p lens gen b).2.length
      | none => p.ulen i
    List.range' (p.listBase + 16 * i) 16 ++ List.range' (p.dataBase + 4096 * i) (roundUp n 64))).map (fun a => (a, 0xFF))

/-- The bits that outputs write on this chip. -/
def Task.cellBits (t : Task) (self : Nat) (u : LTensor) (xs : List Nat) : List (Nat × Byte) :=
  ((xs.flatMap (fun x => t.outputCells self u.dims x 0)).filter (fun c => decide (c.addr / 2 ^ 48 = self))).map
    (fun c => (c.addr % 2 ^ 48, c.mask))

/-- The bits of local memory that a task has written or would have written: those of every output that is kept. While the
indices of a SCATTER are not all known, any element of its destination may be one (log 12). -/
def Task.allCells (t : Task) (self : Nat) (lens : List Nat) (gen : Nat) : List (Nat × Byte) :=
  let u := t.finalTensor self
  if entryDestHost t.entry then []
  else match entryCompress t.entry with
    | some p => t.imageCells p lens gen
    | none =>
      if entryOpcode t.entry = 0x03 ∧ ! t.indicesKnown then
        let d := viewAt t.entry 272
        ((((List.range d.count).filter (d.keepsDest self)).flatMap (fun k => (d.writeNodes self k).flatMap (fun n => d.cells n k 0))).filter
          (fun c => decide (c.addr / 2 ^ 48 = self))).map (fun c => (c.addr % 2 ^ 48, c.mask))
      else t.cellBits self u ((List.range u.count).filter (t.keepsOutput self u))

/-- The bits of local memory that the outputs of a task have left for: those emitted and not still gathered. -/
def Task.leftCells (t : Task) (self : Nat) : List (Nat × Byte) :=
  let u := t.finalTensor self
  let held := t.gather.flatMap (fun w => w.cells.map (fun c => c.addr % 2 ^ 48))
  (t.cellBits self u ((List.range (min t.emitted.length u.count)).filter (fun x => (t.emitted.getD x none).isSome))).filter
    (fun c => ! held.contains c.1)

end Sys2Proof.Machine
end

