-- ==== Sys2Proof/Machine/Exchange.lean ====
section
/-!
DEFINITION. The exchange of a COLLECTIVE task: the streams its members send one another, their pieces and the credits
they grant (R175 to R178, R180).
-/
namespace Sys2Proof.Machine

/-! ### Streams between members (R173, R176) -/

/-- The stream this chip sends to rank `q`: contributions in stage 0, its reduced part of an all-reduce in stage 1. -/
def Task.sendStream (t : Task) (self stage q : Nat) : PStream :=
  let c := collCtl t.entry
  let u := t.castInTensor self
  let r := t.rank self
  if stage = 0 then u.part (collectiveSend c.kind c.root c.size u.count r q).2
  else reducedStream c.outFmt (if c.kind = 2 then (collectivePart 2 c.size u.count r).2 else 0)

/-- The stream that rank `q` sends to this chip. -/
def Task.recvStream (t : Task) (self stage q : Nat) : PStream :=
  let c := collCtl t.entry
  let u := t.castInTensor self
  if stage = 0 then u.part (collectiveSend c.kind c.root c.size u.count q (t.rank self)).2
  else reducedStream c.outFmt (if c.kind = 2 then (collectivePart 2 c.size u.count q).2 else 0)

/-- The value of element `i` of a stream this chip sends. -/
def Task.sendVal (t : Task) (self stage q i : Nat) : Option Nat :=
  let c := collCtl t.entry
  let u := t.castInTensor self
  if stage = 0 then u.val ((collectiveSend c.kind c.root c.size u.count (t.rank self) q).1 + i) else t.ownReduced self u i

/-- The pieces of a stream. -/
def PStream.pieces (p : PStream) (chunkLog2 : Nat) : Nat := ceilDiv p.bytes (2 ^ chunkLog2)

/-- All values of a list of elements, once every one is known. -/
def knownVals (val : Nat → Option Nat) (is : List Nat) : Option (List (Option Nat)) :=
  let vs := is.map val
  if vs.all Option.isSome then some vs else none

/-- The elements with a byte among `len` bytes of a stream from byte `lo`: the first, and the one past the last. -/
def PStream.elems (p : PStream) (lo len : Nat) : Nat × Nat :=
  let w := widthOf p.fmt
  if isMx p.fmt then (lo / mxRowBytes p.row w * p.row, min p.count (ceilDiv (lo + len) (mxRowBytes p.row w) * p.row))
  else (lo * 8 / w, min p.count (ceilDiv ((lo + len) * 8) w))

/-- `len` bytes of a stream from byte `lo`, once every element with a byte there is known. -/
def PStream.slice (p : PStream) (val : Nat → Option Nat) (lo len : Nat) : Option (List Byte) :=
  let w := widthOf p.fmt
  let e := p.elems lo len
  let skip := if isMx p.fmt then lo % mxRowBytes p.row w else 0
  (knownVals val (List.range' e.1 (e.2 - e.1))).map
    (fun vs => fitBytes len ((digestBytes [p.row] p.fmt vs).drop skip))

/-- The bytes of piece `i` for rank `q`, once they are known: the fetch side casts in what it has staged (R15). -/
def Task.pieceBytes (t : Task) (self stage q i : Nat) : Option (List Byte) :=
  let p := t.sendStream self stage q
  let n := 2 ^ (collCtl t.entry).chunkLog2
  p.slice ((if stage = 0 then t.fetched self else t).sendVal self stage q) (i * n) (min n (p.bytes - i * n))

/-- The other ranks that are attached. -/
def Task.peersOf (t : Task) (self : Nat) : List Nat :=
  (List.range (collCtl t.entry).size).filter (fun q => decide (q ≠ t.rank self) && ! t.coll.detached.contains q)

/-- The pieces this chip owes rank `q` in a stage. -/
def Task.owed (t : Task) (self stage q : Nat) : List (Nat × Nat × Nat) :=
  (List.range ((t.sendStream self stage q).pieces (collCtl t.entry).chunkLog2)).map (fun i => (q, stage, i))

/-- Has a COLLECTIVE task sent every piece it owes? Its outputs say what it has received. -/
def Task.piecesSent (t : Task) (self : Nat) : Bool :=
  decide (entryOpcode t.entry ≠ 0x05) ||
    (t.peersOf self).all (fun q => (t.owed self 0 q ++ t.owed self 1 q).all t.coll.sent.contains)

/-- The next piece for rank `q`. -/
def Task.nextPiece (t : Task) (self q : Nat) : Option (Nat × Nat × Nat) :=
  (t.owed self 0 q ++ t.owed self 1 q).find? (fun x => ! t.coll.sent.contains x)

/-! ### Staged data that pieces need (R176) -/

/-- The element of S at which the request after an entry's begins: the next data request, or the next ingot. -/
def Task.nextFirst (t : Task) (self : Nat) (i : Issued) : Option Nat :=
  match i.req.kind with
  | .ingotHeader n => ((t.touchFirsts self)[n + 1]?).map Prod.snd
  | _ => ((t.plan self)[i.no + 1]?).map ReadReq.first

/-- The elements of S with bytes in an issue-queue entry: the first, and the one past the last. An element that begins in
the entry and ends in the next has bytes in both. -/
def Task.entryElems (t : Task) (self : Nat) (i : Issued) : Nat × Nat :=
  let v := viewAt t.entry 16
  match t.nextFirst self i with
  | none => (i.req.first, v.count)
  | some k =>
    let inIngot := (entryExpand t.entry).isSome
    let r := v.bitRun (if inIngot then 0 else v.readNode k) k 0
    let stop := match i.req.kind with
      | .ingotHeader n => 4096 * (t.touchIngot self n + 1)
      | _ => i.req.addr + i.req.len
    (i.req.first, if r.lo < 8 * stop then k + v.unit.1 else k)

/-- Does the source data of some elements exceed the staging buffer, so that no piece of them can be held whole? -/
def Task.overStaging (t : Task) (n : Nat) : Bool :=
  let u := (viewAt t.entry 16).unit
  decide (524288 < ceilDiv (n * u.2) (8 * u.1) + (if (entryExpand t.entry).isSome then 8192 else 1024))

/-- Must an entry whose bytes have been taken stay staged for a piece that has not been sent (R176)? A piece whose data the
staging buffer cannot hold whole leaves it as the data is taken (DESIGN CHOICE, log 20). -/
def Task.heldForPiece (t : Task) (self : Nat) (i : Issued) : Bool :=
  let c := collCtl t.entry
  decide (entryOpcode t.entry = 0x05) && decide (i.req.kind ≠ .index ∧ i.req.kind ≠ .prior) &&
    (t.peersOf self).any (fun q =>
      let p := t.sendStream self 0 q
      let base := (collectiveSend c.kind c.root c.size (t.castInTensor self).count (t.rank self) q).1
      let n := 2 ^ c.chunkLog2
      let e := t.entryElems self i
      (t.owed self 0 q).any (fun x => ! t.coll.sent.contains x &&
        (let g := p.elems (x.2.2 * n) (min n (p.bytes - x.2.2 * n))
         decide (base + g.1 < e.2) && decide (e.1 < base + g.2) && ! t.overStaging (g.2 - g.1))))

/-! ### Credits granted (R176 to R178) -/

/-- The first piece of a rank that has not been received. -/
def CollRun.gotTo (c : CollRun) (stage q : Nat) : Nat → Nat → Nat
  | 0, i => i
  | f + 1, i => if c.received.contains (q, stage, i) then c.gotTo stage q f (i + 1) else i

/-- Credits for at most RWIN pieces outstanding from each sender. -/
def Task.windowGrants (t : Task) (self stage : Nat) : List (Nat × Nat × Nat) :=
  let c := collCtl t.entry
  (t.peersOf self).flatMap (fun q =>
    let n := (t.recvStream self stage q).pieces c.chunkLog2
    let got := t.coll.gotTo stage q n 0
    (List.range' got (min c.rwin (n - got))).map (fun i => (q, stage, i)))

/-- The chunks of this chip's part in a reducing collective, and the elements of one. -/
def Task.chunks (t : Task) (self : Nat) : Nat :=
  (t.recvStream self 0 (t.rank self)).pieces (collCtl t.entry).chunkLog2

def Task.chunkElems (t : Task) (self k : Nat) : List Nat :=
  let p := t.recvStream self 0 (t.rank self)
  let per := 2 ^ (collCtl t.entry).chunkLog2 * 8 / widthOf p.fmt
  List.range' (k * per) (min per (p.count - k * per))

/-- Is position `p` of the fold there: the local contribution known, or the piece received? -/
def Task.positionKnown (t : Task) (self p : Nat) : Bool :=
  let g := (collCtl t.entry).size
  let u := t.castInTensor self
  if p % g = t.rank self then (t.chunkElems self (p / g)).all (fun i => (t.contribution self u (p % g) i).isSome)
  else t.coll.received.contains (p % g, 0, p / g)

/-- Constantan mode: the RWIN positions from the next one the fold needs (R177). -/
def Task.foldGrants (t : Task) (self : Nat) : List (Nat × Nat × Nat) :=
  let c := collCtl t.entry
  let n := t.chunks self * c.size
  let next := ((List.range n).find? (fun p => ! t.positionKnown self p)).getD n
  ((List.range' next (min c.rwin (n - next))).filter (fun p => decide (p % c.size ≠ t.rank self))).map
    (fun p => (p % c.size, 0, p / c.size))

/-- Exact and arrival modes: the current chunk and the next, for every member; a chunk is past once its results are written
(R178). -/
def Task.chunkGrants (t : Task) (self : Nat) : List (Nat × Nat × Nat) :=
  let c := collCtl t.entry
  let n := t.chunks self
  let base := if c.kind = 2 then (collectivePart 2 c.size (t.castInTensor self).count (t.rank self)).1 else 0
  let cur := ((List.range n).find? (fun k => ! (t.chunkElems self k).all (fun i => decide (base + i < t.emitted.length)))).getD n
  (t.peersOf self).flatMap (fun q => (List.range' cur (min 2 (n - cur))).map (fun k => (q, 0, k)))

/-- The credits a running COLLECTIVE task may have granted by now. -/
def Task.grantable (t : Task) (self : Nat) : List (Nat × Nat × Nat) :=
  match (collCtl t.entry).kind with
  | 1 => if entryOrder t.entry = 0 then t.foldGrants self else t.chunkGrants self
  | 2 => (if entryOrder t.entry = 0 then t.foldGrants self else t.chunkGrants self) ++ t.windowGrants self 1
  | _ => t.windowGrants self 0

/-- What a member announces with its messages (R175). -/
def Task.announcement (t : Task) (self : Nat) : Announcement :=
  let c := collCtl t.entry
  let u := t.castInTensor self
  { kind := c.kind, op := c.op, outFmt := c.outFmt, group := c.size, root := c.root, chunkLog2 := c.chunkLog2, wire := c.wire,
    shape := u.dims, fmt := u.fmt, seqNo := t.coll.seqNo }

/-- The credits a task owes its peers are granted. -/
def State.grantCredits (s : State) (ref : TaskRef) : State :=
  match s.task ref with
  | none => s
  | some t =>
    if t.phase ≠ .running ∨ entryOpcode t.entry ≠ 0x05 then s
    else
      let new := (t.grantable s.node).filter (fun x => ! t.coll.granted.contains x)
      let group := t.group s.node
      let s1 := new.foldl (fun u x =>
        u.emitFabric (.collectiveCredit (group.getD x.1 0) (collCtl t.entry).ctag x.2.1 x.2.2 (t.announcement s.node) 0)) s
      s1.putTask { t with coll := { t.coll with granted := t.coll.granted ++ new } }

/-! ### The multicast of a BROADCAST root (R180) -/

/-- The next piece of the multicast: the same for every attached member. -/
def Task.castPiece (t : Task) (self : Nat) : Option Nat :=
  match t.peersOf self with
  | [] => none
  | q :: _ => (t.nextPiece self q).map (fun x => x.2.2)

/-- Is a task the root of a BROADCAST? -/
def Task.isRoot (t : Task) (self : Nat) : Bool :=
  decide (entryOpcode t.entry = 0x05) && decide ((collCtl t.entry).kind = 3) && decide (t.rank self = (collCtl t.entry).root)

/-- The core cycle in which the root is ready to send its next piece is noted. -/
def State.noteReady (s : State) (ref : TaskRef) : State :=
  match s.task ref with
  | none => s
  | some t =>
    if t.phase ≠ .running ∨ t.coll.readyAt.isSome ∨ ! t.isRoot s.node then s
    else match t.peersOf s.node, t.castPiece s.node with
      | q :: _, some i =>
        if (t.pieceBytes s.node 0 q i).isSome then s.putTask { t with coll := { t.coll with readyAt := some s.cycle } } else s
      | _, _ => s

/-- The exchange moves on: credits are granted, a root's readiness is noted. -/
def State.exchange (s : State) (ref : TaskRef) : State := (s.grantCredits ref).noteReady ref

end Sys2Proof.Machine
end

