-- ==== Sys2Proof/Machine/TaskFlow.lean ====
section
/-!
DEFINITION. How a task flows (R16, R21, R22): its rank, its range list, its failure and its end, its record and the
units it gives back; the event flags that release tasks; check 9's formation of range lists (R236 to R249), check 10
and the binding check (R212).
-/
namespace Sys2Proof.Machine

/-! ### Rank (R74) -/

/-- Does a task rank before another by age: submission time, queue, index? -/
def olderThan (a b : Task) : Bool :=
  decide (a.subCycle < b.subCycle) ||
    (decide (a.subCycle = b.subCycle) && (decide (a.ref.sq < b.ref.sq) ||
      (decide (a.ref.sq = b.ref.sq) && (decide (a.ref.life < b.ref.life) ||
        (decide (a.ref.life = b.ref.life) && decide (a.ref.index < b.ref.index))))))

/-- A STEP_CLOSE that holds later tasks back: accepted, not failed before its boundary (R232). -/
def isOpenClose (t : Task) : Bool :=
  decide (entryOpcode t.entry = 0x0B) && decide (t.status = St.success ∨ t.status = St.delivery)

/-- Does a task rank after an incomplete STEP_CLOSE? -/
def State.behindClose (s : State) (t : Task) : Bool := s.tasks.any (fun c => isOpenClose c && olderThan c t)

/-! ### Range store (R249) -/

/-- Entries given back to the range store. -/
def State.giveRanges (s : State) (n : Nat) : State :=
  s.setReg R.tuRangesFree (BitVec.ofNat 32 (s.fld R.tuRangesFree 0 16 + n))

/-- Entries taken from the range store. -/
def State.takeRanges (s : State) (n : Nat) : State :=
  s.setReg R.tuRangesFree (BitVec.ofNat 32 (s.fld R.tuRangesFree 0 16 - n))

/-- A translation failure is recorded: the first one stays, of one core cycle's the one of the lowest queue (R259). -/
def State.tuFault (s : State) (q : Nat) (st : Status) (va : Nat) : State :=
  s.latch { off := R.tuFault, key := q, val := q % 1024 * 2 ^ 16 + st.toNat, also := pairWords R.tuFaultVaLo va }

/-! ### Event flags (R75, R79) -/

/-- The flags a task waits for: its header's, and a WAIT's body words. -/
def Task.awaited (t : Task) : List Nat :=
  let body := if entryOpcode t.entry = 0x09 then (List.range 24).map (fun i => eventWord (uintAt t.entry (16 + 2 * i) 2)) else []
  ((entryWait t.entry :: body).filter EventWord.en).map EventWord.event

/-- A task with the awaited flags that are set latched, and eligible once its header's has been seen (R75, R77). The
flags of a core cycle are observed at its end, so eligibility begins in the next. -/
def State.observing (s : State) (t : Task) : Task :=
  let seen := t.seen ++ t.awaited.filter (fun e => s.flag e && ! t.seen.contains e)
  let w := entryWait t.entry
  { t with seen := seen, eligible := t.eligible || ! w.en || seen.contains w.event }

/-- Every accepted task observes the flags. -/
def State.observe (s : State) : State := { s with tasks := s.tasks.map s.observing }

/-! ### Units (R16) -/

def Task.streamsBound (t : Task) : List (Fin 256) :=
  (match t.fillBind with | some b => [b.stream] | none => []) ++ (match t.drainBind with | some b => [b.stream] | none => [])

/-- A stream is marked FAILED for the rest of the step (R222). -/
def State.markFailed (s : State) (n : Fin 256) : State :=
  (s.setBit (R.dsState n) 30 true).setBit (R.strFailed (n / 32)) (n % 32) true

/-- 64 KiB units of reorder buffer that a COLLECTIVE claims: RWIN pieces in Constantan mode of a reducing kind (R177). -/
def robClaim (e : List Byte) : Nat :=
  let c := collCtl e
  if entryOpcode e = 0x05 ∧ (c.kind = 1 ∨ c.kind = 2) ∧ entryOrder e = 0 then ceilDiv (c.rwin * 2 ^ c.chunkLog2) 65536 else 0

/-- A task's claimed units are free again (step 9 of How a task flows). -/
def State.releaseUnits (s : State) (t : Task) : State :=
  let s1 := match t.engine with
    | none => s
    | some e => (((s.setFld (R.engStatus e) 27 3 0).setReg (R.engTaskSq e) 0).setReg (R.engTaskIndex e) 0)
  let s2 := match t.lane with | none => s1 | some l => s1.setBit R.rdLaneBusy l false
  let s3 := match t.expander with | none => s2 | some x => s2.setBit R.cxExpBusy x false
  let s4 := match t.compressor with | none => s3 | some c => s3.setBit R.cxCompBusy c false
  s4.setFld R.rdRobUsed 0 9 (s4.fld R.rdRobUsed 0 9 - t.robUnits)

/-! ### Failure (R22, R181, R206, R222) -/

/-- The blocks for which a STREAM has taken credits and written no byte (R206). -/
def Task.unusedCredits (t : Task) : Nat :=
  (((solder (streamBlockBytes t.entry) t.blocks).take t.runsTaken).flatMap (fun r => List.range' r.1 r.2)).countP
    (fun b => ! t.blocksWritten.contains b)

/-- The credits a failed task returns. -/
def State.returnCredits (s : State) (t : Task) : State :=
  if entryOpcode t.entry = 0x08 then
    match streamCredit t.entry with
    | some n => s.bump (R.crdVal n) t.unusedCredits
    | none => s
  else s

/-- A COLLECTIVE task that has failed owes every other member a failure notice, sent in the next core cycle (R181, R413). -/
def State.oweNotices (s : State) (t : Task) : State :=
  if entryOpcode t.entry = 0x05 then { s with later := { s.later with notices := s.later.notices ++ [t.ref] } } else s

/-- The failure notices of a COLLECTIVE task, with the status it has failed with; a detached member sends none (R181). -/
def State.sendNotices (s : State) (ref : TaskRef) : State :=
  match s.task ref with
  | none => s
  | some t =>
    if t.status = St.detached ∨ t.status = St.success then s
    else ((t.group s.node).filter (fun n => decide (n ≠ s.node))).foldl
      (fun u n => u.emitFabric (.failureNotice n (collCtl t.entry).ctag t.status 0)) s

/-- The apertures a task has bound are unbound (R38, R40). -/
def State.unbind (s : State) (t : TaskRef) : State :=
  (List.range 16).foldl (fun u n => if u.apertureOwner n = some t then u.putAperture n none else u) s

/-- The tiles of a failing task whose generation words have not been written keep them unchanged (R206). -/
def State.voidTiles (s : State) (b : Option Binding) : State :=
  match b with
  | none => s
  | some b => match s.stream b.stream with
    | none => s
    | some d =>
      let tiles := (List.range' b.first b.count).filter (fun i => ! d.genIssued.contains i)
      s.putStream b.stream { d with voided := d.voided ++ tiles }

/-- What a failing task does to the rest of the block. -/
def State.failEffects (s : State) (t : Task) (st : Status) : State :=
  let s1 := ((t.streamsBound.foldl State.markFailed s).voidTiles t.fillBind).voidTiles t.drainBind
  let s2 := (s1.returnCredits t).oweNotices t
  if st = St.invalidated then s2.unbind t.ref else s2

/-- A task fails before it is dispatched: it claims nothing, and its record is next (R57). A Translation Request that has
not answered stays outstanding (R240). -/
def Task.failedEarly (t : Task) (st : Status) (now : Nat) : Task :=
  { t with phase := .finished, status := st, failedAt := now, ranges := [], reserved := 0, todo := [], faults := [],
           bytes := 0, digest := 0 }

/-- A running task fails: nothing staged is kept, and only requests outstanding are waited for (R22, R206). -/
def Task.failedRunning (t : Task) (st : Status) (now : Nat) : Task :=
  { t with phase := .failing, status := st, failedAt := now, bytes := 0, digest := 0,
           issueQ := (t.issueQ.filter (fun i => ! i.answered)).map (fun i => { i with alloc := 0 }) }

/-- Is nothing of a task outstanding? -/
def Task.drained (t : Task) : Bool :=
  decide (t.issueQ = []) && decide (t.pendingW = []) && ! t.flushing && decide (t.coll.awaiting = [])

/-- The bytes an engine's digest stage has passed are counted (R374). -/
def State.countDigested (s : State) (t : Task) : State :=
  match t.engine with
  | none => s
  | some e => s.bump64 (R.tmEngBytesLo e) (t.digestInput s.node).length

/-- A slot's table and generation. -/
def State.slotLens (s : State) (n : Nat) : List Nat := sget (fun _ => []) s.tables n
def State.slotGen (s : State) (n : Nat) : Nat := s.fld (R.cxSlot n) 0 16

/-- Does a byte of this chip's memory lie in the ring of a delivery stream that is bound to a task? -/
def State.inBoundRing (s : State) (t : Task) (a : Nat) : Bool :=
  match t.fillBind with
  | none => false
  | some b => match s.stream b.stream with
    | none => false
    | some d => decide (0x0F00_0000_0000 + d.ring ≤ a) && decide (a < 0x0F00_0000_0000 + d.ring + (d.lead + 1) * d.tileBytes)

/-- The bits of local memory that a failed task leaves undefined: all that it has written or would have written (R22), but
in a slot of its delivery stream only those it had written (R206, R218). -/
def State.lostBits (s : State) (t : Task) : List (Nat × Byte) :=
  let p := match entryCompress t.entry with | some p => p.slot | none => 0
  let left := t.leftCells s.node
  (t.allCells s.node (s.slotLens p) (s.slotGen p)).filter (fun c => ! s.inBoundRing t c.1 || left.contains c)

/-- A failing task with nothing outstanding is finished; its destination bytes are undefined (R22, log 12). DESIGN CHOICE
(log 20): no flushing read is issued for host writes it has posted. R22 stops its reads and goes on to step 7; R21 and
R90 ask for the read before a record. -/
def State.settleFailing (s : State) (t : Task) : State :=
  if t.drained then ((s.countDigested t).putTask { t with phase := .finished }).freeBits (s.lostBits t) else s

/-- A further failure of a task: only the first one counts, of those in one core cycle the one with the lowest status
(R22). -/
def State.failAgain (s : State) (t : Task) (st : Status) : State :=
  if t.status ≠ St.success ∧ t.failedAt = s.cycle ∧ st.toNat < t.status.toNat then s.putTask { t with status := st } else s

/-- A task fails with a status (R22). -/
def State.failTask (s : State) (ref : TaskRef) (st : Status) : State :=
  match s.task ref with
  | none => s
  | some t => match t.phase with
    | .running =>
      let s1 := (s.failEffects t st).putTask (t.failedRunning st s.cycle)
      if isQueueTask (entryOpcode t.entry) then s1.putTask { t.failedRunning st s.cycle with phase := .finished }
      else s1.settleFailing (t.failedRunning st s.cycle)
    | .failing => s.failAgain t st
    | .finished => s.failAgain t st
    | .recordIssued => s
    | .journal => s
    | _ => ((s.failEffects t st).giveRanges t.reserved).putTask (t.failedEarly st s.cycle)

/-- A task whose data is done and whose record is not written fails (R181, R253). -/
def State.failDone (s : State) (t : Task) (st : Status) : State :=
  if t.status = St.success then
    ((s.failEffects t st).putTask { t with status := st, failedAt := s.cycle, bytes := 0, digest := 0 }).freeBits (s.lostBits t)
  else s.failAgain t st

/-- A translation failure of a task, recorded in TU_FAULT (R238, R242, R246). -/
def State.failXlate (s : State) (ref : TaskRef) (st : Status) (va : Nat) : State :=
  (s.tuFault ref.sq st va).failTask ref st

/-! ### The end of a task's data (R21, R90) -/

/-- Is all the work of a running task done but the acknowledgements? -/
def Task.dataDone (t : Task) (self : Nat) : Bool :=
  t.readsDone self && decide (t.issueQ = []) && t.outputsDone self && t.ingotsBuilt &&
    t.piecesSent self

/-- The tasks that finish in this core cycle reach their rings in it (R85). -/
def Task.arrives (t : Task) (now : Nat) : Task :=
  if t.phase = .finished ∧ t.reachAt = none then { t with reachAt := some now } else t

/-- A task that has succeeded: its digest and its bytes (R357, R358). -/
def Task.succeeded (t : Task) (self : Nat) : Task :=
  let bs := t.digestInput self
  { t with phase := .finished, status := St.success, bytes := bs.length, digest := crc64 bs }

/-- The flushing read after a task's last host write (R90): to the DW-aligned address of the last byte written. -/
def State.issueFlush (s : State) (t : Task) : State :=
  match t.hostLast with
  | none => s
  | some a =>
    (match t.ranges.find? (fun (r : XRange) => decide (r.host ≤ a) && decide (a < r.host + r.len)) with
     | some r => s.emit (.flushRead (r.target (a - r.host) / 4 * 4) (s.pasidOf (s.ctxOf t.ref)) (! r.untranslated))
     | none => s).putTask { t with flushing := true, flushAt := s.cycle }

/-- A running task moves on as far as it can: its flushing read goes out after its last host write, and it is finished
once every write has been acknowledged (R21, R22). -/
def State.settle (s : State) (ref : TaskRef) : State :=
  match s.task ref with
  | none => s
  | some t => match t.phase with
    | .failing => s.settleFailing t
    | .running =>
      if isQueueTask (entryOpcode t.entry) then s
      else if ! t.dataDone s.node then s
      else if t.hostLast.isSome && ! t.flushing && ! t.flushed then s.issueFlush t
      else if t.drained then (s.countDigested t).putTask (t.succeeded s.node)
      else s
    | _ => s

/-! ### Records (R83 to R87, R362) -/

/-- EVENT of a record: the set event is enabled and the status class is 0 (R83). -/
def Task.recordEvent (t : Task) : Bool := (entrySet t.entry).en && decide (t.status.toNat / 4096 = 0)

/-- The ENGINE field: 0xFF for a task that ran on none. -/
def Task.engineField (t : Task) : Nat := match t.engine with | some e => e | none => 0xFF

/-- HOST_FLUSH: a flushing read was issued for the task's data writes. -/
def Task.hostFlush (t : Task) : Bool := t.flushing || t.flushed

/-- The 32 bytes of a completion record (R83). -/
def completionRecord (t : Task) (sqHead : Nat) (phase : Bool) : List Byte :=
  leBytes 4 (entryTag t.entry) ++ leBytes 2 t.status.toNat ++ leBytes 2 t.ref.sq ++ leBytes 4 t.ref.index ++
    leBytes 4 (sqHead * 2 ^ 16 + t.engineField * 2 ^ 8 + boolBit t.recordEvent * 4 + boolBit t.hostFlush * 2 + boolBit phase) ++
    leBytes 8 t.bytes ++ leBytes 8 t.digest.toNat

/-- The held array cycles of the last closed step (R366). -/
def State.heldLast (s : State) : Nat := ((List.range 16).map (fun c => s.reg64 (R.holdLastLo c))).sum

/-- The 64 bytes of a journal record, formed at T_DONE; its PHASE bit is put in when it is appended (R362). -/
def State.journalRecord (s : State) (t : Task) : List Byte :=
  let close := decide (entryOpcode t.entry = 0x0B)
  leBytes 4 (entryTag t.entry) ++ leBytes 2 t.status.toNat ++ leBytes 2 t.ref.sq ++ leBytes 4 t.ref.index ++
    leBytes 1 (entryOpcode t.entry) ++ leBytes 1 t.engineField ++
    leBytes 1 (boolBit (entrySession t.entry) * 128 + entryOrder t.entry * 32 + boolBit t.recordEvent * 4 + boolBit t.hostFlush * 2) ++
    leBytes 1 0 ++ leBytes 8 t.tSubmit ++ leBytes 8 t.tDispatch ++ leBytes 8 t.tDone ++
    leBytes 8 (if close then closeStepId t.entry else t.bytes) ++
    leBytes 8 (if close then s.heldLast else t.digest.toNat) ++
    leBytes 4 (s.reg R.strStep).toNat ++ leBytes 4 (s.reg (R.epochApplied 10)).toNat

/-- Are all sources of a STREAM in tier B (R230)? -/
def Task.pageIn (t : Task) : Bool :=
  decide (entryOpcode t.entry = 0x08) && entrySession t.entry && ! streamSrcHost t.entry &&
    decide (t.streamBytes ≤ 2 ^ 24) && t.blocks.all (fun b => decide (regionOf (b.1 % 2 ^ 48) = .tierB))

/-- A page-in that took more than 2 ms is counted (R230). -/
def State.countLate (s : State) (t : Task) : State :=
  if t.pageIn && decide (3200000 < s.cycle - t.acceptAt - t.closeWait) then s.bump R.strSessionLate 1 else s

/-- The task's engine counts it (R374). -/
def State.countTask (s : State) (t : Task) : State :=
  match t.engine with
  | none => s
  | some e =>
    let s1 := s.bump (R.tmEngTasks e) 1
    if t.status = St.success then s1 else s1.bump (R.tmEngFailed e) 1

/-- Step 7 of How a task flows has ended, with the record written or lost: the ranges and the apertures go back, and the
journal record is next. -/
def State.recordDone (s : State) (t : Task) (lost : Bool) : State :=
  let s1 := ((s.countTask t).countLate t).unbind t.ref
  let t1 : Task := { t with phase := .journal, journalAt := s.cycle, tDone := s.gtc, recordLost := lost, ranges := [], reserved := 0 }
  (s1.giveRanges t.reserved).putTask { t1 with record := s.journalRecord t1 }

/-! ### The host footprint (R236, R237) -/

/-- A list with a number put in its place; numbers already there are not repeated. -/
def insertSorted (x : Nat) : List Nat → List Nat
  | [] => [x]
  | y :: t => if x < y then x :: y :: t else if x = y then y :: t else y :: insertSorted x t

/-- Host pieces with the same permissions joined where they touch. -/
def joinPieces : List HostPiece → List HostPiece
  | [] => []
  | p :: t => match joinPieces t with
    | [] => [p]
    | q :: u =>
      if p.addr + p.len = q.addr ∧ p.read = q.read ∧ p.write = q.write then { p with len := p.len + q.len } :: u
      else p :: q :: u

/-- The footprint in ascending order, each byte marked with every permission it is named for. -/
def footprint (ps : List HostPiece) : List HostPiece :=
  let live := ps.filter (fun p => decide (0 < p.len))
  let cuts := live.foldl (fun acc p => insertSorted p.addr (insertSorted (p.addr + p.len) acc)) []
  joinPieces ((cuts.zip (cuts.drop 1)).filterMap (fun c =>
    let meets := live.filter (fun p => decide (p.addr ≤ c.1) && decide (c.2 ≤ p.addr + p.len))
    if meets = [] then none
    else some { addr := c.1, len := c.2 - c.1, read := meets.any HostPiece.read, write := meets.any HostPiece.write }))

/-- May two consecutive ranges merge (R237)? -/
def mergeable (a b : XRange) : Bool :=
  decide (a.host + a.len = b.host) && decide (a.addr + a.len = b.addr) && decide (a.read = b.read) &&
    decide (a.write = b.write) && decide (a.untranslated = b.untranslated) && ! a.marked && ! b.marked &&
    decide (a.len + b.len ≤ 2 ^ 48)

/-- Neighbouring ranges merged. -/
def joinRanges : List XRange → List XRange
  | [] => []
  | r :: t => match joinRanges t with
    | [] => [r]
    | q :: u => if mergeable r q then { r with len := r.len + q.len } :: u else r :: q :: u

/-- A range put in its place by host address. -/
def insertRange (r : XRange) : List XRange → List XRange
  | [] => [r]
  | q :: t => if r.host < q.host then r :: q :: t else q :: insertRange r t

/-- Ranges put into a range list as they are. -/
def placeRanges (l : List XRange) (new : List XRange) : List XRange := new.foldl (fun acc r => insertRange r acc) l

/-- Ranges added to a range list (R237). -/
def addRanges (l : List XRange) (new : List XRange) : List XRange := joinRanges (placeRanges l new)

/-- The untranslated ranges of a footprint while ATS is disabled: one for each interval, split at 2^48-byte boundaries
(R243). -/
def untranslatedRanges (ps : List HostPiece) : List XRange :=
  let whole := joinPieces (ps.map (fun p => { p with read := ps.any HostPiece.read, write := ps.any HostPiece.write }))
  whole.flatMap (fun p =>
    (List.range ((p.addr + (p.len - 1)) / 2 ^ 48 - p.addr / 2 ^ 48 + 1)).map (fun i =>
      let lo := max p.addr ((p.addr / 2 ^ 48 + i) * 2 ^ 48)
      { host := lo, addr := lo, len := min (p.addr + p.len) ((p.addr / 2 ^ 48 + i + 1) * 2 ^ 48) - lo, read := p.read,
        write := p.write, untranslated := true, marked := false }))

/-! ### The binding check (R212) -/

/-- The scratchpad window. -/
def scratchBase : Nat := 0x0F00_0000_0000

/-- The slots of a stream (R210). -/
def DsRun.slots (d : DsRun) : Nat := d.lead + 1

/-- The bytes of a stream's ring, and of its generation words. -/
def DsRun.ringLen (d : DsRun) : Nat := d.slots * d.tileBytes
def DsRun.genLen (d : DsRun) : Nat := 8 * d.slots

/-- Does a local span overlap a stream's ring, or its generation words? -/
def DsRun.hitsRing (d : DsRun) (p : Nat × Nat) : Bool := overlaps p.1 p.2 (scratchBase + d.ring) d.ringLen
def DsRun.hitsGen (d : DsRun) (p : Nat × Nat) : Bool := overlaps p.1 p.2 (scratchBase + d.gen) d.genLen

/-- The local span of a view on this chip, if it may lie there. -/
def localSpan (self : Nat) (v : View) : List (Nat × Nat) :=
  if v.host || (decide (v.axes = 0) && decide (v.base / 2 ^ 48 ≠ self)) then []
  else match v.span with
    | none => []
    | some (lo, hi) => [(lo.toNat, (hi - lo + 1).toNat)]

/-- The spans that can bind a task: its source's, its destination's. -/
def bindingSpan (self : Nat) (codec : Option CodecParams) (v : Option View) : List (Nat × Nat) :=
  match codec, v with
  | none, some v => localSpan self v
  | _, _ => []

/-- The spans that only must keep clear of rings: index and select views, and the memory of compressed streams. -/
def otherSpans (self : Nat) (e : List Byte) : List (Nat × Nat) :=
  (match indexView e with | some v => localSpan self v | none => []) ++
  (match selectView e with | some v => localSpan self v | none => []) ++
  (match entryExpand e, sourceView e with | some p, some v => codecSpans p v | _, _ => []) ++
  (match entryCompress e, destView e with | some p, some v => codecSpans p v | _, _ => [])

/-- The streams that are enabled in the running step, by number. -/
def State.enabledStreams (s : State) : List (Fin 256 × DsRun) :=
  s.ds.filterMap (fun p => if h : p.1 < 256 then p.2.map (fun d => (⟨p.1, h⟩, d)) else none)

/-- The binding of a span to a stream, or its failure: whole tiles from the slot of tile DS_NEXT. -/
def State.bindTo (s : State) (v : View) (p : Nat × Nat) (n : Fin 256) (d : DsRun) : Option Binding :=
  let next := (s.reg (R.dsNext n)).toNat
  let k := p.2 / d.tileBytes
  if ! d.bad && v.dense && decide (p.2 % d.tileBytes = 0) &&
      decide (p.1 = scratchBase + d.ring + next % d.slots * d.tileBytes) &&
      decide (p.1 + p.2 ≤ scratchBase + d.ring + d.ringLen) && decide (next + k ≤ d.tiles) then
    some { stream := n, first := next, count := k }
  else none

/-- The streams of one direction, fed by a queue, whose ring a span overlaps. -/
def State.feeds (s : State) (q : Nat) (drain : Bool) (ps : List (Nat × Nat)) : List (Fin 256 × DsRun) :=
  s.enabledStreams.filter (fun x => decide (x.2.queue = q) && decide (x.2.drain = drain) && ps.any x.2.hitsRing)

/-- The binding through one view: at most one stream of its direction (R212). -/
def State.bindVia (s : State) (t : Task) (drain : Bool) (codec : Option CodecParams) (v : Option View) :
    Except Status (Option Binding) :=
  let ps := bindingSpan s.node codec v
  match s.feeds t.ref.sq drain ps, ps, v with
  | [], _, _ => .ok none
  | [(n, d)], p :: _, some v =>
    if entrySession t.entry then .error St.delivery
    else match s.bindTo v p n d with
      | some b => .ok (some b)
      | none => .error St.delivery
  | _, _, _ => .error St.delivery

/-- The whole binding check: the bindings, or 0x9002 DELIVERY. -/
def State.bindCheck (s : State) (t : Task) : Except Status (Option Binding × Option Binding) :=
  let src := bindingSpan s.node (entryExpand t.entry) (sourceView t.entry)
  let dst := bindingSpan s.node (entryCompress t.entry) (destView t.entry)
  let oth := otherSpans s.node t.entry
  match s.bindVia t false (entryCompress t.entry) (destView t.entry), s.bindVia t true (entryExpand t.entry) (sourceView t.entry) with
  | .ok f, .ok g =>
    let clear (b : Option Binding) (ps : List (Nat × Nat)) : Bool :=
      s.enabledStreams.all (fun x => ps.all (fun p => ! x.2.hitsRing p) || (match b with | some y => decide (y.stream = x.1) | none => false))
    if s.enabledStreams.any (fun x => (src ++ dst ++ oth).any x.2.hitsGen) then .error St.delivery
    else if clear f dst && clear g src && clear none oth then .ok (f, g)
    else .error St.delivery
  | _, _ => .error St.delivery

/-- The tiles of a binding are assigned: DS_NEXT advances. -/
def State.assign (s : State) (b : Option Binding) : State :=
  match b with
  | none => s
  | some b => s.wrapAdd (R.dsNext b.stream) b.count

/-- The binding check of a task that has passed check 10: it is queued, or fails before dispatch. A task that already
carries tiles keeps them. -/
def State.bindTask (s : State) (ref : TaskRef) : State :=
  match s.task ref with
  | none => s
  | some t =>
    if t.fillBind.isSome || t.drainBind.isSome then s.putTask { t with phase := .queued }
    else match s.bindCheck t with
      | .error st => s.failTask ref st
      | .ok (f, d) => ((s.assign f).assign d).putTask { t with phase := .queued, fillBind := f, drainBind := d }

/-- The end of check 9: check 10, then the binding check, which waits behind an incomplete STEP_CLOSE (R212). -/
def State.afterXlate (s : State) (ref : TaskRef) : State :=
  match s.task ref with
  | none => s
  | some t =>
    match mapCheck s t.entry t.blocks with
    | some st => s.failTask ref st
    | none =>
      if s.behindClose t then s.putTask { t with phase := .bindWait } else s.bindTask ref

/-- The tasks of a queue, in acceptance order. -/
def State.queueTasks (s : State) (q : Nat) : List TaskRef :=
  (s.tasks.filter (fun t => decide (t.ref.sq = q))).map Task.ref

/-- The binding checks that waited for a STEP_CLOSE, or for an earlier task back at check 9, are made, in acceptance order
within each queue (R212, R248). -/
def State.bindWaiting (s : State) : State :=
  ((s.tasks.map Task.ref).foldl (fun (acc : State × List Nat) r =>
    match acc.1.task r with
    | none => acc
    | some t =>
      if acc.2.contains r.sq then acc
      else match t.phase with
        | .bindWait => if acc.1.behindClose t then (acc.1, r.sq :: acc.2) else (acc.1.bindTask r, acc.2)
        | .blockList => (acc.1, r.sq :: acc.2)
        | .waitRanges => (acc.1, r.sq :: acc.2)
        | .translating => (acc.1, r.sq :: acc.2)
        | _ => acc) (s, [])).1

/-- The tasks of a queue that wait before check 9 with nothing to translate pass it, in acceptance order, up to the
first task that holds the later ones; binding checks that waited for one of them follow (R236, R248). -/
def State.advanceQueue (s : State) (q : Nat) : State :=
  ((s.queueTasks q).foldl (fun (acc : State × Bool) r =>
    if acc.2 then acc
    else match acc.1.task r with
      | none => acc
      | some t => match t.phase with
        | .blockList => (acc.1, true)
        | .translating => (acc.1, true)
        | .waitRanges => if t.todo = [] then (acc.1.afterXlate r, false) else (acc.1, true)
        | _ => acc) (s, false)).1.bindWaiting

/-- Is a task the one of its queue that may be at check 9 (R248)? -/
def State.firstBeforeXlate (s : State) (t : Task) : Bool :=
  ((s.tasks.filter (fun x => decide (x.ref.sq = t.ref.sq) &&
    decide (x.phase = .blockList ∨ x.phase = .waitRanges ∨ x.phase = .translating))).map Task.ref).head? = some t.ref

/-- The list of a task is final: entries it does not use go back, and check 10 follows (R249). -/
def State.xlateDone (s : State) (ref : TaskRef) : State :=
  match s.task ref with
  | none => s
  | some t =>
    let s1 := (s.giveRanges (t.reserved - t.ranges.length)).putTask { t with reserved := t.ranges.length }
    (s1.afterXlate ref).advanceQueue ref.sq

/-- A task fails at check 9, and the tasks behind it go on. -/
def State.failAtXlate (s : State) (ref : TaskRef) (st : Status) (va : Nat) : State :=
  (s.failXlate ref st va).advanceQueue ref.sq

/-- A task fails, whatever its phase, and the tasks behind it in its queue go on. -/
def State.fail (s : State) (ref : TaskRef) (st : Status) : State := (s.failTask ref st).advanceQueue ref.sq

/-- A task leaves the block; the binding checks that a STEP_CLOSE held are made (R212). A Translation Request of its that
has not answered stays outstanding (R240). -/
def State.retireTask (s : State) (t : Task) : State :=
  let lost := match t.xreq with
    | some r => if 0 < r.len then [(t.ref, r.at_)] else []
    | none => []
  let s1 := ({ s.releaseUnits t with xorphans := (s.releaseUnits t).xorphans ++ lost } : State).dropTask t.ref
  if entryOpcode t.entry = 0x0B then s1.bindWaiting else s1

end Sys2Proof.Machine
end

