-- ==== Sys2Proof/Machine/Queue.lean ====
section
/-!
DEFINITION. The queue interface (R49 to R82): doorbells, push windows, header and entry reads, acceptance (R57), pause,
resume and skip, WAIT and FENCE, event flags and timers.
-/
namespace Sys2Proof.Machine

/-! ### A submission queue's registers (R51) -/

def State.sqMode (s : State) (q : Nat) : Nat := s.fld (R.sqState q) 30 2
def State.sqPhase (s : State) (q : Nat) : Bool := s.bit (R.sqState q) 29
def State.sqHead (s : State) (q : Nat) : Nat := s.fld (R.sqState q) 0 16
def State.sqTail (s : State) (q : Nat) : Nat := s.fld (R.sqTail q) 0 16
def State.sqUnits (s : State) (q : Nat) : Nat := 2 ^ (s.fld (R.sqCfg q) 12 4 + 6)
def State.sqHost (s : State) (q : Nat) : Bool := s.bit (R.sqCfg q) 30
def State.sqCtx (s : State) (q : Nat) : Nat := s.fld (R.sqCfg q) 0 12
def State.setSqMode (s : State) (q m : Nat) : State := s.setFld (R.sqState q) 30 2 m

/-- The PASID of a host ring's accesses (R50, R255). -/
def State.sqPasid (s : State) (q : Nat) : Option (BitVec 20) := some (BitVec.ofNat 20 (s.fld (R.sqLimits q) 0 20))

/-- The address of a unit of a ring. -/
def State.sqUnit (s : State) (q u : Nat) : Nat := s.reg64 (R.sqBaseLo q) + 64 * (u % s.sqUnits q)

/-- The units from HEAD that TAIL covers (R60). -/
def State.sqCovered (s : State) (q : Nat) : Nat := (s.sqTail q + s.sqUnits q - s.sqHead q) % s.sqUnits q

/-! ### Stopping a queue (R70, R71) -/

/-- What is fetched of a queue and not accepted is dropped; the header last read stays latched. A header read that has
not answered is kept apart, to be discarded when it answers (R50, R64). -/
def State.abandon (s : State) (q : Nat) : SqRun :=
  let r := s.sq q
  { r with firstRead := none, outstanding := false, header := none, pushed := none, prefetched := [],
           stale := if r.outstanding then r.stale ++ [(s.sqUnit q (s.sqHead q), r.lastRead)] else r.stale }

/-- The entry at HEAD as far as it has been read (R70): the header last read, a pushed copy, or a prefetched copy that
TAIL covers; a copy beyond TAIL leaves no trace (R67). -/
def State.entryRead (s : State) (q : Nat) : Option (List Byte) :=
  let r := s.sq q
  match r.latched, r.pushed with
  | some h, _ => some h
  | none, some e => some (e.take 64)
  | none, none => (r.prefetched.find? (fun p => decide (p.1 = s.sqHead q) && decide (entryUnits p.2 ≤ s.sqCovered q))).map
      (fun p => p.2.take 64)

/-- A queue stops for the entry at a unit (R70, R71): its index, its tag, and the header that SKIP may pass. -/
def State.sqHalt (s : State) (q : Nat) (st : Status) (unit : Nat) (index : Word) (tag : Nat) (header : Option (List Byte)) : State :=
  let a := (s.putSq q { s.abandon q with latched := header }).setSqMode q 3
  let b := (a.setReg (R.sqErr q) (BitVec.ofNat 32 (st.toNat * 2 ^ 16 + unit))).setReg (R.sqErrIndex q) index
  let c := (b.setReg (R.sqErrTag q) (BitVec.ofNat 32 tag)).hwSet (R.qiSqerr (q / 32)) (q % 32)
  if c.bit R.qiIrq 31 then c.msix (c.fld R.qiIrq 0 11) else c

/-- A queue stops for the entry at HEAD (R70). A doorbell cause reports index and tag zero where none has been read;
where another cause finds no header read, the tag is zero too (DESIGN CHOICE, log 20). -/
def State.sqStop (s : State) (q : Nat) (st : Status) (doorbell : Bool) : State :=
  let h := s.entryRead q
  s.sqHalt q st (s.sqHead q) (if doorbell && h.isNone then 0 else s.reg (R.sqIndex q))
    (match h with | some e => uintAt e 4 4 | none => 0) h

/-- A read of a ring that its host or its memory turned away stops the queue. -/
def State.sqReadFailed (s : State) (q : Nat) (st : Status) (a : Nat) : State :=
  (if s.sqHost q then s else s.memRefusal st a none).sqStop q st false

/-! ### Reading a ring (R50, R64) -/

/-- Does a read of a device ring wait for tier B (R391)? -/
def State.sqWaits (s : State) (q : Nat) : Bool := ! s.sqHost q && s.tierBWaits (s.reg64 (R.sqBaseLo q))

/-- The units of a ring as read: those the host returned, or those in device memory under the ring's context; or the
status and the address of the failure. -/
def State.sqRead (s : State) (q : Nat) (units : List Nat) (answer : RingAnswer) : Except (Status × Nat) (List Byte) :=
  if s.sqHost q then
    (match answer with
     | .data bs => .ok (fitBytes (64 * units.length) bs)
     | _ => .error (St.host, 0))
  else
    let cond := if answer = .uncorrectable then MemCond.uncorrectable else MemCond.good
    match units.findSome? (fun u => (s.memVerdict (s.sqCtx q) .read (s.sqUnit q u) 64 cond).map (fun st => (st, s.sqUnit q u))) with
    | some f => .error f
    | none => if answer = .error then .error (St.host, 0) else .ok (units.flatMap (fun u => s.seenMem (s.sqUnit q u) 64))

/-- A host read of a unit leaves; none leaves where an invalidation has marked the ring. -/
def State.sqHostRead (s : State) (q u : Nat) : State :=
  match hostTarget (s.sq q).ranges (s.sqUnit q u) with
  | some x => s.emit (.hostRead x.1 64 (s.sqPasid q) x.2)
  | none => s

/-- A header read is issued (R64). -/
def State.readHeader (s : State) (q : Nat) : State :=
  let r := s.sq q
  let s1 := s.putSq q { r with firstRead := some (r.firstRead.getD s.cycle), lastRead := s.cycle, outstanding := true }
  if s.sqHost q then s1.sqHostRead q (s.sqHead q) else s1

/-- A running queue with published units and nothing at HEAD fetched begins to fetch (R60, R64). -/
def State.startFetch (s : State) (q : Nat) : State :=
  let r := s.sq q
  if s.sqMode q = 1 ∧ s.sqHead q ≠ s.sqTail q ∧ r.firstRead = none ∧ r.header = none ∧ r.pushed = none ∧
      r.prefetched.all (fun p => decide (p.1 ≠ s.sqHead q)) then s.readHeader q else s

/-! ### Doorbells and the push window (R58 to R60, R68) -/

/-- The pushed entry: LEN_M1 + 1 units of the push window. -/
def State.pushedEntry (s : State) (q : Nat) : List Byte :=
  let hdr := (List.range 16).map (fun i => sget (fun _ => 0) s.push (1024 * q + i))
  (List.range (64 * entryUnits hdr)).map (fun i => sget (fun _ => 0) s.push (1024 * q + i))

/-- The captured copy becomes the entry at the old TAIL, or is discarded (R67, R68). -/
def State.capture (s : State) (q oldTail adv : Nat) : State :=
  let e := s.pushedEntry q
  if s.sqMode q = 1 ∧ s.sqHead q = oldTail ∧ adv = entryUnits e ∧ entryMark e = s.sqPhase q then
    (s.bump (R.sqPushUsed q) 1).putSq q { s.sq q with pushed := some e, prefetched := [] }
  else s.bump (R.sqPushDiscarded q) 1

/-- A doorbell (R60). -/
def ringSqDoorbell (q : Nat) (value : Word) (s : State) : State :=
  let units := s.sqUnits q
  let old := s.sqTail q
  let new := getField value 0 16
  let adv := (new + units - old) % units
  let free := (s.sqHead q + 2 * units - old - 1) % units + 1
  if s.sqMode q = 0 then s
  else if units ≤ new ∨ free ≤ adv then (if s.sqMode q = 3 then s else s.sqStop q St.length true)
  else
    let r := s.sq q
    let s1 := (s.setReg (R.sqTail q) (BitVec.ofNat 32 new)).putSq q
      { r with pubs := if adv = 0 then r.pubs else r.pubs ++ [(adv, s.gtc, s.cycle)] }
    (if getField value 31 1 = 1 then s1.capture q old adv else s1).startFetch q

def execSqDoorbell (src : Requester) (q : Fin 1024) (value : Word) (s : State) : Result :=
  s.regWrite src (R.sqDoorbell q) value (ringSqDoorbell q value)

/-- Is a write of the push window naturally aligned, of 4 to 64 bytes, and within it (R59)? -/
def pushWriteOk (off len : Nat) : Bool :=
  decide (len = 4 ∨ len = 8 ∨ len = 16 ∨ len = 32 ∨ len = 64) && decide (off % len = 0) && decide (off + len ≤ 1024)

/-- Bytes put into a keyed table of bytes. -/
def putBytes : SMap Byte → Nat → List Byte → SMap Byte
  | m, _, [] => m
  | m, k, b :: t => putBytes (sset (fun _ => 0) m k b) (k + 1) t

/-- A write of the push window at an offset in it. -/
def writePush (q off : Nat) (bytes : List Byte) (s : State) : State :=
  if pushWriteOk off bytes.length then { s with push := putBytes s.push (1024 * q + off) bytes } else s

def execPushWindowWrite (src : Requester) (q : Fin 1024) (offset : Nat) (bytes : List Byte) (s : State) : Result :=
  .next (s.gate (.reg src (R.sqDoorbell q + 0x400 + offset) bytes) (writePush q offset bytes))

/-- The records of a completion ring. -/
def State.cqRecords (s : State) (c : Nat) : Nat := 2 ^ (s.fld (R.cqCfg c) 16 4 + 6)

/-- A new HEAD of a completion ring; at or above the record count it is discarded (R88). -/
def State.setCqHead (s : State) (c head : Nat) : State :=
  if head < s.cqRecords c then s.setReg (R.cqHead c) (BitVec.ofNat 32 head) else s

/-- A write of CQ_HEAD_DOORBELL (R58). -/
def ringCqDoorbell (q : Nat) (value : Word) (s : State) : State :=
  let c := getField value 16 8
  if s.bit (R.sqCfg q) 31 ∧ s.fld (R.cqCfg c) 0 12 = s.sqCtx q then s.setCqHead c (getField value 0 16) else s

def execCqHeadDoorbell (src : Requester) (q : Fin 1024) (value : Word) (s : State) : Result :=
  s.regWrite src (R.cqHeadDoorbell q) value (ringCqDoorbell q value)

def execCqHeadWrite (src : Requester) (c : Fin 256) (value : Word) (s : State) : Result :=
  s.regWrite src (R.cqHead c) value (fun t => t.setCqHead c (getField value 0 16))

/-! ### Header reads and prefetch (R64, R66) -/

/-- A header read answers: a set mark keeps the header, an unset one waits for the repeat read (R64). Reads answer in the
order they were issued in (DEDUCED, log 20): the answer to a read whose fetch was abandoned is discarded, and one that
comes after the mark's 3,200 core cycles is too late. -/
def headerResponse (q : Nat) (answer : RingAnswer) (s : State) : State :=
  let r := s.sq q
  match r.stale with
  | _ :: l => s.putSq q { r with stale := l }
  | [] =>
    if ! r.outstanding || s.sqWaits q || decide (r.firstRead.getD 0 + 3200 < s.cycle) then s
    else match s.sqRead q [s.sqHead q] answer with
      | .error (st, a) => (s.putSq q { r with outstanding := false }).sqReadFailed q st a
      | .ok h =>
        let r1 := { r with outstanding := false, answeredAt := s.cycle, latched := some h }
        if entryMark h = s.sqPhase q then s.putSq q { r1 with header := some h, firstRead := none } else s.putSq q r1

def execSqHeaderReadResponse (q : Fin 1024) (answer : RingAnswer) (s : State) : Result := .next (headerResponse q answer s)

/-- The repeat read is due 64 core cycles after the previous one was issued, or in the core cycle after its response
where that comes later (R64). -/
def headerReread (q : Nat) (s : State) : State :=
  let r := s.sq q
  match r.firstRead with
  | none => s
  | some f =>
    if ! r.outstanding && decide (r.lastRead + 64 ≤ s.cycle) && decide (r.answeredAt < s.cycle) && decide (s.cycle < f + 3200) then
      (s.bump (R.sqRefetch q) 1).readHeader q
    else s

def execSqHeaderReread (q : Fin 1024) (s : State) : Result := .next (headerReread q s)

/-- No marked response within 3,200 core cycles of the first read (R64). -/
def markTimeout (q : Nat) (s : State) : State :=
  match (s.sq q).firstRead with
  | some f => if f + 3200 ≤ s.cycle then s.sqStop q St.phase false else s
  | none => s

def execSqMarkTimeout (q : Fin 1024) (s : State) : Result := .next (markTimeout q s)

/-- Where the next speculative read stands: TAIL, or past the prefetched entries that follow it (R66). -/
def prefetchPos (units : Nat) (l : List (Nat × List Byte)) : Nat → Nat → Nat
  | 0, p => p
  | n + 1, p => match l.find? (fun x => decide ((p + units - x.1) % units < entryUnits x.2)) with
    | some x => prefetchPos units l n ((x.1 + entryUnits x.2) % units)
    | none => p

/-- The phase expected at a unit ahead of HEAD (R62). -/
def State.phaseAt (s : State) (q u : Nat) : Bool := if u < s.sqHead q then ! s.sqPhase q else s.sqPhase q

/-- The entries of a chain of prefetched copies from a unit up to another. -/
def prefetchCount (units : Nat) (l : List (Nat × List Byte)) : Nat → Nat → Nat → Option Nat
  | 0, p, p' => if p = p' then some 0 else none
  | n + 1, p, p' =>
    if p = p' then some 0
    else match l.find? (fun x => decide (x.1 = p)) with
      | some x => (prefetchCount units l n ((p + entryUnits x.2) % units) p').map (fun k => k + 1)
      | none => none

/-- A speculative read that errs stops the queue too (R70), for the entry at the unit read. Its index counts on from the
entry at HEAD where the entries between have been read; else nothing says how many they are, and the index is a free
value (DESIGN CHOICE, log 20). The entry lies beyond HEAD, so SKIP has nothing to pass. -/
def State.prefetchFailed (s : State) (q p : Nat) (tag : Nat) (st : Status) (a : Nat) : State :=
  let r := s.sq q
  let index : Word := match prefetchCount (s.sqUnits q) r.prefetched r.prefetched.length (s.sqHead q) p with
    | some k => s.reg (R.sqIndex q) + BitVec.ofNat 32 k
    | none => BitVec.ofNat 32 (freeNat64 s.freeCtr (R.sqErrIndex q))
  ((if s.sqHost q then s else s.memRefusal st a none).sqHalt q st p index tag none).stepFree

/-- The host reads of some units leave. -/
def State.sqHostReads (s : State) (q : Nat) (units : List Nat) : State :=
  if s.sqHost q then units.foldl (fun u x => u.sqHostRead q x) s else s

/-- One speculative read: an entry beyond TAIL whose mark is set is kept, its header unit read first (R66). DESIGN
CHOICE (log 20): an entry whose units would reach HEAD, so that TAIL cannot cover it yet, is not kept, and is read
again later. -/
def prefetchRead (q : Nat) (answer : RingAnswer) (s : State) : State :=
  let r := s.sq q
  let units := s.sqUnits q
  let p := prefetchPos units r.prefetched r.prefetched.length (s.sqTail q)
  let ahead := (p + units - s.sqTail q) % units
  if s.sqMode q ≠ 1 ∨ s.fld (R.sqCfg q) 16 8 ≤ ahead ∨ s.sqWaits q then s
  else
    let s0 := s.sqHostReads q [p]
    match s.sqRead q [p] answer with
    | .error (st, a) => s0.prefetchFailed q p 0 st a
    | .ok h =>
      let n := entryUnits h
      if entryMark h ≠ s.phaseAt q p ∨ units ≤ s.sqCovered q + ahead + n then s0
      else
        let s1 := s0.sqHostReads q ((List.range (n - 1)).map (fun i => p + 1 + i))
        match s.sqRead q ((List.range n).map (fun i => p + i)) answer with
        | .error (st, a) => s1.prefetchFailed q p (uintAt h 4 4) st a
        | .ok e => s1.putSq q { r with prefetched := r.prefetched ++ [(p, e)] }

def execSqPrefetchRead (q : Fin 1024) (answer : RingAnswer) (s : State) : Result := .next (prefetchRead q answer s)

/-! ### Acceptance (R57, R73, R74) -/

/-- The submission time of an entry of `n` units, as the counter and the core cycle of the doorbell that covered its
last unit, and the publications left (R74). -/
def takePubs : List (Nat × Nat × Nat) → Nat → Nat × Nat → (Nat × Nat) × List (Nat × Nat × Nat)
  | [], _, t => (t, [])
  | (u, at_) :: l, n, t =>
    if n = 0 then (t, (u, at_) :: l)
    else if u ≤ n then takePubs l (n - u) at_
    else (at_, (u - n, at_) :: l)

/-- HEAD moves past an entry of `n` units, with the phase and the entry index (R52, R62); past the last index the tasks
that follow are of another life. -/
def State.passEntry (s : State) (q n : Nat) : State :=
  let units := s.sqUnits q
  let head := s.sqHead q
  let r := s.sq q
  let s1 := if units ≤ head + n then s.setBit (R.sqState q) 29 (! s.sqPhase q) else s
  let s2 := (s1.setFld (R.sqState q) 0 16 ((head + n) % units)).wrapAdd (R.sqIndex q) 1
  s2.putSq q { r with
    life := if s.reg (R.sqIndex q) = 0xFFFFFFFF then r.life + 1 else r.life, firstRead := none, outstanding := false, header := none, pushed := none, latched := none,
    prefetched := r.prefetched.filter (fun p => decide (n ≤ (p.1 + units - head) % units)),
    pubs := (takePubs r.pubs n (0, 0)).2 }

/-- A task as it is accepted. -/
def newTask (ref : TaskRef) (e : List Byte) (submit : Nat × Nat) (cycle : Nat) : Task :=
  { ref := ref, entry := e, phase := .waitRanges, status := St.success, tSubmit := submit.1, subCycle := submit.2,
    acceptAt := cycle, closeWait := 0, failedAt := 0, reachAt := none, journalAt := 0,
    tDispatch := 0, tDone := 0, eligible := false, seen := [], ranges := [], reserved := 0, todo := [], faults := [],
    xreq := none, blocks := [], fillBind := none, drainBind := none, engine := none, lane := none, expander := none,
    compressor := none, robUnits := 0, readsIssued := 0, issueQ := [], consumed := [], runsTaken := 0,
    blocksWritten := [], emitted := [], hdrs := [], image := [], ingotsDone := 0, gather := [], pendingW := [],
    hostLast := none, flushing := false, flushAt := 0, flushed := false, freeBase := 0, bytes := 0, digest := 0, record := [], recordPos := 0,
    recordAt := 0, recordLost := false,
    coll := { seqNo := 0, announced := [], credits := [], granted := [], sent := [], awaiting := [], received := [], bytes := [], detached := [], readyAt := none } }

/-- Tasks held between acceptance and their completion records: of one queue, and in all (R73). -/
def State.heldTasks (s : State) : List Task := s.tasks.filter (fun t => decide (t.phase ≠ .journal))

def State.roomFor (s : State) (q : Nat) : Bool :=
  decide (s.heldTasks.length < 4096) &&
    decide ((s.heldTasks.filter (fun t => decide (t.ref.sq = q))).length < s.fld (R.sqLimits q) 24 8 + 1)

/-- Are all descriptors 8-byte aligned (R226)? -/
def blocksAligned (bs : List (Nat × Nat)) : Bool := bs.all (fun b => decide (b.1 % 8 = 0) && decide (b.2 % 8 = 0))

/-- The blocks of a STREAM are known: their alignment, then check 9 (R226). -/
def State.placeBlocks (s : State) (ref : TaskRef) (bs : List (Nat × Nat)) : State :=
  match s.task ref with
  | none => s
  | some t =>
    if blocksAligned bs then
      (s.putTask { t with phase := .waitRanges, blocks := bs, todo := footprint (hostPieces t.entry bs) }).advanceQueue ref.sq
    else s.fail ref St.align

/-- An accepted task goes on: check 8, a STREAM's list, check 9 (R57, R76, R226, R236). The flags of the core cycle are
observed at its end. -/
def State.admitTask (s : State) (t : Task) : State :=
  let s1 := { s with tasks := s.tasks ++ [t] }
  let e := t.entry
  if ! s.ownsEvents (s.sqCtx t.ref.sq) e then s1.fail t.ref St.context
  else if entryOpcode e = 0x08 then
    (if streamList e = 0 then s1.placeBlocks t.ref (descriptors (e.drop 80) (streamCount e))
     else if streamCount e = 0 then s1.placeBlocks t.ref []
     else if inTier (streamList e) (16 * streamCount e) then
       (s1.putTask { t with phase := .blockList })
     else s1.fail t.ref St.unmapped)
  else s1.placeBlocks t.ref []

/-- Checks 2 to 7, then acceptance; a failure stops the queue (R57, R70). -/
def State.takeEntry (s : State) (q : Fin 1024) (e : List Byte) : State :=
  match entryCheck s q e with
  | some st => (s.putSq q { s.sq q with latched := some (e.take 64) }).sqStop q st false
  | none =>
    let time := (takePubs (s.sq q).pubs (entryUnits e) (0, 0)).1
    let t := newTask { sq := q, index := (s.reg (R.sqIndex q)).toNat, life := (s.sq q).life } e time s.cycle
    ((s.passEntry q (entryUnits e)).admitTask t).startFetch q

/-- The entry at HEAD that has been fetched, with the body reads it still needs: a pushed copy, a prefetched one that
TAIL covers, or a marked header that TAIL covers (R61, R66, R68). -/
def State.fetched (s : State) (q : Nat) : Option (List Byte × Nat) :=
  let r := s.sq q
  let covers (e : List Byte) : Bool := decide (entryUnits e ≤ s.sqCovered q)
  match s.sqMode q with
  | 1 => (match r.pushed with
      | some e => some (e, 0)
      | none => match r.prefetched.find? (fun p => decide (p.1 = s.sqHead q) && covers p.2) with
        | some p => some (p.2, 0)
        | none => match r.header with
          | some h => if covers h then some (h, entryUnits h - 1) else none
          | none => none)
  | 2 => (match r.header with
      | some h => if covers h then some (h, entryUnits h - 1) else none
      | none => none)
  | _ => none

/-- All units of the entry at HEAD have been read and the task limits let it in (R57, R64, R73). -/
def acceptEntry (q : Fin 1024) (answer : RingAnswer) (s : State) : State :=
  if ! s.roomFor q then s
  else match s.fetched q with
    | none => s
    | some (e, 0) => s.takeEntry q e
    | some (h, n) =>
      if s.sqWaits q then s
      else
        let units := (List.range n).map (fun i => (s.sqHead q + 1 + i) % s.sqUnits q)
        let s0 := s.sqHostReads q units
        match s0.sqRead q units answer with
        | .error (st, a) => s0.sqReadFailed q st a
        | .ok body => s0.takeEntry q (h ++ body)

def execEntryAccept (q : Fin 1024) (answer : RingAnswer) (s : State) : Result := .next (acceptEntry q answer s)

/-- A STREAM's block list arrives: read from tier A or tier B under the queue's context (R226). -/
def blockListFetched (ref : TaskRef) (cond : MemCond) (s : State) : State :=
  match s.task ref with
  | none => s
  | some t =>
    let a := streamList t.entry
    let n := 16 * streamCount t.entry
    if t.phase ≠ .blockList ∨ s.tierBWaits a then s
    else match s.memVerdict (s.ctxOf ref) .read a n cond with
      | some st => (s.memRefusal st a (some ref)).fail ref st
      | none => (s.noteCorrected a cond).placeBlocks ref (descriptors (s.seenMem a n) (streamCount t.entry))

def execBlockListFetchComplete (t : TaskRef) (cond : MemCond) (s : State) : Result := .next (blockListFetched t cond s)

/-! ### SQ_CTL (R72) -/

/-- PAUSE: an entry being read stays, every other fetch is abandoned. -/
def pauseQueue (q : Nat) (s : State) : State :=
  if s.sqMode q ≠ 1 then s
  else
    let r := s.sq q
    let kept := match r.header with
      | some h => if entryUnits h ≤ s.sqCovered q then some h else none
      | none => none
    (s.putSq q { s.abandon q with header := kept }).setSqMode q 2

def execSqPause (src : Requester) (q : Fin 1024) (s : State) : Result := s.regWrite src (R.sqCtl q) 4 (pauseQueue q)

/-- RESUME: fetching restarts at HEAD. -/
def resumeQueue (q : Nat) (s : State) : State :=
  if s.sqMode q = 2 ∨ s.sqMode q = 3 then ((s.putSq q (s.abandon q)).setSqMode q 1).startFetch q else s

def execSqResume (src : Requester) (q : Fin 1024) (s : State) : Result := s.regWrite src (R.sqCtl q) 1 (resumeQueue q)

/-- SKIP: the latched entry is passed, and its index consumed. -/
def skipEntry (q : Nat) (s : State) : State :=
  match (s.sq q).latched with
  | some h => if s.sqMode q = 3 then ((s.passEntry q (entryUnits h)).setSqMode q 1).startFetch q else s
  | none => s

def execSqSkip (src : Requester) (q : Fin 1024) (s : State) : Result := s.regWrite src (R.sqCtl q) 2 (skipEntry q)

/-! ### WAIT and FENCE (R77, R78) -/

/-- A queue task has completed. -/
def Task.queueDone (t : Task) : Task := { t with phase := .finished, status := St.success, bytes := 0, digest := 0 }

/-- Has every awaited flag been seen set? -/
def Task.allSeen (t : Task) : Bool := t.awaited.all (fun e => t.seen.contains e)

def completeWait (ref : TaskRef) (s : State) : State :=
  match s.task ref with
  | none => s
  | some t => if entryOpcode t.entry = 0x09 ∧ t.phase = .running ∧ t.allSeen then s.putTask t.queueDone else s

def execWaitComplete (t : TaskRef) (s : State) : Result := .next (completeWait t s)

/-- The tasks accepted before a task from its queue that have not written their records. -/
def State.earlierOpen (s : State) (ref : TaskRef) : List Task :=
  (s.tasks.takeWhile (fun t => decide (t.ref ≠ ref))).filter (fun t => decide (t.ref.sq = ref.sq) && decide (t.phase ≠ .journal))

def completeFence (ref : TaskRef) (s : State) : State :=
  match s.task ref with
  | none => s
  | some t =>
    if entryOpcode t.entry = 0x0A ∧ t.phase = .running ∧ s.earlierOpen ref = [] then s.putTask t.queueDone else s

def execFenceComplete (t : TaskRef) (s : State) : Result := .next (completeFence t s)

/-! ### Event flags and timers (R79 to R81) -/

/-- A write of EVENT_SET: a 1 sets a flag (R80). -/
def setEvents (k : Nat) (value : Word) (s : State) : State :=
  (s.setReg (R.eventSet k) (s.reg (R.eventSet k) ||| value)).noteSet (R.eventSet k) value

def execEventSetWrite (src : Requester) (k : Fin 16) (value : Word) (s : State) : Result :=
  s.regWrite src (R.eventSet k) value (setEvents k value)

/-- A write of EVENT_CLR: a 1 clears a flag that nothing sets in the same core cycle (R79, R80). -/
def clearEvents (k : Nat) (value : Word) (s : State) : State :=
  s.setReg (R.eventSet k) (s.reg (R.eventSet k) &&& ~~~ (value &&& ~~~ (s.setNow (R.eventSet k))))

def execEventClrWrite (src : Requester) (k : Fin 16) (value : Word) (s : State) : Result :=
  s.regWrite src (R.eventClr k) value (clearEvents k value)

/-- The periods a timer moves on: the least k ≥ 1 with CMP + k × PERIOD above the counter. With PERIOD 0 there is none,
and how many periods it counts is open (log 8). -/
def timerPeriods (s : State) (t : Nat) : Nat :=
  let p := (s.reg (R.tmrPeriod t)).toNat
  if p = 0 then freeNat64 s.freeCtr (R.tmrMissed t) + 1 else (s.gtc - s.reg64 (R.tmrCmpLo t)) / p + 1

/-- A timer has been armed or has fired in this core cycle. -/
def State.noteTimer (s : State) (t : Nat) : State := { s with now := { s.now with timers := t :: s.now.timers } }

/-- A timer fires: at most once in a core cycle, and not in the one that arms it (R81). -/
def fireTimer (t : Nat) (s : State) : State :=
  if s.bit (R.tmrCtl t) 31 ∧ s.reg64 (R.tmrCmpLo t) ≤ s.gtc ∧ ! s.now.timers.contains t then
    let k := timerPeriods s t
    ((if s.bit (R.tmrCtl t) 30 then
      ((s.setReg64 (R.tmrCmpLo t) (s.reg64 (R.tmrCmpLo t) + k * (s.reg (R.tmrPeriod t)).toNat)).bump (R.tmrMissed t) (k - 1)).stepFree
     else s.setBit (R.tmrCtl t) 31 false).setFlag (s.fld (R.tmrCtl t) 0 9)).noteTimer t
  else s

def execTimerFire (t : Fin 16) (s : State) : Result := .next (fireTimer t s)

/-- A write of TMR_CTL: a periodic arming with PERIOD 0 or all ones is refused (R81). DESIGN CHOICE (log 20): a refused
arming disarms a timer that was armed, and takes PERIODIC and EVENT of the write. -/
def writeTmrCtl (t : Nat) (value : Word) (s : State) : State :=
  let p := s.reg (R.tmrPeriod t)
  let arms := decide (getField value 31 1 = 1)
  let refused := arms && decide (getField value 30 1 = 1) && decide (p = 0 ∨ p = 0xFFFFFFFF)
  let kept := (s.setNow (R.tmrCtl t) &&& s.reg (R.tmrCtl t) &&& 0x20000000).toNat
  let w := writtenWord (s.reg (R.tmrCtl t)) value 0xC00001FF 0x20000000 0 kept
  if refused then (s.setReg (R.tmrCtl t) (putField w 31 1 0)).hwSet (R.tmrCtl t) 29
  else if arms then (s.setReg (R.tmrCtl t) w).noteTimer t
  else s.setReg (R.tmrCtl t) w

def execTmrCtlWrite (src : Requester) (t : Fin 16) (value : Word) (s : State) : Result :=
  s.regWrite src (R.tmrCtl t) value (writeTmrCtl t value)

end Sys2Proof.Machine
end

