-- ==== Sys2Proof/Machine/Record.lean ====
section
/-!
DEFINITION. Completion records, their rings and interrupts (R83 to R90), and the journal (R361 to R364).
-/
namespace Sys2Proof.Machine

/-! ### Completion rings (R84 to R87) -/

def State.cqTail (s : State) (c : Nat) : Nat := s.fld (R.cqTail c) 0 16
def State.cqPhase (s : State) (c : Nat) : Bool := s.bit (R.cqTail c) 31
def State.cqStopped (s : State) (c : Nat) : Bool := s.bit (R.cqCfg c) 29
def State.cqHost (s : State) (c : Nat) : Bool := s.bit (R.cqCfg c) 30

/-- Is a ring full: its next position equals HEAD (R86)? -/
def State.cqFull (s : State) (c : Nat) : Bool :=
  decide ((s.cqTail c + 1) % s.cqRecords c = s.fld (R.cqHead c) 0 16)

/-- The address of a record of a ring. -/
def State.cqSlot (s : State) (c i : Nat) : Nat := s.reg64 (R.cqBaseLo c) + 32 * i

/-- The PASID of a host ring's accesses. -/
def State.cqPasid (s : State) (c : Nat) : Option (BitVec 20) := some (BitVec.ofNat 20 (s.fld (R.cqPasid c) 0 20))

/-- The next record position, with the phase (R84). -/
def State.cqAdvance (s : State) (c : Nat) : State :=
  let n := (s.cqTail c + 1) % s.cqRecords c
  let s1 := s.setFld (R.cqTail c) 0 16 n
  if n = 0 then s1.setBit (R.cqTail c) 31 (! s.cqPhase c) else s1

/-- A record that its stopped ring discards: counted, and its task goes on (R87). -/
def State.dropRecord (s : State) (t : Task) : State := (s.bump (R.cqDropped (entryRing t.entry)) 1).recordDone t true

/-- The tasks whose records wait for room in a ring. -/
def State.waitingOn (s : State) (c : Nat) : List Task :=
  s.tasks.filter (fun t => decide (t.phase = .finished) && decide (entryRing t.entry = c))

/-- A ring stops; the first status stays, and every waiting record is discarded (R87). -/
def State.cqStop (s : State) (c : Nat) (st : Status) : State :=
  let s1 := if s.cqStopped c then s
    else (s.setBit (R.cqCfg c) 29 true).setReg (R.cqErr c) (BitVec.ofNat 32 (st.toNat * 2 ^ 16))
  (s1.waitingOn c).foldl State.dropRecord s1

/-- A record leaves for its host ring with the flushing read behind it (R84, R90). -/
def State.sendRecord (s : State) (c : Nat) (a : Nat) (bs : List Byte) : State :=
  match hostTarget (s.cq c).ranges a with
  | some h => (s.emit (.hostWrite h.1 bs (s.cqPasid c) false h.2)).emit (.flushRead (h.1 + 28) (s.cqPasid c) h.2)
  | none => s

/-- The interrupt of a ring counts a record that is written: it triggers the message where it is number COUNT_M1 + 1
since the last trigger, or has IRQ_NOW; the message follows its acknowledgement (R89). DESIGN CHOICE (log 20): records
written while EN is 0 count, and setting EN, or lowering COUNT_M1, with the count already reached triggers nothing until
the next record or the delay. -/
def State.cqCount (s : State) (c : Nat) (ref : TaskRef) (now : Bool) : State :=
  let r := s.cq c
  let n := r.written + 1
  if s.bit (R.cqIrq c) 31 && (now || decide (s.fld (R.cqIrq c) 8 8 + 1 ≤ n)) then
    s.putCq c { r with written := 0, firstAt := none, first := none, due := r.due ++ [ref] }
  else s.putCq c { r with written := n, firstAt := some (r.firstAt.getD s.cycle), first := if r.firstAt = none then some ref else r.first }

/-- A record is acknowledged: the message it triggered leaves (R89). -/
def State.cqAcked (s : State) (c : Nat) (ref : TaskRef) : State :=
  let r := s.cq c
  let s1 := s.putCq c { r with first := if r.first = some ref then none else r.first, due := r.due.filter (fun x => decide (x ≠ ref)) }
  if r.due.contains ref && s.bit (R.cqIrq c) 31 then s1.msix (s.fld (R.cqIrq c) 16 11) else s1

/-- The order of two records that reach a ring (R85): by core cycle, then by ENGINE, 0xFF last, then SQ and INDEX. -/
def recordBefore (a b : Task) : Bool :=
  let ka := [a.reachAt.getD 0, a.engineField, a.ref.sq.val, a.ref.life, a.ref.index]
  let kb := [b.reachAt.getD 0, b.engineField, b.ref.sq.val, b.ref.life, b.ref.index]
  decide (ka < kb)

/-- Has a task's record reached its ring in an earlier core cycle? -/
def State.reached (s : State) (t : Task) : Bool :=
  match t.reachAt with | some a => decide (a < s.cycle) | none => false

/-- Is a task's record the next of its ring (R85)? -/
def State.nextOfRing (s : State) (t : Task) : Bool :=
  (s.waitingOn (entryRing t.entry)).all (fun x => ! (s.reached x && recordBefore x t))

/-- A finished task's record: discarded by a stopped ring, waiting at a full one or behind records that reached the ring
before it, else issued at TAIL (R83 to R87). -/
def writeRecord (ref : TaskRef) (s : State) : State :=
  match s.task ref with
  | none => s
  | some t =>
    let c := entryRing t.entry
    if t.phase ≠ .finished ∨ ! s.reached t then s
    else if s.cqStopped c then s.dropRecord t
    else if s.cqFull c ∨ ! s.nextOfRing t then s
    else
      let bs := completionRecord t (s.sqHead ref.sq) (s.cqPhase c)
      let s1 := ((s.putTask { t with phase := .recordIssued, record := bs, recordPos := s.cqTail c, recordAt := s.cycle }).cqAdvance c).cqCount
        c ref (entryIrqNow t.entry)
      if s.cqHost c then s1.sendRecord c (s.cqSlot c (s.cqTail c)) bs else s1

def execCompletionRecordWrite (t : TaskRef) (s : State) : Result := .next (writeRecord t s)

/-- The set event of a task whose record has been acknowledged takes effect in the next core cycle (R21, R83, R413). -/
def State.applySetEvent (s : State) (t : Task) : State :=
  if t.recordEvent then s.flagLater (entrySet t.entry).event (! (entrySet t.entry).clr) else s

/-- A record has been acknowledged: interrupt, set event, then steps 8 and 9 (R21, R89). -/
def State.recordAcked (s : State) (t : Task) : State :=
  ((s.recordDone t false).applySetEvent t).cqAcked (entryRing t.entry) t.ref

/-- A record's write has failed: its record is lost and its ring stops (R87). -/
def State.recordFailed (s : State) (t : Task) (st : Status) : State :=
  (s.recordDone t true).cqStop (entryRing t.entry) st

/-- The status a record's write ends with; none for success. A device ring is checked at its memory under the ring's
context (R257). -/
def State.recordVerdict (s : State) (c a : Nat) (answer : RecordAnswer) : Option Status :=
  if s.cqHost c then (if answer = .acknowledged then none else some St.host)
  else
    match s.memVerdict (s.fld (R.cqCfg c) 0 12) .write a 32 (if answer = .uncorrectable then .uncorrectable else .good) with
    | some st => some st
    | none => if answer = .hostError then some St.host else none

/-- The write of a completion record is answered. A ring in device memory takes the record now (log 11). -/
def ackRecord (ref : TaskRef) (answer : RecordAnswer) (s : State) : State :=
  match s.task ref with
  | none => s
  | some t =>
    let c := entryRing t.entry
    let a := s.cqSlot c t.recordPos
    if t.phase ≠ .recordIssued ∨ (! s.cqHost c && s.tierBWaits a) then s
    else match s.recordVerdict c a answer with
      | none => (if s.cqHost c then s else s.writeMem a t.record).recordAcked t
      | some st => (if s.cqHost c then s else s.memRefusal st a (some ref)).recordFailed t st

def execCompletionRecordAck (t : TaskRef) (answer : RecordAnswer) (s : State) : Result := .next (ackRecord t answer s)

/-- DELAY µs after the first record written since the last message: the message leaves, once that record has been
acknowledged (R89). -/
def irqDelay (c : Nat) (s : State) : State :=
  let r := s.cq c
  match r.firstAt with
  | some f =>
    if s.bit (R.cqIrq c) 31 ∧ f + cyclesPerUs * s.fld (R.cqIrqDelay c) 0 10 ≤ s.cycle then
      match r.first with
      | some t => s.putCq c { r with written := 0, firstAt := none, first := none, due := r.due ++ [t] }
      | none => (s.putCq c { r with written := 0, firstAt := none }).msix (s.fld (R.cqIrq c) 16 11)
    else s
  | none => s

def execCqIrqDelayExpiry (c : Fin 256) (s : State) : Result := .next (irqDelay c s)

/-! ### The journal (R361 to R364) -/

def State.jrEn (s : State) : Bool := s.bit R.jrCfg 31
def State.jrStopped (s : State) : Bool := s.bit R.jrCfg 28
def State.jrRecords (s : State) : Nat := 2 ^ (s.fld R.jrCfg 0 4 + 6)
def State.jrTail (s : State) : Nat := s.fld R.jrTail 0 20
def State.jrHead (s : State) : Nat := s.fld R.jrHead 0 20
def State.jrPhase (s : State) : Bool := s.bit R.jrTail 31

/-- Is the journal full (R364)? -/
def State.jrFull (s : State) : Bool := decide ((s.jrTail + 1) % s.jrRecords = s.jrHead)

/-- The journal stops (R364). -/
def State.jrStop (s : State) (st : Status) : State :=
  (s.setBit R.jrCfg 28 true).setReg R.jrErr (BitVec.ofNat 32 (st.toNat * 2 ^ 16))

/-- The journal's next position, with the phase. -/
def State.jrAdvance (s : State) : State :=
  let n := (s.jrTail + 1) % s.jrRecords
  let s1 := s.setFld R.jrTail 0 20 n
  if n = 0 then s1.setBit R.jrTail 31 (! s.jrPhase) else s1

/-- HEAD moved past the record that a wrapping journal overwrites (R364). -/
def State.jrOverwrite (s : State) : State :=
  if s.jrFull then (s.setFld R.jrHead 0 20 ((s.jrHead + 1) % s.jrRecords)).bump R.jrOverwritten 1 else s

/-- The address of the journal's next record. -/
def State.jrSlot (s : State) : Nat := s.reg64 R.jrBaseLo + 64 * s.jrTail

/-- Is a task's journal record the next (R363): in the order the records became ready, those of one core cycle in R85's order? -/
def State.nextOfJournal (s : State) (t : Task) : Bool :=
  let key (x : Task) : List Nat := [x.journalAt, x.engineField, x.ref.sq.val, x.ref.life, x.ref.index]
  decide (t.journalAt < s.cycle) && s.tasks.all (fun x => ! decide (x.phase = .journal) || ! decide (key x < key t))

/-- A task appends its journal record and leaves (R363, R364): one aligned 64-byte write under context 0. -/
def appendJournal (ref : TaskRef) (cond : MemCond) (s : State) : State :=
  match s.task ref with
  | none => s
  | some t =>
    let a := s.jrSlot
    if t.phase ≠ .journal then s
    else if ! s.jrEn then s.retireTask t
    else if s.jrStopped then (s.bump R.jrDropped 1).retireTask t
    else if (s.jrFull && ! s.bit R.jrCfg 30) || s.tierBWaits a || ! s.nextOfJournal t then s
    else match s.memVerdict 0 .write a 64 (writeCond a 64 cond) with
      | some st => ((s.memRefusal st a none).jrStop st).retireTask t
      | none =>
        (((s.noteCorrected a (writeCond a 64 cond)).writeMem a (patchBytes t.record 15 [BitVec.ofNat 8 (boolBit s.jrPhase)])).jrOverwrite.jrAdvance).retireTask t

def execJournalAppend (t : TaskRef) (cond : MemCond) (s : State) : Result := .next (appendJournal t cond s)

/-- The tasks whose journal records wait for room go on without them (R361). -/
def State.releaseJournal (s : State) : State :=
  if s.jrEn && ! s.jrStopped && s.jrFull && ! s.bit R.jrCfg 30 then
    (s.tasks.filter (fun t => decide (t.phase = .journal))).foldl State.retireTask s
  else s

/-- A write of JR_CFG (R361): while EN is 1 only a clear of EN and of BAD acts; else SIZE, WRAP and EN are taken, and an
enable is refused for a ring that is too large or leaves its tier. -/
def writeJrCfg (value : Word) (s : State) : State :=
  let bad := s.bit R.jrCfg 29 && (decide (getField value 29 1 = 0) || decide (getField (s.setNow R.jrCfg) 29 1 = 1))
  if s.jrEn then
    let s1 := s.setBit R.jrCfg 29 bad
    if getField value 31 1 = 1 then s1 else (s1.releaseJournal).setBit R.jrCfg 31 false
  else
    let size := getField value 0 4
    let s1 := ((s.setBit R.jrCfg 29 bad).setFld R.jrCfg 0 4 size).setFld R.jrCfg 30 1 (getField value 30 1)
    if getField value 31 1 = 0 then s1
    else if 14 < size ∨ inTier (s.reg64 R.jrBaseLo) (64 * 2 ^ (size + 6)) = false then s1.hwSet R.jrCfg 29
    else (((s1.setBit R.jrCfg 31 true).setBit R.jrCfg 28 false).setReg R.jrTail 0x80000000).setReg R.jrHead 0

def execJournalEnable (src : Requester) (value : Word) (s : State) : Result :=
  s.regWrite src R.jrCfg value (writeJrCfg value)

def execJournalDisable (src : Requester) (value : Word) (s : State) : Result :=
  s.regWrite src R.jrCfg value (fun t => writeJrCfg value t)

/-- Does a task wait only for room, in a full completion ring or a full journal (R337)? -/
def State.waitsRoom (s : State) (t : Task) : Bool :=
  match t.phase with
  | .finished => s.cqFull (entryRing t.entry) && ! s.cqStopped (entryRing t.entry)
  | .journal => s.jrEn && ! s.jrStopped && s.jrFull && ! s.bit R.jrCfg 30
  | _ => false

/-- A write of JR_HEAD: at or above the record count it is discarded (R371). -/
def setJrHead (head : Nat) (s : State) : State := if head < s.jrRecords then s.setReg R.jrHead (BitVec.ofNat 32 head) else s

end Sys2Proof.Machine
end

