-- ==== Sys2Proof/Machine/Translate.lean ====
section
/-!
DEFINITION. The translation unit (R236 to R259): range-store reservation, Translation Requests and Completions, page
requests, invalidations, the context map.
-/
namespace Sys2Proof.Machine

/-! ### The task at check 9 -/

def State.atsOn (s : State) : Bool := s.bit R.tuStatus 30
def State.priOn (s : State) : Bool := s.bit R.tuStatus 29
def State.priStopped (s : State) : Bool := s.bit R.tuStatus 31

/-- The PASID of a task's requests (R255). -/
def State.taskPasid (s : State) (t : TaskRef) : Option (BitVec 20) := s.pasidOf (s.ctxOf t)

/-- The part of a piece inside an interval. -/
def clipPiece (lo hi : Nat) (p : HostPiece) : Option HostPiece :=
  let a := max lo p.addr
  let z := min hi (p.addr + p.len)
  if a < z then some { p with addr := a, len := z - a } else none

/-- The part of a piece outside an interval. -/
def cutPiece (lo hi : Nat) (p : HostPiece) : List HostPiece :=
  (if p.addr < lo then (clipPiece p.addr lo p).toList else []) ++
    (if hi < p.addr + p.len then (clipPiece hi (p.addr + p.len) p).toList else [])

/-- The footprint of a task inside an interval. -/
def Task.footprintIn (t : Task) (lo hi : Nat) : List HostPiece :=
  (footprint (hostPieces t.entry t.blocks)).filterMap (clipPiece lo hi)

/-- The addresses of the 4 KiB pages a piece touches. -/
def piecePages (p : HostPiece) : List Nat :=
  (List.range ((p.addr + (p.len - 1)) / 4096 - p.addr / 4096 + 1)).map (fun i => (p.addr / 4096 + i) * 4096)

/-- A faulting page noted, in ascending order; a page known already keeps its count of requests (R245, R246). -/
def insertFault (f : FaultPage) : List FaultPage → List FaultPage
  | [] => [f]
  | g :: t =>
    if f.addr < g.addr then f :: g :: t
    else if f.addr = g.addr then { g with read := g.read || f.read, write := g.write || f.write } :: t
    else g :: insertFault f t

/-- Does a translation form ranges of the footprint pieces it covers: untranslated, or granting every permission they need
(R241)? -/
def xlGrants (x : Xlation) (ps : List HostPiece) : Bool :=
  x.u || ps.all (fun p => (! p.read || x.r) && (! p.write || x.w))

/-- The range that a translation forms of a piece it covers. -/
def xlRange (x : Xlation) (pos : Nat) (p : HostPiece) : XRange :=
  { host := p.addr, addr := if x.u then p.addr else x.addr + (p.addr - pos), len := p.len, read := x.r, write := x.w,
    untranslated := x.u, marked := false }

/-- The pages of a piece, faulting. -/
def pieceFaults (p : HostPiece) : List FaultPage :=
  (piecePages p).map (fun a => { addr := a, read := p.read, write := p.write, tries := 0 })

/-- One translation applied to the part of a task's footprint it covers: ranges, or faulting pages where it lacks a needed
permission (R241). -/
def Task.applyXlation (t : Task) (pos : Nat) (x : Xlation) : Task :=
  let here := t.todo.filterMap (clipPiece pos (pos + x.len))
  let rest := t.todo.flatMap (cutPiece pos (pos + x.len))
  let pages := here.flatMap piecePages
  if xlGrants x here then
    { t with todo := rest, ranges := addRanges t.ranges (here.map (xlRange x pos)),
             faults := t.faults.filter (fun f => ! pages.contains f.addr) }
  else { t with todo := rest, faults := (here.flatMap pieceFaults).foldl (fun l f => insertFault f l) t.faults }

/-- The translations of a completion, in ascending order from the first byte asked for. -/
def Task.applyXlations : Task → Nat → List Xlation → Task
  | t, _, [] => t
  | t, pos, x :: l => (t.applyXlation pos x).applyXlations (pos + x.len) l

/-- A task whose footprint has been translated as far as it goes: fragmented, at its page faults, or done (R238, R246,
R247, R249). -/
def State.xlateNext (s : State) (ref : TaskRef) : State :=
  match s.task ref with
  | none => s
  | some t =>
    if 256 < t.ranges.length then
      (s.bump R.tuFragmented 1).failAtXlate ref St.fragmented (match t.ranges[256]? with | some r => r.host / 4096 * 4096 | none => 0)
    else if t.todo ≠ [] ∨ t.xreq.isSome then s
    else match t.faults with
      | [] => s.xlateDone ref
      | f :: l =>
        if ! s.priOn || s.priStopped then s.failAtXlate ref St.pageFault f.addr
        else match (f :: l).find? (fun g => decide (4 ≤ g.tries)) with
          | some g => s.failAtXlate ref St.pageFault g.addr
          | none => s

/-- A task's remaining footprint formed into untranslated ranges (R243). -/
def State.formUntranslated (s : State) (ref : TaskRef) : State :=
  match s.task ref with
  | none => s
  | some t => (s.putTask { t with ranges := placeRanges t.ranges (untranslatedRanges t.todo), todo := [] }).xlateNext ref

/-- A task enters check 9 with 256 range-store entries (R248, R249). -/
def reserveRanges (ref : TaskRef) (s : State) : State :=
  match s.task ref with
  | none => s
  | some t =>
    if t.phase = .waitRanges ∧ t.todo ≠ [] ∧ s.firstBeforeXlate t ∧ 256 ≤ s.fld R.tuRangesFree 0 16 + t.reserved then
      let s1 := (s.takeRanges (256 - t.reserved)).putTask { t with phase := .translating, reserved := 256 }
      if s.atsOn then s1 else s1.formUntranslated ref
    else s

def execRangeStoreReserve (t : TaskRef) (s : State) : Result := .next (reserveRanges t s)

/-! ### Translation Requests (R240, R244) -/

/-- The cached translation that covers an address under a PASID with the needed permissions (R244). -/
def State.cached (s : State) (pasid : Option (BitVec 20)) (p : HostPiece) : Option XRange :=
  (s.xcache.find? (fun c => decide (c.pasid = pasid) && decide (c.range.host ≤ p.addr) &&
    decide (p.addr < c.range.host + c.range.len) && (c.range.untranslated || ((! p.read || c.range.read) && (! p.write || c.range.write))))).map
      CacheEntry.range

/-- Cached translations used from the lowest untranslated address on, as far as they go. -/
def State.useCache (s : State) (pasid : Option (BitVec 20)) : Nat → Task → Task
  | 0, t => t
  | n + 1, t => match t.todo with
    | [] => t
    | p :: _ => match s.cached pasid p with
      | none => t
      | some c =>
        s.useCache pasid n (t.applyXlation p.addr { len := c.host + c.len - p.addr, addr := c.addr + (p.addr - c.host),
                                                    r := c.read, w := c.write, u := c.untranslated })

/-- The length of the consecutive footprint from its first piece on. -/
def consecutive : Nat → List HostPiece → Nat
  | a, [] => a
  | a, p :: t => if p.addr ≤ a then consecutive (p.addr + p.len) t else a

/-- The request for a task's lowest untranslated bytes: page aligned (R239), at most 128 KiB; one that only reads
carries No Write (R240). -/
def Task.nextRequest (t : Task) (now : Nat) : Option XlateReq :=
  match t.todo with
  | [] => none
  | p :: _ =>
    let a := p.addr / 4096 * 4096
    let z := min (a + 131072) (roundUp (consecutive p.addr t.todo) 4096)
    some { addr := a, len := z - a, write := (t.todo.filterMap (clipPiece a z)).any HostPiece.write, at_ := now, voids := [] }

/-- Translation Requests outstanding block-wide. -/
def State.xlateOutstanding (s : State) : Nat :=
  s.tasks.countP (fun t => match t.xreq with | some r => decide (0 < r.len) | none => false) + s.xorphans.length

/-- One task's turn in a round. -/
def State.requestFor (s : State) (ref : TaskRef) : State :=
  match s.task ref with
  | none => s
  | some t =>
    if t.phase ≠ .translating ∨ t.xreq.isSome ∨ t.todo = [] then s
    else if ! s.atsOn then s.formUntranslated ref
    else
      let pasid := s.taskPasid ref
      let t1 := s.useCache pasid s.xcache.length t
      if 256 < t1.ranges.length then (s.putTask t1).xlateNext ref
      else match t1.nextRequest s.cycle with
      | none => (s.putTask t1).xlateNext ref
      | some r =>
        if s.xlateOutstanding < 64 then
          ((s.putTask { t1 with xreq := some r }).bump R.tuXlateReqs 1).emit (.translationRequest r.addr r.len pasid (! r.write))
        else s.putTask t1

/-- A task put in place by ascending queue number. -/
def insertByQueue (r : TaskRef) : List TaskRef → List TaskRef
  | [] => [r]
  | q :: t => if r.sq < q.sq then r :: q :: t else q :: insertByQueue r t

/-- One round: the tasks at check 9 in ascending queue number (R240). -/
def requestRound (s : State) : State :=
  ((s.tasks.filter (fun t => decide (t.phase = .translating))).foldl (fun l t => insertByQueue t.ref l) []).foldl State.requestFor s

def execTranslationRequestIssue (s : State) : Result := .next (requestRound s)

/-! ### Translation Completions (R241, R242, R253) -/

/-- Does an invalidation apply to translations formed under a PASID (R251)? -/
def Inval.appliesTo (i : Inval) (pasid : Option (BitVec 20)) : Bool := if i.global then pasid.isSome else decide (i.pasid = pasid)

/-- The cache with the translations of a completion: at most 8,192 entries, the oldest going first (log 22). -/
def cacheXlations (pasid : Option (BitVec 20)) : List CacheEntry → Nat → List Xlation → List CacheEntry
  | l, _, [] => l
  | l, pos, x :: xs =>
    let e : CacheEntry := { pasid := pasid, range := { host := pos, addr := x.addr, len := x.len, read := x.r, write := x.w,
                                                       untranslated := x.u, marked := false } }
    let l1 := if x.r || x.w || x.u then l ++ [e] else l
    cacheXlations pasid (if 8192 < l1.length then l1.drop 1 else l1) (pos + x.len) xs

/-- How far a completion reaches: the length asked for, or more where it returns a larger translation (R240). -/
def XlateReq.extent (r : XlateReq) : XlateAnswer → Nat
  | .ok xs => max r.len (xs.map Xlation.len).sum
  | .error => r.len

/-- The invalidations of a list that apply to a PASID and overlap an interval. -/
def voiding (pasid : Option (BitVec 20)) (a len : Nat) (l : List Inval) : List Inval :=
  l.filter (fun i => i.appliesTo pasid && overlaps i.addr i.len a len)

/-- A request whose answer no task waits for any more leaves the 64 (R240). -/
def State.dropXreq (s : State) (t : Task) : State := s.putTask { t with xreq := none }

/-- A Translation Completion arrives. It is discarded where an invalidation that is being processed, or has arrived since
the request, applies to what it returns: the request is issued again once the invalidations have completed (R253). -/
def xlateCompleted (ref : TaskRef) (answer : XlateAnswer) (s : State) : State :=
  match s.task ref with
  | none => { s with xorphans := s.xorphans.filter (fun x => decide (x.1 ≠ ref)) }
  | some t => match t.xreq with
    | none => s
    | some r =>
      let pasid := s.taskPasid ref
      let n := r.extent answer
      if r.len = 0 then s
      else if t.phase ≠ .translating then s.dropXreq t
      else if voiding pasid r.addr n (r.voids ++ s.invals) ≠ [] then
        (match voiding pasid r.addr n s.invals with
         | [] => s.dropXreq t
         | l => s.putTask { t with xreq := some { r with len := 0, voids := l } })
      else match answer with
        | .error => (s.dropXreq t).failAtXlate ref St.translationError r.addr
        | .ok xs =>
          let s1 := { s with xcache := cacheXlations pasid s.xcache r.addr xs }
          (s1.putTask { t.applyXlations r.addr xs with xreq := none }).xlateNext ref

def execTranslationCompletion (t : TaskRef) (answer : XlateAnswer) (s : State) : Result := .next (xlateCompleted t answer s)

/-- A Translation Request has waited 200 µs (R242). -/
def xlateTimeout (ref : TaskRef) (s : State) : State :=
  match s.task ref with
  | none => { s with xorphans := s.xorphans.filter (fun x => decide (x.1 ≠ ref) || ! s.hostOverdue x.2 320000) }
  | some t => match t.xreq with
    | none => s
    | some r =>
      if r.len = 0 ∨ ! s.hostOverdue r.at_ 320000 then s
      else if t.phase ≠ .translating then s.dropXreq t
      else (s.dropXreq t).failAtXlate ref St.translationError r.addr

def execTranslationTimeout (t : TaskRef) (s : State) : Result := .next (xlateTimeout t s)

/-! ### Page requests (R245 to R247) -/

/-- The free part of the Outstanding Page Request Allocation. -/
def State.priFree (s : State) : Nat := s.priAlloc - (s.prgs.map (fun g => g.pages.length)).sum

/-- The lowest PRG index that no group uses. -/
def State.freePrg (s : State) : Option Nat := (List.range 512).find? (fun n => s.prgs.all (fun g => decide (g.prg ≠ n)))

/-- Page Requests of a group, the last one marked. -/
def State.sendPages (s : State) (prg : Nat) (pasid : Option (BitVec 20)) : List FaultPage → State
  | [] => s
  | f :: t => (s.emit (.pageRequest f.addr prg f.read f.write t.isEmpty pasid)).sendPages prg pasid t

/-- A task's faulting pages go out as a group (R245). -/
def sendGroup (ref : TaskRef) (s : State) : State :=
  match s.task ref, s.freePrg with
  | some t, some prg =>
    let n := min (min (s.fld R.tuGroupCfg 0 10) s.priFree) t.faults.length
    if t.phase = .translating ∧ t.todo = [] ∧ t.xreq = none ∧ 0 < n ∧ s.priOn ∧ ! s.priStopped ∧
        s.prgs.all (fun g => decide (g.task ≠ ref)) then
      let pages := t.faults.take n
      let s1 := s.putTask { t with faults := pages.map (fun f => { f with tries := f.tries + 1 }) ++ t.faults.drop n }
      let s2 : State := { s1 with prgs := s1.prgs ++ [{ prg := prg, task := ref, pages := pages }] }
      ((s2.bump R.tuPageReqs n).bump R.tuPrgs 1).sendPages prg (s.taskPasid ref) pages
    else s
  | _, _ => s

def execPageRequestGroup (t : TaskRef) (s : State) : Result := .next (sendGroup t s)

/-- The footprint of a task inside an interval that no range covers. -/
def Task.uncovered (t : Task) (lo hi : Nat) : List HostPiece :=
  t.ranges.foldl (fun ps r => ps.flatMap (cutPiece r.host (r.host + r.len))) (t.footprintIn lo hi)

/-- The pages of a group are translated again: their footprint goes back to what is to do (R246). -/
def State.retryPages (s : State) (g : PrgRun) : State :=
  match s.task g.task with
  | none => s
  | some t =>
    if t.phase = .translating then
      s.putTask { t with todo := footprint (t.todo ++ g.pages.flatMap (fun f => t.uncovered f.addr (f.addr + 4096))) }
    else s

/-- A task fails for a page of its group, if it is still at check 9. -/
def State.failGroup (s : State) (g : PrgRun) : State :=
  match s.task g.task with
  | none => s
  | some t =>
    if t.phase = .translating then s.failAtXlate g.task St.pageFault (match g.pages with | f :: _ => f.addr | [] => 0) else s

/-- A PRG Response (R246). -/
def prgAnswered (prg : Nat) (code : PrgCode) (s : State) : State :=
  match s.prgs.find? (fun g => decide (g.prg = prg)) with
  | none => s
  | some g =>
    let s1 := { s with prgs := s.prgs.filter (fun x => decide (x.prg ≠ prg)) }
    match code with
    | .success => s1.retryPages g
    | .invalidRequest => s1.failGroup g
    | .responseFailure =>
      s.prgs.foldl State.failGroup { s.setBit R.tuStatus 31 true with priFailure := true, prgs := [] }

def execPrgResponse (prg : Fin 512) (code : PrgCode) (s : State) : Result := .next (prgAnswered prg code s)

/-- The host disables PRI and enables it again (R246). -/
def execPriReenable (s : State) : Result :=
  .next { (s.setBit R.tuStatus 31 false).setBit R.tuStatus 29 true with priFailure := false }

/-- The ATS Enable bit as the host programs it (R243, R259). -/
def execAtsEnable (en : Bool) (s : State) : Result := .next (s.setBit R.tuStatus 30 en)

/-! ### Invalidation (R251 to R254) -/

/-- Does an invalidation overlap a range? -/
def Inval.hits (i : Inval) (r : XRange) : Bool := overlaps i.addr i.len r.host r.len

/-- A range list with the ranges an invalidation overlaps marked. -/
def Inval.mark (i : Inval) (rs : List XRange) : List XRange := rs.map (fun r => { r with marked := r.marked || i.hits r })

/-- An undispatched task loses the translations of marked ranges and goes back to check 9 (R253). -/
def Task.retranslated (t : Task) (i : Inval) : Task :=
  let gone := t.ranges.filter i.hits
  { t with ranges := t.ranges.filter (fun r => ! i.hits r),
           todo := footprint (t.todo ++ gone.flatMap (fun r => t.footprintIn r.host (r.host + r.len))),
           phase := if t.phase = .translating then .translating else .waitRanges }

/-- An invalidation of a task that has failed already: its aperture unbinds, and its status stands unless it failed in this
same core cycle with a higher one (R22, R253). -/
def State.invalidateFailed (s : State) (t : Task) : State :=
  let s1 := ((s.putTask t).unbind t.ref).failAgain t St.invalidated
  if (s1.task t.ref).map Task.status = some St.invalidated ∧ t.status ≠ St.invalidated then s1.bump R.tuInvalFailed 1 else s1

/-- What an invalidation does to a task that holds a range it overlaps (R253). -/
def State.invalidateTask (i : Inval) (s : State) (ref : TaskRef) : State :=
  match s.task ref with
  | none => s
  | some t =>
    let hit := i.appliesTo (s.taskPasid ref) && t.ranges.any (fun r => i.hits r && ! r.marked)
    let t0 : Task := { t with xreq := t.xreq.map (fun r => if 0 < r.len then { r with voids := r.voids ++ [i] } else r) }
    let marked : Task := { t0 with ranges := i.mark t0.ranges }
    if ! hit then s.putTask t0
    else match t.phase with
      | .running => ((s.putTask marked).bump R.tuInvalFailed 1).failTask ref St.invalidated
      | .finished =>
        if t.status = St.success then ((s.putTask marked).bump R.tuInvalFailed 1).failDone marked St.invalidated
        else s.invalidateFailed marked
      | .failing => s.invalidateFailed marked
      | .translating => (s.putTask (t0.retranslated i)).bump R.tuRetranslated 1
      | .waitRanges => (s.putTask (t0.retranslated i)).bump R.tuRetranslated 1
      | .bindWait => (s.putTask (t0.retranslated i)).bump R.tuRetranslated 1
      | .queued => (s.putTask (t0.retranslated i)).bump R.tuRetranslated 1
      | _ => s.putTask marked

/-- A submission queue whose ring is invalidated stops (R50). -/
def State.invalidateSq (i : Inval) (s : State) (q : Nat) : State :=
  let r := s.sq q
  if s.sqHost q && i.appliesTo (s.sqPasid q) && r.ranges.any i.hits then
    let s1 := s.putSq q { r with ranges := i.mark r.ranges }
    if s.sqMode q = 1 ∨ s.sqMode q = 2 then s1.sqStop q St.invalidated false else s1
  else s

/-- A completion ring that is invalidated stops (R87). -/
def State.invalidateCq (i : Inval) (s : State) (c : Nat) : State :=
  let r := s.cq c
  if s.cqHost c && i.appliesTo (s.cqPasid c) && r.ranges.any i.hits then
    (s.putCq c { r with ranges := i.mark r.ranges }).cqStop c St.invalidated
  else s

/-- An Invalidate Request is accepted while fewer than 32 are outstanding: every holder of a marked range is dealt with in
this core cycle (R251 to R253). -/
def invalidateRequested (pasid : Option (BitVec 20)) (global : Bool) (addr len : Nat) (s : State) : State :=
  if 32 ≤ s.invals.length then s
  else
    let i : Inval := { pasid := pasid, global := global, addr := addr, len := len }
    let s1 := { s with invals := s.invals ++ [i],
                       xcache := s.xcache.filter (fun c => ! (i.appliesTo c.pasid && i.hits c.range)) }
    let s2 := (s1.tasks.map Task.ref).foldl (State.invalidateTask i) s1
    let s3 := ((s2.sqs.map Prod.fst).filter (fun q => decide (q < 1024))).foldl (State.invalidateSq i) s2
    ((s3.cqs.map Prod.fst).filter (fun c => decide (c < 256))).foldl (State.invalidateCq i) s3

def execInvalidateRequest (pasid : Option (BitVec 20)) (global : Bool) (addr len : Nat) (s : State) : Result :=
  .next (invalidateRequested pasid global addr len s)

/-- Is a host request of some bytes, sent in a core cycle under a PASID, one that an invalidation waits for: not timed out
(R254)? -/
def State.waitsFor (s : State) (i : Inval) (pasid : Option (BitVec 20)) (a len at_ : Nat) : Bool :=
  i.appliesTo pasid && overlaps i.addr i.len a len && ! s.hostOverdue at_ 320000

/-- Has a task a host request outstanding that was issued under a range an invalidation marked (R254): a read, its flushing
read, or the flushing read of its record? -/
def State.undrained (s : State) (i : Inval) (t : Task) : Bool :=
  let c := entryRing t.entry
  t.issueQ.any (fun x => decide (x.req.space = .host) && ! x.answered && s.waitsFor i (s.taskPasid t.ref) x.req.addr x.req.len x.at_) ||
    (match t.hostLast with
     | some a => t.flushing && s.waitsFor i (s.taskPasid t.ref) a 1 t.flushAt
     | none => false) ||
    (decide (t.phase = .recordIssued) && s.cqHost c && s.waitsFor i (s.cqPasid c) (s.cqSlot c t.recordPos) 32 t.recordAt)

/-- Has a queue a read of its ring in flight that an invalidation waits for (R50, R254)? -/
def State.ringUndrained (s : State) (i : Inval) (q : Nat) (r : SqRun) : Bool :=
  s.sqHost q && ((r.outstanding && s.waitsFor i (s.sqPasid q) (s.sqUnit q (s.sqHead q)) 64 r.lastRead) ||
    r.stale.any (fun x => s.waitsFor i (s.sqPasid q) x.1 64 x.2))

/-- Is a request that an invalidation waits for still in flight? -/
def State.inFlight (s : State) (i : Inval) : Bool :=
  s.tasks.any (s.undrained i) || s.sqs.any (fun x => s.ringUndrained i x.1 x.2) ||
    s.apLoads.any (fun l => l.host.any (fun h => s.waitsFor i l.pasid h.1 h.2 l.at_))

/-- The oldest invalidation completes once its requests have drained; the Translation Requests it held void may be issued
again (R251, R253, R254). -/
def invalidateCompleted (s : State) : State :=
  match s.invals with
  | [] => s
  | i :: rest =>
    if s.inFlight i then s
    else
      let free (t : Task) : Task := match t.xreq with
        | some r =>
          if r.len ≠ 0 then t
          else if r.voids.erase i = [] then { t with xreq := none } else { t with xreq := some { r with voids := r.voids.erase i } }
        | none => t
      (({ s with invals := rest, tasks := s.tasks.map free } : State).bump R.tuInvals 1).emit .invalidateCompletion

def execInvalidateCompletion (s : State) : Result := .next (invalidateCompleted s)

/-! ### The context map (R256) -/

/-- Does any queue or ring of a context exist? -/
def State.ctxInUse (s : State) (c : Nat) : Bool :=
  (List.range 1024).any (fun q => s.bit (R.sqCfg q) 31 && decide (s.sqCtx q = c)) ||
    (List.range 256).any (fun r => s.bit (R.cqCfg r) 31 && decide (s.fld (R.cqCfg r) 0 12 = c))

/-- Would a write make two valid entries hold one PASID? -/
def State.pasidTaken (s : State) (c : Nat) (value : Word) : Bool :=
  decide (getField value 30 2 = 3) &&
    (List.range 4096).any (fun d => decide (d ≠ c) && decide (s.fld (R.ctxMap d) 30 2 = 3) &&
      decide (s.fld (R.ctxMap d) 0 20 = getField value 0 20))

/-- A write of CTX_MAP (R256). -/
def writeCtxMap (c : Nat) (value : Word) (s : State) : State :=
  if c = 0 then s
  else if s.ctxInUse c then s.hwSet R.tuStatus 1
  else if s.pasidTaken c value then s.hwSet R.tuStatus 0
  else s.setReg (R.ctxMap c) (value &&& 0xC00FFFFF)

def execCtxMapWrite (src : Requester) (c : Fin 4096) (value : Word) (s : State) : Result :=
  s.regWrite src (R.ctxMap c) value (writeCtxMap c value)

end Sys2Proof.Machine
end

