-- ==== Sys2Proof/Machine/Claims.lean ====
section
/-!
DEFINITION. Dispatch (R16, R38, R74, R75, R78, R175, R177, R193, R229): the ranking of tasks and the units each claims.
-/
namespace Sys2Proof.Machine

/-! ### What a task claims (R16, R179) -/

/-- Does a COLLECTIVE compress on the wire? -/
def entryWire (e : List Byte) : Bool := decide (entryOpcode e = 0x05) && (collCtl e).wire

/-- Does a task reduce? -/
def needsLane (e : List Byte) : Bool :=
  decide (entryOpcode e = 0x04) || entryOp1 e ||
    (decide (entryOpcode e = 0x05) && decide ((collCtl e).kind = 1 ∨ (collCtl e).kind = 2))

def needsExpander (e : List Byte) : Bool := entryWire e || (! isQueueTask (entryOpcode e) && (entryExpand e).isSome)
def needsCompressor (e : List Byte) : Bool := entryWire e || (! isQueueTask (entryOpcode e) && (entryCompress e).isSome)

/-- The decode-table slots a task names (R192). -/
def entrySlots (e : List Byte) : List Nat :=
  if isQueueTask (entryOpcode e) ∨ entryOpcode e = 0x08 then []
  else (match entryExpand e with | some p => [p.slot] | none => []) ++
    (match entryCompress e with | some p => [p.slot] | none => []) ++
    (if entryWire e then [(collCtl e).wslot] else [])

/-- The state of a decode-table slot (R203): 0 EMPTY, 1 LOADED, 2 LOADING. -/
def State.slotState (s : State) (n : Nat) : Nat := s.fld (R.cxSlot n) 30 2

/-- Is a unit about to be retired (R344)? Kind 0 is an engine, 1 a compressor, 2 an expander. -/
def State.retiring (s : State) (kind unit : Nat) : Bool :=
  match s.mq.retire with
  | some r => decide (r.kind = kind) && decide (r.unit = unit)
  | none => false

/-- The active engines. -/
def State.activeEngines (s : State) : List (Fin 68) := (List.finRange 68).filter (fun e => decide (s.fld (R.engStatus e) 30 2 = 0))

/-- The engine a task would get: the free active one at the lowest logical position (R16). -/
def State.freeEngine (s : State) : Option (Fin 68) :=
  let free := s.activeEngines.filter (fun (e : Fin 68) => ! s.bit (R.engStatus e) 29 && ! s.retiring 0 e)
  (List.range 64).findSome? (fun p => free.find? (fun (e : Fin 68) => decide (s.fld (R.engStatus e) 0 6 = p)))

/-- The lowest-numbered free reduce lane. -/
def State.freeLane (s : State) : Option (Fin 16) := (List.finRange 16).find? (fun (n : Fin 16) => ! s.bit R.rdLaneBusy n)

/-- The lowest-numbered free expander and compressor. -/
def State.freeExpander (s : State) : Option Nat :=
  (List.range 26).find? (fun n => s.bit R.cxExpActive n && ! s.bit R.cxExpBusy n && ! s.retiring 2 n)
def State.freeCompressor (s : State) : Option Nat :=
  (List.range 26).find? (fun n => s.bit R.cxCompActive n && ! s.bit R.cxCompBusy n && ! s.retiring 1 n)

/-- Would starting a scheduled-class task leave fewer than RESERVE active engines idle or running session-class tasks
(R229)? -/
def State.reserveKept (s : State) (e : List Byte) : Bool :=
  entrySession e ||
    decide (s.fld R.strSessionActive 0 5 + 1 ≤ s.activeEngines.countP (fun (n : Fin 68) => ! s.bit (R.engStatus n) 29 || s.bit (R.engStatus n) 28)) ||
    decide (s.fld R.strSessionActive 0 5 = 0)

/-- Does another COLLECTIVE of the task's CTAG hold its units (R175)? -/
def State.ctagBusy (s : State) (e : List Byte) : Bool :=
  decide (entryOpcode e = 0x05) &&
    s.tasks.any (fun t => decide (entryOpcode t.entry = 0x05) && t.engine.isSome && decide ((collCtl t.entry).ctag = (collCtl e).ctag))

/-- The units granted to a task. -/
structure Claim where
  engine : Option (Fin 68)
  lane : Option (Fin 16)
  expander : Option Nat
  compressor : Option Nat
  rob : Nat
deriving DecidableEq, Repr

/-- What a candidate meets at its turn. -/
inductive Grant where
  | hold
  | fail (st : Status)
  | go (c : Claim)
deriving DecidableEq, Repr

/-- A unit that is needed and not free holds the claim. -/
def missing (needed free : Bool) : Bool := needed && ! free

/-- A candidate's claim, all or nothing (R16). A slot that is loading holds the task, an empty one fails it (R193); an
aperture another task holds fails it (R38). -/
def State.grantFor (s : State) (t : Task) : Grant :=
  let e := t.entry
  if (entrySlots e).any (fun n => decide (s.slotState n = 2)) then .hold
  else if (entrySlots e).any (fun n => decide (s.slotState n = 0)) then .fail St.tableGeneration
  else if entryApt e && (s.apertureOwner (entryAperture e)).isSome then .fail St.tableBusy
  else if isQueueTask (entryOpcode e) then .go { engine := none, lane := none, expander := none, compressor := none, rob := 0 }
  else if s.freeEngine.isNone || missing (needsLane e) s.freeLane.isSome || missing (needsExpander e) s.freeExpander.isSome ||
      missing (needsCompressor e) s.freeCompressor.isSome || decide (256 < s.fld R.rdRobUsed 0 9 + robClaim e) ||
      ! s.reserveKept e || s.ctagBusy e then .hold
  else .go { engine := s.freeEngine, lane := if needsLane e then s.freeLane else none,
             expander := if needsExpander e then s.freeExpander else none,
             compressor := if needsCompressor e then s.freeCompressor else none, rob := robClaim e }

/-! ### Ranking (R16, R74) -/

/-- Does a task rank before another at dispatch: scheduled before session, then by age? -/
def dispatchBefore (a b : Task) : Bool :=
  (! entrySession a.entry && entrySession b.entry) ||
    (decide (entrySession a.entry = entrySession b.entry) && olderThan a b)

/-- A task put in its rank. -/
def insertRank (t : Task) : List Task → List Task
  | [] => [t]
  | u :: l => if dispatchBefore t u then t :: u :: l else u :: insertRank t l

/-- Is a task accepted behind a FENCE of its queue whose record is not written (R78, R290)? -/
def State.behindFence (s : State) (t : Task) : Bool :=
  (s.tasks.takeWhile (fun u => decide (u.ref ≠ t.ref))).any (fun f => decide (f.ref.sq = t.ref.sq) &&
    decide (entryOpcode f.entry = 0x0A) && decide (f.phase ≠ .journal))

/-- The tasks that may be dispatched, in rank order. -/
def State.candidates (s : State) : List Task :=
  (s.tasks.filter (fun t => decide (t.phase = .queued) && t.eligible && ! s.behindClose t && ! s.behindFence t)).foldl
    (fun l t => insertRank t l) []

/-! ### Dispatch -/

/-- A node that a watched peer entry marks dead (R277, R279). -/
def State.deadNode (s : State) (node : Nat) : Bool :=
  (List.range 1024).any (fun n => decide (s.fld (R.fePeerCfg n) 29 2 = 2) && decide (s.fld (R.fePeerCfg n) 0 16 = node))

/-- The units of a claim marked as taken. -/
def State.takeClaim (s : State) (t : Task) (c : Claim) : State :=
  let s1 := match c.engine with
    | none => s
    | some e => (((s.setFld (R.engStatus e) 27 3 (4 + boolBit (entrySession t.entry) * 2 +
        boolBit (t.fillBind.isSome || t.drainBind.isSome))).setReg (R.engTaskSq e) (BitVec.ofNat 32 t.ref.sq)).setReg
          (R.engTaskIndex e) (BitVec.ofNat 32 t.ref.index))
  let s2 := match c.lane with | none => s1 | some l => s1.setBit R.rdLaneBusy l true
  let s3 := match c.expander with | none => s2 | some x => s2.setBit R.cxExpBusy x true
  let s4 := match c.compressor with | none => s3 | some k => s3.setBit R.cxCompBusy k true
  s4.setFld R.rdRobUsed 0 9 (s4.fld R.rdRobUsed 0 9 + c.rob)

/-- The sequence number of a COLLECTIVE task, with the count moved on (R175). -/
def State.takeSeq (s : State) (t : Task) : Nat × State :=
  if entryOpcode t.entry = 0x05 then
    let k := (collCtl t.entry).ctag
    (sget (fun _ => 0) s.ctagSeq k, { s with ctagSeq := sset (fun _ => 0) s.ctagSeq k (sget (fun _ => 0) s.ctagSeq k + 1) })
  else (0, s)

/-- A task starts to run with its claim; its aperture is bound (R38). -/
def State.start (s : State) (t : Task) (c : Claim) : State :=
  let (n, s1) := s.takeSeq t
  let t1 := { t with phase := .running, tDispatch := s.gtc, engine := c.engine, lane := c.lane, expander := c.expander,
                     compressor := c.compressor, robUnits := c.rob, freeBase := s.freeCtr, coll := { t.coll with seqNo := n } }
  let s2 := ((s1.takeClaim t c).stepFree).putTask t1
  let s3 := if entryApt t.entry then s2.putAperture (entryAperture t.entry) (some t.ref) else s2
  if entryOpcode t.entry = 0x05 ∧ (t.group s.node).any s.deadNode then s3.failTask t.ref St.deadDestination
  else if t1.coll.announced.any (fun a => decide (a ≠ t1.announcement s.node)) then s3.failTask t.ref St.mismatch
  else (s3.exchange t.ref).settle t.ref

/-- The dispatch of this core cycle is taken (R74). -/
def State.noteDispatch (s : State) : State := { s with now := { s.now with dispatched := true } }

/-- The highest-ranked task whose claim is granted is dispatched, or fails at its turn; at most one a core cycle (R16,
R74). -/
def dispatchOne (s : State) : State :=
  if s.now.dispatched then s
  else match s.candidates.findSome? (fun t => match s.grantFor t with
    | .hold => none
    | g => some (t, g)) with
  | some (t, .go c) => s.noteDispatch.start t c
  | some (t, .fail st) => s.failTask t.ref st
  | _ => s

def execDispatch (s : State) : Result := .next (dispatchOne s)

end Sys2Proof.Machine
end

