-- ==== Sys2Proof/Machine/Data.lean ====
section
/-!
DEFINITION. The data path of a running task: reads and their gating (R204, R213, R214, R224, R228, R250), responses
(R15, R352), expansion (R200), the execute side and its writes (R15, R96, R105, R166, R213), compression (R196 to R198),
acknowledgements (R21, R90).
-/
namespace Sys2Proof.Machine

/-! ### Tiles of a bound task (R211 to R214) -/

/-- The schedule counter. -/
def State.sc (s : State) : Nat := s.reg64 R.strScLo

/-- The deadline of a tile, and the end of its window (R211). -/
def DsRun.deadline (d : DsRun) (t : Nat) : Nat := d.first + t * d.period
def DsRun.windowEnd (d : DsRun) (t : Nat) : Nat := d.deadline t + d.use

/-- The tile that a byte of this chip's scratchpad lies in, through a binding. -/
def State.tileAt (s : State) (b : Option Binding) (a : Nat) : Option Nat :=
  match b with
  | none => none
  | some b => match s.stream b.stream with
    | none => none
    | some d =>
      let base := s.node * 2 ^ 48 + scratchBase + d.ring
      if base ≤ a ∧ a < base + d.ringLen then some (tileOf base d.tileBytes b.first (b.first % d.slots) a) else none

/-- Have the cores executed every barrier cycle below a schedule cycle (R224)? -/
def State.barriersPast (s : State) (c : Nat) : Bool := s.barriers.all (fun b => decide (c ≤ b) || decide (b < s.sc))

/-- Does a stream's mode allow a read of tile `t` (R224)? -/
def State.barrierAllows (s : State) (d : DsRun) (t : Nat) : Bool := ! d.barrier || s.barriersPast (d.deadline t)

/-- Is the gating tile of a read the tile of its first element: no SCATTER, no gather, reduce, transpose, pad, broadcast
or reshuffle, slice only folded (R213)? A COLLECTIVE counts as one that does not (DEDUCED, log 20). -/
def gatesByElement (e : List Byte) : Bool :=
  decide (entryOpcode e = 0x01 ∨ entryOpcode e = 0x06 ∨ entryOpcode e = 0x08) &&
    (blocksOf e).all (fun b => decide (b.type ≠ 0x21 ∧ b.type ≠ 0x22 ∧ b.type ≠ 0x23 ∧ b.type ≠ 0x24))

/-- The output an element of the read stage becomes, where the task only moves elements. -/
def Task.outputOf (t : Task) (self p : Nat) : Nat :=
  match foldedSlice t.entry with
  | some b =>
    let u := sliceStage b (t.readTensor self)
    ((List.range u.count).find? (fun x => decide (u.deps x = [p]))).getD 0
  | none => p

/-- The gating tile of a read of a bound fill task (R213). -/
def State.gatingTile (s : State) (t : Task) (b : Binding) (r : ReadReq) : Nat :=
  if gatesByElement t.entry && decide (r.kind ≠ .index ∧ r.kind ≠ .prior) then
    match (t.outputCells s.node (t.finalTensor s.node).dims (t.outputOf s.node r.first) 0).filterMap
        (fun c => s.tileAt (some b) c.addr) with
    | [] => b.first
    | g :: l => l.foldl min g
  else b.first

/-- Does the fill stream of a task allow a read (R213, R224)? -/
def State.fillAllows (s : State) (t : Task) (r : ReadReq) : Bool :=
  match t.fillBind with
  | none => true
  | some b => match s.stream b.stream with
    | none => true
    | some d =>
      let g := s.gatingTile t b r
      decide (d.deadline g ≤ s.sc + d.lead * d.period) && s.barrierAllows d g

/-- The tile of a bound drain task's ring that a read touches. -/
def State.drainTile (s : State) (t : Task) (r : ReadReq) : Option Nat :=
  if r.space = .device then s.tileAt t.drainBind r.addr else none

/-- Does the drain stream of a task allow a read (R214, R224)? -/
def State.drainAllows (s : State) (t : Task) (r : ReadReq) : Bool :=
  match t.drainBind, s.drainTile t r with
  | some b, some i => (match s.stream b.stream with
      | none => true
      | some d => decide (d.windowEnd i ≤ s.sc) && s.barrierAllows d i)
  | _, _ => true

/-! ### Credits (R228) -/

/-- The run of a STREAM that a read belongs to, with its number of blocks. -/
def Task.runOf (t : Task) (r : ReadReq) : Option (Nat × Nat) :=
  let runs := solder (streamBlockBytes t.entry) t.blocks
  let b := r.first / streamBlockBytes t.entry
  ((List.range runs.length).find? (fun i => decide ((runs.getD i (0, 0)).1 ≤ b) &&
    decide (b < (runs.getD i (0, 0)).1 + (runs.getD i (0, 0)).2))).map (fun i => (i, (runs.getD i (0, 0)).2))

/-- The credits a read must take first: those of its run, if it is the run's first read; the counter and how many. -/
def Task.creditNeed (t : Task) (r : ReadReq) : Option (Nat × Nat) :=
  if entryOpcode t.entry = 0x08 then
    match streamCredit t.entry, t.runOf r with
    | some c, some (i, n) => if t.runsTaken ≤ i then some (c, n) else none
    | _, _ => none
  else none

/-- Are the credits a read needs there? -/
def State.creditAllows (s : State) (t : Task) (r : ReadReq) : Bool :=
  match t.creditNeed r with
  | some (c, n) => decide (n ≤ (s.reg (R.crdVal c)).toNat)
  | none => true

/-- The credits taken. -/
def State.takeCredits (s : State) (t : Task) (r : ReadReq) : State × Task :=
  match t.creditNeed r with
  | some (c, n) =>
    (s.setReg (R.crdVal c) (BitVec.ofNat 32 ((s.reg (R.crdVal c)).toNat - n)), { t with runsTaken := t.runsTaken + 1 })
  | none => (s, t)

/-! ### Issuing reads (R204, R205, R250) -/

/-- The staging space a task holds, and what a read allocates: an ingot takes 4,096 bytes with its header. -/
def Task.staged (t : Task) : Nat := (t.issueQ.map Issued.alloc).sum

def ReadReq.alloc (r : ReadReq) : Nat :=
  match r.kind with
  | .ingotHeader _ => 4096
  | .ingotPayload _ => 0
  | _ => r.len

/-- The next read of a task, if its plan is known so far. -/
def State.nextRead (s : State) (t : Task) : Option ReadReq := (t.plan s.node)[t.readsIssued]?

/-- Is a read withheld by R213, R214, R224 or R228 (ENG_GATED)? -/
def State.gated (s : State) (t : Task) (r : ReadReq) : Bool :=
  ! s.fillAllows t r || ! s.drainAllows t r || ! s.creditAllows t r

/-- The range of a task's list that holds a whole host interval. -/
def Task.rangeOf (t : Task) (a len : Nat) : Option XRange :=
  t.ranges.find? (fun r => decide (r.host ≤ a) && decide (a + len ≤ r.host + r.len) && ! r.marked)

/-- The entries of a task's issue queue: those whose bytes the execute side has not taken (R204). -/
def Task.issued (t : Task) : Nat := t.issueQ.countP (fun i => ! i.taken)

/-- A read goes out; the task's issue queue takes its entry. -/
def State.sendRead (s : State) (t : Task) (r : ReadReq) : State :=
  let entry : Issued := { no := t.readsIssued, req := r, alloc := r.alloc, at_ := s.cycle, answered := false, bytes := [],
                           corrected := false, refreshed := false, emitted := false, taken := false }
  let (s1, t1) := s.takeCredits t r
  let s2 := s1.putTask { t1 with readsIssued := t.readsIssued + 1, issueQ := t.issueQ ++ [entry] }
  match r.space with
  | .host => (match t.rangeOf r.addr r.len with
      | some x => s2.emit (.hostRead (x.target (r.addr - x.host)) r.len (s.taskPasid t.ref) (! x.untranslated))
      | none => s)
  | .device => if r.addr / 2 ^ 48 = s.node then s2 else s2.emitFabric (.remoteRead r.addr r.len 0)

/-- The fetch side issues its next read, or fails on a host address outside the range list (R250) or a dead node (R277). -/
def issueRead (ref : TaskRef) (s : State) : State :=
  match s.task ref with
  | none => s
  | some t =>
    if t.phase ≠ .running then s
    else match s.nextRead t with
      | none => s
      | some r =>
        if 1024 ≤ t.issued ∨ 524288 < t.staged + r.alloc ∨ s.gated t r then s
        else if r.space = .host then
          (if (t.rangeOf r.addr r.len).isNone then s.failTask ref St.pageFault
           else s.sendRead t r)
        else if r.addr / 2 ^ 48 ≠ s.node && s.deadNode (r.addr / 2 ^ 48) then
          (s.bump R.feDeadRefused 1).failTask ref St.deadDestination
        else s.sendRead t r

def execReadIssue (t : TaskRef) (s : State) : Result := .next (issueRead t s)

/-! ### Responses -/

/-- An issue-queue entry answered with bytes. -/
def Task.answer (t : Task) (no : Nat) (bs : List Byte) : Task :=
  { t with issueQ := t.issueQ.map (fun i => if i.no = no then { i with answered := true, bytes := fitBytes i.req.len bs } else i) }

/-- Does an index that has arrived map to a fault, with all before it known (R128)? -/
def Task.indexFaults (t : Task) : Bool :=
  let seen := t.issueQ.filter (fun i => i.answered && decide (i.req.kind = .index))
  let m := seen.foldl (fun m i => consumeBytes m i.req.key i.bytes) t.consumed
  Task.indexFault { t with consumed := m }

/-- A read's marks noted for every tile it belongs to: a later response replaces them (R220). -/
def State.noteRead (s : State) (t : Task) (r : ReadReq) (m : ReadMarks) : State :=
  let host := decide (r.space = .host)
  let put (u : State) (n : Nat) (tiles : List Nat) : State := match u.stream n with
    | none => u
    | some d => u.putStream n { d with lastMarks := tiles.foldl (fun l i => sset (fun _ => none) l i (some (m, host))) d.lastMarks }
  let s1 := match t.fillBind with
    | none => s
    | some b => put s b.stream (if gatesByElement t.entry then [s.gatingTile t b r] else List.range' b.first b.count)
  match t.drainBind, s.drainTile t r with
  | some b, some i => put s1 b.stream [i]
  | _, _ => s1

/-! ### Tiles filled and read out (R214, R215) -/

/-- Is a tile of a bound fill task written whole and acknowledged: no cell to come, none pending? -/
def State.tileFilled (s : State) (t : Task) (i : Nat) : Bool :=
  let u := t.finalTensor s.node
  t.indicesKnown && (t.gather ++ t.pendingW).all (fun w => decide (w.tile ≠ some i)) &&
    (List.range' t.emitted.length (u.count - t.emitted.length)).all (fun x =>
      ! t.keepsOutput s.node u x ||
        (t.outputCells s.node u.dims x 0).all (fun c => decide (s.tileAt t.fillBind c.addr ≠ some i)))

/-- Has every read of a drain tile's bytes completed? -/
def State.tileRead (s : State) (t : Task) (i : Nat) : Bool :=
  t.planKnown s.node &&
    (List.range (t.plan s.node).length).all (fun j => match (t.plan s.node)[j]? with
      | none => true
      | some r => decide (s.drainTile t r ≠ some i) ||
          (decide (j < t.readsIssued) && t.issueQ.all (fun q => decide (q.no ≠ j) || q.answered)))

/-! ### The cause of a hold that is decided later (R220, R365) -/

/-- Held array cycles are counted under their cause. -/
def State.countHold (s : State) (cause cycles : Nat) : State :=
  (s.bump64 (R.holdCurLo cause) cycles).bump64 (R.holdTotalLo cause) cycles

/-- The cause that the marks of a tile's last-completing read give. -/
def readCause : Option (ReadMarks × Bool) → Nat
  | none => 3
  | some (m, host) =>
    if m.corrected then 4 else if m.refresh then 5 else if m.fabricRetry then 6 else if host then 7
    else if m.arbitration then 8 else 3

/-- Is a stream FAILED (R222)? -/
def State.streamFailed (s : State) (n : Nat) : Bool := s.bit (R.dsState n) 30

/-- The cause of the deferred cycles of a tile whose stream is FAILED, or that is complete or read out. -/
def State.deferredCause (s : State) (x : Deferred) : Nat :=
  if s.streamFailed x.stream then 10
  else match s.stream x.stream with
    | none => 3
    | some d => readCause (sget (fun _ => none) d.lastMarks x.tile)

/-- The deferred cycles that a test picks are counted under their cause. -/
def State.resolveWhere (s : State) (p : Deferred → Bool) : State :=
  let s1 := (s.deferred.filter p).foldl (fun u x => u.countHold (s.deferredCause x) x.cycles) s
  { s1 with deferred := s.deferred.filter (fun x => ! p x) }

/-- Can the cause be decided: the tile is complete or read out, or its stream is FAILED? -/
def State.decided (s : State) (x : Deferred) : Bool :=
  s.streamFailed x.stream || (match s.stream x.stream with
    | none => true
    | some d => if d.drain then d.ready.contains x.tile else d.done.contains x.tile)

/-- Every deferred cause that can be decided is decided. -/
def State.resolveHolds (s : State) : State := s.resolveWhere s.decided

/-- Tiles added to those a stream has filled or read out. -/
def State.addReady (s : State) (n : Nat) (tiles : List Nat) : State :=
  match s.stream n with
  | none => s
  | some d => (s.putStream n { d with ready := d.ready ++ tiles.filter (fun i => ! d.ready.contains i) }).resolveHolds

/-- The tiles a task has filled or read out are noted. -/
def State.noteTiles (s : State) (ref : TaskRef) : State :=
  match s.task ref with
  | none => s
  | some t =>
    if t.phase ≠ .running then s
    else
      let s1 := match t.fillBind with
        | none => s
        | some b => s.addReady b.stream ((List.range' b.first b.count).filter (s.tileFilled t))
      match t.drainBind with
      | none => s1
      | some b => s1.addReady b.stream ((List.range' b.first b.count).filter (s.tileRead t))

/-! ### Staging space (R15, R176, R204, R213) -/

/-- May a cell be written now: the window of the tile that held its slot before has ended (R213)? -/
def State.cellOpen (s : State) (t : Task) (c : WCell) : Bool :=
  match t.fillBind, s.tileAt t.fillBind c.addr with
  | some b, some i => (match s.stream b.stream with
      | none => true
      | some d => decide (i < d.slots) || decide (d.windowEnd (i - d.slots) ≤ s.sc))
  | _, _ => true

/-- Does the execute side wait, its data staged, with an output whose tile may not be written yet (R213)? -/
def State.withheld (s : State) (t : Task) : Bool :=
  let u := t.finalTensor s.node
  let x := t.emitted.length
  decide (x < u.count) && (match t.output s.node u x with
    | some (some v) => (t.outputCells s.node u.dims x v).any (fun c => ! s.cellOpen t c)
    | _ => false)

/-- The staged bytes that every piece needing them has left, or that no stage needs any more, are consumed: their space is
returned (R176, R204). -/
def State.releaseStaged (s : State) (ref : TaskRef) : State :=
  match s.task ref with
  | none => s
  | some t =>
    if t.phase ≠ .running ∨ s.withheld t then s
    else s.putTask { t with issueQ := t.issueQ.filter (fun i => ! i.taken || t.heldForPiece s.node i) }

/-- A task moves on: its tiles, its staging space, its exchange with other members, then its end. -/
def State.proceed (s : State) (ref : TaskRef) : State := (((s.noteTiles ref).releaseStaged ref).exchange ref).settle ref

/-! ### Read responses (R15, R22, R352) -/

/-- A response to a failing task is discarded. -/
def State.discardRead (s : State) (t : Task) (no : Nat) : State :=
  (s.putTask { t with issueQ := t.issueQ.filter (fun i => decide (i.no ≠ no)) }).settle t.ref

/-- Is a read one of this chip's memory? -/
def State.readsOwn (s : State) (i : Issued) : Bool := decide (i.req.space = .device) && decide (i.req.addr / 2 ^ 48 = s.node)

/-- The marks of a response: those of this chip's tier-B controllers (R301, R303), else those the response carries. -/
def State.marksOf (s : State) (i : Issued) (m : ReadMarks) : ReadMarks :=
  if s.readsOwn i && decide (regionOf (i.req.addr % 2 ^ 48) = .tierB) then { m with corrected := i.corrected, refresh := i.refreshed } else m

/-- A response with data is staged; a correction by this chip's stacks or scratchpad is counted (R374). -/
def State.stageRead (s : State) (t : Task) (i : Issued) (m : ReadMarks) (bs : List Byte) : State :=
  let t1 := t.answer i.no bs
  let s0 := if s.readsOwn i && m.corrected then s.noteCorrected (i.req.addr % 2 ^ 48) .corrected else s
  let s1 := (s0.putTask t1).noteRead t1 i.req (s.marksOf i m)
  if t1.indexFaults then s1.failTask t.ref St.indexRange else s1.proceed t.ref

/-- Does a request of this chip's memory wait for tier B (R391)? -/
def State.localWaits (s : State) (a : Nat) : Bool := decide (a / 2 ^ 48 = s.node) && s.tierBWaits (a % 2 ^ 48)

/-- Does a read of a task wait, with a line of it, for a refresh (R303)? -/
def State.lineHeld (s : State) (t : Task) (i : Issued) : Bool :=
  s.readsOwn i && s.sites.any (fun x => x.2.held.any (fun h => decide (h.use = .request (some t.ref)) &&
    decide (i.req.addr % 2 ^ 48 / 64 ≤ h.addr / 64) && decide (h.addr / 64 ≤ (i.req.addr % 2 ^ 48 + (i.req.len - 1)) / 64)))

/-- A parity failure on a data path of a task's engine (R352, R374). -/
def State.pathParity (s : State) (t : Task) : State :=
  (s.bump R.tmPathParity 1).mcEvent 8 t.engineField St.uncorrectable (some t.ref) 0

/-- A response to a running task. -/
def State.answerRead (s : State) (t : Task) (i : Issued) (answer : ReadAnswer) : State :=
  let own := decide (i.req.space = .device) && decide (i.req.addr / 2 ^ 48 = s.node)
  let a := i.req.addr % 2 ^ 48
  let refused (u : State) (st : Status) : State :=
    (u.putTask { t with issueQ := t.issueQ.filter (fun x => decide (x.no ≠ i.no)) }).failTask t.ref st
  match answer with
  | .parity => refused (s.pathParity t) St.uncorrectable
  | .error st => refused s (if i.req.space = .host then St.host else st)
  | .uncorrectable => if i.req.space = .host then refused s St.host else refused (if own then s.mcUncorrectable a St.uncorrectable (some t.ref) else s) St.uncorrectable
  | .data m bs =>
    if own then
      (match s.memVerdict (s.ctxOf t.ref) .read a i.req.len .good with
       | some st => refused (s.memRefusal st a (some t.ref)) st
       | none => s.stageRead t i m (s.seenMem a i.req.len))
    else s.stageRead t i m bs

/-- A read response arrives; one that nothing waits for has no effect. -/
def respond (ref : TaskRef) (no : Nat) (answer : ReadAnswer) (s : State) : State :=
  match s.task ref with
  | none => s
  | some t => match t.issueQ.find? (fun i => decide (i.no = no) && ! i.answered) with
    | none => s
    | some i =>
      if (decide (i.req.space = .device) && s.localWaits i.req.addr) || s.lineHeld t i then s
      else match t.phase with
        | .running => s.answerRead t i answer
        | .failing => s.discardRead t no
        | _ => s

def execReadResponse (t : TaskRef) (no : Nat) (answer : ReadAnswer) (s : State) : Result := .next (respond t no answer s)

/-! ### The expander (R200 to R202) -/

/-- A codec failure is recorded and fails its task (R203). -/
def State.codecFail (s : State) (t : Task) (st : Status) : State :=
  ((s.latchReg R.cxErr t.engineField (t.engineField * 2 ^ 16 + st.toNat)).bump R.cxErrCount 1).failTask t.ref st

/-- The header in the length-list line of an ingot. -/
def headerOf (p : CodecParams) (ingot : Nat) (line : List Byte) : List Byte := (line.drop ((p.listBase + 16 * ingot) % 64)).take 16

/-- The block of touch `i` leaves the expander; its payload's entries leave the issue queue. -/
def Task.emitBlock (t : Task) (i : Nat) (block : List Byte) : Task :=
  { t with issueQ := (t.issueQ.filter (fun q => decide (q.req.kind ≠ .ingotPayload i))).map (fun q =>
      if q.req.kind = .ingotHeader i then { q with bytes := block, emitted := true } else q) }

/-- The payload of touch `i`, once every piece of it has answered. -/
def Task.payloadOf (t : Task) (i : Nat) (h : List Byte) : Option (List Byte) :=
  let ps := t.issueQ.filter (fun q => decide (q.req.kind = .ingotPayload i))
  if ps.all Issued.answered ∧ payloadBytes h ≤ (ps.map (fun q => q.bytes.length)).sum then
    some ((ps.flatMap Issued.bytes).take (hdrSlen h))
  else none

/-- The block of an ingot, or its failure. -/
def State.decodeBlock (s : State) (t : Task) (p : CodecParams) (i : Nat) (h payload : List Byte) : State :=
  match expandPayload h (s.slotLens p.slot) (p.ulen (t.touchIngot s.node i)) payload with
  | .error st => s.codecFail t st
  | .ok block => s.putTask (t.emitBlock i block)

/-- The header of touch `i` is checked; a ZERO ingot leaves at once. -/
def State.checkHeader (s : State) (t : Task) (p : CodecParams) (i : Nat) (line : List Byte) : State :=
  let ing := t.touchIngot s.node i
  let h := headerOf p ing line
  match headerCheck h (p.ulen ing) p.slot (s.slotGen p.slot) with
  | some st => s.codecFail t st
  | none =>
    let t1 := { t with hdrs := t.hdrs ++ [h] }
    if payloadBytes h = 0 then s.decodeBlock t1 p i h [] else s.putTask t1

/-- The oldest staged ingot is checked or decoded. -/
def expandIngot (ref : TaskRef) (s : State) : State :=
  match s.task ref with
  | none => s
  | some t => match t.phase, entryExpand t.entry with
    | .running, some p =>
      let waiting := t.issueQ.findSome? (fun q => match q.req.kind with
        | .ingotHeader i => if i < t.hdrs.length ∧ ! q.emitted then some i else none
        | _ => none)
      let fresh := t.issueQ.findSome? (fun q => match q.req.kind with
        | .ingotHeader i => if i = t.hdrs.length ∧ q.answered then some q.bytes else none
        | _ => none)
      (match fresh, waiting with
       | some line, _ => s.checkHeader t p t.hdrs.length line
       | none, some i => (match t.hdrs[i]? with
           | none => s
           | some h => match t.payloadOf i h with
             | none => s
             | some payload => s.decodeBlock t p i h payload)
       | none, none => s)
    | _, _ => s

def execIngotExpand (t : TaskRef) (s : State) : Result := .next (expandIngot t s)

/-! ### Writing outputs (R96, R105, R166, R213) -/

/-- The outputs that can be written now, from output `x` on. -/
def State.scanOutputs (s : State) (t : Task) (u : LTensor) : Nat → Nat → List (Option Nat)
  | 0, _ => []
  | n + 1, x => match t.output s.node u x with
    | none => []
    | some none => none :: s.scanOutputs t u n (x + 1)
    | some (some v) =>
      if (t.outputCells s.node u.dims x v).all (s.cellOpen t) then some v :: s.scanOutputs t u n (x + 1) else []

/-- Do a task's outputs leave as whole bytes only: to the host, or to a compressor? -/
def wholeBytes (e : List Byte) : Bool := entryDestHost e || (decide (entryOpcode e ≠ 0x08) && (entryCompress e).isSome)

/-- The outputs to write now: for formats below a byte that leave as whole bytes, in groups of eight. -/
def State.readyOutputs (s : State) (t : Task) (u : LTensor) : List (Option Nat) :=
  let l := s.scanOutputs t u (u.count - t.emitted.length) t.emitted.length
  if wholeBytes t.entry && decide (widthOf u.fmt < 8) && decide (t.emitted.length + l.length < u.count) then
    l.take ((t.emitted.length + l.length) / 8 * 8 - t.emitted.length)
  else l

/-- Neighbouring cells of one byte joined. -/
def joinCells : List WCell → List WCell → List WCell
  | acc, [] => acc.reverse
  | [], c :: l => joinCells [c] l
  | a :: acc, c :: l =>
    if a.addr = c.addr then joinCells ({ a with mask := a.mask ||| c.mask, val := c.apply a.val } :: acc) l
    else joinCells (c :: a :: acc) l

/-- A stretch of a host write: the host address its range begins at, where it is sent, whether that is a translated
address (R241), and its bytes. -/
structure HostWrite where
  range : Nat
  addr : Nat
  translated : Bool
  bytes : List Byte
deriving DecidableEq, Repr

/-- Cells cut into stretches of ascending bytes of one range (R250). A byte only some of whose bits the task writes is
sent whole, its other bits zero (DESIGN CHOICE, log 20: R102 speaks of whole bytes). -/
def hostStretches (t : Task) : List HostWrite → List WCell → Option (List HostWrite)
  | acc, [] => some acc.reverse
  | acc, c :: l => match t.rangeOf c.addr 1 with
    | none => none
    | some r =>
      let new : HostWrite := { range := r.host, addr := r.target (c.addr - r.host), translated := ! r.untranslated, bytes := [c.val] }
      match acc with
      | w :: rest =>
        if new.addr = w.addr + w.bytes.length ∧ r.host = w.range then hostStretches t ({ w with bytes := w.bytes ++ [c.val] } :: rest) l
        else hostStretches t (new :: w :: rest) l
      | [] => hostStretches t [new] l

/-- Host writes go out, posted (R90); a byte outside the range list fails the task (R250). -/
def State.writeHost (s : State) (t : Task) (cells : List WCell) : State :=
  match hostStretches t [] (joinCells [] cells) with
  | none => s.failTask t.ref St.pageFault
  | some l =>
    (l.foldl (fun u w => u.emit (.hostWrite w.addr w.bytes (s.taskPasid t.ref) (entryNoSnoop t.entry) w.translated)) s).putTask
      { t with hostLast := match cells.getLast? with | some c => some c.addr | none => t.hostLast }

/-- The blocks of a STREAM, of the outputs emitted so far, that the cells of some writes lie in (R206). -/
def Task.blocksOfCells (t : Task) (cs : List WCell) : List Nat :=
  let bb := streamBlockBytes t.entry
  if entryOpcode t.entry ≠ 0x08 ∨ bb = 0 then []
  else (List.range (ceilDiv t.emitted.length bb)).filter (fun b =>
    let a := (t.blocks.getD b (0, 0)).2
    cs.any (fun c => decide (a ≤ c.addr) && decide (c.addr < a + bb)))

/-- The blocks that bytes have been written of. -/
def Task.noteBlocks (t : Task) (cs : List WCell) : Task :=
  { t with blocksWritten := t.blocksWritten ++ (t.blocksOfCells cs).filter (fun b => ! t.blocksWritten.contains b) }

/-- Write requests go to their points of coherence: this chip's memory, or another node (R36, R283). -/
def State.writeDevice (s : State) (t : Task) (ws : List WriteReq) : State :=
  let nodeOf (w : WriteReq) : Nat := match w.cells with | c :: _ => c.addr / 2 ^ 48 | [] => s.node
  let away := ws.filter (fun w => decide (nodeOf w ≠ s.node))
  if away.any (fun w => s.deadNode (nodeOf w)) then (s.bump R.feDeadRefused 1).failTask t.ref St.deadDestination
  else
    (away.foldl (fun u w => u.emitFabric (match w.atomic, w.cells with
      | some q, c :: _ => .remoteAtomic c.addr q 0
      | _, cs => .remoteWrite cs 0)) s).putTask
        { t.noteBlocks (ws.flatMap WriteReq.cells) with pendingW := t.pendingW ++ ws.map (fun w => { w with at_ := s.cycle }) }

/-- The gathered lines that no output to come falls in leave as one write each (R36, R219, R284). -/
def State.flushLines (s : State) (t : Task) (u : LTensor) (more : List WriteReq) : State :=
  let stays (w : WriteReq) : Bool := t.lineOpen s.node u t.emitted.length w.line
  s.writeDevice { t with gather := t.gather.filter stays } (t.gather.filter (fun w => ! stays w) ++ more)

/-- Bytes for the compressor, by image offset. -/
def putImage : SMap (Option Byte) → List WCell → SMap (Option Byte)
  | m, [] => m
  | m, c :: l => putImage (sset (fun _ => none) m (c.addr % 2 ^ 48) (some c.val)) l

/-- The combinations that an output sends to its owners on other nodes as atomics (R166). -/
def Task.atomicWrites (t : Task) (self x : Nat) (u : LTensor) : List WriteReq :=
  match destView t.entry, t.destElem u.dims x, t.updateVal (t.castInTensor self) x with
  | some d, some k, some v => ((d.writeNodes self k).filter (fun n => decide (n ≠ self))).filterMap (fun n =>
      (addAtomic t.finalFmt (d.bitsAt n k).1 v).map (fun q =>
        { space := .device, cells := [{ addr := q.1, mask := 0xFF, val := 0 }], tile := none, atomic := some q.2, at_ := 0 }))
  | _, _, _ => []

/-- Is output `x` combined at owners elsewhere by atomics? -/
def Task.sentAsAtomic (t : Task) (self x : Nat) (dims : List Nat) : Bool :=
  match t.destElem dims x with | some k => t.byAtomic self k | none => false

/-- The value an output leaves as, for the digest: one combined only at another node is not known here (log 13). -/
def Task.digestValue (t : Task) (self x : Nat) (u : LTensor) (v : Nat) : Nat :=
  if (match t.destElem u.dims x with | some k => t.awayOnly self k | none => false) then freeNat64 t.freeBase (2 ^ 70 + 8 * x) % 2 ^ widthOf u.fmt else v

/-- The outputs that can be written now are written. -/
def State.emitOutputs (s : State) (ref : TaskRef) : State :=
  match s.task ref with
  | none => s
  | some t =>
    let u := t.finalTensor s.node
    let outs := s.readyOutputs t u
    let n := t.emitted.length
    let kept := (List.range outs.length).filterMap (fun i => (outs.getD i none).map (fun v => (n + i, v)))
    let t1 := { t with emitted := t.emitted ++ (List.range outs.length).map (fun i =>
                  (outs.getD i none).map (t.digestValue s.node (n + i) u)) }
    let cells := kept.flatMap (fun p => (t.outputCells s.node u.dims p.1 p.2).filter (fun c =>
      ! t.sentAsAtomic s.node p.1 u.dims || decide (c.addr / 2 ^ 48 = s.node)))
    let atomics := (kept.filter (fun p => t.sentAsAtomic s.node p.1 u.dims)).flatMap (fun p => t.atomicWrites s.node p.1 u)
    if entryDestHost t.entry then (if cells = [] then s.putTask t1 else s.writeHost (t1.noteBlocks cells) cells)
    else if decide (entryOpcode t.entry ≠ 0x08) && (entryCompress t.entry).isSome then
      s.putTask { t1 with image := putImage t1.image (joinCells [] cells) }
    else s.flushLines { t1 with gather := gatherCells (s.tileAt t.fillBind) t1.gather cells } u atomics

/-! ### The execute side (R15) -/

/-- The oldest entry whose bytes have not been taken passes to the execute side once it is ready (R15). -/
def Task.consume (t : Task) (self : Nat) : Task :=
  match t.issueQ.find? (fun i => ! i.taken) with
  | none => t
  | some i =>
    if i.ready then
      { t with issueQ := t.issueQ.map (fun q => if q.no = i.no then { q with taken := true } else q),
               consumed := consumeBytes t.consumed (t.keyOf self i) i.bytes }
    else t

/-- The terms a task's reduce lane has combined: those it has been given, in results finished or not (R183). A COLLECTIVE
in Constantan mode folds in position order (R177). -/
def Task.termsCombined (t : Task) (self : Nat) : Nat :=
  let u := t.castInTensor self
  match entryOpcode t.entry with
  | 0x04 => (List.range u.count).countP (fun k => (u.val k).isSome)
  | 0x03 => if entryOp1 t.entry then t.updates.countP (fun q => (u.val q.1).isSome) else 0
  | 0x05 =>
    let c := collCtl t.entry
    let known (p : Nat) : Nat := (t.chunkElems self (p / c.size)).countP (fun i => (t.contribution self u (p % c.size) i).isSome)
    if c.kind = 1 ∨ c.kind = 2 then
      let n := t.chunks self * c.size
      let upTo := if entryOrder t.entry = 0 then ((List.range n).find? (fun p => ! t.positionKnown self p)).getD n + 1 else n
      ((List.range (min upTo n)).map known).sum
    else 0
  | _ => 0

/-- The lane counts the terms that have come to be combined. -/
def State.countTerms (s : State) (before after : Task) : State :=
  match after.lane with
  | none => s
  | some l => s.bump64 (R.rdLaneTermsLo l) (after.termsCombined s.node - before.termsCombined s.node)

/-- The execute side: staged data that is ready is consumed in issue order, and what can be written is written. Writes
come first while some are ready (log 9). -/
def executeStep (ref : TaskRef) (s : State) : State :=
  match s.task ref with
  | none => s
  | some t =>
    if t.phase ≠ .running ∨ isQueueTask (entryOpcode t.entry) then s
    else if s.readyOutputs t (t.finalTensor s.node) ≠ [] then (s.emitOutputs ref).proceed ref
    else if s.withheld t then s
    else
      let t1 := t.consume s.node
      (((s.countTerms t t1).putTask t1).emitOutputs ref).proceed ref

/-- The unit number of an internal memory of a task's engine (R356). -/
def internalUnit (t : Task) : InternalMemory → Nat
  | .engine => t.engineField
  | .partialStore => 0x80 + (t.lane.elim 0 Fin.val)
  | .reorder => 0xC0
  | .rangeStore => 0xC1

/-- The execute side with what its memories and paths meet: a correction is counted; data that cannot be corrected fails the task
(R352, R356). -/
def executeChecked (ref : TaskRef) (check : PathCheck) (s : State) : State :=
  match s.task ref with
  | none => s
  | some t =>
    if t.phase ≠ .running ∨ isQueueTask (entryOpcode t.entry) then s
    else match check with
      | .good => executeStep ref s
      | .corrected n => executeStep ref (s.bump R.tmSramCe n)
      | .uncorrectable m => (s.mcEvent 7 (internalUnit t m) St.uncorrectable (some ref) 0).failTask ref St.uncorrectable
      | .parity => (s.pathParity t).failTask ref St.uncorrectable

def execExecuteWrite (e : ExecuteUnit) (s : State) : Result := .next (executeChecked e.task e.check s)

/-! ### The compressor (R196 to R198) -/

/-- The compressor's counters after an ingot (R203). -/
def State.countIngot (s : State) (h payload block : List Byte) : State :=
  ((s.bump (R.cxEncCount (hdrEnc h)) 1).bump64 R.cxInLo block.length).bump64 R.cxOutLo (payload.length + 16)

/-- The next ingot of a compressing task is built once its block is whole: payload lines first, then the header, whose line
waits for the other headers in it (R36). -/
def compressNext (ref : TaskRef) (s : State) : State :=
  match s.task ref with
  | none => s
  | some t => match t.phase, entryCompress t.entry with
    | .running, some p =>
      let i := t.ingotSpan.1 + t.ingotsDone
      if t.ingotsBuilt then s
      else (match t.imageBlock p i with
        | none => s
        | some block =>
          let (h, payload) := buildIngot p (s.slotLens p.slot) (s.slotGen p.slot) block
          let base := s.node * 2 ^ 48
          let lines := gatherCells (fun _ => none) [] (cellsOf (base + p.dataBase + 4096 * i) (fitBytes (roundUp payload.length 64) payload))
          let heads := gatherCells (fun _ => none) t.gather (cellsOf (base + p.listBase + 16 * i) h)
          let stays (w : WriteReq) : Bool := (List.range' (i + 1) (t.ingotSpan.1 + t.ingotSpan.2 - (i + 1))).any (fun k =>
            decide ((base + p.listBase + 16 * k) / 64 = w.line))
          ((s.countIngot h payload block).writeDevice { t with gather := heads.filter stays, ingotsDone := t.ingotsDone + 1 }
            (lines ++ heads.filter (fun w => ! stays w))).proceed ref)
    | _, _ => s

def execCompressBlockDone (t : TaskRef) (s : State) : Result := .next (compressNext t s)

/-! ### Acknowledgements (R21, R90) -/

/-- The interval of a write request. -/
def WriteReq.span (w : WriteReq) : Nat × Nat :=
  let as := w.cells.map WCell.addr
  match as with
  | [] => (0, 1)
  | a :: l => (l.foldl min a, l.foldl max a - l.foldl min a + 1)

/-- Does a write request cover whole code words, byte for byte (R355)? -/
def WriteReq.whole (w : WriteReq) : Bool :=
  wholeWords (w.span.1 % 2 ^ 48) w.span.2 && w.cells.all (fun c => decide (c.mask = 0xFF)) && decide (w.cells.length = w.span.2)

/-- The status a write of this chip's memory ends with; none where it is accepted. -/
def State.writeVerdict (s : State) (t : Task) (w : WriteReq) (answer : WriteAnswer) : Option Status :=
  let cond := if answer = .uncorrectable ∧ ! w.whole then MemCond.uncorrectable else MemCond.good
  match s.memVerdict (s.ctxOf t.ref) .write (w.span.1 % 2 ^ 48) w.span.2 cond with
  | some st => some st
  | none => match answer with
    | .error st => some st
    | _ => none

/-- The oldest write of a task is answered at its point of coherence (log 11). -/
def ackWrite (ref : TaskRef) (answer : WriteAnswer) (s : State) : State :=
  match s.task ref with
  | none => s
  | some t => match t.pendingW with
    | [] => s
    | w :: l =>
      let t1 := { t with pendingW := l }
      if t.phase ≠ .running ∧ t.phase ≠ .failing then s
      else if w.span.1 / 2 ^ 48 ≠ s.node then
        (match answer with
         | .accepted => (s.putTask t1).proceed ref
         | .uncorrectable => ((s.putTask t1).failTask ref St.uncorrectable).settle ref
         | .error st => ((s.putTask t1).failTask ref st).settle ref)
      else if s.localWaits w.span.1 then s
      else match s.writeVerdict t w answer with
        | none => ((s.writeCells w.cells).putTask t1).proceed ref
        | some st =>
          ((((s.memRefusal st (w.span.1 % 2 ^ 48) (some ref)).putTask t1).failTask ref st)).settle ref

def execWriteAck (t : TaskRef) (answer : WriteAnswer) (s : State) : Result := .next (ackWrite t answer s)

/-- The flushing read after a task's last host write is answered (R90). -/
def flushDone (ref : TaskRef) (ok : Bool) (s : State) : State :=
  match s.task ref with
  | none => s
  | some t =>
    if ! t.flushing then s
    else
      let s1 := s.putTask { t with flushing := false, flushed := true }
      if ok then s1.proceed ref else (s1.failTask ref St.host).settle ref

def execFlushReadCompletion (t : TaskRef) (ok : Bool) (s : State) : Result := .next (flushDone t ok s)

end Sys2Proof.Machine
end

