-- ==== Sys2Proof/Machine/Ports.lean ====
section
/-!
DEFINITION. Send ports and the order of messages (R267 to R270, R273): the FIFOs, which messages wait for a slot, the credit
requests at the source.
-/
namespace Sys2Proof.Machine

/-- Does the endpoint run, and may it place new packets (R276, R278)? -/
def State.feActive (s : State) : Bool := s.bit R.feStatus 0
def State.feEnabled (s : State) : Bool := s.bit R.feCtl 31

/-! ### FIFOs -/

def State.spStopped (s : State) (p : Nat) : Bool := s.bit (R.spStatus p) 31

/-- A port's FIFO given its messages; FREE follows. -/
def State.setFifo (s : State) (p : Nat) (l : List Msg) : State :=
  (s.putPort p { s.port p with fifo := l }).setFld (R.spStatus p) 16 5 (16 - l.length)

/-- The wait of the oldest message starts anew (R274). -/
def State.restartWait (s : State) (p : Nat) : State := s.putPort p { s.port p with waited := 0 }

/-- The messages of a port that have not been sent. -/
def State.unsent (s : State) (p : Nat) : List Msg := (s.port p).fifo.filter (fun m => ! m.sent)

/-- The message that stopped a port. -/
def State.failedMsg (s : State) (p : Nat) (m : Msg) : Bool := s.spStopped p && decide (m.num = s.reg (R.spErrNum p))

/-- Why a message cannot be carried (R267, R277). -/
def State.msgFault (s : State) (m : Msg) : Option Status :=
  if 30 ≤ m.len8m1 then some St.overflow
  else if m.node ≠ 0 ∧ ! s.bit R.nodeId 16 then some St.window
  else if s.deadNode m.node then some St.deadDestination
  else none

/-! ### The order of messages to a pair (R268, R270) -/

/-- Messages of a FIFO with their places in the order of acceptance. A message never goes before one ahead of it in its
FIFO: behind a resumed message the others take its place in the order (DESIGN CHOICE, log 23: R270 speaks of the resumed
message alone). -/
def fifoKeys : Nat → List Msg → List (Msg × Nat)
  | _, [] => []
  | k, m :: l => (m, max k m.order) :: fifoKeys (max k m.order) l

/-- A message put in its place in the order. -/
def insertMsg (x : Nat × Msg × Nat) : List (Nat × Msg × Nat) → List (Nat × Msg × Nat)
  | [] => [x]
  | y :: l => if x.2.2 < y.2.2 then x :: y :: l else y :: insertMsg x l

/-- The messages of every port that have not been sent and can be carried, in their order, with their ports: those
accepted in earlier core cycles, but for the messages that have stopped their ports. -/
def State.unsentMsgs (s : State) : List (Nat × Msg) :=
  (((List.range 64).flatMap (fun p => ((fifoKeys 0 (s.unsent p)).filter (fun x =>
    decide (x.1.order < 64 * s.cycle) && ! s.failedMsg p x.1 && (s.msgFault x.1).isNone)).map (fun x => (p, x)))).foldl
      (fun l x => insertMsg x l) []).map (fun x => (x.1, x.2.1))

/-- Is a message the next of its port: its port runs, and every message before it that has not been sent is for the same
pair and can be carried? -/
def State.msgClear (s : State) (x : Nat × Msg) : Bool :=
  ! s.spStopped x.1 && ((s.unsent x.1).takeWhile (fun m => decide (m.num ≠ x.2.num))).all (fun m =>
    decide (m.node = x.2.node) && decide (m.tag = x.2.tag) && (s.msgFault m).isNone)

/-- The messages of a pair that wait in order for a slot (R269). One behind messages to another pair, or in a stopped
port, holds back those accepted after it in any port, since the pair's messages keep their order (DEDUCED from R268 and
R270, log 23). -/
def State.pairWaiting (s : State) (node tag : Nat) : List (Nat × Msg) :=
  (s.unsentMsgs.filter (fun x => decide (x.2.node = node) && decide (x.2.tag = tag))).takeWhile s.msgClear

/-! ### Failing messages (R273) -/

/-- The requests of a pair that its own chip's endpoints hold are taken out of their wait lists. -/
def State.dropOwnWait (s : State) (tag : Nat) : State :=
  { s with rx := s.rx.map (fun e =>
      (e.1, if s.fld (R.rxTag e.1) 0 16 = tag then { e.2 with wait := e.2.wait.filter (fun w => decide (w.1 ≠ s.node)) } else e.2)) }

/-- A credit request that no waiting message needs is withdrawn (R273); it is told to the receiving chip, by a packet of
the model's own (DESIGN CHOICE, log 23: no packet is named). -/
def State.withdraw (s : State) (c : CreditPair) : State :=
  let s1 : State := { s with credits := s.credits.filter (fun x => decide (x ≠ c)) }
  match c.state with
  | .backoff _ => s1
  | _ => if c.node = s.node then s1.dropOwnWait c.tag else s1.emitFabric (.creditWithdrawn c.node c.tag 0)

def State.withdrawCredits (s : State) : State :=
  s.credits.foldl (fun u c => if u.pairWaiting c.node c.tag = [] then u.withdraw c else u) s

/-- A message of a port fails: the port stops, or, on a stopped port, the message alone is lost (R273). -/
def State.failMsg (s : State) (p : Nat) (m : Msg) (st : Status) : State :=
  let s1 := ((s.wrapAdd (R.spFailed p) 1).countTag R.tcFailed m.tag 1)
  if s.spStopped p then s1.setFifo p ((s.port p).fifo.filter (fun x => decide (x.num ≠ m.num)))
  else (((s1.setBit (R.spStatus p) 31 true).setFld (R.spStatus p) 0 16 st.toNat).setReg (R.spErrNum p) m.num).withdrawCredits

/-- The message of a port that fails by itself now: the head, if it cannot be carried (R267); the first unsent one, if its
node is dead (R277). -/
def State.doomedMsg (s : State) (p : Nat) : Option (Msg × Status) :=
  if s.spStopped p then none
  else match (s.unsent p).head? with
    | none => none
    | some m => match s.msgFault m with
      | none => none
      | some st => if st = St.deadDestination ∨ (s.port p).fifo.head? = some m then some (m, st) else none

/-- The messages that fail by themselves do. -/
def State.checkHeads (s : State) : State :=
  (List.range 64).foldl (fun u p => match u.doomedMsg p with
    | none => u
    | some (m, st) => (if st = St.deadDestination then u.bump R.feDeadRefused 1 else u).failMsg p m st) s

/-! ### Credit requests (R269) -/

/-- The credit request of a pair goes out, for at most 16 slots. -/
def State.requestPair (s : State) (node tag : Nat) : State :=
  let k := min 16 (s.pairWaiting node tag).length
  if s.credits.any (fun c => decide (c.node = node) && decide (c.tag = tag)) || decide (node ≠ s.node ∧ ! s.feEnabled) || decide (k = 0)
  then s
  else ({ s with credits := s.credits ++ [{ node := node, tag := tag, count := k, state := .requested, wait := 16, at_ := s.cycle,
                                             port := none }] } : State).emitTo node (.creditRequest node tag k 0)

/-- Every pair with waiting messages and no request outstanding requests credit. -/
def State.requestCredits (s : State) : State :=
  let s1 := s.checkHeads
  s1.unsentMsgs.foldl (fun u x => u.requestPair x.2.node x.2.tag) s1

end Sys2Proof.Machine
end

