-- ==== Sys2Proof/Machine/Collective.lean ====
section
/-!
DEFINITION. The commands of a COLLECTIVE's exchange: credits, pieces, wire ingots, failure notices and the detaching of
multicast members (R175 to R181).
-/
namespace Sys2Proof.Machine

/-- A COLLECTIVE task that has not finished. -/
def openCollective (t : Task) : Bool :=
  decide (entryOpcode t.entry = 0x05) && decide (t.phase ≠ .failing ∧ t.phase ≠ .finished ∧ t.phase ≠ .recordIssued ∧ t.phase ≠ .journal)

/-! ### Credits (R176) -/

/-- A member has granted a credit for a piece. What it announces with it is compared with this task's own description,
at its dispatch where it has not been dispatched yet (R175). -/
def creditGranted (ref : TaskRef) (rank stage piece : Nat) (ann : Announcement) (s : State) : State :=
  match s.task ref with
  | none => s
  | some t =>
    if ! openCollective t then s
    else if t.phase = .running ∧ ann ≠ t.announcement s.node then s.failTask ref St.mismatch
    else if t.coll.credits.contains (rank, stage, piece) then s
    else s.putTask { t with coll := { t.coll with credits := t.coll.credits ++ [(rank, stage, piece)],
                                                  announced := if t.phase = .running then t.coll.announced else t.coll.announced ++ [ann] } }

def execCollectiveCreditGrant (t : TaskRef) (rank stage : Nat) (grant : PieceGrant) (s : State) : Result :=
  .next (creditGranted t rank stage grant.piece grant.ann s)

/-! ### Wire ingots (R179) -/

/-- How a sender encodes a format on the wire (log 26). -/
def wireParams (slot fmt : Nat) : CodecParams :=
  let x := Config.wireCoding fmt
  let width := x.2.1 % 3
  { slot := slot, encMask := x.1 % 16, width := width, expPos := x.2.2 % (8 * wordBytes width - 7), listBase := 0,
    dataBase := 0, imageLen := 0 }

/-- A byte string cut into blocks of 4,096 bytes, each brought to a multiple of 8 bytes. -/
def wireBlocks (bs : List Byte) : List (List Byte) :=
  (List.range (ceilDiv bs.length 4096)).map (fun i =>
    let b := (bs.drop (4096 * i)).take 4096
    fitBytes (roundUp b.length 8) b)

/-- The bytes of a piece as they cross the fabric, and the state with its ingots counted. -/
def State.wireEncode (s : State) (t : Task) (fmt : Nat) (bs : List Byte) : List Byte × State :=
  let c := collCtl t.entry
  if c.wire then
    (wireBlocks bs).foldl (fun acc b =>
      let (h, p) := buildIngot (wireParams c.wslot fmt) (s.slotLens c.wslot) (s.slotGen c.wslot) b
      (acc.1 ++ h ++ p, acc.2.countIngot h p b)) ([], s)
  else (bs, s)

/-- Wire ingots expanded: `n` bytes in all. -/
def State.wireDecode (s : State) (slot : Nat) : Nat → Nat → List Byte → Except Status (List Byte)
  | 0, _, _ => .ok []
  | f + 1, n, bs =>
    if n = 0 then .ok []
    else
      let ulen := roundUp (min 4096 n) 8
      let h := bs.take 16
      match headerCheck h ulen slot (s.slotGen slot) with
      | some st => .error st
      | none => match expandPayload h (s.slotLens slot) ulen ((bs.drop 16).take (hdrSlen h)) with
        | .error st => .error st
        | .ok block => match s.wireDecode slot f (n - min 4096 n) (bs.drop (16 + hdrSlen h)) with
          | .error st => .error st
          | .ok rest => .ok (block.take (min 4096 n) ++ rest)

/-! ### Sending (R176, R180) -/

/-- A piece goes to some members, each of which answers it with a delivery reply (R261, R275). -/
def State.sendPiece (s : State) (t : Task) (qs : List Nat) (stage i : Nat) (bs : List Byte) : State :=
  let group := t.group s.node
  let (wire, s1) := s.wireEncode t (t.sendStream s.node stage (qs.headD 0)).fmt bs
  let piece : Piece := { rank := t.rank s.node, stage := stage, index := i, ann := t.announcement s.node, bytes := wire }
  let ctag := (collCtl t.entry).ctag
  let out := qs.map (fun q => ({ node := group.getD q 0, tag := ctag, rank := q, stage := stage, index := i, at_ := s.cycle,
                                 port := none } : PieceOut))
  let s2 := s1.putTask { t with coll := { t.coll with sent := t.coll.sent ++ qs.map (fun q => (q, stage, i)),
                                                          awaiting := t.coll.awaiting ++ out, readyAt := none } }
  out.foldl (fun u w => u.emitFabric (.collectivePiece w.node ctag piece 0)) s2

/-- The next piece for a rank goes out once its credit is held, behind the messages of its node and tag that wait (R275); a
BROADCAST root sends it to every attached member at once, when all of them have granted credit. -/
def pieceSend (ref : TaskRef) (rank : Nat) (s : State) : State :=
  match s.task ref with
  | none => s
  | some t =>
    if t.phase ≠ .running ∨ ! openCollective t then s
    else
      let qs := if t.isRoot s.node then t.peersOf s.node else (t.peersOf s.node).filter (fun q => decide (q = rank))
      match qs with
      | [] => s
      | q :: _ => match t.nextPiece s.node q with
        | none => s
        | some (_, stage, i) =>
          if qs.all (fun p => t.coll.credits.contains (p, stage, i) &&
              decide (s.pairWaiting ((t.group s.node).getD p 0) (collCtl t.entry).ctag = [])) then
            (match t.pieceBytes s.node stage q i with
             | none => s
             | some bs => (s.sendPiece t qs stage i bs).proceed ref)
          else s

/-- A delivery reply for a piece: it answers the oldest piece sent to its node under its tag, which counts as one message
delivered (R269, R275; DEDUCED, log 23). -/
def State.pieceDelivered (s : State) (node tag : Nat) : State :=
  let here (w : PieceOut) : Bool := decide (w.node = node) && decide (w.tag = tag)
  match s.tasks.find? (fun t => t.coll.awaiting.any here) with
  | none => s
  | some t => match t.coll.awaiting.find? here with
    | none => s
    | some w =>
      ((s.countTag R.tcSent tag 1).putTask { t with coll := { t.coll with awaiting := t.coll.awaiting.filter (fun x => decide (x ≠ w)) } }).settle
        t.ref

def execCollectivePieceSend (t : TaskRef) (rank : Nat) (s : State) : Result := .next (pieceSend t rank s)

/-! ### Receiving (R175, R177, R178) -/

/-- The bytes of a received piece, expanded where the wire is compressed. -/
def State.pieceContent (s : State) (t : Task) (p : Piece) (n : Nat) : Except Status (List Byte) :=
  let c := collCtl t.entry
  if c.wire then s.wireDecode c.wslot (n / 4096 + 1) n p.bytes else .ok (fitBytes n p.bytes)

/-- A received piece put in its place. -/
def Task.placePiece (t : Task) (p : Piece) (bs : List Byte) : Task :=
  let base := pieceKey p.stage p.rank (p.index * 2 ^ (collCtl t.entry).chunkLog2)
  { t with coll := { t.coll with received := t.coll.received ++ [(p.rank, p.stage, p.index)],
                                 bytes := consumeBytes t.coll.bytes base bs } }

/-- The reply to a piece that has arrived (R275). -/
def State.answerPiece (s : State) (t : Task) (rank : Nat) : State :=
  let node := (t.group s.node).getD rank 0
  s.answerTo node (.messageAnswer node (collCtl t.entry).ctag 0 St.success 0)

/-- A piece arrives for a running task that has granted it; one whose announcement differs fails the task, granted or not
(R175). -/
def pieceReceive (ref : TaskRef) (p : Piece) (s : State) : State :=
  match s.task ref with
  | none => s
  | some t =>
    let x := (p.rank, p.stage, p.index)
    if t.phase ≠ .running ∨ ! openCollective t then s
    else if p.ann ≠ t.announcement s.node then (s.answerPiece t p.rank).failTask ref St.mismatch
    else if ! t.coll.granted.contains x ∨ t.coll.received.contains x then s
    else
      let n := 2 ^ (collCtl t.entry).chunkLog2
      match s.pieceContent t p (min n ((t.recvStream s.node p.stage p.rank).bytes - p.index * n)) with
      | .error st => (s.answerPiece t p.rank).codecFail t st
      | .ok bs =>
        let t1 := t.placePiece p bs
        (((((s.answerPiece t p.rank).countTag R.tcReceived (collCtl t.entry).ctag 1).countTerms t t1).putTask t1).emitOutputs ref).proceed ref

def execCollectivePieceReceive (t : TaskRef) (piece : Piece) (s : State) : Result := .next (pieceReceive t piece s)

/-! ### Failure notices and detaching (R180, R181) -/

/-- The task a failure notice on a tag is for: the running one, else the first accepted one, before its record. -/
def State.noticeTask (s : State) (ctag : Nat) : Option Task :=
  let ts := s.tasks.filter (fun t => decide (entryOpcode t.entry = 0x05) && decide ((collCtl t.entry).ctag = ctag) &&
    decide (t.phase ≠ .recordIssued ∧ t.phase ≠ .journal))
  match ts.find? (fun t => t.engine.isSome) with
  | some t => some t
  | none => ts.head?

/-- A failure notice arrives. -/
def failureNotice (ctag : Nat) (st : Status) (s : State) : State :=
  match s.noticeTask ctag with
  | none => s
  | some t => if t.phase = .finished then s.failDone t st else s.fail t.ref st

def execCollectiveFailureNotice (ctag : BitVec 16) (status : Status) (s : State) : Result :=
  .next (failureNotice ctag.toNat status s)

/-- Is a member's credit overdue: the root has been ready for DETACH_US µs, and the member has not granted the piece? -/
def State.detachDue (s : State) (t : Task) (rank : Nat) : Bool :=
  let c := collCtl t.entry
  decide (t.phase = .running) && t.isRoot s.node && decide (c.detachUs ≠ 0) && (t.peersOf s.node).contains rank &&
    match t.coll.readyAt, t.nextPiece s.node rank with
    | some at_, some x => decide (at_ + c.detachUs * cyclesPerUs ≤ s.cycle) && ! t.coll.credits.contains x
    | _, _ => false

/-- The root detaches a member. -/
def detachMember (ref : TaskRef) (rank : Nat) (s : State) : State :=
  match s.task ref with
  | none => s
  | some t =>
    if s.detachDue t rank then
      let node := (t.group s.node).getD rank 0
      let s1 := ((s.latchReg R.rdMcastDetach node node).bump R.rdMcastDetachCount 1).emitFabric
        (.failureNotice node (collCtl t.entry).ctag St.detached 0)
      (s1.putTask { t with coll := { t.coll with detached := t.coll.detached ++ [rank] } }).proceed ref
    else s

def execMulticastDetachTimeout (t : TaskRef) (rank : Nat) (s : State) : Result := .next (detachMember t rank s)

end Sys2Proof.Machine
end

