-- ==== Sys2Proof/Machine/Fabric.lean ====
section
/-!
DEFINITION. The fabric endpoint: its control and its ports (R260, R261, R276, R353), receive endpoints (R262 to R266,
R271, R272), send ports and credits (R267 to R270, R273, R274), peers and their deaths (R277), and the timeouts of fabric
and host requests (R261, R367, R368).
-/
namespace Sys2Proof.Machine

/-! ### Receive endpoints (R262 to R266) -/

def State.rxSlots (s : State) (r : Nat) : Nat := 2 ^ (s.fld (R.rxCfg r) 24 4 + 4)
def State.rxTagOf (s : State) (r : Nat) : Nat := s.fld (R.rxTag r) 0 16
def State.rxEn (s : State) (r : Nat) : Bool := s.bit (R.rxCfg r) 31
def State.rxTailOf (s : State) (r : Nat) : Nat := s.fld (R.rxTail r) 0 16
def State.rxHeadOf (s : State) (r : Nat) : Nat := s.fld (R.rxHead r) 0 16
def State.rxCtx (s : State) (r : Nat) : Nat := s.fld (R.rxCfg r) 0 12

/-- Free slots: a ring of N slots holds at most N − 1 messages (R266). -/
def State.rxFree (s : State) (r : Nat) : Nat :=
  let n := s.rxSlots r
  n - 1 - (s.rxTailOf r + n - s.rxHeadOf r) % n

/-- The address of a slot. -/
def State.rxSlotAddr (s : State) (r slot : Nat) : Nat := s.reg64 (R.rxBaseLo r) + 256 * slot

/-- The enabled endpoint that holds a tag. -/
def State.rxFor (s : State) (tag : Nat) : Option Nat := (List.range 256).find? (fun r => s.rxEn r && decide (s.rxTagOf r = tag))

/-- Does the source filter let in a node (R263)? -/
def State.rxAdmits (s : State) (r node : Nat) : Bool :=
  let mask := s.fld (R.rxSrc r) 16 16
  decide (node &&& mask = s.fld (R.rxSrc r) 0 16 &&& mask)

/-- May slots of a ring be written now (R276, R391)? -/
def State.rxReachable (s : State) (r : Nat) : Bool := ! s.below && ! s.tierBWaits (s.reg64 (R.rxBaseLo r))

/-- One slot taken at TAIL. -/
def State.takeSlot (s : State) (r node : Nat) : State :=
  let i := s.rxTailOf r
  let ph := s.bit (R.rxTail r) 31
  let n := (i + 1) % s.rxSlots r
  let s1 := s.setFld (R.rxTail r) 0 16 n
  let s2 := if n = 0 then s1.setBit (R.rxTail r) 31 (! ph) else s1
  let x := s2.endpoint r
  s2.putEndpoint r { x with granted := x.granted ++ [{ slot := i, addr := s.rxSlotAddr r i, node := node, phase := ph, at_ := s.cycle, msg := none }] }

/-- A grant of contiguous slots (R269). -/
def State.grantSlots (s : State) (r node k : Nat) : State :=
  let j := min k (s.rxFree r)
  let slots := (List.range j).map (fun i => (s.rxTailOf r + i) % s.rxSlots r)
  ((List.range j).foldl (fun u _ => u.takeSlot r node) s).answerTo node (.creditGrant node (s.rxTagOf r) slots 0)

/-- Freed slots go to waiting requests in order of arrival (R269). -/
def State.serveWaiting (s : State) (r : Nat) : State :=
  (s.endpoint r).wait.foldl (fun u w =>
    if u.rxEn r && u.rxReachable r && decide (0 < u.rxFree r) then
      (u.grantSlots r w.1 w.2).putEndpoint r { (u.grantSlots r w.1 w.2).endpoint r with wait := (u.endpoint r).wait.drop 1 }
    else u) s

/-- Line 0 of a void slot (R264, R271): LEN8 0, VOID and the phase, the reserved fields zero; what no rule gives is free
(log 12). -/
def voidLine (n a : Nat) (phase : Bool) : List Byte :=
  (List.range 64).map (fun i =>
    if i = 5 then BitVec.ofNat 8 (2 + boolBit phase)
    else if i = 6 then Config.freeByte n (a + i) &&& 0x3F
    else if i = 4 ∨ i = 7 ∨ (12 ≤ i ∧ i < 16) then 0
    else Config.freeByte n (a + i))

/-- A slot is written as void (R271). -/
def State.voidSlot (s : State) (r : Nat) (g : RxGrant) : State :=
  let x := s.endpoint r
  let s1 := (s.putEndpoint r { x with granted := x.granted.filter (fun h => decide (h ≠ g)) }).bump (R.rxVoided r) 1
  match s1.memVerdict (s1.rxCtx r) .write g.addr 64 .good with
  | some st => s1.memRefusal st g.addr none
  | none => (s1.writeMem g.addr (voidLine s1.freeCtr g.addr g.phase)).stepFree

/-- Granted slots that hold no message are voided, for a test on the grant. -/
def State.voidGrants (s : State) (r : Nat) (p : RxGrant → Bool) : State :=
  ((s.endpoint r).granted.filter (fun g => p g && g.msg.isNone)).foldl (fun u g => u.voidSlot r g) s

/-- May an endpoint be enabled with the fields RX_CFG holds (R262)? -/
def State.rxEnableOk (s : State) (r : Nat) : Bool :=
  decide (s.fld (R.rxCfg r) 24 4 ≤ 8) && inMemory (s.reg64 (R.rxBaseLo r)) (256 * s.rxSlots r) &&
    (List.range 256).all (fun q => decide (q = r) || ! s.rxEn q || decide (s.rxTagOf q ≠ s.rxTagOf r))

/-- The ring of an endpoint starts anew; slot writes begun before complete (R272). -/
def State.rxStart (s : State) (r : Nat) : State :=
  (((s.setBit (R.rxCfg r) 31 true).setReg (R.rxHead r) 0).setReg (R.rxTail r) 0x80000000).putEndpoint r
    { rxDefault r with granted := (s.endpoint r).granted.filter (fun g => g.msg.isSome) }

/-- EN is cleared (R272). -/
def State.rxStop (s : State) (r : Nat) : State :=
  let tag := s.rxTagOf r
  let x := s.endpoint r
  let s1 := x.wait.foldl (fun u w => u.answerTo w.1 (.creditRefused w.1 tag St.noReader 0)) s
  ((s1.putEndpoint r { x with wait := [] }).voidGrants r (fun _ => true)).setBit (R.rxCfg r) 31 false

/-- A write of RX_CFG (R262, R272). The write that clears EN changes no other field (DEDUCED, log 20). -/
def writeRxCfg (r : Nat) (value : Word) (s : State) : State :=
  let kept := (s.setNow (R.rxCfg r) &&& s.reg (R.rxCfg r) &&& 0x20000000).toNat
  let bad (u : State) : State := if getField value 29 1 = 1 ∧ kept = 0 then u.setBit (R.rxCfg r) 29 false else u
  if s.rxEn r then (if getField value 31 1 = 1 then s else bad (s.rxStop r))
  else
    let s1 := s.setReg (R.rxCfg r) (writtenWord (s.reg (R.rxCfg r)) value 0x4F7FCFFF 0x20000000 0 kept)
    if getField value 31 1 = 0 then s1
    else if s1.rxEnableOk r then s1.rxStart r
    else s1.hwSet (R.rxCfg r) 29

def execRxEnable (src : Requester) (r : Fin 256) (value : Word) (s : State) : Result :=
  s.regWrite src (R.rxCfg r) value (writeRxCfg r value)

def execRxDisable (src : Requester) (r : Fin 256) (value : Word) (s : State) : Result :=
  s.regWrite src (R.rxCfg r) value (writeRxCfg r value)

/-- A write of RX_HEAD (R266). -/
def writeRxHead (r : Nat) (value : Word) (s : State) : State :=
  let h := getField value 0 16
  if s.rxEn r && decide (h < s.rxSlots r) then (s.setReg (R.rxHead r) (BitVec.ofNat 32 h)).serveWaiting r else s

def execRxHeadWrite (src : Requester) (r : Fin 256) (value : Word) (s : State) : Result :=
  s.regWrite src (R.rxHead r) value (writeRxHead r value)

/-- A packet that finds no enabled endpoint is dropped and counted (R272). -/
def State.dropNoReader (s : State) (tag : Nat) : State := (s.bump R.feNoReader 1).countTag R.tcDropped tag 1

/-- A refused message or request is counted (R263). -/
def State.rxRefuse (s : State) (r tag : Nat) : State := (s.bump (R.rxRefused r) 1).countTag R.tcDropped tag 1

/-- What a credit request finds (R269, R272, R277). -/
def State.takeRequest (s : State) (node tag count : Nat) : State :=
  match s.rxFor tag with
  | none => (s.dropNoReader tag).answerTo node (.creditRefused node tag St.noReader 0)
  | some r =>
    let x := s.endpoint r
    if s.deadNode node then s.answerTo node (.creditRefused node tag St.deadDestination 0)
    else if ! s.rxAdmits r node then (s.rxRefuse r tag).answerTo node (.creditRefused node tag St.window 0)
    else if x.wait = [] ∧ 0 < s.rxFree r ∧ s.rxReachable r then s.grantSlots r node count
    else if x.wait.length < 64 then
      (s.putEndpoint r { x with wait := x.wait ++ [(node, count)] }).answerTo node (.creditQueued node tag 0)
    else s.answerTo node (.creditRetry node tag 0)

/-- Is a request of this chip's own for a pair outstanding? -/
def State.asks (s : State) (tag : Nat) : Bool :=
  s.credits.any (fun c => decide (c.node = s.node) && decide (c.tag = tag) && decide (c.state = .requested))

/-- A credit request arrives (R269). One from this chip itself never crosses the fabric, and is void once withdrawn. Below
Active it wakes the block (R276). -/
def creditRequested (node tag count : Nat) (s : State) : State :=
  if (node ≠ s.node ∧ ! s.feActive) ∨ (node = s.node ∧ ! s.asks tag) ∨ s.power = .off then s
  else (if s.below then s.wakeBy (.fabric node) else s).takeRequest node tag count

def execCreditRequestArrival (node tag count : Nat) (s : State) : Result := .next (creditRequested node tag count s)

/-- The lines of a slot beyond line 0 that hold payload: their bytes, free past the payload (log 12). -/
def State.tailLines (s : State) (a : Nat) (payload : List Byte) : List Byte :=
  let n := roundUp (16 + payload.length) 64 - 64
  (List.range n).map (fun i => (payload[48 + i]?).getD (Config.freeByte s.freeCtr (a + 64 + i)))

/-- The answer to a message packet leaves. -/
def State.answerMsg (s : State) (p : MessagePacket) (st : Status) : State :=
  s.answerTo p.src (.messageAnswer p.src p.tag p.seq st 0)

/-- A message packet arrives: its payload lines are written, or it is dropped (R263, R265, R271, R272). One for a ring in
tier B waits while tier B does not serve (R391). -/
def messageArrived (p : MessagePacket) (cond : MemCond) (s : State) : State :=
  if p.src ≠ s.node ∧ ! s.feActive then s
  else match s.rxFor p.tag with
    | none => (s.dropNoReader p.tag).answerMsg p St.noReader
    | some r =>
      let x := s.endpoint r
      match x.granted.find? (fun g => decide (g.slot = p.slot) && decide (g.node = p.src) && g.msg.isNone) with
      | none => (s.countTag R.tcDropped p.tag 1).answerMsg p St.fabric
      | some h =>
        let lines := s.tailLines h.addr p.payload
        if s.tierBWaits h.addr then s
        else (match s.memVerdict (s.rxCtx r) .write h.addr (64 + lines.length) (writeCond h.addr (64 + lines.length) cond) with
         | some st =>
           let s1 := s.memRefusal st h.addr none
           (if st = St.context then s1.rxRefuse r p.tag else s1).answerMsg p st
         | none =>
           let mark (g : RxGrant) : RxGrant := if g = h then { g with msg := some p } else g
           ((((s.noteCorrected h.addr (writeCond h.addr (64 + lines.length) cond)).writeMem (h.addr + 64) lines).stepFree).putEndpoint r { x with granted := x.granted.map mark }))

def execMessagePacketArrival (packet : MessagePacket) (cond : MemCond) (s : State) : Result :=
  .next (messageArrived packet cond s)

/-- The header of a slot (R264). -/
def slotHeader (p : MessagePacket) (phase : Bool) : List Byte :=
  leBytes 2 p.src ++ leBytes 2 p.tag ++ leBytes 1 (p.payload.length / 8) ++ leBytes 1 (boolBit phase) ++
    leBytes 1 (p.port % 64) ++ leBytes 1 0 ++ leBytes 4 p.seq.toNat ++ leBytes 4 0

/-- The flag that an acknowledged slot sets: in the next core cycle (R265, R413). -/
def State.rxEvent (s : State) (r : Nat) : State := if s.bit (R.rxCfg r) 30 then s.flagLater (s.fld (R.rxCfg r) 14 9) true else s

/-- Line 0 of a slot is written and acknowledged: the message counts, its event is set, the delivery reply goes out. -/
def slotWritten (r slot : Nat) (s : State) : State :=
  let x := s.endpoint r
  match x.granted.find? (fun g => decide (g.slot = slot) && g.msg.isSome) with
  | none => s
  | some g => match g.msg with
    | none => s
    | some p =>
      if s.tierBWaits g.addr then s
      else
        let first := (List.range 48).map (fun i => (p.payload[i]?).getD (Config.freeByte s.freeCtr (g.addr + 16 + i)))
        let s1 := ((s.writeMem g.addr (slotHeader p g.phase ++ first)).stepFree).putEndpoint r
          { x with granted := x.granted.filter (fun h => decide (h ≠ g)) }
        (((s1.bump (R.rxReceived r) 1).countTag R.tcReceived p.tag 1).rxEvent r).answerMsg p St.success

def execMessageSlotWritten (r : Fin 256) (slot : Nat) (s : State) : Result := .next (slotWritten r slot s)

/-- A granted slot has held no message for 160,000 core cycles (R271). -/
def slotTimeout (r slot : Nat) (s : State) : State :=
  s.voidGrants r (fun g => decide (g.slot = slot) && decide (g.at_ + 160000 ≤ s.cycle))

def execSlotGrantTimeout (r : Fin 256) (slot : Nat) (s : State) : Result := .next (slotTimeout r slot s)

/-! ### Send ports (R267, R268, R273) -/

/-- The payload window of a port (R281). -/
def State.payload (s : State) (p n : Nat) : List Byte := (List.range n).map (fun i => sget (fun _ => 0) s.spPayload (256 * p + i))

/-- The number of messages to a pair so far (R268). -/
def pairKey (node tag : Nat) : Nat := 65536 * node + tag

/-- The messages of a pair accepted in this core cycle by ports of higher numbers: they come after a message of port `p`
(R268). -/
def State.laterPorts (s : State) (p node tag : Nat) (m : Msg) : Bool :=
  decide (m.node = node) && decide (m.tag = tag) && decide (64 * s.cycle + p < m.order)

/-- Their SEQs move up by one (R268). -/
def State.bumpLater (s : State) (p node tag : Nat) : State :=
  { s with ports := s.ports.map (fun x => (x.1, { x.2 with fifo := x.2.fifo.map (fun m =>
      if s.laterPorts p node tag m then { m with seq := m.seq + 1 } else m) })) }

/-- A write of SP_SEND (R267): the message is accepted, or, with the FIFO full, lost. It requests credit, or fails, from
the next core cycle on (R413). -/
def sendMessage (p : Nat) (value : Word) (s : State) : State :=
  let l := (s.port p).fifo
  if 16 ≤ l.length then s.hwSet (R.spStatus p) 30
  else
    let node := s.fld (R.spDest p) 0 16
    let tag := s.fld (R.spDest p) 16 16
    let n := getField value 0 5
    let sent := sget (fun _ => 0) s.msgSeq (pairKey node tag)
    let after := (s.ports.flatMap (fun x => x.2.fifo)).countP (s.laterPorts p node tag)
    let m : Msg := { num := s.reg (R.spAccepted p), seq := sent - BitVec.ofNat 32 after, node := node, tag := tag,
                     len8m1 := n, payload := s.payload p (8 * (n + 1)), order := 64 * s.cycle + p, slot := none, sent := false,
                     at_ := 0, port := none }
    let s1 := ((s.bumpLater p node tag).setFifo p (l ++ [m])).wrapAdd (R.spAccepted p) 1
    let s2 : State := { s1 with msgSeq := sset (fun _ => 0) s1.msgSeq (pairKey node tag) (sent + 1) }
    if l = [] then s2.restartWait p else s2

def execSpSend (src : Requester) (p : Fin 64) (value : Word) (s : State) : Result :=
  s.regWrite src (R.spSend p) value (sendMessage p value)

/-- SP_CTL.RESUME: the failed message requests a credit again, as if accepted now (R270, R273). -/
def resumePort (p : Nat) (s : State) : State :=
  if ! s.spStopped p then s
  else
    let again (m : Msg) : Msg :=
      if s.failedMsg p m then { m with slot := none, sent := false, order := 64 * s.cycle + p, port := none } else m
    (((s.setFifo p ((s.port p).fifo.map again)).setBit (R.spStatus p) 31 false).restartWait p).requestCredits

def execSpResume (src : Requester) (p : Fin 64) (s : State) : Result := s.regWrite src (R.spCtl p) 1 (resumePort p)

/-- SP_CTL.DISCARD: the failed message is dropped. -/
def discardPort (p : Nat) (s : State) : State :=
  if ! s.spStopped p then s
  else (((s.setFifo p ((s.port p).fifo.filter (fun m => ! s.failedMsg p m))).setBit (R.spStatus p) 31 false).restartWait p).requestCredits

def execSpDiscard (src : Requester) (p : Fin 64) (s : State) : Result := s.regWrite src (R.spCtl p) 2 (discardPort p)

/-- SP_CTL.FLUSH: every queued message is dropped and counted. -/
def flushPort (p : Nat) (s : State) : State :=
  if ! s.spStopped p then s
  else
    let n := (s.port p).fifo.length
    ((((s.wrapAdd (R.spFailed p) n).setFifo p []).setBit (R.spStatus p) 31 false).restartWait p).requestCredits

def execSpFlush (src : Requester) (p : Fin 64) (s : State) : Result := s.regWrite src (R.spCtl p) 4 (flushPort p)

/-! ### Credits at the source (R269) -/

/-- A message goes to its granted slot. -/
def State.sendTo (s : State) (x : (Nat × Msg) × Nat) : State :=
  let p := x.1.1
  let m := x.1.2
  let put (y : Msg) : Msg := if y.num = m.num then { y with slot := some x.2, sent := true, at_ := s.cycle } else y
  let s1 := s.putPort p { s.port p with fifo := (s.port p).fifo.map put }
  let s2 := if ((s.port p).fifo.map Msg.num).head? = some m.num then s1.restartWait p else s1
  s2.emitTo m.node (.message m.node m.tag x.2 m.seq m.payload 0)

/-- Is a pair's request in back-off? -/
def CreditPair.waits (c : CreditPair) : Bool :=
  match c.state with
  | .backoff _ => true
  | _ => false

/-- The answer to a credit request arrives. A grant that finds fewer messages than slots leaves the rest of them to be
voided (R271). -/
def creditAnswered (node tag : Nat) (answer : CreditAnswer) (s : State) : State :=
  let here (c : CreditPair) : Bool := decide (c.node = node) && decide (c.tag = tag) && ! c.waits
  if ! s.credits.any here then s
  else match answer with
    | .grant slots =>
      let s1 := ((s.pairWaiting node tag).zip slots).foldl State.sendTo s
      ({ s1 with credits := s1.credits.filter (fun c => ! here c) } : State).requestCredits
    | .queued =>
      let q (c : CreditPair) : CreditPair := if here c then { c with state := .queued } else c
      { s with credits := s.credits.map q }
    | .retry =>
      let q (c : CreditPair) : CreditPair :=
        if here c then { c with state := .backoff c.wait, wait := min (2 * c.wait) (2 ^ 14), at_ := s.cycle } else c
      { s with credits := s.credits.map q }

def execCreditAnswerArrival (node tag : Nat) (answer : CreditAnswer) (s : State) : Result :=
  .next (creditAnswered node tag answer s)

/-- Has the back-off of a pair's request ended? -/
def CreditPair.backOff (c : CreditPair) (now : Nat) : Bool :=
  match c.state with
  | .backoff w => decide (c.at_ + w ≤ now)
  | _ => false

/-- The back-off of a credit request has ended: it goes out again (R269). -/
def creditRetry (node tag : Nat) (s : State) : State :=
  let here (c : CreditPair) : Bool := decide (c.node = node) && decide (c.tag = tag) && c.backOff s.cycle
  if ! s.credits.any here then s
  else
    let k := min 16 (s.pairWaiting node tag).length
    let again (c : CreditPair) : CreditPair := if here c then { c with state := .requested, count := k, at_ := s.cycle, port := none } else c
    ({ s with credits := s.credits.map again } : State).emitTo node (.creditRequest node tag k 0)

def execCreditRetryBackoff (node tag : Nat) (s : State) : Result := .next (creditRetry node tag s)

/-- A delivery reply retires its message (R269), or answers a piece (R275). The oldest message's wait starts anew where it
was the oldest (R274). -/
def delivered (node tag : Nat) (seq : Word) (s : State) : State :=
  let is (m : Msg) : Bool := decide (m.node = node) && decide (m.tag = tag) && decide (m.seq = seq) && m.sent
  match (List.range 64).find? (fun p => (s.port p).fifo.any is) with
  | none => s.pieceDelivered node tag
  | some p =>
    let s1 := ((s.setFifo p ((s.port p).fifo.filter (fun m => ! is m))).wrapAdd (R.spDelivered p) 1).countTag R.tcSent tag 1
    (if (s.port p).fifo.head?.any is then s1.restartWait p else s1).requestCredits

def execDeliveryReply (node tag : Nat) (seq : Word) (s : State) : Result := .next (delivered node tag seq s)

/-- The first message of a port that waits for a slot. -/
def State.portNext (s : State) (p : Nat) : Option Msg :=
  ((s.unsent p).head?).filter (fun m => (s.pairWaiting m.node m.tag).any (fun x => decide (x.1 = p) && decide (x.2.num = m.num)))

/-- A message of a port fails with a status; for one not sent, its pair's request has ended. -/
def State.failPortMsg (s : State) (p : Nat) (m : Msg) (st : Status) : State :=
  let gone (c : CreditPair) : Bool := decide (c.node = m.node) && decide (c.tag = m.tag) && ! m.sent
  (({ s with credits := s.credits.filter (fun c => ! gone c) } : State).failMsg p m st).requestCredits

/-- Is a credit request of a message's pair outstanding? -/
def State.requested (s : State) (m : Msg) : Bool :=
  s.credits.any (fun c => decide (c.node = m.node) && decide (c.tag = m.tag) && ! c.waits)

/-- A refusal or an error answers a message that has been sent, by its number, or the credit request that a port's first
message waits for. -/
def messageRefused (p : Nat) (num : Option Word) (st : Status) (s : State) : State :=
  match num with
  | some n => (match (s.port p).fifo.find? (fun m => m.sent && decide (m.num = n)) with
    | none => s
    | some m => s.failPortMsg p m st)
  | none => match s.portNext p with
    | none => s
    | some m => if s.requested m then s.failPortMsg p m st else s

def execMessageRefusalAnswer (p : Fin 64) (answer : MessageRefusal) (s : State) : Result :=
  .next (messageRefused p answer.num answer.status s)

/-- The oldest undelivered message has waited SP_WDOG core cycles for a grant (R274). -/
def sendWatchdog (p : Nat) (s : State) : State :=
  let limit := (s.reg (R.spWdog p)).toNat
  match (s.port p).fifo with
  | [] => s
  | m :: _ =>
    if ! s.spStopped p && ! m.sent && decide (0 < limit) && decide (limit ≤ (s.port p).waited) then
      (s.failMsg p m St.sendWatchdog).requestCredits
    else s

def execSendWatchdogExpiry (p : Fin 64) (s : State) : Result := .next (sendWatchdog p s)

/-! ### Peers (R276, R277, R279) -/

def State.watched (s : State) (n : Nat) : Bool := s.bit (R.fePeerCfg n) 31
def State.peerNode (s : State) (n : Nat) : Nat := s.fld (R.fePeerCfg n) 0 16
def State.peerState (s : State) (n : Nat) : Nat := s.fld (R.fePeerCfg n) 29 2

/-- A heartbeat to each watched peer, every 16,000 core cycles (R276). -/
def sendHeartbeats (s : State) : State :=
  if s.feEnabled && decide (s.beatDue ≤ s.cycle) && decide (s.power ≠ .off) then
    (List.range 1024).foldl (fun u n =>
      if s.watched n then u.emitFabric (.heartbeat (s.peerNode n) (BitVec.ofNat 64 (s.reg64 R.feIncarnLo)) 0) else u)
      { s with beatDue := s.beatDue + 16000 }
  else s

def execHeartbeatSend (s : State) : Result := .next (sendHeartbeats s)

/-- Is a read or a write of a task outstanding at a node? -/
def readAt (node : Nat) (i : Issued) : Bool := ! i.answered && decide (i.req.space = .device) && decide (i.req.addr / 2 ^ 48 = node)
def writeAt (node : Nat) (w : WriteReq) : Bool := decide (w.span.1 / 2 ^ 48 = node)

/-- A task's requests to a dead node end. -/
def State.failAt (s : State) (node : Nat) (ref : TaskRef) : State :=
  match s.task ref with
  | none => s
  | some t =>
    if t.issueQ.any (readAt node) || t.pendingW.any (writeAt node) || t.coll.awaiting.any (fun w => decide (w.node = node)) then
      let t1 := { t with
        coll := { t.coll with awaiting := t.coll.awaiting.filter (fun w => decide (w.node ≠ node)) },
        issueQ := t.issueQ.filter (fun i => ! readAt node i), pendingW := t.pendingW.filter (fun w => ! writeAt node w) }
      ((s.putTask t1).failTask ref St.deadDestination).settle ref
    else s

/-- Every COLLECTIVE whose group includes a dead node fails (R181). -/
def State.failCollectives (s : State) (node : Nat) : State :=
  ((s.tasks.filter (fun t => openCollective t && (t.group s.node).contains node)).map Task.ref).foldl
    (fun u r => u.fail r St.deadDestination) s

/-- What happens in the core cycle a peer becomes dead (R277). -/
def State.peerDies (s : State) (node : Nat) : State :=
  let s1 := (s.tasks.map Task.ref).foldl (fun u r => u.failAt node r) s
  let s2 := (List.range 64).foldl (fun u p => match (u.port p).fifo with
    | m :: _ => if ! u.spStopped p && decide (m.node = node) then u.failMsg p m St.deadDestination else u
    | [] => u) s1
  let s3 : State := { s2 with credits := s2.credits.filter (fun c => decide (c.node ≠ node)) }
  let s4 := (List.range 256).foldl (fun u r =>
    let x := u.endpoint r
    (u.putEndpoint r { x with wait := x.wait.filter (fun w => decide (w.1 ≠ node)) }).voidGrants r (fun g => decide (g.node = node))) s3
  s4.failCollectives node

/-- A peer entry is marked dead. -/
def State.markDead (s : State) (n : Nat) : State :=
  ((s.setFld (R.fePeerCfg n) 29 2 2).bump (R.fePeerDeaths n) 1).peerDies (s.peerNode n)

/-- A heartbeat reaches a watched peer entry. -/
def State.beat (s : State) (n : Nat) (inc : DWord) : State :=
  let x := s.peer n
  let changed := match x.incarnation with | some i => decide (i ≠ inc) | none => false
  let s1 := if changed then
      (if s.peerState n = 2 then s else s.markDead n).bump (R.fePeerResets n) 1
    else s
  (s1.setFld (R.fePeerCfg n) 29 2 1).putPeer n { lastBeat := s.cycle, incarnation := some inc }

/-- A heartbeat arrives. -/
def heartbeatReceived (node : Nat) (inc : DWord) (s : State) : State :=
  if s.feEnabled then
    ((List.range 1024).foldl (fun u n => if s.watched n && decide (s.peerNode n = node) then u.beat n inc else u) s).requestCredits
  else s

def execHeartbeatReceive (node : Nat) (incarnation : DWord) (s : State) : Result := .next (heartbeatReceived node incarnation s)

/-- 48,000 core cycles have passed without a heartbeat. -/
def peerTimeout (n : Nat) (s : State) : State :=
  if s.feEnabled && s.watched n && decide (s.peerState n = 1) && decide ((s.peer n).lastBeat + 48000 ≤ s.cycle) then
    (s.markDead n).requestCredits
  else s

def execPeerHeartbeatTimeout (n : Fin 1024) (s : State) : Result := .next (peerTimeout n s)

/-- A write of FE_PEER_CFG: NODE is kept while WATCH is 1; a newly watched peer is alive (R279). -/
def writePeerCfg (n : Nat) (value : Word) (s : State) : State :=
  let node := if s.watched n then s.peerNode n else getField value 0 16
  let w := getField value 31 1
  let st := if w = 0 then 0 else if s.watched n then s.peerState n else 1
  let s1 := s.setReg (R.fePeerCfg n) (BitVec.ofNat 32 (w * 2 ^ 31 + st * 2 ^ 29 + node))
  if w = 1 ∧ ! s.watched n then s1.putPeer n { lastBeat := s.cycle, incarnation := none } else s1

def execPeerCfgWrite (src : Requester) (n : Fin 1024) (value : Word) (s : State) : Result :=
  s.regWrite src (R.fePeerCfg n) value (writePeerCfg n value)

/-! ### The endpoint and its ports (R260, R276) -/

/-- Is nothing outstanding on any port? -/
def State.fabricIdle (s : State) : Bool :=
  s.credits.all (fun c => decide (c.node = s.node)) &&
    (List.range 64).all (fun p => (s.port p).fifo.all (fun m => ! m.sent || decide (m.node = s.node))) &&
    s.tasks.all (fun t => t.issueQ.all (fun i => i.answered || decide (i.req.space = .host) || decide (i.req.addr / 2 ^ 48 = s.node)) &&
      t.pendingW.all (fun w => decide (w.span.1 / 2 ^ 48 = s.node)) && decide (t.coll.awaiting = []))

/-- A write of FE_CTL. EN from 0 to 1 records the incarnation and starts the SEQ counts; from 1 to 0 the endpoint runs on
until every port has drained (R28, R260). -/
def writeFeCtl (value : Word) (s : State) : State :=
  let on := decide (getField value 31 1 = 1)
  let s1 := s.setBit R.feCtl 31 on
  if on ∧ ! s.feEnabled then
    let s2 := (s1.setReg64 R.feIncarnLo s.gtc).setBit R.feStatus 0 true
    let s3 := (List.range 1024).foldl (fun u n => if s.watched n then u.putPeer n { u.peer n with lastBeat := s.cycle } else u) s2
    ({ s3 with beatDue := s.cycle, msgSeq := [], draining := s3.draining.filter (fun p => s3.bit (R.feLaneStatus p) 0) } : State).requestCredits
  else if ! on ∧ s.feEnabled then
    (if s.fabricIdle then s1.setBit R.feStatus 0 false else { s1 with draining := List.range 32 })
  else s1

def execFeCtlWrite (src : Requester) (value : Word) (s : State) : Result := s.regWrite src R.feCtl value (writeFeCtl value)

/-- The new lane map of a port under remap, once it has drained (R405, step 2). -/
def State.moveLane (s : State) (p : Nat) : State :=
  let ctl := s.reg (R.feLaneCtl p)
  let lane := getField ctl 0 3
  if s.bit (R.feLaneStatus p) 0 then
    s.setFld (R.feLaneStatus p) (if getField ctl 30 1 = 1 then 24 else 28) 4 (if lane < 4 then 8 + lane else 0)
  else s

/-- Does a port wait for the answer to a packet (R260)? -/
def State.portBusy (s : State) (p : Nat) : Bool :=
  s.credits.any (fun c => decide (c.state = .requested) && decide (c.port = some p)) ||
    s.ports.any (fun x => x.2.fifo.any (fun m => m.sent && decide (m.port = some p))) ||
    s.tasks.any (fun t => t.coll.awaiting.any (fun w => decide (w.port = some p)))

/-- A port that leaves service has drained; the endpoint stops with the last one after EN is cleared. -/
def portDrained (p : Nat) (s : State) : State :=
  if ! s.draining.contains p ∨ s.portBusy p then s
  else
    let s1 := ({ s with draining := s.draining.filter (fun q => decide (q ≠ p)) } : State).moveLane p
    if s1.draining = [] ∧ ! s.feEnabled then s1.setBit R.feStatus 0 false else s1

def execFabricPortDrained (p : Fin 32) (s : State) : Result := .next (portDrained p s)

/-! ### Requests that fail or expire (R261, R353, R367, R368) -/

/-- Has a request issued in core cycle `at_` been outstanding for `age` core cycles? An answer that comes in the core cycle
of the expiry wins: it is the earlier command (R261, R368). -/
def State.overdue (s : State) (at_ age : Nat) : Bool := decide (at_ + age ≤ s.cycle)

/-- An outstanding read of a task ends with a status. -/
def State.failRead (s : State) (ref : TaskRef) (no : Nat) (space : Space) (st : Status) (age : Nat) : State :=
  match s.task ref with
  | none => s
  | some t => match t.issueQ.find? (fun i => decide (i.no = no) && ! i.answered && decide (i.req.space = space) &&
    (if space = .host then s.hostOverdue i.at_ age else s.overdue i.at_ age) &&
      (decide (space = .host) || decide (i.req.addr / 2 ^ 48 ≠ s.node))) with
    | none => s
    | some _ => ((s.putTask { t with issueQ := t.issueQ.filter (fun i => decide (i.no ≠ no)) }).failTask ref st).settle ref

/-- The oldest write of a task, at another node, ends with a status. -/
def State.failWrite (s : State) (ref : TaskRef) (st : Status) (age : Nat) : State :=
  match s.task ref with
  | none => s
  | some t => match t.pendingW with
    | [] => s
    | w :: l =>
      if w.span.1 / 2 ^ 48 = s.node ∨ ! s.overdue w.at_ age then s
      else ((s.putTask { t with pendingW := l }).failTask ref st).settle ref

/-- A piece of a COLLECTIVE that has not been answered ends with a status. -/
def State.failPiece (s : State) (ref : TaskRef) (rank stage index : Nat) (st : Status) (age : Nat) : State :=
  match s.task ref with
  | none => s
  | some t => match t.coll.awaiting.find? (fun w => decide (w.rank = rank) && decide (w.stage = stage) && decide (w.index = index) &&
      s.overdue w.at_ age) with
    | none => s
    | some w => ((s.putTask { t with coll := { t.coll with awaiting := t.coll.awaiting.filter (fun x => decide (x ≠ w)) } }).failTask
        ref st).settle ref

/-- The message of a port whose packet, or whose pair's credit request, has not been answered: a request that has been queued
is not timed (R269). -/
def State.unansweredMsg (s : State) (p age : Nat) : Option Msg :=
  match (s.port p).fifo.find? (fun m => m.sent && decide (m.node ≠ s.node) && s.overdue m.at_ age) with
  | some m => some m
  | none => (s.portNext p).filter (fun m => s.credits.any (fun c => decide (c.node = m.node) && decide (c.tag = m.tag) &&
      decide (c.node ≠ s.node) && decide (c.state = .requested) && s.overdue c.at_ age))

/-- The owner of a fabric request that has been outstanding for `age` core cycles fails with a status. -/
def State.failFabric (s : State) (owner : FabricOwner) (st : Status) (age : Nat) : State :=
  match owner with
  | .taskRead t no => s.failRead t no .device st age
  | .taskWrite t => s.failWrite t st age
  | .piece t rank stage index => s.failPiece t rank stage index st age
  | .sendPort p => match s.unansweredMsg p age with
    | none => s
    | some m => s.failPortMsg p m st

/-- 100 µs have passed without an answer (R261). -/
def execFabricRequestTimeout (owner : FabricOwner) (s : State) : Result := .next (s.failFabric owner St.fabric 160000)

/-- A ring read has not been answered: the queue stops, unless its fetch has been abandoned (R50, R367). -/
def State.failRingRead (s : State) (q age : Nat) : State :=
  let r := s.sq q
  match r.stale with
  | x :: l => if s.hostOverdue x.2 age then s.putSq q { r with stale := l } else s
  | [] => if r.outstanding && s.sqHost q && s.hostOverdue r.lastRead age then (s.putSq q { r with outstanding := false }).sqReadFailed q St.host 0 else s

/-- The owner of a host request that has been outstanding for `age` core cycles fails as though the host had not answered
(R367) or had answered with an error (R379). -/
def State.failHost (s : State) (owner : HostOwner) (apCause age : Nat) : State :=
  match owner with
  | .taskRead t no => s.failRead t no .host St.host age
  | .taskFlush t => if s.hostOverdue ((s.task t).elim 0 Task.flushAt) age then flushDone t false s else s
  | .ringRead q => s.failRingRead q age
  | .recordFlush t =>
    if s.cqHost ((s.task t).elim 0 (fun x => entryRing x.entry)) && s.hostOverdue ((s.task t).elim 0 Task.recordAt) age then
      ackRecord t .hostError s
    else s
  | .aperture core ap =>
    match s.apLoads.find? (fun l => decide (l.core = core.val) && decide (l.ap = ap.val) && s.hostOverdue l.at_ age) with
    | none => s
    | some l =>
      let rest := s.apLoads.filter (fun x => decide (x ≠ l))
      (({ s with apLoads := rest } : State).apertureFault false apCause l.ap l.core l.offset).emit
        (.coreData l.core (List.replicate l.len 0))

/-- 200 µs have passed without an answer (R367). -/
def execHostRequestTimeout (owner : HostOwner) (s : State) : Result := .next (s.failHost owner 3 320000)

/-- A response after its request has expired is discarded and counted. -/
def execLateResponse (host : Bool) (s : State) : Result :=
  .next (s.bump (if host then R.tmLateHost else R.tmLateFabric) 1)

/-- A packet fails its CRC. The first time it is asked for again, and its sender counts the resend; the second time its
request fails, with a machine-check event. A `source` that is this chip stands for a packet of its own (log 5). -/
def packetCrcFail (p : Nat) (resent : Bool) (source : Nat) (owner : FabricOwner) (s : State) : State :=
  if ! resent then
    (if source = s.node then s.bump R.tmFabricResent 1 else s.emit (.resendRequest p source))
  else
    let ref := match owner with
      | .taskRead t _ => some t
      | .taskWrite t => some t
      | .piece t _ _ _ => some t
      | .sendPort _ => none
    (s.mcEvent 10 p St.fabricCrc ref source).failFabric owner St.fabricCrc 0

def execFabricPacketCrcFail (p : Fin 32) (resent : Bool) (source : Nat) (owner : FabricOwner) (s : State) : Result :=
  .next (packetCrcFail p resent source owner s)

end Sys2Proof.Machine
end

