-- ==== Sys2Proof/Machine/Arbiter.lean ====
section
/-!
DEFINITION. The port arbiters (R312 to R323): requests with their requester, rank and age, decisions, parking and retry
service, the copy's reserved share, the slot watchdog.
-/
namespace Sys2Proof.Machine

/-! ### Ports and slots (R312) -/

/-- The groups of slots of an arbiter and the slots of each; no arbiter has the numbers 11 to 15. -/
def arbShape (n : Nat) : Nat × Nat :=
  if n ≤ 7 then (1, 24) else if n = 8 then (9, 5) else if n = 9 then (2, 3) else if n = 10 then (32, 1)
  else if 16 ≤ n then (1, 16) else (0, 0)

/-- The slots a request may use. -/
def slotsOf (n channel : Nat) : List Nat :=
  if channel < (arbShape n).1 then List.range' (channel * (arbShape n).2) (arbShape n).2 else []

/-- The beats of a burst: the 64-byte lines it touches. -/
def beatsOf (r : BurstReq) : Nat := (r.addr + (r.len - 1)) / 64 - r.addr / 64 + 1

/-- Core cycles that a number of beats takes at least: one beat per cycle of the port's domain, three quarters of the core
clock at the tier-B group and half of it at the array-side ports (R24, R312, R322). -/
def beatCycles (n beats : Nat) : Nat := if n = 8 then ceilDiv (4 * beats) 3 else if 16 ≤ n then 2 * beats else beats

/-- Is a request one that an arbiter can carry: within 512 bytes, at the memory behind its port, on the channel of the
module's site or of the evacuation's target, in the direction of its data (R30, R31, R308, R312)? -/
def State.reqFits (s : State) (n : Nat) (r : BurstReq) : Bool :=
  decide (0 < r.len) && decide (r.addr / 512 = (r.addr + (r.len - 1)) / 512) && decide (slotsOf n r.channel ≠ []) &&
    (if n ≤ 7 then decide (regionOf r.addr = .tierA) && decide (stackOf r.addr = n)
     else if n = 8 then decide (regionOf r.addr = .tierB) && (decide (r.channel = s.siteOf (moduleOf r.addr)) ||
       (match s.evac with | some e => decide (e.lm = moduleOf r.addr) && decide (r.channel = e.target) | none => false))
     else if n = 9 then decide (r.channel = boolBit r.write)
     else if n = 10 then true
     else decide (regionOf r.addr = .scratch))

/-- The burst on a slot. -/
def ArbRun.slot (a : ArbRun) (i : Nat) : Option Burst := sget (fun _ => none) a.slots i
def ArbRun.putSlot (a : ArbRun) (i : Nat) (b : Option Burst) : ArbRun := { a with slots := sset (fun _ => none) a.slots i b }

/-- The idle slots a request may use. -/
def ArbRun.idle (a : ArbRun) (n channel : Nat) : List Nat := (slotsOf n channel).filter (fun i => (a.slot i).isNone)

/-- Is a port in retry service (R318)? -/
def State.retryService (s : State) (n : Nat) : Bool := s.bit (R.arbCtl n) 31

/-! ### Requesters, ranks and ages (R313 to R315) -/

/-- The logical position of the engine that a task runs on (R35). -/
def State.position (s : State) (t : Task) : Option Nat := t.engine.map (fun e => s.fld (R.engStatus e) 0 6)

/-- The requester, the stream, the rank and the age key of a request. A task's requests compete at its class and its
submission time, its control requests at rank 0; a request of no task takes the counter's value on arrival. DESIGN CHOICE
(log 15): the command processor's requests, and the fabric endpoint's own, have rank 0, and the endpoint's own packets
are of the stream of this chip's node; R313 and R314 name neither. -/
def State.reqKey (s : State) (r : BurstReq) : Option ReqKey :=
  match r.owner with
  | .task ref control => match s.task ref with
    | none => none
    | some t => (s.position t).map (fun p =>
        { requester := p, stream := 0, rank := if control then 0 else if entrySession t.entry then 2 else 1, age := t.tSubmit })
  | .queues ref => some { requester := 64, stream := 0, rank := 0, age := (ref.bind s.task).elim s.gtc Task.tSubmit }
  | .translation ref => some { requester := 65, stream := 0, rank := 0, age := (ref.bind s.task).elim s.gtc Task.tSubmit }
  | .remote node session age => some { requester := 66, stream := node, rank := if session then 2 else 1, age := age }
  | .endpoint => some { requester := 66, stream := s.node, rank := 0, age := s.gtc }
  | .heartbeat => some { requester := 66, stream := s.node, rank := 0, age := s.gtc }
  | .bar2Read => some { requester := 67, stream := 0, rank := 2, age := s.gtc }
  | .bar2Write => some { requester := 67, stream := 0, rank := 2, age := s.gtc }
  | .coreLoad c => some { requester := 68, stream := c, rank := 2, age := s.gtc }
  | .coreStore c => some { requester := 68, stream := c, rank := 2, age := s.gtc }
  | .coreAtomic c => some { requester := 68, stream := c, rank := 2, age := s.gtc }
  | .copy => some { requester := 69, stream := 0, rank := 0, age := s.gtc }
  | .scrub => some { requester := 70, stream := 0, rank := 3, age := s.gtc }
  | .commandProcessor => some { requester := 71, stream := 0, rank := 0, age := s.gtc }

/-! ### Candidates (R313, R314) -/

/-- Do two requests belong to one stream? Heartbeats go by themselves (R276, R320). -/
def sameStream (a b : Waiting) : Bool :=
  decide (a.key.requester = b.key.requester) && decide (a.key.stream = b.key.stream) &&
    (decide (a.req.owner = .heartbeat) == decide (b.req.owner = .heartbeat))

/-- The candidates of a list: the requests that are the oldest of their streams among all that wait, those in back-off and
those held included. -/
def oldestOf (all cs : List Waiting) : List Waiting := cs.filter (fun w => all.all (fun v => ! sameStream v w || decide (w.seq ≤ v.seq)))

/-- The rank at which a candidate competes: the lowest of its stream's waiting requests. -/
def streamRank (all : List Waiting) (w : Waiting) : Nat :=
  (all.filter (fun v => sameStream v w)).foldl (fun m v => min m v.key.rank) w.key.rank

/-- Does a candidate win over another: rank, age, requester, stream? -/
def beats (all : List Waiting) (a b : Waiting) : Bool :=
  let ka := [streamRank all a, a.key.age, a.key.requester, a.key.stream]
  let kb := [streamRank all b, b.key.age, b.key.requester, b.key.stream]
  decide (ka < kb)

/-- The best of a list. -/
def bestOf (all cs : List Waiting) : Option Waiting :=
  cs.foldl (fun m w => match m with | none => some w | some v => if beats all w v then some w else some v) none

/-- Is a request the evacuation copy's? -/
def isCopy (r : BurstReq) : Bool := decide (r.owner = .copy)

/-- Is a channel's next grant position reserved for the copy (R308, R320)? -/
def State.copyTurn (s : State) (n channel : Nat) (a : ArbRun) : Bool :=
  decide (n = 8) && (match s.evac with
    | some e => decide (channel = e.source ∨ channel = e.target)
    | none => false) && decide (sget (fun _ => 0) a.grants channel % 16 < s.fld R.tbEvacCfg 0 4)

/-- The winner on a channel among the requests at the arbiter: a heartbeat before all (R320), the copy at its reserved
positions only, else the best by rank and age. -/
def State.winnerOn (s : State) (n : Nat) (a : ArbRun) (all l : List Waiting) (channel : Nat) : Option Waiting :=
  let here := (oldestOf all l).filter (fun w => decide (w.req.channel = channel))
  match here.find? (fun w => decide (w.req.owner = .heartbeat)), here.find? (fun w => isCopy w.req) with
  | some h, _ => some h
  | none, some c => if s.copyTurn n channel a then some c else bestOf all (here.filter (fun w => ! isCopy w.req))
  | none, none => bestOf all here

/-- The best winner over all channels with an idle slot, and the lowest such slot. -/
def State.nextGrant (s : State) (n : Nat) (a : ArbRun) (all l : List Waiting) : Option (Waiting × Nat) :=
  let ws := (List.range (arbShape n).1).filterMap (fun c => match a.idle n c with
    | [] => none
    | i :: _ => (s.winnerOn n a all l c).map (fun w => (w, i)))
  match bestOf all (ws.map Prod.fst) with
  | none => none
  | some w => ws.find? (fun x => decide (x.1 = w))

/-! ### Grants (R316, R323) -/

/-- A grant is counted. -/
def State.countGrant (s : State) (n rank : Nat) (w : Waiting) : State :=
  if isCopy w.req then s.bump64 (R.arbCopyBeatsLo n) (beatsOf w.req)
  else
    let s1 := s.bump64 (R.arbBeatsLo n rank) (beatsOf w.req)
    let m := max (s.reg (R.arbMaxWait n w.key.rank)).toNat (min (s.cycle - w.at_) 0xFFFFFFFF)
    s1.setReg (R.arbMaxWait n w.key.rank) (BitVec.ofNat 32 m)

/-- Grants are made while a slot is idle and a candidate waits for it. `away` are the requests that wait elsewhere. -/
def State.grantAll (s : State) (n : Nat) (away : List Waiting) : Nat → List Waiting → List Waiting × State
  | 0, l => (l, s)
  | f + 1, l => match s.nextGrant n (s.arb n) (l ++ away) l with
    | none => (l, s)
    | some (w, i) =>
      let a := s.arb n
      let c := w.req.channel
      let a1 := { (a.putSlot i (some { req := w.req, key := w.key, at_ := s.cycle })) with
        grants := sset (fun _ => 0) a.grants c (sget (fun _ => 0) a.grants c + 1) }
      ((s.putArb n a1).countGrant n (streamRank (l ++ away) w) w).grantAll n away f (l.filter (fun v => decide (v ≠ w)))

/-! ### Losing (R318) -/

/-- A loser parked, held by its requester while the pending queue is full, or told to retry. A heartbeat never waits in
the pending queue. -/
def State.park (s : State) (n : Nat) (w : Waiting) : State :=
  let a := s.arb n
  if w.req.owner = .heartbeat then s.putArb n { a with held := a.held ++ [w] }
  else if s.retryService n then
    ((s.putArb n { a with backoff := a.backoff ++ [{ w with since := s.cycle }] }).bump (R.arbRetries n) 1).emit
      (.retryAnswer n w.key.requester)
  else if a.parked.length < 64 then (s.putArb n { a with parked := a.parked ++ [w] }).bump (R.arbParked n) 1
  else s.putArb n { a with held := a.held ++ [w] }

/-- The requests a requester holds that can reach the arbiter now: as many as there are free places in the pending queue, all
of them in retry service, which parks none. -/
def State.reaching (s : State) (n : Nat) : List Waiting :=
  let l := (s.arb n).held.filter (fun w => decide (w.req.owner ≠ .heartbeat))
  if s.retryService n then l else l.take (64 - (s.arb n).parked.length)

/-- One decision among the parked requests, the heartbeats due and the requests that reach the arbiter; losers that reached
it are parked or told to retry (R316, R318). -/
def State.decideOnce (s : State) (n : Nat) (arriving : List Waiting) : State :=
  let a := s.arb n
  let due := a.held.filter (fun w => decide (w.req.owner = .heartbeat))
  let held := a.held.filter (fun w => decide (w.req.owner ≠ .heartbeat) && ! arriving.contains w)
  let s1 := s.putArb n { a with parked := [], held := held }
  let (left, s2) := s1.grantAll n (a.backoff ++ held) ((arbShape n).1 * (arbShape n).2) (a.parked ++ due ++ arriving)
  let s3 := s2.putArb n { s2.arb n with parked := left.filter (fun w => a.parked.contains w) }
  (left.filter (fun w => ! a.parked.contains w)).foldl (fun u w => u.park n w) s3

/-- A decision: the slots whose bursts carry their last beats are free; the places it frees in the pending queue let held
requests reach the arbiter in turn. -/
def State.decideAt (s : State) (n : Nat) (ending : List Nat) (arriving : List Waiting) : State :=
  let freed := ending.foldl (fun x i => x.putSlot i none) (s.arb n)
  let s1 := (s.putArb n freed).decideOnce n arriving
  s1.decideOnce n (s1.reaching n)

/-- Requests as they first arrive, in the order of their issue. A requester that holds a request for want of a place issues
nothing further to the port (R318). -/
def State.arrive (s : State) (n : Nat) (r : BurstReq) : State × List Waiting :=
  let a := s.arb n
  match s.reqKey r with
  | none => (s, [])
  | some k =>
    if ! s.reqFits n r || a.held.any (fun w => decide (w.key.requester = k.requester) && decide (w.req.owner ≠ .heartbeat)) then (s, [])
    else (s.putArb n { a with issued := a.issued + 1 },
      [{ req := r, key := k, seq := a.issued, at_ := s.cycle, since := s.cycle, wait := 16 }])

def State.arriveAll (s : State) (n : Nat) : List BurstReq → State × List Waiting
  | [] => (s, [])
  | r :: l =>
    let x := s.arrive n r
    let y := x.1.arriveAll n l
    (y.1, x.2 ++ y.2)

/-- A request reaches an arbiter. -/
def arbiterArrival (n : Nat) (r : BurstReq) (s : State) : State :=
  let x := s.arrive n r
  x.1.decideAt n [] x.2

def execArbiterRequestArrival (port : Fin 48) (req : BurstReq) (s : State) : Result := .next (arbiterArrival port req s)

/-- The slots of a list whose bursts can have carried their last beats: their beats follow the grant, one a cycle of the
port's domain (R312, R316). -/
def State.ended (s : State) (n : Nat) (ending : List Nat) : List Nat :=
  ending.filter (fun i => match (s.arb n).slot i with
    | none => false
    | some b => decide (b.at_ + beatCycles n (beatsOf b.req) ≤ s.cycle))

/-- The refused requests whose back-off has ended, of a list by their places; each waits twice as long if it is refused
again (R318). -/
def State.retrying (s : State) (n : Nat) (is : List Nat) : List Waiting :=
  ((List.range (s.arb n).backoff.length).filter (fun i => is.contains i)).filterMap (fun i => match (s.arb n).backoff[i]? with
    | none => none
    | some w => if w.since + w.wait ≤ s.cycle then some w else none)

/-- Retries leave their back-off. -/
def State.takeRetries (s : State) (n : Nat) (ws : List Waiting) : State :=
  s.putArb n { s.arb n with backoff := (s.arb n).backoff.filter (fun w => ! ws.contains w) }

/-- A retry as it reaches the arbiter again. -/
def again (w : Waiting) : Waiting := { w with wait := min (2 * w.wait) 16384 }

/-- Slots carry the last beats of their bursts, and requests and retries reach the arbiter in the same cycle. -/
def arbiterDecision (n : Nat) (ending : List Nat) (rs : List BurstReq) (retries : List Nat) (s : State) : State :=
  let ws := s.retrying n retries
  let x := (s.takeRetries n ws).arriveAll n rs
  x.1.decideAt n (s.ended n ending) (ws.map again ++ x.2)

def execArbiterDecision (port : Fin 48) (ending : List Nat) (contenders : Contenders) (s : State) : Result :=
  .next (arbiterDecision port ending contenders.arriving contenders.retries s)

/-- The back-off of a refused request has ended: it retries. -/
def arbiterRetry (n i : Nat) (s : State) : State :=
  let ws := s.retrying n [i]
  if ws = [] then s else (s.takeRetries n ws).decideAt n [] (ws.map again)

def execArbiterRetryBackoff (port : Fin 48) (index : Nat) (s : State) : Result := .next (arbiterRetry port index s)

/-! ### The slot watchdog (R322) -/

/-- The request of a task that a burst carries ends: nothing more of it comes. -/
def Task.endBurst (t : Task) (r : BurstReq) (control : Bool) : Task :=
  let inside (a n : Nat) : Bool := decide (a ≤ r.addr) && decide (r.addr < a + n)
  if control then { t with flushing := false }
  else if r.write then { t with pendingW := t.pendingW.eraseP (fun w => inside (w.span.1 % 2 ^ 48) w.span.2) }
  else { t with issueQ := t.issueQ.eraseP (fun i => ! i.answered && inside (i.req.addr % 2 ^ 48) i.req.len) }

/-- The answer a requester gets. -/
def State.burstFails (s : State) (n : Nat) (r : BurstReq) : State :=
  let s1 := s.emit (.burstError n r.owner)
  let zeros (core : Fin 8) : State := s1.emit (.coreData core (List.replicate r.len 0))
  match r.owner with
  | .task t control => ((s1.modTask t (fun x => x.endBurst r control)).fail t St.portWatchdog).settle t
  | .coreLoad c => zeros c
  | .coreAtomic c => zeros c
  | .bar2Read => s1.emit .unsupportedRequest
  | .remote node _ _ => s1.emit (.fabricAnswer node St.portWatchdog [])
  | _ => s1

/-- The task a burst belongs to. -/
def burstTask (r : BurstReq) : Option TaskRef :=
  match r.owner with
  | .task t _ => some t
  | _ => none

/-- A grant has been held for ARB_WDOG core cycles; of slots that expire in one cycle the lower one is recorded (R323). -/
def portWatchdog (n slot : Nat) (s : State) : State :=
  match (s.arb n).slot slot with
  | none => s
  | some b =>
    if b.at_ + (s.reg (R.arbWdog n)).toNat ≤ s.cycle then
      let s1 := s.putArb n ((s.arb n).putSlot slot none)
      let s2 := ((s1.latchReg (R.arbWdogFault n) slot (slot * 256 + b.key.requester)).bump (R.arbWdogCount n) 1).mcEvent 9 n
        (if (burstTask b.req).isSome then St.portWatchdog else 0) (burstTask b.req) 0
      (s2.setBit (R.arbCtl n) 31 true).burstFails n b.req
    else s

def execPortWatchdogExpiry (port : Fin 48) (slot : Nat) (s : State) : Result := .next (portWatchdog port slot s)

end Sys2Proof.Machine
end

