-- ==== Sys2Proof/Machine/Rs.lean ====
section
/-!
DEFINITION. The outer code of a tier-B line (R299): a Reed-Solomon code over GF(2^8) of 77 symbols, 64 data bytes, five
address bytes and 8 check bytes. A stored line is a codeword with the address bytes of its own index; the decoder puts the
address bytes of the line it asked for in their place. The code is linear, so the syndromes of the word received are those of
its difference from the codeword stored: the errors of the stored symbols, and in the address symbols the difference of the two
indices.
-/
namespace Sys2Proof.Machine.Rs

/-- A product by α: the field polynomial is x^8 + x^4 + x^3 + x^2 + 1. -/
def xtime (a : Nat) : Nat := if a < 128 then 2 * a else (2 * a - 256) ^^^ 0x1D

/-- A product in GF(2^8), over the low `n` bits of `b`. -/
def mulBits : Nat → Nat → Nat → Nat
  | 0, _, _ => 0
  | n + 1, a, b => (if b % 2 = 1 then a else 0) ^^^ mulBits n (xtime a) (b / 2)

def mul (a b : Nat) : Nat := mulBits 8 a b

/-- A power of α. -/
def alpha : Nat → Nat
  | 0 => 1
  | n + 1 => xtime (alpha n)

/-- The inverse of a nonzero element, its power 254: the product of its powers 2, 4, 8, up to 128. -/
def inv (a : Nat) : Nat :=
  ((List.range 7).foldl (fun x _ => let sq := mul x.1 x.1; (sq, mul x.2 sq)) (a, 1)).2

def sum (l : List Nat) : Nat := l.foldl (fun x y => x ^^^ y) 0

/-- A polynomial, lowest coefficient first, at a point. -/
def eval (p : List Nat) (x : Nat) : Nat := p.foldr (fun c acc => c ^^^ mul x acc) 0

def coef (p : List Nat) (i : Nat) : Nat := p.getD i 0

/-- The position in the codeword of a stored symbol: data before the five address symbols, checks after them. -/
def position (i : Nat) : Nat := if i < 64 then i else i + 5

/-- Is a position one of the address symbols? -/
def isAddress (p : Nat) : Bool := decide (64 ≤ p) && decide (p < 69)

/-- The locator of a position: the symbol at position p is the coefficient of x^(76 - p). -/
def locator (p : Nat) : Nat := alpha (76 - p)

/-- An address byte of a line: its index in the module, 33 bits little-endian (R299). -/
def addressByte (line p : Nat) : Nat := line / 256 ^ (p - 64) % 256

/-- The difference at a position of the word received, as the line `line` is read; entries on one symbol add up. -/
def errorAt (e : LineErrors) (line p : Nat) : Nat :=
  if isAddress p then addressByte line p ^^^ addressByte (e.returned.getD line) p
  else sum ((e.symbols.filter (fun x => decide (position x.1.val = p))).map (fun x => x.2.toNat))

/-- The word of differences. -/
def errorWord (e : LineErrors) (line : Nat) : List Nat := (List.range 77).map (errorAt e line)

/-- The eight syndromes of a word, at the roots α^0 to α^7. -/
def syndromes (w : List Nat) : List Nat :=
  (List.range 8).map (fun j => sum ((List.range w.length).map (fun p => mul (coef w p) (alpha (j * (76 - p) % 255)))))

/-- One more step of the search for the shortest recurrence of the syndromes (Berlekamp and Massey): the recurrence, the
one before its last change of length, its length, the steps since, the discrepancy then. -/
structure Search where
  c : List Nat
  b : List Nat
  len : Nat
  gap : Nat
  d : Nat
deriving DecidableEq, Repr

def addShifted (c b : List Nat) (k f : Nat) : List Nat :=
  (List.range (max c.length (b.length + k))).map (fun i => coef c i ^^^ (if i < k then 0 else mul f (coef b (i - k))))

def searchStep (s : List Nat) (x : Search) (n : Nat) : Search :=
  let d := sum ((List.range (x.len + 1)).map (fun i => mul (coef x.c i) (coef s (n - i))))
  if d = 0 then { x with gap := x.gap + 1 }
  else
    let c := addShifted x.c x.b x.gap (mul d (inv x.d))
    if 2 * x.len ≤ n then { c := c, b := x.c, len := n + 1 - x.len, gap := 1, d := d }
    else { x with c := c, gap := x.gap + 1 }

def search (s : List Nat) : Search := (List.range 8).foldl (searchStep s) { c := [1], b := [1], len := 0, gap := 1, d := 1 }

/-- The positions at which a locator polynomial vanishes. -/
def roots (c : List Nat) : List Nat := (List.range 77).filter (fun p => decide (eval c (inv (locator p)) = 0))

/-- The error value at a located position (Forney, for a first root α^0). -/
def value (s c : List Nat) (p : Nat) : Nat :=
  let x := locator p
  let omega := (List.range 8).map (fun k => sum ((List.range (k + 1)).map (fun i => mul (coef c i) (coef s (k - i)))))
  let deriv := (List.range c.length).map (fun i => if i % 2 = 0 then coef c (i + 1) else 0)
  mul (mul x (eval omega (inv x))) (inv (eval deriv (inv x)))

/-- What the decoder makes of a line: no error seen, errors corrected, or uncorrectable. -/
inductive Verdict where
  | clean
  | corrected (found : List (Nat × Nat))
  | uncorrectable
deriving DecidableEq, Repr

/-- The word of the errors found. -/
def foundWord (found : List (Nat × Nat)) : List Nat :=
  (List.range 77).map (fun p => sum ((found.filter (fun y => decide (y.1 = p))).map Prod.snd))

/-- The decoder: up to four erroneous symbols are corrected; an error located in an address symbol, or more than four,
is uncorrectable. The values found must give the syndromes back. -/
def decode (word : List Nat) : Verdict :=
  let s := syndromes word
  if s.all (fun x => decide (x = 0)) then .clean
  else
    let x := search s
    let ps := roots x.c
    let found := ps.map (fun p => (p, value s x.c p))
    if 4 < x.len ∨ ps.length ≠ x.len ∨ ps.any isAddress ∨ syndromes (foundWord found) ≠ s then .uncorrectable
    else .corrected found

/-- The errors a verdict takes away. -/
def Verdict.found : Verdict → List (Nat × Nat)
  | .corrected f => f
  | _ => []

/-- What remains wrong at a position after the decoder: nothing, unless the word received lies near another codeword. -/
def residue (e : LineErrors) (line : Nat) (v : Verdict) (p : Nat) : Nat := errorAt e line p ^^^ coef (foundWord v.found) p

/-- How a read of a line ends (R300, R301): clean, corrected, uncorrectable, or miscorrected without report, with what is
wrong in each data byte. -/
inductive Ending where
  | clean
  | corrected
  | uncorrectable
  | missed (wrong : List Nat)
deriving DecidableEq, Repr

/-- The ending of a read of the line `line`. A line of a wrong row or column is uncorrectable (R300): up to four differing
address bytes are located as errors of the address, and no line index is taken for another. -/
def judge (e : LineErrors) (line : Nat) : Ending :=
  let v := decode (errorWord e line)
  if v = .uncorrectable ∨ e.returned.getD line ≠ line then .uncorrectable
  else if (List.range 77).any (fun p => decide (residue e line v p ≠ 0)) then .missed ((List.range 64).map (residue e line v))
  else if v = .clean then .clean else .corrected

end Sys2Proof.Machine.Rs
end

