-- ==== Sys2Proof/Machine/Streams.lean ====
section
/-!
DEFINITION. Schedule time, array hold and the step boundary (R207 to R223, R228, R231, R232, R365).
-/
namespace Sys2Proof.Machine

/-! ### Tiles and their slots (R211, R215, R216) -/

/-- The tile whose deadline is a schedule cycle. -/
def DsRun.dueTile (d : DsRun) (sc : Nat) : Option Nat :=
  if ! d.bad && decide (0 < d.period) && decide (d.first ≤ sc) && decide ((sc - d.first) % d.period = 0) &&
      decide ((sc - d.first) / d.period < d.tiles) then some ((sc - d.first) / d.period)
  else none

/-- Is the slot of a tile ready (R216, R222)? -/
def DsRun.slotReady (d : DsRun) (u : Nat) : Bool :=
  d.released || (if d.drain then decide (u < d.slots) || d.ready.contains (u - d.slots) else d.done.contains u)

/-- The tile whose completion a hold for tile `u` awaits (R220). -/
def DsRun.judged (d : DsRun) (u : Nat) : Nat := if d.drain then u - d.slots else u

/-- The fill number of a tile, and the address of its slot's generation word (R215). -/
def DsRun.fillNumber (d : DsRun) (t : Nat) : Nat := t / d.slots + 1
def DsRun.genAddr (d : DsRun) (t : Nat) : Nat := scratchBase + d.gen + 8 * (t % d.slots)

/-- Is a schedule step running (R207)? -/
def State.running (s : State) : Bool := s.bit R.strRun 31

/-- The lowest-numbered stream that asserts hold at the present schedule cycle, with the tile that is due (R216). -/
def State.streamHolding (s : State) : Option (Fin 256 × DsRun × Nat) :=
  s.enabledStreams.findSome? (fun x => match x.2.dueTile s.sc with
    | none => none
    | some u => if x.2.slotReady u then none else some (x.1, x.2, u))

/-! ### Layer barriers (R223) -/

/-- Does an element of a drain task's source have a byte in a tile? -/
def State.elemInTile (s : State) (t : Task) (v : View) (i k : Nat) : Bool :=
  decide (s.tileAt t.drainBind (v.bitsAt s.node k).1 = some i) ||
    (isMx v.fmt && decide (s.tileAt t.drainBind (v.scaleAt s.node k) = some i))

/-- The outputs of a drain task that are formed from a tile. -/
def State.outputsOfTile (s : State) (t : Task) (i : Nat) : List Nat :=
  match sourceView t.entry with
  | none => []
  | some v =>
    let u := t.finalTensor s.node
    (List.range u.count).filter (fun x => (u.deps x).any (fun p => match t.sourceElem p with
      | some k => s.elemInTile t v i k
      | none => false))

/-- Is every write of a drain tile's data acknowledged; a host write by the flushing read of R90? -/
def State.tileWritten (s : State) (t : Task) (i : Nat) : Bool :=
  if t.phase = .running then
    let outs := s.outputsOfTile t i
    let u := t.finalTensor s.node
    outs.all (fun x => decide (x < t.emitted.length)) &&
      (decide (t.hostLast = none) || t.flushed) &&
      ((entryCompress t.entry).isNone || (t.ingotsBuilt && decide (t.pendingW = []))) &&
      outs.all (fun x => (t.outputCells s.node u.dims x 0).all (fun c =>
        t.pendingW.all (fun w => w.cells.all (fun z => decide (z.addr ≠ c.addr)))))
  else decide (t.pendingW = [])

/-- Does a binding carry a tile of a stream? -/
def carries (b : Option Binding) (n i : Nat) : Bool :=
  match b with
  | none => false
  | some b => decide (b.stream = n) && decide (b.first ≤ i) && decide (i < b.first + b.count)

/-- Has a drain tile been read out, with its data's writes acknowledged? -/
def State.tileDrained (s : State) (n : Nat) (d : DsRun) (i : Nat) : Bool :=
  d.ready.contains i && s.tasks.all (fun t => ! carries t.drainBind n i || s.tileWritten t i)

/-- The lowest-numbered drain stream whose tile a barrier at the present schedule cycle awaits. -/
def State.barrierHolding (s : State) : Option (Fin 256) :=
  if ! s.barriers.contains s.sc then none
  else s.enabledStreams.findSome? (fun x =>
    if x.2.drain && ! x.2.bad && ! x.2.released &&
        (List.range (min x.2.tiles (s.sc + 1))).any (fun i => decide (x.2.windowEnd i ≤ s.sc) && ! s.tileDrained x.1 x.2 i)
    then some x.1 else none)

/-! ### Array hold (R216, R217, R220) -/

/-- The cause of a hold by a stream, as it stands in the held cycle; none where it is decided later. -/
def State.holdCause (s : State) (n : Nat) (d : DsRun) (u : Nat) : Option Nat :=
  let j := d.judged u
  let ts := s.tasks.filter (fun t => carries (if d.drain then t.drainBind else t.fillBind) n j)
  if s.streamFailed n then some 10
  else if d.ready.contains j then none
  else if ts = [] then some 1
  else if ts.all (fun t => decide (t.phase ≠ .running ∧ t.tDispatch = 0 ∧ t.engine = none)) then some 2
  else none

/-- STR_HOLD given its contents. -/
def State.setHold (s : State) (held : Bool) (cause stream : Nat) : State :=
  s.setReg R.strHold (BitVec.ofNat 32 (boolBit held * 2 ^ 31 + cause * 2 ^ 24 + stream))

/-- Is hold asserted? -/
def State.held (s : State) : Bool := s.bit R.strHold 31

/-- Hold at the start of an array cycle: asserted for a tile that is due and not ready, or for a barrier (R216, R223). -/
def State.assessHold (s : State) : State :=
  let on (u : State) : State := if s.held then u else { u with holdLen := 1, holdReported := false }
  if ! s.running then { (s.setHold false 0 0) with holdLen := 0, holdReported := false }
  else match s.streamHolding, s.barrierHolding with
    | some (n, d, u), _ => on (s.setHold true ((s.holdCause n d u).getD 3) n)
    | none, some n => on (s.setHold true 9 n)
    | none, none => { (s.setHold false 0 0) with holdLen := 0, holdReported := false }

/-- R221: the hold has lasted STR_HOLD_LIMIT array cycles. The stream of the array cycle is recorded in it. -/
def reportLongHold (s : State) : State :=
  let limit := (s.reg R.strHoldLimit).toNat
  if s.held && decide (0 < limit) && decide (limit ≤ s.holdLen) && ! s.holdReported then
    let n := s.fld R.strHold 0 8
    let s1 := if s.bit R.strHoldLong 31 then s
      else (s.setReg R.strHoldLong (BitVec.ofNat 32 (2 ^ 31 + n))).noteSet R.strHoldLong 0x80000000
    { (s1.mcEvent 2 n 0 none 0) with holdReported := true }
  else s

def execHoldLimitReached (s : State) : Result := .next (reportLongHold s)

/-- The tile that a hold by a stream awaits at the present schedule cycle (R220). -/
def State.judgedTile (s : State) (n : Nat) : Nat :=
  match s.stream n with
  | none => 0
  | some d => d.judged ((d.dueTile s.sc).getD 0)

/-- A held array cycle whose cause is decided later (R220). -/
def State.deferHold (s : State) (n j : Nat) : State :=
  let rest := s.deferred.filter (fun x => decide (x.stream ≠ n ∨ x.tile ≠ j))
  let old := ((s.deferred.find? (fun x => decide (x.stream = n ∧ x.tile = j))).map Deferred.cycles).getD 0
  { s with deferred := rest ++ [{ stream := n, tile := j, cycles := old + 1 }] }

/-- The held array cycle is counted under the cause it was given at its start, or kept until its cause is decided: code 3
shows in STR_HOLD meanwhile (R220, R365). -/
def State.countHeldCycle (s : State) : State :=
  let c := s.fld R.strHold 24 4
  let n := s.fld R.strHold 0 8
  if c = 3 then s.deferHold n (s.judgedTile n) else s.countHold c 1

/-- The end of an array cycle of the step: the schedule counter advances unless hold is asserted; with the step-end strobe
in it, the step ends (R207). -/
def State.endArrayCycle (s : State) : State :=
  if ! s.running then s
  else
    let s1 := if s.held then s.countHeldCycle
      else (if s.barriers.contains s.sc then s.setFld R.strBarriers 8 8 (s.fld R.strBarriers 8 8 + 1) else s).setReg64 R.strScLo
        ((s.sc + 1) % 2 ^ 48)
    let s2 := s1.resolveHolds
    if s2.stepEnding then { (s2.setBit R.strRun 31 false) with stepEnding := false, stepEndSeen := true } else s2

/-- The start of the next array cycle: the one time hold is asserted or released (R216). -/
def State.startArrayCycle (s : State) : State :=
  let s1 := s.assessHold
  reportLongHold (if s.held && s1.held then { s1 with holdLen := s.holdLen + 1 } else s1)

/-- Hold asserted in the array cycle it falls due in; a hold that stands is released at the start of an array cycle
only (R216). -/
def State.assertHold (s : State) : State := if s.held then s else reportLongHold s.assessHold

/-- A tile falls due and its slot is not ready: hold is asserted (R216). -/
def tileDeadline (n tile : Nat) (s : State) : State :=
  match s.stream n with
  | none => s
  | some d => if s.running && decide (d.dueTile s.sc = some tile) && ! d.slotReady tile then s.assertHold else s

def execTileDeadline (n : Fin 256) (tile : Nat) (s : State) : Result := .next (tileDeadline n tile s)

/-- A barrier cycle is reached with a drain tile not read out: hold is asserted (R223). -/
def barrierCycle (s : State) : State := if s.running && s.barriers.contains s.sc then s.assertHold else s

def execBarrierCycle (s : State) : Result := .next (barrierCycle s)

/-! ### The strobes (R207) -/

/-- A step-start strobe. -/
def stepStart (s : State) : State :=
  if s.boundaryFresh && ! s.running then
    reportLongHold ({ (s.setBit R.strRun 31 true) with boundaryFresh := false } : State).assessHold
  else s.hwSet R.strRun 30

def execStepStartStrobe (s : State) : Result := .next (stepStart s)

/-- A step-end strobe: the array cycle that carries it is the step's last. -/
def stepEnd (s : State) : State := if s.running then { s with stepEnding := true } else s.hwSet R.strRun 30

def execStepEndStrobe (s : State) : Result := .next (stepEnd s)

/-! ### Generation words (R215) -/

/-- The tile whose generation word is written next. -/
def DsRun.nextGen (d : DsRun) : Option Nat :=
  (d.ready.filter (fun i => ! d.genIssued.contains i && ! d.voided.contains i)).foldl
    (fun m i => match m with | none => some i | some j => some (min i j)) none

/-- The generation word of a tile: STEP_NO and the fill number. -/
def State.genWord (s : State) (d : DsRun) (t : Nat) : Nat := (s.reg R.strStep).toNat * 2 ^ 32 + d.fillNumber t % 2 ^ 32

/-- A generation word is written, under context 0. -/
def writeGeneration (n : Nat) (s : State) : State :=
  match s.stream n with
  | none => s
  | some d => match d.nextGen with
    | none => s
    | some t => (s.writeMem (d.genAddr t) (leBytes 8 (s.genWord d t))).putStream n { d with genIssued := d.genIssued ++ [t] }

def execGenerationWordWrite (n : Fin 256) (s : State) : Result := .next (writeGeneration n s)

/-- Tiles complete from tile 0 without gaps. -/
def doneFrom (done : List Nat) : Nat → Nat → Nat
  | 0, i => i
  | f + 1, i => if done.contains i then doneFrom done f (i + 1) else i

/-- The oldest generation-word write outstanding is acknowledged: its tile is complete. -/
def completeTile (n : Nat) (s : State) : State :=
  match s.stream n with
  | none => s
  | some d => match d.genIssued.find? (fun i => ! d.done.contains i) with
    | none => s
    | some t =>
      let d1 := { d with done := d.done ++ [t] }
      ((s.putStream n d1).setReg (R.dsDone n) (BitVec.ofNat 32 (doneFrom d1.done d1.done.length 0))).resolveHolds

def execTileComplete (n : Fin 256) (s : State) : Result := .next (completeTile n s)

/-! ### RELEASE_FAILED, credits (R222, R228) -/

/-- STR_HOLD_CTL.RELEASE_FAILED releases every stream that is FAILED now. -/
def releaseFailed (value : Word) (s : State) : State :=
  if getField value 0 1 = 0 then s
  else s.enabledStreams.foldl (fun u x => if s.streamFailed x.1 then u.putStream x.1 { x.2 with released := true } else u) s

def execReleaseFailed (src : Requester) (value : Word) (s : State) : Result :=
  s.regWrite src R.strHoldCtl value (releaseFailed value)

/-- Credits added, saturating. -/
def addCredits (n : Nat) (value : Word) (s : State) : State :=
  let v := (s.reg (R.crdVal n)).toNat + value.toNat
  if v < 2 ^ 32 then s.setReg (R.crdVal n) (BitVec.ofNat 32 v)
  else (s.setReg (R.crdVal n) 0xFFFFFFFF).hwSet (R.crdStatus n) 31

def execCrdAddWrite (src : Requester) (n : Fin 64) (value : Word) (s : State) : Result :=
  s.regWrite src (R.crdAdd n) value (addCredits n value)

def execCrdValWrite (src : Requester) (n : Fin 64) (value : Word) (s : State) : Result :=
  s.regWrite src (R.crdVal n) value (fun u => u.setReg (R.crdVal n) value)

/-! ### The step boundary (R209, R210, R232) -/

/-- A stream from its staged copy. -/
def State.stagedStream (s : State) (n : Nat) : DsRun :=
  { drain := s.bit (R.dsCfg n) 30, barrier := s.bit (R.dsCfg n) 29, lead := s.fld (R.dsCfg n) 24 4 + 1,
    tileBytes := (s.fld (R.dsCfg n) 16 8 + 1) * 4096, queue := s.fld (R.dsCfg n) 0 10, ring := (s.reg (R.dsRing n)).toNat,
    gen := (s.reg (R.dsGen n)).toNat, first := s.reg64 (R.dsFirstLo n) % 2 ^ 48, period := (s.reg (R.dsPeriod n)).toNat,
    use := (s.reg (R.dsUse n)).toNat, tiles := (s.reg (R.dsTiles n)).toNat, bad := false, released := false, ready := [],
    genIssued := [], voided := [], done := [], lastMarks := [] }

/-- The bytes of the banks 0 to 191. -/
def scratchBytes : Nat := 192 * 2 ^ 21

/-- Do two streams' rings or generation words overlap? -/
def DsRun.clashes (a b : DsRun) : Bool :=
  overlaps a.ring a.ringLen b.ring b.ringLen || overlaps a.ring a.ringLen b.gen b.genLen ||
    overlaps a.gen a.genLen b.ring b.ringLen || overlaps a.gen a.genLen b.gen b.genLen

/-- Is a stream BAD beside the other enabled streams (R210)? -/
def DsRun.isBad (d : DsRun) (others : List DsRun) : Bool :=
  decide (d.period = 0 ∨ d.period = 0xFFFFFFFF ∨ d.use = 0 ∨ d.use = 0xFFFFFFFF ∨ d.lead * d.period < d.use ∨ d.tiles = 0xFFFFFFFF) ||
    decide (scratchBytes < d.ring + d.ringLen ∨ scratchBytes < d.gen + d.genLen) ||
    overlaps d.ring d.ringLen d.gen d.genLen || others.any d.clashes

/-- The enabled streams of the staged table, validated. -/
def State.stagedStreams (s : State) : List (Nat × DsRun) :=
  let en := ((List.range 256).filter (fun n => s.bit (R.dsCfg n) 31)).map (fun n => (n, s.stagedStream n))
  en.map (fun x => (x.1, { x.2 with bad := x.2.isBad ((en.filter (fun y => decide (y.1 ≠ x.1))).map Prod.snd) }))

/-- The delivery-stream table becomes active. -/
def State.activateStreams (s : State) : State :=
  let l := s.stagedStreams
  let s1 := (List.range 256).foldl (fun u n =>
    ((u.setReg (R.dsNext n) 0).setReg (R.dsDone n) 0).setReg (R.dsState n)
      (BitVec.ofNat 32 (2 ^ 31 * boolBit (l.any (fun x => decide (x.1 = n) && x.2.bad))))) s
  let s2 := (List.range 8).foldl (fun u k =>
    (u.setReg (R.strBad k) (BitVec.ofNat 32 (bitsOfList 32 (fun j => l.any (fun x => decide (x.1 = 32 * k + j) && x.2.bad))))).setReg
      (R.strFailed k) 0) s1
  { s2 with ds := l.map (fun x => (x.1, some x.2)) }

/-- The hold counters of a step that has ended are kept. -/
def State.keepCounts (s : State) (step : Word) : State :=
  let s2 := (List.range 16).foldl (fun u c =>
    (u.setReg64 (R.holdLastLo c) (s.reg64 (R.holdCurLo c))).setReg64 (R.holdCurLo c) 0) s
  s2.setReg R.holdLastStep step

/-- The hold counters of the step that ends are kept, at the first array-cycle boundary (R365): at once in the first core cycle of
an array cycle, else as the array cycle ends. An array cycle of the step that is held counts in it. -/
def State.closeHolds (s : State) : State :=
  let s0 := if s.running && s.held then s.countHeldCycle else s
  let s1 := s0.resolveWhere (fun _ => true)
  if s.halfCycle then { s1 with holdClose := some (s.reg R.strStep) } else s1.keepCounts (s.reg R.strStep)

/-- The array cycle in which a step has been closed ends. -/
def State.keepHolds (s : State) : State :=
  match s.holdClose with
  | none => s
  | some n => ({ s with holdClose := none } : State).keepCounts n

/-- The configuration epoch is applied, with the registers that wait for a boundary (R170, R229, R341). -/
def State.applyEpoch (s : State) : State :=
  let s1 := (List.range 12).foldl (fun u i => u.setReg (R.epochApplied i) (s.reg R.epochStaged)) s
  (s1.setReg R.strSessionActive (s.reg R.strSessionCfg)).setReg R.rdArrivalActive (s.reg R.rdArrivalCfg)

/-- The step boundary, step 4 of R232. -/
def State.boundary (s : State) (t : Task) : State :=
  let s1 := s.closeHolds
  let s2 := (((s1.setReg64 R.strScLo 0).wrapAdd R.strStep 1).setBit R.strRun 31 false).setHold false 0 0
  let s3 := (s2.activateStreams.setReg R.strBarriers (BitVec.ofNat 32 (closeCount t.entry))).applyEpoch
  { s3 with barriers := closeBarriers t.entry, stepEnding := false, stepEndSeen := false, boundaryFresh := true, holdLen := 0,
            holdReported := false, closing := some (t.ref, true) }

/-- The STEP_CLOSE that has been dispatched. -/
def State.runningClose (s : State) : Option Task :=
  s.tasks.find? (fun t => decide (entryOpcode t.entry = 0x0B) && decide (t.phase = .running))

/-- May the boundary of a STEP_CLOSE be applied: every task ranked before it has its record, and the step-end strobe has
been seen where it waits for one? -/
def State.boundaryDue (s : State) (t : Task) : Bool :=
  decide (s.closing = none) && s.tasks.all (fun u => ! olderThan u t || decide (u.phase = .journal)) &&
    (! closeCores t.entry || s.stepEndSeen)

/-- The step boundary is applied. -/
def applyBoundary (s : State) : State :=
  match s.runningClose with
  | none => s
  | some t => if s.boundaryDue t then s.boundary t else s

def execStepBoundaryApply (s : State) : Result := .next (applyBoundary s)

/-- A reply to a packet (R331). -/
def Packet.answer (p : Packet) (st : Status) (last : Bool) (result : List Byte) : Reply :=
  { cmdId := BitVec.ofNat 32 (uintAt p.bytes 4 4), status := st, opcode := BitVec.ofNat 8 (byteAt p.bytes 0), last := last,
    index := p.index, result := result, waits := [] }

/-- The final reply of EPOCH_SET is ready once its epoch is in force on every unit (R341). -/
def State.epochReply (s : State) : State :=
  match s.mq.epoch with
  | none => s
  | some p =>
    if s.reg R.epochStaged = s.reg (R.epochApplied 0) then
      { s with mq := { s.mq with epoch := none, replies := s.mq.replies ++ [p.answer St.success true (leBytes 4 (s.reg R.epochStaged).toNat ++ leBytes 4 (s.reg R.strStep).toNat)] } }
    else s

/-- Every unit reports the epoch: the STEP_CLOSE is finished; with a BAD stream it completes with 0x9002 DELIVERY
(R210). -/
def completeClose (s : State) : State :=
  match s.runningClose, s.closing with
  | some t, some (r, true) =>
    if t.ref = r then
      let st := if s.enabledStreams.any (fun x => x.2.bad) then St.delivery else St.success
      { (s.epochReply.putTask { t with phase := .finished, status := st, bytes := 0, digest := 0 }) with closing := none }
    else s
  | _, _ => s

def execStepCloseComplete (s : State) : Result := .next (completeClose s)

end Sys2Proof.Machine
end

