-- ==== Sys2Proof/Machine/Service.lean ====
section
/-!
DEFINITION. Service and repair: the repair record (R395 to R399), fabric lanes (R404 to R407), the spare control-core
pair (R408, R409), tier-A row reports (R397), and the readying of management replies (R326, R331) that a record write
releases.
-/
namespace Sys2Proof.Machine

/-! ### Replies (R326, R331) -/

/-- A reply to a packet becomes ready. A packet that lost its pair gets none (R409). -/
def State.reply (s : State) (p : Packet) (st : Status) (last : Bool) (result : List Byte) : State :=
  if p.bytes = [] then s else { s with mq := { s.mq with replies := s.mq.replies ++ [p.answer st last result] } }

/-- Is Zuqueco running: its pair has not halted (R12, R382)? -/
def State.cpRuns (s : State) : Bool := decide (s.fld R.mqState 30 2 ≠ 2)

/-! ### The repair record (R395, R398) -/

/-- Serial-number order modulo 2^32: does `a` come after `b`? -/
def seqLater (a b : Word) : Bool := decide (a ≠ b) && decide ((a - b).toNat < 2 ^ 31)

/-- The copy that is in use: its number and content; none where neither is valid (R395). -/
def pickRecord (c0 c1 : Option RepairRecord) : Option (Bool × RepairRecord) :=
  match c0, c1 with
  | some a, some b => if seqLater b.seq a.seq then some (true, b) else some (false, a)
  | some a, none => some (false, a)
  | none, some b => some (true, b)
  | none, none => none

/-- A record write starts: the content in force, with SEQ + 1, into the copy not in use. -/
def State.startRecordWrite (s : State) : State :=
  let s1 := s.setBit R.cpRecord 27 true
  { s1 with recordWrite := some { s.record with seq := s.record.seq + 1 }, recordDirty := false }

/-- A change of the record: it is written at once, or by the next write while one runs. -/
def State.changeRecord (s : State) (f : RepairRecord → RepairRecord) : State :=
  let s1 : State := { s with record := f s.record }
  if s.recordWrite.isSome then { s1 with recordDirty := true } else s1.startRecordWrite

/-- Do two records hold the same site bindings? -/
def sameSites (a b : RepairRecord) : Bool := decide (a.siteMap = b.siteMap) && decide (a.siteState = b.siteState)

/-- Do two records hold the same retirements? -/
def sameRetired (a b : RepairRecord) : Bool :=
  decide (a.engPos = b.engPos) && decide (a.engRetired = b.engRetired) && decide (a.compRetired = b.compRetired) &&
    decide (a.expRetired = b.expRetired)

/-- The final reply of an evacuation whose binding has been written (R345). -/
def State.releaseEvac (s : State) (r : RepairRecord) : State :=
  match s.mq.evac with
  | none => s
  | some p =>
    if s.evac = none ∧ sameSites r s.record then
      ({ s with mq := { s.mq with evac := none } } : State).reply p St.success true (leBytes 8 (s.reg64 R.tbEvacDoneLo))
    else s

/-- RESULT of ENGINE_RETIRE: the spare, or 0xFF, and the logical position (R344). -/
def retireResult (r : RetireRun) : List Byte := leBytes 1 (r.spare.getD 0xFF) ++ leBytes 1 (if r.kind = 0 then r.position else 0)

/-- The final reply of a persistent retirement that has been written (R344). -/
def State.releaseRetire (s : State) (r : RepairRecord) : State :=
  match s.mq.retire with
  | none => s
  | some x =>
    if x.drained ∧ x.persist ∧ sameRetired r s.record then
      ({ s with mq := { s.mq with retire := none } } : State).reply x.packet St.success true (retireResult x)
    else s

/-- The copy written: the one not in use, or copy 0 where no record is valid (R398, R399). -/
def State.recordTarget (s : State) : Bool := s.bit R.cpRecord 31 && ! s.bit R.cpRecord 28

/-- A copy's content in flash. -/
def State.putCopy (s : State) (copy : Bool) (r : Option RepairRecord) : State :=
  if copy then { s with flash1 := r } else { s with flash0 := r }

/-- A record write and its read-back end (R398). A copy whose read-back differs is not valid (log 17). -/
def recordWritten (ok : Bool) (s : State) : State :=
  match s.recordWrite with
  | none => s
  | some r =>
    let c := s.recordTarget
    let s1 : State := if ok then
        let a := ((s.putCopy c (some r)).setBit R.cpRecord 28 c).setBit R.cpRecord 31 true
        { (a.setReg R.cpRecordSeq r.seq) with record := { s.record with seq := r.seq } }
      else (s.putCopy c none).hwSet R.cpRecord 29
    let s2 := ({ s1 with recordWrite := none } : State).setBit R.cpRecord 27 false
    let s3 := (s2.releaseEvac r).releaseRetire r
    if s3.recordDirty then s3.startRecordWrite else s3

def execRepairRecordWriteDone (readBackOk : Bool) (s : State) : Result := .next (recordWritten readBackOk s)

/-- A row entry enters the record, unless the record holds that row already or is full (R396, R397). -/
def State.recordRow (s : State) (e : RowEntry) : State :=
  let same (x : RowEntry) : Bool := decide ({ x with state := e.state } = e)
  if s.record.rows.any same ∨ 4079 ≤ s.record.rows.length then s
  else s.changeRecord (fun r => { r with rows := r.rows ++ [e] })

/-- A stacked-memory controller reports a failing row: a pending entry (R397). -/
def rowReported (stack pc bank row : Nat) (s : State) : State :=
  if s.cpRuns then
    s.recordRow { kind := 0, unit := stack, state := 0, dev := pc, serial := 0, bank := bank, row := row % 2 ^ 18 }
  else s

def execTierARowReport (stack : Fin 8) (pseudoChannel bank row : Nat) (s : State) : Result :=
  .next (rowReported stack pseudoChannel bank row s)

/-! ### Fabric lanes (R405, R407) -/

/-- Where the four bits of a direction lie in FE_LANE_STATUS: spared, and the lane the spare replaces. -/
def laneField (dir : Nat) : Nat := if dir = 1 then 24 else 28

/-- Is a write of FE_LANE_CTL refused? -/
def State.laneRefused (s : State) (p dir lane : Nat) : Bool :=
  let m := s.fld (R.feLaneStatus p) (laneField dir) 4
  s.bit (R.feLaneStatus p) 0 || decide (5 ≤ lane) || (decide (lane < 4 ∧ 8 ≤ m) && decide (m ≠ 8 + lane)) ||
    decide (lane = 4 ∧ m < 8)

/-- A write of FE_LANE_CTL with REMAP = 1: the port leaves service and drains, or the write is discarded. The home of
FE_LANE_CTL holds the request and, in bits [6:3], the direction's map before it. -/
def writeLaneCtl (p : Nat) (value : Word) (s : State) : State :=
  let dir := getField value 30 1
  let st := R.feLaneStatus p
  if getField value 31 1 = 0 then s
  else if s.laneRefused p dir (getField value 0 3) then s.hwSet st 23
  else
    let s1 := (s.setBit st 0 true).setBit st 1 false
    let s2 := s1.setReg (R.feLaneCtl p) (putField (value &&& 0xE0000007) 3 4 (s.fld st (laneField dir) 4))
    { s2 with draining := if s.draining.contains p then s.draining else s.draining ++ [p] }

def execLaneRemap (src : Requester) (p : Fin 32) (value : Word) (s : State) : Result :=
  s.regWrite src (R.feLaneCtl p) value (writeLaneCtl p value)

def execLaneRestore (src : Requester) (p : Fin 32) (value : Word) (s : State) : Result :=
  s.regWrite src (R.feLaneCtl p) value (writeLaneCtl p value)

/-- The lane map entries of a port as its status reads. -/
def laneMapOf (m : Nat) : LaneMap := { spared := decide (8 ≤ m), lane := m % 8 }

/-- A lane map entry as its four status bits. -/
def laneBits (m : LaneMap) : Nat := boolBit m.spared * 8 + m.lane % 8

/-- Retraining ends (R405, R406). -/
def remapDone (p : Nat) (trained : Bool) (s : State) : State :=
  let st := R.feLaneStatus p
  let ctl := s.reg (R.feLaneCtl p)
  let dir := getField ctl 30 1
  if ! s.bit st 0 ∨ s.draining.contains p then s
  else if trained then
    let s1 := ((s.setBit st 0 false).setBit st 1 true).setReg (R.feLaneCtl p) 0
    let m := laneMapOf (s.fld st (laneField dir) 4)
    if getField ctl 29 1 = 1 then
      s1.changeRecord (fun r => if dir = 1 then { r with laneRx := r.laneRx.set p m } else { r with laneTx := r.laneTx.set p m })
    else s1
  else
    ((((s.setBit st 0 false).setBit st 1 false).hwSet st 22).setFld st (laneField dir) 4 (getField ctl 3 4)).setReg (R.feLaneCtl p) 0

def execLaneRemapDone (p : Fin 32) (trained : Bool) (s : State) : Result := .next (remapDone p trained s)

/-! ### The spare control-core pair (R408, R409) -/

/-- A write of CP_PAIR.SWITCH; the home of CP_PAIR holds the request while the pair boots. -/
def switchPair (value : Word) (s : State) : State :=
  if getField value 0 1 = 1 ∧ ! s.cpRuns ∧ ! s.bit R.cpPair 31 then s.setBit R.cpPair 0 true else s

def execCpPairSwitch (src : Requester) (value : Word) (s : State) : Result := s.regWrite src R.cpPair value (switchPair value)

/-- An evacuation is cancelled: the target is SPARE again, the site map is unchanged (R346, R409). -/
def State.cancelEvac (s : State) : State :=
  match s.evac with
  | none => s
  | some e =>
    let s1 := ((s.setFld (R.tbSiteStatus e.target) 29 3 2).setBit (R.tbSiteStatus e.target) 28 true).setFld (R.tbSiteStatus e.source) 29 3 1
    { (s1.setReg R.tbEvac 0) with evac := none }

/-- The image that boots: the one CP_BOOT names, or the other where its signature fails (R382). -/
def bootImage (boot : Bool) (aOk bOk : Bool) : Option Bool :=
  if boot then (if bOk then some true else if aOk then some false else none)
  else (if aOk then some false else if bOk then some true else none)

/-- A retirement in progress loses its command: it completes without PERSIST and without a reply. -/
def orphanRetire (r : RetireRun) : RetireRun := { r with packet := { r.packet with bytes := [] }, persist := false }

/-- The spare pair has booted: what the halted pair had in hand ends, the record names the new pair, and the queue pair
is disabled. DESIGN CHOICE (log 16): a TABLE_LOAD in progress when the pair halted is lost with its command, so that its
slot stays LOADING and the tasks that name it wait; R192, R193 and R409 do not say. -/
def sparePairBooted (aOk bOk : Bool) (s : State) : State :=
  if ! s.bit R.cpPair 0 then s
  else
    let s1 := (s.setBit R.cpPair 0 false).setBit R.cpPair 31 true
    match bootImage (s.bit R.cpBoot 0) aOk bOk with
    | none => s1.setBit R.pwStatus 28 true
    | some image =>
      let pair := ! s.bit R.mqState 29
      let s2 := (s1.cancelEvac.setReg R.mqState (BitVec.ofNat 32 (boolBit pair * 2 ^ 29 + boolBit image * 2 ^ 28))).setBit R.mqCfg 31 false
      let s3 := s2.setReg R.mqPending 0
      let s4 : State := { s3 with mq := { MqRun.empty with retire := s.mq.retire.map orphanRetire } }
      s4.changeRecord (fun r => { r with pair := boolBit pair })

def execSparePairReady (imageAOk imageBOk : Bool) (s : State) : Result := .next (sparePairBooted imageAOk imageBOk s)

/-! ### Lockstep (R12) -/

/-- The two control cores disagree: both stop, a machine-check event is raised, the queue pair halts. -/
def lockstepStop (s : State) : State :=
  (s.mcEvent 1 (s.fld R.mqState 29 1) 0 none 0).setFld R.mqState 30 2 2

def execLockstepDisagree (s : State) : Result := .next (if s.cpRuns then lockstepStop s else s)

end Sys2Proof.Machine
end

