-- ==== Sys2Proof/Machine/TierB.lean ====
section
/-!
DEFINITION. The state tier (R294 to R311): line reads and their code, scrub, refresh, row tracking, the evacuation copy,
SPD readout and the site checks.
-/
namespace Sys2Proof.Machine

/-! ### Sites (R294, R310) -/

/-- A site's STATE. -/
def State.siteState (s : State) (b : Nat) : Nat := s.fld (R.tbSiteStatus b) 29 3
def State.setSiteState (s : State) (b v : Nat) : State := s.setFld (R.tbSiteStatus b) 29 3 v

/-- The logical module a site serves or receives. -/
def State.moduleAt (s : State) (b : Nat) : Option Nat :=
  match s.evac with
  | some e => if e.target = b then some e.lm else (List.range 8).find? (fun m => decide (s.siteOf m = b))
  | none => (List.range 8).find? (fun m => decide (s.siteOf m = b))

/-! ### Row tracking (R306) -/

/-- A row reaches the threshold: it enters the row log, or is counted where the log is full. -/
def State.logRow (s : State) (b : Nat) (r : RowAddr) : State :=
  match (List.range 16).find? (fun i => ! s.bit (R.tbRow b i) 31) with
  | some i => s.setReg (R.tbRow b i) (BitVec.ofNat 32 (2 ^ 31 + r.dev % 32 * 2 ^ 25 + r.bank % 16 * 2 ^ 21 + r.row % 2 ^ 18))
  | none => s.bump (R.tbRowOverflow b) 1

/-- The corrected reads of a row so far. -/
def rowCount (l : List RowTrack) (r : RowAddr) : Nat :=
  match l.find? (fun t => decide (t.row = r)) with
  | some t => t.count
  | none => 0

/-- A corrected read is counted for its row; the row corrected least recently leaves a full table. -/
def State.trackRow (s : State) (b : Nat) (r : RowAddr) : State :=
  let x := s.site b
  let n := rowCount x.track r + 1
  let rest := x.track.filter (fun t => decide (t.row ≠ r))
  let s1 := s.putSite b { x with track := ({ row := r, count := n } :: rest).take 256 }
  if n = s.fld R.tbRowCfg 0 4 then s1.logRow b r else s1

/-! ### Line reads (R299 to R301) -/

/-- The bytes of a line with what the decoder has left wrong in them. DESIGN CHOICE (log 20): a miscorrected line is what memory
holds from then on; R300 says no more than that nothing is reported. -/
def State.putWrong (s : State) (a : Nat) (wrong : List Nat) : State :=
  s.writeMem a ((List.range 64).map (fun i => BitVec.ofNat 8 ((s.readByte (a + i)).toNat ^^^ wrong.getD i 0)))

/-- A read of the line at a local address by site `b`; `none` for an uncorrectable line. -/
def State.readLine (s : State) (b a : Nat) (e : LineErrors) (r : RowAddr) : Option State :=
  match Rs.judge e (moduleInternal a / 64) with
  | .uncorrectable => none
  | .clean => some s
  | .corrected => some ((s.bump (R.tbCe b) 1).trackRow b r)
  | .missed wrong => some (s.putWrong a wrong)

/-- Is a read one that its controller corrects, so that it carries the mark (R301)? -/
def isCorrected (e : LineErrors) (a : Nat) : Bool := decide (Rs.judge e (moduleInternal a / 64) = .corrected)

/-- The line of an address. -/
def lineOf (a : Nat) : Nat := a / 64 * 64

/-- The reads of a task, not answered yet, that cover a line of this chip's memory carry marks. -/
def State.markReads (s : State) (owner : Option TaskRef) (a : Nat) (corrected refreshed : Bool) : State :=
  let covers (i : Issued) : Bool := ! i.answered && s.readsOwn i && decide (i.req.addr % 2 ^ 48 / 64 ≤ a / 64) &&
    decide (a / 64 ≤ (i.req.addr % 2 ^ 48 + (i.req.len - 1)) / 64)
  match owner with
  | none => s
  | some t => s.modTask t (fun x => { x with issueQ := x.issueQ.map (fun i =>
      if covers i then { i with corrected := i.corrected || corrected, refreshed := i.refreshed || refreshed } else i) })

/-- The read of a line for a request, at the memory (R301). -/
def serveRequest (b a : Nat) (e : LineErrors) (r : RowAddr) (owner : Option TaskRef) (s : State) : State :=
  match s.readLine b (lineOf a) e r with
  | some t => t.markReads owner a (isCorrected e (lineOf a)) false
  | none =>
    let s1 := s.mcUncorrectable a St.uncorrectable owner
    match owner with
    | some t => s1.fail t St.uncorrectable
    | none => s1

/-! ### Refresh (R303) -/

/-- Is a bank of a site under refresh? -/
def State.bankBusy (s : State) (b bank : Nat) : Bool :=
  (s.site b).refreshing.any (fun x => decide (x.1 = bank) && decide (s.cycle < x.2))

/-- A read of a line goes to its bank: it is served there, or waits for a refresh to end, is counted in REFRESH_HIT and
carries the mark. -/
def State.atBank (s : State) (b : Nat) (h : HeldLine) (serve : State → State) : State :=
  if s.bankBusy b h.row.bank then
    let s1 := (s.bump (R.tbRefreshHit b) 1).putSite b { s.site b with held := (s.site b).held ++ [h] }
    (match h.use with
     | .request owner => s1.markReads owner h.addr false true
     | _ => s1)
  else serve s

/-- A read of the scrub or of the copy: while tier B does not serve it waits at the port group (R391). -/
def State.atSite (s : State) (b : Nat) (h : HeldLine) (serve : State → State) : State :=
  if h.accepted then s.atBank b h serve else s.putSite b { s.site b with held := (s.site b).held ++ [h] }

/-- A tier-B read (R301). -/
def readTierB (a : Nat) (e : LineErrors) (r : RowAddr) (owner : Option TaskRef) (s : State) : State :=
  let b := s.siteOf (moduleOf a)
  if regionOf a ≠ .tierB ∨ ! s.tbReady ∨ b = 0xF then s
  else s.atBank b { use := .request owner, accepted := true, addr := a, errors := e, row := r } (serveRequest b a e r owner)

def execTierBRead (addr : Nat) (errors : LineErrors) (row : RowAddr) (owner : Option TaskRef) (s : State) : Result :=
  .next (readTierB addr errors row owner s)

/-- Zuqueco copies a logged row into the repair record, by the module's serial number, and frees the entry (R306). -/
def copyRow (b n : Nat) (s : State) : State :=
  let v := s.reg (R.tbRow b n)
  if s.cpRuns ∧ getField v 31 1 = 1 then
    (s.setBit (R.tbRow b n) 31 false).recordRow
      { kind := 1, unit := b, state := 0, dev := getField v 25 5, serial := (s.site b).serial, bank := getField v 21 4,
        row := getField v 0 18 }
  else s

def execRowLogCopy (site : Fin 9) (n : Fin 16) (s : State) : Result := .next (copyRow site n s)

/-! ### Scrub and refresh (R302, R303) -/

/-- Does a site's controller scrub? -/
def State.scrubs (s : State) (b : Nat) : Bool :=
  decide (s.fld R.tbScrubCfg 0 8 ≠ 0) && decide (s.siteState b = 1 ∨ s.siteState b = 3 ∨ s.siteState b = 4)

/-- The next line of a site's scrub. -/
def State.nextScrub (s : State) (b : Nat) : State :=
  let x := s.site b
  s.putSite b { x with scrubLine := (x.scrubLine + 1) % 2 ^ 33 }

/-- The scrub's read of a line. The copy at an evacuation's target is not addressed, so its bytes are not the state's (log 20). -/
def serveScrub (b a : Nat) (e : LineErrors) (r : RowAddr) (s : State) : State :=
  match s.readLine b a e r with
  | some t => if s.siteState b = 4 then { t with mem := s.mem, now := { t.now with before := s.now.before } } else t
  | none => (s.tbUe a b true).mcEvent 5 b 0 none a

/-- May a site's controller issue its next scrub read: one at a time, and at most one in 1,024 controller cycles, which are
4,096 thirds of a core cycle (R24, R302)? -/
def State.scrubDue (s : State) (b : Nat) : Bool :=
  s.scrubs b && (s.site b).held.all (fun h => decide (h.use ≠ .scrub)) &&
    (s.site b).scrubAt.all (fun t => decide (4 * 1024 ≤ 3 * (s.cycle - t)))

/-- A scrub read. -/
def scrubLine (b : Nat) (e : LineErrors) (r : RowAddr) (s : State) : State :=
  match s.moduleAt b with
  | none => s
  | some m =>
    let x := s.site b
    let a := moduleAddress m (64 * x.scrubLine)
    if ! s.scrubDue b then s
    else (s.putSite b { x with scrubLine := (x.scrubLine + 1) % 2 ^ 33, scrubAt := some s.cycle }).atSite b
      { use := .scrub, accepted := s.tbReady, addr := a, errors := e, row := r } (serveScrub b a e r)

def execScrubRead (site : Fin 9) (errors : LineErrors) (row : RowAddr) (s : State) : Result :=
  .next (scrubLine site errors row s)

/-- Does a site's controller refresh its module: read at the last start and not in self-refresh? -/
def State.refreshes (s : State) (b : Nat) : Bool := decide (s.siteState b ≠ 0) && ! s.bit (R.tbSiteStatus b) 28

/-- Core cycles that a bank is under refresh: 336 controller cycles (R304). -/
def refreshCycles : Nat := 448

/-- A refresh runs: its bank is under refresh, and the rate last read applies. The writes that wait for it are counted; the
reads count themselves as they reach the bank. DESIGN CHOICE (log 20): a refresh takes the whole time R304 allows for it, and the
writes are an operand, since no rule says in which bank an address lies. -/
def refreshBank (b bank writes : Nat) (s : State) : State :=
  if s.refreshes b then
    let x := s.site b
    let busy := x.refreshing.filter (fun y => decide (s.cycle < y.2) && decide (y.1 ≠ bank)) ++ [(bank, s.cycle + refreshCycles)]
    (((s.bump (R.tbRefreshHit b) writes).setFld (R.tbSiteStatus b) 16 3 x.nextRate).putSite b { x with refreshing := busy })
  else s

def execRefreshDue (site : Fin 9) (bank writes : Nat) (s : State) : Result := .next (refreshBank site bank writes s)

/-- The refresh rate that the devices report: ×1, ×2 or ×4. It is read every 32 µs. -/
def pollRate (b rate : Nat) (s : State) : State :=
  if s.refreshes b && (s.site b).polledAt.all (fun t => decide (t + 32 * cyclesPerUs ≤ s.cycle)) then
    s.putSite b { s.site b with nextRate := rate, polledAt := some s.cycle }
  else s

def execRefreshRatePoll (site : Fin 9) (rate : Fin 3) (s : State) : Result := .next (pollRate site rate s)

/-! ### The evacuation copy (R308) -/

/-- Lines of a module: 512 GiB of 64 bytes. -/
def moduleLines : Nat := 2 ^ 33

/-- The last line has been copied: the map binds the module to the target, and the binding goes to the record (R345). -/
def State.rebind (s : State) (e : EvacRun) : State :=
  let s1 := ((s.setFld R.tbSiteMap (4 * e.lm) 4 e.target).setSiteState e.target 1).setSiteState e.source 6
  let s2 : State := { (s1.setReg R.tbEvac 0) with evac := none }
  s2.changeRecord (fun r => { r with siteMap := r.siteMap.set e.lm e.target,
                                     siteState := (r.siteState.set e.target 1).set e.source 6 })

/-- The running SITE_EVACUATE ends with a status (R345, R346). -/
def State.endEvac (s : State) (st : Status) : State :=
  match s.mq.evac with
  | none => s
  | some p => ({ s with mq := { s.mq with evac := none } } : State).reply p st true (leBytes 8 (s.reg64 R.tbEvacDoneLo))

/-- The copy's read of a line of the source, with its write to the target. -/
def serveCopy (a : Nat) (e : LineErrors) (r : RowAddr) (s : State) : State :=
  match s.evac with
  | none => s
  | some v => match s.readLine v.source a e r with
    | none =>
      let s1 := (s.tbUe a v.source false).mcEvent 4 v.source St.uncorrectable none a
      s1.cancelEvac.endEvac St.uncorrectable
    | some t =>
      let t1 := t.setReg64 R.tbEvacDoneLo (t.reg64 R.tbEvacDoneLo + 64)
      if v.line + 1 = moduleLines then t1.rebind v else { t1 with evac := some { v with line := v.line + 1 } }

/-- The copy goes on with its next line, once the one before it is through. -/
def copyLine (e : LineErrors) (r : RowAddr) (s : State) : State :=
  match s.evac with
  | none => s
  | some v =>
    let a := moduleAddress v.lm (64 * v.line)
    if (s.site v.source).held.any (fun h => decide (h.use = .copy)) then s
    else s.atSite v.source { use := .copy, accepted := s.tbReady, addr := a, errors := e, row := r } (serveCopy a e r)

def execEvacuationCopyLine (errors : LineErrors) (row : RowAddr) (s : State) : Result := .next (copyLine errors row s)

/-! ### The end of a refresh (R303) -/

/-- A line read that has waited is served; a copy's whose evacuation is over has nobody to serve. -/
def State.serveHeld (s : State) (b : Nat) (h : HeldLine) : State :=
  match h.use with
  | .request owner => serveRequest b h.addr h.errors h.row owner s
  | .scrub => serveScrub b h.addr h.errors h.row s
  | .copy => if s.evac.any (fun v => decide (h.addr = moduleAddress v.lm (64 * v.line))) then serveCopy h.addr h.errors h.row s else s

/-- May a waiting read go on: its bank is no longer under refresh, or tier B serves again? -/
def State.mayGo (s : State) (b : Nat) (h : HeldLine) : Bool := if h.accepted then ! s.bankBusy b h.row.bank else s.tbReady

/-- The waiting reads of a site that may go on, oldest first; one that has waited for tier B goes to its bank. -/
def State.endRefresh (s : State) (b : Nat) : State :=
  let x := s.site b
  (x.held.filter (s.mayGo b)).foldl (fun u h => if h.accepted then u.serveHeld b h else u.atBank b { h with accepted := true } (fun v => v.serveHeld b h))
    (s.putSite b { x with held := x.held.filter (fun h => ! s.mayGo b h) })

/-- Every site's refreshes that end, end. -/
def State.endRefreshes (s : State) : State := (List.range 9).foldl State.endRefresh s

/-! ### SPD (R296, R311) -/

/-- The first check that fails, of checks 1 to 5; 0 for none. -/
def spdCheck (r : SpdResult) : Nat :=
  if ! r.answered then 1 else if ! r.crcOk then 2 else if ! r.typeOk then 3 else if ! r.capacityOk then 4
  else if ! r.rateOk then 5 else 0

/-- The SPD image of a site: the first 1,024 bytes read. -/
def State.putImage (s : State) (b : Nat) (image : List Byte) : State :=
  (List.range 256).foldl (fun u i => u.setReg (R.spdImage b i) (BitVec.ofNat 32 (leNat ((fitBytes 1024 image).drop (4 * i) |>.take 4)))) s

/-- A site fails a check. -/
def State.siteFails (s : State) (b check : Nat) : State := (s.setFld (R.tbSiteStatus b) 0 8 check).setSiteState b 5

/-- A module whose serial number is not the record's: NEW is set, and the record's rows for the site go. The record in
force takes the serial as read, but that of a RETIRED site only when the site becomes SPARE (R403, log 20). -/
def State.newModule (s : State) (b serial : Nat) : State :=
  if s.record.serials.getD b 0 = serial then s.setBit (R.tbSiteStatus b) 27 false
  else
    let r := s.record
    let serials := if r.siteState.getD b 0 = 6 then r.serials else r.serials.set b serial
    { (s.setBit (R.tbSiteStatus b) 27 true) with
      record := { r with rows := r.rows.filter (fun x => decide (x.kind ≠ 1 ∨ x.unit ≠ b)), serials := serials } }

/-- A readout with its checks: the site keeps the state `st` where it passes. -/
def State.spdRead (s : State) (b st : Nat) (r : SpdResult) : State :=
  if ! r.answered then s.siteFails b 1
  else
    let s1 := ((s.putImage b r.image).newModule b (r.serial % 2 ^ 32)).putSite b { s.site b with serial := r.serial % 2 ^ 32 }
    if spdCheck r = 0 then (s1.setFld (R.tbSiteStatus b) 0 8 0).setSiteState b st else s1.siteFails b (spdCheck r)

/-- Is Zuqueco reading the SPDs of a start (R382, R380)? -/
def State.spdPhase (s : State) : Bool := decide (s.startup = .checks) || s.restoring

/-- Is a site's readout of this start still to come? -/
def State.spdDue (s : State) (b : Nat) : Bool := s.spdPhase && ! (s.site b).spdDone

/-- A site's hub has answered, or its time is over. -/
def State.endReadout (s : State) (b : Nat) : State := s.putSite b { s.site b with spdDone := true }

/-- The readout of a start: a site that passes takes the state of the repair record (R382, step 3). -/
def startSpd (b : Nat) (r : SpdResult) (s : State) : State :=
  if s.spdDue b then ((s.emit (.i3cRead b)).spdRead b (s.record.siteState.getD b 0) r).endReadout b else s

def execSpdReadout (site : Fin 9) (result : SpdResult) (s : State) : Result := .next (startSpd site result s)

/-- A site's hub has not answered for 1 ms, 1,600,000 core cycles. -/
def spdTimeout (b : Nat) (s : State) : State :=
  if s.spdDue b ∧ s.checksAt + 1000 * cyclesPerUs ≤ s.cycle then ((s.emit (.i3cRead b)).siteFails b 1).endReadout b else s

def execSpdResponseTimeout (site : Fin 9) (s : State) : Result := .next (spdTimeout site s)

end Sys2Proof.Machine
end

