-- ==== Sys2Proof/Machine/Command.lean ====
section
/-!
DEFINITION. The management queue pair (R324 to R333): its registers, packet reads, replies, and the general checks of a
packet.
-/
namespace Sys2Proof.Machine

/-! ### The pair's registers (R324, R329) -/

def State.mqEn (s : State) : Bool := s.bit R.mqCfg 31
/-- MQ_STATE.STATE: 0 disabled, 1 running, 2 halted, 3 error. -/
def State.mqMode (s : State) : Nat := s.fld R.mqState 30 2
def State.mqPackets (s : State) : Nat := 2 ^ (s.fld R.mqCfg 0 4 + 4)
def State.mqReplies (s : State) : Nat := 2 ^ (s.fld R.mqCfg 8 4 + 4)
def State.mqHead (s : State) : Nat := s.fld R.mqSqHead 0 16
def State.mqCqTail (s : State) : Nat := s.fld R.mqCqTail 0 16

/-- Is an interval wholly in tier A? -/
def inTierA (a len : Nat) : Bool := inTier a len && decide (regionOf a = .tierA)

/-- May the pair be enabled with the given sizes (R324, R383)? -/
def State.mqEnableOk (s : State) (sq cq : Nat) : Bool :=
  decide (sq ≤ 8) && decide (cq ≤ 8) && inTierA (s.reg64 R.mqSqBaseLo) (64 * 2 ^ (sq + 4)) &&
    inTierA (s.reg64 R.mqCqBaseLo) (32 * 2 ^ (cq + 4)) && ! (s.bit R.stStatus 31 && ! s.bit R.stStatus 30)

/-- The rings start: both empty, both phases 1. A halted pair stays halted (R328). -/
def State.mqStart (s : State) : State :=
  let s1 := ((s.setBit R.mqCfg 31 true).setReg R.mqSqHead 0x80000000).setReg R.mqCqTail 0x80000000
  let s2 := ((s1.setReg R.mqCqHead 0).setReg R.mqIndex 0).setFld R.mqState 0 16 0
  let s3 := if s.mqMode = 2 then s2 else s2.setFld R.mqState 30 2 1
  { s3 with mq := { s3.mq with readFirst := none, outstanding := false, tail := 0, cur := none, replies := [] } }

/-- The pair stops. -/
def State.mqStop (s : State) : State :=
  let s1 := s.setBit R.mqCfg 31 false
  let s2 := if s.mqMode = 2 then s1 else s1.setFld R.mqState 30 2 0
  { s2 with mq := { s2.mq with readFirst := none, outstanding := false, tail := 0 } }

/-- Is a command in progress, or any reply held, one to an unlisted opcode included (R328)? -/
def State.mqBusy (s : State) : Bool := decide (s.reg R.mqPending ≠ 0) || decide (s.mq.replies ≠ [])

/-- A write of MQ_CFG: an enable or its refusal (R324), a disable or its refusal (R328). -/
def writeMqCfg (value : Word) (s : State) : State :=
  let keeps (i : Nat) : Bool := s.bit R.mqCfg i && (decide (getField value i 1 = 0) || decide (getField (s.setNow R.mqCfg) i 1 = 1))
  let s1 := (s.setBit R.mqCfg 30 (keeps 30)).setBit R.mqCfg 29 (keeps 29)
  if s.mqEn then
    (if getField value 31 1 = 1 then s1
     else if s.mqBusy then s1.hwSet R.mqCfg 29
     else s1.mqStop)
  else
    let s2 := (s1.setFld R.mqCfg 0 4 (getField value 0 4)).setFld R.mqCfg 8 4 (getField value 8 4)
    if getField value 31 1 = 0 then s2
    else if s.mqEnableOk (getField value 0 4) (getField value 8 4) then s2.mqStart
    else s2.hwSet R.mqCfg 30

def execMqEnable (src : Requester) (value : Word) (s : State) : Result := s.regWrite src R.mqCfg value (writeMqCfg value)

def execMqDisable (src : Requester) (value : Word) (s : State) : Result :=
  s.regWrite src R.mqCfg value (fun t => writeMqCfg value t)

/-- The pair enters the error state (R325, R328). -/
def State.mqError (s : State) (st : Status) : State :=
  let s1 := (s.setFld R.mqState 30 2 3).setFld R.mqState 0 16 st.toNat
  { s1 with mq := { s1.mq with readFirst := none, outstanding := false } }

/-- A doorbell publishes packets, or puts the pair in error (R325). -/
def ringMqDoorbell (value : Word) (s : State) : State :=
  let n := s.mqPackets
  let new := getField value 0 16
  let adv := (new + n - s.mq.tail) % n
  let free := (s.mqHead + 2 * n - s.mq.tail - 1) % n + 1
  if ! s.mqEn ∨ s.mqMode = 0 ∨ s.mqMode = 2 then s
  else if n ≤ new ∨ free ≤ adv then (if s.mqMode = 3 then s else s.mqError St.length)
  else { s with mq := { s.mq with tail := new } }

def execMqDoorbell (src : Requester) (value : Word) (s : State) : Result :=
  s.regWrite src R.mqDoorbell value (ringMqDoorbell value)

/-- A write of MQ_CQ_HEAD frees replies; at or above the reply count it is discarded (R329). -/
def writeMqCqHead (value : Word) (s : State) : State :=
  if getField value 0 16 < s.mqReplies then s.setReg R.mqCqHead (BitVec.ofNat 32 (getField value 0 16)) else s

def execMqCqHeadWrite (src : Requester) (value : Word) (s : State) : Result :=
  s.regWrite src R.mqCqHead value (writeMqCqHead value)

/-! ### The general checks of a packet (R330, R332) -/

def pkOpcode (b : List Byte) : Nat := byteAt b 0
/-- A one-byte parameter, and its bits. -/
def pkBits (b : List Byte) (i lo n : Nat) : Nat := natField (byteAt b i) lo n
def pkNumber (b : List Byte) : Nat := uintAt b 10 2
def pkBase (b : List Byte) : Nat := uintAt b 24 8
def pkBuffer (b : List Byte) : Nat := uintAt b 16 8
def pkLen (b : List Byte) : Nat := uintAt b 24 4

/-- The bytes of a ring to be created: KIND in byte 8, SIZE in byte 9 (R49, R334). -/
def pkRingLen (b : List Byte) : Nat := (if pkBits b 8 0 1 = 0 then 64 else 32) * 2 ^ (pkBits b 9 0 4 + 6)
def pkHost (b : List Byte) : Bool := decide (pkBits b 14 0 1 = 1)

/-- Are the high 16 bits of an 8-byte address zero (R3)? -/
def local48 (b : List Byte) (i : Nat) : Bool := decide (uintAt b i 8 < 2 ^ 48)

/-- Check 2: the reserved bytes and bits of each command's packet, and its reserved values. -/
def pkReserved (b : List Byte) : Bool :=
  zeroBits b 1 0 7 && zeroAt b 2 2 &&
  (match pkOpcode b with
   | 0x81 => zeroBits b 8 1 7 && zeroBits b 9 4 4 && zeroBits b 13 4 4 && zeroBits b 14 1 7 && zeroAt b 17 3 && zeroBits b 22 4 4 &&
       zeroAt b 23 1 && zeroAt b 32 32 && (decide (pkBits b 8 0 1 = 0) || zeroAt b 15 2) &&
       (if pkHost b then true else zeroAt b 20 4 && local48 b 24)
   | 0x82 => zeroBits b 8 1 7 && zeroAt b 9 1 && zeroAt b 12 52
   | 0x83 => zeroBits b 8 2 6 && decide (pkBits b 8 0 2 ≠ 3) && zeroAt b 9 1 && (decide (pkBits b 8 0 2 ≠ 2) || zeroAt b 10 2) &&
       (decide (pkBits b 8 0 2 = 0) || zeroAt b 12 4) && zeroAt b 16 48
   | 0x84 => zeroBits b 8 2 6 && zeroAt b 9 1 && zeroAt b 12 4 && local48 b 16 && zeroAt b 24 40
   | 0x85 => zeroBits b 8 6 2 && zeroBits b 9 3 5 && zeroBits b 11 4 4 && local48 b 16 && local48 b 24 &&
       decide (uintAt b 16 8 % 4096 = 0) && decide (uintAt b 24 8 % 4096 = 0) && zeroAt b 32 32
   | 0x86 => zeroBits b 8 6 2 && zeroAt b 9 55
   | 0x87 => decide (uintAt b 8 4 ≠ 0xFFFFFFFF) && zeroAt b 12 52
   | 0x88 => zeroBits b 8 3 5 && zeroAt b 9 55
   | 0x89 => zeroBits b 8 2 6 && decide (pkBits b 8 0 2 ≠ 3) && zeroBits b 10 2 6 && zeroAt b 11 53
   | 0x8A => zeroBits b 8 3 5 && zeroBits b 9 4 4 && zeroBits b 10 1 7 && zeroAt b 11 53 &&
       (decide (pkBits b 10 0 1 = 0) || zeroAt b 8 2)
   | 0x8B => (decide (byteAt b 8 = 1 ∨ byteAt b 8 = 2) || zeroAt b 9 1 || decide (3 < byteAt b 8)) && zeroAt b 10 6 && local48 b 16 &&
       zeroAt b 28 36
   | 0x8C => zeroBits b 8 1 7 && zeroAt b 9 7 && zeroAt b 32 32
   | 0x8D => zeroBits b 8 1 7 && zeroBits b 9 1 7 && zeroAt b 10 54
   | 0x8E => zeroBits b 8 1 7 && zeroAt b 9 7 && local48 b 16 && zeroAt b 28 36
   | 0x8F => zeroBits b 9 1 7 && zeroBits b 10 1 7 && zeroAt b 11 53
   | _ => true)

/-- Check 3: direct count and length fields (R8). -/
def pkLengths (b : List Byte) : Bool :=
  match pkOpcode b with
  | 0x81 => decide (byteAt b 15 ≠ 0xFF)
  | 0x8B => decide (pkLen b ≠ 0xFFFFFFFF)
  | 0x8C => decide (pkLen b ≠ 0xFFFFFFFF)
  | 0x8E => decide (pkLen b ≠ 0xFFFFFFFF)
  | _ => true

/-- The number of a queue or of a ring is in range. -/
def pkNumberOk (b : List Byte) : Bool := decide (pkNumber b < if pkBits b 8 0 1 = 0 then 1024 else 256)

/-- Check 4: parameter values. -/
def pkRanges (b : List Byte) : Bool :=
  match pkOpcode b with
  | 0x81 => decide (pkBits b 9 0 4 ≤ 10) && pkNumberOk b && decide (byteAt b 15 ≤ 64)
  | 0x82 => pkNumberOk b
  | 0x83 => decide (pkNumber b < 1024)
  | 0x85 => decide (uintAt b 16 8 ≤ uintAt b 24 8)
  | 0x88 => decide (pkBits b 8 0 3 ≤ 4)
  | 0x89 => decide (byteAt b 9 < if pkBits b 8 0 2 = 0 then 68 else 26)
  | 0x8A => decide (pkBits b 9 0 4 ≤ 8)
  | 0x8B => decide (byteAt b 8 ≤ 3) && decide (byteAt b 9 < if byteAt b 8 = 2 then 9 else 8)
  | 0x8C => decide (pkLen b % 4096 = 0) && decide (4096 ≤ pkLen b) && decide (pkLen b ≤ 2 ^ 22)
  | _ => true

/-- Check 5: alignment. -/
def pkAligned (b : List Byte) : Bool :=
  match pkOpcode b with
  | 0x81 => decide (pkBase b % 4096 = 0)
  | 0x84 => decide (pkBuffer b % 64 = 0)
  | 0x8B => decide (pkBuffer b % 64 = 0)
  | 0x8C => decide (pkBuffer b % 4096 = 0)
  | 0x8E => decide (pkBuffer b % 64 = 0)
  | _ => true

/-- Is every byte of an interval mapped (R29)? Only the aperture range and the scratchpad are next to each other. -/
def allMapped (lo hi : Nat) : Bool :=
  decide (regionOf lo ≠ .unmapped) && decide (regionOf hi ≠ .unmapped) &&
    (decide (regionOf lo = regionOf hi) || (decide (regionOf lo = .aperture) && decide (regionOf hi = .scratch)))

/-- Check 6: where address ranges lie. -/
def pkPlaced (b : List Byte) : Bool :=
  match pkOpcode b with
  | 0x81 => pkHost b || inTier (pkBase b) (pkRingLen b)
  | 0x84 => inTier (pkBuffer b) 144
  | 0x85 => allMapped (uintAt b 16 8) (uintAt b 24 8 + 4095)
  | 0x8B => inTier (pkBuffer b) (pkLen b)
  | 0x8C => inTierA (pkBuffer b) (pkLen b)
  | 0x8E => inTier (pkBuffer b) (pkLen b)
  | _ => true

/-- The general checks in order; the first failure decides. -/
def packetCheck (b : List Byte) : Option Status :=
  firstFail [(decide (0x81 ≤ pkOpcode b) && decide (pkOpcode b ≤ 0x8F), St.opcode), (pkReserved b, St.reserved),
    (pkLengths b, St.length), (pkRanges b, St.overflow), (pkAligned b, St.align), (pkPlaced b, St.unmapped)]

/-! ### Reading a packet (R325, R326) -/

/-- Does Zuqueco read packets: running, awake, and with no reply and no short command in hand (R326, R327, R385)? -/
def State.mqReads (s : State) : Bool :=
  s.mqEn && decide (s.mqMode = 1) && ! s.bit R.mqState 27 && decide (s.power ≠ .retention) && decide (s.power ≠ .off) &&
    s.entering.isNone && decide (s.mq.replies = []) && s.mq.cur.isNone && s.mq.abort.isNone && s.mq.load.isNone &&
    s.mq.close.isNone

/-- A packet with its mark set: its index, its bit in MQ_PENDING, and the general checks; a packet that fails one gets
its final reply at once. -/
def State.takePacket (s : State) (b : List Byte) : State :=
  let p : Packet := { bytes := b, index := s.reg R.mqIndex }
  let h := s.mqHead + 1
  let phase := if h = s.mqPackets then ! s.bit R.mqSqHead 31 else s.bit R.mqSqHead 31
  let s1 := (s.setReg R.mqSqHead (BitVec.ofNat 32 (boolBit phase * 2 ^ 31 + h % s.mqPackets))).wrapAdd R.mqIndex 1
  let s2 : State := { s1 with mq := { s1.mq with readFirst := none, outstanding := false } }
  let s3 := if 0x81 ≤ pkOpcode b ∧ pkOpcode b ≤ 0x8F then s2.setBit R.mqPending (pkOpcode b - 0x80) true else s2
  match packetCheck b with
  | some st => s3.reply p st true []
  | none => { s3 with mq := { s3.mq with cur := some p } }

/-- The packet read returns: the packet is taken, or waits for its mark, or the memory turns the read away. -/
def readPacket (cond : MemCond) (s : State) : State :=
  if ! s.mqReads ∨ s.mqHead = s.mq.tail ∨ (s.mq.readFirst.isSome ∧ ! s.mq.outstanding) then s
  else
    let a := s.reg64 R.mqSqBaseLo + 64 * s.mqHead
    match s.memVerdict 0 .read a 64 cond with
    | some st => (s.memRefusal st a none).mqError st
    | none =>
      let b := s.seenMem a 64
      let s1 := s.noteCorrected a cond
      if natBit (byteAt b 1) 7 = s.bit R.mqSqHead 31 then s1.takePacket b
      else { s1 with mq := { s.mq with readFirst := some (s.mq.readFirst.getD s.cycle), outstanding := false,
                                       readLast := if s.mq.outstanding then s.mq.readLast else s.cycle } }

def execMqPacketRead (cond : MemCond) (s : State) : Result := .next (readPacket cond s)

/-- An unmarked packet is read again 64 core cycles after the previous read was issued. -/
def rereadPacket (s : State) : State :=
  if s.mqReads ∧ s.mq.readFirst.isSome ∧ ! s.mq.outstanding ∧ s.mq.readLast + 64 ≤ s.cycle then
    { s with mq := { s.mq with outstanding := true, readLast := s.cycle } }
  else s

def execMqPacketReread (s : State) : Result := .next (rereadPacket s)

/-- No marked packet by 3,200 core cycles after the first read. -/
def packetTimeout (s : State) : State :=
  match s.mq.readFirst with
  | some f => if s.mqMode = 1 ∧ f + 3200 ≤ s.cycle then s.mqError St.phase else s
  | none => s

def execMqMarkTimeout (s : State) : Result := .next (packetTimeout s)

/-! ### Writing a reply (R327, R331) -/

/-- The 32 bytes of a reply. RESULT is zero where the command gives none. -/
def replyBytes (r : Reply) (phase : Bool) : List Byte :=
  leBytes 4 r.cmdId.toNat ++ leBytes 2 r.status.toNat ++ [r.opcode] ++ leBytes 1 (boolBit phase + boolBit r.last * 2) ++
    leBytes 4 r.index.toNat ++ leBytes 4 0 ++ fitBytes 16 r.result

/-- Is a command of an opcode still in progress: one in hand, or one whose final reply is not yet written? -/
def State.opInProgress (s : State) (op : Nat) : Bool :=
  (match s.mq.cur with | some p => decide (pkOpcode p.bytes = op) | none => false) ||
    s.mq.replies.any (fun r => r.last && decide (r.opcode.toNat = op)) ||
    (decide (op = 0x83) && s.mq.abort.isSome) || (decide (op = 0x84) && s.mq.load.isSome) || (decide (op = 0x86) && s.mq.close.isSome) ||
    (decide (op = 0x87) && s.mq.epoch.isSome) ||
    (decide (op = 0x89) && (match s.mq.retire with | some r => decide (r.packet.bytes ≠ []) | none => false)) ||
    (decide (op = 0x8A) && s.mq.evac.isSome) || (decide (op = 0x8C) && s.mq.stage.isSome) || (decide (op = 0x8D) && s.mq.switch.isSome)

/-- An accepted POWER_SET has been answered: the state is entered now, but Idle-gated waits until the block is idle
(R343, R387, R388). -/
def powerOf (n : Nat) : PState :=
  match n with
  | 0 => .active
  | 1 => .idleGated
  | 2 => .bankHold
  | 3 => .retention
  | _ => .off

/-- Every module that has been read goes into self-refresh (R305). -/
def State.selfRefresh (s : State) : State :=
  (List.range 9).foldl (fun u b => if u.siteState b = 0 then u else u.setBit (R.tbSiteStatus b) 28 true) s

/-- Entry into a lower state begins (R387). The pads are latched but on the way to Idle-gated, whose tier B goes on
serving (R385, R390, log 20). -/
def State.beginEntry (s : State) (dest : PState) : State :=
  let s1 : State := { s with entering := some dest, powerAt := s.cycle, idleCycles := 0, mq := { s.mq with powerTo := none } }
  let s0 : State := { s1 with padExit := false, startup := if s1.startup = .continuing then .paused else s1.startup }
  let s2 := (s0.setBit R.pwStatus 31 true).setBit R.pwStatus 30 false
  if dest = .idleGated then s1 else if dest = .off then s2 else s2.selfRefresh

/-- Entry begins after POWER_SET's final reply. -/
def State.afterReply (s : State) (r : Reply) : State :=
  if r.opcode = 0x88 then
    (match s.mq.powerTo with
     | some n => if n = 1 then s else s.beginEntry (powerOf n)
     | none => s)
  else s

/-- ABORT's reply with the number of tasks in its scope whose records still wait for room (R337). -/
def State.countWaits (s : State) (r : Reply) : Reply :=
  if r.waits = [] then r
  else { r with result := r.result.take 4 ++ leBytes 4 (r.waits.countP (fun x => match s.task x with | none => false | some t => s.waitsRoom t)) }

/-- The first ready reply is written once the ring has room; its command ends with its final reply. -/
def writeReply (s : State) : State :=
  match s.mq.replies with
  | [] => s
  | r0 :: rest =>
    let r := s.countWaits r0
    let n := s.mqReplies
    let t := s.mqCqTail
    if ! s.mqEn ∨ s.mqMode = 2 ∨ (t + 1) % n = s.fld R.mqCqHead 0 16 then s
    else
      let phase := s.bit R.mqCqTail 31
      let s1 := s.writeMem (s.reg64 R.mqCqBaseLo + 32 * t) (replyBytes r phase)
      let next := if t + 1 = n then boolBit (! phase) * 2 ^ 31 else boolBit phase * 2 ^ 31 + (t + 1)
      let s2 : State := { (s1.setReg R.mqCqTail (BitVec.ofNat 32 next)) with mq := { s1.mq with replies := rest } }
      let op := r.opcode.toNat
      let s3 := if r.last ∧ 0x81 ≤ op ∧ op ≤ 0x8F ∧ ! s2.opInProgress op then s2.setBit R.mqPending (op - 0x80) false else s2
      (if s3.bit R.mqIrq 31 then s3.msix (s3.fld R.mqIrq 0 11) else s3).afterReply r

def execMqReplyWrite (s : State) : Result := .next (writeReply s)

end Sys2Proof.Machine
end

