-- ==== Sys2Proof/Machine/Manage.lean ====
section
/-!
DEFINITION. The management commands that act on queues, tables, windows, epochs, power, units and sites (R334 to R346,
R349). Each acts on the packet that Zuqueco has read; a row whose packet is not in hand changes nothing (log 16).
-/
namespace Sys2Proof.Machine

/-- The packet in hand, if it is of an opcode; it is taken out of hand. -/
def State.onPacket (s : State) (op : Nat) (f : Packet → State → State) : State :=
  match s.mq.cur with
  | none => s
  | some p => if s.cpRuns ∧ pkOpcode p.bytes = op then f p { s with mq := { s.mq with cur := none } } else s

/-- A packet whose buffer or image lies in tier B waits for it (R391). -/
def State.onBuffer (s : State) (op : Nat) (f : Packet → State → State) : State :=
  if s.tierBWaits (match s.mq.cur with | some p => pkBuffer p.bytes | none => 0) then s else s.onPacket op f

/-- A final reply, and an interim one. -/
def State.final (s : State) (p : Packet) (st : Status) (result : List Byte) : State := s.reply p st true result
def State.interim (s : State) (p : Packet) (result : List Byte) : State := s.reply p St.success false result

/-! ### Queues (R334, R335) -/

/-- Is a queue, or a ring, in existence? -/
def State.numberEnabled (s : State) (kind n : Nat) : Bool := if kind = 0 then s.bit (R.sqCfg n) 31 else s.bit (R.cqCfg n) 31

/-- The ranges of a host ring from its translations: none where a page is not present, or lacks its permission. The
outer `none` is a ring that the translations do not cover. -/
def ringRanges (lo hi : Nat) (write : Bool) : Nat → List Xlation → Option (Option (List XRange))
  | pos, [] => if hi ≤ pos then some (some []) else none
  | pos, x :: l =>
    let a := max lo pos
    let z := min hi (pos + x.len)
    if z ≤ a then ringRanges lo hi write (pos + x.len) l
    else if ! x.u && ! (if write then x.w else x.r) then some none
    else
      let r : XRange := { host := a, addr := if x.u then a else x.addr + (a - pos), len := z - a, read := x.r, write := x.w,
                          untranslated := x.u, marked := false }
      match ringRanges lo hi write (pos + x.len) l with
      | some (some rs) => some (some (r :: rs))
      | other => other

/-- The range list of a ring to be created, or the status that refuses it (R334). -/
def State.ringList (s : State) (b : List Byte) (xlate : RingXlate) : Except Status (List XRange) :=
  let lo := pkBase b
  let len := pkRingLen b
  let write := decide (pkBits b 8 0 1 = 1)
  let bounded (rs : List XRange) : Except Status (List XRange) := if 256 < rs.length then .error St.fragmented else .ok rs
  if ! pkHost b then .ok []
  else if ! s.atsOn then bounded (untranslatedRanges [{ addr := lo, len := len, read := ! write, write := write }])
  else match xlate with
    | .error => .error St.translationError
    | .notPresent => .error St.pageFault
    | .ok xs => match ringRanges lo (lo + len) write lo xs with
      | none => .error St.translationError
      | some none => .error St.pageFault
      | some (some rs) => bounded (addRanges [] rs)

/-- The Translation Requests of a host ring are counted: at most 128 KiB each (R240). -/
def State.ringRequests (s : State) (b : List Byte) : State :=
  if pkHost b && s.atsOn then s.bump R.tuXlateReqs (ceilDiv (pkRingLen b) 131072) else s

/-- The attributes of a new submission queue (R51). -/
def State.makeSq (s : State) (b : List Byte) (rs : List XRange) : State :=
  let q := pkNumber b
  let cfg := 2 ^ 31 + boolBit (pkHost b) * 2 ^ 30 + byteAt b 15 * 2 ^ 16 + pkBits b 9 0 4 * 2 ^ 12 + uintAt b 12 2 % 4096
  let s1 := (s.setReg64 (R.sqBaseLo q) (pkBase b)).setReg (R.sqCfg q) (BitVec.ofNat 32 cfg)
  let s2 := s1.setReg (R.sqLimits q) (BitVec.ofNat 32 (byteAt b 16 * 2 ^ 24 + uintAt b 20 4 % 2 ^ 20))
  let s3 := ((s2.setReg (R.sqState q) 0x60000000).setReg (R.sqTail q) 0).setReg (R.sqIndex q) 0
  s3.putSq q { sqDefault q with ranges := rs, life := (s.sq q).life + 1, stale := (s.sq q).stale }

/-- The attributes of a new completion ring (R88). -/
def State.makeCq (s : State) (b : List Byte) (rs : List XRange) : State :=
  let c := pkNumber b
  let cfg := 2 ^ 31 + boolBit (pkHost b) * 2 ^ 30 + pkBits b 9 0 4 * 2 ^ 16 + uintAt b 12 2 % 4096
  let s1 := (s.setReg64 (R.cqBaseLo c) (pkBase b)).setReg (R.cqCfg c) (BitVec.ofNat 32 cfg)
  let s2 := s1.setReg (R.cqPasid c) (BitVec.ofNat 32 (uintAt b 20 4 % 2 ^ 20))
  let s3 := (s2.setReg (R.cqTail c) 0x80000000).setReg (R.cqHead c) 0
  s3.putCq c { cqDefault c with ranges := rs }

/-- QUEUE_CREATE. -/
def createQueue (xlate : RingXlate) (s : State) : State :=
  s.onPacket 0x81 (fun p t =>
    let b := p.bytes
    if t.numberEnabled (pkBits b 8 0 1) (pkNumber b) then t.final p St.state []
    else if ! t.bit (R.ctxMap (uintAt b 12 2 % 4096)) 31 then t.final p St.context []
    else match t.ringList b xlate with
      | .error st => (t.ringRequests b).final p st []
      | .ok rs =>
        let u := t.ringRequests b
        (if pkBits b 8 0 1 = 0 then u.makeSq b rs else u.makeCq b rs).final p St.success (leBytes 4 rs.length))

def execQueueCreate (xlate : RingXlate) (s : State) : Result := .next (createQueue xlate s)

/-- May a queue or a ring be destroyed? -/
def State.mayDestroy (s : State) (kind n : Nat) : Bool :=
  s.numberEnabled kind n && s.tasks.all (fun t => decide (t.phase = .journal) ||
    decide (if kind = 0 then t.ref.sq ≠ n else entryRing t.entry ≠ n))

/-- Registers back at their reset values. -/
def State.resetRegs (s : State) (offs : List Nat) : State := offs.foldl (fun u o => u.setReg o (resetWord o)) s

/-- QUEUE_DESTROY. -/
def destroyQueue (s : State) : State :=
  s.onPacket 0x82 (fun p t =>
    let kind := pkBits p.bytes 8 0 1
    let n := pkNumber p.bytes
    if ! t.mayDestroy kind n then t.final p St.state []
    else if kind = 0 then
      ((t.resetRegs ((List.range 14).map (fun i => R.sqBaseLo n + 4 * i))).putSq n
        { sqDefault n with life := (t.sq n).life, stale := (t.abandon n).stale }).final p St.success []
    else ((t.resetRegs ((List.range 11).map (fun i => R.cqBaseLo n + 4 * i))).putCq n (cqDefault n)).final p St.success [])

def execQueueDestroy (s : State) : Result := .next (destroyQueue s)

/-! ### ABORT (R336, R337) -/

/-- Is a task in the scope of an ABORT? -/
def inScope (b : List Byte) (t : Task) : Bool :=
  match pkBits b 8 0 2 with
  | 0 => decide (t.ref.sq = pkNumber b) && decide (t.ref.index = uintAt b 12 4)
  | 1 => decide (t.ref.sq = pkNumber b)
  | _ => true

/-- Does an ABORT act on a task: accepted, not failed, its data not done, and not a STEP_CLOSE whose boundary has been
applied (log 20)? -/
def State.abortable (s : State) (t : Task) : Bool :=
  decide (s.closing ≠ some (t.ref, true)) && (match t.phase with
    | .failing => false
    | .finished => false
    | .recordIssued => false
    | .journal => false
    | _ => true)

/-- The requests of a task that wait for tier B end (R391). -/
def State.endPadWait (s : State) (ref : TaskRef) : State :=
  if s.tbReady then s
  else s.modTask ref (fun t => { t with
    issueQ := t.issueQ.filter (fun i => i.answered || decide (i.req.space = .host) || ! s.localWaits i.req.addr),
    pendingW := t.pendingW.filter (fun w => decide (w.space = .host) || ! s.localWaits w.span.1) })

/-- A task is aborted. -/
def State.abortTask (s : State) (ref : TaskRef) : State :=
  let s1 : State := match s.closing with
    | some (r, _) => if r = ref then { s with closing := none } else s
    | none => s
  (s1.endPadWait ref).fail ref St.aborted

/-- A queue in scope that runs or is paused is paused, and what is fetched of it is abandoned. -/
def State.abortQueue (s : State) (q : Nat) : State :=
  if s.sqMode q = 1 ∨ s.sqMode q = 2 then (s.putSq q (s.abandon q)).setSqMode q 2 else s

/-- The queues in scope. -/
def State.abortQueues (s : State) (b : List Byte) : List Nat :=
  match pkBits b 8 0 2 with
  | 0 => []
  | 1 => [pkNumber b]
  | _ => (List.range 1024).filter (fun q => s.bit (R.sqCfg q) 31)

/-- ABORT acts in the core cycle of its packet's read: at the latest as that core cycle ends (Tick.lean). -/
def abortScope (s : State) : State :=
  s.onPacket 0x83 (fun p t =>
    let b := p.bytes
    if pkBits b 8 0 2 ≠ 2 ∧ ! t.bit (R.sqCfg (pkNumber b)) 31 then t.final p St.state []
    else
      let scope := (t.tasks.filter (inScope b)).map Task.ref
      let victims := (t.tasks.filter (fun x => inScope b x && t.abortable x)).map Task.ref
      let u := victims.foldl State.abortTask ((t.abortQueues b).foldl State.abortQueue t)
      { u with mq := { u.mq with abort := some { packet := p, tasks := victims, scope := scope } } })

def execAbort (s : State) : Result := .next (abortScope s)

/-- ABORT's final reply: every aborted task has its records or waits only for room. -/
def finishAbort (s : State) : State :=
  match s.mq.abort with
  | none => s
  | some a =>
    if ! s.cpRuns ∨ a.tasks.any (fun r => match s.task r with | none => false | some t => ! s.waitsRoom t) then s
    else
      let r : Reply := { a.packet.answer St.success true (leBytes 4 a.tasks.length) with waits := a.scope }
      if a.packet.bytes = [] then { s with mq := { s.mq with abort := none } }
      else { s with mq := { s.mq with abort := none, replies := s.mq.replies ++ [r] } }

def execAbortComplete (s : State) : Result := .next (finishAbort s)

/-! ### Decode tables (R192, R338) -/

/-- The reference count of a slot: accepted tasks that name it and have no completion record yet. -/
def State.slotRefs (s : State) (n : Nat) : Nat :=
  s.tasks.countP (fun t => decide (t.phase ≠ .journal) && (entrySlots t.entry).contains n)

/-- TABLE_LOAD. -/
def loadTable (cond : MemCond) (s : State) : State :=
  s.onBuffer 0x84 (fun p t =>
    let slot := pkBits p.bytes 8 0 2
    let gen := uintAt p.bytes 10 2
    let a := pkBuffer p.bytes
    if t.slotRefs slot ≠ 0 then t.final p St.tableBusy []
    else match t.memVerdict 0 .read a 144 cond with
    | some st => (t.memRefusal st a none).final p st []
    | none =>
      let image := t.seenMem a 144
      let u := t.noteCorrected a cond
      if gen = 0 ∨ ! imageValid image then u.final p St.tableImage []
      else { (u.setFld (R.cxSlot slot) 30 2 2) with mq := { t.mq with load := some { packet := p, slot := slot, gen := gen, lens := imageLens image } } })

def execTableLoad (cond : MemCond) (s : State) : Result := .next (loadTable cond s)

/-- The image is installed in all codec units. -/
def installTable (s : State) : State :=
  match s.mq.load with
  | none => s
  | some l =>
    let s1 := s.setReg (R.cxSlot l.slot) (BitVec.ofNat 32 (2 ^ 30 + l.gen))
    ({ s1 with tables := sset (fun _ => []) s1.tables l.slot l.lens, mq := { s1.mq with load := none } } : State).final l.packet St.success []

def execTableInstallComplete (s : State) : Result := .next (if s.cpRuns then installTable s else s)

/-! ### Remote windows (R45, R339, R340) -/

/-- A range of the register region: host apertures and registers, which no window covers (R44). -/
def isForbidden : Region → Bool
  | .aperture => true
  | .registers => true
  | _ => false

/-- The entry of a window. -/
def State.openWindow (s : State) (b : List Byte) : State :=
  let w := pkBits b 8 0 6
  let s1 := (s.setReg64 (R.winBaseLo w) (uintAt b 16 8)).setReg64 (R.winLimitLo w) (uintAt b 24 8)
  (s1.setReg (R.winSrc w) (BitVec.ofNat 32 (uintAt b 14 2 * 2 ^ 16 + uintAt b 12 2))).setReg (R.winCtl w)
    (BitVec.ofNat 32 (2 ^ 31 + pkBits b 9 0 3 * 2 ^ 28 + uintAt b 10 2 % 4096))

/-- WINDOW_OPEN. -/
def windowOpened (s : State) : State :=
  s.onPacket 0x85 (fun p t =>
    let b := p.bytes
    if t.bit (R.winCtl (pkBits b 8 0 6)) 31 then t.final p St.state []
    else if isForbidden (regionOf (uintAt b 16 8)) ∨ isForbidden (regionOf (uintAt b 24 8 + 4095)) then t.final p St.window []
    else if ! t.bit (R.ctxMap (uintAt b 10 2 % 4096)) 31 then t.final p St.context []
    else (t.openWindow b).final p St.success [])

def execWindowOpen (s : State) : Result := .next (windowOpened s)

/-- WINDOW_CLOSE: no later access passes; the reply waits for those that have. -/
def windowClosed (s : State) : State :=
  s.onPacket 0x86 (fun p t =>
    let w := pkBits p.bytes 8 0 6
    if t.bit (R.winCtl w) 31 then { (t.setBit (R.winCtl w) 31 false) with mq := { t.mq with close := some (p, w) } }
    else t.final p St.success [])

def execWindowClose (s : State) : Result := .next (windowClosed s)

/-- Does a remote access wait behind a window? -/
def waitsBehind (w : Nat) : HeldAccess → Bool
  | .remote _ _ _ v => decide (v = w)
  | _ => false

/-- The last access through the closed window has completed. -/
def windowDrained (s : State) : State :=
  match s.mq.close with
  | none => s
  | some (p, w) =>
    if ! s.cpRuns ∨ s.padWait.any (waitsBehind w) then s
    else ({ s with mq := { s.mq with close := none } } : State).final p St.success []

def execWindowCloseDrained (s : State) : Result := .next (windowDrained s)

/-! ### Epochs and flags (R341, R349) -/

/-- The epoch in force. -/
def State.epochNow (s : State) : Word := s.reg (R.epochApplied 0)

/-- EPOCH_SET. -/
def stageEpoch (s : State) : State :=
  s.onPacket 0x87 (fun p t =>
    let e : Word := BitVec.ofNat 32 (uintAt p.bytes 8 4)
    if t.opInProgress 0x87 ∨ e = t.epochNow then t.final p St.state []
    else
      let u := (t.setReg R.epochStaged e).interim p (leBytes 4 t.epochNow.toNat)
      { u with mq := { u.mq with epoch := some p } })

def execEpochSet (s : State) : Result := .next (stageEpoch s)

/-- FLAG_WRITE. -/
def writeFlag (s : State) : State :=
  s.onPacket 0x8F (fun p t =>
    let e := uintAt p.bytes 8 2 % 512
    (if pkBits p.bytes 10 0 1 = 1 then t.clearFlag e else t.setFlag e).final p St.success [])

def execFlagWrite (s : State) : Result := .next (writeFlag s)

/-! ### POWER_SET (R343) -/

/-- May the block enter a state below Idle-gated: no queue runs, no task lacks its record, no window is open, no other
command is in progress? -/
def State.mayLower (s : State) : Bool :=
  (List.range 1024).all (fun q => decide (s.sqMode q ≠ 1)) && s.tasks.all (fun t => decide (t.phase = .journal)) &&
    (List.range 64).all (fun w => ! s.bit (R.winCtl w) 31) && decide (putField (s.reg R.mqPending) 8 1 0 = 0)

/-- POWER_SET. -/
def setPower (s : State) : State :=
  s.onPacket 0x88 (fun p t =>
    let n := pkBits p.bytes 8 0 3
    if n = powerNumber t.power then t.final p St.success []
    else if 2 ≤ n ∧ ! t.mayLower then t.final p St.state []
    else ({ t with mq := { t.mq with powerTo := some n } } : State).final p St.success [])

def execPowerSet (s : State) : Result := .next (setPower s)

/-! ### ENGINE_RETIRE (R13, R344, R400, R401) -/

/-- Kind 0 is a stream engine, 1 a compressor, 2 an expander: the retired ones, the active ones and how many there are. -/
def State.isRetired (s : State) (kind n : Nat) : Bool :=
  match kind with
  | 0 => decide (s.fld (R.engStatus n) 30 2 = 2)
  | 1 => s.compRetired.contains n
  | _ => s.expRetired.contains n

def State.isActive (s : State) (kind n : Nat) : Bool :=
  match kind with
  | 0 => decide (s.fld (R.engStatus n) 30 2 = 0)
  | 1 => s.bit R.cxCompActive n
  | _ => s.bit R.cxExpActive n

def unitCount (kind : Nat) : Nat := if kind = 0 then 68 else 26

/-- The lowest-numbered spare. -/
def State.spareOf (s : State) (kind : Nat) : Option Nat :=
  (List.range (unitCount kind)).find? (fun n => ! s.isActive kind n && ! s.isRetired kind n)

/-- The task that holds a unit. -/
def State.taskOn (s : State) (kind n : Nat) : Option TaskRef :=
  (s.tasks.find? (fun t => decide ((match kind with | 0 => t.engine.map Fin.val | 1 => t.compressor | _ => t.expander) = some n))).map Task.ref

/-- A unit is marked retired. -/
def State.retireUnit (s : State) (kind n : Nat) : State :=
  match kind with
  | 0 => s.setFld (R.engStatus n) 30 2 2
  | 1 => { (s.setBit R.cxCompActive n false) with compRetired := s.compRetired ++ [n] }
  | _ => { (s.setBit R.cxExpActive n false) with expRetired := s.expRetired ++ [n] }

/-- A spare comes in; a spare engine takes the logical position. -/
def State.bringIn (s : State) (kind n pos : Nat) : State :=
  match kind with
  | 0 => (s.setFld (R.engStatus n) 30 2 0).setFld (R.engStatus n) 0 6 pos
  | 1 => s.setBit R.cxCompActive n true
  | _ => s.setBit R.cxExpActive n true

/-- The retirement and the mapping in the repair record. -/
def recordRetire (kind n : Nat) (spare : Option Nat) (pos : Option Nat) (r : RepairRecord) : RepairRecord :=
  match kind with
  | 0 => { r with engRetired := r.engRetired ++ [n],
                  engPos := match pos with | some p => r.engPos.set p (spare.getD 0xFF) | none => r.engPos }
  | 1 => { r with compRetired := r.compRetired ++ [n] }
  | _ => { r with expRetired := r.expRetired ++ [n] }

/-- A retirement is carried out: with PERSIST its reply waits for the repair record. -/
def State.carryRetire (s : State) (x : RetireRun) (pos : Option Nat) : State :=
  if x.persist then
    ({ s with mq := { s.mq with retire := some { x with drained := true } } } : State).changeRecord
      (recordRetire x.kind x.unit x.spare pos)
  else ({ s with mq := { s.mq with retire := none } } : State).final x.packet St.success (retireResult x)

/-- FORCE: the unit's task is aborted. -/
def State.forceOff (s : State) (ref : Option TaskRef) : State :=
  match ref with
  | none => s
  | some r => match s.task r with
    | none => s
    | some t => if s.abortable t then s.abortTask r else s

/-- ENGINE_RETIRE. A spare leaves the pool at once; an active unit takes no new claim, and with FORCE its task is aborted
as by an ABORT of that task. -/
def retireEngine (s : State) : State :=
  s.onPacket 0x89 (fun p t =>
    let kind := pkBits p.bytes 8 0 2
    let n := byteAt p.bytes 9
    let x : RetireRun := ⟨p, kind, n, decide (pkBits p.bytes 10 1 1 = 1), t.taskOn kind n, none,
      t.fld (R.engStatus n) 0 6, false⟩
    if t.mq.retire.isSome ∨ t.opInProgress 0x89 ∨ t.isRetired kind n then t.final p St.state []
    else if ! t.isActive kind n then (t.retireUnit kind n).carryRetire { x with position := 0 } none
    else
      let i := t.interim p []
      let u : State := { i with mq := { i.mq with retire := some x } }
      if pkBits p.bytes 10 0 1 = 1 then u.forceOff x.task else u)

def execEngineRetire (s : State) : Result := .next (retireEngine s)

/-- Has the unit's task still to write its completion record? -/
def State.lacksRecord (s : State) (ref : Option TaskRef) : Bool :=
  match ref with
  | none => false
  | some r => match s.task r with
    | none => false
    | some t => decide (t.phase ≠ .journal)

/-- The unit's task has written its record: the spare comes in. -/
def retireDrained (s : State) : State :=
  match s.mq.retire with
  | none => s
  | some x =>
    if x.drained || s.lacksRecord x.task then s
    else
      let spare := s.spareOf x.kind
      let s1 := s.retireUnit x.kind x.unit
      let s2 := match spare with
        | some n => s1.bringIn x.kind n x.position
        | none => s1
      s2.carryRetire { x with spare := spare, drained := true } (some x.position)

def execEngineRetireDrained (s : State) : Result := .next (retireDrained s)

/-! ### SITE_EVACUATE (R345, R346) -/

/-- The SPD and training checks of a target: what fails, 0 for none (R296). -/
def targetCheck (r : SpdResult) (trained : Bool) : Nat := if spdCheck r ≠ 0 then spdCheck r else if trained then 0 else 6

/-- SITE_EVACUATE with CANCEL = 0. -/
def evacuateSite (spd : SpdResult) (trained : Bool) (s : State) : State :=
  if (match s.mq.cur with | some p => pkBits p.bytes 10 0 1 | none => 0) = 1 then s
  else s.onPacket 0x8A (fun p t =>
    let lm := pkBits p.bytes 8 0 3
    let dst := pkBits p.bytes 9 0 4
    let src := t.siteOf lm
    let done := leBytes 8 (t.reg64 R.tbEvacDoneLo)
    if t.opInProgress 0x8A ∨ t.evac.isSome then t.final p St.state done
    else if src = 0xF ∨ t.siteState src ≠ 1 then t.final p St.state done
    else if t.siteState dst ≠ 2 then t.final p St.state done
    else
      let u := (t.interim p []).setReg64 R.tbEvacDoneLo 0
      let v := (u.emit (.i3cRead dst)).spdRead dst 4 spd
      if targetCheck spd trained ≠ 0 then (v.siteFails dst (targetCheck spd trained)).final p St.siteCheck (leBytes 8 0)
      else
        let w := ((v.setBit (R.tbSiteStatus dst) 28 false).setSiteState src 3).setReg R.tbEvac
          (BitVec.ofNat 32 (2 ^ 31 + lm * 2 ^ 24 + src * 2 ^ 20 + dst * 2 ^ 16))
        { w with evac := some ⟨lm, src, dst, 0⟩, mq := { w.mq with evac := some p } })

def execSiteEvacuate (spd : SpdResult) (trained : Bool) (s : State) : Result := .next (evacuateSite spd trained s)

/-- SITE_EVACUATE with CANCEL = 1: a running copy stops, and its command answers first. -/
def cancelEvacuation (s : State) : State :=
  if (match s.mq.cur with | some p => pkBits p.bytes 10 0 1 | none => 0) = 0 then s
  else s.onPacket 0x8A (fun p t =>
    if t.evac.isSome then ((t.cancelEvac).endEvac St.aborted).final p St.success (leBytes 8 (t.reg64 R.tbEvacDoneLo))
    else t.final p St.state (leBytes 8 (t.reg64 R.tbEvacDoneLo)))

def execSiteEvacuateCancel (s : State) : Result := .next (cancelEvacuation s)

end Sys2Proof.Machine
end

