-- ==== Sys2Proof/Machine/Ident.lean ====
section
/-!
DEFINITION. Identity, telemetry and firmware (R347, R348, R350, R351, R370), with the repair record as bytes (R396,
R397).
-/
namespace Sys2Proof.Machine

/-! ### The repair record as bytes (R396, R397) -/

/-- A set of unit numbers as a bit string of `n` bytes. -/
def unitBits (n : Nat) (l : List Nat) : List Byte := leBytes n (bitsOfList (8 * n) (fun i => l.contains i))

/-- A row entry. -/
def rowBytes (e : RowEntry) : List Byte :=
  leBytes 1 e.kind ++ leBytes 1 e.unit ++ leBytes 1 e.state ++ leBytes 1 e.dev ++ leBytes 4 e.serial ++ leBytes 2 e.bank ++
    leBytes 2 0 ++ leBytes 4 (e.row % 2 ^ 18)

/-- A lane map entry: bit 7 spared, bits [2:0] the lane. -/
def laneByte (m : LaneMap) : List Byte := leBytes 1 (boolBit m.spared * 128 + m.lane % 8)

/-- A copy of the record with a given CRC. -/
def recordWith (r : RepairRecord) (crc : Nat) : List Byte :=
  leBytes 4 1 ++ leBytes 4 r.seq.toNat ++ leBytes 4 (272 + 16 * r.rows.length) ++ leBytes 4 crc ++ leBytes 1 (r.pair % 2) ++
    leBytes 15 0 ++ (List.range 64).flatMap (fun p => leBytes 1 (r.engPos.getD p 0xFF)) ++ unitBits 9 r.engRetired ++ leBytes 7 0 ++
    unitBits 4 r.compRetired ++ unitBits 4 r.expRetired ++
    leBytes 4 (((List.range 8).map (fun m => r.siteMap.getD m 0xF * 16 ^ m)).sum) ++ leBytes 4 0 ++
    (List.range 9).flatMap (fun b => leBytes 1 (r.siteState.getD b 0)) ++ leBytes 7 0 ++
    (List.range 9).flatMap (fun b => leBytes 4 (r.serials.getD b 0)) ++ leBytes 12 0 ++
    (List.range 32).flatMap (fun p => laneByte (r.laneTx.getD p ⟨false, 0⟩) ++ laneByte (r.laneRx.getD p ⟨false, 0⟩)) ++
    leBytes 4 r.rows.length ++ leBytes 12 0 ++ r.rows.flatMap rowBytes

/-- A copy of the record: CRC-32C over its bytes with the CRC taken as zero. -/
def recordBytes (r : RepairRecord) : List Byte := recordWith r (crc32c (recordWith r 0)).toNat

/-- The copy in use; the record in force where none is valid yet (R399). -/
def State.recordInUse (s : State) : RepairRecord :=
  ((if s.bit R.cpRecord 28 then s.flash1 else s.flash0).getD s.record)

/-! ### Command buffers (R332) -/

/-- The outcome of a command that writes a buffer: the bytes and its final reply; or the memory's status, with the
buffer's bytes free values (log 12). -/
def State.fillBuffer (s : State) (p : Packet) (bytes : List Byte) (cond : MemCond) (result : List Byte) : State :=
  let a := pkBuffer p.bytes
  match s.memVerdict 0 .write a bytes.length (writeCond a bytes.length cond) with
  | some st => ((s.memRefusal st a none).freeBytes (List.range' a bytes.length)).final p st []
  | none => ((s.noteCorrected a (writeCond a bytes.length cond)).writeMem a bytes).final p St.success result

/-! ### IDENT_READ (R347) -/

/-- The version of an image. -/
def State.imageVersion (s : State) (b : Bool) : Word := s.reg (if b then R.cpVersionB else R.cpVersionA)

/-- The image that runs. -/
def State.runningImage (s : State) : Bool := s.bit R.mqState 28

/-- The block record. The silicon revision is the device's own (log 24). -/
def State.blockRecord (s : State) : List Byte :=
  leBytes 2 0x5A15 ++ [Config.freeIdent 0 2] ++ leBytes 1 (s.fld R.mqState 29 1) ++ leBytes 4 (s.imageVersion s.runningImage).toNat ++
    leBytes 4 (s.imageVersion false).toNat ++ leBytes 4 (s.imageVersion true).toNat ++ leBytes 2 s.node ++
    leBytes 1 s.activeEngines.length ++ leBytes 1 ((List.range 26).countP (s.isActive 1)) ++
    leBytes 1 ((List.range 26).countP (s.isActive 2)) ++ leBytes 3 0 ++ leBytes 8 s.gtc ++ leBytes 4 (s.reg R.cpRecordSeq).toNat ++
    leBytes 28 0

/-- The record of a stack: its identity as it returned it, and its check result. -/
def State.stackRecord (s : State) (n : Nat) : List Byte :=
  fitBytes 32 (s.stackIds.getD n []) ++ leBytes 1 (s.fld R.stStatus (2 * n) 2) ++ leBytes 31 0

/-- The SPD image of a site. -/
def State.spdBytes (s : State) (b : Nat) : List Byte := (List.range 256).flatMap (fun i => leBytes 4 (s.reg (R.spdImage b i)).toNat)

/-- What IDENT_READ writes. -/
def State.identity (s : State) (what index : Nat) : List Byte :=
  match what with
  | 0 => s.blockRecord
  | 1 => s.stackRecord index
  | 2 => s.spdBytes index
  | _ => recordBytes s.recordInUse

/-- IDENT_READ. -/
def readIdentity (cond : MemCond) (s : State) : State :=
  s.onBuffer 0x8B (fun p t =>
    let bytes := t.identity (byteAt p.bytes 8) (byteAt p.bytes 9)
    if pkLen p.bytes < bytes.length then t.final p St.overflow (leBytes 4 bytes.length)
    else t.fillBuffer p bytes cond (leBytes 4 bytes.length))

def execIdentRead (cond : MemCond) (s : State) : Result := .next (readIdentity cond s)

/-! ### TELEMETRY_SNAP (R348, R370) -/

/-- The counters of a snapshot, lower half: the first offset of a group, its stride and count, and in each the offset,
the stride, the count and the words of each counter. -/
def snapGroups0 : List (Nat × Nat × Nat × List (Nat × Nat × Nat × Nat)) :=
  [(0x124, 0x1, 1, [(0x0, 0x1, 1, 1)]),
   (0x12c, 0x1, 1, [(0x0, 0x1, 1, 1)]),
   (0x100028, 0x40, 1024, [(0x0, 0x1, 1, 1), (0x4, 0x1, 1, 1), (0x8, 0x1, 1, 1)]),
   (0x110020, 0x40, 256, [(0x0, 0x1, 1, 1), (0x4, 0x1, 1, 1)]),
   (0x130010, 0x20, 16, [(0x0, 0x1, 1, 1)]),
   (0x230020, 0x1, 1, [(0x0, 0x1, 1, 1)]),
   (0x230024, 0x1, 1, [(0x0, 0x1, 1, 1)]),
   (0x230028, 0x1, 1, [(0x0, 0x1, 1, 1)]),
   (0x23002c, 0x1, 1, [(0x0, 0x1, 1, 1)]),
   (0x230030, 0x1, 1, [(0x0, 0x1, 1, 1)]),
   (0x230034, 0x1, 1, [(0x0, 0x1, 1, 1)]),
   (0x230038, 0x1, 1, [(0x0, 0x1, 1, 1)]),
   (0x230040, 0x1, 1, [(0x0, 0x4, 3, 1)]),
   (0x2f0004, 0x1, 1, [(0x0, 0x1, 1, 1)]),
   (0x300014, 0x1000, 68, [(0x0, 0x1, 1, 1)]),
   (0x380028, 0x1, 1, [(0x0, 0x1, 1, 1)]),
   (0x400034, 0x1, 1, [(0x0, 0x1, 1, 1)]),
   (0x400040, 0x1, 1, [(0x0, 0x1, 1, 1)]),
   (0x400044, 0x1, 1, [(0x0, 0x1, 1, 1)]),
   (0x400100, 0x1, 1, [(0x0, 0x8, 16, 2)]),
   (0x401080, 0x1, 1, [(0x0, 0x4, 5, 1)]),
   (0x4010a0, 0x1, 1, [(0x0, 0x1, 1, 2)]),
   (0x4010a8, 0x1, 1, [(0x0, 0x1, 1, 2)]),
   (0x4010c4, 0x1, 1, [(0x0, 0x1, 1, 1)]),
   (0x500010, 0x1, 1, [(0x0, 0x1, 1, 1)])]

/-- The counters of a snapshot, upper half. -/
def snapGroups1 : List (Nat × Nat × Nat × List (Nat × Nat × Nat × Nat)) :=
  [(0x500014, 0x1, 1, [(0x0, 0x1, 1, 1)]),
   (0x501800, 0x1, 1, [(0x0, 0x1, 1, 1)]),
   (0x510004, 0x10, 1024, [(0x0, 0x1, 1, 1), (0x4, 0x1, 1, 1)]),
   (0x520020, 0x40, 256, [(0x0, 0x1, 1, 1), (0x4, 0x1, 1, 1), (0x8, 0x1, 1, 1)]),
   (0x530004, 0x20, 64, [(0x0, 0x1, 1, 1), (0x4, 0x1, 1, 1), (0x8, 0x1, 1, 1), (0xc, 0x1, 1, 1), (0x10, 0x1, 1, 1)]),
   (0x540008, 0x20, 32, [(0x0, 0x4, 5, 1)]),
   (0x600010, 0x1, 1, [(0x0, 0x1, 1, 2)]),
   (0x601004, 0x100, 9, [(0x0, 0x1, 1, 1), (0x4, 0x1, 1, 1), (0x8, 0x1, 1, 1), (0xc, 0x1, 1, 1)]),
   (0x700010, 0x100, 48, [(0x0, 0x1, 1, 1), (0x4, 0x1, 1, 1), (0x8, 0x1, 1, 1), (0xc, 0x1, 1, 1), (0x10, 0x8, 4, 2), (0x30, 0x1, 1, 2), (0x40, 0x4, 4, 1)]),
   (0x800014, 0x1, 1, [(0x0, 0x1, 1, 1)]),
   (0x800018, 0x1, 1, [(0x0, 0x1, 1, 1)]),
   (0x80001c, 0x1, 1, [(0x0, 0x1, 1, 1)]),
   (0x801000, 0x1, 1, [(0x0, 0x8, 16, 2)]),
   (0x801080, 0x1, 1, [(0x0, 0x8, 16, 2)]),
   (0x801100, 0x1, 1, [(0x0, 0x8, 16, 2)]),
   (0x802004, 0x1, 1, [(0x0, 0x1, 1, 1)]),
   (0x802008, 0x1, 1, [(0x0, 0x1, 1, 1)]),
   (0x803000, 0x1, 1, [(0x0, 0x1, 1, 1)]),
   (0x803004, 0x1, 1, [(0x0, 0x1, 1, 1)]),
   (0x803008, 0x1, 1, [(0x0, 0x1, 1, 1)]),
   (0x80300c, 0x1, 1, [(0x0, 0x1, 1, 1)]),
   (0x803010, 0x1, 1, [(0x0, 0x1, 1, 1)]),
   (0x803014, 0x1, 1, [(0x0, 0x1, 1, 1)]),
   (0x803018, 0x1, 1, [(0x0, 0x1, 1, 1)]),
   (0x804000, 0x10, 68, [(0x0, 0x1, 1, 1), (0x4, 0x1, 1, 1), (0x8, 0x1, 1, 2)])]

/-- The words of a group. -/
def snapWords (g : Nat × Nat × Nat × List (Nat × Nat × Nat × Nat)) : List Nat :=
  (List.range g.2.2.1).flatMap (fun i => g.2.2.2.flatMap (fun c =>
    (List.range c.2.2.1).flatMap (fun j => (List.range c.2.2.2).map (fun k => g.1 + g.2.1 * i + c.1 + c.2.1 * j + 4 * k))))

/-- The offsets of a snapshot's words, ascending. -/
def snapOffsets : List Nat := (snapGroups0 ++ snapGroups1).flatMap snapWords

/-- The read-clear fields of an offset of the register tables. -/
def rcMask (off : Nat) : Word := match regRow off with | some r => BitVec.ofNat 32 r.rc | none => 0

/-- Is an offset a read-clear counter? -/
def isRc (off : Nat) : Bool := decide (rcMask off ≠ 0)

/-- The snapshot: its header and its counters. -/
def State.snapshot (s : State) : List Byte :=
  leBytes 4 (32 + 4 * snapOffsets.length) ++ leBytes 4 1 ++ leBytes 8 s.gtc ++ leBytes 4 (s.reg R.strStep).toNat ++
    leBytes 4 (s.reg R.epochStaged).toNat ++ leBytes 8 0 ++ snapOffsets.flatMap (fun o => leBytes 4 (s.rcWord o (rcMask o)).toNat)

/-- Every RC counter of the snapshot cleared; an increment of the same core cycle survives (R7, R348). -/
def State.clearCounters (s : State) : State := (snapOffsets.filter isRc).foldl (fun u o => u.clearRc o (rcMask o)) s

/-- TELEMETRY_SNAP. -/
def snapTelemetry (cond : MemCond) (s : State) : State :=
  s.onBuffer 0x8E (fun p t =>
    let bytes := t.snapshot
    let a := pkBuffer p.bytes
    if pkLen p.bytes < bytes.length then t.final p St.overflow (leBytes 4 bytes.length)
    else
      let served := (t.memVerdict 0 .write a bytes.length (writeCond a bytes.length cond)).isNone
      (if served && decide (pkBits p.bytes 8 0 1 = 1) then t.clearCounters else t).fillBuffer p bytes cond
        (leBytes 8 bytes.length ++ leBytes 8 t.gtc))

def execTelemetrySnap (cond : MemCond) (s : State) : Result := .next (snapTelemetry cond s)

/-! ### Firmware (R350, R351) -/

/-- The version register of an image. -/
def versionReg (b : Bool) : Nat := if b then R.cpVersionB else R.cpVersionA

/-- FIRMWARE_STAGE: the source is read and verified, and the image's area is being written. -/
def stageFirmware (signatureOk : Bool) (cond : MemCond) (s : State) : State :=
  s.onPacket 0x8C (fun p t =>
    let image := decide (pkBits p.bytes 8 0 1 = 1)
    let a := pkBuffer p.bytes
    let len := pkLen p.bytes
    if t.opInProgress 0x8C ∨ image = t.runningImage then t.final p St.state []
    else
      let u := t.interim p []
      match t.memVerdict 0 .read a len cond with
      | some st => (u.memRefusal st a none).final p st []
      | none =>
        let source := t.seenMem a len
        let w := u.noteCorrected a cond
        if (crc32c source).toNat ≠ uintAt p.bytes 28 4 ∨ ! signatureOk then w.final p St.image []
        else
          let v := w.setReg (versionReg image) 0
          { v with mq := { v.mq with stage := some ⟨p, boolBit image, BitVec.ofNat 32 (uintAt source 8 4)⟩ } })

def execFirmwareStage (signatureOk : Bool) (cond : MemCond) (s : State) : Result := .next (stageFirmware signatureOk cond s)

/-- The area has been written and read back. -/
def stageDone (ok : Bool) (s : State) : State :=
  match s.mq.stage with
  | none => s
  | some x =>
    let t : State := { s with mq := { s.mq with stage := none } }
    if ! s.cpRuns then s
    else if ok then (t.setReg (versionReg (decide (x.image = 1))) x.version).final x.packet St.success (leBytes 4 x.version.toNat)
    else t.final x.packet St.image []

def execFirmwareStageDone (readBackOk : Bool) (s : State) : Result := .next (stageDone readBackOk s)

/-- Is the pair quiescent but for FIRMWARE_SWITCH itself? -/
def State.quiescent (s : State) : Bool := decide (putField (s.reg R.mqPending) 13 1 0 = 0) && decide (s.mqHead = s.mq.tail)

/-- FIRMWARE_SWITCH: the handover starts. -/
def switchFirmware (s : State) : State :=
  s.onPacket 0x8D (fun p t =>
    let image := decide (pkBits p.bytes 8 0 1 = 1)
    if t.opInProgress 0x8D then t.final p St.state []
    else if t.imageVersion image = 0 then t.final p St.image []
    else if image = t.runningImage ∨ ! t.quiescent then t.final p St.state []
    else
      let u := (t.interim p []).setBit R.mqState 27 true
      { u with mq := { u.mq with switch := some ⟨p, boolBit image, decide (pkBits p.bytes 9 0 1 = 1), t.cycle⟩ } })

def execFirmwareSwitch (s : State) : Result := .next (switchFirmware s)

/-- The new image answers: it runs from now on. -/
def switchDone (s : State) : State :=
  match s.mq.switch with
  | none => s
  | some x =>
    let image := decide (x.image = 1)
    let t : State := { s with mq := { s.mq with switch := none } }
    let u := if x.persist then t.setBit R.cpBoot 0 image else t
    if ! s.cpRuns then s
    else ((u.setBit R.mqState 27 false).setBit R.mqState 28 image).final x.packet St.success
      (leBytes 4 (s.imageVersion image).toNat ++ leBytes 1 x.image)

def execFirmwareSwitchFinal (s : State) : Result := .next (switchDone s)

/-- 100 ms have passed without the new image's reply: the old image answers. -/
def switchTimeout (s : State) : State :=
  match s.mq.switch with
  | none => s
  | some x =>
    if ! s.cpRuns ∨ s.cycle < x.at_ + 160000000 then s
    else (({ s with mq := { s.mq with switch := none } } : State).setBit R.mqState 27 false).final x.packet St.image []

def execFirmwareSwitchTimeout (s : State) : Result := .next (switchTimeout s)

end Sys2Proof.Machine
end

