-- ==== Sys2Proof/Machine/Startup.lean ====
section
/-!
DEFINITION. Reset and start-up (R376 to R384, R390, R391, R399): what each reset leaves, the restoring of the repair
record, the checks of a start, the release of the pads and of the core hold.
-/
namespace Sys2Proof.Machine

/-! ### What a reset keeps (R377, R394, R412) -/

/-- The registers of the flash's images: the flash holds what they show. -/
def imageRegs : List Nat := [R.cpVersionA, R.cpVersionB, R.cpBoot]

/-- The always-on registers that an Off exit and a self-reset keep. PW_CFG and PW_PAD_WAIT are reset by every reset. -/
def alwaysOnRegs : List Nat :=
  [R.gtcLo, R.gtcHi, R.gtcStatus, R.pwWake, R.pwWakeDetail, R.pwWakeTimeLo, R.pwWakeTimeHi, R.pwCoreHold, R.rstCause, R.rstCount,
   R.stStatus, R.cpRecord, R.cpRecordSeq, R.cpPair]

/-- Registers carried over a reset. -/
def State.carry (s : State) (old : State) (offs : List Nat) : State := offs.foldl (fun u o => u.setReg o (old.reg o)) s

/-- A record write that a reset cuts short leaves its copy invalid (R399, log 17). -/
def State.cutRecord (s : State) : State :=
  match s.recordWrite with
  | none => s
  | some _ => { (s.putCopy s.recordTarget none) with recordWrite := none, recordDirty := false }

/-- The record that a start restores from: the copy in use, or the shipment record (R395, R399). -/
def State.startRecord (s : State) : RepairRecord :=
  match pickRecord s.flash0 s.flash1 with
  | some (_, r) => r
  | none => RepairRecord.shipment

/-- The block after a cold reset. What the flash holds, the model's own counters and what waits in the queue stay; every byte of
memory is a free value from then on (R377, log 12). -/
def State.cold (s : State) (kept : List Nat) : State :=
  let c := s.cutRecord.loseMemory
  let n : State := { State.reset with
    mem := c.mem, memGen := c.memGen, freeCtr := c.freeCtr, out := s.out, cycle := s.cycle, checksAt := s.cycle,
    pending := s.pending, flash0 := c.flash0, flash1 := c.flash1,
    record := c.startRecord, gtcHold := if kept.contains R.gtcLo then s.gtcHold else 0 }
  (n.carry s (imageRegs ++ kept)).setBit R.cpRecord 27 false

/-- The state an Off exit starts from: ST_STATUS is cleared at a cold start. -/
def State.offState (s : State) : State := { ((s.cold alwaysOnRegs).setReg R.stStatus 0) with power := .off }

/-- Power good rises (R382). -/
def execPowerOn (s : State) : Result := .next (s.cold [])

/-- The processor removes power (R385): the next start is a power-on. -/
def execPowerRemoved (s : State) : Result := .next { (s.cold []) with power := .off, powered := false }

/-! ### Self-reset (R377, R380, R381) -/

/-- The bytes whose content a self-reset leaves undefined: destination bytes of outstanding tasks, lines in flight. -/
def State.lostCells (s : State) : List (Nat × Byte) :=
  (s.tasks.filter (fun t => decide (t.phase = .running ∨ t.phase = .failing))).flatMap s.lostBits

/-- A number of core cycles that the link-loss count never reaches: the loss has been acted on. -/
def lossTaken : Nat := 2 ^ 32

/-- A self-reset, with the bit of its cause in RST_CAUSE. -/
def State.selfReset (s : State) (cause : Nat) : State :=
  let c := (s.freeBits s.lostCells).cutRecord
  let n : State := { State.reset with
    mem := c.mem, memGen := c.memGen, checksAt := s.cycle, freeCtr := c.freeCtr, out := s.out, cycle := s.cycle, pending := s.pending, gtcHold := s.gtcHold,
    flash0 := c.flash0, flash1 := c.flash1, record := c.startRecord, stackIds := s.stackIds, powered := s.powered,
    coldStart := s.coldStart && decide (s.startup ≠ .done), restoring := true, linkDown := s.linkDown,
    linkDownCycles := if cause = 30 then lossTaken else s.linkDownCycles }
  let k := (n.carry s (imageRegs ++ alwaysOnRegs)).setBit R.cpRecord 27 false
  let p := (k.setReg R.pwStatus 0x80000000).setBit R.pwStatus 28 (s.bit R.pwStatus 28)
  let r := ((p.hwSet R.rstCause cause).bump R.rstCount 1).setBit R.pwCoreHold 31 true
  let q := if s.bit R.pwStatus 28 then r.setFld R.mqState 30 2 2 else r
  (List.range 9).foldl (fun u b => u.setBit (R.tbSiteStatus b) 28 true) q

/-- A reset of a block that is powered and not Off. -/
def State.ifRuns (s : State) (f : State → State) : State := if s.powered ∧ s.power ≠ .off then f s else s

def execHotReset (s : State) : Result := .next (s.ifRuns (fun t => t.selfReset 29))
def execFunctionLevelReset (s : State) : Result := .next (s.ifRuns (fun t => t.selfReset 28))
def execPerstAssert (s : State) : Result := .next (s.ifRuns (fun t => t.selfReset 27))

/-- DL_Down has lasted beyond 16,000 core cycles (R378). -/
def linkLoss (s : State) : State :=
  if s.linkDown ∧ 16000 < s.linkDownCycles ∧ s.linkDownCycles < lossTaken then s.ifRuns (fun t => t.selfReset 30) else s

def execLinkLossTimeout (s : State) : Result := .next (linkLoss s)

/-! ### Host link (R378, R379) -/

/-- The outstanding requests of a task on the host link. -/
def Task.hostOwners (t : Task) : List HostOwner :=
  (t.issueQ.filter (fun i => ! i.answered && decide (i.req.space = .host))).map (fun i => .taskRead t.ref i.no) ++
    (if t.flushing && ! t.flushed then [.taskFlush t.ref] else []) ++
    (if t.phase = .recordIssued then [.recordFlush t.ref] else [])

/-- A task with posted writes that no flushing read covers fails; one that waits for a translation fails (R242, R379). -/
def State.linkFails (s : State) (ref : TaskRef) : State :=
  match s.task ref with
  | none => s
  | some t =>
    let s1 := t.hostOwners.foldl (fun u o => u.failHost o 2 0) s
    let s2 := if t.hostLast.isSome ∧ ! t.flushed ∧ t.phase = .running then (s1.fail ref St.host).settle ref else s1
    match t.xreq with
    | some r => if 0 < r.len ∧ t.phase = .translating then s2.failAtXlate ref St.translationError r.addr else s2
    | none => s2

/-- The outstanding reads of rings in host memory fail (R70, R379). -/
def State.failRings (s : State) : State :=
  let s1 := (List.range 1024).foldl (fun u q => if (u.sq q).outstanding ∧ u.sqHost q then u.sqReadFailed q St.host 0 else u) s
  { s1 with sqs := s1.sqs.map (fun x => (x.1, { x.2 with stale := [] })) }

/-- The aperture loads that wait for the host end with zeros (R40, R379). -/
def State.failLoads (s : State) : State :=
  s.apLoads.foldl (fun u l => (u.apertureFault false 2 l.ap l.core l.offset).emit (.coreData l.core (List.replicate l.len 0))) s

/-- DL_Down is presented: every outstanding host request fails. -/
def linkDown (s : State) : State :=
  if s.linkDown then s
  else
    let s1 := (s.tasks.map Task.ref).foldl State.linkFails s
    { s1.failRings.failLoads with apLoads := [], linkDown := true, linkDownCycles := 0 }

def execHostLinkDown (s : State) : Result := .next (linkDown s)

/-- DL_Up is presented: the host requests that have waited leave, and their time limits start (R379). -/
def linkUp (s : State) : State :=
  { s with linkDown := false, linkDownCycles := 0, linkUpAt := s.cycle, out := s.hostHeld.reverse ++ s.out, hostHeld := [] }

def execHostLinkUp (s : State) : Result := .next (if s.linkDown then linkUp s else s)

/-! ### Restoring the repair record (R382, R399, R401) -/

/-- An engine as the record has it: retired, at a position, or spare. -/
def engineWord (r : RepairRecord) (e : Nat) : Word :=
  if r.engRetired.contains e then 0x80000000
  else match (List.range 64).find? (fun p => decide (r.engPos.getD p 0xFF = e)) with
    | some p => BitVec.ofNat 32 p
    | none => 0x40000000

/-- The active codec units of a kind: the 24 lowest that are not retired. -/
def activeUnits (retired : List Nat) : Nat :=
  ((((List.range 26).filter (fun n => ! retired.contains n)).take 24).map (fun n => 2 ^ n)).sum

/-- A lane map entry as its four status bits. -/
def laneWord (r : RepairRecord) (p : Nat) : Nat :=
  laneBits (r.laneTx.getD p ⟨false, 0⟩) * 2 ^ 28 + laneBits (r.laneRx.getD p ⟨false, 0⟩) * 2 ^ 24 + 2

/-- The engines, codec units, lane maps and site map of the record in force, with the pair and the image that run. -/
def State.restore (s : State) (image : Bool) : State :=
  let r := s.record
  let s1 := (List.range 68).foldl (fun u e => u.setReg (R.engStatus e) (engineWord r e)) s
  let s2 := (s1.setReg R.cxCompActive (BitVec.ofNat 32 (activeUnits r.compRetired))).setReg R.cxExpActive
    (BitVec.ofNat 32 (activeUnits r.expRetired))
  let s3 := (List.range 32).foldl (fun u p => u.setReg (R.feLaneStatus p) (BitVec.ofNat 32 (laneWord r p))) s2
  let s4 := s3.setReg R.tbSiteMap (BitVec.ofNat 32 (((List.range 8).map (fun m => r.siteMap.getD m 0xF * 16 ^ m)).sum))
  let s5 := (s4.setBit R.mqState 29 (decide (r.pair % 2 = 1))).setBit R.mqState 28 image
  { s5 with compRetired := r.compRetired, expRetired := r.expRetired }

/-- The restore of a self-reset completes (R380, step 4): start-up is paused until PAD_RELEASE. -/
def restoreDone (s : State) : State :=
  if ! s.restoring then s
  else
    let next : Startup := if s.bit R.pwStatus 28 then .stopped else if ! s.bit R.stStatus 31 then .checks
      else if s.bit R.stStatus 30 then .paused else .stopped
    { (s.restore (s.bit R.cpBoot 0)) with restoring := false, startup := next }

def execSelfResetRestoreDone (s : State) : Result := .next (restoreDone s)

/-! ### The checks of a start (R382, R383) -/

/-- The record in use is named in CP_RECORD; where no copy is valid, the shipment record is written (R399). -/
def State.useRecord (s : State) : State :=
  match pickRecord s.flash0 s.flash1 with
  | some (copy, r) =>
    (((s.setBit R.cpRecord 31 true).setBit R.cpRecord 30 false).setBit R.cpRecord 28 copy).setReg R.cpRecordSeq r.seq
  | none =>
    let s1 := ((s.setBit R.cpRecord 31 false).setBit R.cpRecord 30 true).setBit R.cpRecord 28 false
    ({ s1 with record := { s.record with seq := 0 } } : State).startRecordWrite

/-- The outcomes of pending rows of a kind, in order: applied or refused. -/
def rowOutcomes (sel : RowEntry → Bool) : List RowEntry → List Bool → List RowEntry
  | [], _ => []
  | e :: l, oks =>
    if sel e && decide (e.state = 0) then { e with state := if oks.headD false then 1 else 2 } :: rowOutcomes sel l oks.tail
    else e :: rowOutcomes sel l oks

/-- Row outcomes go into the record where there are any. -/
def State.settleRows (s : State) (sel : RowEntry → Bool) (oks : List Bool) : State :=
  if s.record.rows.any (fun e => sel e && decide (e.state = 0)) then
    s.changeRecord (fun r => { r with rows := rowOutcomes sel r.rows oks })
  else s

/-- ST_STATUS: the stacks' results, DONE, and TIER_A_OK where every stack passed. -/
def stackWord (l : List StackCheck) : Nat :=
  2 ^ 31 + boolBit ((List.range 8).all (fun n => decide ((l.getD n 0).val = 0))) * 2 ^ 30 +
    ((List.range 8).map (fun n => (l.getD n 0).val * 4 ^ n)).sum

/-- Zuqueco's start-up checks finish (R382): it runs on the pair the record names, or stops where no image verifies or a
stack fails. -/
def checksDone (r : BootResult) (s : State) : State :=
  if s.startup ≠ .checks ∨ s.restoring ∨ ! s.powered then s
  else
    let s1 := s.useRecord
    let s2 := if r.imageAOk then s1 else s1.setReg R.cpVersionA 0
    let s3 := if r.imageBOk then s2 else s2.setReg R.cpVersionB 0
    match bootImage (s.bit R.cpBoot 0) r.imageAOk r.imageBOk with
    | none => { ((s3.setBit R.pwStatus 28 true).setFld R.mqState 30 2 2) with startup := .stopped }
    | some image =>
      let s4 := (s3.restore image).settleRows (fun e => decide (e.kind = 0)) r.rowsApplied
      let s5 := s4.setReg R.stStatus (BitVec.ofNat 32 (stackWord r.stackChecks))
      { s5 with stackIds := r.identities, startup := if s5.bit R.stStatus 30 then .paused else .stopped }

def execStartupChecksDone (result : BootResult) (s : State) : Result := .next (checksDone result s)

/-- Every module that is not a spare leaves self-refresh (R305). -/
def State.leaveSelfRefresh (s : State) : State :=
  (List.range 9).foldl (fun u b => u.setBit (R.tbSiteStatus b) 28 (decide (u.siteState b = 2))) s

/-! ### PAD_RELEASE and the continuation (R384, R390) -/

/-- A write of PAD_RELEASE.RELEASE = 1 with the pads held: start-up goes on where it is paused; else the modules leave
self-refresh. A start-up that has stopped brings no tier B into service. -/
def releasePads (value : Word) (s : State) : State :=
  if getField value 0 1 = 0 ∨ ! s.bit R.pwStatus 31 ∨ s.startup = .checks ∨ s.below then s
  else
    let s1 := s.setBit R.pwStatus 31 false
    match s.startup with
    | .paused => { s1 with startup := .continuing, padAt := s.cycle }
    | .done => { s1 with padExit := true, padAt := s.cycle }
    | _ => s1

/-- A write while the block is not Active is discarded; the host's waits with every later TLP until it is (R389, R390). -/
def execPadRelease (src : Requester) (value : Word) (s : State) : Result :=
  if s.below ∧ src ≠ .host then .next s else s.regWrite src R.padRelease value (releasePads value)

/-- Training of the sites that passed checks 1 to 5 (R296, check 6). -/
def State.trainSites (s : State) (trained : List Bool) : State :=
  (List.range 9).foldl (fun u b =>
    if u.siteState b = 0 ∨ u.siteState b = 5 ∨ trained.getD b false then u else u.siteFails b 6) s

/-- A RETIRED site with a new module becomes SPARE, and the record takes its serial number (R403). -/
def State.reviveSites (s : State) : State :=
  (List.range 9).foldl (fun u b =>
    if u.siteState b = 6 ∧ u.bit (R.tbSiteStatus b) 27 then
      (u.setSiteState b 2).changeRecord (fun r => { r with serials := r.serials.set b (u.site b).serial, siteState := r.siteState.set b 2 })
    else u) s

/-- Does a site serve no module: FAILED, or its SPD not read? -/
def State.siteLost (s : State) (b : Nat) : Bool := decide (9 ≤ b) || decide (s.siteState b = 5 ∨ s.siteState b = 0)

/-- Binding after a start from Off (R297): a module whose site is lost takes the spare, the lowest module first. -/
def State.bindCold (s : State) : State :=
  (List.range 8).foldl (fun u m =>
    if u.siteLost (u.siteOf m) then
      (match (List.range 9).find? (fun b => decide (u.siteState b = 2)) with
       | some b => (u.setFld R.tbSiteMap (4 * m) 4 b).setSiteState b 1
       | none => u.setFld R.tbSiteMap (4 * m) 4 0xF)
    else u) s

/-- Binding after a self-reset (R298): a module whose site is lost is unbound. -/
def State.bindKept (s : State) : State :=
  (List.range 8).foldl (fun u m => if u.siteLost (u.siteOf m) then u.setFld R.tbSiteMap (4 * m) 4 0xF else u) s

/-- A tier-B row of a module that is in place and passed. -/
def State.rowApplies (s : State) (e : RowEntry) : Bool :=
  decide (e.kind = 1) && ! s.siteLost e.unit && decide ((s.site e.unit).serial = e.serial)

/-- A write of PW_CORE_HOLD.RELEASE; discarded while READY is 0 (R381). -/
def releaseCores (value : Word) (s : State) : State :=
  if getField value 0 1 = 1 ∧ s.bit R.pwStatus 29 then s.setBit R.pwCoreHold 31 false else s

def execCoreHoldRelease (src : Requester) (value : Word) (s : State) : Result :=
  s.regWrite src R.pwCoreHold value (releaseCores value)

end Sys2Proof.Machine
end

