-- ==== Sys2Proof/Machine/Bus.lean ====
section
/-!
DEFINITION. The register bus (R4 to R7, R46, R47): reads and writes of any offset, the staged and latched words of the
lo/hi pairs (R5), the access types (R6), and the registers whose writes do more than set their fields.
-/
namespace Sys2Proof.Machine

/-! ### Reads -/

/-- The task that an engine runs. -/
def State.taskOf (s : State) (e : Nat) : Option Task := s.tasks.find? (fun t => decide (t.phase = .running) && decide (t.engine.map Fin.val = some e))

/-- The occupied slots of an arbiter. -/
def ArbRun.busy (a : ArbRun) : Nat := a.slots.length

/-- What a register holds for a reader: most are words of the register file, some are counted from the state, and the
write-only ones that the model keeps a request in read as zero (R6). -/
def State.readWord (s : State) (off : Nat) : Word :=
  if inArray 0x120040 4 16 off then s.reg (off - 0x40)
  else if inArray 0x30000C 0x1000 68 off then
    BitVec.ofNat 32 (match s.taskOf ((off - 0x30000C) / 0x1000) with | some t => t.staged | none => 0)
  else if inArray 0x300010 0x1000 68 off then
    BitVec.ofNat 32 (match s.taskOf ((off - 0x300010) / 0x1000) with | some t => t.issued | none => 0)
  else if off = R.tuXlating then BitVec.ofNat 32 (s.tasks.countP (fun t => decide (t.phase = .translating)))
  else if off = R.tuInvalPending then BitVec.ofNat 32 s.invals.length
  else if inArray 0x401004 8 4 off then BitVec.ofNat 32 (s.slotRefs ((off - 0x401004) / 8))
  else if inArray 0x52001C 0x40 256 off then BitVec.ofNat 32 (s.endpoint ((off - 0x52001C) / 0x40)).wait.length
  else if inArray 0x700004 0x100 11 off || inArray 0x701004 0x100 32 off then
    BitVec.ofNat 32 ((s.arb ((off - 0x700004) / 0x100)).parked.length * 2 ^ 7 + (s.arb ((off - 0x700004) / 0x100)).busy)
  else if inArray 0x540004 0x20 32 off then 0
  else if off = R.cpPair then s.reg off &&& 0x80000000
  else s.reg off

/-- A requester's number. -/
def reqNumber : Requester → Nat
  | .host => 0
  | .core n => 1 + n.val
  | .cp => 9

/-- A requester's own word of a pair (R5). -/
def pairSlot (src : Requester) (off : Nat) : Nat := reqNumber src * 2 ^ 26 + off

/-- A read of a pair's low word latches the high word. -/
def State.readLow (s : State) (src : Requester) (off : Nat) : State :=
  ({ s with latched := sset (fun _ => none) s.latched (pairSlot src (off + 4)) (some (s.readWord (off + 4))) } : State).emit
    (.regData src (s.readWord off))

/-- A read of a pair's high word returns the latched word once, else the present one. -/
def State.readHigh (s : State) (src : Requester) (off : Nat) : State :=
  ({ s with latched := sset (fun _ => none) s.latched (pairSlot src off) none } : State).emit
    (.regData src ((sget (fun _ => none) s.latched (pairSlot src off)).getD (s.readWord off)))

/-- A read of an RC register returns the value before this core cycle's increments and leaves the increments alone (R6,
R7); its other fields read as they are. -/
def State.readClear (s : State) (src : Requester) (off : Nat) (rc : Word) : State :=
  (s.clearRc off rc).emit (.regData src (s.rcWord off rc))

/-- A read of one word of the register region (R5, R6, R46). -/
def wordRead (src : Requester) (off : Nat) (s : State) : State :=
  if isPairLow off then s.readLow src off
  else if isPairHigh off then s.readHigh src off
  else match regRow off with
    | none => s.emit (.regData src 0)
    | some r => if r.rc = 0 then s.emit (.regData src (s.readWord off)) else s.readClear src off (BitVec.ofNat 32 r.rc)

/-- A read of the register region: of 4 aligned bytes, or of 8 bytes at a lo/hi pair, which acts as the low-word access
followed by the high-word access (R5); any other size or alignment is answered zero (R4). -/
def busRead (src : Requester) (off len : Nat) (s : State) : State :=
  if len = 4 ∧ off % 4 = 0 then wordRead src off s
  else if len = 8 ∧ isPairLow off then wordRead src (off + 4) (wordRead src off s)
  else s.emit (.regData src 0)

def execPairLowRead (src : Requester) (span : BusSpan) (s : State) : Result :=
  .next (s.gate (.regRead src span.offset span.len) (busRead src span.offset span.len))

def execRcRegisterRead (src : Requester) (offset len : Nat) (s : State) : Result :=
  .next (s.gate (.regRead src offset len) (busRead src offset len))

/-! ### Writes -/

/-- A write of SQ_CTL: one bit acts (R72). -/
def writeSqCtl (q : Nat) (v : Word) (s : State) : State :=
  match getField v 0 3 with
  | 1 => resumeQueue q s
  | 2 => skipEntry q s
  | 4 => pauseQueue q s
  | _ => s

/-- A write of SP_CTL: one bit acts (R273). -/
def writeSpCtl (p : Nat) (v : Word) (s : State) : State :=
  match getField v 0 3 with
  | 1 => resumePort p s
  | 2 => discardPort p s
  | 4 => flushPort p s
  | _ => s

/-- The registers whose writes have a meaning of their own: first offset, stride, count, and what a write does. -/
def writeRoutes : List (Nat × Nat × Nat × (Nat → Word → State → State)) :=
  [(R.nodeId, 1, 1, fun _ v => setNodeId v), (R.padRelease, 1, 1, fun _ v => releasePads v),
   (R.pwCoreHold, 1, 1, fun _ v => releaseCores v), (R.sqCtl 0, 0x40, 1024, writeSqCtl),
   (R.cqHead 0, 0x40, 256, fun c v s => s.setCqHead c (getField v 0 16)), (R.eventSet 0, 4, 16, setEvents),
   (R.eventClr 0, 4, 16, clearEvents), (R.tmrCtl 0, 0x20, 16, writeTmrCtl),
   (R.drtCtl 0 0, 0x20, 1024, commitDrt 0), (R.drtCtl 1 0, 0x20, 1024, commitDrt 1), (R.drtCtl 2 0, 0x20, 1024, commitDrt 2),
   (R.ctxMap 0, 4, 4096, writeCtxMap), (R.strHoldCtl, 1, 1, fun _ v => releaseFailed v), (R.crdVal 0, 0x10, 64, fun n v s => s.setReg (R.crdVal n) v),
   (R.crdAdd 0, 0x10, 64, addCredits), (R.feCtl, 1, 1, fun _ v => writeFeCtl v), (R.fePeerCfg 0, 0x10, 1024, writePeerCfg),
   (R.rxCfg 0, 0x40, 256, writeRxCfg), (R.rxHead 0, 0x40, 256, writeRxHead), (R.feLaneCtl 0, 0x20, 32, writeLaneCtl),
   (R.spSend 0, 0x1000, 64, sendMessage), (R.spCtl 0, 0x1000, 64, writeSpCtl),
   (R.jrCfg, 1, 1, fun _ v => writeJrCfg v), (R.jrHead, 1, 1, fun _ v => setJrHead (getField v 0 20)),
   (R.mqCfg, 1, 1, fun _ v => writeMqCfg v), (R.mqDoorbell, 1, 1, fun _ v => ringMqDoorbell v),
   (R.mqCqHead, 1, 1, fun _ v => writeMqCqHead v), (R.cpPair, 1, 1, fun _ v => switchPair v),
   (R.sqDoorbell 0, 0x1000, 1024, ringSqDoorbell), (R.cqHeadDoorbell 0, 0x1000, 1024, ringCqDoorbell)]

/-- A value that a register does not take: the write is discarded. -/
def State.refusesValue (s : State) (off : Nat) (v : Word) : Bool :=
  if off = R.tuGroupCfg then decide (getField v 0 10 = 0 ∨ 512 < getField v 0 10)
  else if off = R.strHoldLimit then decide (v = 0xFFFFFFFF)
  else if inArray (R.spWdog 0) 0x1000 64 off then decide (v = 0xFFFFFFFF)
  else if inArray (R.arbWdog 0) 0x100 48 off then decide (v = 0 ∨ v = 0xFFFFFFFF)
  else if off = R.tbEvacCfg then decide (getField v 0 4 = 0)
  else if off = R.tbRowCfg then decide (getField v 0 4 = 0 ∨ getField v 0 4 = 0xF)
  else if off = R.pwCfg then decide (getField v 0 16 = 0 ∨ getField v 0 16 = 0xFFFF)
  else if off = R.strSessionCfg then decide (16 < getField v 0 5)
  else if inArray (R.cqIrqDelay 0) 0x40 256 off then decide (1000 < getField v 0 10)
  else if inArray (R.rxTag 0) 0x40 256 off then s.rxEn ((off - R.rxTag 0) / 0x40)
  else if inArray (R.rxSrc 0) 0x40 256 off then s.rxEn ((off - R.rxSrc 0) / 0x40)
  else false

/-- A pair that keeps its value while its unit is enabled (R262, R324, R361). -/
def State.pairHeld (s : State) (low : Nat) : Bool :=
  if low = R.jrBaseLo then s.jrEn
  else if low = R.mqSqBaseLo ∨ low = R.mqCqBaseLo then s.mqEn
  else if inArray (R.rxBaseLo 0) 0x40 256 low then s.rxEn ((low - R.rxBaseLo 0) / 0x40)
  else false

/-- A write of a register by its access types (R6): a W1C bit that hardware has set in the same core cycle ends set
(R7). -/
def State.plainWrite (s : State) (off : Nat) (v : Word) : State :=
  match regRow off with
  | none => s
  | some r => if s.refusesValue off v then s
      else s.setReg off (writtenWord (s.reg off) v r.rw r.w1c r.w1s (s.setNow off &&& s.reg off &&& BitVec.ofNat 32 r.w1c).toNat)

/-- A write of a pair's low word is staged for its requester; a write of the high word commits both (R5). A write to a pair
that keeps its value is discarded, whichever word it is for. -/
def State.stageLow (s : State) (src : Requester) (off : Nat) (v : Word) : State :=
  if s.pairHeld off then s
  else { s with staged := sset (fun _ => none) s.staged (pairSlot src off) (some v) }

def State.commitPair (s : State) (src : Requester) (high : Nat) (v : Word) : State :=
  let low := high - 4
  if s.pairHeld low then s else
  let w := (sget (fun _ => none) s.staged (pairSlot src low)).getD (s.reg low)
  let s1 : State := { s with staged := sset (fun _ => none) s.staged (pairSlot src low) none }
  (s1.plainWrite low w).plainWrite high v

/-- The payload window of a send port (R281): its port and the offset in it. -/
def payloadAt (off : Nat) : Option (Nat × Nat) :=
  if 0x580000 ≤ off ∧ off < 0x5C0000 ∧ 0x100 ≤ off % 0x1000 ∧ off % 0x1000 < 0x1F0 then
    some ((off - 0x580000) / 0x1000, off % 0x1000 - 0x100)
  else none

/-- A write of one word. -/
def wordWrite (src : Requester) (off : Nat) (v : Word) (s : State) : State :=
  if isPairLow off then s.stageLow src off v
  else if isPairHigh off then s.commitPair src off v
  else match payloadAt off with
    | some (p, o) => { s with spPayload := putBytes s.spPayload (256 * p + o) (leBytes 4 v.toNat) }
    | none => match writeRoutes.find? (fun r => inArray r.1 r.2.1 r.2.2.1 off) with
      | some r => r.2.2.2 ((off - r.1) / r.2.1) v s
      | none => s.plainWrite off v

/-- The push window of a doorbell page (R58): its queue and the offset in it. -/
def pushAt (off : Nat) : Option (Nat × Nat) :=
  if 0xC00000 ≤ off ∧ off < 0x1000000 ∧ 0x400 ≤ off % 0x1000 ∧ off % 0x1000 < 0x800 then
    some ((off - 0xC00000) / 0x1000, off % 0x1000 - 0x400)
  else none

/-- A write to the register region: of 4 aligned bytes, of 8 bytes to a lo/hi pair, or to a push window; any other is
discarded (R4). -/
def busWrite (src : Requester) (off : Nat) (bytes : List Byte) (s : State) : State :=
  match pushAt off with
  | some (q, o) => writePush q o bytes s
  | none =>
    if bytes.length = 4 ∧ off % 4 = 0 then wordWrite src off (BitVec.ofNat 32 (leNat bytes)) s
    else if bytes.length = 8 ∧ isPairLow off then
      wordWrite src (off + 4) (BitVec.ofNat 32 (leNat (bytes.drop 4))) (wordWrite src off (BitVec.ofNat 32 (leNat (bytes.take 4))) s)
    else s

def execRegisterWrite (src : Requester) (offset len value : Nat) (s : State) : Result :=
  .next (s.gate (.reg src offset (leBytes len value)) (busWrite src offset (leBytes len value)))

/-! ### Compute cores (R29, R46, R285) -/

/-- The offset of a local address in the register region, and the aperture and offset of one in the apertures (R29). -/
def regionOffset (a : Nat) : Nat := a - 0x0F10_0000_0000
def apertureOf (a : Nat) : Nat × Nat := ((a - 0x0E00_0000_0000) / 2 ^ 36 % 16, (a - 0x0E00_0000_0000) % 2 ^ 36)

/-- A core's load: of a register, through an aperture (whose answer comes later), or of memory. An ordinary load answered
from the network's read buffers (R285) returns the buffered bytes and was checked when the line was fetched (R257); loads
of the scratchpad, of apertures and of registers are never buffered. -/
def execCoreLoad (core : Fin 8) (addr len : Nat) (buffered : Option (List Byte)) (cond : MemCond) (s : State) : Result :=
  .next (match regionOf addr, buffered with
    | .registers, _ => s.gate (.regRead (.core core) (regionOffset addr) len) (busRead (.core core) (regionOffset addr) len)
    | .aperture, _ =>
      if apertureSize (apertureOf addr).2 len then doApertureLoad core (apertureOf addr).1 (apertureOf addr).2 len .pending s else s
    | .scratch, _ => doCoreLoad core addr len cond s
    | _, some bs => s.emit (.coreData core (fitBytes len bs))
    | _, none => s.tierBGate addr (.coreLoad core addr len cond) (doCoreLoad core addr len cond))

/-- A core's store: of a register, through an aperture, or of memory. -/
def execCoreStore (core : Fin 8) (addr : Nat) (bytes : List Byte) (cond : MemCond) (s : State) : Result :=
  .next (match regionOf addr with
    | .registers => s.gate (.reg (.core core) (regionOffset addr) bytes) (busWrite (.core core) (regionOffset addr) bytes)
    | .aperture =>
      if apertureSize (apertureOf addr).2 bytes.length then doApertureStore core (apertureOf addr).1 (apertureOf addr).2 bytes s
      else s
    | _ => s.tierBGate addr (.coreStore core addr bytes cond) (doCoreStore core addr bytes cond))

/-! ### The fabric's time (R393) -/

/-- A correction of the global time counter: forward at once; backward by holding the counter. -/
def correctTime (delta : Int) (s : State) : State :=
  if 0 ≤ delta then { ((s.setReg64 R.gtcLo (s.gtc + delta.toNat)).setBit R.gtcStatus 31 true) with gtcHold := 0 }
  else { s with gtcHold := delta.natAbs }

def execFabricTimeCorrection (delta : Int) (s : State) : Result := .next (correctTime delta s)

end Sys2Proof.Machine
end

