-- ==== Sys2Proof/Machine/Power.lean ====
section
/-!
DEFINITION. Power states (R385 to R389, R392): entry, wake, and the accesses held meanwhile; tier B's return to service with
the accesses that waited for it (R384, R390, R391).
-/
namespace Sys2Proof.Machine

/-! ### Idle (R388) -/

/-- Is the block idle: no task, no command, no running step, nothing in progress on the fabric or the host link? -/
def State.isIdle (s : State) : Bool :=
  decide (s.tasks = []) && ! s.mqBusy && ! s.bit R.strRun 31 && decide (s.credits = []) &&
    (List.range 64).all (fun p => decide ((s.port p).fifo = [])) && s.rx.all (fun x => decide (x.2.granted = [])) &&
    decide (s.apLoads = []) && s.sqs.all (fun x => ! x.2.outstanding && decide (x.2.stale = [])) && decide (s.xorphans = [])

/-- AUTO_IDLE: the block has been idle for IDLE_US microseconds. -/
def autoIdle (s : State) : State :=
  if s.bit R.pwCfg 31 ∧ s.power = .active ∧ ! s.below ∧ s.isIdle ∧ s.fld R.pwCfg 0 16 * cyclesPerUs ≤ s.idleCycles then
    s.beginEntry .idleGated
  else s

def execAutoIdleExpiry (s : State) : Result := .next (autoIdle s)

/-! ### Wake (R386, R387, R392) -/

/-- A wake source is presented with the accesses that arrive with it: latched while the block enters a state; the start
of a wake below Active; neither recorded nor acted on while a wake is in progress. -/
def wakeEvent (w : WakeSource) (held : List HeldAccess) (s : State) : State :=
  if ! s.powered ∨ ! s.below then s
  else
    if s.entering.isSome ∨ s.waking.isSome ∨ wakes s.power w then (held.foldl State.hold s).wakeBy w else s

def execWakeEvent (source : WakeSource) (held : List HeldAccess) (s : State) : Result := .next (wakeEvent source held s)

/-- Have the tier-B controllers completed the requests they have accepted (R305)? -/
def State.linesDone (s : State) : Bool := s.sites.all (fun x => x.2.held.all (fun h => ! h.accepted))

/-- Core cycles that entry into a state takes (R387). -/
def entryCycles : PState → Nat
  | .active => 0
  | .idleGated => 4 * cyclesPerUs
  | .bankHold => 10 * cyclesPerUs
  | .retention => 50 * cyclesPerUs
  | .off => 2000 * cyclesPerUs

/-- The wake delay from a state, in core cycles (R386). -/
def wakeDelay : PState → Nat
  | .active => 0
  | .idleGated => 2 * cyclesPerUs
  | .bankHold => 18 * cyclesPerUs
  | .retention => 1200 * cyclesPerUs
  | .off => 250000 * cyclesPerUs

/-- Entry completes; a wake latched meanwhile starts at once. On the way to Off everything but the always-on slice is
lost. -/
def entryComplete (s : State) : State :=
  match s.entering with
  | none => s
  | some p =>
    if ! s.linesDone ∨ s.cycle < s.powerAt + entryCycles p then s
    else
    let s1 : State := if p = .off then { s.offState with latchedWake := s.latchedWake } else { s with entering := none, power := p }
    match s1.latchedWake with
    | some w => s1.startWake w
    | none => s1

def execPowerEntryComplete (s : State) : Result := .next (entryComplete s)

/-- An access held below Active, made now. -/
def State.forward (s : State) (w : HeldAccess) : State :=
  match w with
  | .reg src off bytes => busWrite src off bytes s
  | .regRead src off len => busRead src off len s
  | .bar2Read off len pasid cond => s.tierBGate (s.bar2Local off) w (doBar2Read off len pasid cond)
  | .bar2Write off bytes pasid _ cond => s.tierBGate (s.bar2Local off) w (doBar2Write off bytes pasid cond)
  | .coreLoad core a len cond => s.tierBGate a w (doCoreLoad core a len cond)
  | .coreStore core a bytes cond => s.tierBGate a w (doCoreStore core a bytes cond)
  | .coreAtomic core a r cond => s.tierBGate a w (doCoreAtomic core a r cond)
  | .remote node r cond _ => doRemote node r cond s

/-- The receive endpoints whose rings can be written serve the requests that wait (R269). -/
def State.serveEndpoints (s : State) : State := (List.range 256).foldl State.serveWaiting s

/-- The block is Active: held accesses are made in the order they came (R389). -/
def wakeComplete (s : State) : State :=
  match s.waking with
  | none => s
  | some p =>
    if s.cycle < s.powerAt + wakeDelay p then s
    else
    let s1 : State := { s with waking := none, power := .active, idleCycles := 0, wakeBuf := [] }
    (s.wakeBuf.foldl State.forward s1).serveEndpoints

def execWakeComplete (s : State) : Result := .next (wakeComplete s)

/-! ### Tier B serves again (R390, R391) -/

/-- An access that waited for tier B, or behind one that did (R286, R287). A remote access has passed its window. -/
def State.replay (s : State) (w : HeldAccess) : State :=
  match w with
  | .remote node r cond win => pastWindow win node r cond s
  | _ => s.forward w

/-- TB_READY becomes 1: what waits under R391 goes on. -/
def State.tierBServes (s : State) : State :=
  let s1 := s.setBit R.pwStatus 30 true
  (s1.padWait.foldl State.replay { s1 with padWait := [] }).serveEndpoints

/-- The modules have left self-refresh, 2 µs after the release. -/
def selfRefreshExit (s : State) : State :=
  if s.padExit ∧ s.padAt + 2 * cyclesPerUs ≤ s.cycle then ({ s with padExit := false } : State).leaveSelfRefresh.tierBServes else s

def execSelfRefreshExit (s : State) : Result := .next (selfRefreshExit s)

/-- The continuation ends: tier B serves, RETRY is cleared on every port, READY is set. -/
def continuationDone (trained rowsApplied : List Bool) (s : State) : State :=
  if s.startup ≠ .continuing ∨ (! s.coldStart ∧ s.cycle < s.padAt + 2 * cyclesPerUs) then s
  else
    let s1 := if s.coldStart then
        let t := s.trainSites trained
        (t.settleRows t.rowApplies rowsApplied).reviveSites.bindCold
      else s.bindKept
    let s2 := (List.range 48).foldl (fun u n => u.setBit (R.arbCtl n) 31 false) s1.leaveSelfRefresh
    let s3 : State := { s2 with startup := .done, coldStart := false }
    (s3.setBit R.pwStatus 29 true).tierBServes

def execStartupContinuationDone (trained rowsApplied : List Bool) (s : State) : Result :=
  .next (continuationDone trained rowsApplied s)

end Sys2Proof.Machine
end

