-- ==== Sys2Proof/Machine/Dispatch.lean ====
section
/-!
DEFINITION. One command, one meaning: the arms of `exec`.
-/
namespace Sys2Proof.Machine

/-- A command's effect on everything but the queue. -/
def exec (i : Instr) (s : State) : Host.Outcome State Fault Refusal :=
  match i with
  | .registerWrite src offset len value => Sys2Proof.Machine.execRegisterWrite src offset len value s
  | .pairLowRead src span => Sys2Proof.Machine.execPairLowRead src span s
  | .rcRegisterRead src offset len => Sys2Proof.Machine.execRcRegisterRead src offset len s
  | .fabricTimeCorrection delta => Sys2Proof.Machine.execFabricTimeCorrection delta s
  | .lockstepDisagree => Sys2Proof.Machine.execLockstepDisagree s
  | .nodeIdWrite src value => Sys2Proof.Machine.execNodeIdWrite src value s
  | .drtCtlWrite src group n value => Sys2Proof.Machine.execDrtCtlWrite src group n value s
  | .bar2Read offset len pasid cond => Sys2Proof.Machine.execBar2Read offset len pasid cond s
  | .bar2Write offset bytes attr cond => Sys2Proof.Machine.execBar2Write offset bytes attr cond s
  | .bar2Atomicop offset => Sys2Proof.Machine.execBar2Atomicop offset s
  | .peerToPeerRequest read => Sys2Proof.Machine.execPeerToPeerRequest read s
  | .apertureLoad core ap offset len answer => Sys2Proof.Machine.execApertureLoad core ap offset len answer s
  | .apertureStore core ap offset bytes => Sys2Proof.Machine.execApertureStore core ap offset bytes s
  | .coreLoad core addr len buffered cond => Sys2Proof.Machine.execCoreLoad core addr len buffered cond s
  | .coreStore core addr bytes cond => Sys2Proof.Machine.execCoreStore core addr bytes cond s
  | .coreAtomic core addr req cond => Sys2Proof.Machine.execCoreAtomic core addr req cond s
  | .fabricRemoteAccess node acc cond => Sys2Proof.Machine.execFabricRemoteAccess node acc cond s
  | .sqDoorbell src q value => Sys2Proof.Machine.execSqDoorbell src q value s
  | .pushWindowWrite src q offset bytes => Sys2Proof.Machine.execPushWindowWrite src q offset bytes s
  | .cqHeadDoorbell src q value => Sys2Proof.Machine.execCqHeadDoorbell src q value s
  | .cqHeadWrite src c value => Sys2Proof.Machine.execCqHeadWrite src c value s
  | .sqHeaderReadResponse q answer => Sys2Proof.Machine.execSqHeaderReadResponse q answer s
  | .sqHeaderReread q => Sys2Proof.Machine.execSqHeaderReread q s
  | .sqMarkTimeout q => Sys2Proof.Machine.execSqMarkTimeout q s
  | .sqPrefetchRead q answer => Sys2Proof.Machine.execSqPrefetchRead q answer s
  | .entryAccept q answer => Sys2Proof.Machine.execEntryAccept q answer s
  | .sqPause src q => Sys2Proof.Machine.execSqPause src q s
  | .sqResume src q => Sys2Proof.Machine.execSqResume src q s
  | .sqSkip src q => Sys2Proof.Machine.execSqSkip src q s
  | .blockListFetchComplete t cond => Sys2Proof.Machine.execBlockListFetchComplete t cond s
  | .rangeStoreReserve t => Sys2Proof.Machine.execRangeStoreReserve t s
  | .translationRequestIssue => Sys2Proof.Machine.execTranslationRequestIssue s
  | .translationCompletion t answer => Sys2Proof.Machine.execTranslationCompletion t answer s
  | .translationTimeout t => Sys2Proof.Machine.execTranslationTimeout t s
  | .pageRequestGroup t => Sys2Proof.Machine.execPageRequestGroup t s
  | .prgResponse prg code => Sys2Proof.Machine.execPrgResponse prg code s
  | .priReenable => Sys2Proof.Machine.execPriReenable s
  | .invalidateRequest pasid global addr len => Sys2Proof.Machine.execInvalidateRequest pasid global addr len s
  | .invalidateCompletion => Sys2Proof.Machine.execInvalidateCompletion s
  | .ctxMapWrite src c value => Sys2Proof.Machine.execCtxMapWrite src c value s
  | .dispatch => Sys2Proof.Machine.execDispatch s
  | .readIssue t => Sys2Proof.Machine.execReadIssue t s
  | .readResponse t no answer => Sys2Proof.Machine.execReadResponse t no answer s
  | .ingotExpand t => Sys2Proof.Machine.execIngotExpand t s
  | .executeWrite e => Sys2Proof.Machine.execExecuteWrite e s
  | .compressBlockDone t => Sys2Proof.Machine.execCompressBlockDone t s
  | .writeAck t answer => Sys2Proof.Machine.execWriteAck t answer s
  | .flushReadCompletion t ok => Sys2Proof.Machine.execFlushReadCompletion t ok s
  | .completionRecordWrite t => Sys2Proof.Machine.execCompletionRecordWrite t s
  | .completionRecordAck t answer => Sys2Proof.Machine.execCompletionRecordAck t answer s
  | .cqIrqDelayExpiry c => Sys2Proof.Machine.execCqIrqDelayExpiry c s
  | .journalAppend t cond => Sys2Proof.Machine.execJournalAppend t cond s
  | .journalEnable src value => Sys2Proof.Machine.execJournalEnable src value s
  | .journalDisable src value => Sys2Proof.Machine.execJournalDisable src value s
  | .waitComplete t => Sys2Proof.Machine.execWaitComplete t s
  | .fenceComplete t => Sys2Proof.Machine.execFenceComplete t s
  | .eventSetWrite src k value => Sys2Proof.Machine.execEventSetWrite src k value s
  | .eventClrWrite src k value => Sys2Proof.Machine.execEventClrWrite src k value s
  | .timerFire t => Sys2Proof.Machine.execTimerFire t s
  | .tmrCtlWrite src t value => Sys2Proof.Machine.execTmrCtlWrite src t value s
  | .stepStartStrobe => Sys2Proof.Machine.execStepStartStrobe s
  | .stepEndStrobe => Sys2Proof.Machine.execStepEndStrobe s
  | .tileDeadline n tile => Sys2Proof.Machine.execTileDeadline n tile s
  | .barrierCycle => Sys2Proof.Machine.execBarrierCycle s
  | .generationWordWrite n => Sys2Proof.Machine.execGenerationWordWrite n s
  | .tileComplete n => Sys2Proof.Machine.execTileComplete n s
  | .holdLimitReached => Sys2Proof.Machine.execHoldLimitReached s
  | .releaseFailed src value => Sys2Proof.Machine.execReleaseFailed src value s
  | .crdAddWrite src n value => Sys2Proof.Machine.execCrdAddWrite src n value s
  | .crdValWrite src n value => Sys2Proof.Machine.execCrdValWrite src n value s
  | .stepBoundaryApply => Sys2Proof.Machine.execStepBoundaryApply s
  | .stepCloseComplete => Sys2Proof.Machine.execStepCloseComplete s
  | .collectiveCreditGrant t rank stage grant => Sys2Proof.Machine.execCollectiveCreditGrant t rank stage grant s
  | .collectivePieceSend t rank => Sys2Proof.Machine.execCollectivePieceSend t rank s
  | .collectivePieceReceive t piece => Sys2Proof.Machine.execCollectivePieceReceive t piece s
  | .collectiveFailureNotice ctag status => Sys2Proof.Machine.execCollectiveFailureNotice ctag status s
  | .multicastDetachTimeout t rank => Sys2Proof.Machine.execMulticastDetachTimeout t rank s
  | .feCtlWrite src value => Sys2Proof.Machine.execFeCtlWrite src value s
  | .fabricPortDrained p => Sys2Proof.Machine.execFabricPortDrained p s
  | .fabricRequestTimeout owner => Sys2Proof.Machine.execFabricRequestTimeout owner s
  | .hostRequestTimeout owner => Sys2Proof.Machine.execHostRequestTimeout owner s
  | .lateResponse host => Sys2Proof.Machine.execLateResponse host s
  | .fabricPacketCrcFail p resent source owner => Sys2Proof.Machine.execFabricPacketCrcFail p resent source owner s
  | .rxEnable src r value => Sys2Proof.Machine.execRxEnable src r value s
  | .rxDisable src r value => Sys2Proof.Machine.execRxDisable src r value s
  | .rxHeadWrite src r value => Sys2Proof.Machine.execRxHeadWrite src r value s
  | .creditRequestArrival node tag count => Sys2Proof.Machine.execCreditRequestArrival node tag count s
  | .creditAnswerArrival node tag answer => Sys2Proof.Machine.execCreditAnswerArrival node tag answer s
  | .creditRetryBackoff node tag => Sys2Proof.Machine.execCreditRetryBackoff node tag s
  | .messagePacketArrival packet cond => Sys2Proof.Machine.execMessagePacketArrival packet cond s
  | .messageSlotWritten r slot => Sys2Proof.Machine.execMessageSlotWritten r slot s
  | .deliveryReply node tag seq => Sys2Proof.Machine.execDeliveryReply node tag seq s
  | .messageRefusalAnswer p answer => Sys2Proof.Machine.execMessageRefusalAnswer p answer s
  | .slotGrantTimeout r slot => Sys2Proof.Machine.execSlotGrantTimeout r slot s
  | .spSend src p value => Sys2Proof.Machine.execSpSend src p value s
  | .spResume src p => Sys2Proof.Machine.execSpResume src p s
  | .spDiscard src p => Sys2Proof.Machine.execSpDiscard src p s
  | .spFlush src p => Sys2Proof.Machine.execSpFlush src p s
  | .sendWatchdogExpiry p => Sys2Proof.Machine.execSendWatchdogExpiry p s
  | .heartbeatSend => Sys2Proof.Machine.execHeartbeatSend s
  | .heartbeatReceive node incarnation => Sys2Proof.Machine.execHeartbeatReceive node incarnation s
  | .peerHeartbeatTimeout n => Sys2Proof.Machine.execPeerHeartbeatTimeout n s
  | .peerCfgWrite src n value => Sys2Proof.Machine.execPeerCfgWrite src n value s
  | .tierBRead addr errors row owner => Sys2Proof.Machine.execTierBRead addr errors row owner s
  | .rowLogCopy site n => Sys2Proof.Machine.execRowLogCopy site n s
  | .scrubRead site errors row => Sys2Proof.Machine.execScrubRead site errors row s
  | .refreshDue site bank writes => Sys2Proof.Machine.execRefreshDue site bank writes s
  | .refreshRatePoll site rate => Sys2Proof.Machine.execRefreshRatePoll site rate s
  | .evacuationCopyLine errors row => Sys2Proof.Machine.execEvacuationCopyLine errors row s
  | .spdReadout site result => Sys2Proof.Machine.execSpdReadout site result s
  | .spdResponseTimeout site => Sys2Proof.Machine.execSpdResponseTimeout site s
  | .arbiterRequestArrival port req => Sys2Proof.Machine.execArbiterRequestArrival port req s
  | .arbiterDecision port ending contenders => Sys2Proof.Machine.execArbiterDecision port ending contenders s
  | .arbiterRetryBackoff port index => Sys2Proof.Machine.execArbiterRetryBackoff port index s
  | .portWatchdogExpiry port slot => Sys2Proof.Machine.execPortWatchdogExpiry port slot s
  | .mqEnable src value => Sys2Proof.Machine.execMqEnable src value s
  | .mqDisable src value => Sys2Proof.Machine.execMqDisable src value s
  | .mqDoorbell src value => Sys2Proof.Machine.execMqDoorbell src value s
  | .mqPacketRead cond => Sys2Proof.Machine.execMqPacketRead cond s
  | .mqPacketReread => Sys2Proof.Machine.execMqPacketReread s
  | .mqMarkTimeout => Sys2Proof.Machine.execMqMarkTimeout s
  | .mqReplyWrite => Sys2Proof.Machine.execMqReplyWrite s
  | .mqCqHeadWrite src value => Sys2Proof.Machine.execMqCqHeadWrite src value s
  | .queueCreate xlate => Sys2Proof.Machine.execQueueCreate xlate s
  | .queueDestroy => Sys2Proof.Machine.execQueueDestroy s
  | .abort => Sys2Proof.Machine.execAbort s
  | .abortComplete => Sys2Proof.Machine.execAbortComplete s
  | .tableLoad cond => Sys2Proof.Machine.execTableLoad cond s
  | .tableInstallComplete => Sys2Proof.Machine.execTableInstallComplete s
  | .windowOpen => Sys2Proof.Machine.execWindowOpen s
  | .windowClose => Sys2Proof.Machine.execWindowClose s
  | .windowCloseDrained => Sys2Proof.Machine.execWindowCloseDrained s
  | .epochSet => Sys2Proof.Machine.execEpochSet s
  | .powerSet => Sys2Proof.Machine.execPowerSet s
  | .engineRetire => Sys2Proof.Machine.execEngineRetire s
  | .engineRetireDrained => Sys2Proof.Machine.execEngineRetireDrained s
  | .siteEvacuate spd trained => Sys2Proof.Machine.execSiteEvacuate spd trained s
  | .siteEvacuateCancel => Sys2Proof.Machine.execSiteEvacuateCancel s
  | .identRead cond => Sys2Proof.Machine.execIdentRead cond s
  | .telemetrySnap cond => Sys2Proof.Machine.execTelemetrySnap cond s
  | .flagWrite => Sys2Proof.Machine.execFlagWrite s
  | .firmwareStage signatureOk cond => Sys2Proof.Machine.execFirmwareStage signatureOk cond s
  | .firmwareStageDone readBackOk => Sys2Proof.Machine.execFirmwareStageDone readBackOk s
  | .firmwareSwitch => Sys2Proof.Machine.execFirmwareSwitch s
  | .firmwareSwitchFinal => Sys2Proof.Machine.execFirmwareSwitchFinal s
  | .firmwareSwitchTimeout => Sys2Proof.Machine.execFirmwareSwitchTimeout s
  | .powerOn => Sys2Proof.Machine.execPowerOn s
  | .powerRemoved => Sys2Proof.Machine.execPowerRemoved s
  | .hostLinkDown => Sys2Proof.Machine.execHostLinkDown s
  | .hostLinkUp => Sys2Proof.Machine.execHostLinkUp s
  | .linkLossTimeout => Sys2Proof.Machine.execLinkLossTimeout s
  | .hotReset => Sys2Proof.Machine.execHotReset s
  | .functionLevelReset => Sys2Proof.Machine.execFunctionLevelReset s
  | .perstAssert => Sys2Proof.Machine.execPerstAssert s
  | .selfResetRestoreDone => Sys2Proof.Machine.execSelfResetRestoreDone s
  | .startupChecksDone result => Sys2Proof.Machine.execStartupChecksDone result s
  | .padRelease src value => Sys2Proof.Machine.execPadRelease src value s
  | .startupContinuationDone trained rowsApplied => Sys2Proof.Machine.execStartupContinuationDone trained rowsApplied s
  | .coreHoldRelease src value => Sys2Proof.Machine.execCoreHoldRelease src value s
  | .autoIdleExpiry => Sys2Proof.Machine.execAutoIdleExpiry s
  | .powerEntryComplete => Sys2Proof.Machine.execPowerEntryComplete s
  | .wakeEvent source held => Sys2Proof.Machine.execWakeEvent source held s
  | .wakeComplete => Sys2Proof.Machine.execWakeComplete s
  | .laneRemap src p value => Sys2Proof.Machine.execLaneRemap src p value s
  | .laneRestore src p value => Sys2Proof.Machine.execLaneRestore src p value s
  | .laneRemapDone p trained => Sys2Proof.Machine.execLaneRemapDone p trained s
  | .cpPairSwitch src value => Sys2Proof.Machine.execCpPairSwitch src value s
  | .sparePairReady imageAOk imageBOk => Sys2Proof.Machine.execSparePairReady imageAOk imageBOk s
  | .repairRecordWriteDone readBackOk => Sys2Proof.Machine.execRepairRecordWriteDone readBackOk s
  | .selfRefreshExit => Sys2Proof.Machine.execSelfRefreshExit s
  | .atsEnable en => Sys2Proof.Machine.execAtsEnable en s
  | .tierARowReport stack pseudoChannel bank row => Sys2Proof.Machine.execTierARowReport stack pseudoChannel bank row s

end Sys2Proof.Machine
end

