-- ==== Sys2Proof/Machine/Tick.lean ====
section
/-!
DEFINITION. One core cycle of the block with no command: the counters of cycles, the global time counter, the schedule
and the waits that times are measured by (DESIGN CHOICE, log 3).
-/
namespace Sys2Proof.Machine

/-! ### The end of a core cycle, and what its events cause in the next (R413) -/

/-- A core cycle ends: an ABORT read in it has acted (R337), the flags as they stand are observed (R75), and the tasks that have finished in it reach their rings
(R85). The next begins with nothing done in it. -/
def State.nextCycle (s : State) : State :=
  let s1 := (abortScope s).observe
  { s1 with tasks := s1.tasks.map (fun t => t.arrives s1.cycle), cycle := s1.cycle + 1, now := CycleRun.fresh }

/-- A first-event register takes the event unless it holds one. -/
def State.landLatch (s : State) (l : Latch) : State :=
  if s.bit l.off 31 then s
  else (((l.also.foldl (fun u w => u.setReg w.1 w.2) s).setReg l.off (BitVec.ofNat 32 (2 ^ 31 + l.val)))).noteSet l.off 0x80000000

/-- A latch put in its place: those of one core cycle in order of their keys, equal ones as they came. -/
def insertLatch (l : Latch) : List Latch → List Latch
  | [] => [l]
  | x :: t => if l.key < x.key then l :: x :: t else x :: insertLatch l t

/-- A machine-check event put in its place: those of one core cycle in order of SOURCE and UNIT, equal ones as they came. -/
def insertEvent (e : McEvent) : List McEvent → List McEvent
  | [] => [e]
  | x :: t => if e.source < x.source ∨ (e.source = x.source ∧ e.unit < x.unit) then e :: x :: t else x :: insertEvent e t

/-- What the last core cycle's events cause lands: flags, a set outlasting a clear (R79); the records of first events; the entries
of the machine-check log (R356); failure notices (R181). -/
def State.land (s : State) : State :=
  let s0 : State := { s with later := { events := [], flags := [], latches := [], notices := [] } }
  let s1 := (s.later.flags.filter (fun f => ! f.2)).foldl (fun u f => u.putFlag f.1 false) s0
  let s2 := (s.later.flags.filter (fun f => f.2)).foldl (fun u f => u.setFlag f.1) s1
  let s3 := (s.later.latches.foldl (fun l x => insertLatch x l) []).foldl State.landLatch s2
  let s4 := (s.later.events.foldl (fun l x => insertEvent x l) []).foldl State.logEvent s3
  s.later.notices.foldl State.sendNotices s4

/-! ### The global time counter (R1, R393) -/

/-- The counter advances unless a backward correction holds it; it is aligned again when the hold ends. -/
def State.tickTime (s : State) : State :=
  if s.gtcHold = 0 then s.bump64 R.gtcLo 1
  else if s.gtcHold = 1 then ({ s with gtcHold := 0 } : State).setBit R.gtcStatus 31 true
  else { s with gtcHold := s.gtcHold - 1 }

/-! ### The array cycle: two core cycles (R1, R207) -/

def State.tickArray (s : State) : State :=
  if s.halfCycle then ({ s with halfCycle := false } : State).endArrayCycle.keepHolds.startArrayCycle else { s with halfCycle := true }

/-! ### Counters of waiting cycles -/

/-- Tasks that wait for room in their completion ring (R86), or in the journal (R364). -/
def State.tickRings (s : State) : State :=
  s.tasks.foldl (fun u t =>
    let c := entryRing t.entry
    if t.phase = .finished ∧ ! s.cqStopped c ∧ s.cqFull c then u.bump (R.cqFullStall c) 1
    else if t.phase = .journal ∧ s.jrEn ∧ ! s.jrStopped ∧ s.jrFull ∧ ! s.bit R.jrCfg 30 then u.bump R.jrFullStall 1
    else u) s

/-- Does a COLLECTIVE task wait for a member's credit for a piece whose bytes it has (R176, R275)? -/
def State.waitsForCredit (s : State) (t : Task) : Bool :=
  openCollective t && decide (t.phase = .running) && (t.peersOf s.node).any (fun q =>
    match t.nextPiece s.node q with
    | none => false
    | some (r, stage, i) => (t.pieceBytes s.node stage q i).isSome && ! t.coll.credits.contains (r, stage, i))

/-- Messages that wait for a grant: TC_STALL by tag, one a port, and the watchdog count of each port whose oldest message
waits (R274, R282). -/
def State.tickPorts (s : State) : State :=
  let s1 := (List.range 64).foldl (fun u p =>
    if u.spStopped p then u
    else match (u.unsent p).head? with
      | none => u
      | some m =>
        let v := u.countTag R.tcStall m.tag 1
        if ((u.port p).fifo.head?).any (fun h => ! h.sent) then v.putPort p { v.port p with waited := (v.port p).waited + 1 } else v) s
  s.tasks.foldl (fun u t => if s.waitsForCredit t then u.countTag R.tcStall (collCtl t.entry).ctag 1 else u) s1

/-- The requests of a task that wait for tier B: reads, writes, and its record's write to a ring there (R391). -/
def State.padWaits (s : State) (t : Task) : Nat :=
  (t.issueQ.filter (fun i => ! i.answered && decide (i.req.space = .device) && s.localWaits i.req.addr)).length +
    (t.pendingW.filter (fun w => decide (w.space = .device) && (w.cells.head?.map (fun c => s.localWaits c.addr)).getD false)).length +
    (if t.phase = .recordIssued ∧ ! s.cqHost (entryRing t.entry) ∧ s.tierBWaits (s.cqSlot (entryRing t.entry) t.recordPos) then 1
     else 0)

/-- Is an access that waits one of tier B's, and not one ordered behind it (R286, R287)? -/
def State.waitsForPads (s : State) (w : HeldAccess) : Bool :=
  match w with
  | .reg _ _ _ => false
  | .regRead _ _ _ => false
  | .bar2Read off _ _ _ => s.tierBWaits (s.bar2Local off)
  | .bar2Write off _ _ _ _ => s.tierBWaits (s.bar2Local off)
  | _ => true

/-- Each waiting tier-B request counts its core cycle in PW_PAD_WAIT (R391, log 20). -/
def State.tickPads (s : State) : State :=
  if s.tbReady then s
  else s.bump R.pwPadWait (s.padWait.countP s.waitsForPads + (s.sites.map (fun x => x.2.held.countP (fun h => ! h.accepted))).sum + (s.tasks.map s.padWaits).sum +
    (s.sqs.filter (fun x => x.2.outstanding && s.sqWaits x.1)).length)

/-- An engine whose next read is withheld counts it in ENG_GATED (R213, R214, R224, R228). -/
def State.tickEngines (s : State) : State :=
  s.tasks.foldl (fun u t => match t.engine, s.nextRead t with
    | some e, some r => if t.phase = .running ∧ s.gated t r then u.bump (R.engGated e) 1 else u
    | _, _ => u) s

/-- A requester held on a full pending queue (R318, R323). -/
def State.tickArbiters (s : State) : State :=
  ((List.range 48).filter (fun n => decide (n < 11 ∨ 16 ≤ n))).foldl (fun u n =>
    match ((u.arb n).held.filter (fun w => decide (w.req.owner ≠ .heartbeat))).length with
    | 0 => u
    | k => u.bump (R.arbFullStall n) k) s

/-! ### Waits -/

/-- The wait behind an incomplete STEP_CLOSE, which R230 does not count. -/
def State.tickCloseWait (s : State) : State :=
  { s with tasks := s.tasks.map (fun t =>
      if (t.phase = .queued ∨ t.phase = .bindWait) ∧ s.behindClose t then { t with closeWait := t.closeWait + 1 } else t) }

/-- The lengths of the link's loss (R378) and of the idle period (R388). -/
def State.tickTimers (s : State) : State :=
  { s with linkDownCycles := if s.linkDown ∧ s.linkDownCycles < lossTaken then s.linkDownCycles + 1 else s.linkDownCycles,
           idleCycles := if s.isIdle then s.idleCycles + 1 else 0 }

/-- An accepted POWER_SET to Idle-gated takes effect once the block is idle and its reply is written (R343, R388). -/
def State.tickIdleGated (s : State) : State :=
  if s.mq.powerTo = some 1 ∧ s.isIdle ∧ s.mq.replies.all (fun r => decide (r.opcode ≠ 0x88)) ∧ ! s.below then
    s.beginEntry .idleGated
  else s

/-- A core cycle of a block that runs. -/
def State.tickRunning (s : State) : State :=
  s.tickArray.tickRings.tickPorts.tickPads.tickEngines.tickArbiters.tickCloseWait.tickTimers.tickIdleGated

/-- One core cycle (log 3). What the last one's events cause lands, held packets are placed (R406), messages accepted in it
request credit (R269), refreshes end (R303). Without power nothing counts time, and in Off only the always-on slice does (R385, R393). -/
def State.tick (s : State) : State :=
  let s1 := s.nextCycle.land.releaseHeld.requestCredits.endRefreshes
  if ! s.powered then s1
  else if s.power = .off then s1.tickTime
  else s1.tickTime.tickRunning

end Sys2Proof.Machine
end

