-- ==== Sys2Proof/Safety.lean ====
section
/-!
DEFINITION. What holds of every state a run of the block reaches, in the terms statements use: the canonical form of its
memory and of its register file; what a command leaves alone; which commands may store to memory, and which may change
the region table, the copies of the repair record in flash, or the power state.
-/
namespace Sys2Proof.Machine

/-! ### The canonical form -/

/-- Local memory is in canonical form: `g` tells what an unlisted address reads as (log 12). -/
def Memory.wf (g : Nat) (m : SMap Byte) : Bool := swf (memDefault g) m

/-- The register file is in canonical form. -/
def Registers.wf (m : SMap Word) : Bool := swf resetWord m

/-- The two tables of the state that hold addressed data are in canonical form. -/
def State.wf (s : State) : Bool := Memory.wf s.memGen s.mem && Registers.wf s.regs

/-! ### What a command leaves alone -/

/-- Every byte of local memory reads as before. -/
def State.sameMem (s t : State) : Prop := ∀ a, t.readByte a = s.readByte a

/-- Every byte of local memory outside an interval reads as before. -/
def State.sameMemBut (s t : State) (a len : Nat) : Prop := ∀ x, x < a ∨ a + len ≤ x → t.readByte x = s.readByte x

/-- Every register but those of a list reads as before. -/
def State.regsBut (s t : State) (l : List Nat) : Prop := ∀ o, o ∉ l → t.reg o = s.reg o

/-- Nothing has changed but registers of a list, and what is noted of this core cycle and for the next. -/
def State.onlyRegs (s t : State) (l : List Nat) : Prop :=
  t = { s with regs := t.regs, now := t.now, later := t.later } ∧ s.regsBut t l

/-- The same with what has left the block: the transfers given, newest first. -/
def State.onlyRegsOut (s t : State) (l : List Nat) (o : List Out) : Prop :=
  t = { s with regs := t.regs, now := t.now, later := t.later, out := o ++ s.out } ∧ s.regsBut t l

/-- The registers of one entry of the machine-check log, with its counters (R373). -/
def mcRegs (n : Nat) : List Nat :=
  [R.mcCount, R.mcLost, R.mcInfo n, R.mcTask n, R.mcIndex n, R.mcAddrLo n, R.mcAddrLo n + 4, R.mcTimeLo n, R.mcTimeLo n + 4]

/-! ### When an access acts at once (R286, R287, R389) -/

/-- A register write acts in its own core cycle: the block is Active, and the requester has no store before it that waits;
what is written does not count. -/
abbrev State.takesWrite (s : State) (src : Requester) (off : Nat) : Prop :=
  s.below = false ∧ s.waitsBehindHeld (.reg src off []) = false

/-- So does a register read, whatever it reads. -/
abbrev State.takesRead (s : State) (src : Requester) : Prop := s.below = false ∧ s.waitsBehindHeld (.regRead src 0 0) = false

/-- So does a BAR2 read, whatever it reads. -/
abbrev State.takesBar2Read (s : State) : Prop := s.below = false ∧ s.waitsBehindHeld (.bar2Read 0 0 none .good) = false

/-! ### What leaves the block -/

/-- Requests for the host have left, in order; or they wait for DL_Up (R379). -/
def State.sentHost (s t : State) (l : List Out) : Prop :=
  if s.linkDown then t.out = s.out ∧ t.hostHeld = s.hostHeld ++ l else t.out = l.reverse ++ s.out ∧ t.hostHeld = s.hostHeld

/-- A packet has left on its fabric port, or waits for one (R260, R406); a disabled endpoint sends none (R278). -/
def State.sentFabric (s t : State) (o : Out) : Prop :=
  if s.bit R.feCtl 31 then
    match s.portOf o with
    | some p => t.out = o.withPort p :: s.out ∧ t.fabricHeld = s.fabricHeld
    | none => t.out = s.out ∧ t.fabricHeld = s.fabricHeld ++ [o]
  else t.out = s.out ∧ t.fabricHeld = s.fabricHeld

/-- The answer to a packet of a node has left: on chip for this node, else on its fabric port, or it waits for one (R260, R406); an
endpoint that does not run sends none (R278). -/
def State.sentAnswer (s t : State) (node : Nat) (o : Out) : Prop :=
  if node = s.node then t.out = o :: s.out ∧ t.fabricHeld = s.fabricHeld
  else if s.bit R.feStatus 0 then
    match s.portOf o with
    | some p => t.out = o.withPort p :: s.out ∧ t.fabricHeld = s.fabricHeld
    | none => t.out = s.out ∧ t.fabricHeld = s.fabricHeld ++ [o]
  else t.out = s.out ∧ t.fabricHeld = s.fabricHeld

/-- A packet has left by the fabric, or on chip, or waits for its port. -/
def State.packetLeft (t : State) (o : Nat → Out) : Prop := ∃ port, o port ∈ t.out ∨ o port ∈ t.fabricHeld

/-- Nothing stands over from the last core cycle: no task, nothing that lands or waits. -/
abbrev State.quiet (s : State) : Prop :=
  s.tasks = [] ∧ s.later = { events := [], flags := [], latches := [], notices := [] } ∧ s.fabricHeld = [] ∧ s.ports = [] ∧
    s.sites = [] ∧ s.mq.cur = none

/-! ### Parts of the state, queue by queue and task by task -/

/-- The routes of a register write by a 4-byte access: a register that no route of its own takes, in the register region. -/
abbrev plainRegister (off : Nat) : Prop :=
  pushAt off = none ∧ payloadAt off = none ∧ isPairLow off = false ∧ isPairHigh off = false ∧ off % 4 = 0 ∧
    writeRoutes.find? (fun r => inArray r.1 r.2.1 r.2.2.1 off) = none

/-- What is held of every submission queue but one is as before. -/
def State.sqsBut (s t : State) (q : Nat) : Prop := ∀ k, k ≠ q → t.sq k = s.sq k

/-- Every task but one is as before. -/
def State.tasksBut (s t : State) (r : TaskRef) : Prop := ∀ x, x ≠ r → t.task x = s.task x

/-- TAG of the entry at HEAD as far as it has been read; zero where nothing of it has been. -/
def State.latchedTag (s : State) (q : Nat) : Nat := match s.entryRead q with | some h => uintAt h 4 4 | none => 0

/-- A queue stops (R70, R71): STATE is 3 with the entry concerned latched, its bit of QI_SQERR is set, the message goes out
where QI_IRQ.EN is 1; every other queue, every task and all of memory go on. -/
def State.stops (s t : State) (q : Nat) (st : Status) (index : Word) (tag : Nat) : Prop :=
  let u := if s.bit R.qiIrq 31 then s.msix (s.fld R.qiIrq 0 11) else s
  t.sqMode q = 3 ∧ t.reg (R.sqErr q) = BitVec.ofNat 32 (st.toNat * 2 ^ 16 + s.sqHead q) ∧ t.reg (R.sqErrIndex q) = index ∧
    t.reg (R.sqErrTag q) = BitVec.ofNat 32 tag ∧ t.bit (R.qiSqerr (q / 32)) (q % 32) = true ∧
    t = { u with regs := t.regs, now := t.now, later := t.later, sqs := t.sqs } ∧
    s.regsBut t [R.sqState q, R.sqErr q, R.sqErrIndex q, R.sqErrTag q, R.qiSqerr (q / 32)] ∧ s.sqsBut t q

/-! ### Commands by what they may change -/

/-- May a command store to local memory, free bytes of it, or (a reset) begin with new memory? -/
def mayStore : Instr → Bool
  | .registerWrite _ _ _ _ => true
  | .bar2Write _ _ _ _ => true
  | .coreStore _ _ _ _ => true
  | .coreAtomic _ _ _ _ => true
  | .fabricRemoteAccess _ _ _ => true
  | .entryAccept _ _ => true
  | .blockListFetchComplete _ _ => true
  | .rangeStoreReserve _ => true
  | .translationRequestIssue => true
  | .translationCompletion _ _ => true
  | .translationTimeout _ => true
  | .prgResponse _ _ => true
  | .invalidateRequest _ _ _ _ => true
  | .dispatch => true
  | .readIssue _ => true
  | .readResponse _ _ _ => true
  | .ingotExpand _ => true
  | .executeWrite _ => true
  | .compressBlockDone _ => true
  | .writeAck _ _ => true
  | .flushReadCompletion _ _ => true
  | .completionRecordAck _ _ => true
  | .journalAppend _ _ => true
  | .journalEnable _ _ => true
  | .journalDisable _ _ => true
  | .generationWordWrite _ => true
  | .collectiveCreditGrant _ _ _ _ => true
  | .collectivePieceSend _ _ => true
  | .collectivePieceReceive _ _ => true
  | .collectiveFailureNotice _ _ => true
  | .multicastDetachTimeout _ _ => true
  | .fabricRequestTimeout _ => true
  | .hostRequestTimeout _ => true
  | .fabricPacketCrcFail _ _ _ _ => true
  | .rxEnable _ _ _ => true
  | .rxDisable _ _ _ => true
  | .messagePacketArrival _ _ => true
  | .messageSlotWritten _ _ => true
  | .deliveryReply _ _ _ => true
  | .slotGrantTimeout _ _ => true
  | .heartbeatReceive _ _ => true
  | .peerHeartbeatTimeout _ => true
  | .tierBRead _ _ _ _ => true
  | .scrubRead _ _ _ => true
  | .evacuationCopyLine _ _ => true
  | .portWatchdogExpiry _ _ => true
  | .mqReplyWrite => true
  | .abort => true
  | .engineRetire => true
  | .identRead _ => true
  | .telemetrySnap _ => true
  | .powerOn => true
  | .powerRemoved => true
  | .hostLinkDown => true
  | .linkLossTimeout => true
  | .hotReset => true
  | .functionLevelReset => true
  | .perstAssert => true
  | .startupContinuationDone _ _ => true
  | .powerEntryComplete => true
  | .wakeComplete => true
  | .selfRefreshExit => true
  | _ => false

/-- May a command change the device region table, a copy of the repair record in flash, the power state or the power? -/
def mayRetable : Instr → Bool
  | .registerWrite _ _ _ _ => true
  | .drtCtlWrite _ _ _ _ => true
  | .coreStore _ _ _ _ => true
  | .powerOn => true
  | .powerRemoved => true
  | .linkLossTimeout => true
  | .hotReset => true
  | .functionLevelReset => true
  | .perstAssert => true
  | .startupContinuationDone _ _ => true
  | .powerEntryComplete => true
  | .wakeComplete => true
  | .repairRecordWriteDone _ => true
  | .selfRefreshExit => true
  | _ => false

end Sys2Proof.Machine
end

