-- ==== Sys2Proof/Certificates/Slice0/Obligations.lean ====
section
/-!
DEFINITION. The statements of this row for the provers, family by family of the command table.
-/

open Sys2Proof Sys2Proof.Machine

/-! ### The block as a whole -/

/-- A step carries out the command at the front of the queue, on the rest of the queue: the model's block form. -/
def Obligations.FrontCommandRuns : Prop :=
  ∀ (c : Instr) (rest : List Instr) (s : State), s.pending = c :: rest → step s = exec c { s with pending := rest }

/-- With no command waiting, a step is one core cycle (DESIGN CHOICE, log 3): it changes no table and not the power state, and
takes back nothing that has left. Where nothing stands over from the last core cycle: without power nothing but the model's own
count moves; in Off only the global time counter goes on, or the hold of a backward correction (R393). -/
def Obligations.EmptyQueueTicks : Prop :=
  ∀ s : State, s.pending = [] →
    ∃ t, step s = .next t ∧ t.pending = [] ∧ t.cycle = s.cycle + 1 ∧ s.out <:+ t.out ∧ t.drt = s.drt ∧ t.flash0 = s.flash0 ∧
      t.flash1 = s.flash1 ∧ t.power = s.power ∧ t.powered = s.powered ∧
      (s.quiet → s.powered = false → t = { s with cycle := s.cycle + 1, now := CycleRun.fresh }) ∧
      (s.quiet → s.powered = true → s.power = .off → s.gtcHold = 0 →
        t.gtc = (s.gtc + 1) % 2 ^ 64 ∧ s.regsBut t [R.gtcLo, R.gtcHi] ∧
          t = { s with regs := t.regs, cycle := s.cycle + 1, now := CycleRun.fresh }) ∧
      (s.quiet → s.powered = true → s.power = .off → 1 < s.gtcHold →
        t = { s with cycle := s.cycle + 1, gtcHold := s.gtcHold - 1, now := CycleRun.fresh })

/-- The canonical form of memory and of the register file is kept by every step. -/
def Obligations.EveryStepKeepsCanonicalForm : Prop :=
  ∀ s t : State, s.wf = true → step s = .next t → t.wf = true

/-- Every step takes exactly the front command out of the queue, puts none in, takes back nothing that has left the block,
and lets core cycles pass only where no command waits. -/
def Obligations.EveryStepTakesOneCommand : Prop :=
  ∀ s t : State, step s = .next t →
    t.pending = s.pending.tail ∧ s.out <:+ t.out ∧ t.cycle = s.cycle + (if s.pending = [] then 1 else 0)

/-- Reset has the canonical form. -/
def Obligations.ResetIsCanonical : Prop := State.reset.wf = true

/-- The state after reset: every register at the reset value of its table, no task and no command, no entry of the region
table valid (R41), every event flag clear, the step number 0 (R208), the global time counter 0 (R393), every arbiter there is in
retry service (R312, R319). -/
def Obligations.ResetState : Prop :=
  (∀ o, State.reset.reg o = resetWord o) ∧ State.reset.tasks = [] ∧ State.reset.pending = [] ∧
    (∀ ctx acc a len, ctx ≠ 0 → State.reset.drtAllows ctx acc a len = false) ∧ (∀ e, e < 512 → State.reset.flag e = false) ∧
    State.reset.reg R.strStep = 0 ∧ State.reset.gtc = 0 ∧
    (∀ n, n < 11 ∨ (16 ≤ n ∧ n < 48) → State.reset.retryService n = true) ∧
    (∀ q, q < 1024 → State.reset.bit (R.sqCfg q) 31 = false) ∧ (∀ c, c < 256 → State.reset.bit (R.cqCfg c) 31 = false)

/-- A command that stores nothing leaves every byte of local memory as it is, whatever the state and the operands. -/
def Obligations.OnlyStoresChangeMemory : Prop :=
  ∀ (c : Instr) (s t : State), mayStore c = false → exec c s = .next t → s.sameMem t

/-- The device region table, the copies of the repair record in flash, the power state and the power change by the commands
named in `mayRetable` alone: the writes of DRT_CTL, the resets, the ends of power entry and wake, the record write. -/
def Obligations.OnlyTheseChangeTables : Prop :=
  ∀ (c : Instr) (s t : State), mayRetable c = false → exec c s = .next t →
    t.drt = s.drt ∧ t.flash0 = s.flash0 ∧ t.flash1 = s.flash1 ∧ t.power = s.power ∧ t.powered = s.powered

/-! ### The register bus (R4 to R7) -/

/-- A 4-byte write of a register without a row of its own sets its fields by their access types (R6): a read-write bit takes
the bit written, a bit of no writable type keeps its value; a write of another size or alignment and a write of an offset that no
register has are discarded (R4, R46). Nothing else changes. A write below Active is held (R389), one behind a store that waits
waits too (R286, R287). -/
def Obligations.RegisterWriteByAccessType : Prop :=
  (∀ (src : Requester) (off : Nat) (bytes : List Byte) (s : State) (r : RegRow), s.takesWrite src off →
    plainRegister off → bytes.length = 4 → regRow off = some r →
    s.refusesValue off (BitVec.ofNat 32 (leNat bytes)) = false →
    ∃ t, exec (.registerWrite src off bytes.length (leNat bytes)) s = .next t ∧ s.onlyRegs t [off] ∧
      ∀ i, i < 32 →
        (r.rw.testBit i = true → r.w1c.testBit i = false → r.w1s.testBit i = false →
          (t.reg off).getLsbD i = (leNat bytes).testBit i) ∧
        (r.rw.testBit i = false → r.w1c.testBit i = false → r.w1s.testBit i = false →
          (t.reg off).getLsbD i = (s.reg off).getLsbD i)) ∧
  (∀ (src : Requester) (off : Nat) (bytes : List Byte) (s : State), s.takesWrite src off → pushAt off = none →
    (bytes.length ≠ 4 ∨ off % 4 ≠ 0) → (bytes.length ≠ 8 ∨ isPairLow off = false) →
    exec (.registerWrite src off bytes.length (leNat bytes)) s = .next s) ∧
  (∀ (src : Requester) (off : Nat) (bytes : List Byte) (s : State), s.takesWrite src off →
    plainRegister off → bytes.length = 4 → regRow off = none →
    exec (.registerWrite src off bytes.length (leNat bytes)) s = .next s) ∧
  (∀ (src : Requester) (off : Nat) (bytes : List Byte) (s : State),
    (s.below = true → s.wakeBuf.length < 16 →
      exec (.registerWrite src off bytes.length (leNat bytes)) s = .next { s with wakeBuf := s.wakeBuf ++ [.reg src off bytes] }) ∧
    (s.below = false → s.waitsBehindHeld (.reg src off bytes) = true →
      exec (.registerWrite src off bytes.length (leNat bytes)) s = .next { s with padWait := s.padWait ++ [.reg src off bytes] }))

/-- R7: a W1C bit that hardware has set in the cycle of the write that clears it ends set, and is cleared otherwise; an RC field
read in the cycle in which hardware increments it returns the value before and ends at the increment alone. R413: a flag, a
first-event register and a machine-check log entry that an event causes in one core cycle take effect as the next begins, of two
events of one core cycle for one register the one with the lower number; R356: with every log entry taken the event is lost,
and counted. -/
def Obligations.SameCycleEventsAreKept : Prop :=
  (∀ (src : Requester) (off : Nat) (bytes : List Byte) (s : State) (r : RegRow) (i : Nat), s.takesWrite src off →
    plainRegister off → bytes.length = 4 → regRow off = some r →
    s.refusesValue off (BitVec.ofNat 32 (leNat bytes)) = false → i < 32 → r.rw.testBit i = false →
    r.w1s.testBit i = false → r.w1c.testBit i = true → (leNat bytes).testBit i = true →
    ∃ t, exec (.registerWrite src off bytes.length (leNat bytes)) s = .next t ∧ s.onlyRegs t [off] ∧
      (t.reg off).getLsbD i = ((s.setNow off).getLsbD i && (s.reg off).getLsbD i)) ∧
  (∀ (src : Requester) (off k : Nat) (s : State) (r : RegRow), s.takesRead src → off % 4 = 0 → isPairLow off = false →
    isPairHigh off = false → regRow off = some r → r.rc = 2 ^ k - 1 → 0 < k → k ≤ 32 → (s.countedNow off).2 < 2 ^ k →
    ∃ t v, exec (.rcRegisterRead src off 4) s = .next t ∧ s.onlyRegsOut t [off] [.regData src v] ∧
      getField v 0 k = getField (s.countedNow off).1 0 k ∧ (∀ i, k ≤ i → v.getLsbD i = (s.reg off).getLsbD i) ∧
      getField (t.reg off) 0 k = (s.countedNow off).2 ∧ (∀ i, k ≤ i → (t.reg off).getLsbD i = (s.reg off).getLsbD i)) ∧
  (∀ (off n : Nat) (s : State), (s.bump off n).countedNow off = ((s.countedNow off).1, (s.countedNow off).2 + n) ∧
    (s.bump off n).reg off = satAdd (s.reg off) n) ∧
  (∀ (s : State) (e : Nat) (b : Bool), e < 512 → s.later = { events := [], flags := [(e, b)], latches := [], notices := [] } →
    s.land.flag e = b ∧ s.onlyRegs s.land [R.eventSet (e / 32)]) ∧
  (∀ (s : State) (x y : Latch), s.later = { events := [], flags := [], latches := [x, y], notices := [] } → x.off = y.off →
    y.key < x.key → x.also = [] → y.also = [] → y.val < 2 ^ 31 →
    (s.bit y.off 31 = false → s.land.reg y.off = BitVec.ofNat 32 (2 ^ 31 + y.val) ∧ s.onlyRegs s.land [y.off]) ∧
    (s.bit y.off 31 = true → s.onlyRegs s.land [])) ∧
  (∀ (s : State) (e : McEvent), s.later = { events := [e], flags := [], latches := [], notices := [] } → s.bit R.mcCtl 31 = false →
    (∀ n, s.freeMcEntry = some n → n < 16 → e.source < 16 → e.unit < 256 →
      s.land.bit (R.mcInfo n) 31 = true ∧ s.land.fld (R.mcInfo n) 24 4 = e.source ∧ s.land.fld (R.mcInfo n) 16 8 = e.unit ∧
        s.land.fld (R.mcInfo n) 0 16 = e.status.toNat ∧ s.onlyRegs s.land (mcRegs n)) ∧
    (s.freeMcEntry = none → s.land.reg R.mcLost = satAdd (s.reg R.mcLost) 1 ∧ s.onlyRegs s.land [R.mcLost]))

/-- R5: a write of a pair's low word stages it and changes no register; the same requester's write of the high word then
commits both words at once, each bit that is read-write taking the bit written; a read of the low word returns it and latches
the high word, which the same requester's next read of the high word returns, whatever the pair holds by then. An access of 8
bytes at the low word acts as the access to the low word followed by the one to the high word. R4: a read of any other size or
alignment is answered zero. -/
def Obligations.PairsMoveAsOne : Prop :=
  (∀ (src : Requester) (low : Nat) (bl bh : List Byte) (s : State) (rl rh : RegRow), s.takesWrite src low →
    s.takesWrite src (low + 4) → low % 4 = 0 →
    isPairLow low = true → isPairLow (low + 4) = false → pushAt low = none → pushAt (low + 4) = none → bl.length = 4 →
    bh.length = 4 → regRow low = some rl → regRow (low + 4) = some rh → s.pairHeld low = false →
    (∀ u : State, u.refusesValue low (BitVec.ofNat 32 (leNat bl)) = false ∧
      u.refusesValue (low + 4) (BitVec.ofNat 32 (leNat bh)) = false) →
    (∀ i, i < 32 → rl.w1c.testBit i = false ∧ rl.w1s.testBit i = false ∧ rh.w1c.testBit i = false ∧ rh.w1s.testBit i = false) →
    ∃ t u, exec (.registerWrite src low bl.length (leNat bl)) s = .next t ∧ t = { s with staged := t.staged } ∧
      exec (.registerWrite src (low + 4) bh.length (leNat bh)) t = .next u ∧ exec (.registerWrite src low (bl ++ bh).length (leNat (bl ++ bh))) s = .next u ∧
      u = { s with regs := u.regs, staged := u.staged } ∧ s.regsBut u [low, low + 4] ∧
      ∀ i, i < 32 →
        (u.reg low).getLsbD i = (if rl.rw.testBit i then (leNat bl).testBit i else (s.reg low).getLsbD i) ∧
        (u.reg (low + 4)).getLsbD i = (if rh.rw.testBit i then (leNat bh).testBit i else (s.reg (low + 4)).getLsbD i)) ∧
  (∀ (src : Requester) (low : Nat) (s : State), s.takesRead src → low % 4 = 0 → isPairLow low = true →
    isPairLow (low + 4) = false →
    ∃ t, exec (.pairLowRead src ⟨low, 4⟩) s = .next t ∧
      t = { s with latched := t.latched, out := .regData src (s.readWord low) :: s.out } ∧
      (∀ u : State, u.takesRead src → u.latched = t.latched →
        ∃ v, exec (.pairLowRead src ⟨low + 4, 4⟩) u = .next v ∧
          v = { u with latched := v.latched, out := .regData src (s.readWord (low + 4)) :: u.out }) ∧
      ∃ v, exec (.pairLowRead src ⟨low, 8⟩) s = .next v ∧
        v = { s with latched := v.latched,
                     out := .regData src (s.readWord (low + 4)) :: .regData src (s.readWord low) :: s.out }) ∧
  (∀ (src : Requester) (off len : Nat) (s : State), s.takesRead src → (len ≠ 4 ∨ off % 4 ≠ 0) →
    (len ≠ 8 ∨ isPairLow off = false) →
    exec (.pairLowRead src ⟨off, len⟩) s = .next { s with out := .regData src 0 :: s.out })

/-! ### Time, lockstep, NODE_ID, the region table, the context map -/

/-- R393: a correction of the global time counter forward adds its whole amount at once and marks the counter aligned; one backward
leaves the counter where it is and holds it for that many core cycles. R12: a lockstep disagreement of a pair that runs halts
the management queue pair and raises a machine-check event, which is counted and lands in the log in the next core cycle (R413);
tasks, memory and every queue go on as they were. Nothing else changes. -/
def Obligations.TimeAndLockstep : Prop :=
  (∀ (delta : Int) (s : State),
    (0 ≤ delta → ∃ t, exec (.fabricTimeCorrection delta) s = .next t ∧ t.gtc = (s.gtc + delta.toNat) % 2 ^ 64 ∧
      t.bit R.gtcStatus 31 = true ∧ t = { s with regs := t.regs, gtcHold := 0 } ∧
      s.regsBut t [R.gtcLo, R.gtcHi, R.gtcStatus]) ∧
    (delta < 0 → exec (.fabricTimeCorrection delta) s = .next { s with gtcHold := delta.natAbs })) ∧
  (∀ s : State,
    (s.cpRuns = true → ∃ t, exec .lockstepDisagree s = .next t ∧ t.mqMode = 2 ∧ t.reg R.mcCount = satAdd (s.reg R.mcCount) 1 ∧
      t.later.events = s.later.events ++
        [{ source := 1, unit := s.fld R.mqState 29 1, status := 0, task := none, addr := 0, time := s.gtc }] ∧
      s.onlyRegs t [R.mqState, R.mcCount]) ∧
    (s.cpRuns = false → exec .lockstepDisagree s = .next s))

/-- R28: a write of NODE_ID takes effect at once, and is discarded while FE_CTL.EN or FE_STATUS.ACTIVE is 1. R42, R41: a write of
DRT_CTL commits the staged BASE and LIMIT with the control bits written; the entry then admits exactly the pages from BASE to
LIMIT, for its context and the types it grants, and none when it is not valid; every other entry stays. R256: a write of CTX_MAP
sets a context's mapping; context 0's is fixed; it is discarded with BUSY while a queue or ring of the context exists, and with
DUP where another valid entry would hold the same PASID. Nothing else changes. -/
def Obligations.ProtectionTables : Prop :=
  (∀ (src : Requester) (v : Word) (s : State), s.takesWrite src R.nodeId →
    ((s.bit R.feCtl 31 = true ∨ s.bit R.feStatus 0 = true) → exec (.nodeIdWrite src v) s = .next s) ∧
    (s.bit R.feCtl 31 = false → s.bit R.feStatus 0 = false →
      ∃ t, exec (.nodeIdWrite src v) s = .next t ∧ t.node = getField v 0 16 ∧ t.bit R.nodeId 16 = true ∧
        s.onlyRegs t [R.nodeId])) ∧
  (∀ (src : Requester) (g : Fin 3) (n : Fin 1024) (v : Word) (s : State), s.takesWrite src (R.drtCtl g n) →
    ∃ t, exec (.drtCtlWrite src g n v) s = .next t ∧
      (∀ ctx acc page, (sget drtDefault t.drt (1024 * g + n)).admits ctx acc page = true ↔
        (getField v 31 1 = 1 ∧ getField v 0 12 = ctx ∧
          (match acc with | .read => getField v 30 1 = 1 | .write => getField v 29 1 = 1 | .atomic => getField v 28 1 = 1) ∧
          s.reg64 (R.drtBaseLo g n) / 4096 ≤ page ∧ page ≤ s.reg64 (R.drtLimitLo g n) / 4096)) ∧
      (∀ k, k ≠ 1024 * g.val + n.val → sget drtDefault t.drt k = sget drtDefault s.drt k) ∧
      t = { s with regs := t.regs, drt := t.drt } ∧ s.regsBut t [R.drtCtl g n] ∧ t.reg (R.drtCtl g n) = v &&& 0xF0000FFF) ∧
  (∀ (src : Requester) (c : Fin 4096) (v : Word) (s : State), s.takesWrite src (R.ctxMap c) →
    (c = 0 → exec (.ctxMapWrite src c v) s = .next s) ∧
    (c ≠ 0 → s.ctxInUse c = true → ∃ t, exec (.ctxMapWrite src c v) s = .next t ∧ t.bit R.tuStatus 1 = true ∧
      s.onlyRegs t [R.tuStatus]) ∧
    (c ≠ 0 → s.ctxInUse c = false → s.pasidTaken c v = true →
      ∃ t, exec (.ctxMapWrite src c v) s = .next t ∧ t.bit R.tuStatus 0 = true ∧ s.onlyRegs t [R.tuStatus]) ∧
    (c ≠ 0 → s.ctxInUse c = false → s.pasidTaken c v = false →
      ∃ t, exec (.ctxMapWrite src c v) s = .next t ∧ t.reg (R.ctxMap c) = v &&& 0xC00FFFFF ∧ s.onlyRegs t [R.ctxMap c]))

/-! ### Memory accesses that no task makes -/

/-- R48, R169: a BAR2 read that its checks let pass returns the bytes of local memory as they stood before this core cycle's
writes (R283); a BAR2 write that they let pass stores them and changes no other byte; a PASID that no context maps, and a byte
outside tier A and tier B, complete with Unsupported Request, as AtomicOps and peer-to-peer requests always do. -/
def Obligations.Bar2Accesses : Prop :=
  (∀ (off len ctx : Nat) (pasid : Option (BitVec 20)) (s : State), s.takesBar2Read → s.tierBWaits (s.bar2Local off) = false →
    s.ctxOfPasid pasid = some ctx → inTier (s.bar2Local off) len = true →
    s.drtAllows ctx .read (s.bar2Local off) len = true → s.bound (s.bar2Local off) len = true →
    exec (.bar2Read off len pasid .good) s = .next { s with out := .bar2Data (s.seenMem (s.bar2Local off) len) :: s.out }) ∧
  (∀ (off len : Nat) (pasid : Option (BitVec 20)) (c : MemCond) (s : State), s.takesBar2Read →
    s.tierBWaits (s.bar2Local off) = false → (s.ctxOfPasid pasid = none ∨ inTier (s.bar2Local off) len = false) →
    exec (.bar2Read off len pasid c) s = .next { s with out := .unsupportedRequest :: s.out }) ∧
  (∀ (off ctx : Nat) (bs : List Byte) (pasid : Option (BitVec 20)) (relaxed : Bool) (s : State), s.below = false →
    s.tierBWaits (s.bar2Local off) = false → s.ctxOfPasid pasid = some ctx → inTier (s.bar2Local off) bs.length = true →
    s.drtAllows ctx .write (s.bar2Local off) bs.length = true → s.bound (s.bar2Local off) bs.length = true →
    ∃ t, exec (.bar2Write off bs ⟨pasid, relaxed⟩ .good) s = .next t ∧ t = { s with mem := t.mem, now := t.now } ∧
      (∀ i, (h : i < bs.length) → t.readByte (s.bar2Local off + i) = bs[i]) ∧ s.sameMemBut t (s.bar2Local off) bs.length) ∧
  (∀ (off : Nat) (bs : List Byte) (pasid : Option (BitVec 20)) (relaxed : Bool) (c : MemCond) (s : State), s.below = false →
    s.tierBWaits (s.bar2Local off) = true → exec (.bar2Write off bs ⟨pasid, relaxed⟩ c) s =
      .next { s with padWait := s.padWait ++ [.bar2Write off bs pasid relaxed c] }) ∧
  (∀ (off : Nat) (s : State), exec (.bar2Atomicop off) s = .next { s with out := .unsupportedRequest :: s.out }) ∧
  (∀ (r : Bool) (s : State), exec (.peerToPeerRequest r) s = .next { s with out := .unsupportedRequest :: s.out })

/-- R39, R40: a load through a bound aperture reads the host bytes its range list gives, under the task's PASID, and returns the
host's data, or waits for them; a store leaves as posted writes of those bytes. A failing load returns zeros, a failing store is
discarded; each is counted, and recorded as the first one where none stands (R413). An access of another size or alignment does
not occur: it has no effect. -/
def Obligations.ApertureAccesses : Prop :=
  (∀ (core : Fin 8) (ap : Fin 16) (off len : Nat) (s : State), apertureSize off len = true → s.apertureCause ap off len = none →
    let reads : List Out := (s.aperturePieces ap off len).map (fun p => .hostRead p.1 p.2.2.1 (s.aperturePasid ap) p.2.1)
    (∀ bs, s.linkDown = false → exec (.apertureLoad core ap off len (.data bs)) s =
      .next { s with out := .coreData core (fitBytes len bs) :: (reads.reverse ++ s.out) }) ∧
    (∃ t, exec (.apertureLoad core ap off len .pending) s = .next t ∧ s.sentHost t reads ∧
      t.apLoads = s.apLoads ++ [{ core := core, ap := ap, offset := off, len := len, at_ := s.cycle,
                                  pasid := s.aperturePasid ap, host := s.apertureHost ap off len }] ∧
      t = { s with apLoads := t.apLoads, out := t.out, hostHeld := t.hostHeld })) ∧
  (∀ (core : Fin 8) (ap : Fin 16) (off : Nat) (bs : List Byte) (s : State), apertureSize off bs.length = true →
    s.apertureCause ap off bs.length = none →
    ∃ t, exec (.apertureStore core ap off bs) s = .next t ∧
      s.sentHost t ((s.aperturePieces ap off bs.length).map (fun p =>
        .hostWrite p.1 ((bs.drop p.2.2.2).take p.2.2.1) (s.aperturePasid ap) false p.2.1)) ∧
      t = { s with out := t.out, hostHeld := t.hostHeld }) ∧
  (∀ (core : Fin 8) (ap : Fin 16) (off len c : Nat) (a : HostAnswer) (s : State), apertureSize off len = true →
    s.apertureCause ap off len = some c →
    ∃ t, exec (.apertureLoad core ap off len a) s = .next t ∧
      t.reg R.apertureFaultCount = satAdd (s.reg R.apertureFaultCount) 1 ∧
      t.later.latches = s.later.latches ++
        [{ off := R.apertureFault, key := ap.val, val := c * 2 ^ 28 + ap.val * 2 ^ 16 + core.val * 2 ^ 13,
           also := pairWords R.apertureFaultOfsLo off }] ∧
      s.onlyRegsOut t [R.apertureFaultCount] [.coreData core (List.replicate len 0)]) ∧
  (∀ (core : Fin 8) (ap : Fin 16) (off c : Nat) (bs : List Byte) (s : State), apertureSize off bs.length = true →
    s.apertureCause ap off bs.length = some c →
    ∃ t, exec (.apertureStore core ap off bs) s = .next t ∧
      t.reg R.apertureFaultCount = satAdd (s.reg R.apertureFaultCount) 1 ∧
      t.later.latches = s.later.latches ++
        [{ off := R.apertureFault, key := ap.val, val := 2 ^ 30 + c * 2 ^ 28 + ap.val * 2 ^ 16 + core.val * 2 ^ 13,
           also := pairWords R.apertureFaultOfsLo off }] ∧
      s.onlyRegs t [R.apertureFaultCount]) ∧
  (∀ (core : Fin 8) (ap : Fin 16) (off len : Nat) (a : HostAnswer) (bs : List Byte) (s : State),
    (apertureSize off len = false → exec (.apertureLoad core ap off len a) s = .next s) ∧
    (apertureSize off bs.length = false → exec (.apertureStore core ap off bs) s = .next s))

/-- R257, R168: a core's load returns the bytes of memory as they stood before this core cycle's writes (R283), its store puts
its bytes there and changes no other byte, its atomic returns the word's prior value and leaves the operation's result in it;
each under the core's own context. A load that the region table refuses returns zeros, and the refusal is counted. R29, R46: a
load or a store of the register region is the access to that register. -/
def Obligations.CoreAccesses : Prop :=
  (∀ (core : Fin 8) (a len : Nat) (s : State), (regionOf a).isMemory = true → s.tierBWaits a = false →
    s.coreVerdict core .read a len .good = none →
    exec (.coreLoad core a len none .good) s = .next { s with out := .coreData core (s.seenMem a len) :: s.out }) ∧
  (∀ (core : Fin 8) (a len : Nat) (c : MemCond) (s : State), s.tierBWaits a = false → inMemory a len = true →
    regionOf a ≠ .scratch → s.drtAllows (s.coreCtx core) .read a len = false →
    ∃ t, exec (.coreLoad core a len none c) s = .next t ∧
      t.reg (R.tuRefused (groupOf a)) = satAdd (s.reg (R.tuRefused (groupOf a))) 1 ∧
      s.onlyRegsOut t [R.tuRefused (groupOf a)] [.coreData core (List.replicate len 0)]) ∧
  (∀ (core : Fin 8) (a : Nat) (bs : List Byte) (s : State), (regionOf a).isMemory = true → s.tierBWaits a = false →
    s.coreVerdict core .write a bs.length .good = none →
    ∃ t, exec (.coreStore core a bs .good) s = .next t ∧ t = { s with mem := t.mem, now := t.now } ∧
      (∀ i, (h : i < bs.length) → t.readByte (a + i) = bs[i]) ∧ s.sameMemBut t a bs.length ∧
      ∀ x, t.seenByte x = s.seenByte x) ∧
  (∀ (core : Fin 8) (a : Nat) (bs : List Byte) (c : MemCond) (s : State), s.tierBWaits a = true →
    exec (.coreStore core a bs c) s = .next { s with padWait := s.padWait ++ [.coreStore core a bs c] }) ∧
  (∀ (core : Fin 8) (a : Nat) (r : AtomicReq) (s : State), s.tierBWaits a = false → atomicLegal r a = true →
    s.memVerdict (s.coreCtx core) .atomic a (atomicSize r) .good = none →
    ∃ t, exec (.coreAtomic core a r .good) s = .next t ∧
      t = { s with mem := t.mem, now := t.now, out := .coreData core (s.readMem a (atomicSize r)) :: s.out } ∧
      t.readMem a (atomicSize r) = leBytes (atomicSize r) (atomicResult r (leNat (s.readMem a (atomicSize r)))) ∧
      s.sameMemBut t a (atomicSize r)) ∧
  (∀ (core : Fin 8) (off len : Nat) (bs : List Byte) (b : Option (List Byte)) (c : MemCond) (s : State), off < 0x01000000 →
    exec (.coreLoad core (0x0F1000000000 + off) len b c) s = exec (.pairLowRead (.core core) ⟨off, len⟩) s ∧
    exec (.coreStore core (0x0F1000000000 + off) bs c) s = exec (.registerWrite (.core core) off bs.length (leNat bs)) s)

/-- R43, R45: an access from the fabric that no open window serves is refused with 0x3002 WINDOW, counted, and leaves memory
unchanged; a read and a write that a window serves, and the region table admits under the window's context, are made. -/
def Obligations.RemoteAccesses : Prop :=
  (∀ (node : Nat) (r : RemoteAccess) (c : MemCond) (s : State), s.feActive = true →
    s.winFor node (remoteAcc r) (remoteAddr r) (remoteLen r) = none →
    ∃ t, exec (.fabricRemoteAccess node r c) s = .next t ∧ t.reg R.feWinRefused = satAdd (s.reg R.feWinRefused) 1 ∧
      t.later.latches = s.later.latches ++ [{ off := R.feWinFault, key := node, val := node, also := [] }] ∧
      s.onlyRegsOut t [R.feWinRefused] [.fabricAnswer node St.window []]) ∧
  (∀ (node a len w : Nat) (s : State), s.feActive = true → s.winFor node .read a len = some w → s.tierBWaits a = false →
    s.memVerdict (s.fld (R.winCtl w) 0 12) .read a len .good = none →
    exec (.fabricRemoteAccess node (.read a len) .good) s =
      .next { s with out := .fabricAnswer node St.success (s.seenMem a len) :: s.out }) ∧
  (∀ (node a w : Nat) (bs : List Byte) (s : State), s.feActive = true → s.winFor node .write a bs.length = some w →
    s.tierBWaits a = false → s.memVerdict (s.fld (R.winCtl w) 0 12) .write a bs.length .good = none →
    ∃ t, exec (.fabricRemoteAccess node (.write a bs) .good) s = .next t ∧
      t = { s with mem := t.mem, now := t.now, out := .fabricAnswer node St.success [] :: s.out } ∧
      (∀ i, (h : i < bs.length) → t.readByte (a + i) = bs[i]) ∧ s.sameMemBut t a bs.length) ∧
  (∀ (node a w : Nat) (r : AtomicReq) (s : State), s.feActive = true → s.winFor node .atomic a (atomicSize r) = some w →
    s.tierBWaits a = false → atomicLegal r a = true → isFadd r = false →
    s.memVerdict (s.fld (R.winCtl w) 0 12) .atomic a (atomicSize r) .good = none →
    ∃ t, exec (.fabricRemoteAccess node (.atomic a r) .good) s = .next t ∧
      t = { s with mem := t.mem, now := t.now, out := .fabricAnswer node St.success (s.readMem a (atomicSize r)) :: s.out } ∧
      t.readMem a (atomicSize r) = leBytes (atomicSize r) (atomicResult r (leNat (s.readMem a (atomicSize r)))) ∧
      s.sameMemBut t a (atomicSize r)) ∧
  (∀ (node : Nat) (r : RemoteAccess) (c : MemCond) (s : State), s.feActive = false →
    exec (.fabricRemoteAccess node r c) s = .next s)

/-! ### Submission queues (R57 to R73) -/

/-- R60, R68: an accepted doorbell moves TAIL; with PUSHED it takes the push window's copy as the entry at the old TAIL where the copy
is the entry expected, and counts it. One out of range stops a running or paused queue with 0x1001 LENGTH and leaves TAIL; one at
a disabled queue, or out of range at a stopped one, changes nothing. R59: an aligned write of the push window puts its bytes
there and changes no other byte of any window; a write of another size or alignment changes nothing. R58, R88: a new HEAD of a
completion ring is taken below its record count and discarded otherwise, written directly or through a doorbell page of the
ring's own context. -/
def Obligations.DoorbellPages : Prop :=
  (∀ (src : Requester) (q : Fin 1024) (v : Word) (s : State), s.takesWrite src (R.sqDoorbell q) →
    let new := getField v 0 16
    let adv := (new + s.sqUnits q - s.sqTail q) % s.sqUnits q
    let free := (s.sqHead q + 2 * s.sqUnits q - s.sqTail q - 1) % s.sqUnits q + 1
    (s.sqMode q = 0 → exec (.sqDoorbell src q v) s = .next s) ∧
    (s.sqMode q ≠ 0 → new < s.sqUnits q → adv < free → getField v 31 1 = 0 →
      ∃ t, exec (.sqDoorbell src q v) s = .next t ∧ t.sqTail q = new ∧
        t = { s with regs := t.regs, sqs := t.sqs, out := t.out, hostHeld := t.hostHeld } ∧ s.regsBut t [R.sqTail q] ∧
        s.sqsBut t q ∧ (adv ≠ 0 → (t.sq q).pubs = (s.sq q).pubs ++ [(adv, s.gtc, s.cycle)]) ∧
        (s.sqMode q = 1 → new ≠ s.sqHead q → s.sq q = sqDefault q → (t.sq q).firstRead = some s.cycle)) ∧
    (s.sqMode q = 1 → new < s.sqUnits q → adv < free → getField v 31 1 = 1 → s.sqHead q = s.sqTail q →
      adv = entryUnits (s.pushedEntry q) → entryMark (s.pushedEntry q) = s.sqPhase q →
      ∃ t, exec (.sqDoorbell src q v) s = .next t ∧ t.sqTail q = new ∧ (t.sq q).pushed = some (s.pushedEntry q) ∧
        t.reg (R.sqPushUsed q) = satAdd (s.reg (R.sqPushUsed q)) 1 ∧
        t = { s with regs := t.regs, sqs := t.sqs, now := t.now } ∧
        s.regsBut t [R.sqTail q, R.sqPushUsed q] ∧ s.sqsBut t q) ∧
    ((s.sqMode q = 1 ∨ s.sqMode q = 2) → (s.sqUnits q ≤ new ∨ free ≤ adv) →
      ∃ t, exec (.sqDoorbell src q v) s = .next t ∧
        s.stops t q St.length (if (s.entryRead q).isNone then 0 else s.reg (R.sqIndex q)) (s.latchedTag q)) ∧
    (s.sqMode q = 3 → (s.sqUnits q ≤ new ∨ free ≤ adv) → exec (.sqDoorbell src q v) s = .next s)) ∧
  ((∀ (src : Requester) (q : Fin 1024) (off : Nat) (bs : List Byte) (s : State), s.takesWrite src (R.sqDoorbell q + 0x400 + off) →
    (pushWriteOk off bs.length = true →
      ∃ t, exec (.pushWindowWrite src q off bs) s = .next t ∧ t = { s with push := t.push } ∧
        (∀ i, (h : i < bs.length) → sget (fun _ => 0) t.push (1024 * q + off + i) = bs[i]) ∧
        ∀ k, k < 1024 * q + off ∨ 1024 * q + off + bs.length ≤ k →
          sget (fun _ => 0) t.push k = sget (fun _ => 0) s.push k) ∧
    (pushWriteOk off bs.length = false → exec (.pushWindowWrite src q off bs) s = .next s)) ∧
  (∀ (src : Requester) (c : Fin 256) (v : Word) (s : State), s.takesWrite src (R.cqHead c) →
    (getField v 0 16 < s.cqRecords c →
      ∃ t, exec (.cqHeadWrite src c v) s = .next t ∧ t.fld (R.cqHead c) 0 16 = getField v 0 16 ∧ s.onlyRegs t [R.cqHead c]) ∧
    (s.cqRecords c ≤ getField v 0 16 → exec (.cqHeadWrite src c v) s = .next s)) ∧
  (∀ (src : Requester) (q : Fin 1024) (v : Word) (s : State), s.takesWrite src (R.cqHeadDoorbell q) →
    let c := getField v 16 8
    let own := s.bit (R.sqCfg q) 31 = true ∧ s.fld (R.cqCfg c) 0 12 = s.sqCtx q
    (own → getField v 0 16 < s.cqRecords c →
      ∃ t, exec (.cqHeadDoorbell src q v) s = .next t ∧ t.fld (R.cqHead c) 0 16 = getField v 0 16 ∧
        s.onlyRegs t [R.cqHead c]) ∧
    ((¬ own ∨ s.cqRecords c ≤ getField v 0 16) → exec (.cqHeadDoorbell src q v) s = .next s)))

/-- R64: the answer to a header read keeps a header whose mark is set and leaves one whose mark is not set to be read again; a failed
read stops the queue with its status. The repeat read is due 64 core cycles after the one before and is counted; at 3,200 core
cycles from the first read the queue stops with 0x1005 PHASE. The answer to a read of an abandoned fetch is discarded (R72). R66:
prefetch keeps the next entry beyond TAIL whose mark is set, as long as it starts less than PREFETCH_UNITS beyond TAIL and the
ring has room for it behind HEAD (the last is the model's choice, log 20); it keeps nothing of one whose mark is not set, and
HEAD, TAIL and every task stay as they are; a speculative read that fails stops the queue (R70). -/
def Obligations.RingReads : Prop :=
  ((∀ (q : Fin 1024) (ans : RingAnswer) (s : State), (s.sq q).stale = [] → (s.sq q).outstanding = true → s.sqWaits q = false →
    s.cycle ≤ (s.sq q).firstRead.getD 0 + 3200 →
    (∀ h, s.sqRead q [s.sqHead q] ans = .ok h →
      ∃ t, exec (.sqHeaderReadResponse q ans) s = .next t ∧ t = { s with sqs := t.sqs } ∧ s.sqsBut t q ∧
        (entryMark h = s.sqPhase q → t.sq q =
          { s.sq q with outstanding := false, answeredAt := s.cycle, latched := some h, header := some h, firstRead := none }) ∧
        (entryMark h ≠ s.sqPhase q → t.sq q =
          { s.sq q with outstanding := false, answeredAt := s.cycle, latched := some h })) ∧
    (∀ st a, s.sqRead q [s.sqHead q] ans = .error (st, a) →
      ∃ t, exec (.sqHeaderReadResponse q ans) s = .next t ∧ t.sqMode q = 3 ∧ t.fld (R.sqErr q) 16 16 = st.toNat ∧
        s.sqsBut t q ∧ t.tasks = s.tasks ∧ s.sameMem t)) ∧
  (∀ (q : Fin 1024) (ans : RingAnswer) (s : State) (a : Nat × Nat) (l : List (Nat × Nat)), (s.sq q).stale = a :: l →
    ∃ t, exec (.sqHeaderReadResponse q ans) s = .next t ∧ t = { s with sqs := t.sqs } ∧ s.sqsBut t q ∧
      t.sq q = { s.sq q with stale := l }) ∧
  (∀ (q : Fin 1024) (s : State) (f : Nat), (s.sq q).firstRead = some f → (s.sq q).outstanding = false →
    (s.sq q).lastRead + 64 ≤ s.cycle → (s.sq q).answeredAt < s.cycle → s.cycle < f + 3200 →
    ∃ t, exec (.sqHeaderReread q) s = .next t ∧ t.reg (R.sqRefetch q) = satAdd (s.reg (R.sqRefetch q)) 1 ∧
      t.sq q = { s.sq q with lastRead := s.cycle, outstanding := true } ∧
      t = { s with regs := t.regs, sqs := t.sqs, now := t.now, out := t.out, hostHeld := t.hostHeld } ∧
      s.regsBut t [R.sqRefetch q] ∧ s.sqsBut t q) ∧
  (∀ (q : Fin 1024) (s : State),
    (s.sq q).outstanding = true ∨ s.cycle < (s.sq q).lastRead + 64 ∨ s.cycle ≤ (s.sq q).answeredAt →
    exec (.sqHeaderReread q) s = .next s) ∧
  (∀ (q : Fin 1024) (s : State) (f : Nat), (s.sq q).firstRead = some f →
    (f + 3200 ≤ s.cycle → ∃ t, exec (.sqMarkTimeout q) s = .next t ∧
      s.stops t q St.phase (s.reg (R.sqIndex q)) (s.latchedTag q)) ∧
    (s.cycle < f + 3200 → exec (.sqMarkTimeout q) s = .next s))) ∧
  (∀ (q : Fin 1024) (ans : RingAnswer) (s : State),
    let p := prefetchPos (s.sqUnits q) (s.sq q).prefetched (s.sq q).prefetched.length (s.sqTail q)
    let ahead := (p + s.sqUnits q - s.sqTail q) % s.sqUnits q
    ((s.sqMode q ≠ 1 ∨ s.fld (R.sqCfg q) 16 8 ≤ ahead ∨ s.sqWaits q = true) → exec (.sqPrefetchRead q ans) s = .next s) ∧
    (s.sqMode q = 1 → ahead < s.fld (R.sqCfg q) 16 8 → s.sqWaits q = false →
      (∀ st a, s.sqRead q [p] ans = .error (st, a) →
        ∃ t, exec (.sqPrefetchRead q ans) s = .next t ∧ t.sqMode q = 3 ∧ t.fld (R.sqErr q) 16 16 = st.toNat ∧
          s.sqsBut t q ∧ t.tasks = s.tasks ∧ s.sameMem t) ∧
      ∀ h, s.sqRead q [p] ans = .ok h →
        (entryMark h ≠ s.phaseAt q p →
          ∃ t, exec (.sqPrefetchRead q ans) s = .next t ∧ t = { s with out := t.out, hostHeld := t.hostHeld }) ∧
        (entryMark h = s.phaseAt q p → s.sqCovered q + ahead + entryUnits h < s.sqUnits q →
          ∀ e, s.sqRead q ((List.range (entryUnits h)).map (fun i => p + i)) ans = .ok e →
            ∃ t, exec (.sqPrefetchRead q ans) s = .next t ∧
              t = { s with sqs := t.sqs, out := t.out, hostHeld := t.hostHeld } ∧ s.sqsBut t q ∧
              t.sq q = { s.sq q with prefetched := (s.sq q).prefetched ++ [(p, e)] })))

/-- R57, R52, R62: an entry all of whose units have been read is accepted when it passes its checks and the task limits
let it in: HEAD moves past it, the expected phase turns where the ring wraps, its index is consumed, and the task it
describes is in the block. The first check that fails stops the queue with its status, and no task comes of the entry. -/
def Obligations.EntryAcceptance : Prop :=
  ∀ (q : Fin 1024) (ans : RingAnswer) (s : State) (e : List Byte), s.roomFor q = true →
    (s.fetched q = some (e, 0) ∨ ∃ h n body, s.fetched q = some (h, n + 1) ∧ s.sqWaits q = false ∧ e = h ++ body ∧
      s.sqRead q ((List.range (n + 1)).map (fun i => (s.sqHead q + 1 + i) % s.sqUnits q)) ans = .ok body) →
    let ref : TaskRef := { sq := q, index := (s.reg (R.sqIndex q)).toNat, life := (s.sq q).life }
    (entryCheck s q e = none → s.task ref = none →
      ∃ t x, exec (.entryAccept q ans) s = .next t ∧ t.sqHead q = (s.sqHead q + entryUnits e) % s.sqUnits q % 2 ^ 16 ∧
        (t.sqPhase q = if s.sqUnits q ≤ s.sqHead q + entryUnits e then ! s.sqPhase q else s.sqPhase q) ∧
        t.reg (R.sqIndex q) = s.reg (R.sqIndex q) + 1 ∧ t.task ref = some x ∧ x.entry = e ∧ s.sqsBut t q ∧
        t.tasks.map Task.ref = s.tasks.map Task.ref ++ [ref]) ∧
    (∀ st, entryCheck s q e = some st →
      ∃ t, exec (.entryAccept q ans) s = .next t ∧ t.sqMode q = 3 ∧ t.fld (R.sqErr q) 16 16 = st.toNat ∧
        t.reg (R.sqErrIndex q) = s.reg (R.sqIndex q) ∧ t.reg (R.sqErrTag q) = BitVec.ofNat 32 (uintAt (e.take 64) 4 4) ∧
        t.tasks = s.tasks ∧ s.sameMem t ∧ s.sqsBut t q)

/-- R72: PAUSE stops a running queue: an entry that TAIL covers and whose header has been read stays, every other fetch is
abandoned. RESUME has a paused or stopped queue fetch again at HEAD. SKIP passes the latched entry of a stopped queue and
consumes its index. HEAD, the phase and the index stay but for SKIP's entry. An action that does not apply in the queue's state is
discarded. -/
def Obligations.PauseResumeSkip : Prop :=
  (∀ (src : Requester) (q : Fin 1024) (s : State), s.takesWrite src (R.sqCtl q) →
    (s.sqMode q = 1 → ∃ t, exec (.sqPause src q) s = .next t ∧ t.sqMode q = 2 ∧ t.sqHead q = s.sqHead q ∧
      t.sqPhase q = s.sqPhase q ∧ t = { s with regs := t.regs, sqs := t.sqs } ∧ s.regsBut t [R.sqState q] ∧ s.sqsBut t q ∧
      (t.sq q).outstanding = false ∧ (t.sq q).firstRead = none ∧ (t.sq q).pushed = none ∧ (t.sq q).prefetched = [] ∧
      (∀ h, (s.sq q).header = some h → (t.sq q).header = if entryUnits h ≤ s.sqCovered q then some h else none)) ∧
    (s.sqMode q ≠ 1 → exec (.sqPause src q) s = .next s)) ∧
  (∀ (src : Requester) (q : Fin 1024) (s : State), s.takesWrite src (R.sqCtl q) →
    ((s.sqMode q = 2 ∨ s.sqMode q = 3) → ∃ t, exec (.sqResume src q) s = .next t ∧ t.sqMode q = 1 ∧
      t.sqHead q = s.sqHead q ∧ t.sqPhase q = s.sqPhase q ∧ (t.sq q).header = none ∧ (t.sq q).pushed = none ∧
      (t.sq q).prefetched = [] ∧ (t.sq q).outstanding = decide (s.sqHead q ≠ s.sqTail q) ∧
      t = { s with regs := t.regs, sqs := t.sqs, out := t.out, hostHeld := t.hostHeld } ∧ s.regsBut t [R.sqState q] ∧
      s.sqsBut t q) ∧
    (s.sqMode q ≠ 2 → s.sqMode q ≠ 3 → exec (.sqResume src q) s = .next s)) ∧
  (∀ (src : Requester) (q : Fin 1024) (s : State), s.takesWrite src (R.sqCtl q) →
    (∀ h, s.sqMode q = 3 → (s.sq q).latched = some h → ∃ t, exec (.sqSkip src q) s = .next t ∧ t.sqMode q = 1 ∧
      t.sqHead q = (s.sqHead q + entryUnits h) % s.sqUnits q % 2 ^ 16 ∧
      (t.sqPhase q = if s.sqUnits q ≤ s.sqHead q + entryUnits h then ! s.sqPhase q else s.sqPhase q) ∧
      t.reg (R.sqIndex q) = s.reg (R.sqIndex q) + 1 ∧
      t = { s with regs := t.regs, sqs := t.sqs, out := t.out, hostHeld := t.hostHeld } ∧
      s.regsBut t [R.sqState q, R.sqIndex q] ∧ s.sqsBut t q) ∧
    (s.sqMode q ≠ 3 ∨ (s.sq q).latched = none → exec (.sqSkip src q) s = .next s))

/-! ### WAIT, FENCE, event flags, timers (R77 to R81) -/

/-- R77, R78: a running WAIT completes once every flag it awaits has been seen set, a running FENCE once every task accepted
before it from its queue has written its completion record; neither completes before, and nothing else changes. -/
def Obligations.WaitAndFence : Prop :=
  ∀ (ref : TaskRef) (s : State) (x : Task), s.task ref = some x → x.phase = .running →
    (entryOpcode x.entry = 0x09 → (∀ e, e ∈ x.awaited → e ∈ x.seen) →
      ∃ t, exec (.waitComplete ref) s = .next t ∧ t.task ref = some x.queueDone ∧ t = { s with tasks := t.tasks } ∧
        s.tasksBut t ref) ∧
    (entryOpcode x.entry = 0x09 → (∃ e, e ∈ x.awaited ∧ e ∉ x.seen) → exec (.waitComplete ref) s = .next s) ∧
    (entryOpcode x.entry = 0x0A → s.earlierOpen ref = [] →
      ∃ t, exec (.fenceComplete ref) s = .next t ∧ t.task ref = some x.queueDone ∧ t = { s with tasks := t.tasks } ∧
        s.tasksBut t ref) ∧
    (entryOpcode x.entry = 0x0A → (∃ y, y ∈ s.earlierOpen ref) → exec (.fenceComplete ref) s = .next s)

/-- R79: a write of EVENT_SET sets exactly the flags written as 1; a write of EVENT_CLR clears exactly those, but one that has been set
in the same core cycle stays set; no other flag changes, and no other register. R75: every task that awaits a flag that is set has
seen it as the core cycle ends, and may be dispatched from the next one on. -/
def Obligations.EventFlagsSetAndClear : Prop :=
  (∀ (src : Requester) (k : Fin 16) (v : Word) (s : State), s.takesWrite src (R.eventSet k) →
    ∃ t, exec (.eventSetWrite src k v) s = .next t ∧
      (∀ e, e < 512 → t.flag e = (s.flag e || (decide (e / 32 = k) && v.getLsbD (e % 32)))) ∧ s.onlyRegs t [R.eventSet k] ∧
      (∀ i, v.getLsbD i = true → (t.setNow (R.eventSet k)).getLsbD i = true)) ∧
  (∀ (src : Requester) (k : Fin 16) (v : Word) (s : State), s.takesWrite src (R.eventClr k) →
    ∃ t, exec (.eventClrWrite src k v) s = .next t ∧
      (∀ e, e < 512 → t.flag e = (s.flag e && ! (decide (e / 32 = k) && v.getLsbD (e % 32) &&
        ! (s.setNow (R.eventSet k)).getLsbD (e % 32)))) ∧
      s.onlyRegs t [R.eventSet k]) ∧
  (∀ (s : State) (x : Task) (e : Nat), abortScope s = s → x ∈ s.tasks → e ∈ x.awaited → s.flag e = true →
    ∃ y, y ∈ s.nextCycle.tasks ∧ y.ref = x.ref ∧ y.entry = x.entry ∧ e ∈ y.seen ∧
      ((entryWait x.entry).event = e → y.eligible = true))

/-- R81: an armed timer whose CMP the counter has reached sets its flag; a one-shot timer is no longer armed, a periodic one
moves CMP to the least CMP + k × PERIOD above the counter and adds k − 1 to MISSED; before its time, and in a core cycle in which
it has been armed or has fired, nothing happens. A write of TMR_CTL arms it, but for a periodic arming with PERIOD zero or all
ones, which leaves ARMED 0 and BAD 1. -/
def Obligations.TimersFireAndArm : Prop :=
  (∀ (n : Fin 16) (s : State), s.bit (R.tmrCtl n) 31 = true → s.reg64 (R.tmrCmpLo n) ≤ s.gtc →
    s.now.timers.contains n.val = false → s.bit (R.tmrCtl n) 30 = false →
    ∃ t, exec (.timerFire n) s = .next t ∧ t.flag (s.fld (R.tmrCtl n) 0 9) = true ∧ t.bit (R.tmrCtl n) 31 = false ∧
      t.now.timers.contains n.val = true ∧
      s.onlyRegs t [R.tmrCtl n, R.eventSet (s.fld (R.tmrCtl n) 0 9 / 32)]) ∧
  (∀ (n : Fin 16) (s : State), s.bit (R.tmrCtl n) 31 = true → s.reg64 (R.tmrCmpLo n) ≤ s.gtc →
    s.now.timers.contains n.val = false → s.bit (R.tmrCtl n) 30 = true → s.reg (R.tmrPeriod n) ≠ 0 →
    s.gtc + (s.reg (R.tmrPeriod n)).toNat < 2 ^ 64 →
    ∃ t k, exec (.timerFire n) s = .next t ∧ t.flag (s.fld (R.tmrCtl n) 0 9) = true ∧ 1 ≤ k ∧
      t.reg64 (R.tmrCmpLo n) = s.reg64 (R.tmrCmpLo n) + k * (s.reg (R.tmrPeriod n)).toNat ∧
      s.gtc < t.reg64 (R.tmrCmpLo n) ∧ t.reg64 (R.tmrCmpLo n) ≤ s.gtc + (s.reg (R.tmrPeriod n)).toNat ∧
      t.reg (R.tmrMissed n) = satAdd (s.reg (R.tmrMissed n)) (k - 1) ∧ t.bit (R.tmrCtl n) 31 = true ∧
      t.now.timers.contains n.val = true ∧
      t = { s with regs := t.regs, now := t.now, freeCtr := t.freeCtr } ∧
      s.regsBut t [R.tmrCmpLo n, R.tmrCmpLo n + 4, R.tmrMissed n, R.eventSet (s.fld (R.tmrCtl n) 0 9 / 32)]) ∧
  (∀ (n : Fin 16) (s : State),
    s.bit (R.tmrCtl n) 31 = false ∨ s.gtc < s.reg64 (R.tmrCmpLo n) ∨ s.now.timers.contains n.val = true →
    exec (.timerFire n) s = .next s) ∧
  (∀ (src : Requester) (n : Fin 16) (v : Word) (s : State), s.takesWrite src (R.tmrCtl n) →
    let bad := getField v 30 1 = 1 ∧ (s.reg (R.tmrPeriod n) = 0 ∨ s.reg (R.tmrPeriod n) = 0xFFFFFFFF)
    ∃ t, exec (.tmrCtlWrite src n v) s = .next t ∧ s.onlyRegs t [R.tmrCtl n] ∧ t.fld (R.tmrCtl n) 0 9 = getField v 0 9 ∧
      t.fld (R.tmrCtl n) 30 1 = getField v 30 1 ∧
      (¬ bad → t.fld (R.tmrCtl n) 31 1 = getField v 31 1) ∧
      (¬ bad → getField v 31 1 = 1 → t.now.timers.contains n.val = true) ∧
      (bad → getField v 31 1 = 1 → t.bit (R.tmrCtl n) 31 = false ∧ t.bit (R.tmrCtl n) 29 = true))

/-! ### Translation (R226, R236 to R259) -/

/-- R226: the block list of a STREAM, once read, is the task's blocks where every descriptor is 8-byte aligned, and fails the task with
0x1003 ALIGN where one is not; a failing read fails it with the read's status. R248, R249, R243: the first task of its queue
before check 9 enters it with 256 range-store entries, once as many are free; while the ATS Enable bit is 0 its whole footprint
is formed into ranges there and then, with no request. -/
def Obligations.BlockListsAndRangeStore : Prop :=
  (∀ (ref : TaskRef) (c : MemCond) (s : State) (x : Task), s.task ref = some x → x.phase = .blockList →
    s.tierBWaits (streamList x.entry) = false →
    let bs := descriptors (s.seenMem (streamList x.entry) (16 * streamCount x.entry)) (streamCount x.entry)
    let verdict := s.memVerdict (s.ctxOf ref) .read (streamList x.entry) (16 * streamCount x.entry) c
    ∃ t y, exec (.blockListFetchComplete ref c) s = .next t ∧ t.task ref = some y ∧ y.entry = x.entry ∧ s.sameMem t ∧
      t.tasks.map Task.ref = s.tasks.map Task.ref ∧
      (verdict = none → blocksAligned bs = true → y.blocks = bs) ∧
      (verdict = none → blocksAligned bs = false → y.phase = .finished ∧ y.status = St.align) ∧
      (∀ st, verdict = some st → y.phase = .finished ∧ y.status = st)) ∧
  (∀ (ref : TaskRef) (c : MemCond) (s : State) (x : Task), s.task ref = some x →
    (x.phase ≠ .blockList ∨ s.tierBWaits (streamList x.entry) = true) →
    exec (.blockListFetchComplete ref c) s = .next s) ∧
  ((∀ (ref : TaskRef) (s : State) (x : Task), s.task ref = some x → x.phase = .waitRanges → x.todo ≠ [] →
    s.firstBeforeXlate x = true →
    (s.fld R.tuRangesFree 0 16 + x.reserved < 256 → exec (.rangeStoreReserve ref) s = .next s) ∧
    (256 ≤ s.fld R.tuRangesFree 0 16 + x.reserved → s.atsOn = true →
      ∃ t, exec (.rangeStoreReserve ref) s = .next t ∧
        t.task ref = some { x with phase := .translating, reserved := 256 } ∧
        t.fld R.tuRangesFree 0 16 = s.fld R.tuRangesFree 0 16 - (256 - x.reserved) ∧
        t = { s with regs := t.regs, tasks := t.tasks } ∧ s.regsBut t [R.tuRangesFree] ∧ s.tasksBut t ref) ∧
    (256 ≤ s.fld R.tuRangesFree 0 16 + x.reserved → s.atsOn = false →
      ∃ t y, exec (.rangeStoreReserve ref) s = .next t ∧ t.task ref = some y ∧ y.entry = x.entry ∧ y.todo = [] ∧
        y.phase ≠ .waitRanges ∧ s.sameMem t)) ∧
  (∀ (en : Bool) (s : State), ∃ t, exec (.atsEnable en) s = .next t ∧ t.atsOn = en ∧ t.priOn = s.priOn ∧
    t.priStopped = s.priStopped ∧ s.onlyRegs t [R.tuStatus]))

/-- R239, R240: a round asks for the lowest bytes of a task that no translation covers, from a 4 KiB boundary and for at most
128 KiB, counts the request, and carries No Write where the task only reads there; with 64 requests outstanding none goes out; a
round with no task at check 9 changes nothing. R238: a task whose cached translations need more than 256 ranges fails with
0x2001 FRAGMENTED before any request. -/
def Obligations.TranslationRounds : Prop :=
  (∀ (s : State) (x : Task), s.tasks.filter (fun t => decide (t.phase = .translating)) = [x] →
    s.task x.ref = some x → x.xreq = none → x.todo ≠ [] → s.atsOn = true →
    let z := s.useCache (s.taskPasid x.ref) s.xcache.length x
    (∀ r, z.ranges.length ≤ 256 → z.nextRequest s.cycle = some r → s.xlateOutstanding < 64 →
      ∃ t y, exec .translationRequestIssue s = .next t ∧ t.task x.ref = some y ∧ y.xreq = some r ∧ y.entry = x.entry ∧
        r.addr % 4096 = 0 ∧ r.len ≤ 131072 ∧ s.sentHost t [.translationRequest r.addr r.len (s.taskPasid x.ref) (! r.write)] ∧
        t = { s with regs := t.regs, now := t.now, tasks := t.tasks, out := t.out, hostHeld := t.hostHeld } ∧
        t.reg R.tuXlateReqs = satAdd (s.reg R.tuXlateReqs) 1 ∧ s.regsBut t [R.tuXlateReqs] ∧ s.tasksBut t x.ref) ∧
    (∀ r, z.ranges.length ≤ 256 → z.nextRequest s.cycle = some r → 64 ≤ s.xlateOutstanding →
      ∃ t, exec .translationRequestIssue s = .next t ∧ t.task x.ref = some z ∧ t = { s with tasks := t.tasks } ∧
        s.tasksBut t x.ref) ∧
    (256 < z.ranges.length → ∃ t y, exec .translationRequestIssue s = .next t ∧ t.task x.ref = some y ∧ y.entry = x.entry ∧
      y.phase = .finished ∧ y.status = St.fragmented ∧ t.reg R.tuXlateReqs = s.reg R.tuXlateReqs ∧
      t.reg R.tuFragmented = satAdd (s.reg R.tuFragmented) 1 ∧ s.sameMem t)) ∧
  (∀ s : State, (∀ x, x ∈ s.tasks → x.phase ≠ .translating) → exec .translationRequestIssue s = .next s)

/-- R241, R242, R259: the completion of a Translation Request gives the task its translations and the cache a copy; an error,
or 200 µs without a completion, fails the task with 0x2004 TRANSLATION_ERROR, which TU_FAULT is to record in the next core cycle
(R413). The limit runs from the request, or from the last DL_Up (R379). -/
def Obligations.TranslationAnswers : Prop :=
  ∀ (ref : TaskRef) (s : State) (x : Task) (r : XlateReq), s.task ref = some x → x.phase = .translating →
    x.xreq = some r → 0 < r.len →
    let failed (t : State) (y : Task) : Prop := t.task ref = some y ∧ y.phase = .finished ∧
      y.status = St.translationError ∧ y.entry = x.entry ∧ s.sameMem t ∧
      t.later.latches = s.later.latches ++
        [{ off := R.tuFault, key := ref.sq.val, val := ref.sq.val % 1024 * 2 ^ 16 + 0x2004, also := pairWords R.tuFaultVaLo r.addr }]
    (r.voids = [] → s.invals = [] → ∃ t y, exec (.translationCompletion ref .error) s = .next t ∧ failed t y) ∧
    (max r.at_ s.linkUpAt + 320000 ≤ s.cycle → ∃ t y, exec (.translationTimeout ref) s = .next t ∧ failed t y) ∧
    (s.cycle < max r.at_ s.linkUpAt + 320000 → exec (.translationTimeout ref) s = .next s) ∧
    (∀ xs, r.voids = [] → s.invals = [] → (x.applyXlations r.addr xs).ranges.length ≤ 256 →
      (x.applyXlations r.addr xs).todo ≠ [] →
      ∃ t, exec (.translationCompletion ref (.ok xs)) s = .next t ∧
        t.task ref = some { x.applyXlations r.addr xs with xreq := none } ∧
        t = { s with tasks := t.tasks, xcache := cacheXlations (s.taskPasid ref) s.xcache r.addr xs } ∧ s.tasksBut t ref)

/-- R245, R246: a task's faulting pages go out as one group of Page Requests, in ascending order, the last one marked, each page
once, with its requests counted; Success has the pages' bytes that no range covers translated again, Invalid Request fails the
task with 0x2002 PAGE_FAULT, Response Failure fails every task with a group and stops page requests for the whole block until
the host enables them again. -/
def Obligations.PageRequests : Prop :=
  (∀ (ref : TaskRef) (s : State) (x : Task) (prg : Nat), s.task ref = some x → s.freePrg = some prg →
    x.phase = .translating → x.todo = [] → x.xreq = none → s.priOn = true → s.priStopped = false →
    (∀ g, g ∈ s.prgs → g.task ≠ ref) →
    let n := min (min (s.fld R.tuGroupCfg 0 10) s.priFree) x.faults.length
    0 < n →
    ∃ t, exec (.pageRequestGroup ref) s = .next t ∧
      s.sentHost t ((x.faults.take n).zipIdx.map (fun p =>
        .pageRequest p.1.addr prg p.1.read p.1.write (decide (p.2 + 1 = n)) (s.taskPasid ref))) ∧
      t.prgs = s.prgs ++ [{ prg := prg, task := ref, pages := x.faults.take n }] ∧
      t.task ref = some { x with
        faults := (x.faults.take n).map (fun f => { f with tries := f.tries + 1 }) ++ x.faults.drop n } ∧
      t = { s with regs := t.regs, now := t.now, tasks := t.tasks, prgs := t.prgs, out := t.out, hostHeld := t.hostHeld } ∧
      t.reg R.tuPageReqs = satAdd (s.reg R.tuPageReqs) n ∧ t.reg R.tuPrgs = satAdd (s.reg R.tuPrgs) 1 ∧
      s.regsBut t [R.tuPageReqs, R.tuPrgs] ∧ s.tasksBut t ref) ∧
  (∀ (prg : Fin 512) (s : State) (g : PrgRun) (x : Task), s.prgs.find? (fun y => decide (y.prg = prg.val)) = some g →
    s.task g.task = some x → x.phase = .translating →
    (∃ t, exec (.prgResponse prg .success) s = .next t ∧ t = { s with tasks := t.tasks, prgs := t.prgs } ∧
      (∀ y, y ∈ t.prgs ↔ y ∈ s.prgs ∧ y.prg ≠ prg.val) ∧ s.tasksBut t g.task ∧
      t.task g.task = some { x with todo := footprint (x.todo ++ g.pages.flatMap (fun f => x.uncovered f.addr (f.addr + 4096))) }) ∧
    (∃ t y, exec (.prgResponse prg .invalidRequest) s = .next t ∧ t.task g.task = some y ∧ y.phase = .finished ∧
      y.status = St.pageFault ∧ (∀ z, z ∈ t.prgs ↔ z ∈ s.prgs ∧ z.prg ≠ prg.val) ∧ s.sameMem t) ∧
    (∃ t y, exec (.prgResponse prg .responseFailure) s = .next t ∧ t.priStopped = true ∧ t.priFailure = true ∧ t.prgs = [] ∧
      t.task g.task = some y ∧ y.phase = .finished ∧ y.status = St.pageFault ∧ s.sameMem t)) ∧
  (∀ s : State, ∃ t, exec .priReenable s = .next t ∧ t.priStopped = false ∧ t.priOn = true ∧ t.priFailure = false ∧
    t = { s with regs := t.regs, priFailure := false } ∧ s.regsBut t [R.tuStatus])

/-- R251 to R254: an Invalidate Request is taken in its order while fewer than 32 are outstanding, and from that core cycle no
cached translation and no unmarked range of any task remains that it applies to and overlaps; it completes, counted, once no host
request is in flight under a range it marked, and not before. -/
def Obligations.Invalidations : Prop :=
  (∀ (pasid : Option (BitVec 20)) (g : Bool) (a len : Nat) (s : State),
    let i : Inval := { pasid := pasid, global := g, addr := a, len := len }
    (s.invals.length < 32 → ∃ t, exec (.invalidateRequest pasid g a len) s = .next t ∧ t.invals = s.invals ++ [i] ∧
      (∀ c, c ∈ t.xcache → c ∈ s.xcache ∧ ¬ (i.appliesTo c.pasid = true ∧ i.hits c.range = true)) ∧
      (∀ y, y ∈ t.tasks → i.appliesTo (s.taskPasid y.ref) = true → ∀ r, r ∈ y.ranges → i.hits r = true → r.marked = true) ∧
      t.tasks.map Task.ref = s.tasks.map Task.ref) ∧
    (32 ≤ s.invals.length → exec (.invalidateRequest pasid g a len) s = .next s)) ∧
  (∀ (i : Inval) (rest : List Inval) (s : State), s.invals = i :: rest →
    (s.inFlight i = false → ∃ t, exec .invalidateCompletion s = .next t ∧
      t = { s with regs := t.regs, now := t.now, tasks := t.tasks, invals := rest, out := t.out, hostHeld := t.hostHeld } ∧
      s.sentHost t [.invalidateCompletion] ∧
      t.reg R.tuInvals = satAdd (s.reg R.tuInvals) 1 ∧ s.regsBut t [R.tuInvals] ∧
      t.tasks.map Task.ref = s.tasks.map Task.ref) ∧
    (s.inFlight i = true → exec .invalidateCompletion s = .next s))

/-! ### The way of a task (R15, R16, R21, R22) -/

/-- R16, R74: of the tasks that may be dispatched the highest-ranked one whose claim is granted starts to run, with its units
marked busy and its engine named for it; one whose turn fails it is finished with that status; where every claim is held,
nothing happens; at most one task is dispatched in a core cycle. Every other task stays as it is. -/
def Obligations.DispatchByRank : Prop :=
  (∀ (s : State) (pre post : List Task) (x : Task), s.now.dispatched = false → s.candidates = pre ++ x :: post →
    (∀ y, y ∈ pre → s.grantFor y = .hold) → s.task x.ref = some x →
    (∀ c, s.grantFor x = .go c → ∃ t y, exec .dispatch s = .next t ∧ t.task x.ref = some y ∧ y.entry = x.entry ∧
      y.phase ≠ .queued ∧ y.tDispatch = s.gtc ∧ y.engine = c.engine ∧ y.lane = c.lane ∧ y.expander = c.expander ∧
      y.compressor = c.compressor ∧ y.robUnits = c.rob ∧ t.now.dispatched = true ∧ s.tasksBut t x.ref ∧
      (isQueueTask (entryOpcode x.entry) = true → x.coll.announced = [] → y.phase = .running) ∧
      (∀ e, c.engine = some e → t.bit (R.engStatus e) 29 = true ∧ t.reg (R.engTaskSq e) = BitVec.ofNat 32 x.ref.sq ∧
        t.reg (R.engTaskIndex e) = BitVec.ofNat 32 x.ref.index)) ∧
    (∀ st, s.grantFor x = .fail st → ∃ t y, exec .dispatch s = .next t ∧ t.task x.ref = some y ∧ y.entry = x.entry ∧
      y.phase = .finished ∧ y.status = st ∧ s.tasksBut t x.ref ∧ s.sameMem t)) ∧
  (∀ s : State, (s.now.dispatched = true ∨ ∀ y, y ∈ s.candidates → s.grantFor y = .hold) → exec .dispatch s = .next s)

/-- R15, R204, R213, R228: a running task's next read goes out, to this chip's memory, to another node or under its range list
to the host, when its engine has room for it and no stream and no credit withholds it; a withheld read changes nothing; a host
address outside the range list fails the task with 0x2002 PAGE_FAULT (R250), a dead node with 0x6001 DEAD_DESTINATION (R277). -/
def Obligations.ReadsGoOut : Prop :=
  ∀ (ref : TaskRef) (s : State) (x : Task) (r : ReadReq), s.task ref = some x → x.phase = .running →
    s.nextRead x = some r → x.issued < 1024 → x.staged + r.alloc ≤ 524288 →
    let sends (t : State) (y : Task) : Prop := t.task ref = some y ∧ y.entry = x.entry ∧ y.phase = .running ∧
      y.readsIssued = x.readsIssued + 1 ∧ y.issueQ.map Issued.req = x.issueQ.map Issued.req ++ [r] ∧
      t = { s with regs := t.regs, tasks := t.tasks, out := t.out, hostHeld := t.hostHeld, fabricHeld := t.fabricHeld } ∧
      s.regsBut t ((List.range 64).map R.crdVal) ∧ s.tasksBut t ref
    (s.gated x r = true → exec (.readIssue ref) s = .next s) ∧
    (s.gated x r = false → r.space = .device → r.addr / 2 ^ 48 = s.node →
      ∃ t y, exec (.readIssue ref) s = .next t ∧ sends t y ∧ t.out = s.out ∧ t.hostHeld = s.hostHeld ∧
        t.fabricHeld = s.fabricHeld) ∧
    (s.gated x r = false → r.space = .device → r.addr / 2 ^ 48 ≠ s.node → s.deadNode (r.addr / 2 ^ 48) = false →
      ∃ t y, exec (.readIssue ref) s = .next t ∧ sends t y ∧ s.sentFabric t (.remoteRead r.addr r.len 0) ∧
        t.hostHeld = s.hostHeld) ∧
    (∀ z, s.gated x r = false → r.space = .host → x.rangeOf r.addr r.len = some z →
      ∃ t y, exec (.readIssue ref) s = .next t ∧ sends t y ∧ t.fabricHeld = s.fabricHeld ∧
        s.sentHost t [.hostRead (z.target (r.addr - z.host)) r.len (s.taskPasid ref) (! z.untranslated)]) ∧
    (s.gated x r = false → r.space = .host → x.rangeOf r.addr r.len = none →
      ∃ t y, exec (.readIssue ref) s = .next t ∧ t.task ref = some y ∧ y.status = St.pageFault ∧ y.phase ≠ .running ∧
        s.tasksBut t ref) ∧
    (s.gated x r = false → r.space = .device → r.addr / 2 ^ 48 ≠ s.node → s.deadNode (r.addr / 2 ^ 48) = true →
      ∃ t y, exec (.readIssue ref) s = .next t ∧ t.task ref = some y ∧ y.status = St.deadDestination ∧ y.phase ≠ .running ∧
        t.reg R.feDeadRefused = satAdd (s.reg R.feDeadRefused) 1 ∧ s.tasksBut t ref)

/-- R15, R22, R352: the answer to an outstanding read is staged: the bytes of this chip's memory as they stand before this core
cycle's writes (R283), those another node or the host returned otherwise; a read that ends with an error fails its task with that
status, with 0x7001 HOST where it was a read of the host; data that cannot be corrected, and a parity failure on its path, fail it
with 0x4001 UNCORRECTABLE. Reading changes no byte of memory. -/
def Obligations.ReadsAreAnswered : Prop :=
  ∀ (ref : TaskRef) (s : State) (x : Task) (i : Issued) (m : ReadMarks) (bs : List Byte), s.task ref = some x →
    x.phase = .running → x.issueQ.find? (fun j => decide (j.no = i.no) && ! j.answered) = some i → i.taken = false →
    (decide (i.req.space = .device) && s.localWaits i.req.addr) = false → s.lineHeld x i = false →
    let own := i.req.space = .device ∧ i.req.addr / 2 ^ 48 = s.node
    let staged (t : State) (y : Task) (d : List Byte) : Prop := t.task ref = some y ∧ y.entry = x.entry ∧
      y.phase = .running ∧ { i with answered := true, bytes := fitBytes i.req.len d } ∈ y.issueQ ∧ s.sameMem t ∧ s.tasksBut t ref
    let failed (t : State) (y : Task) (st : Status) : Prop := t.task ref = some y ∧ y.status = st ∧ y.phase ≠ .running ∧
      s.tasksBut t ref
    (own → s.memVerdict (s.ctxOf ref) .read (i.req.addr % 2 ^ 48) i.req.len .good = none →
      (x.answer i.no (s.seenMem (i.req.addr % 2 ^ 48) i.req.len)).indexFaults = false →
      ∃ t y, exec (.readResponse ref i.no (.data m bs)) s = .next t ∧
        staged t y (s.seenMem (i.req.addr % 2 ^ 48) i.req.len)) ∧
    (¬ own → (x.answer i.no bs).indexFaults = false →
      ∃ t y, exec (.readResponse ref i.no (.data m bs)) s = .next t ∧ staged t y bs) ∧
    (∀ st, ∃ t y, exec (.readResponse ref i.no (.error st)) s = .next t ∧
      failed t y (if i.req.space = .host then St.host else st)) ∧
    (∃ t y, exec (.readResponse ref i.no .uncorrectable) s = .next t ∧
      failed t y (if i.req.space = .host then St.host else St.uncorrectable)) ∧
    (∃ t y, exec (.readResponse ref i.no .parity) s = .next t ∧ failed t y St.uncorrectable ∧
      t.reg R.tmPathParity = satAdd (s.reg R.tmPathParity) 1)

/-- R200 to R203, R196: the expander checks the header of the next ingot and keeps it, turning an ingot with no payload into
its block at once; a header that fails its check fails the task with that status, CX_ERR_COUNT counts it, and CX_ERR is to record
it in the next core cycle (R413). The compressor builds the next ingot of a task once its block is whole: the ingot's lines wait
to be written. Neither changes memory. -/
def Obligations.IngotsExpandAndBuild : Prop :=
  (∀ (ref : TaskRef) (s : State) (x : Task) (p : CodecParams) (i : Issued) (l : List Issued), s.task ref = some x →
    x.phase = .running → entryExpand x.entry = some p → x.issueQ = i :: l → i.req.kind = .ingotHeader x.hdrs.length →
    i.answered = true →
    let n := x.touchIngot s.node x.hdrs.length
    let h := headerOf p n i.bytes
    let verdict := headerCheck h (p.ulen n) p.slot (s.slotGen p.slot)
    (∀ st, verdict = some st → ∃ t y, exec (.ingotExpand ref) s = .next t ∧ t.task ref = some y ∧ y.status = st ∧
      y.phase ≠ .running ∧ t.reg R.cxErrCount = satAdd (s.reg R.cxErrCount) 1 ∧
      t.later.latches = s.later.latches ++
        [{ off := R.cxErr, key := x.engineField, val := x.engineField * 2 ^ 16 + st.toNat, also := [] }] ∧
      s.tasksBut t ref) ∧
    (verdict = none → payloadBytes h ≠ 0 → ∃ t, exec (.ingotExpand ref) s = .next t ∧
      t.task ref = some { x with hdrs := x.hdrs ++ [h] } ∧ t = { s with tasks := t.tasks } ∧ s.tasksBut t ref) ∧
    (∀ block, verdict = none → payloadBytes h = 0 → expandPayload h (s.slotLens p.slot) (p.ulen n) [] = .ok block →
      ∃ t, exec (.ingotExpand ref) s = .next t ∧
        t.task ref = some (({ x with hdrs := x.hdrs ++ [h] } : Task).emitBlock x.hdrs.length block) ∧
        t = { s with tasks := t.tasks } ∧ s.tasksBut t ref)) ∧
  (∀ (ref : TaskRef) (s : State) (x : Task) (p : CodecParams) (block : List Byte), s.task ref = some x →
    x.phase = .running → entryCompress x.entry = some p → x.ingotsBuilt = false → (∀ i, i < 1024 → s.fld (R.fePeerCfg i) 29 2 ≠ 2) →
    x.imageBlock p (x.ingotSpan.1 + x.ingotsDone) = some block →
    ∃ t y, exec (.compressBlockDone ref) s = .next t ∧ t.task ref = some y ∧ y.entry = x.entry ∧
      y.ingotsDone = x.ingotsDone + 1 ∧ x.pendingW <+: y.pendingW ∧ s.sameMem t ∧ s.tasksBut t ref)

/-- R15, R96: the execute side writes the outputs that are ready, in their order; where none is, it consumes the oldest staged
entry once that is ready, and waits while a delivery stream withholds its next output (R213). Nothing reaches memory before a
write is answered (log 11). A write to the host outside the range list fails the task; so do, with 0x4001 UNCORRECTABLE, data of an
internal memory that cannot be corrected and a parity failure; a correction is only counted (R352, R374). -/
def Obligations.OutputsAreWritten : Prop :=
  (∀ (ref : TaskRef) (s : State) (x : Task), s.task ref = some x → x.phase = .running →
    isQueueTask (entryOpcode x.entry) = false → (∀ i, i < 1024 → s.fld (R.fePeerCfg i) 29 2 ≠ 2) →
    let outs := s.readyOutputs x (x.finalTensor s.node)
    (outs ≠ [] → entryDestHost x.entry = false → ∃ t y, exec (.executeWrite ⟨ref, .good⟩) s = .next t ∧ t.task ref = some y ∧
      y.entry = x.entry ∧ y.emitted.length = x.emitted.length + outs.length ∧ x.emitted <+: y.emitted ∧
      y.issueQ.Sublist x.issueQ ∧ s.sameMem t ∧ s.tasksBut t ref) ∧
    (outs ≠ [] → entryDestHost x.entry = true → ∃ t y, exec (.executeWrite ⟨ref, .good⟩) s = .next t ∧ t.task ref = some y ∧
      y.entry = x.entry ∧ s.tasksBut t ref ∧
      ((y.status = St.pageFault ∧ y.phase ≠ .running) ∨ y.emitted.length = x.emitted.length + outs.length)) ∧
    (outs = [] → s.withheld x = true → exec (.executeWrite ⟨ref, .good⟩) s = .next s) ∧
    (outs = [] → s.withheld x = false → entryDestHost x.entry = false →
      ∃ t y, exec (.executeWrite ⟨ref, .good⟩) s = .next t ∧ t.task ref = some y ∧ y.entry = x.entry ∧
        y.consumed = (x.consume s.node).consumed ∧ x.emitted <+: y.emitted ∧ s.sameMem t ∧ s.tasksBut t ref)) ∧
  (∀ (ref : TaskRef) (s : State) (x : Task), s.task ref = some x → x.phase = .running →
    isQueueTask (entryOpcode x.entry) = false →
    let failed (t : State) (y : Task) : Prop := t.task ref = some y ∧ y.status = St.uncorrectable ∧ y.phase ≠ .running ∧
      s.tasksBut t ref
    (∀ n, exec (.executeWrite ⟨ref, .corrected n⟩) s = exec (.executeWrite ⟨ref, .good⟩) (s.bump R.tmSramCe n)) ∧
    (∀ m, ∃ t y, exec (.executeWrite ⟨ref, .uncorrectable m⟩) s = .next t ∧ failed t y ∧
      t.later.events = s.later.events ++ [{ source := 7, unit := internalUnit x m, status := St.uncorrectable, task := some ref,
                                            addr := 0, time := s.gtc }]) ∧
    (∃ t y, exec (.executeWrite ⟨ref, .parity⟩) s = .next t ∧ failed t y ∧
      t.reg R.tmPathParity = satAdd (s.reg R.tmPathParity) 1 ∧
      t.later.events = s.later.events ++ [{ source := 8, unit := x.engineField, status := St.uncorrectable, task := some ref,
                                            addr := 0, time := s.gtc }]))

/-- R21, R36, R90: an accepted write of this chip's memory leaves its bytes there and changes no other byte; one that is refused
fails its task with the refusal's status; a write at another node is only acknowledged. The answer to the flushing read after
a task's last host write is noted, and a failed one fails the task with 0x7001 HOST. -/
def Obligations.WritesAreAcknowledged : Prop :=
  (∀ (ref : TaskRef) (s : State) (x : Task) (w : WriteReq) (l : List WriteReq), s.task ref = some x → x.phase = .running →
    x.pendingW = w :: l → s.localWaits w.span.1 = false →
    (w.span.1 / 2 ^ 48 = s.node → s.writeVerdict x w .accepted = none →
      ∃ t y, exec (.writeAck ref .accepted) s = .next t ∧ t.task ref = some y ∧ y.entry = x.entry ∧ y.pendingW = l ∧
        (∀ a, t.readByte a = sget (memDefault s.memGen) (memPutCells s.memGen s.mem w.cells) a) ∧
        (∀ a, (∀ c, c ∈ w.cells → c.addr % 2 ^ 48 ≠ a) → t.readByte a = s.readByte a) ∧ s.tasksBut t ref) ∧
    (∀ ans st, w.span.1 / 2 ^ 48 = s.node → s.writeVerdict x w ans = some st →
      ∃ t y, exec (.writeAck ref ans) s = .next t ∧ t.task ref = some y ∧ y.status = st ∧ y.phase ≠ .running ∧
        s.tasksBut t ref) ∧
    (w.span.1 / 2 ^ 48 ≠ s.node →
      ∃ t y, exec (.writeAck ref .accepted) s = .next t ∧ t.task ref = some y ∧ y.entry = x.entry ∧ y.pendingW = l ∧
        s.sameMem t ∧ s.tasksBut t ref)) ∧
  (∀ (ref : TaskRef) (s : State) (x : Task), s.task ref = some x → x.phase = .running → x.flushing = true →
    (∃ t y, exec (.flushReadCompletion ref true) s = .next t ∧ t.task ref = some y ∧ y.entry = x.entry ∧ y.flushed = true ∧
      y.flushing = false ∧ s.sameMem t ∧ s.tasksBut t ref) ∧
    (∃ t y, exec (.flushReadCompletion ref false) s = .next t ∧ t.task ref = some y ∧ y.status = St.host ∧
      y.phase ≠ .running ∧ s.tasksBut t ref))

/-! ### Records and the journal (R83 to R90, R361 to R364) -/

/-- R83 to R89: the record of a finished task is issued at TAIL, which moves on with the phase, from the core cycle after it reached
its ring on and in R85's order; it waits at a full ring and is discarded, counted, at a stopped one. Acknowledged, it stands in a
device ring, sets the task's event in the next core cycle (R413), sends the message it triggered, and its task goes to the
journal; failed, it stops its ring. The delay interrupt goes out once it is due and its record is acknowledged. -/
def Obligations.CompletionRecords : Prop :=
  (∀ (ref : TaskRef) (s : State) (x : Task), s.task ref = some x → x.phase = .finished →
    let c := entryRing x.entry
    let img := completionRecord x (s.sqHead ref.sq) (s.cqPhase c)
    let n := (s.cq c).written + 1
    let triggers := s.bit (R.cqIrq c) 31 && (entryIrqNow x.entry || decide (s.fld (R.cqIrq c) 8 8 + 1 ≤ n))
    (s.reached x = false → exec (.completionRecordWrite ref) s = .next s) ∧
    (s.cqStopped c = false → (s.cqFull c = true ∨ s.nextOfRing x = false) → exec (.completionRecordWrite ref) s = .next s) ∧
    (s.reached x = true → s.cqStopped c = false → s.cqFull c = false → s.nextOfRing x = true →
      ∃ t, exec (.completionRecordWrite ref) s = .next t ∧
        t.task ref = some { x with phase := .recordIssued, record := img, recordPos := s.cqTail c, recordAt := s.cycle } ∧
        t.cqTail c = (s.cqTail c + 1) % s.cqRecords c % 2 ^ 16 ∧
        (t.cqPhase c = if (s.cqTail c + 1) % s.cqRecords c = 0 then ! s.cqPhase c else s.cqPhase c) ∧
        t = { s with regs := t.regs, tasks := t.tasks, cqs := t.cqs, out := t.out, hostHeld := t.hostHeld } ∧
        s.regsBut t [R.cqTail c] ∧ s.tasksBut t ref ∧
        (triggers = true → (t.cq c).due = (s.cq c).due ++ [ref] ∧ (t.cq c).written = 0 ∧ (t.cq c).firstAt = none) ∧
        (triggers = false → (t.cq c).due = (s.cq c).due ∧ (t.cq c).written = n ∧
          (t.cq c).firstAt = some ((s.cq c).firstAt.getD s.cycle)) ∧
        (s.cqHost c = false → t.out = s.out ∧ t.hostHeld = s.hostHeld) ∧
        (∀ h, s.cqHost c = true → hostTarget (s.cq c).ranges (s.cqSlot c (s.cqTail c)) = some h →
          s.sentHost t [.hostWrite h.1 img (s.cqPasid c) false h.2, .flushRead (h.1 + 28) (s.cqPasid c) h.2])) ∧
    (s.reached x = true → s.cqStopped c = true → ∃ t y, exec (.completionRecordWrite ref) s = .next t ∧ t.task ref = some y ∧
      y.phase = .journal ∧ y.recordLost = true ∧ y.tDone = s.gtc ∧
      t.reg (R.cqDropped c) = satAdd (s.reg (R.cqDropped c)) 1 ∧ s.sameMem t ∧ s.tasksBut t ref)) ∧
  (∀ (ref : TaskRef) (s : State) (x : Task) (ans : RecordAnswer), s.task ref = some x → x.phase = .recordIssued →
    let c := entryRing x.entry
    let a := s.cqSlot c x.recordPos
    (s.cqHost c = true ∨ s.tierBWaits a = false) →
    (s.recordVerdict c a ans = none → ∃ t y, exec (.completionRecordAck ref ans) s = .next t ∧ t.task ref = some y ∧
      y.phase = .journal ∧ y.recordLost = false ∧ y.status = x.status ∧
      (s.cqHost c = true → s.sameMem t) ∧
      (s.cqHost c = false → t.readMem a x.record.length = x.record ∧ s.sameMemBut t a x.record.length) ∧
      t.later.flags = s.later.flags ++
        (if x.recordEvent then [((entrySet x.entry).event, ! (entrySet x.entry).clr)] else []) ∧
      s.sentHost t (if (s.cq c).due.contains ref && s.bit (R.cqIrq c) 31 then [.msix (s.fld (R.cqIrq c) 16 11)] else [])) ∧
    (∀ st, s.recordVerdict c a ans = some st → s.cqStopped c = false →
      ∃ t y, exec (.completionRecordAck ref ans) s = .next t ∧ t.task ref = some y ∧ y.phase = .journal ∧
        y.recordLost = true ∧ t.cqStopped c = true ∧ t.fld (R.cqErr c) 16 16 = st.toNat ∧ s.sameMem t)) ∧
  (∀ (c : Fin 256) (s : State) (f : Nat), (s.cq c).firstAt = some f → s.bit (R.cqIrq c) 31 = true →
    (f + 1600 * s.fld (R.cqIrqDelay c) 0 10 ≤ s.cycle →
      ∃ t, exec (.cqIrqDelayExpiry c) s = .next t ∧ t = { s with cqs := t.cqs, out := t.out, hostHeld := t.hostHeld } ∧
        (t.cq c).firstAt = none ∧ (t.cq c).written = 0 ∧
        ((s.cq c).first = none → s.sentHost t [.msix (s.fld (R.cqIrq c) 16 11)]) ∧
        (∀ y, (s.cq c).first = some y → (t.cq c).due = (s.cq c).due ++ [y] ∧ t.out = s.out ∧ t.hostHeld = s.hostHeld)) ∧
    (s.cycle < f + 1600 * s.fld (R.cqIrqDelay c) 0 10 → exec (.cqIrqDelayExpiry c) s = .next s))

/-- R361 to R364: a task whose record has been dealt with appends its journal record in its turn, one aligned 64-byte write with the
journal's phase, and leaves the block; a write that fails stops the journal with its status; with the journal disabled, or
stopped, the task leaves without a record. A write of JR_CFG enables a journal whose ring fits its tier and refuses another;
one that clears EN disables it. -/
def Obligations.Journal : Prop :=
  (∀ (ref : TaskRef) (s : State) (x : Task) (c : MemCond), s.task ref = some x → x.phase = .journal →
    let img := patchBytes x.record 15 [BitVec.ofNat 8 (boolBit s.jrPhase)]
    let open_ := s.jrEn = true ∧ s.jrStopped = false ∧ (s.jrFull = false ∨ s.bit R.jrCfg 30 = true) ∧
      s.tierBWaits s.jrSlot = false ∧ s.nextOfJournal x = true
    (s.jrEn = false → ∃ t, exec (.journalAppend ref c) s = .next t ∧ t.task ref = none ∧ s.sameMem t) ∧
    (s.jrEn = true → s.jrStopped = true → ∃ t, exec (.journalAppend ref c) s = .next t ∧ t.task ref = none ∧ s.sameMem t ∧
      t.reg R.jrDropped = satAdd (s.reg R.jrDropped) 1) ∧
    (open_ → s.memVerdict 0 .write s.jrSlot 64 (writeCond s.jrSlot 64 c) = none →
      ∃ t, exec (.journalAppend ref c) s = .next t ∧ t.task ref = none ∧ t.readMem s.jrSlot img.length = img ∧
        s.sameMemBut t s.jrSlot img.length ∧ t.jrTail = (s.jrTail + 1) % s.jrRecords % 2 ^ 20) ∧
    (∀ st, open_ → s.memVerdict 0 .write s.jrSlot 64 (writeCond s.jrSlot 64 c) = some st →
      ∃ t, exec (.journalAppend ref c) s = .next t ∧ t.task ref = none ∧ s.sameMem t ∧ t.jrStopped = true ∧
        t.fld R.jrErr 16 16 = st.toNat ∧ t.jrTail = s.jrTail)) ∧
  (∀ (src : Requester) (v : Word) (s : State), s.takesWrite src R.jrCfg → s.jrEn = false → getField v 31 1 = 1 →
    (getField v 0 4 ≤ 14 → inTier (s.reg64 R.jrBaseLo) (64 * 2 ^ (getField v 0 4 + 6)) = true →
      ∃ t, exec (.journalEnable src v) s = .next t ∧ t.jrEn = true ∧ t.jrStopped = false ∧ t.jrTail = 0 ∧ t.jrHead = 0 ∧
        t.jrPhase = true ∧ t.fld R.jrCfg 0 4 = getField v 0 4 ∧ t.fld R.jrCfg 30 1 = getField v 30 1 ∧
        s.onlyRegs t [R.jrCfg, R.jrTail, R.jrHead]) ∧
    ((14 < getField v 0 4 ∨ inTier (s.reg64 R.jrBaseLo) (64 * 2 ^ (getField v 0 4 + 6)) = false) →
      ∃ t, exec (.journalEnable src v) s = .next t ∧ t.jrEn = false ∧ t.bit R.jrCfg 29 = true ∧ s.onlyRegs t [R.jrCfg])) ∧
  (∀ (src : Requester) (v : Word) (s : State), s.takesWrite src R.jrCfg → s.jrEn = true → getField v 31 1 = 0 →
    ∃ t, exec (.journalDisable src v) s = .next t ∧ t.jrEn = false ∧ s.sameMem t ∧
      (s.jrFull = false → s.onlyRegs t [R.jrCfg]))

/-! ### Delivery streams and the step (R207 to R232) -/

/-- R207, R216, R217, R221, R223: a step-start strobe after a fresh boundary starts the step, another one, and a step-end strobe with
no step running, only set the sticky error bit; the step-end strobe of a running step leaves it running to the end of the array
cycle it lies in, and the step ends there: the schedule counter advances unless hold is asserted. A tile that falls due in a slot
that is not ready, and a barrier whose windows have not been drained, assert hold; one that stands is not assessed anew before an
array cycle starts. A hold that has lasted the limit is reported once. -/
def Obligations.StrobesAndHold : Prop :=
  (∀ s : State,
    (s.boundaryFresh = true → s.running = false → ∃ t, exec .stepStartStrobe s = .next t ∧ t.running = true ∧
      t.boundaryFresh = false ∧
      t = { s with regs := t.regs, now := t.now, later := t.later, boundaryFresh := false, holdLen := t.holdLen,
                   holdReported := t.holdReported } ∧
      s.regsBut t [R.strRun, R.strHold, R.strHoldLong, R.mcCount]) ∧
    ((s.boundaryFresh = false ∨ s.running = true) → ∃ t, exec .stepStartStrobe s = .next t ∧ t.bit R.strRun 30 = true ∧
      t.running = s.running ∧ s.onlyRegs t [R.strRun]) ∧
    (s.running = true → exec .stepEndStrobe s = .next { s with stepEnding := true }) ∧
    (s.running = false → ∃ t, exec .stepEndStrobe s = .next t ∧ t.bit R.strRun 30 = true ∧ t.running = false ∧
      s.onlyRegs t [R.strRun]) ∧
    (s.running = true → s.stepEnding = true → s.endArrayCycle.running = false ∧ s.endArrayCycle.stepEnding = false ∧
      s.endArrayCycle.stepEndSeen = true ∧ (s.held = false → s.endArrayCycle.sc = (s.sc + 1) % 2 ^ 48) ∧
      (s.held = true → s.endArrayCycle.sc = s.sc) ∧ s.sameMem s.endArrayCycle)) ∧
  (∀ (n : Fin 256) (tile : Nat) (s : State) (d : DsRun), s.stream n = some d → s.running = true →
    d.dueTile s.sc = some tile → d.slotReady tile = false →
    (s.held = false → ∃ t, exec (.tileDeadline n tile) s = .next t ∧ t.held = true ∧ t.sc = s.sc ∧
      t = { s with regs := t.regs, now := t.now, later := t.later, holdLen := 1, holdReported := t.holdReported } ∧
      s.regsBut t [R.strHold, R.strHoldLong, R.mcCount]) ∧
    (s.held = true → exec (.tileDeadline n tile) s = .next s)) ∧
  (∀ s : State, s.running = true → s.barriers.contains s.sc = true →
    (s.held = false → ∃ t, exec .barrierCycle s = .next t ∧
      (t.held = true ↔ s.streamHolding.isSome ∨ s.barrierHolding.isSome) ∧ t.sc = s.sc ∧
      t = { s with regs := t.regs, now := t.now, later := t.later, holdLen := t.holdLen, holdReported := t.holdReported } ∧
      s.regsBut t [R.strHold, R.strHoldLong, R.mcCount]) ∧
    (s.held = true → exec .barrierCycle s = .next s)) ∧
  (∀ s : State, s.held = true → 0 < (s.reg R.strHoldLimit).toNat → (s.reg R.strHoldLimit).toNat ≤ s.holdLen →
    (s.holdReported = false → ∃ t, exec .holdLimitReached s = .next t ∧ t.holdReported = true ∧
      t.reg R.mcCount = satAdd (s.reg R.mcCount) 1 ∧ t.bit R.strHoldLong 31 = true ∧
      (s.bit R.strHoldLong 31 = false → t.fld R.strHoldLong 0 8 = s.fld R.strHold 0 8) ∧
      (s.bit R.strHoldLong 31 = true → t.reg R.strHoldLong = s.reg R.strHoldLong) ∧
      t.later.events = s.later.events ++
        [{ source := 2, unit := s.fld R.strHold 0 8, status := 0, task := none, addr := 0, time := s.gtc }] ∧
      t = { s with regs := t.regs, now := t.now, later := t.later, holdReported := true } ∧
      s.regsBut t [R.mcCount, R.strHoldLong]) ∧
    (s.holdReported = true → exec .holdLimitReached s = .next s))

/-- R222, R228, R215: RELEASE_FAILED releases every stream that is FAILED and no other; a credit counter takes what is added,
saturating with its overflow bit, or what is written. A ready tile's generation word is written in its slot, lowest tile first,
and its acknowledgement completes the tile. -/
def Obligations.StreamsMoveOn : Prop :=
  (∀ (src : Requester) (v : Word) (s : State), s.takesWrite src R.strHoldCtl →
    (getField v 0 1 = 1 → ∃ t, exec (.releaseFailed src v) s = .next t ∧ t = { s with ds := t.ds } ∧
      ∀ n : Fin 256, (s.streamFailed n = true → ∀ d, s.stream n = some d → ∃ e, t.stream n = some e ∧ e.released = true) ∧
        (s.streamFailed n = false → t.stream n = s.stream n)) ∧
    (getField v 0 1 = 0 → exec (.releaseFailed src v) s = .next s)) ∧
  (∀ (src : Requester) (n : Fin 64) (v : Word) (s : State),
    (s.takesWrite src (R.crdAdd n) → (s.reg (R.crdVal n)).toNat + v.toNat < 2 ^ 32 →
      ∃ t, exec (.crdAddWrite src n v) s = .next t ∧
        (t.reg (R.crdVal n)).toNat = (s.reg (R.crdVal n)).toNat + v.toNat ∧ s.onlyRegs t [R.crdVal n]) ∧
    (s.takesWrite src (R.crdAdd n) → 2 ^ 32 ≤ (s.reg (R.crdVal n)).toNat + v.toNat →
      ∃ t, exec (.crdAddWrite src n v) s = .next t ∧
        t.reg (R.crdVal n) = 0xFFFFFFFF ∧ t.bit (R.crdStatus n) 31 = true ∧ s.onlyRegs t [R.crdVal n, R.crdStatus n]) ∧
    (s.takesWrite src (R.crdVal n) →
      ∃ t, exec (.crdValWrite src n v) s = .next t ∧ t.reg (R.crdVal n) = v ∧ s.onlyRegs t [R.crdVal n])) ∧
  (∀ (n : Fin 256) (s : State) (d : DsRun), s.stream n = some d →
    (∀ i, d.nextGen = some i → i ∈ d.ready ∧ i ∉ d.genIssued ∧ i ∉ d.voided ∧
      (∀ j, j ∈ d.ready → j ∉ d.genIssued → j ∉ d.voided → i ≤ j) ∧
      ∃ t, exec (.generationWordWrite n) s = .next t ∧ t.readMem (d.genAddr i) 8 = leBytes 8 (s.genWord d i) ∧
        s.sameMemBut t (d.genAddr i) 8 ∧ t.stream n = some { d with genIssued := d.genIssued ++ [i] } ∧
        t = { s with mem := t.mem, ds := t.ds, now := t.now }) ∧
    (d.nextGen = none → exec (.generationWordWrite n) s = .next s) ∧
    (∀ i, d.genIssued.find? (fun i => ! d.done.contains i) = some i →
      ∃ t, exec (.tileComplete n) s = .next t ∧ t.stream n = some { d with done := d.done ++ [i] } ∧
        t.reg (R.dsDone n) = BitVec.ofNat 32 (doneFrom (d.done ++ [i]) (d.done ++ [i]).length 0) ∧
        t = { s with regs := t.regs, ds := t.ds, deferred := t.deferred }) ∧
    (d.genIssued.find? (fun i => ! d.done.contains i) = none → exec (.tileComplete n) s = .next s))

/-- R232, R207, R209, R170, R341, R365: the boundary of a dispatched STEP_CLOSE is applied once every task ranked before it has its
record and the strobe it waits for has been seen, and not before: the step number moves on, the schedule counter starts from
zero, no step runs, every unit applies the staged epoch, and the hold counters of the step that ends are kept, at once or, in the
second core cycle of an array cycle, as it ends. The task then completes, with 0x9002 DELIVERY where a stream of the new step is
BAD, and the command processor's EPOCH_SET that waits for the epoch readies its reply. -/
def Obligations.StepBoundary : Prop :=
  (∀ (s : State) (x : Task), s.runningClose = some x →
    (s.boundaryDue x = true → ∃ t, exec .stepBoundaryApply s = .next t ∧ t.reg R.strStep = s.reg R.strStep + 1 ∧ t.sc = 0 ∧
      t.running = false ∧ t.held = false ∧ (∀ i, i < 12 → t.reg (R.epochApplied i) = s.reg R.epochStaged) ∧
      t.reg R.rdArrivalActive = s.reg R.rdArrivalCfg ∧ t.reg R.strSessionActive = s.reg R.strSessionCfg ∧
      (s.halfCycle = false → t.reg R.holdLastStep = s.reg R.strStep ∧ ∀ c, c < 16 → t.reg64 (R.holdCurLo c) = 0) ∧
      (s.halfCycle = true → t.holdClose = some (s.reg R.strStep)) ∧
      (∀ n : Fin 256, (t.stream n).isSome = s.bit (R.dsCfg n) 31) ∧
      t = { s with regs := t.regs, ds := t.ds, deferred := [], holdClose := t.holdClose, barriers := closeBarriers x.entry,
                   stepEnding := false, stepEndSeen := false, boundaryFresh := true, holdLen := 0, holdReported := false,
                   closing := some (x.ref, true) }) ∧
    (s.boundaryDue x = false → exec .stepBoundaryApply s = .next s)) ∧
  (∀ (s : State) (x : Task), s.runningClose = some x → s.closing = some (x.ref, true) →
    ∃ t y, exec .stepCloseComplete s = .next t ∧ t.task x.ref = some y ∧ y.entry = x.entry ∧ y.phase = .finished ∧
      (y.status = if s.enabledStreams.any (fun d => d.2.bad) then St.delivery else St.success) ∧
      (s.mq.epoch = none → t.mq = s.mq) ∧
      (∀ p, s.mq.epoch = some p → s.reg R.epochStaged = s.reg (R.epochApplied 0) → t.mq.epoch = none ∧
        ∃ r, t.mq.replies = s.mq.replies ++ [r] ∧ r.status = St.success ∧ r.last = true ∧ r.index = p.index) ∧
      t = { s with tasks := t.tasks, mq := t.mq, closing := none } ∧ s.tasksBut t x.ref) ∧
  (∀ s : State, s.closing = none → exec .stepCloseComplete s = .next s)

/-- R208: STEP_NO is 0 after every reset that clears the stream engines, and each step boundary increments it, modulo 2^32. -/
def Obligations.StepNumber : Prop :=
  (∀ (s : State) (c : Instr),
    (c = .powerOn ∨ c = .powerRemoved ∨
      (c = .powerEntryComplete ∧ s.entering = some .off ∧ s.linesDone = true ∧ s.powerAt + entryCycles .off ≤ s.cycle) ∨
      (s.powered = true ∧ s.power ≠ .off ∧ (c = .hotReset ∨ c = .functionLevelReset ∨ c = .perstAssert ∨
        (c = .linkLossTimeout ∧ s.linkDown = true ∧ 16000 < s.linkDownCycles ∧ s.linkDownCycles < lossTaken)))) →
    ∃ t, exec c s = .next t ∧ t.reg R.strStep = 0) ∧
  (∀ (s : State) (x : Task), s.runningClose = some x → s.boundaryDue x = true →
    ∃ t, exec .stepBoundaryApply s = .next t ∧ (t.reg R.strStep).toNat = ((s.reg R.strStep).toNat + 1) % 2 ^ 32)

/-! ### COLLECTIVE exchange (R175 to R181) -/

/-- R175, R176, R180, R181: a granted credit is kept once, with what the member announces beside it while the task has not been
dispatched; the next piece of a stream goes out once its credit is held, its bytes are known and no message of its node and tag
waits before it, to every attached member at once from the root of a BROADCAST; a received piece that was granted and not yet
received is taken; a credit or a piece with another announcement fails the running task with 0x6003 MISMATCH; a failure notice
fails the task it is for; a member that grants no credit in time is detached, recorded, counted, and told so. -/
def Obligations.CollectiveExchange : Prop :=
  (∀ (ref : TaskRef) (s : State) (x : Task) (rank stage piece : Nat) (ann : Announcement), s.task ref = some x →
    openCollective x = true →
    (x.coll.credits.contains (rank, stage, piece) = false → (x.phase = .running → ann = x.announcement s.node) →
      ∃ t, exec (.collectiveCreditGrant ref rank stage ⟨piece, ann⟩) s = .next t ∧
        t.task ref = some { x with coll := { x.coll with
          credits := x.coll.credits ++ [(rank, stage, piece)],
          announced := if x.phase = .running then x.coll.announced else x.coll.announced ++ [ann] } } ∧
        t = { s with tasks := t.tasks } ∧ s.tasksBut t ref) ∧
    (x.phase = .running → ann ≠ x.announcement s.node → ∃ t y, exec (.collectiveCreditGrant ref rank stage ⟨piece, ann⟩) s = .next t ∧
      t.task ref = some y ∧ y.entry = x.entry ∧ y.status = St.mismatch ∧ y.phase ≠ .running ∧ s.tasksBut t ref) ∧
    (x.coll.credits.contains (rank, stage, piece) = true → (x.phase = .running → ann = x.announcement s.node) →
      exec (.collectiveCreditGrant ref rank stage ⟨piece, ann⟩) s = .next s)) ∧
  (∀ (ref : TaskRef) (s : State) (x : Task) (rank q stage i r : Nat) (l : List Nat) (bs : List Byte), s.task ref = some x →
    x.phase = .running → openCollective x = true →
    (if x.isRoot s.node then x.peersOf s.node else (x.peersOf s.node).filter (fun p => decide (p = rank))) = q :: l →
    x.nextPiece s.node q = some (r, stage, i) → (∀ p, p ∈ q :: l → (p, stage, i) ∈ x.coll.credits) →
    x.pieceBytes s.node stage q i = some bs →
    ((∀ p, p ∈ q :: l → s.pairWaiting ((x.group s.node).getD p 0) (collCtl x.entry).ctag = []) →
      (∀ u, u ∈ s.tasks → u.ref ≠ ref → ∀ w, w ∈ u.coll.awaiting → w.tag ≠ (collCtl x.entry).ctag) →
      ∃ t y, exec (.collectivePieceSend ref rank) s = .next t ∧ t.task ref = some y ∧ y.entry = x.entry ∧
        y.coll.sent = x.coll.sent ++ (q :: l).map (fun p => (p, stage, i)) ∧
        (s.bit R.feCtl 31 = true → ∀ p, p ∈ q :: l → ∃ pc,
          t.packetLeft (.collectivePiece ((x.group s.node).getD p 0) (collCtl x.entry).ctag pc) ∧
          pc.rank = x.rank s.node ∧ pc.stage = stage ∧ pc.index = i ∧ pc.ann = x.announcement s.node ∧
          ((collCtl x.entry).wire = false → pc.bytes = bs)) ∧
        s.sameMem t ∧ s.tasksBut t ref) ∧
    ((∃ p, p ∈ q :: l ∧ s.pairWaiting ((x.group s.node).getD p 0) (collCtl x.entry).ctag ≠ []) →
      exec (.collectivePieceSend ref rank) s = .next s)) ∧
  (∀ (ref : TaskRef) (s : State) (x : Task) (p : Piece), s.task ref = some x → x.phase = .running →
    openCollective x = true →
    let n := min (2 ^ (collCtl x.entry).chunkLog2)
      ((x.recvStream s.node p.stage p.rank).bytes - p.index * 2 ^ (collCtl x.entry).chunkLog2)
    (p.ann = x.announcement s.node → (p.rank, p.stage, p.index) ∈ x.coll.granted →
      (p.rank, p.stage, p.index) ∉ x.coll.received → ∀ bs, s.pieceContent x p n = .ok bs →
      ∃ t y, exec (.collectivePieceReceive ref p) s = .next t ∧ t.task ref = some y ∧ y.entry = x.entry ∧
        y.coll.received = x.coll.received ++ [(p.rank, p.stage, p.index)] ∧ s.tasksBut t ref) ∧
    (p.ann = x.announcement s.node →
      ((p.rank, p.stage, p.index) ∉ x.coll.granted ∨ (p.rank, p.stage, p.index) ∈ x.coll.received) →
      exec (.collectivePieceReceive ref p) s = .next s) ∧
    (p.ann ≠ x.announcement s.node → ∃ t y, exec (.collectivePieceReceive ref p) s = .next t ∧ t.task ref = some y ∧
      y.entry = x.entry ∧ y.status = St.mismatch ∧ y.phase ≠ .running ∧ s.tasksBut t ref)) ∧
  (∀ (ctag : BitVec 16) (st : Status) (s : State) (x : Task), s.noticeTask ctag.toNat = some x → s.task x.ref = some x →
    (x.phase ≠ .failing ∧ (x.phase = .finished → x.status = St.success)) →
    ∃ t y, exec (.collectiveFailureNotice ctag st) s = .next t ∧ t.task x.ref = some y ∧ y.entry = x.entry ∧ y.status = st ∧
      (y.phase = .failing ∨ y.phase = .finished)) ∧
  (∀ (ref : TaskRef) (s : State) (x : Task) (rank : Nat), s.task ref = some x →
    (s.detachDue x rank = true → ∃ t y, exec (.multicastDetachTimeout ref rank) s = .next t ∧ t.task ref = some y ∧
      y.coll.detached = x.coll.detached ++ [rank] ∧
      t.reg R.rdMcastDetachCount = satAdd (s.reg R.rdMcastDetachCount) 1 ∧
      t.later.latches = s.later.latches ++ [{ off := R.rdMcastDetach, key := (x.group s.node).getD rank 0,
                                              val := (x.group s.node).getD rank 0, also := [] }] ∧
      (s.bit R.feCtl 31 = true →
        t.packetLeft (.failureNotice ((x.group s.node).getD rank 0) (collCtl x.entry).ctag St.detached)) ∧
      s.sameMem t ∧ s.tasksBut t ref) ∧
    (s.detachDue x rank = false → exec (.multicastDetachTimeout ref rank) s = .next s))

/-! ### The fabric endpoint (R260, R261, R276, R353, R367) -/

/-- R260, R276, R28, R405: setting FE_CTL.EN starts the endpoint, records the incarnation, starts the message counts anew and puts
back in service every port but those that a remap drains; clearing it stops the endpoint at once where nothing is outstanding
and else leaves it running until the last port has drained. A port that waits for no answer has drained: it is in service again,
with the new lane map where it is being remapped. -/
def Obligations.FabricEndpointControl : Prop :=
  (∀ (src : Requester) (v : Word) (s : State), s.takesWrite src R.feCtl →
    (getField v 31 1 = 1 → s.feEnabled = false → ∃ t, exec (.feCtlWrite src v) s = .next t ∧ t.feEnabled = true ∧
      t.feActive = true ∧ t.reg64 R.feIncarnLo = s.gtc ∧ t.msgSeq = [] ∧ t.beatDue = s.cycle ∧
      t.draining = s.draining.filter (fun p => s.bit (R.feLaneStatus p) 0) ∧
      (∀ n, n < 1024 → s.watched n = true → (t.peer n).lastBeat = s.cycle) ∧ t.tasks = s.tasks ∧ s.sameMem t) ∧
    (getField v 31 1 = 0 → s.feEnabled = true → s.fabricIdle = true → ∃ t, exec (.feCtlWrite src v) s = .next t ∧
      t.feEnabled = false ∧ t.feActive = false ∧ s.onlyRegs t [R.feCtl, R.feStatus]) ∧
    (getField v 31 1 = 0 → s.feEnabled = true → s.fabricIdle = false → ∃ t, exec (.feCtlWrite src v) s = .next t ∧
      t.feEnabled = false ∧ t.feActive = s.feActive ∧ t = { s with regs := t.regs, draining := List.range 32 } ∧
      s.regsBut t [R.feCtl])) ∧
  (∀ (p : Fin 32) (s : State),
    (s.draining.contains p.val = true → s.portBusy p = false → ∃ t, exec (.fabricPortDrained p) s = .next t ∧
      t.draining = s.draining.filter (fun q => decide (q ≠ p.val)) ∧ t = { s with regs := t.regs, draining := t.draining } ∧
      s.regsBut t [R.feLaneStatus p, R.feStatus] ∧
      (t.draining = [] → s.feEnabled = false → t.feActive = false) ∧
      ((t.draining ≠ [] ∨ s.feEnabled = true) → t.feActive = s.feActive) ∧
      (s.bit (R.feLaneStatus p) 0 = false → t.reg (R.feLaneStatus p) = s.reg (R.feLaneStatus p)) ∧
      (s.bit (R.feLaneStatus p) 0 = true →
        t.fld (R.feLaneStatus p) (if s.bit (R.feLaneCtl p) 30 then 24 else 28) 4 =
          if s.fld (R.feLaneCtl p) 0 3 < 4 then 8 + s.fld (R.feLaneCtl p) 0 3 else 0)) ∧
    ((s.draining.contains p.val = false ∨ s.portBusy p = true) → exec (.fabricPortDrained p) s = .next s))

/-- R261, R353, R367, R368: a request that no answer reaches in 100 µs of the fabric or 200 µs of the host fails its task with
0x7002 FABRIC or 0x7001 HOST, its port or its queue stops with that status, an aperture load returns zeros; none fails before. A
late response is counted and has no other effect. A packet that fails its CRC is asked for again; one that fails again fails its
request with 0x4004 FABRIC_CRC, with a machine-check event. -/
def Obligations.RequestsThatFail : Prop :=
  (∀ (ref : TaskRef) (s : State) (x : Task) (i : Issued), s.task ref = some x → x.phase = .running → i ∈ x.issueQ →
    (∀ j, j ∈ x.issueQ → j.no = i.no → j = i) → i.answered = false →
    let failed (t : State) (st : Status) : Prop := ∃ y, t.task ref = some y ∧ y.entry = x.entry ∧ y.status = st ∧
      (y.phase = .failing ∨ y.phase = .finished) ∧ s.tasksBut t ref
    (i.req.space = .device → i.req.addr / 2 ^ 48 ≠ s.node →
      (i.at_ + 160000 ≤ s.cycle → ∃ t, exec (.fabricRequestTimeout (.taskRead ref i.no)) s = .next t ∧ failed t St.fabric) ∧
      (s.cycle < i.at_ + 160000 → exec (.fabricRequestTimeout (.taskRead ref i.no)) s = .next s) ∧
      (i.at_ ≤ s.cycle → ∀ (p : Fin 32) (node : Nat),
        ∃ t, exec (.fabricPacketCrcFail p true node (.taskRead ref i.no)) s = .next t ∧ failed t St.fabricCrc ∧
          t.reg R.mcCount = satAdd (s.reg R.mcCount) 1 ∧
          t.later.events = s.later.events ++
            [{ source := 10, unit := p.val, status := St.fabricCrc, task := some ref, addr := node, time := s.gtc }])) ∧
    (i.req.space = .host →
      (s.hostOverdue i.at_ 320000 = true → ∃ t, exec (.hostRequestTimeout (.taskRead ref i.no)) s = .next t ∧ failed t St.host) ∧
      (s.hostOverdue i.at_ 320000 = false → exec (.hostRequestTimeout (.taskRead ref i.no)) s = .next s))) ∧
  (∀ (ref : TaskRef) (s : State) (x : Task) (w : WriteReq) (l : List WriteReq), s.task ref = some x → x.phase = .running →
    x.pendingW = w :: l → w.span.1 / 2 ^ 48 ≠ s.node →
    (w.at_ + 160000 ≤ s.cycle → ∃ t y, exec (.fabricRequestTimeout (.taskWrite ref)) s = .next t ∧ t.task ref = some y ∧
      y.entry = x.entry ∧ y.status = St.fabric ∧ (y.phase = .failing ∨ y.phase = .finished) ∧ s.tasksBut t ref) ∧
    (s.cycle < w.at_ + 160000 → exec (.fabricRequestTimeout (.taskWrite ref)) s = .next s)) ∧
  (∀ (ref : TaskRef) (s : State) (x : Task) (w : PieceOut), s.task ref = some x → x.phase = .running → w ∈ x.coll.awaiting →
    (∀ z, z ∈ x.coll.awaiting → z.rank = w.rank → z.stage = w.stage → z.index = w.index → z = w) →
    (w.at_ + 160000 ≤ s.cycle → ∃ t y, exec (.fabricRequestTimeout (.piece ref w.rank w.stage w.index)) s = .next t ∧
      t.task ref = some y ∧ y.entry = x.entry ∧ y.status = St.fabric ∧ (y.phase = .failing ∨ y.phase = .finished) ∧
      s.tasksBut t ref) ∧
    (s.cycle < w.at_ + 160000 → exec (.fabricRequestTimeout (.piece ref w.rank w.stage w.index)) s = .next s)) ∧
  (∀ (p : Fin 64) (s : State),
    (∀ m, s.spStopped p = false → s.unansweredMsg p 160000 = some m →
      ∃ t, exec (.fabricRequestTimeout (.sendPort p)) s = .next t ∧ t.spStopped p = true ∧
        t.fld (R.spStatus p) 0 16 = St.fabric.toNat ∧ t.reg (R.spErrNum p) = m.num ∧ (t.port p).fifo = (s.port p).fifo ∧
        t.tasks = s.tasks ∧ s.sameMem t) ∧
    (s.unansweredMsg p 160000 = none → exec (.fabricRequestTimeout (.sendPort p)) s = .next s)) ∧
  (∀ (q : Fin 1024) (s : State), (s.sq q).stale = [] → (s.sq q).outstanding = true → s.sqHost q = true →
    (s.hostOverdue (s.sq q).lastRead 320000 = true → ∃ t, exec (.hostRequestTimeout (.ringRead q)) s = .next t ∧
      s.stops t q St.host (s.reg (R.sqIndex q)) (s.latchedTag q)) ∧
    (s.hostOverdue (s.sq q).lastRead 320000 = false → exec (.hostRequestTimeout (.ringRead q)) s = .next s)) ∧
  (∀ (core : Fin 8) (ap : Fin 16) (s : State) (l : ApLoad), l ∈ s.apLoads → l.core = core.val → l.ap = ap.val →
    (∀ z, z ∈ s.apLoads → z.core = l.core → z.ap = l.ap → z = l) →
    (s.hostOverdue l.at_ 320000 = true → ∃ t, exec (.hostRequestTimeout (.aperture core ap)) s = .next t ∧
      (∀ z, z ∈ t.apLoads ↔ z ∈ s.apLoads ∧ z ≠ l) ∧
      t = { s with regs := t.regs, now := t.now, later := t.later, apLoads := t.apLoads,
                   out := .coreData l.core (List.replicate l.len 0) :: s.out } ∧
      s.regsBut t [R.apertureFaultCount] ∧ t.reg R.apertureFaultCount = satAdd (s.reg R.apertureFaultCount) 1 ∧
      t.later.latches = s.later.latches ++
        [{ off := R.apertureFault, key := l.ap, val := 3 * 2 ^ 28 + l.ap * 2 ^ 16 + l.core * 2 ^ 13,
           also := pairWords R.apertureFaultOfsLo l.offset }]) ∧
    (s.hostOverdue l.at_ 320000 = false → exec (.hostRequestTimeout (.aperture core ap)) s = .next s)) ∧
  (∀ (host : Bool) (s : State), ∃ t, exec (.lateResponse host) s = .next t ∧
    let o := if host then R.tmLateHost else R.tmLateFabric
    t.reg o = satAdd (s.reg o) 1 ∧ s.onlyRegs t [o]) ∧
  (∀ (p : Fin 32) (node : Nat) (o : FabricOwner) (s : State),
    (node = s.node → ∃ t, exec (.fabricPacketCrcFail p false node o) s = .next t ∧
      t.reg R.tmFabricResent = satAdd (s.reg R.tmFabricResent) 1 ∧ s.onlyRegs t [R.tmFabricResent]) ∧
    (node ≠ s.node → exec (.fabricPacketCrcFail p false node o) s =
      .next { s with out := .resendRequest p node :: s.out }))

/-! ### Messages (R262 to R274) -/

/-- R262, R266, R272: a well-configured endpoint is enabled with an empty ring, whose slot writes begun before still complete; a badly
configured one is left off with BAD; a disabled one refuses every waiting request and voids every slot it had granted and not
filled; a new HEAD below the slot count is taken, and discarded otherwise. -/
def Obligations.ReceiveEndpoints : Prop :=
  ∀ (src : Requester) (r : Fin 256) (v : Word) (s : State),
    let s1 := s.setReg (R.rxCfg r) (writtenWord (s.reg (R.rxCfg r)) v 0x4F7FCFFF 0x20000000 0
      (s.setNow (R.rxCfg r) &&& s.reg (R.rxCfg r) &&& 0x20000000).toNat)
    (s.takesWrite src (R.rxCfg r) → s.rxEn r = false → getField v 31 1 = 1 → s1.rxEnableOk r = true →
      ∃ t, exec (.rxEnable src r v) s = .next t ∧ t.rxEn r = true ∧ t.rxHeadOf r = 0 ∧ t.rxTailOf r = 0 ∧
        t.bit (R.rxTail r) 31 = true ∧
        t.endpoint r = { wait := [], granted := (s.endpoint r).granted.filter (fun g => g.msg.isSome) } ∧
        t = { s with regs := t.regs, rx := t.rx } ∧
        s.regsBut t [R.rxCfg r, R.rxHead r, R.rxTail r] ∧ (∀ k, k ≠ r.val → t.endpoint k = s.endpoint k)) ∧
    (s.takesWrite src (R.rxCfg r) → s.rxEn r = false → getField v 31 1 = 1 → s1.rxEnableOk r = false →
      ∃ t, exec (.rxEnable src r v) s = .next t ∧ t.rxEn r = false ∧ t.bit (R.rxCfg r) 29 = true ∧
        s.onlyRegs t [R.rxCfg r]) ∧
    (s.takesWrite src (R.rxCfg r) → s.rxEn r = true → getField v 31 1 = 0 →
      ∃ t, exec (.rxDisable src r v) s = .next t ∧ t.rxEn r = false ∧ (t.endpoint r).wait = [] ∧
        (∀ g, g ∈ (t.endpoint r).granted → g.msg.isSome = true) ∧
        (∀ w, w ∈ (s.endpoint r).wait → (w.1 = s.node ∨ s.feActive = true) →
          t.packetLeft (.creditRefused w.1 (s.rxTagOf r) St.noReader)) ∧
        (∀ a, (∀ g, g ∈ (s.endpoint r).granted → g.msg = none → a < g.addr ∨ g.addr + 64 ≤ a) →
          t.readByte a = s.readByte a) ∧ t.tasks = s.tasks ∧ (∀ k, k ≠ r.val → t.endpoint k = s.endpoint k)) ∧
    (s.takesWrite src (R.rxHead r) → s.rxEn r = true → getField v 0 16 < s.rxSlots r →
      ∃ t, exec (.rxHeadWrite src r v) s = .next t ∧ t.rxHeadOf r = getField v 0 16 ∧ s.sameMem t ∧
        t = { s with regs := t.regs, rx := t.rx, out := t.out, fabricHeld := t.fabricHeld } ∧
        s.regsBut t [R.rxHead r, R.rxTail r] ∧ ((s.endpoint r).wait = [] → s.onlyRegs t [R.rxHead r])) ∧
    (s.takesWrite src (R.rxHead r) → (s.rxEn r = false ∨ s.rxSlots r ≤ getField v 0 16) →
      exec (.rxHeadWrite src r v) s = .next s)

/-- R263, R269, R272, R276: a credit request is answered by the endpoint that holds its tag: granted the free slots it asks for,
queued while none is free, turned back while the queue is full, refused where no endpoint reads the tag, the filter excludes
its node, or its node is dead; below Active it wakes the block. At its source a grant sends the waiting messages of the pair to
their slots, and a request told to retry goes out again once its back-off has passed, and not before. -/
def Obligations.CreditProtocol : Prop :=
  (∀ (node tag count : Nat) (s : State), s.power ≠ .off → (node = s.node → s.asks tag = true) →
    (node ≠ s.node → s.feActive = true) →
    (s.below = true → s.entering = none → s.waking = none → ∃ t, exec (.creditRequestArrival node tag count) s = .next t ∧
      t.waking = some s.power ∧ t.fld R.pwWake 28 3 = 4 ∧ t.reg R.pwWakeDetail = BitVec.ofNat 32 (node % 2 ^ 16)) ∧
    (s.below = false → s.rxFor tag = none → ∃ t, exec (.creditRequestArrival node tag count) s = .next t ∧
      t.reg R.feNoReader = satAdd (s.reg R.feNoReader) 1 ∧ s.sentAnswer t node (.creditRefused node tag St.noReader 0) ∧
      t = { s with regs := t.regs, now := t.now, out := t.out, fabricHeld := t.fabricHeld }) ∧
    (∀ r, s.below = false → s.rxFor tag = some r →
      (s.deadNode node = true → ∃ t, exec (.creditRequestArrival node tag count) s = .next t ∧
        s.sentAnswer t node (.creditRefused node tag St.deadDestination 0) ∧
        t = { s with out := t.out, fabricHeld := t.fabricHeld }) ∧
      (s.deadNode node = false → s.rxAdmits r node = false → ∃ t, exec (.creditRequestArrival node tag count) s = .next t ∧
        t.reg (R.rxRefused r) = satAdd (s.reg (R.rxRefused r)) 1 ∧ s.sentAnswer t node (.creditRefused node tag St.window 0) ∧
        t = { s with regs := t.regs, now := t.now, out := t.out, fabricHeld := t.fabricHeld }) ∧
      (s.deadNode node = false → s.rxAdmits r node = true →
        let open_ := (s.endpoint r).wait = [] ∧ 0 < s.rxFree r ∧ s.rxReachable r = true
        let slots := (List.range (min count (s.rxFree r))).map (fun i => (s.rxTailOf r + i) % s.rxSlots r)
        (open_ → ∃ t, exec (.creditRequestArrival node tag count) s = .next t ∧
          s.sentAnswer t node (.creditGrant node (s.rxTagOf r) slots 0) ∧
          (t.endpoint r).granted.length = (s.endpoint r).granted.length + min count (s.rxFree r) ∧
          t = { s with regs := t.regs, rx := t.rx, out := t.out, fabricHeld := t.fabricHeld } ∧ s.regsBut t [R.rxTail r]) ∧
        (¬ open_ → (s.endpoint r).wait.length < 64 → ∃ t, exec (.creditRequestArrival node tag count) s = .next t ∧
          (t.endpoint r).wait = (s.endpoint r).wait ++ [(node, count)] ∧ s.sentAnswer t node (.creditQueued node tag 0) ∧
          t = { s with rx := t.rx, out := t.out, fabricHeld := t.fabricHeld }) ∧
        (¬ open_ → 64 ≤ (s.endpoint r).wait.length → ∃ t, exec (.creditRequestArrival node tag count) s = .next t ∧
          s.sentAnswer t node (.creditRetry node tag 0) ∧ t = { s with out := t.out, fabricHeld := t.fabricHeld })))) ∧
  (∀ (node tag count : Nat) (s : State),
    ((node ≠ s.node ∧ s.feActive = false) ∨ (node = s.node ∧ s.asks tag = false) ∨ s.power = .off) →
    exec (.creditRequestArrival node tag count) s = .next s) ∧
  (∀ (node tag : Nat) (s : State) (c : CreditPair), c ∈ s.credits → c.node = node → c.tag = tag → c.waits = false →
    (∀ slots, ∃ t, exec (.creditAnswerArrival node tag (.grant slots)) s = .next t ∧
      ((node = s.node ∨ s.feEnabled = true) → ∀ z, z ∈ (s.pairWaiting node tag).zip slots →
        t.packetLeft (.message node tag z.2 z.1.2.seq z.1.2.payload)) ∧ t.tasks = s.tasks ∧ s.sameMem t) ∧
    (∃ t, exec (.creditAnswerArrival node tag .queued) s = .next t ∧ t = { s with credits := t.credits } ∧
      { c with state := .queued } ∈ t.credits ∧ t.credits.length = s.credits.length) ∧
    (∃ t, exec (.creditAnswerArrival node tag .retry) s = .next t ∧ t = { s with credits := t.credits } ∧
      { c with state := .backoff c.wait, wait := min (2 * c.wait) (2 ^ 14), at_ := s.cycle } ∈ t.credits ∧
      t.credits.length = s.credits.length)) ∧
  (∀ (node tag : Nat) (s : State),
    (∀ c, c ∈ s.credits → c.node = node → c.tag = tag → c.backOff s.cycle = true →
      ∃ t, exec (.creditRetryBackoff node tag) s = .next t ∧
        (∃ p, { c with state := .requested, count := min 16 (s.pairWaiting node tag).length, at_ := s.cycle, port := p } ∈ t.credits) ∧
        t = { s with credits := t.credits, out := t.out, fabricHeld := t.fabricHeld } ∧
        ((node = s.node ∨ s.feEnabled = true) →
          t.packetLeft (.creditRequest node tag (min 16 (s.pairWaiting node tag).length)))) ∧
    ((∀ c, c ∈ s.credits → c.node = node → c.tag = tag → c.backOff s.cycle = false) →
      exec (.creditRetryBackoff node tag) s = .next s))

/-- R264, R265, R269, R271, R272, R273, R391: a message packet for a granted slot stores its payload beyond the first line; when line 0
is written the slot holds the header and the payload, the message counts, its event follows in the next core cycle, and its
sender is told; both wait while tier B does not serve a ring that lies there. The delivery reply retires the message at its
port, or a piece at its task. A refusal of a message sent, or of the request a port's first message waits for, stops the port with
its status. A slot granted in vain for 100 µs is voided. -/
def Obligations.MessageDelivery : Prop :=
  (∀ (p : MessagePacket) (c : MemCond) (s : State), (p.src = s.node ∨ s.feActive = true) →
    (s.rxFor p.tag = none → ∃ t, exec (.messagePacketArrival p c) s = .next t ∧
      t.reg R.feNoReader = satAdd (s.reg R.feNoReader) 1 ∧
      s.sentAnswer t p.src (.messageAnswer p.src p.tag p.seq St.noReader 0) ∧
      t = { s with regs := t.regs, now := t.now, out := t.out, fabricHeld := t.fabricHeld }) ∧
    (∀ r g, s.rxFor p.tag = some r →
      (s.endpoint r).granted.find? (fun h => decide (h.slot = p.slot) && decide (h.node = p.src) && h.msg.isNone) = some g →
      let n := roundUp (16 + p.payload.length) 64 - 64
      (s.tierBWaits g.addr = true → exec (.messagePacketArrival p c) s = .next s) ∧
      (s.tierBWaits g.addr = false →
        s.memVerdict (s.rxCtx r) .write g.addr (64 + n) (writeCond g.addr (64 + n) c) = none →
        ∃ t, exec (.messagePacketArrival p c) s = .next t ∧ { g with msg := some p } ∈ (t.endpoint r).granted ∧
          (∀ i, i < n → ∀ b, p.payload[48 + i]? = some b → t.readByte (g.addr + 64 + i) = b) ∧ s.sameMemBut t (g.addr + 64) n ∧
          t = { s with regs := t.regs, now := t.now, mem := t.mem, rx := t.rx, freeCtr := t.freeCtr } ∧
          s.regsBut t [R.tmTierACe, R.tmScratchCe]) ∧
      (s.tierBWaits g.addr = false → ∀ st,
        s.memVerdict (s.rxCtx r) .write g.addr (64 + n) (writeCond g.addr (64 + n) c) = some st →
        ∃ t, exec (.messagePacketArrival p c) s = .next t ∧ s.sentAnswer t p.src (.messageAnswer p.src p.tag p.seq st 0) ∧
          t = { s with regs := t.regs, now := t.now, later := t.later, out := t.out, fabricHeld := t.fabricHeld }))) ∧
  (∀ (r : Fin 256) (slot : Nat) (s : State) (g : RxGrant) (p : MessagePacket),
    (s.endpoint r).granted.find? (fun h => decide (h.slot = slot) && h.msg.isSome) = some g → g.msg = some p →
    (s.tierBWaits g.addr = true → exec (.messageSlotWritten r slot) s = .next s) ∧
    (s.tierBWaits g.addr = false →
      ∃ t, exec (.messageSlotWritten r slot) s = .next t ∧ t.readMem g.addr 16 = slotHeader p g.phase ∧
        (∀ i, i < 48 → ∀ b, p.payload[i]? = some b → t.readByte (g.addr + 16 + i) = b) ∧ s.sameMemBut t g.addr 64 ∧
        (t.endpoint r).granted = (s.endpoint r).granted.filter (fun h => decide (h ≠ g)) ∧
        t.reg (R.rxReceived r) = satAdd (s.reg (R.rxReceived r)) 1 ∧
        t.later.flags = s.later.flags ++ (if s.bit (R.rxCfg r) 30 then [(s.fld (R.rxCfg r) 14 9, true)] else []) ∧
        s.sentAnswer t p.src (.messageAnswer p.src p.tag p.seq St.success 0) ∧ t.tasks = s.tasks)) ∧
  (∀ (node tag : Nat) (seq : Word) (s : State),
    let is (m : Msg) : Bool := decide (m.node = node) && decide (m.tag = tag) && decide (m.seq = seq) && m.sent
    let here (w : PieceOut) : Bool := decide (w.node = node) && decide (w.tag = tag)
    (∀ p, (List.range 64).find? (fun p => (s.port p).fifo.any is) = some p →
      ∃ t, exec (.deliveryReply node tag seq) s = .next t ∧ t.reg (R.spDelivered p) = s.reg (R.spDelivered p) + 1 ∧
        (t.port p).fifo = (s.port p).fifo.filter (fun m => ! is m) ∧ t.tasks = s.tasks ∧ s.sameMem t) ∧
    ((List.range 64).find? (fun p => (s.port p).fifo.any is) = none →
      (∀ x w, s.tasks.find? (fun x => x.coll.awaiting.any here) = some x → s.task x.ref = some x → x.phase = .running →
        x.coll.awaiting.find? here = some w →
        ∃ t y, exec (.deliveryReply node tag seq) s = .next t ∧ t.task x.ref = some y ∧ y.entry = x.entry ∧
          y.coll.awaiting = x.coll.awaiting.filter (fun z => decide (z ≠ w)) ∧ s.sameMem t ∧ s.tasksBut t x.ref) ∧
      (s.tasks.find? (fun x => x.coll.awaiting.any here) = none → exec (.deliveryReply node tag seq) s = .next s))) ∧
  (∀ (p : Fin 64) (num : Option Word) (st : Status) (s : State),
    let hit := match num with
      | some n => (s.port p).fifo.find? (fun m => m.sent && decide (m.num = n))
      | none => (s.portNext p).filter s.requested
    (∀ m, s.spStopped p = false → hit = some m → ∃ t, exec (.messageRefusalAnswer p ⟨num, st⟩) s = .next t ∧
      t.spStopped p = true ∧ t.fld (R.spStatus p) 0 16 = st.toNat ∧ t.reg (R.spErrNum p) = m.num ∧
      (t.port p).fifo = (s.port p).fifo ∧ t.tasks = s.tasks ∧ s.sameMem t) ∧
    (∀ m, s.spStopped p = true → hit = some m → ∃ t, exec (.messageRefusalAnswer p ⟨num, st⟩) s = .next t ∧
      t.spStopped p = true ∧ (t.port p).fifo = (s.port p).fifo.filter (fun x => decide (x.num ≠ m.num)) ∧
      t.reg (R.spFailed p) = s.reg (R.spFailed p) + 1 ∧ t.tasks = s.tasks ∧ s.sameMem t) ∧
    (hit = none → exec (.messageRefusalAnswer p ⟨num, st⟩) s = .next s)) ∧
  (∀ (r : Fin 256) (slot : Nat) (s : State) (g : RxGrant),
    (s.endpoint r).granted.filter (fun h => decide (h.slot = slot) && h.msg.isNone) = [g] →
    (g.at_ + 160000 ≤ s.cycle → ∃ t, exec (.slotGrantTimeout r slot) s = .next t ∧
      t.reg (R.rxVoided r) = satAdd (s.reg (R.rxVoided r)) 1 ∧
      (t.endpoint r).granted = (s.endpoint r).granted.filter (fun h => decide (h ≠ g)) ∧ s.sameMemBut t g.addr 64 ∧
      (s.memVerdict (s.rxCtx r) .write g.addr 64 .good = none →
        t.readMem (g.addr + 4) 2 = [0, BitVec.ofNat 8 (2 + boolBit g.phase)]) ∧
      t = { s with regs := t.regs, now := t.now, mem := t.mem, rx := t.rx, freeCtr := t.freeCtr }) ∧
    (s.cycle < g.at_ + 160000 → exec (.slotGrantTimeout r slot) s = .next s))

/-- R267, R268, R270, R273, R274: a send port with room accepts the message of SP_DEST, SP_SEND and its payload window with the next
number and the next SEQ of its pair, before those that higher-numbered ports accept for the pair in the same core cycle, and one
without room only notes the overrun. A stopped port is resumed with its failed message again, as if accepted now, goes on without
it, or is emptied with its messages counted as failed; these actions are discarded on a port that is not stopped. A watchdog
that expires stops the port with 0x7003, and the message stays at the head. -/
def Obligations.SendPorts : Prop :=
  ∀ (src : Requester) (p : Fin 64) (v : Word) (s : State),
    let l := (s.port p).fifo
    let node := s.fld (R.spDest p) 0 16
    let tag := s.fld (R.spDest p) 16 16
    let sound := ∀ m, m ∈ l → s.msgFault m = none
    (s.takesWrite src (R.spSend p) →
      (16 ≤ l.length → ∃ t, exec (.spSend src p v) s = .next t ∧ t.bit (R.spStatus p) 30 = true ∧ s.onlyRegs t [R.spStatus p]) ∧
      (l.length < 16 → ∃ t m, exec (.spSend src p v) s = .next t ∧ (t.port p).fifo = l ++ [m] ∧
        m.num = s.reg (R.spAccepted p) ∧ m.node = node ∧ m.tag = tag ∧
        m.seq = sget (fun _ => 0) s.msgSeq (pairKey node tag) -
          BitVec.ofNat 32 ((s.ports.flatMap (fun x => x.2.fifo)).countP (s.laterPorts p node tag)) ∧
        m.payload = s.payload p (8 * (getField v 0 5 + 1)) ∧ m.sent = false ∧ m.order = 64 * s.cycle + p ∧
        t.reg (R.spAccepted p) = s.reg (R.spAccepted p) + 1 ∧
        sget (fun _ => 0) t.msgSeq (pairKey node tag) = sget (fun _ => 0) s.msgSeq (pairKey node tag) + 1 ∧
        (∀ k, k ≠ p.val → (t.port k).fifo = (s.port k).fifo.map (fun z =>
          if s.laterPorts p node tag z then { z with seq := z.seq + 1 } else z)) ∧
        t = { s with regs := t.regs, ports := t.ports, msgSeq := t.msgSeq } ∧ s.regsBut t [R.spStatus p, R.spAccepted p])) ∧
    (s.takesWrite src (R.spCtl p) → s.spStopped p = true →
      (∃ t, exec (.spResume src p) s = .next t ∧
        (t.port p).fifo = l.map (fun m =>
          if s.failedMsg p m then { m with slot := none, sent := false, order := 64 * s.cycle + p, port := none } else m) ∧
        (sound → t.spStopped p = false) ∧ t.tasks = s.tasks ∧ s.sameMem t) ∧
      (∃ t, exec (.spDiscard src p) s = .next t ∧ (t.port p).fifo = l.filter (fun m => ! s.failedMsg p m) ∧
        (sound → t.spStopped p = false) ∧ t.tasks = s.tasks ∧ s.sameMem t) ∧
      (∃ t, exec (.spFlush src p) s = .next t ∧ (t.port p).fifo = [] ∧ t.spStopped p = false ∧
        t.reg (R.spFailed p) = s.reg (R.spFailed p) + BitVec.ofNat 32 l.length ∧ t.tasks = s.tasks ∧ s.sameMem t)) ∧
    (s.takesWrite src (R.spCtl p) → s.spStopped p = false →
      exec (.spResume src p) s = .next s ∧ exec (.spDiscard src p) s = .next s ∧ exec (.spFlush src p) s = .next s) ∧
    (∀ m k, l = m :: k → s.spStopped p = false → m.sent = false →
      let limit := (s.reg (R.spWdog p)).toNat
      (0 < limit → limit ≤ (s.port p).waited → ∃ t, exec (.sendWatchdogExpiry p) s = .next t ∧ t.spStopped p = true ∧
        t.fld (R.spStatus p) 0 16 = St.sendWatchdog.toNat ∧ t.reg (R.spErrNum p) = m.num ∧ (t.port p).fifo = l ∧
        t.tasks = s.tasks ∧ s.sameMem t) ∧
      ((limit = 0 ∨ (s.port p).waited < limit) → exec (.sendWatchdogExpiry p) s = .next s))

/-- R276, R277, R279: an enabled endpoint sends a heartbeat with its incarnation to each watched peer every 16,000 core cycles, and
none before it is due; a heartbeat of a watched peer marks it alive and notes its incarnation, a changed one counted; 48,000 core
cycles without one mark it dead and count its death. A newly watched peer is alive; NODE is kept while the peer is watched. -/
def Obligations.Peers : Prop :=
  (∀ s : State,
    (s.feEnabled = true → s.beatDue ≤ s.cycle → s.power ≠ .off → ∃ t, exec .heartbeatSend s = .next t ∧
      t = { s with beatDue := s.beatDue + 16000, out := t.out, fabricHeld := t.fabricHeld } ∧
      ∀ n, n < 1024 → s.watched n = true →
        t.packetLeft (.heartbeat (s.peerNode n) (BitVec.ofNat 64 (s.reg64 R.feIncarnLo)))) ∧
    ((s.feEnabled = false ∨ s.cycle < s.beatDue ∨ s.power = .off) → exec .heartbeatSend s = .next s)) ∧
  (∀ (node : Nat) (inc : DWord) (s : State),
    (s.feEnabled = true → ∃ t, exec (.heartbeatReceive node inc) s = .next t ∧
      ∀ n, n < 1024 → s.watched n = true → s.peerNode n = node →
        t.peer n = { lastBeat := s.cycle, incarnation := some inc } ∧ t.peerState n = 1 ∧
        (t.reg (R.fePeerResets n) = match (s.peer n).incarnation with
          | some i => if i ≠ inc then satAdd (s.reg (R.fePeerResets n)) 1 else s.reg (R.fePeerResets n)
          | none => s.reg (R.fePeerResets n))) ∧
    (s.feEnabled = false → exec (.heartbeatReceive node inc) s = .next s)) ∧
  (∀ (n : Fin 1024) (s : State), s.feEnabled = true → s.watched n = true → s.peerState n = 1 →
    ((s.peer n).lastBeat + 48000 ≤ s.cycle → ∃ t, exec (.peerHeartbeatTimeout n) s = .next t ∧ t.peerState n = 2 ∧
      t.reg (R.fePeerDeaths n) = satAdd (s.reg (R.fePeerDeaths n)) 1 ∧
      (∀ p m l, p < 64 → (s.port p).fifo = m :: l → m.node = s.peerNode n → t.spStopped p = true)) ∧
    (s.cycle < (s.peer n).lastBeat + 48000 → exec (.peerHeartbeatTimeout n) s = .next s)) ∧
  (∀ (src : Requester) (n : Fin 1024) (v : Word) (s : State), s.takesWrite src (R.fePeerCfg n) →
    ∃ t, exec (.peerCfgWrite src n v) s = .next t ∧ t.watched n = decide (getField v 31 1 = 1) ∧
      (t.peerNode n = if s.watched n then s.peerNode n else getField v 0 16) ∧
      (getField v 31 1 = 1 → s.watched n = false → t.peerState n = 1 ∧
        t.peer n = { lastBeat := s.cycle, incarnation := none }) ∧
      (getField v 31 1 = 0 → t.peerState n = 0) ∧ t = { s with regs := t.regs, peers := t.peers } ∧
      s.regsBut t [R.fePeerCfg n])

/-! ### The state tier (R295 to R311) -/

/-- R299 to R303, R305, R306, R308, R391: a line read that needs correction is counted at its site, its row tracked and logged at the
threshold, and the reads it serves carry the mark; an uncorrectable one is counted, recorded and logged, and fails the task it is
for; a read whose bank is under refresh waits, counted and marked. The scrub reads the next line when it is due and moves on; a
refresh counts the writes that wait, holds its bank for its cycles (the model's choice, log 20) and applies the rate last
reported; the rate is read once in 32 µs; the evacuation copy moves on by one line and binds the module to its target after the
last. Reads of the scrub and of the copy wait while tier B does not serve. A logged row is copied into the repair record and its
entry freed. No byte outside the line read changes. -/
def Obligations.TierBLines : Prop :=
  (∀ (a : Nat) (e : LineErrors) (r : RowAddr) (b : Fin 9) (o : Option TaskRef) (s : State), regionOf a = .tierB → s.tbReady = true →
    s.siteOf (moduleOf a) = b →
    let judged := Rs.judge e (moduleInternal (lineOf a) / 64)
    let covers (i : Issued) : Prop := i.answered = false ∧ s.readsOwn i = true ∧ i.req.addr % 2 ^ 48 / 64 ≤ a / 64 ∧
      a / 64 ≤ (i.req.addr % 2 ^ 48 + (i.req.len - 1)) / 64
    let marked (t : State) (f : Issued → Issued) : Prop := ∀ ref x i, o = some ref → s.task ref = some x → i ∈ x.issueQ → covers i →
      ∃ y, t.task ref = some y ∧ f i ∈ y.issueQ
    (s.bankBusy b r.bank = true → ∃ t, exec (.tierBRead a e r o) s = .next t ∧
      t.reg (R.tbRefreshHit b) = satAdd (s.reg (R.tbRefreshHit b)) 1 ∧
      (t.site b).held = (s.site b).held ++ [{ use := .request o, accepted := true, addr := a, errors := e, row := r }] ∧
      marked t (fun i => { i with refreshed := true }) ∧
      t = { s with regs := t.regs, now := t.now, sites := t.sites, tasks := t.tasks } ∧ s.regsBut t [R.tbRefreshHit b]) ∧
    (s.bankBusy b r.bank = false →
      (judged = .clean → exec (.tierBRead a e r o) s = .next s) ∧
      (judged = .corrected → ∃ t, exec (.tierBRead a e r o) s = .next t ∧
        t.reg (R.tbCe b) = satAdd (s.reg (R.tbCe b)) 1 ∧ rowCount (t.site b).track r = rowCount (s.site b).track r + 1 ∧
        marked t (fun i => { i with corrected := true }) ∧
        (∀ n, (List.range 16).find? (fun i => ! s.bit (R.tbRow b i) 31) = some n →
          rowCount (s.site b).track r + 1 = s.fld R.tbRowCfg 0 4 →
          t.reg (R.tbRow b n) = BitVec.ofNat 32 (2 ^ 31 + r.dev % 32 * 2 ^ 25 + r.bank % 16 * 2 ^ 21 + r.row % 2 ^ 18)) ∧
        t = { s with regs := t.regs, now := t.now, sites := t.sites, tasks := t.tasks }) ∧
      (∀ wrong, judged = .missed wrong → ∃ t, exec (.tierBRead a e r o) s = .next t ∧ t = { s with mem := t.mem, now := t.now } ∧
        s.sameMemBut t (lineOf a) 64 ∧
        ∀ i, i < 64 → (t.readByte (lineOf a + i)).toNat = ((s.readByte (lineOf a + i)).toNat ^^^ wrong.getD i 0) % 256) ∧
      (judged = .uncorrectable → o = none → ∃ t, exec (.tierBRead a e r o) s = .next t ∧
        t.reg (R.tbUeCount b) = satAdd (s.reg (R.tbUeCount b)) 1 ∧ t.reg R.mcCount = satAdd (s.reg R.mcCount) 1 ∧
        t.later.latches = s.later.latches ++
          [{ off := R.tbUe, key := 0, val := b.val % 16, also := pairWords R.tbUeAddrLo (lineOf a) }] ∧
        t.later.events = s.later.events ++
          [{ source := 4, unit := b.val, status := St.uncorrectable, task := none, addr := lineOf a, time := s.gtc }] ∧
        s.onlyRegs t [R.tbUeCount b, R.mcCount]) ∧
      (∀ ref x, judged = .uncorrectable → o = some ref → s.task ref = some x → x.phase = .running →
        ∃ t y, exec (.tierBRead a e r o) s = .next t ∧ t.task ref = some y ∧ y.entry = x.entry ∧ y.status = St.uncorrectable ∧
          (y.phase = .failing ∨ y.phase = .finished) ∧ t.reg (R.tbUeCount b) = satAdd (s.reg (R.tbUeCount b)) 1))) ∧
  (∀ (b : Fin 9) (e : LineErrors) (r : RowAddr) (s : State),
    (∀ m, s.moduleAt b = some m →
      let a := moduleAddress m (64 * (s.site b).scrubLine)
      (s.scrubDue b = true → ∃ t, exec (.scrubRead b e r) s = .next t ∧
        (t.site b).scrubLine = ((s.site b).scrubLine + 1) % 2 ^ 33 ∧ (t.site b).scrubAt = some s.cycle ∧
        s.sameMemBut t a 64 ∧ t.tasks = s.tasks ∧
        (s.tbReady = false → t = { s with sites := t.sites } ∧
          (t.site b).held = (s.site b).held ++ [{ use := .scrub, accepted := false, addr := a, errors := e, row := r }]) ∧
        (s.tbReady = true → s.bankBusy b r.bank = false → Rs.judge e (moduleInternal a / 64) = .uncorrectable →
          t.reg (R.tbUeCount b) = satAdd (s.reg (R.tbUeCount b)) 1 ∧ t.reg R.mcCount = satAdd (s.reg R.mcCount) 1 ∧
          t.later.events = s.later.events ++
            [{ source := 5, unit := b.val, status := 0, task := none, addr := a, time := s.gtc }] ∧ s.sameMem t)) ∧
      (s.scrubDue b = false → exec (.scrubRead b e r) s = .next s)) ∧
    (s.moduleAt b = none → exec (.scrubRead b e r) s = .next s)) ∧
  (∀ (b : Fin 9) (bank writes : Nat) (rate : Fin 3) (s : State),
    (s.refreshes b = true → (∃ t, exec (.refreshDue b bank writes) s = .next t ∧
        t.reg (R.tbRefreshHit b) = satAdd (s.reg (R.tbRefreshHit b)) writes ∧ t.bankBusy b bank = true ∧
        (bank, s.cycle + 448) ∈ (t.site b).refreshing ∧ (∀ k, k ≠ bank → t.bankBusy b k = s.bankBusy b k) ∧
        t.fld (R.tbSiteStatus b) 16 3 = (s.site b).nextRate % 8 ∧ t = { s with regs := t.regs, now := t.now, sites := t.sites } ∧
        s.regsBut t [R.tbRefreshHit b, R.tbSiteStatus b]) ∧
      ((∀ at_, (s.site b).polledAt = some at_ → at_ + 51200 ≤ s.cycle) → ∃ t, exec (.refreshRatePoll b rate) s = .next t ∧
        t.site b = { s.site b with nextRate := rate, polledAt := some s.cycle } ∧ t = { s with sites := t.sites }) ∧
      (∀ at_, (s.site b).polledAt = some at_ → s.cycle < at_ + 51200 → exec (.refreshRatePoll b rate) s = .next s)) ∧
    (s.refreshes b = false → exec (.refreshDue b bank writes) s = .next s ∧ exec (.refreshRatePoll b rate) s = .next s)) ∧
  (∀ (e : LineErrors) (r : RowAddr) (s : State),
    (∀ v : EvacRun, s.evac = some v → v.source < 9 → v.target < 9 → v.lm < 8 → v.source ≠ v.target →
      let a := moduleAddress v.lm (64 * v.line)
      let judged := Rs.judge e (moduleInternal a / 64)
      ((∀ h, h ∈ (s.site v.source).held → h.use ≠ .copy) →
        (s.tbReady = false → ∃ t, exec (.evacuationCopyLine e r) s = .next t ∧ t = { s with sites := t.sites } ∧
          (t.site v.source).held = (s.site v.source).held ++ [{ use := .copy, accepted := false, addr := a, errors := e, row := r }]) ∧
        (s.tbReady = true → s.bankBusy v.source r.bank = true → ∃ t, exec (.evacuationCopyLine e r) s = .next t ∧
          t.reg (R.tbRefreshHit v.source) = satAdd (s.reg (R.tbRefreshHit v.source)) 1 ∧
          t = { s with regs := t.regs, now := t.now, sites := t.sites }) ∧
        (s.tbReady = true → s.bankBusy v.source r.bank = false →
          (judged ≠ .uncorrectable → v.line + 1 ≠ moduleLines → ∃ t, exec (.evacuationCopyLine e r) s = .next t ∧
            t.evac = some { v with line := v.line + 1 } ∧ t.reg64 R.tbEvacDoneLo = (s.reg64 R.tbEvacDoneLo + 64) % 2 ^ 64 ∧
            s.sameMemBut t a 64 ∧ t.tasks = s.tasks) ∧
          (judged ≠ .uncorrectable → v.line + 1 = moduleLines → ∃ t, exec (.evacuationCopyLine e r) s = .next t ∧
            t.evac = none ∧ t.siteOf v.lm = v.target ∧ t.siteState v.target = 1 ∧ t.siteState v.source = 6 ∧
            t.record.siteMap = s.record.siteMap.set v.lm v.target ∧ t.bit R.tbEvac 31 = false) ∧
          (judged = .uncorrectable → ∃ t, exec (.evacuationCopyLine e r) s = .next t ∧ t.evac = none ∧
            t.siteState v.target = 2 ∧ t.siteState v.source = 1 ∧ t.mq.evac = none ∧ s.sameMem t))) ∧
      ((∃ h, h ∈ (s.site v.source).held ∧ h.use = .copy) → exec (.evacuationCopyLine e r) s = .next s)) ∧
    (s.evac = none → exec (.evacuationCopyLine e r) s = .next s)) ∧
  (∀ (b : Fin 9) (n : Fin 16) (s : State),
    (s.cpRuns = true → s.bit (R.tbRow b n) 31 = true → ∃ t, exec (.rowLogCopy b n) s = .next t ∧
      t.bit (R.tbRow b n) 31 = false ∧
      (s.record.rows = [] → t.record.rows = [{ kind := 1, unit := b, state := 0, dev := s.fld (R.tbRow b n) 25 5,
                                               serial := (s.site b).serial, bank := s.fld (R.tbRow b n) 21 4,
                                               row := s.fld (R.tbRow b n) 0 18 }])) ∧
    ((s.cpRuns = false ∨ s.bit (R.tbRow b n) 31 = false) → exec (.rowLogCopy b n) s = .next s))

/-- R296, R382: while the SPD of a site is still to be read at a start, a site that answers and passes every check takes the state of
the repair record, one that fails a check is FAILED with the number of the first it fails, one that has not answered for 1 ms
with check 1; at no other time does a readout change anything. -/
def Obligations.SiteChecks : Prop :=
  ∀ (b : Fin 9) (r : SpdResult) (s : State),
    (s.spdDue b = true →
      (r.answered = true → spdCheck r = 0 → ∃ t, exec (.spdReadout b r) s = .next t ∧ t.fld (R.tbSiteStatus b) 0 8 = 0 ∧
        t.siteState b = s.record.siteState.getD b 0 % 8 ∧ (t.site b).serial = r.serial % 2 ^ 32 ∧ t.spdDue b = false ∧
        t = { s with regs := t.regs, sites := t.sites, record := t.record, out := .i3cRead b :: s.out }) ∧
      (spdCheck r ≠ 0 → ∃ t, exec (.spdReadout b r) s = .next t ∧ t.fld (R.tbSiteStatus b) 0 8 = spdCheck r ∧
        t.siteState b = 5 ∧ t.spdDue b = false ∧
        t = { s with regs := t.regs, sites := t.sites, record := t.record, out := .i3cRead b :: s.out }) ∧
      (s.checksAt + 1600000 ≤ s.cycle → ∃ t, exec (.spdResponseTimeout b) s = .next t ∧ t.fld (R.tbSiteStatus b) 0 8 = 1 ∧
        t.siteState b = 5 ∧ t.spdDue b = false ∧ t = { s with regs := t.regs, sites := t.sites, out := .i3cRead b :: s.out } ∧
        s.regsBut t [R.tbSiteStatus b]) ∧
      (s.cycle < s.checksAt + 1600000 → exec (.spdResponseTimeout b) s = .next s)) ∧
    (s.spdDue b = false → exec (.spdReadout b r) s = .next s ∧ exec (.spdResponseTimeout b) s = .next s)

/-! ### Port arbitration (R312 to R322) -/

/-- R312, R313, R316, R318, R319, R322, R323: where nothing waits, an arriving request takes the lowest idle slot of its channel,
counted at its rank; where none is idle it is parked, or in retry service told to retry. Slots whose bursts have carried their
last beats are idle again, and a parked request or a retry that comes in the same cycle takes one; a back-off that has passed
competes again and waits twice as long if it loses, and none competes before. A slot held for ARB_WDOG core cycles is freed,
recorded, counted and logged, its request is answered with an error, and its port goes into retry service. -/
def Obligations.PortArbitration : Prop :=
  (∀ (n : Fin 48) (r : BurstReq) (s : State), (s.arb n).parked = [] → (s.arb n).held = [] →
    (∀ k, s.reqKey r = some k → s.reqFits n r = true → (s.arb n).backoff = [] → r.owner ≠ .copy → r.owner ≠ .heartbeat →
      let w : Waiting := { req := r, key := k, seq := (s.arb n).issued, at_ := s.cycle, since := s.cycle, wait := 16 }
      (∀ i l, (s.arb n).idle n r.channel = i :: l → ∃ t, exec (.arbiterRequestArrival n r) s = .next t ∧
        (t.arb n).slot i = some { req := r, key := k, at_ := s.cycle } ∧ (t.arb n).parked = [] ∧
        (∀ j, j ≠ i → (t.arb n).slot j = (s.arb n).slot j) ∧ (∀ j, j ≠ n.val → t.arb j = s.arb j) ∧
        t.reg64 (R.arbBeatsLo n k.rank) = (s.reg64 (R.arbBeatsLo n k.rank) + beatsOf r) % 2 ^ 64 ∧
        t = { s with regs := t.regs, arbs := t.arbs } ∧
        s.regsBut t [R.arbBeatsLo n k.rank, R.arbBeatsLo n k.rank + 4, R.arbMaxWait n k.rank]) ∧
      ((s.arb n).idle n r.channel = [] → s.retryService n = false → ∃ t, exec (.arbiterRequestArrival n r) s = .next t ∧
        (t.arb n).parked = [w] ∧ (∀ j, (t.arb n).slot j = (s.arb n).slot j) ∧
        t.reg (R.arbParked n) = satAdd (s.reg (R.arbParked n)) 1 ∧
        t = { s with regs := t.regs, now := t.now, arbs := t.arbs } ∧ s.regsBut t [R.arbParked n]) ∧
      ((s.arb n).idle n r.channel = [] → s.retryService n = true → ∃ t, exec (.arbiterRequestArrival n r) s = .next t ∧
        (t.arb n).backoff = [w] ∧ (t.arb n).parked = [] ∧ (∀ j, (t.arb n).slot j = (s.arb n).slot j) ∧
        t.reg (R.arbRetries n) = satAdd (s.reg (R.arbRetries n)) 1 ∧
        t = { s with regs := t.regs, now := t.now, arbs := t.arbs, out := .retryAnswer n k.requester :: s.out } ∧
        s.regsBut t [R.arbRetries n])) ∧
    ((s.reqKey r = none ∨ s.reqFits n r = false) → ∃ t, exec (.arbiterRequestArrival n r) s = .next t ∧
      t = { s with arbs := t.arbs } ∧ ∀ j, t.arb j = s.arb j)) ∧
  (∀ (n : Fin 48) (ending : List Nat) (s : State), (s.arb n).held = [] →
    let freed := (s.ended n ending).foldl (fun x i => x.putSlot i none) (s.arb n)
    ((s.arb n).parked = [] → ∃ t, exec (.arbiterDecision n ending ⟨[], []⟩) s = .next t ∧ t = { s with arbs := t.arbs } ∧
      (∀ i, (t.arb n).slot i = if i ∈ s.ended n ending then none else (s.arb n).slot i) ∧ ∀ k, k ≠ n.val → t.arb k = s.arb k) ∧
    (∀ w i l, (s.arb n).parked = [w] → (s.arb n).backoff = [] → w.req.owner ≠ .copy → w.req.owner ≠ .heartbeat →
      freed.idle n w.req.channel = i :: l → w.req.channel < (arbShape n).1 →
      ∃ t, exec (.arbiterDecision n ending ⟨[], []⟩) s = .next t ∧ (t.arb n).slot i = some { req := w.req, key := w.key, at_ := s.cycle } ∧
        (t.arb n).parked = [] ∧ t = { s with regs := t.regs, arbs := t.arbs }) ∧
    (∀ w i l, (s.arb n).parked = [] → (s.arb n).backoff = [w] → w.since + w.wait ≤ s.cycle → w.req.owner ≠ .copy →
      w.req.owner ≠ .heartbeat → freed.idle n w.req.channel = i :: l → w.req.channel < (arbShape n).1 →
      ∃ t, exec (.arbiterDecision n ending ⟨[], [0]⟩) s = .next t ∧ (t.arb n).slot i = some { req := w.req, key := w.key, at_ := s.cycle } ∧
        (t.arb n).backoff = [] ∧ t = { s with regs := t.regs, arbs := t.arbs })) ∧
  (∀ (n : Fin 48) (i : Nat) (s : State) (w : Waiting), (s.arb n).backoff[i]? = some w →
    (w.since + w.wait ≤ s.cycle → (∀ v, v ∈ (s.arb n).backoff → v ≠ w → sameStream v w = false) → (s.arb n).parked = [] →
      (s.arb n).held = [] → w.req.owner ≠ .copy → w.req.owner ≠ .heartbeat → w.req.channel < (arbShape n).1 →
      (∀ k l, (s.arb n).idle n w.req.channel = k :: l → ∃ t, exec (.arbiterRetryBackoff n i) s = .next t ∧
        (t.arb n).slot k = some { req := w.req, key := w.key, at_ := s.cycle } ∧
        (t.arb n).backoff = (s.arb n).backoff.filter (fun v => decide (v ≠ w)) ∧ t = { s with regs := t.regs, arbs := t.arbs }) ∧
      ((s.arb n).idle n w.req.channel = [] → s.retryService n = true → ∃ t, exec (.arbiterRetryBackoff n i) s = .next t ∧
        (t.arb n).backoff = (s.arb n).backoff.filter (fun v => decide (v ≠ w)) ++
          [{ w with wait := min (2 * w.wait) 16384, since := s.cycle }] ∧
        t = { s with regs := t.regs, now := t.now, arbs := t.arbs, out := .retryAnswer n w.key.requester :: s.out })) ∧
    (s.cycle < w.since + w.wait → exec (.arbiterRetryBackoff n i) s = .next s)) ∧
  (∀ (n : Fin 48) (slot : Nat) (s : State) (b : Burst), (s.arb n).slot slot = some b →
    (b.at_ + (s.reg (R.arbWdog n)).toNat ≤ s.cycle → ∃ t, exec (.portWatchdogExpiry n slot) s = .next t ∧
      (t.arb n).slot slot = none ∧ t.retryService n = true ∧ t.reg (R.arbWdogCount n) = satAdd (s.reg (R.arbWdogCount n)) 1 ∧
      { off := R.arbWdogFault n, key := slot, val := slot * 256 + b.key.requester, also := [] } ∈ t.later.latches ∧
      (∃ e, e ∈ t.later.events ∧ e.source = 9 ∧ e.unit = n.val ∧ e.task = burstTask b.req) ∧
      .burstError n b.req.owner ∈ t.out ∧
      (∀ ref c x, b.req.owner = .task ref c → s.task ref = some x → x.phase = .running →
        ∃ y, t.task ref = some y ∧ y.entry = x.entry ∧ y.status = St.portWatchdog ∧ (y.phase = .failing ∨ y.phase = .finished))) ∧
    (s.cycle < b.at_ + (s.reg (R.arbWdog n)).toNat → exec (.portWatchdogExpiry n slot) s = .next s))

/-! ### Management (R324 to R351) -/

/-- R324 to R331: the queue pair is enabled with two empty rings where its rings lie in tier A, and refused with BAD otherwise;
disabled where nothing is pending and no reply is held, and refused with BUSY otherwise. A doorbell publishes packets or puts the pair in error. A
packet read with its mark set takes its index and is checked, in hand or answered at once; one whose mark is not set is read
again, and at 3,200 core cycles the pair stops with 0x1005. A reply is written where the reply ring
has room, with the phase; ABORT's counts the tasks that wait for room as it is written (R337). -/
def Obligations.ManagementQueue : Prop :=
  (∀ (src : Requester) (v : Word) (s : State), s.takesWrite src R.mqCfg →
    (s.mqEn = false → getField v 31 1 = 1 → s.mqEnableOk (getField v 0 4) (getField v 8 4) = true →
      ∃ t, exec (.mqEnable src v) s = .next t ∧ t.mqEn = true ∧ t.mqHead = 0 ∧ t.mqCqTail = 0 ∧ t.bit R.mqSqHead 31 = true ∧
        t.bit R.mqCqTail 31 = true ∧ (t.mqMode = if s.mqMode = 2 then 2 else 1) ∧ t.mq.tail = 0 ∧ t.mq.replies = [] ∧
        t.mqPackets = 2 ^ (getField v 0 4 + 4) ∧ t = { s with regs := t.regs, mq := t.mq }) ∧
    (s.mqEn = false → getField v 31 1 = 1 → s.mqEnableOk (getField v 0 4) (getField v 8 4) = false →
      ∃ t, exec (.mqEnable src v) s = .next t ∧ t.mqEn = false ∧ t.bit R.mqCfg 30 = true ∧ s.onlyRegs t [R.mqCfg]) ∧
    (s.mqEn = true → getField v 31 1 = 0 → s.mqBusy = false →
      ∃ t, exec (.mqDisable src v) s = .next t ∧ t.mqEn = false ∧ (t.mqMode = if s.mqMode = 2 then 2 else 0) ∧
        t = { s with regs := t.regs, mq := t.mq } ∧ s.regsBut t [R.mqCfg, R.mqState]) ∧
    (s.mqEn = true → getField v 31 1 = 0 → s.mqBusy = true →
      ∃ t, exec (.mqDisable src v) s = .next t ∧ t.mqEn = true ∧ t.bit R.mqCfg 29 = true ∧ s.onlyRegs t [R.mqCfg])) ∧
  (∀ (src : Requester) (v : Word) (s : State),
    let new := getField v 0 16
    let adv := (new + s.mqPackets - s.mq.tail) % s.mqPackets
    let free := (s.mqHead + 2 * s.mqPackets - s.mq.tail - 1) % s.mqPackets + 1
    (s.takesWrite src R.mqDoorbell → (s.mqEn = false ∨ s.mqMode = 0 ∨ s.mqMode = 2) → exec (.mqDoorbell src v) s = .next s) ∧
    (s.takesWrite src R.mqDoorbell → s.mqEn = true → (s.mqMode = 1 ∨ s.mqMode = 3) → new < s.mqPackets → adv < free →
      exec (.mqDoorbell src v) s = .next { s with mq := { s.mq with tail := new } }) ∧
    (s.takesWrite src R.mqDoorbell → s.mqEn = true → s.mqMode = 3 → (s.mqPackets ≤ new ∨ free ≤ adv) →
      exec (.mqDoorbell src v) s = .next s) ∧
    (s.takesWrite src R.mqDoorbell → s.mqEn = true → s.mqMode = 1 → (s.mqPackets ≤ new ∨ free ≤ adv) →
      ∃ t, exec (.mqDoorbell src v) s = .next t ∧
      t.mqMode = 3 ∧ t.fld R.mqState 0 16 = St.length.toNat ∧ t = { s with regs := t.regs, mq := t.mq } ∧
      s.regsBut t [R.mqState]) ∧
    (s.takesWrite src R.mqCqHead → new < s.mqReplies → ∃ t, exec (.mqCqHeadWrite src v) s = .next t ∧ t.fld R.mqCqHead 0 16 = new ∧
      s.onlyRegs t [R.mqCqHead]) ∧
    (s.takesWrite src R.mqCqHead → s.mqReplies ≤ new → exec (.mqCqHeadWrite src v) s = .next s)) ∧
  (∀ (c : MemCond) (s : State), s.mqReads = true → s.mqHead ≠ s.mq.tail →
    (s.mq.readFirst = none ∨ s.mq.outstanding = true) →
    let a := s.reg64 R.mqSqBaseLo + 64 * s.mqHead
    let b := s.seenMem a 64
    let p : Packet := { bytes := b, index := s.reg R.mqIndex }
    (s.memVerdict 0 .read a 64 c = none → natBit (byteAt b 1) 7 = s.bit R.mqSqHead 31 →
      ∃ t, exec (.mqPacketRead c) s = .next t ∧ t.reg R.mqIndex = s.reg R.mqIndex + 1 ∧
        t.mqHead = (s.mqHead + 1) % s.mqPackets % 2 ^ 16 ∧
        (0x81 ≤ pkOpcode b → pkOpcode b ≤ 0x8F → t.bit R.mqPending (pkOpcode b - 0x80) = true) ∧
        t = { s with regs := t.regs, now := t.now, mq := t.mq } ∧
        s.regsBut t [R.mqSqHead, R.mqIndex, R.mqPending, R.tmTierACe, R.tmScratchCe] ∧
        (packetCheck b = none → t.mq.cur = some p ∧ t.mq.replies = s.mq.replies) ∧
        (∀ st, packetCheck b = some st → t.mq.cur = s.mq.cur ∧ t.mq.replies = s.mq.replies ++ [p.answer st true []])) ∧
    (s.memVerdict 0 .read a 64 c = none → natBit (byteAt b 1) 7 ≠ s.bit R.mqSqHead 31 →
      ∃ t, exec (.mqPacketRead c) s = .next t ∧ t = { s with regs := t.regs, now := t.now, mq := t.mq } ∧
        s.regsBut t [R.tmTierACe, R.tmScratchCe] ∧ t.mq.readFirst.isSome = true ∧
        t.mq.outstanding = false ∧ t.mq.cur = s.mq.cur ∧ t.mq.replies = s.mq.replies) ∧
    (∀ st, s.memVerdict 0 .read a 64 c = some st → ∃ t, exec (.mqPacketRead c) s = .next t ∧ t.mqMode = 3 ∧
      t.fld R.mqState 0 16 = st.toNat ∧ t.tasks = s.tasks ∧ s.sameMem t)) ∧
  (∀ (s : State) (f : Nat), s.mq.readFirst = some f →
    (s.mqReads = true → s.mq.outstanding = false → s.mq.readLast + 64 ≤ s.cycle →
      exec .mqPacketReread s = .next { s with mq := { s.mq with outstanding := true, readLast := s.cycle } }) ∧
    ((s.mq.outstanding = true ∨ s.cycle < s.mq.readLast + 64) → exec .mqPacketReread s = .next s) ∧
    (s.mqMode = 1 → f + 3200 ≤ s.cycle → ∃ t, exec .mqMarkTimeout s = .next t ∧ t.mqMode = 3 ∧
      t.fld R.mqState 0 16 = St.phase.toNat ∧ t = { s with regs := t.regs, mq := t.mq } ∧ s.regsBut t [R.mqState]) ∧
    (s.cycle < f + 3200 → exec .mqMarkTimeout s = .next s)) ∧
  (∀ (s : State) (r : Reply) (l : List Reply), s.mq.replies = r :: l → s.mqEn = true → s.mqMode ≠ 2 →
    ((s.mqCqTail + 1) % s.mqReplies = s.fld R.mqCqHead 0 16 → exec .mqReplyWrite s = .next s) ∧
    ((s.mqCqTail + 1) % s.mqReplies ≠ s.fld R.mqCqHead 0 16 → ∃ t, exec .mqReplyWrite s = .next t ∧
      t.readMem (s.reg64 R.mqCqBaseLo + 32 * s.mqCqTail) 32 = replyBytes (s.countWaits r) (s.bit R.mqCqTail 31) ∧
      s.sameMemBut t (s.reg64 R.mqCqBaseLo + 32 * s.mqCqTail) 32 ∧ t.mq.replies = l ∧
      t.mqCqTail = (if s.mqCqTail + 1 = s.mqReplies then 0 else s.mqCqTail + 1) % 2 ^ 16 ∧ t.tasks = s.tasks)) ∧
  (∀ s : State, (s.mq.replies = [] ∨ s.mqEn = false ∨ s.mqMode = 2) → exec .mqReplyWrite s = .next s)

/-- R334 to R337, R341, R343, R349: QUEUE_CREATE makes an empty running queue or ring of its parameters, QUEUE_DESTROY puts one
that no task names back at reset; ABORT pauses its queues and leaves no task in its scope to run, and answers once they have
their records; EPOCH_SET stages an epoch; FLAG_WRITE sets its flag, or clears one that has not been set in this core cycle; POWER_SET is accepted where the block may leave its
state. Each answers with the status its checks give. -/
def Obligations.QueueCommands : Prop :=
  ∀ (s : State) (p : Packet), s.cpRuns = true →
    let b := p.bytes
    let n := pkNumber b
    let kind := pkBits b 8 0 1
    let taken : State := { s with mq := { s.mq with cur := none } }
    let answered (t : State) (st : Status) (res : List Byte) : Prop := t.mq.cur = none ∧
      t.mq.replies = s.mq.replies ++ [p.answer st true res] ∧ t.tasks = s.tasks ∧ s.sameMem t
    (s.mq.cur = some p → pkOpcode b = 0x81 → ∀ x : RingXlate,
      (s.numberEnabled kind n = true → ∃ t, exec (.queueCreate x) s = .next t ∧ answered t St.state [] ∧ t.regs = s.regs) ∧
      (s.numberEnabled kind n = false → s.bit (R.ctxMap (uintAt b 12 2 % 4096)) 31 = false →
        ∃ t, exec (.queueCreate x) s = .next t ∧ answered t St.context [] ∧ t.regs = s.regs) ∧
      (∀ st, s.numberEnabled kind n = false → s.bit (R.ctxMap (uintAt b 12 2 % 4096)) 31 = true →
        s.ringList b x = .error st → ∃ t, exec (.queueCreate x) s = .next t ∧ answered t st [] ∧ s.regsBut t [R.tuXlateReqs]) ∧
      (∀ rs, s.numberEnabled kind n = false → s.bit (R.ctxMap (uintAt b 12 2 % 4096)) 31 = true →
        s.ringList b x = .ok rs →
        ∃ t, exec (.queueCreate x) s = .next t ∧ answered t St.success (leBytes 4 rs.length) ∧
          (kind = 0 → t.bit (R.sqCfg n) 31 = true ∧ t.sqMode n = 1 ∧ t.sqHead n = 0 ∧ t.sqTail n = 0 ∧ t.sqPhase n = true ∧
            t.reg (R.sqIndex n) = 0 ∧ t.sqUnits n = 2 ^ (pkBits b 9 0 4 + 6) ∧ t.sqCtx n = uintAt b 12 2 % 4096 ∧
            t.sqHost n = pkHost b ∧ t.reg64 (R.sqBaseLo n) = pkBase b % 2 ^ 64 ∧
            t.sq n = { sqDefault n with ranges := rs, life := (s.sq n).life + 1, stale := (s.sq n).stale }) ∧
          (kind = 1 → t.bit (R.cqCfg n) 31 = true ∧ t.cqTail n = 0 ∧ t.cqPhase n = true ∧ t.fld (R.cqHead n) 0 16 = 0 ∧
            t.cqRecords n = 2 ^ (pkBits b 9 0 4 + 6) ∧ t.cqHost n = pkHost b ∧
            t.reg64 (R.cqBaseLo n) = pkBase b % 2 ^ 64 ∧ t.cq n = { cqDefault n with ranges := rs }))) ∧
    (s.mq.cur = some p → pkOpcode b = 0x82 →
      (s.mayDestroy kind n = false → ∃ t, exec .queueDestroy s = .next t ∧ answered t St.state [] ∧ t.regs = s.regs) ∧
      (s.mayDestroy kind n = true → kind = 0 → ∃ t, exec .queueDestroy s = .next t ∧ answered t St.success [] ∧
        (∀ i, i < 14 → t.reg (R.sqBaseLo n + 4 * i) = resetWord (R.sqBaseLo n + 4 * i)) ∧
        t.sq n = { sqDefault n with life := (s.sq n).life, stale := (s.abandon n).stale } ∧
        s.sqsBut t n) ∧
      (s.mayDestroy kind n = true → kind = 1 → ∃ t, exec .queueDestroy s = .next t ∧ answered t St.success [] ∧
        (∀ i, i < 11 → t.reg (R.cqBaseLo n + 4 * i) = resetWord (R.cqBaseLo n + 4 * i)) ∧ t.cq n = cqDefault n)) ∧
    (s.mq.cur = some p → pkOpcode b = 0x83 → n < 1024 →
      (pkBits b 8 0 2 ≠ 2 → s.bit (R.sqCfg n) 31 = false → ∃ t, exec .abort s = .next t ∧ answered t St.state []) ∧
      ((pkBits b 8 0 2 = 2 ∨ s.bit (R.sqCfg n) 31 = true) → ∃ t a, exec .abort s = .next t ∧ t.mq.abort = some a ∧
        a.packet = p ∧ a.tasks = (s.tasks.filter (fun x => inScope b x && s.abortable x)).map Task.ref ∧
        a.scope = (s.tasks.filter (inScope b)).map Task.ref ∧ t.mq.cur = none ∧
        t.mq.replies = s.mq.replies ∧ (∀ r, r ∈ a.tasks → ∀ y, t.task r = some y → t.abortable y = false) ∧
        (pkBits b 8 0 2 = 1 → (s.sqMode n = 1 ∨ s.sqMode n = 2) → t.sqMode n = 2))) ∧
    (∀ a, s.mq.abort = some a →
      ((∀ r, r ∈ a.tasks → ∀ y, s.task r = some y → s.waitsRoom y = true) → a.packet.bytes ≠ [] →
        exec .abortComplete s = .next { s with mq := { s.mq with abort := none, replies := s.mq.replies ++
          [{ a.packet.answer St.success true (leBytes 4 a.tasks.length) with waits := a.scope }] } }) ∧
      ((∃ r y, r ∈ a.tasks ∧ s.task r = some y ∧ s.waitsRoom y = false) → exec .abortComplete s = .next s)) ∧
    (s.mq.cur = some p → pkOpcode b = 0x87 →
      let e : Word := BitVec.ofNat 32 (uintAt b 8 4)
      ((taken.opInProgress 0x87 = true ∨ e = s.epochNow) → ∃ t, exec .epochSet s = .next t ∧ answered t St.state [] ∧
        t.regs = s.regs) ∧
      (taken.opInProgress 0x87 = false → e ≠ s.epochNow → ∃ t, exec .epochSet s = .next t ∧ t.reg R.epochStaged = e ∧ t.mq.cur = none ∧
        t.mq.epoch = some p ∧ t.mq.replies = s.mq.replies ++ [p.answer St.success false (leBytes 4 s.epochNow.toNat)] ∧
        t = { s with regs := t.regs, mq := t.mq } ∧ s.regsBut t [R.epochStaged])) ∧
    (s.mq.cur = some p → pkOpcode b = 0x8F → ∃ t, exec .flagWrite s = .next t ∧ t.mq.cur = none ∧
      t.mq.replies = s.mq.replies ++ [p.answer St.success true []] ∧
      (pkBits b 10 0 1 = 0 → t.flag (uintAt b 8 2 % 512) = true) ∧
      (pkBits b 10 0 1 = 1 → t.flag (uintAt b 8 2 % 512) = (s.flag (uintAt b 8 2 % 512) &&
        decide (getField (s.setNow (R.eventSet (uintAt b 8 2 % 512 / 32))) (uintAt b 8 2 % 512 % 32) 1 = 1))) ∧
      t = { s with regs := t.regs, now := t.now, mq := t.mq } ∧ s.regsBut t [R.eventSet (uintAt b 8 2 % 512 / 32)]) ∧
    (s.mq.cur = some p → pkOpcode b = 0x88 →
      (pkBits b 8 0 3 = powerNumber s.power → ∃ t, exec .powerSet s = .next t ∧ answered t St.success [] ∧ t.regs = s.regs) ∧
      (pkBits b 8 0 3 ≠ powerNumber s.power → 2 ≤ pkBits b 8 0 3 → s.mayLower = false →
        ∃ t, exec .powerSet s = .next t ∧ answered t St.state [] ∧ t.regs = s.regs) ∧
      (pkBits b 8 0 3 ≠ powerNumber s.power → (pkBits b 8 0 3 < 2 ∨ s.mayLower = true) →
        ∃ t, exec .powerSet s = .next t ∧ answered t St.success [] ∧ t.mq.powerTo = some (pkBits b 8 0 3) ∧
          t = { s with mq := t.mq }))

/-- R192, R338, R339: TABLE_LOAD takes a valid image for a slot that no task names, which is loading until the image is
installed in the codec units; WINDOW_OPEN opens a closed window over addresses that may be opened to a valid context. -/
def Obligations.TablesAndWindows : Prop :=
  ∀ (s : State), s.cpRuns = true →
    let answered (t : State) (p : Packet) (st : Status) : Prop := t.mq.cur = none ∧
      t.mq.replies = s.mq.replies ++ [p.answer st true []] ∧ t.tasks = s.tasks ∧ s.sameMem t
    (∀ (p : Packet) (c : MemCond), s.mq.cur = some p → pkOpcode p.bytes = 0x84 → s.tierBWaits (pkBuffer p.bytes) = false →
      let slot := pkBits p.bytes 8 0 2
      let image := s.seenMem (pkBuffer p.bytes) 144
      let verdict := s.memVerdict 0 .read (pkBuffer p.bytes) 144 c
      (s.slotRefs slot ≠ 0 → ∃ t, exec (.tableLoad c) s = .next t ∧ answered t p St.tableBusy ∧ t.regs = s.regs) ∧
      (∀ st, s.slotRefs slot = 0 → verdict = some st → ∃ t, exec (.tableLoad c) s = .next t ∧ answered t p st) ∧
      (s.slotRefs slot = 0 → verdict = none → (uintAt p.bytes 10 2 = 0 ∨ imageValid image = false) →
        ∃ t, exec (.tableLoad c) s = .next t ∧ answered t p St.tableImage ∧ s.regsBut t [R.tmTierACe, R.tmScratchCe]) ∧
      (s.slotRefs slot = 0 → verdict = none → uintAt p.bytes 10 2 ≠ 0 → imageValid image = true →
        ∃ t, exec (.tableLoad c) s = .next t ∧ t.slotState slot = 2 ∧ t.mq.cur = none ∧
          t.mq.load = some { packet := p, slot := slot, gen := uintAt p.bytes 10 2, lens := imageLens image } ∧
          t = { s with regs := t.regs, now := t.now, mq := t.mq } ∧ s.regsBut t [R.cxSlot slot, R.tmTierACe, R.tmScratchCe])) ∧
    (∀ (p : Packet) (c : MemCond), s.mq.cur = some p → s.tierBWaits (pkBuffer p.bytes) = true → exec (.tableLoad c) s = .next s) ∧
    (∀ (l : LoadRun), s.mq.load = some l → l.packet.bytes ≠ [] → l.gen < 65536 →
      ∃ t, exec .tableInstallComplete s = .next t ∧ t.slotLens l.slot = l.lens ∧ t.slotGen l.slot = l.gen ∧
        t.slotState l.slot = 1 ∧ t.mq.load = none ∧
        t.mq.replies = s.mq.replies ++ [l.packet.answer St.success true []] ∧
        t = { s with regs := t.regs, tables := t.tables, mq := t.mq } ∧ s.regsBut t [R.cxSlot l.slot]) ∧
    (∀ (p : Packet), s.mq.cur = some p → pkOpcode p.bytes = 0x85 →
      let w := pkBits p.bytes 8 0 6
      let lo := uintAt p.bytes 16 8
      let hi := uintAt p.bytes 24 8
      let shut := isForbidden (regionOf lo) = true ∨ isForbidden (regionOf (hi + 4095)) = true
      let ctx := uintAt p.bytes 10 2 % 4096
      (s.bit (R.winCtl w) 31 = true → ∃ t, exec .windowOpen s = .next t ∧ answered t p St.state ∧ t.regs = s.regs) ∧
      (s.bit (R.winCtl w) 31 = false → shut → ∃ t, exec .windowOpen s = .next t ∧ answered t p St.window ∧ t.regs = s.regs) ∧
      (s.bit (R.winCtl w) 31 = false → ¬ shut → s.bit (R.ctxMap ctx) 31 = false →
        ∃ t, exec .windowOpen s = .next t ∧ answered t p St.context ∧ t.regs = s.regs) ∧
      (s.bit (R.winCtl w) 31 = false → ¬ shut → s.bit (R.ctxMap ctx) 31 = true →
        ∃ t, exec .windowOpen s = .next t ∧ answered t p St.success ∧ t.bit (R.winCtl w) 31 = true ∧
          t.fld (R.winCtl w) 0 12 = ctx ∧ t.fld (R.winCtl w) 28 3 = pkBits p.bytes 9 0 3 ∧
          t.reg64 (R.winBaseLo w) = lo % 2 ^ 64 ∧ t.reg64 (R.winLimitLo w) = hi % 2 ^ 64 ∧
          t = { s with regs := t.regs, mq := t.mq }))

/-- R340: WINDOW_CLOSE closes the window that byte 8 names at once, under R45: no later access passes through it; it replies
0x0000 when every access that had passed has completed at the memory, and not before. Closing a closed window replies 0x0000 and
changes nothing else. -/
def Obligations.WindowClose : Prop :=
  ∀ (s : State), s.cpRuns = true →
    (∀ (p : Packet), s.mq.cur = some p → pkOpcode p.bytes = 0x86 →
      let w := pkBits p.bytes 8 0 6
      (s.bit (R.winCtl w) 31 = true → ∃ t, exec .windowClose s = .next t ∧ t.bit (R.winCtl w) 31 = false ∧
        (∀ node acc a len, t.winServes w node acc a len = false) ∧
        t.mq = { s.mq with cur := none, close := some (p, w) } ∧ t = { s with regs := t.regs, mq := t.mq } ∧
        s.regsBut t [R.winCtl w]) ∧
      (s.bit (R.winCtl w) 31 = false → exec .windowClose s =
        .next { s with mq := { s.mq with cur := none, replies := s.mq.replies ++ [p.answer St.success true []] } })) ∧
    (∀ (p : Packet) (w : Nat), s.mq.close = some (p, w) →
      ((∀ a, a ∈ s.padWait → waitsBehind w a = false) → p.bytes ≠ [] → exec .windowCloseDrained s =
        .next { s with mq := { s.mq with close := none, replies := s.mq.replies ++ [p.answer St.success true []] } }) ∧
      ((∃ a, a ∈ s.padWait ∧ waitsBehind w a = true) → exec .windowCloseDrained s = .next s))

/-- R344 to R348, R350, R351: ENGINE_RETIRE retires a spare at once and an active unit when its task has its record, with a spare
in its place; SITE_EVACUATE starts the copy of a module to a spare site that passes its checks, and a cancel stops it;
IDENT_READ and TELEMETRY_SNAP write their bytes into the buffer where they fit, the snapshot clearing its RC counters if asked
to; FIRMWARE_STAGE verifies and installs an image, and FIRMWARE_SWITCH hands over to it or goes back after 100 ms. -/
def Obligations.ServiceCommands : Prop :=
  ∀ (s : State), s.cpRuns = true →
    let answers (t : State) (p : Packet) (st : Status) (last : Bool) (res : List Byte) : Prop :=
      t.mq.replies = s.mq.replies ++ [p.answer st last res]
    let taken : State := { s with mq := { s.mq with cur := none } }
    (∀ p, s.mq.cur = some p → pkOpcode p.bytes = 0x89 →
      let kind := pkBits p.bytes 8 0 2
      let n := byteAt p.bytes 9
      ((s.mq.retire.isSome = true ∨ taken.opInProgress 0x89 = true ∨ s.isRetired kind n = true) → ∃ t, exec .engineRetire s = .next t ∧
        answers t p St.state true [] ∧ t = { s with mq := t.mq }) ∧
      (s.mq.retire = none → taken.opInProgress 0x89 = false → s.isRetired kind n = false → s.isActive kind n = false → pkBits p.bytes 10 1 1 = 0 →
        ∃ t, exec .engineRetire s = .next t ∧ t.isRetired kind n = true ∧ answers t p St.success true [0xFF, 0] ∧
          t.tasks = s.tasks) ∧
      (∀ r y, s.mq.retire = none → taken.opInProgress 0x89 = false → s.isRetired kind n = false → s.isActive kind n = true →
        pkBits p.bytes 10 0 1 = 1 → s.taskOn kind n = some r → s.task r = some y → s.abortable y = true → y.phase = .running →
        ∃ t z, exec .engineRetire s = .next t ∧ t.mq.retire.isSome = true ∧ t.task r = some z ∧ z.entry = y.entry ∧
          z.status = St.aborted ∧ (z.phase = .failing ∨ z.phase = .finished) ∧ answers t p St.success false []) ∧
      (s.mq.retire = none → taken.opInProgress 0x89 = false → s.isRetired kind n = false → s.isActive kind n = true →
        pkBits p.bytes 10 0 1 = 0 →
        ∃ t x, exec .engineRetire s = .next t ∧ t.mq.retire = some x ∧ x.kind = kind ∧ x.unit = n ∧ x.packet = p ∧
          x.task = s.taskOn kind n ∧ answers t p St.success false [] ∧ t = { s with mq := t.mq })) ∧
    (∀ x, s.mq.retire = some x → x.drained = false →
      (s.lacksRecord x.task = true → exec .engineRetireDrained s = .next s) ∧
      (∀ n, s.lacksRecord x.task = false → s.spareOf x.kind = some n → s.isActive x.kind x.unit = true → x.persist = false →
        x.packet.bytes ≠ [] → ∃ t, exec .engineRetireDrained s = .next t ∧ t.isRetired x.kind x.unit = true ∧
          t.isActive x.kind n = true ∧ t.mq.retire = none ∧ t.mq.replies.length = s.mq.replies.length + 1 ∧
          t.tasks = s.tasks)) ∧
    (∀ p spd trained, s.mq.cur = some p → pkOpcode p.bytes = 0x8A →
      let lm := pkBits p.bytes 8 0 3
      let dst := pkBits p.bytes 9 0 4
      let src := s.siteOf lm
      (pkBits p.bytes 10 0 1 = 0 → (taken.opInProgress 0x8A = true ∨ s.evac.isSome = true ∨ src = 0xF ∨ s.siteState src ≠ 1 ∨
        s.siteState dst ≠ 2) →
        ∃ t, exec (.siteEvacuate spd trained) s = .next t ∧
          answers t p St.state true (leBytes 8 (s.reg64 R.tbEvacDoneLo)) ∧ t = { s with mq := t.mq }) ∧
      (pkBits p.bytes 10 0 1 = 0 → taken.opInProgress 0x8A = false → s.evac = none → src < 9 → dst < 9 → s.siteState src = 1 →
        s.siteState dst = 2 → targetCheck spd trained ≠ 0 →
        ∃ t, exec (.siteEvacuate spd trained) s = .next t ∧ t.evac = none ∧ t.siteState dst = 5 ∧ t.siteState src = 1 ∧
          t.fld (R.tbSiteStatus dst) 0 8 = targetCheck spd trained ∧ .i3cRead dst ∈ t.out ∧ s.sameMem t ∧
          t.mq.replies = s.mq.replies ++ [p.answer St.success false [], p.answer St.siteCheck true (leBytes 8 0)]) ∧
      (pkBits p.bytes 10 0 1 = 0 → taken.opInProgress 0x8A = false → s.evac = none → src < 9 → dst < 9 → s.siteState src = 1 →
        s.siteState dst = 2 → targetCheck spd trained = 0 →
        ∃ t, exec (.siteEvacuate spd trained) s = .next t ∧ t.evac = some ⟨lm, src, dst, 0⟩ ∧ t.mq.evac = some p ∧
          t.siteState src = 3 ∧ t.siteState dst = 4 ∧ t.reg64 R.tbEvacDoneLo = 0 ∧ answers t p St.success false [] ∧
          t.siteOf lm = src ∧ .i3cRead dst ∈ t.out ∧ s.sameMem t) ∧
      (pkBits p.bytes 10 0 1 = 1 → s.evac = none → ∃ t, exec .siteEvacuateCancel s = .next t ∧
        answers t p St.state true (leBytes 8 (s.reg64 R.tbEvacDoneLo)) ∧ t = { s with mq := t.mq }) ∧
      (∀ v q, pkBits p.bytes 10 0 1 = 1 → s.evac = some v → v.source < 9 → v.target < 9 → v.source ≠ v.target →
        s.mq.evac = some q → q.bytes ≠ [] →
        ∃ t, exec .siteEvacuateCancel s = .next t ∧ t.evac = none ∧ t.mq.evac = none ∧ t.siteState v.target = 2 ∧
          t.siteState v.source = 1 ∧ s.sameMem t ∧
          t.mq.replies = s.mq.replies ++ [q.answer St.aborted true (leBytes 8 (s.reg64 R.tbEvacDoneLo)),
            p.answer St.success true (leBytes 8 (s.reg64 R.tbEvacDoneLo))])) ∧
    (∀ p c, s.mq.cur = some p → s.tierBWaits (pkBuffer p.bytes) = false →
      let a := pkBuffer p.bytes
      let fits (bs : List Byte) := bs.length ≤ pkLen p.bytes ∧
        s.memVerdict 0 .write a bs.length (writeCond a bs.length c) = none
      let ident := s.identity (byteAt p.bytes 8) (byteAt p.bytes 9)
      (pkOpcode p.bytes = 0x8B → fits ident → ∃ t, exec (.identRead c) s = .next t ∧ t.readMem a ident.length = ident ∧
        s.sameMemBut t a ident.length ∧ answers t p St.success true (leBytes 4 ident.length) ∧
        t = { s with regs := t.regs, now := t.now, mem := t.mem, mq := t.mq } ∧ s.regsBut t [R.tmTierACe, R.tmScratchCe]) ∧
      (∀ st, pkOpcode p.bytes = 0x8B → ident.length ≤ pkLen p.bytes →
        s.memVerdict 0 .write a ident.length (writeCond a ident.length c) = some st → ∃ t, exec (.identRead c) s = .next t ∧
          s.sameMemBut t a ident.length ∧ answers t p st true [] ∧ t.tasks = s.tasks) ∧
      (pkOpcode p.bytes = 0x8B → pkLen p.bytes < ident.length → ∃ t, exec (.identRead c) s = .next t ∧
        answers t p St.overflow true (leBytes 4 ident.length) ∧ t = { s with mq := t.mq }) ∧
      (pkOpcode p.bytes = 0x8E → fits s.snapshot → ∃ t, exec (.telemetrySnap c) s = .next t ∧
        t.readMem a s.snapshot.length = s.snapshot ∧ s.sameMemBut t a s.snapshot.length ∧
        (pkBits p.bytes 8 0 1 = 1 → c ≠ .corrected → ∀ o, o ∈ snapOffsets → isRc o = true → (s.countedNow o).2 = 0 →
          t.reg o &&& rcMask o = 0) ∧
        (pkBits p.bytes 8 0 1 = 0 → s.regsBut t [R.tmTierACe, R.tmScratchCe]) ∧
        t = { s with regs := t.regs, now := t.now, mem := t.mem, mq := t.mq }) ∧
      (pkOpcode p.bytes = 0x8E → pkLen p.bytes < s.snapshot.length → ∃ t, exec (.telemetrySnap c) s = .next t ∧
        answers t p St.overflow true (leBytes 4 s.snapshot.length) ∧ t = { s with mq := t.mq })) ∧
    (∀ p sig c, s.mq.cur = some p → pkOpcode p.bytes = 0x8C →
      let image := decide (pkBits p.bytes 8 0 1 = 1)
      let source := s.seenMem (pkBuffer p.bytes) (pkLen p.bytes)
      let verdict := s.memVerdict 0 .read (pkBuffer p.bytes) (pkLen p.bytes) c
      let sound := (crc32c source).toNat = uintAt p.bytes 28 4 ∧ sig = true
      ((taken.opInProgress 0x8C = true ∨ image = s.runningImage) → ∃ t, exec (.firmwareStage sig c) s = .next t ∧
        answers t p St.state true [] ∧ t = { s with mq := t.mq }) ∧
      (∀ st, taken.opInProgress 0x8C = false → image ≠ s.runningImage → verdict = some st →
        ∃ t, exec (.firmwareStage sig c) s = .next t ∧ t.mq.stage = none ∧ t.tasks = s.tasks ∧ s.sameMem t ∧
          t.mq.replies = s.mq.replies ++ [p.answer St.success false [], p.answer st true []]) ∧
      (taken.opInProgress 0x8C = false → image ≠ s.runningImage → verdict = none →
        (sound → ∃ t, exec (.firmwareStage sig c) s = .next t ∧
          t.mq.stage = some ⟨p, boolBit image, BitVec.ofNat 32 (uintAt source 8 4)⟩ ∧ t.imageVersion image = 0 ∧
          answers t p St.success false [] ∧ t = { s with regs := t.regs, now := t.now, mq := t.mq } ∧
          s.regsBut t [versionReg image, R.tmTierACe, R.tmScratchCe]) ∧
        (¬ sound → ∃ t, exec (.firmwareStage sig c) s = .next t ∧ t.mq.stage = none ∧
          t.mq.replies = s.mq.replies ++ [p.answer St.success false [], p.answer St.image true []] ∧
          t = { s with regs := t.regs, now := t.now, mq := t.mq } ∧ s.regsBut t [R.tmTierACe, R.tmScratchCe]))) ∧
    (∀ x, s.mq.stage = some x → x.packet.bytes ≠ [] →
      (∃ t, exec (.firmwareStageDone true) s = .next t ∧ t.imageVersion (decide (x.image = 1)) = x.version ∧
        t.mq.stage = none ∧ answers t x.packet St.success true (leBytes 4 x.version.toNat) ∧
        t = { s with regs := t.regs, mq := t.mq } ∧ s.regsBut t [versionReg (decide (x.image = 1))]) ∧
      (∃ t, exec (.firmwareStageDone false) s = .next t ∧ t.mq.stage = none ∧ answers t x.packet St.image true [] ∧
        t = { s with mq := t.mq })) ∧
    (∀ p, s.mq.cur = some p → pkOpcode p.bytes = 0x8D →
      let image := decide (pkBits p.bytes 8 0 1 = 1)
      (taken.opInProgress 0x8D = true → ∃ t, exec .firmwareSwitch s = .next t ∧ answers t p St.state true [] ∧
        t = { s with mq := t.mq }) ∧
      (taken.opInProgress 0x8D = false → s.imageVersion image = 0 → ∃ t, exec .firmwareSwitch s = .next t ∧ answers t p St.image true [] ∧ t = { s with mq := t.mq }) ∧
      (taken.opInProgress 0x8D = false → s.imageVersion image ≠ 0 → (image = s.runningImage ∨ s.quiescent = false) → ∃ t, exec .firmwareSwitch s = .next t ∧
        answers t p St.state true [] ∧ t = { s with mq := t.mq }) ∧
      (taken.opInProgress 0x8D = false → s.imageVersion image ≠ 0 → image ≠ s.runningImage → s.quiescent = true → ∃ t, exec .firmwareSwitch s = .next t ∧
        t.bit R.mqState 27 = true ∧
        t.mq.switch = some ⟨p, boolBit image, decide (pkBits p.bytes 9 0 1 = 1), s.cycle⟩ ∧
        answers t p St.success false [] ∧ t = { s with regs := t.regs, mq := t.mq } ∧ s.regsBut t [R.mqState])) ∧
    (∀ x, s.mq.switch = some x → x.packet.bytes ≠ [] →
      (∃ t, exec .firmwareSwitchFinal s = .next t ∧ t.mq.switch = none ∧ t.bit R.mqState 27 = false ∧
        t.runningImage = decide (x.image = 1) ∧ (x.persist = true → t.bit R.cpBoot 0 = decide (x.image = 1)) ∧
        (x.persist = false → t.reg R.cpBoot = s.reg R.cpBoot) ∧
        answers t x.packet St.success true (leBytes 4 (s.imageVersion (decide (x.image = 1))).toNat ++ leBytes 1 x.image) ∧
        t = { s with regs := t.regs, mq := t.mq } ∧ s.regsBut t [R.mqState, R.cpBoot]) ∧
      (x.at_ + 160000000 ≤ s.cycle → ∃ t, exec .firmwareSwitchTimeout s = .next t ∧ t.mq.switch = none ∧
        t.bit R.mqState 27 = false ∧ t.runningImage = s.runningImage ∧ answers t x.packet St.image true [] ∧
        t = { s with regs := t.regs, mq := t.mq } ∧ s.regsBut t [R.mqState]) ∧
      (s.cycle < x.at_ + 160000000 → exec .firmwareSwitchTimeout s = .next s))

/-! ### Reset, start-up and power (R376 to R393) -/

/-- R376 to R381, R384: power-on begins with everything at reset but what the flash holds, and every byte of memory is a free value
(log 12); a self-reset, from the host or after a lasting loss of the link, ends every task and command, keeps memory but for bytes
in flight, the time and the always-on registers, notes its cause, and holds the cores until the repair record is restored. A record
write that a reset cuts short leaves its copy invalid (log 17). A loss of the link fails the outstanding requests of tasks, rings
and apertures; at DL_Up the requests that have waited leave in their order. -/
def Obligations.Resets : Prop :=
  let flashKept (s t : State) : Prop :=
    let copy (u : State) (b : Bool) := if b then u.flash1 else u.flash0
    (s.recordWrite = none → t.flash0 = s.flash0 ∧ t.flash1 = s.flash1) ∧
      (s.recordWrite.isSome = true → copy t s.recordTarget = none ∧ copy t (! s.recordTarget) = copy s (! s.recordTarget))
  (∀ s : State, (∃ t, exec .powerOn s = .next t ∧ t.mem = [] ∧ t.memGen = s.freeCtr + 1 ∧ t.tasks = [] ∧ t.drt = [] ∧
      t.startup = .checks ∧ t.checksAt = s.cycle ∧ t.power = .active ∧ t.powered = true ∧ t.pending = s.pending ∧ t.out = s.out ∧
      (∀ o, o ∉ R.cpRecord :: imageRegs → t.reg o = resetWord o) ∧ (∀ o, o ∈ imageRegs → t.reg o = s.reg o) ∧ flashKept s t) ∧
    (∃ t, exec .powerRemoved s = .next t ∧ t.mem = [] ∧ t.memGen = s.freeCtr + 1 ∧ t.tasks = [] ∧ t.power = .off ∧
      t.powered = false ∧ flashKept s t)) ∧
  (∀ (s : State) (c : Instr) (cause : Nat),
    ((c = .hotReset ∧ cause = 29) ∨ (c = .functionLevelReset ∧ cause = 28) ∨ (c = .perstAssert ∧ cause = 27) ∨
      (c = .linkLossTimeout ∧ cause = 30 ∧ s.linkDown = true ∧ 16000 < s.linkDownCycles ∧ s.linkDownCycles < lossTaken)) →
    (s.powered = true → s.power ≠ .off → ∃ t, exec c s = .next t ∧ t.tasks = [] ∧ t.drt = [] ∧ t.mq = MqRun.empty ∧
      t.power = .active ∧ t.restoring = true ∧ t.checksAt = s.cycle ∧ t.bit R.rstCause cause = true ∧
      t.reg R.rstCount = satAdd (s.reg R.rstCount) 1 ∧ t.bit R.pwCoreHold 31 = true ∧ t.bit R.pwStatus 31 = true ∧
      t.tbReady = false ∧ t.gtc = s.gtc ∧ t.pending = s.pending ∧ flashKept s t ∧
      (∀ a, (∀ x, x ∈ s.lostCells → x.1 ≠ a) → t.readByte a = s.readByte a) ∧
      (∀ q, q < 1024 → t.bit (R.sqCfg q) 31 = false) ∧ t.reg R.strStep = 0) ∧
    ((s.powered = false ∨ s.power = .off) → exec c s = .next s)) ∧
  (∀ s : State, (s.linkDown = false ∨ s.linkDownCycles ≤ 16000) → exec .linkLossTimeout s = .next s) ∧
  (∀ s : State, s.restoring = true → ∃ t, exec .selfResetRestoreDone s = .next t ∧ t.restoring = false ∧
    (∀ e, e < 68 → t.reg (R.engStatus e) = engineWord s.record e) ∧
    (s.bit R.pwStatus 28 = false → s.bit R.stStatus 31 = true → s.bit R.stStatus 30 = true → t.startup = .paused) ∧
    (s.bit R.pwStatus 28 = false → s.bit R.stStatus 31 = true → s.bit R.stStatus 30 = false → t.startup = .stopped) ∧
    (s.bit R.pwStatus 28 = false → s.bit R.stStatus 31 = false → t.startup = .checks) ∧
    t.tasks = s.tasks ∧ s.sameMem t) ∧
  (∀ s : State, s.restoring = false → exec .selfResetRestoreDone s = .next s) ∧
  (∀ s : State,
    (s.linkDown = false → ∃ t, exec .hostLinkDown s = .next t ∧ t.linkDown = true ∧ t.linkDownCycles = 0 ∧ t.apLoads = [] ∧
      (∀ l, l ∈ s.apLoads → .coreData l.core (List.replicate l.len 0) ∈ t.out) ∧
      (∀ q, q < 1024 → (t.sq q).stale = [] ∧ ((s.sq q).outstanding = true → s.sqHost q = true → t.sqMode q = 3 ∧
        t.fld (R.sqErr q) 16 16 = St.host.toNat)) ∧
      (∀ y, s.tasks = [y] → y.phase = .running → y.hostLast.isSome = true → y.flushed = false → y.issueQ = [] →
        y.flushing = false → isQueueTask (entryOpcode y.entry) = false →
        ∃ z, t.task y.ref = some z ∧ z.status = St.host ∧ (z.phase = .failing ∨ z.phase = .finished))) ∧
    (s.linkDown = true → exec .hostLinkDown s = .next s) ∧
    (s.linkDown = true → exec .hostLinkUp s = .next { s with
      linkDown := false, linkDownCycles := 0, linkUpAt := s.cycle, out := s.hostHeld.reverse ++ s.out, hostHeld := [] }) ∧
    (s.linkDown = false → exec .hostLinkUp s = .next s))

/-- R382 to R392: the start-up checks leave start-up paused where an image verifies and every stack passes, and stopped where not;
PAD_RELEASE continues it, and after its end tier B serves, READY is set and every port is out of retry service; the core hold is
released only then. An idle block enters Idle-gated after IDLE_US; entry ends in the state it was on the way to, after its time, and
a wake source below Active starts a recorded wake, whose end, after its delay, makes the held accesses in their order. -/
def Obligations.StartupAndPower : Prop :=
  (∀ (r : BootResult) (s : State),
    (s.startup = .checks → s.restoring = false → s.powered = true →
      (∀ image, bootImage (s.bit R.cpBoot 0) r.imageAOk r.imageBOk = some image →
        ∃ t, exec (.startupChecksDone r) s = .next t ∧ t.reg R.stStatus = BitVec.ofNat 32 (stackWord r.stackChecks) ∧
          t.runningImage = image ∧ t.stackIds = r.identities ∧
          ((∀ n, n < 8 → (r.stackChecks.getD n 0).val = 0) → t.startup = .paused) ∧
          ((∃ n, n < 8 ∧ (r.stackChecks.getD n 0).val ≠ 0) → t.startup = .stopped) ∧ t.tasks = s.tasks ∧ s.sameMem t) ∧
      (bootImage (s.bit R.cpBoot 0) r.imageAOk r.imageBOk = none →
        ∃ t, exec (.startupChecksDone r) s = .next t ∧ t.bit R.pwStatus 28 = true ∧ t.startup = .stopped ∧ t.cpRuns = false ∧
          t.tasks = s.tasks ∧ s.sameMem t)) ∧
    ((s.startup ≠ .checks ∨ s.restoring = true ∨ s.powered = false) → exec (.startupChecksDone r) s = .next s)) ∧
  (∀ (src : Requester) (v : Word) (s : State),
    (s.takesWrite src R.padRelease →
      (getField v 0 1 = 1 → s.bit R.pwStatus 31 = true →
        (s.startup = .paused → ∃ t, exec (.padRelease src v) s = .next t ∧ t.bit R.pwStatus 31 = false ∧
          t = { s with regs := t.regs, startup := .continuing, padAt := s.cycle } ∧ s.regsBut t [R.pwStatus]) ∧
        (s.startup = .done → ∃ t, exec (.padRelease src v) s = .next t ∧ t.bit R.pwStatus 31 = false ∧
          t = { s with regs := t.regs, padExit := true, padAt := s.cycle } ∧ s.regsBut t [R.pwStatus]) ∧
        (s.startup = .checks → exec (.padRelease src v) s = .next s)) ∧
      ((getField v 0 1 = 0 ∨ s.bit R.pwStatus 31 = false) → exec (.padRelease src v) s = .next s)) ∧
    (s.below = true → (src ≠ .host → exec (.padRelease src v) s = .next s) ∧
      (src = .host → exec (.padRelease src v) s = .next (s.hold (.reg .host R.padRelease (leBytes 4 v.toNat))))) ∧
    (s.takesWrite src R.pwCoreHold →
      (getField v 0 1 = 1 → s.bit R.pwStatus 29 = true → ∃ t, exec (.coreHoldRelease src v) s = .next t ∧
        t.bit R.pwCoreHold 31 = false ∧ s.onlyRegs t [R.pwCoreHold]) ∧
      ((getField v 0 1 = 0 ∨ s.bit R.pwStatus 29 = false) → exec (.coreHoldRelease src v) s = .next s))) ∧
  (∀ (trained rows : List Bool) (s : State),
    (s.startup = .continuing → (s.coldStart = true ∨ s.padAt + 3200 ≤ s.cycle) →
      ∃ u t : State, exec (.startupContinuationDone trained rows) s = .next t ∧ u.startup = .done ∧
        u.coldStart = false ∧ u.tbReady = true ∧ u.bit R.pwStatus 29 = true ∧ (∀ n, n < 48 → u.retryService n = false) ∧
        u.padWait = s.padWait ∧ t = (u.padWait.foldl State.replay { u with padWait := [] }).serveEndpoints ∧
        (s.padWait = [] → t.startup = .done ∧ t.coldStart = false ∧ t.tbReady = true ∧ t.bit R.pwStatus 29 = true ∧
          ∀ n, n < 48 → t.retryService n = false)) ∧
    ((s.startup ≠ .continuing ∨ (s.coldStart = false ∧ s.cycle < s.padAt + 3200)) →
      exec (.startupContinuationDone trained rows) s = .next s)) ∧
  (∀ s : State,
    (s.padExit = true → s.padAt + 3200 ≤ s.cycle → ∃ u t : State, exec .selfRefreshExit s = .next t ∧ u.padExit = false ∧
      u.tbReady = true ∧ (∀ b, b < 9 → u.bit (R.tbSiteStatus b) 28 = decide (s.siteState b = 2)) ∧ u.padWait = s.padWait ∧
      t = (u.padWait.foldl State.replay { u with padWait := [] }).serveEndpoints ∧
      (s.padWait = [] → t.padExit = false ∧ t.tbReady = true)) ∧
    ((s.padExit = false ∨ s.cycle < s.padAt + 3200) → exec .selfRefreshExit s = .next s)) ∧
  (∀ s : State,
    (s.bit R.pwCfg 31 = true → s.below = false → s.isIdle = true → s.fld R.pwCfg 0 16 * 1600 ≤ s.idleCycles →
      exec .autoIdleExpiry s = .next { s with
        entering := some .idleGated, powerAt := s.cycle, idleCycles := 0, mq := { s.mq with powerTo := none } }) ∧
    ((s.bit R.pwCfg 31 = false ∨ s.below = true ∨ s.isIdle = false ∨ s.idleCycles < s.fld R.pwCfg 0 16 * 1600) →
      exec .autoIdleExpiry s = .next s)) ∧
  (∀ (s : State) (p : PState) (n : Nat), s.entering = some p →
    (p, n) ∈ [(PState.idleGated, 6400), (.bankHold, 16000), (.retention, 80000), (.off, 3200000)] →
    ((s.linesDone = false ∨ s.cycle < s.powerAt + n) → exec .powerEntryComplete s = .next s) ∧
    (s.linesDone = true → s.powerAt + n ≤ s.cycle →
      (p ≠ .off → s.latchedWake = none → exec .powerEntryComplete s = .next { s with entering := none, power := p }) ∧
      (p = .off → ∃ t, exec .powerEntryComplete s = .next t ∧ t.power = .off ∧ t.mem = [] ∧ t.memGen = s.freeCtr + 1 ∧
        t.tasks = [] ∧ t.entering = none ∧ t.gtc = s.gtc ∧ (s.latchedWake = none → t.waking = none) ∧
        (∀ w, s.latchedWake = some w → t.waking = some .off ∧ t.powerAt = s.cycle ∧ t.bit R.rstCause 26 = true)) ∧
      (∀ w, p ≠ .off → s.latchedWake = some w → w.time < 2 ^ 64 → ∃ t, exec .powerEntryComplete s = .next t ∧
        t.entering = none ∧ t.power = p ∧ t.waking = some p ∧ t.powerAt = s.cycle ∧ t.latchedWake = none ∧
        t.bit R.pwWake 31 = true ∧ t.fld R.pwWake 28 3 = (wakeCode w.source).1 ∧ t.fld R.pwWake 25 3 = powerNumber p ∧
        t.reg64 R.pwWakeTimeLo = w.time ∧ t.tasks = s.tasks ∧ s.sameMem t))) ∧
  (∀ (w : WakeSource) (held : List HeldAccess) (s : State), s.powered = true →
    (s.power ≠ .active → s.entering = none → s.waking = none → wakes s.power w = true →
      ∃ t, exec (.wakeEvent w held) s = .next t ∧ t.waking = some s.power ∧ t.powerAt = s.cycle ∧ t.bit R.pwWake 31 = true ∧
        t.fld R.pwWake 28 3 = (wakeCode w).1 ∧ t.fld R.pwWake 25 3 = powerNumber s.power ∧
        t.reg64 R.pwWakeTimeLo = s.gtc ∧ t.reg R.pwWakeDetail = BitVec.ofNat 32 (wakeCode w).2 ∧
        (s.power = .off → t.bit R.rstCause 26 = true) ∧ s.wakeBuf <+: t.wakeBuf ∧ t.tasks = s.tasks ∧ s.sameMem t) ∧
    (∀ p, s.entering = some p → wakes p w = true → s.latchedWake = none → ∃ t, exec (.wakeEvent w held) s = .next t ∧
      t = { s with wakeBuf := t.wakeBuf, latchedWake := some { source := w, at_ := s.cycle, time := s.gtc } } ∧
      s.wakeBuf <+: t.wakeBuf) ∧
    (s.entering = none → s.waking.isSome = true → s.wakeSeen ≠ s.cycle → ∃ t, exec (.wakeEvent w held) s = .next t ∧
      t = { s with wakeBuf := t.wakeBuf } ∧ s.wakeBuf <+: t.wakeBuf)) ∧
  (∀ (w : WakeSource) (held : List HeldAccess) (s : State), (s.below = false ∨ s.powered = false) →
    exec (.wakeEvent w held) s = .next s) ∧
  (∀ (s : State) (p : PState) (n : Nat), s.waking = some p →
    (p, n) ∈ [(PState.idleGated, 3200), (.bankHold, 28800), (.retention, 1920000), (.off, 400000000)] →
    (s.cycle < s.powerAt + n → exec .wakeComplete s = .next s) ∧
    (s.powerAt + n ≤ s.cycle →
      exec .wakeComplete s = .next ((s.wakeBuf.foldl State.forward
        { s with waking := none, power := .active, idleCycles := 0, wakeBuf := [] }).serveEndpoints) ∧
      (s.wakeBuf = [] → ∃ t, exec .wakeComplete s = .next t ∧ t.waking = none ∧ t.power = .active ∧ t.wakeBuf = [] ∧
        t.tasks = s.tasks ∧ s.sameMem t)))

/-! ### Service and repair (R395 to R409) -/

/-- R397, R398, R405, R406, R408, R409: a lane remap takes its port out of service until it has drained and retrained, and is
refused for a port already out or a spare in use; a remap that does not train leaves the lanes as they were. The spare
control-core pair is switched in only while the pair in use has halted, and the queue pair is then disabled. A record write that
reads back is the copy in use; one that does not leaves its copy invalid (log 17). A failing row of tier A enters the record once. -/
def Obligations.ServiceAndRepair : Prop :=
  (∀ (src : Requester) (p : Fin 32) (v : Word) (s : State) (c : Instr), s.takesWrite src (R.feLaneCtl p) →
    (c = .laneRemap src p v ∨ c = .laneRestore src p v) →
    (getField v 31 1 = 0 → exec c s = .next s) ∧
    (getField v 31 1 = 1 → s.laneRefused p (getField v 30 1) (getField v 0 3) = true → ∃ t, exec c s = .next t ∧
      t.bit (R.feLaneStatus p) 23 = true ∧ s.onlyRegs t [R.feLaneStatus p]) ∧
    (getField v 31 1 = 1 → s.laneRefused p (getField v 30 1) (getField v 0 3) = false → ∃ t, exec c s = .next t ∧
      t.bit (R.feLaneStatus p) 0 = true ∧ t.bit (R.feLaneStatus p) 1 = false ∧ t.draining.contains p.val = true ∧
      t = { s with regs := t.regs, draining := t.draining } ∧ s.regsBut t [R.feLaneStatus p, R.feLaneCtl p])) ∧
  (∀ (p : Fin 32) (s : State),
    (s.bit (R.feLaneStatus p) 0 = true → s.draining.contains p.val = false →
      (s.bit (R.feLaneCtl p) 29 = false → ∃ t, exec (.laneRemapDone p true) s = .next t ∧
        t.bit (R.feLaneStatus p) 0 = false ∧ t.bit (R.feLaneStatus p) 1 = true ∧
        s.onlyRegs t [R.feLaneStatus p, R.feLaneCtl p]) ∧
      (s.bit (R.feLaneCtl p) 29 = true → s.recordWrite = none → ∃ t r, exec (.laneRemapDone p true) s = .next t ∧
        t.bit (R.feLaneStatus p) 0 = false ∧ t.bit (R.feLaneStatus p) 1 = true ∧ t.recordWrite = some r ∧
        r.seq = s.record.seq + 1 ∧ r.laneTx = t.record.laneTx ∧ r.laneRx = t.record.laneRx) ∧
      (∃ t, exec (.laneRemapDone p false) s = .next t ∧ t.bit (R.feLaneStatus p) 0 = false ∧
        t.bit (R.feLaneStatus p) 1 = false ∧ t.bit (R.feLaneStatus p) 22 = true ∧
        t.fld (R.feLaneStatus p) (laneField (s.fld (R.feLaneCtl p) 30 1)) 4 = s.fld (R.feLaneCtl p) 3 4 ∧
        s.onlyRegs t [R.feLaneStatus p, R.feLaneCtl p])) ∧
    (∀ trained, (s.bit (R.feLaneStatus p) 0 = false ∨ s.draining.contains p.val = true) →
      exec (.laneRemapDone p trained) s = .next s)) ∧
  (∀ (src : Requester) (v : Word) (s : State), s.takesWrite src R.cpPair →
    (getField v 0 1 = 1 → s.cpRuns = false → s.bit R.cpPair 31 = false → ∃ t, exec (.cpPairSwitch src v) s = .next t ∧
      t.bit R.cpPair 0 = true ∧ s.onlyRegs t [R.cpPair]) ∧
    ((getField v 0 1 = 0 ∨ s.cpRuns = true ∨ s.bit R.cpPair 31 = true) → exec (.cpPairSwitch src v) s = .next s)) ∧
  (∀ (aOk bOk : Bool) (s : State),
    (s.bit R.cpPair 0 = true →
      (∀ image, bootImage (s.bit R.cpBoot 0) aOk bOk = some image → ∃ t, exec (.sparePairReady aOk bOk) s = .next t ∧
        t.bit R.cpPair 31 = true ∧ t.bit R.cpPair 0 = false ∧ t.bit R.mqState 29 = ! s.bit R.mqState 29 ∧
        t.runningImage = image ∧ t.mqMode = 0 ∧ t.mqEn = false ∧ t.reg R.mqPending = 0 ∧ t.mq.cur = none ∧
        t.mq.replies = [] ∧ t.evac = none ∧ t.record.pair = boolBit (! s.bit R.mqState 29) ∧ t.tasks = s.tasks ∧
        s.sameMem t) ∧
      (bootImage (s.bit R.cpBoot 0) aOk bOk = none → ∃ t, exec (.sparePairReady aOk bOk) s = .next t ∧
        t.bit R.pwStatus 28 = true ∧ s.onlyRegs t [R.cpPair, R.pwStatus])) ∧
    (s.bit R.cpPair 0 = false → exec (.sparePairReady aOk bOk) s = .next s)) ∧
  (∀ (s : State) (r : RepairRecord), s.recordWrite = some r →
    let copy (t : State) (b : Bool) := if b then t.flash1 else t.flash0
    (s.recordDirty = false →
      (∃ t, exec (.repairRecordWriteDone true) s = .next t ∧ copy t s.recordTarget = some r ∧
        copy t (! s.recordTarget) = copy s (! s.recordTarget) ∧ t.bit R.cpRecord 31 = true ∧
        t.bit R.cpRecord 28 = s.recordTarget ∧ t.reg R.cpRecordSeq = r.seq ∧ t.recordWrite = none ∧
        t.bit R.cpRecord 27 = false) ∧
      (∃ t, exec (.repairRecordWriteDone false) s = .next t ∧ copy t s.recordTarget = none ∧
        copy t (! s.recordTarget) = copy s (! s.recordTarget) ∧ t.bit R.cpRecord 29 = true ∧ t.recordWrite = none ∧
        t.bit R.cpRecord 27 = false)) ∧
    (s.recordDirty = true → ∃ t x, exec (.repairRecordWriteDone true) s = .next t ∧ copy t s.recordTarget = some r ∧
      t.recordWrite = some x ∧ x.seq = r.seq + 1 ∧ t.recordDirty = false ∧ t.bit R.cpRecord 27 = true)) ∧
  (∀ (ok : Bool) (s : State), s.recordWrite = none → exec (.repairRecordWriteDone ok) s = .next s) ∧
  (∀ (stack : Fin 8) (pc bank row : Nat) (s : State),
    let e : RowEntry := { kind := 0, unit := stack, state := 0, dev := pc, serial := 0, bank := bank, row := row % 2 ^ 18 }
    (s.cpRuns = true → (∀ x, x ∈ s.record.rows → ({ x with state := 0 } : RowEntry) ≠ e) → s.record.rows.length < 4079 →
      ∃ t, exec (.tierARowReport stack pc bank row) s = .next t ∧ t.record.rows = s.record.rows ++ [e] ∧
        t.recordWrite.isSome = true ∧ t.tasks = s.tasks ∧ s.sameMem t) ∧
    ((∃ x, x ∈ s.record.rows ∧ ({ x with state := 0 } : RowEntry) = e) → exec (.tierARowReport stack pc bank row) s = .next s) ∧
    (s.cpRuns = false → exec (.tierARowReport stack pc bank row) s = .next s))
end

