-- ==== Sys2Proof/Laws/Sparse.lean ====
section
/-!
SUPPORT. Laws of sparse data: what a write makes its key read as, that it leaves every other key alone, and that it
keeps the canonical form.
-/
namespace Sys2Proof.Machine

variable {α : Type}

/-! ### Reads after a write -/

theorem sget_cons (d : Nat → α) (p : Nat × α) (t : SMap α) (k : Nat) :
    sget d (p :: t) k = if k = p.1 then p.2 else sget d t k :=
  rfl

theorem sget_serase_self (d : Nat → α) (m : SMap α) (k : Nat) : sget d (serase m k) k = d k := by
  induction m with
  | nil => rfl
  | cons p t ih =>
    unfold serase at ih ⊢
    by_cases h : p.1 = k
    · simpa [List.filter_cons, h] using ih
    · simp only [List.filter_cons, ne_eq, h, not_false_eq_true, decide_true, if_true, sget_cons, Ne.symm h, if_false]
      exact ih

theorem sget_serase_ne (d : Nat → α) (m : SMap α) {k j : Nat} (hj : j ≠ k) : sget d (serase m k) j = sget d m j := by
  induction m with
  | nil => rfl
  | cons p t ih =>
    unfold serase at ih ⊢
    by_cases h : p.1 = k
    · simpa [List.filter_cons, h, sget_cons, hj] using ih
    · simp only [List.filter_cons, ne_eq, h, not_false_eq_true, decide_true, if_true, sget_cons]
      rw [ih]

theorem sget_sinsert_self (d : Nat → α) (m : SMap α) (k : Nat) (v : α) (h : ∀ p ∈ m, p.1 ≠ k) :
    sget d (sinsert m k v) k = v := by
  induction m with
  | nil => simp [sinsert, sget]
  | cons p t ih =>
    obtain ⟨k', v'⟩ := p
    have hk : k' ≠ k := h (k', v') (by simp)
    unfold sinsert
    split
    · simp [sget]
    · simp only [sget_cons, Ne.symm hk, if_false]
      exact ih (fun p hp => h p (List.mem_cons_of_mem _ hp))

theorem sget_sinsert_ne (d : Nat → α) (m : SMap α) {k j : Nat} (v : α) (hj : j ≠ k) :
    sget d (sinsert m k v) j = sget d m j := by
  induction m with
  | nil => simp [sinsert, sget, hj]
  | cons p t ih =>
    obtain ⟨k', v'⟩ := p
    unfold sinsert
    split
    · simp [sget, hj]
    · simp only [sget_cons]
      rw [ih]

theorem serase_ne (m : SMap α) (k : Nat) : ∀ p ∈ serase m k, p.1 ≠ k := by
  intro p hp
  simpa using (List.mem_filter.mp hp).2

/-- A key reads as what was last written to it. -/
@[simp] theorem sget_sset_self [DecidableEq α] (d : Nat → α) (m : SMap α) (k : Nat) (v : α) :
    sget d (sset d m k v) k = v := by
  unfold sset
  split
  · rename_i h
    rw [sget_serase_self, h]
  · exact sget_sinsert_self d _ k v (serase_ne m k)

/-- A write leaves every other key alone. -/
@[simp] theorem sget_sset_ne [DecidableEq α] (d : Nat → α) (m : SMap α) {k j : Nat} (v : α) (hj : j ≠ k) :
    sget d (sset d m k v) j = sget d m j := by
  unfold sset
  split
  · exact sget_serase_ne d m hj
  · rw [sget_sinsert_ne d _ v hj, sget_serase_ne d m hj]

theorem sget_sset [DecidableEq α] (d : Nat → α) (m : SMap α) (k j : Nat) (v : α) :
    sget d (sset d m k v) j = if j = k then v else sget d m j := by
  by_cases h : j = k
  · subst h; simp
  · simp [h]

/-! ### The canonical form -/

theorem ssorted_iff (m : SMap α) : ssorted m = true ↔ List.Pairwise (fun p q => p.1 < q.1) m := by
  induction m with
  | nil => simp [ssorted]
  | cons p t ih =>
    cases t with
    | nil => simp [ssorted]
    | cons q t =>
      obtain ⟨k, v⟩ := p
      obtain ⟨k', v'⟩ := q
      simp only [ssorted, Bool.and_eq_true, decide_eq_true_eq, ih]
      constructor
      · rintro ⟨h, hp⟩
        refine List.pairwise_cons.mpr ⟨fun x hx => ?_, hp⟩
        rcases List.mem_cons.mp hx with rfl | hx
        · exact h
        · exact Nat.lt_trans h ((List.pairwise_cons.mp hp).1 x hx)
      · intro hp
        obtain ⟨h1, h2⟩ := List.pairwise_cons.mp hp
        exact ⟨h1 (k', v') (by simp), h2⟩

theorem mem_sinsert (m : SMap α) (k : Nat) (v : α) (p : Nat × α) (hp : p ∈ sinsert m k v) : p = (k, v) ∨ p ∈ m := by
  induction m with
  | nil => simpa [sinsert] using hp
  | cons q t ih =>
    obtain ⟨k', v'⟩ := q
    unfold sinsert at hp
    split at hp
    · simpa using hp
    · rcases List.mem_cons.mp hp with rfl | hp
      · simp
      · rcases ih hp with h | h
        · exact .inl h
        · exact .inr (List.mem_cons_of_mem _ h)

theorem sinsert_sorted (m : SMap α) (k : Nat) (v : α) (hm : List.Pairwise (fun p q => p.1 < q.1) m)
    (hk : ∀ p ∈ m, p.1 ≠ k) : List.Pairwise (fun p q => p.1 < q.1) (sinsert m k v) := by
  induction m with
  | nil => simp [sinsert]
  | cons q t ih =>
    obtain ⟨k', v'⟩ := q
    obtain ⟨h1, h2⟩ := List.pairwise_cons.mp hm
    unfold sinsert
    split
    · rename_i hlt
      refine List.pairwise_cons.mpr ⟨fun x hx => ?_, hm⟩
      rcases List.mem_cons.mp hx with rfl | hx
      · exact hlt
      · exact Nat.lt_trans hlt (h1 x hx)
    · rename_i hge
      refine List.pairwise_cons.mpr ⟨fun x hx => ?_, ih h2 (fun p hp => hk p (List.mem_cons_of_mem _ hp))⟩
      rcases mem_sinsert t k v x hx with rfl | hx
      · have : k' ≠ k := hk (k', v') (by simp)
        show k' < k
        omega
      · exact h1 x hx

/-- A write keeps the canonical form. -/
theorem swf_sset [DecidableEq α] (d : Nat → α) (m : SMap α) (k : Nat) (v : α) (h : swf d m = true) :
    swf d (sset d m k v) = true := by
  unfold swf at h ⊢
  rw [Bool.and_eq_true, ssorted_iff] at h ⊢
  obtain ⟨hs, hm⟩ := h
  have es : List.Pairwise (fun p q => p.1 < q.1) (serase m k) := List.Pairwise.filter _ hs
  have em : sminimal d (serase m k) = true := by
    unfold sminimal at hm ⊢
    rw [List.all_eq_true] at hm ⊢
    exact fun p hp => hm p (List.mem_filter.mp hp).1
  unfold sset
  split
  · exact ⟨es, em⟩
  · rename_i hv
    refine ⟨sinsert_sorted _ k v es (serase_ne m k), ?_⟩
    unfold sminimal at em ⊢
    rw [List.all_eq_true] at em ⊢
    intro p hp
    rcases mem_sinsert _ k v p hp with rfl | hp
    · exact decide_eq_true hv
    · exact em p hp

/-- The empty map is in canonical form. -/
@[simp] theorem swf_nil [DecidableEq α] (d : Nat → α) : swf d ([] : SMap α) = true := rfl

end Sys2Proof.Machine
end

