-- ==== Sys2Proof/Laws/Memory.lean ====
section
/-!
SUPPORT. Laws of local memory: every operation keeps the canonical form, a store makes its bytes read as what was stored,
and leaves every other byte alone.
-/
namespace Sys2Proof.Machine

open Sys2Proof

/-! ### The canonical form -/

theorem memPut_wf (g : Nat) (m : SMap Byte) (a : Nat) (b : Byte) (h : Memory.wf g m = true) : Memory.wf g (memPut g m a b) = true :=
  swf_sset _ _ _ _ h

theorem memPutAll_wf (g : Nat) (bs : List Byte) (m : SMap Byte) (a : Nat) (h : Memory.wf g m = true) :
    Memory.wf g (memPutAll g m a bs) = true := by
  induction bs generalizing m a with
  | nil => exact h
  | cons b t ih => exact ih _ _ (memPut_wf _ _ _ _ h)

theorem memPutCells_wf (g : Nat) (cs : List WCell) (m : SMap Byte) (h : Memory.wf g m = true) :
    Memory.wf g (memPutCells g m cs) = true := by
  induction cs generalizing m with
  | nil => exact h
  | cons b t ih => exact ih _ (memPut_wf _ _ _ _ h)

/-! ### Reads after a store -/

/-- A byte outside a store keeps its value. -/
theorem memPutAll_other (g : Nat) (bs : List Byte) (m : SMap Byte) (a x : Nat) (h : x < a ∨ a + bs.length ≤ x) :
    sget (memDefault g) (memPutAll g m a bs) x = sget (memDefault g) m x := by
  induction bs generalizing m a with
  | nil => rfl
  | cons b t ih =>
    simp only [List.length_cons] at h
    unfold memPutAll
    rw [ih _ _ (by omega)]
    exact sget_sset_ne _ _ _ (by omega)

/-- A stored byte reads as what was stored. -/
theorem memPutAll_self (g : Nat) (bs : List Byte) (m : SMap Byte) (a i : Nat) (hi : i < bs.length) :
    sget (memDefault g) (memPutAll g m a bs) (a + i) = bs[i] := by
  induction bs generalizing m a i with
  | nil => exact absurd hi (Nat.not_lt_zero _)
  | cons b t ih =>
    unfold memPutAll
    cases i with
    | zero =>
      rw [memPutAll_other _ _ _ _ _ (by omega)]
      exact sget_sset_self _ _ _ _
    | succ i =>
      have := ih (memPut g m a b) (a + 1) i (by simpa using hi)
      simpa [Nat.add_assoc, Nat.add_comm 1 i] using this

/-- A byte that no cell names keeps its value. -/
theorem memPutCells_other (g : Nat) (cs : List WCell) (m : SMap Byte) (x : Nat) (h : ∀ c ∈ cs, c.addr % 2 ^ 48 ≠ x) :
    sget (memDefault g) (memPutCells g m cs) x = sget (memDefault g) m x := by
  induction cs generalizing m with
  | nil => rfl
  | cons c t ih =>
    unfold memPutCells
    rw [ih _ (fun c hc => h c (List.mem_cons_of_mem _ hc))]
    exact sget_sset_ne _ _ _ (Ne.symm (h c (by simp)))

/-! ### The register file -/

theorem State.reg_setReg (s : State) (off o : Nat) (v : Word) :
    (s.setReg off v).reg o = if o = off then v else s.reg o :=
  sget_sset _ _ _ _ _

@[simp] theorem State.reg_setReg_self (s : State) (off : Nat) (v : Word) : (s.setReg off v).reg off = v :=
  sget_sset_self _ _ _ _

@[simp] theorem State.reg_setReg_ne (s : State) {off o : Nat} (v : Word) (h : o ≠ off) : (s.setReg off v).reg o = s.reg o :=
  sget_sset_ne _ _ _ h

theorem State.reg_setFld_ne (s : State) {off o : Nat} (lo n v : Nat) (h : o ≠ off) : (s.setFld off lo n v).reg o = s.reg o :=
  sget_sset_ne _ _ _ h

theorem State.reg_setBit_ne (s : State) {off o : Nat} (i : Nat) (b : Bool) (h : o ≠ off) : (s.setBit off i b).reg o = s.reg o :=
  sget_sset_ne _ _ _ h

theorem State.reg_bump_ne (s : State) {off o : Nat} (n : Nat) (h : o ≠ off) : (s.bump off n).reg o = s.reg o :=
  sget_sset_ne _ _ _ h

theorem State.reg_setReg64_ne (s : State) {off o : Nat} (v : Nat) (h : o ≠ off) (h4 : o ≠ off + 4) :
    (s.setReg64 off v).reg o = s.reg o := by
  unfold State.setReg64
  rw [State.reg_setReg_ne _ _ h4, State.reg_setReg_ne _ _ h]

/-- A pair reads as the number it was given, modulo 2^64. -/
theorem State.reg64_setReg64 (s : State) (off v : Nat) : (s.setReg64 off v).reg64 off = v % 2 ^ 64 := by
  unfold State.reg64 State.setReg64
  rw [State.reg_setReg_self, State.reg_setReg_ne _ _ (by omega), State.reg_setReg_self, BitVec.toNat_ofNat, BitVec.toNat_ofNat]
  omega

/-- The bytes of a little-endian number are its bytes. -/
theorem leBytes_leNat (l : List Byte) : leBytes l.length (leNat l) = l := by
  induction l with
  | nil => rfl
  | cons b l ih =>
    have hb := b.isLt
    have h1 : (b.toNat + 256 * leNat l) / 256 = leNat l := by omega
    have h2 : BitVec.ofNat 8 (b.toNat + 256 * leNat l) = b := by
      apply BitVec.eq_of_toNat_eq
      rw [BitVec.toNat_ofNat]
      omega
    simp only [List.length_cons, leNat, leBytes, h1, h2, ih]

@[simp] theorem leBytes_length (n v : Nat) : (leBytes n v).length = n := by
  induction n generalizing v with
  | zero => rfl
  | succ n ih => simp only [leBytes, List.length_cons, ih]

end Sys2Proof.Machine
end

