-- ==== Sys2Proof/Laws/Fields.lean ====
section
/-!
SUPPORT. Laws of bit fields: a field given a value reads as it, and every other field keeps its own; the same for the
fields of registers.
-/
namespace Sys2Proof.Machine

open Sys2Proof

theorem testBit_getField (w : Word) (lo n j : Nat) : (getField w lo n).testBit j = (decide (j < n) && w.getLsbD (lo + j)) := by
  unfold getField
  rw [Nat.testBit_mod_two_pow, Nat.testBit_div_two_pow, ← BitVec.testBit_toNat, Nat.add_comm]

theorem testBit_fieldMask (lo n i : Nat) (hi : i < 32) : (fieldMask lo n).getLsbD i = decide (lo ≤ i ∧ i < lo + n) := by
  unfold fieldMask
  rw [BitVec.getLsbD_ofNat, Nat.testBit_mul_two_pow, Nat.testBit_two_pow_sub_one]
  simp only [hi, decide_true, Bool.true_and]
  by_cases h : lo ≤ i
  · simp only [h, true_and, decide_true, Bool.true_and]
    exact decide_eq_decide.mpr (by omega)
  · simp [h]

theorem getLsbD_putField (w : Word) (lo n v i : Nat) (hi : i < 32) :
    (putField w lo n v).getLsbD i = if lo ≤ i ∧ i < lo + n then v.testBit (i - lo) else w.getLsbD i := by
  unfold putField
  rw [BitVec.getLsbD_or, BitVec.getLsbD_and, BitVec.getLsbD_not, testBit_fieldMask _ _ _ hi, BitVec.getLsbD_ofNat,
    Nat.testBit_mul_two_pow, Nat.testBit_mod_two_pow]
  by_cases h : lo ≤ i
  · by_cases h2 : i < lo + n
    · have h3 : i - lo < n := by omega
      simp [h, h2, h3, hi]
    · have h3 : ¬ i - lo < n := by omega
      simp [h, h2, h3, hi]
  · simp [h, hi]

/-- A field given a value reads as it, modulo its width. -/
theorem getField_putField_self (w : Word) (lo n v : Nat) (h : lo + n ≤ 32) : getField (putField w lo n v) lo n = v % 2 ^ n := by
  apply Nat.eq_of_testBit_eq
  intro j
  rw [testBit_getField, Nat.testBit_mod_two_pow]
  by_cases hj : j < n
  · rw [getLsbD_putField _ _ _ _ _ (by omega), if_pos (by omega)]
    simp
  · simp [hj]

/-- A field that shares no bit with the one written keeps its value. -/
theorem getField_putField_other (w : Word) (lo n v lo' n' : Nat) (h : lo' + n' ≤ lo ∨ lo + n ≤ lo') :
    getField (putField w lo n v) lo' n' = getField w lo' n' := by
  apply Nat.eq_of_testBit_eq
  intro j
  rw [testBit_getField, testBit_getField]
  by_cases hj : j < n'
  · by_cases hi : lo' + j < 32
    · rw [getLsbD_putField _ _ _ _ _ hi, if_neg (by omega)]
    · rw [BitVec.getLsbD_of_ge _ _ (by omega), BitVec.getLsbD_of_ge _ _ (by omega)]
  · simp [hj]

/-! ### Fields of registers -/

theorem State.fld_setReg_self (s : State) (off lo n : Nat) (v : Word) : (s.setReg off v).fld off lo n = getField v lo n := by
  unfold State.fld
  rw [State.reg_setReg_self]

theorem State.fld_setReg_ne (s : State) {off o : Nat} (lo n : Nat) (v : Word) (h : o ≠ off) :
    (s.setReg off v).fld o lo n = s.fld o lo n := by
  unfold State.fld
  rw [State.reg_setReg_ne _ _ h]

theorem State.fld_setFld_self (s : State) (off lo n v : Nat) (h : lo + n ≤ 32) : (s.setFld off lo n v).fld off lo n = v % 2 ^ n := by
  unfold State.setFld
  rw [State.fld_setReg_self, getField_putField_self _ _ _ _ h]

theorem State.fld_setFld_other (s : State) (off lo n v lo' n' : Nat) (h : lo' + n' ≤ lo ∨ lo + n ≤ lo') :
    (s.setFld off lo n v).fld off lo' n' = s.fld off lo' n' := by
  unfold State.setFld
  rw [State.fld_setReg_self, getField_putField_other _ _ _ _ _ _ h]
  rfl

theorem State.fld_setFld_ne (s : State) {off o : Nat} (lo n v lo' n' : Nat) (h : o ≠ off) :
    (s.setFld off lo n v).fld o lo' n' = s.fld o lo' n' :=
  State.fld_setReg_ne s lo' n' _ h

theorem State.bit_setBit_self (s : State) (off i : Nat) (b : Bool) (h : i < 32) : (s.setBit off i b).bit off i = b := by
  unfold State.bit State.setBit
  rw [State.fld_setFld_self _ _ _ _ _ (by omega)]
  cases b <;> rfl

theorem State.bit_setBit_other (s : State) (off i j : Nat) (b : Bool) (h : i ≠ j) : (s.setBit off i b).bit off j = s.bit off j := by
  unfold State.bit State.setBit
  rw [State.fld_setFld_other _ _ _ _ _ _ _ (by omega)]

theorem State.bit_setBit_ne (s : State) {off o : Nat} (i j : Nat) (b : Bool) (h : o ≠ off) :
    (s.setBit off i b).bit o j = s.bit o j := by
  unfold State.bit State.setBit
  rw [State.fld_setFld_ne _ _ _ _ _ _ h]

theorem State.bit_setReg_ne (s : State) {off o : Nat} (j : Nat) (v : Word) (h : o ≠ off) : (s.setReg off v).bit o j = s.bit o j := by
  unfold State.bit
  rw [State.fld_setReg_ne _ _ _ _ h]

theorem State.bit_setFld_ne (s : State) {off o : Nat} (lo n v j : Nat) (h : o ≠ off) : (s.setFld off lo n v).bit o j = s.bit o j := by
  unfold State.bit
  rw [State.fld_setFld_ne _ _ _ _ _ _ h]

theorem State.bit_setFld_other (s : State) (off lo n v j : Nat) (h : j < lo ∨ lo + n ≤ j) :
    (s.setFld off lo n v).bit off j = s.bit off j := by
  unfold State.bit
  rw [State.fld_setFld_other _ _ _ _ _ _ _ (by omega)]

theorem State.fld_setBit_other (s : State) (off i lo n : Nat) (b : Bool) (h : i < lo ∨ lo + n ≤ i) :
    (s.setBit off i b).fld off lo n = s.fld off lo n := by
  unfold State.setBit
  rw [State.fld_setFld_other _ _ _ _ _ _ _ (by omega)]

theorem State.fld_setBit_ne (s : State) {off o : Nat} (i lo n : Nat) (b : Bool) (h : o ≠ off) :
    (s.setBit off i b).fld o lo n = s.fld o lo n :=
  State.fld_setFld_ne s _ _ _ _ _ h

end Sys2Proof.Machine
end

