-- ==== Sys2Proof/Laws/State.lean ====
section
/-!
SUPPORT. The named updates of the state, field by field: what each leaves alone, true by definition. Reads of the state
that do not look at the field an update changes are listed after the fields.
-/
namespace Sys2Proof.Machine

open Sys2Proof

/-! ### setReg -/

@[simp] theorem State.setReg_staged (s : State) (off : Nat) (v : Word) : (s.setReg off v).staged = s.staged := rfl
@[simp] theorem State.setReg_latched (s : State) (off : Nat) (v : Word) : (s.setReg off v).latched = s.latched := rfl
@[simp] theorem State.setReg_drt (s : State) (off : Nat) (v : Word) : (s.setReg off v).drt = s.drt := rfl
@[simp] theorem State.setReg_bar2Log2 (s : State) (off : Nat) (v : Word) : (s.setReg off v).bar2Log2 = s.bar2Log2 :=
    rfl
@[simp] theorem State.setReg_mem (s : State) (off : Nat) (v : Word) : (s.setReg off v).mem = s.mem := rfl
@[simp] theorem State.setReg_memGen (s : State) (off : Nat) (v : Word) : (s.setReg off v).memGen = s.memGen := rfl
@[simp] theorem State.setReg_push (s : State) (off : Nat) (v : Word) : (s.setReg off v).push = s.push := rfl
@[simp] theorem State.setReg_spPayload (s : State) (off : Nat) (v : Word) : (s.setReg off v).spPayload = s.spPayload :=
    rfl
@[simp] theorem State.setReg_freeCtr (s : State) (off : Nat) (v : Word) : (s.setReg off v).freeCtr = s.freeCtr := rfl
@[simp] theorem State.setReg_out (s : State) (off : Nat) (v : Word) : (s.setReg off v).out = s.out := rfl
@[simp] theorem State.setReg_cycle (s : State) (off : Nat) (v : Word) : (s.setReg off v).cycle = s.cycle := rfl
@[simp] theorem State.setReg_hostHeld (s : State) (off : Nat) (v : Word) : (s.setReg off v).hostHeld = s.hostHeld :=
    rfl
@[simp] theorem State.setReg_linkUpAt (s : State) (off : Nat) (v : Word) : (s.setReg off v).linkUpAt = s.linkUpAt :=
    rfl
@[simp] theorem State.setReg_now (s : State) (off : Nat) (v : Word) : (s.setReg off v).now = s.now := rfl
@[simp] theorem State.setReg_later (s : State) (off : Nat) (v : Word) : (s.setReg off v).later = s.later := rfl
@[simp] theorem State.setReg_halfCycle (s : State) (off : Nat) (v : Word) : (s.setReg off v).halfCycle = s.halfCycle :=
    rfl
@[simp] theorem State.setReg_gtcHold (s : State) (off : Nat) (v : Word) : (s.setReg off v).gtcHold = s.gtcHold := rfl
@[simp] theorem State.setReg_sqs (s : State) (off : Nat) (v : Word) : (s.setReg off v).sqs = s.sqs := rfl
@[simp] theorem State.setReg_cqs (s : State) (off : Nat) (v : Word) : (s.setReg off v).cqs = s.cqs := rfl
@[simp] theorem State.setReg_tasks (s : State) (off : Nat) (v : Word) : (s.setReg off v).tasks = s.tasks := rfl
@[simp] theorem State.setReg_apertures (s : State) (off : Nat) (v : Word) : (s.setReg off v).apertures = s.apertures :=
    rfl
@[simp] theorem State.setReg_apLoads (s : State) (off : Nat) (v : Word) : (s.setReg off v).apLoads = s.apLoads := rfl
@[simp] theorem State.setReg_ds (s : State) (off : Nat) (v : Word) : (s.setReg off v).ds = s.ds := rfl
@[simp] theorem State.setReg_barriers (s : State) (off : Nat) (v : Word) : (s.setReg off v).barriers = s.barriers :=
    rfl
@[simp] theorem State.setReg_stepEnding (s : State) (off : Nat) (v : Word) : (s.setReg off v).stepEnding = s.stepEnding :=
    rfl
@[simp] theorem State.setReg_stepEndSeen (s : State) (off : Nat) (v : Word) : (s.setReg off v).stepEndSeen = s.stepEndSeen :=
    rfl
@[simp] theorem State.setReg_boundaryFresh (s : State) (off : Nat) (v : Word) : (s.setReg off v).boundaryFresh = s.boundaryFresh :=
    rfl
@[simp] theorem State.setReg_holdLen (s : State) (off : Nat) (v : Word) : (s.setReg off v).holdLen = s.holdLen := rfl
@[simp] theorem State.setReg_holdReported (s : State) (off : Nat) (v : Word) : (s.setReg off v).holdReported = s.holdReported :=
    rfl
@[simp] theorem State.setReg_deferred (s : State) (off : Nat) (v : Word) : (s.setReg off v).deferred = s.deferred :=
    rfl
@[simp] theorem State.setReg_holdClose (s : State) (off : Nat) (v : Word) : (s.setReg off v).holdClose = s.holdClose :=
    rfl
@[simp] theorem State.setReg_closing (s : State) (off : Nat) (v : Word) : (s.setReg off v).closing = s.closing := rfl
@[simp] theorem State.setReg_xcache (s : State) (off : Nat) (v : Word) : (s.setReg off v).xcache = s.xcache := rfl
@[simp] theorem State.setReg_invals (s : State) (off : Nat) (v : Word) : (s.setReg off v).invals = s.invals := rfl
@[simp] theorem State.setReg_xorphans (s : State) (off : Nat) (v : Word) : (s.setReg off v).xorphans = s.xorphans :=
    rfl
@[simp] theorem State.setReg_prgs (s : State) (off : Nat) (v : Word) : (s.setReg off v).prgs = s.prgs := rfl
@[simp] theorem State.setReg_priAlloc (s : State) (off : Nat) (v : Word) : (s.setReg off v).priAlloc = s.priAlloc :=
    rfl
@[simp] theorem State.setReg_priFailure (s : State) (off : Nat) (v : Word) : (s.setReg off v).priFailure = s.priFailure :=
    rfl
@[simp] theorem State.setReg_ctagSeq (s : State) (off : Nat) (v : Word) : (s.setReg off v).ctagSeq = s.ctagSeq := rfl
@[simp] theorem State.setReg_tables (s : State) (off : Nat) (v : Word) : (s.setReg off v).tables = s.tables := rfl
@[simp] theorem State.setReg_compRetired (s : State) (off : Nat) (v : Word) : (s.setReg off v).compRetired = s.compRetired :=
    rfl
@[simp] theorem State.setReg_expRetired (s : State) (off : Nat) (v : Word) : (s.setReg off v).expRetired = s.expRetired :=
    rfl
@[simp] theorem State.setReg_draining (s : State) (off : Nat) (v : Word) : (s.setReg off v).draining = s.draining :=
    rfl
@[simp] theorem State.setReg_fabricHeld (s : State) (off : Nat) (v : Word) : (s.setReg off v).fabricHeld = s.fabricHeld :=
    rfl
@[simp] theorem State.setReg_ports (s : State) (off : Nat) (v : Word) : (s.setReg off v).ports = s.ports := rfl
@[simp] theorem State.setReg_msgSeq (s : State) (off : Nat) (v : Word) : (s.setReg off v).msgSeq = s.msgSeq := rfl
@[simp] theorem State.setReg_credits (s : State) (off : Nat) (v : Word) : (s.setReg off v).credits = s.credits := rfl
@[simp] theorem State.setReg_rx (s : State) (off : Nat) (v : Word) : (s.setReg off v).rx = s.rx := rfl
@[simp] theorem State.setReg_peers (s : State) (off : Nat) (v : Word) : (s.setReg off v).peers = s.peers := rfl
@[simp] theorem State.setReg_beatDue (s : State) (off : Nat) (v : Word) : (s.setReg off v).beatDue = s.beatDue := rfl
@[simp] theorem State.setReg_sites (s : State) (off : Nat) (v : Word) : (s.setReg off v).sites = s.sites := rfl
@[simp] theorem State.setReg_evac (s : State) (off : Nat) (v : Word) : (s.setReg off v).evac = s.evac := rfl
@[simp] theorem State.setReg_arbs (s : State) (off : Nat) (v : Word) : (s.setReg off v).arbs = s.arbs := rfl
@[simp] theorem State.setReg_mq (s : State) (off : Nat) (v : Word) : (s.setReg off v).mq = s.mq := rfl
@[simp] theorem State.setReg_flash0 (s : State) (off : Nat) (v : Word) : (s.setReg off v).flash0 = s.flash0 := rfl
@[simp] theorem State.setReg_flash1 (s : State) (off : Nat) (v : Word) : (s.setReg off v).flash1 = s.flash1 := rfl
@[simp] theorem State.setReg_record (s : State) (off : Nat) (v : Word) : (s.setReg off v).record = s.record := rfl
@[simp] theorem State.setReg_recordWrite (s : State) (off : Nat) (v : Word) : (s.setReg off v).recordWrite = s.recordWrite :=
    rfl
@[simp] theorem State.setReg_recordDirty (s : State) (off : Nat) (v : Word) : (s.setReg off v).recordDirty = s.recordDirty :=
    rfl
@[simp] theorem State.setReg_stackIds (s : State) (off : Nat) (v : Word) : (s.setReg off v).stackIds = s.stackIds :=
    rfl
@[simp] theorem State.setReg_power (s : State) (off : Nat) (v : Word) : (s.setReg off v).power = s.power := rfl
@[simp] theorem State.setReg_entering (s : State) (off : Nat) (v : Word) : (s.setReg off v).entering = s.entering :=
    rfl
@[simp] theorem State.setReg_waking (s : State) (off : Nat) (v : Word) : (s.setReg off v).waking = s.waking := rfl
@[simp] theorem State.setReg_powerAt (s : State) (off : Nat) (v : Word) : (s.setReg off v).powerAt = s.powerAt := rfl
@[simp] theorem State.setReg_wakeSeen (s : State) (off : Nat) (v : Word) : (s.setReg off v).wakeSeen = s.wakeSeen :=
    rfl
@[simp] theorem State.setReg_latchedWake (s : State) (off : Nat) (v : Word) : (s.setReg off v).latchedWake = s.latchedWake :=
    rfl
@[simp] theorem State.setReg_wakeBuf (s : State) (off : Nat) (v : Word) : (s.setReg off v).wakeBuf = s.wakeBuf := rfl
@[simp] theorem State.setReg_powered (s : State) (off : Nat) (v : Word) : (s.setReg off v).powered = s.powered := rfl
@[simp] theorem State.setReg_padWait (s : State) (off : Nat) (v : Word) : (s.setReg off v).padWait = s.padWait := rfl
@[simp] theorem State.setReg_startup (s : State) (off : Nat) (v : Word) : (s.setReg off v).startup = s.startup := rfl
@[simp] theorem State.setReg_coldStart (s : State) (off : Nat) (v : Word) : (s.setReg off v).coldStart = s.coldStart :=
    rfl
@[simp] theorem State.setReg_restoring (s : State) (off : Nat) (v : Word) : (s.setReg off v).restoring = s.restoring :=
    rfl
@[simp] theorem State.setReg_padExit (s : State) (off : Nat) (v : Word) : (s.setReg off v).padExit = s.padExit := rfl
@[simp] theorem State.setReg_padAt (s : State) (off : Nat) (v : Word) : (s.setReg off v).padAt = s.padAt := rfl
@[simp] theorem State.setReg_checksAt (s : State) (off : Nat) (v : Word) : (s.setReg off v).checksAt = s.checksAt :=
    rfl
@[simp] theorem State.setReg_linkDown (s : State) (off : Nat) (v : Word) : (s.setReg off v).linkDown = s.linkDown :=
    rfl
@[simp] theorem State.setReg_linkDownCycles (s : State) (off : Nat) (v : Word) : (s.setReg off v).linkDownCycles = s.linkDownCycles :=
    rfl
@[simp] theorem State.setReg_idleCycles (s : State) (off : Nat) (v : Word) : (s.setReg off v).idleCycles = s.idleCycles :=
    rfl
@[simp] theorem State.setReg_pending (s : State) (off : Nat) (v : Word) : (s.setReg off v).pending = s.pending := rfl
@[simp] theorem State.setNow_setReg' (s : State) (off : Nat) (v : Word) (o : Nat) :
    (s.setReg off v).setNow o = s.setNow o := rfl
@[simp] theorem State.readByte_setReg' (s : State) (off : Nat) (v : Word) (x2 : Nat) :
    (s.setReg off v).readByte x2 = s.readByte x2 := rfl
@[simp] theorem State.task_setReg' (s : State) (off : Nat) (v : Word) (t2 : TaskRef) :
    (s.setReg off v).task t2 = s.task t2 := rfl
@[simp] theorem State.sq_setReg' (s : State) (off : Nat) (v : Word) (q2 : Nat) :
    (s.setReg off v).sq q2 = s.sq q2 := rfl
@[simp] theorem State.cq_setReg' (s : State) (off : Nat) (v : Word) (c2 : Nat) :
    (s.setReg off v).cq c2 = s.cq c2 := rfl
@[simp] theorem State.port_setReg' (s : State) (off : Nat) (v : Word) (p2 : Nat) :
    (s.setReg off v).port p2 = s.port p2 := rfl
@[simp] theorem State.endpoint_setReg' (s : State) (off : Nat) (v : Word) (r2 : Nat) :
    (s.setReg off v).endpoint r2 = s.endpoint r2 := rfl
@[simp] theorem State.peer_setReg' (s : State) (off : Nat) (v : Word) (n2 : Nat) :
    (s.setReg off v).peer n2 = s.peer n2 := rfl
@[simp] theorem State.site_setReg' (s : State) (off : Nat) (v : Word) (b2 : Nat) :
    (s.setReg off v).site b2 = s.site b2 := rfl
@[simp] theorem State.arb_setReg' (s : State) (off : Nat) (v : Word) (a2 : Nat) :
    (s.setReg off v).arb a2 = s.arb a2 := rfl
@[simp] theorem State.stream_setReg' (s : State) (off : Nat) (v : Word) (n2 : Nat) :
    (s.setReg off v).stream n2 = s.stream n2 := rfl
@[simp] theorem State.apertureOwner_setReg' (s : State) (off : Nat) (v : Word) (n2 : Nat) :
    (s.setReg off v).apertureOwner n2 = s.apertureOwner n2 := rfl
@[simp] theorem State.below_setReg' (s : State) (off : Nat) (v : Word) : (s.setReg off v).below = s.below := rfl

/-! ### setFld -/

@[simp] theorem State.setFld_staged (s : State) (off lo n v : Nat) : (s.setFld off lo n v).staged = s.staged := rfl
@[simp] theorem State.setFld_latched (s : State) (off lo n v : Nat) : (s.setFld off lo n v).latched = s.latched := rfl
@[simp] theorem State.setFld_drt (s : State) (off lo n v : Nat) : (s.setFld off lo n v).drt = s.drt := rfl
@[simp] theorem State.setFld_bar2Log2 (s : State) (off lo n v : Nat) : (s.setFld off lo n v).bar2Log2 = s.bar2Log2 :=
    rfl
@[simp] theorem State.setFld_mem (s : State) (off lo n v : Nat) : (s.setFld off lo n v).mem = s.mem := rfl
@[simp] theorem State.setFld_memGen (s : State) (off lo n v : Nat) : (s.setFld off lo n v).memGen = s.memGen := rfl
@[simp] theorem State.setFld_push (s : State) (off lo n v : Nat) : (s.setFld off lo n v).push = s.push := rfl
@[simp] theorem State.setFld_spPayload (s : State) (off lo n v : Nat) : (s.setFld off lo n v).spPayload = s.spPayload :=
    rfl
@[simp] theorem State.setFld_freeCtr (s : State) (off lo n v : Nat) : (s.setFld off lo n v).freeCtr = s.freeCtr := rfl
@[simp] theorem State.setFld_out (s : State) (off lo n v : Nat) : (s.setFld off lo n v).out = s.out := rfl
@[simp] theorem State.setFld_cycle (s : State) (off lo n v : Nat) : (s.setFld off lo n v).cycle = s.cycle := rfl
@[simp] theorem State.setFld_hostHeld (s : State) (off lo n v : Nat) : (s.setFld off lo n v).hostHeld = s.hostHeld :=
    rfl
@[simp] theorem State.setFld_linkUpAt (s : State) (off lo n v : Nat) : (s.setFld off lo n v).linkUpAt = s.linkUpAt :=
    rfl
@[simp] theorem State.setFld_now (s : State) (off lo n v : Nat) : (s.setFld off lo n v).now = s.now := rfl
@[simp] theorem State.setFld_later (s : State) (off lo n v : Nat) : (s.setFld off lo n v).later = s.later := rfl
@[simp] theorem State.setFld_halfCycle (s : State) (off lo n v : Nat) : (s.setFld off lo n v).halfCycle = s.halfCycle :=
    rfl
@[simp] theorem State.setFld_gtcHold (s : State) (off lo n v : Nat) : (s.setFld off lo n v).gtcHold = s.gtcHold := rfl
@[simp] theorem State.setFld_sqs (s : State) (off lo n v : Nat) : (s.setFld off lo n v).sqs = s.sqs := rfl
@[simp] theorem State.setFld_cqs (s : State) (off lo n v : Nat) : (s.setFld off lo n v).cqs = s.cqs := rfl
@[simp] theorem State.setFld_tasks (s : State) (off lo n v : Nat) : (s.setFld off lo n v).tasks = s.tasks := rfl
@[simp] theorem State.setFld_apertures (s : State) (off lo n v : Nat) : (s.setFld off lo n v).apertures = s.apertures :=
    rfl
@[simp] theorem State.setFld_apLoads (s : State) (off lo n v : Nat) : (s.setFld off lo n v).apLoads = s.apLoads := rfl
@[simp] theorem State.setFld_ds (s : State) (off lo n v : Nat) : (s.setFld off lo n v).ds = s.ds := rfl
@[simp] theorem State.setFld_barriers (s : State) (off lo n v : Nat) : (s.setFld off lo n v).barriers = s.barriers :=
    rfl
@[simp] theorem State.setFld_stepEnding (s : State) (off lo n v : Nat) : (s.setFld off lo n v).stepEnding = s.stepEnding :=
    rfl
@[simp] theorem State.setFld_stepEndSeen (s : State) (off lo n v : Nat) : (s.setFld off lo n v).stepEndSeen = s.stepEndSeen :=
    rfl
@[simp] theorem State.setFld_boundaryFresh (s : State) (off lo n v : Nat) : (s.setFld off lo n v).boundaryFresh = s.boundaryFresh :=
    rfl
@[simp] theorem State.setFld_holdLen (s : State) (off lo n v : Nat) : (s.setFld off lo n v).holdLen = s.holdLen := rfl
@[simp] theorem State.setFld_holdReported (s : State) (off lo n v : Nat) : (s.setFld off lo n v).holdReported = s.holdReported :=
    rfl
@[simp] theorem State.setFld_deferred (s : State) (off lo n v : Nat) : (s.setFld off lo n v).deferred = s.deferred :=
    rfl
@[simp] theorem State.setFld_holdClose (s : State) (off lo n v : Nat) : (s.setFld off lo n v).holdClose = s.holdClose :=
    rfl
@[simp] theorem State.setFld_closing (s : State) (off lo n v : Nat) : (s.setFld off lo n v).closing = s.closing := rfl
@[simp] theorem State.setFld_xcache (s : State) (off lo n v : Nat) : (s.setFld off lo n v).xcache = s.xcache := rfl
@[simp] theorem State.setFld_invals (s : State) (off lo n v : Nat) : (s.setFld off lo n v).invals = s.invals := rfl
@[simp] theorem State.setFld_xorphans (s : State) (off lo n v : Nat) : (s.setFld off lo n v).xorphans = s.xorphans :=
    rfl
@[simp] theorem State.setFld_prgs (s : State) (off lo n v : Nat) : (s.setFld off lo n v).prgs = s.prgs := rfl
@[simp] theorem State.setFld_priAlloc (s : State) (off lo n v : Nat) : (s.setFld off lo n v).priAlloc = s.priAlloc :=
    rfl
@[simp] theorem State.setFld_priFailure (s : State) (off lo n v : Nat) : (s.setFld off lo n v).priFailure = s.priFailure :=
    rfl
@[simp] theorem State.setFld_ctagSeq (s : State) (off lo n v : Nat) : (s.setFld off lo n v).ctagSeq = s.ctagSeq := rfl
@[simp] theorem State.setFld_tables (s : State) (off lo n v : Nat) : (s.setFld off lo n v).tables = s.tables := rfl
@[simp] theorem State.setFld_compRetired (s : State) (off lo n v : Nat) : (s.setFld off lo n v).compRetired = s.compRetired :=
    rfl
@[simp] theorem State.setFld_expRetired (s : State) (off lo n v : Nat) : (s.setFld off lo n v).expRetired = s.expRetired :=
    rfl
@[simp] theorem State.setFld_draining (s : State) (off lo n v : Nat) : (s.setFld off lo n v).draining = s.draining :=
    rfl
@[simp] theorem State.setFld_fabricHeld (s : State) (off lo n v : Nat) : (s.setFld off lo n v).fabricHeld = s.fabricHeld :=
    rfl
@[simp] theorem State.setFld_ports (s : State) (off lo n v : Nat) : (s.setFld off lo n v).ports = s.ports := rfl
@[simp] theorem State.setFld_msgSeq (s : State) (off lo n v : Nat) : (s.setFld off lo n v).msgSeq = s.msgSeq := rfl
@[simp] theorem State.setFld_credits (s : State) (off lo n v : Nat) : (s.setFld off lo n v).credits = s.credits := rfl
@[simp] theorem State.setFld_rx (s : State) (off lo n v : Nat) : (s.setFld off lo n v).rx = s.rx := rfl
@[simp] theorem State.setFld_peers (s : State) (off lo n v : Nat) : (s.setFld off lo n v).peers = s.peers := rfl
@[simp] theorem State.setFld_beatDue (s : State) (off lo n v : Nat) : (s.setFld off lo n v).beatDue = s.beatDue := rfl
@[simp] theorem State.setFld_sites (s : State) (off lo n v : Nat) : (s.setFld off lo n v).sites = s.sites := rfl
@[simp] theorem State.setFld_evac (s : State) (off lo n v : Nat) : (s.setFld off lo n v).evac = s.evac := rfl
@[simp] theorem State.setFld_arbs (s : State) (off lo n v : Nat) : (s.setFld off lo n v).arbs = s.arbs := rfl
@[simp] theorem State.setFld_mq (s : State) (off lo n v : Nat) : (s.setFld off lo n v).mq = s.mq := rfl
@[simp] theorem State.setFld_flash0 (s : State) (off lo n v : Nat) : (s.setFld off lo n v).flash0 = s.flash0 := rfl
@[simp] theorem State.setFld_flash1 (s : State) (off lo n v : Nat) : (s.setFld off lo n v).flash1 = s.flash1 := rfl
@[simp] theorem State.setFld_record (s : State) (off lo n v : Nat) : (s.setFld off lo n v).record = s.record := rfl
@[simp] theorem State.setFld_recordWrite (s : State) (off lo n v : Nat) : (s.setFld off lo n v).recordWrite = s.recordWrite :=
    rfl
@[simp] theorem State.setFld_recordDirty (s : State) (off lo n v : Nat) : (s.setFld off lo n v).recordDirty = s.recordDirty :=
    rfl
@[simp] theorem State.setFld_stackIds (s : State) (off lo n v : Nat) : (s.setFld off lo n v).stackIds = s.stackIds :=
    rfl
@[simp] theorem State.setFld_power (s : State) (off lo n v : Nat) : (s.setFld off lo n v).power = s.power := rfl
@[simp] theorem State.setFld_entering (s : State) (off lo n v : Nat) : (s.setFld off lo n v).entering = s.entering :=
    rfl
@[simp] theorem State.setFld_waking (s : State) (off lo n v : Nat) : (s.setFld off lo n v).waking = s.waking := rfl
@[simp] theorem State.setFld_powerAt (s : State) (off lo n v : Nat) : (s.setFld off lo n v).powerAt = s.powerAt := rfl
@[simp] theorem State.setFld_wakeSeen (s : State) (off lo n v : Nat) : (s.setFld off lo n v).wakeSeen = s.wakeSeen :=
    rfl
@[simp] theorem State.setFld_latchedWake (s : State) (off lo n v : Nat) : (s.setFld off lo n v).latchedWake = s.latchedWake :=
    rfl
@[simp] theorem State.setFld_wakeBuf (s : State) (off lo n v : Nat) : (s.setFld off lo n v).wakeBuf = s.wakeBuf := rfl
@[simp] theorem State.setFld_powered (s : State) (off lo n v : Nat) : (s.setFld off lo n v).powered = s.powered := rfl
@[simp] theorem State.setFld_padWait (s : State) (off lo n v : Nat) : (s.setFld off lo n v).padWait = s.padWait := rfl
@[simp] theorem State.setFld_startup (s : State) (off lo n v : Nat) : (s.setFld off lo n v).startup = s.startup := rfl
@[simp] theorem State.setFld_coldStart (s : State) (off lo n v : Nat) : (s.setFld off lo n v).coldStart = s.coldStart :=
    rfl
@[simp] theorem State.setFld_restoring (s : State) (off lo n v : Nat) : (s.setFld off lo n v).restoring = s.restoring :=
    rfl
@[simp] theorem State.setFld_padExit (s : State) (off lo n v : Nat) : (s.setFld off lo n v).padExit = s.padExit := rfl
@[simp] theorem State.setFld_padAt (s : State) (off lo n v : Nat) : (s.setFld off lo n v).padAt = s.padAt := rfl
@[simp] theorem State.setFld_checksAt (s : State) (off lo n v : Nat) : (s.setFld off lo n v).checksAt = s.checksAt :=
    rfl
@[simp] theorem State.setFld_linkDown (s : State) (off lo n v : Nat) : (s.setFld off lo n v).linkDown = s.linkDown :=
    rfl
@[simp] theorem State.setFld_linkDownCycles (s : State) (off lo n v : Nat) : (s.setFld off lo n v).linkDownCycles = s.linkDownCycles :=
    rfl
@[simp] theorem State.setFld_idleCycles (s : State) (off lo n v : Nat) : (s.setFld off lo n v).idleCycles = s.idleCycles :=
    rfl
@[simp] theorem State.setFld_pending (s : State) (off lo n v : Nat) : (s.setFld off lo n v).pending = s.pending := rfl
@[simp] theorem State.setNow_setFld' (s : State) (off lo n v : Nat) (o : Nat) :
    (s.setFld off lo n v).setNow o = s.setNow o := rfl
@[simp] theorem State.readByte_setFld' (s : State) (off lo n v : Nat) (x2 : Nat) :
    (s.setFld off lo n v).readByte x2 = s.readByte x2 := rfl
@[simp] theorem State.task_setFld' (s : State) (off lo n v : Nat) (t2 : TaskRef) :
    (s.setFld off lo n v).task t2 = s.task t2 := rfl
@[simp] theorem State.sq_setFld' (s : State) (off lo n v : Nat) (q2 : Nat) :
    (s.setFld off lo n v).sq q2 = s.sq q2 := rfl
@[simp] theorem State.cq_setFld' (s : State) (off lo n v : Nat) (c2 : Nat) :
    (s.setFld off lo n v).cq c2 = s.cq c2 := rfl
@[simp] theorem State.port_setFld' (s : State) (off lo n v : Nat) (p2 : Nat) :
    (s.setFld off lo n v).port p2 = s.port p2 := rfl
@[simp] theorem State.endpoint_setFld' (s : State) (off lo n v : Nat) (r2 : Nat) :
    (s.setFld off lo n v).endpoint r2 = s.endpoint r2 := rfl
@[simp] theorem State.peer_setFld' (s : State) (off lo n v : Nat) (n2 : Nat) :
    (s.setFld off lo n v).peer n2 = s.peer n2 := rfl
@[simp] theorem State.site_setFld' (s : State) (off lo n v : Nat) (b2 : Nat) :
    (s.setFld off lo n v).site b2 = s.site b2 := rfl
@[simp] theorem State.arb_setFld' (s : State) (off lo n v : Nat) (a2 : Nat) :
    (s.setFld off lo n v).arb a2 = s.arb a2 := rfl
@[simp] theorem State.stream_setFld' (s : State) (off lo n v : Nat) (n2 : Nat) :
    (s.setFld off lo n v).stream n2 = s.stream n2 := rfl
@[simp] theorem State.apertureOwner_setFld' (s : State) (off lo n v : Nat) (n2 : Nat) :
    (s.setFld off lo n v).apertureOwner n2 = s.apertureOwner n2 := rfl
@[simp] theorem State.below_setFld' (s : State) (off lo n v : Nat) : (s.setFld off lo n v).below = s.below := rfl

/-! ### setBit -/

@[simp] theorem State.setBit_staged (s : State) (off i : Nat) (b : Bool) : (s.setBit off i b).staged = s.staged := rfl
@[simp] theorem State.setBit_latched (s : State) (off i : Nat) (b : Bool) : (s.setBit off i b).latched = s.latched :=
    rfl
@[simp] theorem State.setBit_drt (s : State) (off i : Nat) (b : Bool) : (s.setBit off i b).drt = s.drt := rfl
@[simp] theorem State.setBit_bar2Log2 (s : State) (off i : Nat) (b : Bool) : (s.setBit off i b).bar2Log2 = s.bar2Log2 :=
    rfl
@[simp] theorem State.setBit_mem (s : State) (off i : Nat) (b : Bool) : (s.setBit off i b).mem = s.mem := rfl
@[simp] theorem State.setBit_memGen (s : State) (off i : Nat) (b : Bool) : (s.setBit off i b).memGen = s.memGen := rfl
@[simp] theorem State.setBit_push (s : State) (off i : Nat) (b : Bool) : (s.setBit off i b).push = s.push := rfl
@[simp] theorem State.setBit_spPayload (s : State) (off i : Nat) (b : Bool) : (s.setBit off i b).spPayload = s.spPayload :=
    rfl
@[simp] theorem State.setBit_freeCtr (s : State) (off i : Nat) (b : Bool) : (s.setBit off i b).freeCtr = s.freeCtr :=
    rfl
@[simp] theorem State.setBit_out (s : State) (off i : Nat) (b : Bool) : (s.setBit off i b).out = s.out := rfl
@[simp] theorem State.setBit_cycle (s : State) (off i : Nat) (b : Bool) : (s.setBit off i b).cycle = s.cycle := rfl
@[simp] theorem State.setBit_hostHeld (s : State) (off i : Nat) (b : Bool) : (s.setBit off i b).hostHeld = s.hostHeld :=
    rfl
@[simp] theorem State.setBit_linkUpAt (s : State) (off i : Nat) (b : Bool) : (s.setBit off i b).linkUpAt = s.linkUpAt :=
    rfl
@[simp] theorem State.setBit_now (s : State) (off i : Nat) (b : Bool) : (s.setBit off i b).now = s.now := rfl
@[simp] theorem State.setBit_later (s : State) (off i : Nat) (b : Bool) : (s.setBit off i b).later = s.later := rfl
@[simp] theorem State.setBit_halfCycle (s : State) (off i : Nat) (b : Bool) : (s.setBit off i b).halfCycle = s.halfCycle :=
    rfl
@[simp] theorem State.setBit_gtcHold (s : State) (off i : Nat) (b : Bool) : (s.setBit off i b).gtcHold = s.gtcHold :=
    rfl
@[simp] theorem State.setBit_sqs (s : State) (off i : Nat) (b : Bool) : (s.setBit off i b).sqs = s.sqs := rfl
@[simp] theorem State.setBit_cqs (s : State) (off i : Nat) (b : Bool) : (s.setBit off i b).cqs = s.cqs := rfl
@[simp] theorem State.setBit_tasks (s : State) (off i : Nat) (b : Bool) : (s.setBit off i b).tasks = s.tasks := rfl
@[simp] theorem State.setBit_apertures (s : State) (off i : Nat) (b : Bool) : (s.setBit off i b).apertures = s.apertures :=
    rfl
@[simp] theorem State.setBit_apLoads (s : State) (off i : Nat) (b : Bool) : (s.setBit off i b).apLoads = s.apLoads :=
    rfl
@[simp] theorem State.setBit_ds (s : State) (off i : Nat) (b : Bool) : (s.setBit off i b).ds = s.ds := rfl
@[simp] theorem State.setBit_barriers (s : State) (off i : Nat) (b : Bool) : (s.setBit off i b).barriers = s.barriers :=
    rfl
@[simp] theorem State.setBit_stepEnding (s : State) (off i : Nat) (b : Bool) : (s.setBit off i b).stepEnding = s.stepEnding :=
    rfl
@[simp] theorem State.setBit_stepEndSeen (s : State) (off i : Nat) (b : Bool) : (s.setBit off i b).stepEndSeen = s.stepEndSeen :=
    rfl
@[simp] theorem State.setBit_boundaryFresh (s : State) (off i : Nat) (b : Bool) : (s.setBit off i b).boundaryFresh = s.boundaryFresh :=
    rfl
@[simp] theorem State.setBit_holdLen (s : State) (off i : Nat) (b : Bool) : (s.setBit off i b).holdLen = s.holdLen :=
    rfl
@[simp] theorem State.setBit_holdReported (s : State) (off i : Nat) (b : Bool) : (s.setBit off i b).holdReported = s.holdReported :=
    rfl
@[simp] theorem State.setBit_deferred (s : State) (off i : Nat) (b : Bool) : (s.setBit off i b).deferred = s.deferred :=
    rfl
@[simp] theorem State.setBit_holdClose (s : State) (off i : Nat) (b : Bool) : (s.setBit off i b).holdClose = s.holdClose :=
    rfl
@[simp] theorem State.setBit_closing (s : State) (off i : Nat) (b : Bool) : (s.setBit off i b).closing = s.closing :=
    rfl
@[simp] theorem State.setBit_xcache (s : State) (off i : Nat) (b : Bool) : (s.setBit off i b).xcache = s.xcache := rfl
@[simp] theorem State.setBit_invals (s : State) (off i : Nat) (b : Bool) : (s.setBit off i b).invals = s.invals := rfl
@[simp] theorem State.setBit_xorphans (s : State) (off i : Nat) (b : Bool) : (s.setBit off i b).xorphans = s.xorphans :=
    rfl
@[simp] theorem State.setBit_prgs (s : State) (off i : Nat) (b : Bool) : (s.setBit off i b).prgs = s.prgs := rfl
@[simp] theorem State.setBit_priAlloc (s : State) (off i : Nat) (b : Bool) : (s.setBit off i b).priAlloc = s.priAlloc :=
    rfl
@[simp] theorem State.setBit_priFailure (s : State) (off i : Nat) (b : Bool) : (s.setBit off i b).priFailure = s.priFailure :=
    rfl
@[simp] theorem State.setBit_ctagSeq (s : State) (off i : Nat) (b : Bool) : (s.setBit off i b).ctagSeq = s.ctagSeq :=
    rfl
@[simp] theorem State.setBit_tables (s : State) (off i : Nat) (b : Bool) : (s.setBit off i b).tables = s.tables := rfl
@[simp] theorem State.setBit_compRetired (s : State) (off i : Nat) (b : Bool) : (s.setBit off i b).compRetired = s.compRetired :=
    rfl
@[simp] theorem State.setBit_expRetired (s : State) (off i : Nat) (b : Bool) : (s.setBit off i b).expRetired = s.expRetired :=
    rfl
@[simp] theorem State.setBit_draining (s : State) (off i : Nat) (b : Bool) : (s.setBit off i b).draining = s.draining :=
    rfl
@[simp] theorem State.setBit_fabricHeld (s : State) (off i : Nat) (b : Bool) : (s.setBit off i b).fabricHeld = s.fabricHeld :=
    rfl
@[simp] theorem State.setBit_ports (s : State) (off i : Nat) (b : Bool) : (s.setBit off i b).ports = s.ports := rfl
@[simp] theorem State.setBit_msgSeq (s : State) (off i : Nat) (b : Bool) : (s.setBit off i b).msgSeq = s.msgSeq := rfl
@[simp] theorem State.setBit_credits (s : State) (off i : Nat) (b : Bool) : (s.setBit off i b).credits = s.credits :=
    rfl
@[simp] theorem State.setBit_rx (s : State) (off i : Nat) (b : Bool) : (s.setBit off i b).rx = s.rx := rfl
@[simp] theorem State.setBit_peers (s : State) (off i : Nat) (b : Bool) : (s.setBit off i b).peers = s.peers := rfl
@[simp] theorem State.setBit_beatDue (s : State) (off i : Nat) (b : Bool) : (s.setBit off i b).beatDue = s.beatDue :=
    rfl
@[simp] theorem State.setBit_sites (s : State) (off i : Nat) (b : Bool) : (s.setBit off i b).sites = s.sites := rfl
@[simp] theorem State.setBit_evac (s : State) (off i : Nat) (b : Bool) : (s.setBit off i b).evac = s.evac := rfl
@[simp] theorem State.setBit_arbs (s : State) (off i : Nat) (b : Bool) : (s.setBit off i b).arbs = s.arbs := rfl
@[simp] theorem State.setBit_mq (s : State) (off i : Nat) (b : Bool) : (s.setBit off i b).mq = s.mq := rfl
@[simp] theorem State.setBit_flash0 (s : State) (off i : Nat) (b : Bool) : (s.setBit off i b).flash0 = s.flash0 := rfl
@[simp] theorem State.setBit_flash1 (s : State) (off i : Nat) (b : Bool) : (s.setBit off i b).flash1 = s.flash1 := rfl
@[simp] theorem State.setBit_record (s : State) (off i : Nat) (b : Bool) : (s.setBit off i b).record = s.record := rfl
@[simp] theorem State.setBit_recordWrite (s : State) (off i : Nat) (b : Bool) : (s.setBit off i b).recordWrite = s.recordWrite :=
    rfl
@[simp] theorem State.setBit_recordDirty (s : State) (off i : Nat) (b : Bool) : (s.setBit off i b).recordDirty = s.recordDirty :=
    rfl
@[simp] theorem State.setBit_stackIds (s : State) (off i : Nat) (b : Bool) : (s.setBit off i b).stackIds = s.stackIds :=
    rfl
@[simp] theorem State.setBit_power (s : State) (off i : Nat) (b : Bool) : (s.setBit off i b).power = s.power := rfl
@[simp] theorem State.setBit_entering (s : State) (off i : Nat) (b : Bool) : (s.setBit off i b).entering = s.entering :=
    rfl
@[simp] theorem State.setBit_waking (s : State) (off i : Nat) (b : Bool) : (s.setBit off i b).waking = s.waking := rfl
@[simp] theorem State.setBit_powerAt (s : State) (off i : Nat) (b : Bool) : (s.setBit off i b).powerAt = s.powerAt :=
    rfl
@[simp] theorem State.setBit_wakeSeen (s : State) (off i : Nat) (b : Bool) : (s.setBit off i b).wakeSeen = s.wakeSeen :=
    rfl
@[simp] theorem State.setBit_latchedWake (s : State) (off i : Nat) (b : Bool) : (s.setBit off i b).latchedWake = s.latchedWake :=
    rfl
@[simp] theorem State.setBit_wakeBuf (s : State) (off i : Nat) (b : Bool) : (s.setBit off i b).wakeBuf = s.wakeBuf :=
    rfl
@[simp] theorem State.setBit_powered (s : State) (off i : Nat) (b : Bool) : (s.setBit off i b).powered = s.powered :=
    rfl
@[simp] theorem State.setBit_padWait (s : State) (off i : Nat) (b : Bool) : (s.setBit off i b).padWait = s.padWait :=
    rfl
@[simp] theorem State.setBit_startup (s : State) (off i : Nat) (b : Bool) : (s.setBit off i b).startup = s.startup :=
    rfl
@[simp] theorem State.setBit_coldStart (s : State) (off i : Nat) (b : Bool) : (s.setBit off i b).coldStart = s.coldStart :=
    rfl
@[simp] theorem State.setBit_restoring (s : State) (off i : Nat) (b : Bool) : (s.setBit off i b).restoring = s.restoring :=
    rfl
@[simp] theorem State.setBit_padExit (s : State) (off i : Nat) (b : Bool) : (s.setBit off i b).padExit = s.padExit :=
    rfl
@[simp] theorem State.setBit_padAt (s : State) (off i : Nat) (b : Bool) : (s.setBit off i b).padAt = s.padAt := rfl
@[simp] theorem State.setBit_checksAt (s : State) (off i : Nat) (b : Bool) : (s.setBit off i b).checksAt = s.checksAt :=
    rfl
@[simp] theorem State.setBit_linkDown (s : State) (off i : Nat) (b : Bool) : (s.setBit off i b).linkDown = s.linkDown :=
    rfl
@[simp] theorem State.setBit_linkDownCycles (s : State) (off i : Nat) (b : Bool) : (s.setBit off i b).linkDownCycles = s.linkDownCycles :=
    rfl
@[simp] theorem State.setBit_idleCycles (s : State) (off i : Nat) (b : Bool) : (s.setBit off i b).idleCycles = s.idleCycles :=
    rfl
@[simp] theorem State.setBit_pending (s : State) (off i : Nat) (b : Bool) : (s.setBit off i b).pending = s.pending :=
    rfl
@[simp] theorem State.setNow_setBit' (s : State) (off i : Nat) (b : Bool) (o : Nat) :
    (s.setBit off i b).setNow o = s.setNow o := rfl
@[simp] theorem State.readByte_setBit' (s : State) (off i : Nat) (b : Bool) (x2 : Nat) :
    (s.setBit off i b).readByte x2 = s.readByte x2 := rfl
@[simp] theorem State.task_setBit' (s : State) (off i : Nat) (b : Bool) (t2 : TaskRef) :
    (s.setBit off i b).task t2 = s.task t2 := rfl
@[simp] theorem State.sq_setBit' (s : State) (off i : Nat) (b : Bool) (q2 : Nat) :
    (s.setBit off i b).sq q2 = s.sq q2 := rfl
@[simp] theorem State.cq_setBit' (s : State) (off i : Nat) (b : Bool) (c2 : Nat) :
    (s.setBit off i b).cq c2 = s.cq c2 := rfl
@[simp] theorem State.port_setBit' (s : State) (off i : Nat) (b : Bool) (p2 : Nat) :
    (s.setBit off i b).port p2 = s.port p2 := rfl
@[simp] theorem State.endpoint_setBit' (s : State) (off i : Nat) (b : Bool) (r2 : Nat) :
    (s.setBit off i b).endpoint r2 = s.endpoint r2 := rfl
@[simp] theorem State.peer_setBit' (s : State) (off i : Nat) (b : Bool) (n2 : Nat) :
    (s.setBit off i b).peer n2 = s.peer n2 := rfl
@[simp] theorem State.site_setBit' (s : State) (off i : Nat) (b : Bool) (b2 : Nat) :
    (s.setBit off i b).site b2 = s.site b2 := rfl
@[simp] theorem State.arb_setBit' (s : State) (off i : Nat) (b : Bool) (a2 : Nat) :
    (s.setBit off i b).arb a2 = s.arb a2 := rfl
@[simp] theorem State.stream_setBit' (s : State) (off i : Nat) (b : Bool) (n2 : Nat) :
    (s.setBit off i b).stream n2 = s.stream n2 := rfl
@[simp] theorem State.apertureOwner_setBit' (s : State) (off i : Nat) (b : Bool) (n2 : Nat) :
    (s.setBit off i b).apertureOwner n2 = s.apertureOwner n2 := rfl
@[simp] theorem State.below_setBit' (s : State) (off i : Nat) (b : Bool) : (s.setBit off i b).below = s.below := rfl

/-! ### setReg64 -/

@[simp] theorem State.setReg64_staged (s : State) (off v : Nat) : (s.setReg64 off v).staged = s.staged := rfl
@[simp] theorem State.setReg64_latched (s : State) (off v : Nat) : (s.setReg64 off v).latched = s.latched := rfl
@[simp] theorem State.setReg64_drt (s : State) (off v : Nat) : (s.setReg64 off v).drt = s.drt := rfl
@[simp] theorem State.setReg64_bar2Log2 (s : State) (off v : Nat) : (s.setReg64 off v).bar2Log2 = s.bar2Log2 := rfl
@[simp] theorem State.setReg64_mem (s : State) (off v : Nat) : (s.setReg64 off v).mem = s.mem := rfl
@[simp] theorem State.setReg64_memGen (s : State) (off v : Nat) : (s.setReg64 off v).memGen = s.memGen := rfl
@[simp] theorem State.setReg64_push (s : State) (off v : Nat) : (s.setReg64 off v).push = s.push := rfl
@[simp] theorem State.setReg64_spPayload (s : State) (off v : Nat) : (s.setReg64 off v).spPayload = s.spPayload := rfl
@[simp] theorem State.setReg64_freeCtr (s : State) (off v : Nat) : (s.setReg64 off v).freeCtr = s.freeCtr := rfl
@[simp] theorem State.setReg64_out (s : State) (off v : Nat) : (s.setReg64 off v).out = s.out := rfl
@[simp] theorem State.setReg64_cycle (s : State) (off v : Nat) : (s.setReg64 off v).cycle = s.cycle := rfl
@[simp] theorem State.setReg64_hostHeld (s : State) (off v : Nat) : (s.setReg64 off v).hostHeld = s.hostHeld := rfl
@[simp] theorem State.setReg64_linkUpAt (s : State) (off v : Nat) : (s.setReg64 off v).linkUpAt = s.linkUpAt := rfl
@[simp] theorem State.setReg64_now (s : State) (off v : Nat) : (s.setReg64 off v).now = s.now := rfl
@[simp] theorem State.setReg64_later (s : State) (off v : Nat) : (s.setReg64 off v).later = s.later := rfl
@[simp] theorem State.setReg64_halfCycle (s : State) (off v : Nat) : (s.setReg64 off v).halfCycle = s.halfCycle := rfl
@[simp] theorem State.setReg64_gtcHold (s : State) (off v : Nat) : (s.setReg64 off v).gtcHold = s.gtcHold := rfl
@[simp] theorem State.setReg64_sqs (s : State) (off v : Nat) : (s.setReg64 off v).sqs = s.sqs := rfl
@[simp] theorem State.setReg64_cqs (s : State) (off v : Nat) : (s.setReg64 off v).cqs = s.cqs := rfl
@[simp] theorem State.setReg64_tasks (s : State) (off v : Nat) : (s.setReg64 off v).tasks = s.tasks := rfl
@[simp] theorem State.setReg64_apertures (s : State) (off v : Nat) : (s.setReg64 off v).apertures = s.apertures := rfl
@[simp] theorem State.setReg64_apLoads (s : State) (off v : Nat) : (s.setReg64 off v).apLoads = s.apLoads := rfl
@[simp] theorem State.setReg64_ds (s : State) (off v : Nat) : (s.setReg64 off v).ds = s.ds := rfl
@[simp] theorem State.setReg64_barriers (s : State) (off v : Nat) : (s.setReg64 off v).barriers = s.barriers := rfl
@[simp] theorem State.setReg64_stepEnding (s : State) (off v : Nat) : (s.setReg64 off v).stepEnding = s.stepEnding :=
    rfl
@[simp] theorem State.setReg64_stepEndSeen (s : State) (off v : Nat) : (s.setReg64 off v).stepEndSeen = s.stepEndSeen :=
    rfl
@[simp] theorem State.setReg64_boundaryFresh (s : State) (off v : Nat) : (s.setReg64 off v).boundaryFresh = s.boundaryFresh :=
    rfl
@[simp] theorem State.setReg64_holdLen (s : State) (off v : Nat) : (s.setReg64 off v).holdLen = s.holdLen := rfl
@[simp] theorem State.setReg64_holdReported (s : State) (off v : Nat) : (s.setReg64 off v).holdReported = s.holdReported :=
    rfl
@[simp] theorem State.setReg64_deferred (s : State) (off v : Nat) : (s.setReg64 off v).deferred = s.deferred := rfl
@[simp] theorem State.setReg64_holdClose (s : State) (off v : Nat) : (s.setReg64 off v).holdClose = s.holdClose := rfl
@[simp] theorem State.setReg64_closing (s : State) (off v : Nat) : (s.setReg64 off v).closing = s.closing := rfl
@[simp] theorem State.setReg64_xcache (s : State) (off v : Nat) : (s.setReg64 off v).xcache = s.xcache := rfl
@[simp] theorem State.setReg64_invals (s : State) (off v : Nat) : (s.setReg64 off v).invals = s.invals := rfl
@[simp] theorem State.setReg64_xorphans (s : State) (off v : Nat) : (s.setReg64 off v).xorphans = s.xorphans := rfl
@[simp] theorem State.setReg64_prgs (s : State) (off v : Nat) : (s.setReg64 off v).prgs = s.prgs := rfl
@[simp] theorem State.setReg64_priAlloc (s : State) (off v : Nat) : (s.setReg64 off v).priAlloc = s.priAlloc := rfl
@[simp] theorem State.setReg64_priFailure (s : State) (off v : Nat) : (s.setReg64 off v).priFailure = s.priFailure :=
    rfl
@[simp] theorem State.setReg64_ctagSeq (s : State) (off v : Nat) : (s.setReg64 off v).ctagSeq = s.ctagSeq := rfl
@[simp] theorem State.setReg64_tables (s : State) (off v : Nat) : (s.setReg64 off v).tables = s.tables := rfl
@[simp] theorem State.setReg64_compRetired (s : State) (off v : Nat) : (s.setReg64 off v).compRetired = s.compRetired :=
    rfl
@[simp] theorem State.setReg64_expRetired (s : State) (off v : Nat) : (s.setReg64 off v).expRetired = s.expRetired :=
    rfl
@[simp] theorem State.setReg64_draining (s : State) (off v : Nat) : (s.setReg64 off v).draining = s.draining := rfl
@[simp] theorem State.setReg64_fabricHeld (s : State) (off v : Nat) : (s.setReg64 off v).fabricHeld = s.fabricHeld :=
    rfl
@[simp] theorem State.setReg64_ports (s : State) (off v : Nat) : (s.setReg64 off v).ports = s.ports := rfl
@[simp] theorem State.setReg64_msgSeq (s : State) (off v : Nat) : (s.setReg64 off v).msgSeq = s.msgSeq := rfl
@[simp] theorem State.setReg64_credits (s : State) (off v : Nat) : (s.setReg64 off v).credits = s.credits := rfl
@[simp] theorem State.setReg64_rx (s : State) (off v : Nat) : (s.setReg64 off v).rx = s.rx := rfl
@[simp] theorem State.setReg64_peers (s : State) (off v : Nat) : (s.setReg64 off v).peers = s.peers := rfl
@[simp] theorem State.setReg64_beatDue (s : State) (off v : Nat) : (s.setReg64 off v).beatDue = s.beatDue := rfl
@[simp] theorem State.setReg64_sites (s : State) (off v : Nat) : (s.setReg64 off v).sites = s.sites := rfl
@[simp] theorem State.setReg64_evac (s : State) (off v : Nat) : (s.setReg64 off v).evac = s.evac := rfl
@[simp] theorem State.setReg64_arbs (s : State) (off v : Nat) : (s.setReg64 off v).arbs = s.arbs := rfl
@[simp] theorem State.setReg64_mq (s : State) (off v : Nat) : (s.setReg64 off v).mq = s.mq := rfl
@[simp] theorem State.setReg64_flash0 (s : State) (off v : Nat) : (s.setReg64 off v).flash0 = s.flash0 := rfl
@[simp] theorem State.setReg64_flash1 (s : State) (off v : Nat) : (s.setReg64 off v).flash1 = s.flash1 := rfl
@[simp] theorem State.setReg64_record (s : State) (off v : Nat) : (s.setReg64 off v).record = s.record := rfl
@[simp] theorem State.setReg64_recordWrite (s : State) (off v : Nat) : (s.setReg64 off v).recordWrite = s.recordWrite :=
    rfl
@[simp] theorem State.setReg64_recordDirty (s : State) (off v : Nat) : (s.setReg64 off v).recordDirty = s.recordDirty :=
    rfl
@[simp] theorem State.setReg64_stackIds (s : State) (off v : Nat) : (s.setReg64 off v).stackIds = s.stackIds := rfl
@[simp] theorem State.setReg64_power (s : State) (off v : Nat) : (s.setReg64 off v).power = s.power := rfl
@[simp] theorem State.setReg64_entering (s : State) (off v : Nat) : (s.setReg64 off v).entering = s.entering := rfl
@[simp] theorem State.setReg64_waking (s : State) (off v : Nat) : (s.setReg64 off v).waking = s.waking := rfl
@[simp] theorem State.setReg64_powerAt (s : State) (off v : Nat) : (s.setReg64 off v).powerAt = s.powerAt := rfl
@[simp] theorem State.setReg64_wakeSeen (s : State) (off v : Nat) : (s.setReg64 off v).wakeSeen = s.wakeSeen := rfl
@[simp] theorem State.setReg64_latchedWake (s : State) (off v : Nat) : (s.setReg64 off v).latchedWake = s.latchedWake :=
    rfl
@[simp] theorem State.setReg64_wakeBuf (s : State) (off v : Nat) : (s.setReg64 off v).wakeBuf = s.wakeBuf := rfl
@[simp] theorem State.setReg64_powered (s : State) (off v : Nat) : (s.setReg64 off v).powered = s.powered := rfl
@[simp] theorem State.setReg64_padWait (s : State) (off v : Nat) : (s.setReg64 off v).padWait = s.padWait := rfl
@[simp] theorem State.setReg64_startup (s : State) (off v : Nat) : (s.setReg64 off v).startup = s.startup := rfl
@[simp] theorem State.setReg64_coldStart (s : State) (off v : Nat) : (s.setReg64 off v).coldStart = s.coldStart := rfl
@[simp] theorem State.setReg64_restoring (s : State) (off v : Nat) : (s.setReg64 off v).restoring = s.restoring := rfl
@[simp] theorem State.setReg64_padExit (s : State) (off v : Nat) : (s.setReg64 off v).padExit = s.padExit := rfl
@[simp] theorem State.setReg64_padAt (s : State) (off v : Nat) : (s.setReg64 off v).padAt = s.padAt := rfl
@[simp] theorem State.setReg64_checksAt (s : State) (off v : Nat) : (s.setReg64 off v).checksAt = s.checksAt := rfl
@[simp] theorem State.setReg64_linkDown (s : State) (off v : Nat) : (s.setReg64 off v).linkDown = s.linkDown := rfl
@[simp] theorem State.setReg64_linkDownCycles (s : State) (off v : Nat) : (s.setReg64 off v).linkDownCycles = s.linkDownCycles :=
    rfl
@[simp] theorem State.setReg64_idleCycles (s : State) (off v : Nat) : (s.setReg64 off v).idleCycles = s.idleCycles :=
    rfl
@[simp] theorem State.setReg64_pending (s : State) (off v : Nat) : (s.setReg64 off v).pending = s.pending := rfl
@[simp] theorem State.setNow_setReg64' (s : State) (off v : Nat) (o : Nat) :
    (s.setReg64 off v).setNow o = s.setNow o := rfl
@[simp] theorem State.readByte_setReg64' (s : State) (off v : Nat) (x2 : Nat) :
    (s.setReg64 off v).readByte x2 = s.readByte x2 := rfl
@[simp] theorem State.task_setReg64' (s : State) (off v : Nat) (t2 : TaskRef) :
    (s.setReg64 off v).task t2 = s.task t2 := rfl
@[simp] theorem State.sq_setReg64' (s : State) (off v : Nat) (q2 : Nat) : (s.setReg64 off v).sq q2 = s.sq q2 := rfl
@[simp] theorem State.cq_setReg64' (s : State) (off v : Nat) (c2 : Nat) : (s.setReg64 off v).cq c2 = s.cq c2 := rfl
@[simp] theorem State.port_setReg64' (s : State) (off v : Nat) (p2 : Nat) :
    (s.setReg64 off v).port p2 = s.port p2 := rfl
@[simp] theorem State.endpoint_setReg64' (s : State) (off v : Nat) (r2 : Nat) :
    (s.setReg64 off v).endpoint r2 = s.endpoint r2 := rfl
@[simp] theorem State.peer_setReg64' (s : State) (off v : Nat) (n2 : Nat) :
    (s.setReg64 off v).peer n2 = s.peer n2 := rfl
@[simp] theorem State.site_setReg64' (s : State) (off v : Nat) (b2 : Nat) :
    (s.setReg64 off v).site b2 = s.site b2 := rfl
@[simp] theorem State.arb_setReg64' (s : State) (off v : Nat) (a2 : Nat) : (s.setReg64 off v).arb a2 = s.arb a2 := rfl
@[simp] theorem State.stream_setReg64' (s : State) (off v : Nat) (n2 : Nat) :
    (s.setReg64 off v).stream n2 = s.stream n2 := rfl
@[simp] theorem State.apertureOwner_setReg64' (s : State) (off v : Nat) (n2 : Nat) :
    (s.setReg64 off v).apertureOwner n2 = s.apertureOwner n2 := rfl
@[simp] theorem State.below_setReg64' (s : State) (off v : Nat) : (s.setReg64 off v).below = s.below := rfl

/-! ### bump -/

@[simp] theorem State.bump_staged (s : State) (off n : Nat) : (s.bump off n).staged = s.staged := rfl
@[simp] theorem State.bump_latched (s : State) (off n : Nat) : (s.bump off n).latched = s.latched := rfl
@[simp] theorem State.bump_drt (s : State) (off n : Nat) : (s.bump off n).drt = s.drt := rfl
@[simp] theorem State.bump_bar2Log2 (s : State) (off n : Nat) : (s.bump off n).bar2Log2 = s.bar2Log2 := rfl
@[simp] theorem State.bump_mem (s : State) (off n : Nat) : (s.bump off n).mem = s.mem := rfl
@[simp] theorem State.bump_memGen (s : State) (off n : Nat) : (s.bump off n).memGen = s.memGen := rfl
@[simp] theorem State.bump_push (s : State) (off n : Nat) : (s.bump off n).push = s.push := rfl
@[simp] theorem State.bump_spPayload (s : State) (off n : Nat) : (s.bump off n).spPayload = s.spPayload := rfl
@[simp] theorem State.bump_freeCtr (s : State) (off n : Nat) : (s.bump off n).freeCtr = s.freeCtr := rfl
@[simp] theorem State.bump_out (s : State) (off n : Nat) : (s.bump off n).out = s.out := rfl
@[simp] theorem State.bump_cycle (s : State) (off n : Nat) : (s.bump off n).cycle = s.cycle := rfl
@[simp] theorem State.bump_hostHeld (s : State) (off n : Nat) : (s.bump off n).hostHeld = s.hostHeld := rfl
@[simp] theorem State.bump_linkUpAt (s : State) (off n : Nat) : (s.bump off n).linkUpAt = s.linkUpAt := rfl
@[simp] theorem State.bump_later (s : State) (off n : Nat) : (s.bump off n).later = s.later := rfl
@[simp] theorem State.bump_halfCycle (s : State) (off n : Nat) : (s.bump off n).halfCycle = s.halfCycle := rfl
@[simp] theorem State.bump_gtcHold (s : State) (off n : Nat) : (s.bump off n).gtcHold = s.gtcHold := rfl
@[simp] theorem State.bump_sqs (s : State) (off n : Nat) : (s.bump off n).sqs = s.sqs := rfl
@[simp] theorem State.bump_cqs (s : State) (off n : Nat) : (s.bump off n).cqs = s.cqs := rfl
@[simp] theorem State.bump_tasks (s : State) (off n : Nat) : (s.bump off n).tasks = s.tasks := rfl
@[simp] theorem State.bump_apertures (s : State) (off n : Nat) : (s.bump off n).apertures = s.apertures := rfl
@[simp] theorem State.bump_apLoads (s : State) (off n : Nat) : (s.bump off n).apLoads = s.apLoads := rfl
@[simp] theorem State.bump_ds (s : State) (off n : Nat) : (s.bump off n).ds = s.ds := rfl
@[simp] theorem State.bump_barriers (s : State) (off n : Nat) : (s.bump off n).barriers = s.barriers := rfl
@[simp] theorem State.bump_stepEnding (s : State) (off n : Nat) : (s.bump off n).stepEnding = s.stepEnding := rfl
@[simp] theorem State.bump_stepEndSeen (s : State) (off n : Nat) : (s.bump off n).stepEndSeen = s.stepEndSeen := rfl
@[simp] theorem State.bump_boundaryFresh (s : State) (off n : Nat) : (s.bump off n).boundaryFresh = s.boundaryFresh :=
    rfl
@[simp] theorem State.bump_holdLen (s : State) (off n : Nat) : (s.bump off n).holdLen = s.holdLen := rfl
@[simp] theorem State.bump_holdReported (s : State) (off n : Nat) : (s.bump off n).holdReported = s.holdReported := rfl
@[simp] theorem State.bump_deferred (s : State) (off n : Nat) : (s.bump off n).deferred = s.deferred := rfl
@[simp] theorem State.bump_holdClose (s : State) (off n : Nat) : (s.bump off n).holdClose = s.holdClose := rfl
@[simp] theorem State.bump_closing (s : State) (off n : Nat) : (s.bump off n).closing = s.closing := rfl
@[simp] theorem State.bump_xcache (s : State) (off n : Nat) : (s.bump off n).xcache = s.xcache := rfl
@[simp] theorem State.bump_invals (s : State) (off n : Nat) : (s.bump off n).invals = s.invals := rfl
@[simp] theorem State.bump_xorphans (s : State) (off n : Nat) : (s.bump off n).xorphans = s.xorphans := rfl
@[simp] theorem State.bump_prgs (s : State) (off n : Nat) : (s.bump off n).prgs = s.prgs := rfl
@[simp] theorem State.bump_priAlloc (s : State) (off n : Nat) : (s.bump off n).priAlloc = s.priAlloc := rfl
@[simp] theorem State.bump_priFailure (s : State) (off n : Nat) : (s.bump off n).priFailure = s.priFailure := rfl
@[simp] theorem State.bump_ctagSeq (s : State) (off n : Nat) : (s.bump off n).ctagSeq = s.ctagSeq := rfl
@[simp] theorem State.bump_tables (s : State) (off n : Nat) : (s.bump off n).tables = s.tables := rfl
@[simp] theorem State.bump_compRetired (s : State) (off n : Nat) : (s.bump off n).compRetired = s.compRetired := rfl
@[simp] theorem State.bump_expRetired (s : State) (off n : Nat) : (s.bump off n).expRetired = s.expRetired := rfl
@[simp] theorem State.bump_draining (s : State) (off n : Nat) : (s.bump off n).draining = s.draining := rfl
@[simp] theorem State.bump_fabricHeld (s : State) (off n : Nat) : (s.bump off n).fabricHeld = s.fabricHeld := rfl
@[simp] theorem State.bump_ports (s : State) (off n : Nat) : (s.bump off n).ports = s.ports := rfl
@[simp] theorem State.bump_msgSeq (s : State) (off n : Nat) : (s.bump off n).msgSeq = s.msgSeq := rfl
@[simp] theorem State.bump_credits (s : State) (off n : Nat) : (s.bump off n).credits = s.credits := rfl
@[simp] theorem State.bump_rx (s : State) (off n : Nat) : (s.bump off n).rx = s.rx := rfl
@[simp] theorem State.bump_peers (s : State) (off n : Nat) : (s.bump off n).peers = s.peers := rfl
@[simp] theorem State.bump_beatDue (s : State) (off n : Nat) : (s.bump off n).beatDue = s.beatDue := rfl
@[simp] theorem State.bump_sites (s : State) (off n : Nat) : (s.bump off n).sites = s.sites := rfl
@[simp] theorem State.bump_evac (s : State) (off n : Nat) : (s.bump off n).evac = s.evac := rfl
@[simp] theorem State.bump_arbs (s : State) (off n : Nat) : (s.bump off n).arbs = s.arbs := rfl
@[simp] theorem State.bump_mq (s : State) (off n : Nat) : (s.bump off n).mq = s.mq := rfl
@[simp] theorem State.bump_flash0 (s : State) (off n : Nat) : (s.bump off n).flash0 = s.flash0 := rfl
@[simp] theorem State.bump_flash1 (s : State) (off n : Nat) : (s.bump off n).flash1 = s.flash1 := rfl
@[simp] theorem State.bump_record (s : State) (off n : Nat) : (s.bump off n).record = s.record := rfl
@[simp] theorem State.bump_recordWrite (s : State) (off n : Nat) : (s.bump off n).recordWrite = s.recordWrite := rfl
@[simp] theorem State.bump_recordDirty (s : State) (off n : Nat) : (s.bump off n).recordDirty = s.recordDirty := rfl
@[simp] theorem State.bump_stackIds (s : State) (off n : Nat) : (s.bump off n).stackIds = s.stackIds := rfl
@[simp] theorem State.bump_power (s : State) (off n : Nat) : (s.bump off n).power = s.power := rfl
@[simp] theorem State.bump_entering (s : State) (off n : Nat) : (s.bump off n).entering = s.entering := rfl
@[simp] theorem State.bump_waking (s : State) (off n : Nat) : (s.bump off n).waking = s.waking := rfl
@[simp] theorem State.bump_powerAt (s : State) (off n : Nat) : (s.bump off n).powerAt = s.powerAt := rfl
@[simp] theorem State.bump_wakeSeen (s : State) (off n : Nat) : (s.bump off n).wakeSeen = s.wakeSeen := rfl
@[simp] theorem State.bump_latchedWake (s : State) (off n : Nat) : (s.bump off n).latchedWake = s.latchedWake := rfl
@[simp] theorem State.bump_wakeBuf (s : State) (off n : Nat) : (s.bump off n).wakeBuf = s.wakeBuf := rfl
@[simp] theorem State.bump_powered (s : State) (off n : Nat) : (s.bump off n).powered = s.powered := rfl
@[simp] theorem State.bump_padWait (s : State) (off n : Nat) : (s.bump off n).padWait = s.padWait := rfl
@[simp] theorem State.bump_startup (s : State) (off n : Nat) : (s.bump off n).startup = s.startup := rfl
@[simp] theorem State.bump_coldStart (s : State) (off n : Nat) : (s.bump off n).coldStart = s.coldStart := rfl
@[simp] theorem State.bump_restoring (s : State) (off n : Nat) : (s.bump off n).restoring = s.restoring := rfl
@[simp] theorem State.bump_padExit (s : State) (off n : Nat) : (s.bump off n).padExit = s.padExit := rfl
@[simp] theorem State.bump_padAt (s : State) (off n : Nat) : (s.bump off n).padAt = s.padAt := rfl
@[simp] theorem State.bump_checksAt (s : State) (off n : Nat) : (s.bump off n).checksAt = s.checksAt := rfl
@[simp] theorem State.bump_linkDown (s : State) (off n : Nat) : (s.bump off n).linkDown = s.linkDown := rfl
@[simp] theorem State.bump_linkDownCycles (s : State) (off n : Nat) : (s.bump off n).linkDownCycles = s.linkDownCycles :=
    rfl
@[simp] theorem State.bump_idleCycles (s : State) (off n : Nat) : (s.bump off n).idleCycles = s.idleCycles := rfl
@[simp] theorem State.bump_pending (s : State) (off n : Nat) : (s.bump off n).pending = s.pending := rfl
@[simp] theorem State.readByte_bump' (s : State) (off n : Nat) (x2 : Nat) :
    (s.bump off n).readByte x2 = s.readByte x2 := rfl
@[simp] theorem State.task_bump' (s : State) (off n : Nat) (t2 : TaskRef) : (s.bump off n).task t2 = s.task t2 := rfl
@[simp] theorem State.sq_bump' (s : State) (off n : Nat) (q2 : Nat) : (s.bump off n).sq q2 = s.sq q2 := rfl
@[simp] theorem State.cq_bump' (s : State) (off n : Nat) (c2 : Nat) : (s.bump off n).cq c2 = s.cq c2 := rfl
@[simp] theorem State.port_bump' (s : State) (off n : Nat) (p2 : Nat) : (s.bump off n).port p2 = s.port p2 := rfl
@[simp] theorem State.endpoint_bump' (s : State) (off n : Nat) (r2 : Nat) :
    (s.bump off n).endpoint r2 = s.endpoint r2 := rfl
@[simp] theorem State.peer_bump' (s : State) (off n : Nat) (n2 : Nat) : (s.bump off n).peer n2 = s.peer n2 := rfl
@[simp] theorem State.site_bump' (s : State) (off n : Nat) (b2 : Nat) : (s.bump off n).site b2 = s.site b2 := rfl
@[simp] theorem State.arb_bump' (s : State) (off n : Nat) (a2 : Nat) : (s.bump off n).arb a2 = s.arb a2 := rfl
@[simp] theorem State.stream_bump' (s : State) (off n : Nat) (n2 : Nat) : (s.bump off n).stream n2 = s.stream n2 := rfl
@[simp] theorem State.apertureOwner_bump' (s : State) (off n : Nat) (n2 : Nat) :
    (s.bump off n).apertureOwner n2 = s.apertureOwner n2 := rfl
@[simp] theorem State.below_bump' (s : State) (off n : Nat) : (s.bump off n).below = s.below := rfl

/-! ### noteSet -/

@[simp] theorem State.noteSet_regs (s : State) (off : Nat) (b : Word) : (s.noteSet off b).regs = s.regs := rfl
@[simp] theorem State.noteSet_staged (s : State) (off : Nat) (b : Word) : (s.noteSet off b).staged = s.staged := rfl
@[simp] theorem State.noteSet_latched (s : State) (off : Nat) (b : Word) : (s.noteSet off b).latched = s.latched := rfl
@[simp] theorem State.noteSet_drt (s : State) (off : Nat) (b : Word) : (s.noteSet off b).drt = s.drt := rfl
@[simp] theorem State.noteSet_bar2Log2 (s : State) (off : Nat) (b : Word) : (s.noteSet off b).bar2Log2 = s.bar2Log2 :=
    rfl
@[simp] theorem State.noteSet_mem (s : State) (off : Nat) (b : Word) : (s.noteSet off b).mem = s.mem := rfl
@[simp] theorem State.noteSet_memGen (s : State) (off : Nat) (b : Word) : (s.noteSet off b).memGen = s.memGen := rfl
@[simp] theorem State.noteSet_push (s : State) (off : Nat) (b : Word) : (s.noteSet off b).push = s.push := rfl
@[simp] theorem State.noteSet_spPayload (s : State) (off : Nat) (b : Word) : (s.noteSet off b).spPayload = s.spPayload :=
    rfl
@[simp] theorem State.noteSet_freeCtr (s : State) (off : Nat) (b : Word) : (s.noteSet off b).freeCtr = s.freeCtr := rfl
@[simp] theorem State.noteSet_out (s : State) (off : Nat) (b : Word) : (s.noteSet off b).out = s.out := rfl
@[simp] theorem State.noteSet_cycle (s : State) (off : Nat) (b : Word) : (s.noteSet off b).cycle = s.cycle := rfl
@[simp] theorem State.noteSet_hostHeld (s : State) (off : Nat) (b : Word) : (s.noteSet off b).hostHeld = s.hostHeld :=
    rfl
@[simp] theorem State.noteSet_linkUpAt (s : State) (off : Nat) (b : Word) : (s.noteSet off b).linkUpAt = s.linkUpAt :=
    rfl
@[simp] theorem State.noteSet_later (s : State) (off : Nat) (b : Word) : (s.noteSet off b).later = s.later := rfl
@[simp] theorem State.noteSet_halfCycle (s : State) (off : Nat) (b : Word) : (s.noteSet off b).halfCycle = s.halfCycle :=
    rfl
@[simp] theorem State.noteSet_gtcHold (s : State) (off : Nat) (b : Word) : (s.noteSet off b).gtcHold = s.gtcHold := rfl
@[simp] theorem State.noteSet_sqs (s : State) (off : Nat) (b : Word) : (s.noteSet off b).sqs = s.sqs := rfl
@[simp] theorem State.noteSet_cqs (s : State) (off : Nat) (b : Word) : (s.noteSet off b).cqs = s.cqs := rfl
@[simp] theorem State.noteSet_tasks (s : State) (off : Nat) (b : Word) : (s.noteSet off b).tasks = s.tasks := rfl
@[simp] theorem State.noteSet_apertures (s : State) (off : Nat) (b : Word) : (s.noteSet off b).apertures = s.apertures :=
    rfl
@[simp] theorem State.noteSet_apLoads (s : State) (off : Nat) (b : Word) : (s.noteSet off b).apLoads = s.apLoads := rfl
@[simp] theorem State.noteSet_ds (s : State) (off : Nat) (b : Word) : (s.noteSet off b).ds = s.ds := rfl
@[simp] theorem State.noteSet_barriers (s : State) (off : Nat) (b : Word) : (s.noteSet off b).barriers = s.barriers :=
    rfl
@[simp] theorem State.noteSet_stepEnding (s : State) (off : Nat) (b : Word) : (s.noteSet off b).stepEnding = s.stepEnding :=
    rfl
@[simp] theorem State.noteSet_stepEndSeen (s : State) (off : Nat) (b : Word) : (s.noteSet off b).stepEndSeen = s.stepEndSeen :=
    rfl
@[simp] theorem State.noteSet_boundaryFresh (s : State) (off : Nat) (b : Word) : (s.noteSet off b).boundaryFresh = s.boundaryFresh :=
    rfl
@[simp] theorem State.noteSet_holdLen (s : State) (off : Nat) (b : Word) : (s.noteSet off b).holdLen = s.holdLen := rfl
@[simp] theorem State.noteSet_holdReported (s : State) (off : Nat) (b : Word) : (s.noteSet off b).holdReported = s.holdReported :=
    rfl
@[simp] theorem State.noteSet_deferred (s : State) (off : Nat) (b : Word) : (s.noteSet off b).deferred = s.deferred :=
    rfl
@[simp] theorem State.noteSet_holdClose (s : State) (off : Nat) (b : Word) : (s.noteSet off b).holdClose = s.holdClose :=
    rfl
@[simp] theorem State.noteSet_closing (s : State) (off : Nat) (b : Word) : (s.noteSet off b).closing = s.closing := rfl
@[simp] theorem State.noteSet_xcache (s : State) (off : Nat) (b : Word) : (s.noteSet off b).xcache = s.xcache := rfl
@[simp] theorem State.noteSet_invals (s : State) (off : Nat) (b : Word) : (s.noteSet off b).invals = s.invals := rfl
@[simp] theorem State.noteSet_xorphans (s : State) (off : Nat) (b : Word) : (s.noteSet off b).xorphans = s.xorphans :=
    rfl
@[simp] theorem State.noteSet_prgs (s : State) (off : Nat) (b : Word) : (s.noteSet off b).prgs = s.prgs := rfl
@[simp] theorem State.noteSet_priAlloc (s : State) (off : Nat) (b : Word) : (s.noteSet off b).priAlloc = s.priAlloc :=
    rfl
@[simp] theorem State.noteSet_priFailure (s : State) (off : Nat) (b : Word) : (s.noteSet off b).priFailure = s.priFailure :=
    rfl
@[simp] theorem State.noteSet_ctagSeq (s : State) (off : Nat) (b : Word) : (s.noteSet off b).ctagSeq = s.ctagSeq := rfl
@[simp] theorem State.noteSet_tables (s : State) (off : Nat) (b : Word) : (s.noteSet off b).tables = s.tables := rfl
@[simp] theorem State.noteSet_compRetired (s : State) (off : Nat) (b : Word) : (s.noteSet off b).compRetired = s.compRetired :=
    rfl
@[simp] theorem State.noteSet_expRetired (s : State) (off : Nat) (b : Word) : (s.noteSet off b).expRetired = s.expRetired :=
    rfl
@[simp] theorem State.noteSet_draining (s : State) (off : Nat) (b : Word) : (s.noteSet off b).draining = s.draining :=
    rfl
@[simp] theorem State.noteSet_fabricHeld (s : State) (off : Nat) (b : Word) : (s.noteSet off b).fabricHeld = s.fabricHeld :=
    rfl
@[simp] theorem State.noteSet_ports (s : State) (off : Nat) (b : Word) : (s.noteSet off b).ports = s.ports := rfl
@[simp] theorem State.noteSet_msgSeq (s : State) (off : Nat) (b : Word) : (s.noteSet off b).msgSeq = s.msgSeq := rfl
@[simp] theorem State.noteSet_credits (s : State) (off : Nat) (b : Word) : (s.noteSet off b).credits = s.credits := rfl
@[simp] theorem State.noteSet_rx (s : State) (off : Nat) (b : Word) : (s.noteSet off b).rx = s.rx := rfl
@[simp] theorem State.noteSet_peers (s : State) (off : Nat) (b : Word) : (s.noteSet off b).peers = s.peers := rfl
@[simp] theorem State.noteSet_beatDue (s : State) (off : Nat) (b : Word) : (s.noteSet off b).beatDue = s.beatDue := rfl
@[simp] theorem State.noteSet_sites (s : State) (off : Nat) (b : Word) : (s.noteSet off b).sites = s.sites := rfl
@[simp] theorem State.noteSet_evac (s : State) (off : Nat) (b : Word) : (s.noteSet off b).evac = s.evac := rfl
@[simp] theorem State.noteSet_arbs (s : State) (off : Nat) (b : Word) : (s.noteSet off b).arbs = s.arbs := rfl
@[simp] theorem State.noteSet_mq (s : State) (off : Nat) (b : Word) : (s.noteSet off b).mq = s.mq := rfl
@[simp] theorem State.noteSet_flash0 (s : State) (off : Nat) (b : Word) : (s.noteSet off b).flash0 = s.flash0 := rfl
@[simp] theorem State.noteSet_flash1 (s : State) (off : Nat) (b : Word) : (s.noteSet off b).flash1 = s.flash1 := rfl
@[simp] theorem State.noteSet_record (s : State) (off : Nat) (b : Word) : (s.noteSet off b).record = s.record := rfl
@[simp] theorem State.noteSet_recordWrite (s : State) (off : Nat) (b : Word) : (s.noteSet off b).recordWrite = s.recordWrite :=
    rfl
@[simp] theorem State.noteSet_recordDirty (s : State) (off : Nat) (b : Word) : (s.noteSet off b).recordDirty = s.recordDirty :=
    rfl
@[simp] theorem State.noteSet_stackIds (s : State) (off : Nat) (b : Word) : (s.noteSet off b).stackIds = s.stackIds :=
    rfl
@[simp] theorem State.noteSet_power (s : State) (off : Nat) (b : Word) : (s.noteSet off b).power = s.power := rfl
@[simp] theorem State.noteSet_entering (s : State) (off : Nat) (b : Word) : (s.noteSet off b).entering = s.entering :=
    rfl
@[simp] theorem State.noteSet_waking (s : State) (off : Nat) (b : Word) : (s.noteSet off b).waking = s.waking := rfl
@[simp] theorem State.noteSet_powerAt (s : State) (off : Nat) (b : Word) : (s.noteSet off b).powerAt = s.powerAt := rfl
@[simp] theorem State.noteSet_wakeSeen (s : State) (off : Nat) (b : Word) : (s.noteSet off b).wakeSeen = s.wakeSeen :=
    rfl
@[simp] theorem State.noteSet_latchedWake (s : State) (off : Nat) (b : Word) : (s.noteSet off b).latchedWake = s.latchedWake :=
    rfl
@[simp] theorem State.noteSet_wakeBuf (s : State) (off : Nat) (b : Word) : (s.noteSet off b).wakeBuf = s.wakeBuf := rfl
@[simp] theorem State.noteSet_powered (s : State) (off : Nat) (b : Word) : (s.noteSet off b).powered = s.powered := rfl
@[simp] theorem State.noteSet_padWait (s : State) (off : Nat) (b : Word) : (s.noteSet off b).padWait = s.padWait := rfl
@[simp] theorem State.noteSet_startup (s : State) (off : Nat) (b : Word) : (s.noteSet off b).startup = s.startup := rfl
@[simp] theorem State.noteSet_coldStart (s : State) (off : Nat) (b : Word) : (s.noteSet off b).coldStart = s.coldStart :=
    rfl
@[simp] theorem State.noteSet_restoring (s : State) (off : Nat) (b : Word) : (s.noteSet off b).restoring = s.restoring :=
    rfl
@[simp] theorem State.noteSet_padExit (s : State) (off : Nat) (b : Word) : (s.noteSet off b).padExit = s.padExit := rfl
@[simp] theorem State.noteSet_padAt (s : State) (off : Nat) (b : Word) : (s.noteSet off b).padAt = s.padAt := rfl
@[simp] theorem State.noteSet_checksAt (s : State) (off : Nat) (b : Word) : (s.noteSet off b).checksAt = s.checksAt :=
    rfl
@[simp] theorem State.noteSet_linkDown (s : State) (off : Nat) (b : Word) : (s.noteSet off b).linkDown = s.linkDown :=
    rfl
@[simp] theorem State.noteSet_linkDownCycles (s : State) (off : Nat) (b : Word) : (s.noteSet off b).linkDownCycles = s.linkDownCycles :=
    rfl
@[simp] theorem State.noteSet_idleCycles (s : State) (off : Nat) (b : Word) : (s.noteSet off b).idleCycles = s.idleCycles :=
    rfl
@[simp] theorem State.noteSet_pending (s : State) (off : Nat) (b : Word) : (s.noteSet off b).pending = s.pending := rfl
@[simp] theorem State.reg_noteSet' (s : State) (off : Nat) (b : Word) (o : Nat) :
    (s.noteSet off b).reg o = s.reg o := rfl
@[simp] theorem State.fld_noteSet' (s : State) (off : Nat) (b : Word) (o lo2 n2 : Nat) :
    (s.noteSet off b).fld o lo2 n2 = s.fld o lo2 n2 := rfl
@[simp] theorem State.bit_noteSet' (s : State) (off : Nat) (b : Word) (o j : Nat) :
    (s.noteSet off b).bit o j = s.bit o j := rfl
@[simp] theorem State.reg64_noteSet' (s : State) (off : Nat) (b : Word) (o : Nat) :
    (s.noteSet off b).reg64 o = s.reg64 o := rfl
@[simp] theorem State.gtc_noteSet' (s : State) (off : Nat) (b : Word) : (s.noteSet off b).gtc = s.gtc := rfl
@[simp] theorem State.node_noteSet' (s : State) (off : Nat) (b : Word) : (s.noteSet off b).node = s.node := rfl
@[simp] theorem State.flag_noteSet' (s : State) (off : Nat) (b : Word) (e2 : Nat) :
    (s.noteSet off b).flag e2 = s.flag e2 := rfl
@[simp] theorem State.readByte_noteSet' (s : State) (off : Nat) (b : Word) (x2 : Nat) :
    (s.noteSet off b).readByte x2 = s.readByte x2 := rfl
@[simp] theorem State.task_noteSet' (s : State) (off : Nat) (b : Word) (t2 : TaskRef) :
    (s.noteSet off b).task t2 = s.task t2 := rfl
@[simp] theorem State.sq_noteSet' (s : State) (off : Nat) (b : Word) (q2 : Nat) :
    (s.noteSet off b).sq q2 = s.sq q2 := rfl
@[simp] theorem State.cq_noteSet' (s : State) (off : Nat) (b : Word) (c2 : Nat) :
    (s.noteSet off b).cq c2 = s.cq c2 := rfl
@[simp] theorem State.port_noteSet' (s : State) (off : Nat) (b : Word) (p2 : Nat) :
    (s.noteSet off b).port p2 = s.port p2 := rfl
@[simp] theorem State.endpoint_noteSet' (s : State) (off : Nat) (b : Word) (r2 : Nat) :
    (s.noteSet off b).endpoint r2 = s.endpoint r2 := rfl
@[simp] theorem State.peer_noteSet' (s : State) (off : Nat) (b : Word) (n2 : Nat) :
    (s.noteSet off b).peer n2 = s.peer n2 := rfl
@[simp] theorem State.site_noteSet' (s : State) (off : Nat) (b : Word) (b2 : Nat) :
    (s.noteSet off b).site b2 = s.site b2 := rfl
@[simp] theorem State.arb_noteSet' (s : State) (off : Nat) (b : Word) (a2 : Nat) :
    (s.noteSet off b).arb a2 = s.arb a2 := rfl
@[simp] theorem State.stream_noteSet' (s : State) (off : Nat) (b : Word) (n2 : Nat) :
    (s.noteSet off b).stream n2 = s.stream n2 := rfl
@[simp] theorem State.apertureOwner_noteSet' (s : State) (off : Nat) (b : Word) (n2 : Nat) :
    (s.noteSet off b).apertureOwner n2 = s.apertureOwner n2 := rfl
@[simp] theorem State.below_noteSet' (s : State) (off : Nat) (b : Word) : (s.noteSet off b).below = s.below := rfl

/-! ### hwSet -/

@[simp] theorem State.hwSet_staged (s : State) (off i : Nat) : (s.hwSet off i).staged = s.staged := rfl
@[simp] theorem State.hwSet_latched (s : State) (off i : Nat) : (s.hwSet off i).latched = s.latched := rfl
@[simp] theorem State.hwSet_drt (s : State) (off i : Nat) : (s.hwSet off i).drt = s.drt := rfl
@[simp] theorem State.hwSet_bar2Log2 (s : State) (off i : Nat) : (s.hwSet off i).bar2Log2 = s.bar2Log2 := rfl
@[simp] theorem State.hwSet_mem (s : State) (off i : Nat) : (s.hwSet off i).mem = s.mem := rfl
@[simp] theorem State.hwSet_memGen (s : State) (off i : Nat) : (s.hwSet off i).memGen = s.memGen := rfl
@[simp] theorem State.hwSet_push (s : State) (off i : Nat) : (s.hwSet off i).push = s.push := rfl
@[simp] theorem State.hwSet_spPayload (s : State) (off i : Nat) : (s.hwSet off i).spPayload = s.spPayload := rfl
@[simp] theorem State.hwSet_freeCtr (s : State) (off i : Nat) : (s.hwSet off i).freeCtr = s.freeCtr := rfl
@[simp] theorem State.hwSet_out (s : State) (off i : Nat) : (s.hwSet off i).out = s.out := rfl
@[simp] theorem State.hwSet_cycle (s : State) (off i : Nat) : (s.hwSet off i).cycle = s.cycle := rfl
@[simp] theorem State.hwSet_hostHeld (s : State) (off i : Nat) : (s.hwSet off i).hostHeld = s.hostHeld := rfl
@[simp] theorem State.hwSet_linkUpAt (s : State) (off i : Nat) : (s.hwSet off i).linkUpAt = s.linkUpAt := rfl
@[simp] theorem State.hwSet_later (s : State) (off i : Nat) : (s.hwSet off i).later = s.later := rfl
@[simp] theorem State.hwSet_halfCycle (s : State) (off i : Nat) : (s.hwSet off i).halfCycle = s.halfCycle := rfl
@[simp] theorem State.hwSet_gtcHold (s : State) (off i : Nat) : (s.hwSet off i).gtcHold = s.gtcHold := rfl
@[simp] theorem State.hwSet_sqs (s : State) (off i : Nat) : (s.hwSet off i).sqs = s.sqs := rfl
@[simp] theorem State.hwSet_cqs (s : State) (off i : Nat) : (s.hwSet off i).cqs = s.cqs := rfl
@[simp] theorem State.hwSet_tasks (s : State) (off i : Nat) : (s.hwSet off i).tasks = s.tasks := rfl
@[simp] theorem State.hwSet_apertures (s : State) (off i : Nat) : (s.hwSet off i).apertures = s.apertures := rfl
@[simp] theorem State.hwSet_apLoads (s : State) (off i : Nat) : (s.hwSet off i).apLoads = s.apLoads := rfl
@[simp] theorem State.hwSet_ds (s : State) (off i : Nat) : (s.hwSet off i).ds = s.ds := rfl
@[simp] theorem State.hwSet_barriers (s : State) (off i : Nat) : (s.hwSet off i).barriers = s.barriers := rfl
@[simp] theorem State.hwSet_stepEnding (s : State) (off i : Nat) : (s.hwSet off i).stepEnding = s.stepEnding := rfl
@[simp] theorem State.hwSet_stepEndSeen (s : State) (off i : Nat) : (s.hwSet off i).stepEndSeen = s.stepEndSeen := rfl
@[simp] theorem State.hwSet_boundaryFresh (s : State) (off i : Nat) : (s.hwSet off i).boundaryFresh = s.boundaryFresh :=
    rfl
@[simp] theorem State.hwSet_holdLen (s : State) (off i : Nat) : (s.hwSet off i).holdLen = s.holdLen := rfl
@[simp] theorem State.hwSet_holdReported (s : State) (off i : Nat) : (s.hwSet off i).holdReported = s.holdReported :=
    rfl
@[simp] theorem State.hwSet_deferred (s : State) (off i : Nat) : (s.hwSet off i).deferred = s.deferred := rfl
@[simp] theorem State.hwSet_holdClose (s : State) (off i : Nat) : (s.hwSet off i).holdClose = s.holdClose := rfl
@[simp] theorem State.hwSet_closing (s : State) (off i : Nat) : (s.hwSet off i).closing = s.closing := rfl
@[simp] theorem State.hwSet_xcache (s : State) (off i : Nat) : (s.hwSet off i).xcache = s.xcache := rfl
@[simp] theorem State.hwSet_invals (s : State) (off i : Nat) : (s.hwSet off i).invals = s.invals := rfl
@[simp] theorem State.hwSet_xorphans (s : State) (off i : Nat) : (s.hwSet off i).xorphans = s.xorphans := rfl
@[simp] theorem State.hwSet_prgs (s : State) (off i : Nat) : (s.hwSet off i).prgs = s.prgs := rfl
@[simp] theorem State.hwSet_priAlloc (s : State) (off i : Nat) : (s.hwSet off i).priAlloc = s.priAlloc := rfl
@[simp] theorem State.hwSet_priFailure (s : State) (off i : Nat) : (s.hwSet off i).priFailure = s.priFailure := rfl
@[simp] theorem State.hwSet_ctagSeq (s : State) (off i : Nat) : (s.hwSet off i).ctagSeq = s.ctagSeq := rfl
@[simp] theorem State.hwSet_tables (s : State) (off i : Nat) : (s.hwSet off i).tables = s.tables := rfl
@[simp] theorem State.hwSet_compRetired (s : State) (off i : Nat) : (s.hwSet off i).compRetired = s.compRetired := rfl
@[simp] theorem State.hwSet_expRetired (s : State) (off i : Nat) : (s.hwSet off i).expRetired = s.expRetired := rfl
@[simp] theorem State.hwSet_draining (s : State) (off i : Nat) : (s.hwSet off i).draining = s.draining := rfl
@[simp] theorem State.hwSet_fabricHeld (s : State) (off i : Nat) : (s.hwSet off i).fabricHeld = s.fabricHeld := rfl
@[simp] theorem State.hwSet_ports (s : State) (off i : Nat) : (s.hwSet off i).ports = s.ports := rfl
@[simp] theorem State.hwSet_msgSeq (s : State) (off i : Nat) : (s.hwSet off i).msgSeq = s.msgSeq := rfl
@[simp] theorem State.hwSet_credits (s : State) (off i : Nat) : (s.hwSet off i).credits = s.credits := rfl
@[simp] theorem State.hwSet_rx (s : State) (off i : Nat) : (s.hwSet off i).rx = s.rx := rfl
@[simp] theorem State.hwSet_peers (s : State) (off i : Nat) : (s.hwSet off i).peers = s.peers := rfl
@[simp] theorem State.hwSet_beatDue (s : State) (off i : Nat) : (s.hwSet off i).beatDue = s.beatDue := rfl
@[simp] theorem State.hwSet_sites (s : State) (off i : Nat) : (s.hwSet off i).sites = s.sites := rfl
@[simp] theorem State.hwSet_evac (s : State) (off i : Nat) : (s.hwSet off i).evac = s.evac := rfl
@[simp] theorem State.hwSet_arbs (s : State) (off i : Nat) : (s.hwSet off i).arbs = s.arbs := rfl
@[simp] theorem State.hwSet_mq (s : State) (off i : Nat) : (s.hwSet off i).mq = s.mq := rfl
@[simp] theorem State.hwSet_flash0 (s : State) (off i : Nat) : (s.hwSet off i).flash0 = s.flash0 := rfl
@[simp] theorem State.hwSet_flash1 (s : State) (off i : Nat) : (s.hwSet off i).flash1 = s.flash1 := rfl
@[simp] theorem State.hwSet_record (s : State) (off i : Nat) : (s.hwSet off i).record = s.record := rfl
@[simp] theorem State.hwSet_recordWrite (s : State) (off i : Nat) : (s.hwSet off i).recordWrite = s.recordWrite := rfl
@[simp] theorem State.hwSet_recordDirty (s : State) (off i : Nat) : (s.hwSet off i).recordDirty = s.recordDirty := rfl
@[simp] theorem State.hwSet_stackIds (s : State) (off i : Nat) : (s.hwSet off i).stackIds = s.stackIds := rfl
@[simp] theorem State.hwSet_power (s : State) (off i : Nat) : (s.hwSet off i).power = s.power := rfl
@[simp] theorem State.hwSet_entering (s : State) (off i : Nat) : (s.hwSet off i).entering = s.entering := rfl
@[simp] theorem State.hwSet_waking (s : State) (off i : Nat) : (s.hwSet off i).waking = s.waking := rfl
@[simp] theorem State.hwSet_powerAt (s : State) (off i : Nat) : (s.hwSet off i).powerAt = s.powerAt := rfl
@[simp] theorem State.hwSet_wakeSeen (s : State) (off i : Nat) : (s.hwSet off i).wakeSeen = s.wakeSeen := rfl
@[simp] theorem State.hwSet_latchedWake (s : State) (off i : Nat) : (s.hwSet off i).latchedWake = s.latchedWake := rfl
@[simp] theorem State.hwSet_wakeBuf (s : State) (off i : Nat) : (s.hwSet off i).wakeBuf = s.wakeBuf := rfl
@[simp] theorem State.hwSet_powered (s : State) (off i : Nat) : (s.hwSet off i).powered = s.powered := rfl
@[simp] theorem State.hwSet_padWait (s : State) (off i : Nat) : (s.hwSet off i).padWait = s.padWait := rfl
@[simp] theorem State.hwSet_startup (s : State) (off i : Nat) : (s.hwSet off i).startup = s.startup := rfl
@[simp] theorem State.hwSet_coldStart (s : State) (off i : Nat) : (s.hwSet off i).coldStart = s.coldStart := rfl
@[simp] theorem State.hwSet_restoring (s : State) (off i : Nat) : (s.hwSet off i).restoring = s.restoring := rfl
@[simp] theorem State.hwSet_padExit (s : State) (off i : Nat) : (s.hwSet off i).padExit = s.padExit := rfl
@[simp] theorem State.hwSet_padAt (s : State) (off i : Nat) : (s.hwSet off i).padAt = s.padAt := rfl
@[simp] theorem State.hwSet_checksAt (s : State) (off i : Nat) : (s.hwSet off i).checksAt = s.checksAt := rfl
@[simp] theorem State.hwSet_linkDown (s : State) (off i : Nat) : (s.hwSet off i).linkDown = s.linkDown := rfl
@[simp] theorem State.hwSet_linkDownCycles (s : State) (off i : Nat) : (s.hwSet off i).linkDownCycles = s.linkDownCycles :=
    rfl
@[simp] theorem State.hwSet_idleCycles (s : State) (off i : Nat) : (s.hwSet off i).idleCycles = s.idleCycles := rfl
@[simp] theorem State.hwSet_pending (s : State) (off i : Nat) : (s.hwSet off i).pending = s.pending := rfl
@[simp] theorem State.readByte_hwSet' (s : State) (off i : Nat) (x2 : Nat) :
    (s.hwSet off i).readByte x2 = s.readByte x2 := rfl
@[simp] theorem State.task_hwSet' (s : State) (off i : Nat) (t2 : TaskRef) : (s.hwSet off i).task t2 = s.task t2 := rfl
@[simp] theorem State.sq_hwSet' (s : State) (off i : Nat) (q2 : Nat) : (s.hwSet off i).sq q2 = s.sq q2 := rfl
@[simp] theorem State.cq_hwSet' (s : State) (off i : Nat) (c2 : Nat) : (s.hwSet off i).cq c2 = s.cq c2 := rfl
@[simp] theorem State.port_hwSet' (s : State) (off i : Nat) (p2 : Nat) : (s.hwSet off i).port p2 = s.port p2 := rfl
@[simp] theorem State.endpoint_hwSet' (s : State) (off i : Nat) (r2 : Nat) :
    (s.hwSet off i).endpoint r2 = s.endpoint r2 := rfl
@[simp] theorem State.peer_hwSet' (s : State) (off i : Nat) (n2 : Nat) : (s.hwSet off i).peer n2 = s.peer n2 := rfl
@[simp] theorem State.site_hwSet' (s : State) (off i : Nat) (b2 : Nat) : (s.hwSet off i).site b2 = s.site b2 := rfl
@[simp] theorem State.arb_hwSet' (s : State) (off i : Nat) (a2 : Nat) : (s.hwSet off i).arb a2 = s.arb a2 := rfl
@[simp] theorem State.stream_hwSet' (s : State) (off i : Nat) (n2 : Nat) :
    (s.hwSet off i).stream n2 = s.stream n2 := rfl
@[simp] theorem State.apertureOwner_hwSet' (s : State) (off i : Nat) (n2 : Nat) :
    (s.hwSet off i).apertureOwner n2 = s.apertureOwner n2 := rfl
@[simp] theorem State.below_hwSet' (s : State) (off i : Nat) : (s.hwSet off i).below = s.below := rfl

/-! ### flagLater -/

@[simp] theorem State.flagLater_regs (s : State) (e : Nat) (b : Bool) : (s.flagLater e b).regs = s.regs := rfl
@[simp] theorem State.flagLater_staged (s : State) (e : Nat) (b : Bool) : (s.flagLater e b).staged = s.staged := rfl
@[simp] theorem State.flagLater_latched (s : State) (e : Nat) (b : Bool) : (s.flagLater e b).latched = s.latched := rfl
@[simp] theorem State.flagLater_drt (s : State) (e : Nat) (b : Bool) : (s.flagLater e b).drt = s.drt := rfl
@[simp] theorem State.flagLater_bar2Log2 (s : State) (e : Nat) (b : Bool) : (s.flagLater e b).bar2Log2 = s.bar2Log2 :=
    rfl
@[simp] theorem State.flagLater_mem (s : State) (e : Nat) (b : Bool) : (s.flagLater e b).mem = s.mem := rfl
@[simp] theorem State.flagLater_memGen (s : State) (e : Nat) (b : Bool) : (s.flagLater e b).memGen = s.memGen := rfl
@[simp] theorem State.flagLater_push (s : State) (e : Nat) (b : Bool) : (s.flagLater e b).push = s.push := rfl
@[simp] theorem State.flagLater_spPayload (s : State) (e : Nat) (b : Bool) : (s.flagLater e b).spPayload = s.spPayload :=
    rfl
@[simp] theorem State.flagLater_freeCtr (s : State) (e : Nat) (b : Bool) : (s.flagLater e b).freeCtr = s.freeCtr := rfl
@[simp] theorem State.flagLater_out (s : State) (e : Nat) (b : Bool) : (s.flagLater e b).out = s.out := rfl
@[simp] theorem State.flagLater_cycle (s : State) (e : Nat) (b : Bool) : (s.flagLater e b).cycle = s.cycle := rfl
@[simp] theorem State.flagLater_hostHeld (s : State) (e : Nat) (b : Bool) : (s.flagLater e b).hostHeld = s.hostHeld :=
    rfl
@[simp] theorem State.flagLater_linkUpAt (s : State) (e : Nat) (b : Bool) : (s.flagLater e b).linkUpAt = s.linkUpAt :=
    rfl
@[simp] theorem State.flagLater_now (s : State) (e : Nat) (b : Bool) : (s.flagLater e b).now = s.now := rfl
@[simp] theorem State.flagLater_halfCycle (s : State) (e : Nat) (b : Bool) : (s.flagLater e b).halfCycle = s.halfCycle :=
    rfl
@[simp] theorem State.flagLater_gtcHold (s : State) (e : Nat) (b : Bool) : (s.flagLater e b).gtcHold = s.gtcHold := rfl
@[simp] theorem State.flagLater_sqs (s : State) (e : Nat) (b : Bool) : (s.flagLater e b).sqs = s.sqs := rfl
@[simp] theorem State.flagLater_cqs (s : State) (e : Nat) (b : Bool) : (s.flagLater e b).cqs = s.cqs := rfl
@[simp] theorem State.flagLater_tasks (s : State) (e : Nat) (b : Bool) : (s.flagLater e b).tasks = s.tasks := rfl
@[simp] theorem State.flagLater_apertures (s : State) (e : Nat) (b : Bool) : (s.flagLater e b).apertures = s.apertures :=
    rfl
@[simp] theorem State.flagLater_apLoads (s : State) (e : Nat) (b : Bool) : (s.flagLater e b).apLoads = s.apLoads := rfl
@[simp] theorem State.flagLater_ds (s : State) (e : Nat) (b : Bool) : (s.flagLater e b).ds = s.ds := rfl
@[simp] theorem State.flagLater_barriers (s : State) (e : Nat) (b : Bool) : (s.flagLater e b).barriers = s.barriers :=
    rfl
@[simp] theorem State.flagLater_stepEnding (s : State) (e : Nat) (b : Bool) : (s.flagLater e b).stepEnding = s.stepEnding :=
    rfl
@[simp] theorem State.flagLater_stepEndSeen (s : State) (e : Nat) (b : Bool) : (s.flagLater e b).stepEndSeen = s.stepEndSeen :=
    rfl
@[simp] theorem State.flagLater_boundaryFresh (s : State) (e : Nat) (b : Bool) : (s.flagLater e b).boundaryFresh = s.boundaryFresh :=
    rfl
@[simp] theorem State.flagLater_holdLen (s : State) (e : Nat) (b : Bool) : (s.flagLater e b).holdLen = s.holdLen := rfl
@[simp] theorem State.flagLater_holdReported (s : State) (e : Nat) (b : Bool) : (s.flagLater e b).holdReported = s.holdReported :=
    rfl
@[simp] theorem State.flagLater_deferred (s : State) (e : Nat) (b : Bool) : (s.flagLater e b).deferred = s.deferred :=
    rfl
@[simp] theorem State.flagLater_holdClose (s : State) (e : Nat) (b : Bool) : (s.flagLater e b).holdClose = s.holdClose :=
    rfl
@[simp] theorem State.flagLater_closing (s : State) (e : Nat) (b : Bool) : (s.flagLater e b).closing = s.closing := rfl
@[simp] theorem State.flagLater_xcache (s : State) (e : Nat) (b : Bool) : (s.flagLater e b).xcache = s.xcache := rfl
@[simp] theorem State.flagLater_invals (s : State) (e : Nat) (b : Bool) : (s.flagLater e b).invals = s.invals := rfl
@[simp] theorem State.flagLater_xorphans (s : State) (e : Nat) (b : Bool) : (s.flagLater e b).xorphans = s.xorphans :=
    rfl
@[simp] theorem State.flagLater_prgs (s : State) (e : Nat) (b : Bool) : (s.flagLater e b).prgs = s.prgs := rfl
@[simp] theorem State.flagLater_priAlloc (s : State) (e : Nat) (b : Bool) : (s.flagLater e b).priAlloc = s.priAlloc :=
    rfl
@[simp] theorem State.flagLater_priFailure (s : State) (e : Nat) (b : Bool) : (s.flagLater e b).priFailure = s.priFailure :=
    rfl
@[simp] theorem State.flagLater_ctagSeq (s : State) (e : Nat) (b : Bool) : (s.flagLater e b).ctagSeq = s.ctagSeq := rfl
@[simp] theorem State.flagLater_tables (s : State) (e : Nat) (b : Bool) : (s.flagLater e b).tables = s.tables := rfl
@[simp] theorem State.flagLater_compRetired (s : State) (e : Nat) (b : Bool) : (s.flagLater e b).compRetired = s.compRetired :=
    rfl
@[simp] theorem State.flagLater_expRetired (s : State) (e : Nat) (b : Bool) : (s.flagLater e b).expRetired = s.expRetired :=
    rfl
@[simp] theorem State.flagLater_draining (s : State) (e : Nat) (b : Bool) : (s.flagLater e b).draining = s.draining :=
    rfl
@[simp] theorem State.flagLater_fabricHeld (s : State) (e : Nat) (b : Bool) : (s.flagLater e b).fabricHeld = s.fabricHeld :=
    rfl
@[simp] theorem State.flagLater_ports (s : State) (e : Nat) (b : Bool) : (s.flagLater e b).ports = s.ports := rfl
@[simp] theorem State.flagLater_msgSeq (s : State) (e : Nat) (b : Bool) : (s.flagLater e b).msgSeq = s.msgSeq := rfl
@[simp] theorem State.flagLater_credits (s : State) (e : Nat) (b : Bool) : (s.flagLater e b).credits = s.credits := rfl
@[simp] theorem State.flagLater_rx (s : State) (e : Nat) (b : Bool) : (s.flagLater e b).rx = s.rx := rfl
@[simp] theorem State.flagLater_peers (s : State) (e : Nat) (b : Bool) : (s.flagLater e b).peers = s.peers := rfl
@[simp] theorem State.flagLater_beatDue (s : State) (e : Nat) (b : Bool) : (s.flagLater e b).beatDue = s.beatDue := rfl
@[simp] theorem State.flagLater_sites (s : State) (e : Nat) (b : Bool) : (s.flagLater e b).sites = s.sites := rfl
@[simp] theorem State.flagLater_evac (s : State) (e : Nat) (b : Bool) : (s.flagLater e b).evac = s.evac := rfl
@[simp] theorem State.flagLater_arbs (s : State) (e : Nat) (b : Bool) : (s.flagLater e b).arbs = s.arbs := rfl
@[simp] theorem State.flagLater_mq (s : State) (e : Nat) (b : Bool) : (s.flagLater e b).mq = s.mq := rfl
@[simp] theorem State.flagLater_flash0 (s : State) (e : Nat) (b : Bool) : (s.flagLater e b).flash0 = s.flash0 := rfl
@[simp] theorem State.flagLater_flash1 (s : State) (e : Nat) (b : Bool) : (s.flagLater e b).flash1 = s.flash1 := rfl
@[simp] theorem State.flagLater_record (s : State) (e : Nat) (b : Bool) : (s.flagLater e b).record = s.record := rfl
@[simp] theorem State.flagLater_recordWrite (s : State) (e : Nat) (b : Bool) : (s.flagLater e b).recordWrite = s.recordWrite :=
    rfl
@[simp] theorem State.flagLater_recordDirty (s : State) (e : Nat) (b : Bool) : (s.flagLater e b).recordDirty = s.recordDirty :=
    rfl
@[simp] theorem State.flagLater_stackIds (s : State) (e : Nat) (b : Bool) : (s.flagLater e b).stackIds = s.stackIds :=
    rfl
@[simp] theorem State.flagLater_power (s : State) (e : Nat) (b : Bool) : (s.flagLater e b).power = s.power := rfl
@[simp] theorem State.flagLater_entering (s : State) (e : Nat) (b : Bool) : (s.flagLater e b).entering = s.entering :=
    rfl
@[simp] theorem State.flagLater_waking (s : State) (e : Nat) (b : Bool) : (s.flagLater e b).waking = s.waking := rfl
@[simp] theorem State.flagLater_powerAt (s : State) (e : Nat) (b : Bool) : (s.flagLater e b).powerAt = s.powerAt := rfl
@[simp] theorem State.flagLater_wakeSeen (s : State) (e : Nat) (b : Bool) : (s.flagLater e b).wakeSeen = s.wakeSeen :=
    rfl
@[simp] theorem State.flagLater_latchedWake (s : State) (e : Nat) (b : Bool) : (s.flagLater e b).latchedWake = s.latchedWake :=
    rfl
@[simp] theorem State.flagLater_wakeBuf (s : State) (e : Nat) (b : Bool) : (s.flagLater e b).wakeBuf = s.wakeBuf := rfl
@[simp] theorem State.flagLater_powered (s : State) (e : Nat) (b : Bool) : (s.flagLater e b).powered = s.powered := rfl
@[simp] theorem State.flagLater_padWait (s : State) (e : Nat) (b : Bool) : (s.flagLater e b).padWait = s.padWait := rfl
@[simp] theorem State.flagLater_startup (s : State) (e : Nat) (b : Bool) : (s.flagLater e b).startup = s.startup := rfl
@[simp] theorem State.flagLater_coldStart (s : State) (e : Nat) (b : Bool) : (s.flagLater e b).coldStart = s.coldStart :=
    rfl
@[simp] theorem State.flagLater_restoring (s : State) (e : Nat) (b : Bool) : (s.flagLater e b).restoring = s.restoring :=
    rfl
@[simp] theorem State.flagLater_padExit (s : State) (e : Nat) (b : Bool) : (s.flagLater e b).padExit = s.padExit := rfl
@[simp] theorem State.flagLater_padAt (s : State) (e : Nat) (b : Bool) : (s.flagLater e b).padAt = s.padAt := rfl
@[simp] theorem State.flagLater_checksAt (s : State) (e : Nat) (b : Bool) : (s.flagLater e b).checksAt = s.checksAt :=
    rfl
@[simp] theorem State.flagLater_linkDown (s : State) (e : Nat) (b : Bool) : (s.flagLater e b).linkDown = s.linkDown :=
    rfl
@[simp] theorem State.flagLater_linkDownCycles (s : State) (e : Nat) (b : Bool) : (s.flagLater e b).linkDownCycles = s.linkDownCycles :=
    rfl
@[simp] theorem State.flagLater_idleCycles (s : State) (e : Nat) (b : Bool) : (s.flagLater e b).idleCycles = s.idleCycles :=
    rfl
@[simp] theorem State.flagLater_pending (s : State) (e : Nat) (b : Bool) : (s.flagLater e b).pending = s.pending := rfl
@[simp] theorem State.reg_flagLater' (s : State) (e : Nat) (b : Bool) (o : Nat) :
    (s.flagLater e b).reg o = s.reg o := rfl
@[simp] theorem State.fld_flagLater' (s : State) (e : Nat) (b : Bool) (o lo2 n2 : Nat) :
    (s.flagLater e b).fld o lo2 n2 = s.fld o lo2 n2 := rfl
@[simp] theorem State.bit_flagLater' (s : State) (e : Nat) (b : Bool) (o j : Nat) :
    (s.flagLater e b).bit o j = s.bit o j := rfl
@[simp] theorem State.reg64_flagLater' (s : State) (e : Nat) (b : Bool) (o : Nat) :
    (s.flagLater e b).reg64 o = s.reg64 o := rfl
@[simp] theorem State.setNow_flagLater' (s : State) (e : Nat) (b : Bool) (o : Nat) :
    (s.flagLater e b).setNow o = s.setNow o := rfl
@[simp] theorem State.gtc_flagLater' (s : State) (e : Nat) (b : Bool) : (s.flagLater e b).gtc = s.gtc := rfl
@[simp] theorem State.node_flagLater' (s : State) (e : Nat) (b : Bool) : (s.flagLater e b).node = s.node := rfl
@[simp] theorem State.flag_flagLater' (s : State) (e : Nat) (b : Bool) (e2 : Nat) :
    (s.flagLater e b).flag e2 = s.flag e2 := rfl
@[simp] theorem State.readByte_flagLater' (s : State) (e : Nat) (b : Bool) (x2 : Nat) :
    (s.flagLater e b).readByte x2 = s.readByte x2 := rfl
@[simp] theorem State.task_flagLater' (s : State) (e : Nat) (b : Bool) (t2 : TaskRef) :
    (s.flagLater e b).task t2 = s.task t2 := rfl
@[simp] theorem State.sq_flagLater' (s : State) (e : Nat) (b : Bool) (q2 : Nat) :
    (s.flagLater e b).sq q2 = s.sq q2 := rfl
@[simp] theorem State.cq_flagLater' (s : State) (e : Nat) (b : Bool) (c2 : Nat) :
    (s.flagLater e b).cq c2 = s.cq c2 := rfl
@[simp] theorem State.port_flagLater' (s : State) (e : Nat) (b : Bool) (p2 : Nat) :
    (s.flagLater e b).port p2 = s.port p2 := rfl
@[simp] theorem State.endpoint_flagLater' (s : State) (e : Nat) (b : Bool) (r2 : Nat) :
    (s.flagLater e b).endpoint r2 = s.endpoint r2 := rfl
@[simp] theorem State.peer_flagLater' (s : State) (e : Nat) (b : Bool) (n2 : Nat) :
    (s.flagLater e b).peer n2 = s.peer n2 := rfl
@[simp] theorem State.site_flagLater' (s : State) (e : Nat) (b : Bool) (b2 : Nat) :
    (s.flagLater e b).site b2 = s.site b2 := rfl
@[simp] theorem State.arb_flagLater' (s : State) (e : Nat) (b : Bool) (a2 : Nat) :
    (s.flagLater e b).arb a2 = s.arb a2 := rfl
@[simp] theorem State.stream_flagLater' (s : State) (e : Nat) (b : Bool) (n2 : Nat) :
    (s.flagLater e b).stream n2 = s.stream n2 := rfl
@[simp] theorem State.apertureOwner_flagLater' (s : State) (e : Nat) (b : Bool) (n2 : Nat) :
    (s.flagLater e b).apertureOwner n2 = s.apertureOwner n2 := rfl
@[simp] theorem State.below_flagLater' (s : State) (e : Nat) (b : Bool) : (s.flagLater e b).below = s.below := rfl

/-! ### latch -/

@[simp] theorem State.latch_regs (s : State) (l : Latch) : (s.latch l).regs = s.regs := rfl
@[simp] theorem State.latch_staged (s : State) (l : Latch) : (s.latch l).staged = s.staged := rfl
@[simp] theorem State.latch_latched (s : State) (l : Latch) : (s.latch l).latched = s.latched := rfl
@[simp] theorem State.latch_drt (s : State) (l : Latch) : (s.latch l).drt = s.drt := rfl
@[simp] theorem State.latch_bar2Log2 (s : State) (l : Latch) : (s.latch l).bar2Log2 = s.bar2Log2 := rfl
@[simp] theorem State.latch_mem (s : State) (l : Latch) : (s.latch l).mem = s.mem := rfl
@[simp] theorem State.latch_memGen (s : State) (l : Latch) : (s.latch l).memGen = s.memGen := rfl
@[simp] theorem State.latch_push (s : State) (l : Latch) : (s.latch l).push = s.push := rfl
@[simp] theorem State.latch_spPayload (s : State) (l : Latch) : (s.latch l).spPayload = s.spPayload := rfl
@[simp] theorem State.latch_freeCtr (s : State) (l : Latch) : (s.latch l).freeCtr = s.freeCtr := rfl
@[simp] theorem State.latch_out (s : State) (l : Latch) : (s.latch l).out = s.out := rfl
@[simp] theorem State.latch_cycle (s : State) (l : Latch) : (s.latch l).cycle = s.cycle := rfl
@[simp] theorem State.latch_hostHeld (s : State) (l : Latch) : (s.latch l).hostHeld = s.hostHeld := rfl
@[simp] theorem State.latch_linkUpAt (s : State) (l : Latch) : (s.latch l).linkUpAt = s.linkUpAt := rfl
@[simp] theorem State.latch_now (s : State) (l : Latch) : (s.latch l).now = s.now := rfl
@[simp] theorem State.latch_halfCycle (s : State) (l : Latch) : (s.latch l).halfCycle = s.halfCycle := rfl
@[simp] theorem State.latch_gtcHold (s : State) (l : Latch) : (s.latch l).gtcHold = s.gtcHold := rfl
@[simp] theorem State.latch_sqs (s : State) (l : Latch) : (s.latch l).sqs = s.sqs := rfl
@[simp] theorem State.latch_cqs (s : State) (l : Latch) : (s.latch l).cqs = s.cqs := rfl
@[simp] theorem State.latch_tasks (s : State) (l : Latch) : (s.latch l).tasks = s.tasks := rfl
@[simp] theorem State.latch_apertures (s : State) (l : Latch) : (s.latch l).apertures = s.apertures := rfl
@[simp] theorem State.latch_apLoads (s : State) (l : Latch) : (s.latch l).apLoads = s.apLoads := rfl
@[simp] theorem State.latch_ds (s : State) (l : Latch) : (s.latch l).ds = s.ds := rfl
@[simp] theorem State.latch_barriers (s : State) (l : Latch) : (s.latch l).barriers = s.barriers := rfl
@[simp] theorem State.latch_stepEnding (s : State) (l : Latch) : (s.latch l).stepEnding = s.stepEnding := rfl
@[simp] theorem State.latch_stepEndSeen (s : State) (l : Latch) : (s.latch l).stepEndSeen = s.stepEndSeen := rfl
@[simp] theorem State.latch_boundaryFresh (s : State) (l : Latch) : (s.latch l).boundaryFresh = s.boundaryFresh := rfl
@[simp] theorem State.latch_holdLen (s : State) (l : Latch) : (s.latch l).holdLen = s.holdLen := rfl
@[simp] theorem State.latch_holdReported (s : State) (l : Latch) : (s.latch l).holdReported = s.holdReported := rfl
@[simp] theorem State.latch_deferred (s : State) (l : Latch) : (s.latch l).deferred = s.deferred := rfl
@[simp] theorem State.latch_holdClose (s : State) (l : Latch) : (s.latch l).holdClose = s.holdClose := rfl
@[simp] theorem State.latch_closing (s : State) (l : Latch) : (s.latch l).closing = s.closing := rfl
@[simp] theorem State.latch_xcache (s : State) (l : Latch) : (s.latch l).xcache = s.xcache := rfl
@[simp] theorem State.latch_invals (s : State) (l : Latch) : (s.latch l).invals = s.invals := rfl
@[simp] theorem State.latch_xorphans (s : State) (l : Latch) : (s.latch l).xorphans = s.xorphans := rfl
@[simp] theorem State.latch_prgs (s : State) (l : Latch) : (s.latch l).prgs = s.prgs := rfl
@[simp] theorem State.latch_priAlloc (s : State) (l : Latch) : (s.latch l).priAlloc = s.priAlloc := rfl
@[simp] theorem State.latch_priFailure (s : State) (l : Latch) : (s.latch l).priFailure = s.priFailure := rfl
@[simp] theorem State.latch_ctagSeq (s : State) (l : Latch) : (s.latch l).ctagSeq = s.ctagSeq := rfl
@[simp] theorem State.latch_tables (s : State) (l : Latch) : (s.latch l).tables = s.tables := rfl
@[simp] theorem State.latch_compRetired (s : State) (l : Latch) : (s.latch l).compRetired = s.compRetired := rfl
@[simp] theorem State.latch_expRetired (s : State) (l : Latch) : (s.latch l).expRetired = s.expRetired := rfl
@[simp] theorem State.latch_draining (s : State) (l : Latch) : (s.latch l).draining = s.draining := rfl
@[simp] theorem State.latch_fabricHeld (s : State) (l : Latch) : (s.latch l).fabricHeld = s.fabricHeld := rfl
@[simp] theorem State.latch_ports (s : State) (l : Latch) : (s.latch l).ports = s.ports := rfl
@[simp] theorem State.latch_msgSeq (s : State) (l : Latch) : (s.latch l).msgSeq = s.msgSeq := rfl
@[simp] theorem State.latch_credits (s : State) (l : Latch) : (s.latch l).credits = s.credits := rfl
@[simp] theorem State.latch_rx (s : State) (l : Latch) : (s.latch l).rx = s.rx := rfl
@[simp] theorem State.latch_peers (s : State) (l : Latch) : (s.latch l).peers = s.peers := rfl
@[simp] theorem State.latch_beatDue (s : State) (l : Latch) : (s.latch l).beatDue = s.beatDue := rfl
@[simp] theorem State.latch_sites (s : State) (l : Latch) : (s.latch l).sites = s.sites := rfl
@[simp] theorem State.latch_evac (s : State) (l : Latch) : (s.latch l).evac = s.evac := rfl
@[simp] theorem State.latch_arbs (s : State) (l : Latch) : (s.latch l).arbs = s.arbs := rfl
@[simp] theorem State.latch_mq (s : State) (l : Latch) : (s.latch l).mq = s.mq := rfl
@[simp] theorem State.latch_flash0 (s : State) (l : Latch) : (s.latch l).flash0 = s.flash0 := rfl
@[simp] theorem State.latch_flash1 (s : State) (l : Latch) : (s.latch l).flash1 = s.flash1 := rfl
@[simp] theorem State.latch_record (s : State) (l : Latch) : (s.latch l).record = s.record := rfl
@[simp] theorem State.latch_recordWrite (s : State) (l : Latch) : (s.latch l).recordWrite = s.recordWrite := rfl
@[simp] theorem State.latch_recordDirty (s : State) (l : Latch) : (s.latch l).recordDirty = s.recordDirty := rfl
@[simp] theorem State.latch_stackIds (s : State) (l : Latch) : (s.latch l).stackIds = s.stackIds := rfl
@[simp] theorem State.latch_power (s : State) (l : Latch) : (s.latch l).power = s.power := rfl
@[simp] theorem State.latch_entering (s : State) (l : Latch) : (s.latch l).entering = s.entering := rfl
@[simp] theorem State.latch_waking (s : State) (l : Latch) : (s.latch l).waking = s.waking := rfl
@[simp] theorem State.latch_powerAt (s : State) (l : Latch) : (s.latch l).powerAt = s.powerAt := rfl
@[simp] theorem State.latch_wakeSeen (s : State) (l : Latch) : (s.latch l).wakeSeen = s.wakeSeen := rfl
@[simp] theorem State.latch_latchedWake (s : State) (l : Latch) : (s.latch l).latchedWake = s.latchedWake := rfl
@[simp] theorem State.latch_wakeBuf (s : State) (l : Latch) : (s.latch l).wakeBuf = s.wakeBuf := rfl
@[simp] theorem State.latch_powered (s : State) (l : Latch) : (s.latch l).powered = s.powered := rfl
@[simp] theorem State.latch_padWait (s : State) (l : Latch) : (s.latch l).padWait = s.padWait := rfl
@[simp] theorem State.latch_startup (s : State) (l : Latch) : (s.latch l).startup = s.startup := rfl
@[simp] theorem State.latch_coldStart (s : State) (l : Latch) : (s.latch l).coldStart = s.coldStart := rfl
@[simp] theorem State.latch_restoring (s : State) (l : Latch) : (s.latch l).restoring = s.restoring := rfl
@[simp] theorem State.latch_padExit (s : State) (l : Latch) : (s.latch l).padExit = s.padExit := rfl
@[simp] theorem State.latch_padAt (s : State) (l : Latch) : (s.latch l).padAt = s.padAt := rfl
@[simp] theorem State.latch_checksAt (s : State) (l : Latch) : (s.latch l).checksAt = s.checksAt := rfl
@[simp] theorem State.latch_linkDown (s : State) (l : Latch) : (s.latch l).linkDown = s.linkDown := rfl
@[simp] theorem State.latch_linkDownCycles (s : State) (l : Latch) : (s.latch l).linkDownCycles = s.linkDownCycles :=
    rfl
@[simp] theorem State.latch_idleCycles (s : State) (l : Latch) : (s.latch l).idleCycles = s.idleCycles := rfl
@[simp] theorem State.latch_pending (s : State) (l : Latch) : (s.latch l).pending = s.pending := rfl
@[simp] theorem State.reg_latch' (s : State) (l : Latch) (o : Nat) : (s.latch l).reg o = s.reg o := rfl
@[simp] theorem State.fld_latch' (s : State) (l : Latch) (o lo2 n2 : Nat) :
    (s.latch l).fld o lo2 n2 = s.fld o lo2 n2 := rfl
@[simp] theorem State.bit_latch' (s : State) (l : Latch) (o j : Nat) : (s.latch l).bit o j = s.bit o j := rfl
@[simp] theorem State.reg64_latch' (s : State) (l : Latch) (o : Nat) : (s.latch l).reg64 o = s.reg64 o := rfl
@[simp] theorem State.setNow_latch' (s : State) (l : Latch) (o : Nat) : (s.latch l).setNow o = s.setNow o := rfl
@[simp] theorem State.gtc_latch' (s : State) (l : Latch) : (s.latch l).gtc = s.gtc := rfl
@[simp] theorem State.node_latch' (s : State) (l : Latch) : (s.latch l).node = s.node := rfl
@[simp] theorem State.flag_latch' (s : State) (l : Latch) (e2 : Nat) : (s.latch l).flag e2 = s.flag e2 := rfl
@[simp] theorem State.readByte_latch' (s : State) (l : Latch) (x2 : Nat) :
    (s.latch l).readByte x2 = s.readByte x2 := rfl
@[simp] theorem State.task_latch' (s : State) (l : Latch) (t2 : TaskRef) : (s.latch l).task t2 = s.task t2 := rfl
@[simp] theorem State.sq_latch' (s : State) (l : Latch) (q2 : Nat) : (s.latch l).sq q2 = s.sq q2 := rfl
@[simp] theorem State.cq_latch' (s : State) (l : Latch) (c2 : Nat) : (s.latch l).cq c2 = s.cq c2 := rfl
@[simp] theorem State.port_latch' (s : State) (l : Latch) (p2 : Nat) : (s.latch l).port p2 = s.port p2 := rfl
@[simp] theorem State.endpoint_latch' (s : State) (l : Latch) (r2 : Nat) :
    (s.latch l).endpoint r2 = s.endpoint r2 := rfl
@[simp] theorem State.peer_latch' (s : State) (l : Latch) (n2 : Nat) : (s.latch l).peer n2 = s.peer n2 := rfl
@[simp] theorem State.site_latch' (s : State) (l : Latch) (b2 : Nat) : (s.latch l).site b2 = s.site b2 := rfl
@[simp] theorem State.arb_latch' (s : State) (l : Latch) (a2 : Nat) : (s.latch l).arb a2 = s.arb a2 := rfl
@[simp] theorem State.stream_latch' (s : State) (l : Latch) (n2 : Nat) : (s.latch l).stream n2 = s.stream n2 := rfl
@[simp] theorem State.apertureOwner_latch' (s : State) (l : Latch) (n2 : Nat) :
    (s.latch l).apertureOwner n2 = s.apertureOwner n2 := rfl
@[simp] theorem State.below_latch' (s : State) (l : Latch) : (s.latch l).below = s.below := rfl

/-! ### bump64 -/

@[simp] theorem State.bump64_staged (s : State) (off n : Nat) : (s.bump64 off n).staged = s.staged := rfl
@[simp] theorem State.bump64_latched (s : State) (off n : Nat) : (s.bump64 off n).latched = s.latched := rfl
@[simp] theorem State.bump64_drt (s : State) (off n : Nat) : (s.bump64 off n).drt = s.drt := rfl
@[simp] theorem State.bump64_bar2Log2 (s : State) (off n : Nat) : (s.bump64 off n).bar2Log2 = s.bar2Log2 := rfl
@[simp] theorem State.bump64_mem (s : State) (off n : Nat) : (s.bump64 off n).mem = s.mem := rfl
@[simp] theorem State.bump64_memGen (s : State) (off n : Nat) : (s.bump64 off n).memGen = s.memGen := rfl
@[simp] theorem State.bump64_push (s : State) (off n : Nat) : (s.bump64 off n).push = s.push := rfl
@[simp] theorem State.bump64_spPayload (s : State) (off n : Nat) : (s.bump64 off n).spPayload = s.spPayload := rfl
@[simp] theorem State.bump64_freeCtr (s : State) (off n : Nat) : (s.bump64 off n).freeCtr = s.freeCtr := rfl
@[simp] theorem State.bump64_out (s : State) (off n : Nat) : (s.bump64 off n).out = s.out := rfl
@[simp] theorem State.bump64_cycle (s : State) (off n : Nat) : (s.bump64 off n).cycle = s.cycle := rfl
@[simp] theorem State.bump64_hostHeld (s : State) (off n : Nat) : (s.bump64 off n).hostHeld = s.hostHeld := rfl
@[simp] theorem State.bump64_linkUpAt (s : State) (off n : Nat) : (s.bump64 off n).linkUpAt = s.linkUpAt := rfl
@[simp] theorem State.bump64_now (s : State) (off n : Nat) : (s.bump64 off n).now = s.now := rfl
@[simp] theorem State.bump64_later (s : State) (off n : Nat) : (s.bump64 off n).later = s.later := rfl
@[simp] theorem State.bump64_halfCycle (s : State) (off n : Nat) : (s.bump64 off n).halfCycle = s.halfCycle := rfl
@[simp] theorem State.bump64_gtcHold (s : State) (off n : Nat) : (s.bump64 off n).gtcHold = s.gtcHold := rfl
@[simp] theorem State.bump64_sqs (s : State) (off n : Nat) : (s.bump64 off n).sqs = s.sqs := rfl
@[simp] theorem State.bump64_cqs (s : State) (off n : Nat) : (s.bump64 off n).cqs = s.cqs := rfl
@[simp] theorem State.bump64_tasks (s : State) (off n : Nat) : (s.bump64 off n).tasks = s.tasks := rfl
@[simp] theorem State.bump64_apertures (s : State) (off n : Nat) : (s.bump64 off n).apertures = s.apertures := rfl
@[simp] theorem State.bump64_apLoads (s : State) (off n : Nat) : (s.bump64 off n).apLoads = s.apLoads := rfl
@[simp] theorem State.bump64_ds (s : State) (off n : Nat) : (s.bump64 off n).ds = s.ds := rfl
@[simp] theorem State.bump64_barriers (s : State) (off n : Nat) : (s.bump64 off n).barriers = s.barriers := rfl
@[simp] theorem State.bump64_stepEnding (s : State) (off n : Nat) : (s.bump64 off n).stepEnding = s.stepEnding := rfl
@[simp] theorem State.bump64_stepEndSeen (s : State) (off n : Nat) : (s.bump64 off n).stepEndSeen = s.stepEndSeen :=
    rfl
@[simp] theorem State.bump64_boundaryFresh (s : State) (off n : Nat) : (s.bump64 off n).boundaryFresh = s.boundaryFresh :=
    rfl
@[simp] theorem State.bump64_holdLen (s : State) (off n : Nat) : (s.bump64 off n).holdLen = s.holdLen := rfl
@[simp] theorem State.bump64_holdReported (s : State) (off n : Nat) : (s.bump64 off n).holdReported = s.holdReported :=
    rfl
@[simp] theorem State.bump64_deferred (s : State) (off n : Nat) : (s.bump64 off n).deferred = s.deferred := rfl
@[simp] theorem State.bump64_holdClose (s : State) (off n : Nat) : (s.bump64 off n).holdClose = s.holdClose := rfl
@[simp] theorem State.bump64_closing (s : State) (off n : Nat) : (s.bump64 off n).closing = s.closing := rfl
@[simp] theorem State.bump64_xcache (s : State) (off n : Nat) : (s.bump64 off n).xcache = s.xcache := rfl
@[simp] theorem State.bump64_invals (s : State) (off n : Nat) : (s.bump64 off n).invals = s.invals := rfl
@[simp] theorem State.bump64_xorphans (s : State) (off n : Nat) : (s.bump64 off n).xorphans = s.xorphans := rfl
@[simp] theorem State.bump64_prgs (s : State) (off n : Nat) : (s.bump64 off n).prgs = s.prgs := rfl
@[simp] theorem State.bump64_priAlloc (s : State) (off n : Nat) : (s.bump64 off n).priAlloc = s.priAlloc := rfl
@[simp] theorem State.bump64_priFailure (s : State) (off n : Nat) : (s.bump64 off n).priFailure = s.priFailure := rfl
@[simp] theorem State.bump64_ctagSeq (s : State) (off n : Nat) : (s.bump64 off n).ctagSeq = s.ctagSeq := rfl
@[simp] theorem State.bump64_tables (s : State) (off n : Nat) : (s.bump64 off n).tables = s.tables := rfl
@[simp] theorem State.bump64_compRetired (s : State) (off n : Nat) : (s.bump64 off n).compRetired = s.compRetired :=
    rfl
@[simp] theorem State.bump64_expRetired (s : State) (off n : Nat) : (s.bump64 off n).expRetired = s.expRetired := rfl
@[simp] theorem State.bump64_draining (s : State) (off n : Nat) : (s.bump64 off n).draining = s.draining := rfl
@[simp] theorem State.bump64_fabricHeld (s : State) (off n : Nat) : (s.bump64 off n).fabricHeld = s.fabricHeld := rfl
@[simp] theorem State.bump64_ports (s : State) (off n : Nat) : (s.bump64 off n).ports = s.ports := rfl
@[simp] theorem State.bump64_msgSeq (s : State) (off n : Nat) : (s.bump64 off n).msgSeq = s.msgSeq := rfl
@[simp] theorem State.bump64_credits (s : State) (off n : Nat) : (s.bump64 off n).credits = s.credits := rfl
@[simp] theorem State.bump64_rx (s : State) (off n : Nat) : (s.bump64 off n).rx = s.rx := rfl
@[simp] theorem State.bump64_peers (s : State) (off n : Nat) : (s.bump64 off n).peers = s.peers := rfl
@[simp] theorem State.bump64_beatDue (s : State) (off n : Nat) : (s.bump64 off n).beatDue = s.beatDue := rfl
@[simp] theorem State.bump64_sites (s : State) (off n : Nat) : (s.bump64 off n).sites = s.sites := rfl
@[simp] theorem State.bump64_evac (s : State) (off n : Nat) : (s.bump64 off n).evac = s.evac := rfl
@[simp] theorem State.bump64_arbs (s : State) (off n : Nat) : (s.bump64 off n).arbs = s.arbs := rfl
@[simp] theorem State.bump64_mq (s : State) (off n : Nat) : (s.bump64 off n).mq = s.mq := rfl
@[simp] theorem State.bump64_flash0 (s : State) (off n : Nat) : (s.bump64 off n).flash0 = s.flash0 := rfl
@[simp] theorem State.bump64_flash1 (s : State) (off n : Nat) : (s.bump64 off n).flash1 = s.flash1 := rfl
@[simp] theorem State.bump64_record (s : State) (off n : Nat) : (s.bump64 off n).record = s.record := rfl
@[simp] theorem State.bump64_recordWrite (s : State) (off n : Nat) : (s.bump64 off n).recordWrite = s.recordWrite :=
    rfl
@[simp] theorem State.bump64_recordDirty (s : State) (off n : Nat) : (s.bump64 off n).recordDirty = s.recordDirty :=
    rfl
@[simp] theorem State.bump64_stackIds (s : State) (off n : Nat) : (s.bump64 off n).stackIds = s.stackIds := rfl
@[simp] theorem State.bump64_power (s : State) (off n : Nat) : (s.bump64 off n).power = s.power := rfl
@[simp] theorem State.bump64_entering (s : State) (off n : Nat) : (s.bump64 off n).entering = s.entering := rfl
@[simp] theorem State.bump64_waking (s : State) (off n : Nat) : (s.bump64 off n).waking = s.waking := rfl
@[simp] theorem State.bump64_powerAt (s : State) (off n : Nat) : (s.bump64 off n).powerAt = s.powerAt := rfl
@[simp] theorem State.bump64_wakeSeen (s : State) (off n : Nat) : (s.bump64 off n).wakeSeen = s.wakeSeen := rfl
@[simp] theorem State.bump64_latchedWake (s : State) (off n : Nat) : (s.bump64 off n).latchedWake = s.latchedWake :=
    rfl
@[simp] theorem State.bump64_wakeBuf (s : State) (off n : Nat) : (s.bump64 off n).wakeBuf = s.wakeBuf := rfl
@[simp] theorem State.bump64_powered (s : State) (off n : Nat) : (s.bump64 off n).powered = s.powered := rfl
@[simp] theorem State.bump64_padWait (s : State) (off n : Nat) : (s.bump64 off n).padWait = s.padWait := rfl
@[simp] theorem State.bump64_startup (s : State) (off n : Nat) : (s.bump64 off n).startup = s.startup := rfl
@[simp] theorem State.bump64_coldStart (s : State) (off n : Nat) : (s.bump64 off n).coldStart = s.coldStart := rfl
@[simp] theorem State.bump64_restoring (s : State) (off n : Nat) : (s.bump64 off n).restoring = s.restoring := rfl
@[simp] theorem State.bump64_padExit (s : State) (off n : Nat) : (s.bump64 off n).padExit = s.padExit := rfl
@[simp] theorem State.bump64_padAt (s : State) (off n : Nat) : (s.bump64 off n).padAt = s.padAt := rfl
@[simp] theorem State.bump64_checksAt (s : State) (off n : Nat) : (s.bump64 off n).checksAt = s.checksAt := rfl
@[simp] theorem State.bump64_linkDown (s : State) (off n : Nat) : (s.bump64 off n).linkDown = s.linkDown := rfl
@[simp] theorem State.bump64_linkDownCycles (s : State) (off n : Nat) : (s.bump64 off n).linkDownCycles = s.linkDownCycles :=
    rfl
@[simp] theorem State.bump64_idleCycles (s : State) (off n : Nat) : (s.bump64 off n).idleCycles = s.idleCycles := rfl
@[simp] theorem State.bump64_pending (s : State) (off n : Nat) : (s.bump64 off n).pending = s.pending := rfl
@[simp] theorem State.setNow_bump64' (s : State) (off n : Nat) (o : Nat) :
    (s.bump64 off n).setNow o = s.setNow o := rfl
@[simp] theorem State.readByte_bump64' (s : State) (off n : Nat) (x2 : Nat) :
    (s.bump64 off n).readByte x2 = s.readByte x2 := rfl
@[simp] theorem State.task_bump64' (s : State) (off n : Nat) (t2 : TaskRef) :
    (s.bump64 off n).task t2 = s.task t2 := rfl
@[simp] theorem State.sq_bump64' (s : State) (off n : Nat) (q2 : Nat) : (s.bump64 off n).sq q2 = s.sq q2 := rfl
@[simp] theorem State.cq_bump64' (s : State) (off n : Nat) (c2 : Nat) : (s.bump64 off n).cq c2 = s.cq c2 := rfl
@[simp] theorem State.port_bump64' (s : State) (off n : Nat) (p2 : Nat) : (s.bump64 off n).port p2 = s.port p2 := rfl
@[simp] theorem State.endpoint_bump64' (s : State) (off n : Nat) (r2 : Nat) :
    (s.bump64 off n).endpoint r2 = s.endpoint r2 := rfl
@[simp] theorem State.peer_bump64' (s : State) (off n : Nat) (n2 : Nat) : (s.bump64 off n).peer n2 = s.peer n2 := rfl
@[simp] theorem State.site_bump64' (s : State) (off n : Nat) (b2 : Nat) : (s.bump64 off n).site b2 = s.site b2 := rfl
@[simp] theorem State.arb_bump64' (s : State) (off n : Nat) (a2 : Nat) : (s.bump64 off n).arb a2 = s.arb a2 := rfl
@[simp] theorem State.stream_bump64' (s : State) (off n : Nat) (n2 : Nat) :
    (s.bump64 off n).stream n2 = s.stream n2 := rfl
@[simp] theorem State.apertureOwner_bump64' (s : State) (off n : Nat) (n2 : Nat) :
    (s.bump64 off n).apertureOwner n2 = s.apertureOwner n2 := rfl
@[simp] theorem State.below_bump64' (s : State) (off n : Nat) : (s.bump64 off n).below = s.below := rfl

/-! ### wrapAdd -/

@[simp] theorem State.wrapAdd_staged (s : State) (off n : Nat) : (s.wrapAdd off n).staged = s.staged := rfl
@[simp] theorem State.wrapAdd_latched (s : State) (off n : Nat) : (s.wrapAdd off n).latched = s.latched := rfl
@[simp] theorem State.wrapAdd_drt (s : State) (off n : Nat) : (s.wrapAdd off n).drt = s.drt := rfl
@[simp] theorem State.wrapAdd_bar2Log2 (s : State) (off n : Nat) : (s.wrapAdd off n).bar2Log2 = s.bar2Log2 := rfl
@[simp] theorem State.wrapAdd_mem (s : State) (off n : Nat) : (s.wrapAdd off n).mem = s.mem := rfl
@[simp] theorem State.wrapAdd_memGen (s : State) (off n : Nat) : (s.wrapAdd off n).memGen = s.memGen := rfl
@[simp] theorem State.wrapAdd_push (s : State) (off n : Nat) : (s.wrapAdd off n).push = s.push := rfl
@[simp] theorem State.wrapAdd_spPayload (s : State) (off n : Nat) : (s.wrapAdd off n).spPayload = s.spPayload := rfl
@[simp] theorem State.wrapAdd_freeCtr (s : State) (off n : Nat) : (s.wrapAdd off n).freeCtr = s.freeCtr := rfl
@[simp] theorem State.wrapAdd_out (s : State) (off n : Nat) : (s.wrapAdd off n).out = s.out := rfl
@[simp] theorem State.wrapAdd_cycle (s : State) (off n : Nat) : (s.wrapAdd off n).cycle = s.cycle := rfl
@[simp] theorem State.wrapAdd_hostHeld (s : State) (off n : Nat) : (s.wrapAdd off n).hostHeld = s.hostHeld := rfl
@[simp] theorem State.wrapAdd_linkUpAt (s : State) (off n : Nat) : (s.wrapAdd off n).linkUpAt = s.linkUpAt := rfl
@[simp] theorem State.wrapAdd_now (s : State) (off n : Nat) : (s.wrapAdd off n).now = s.now := rfl
@[simp] theorem State.wrapAdd_later (s : State) (off n : Nat) : (s.wrapAdd off n).later = s.later := rfl
@[simp] theorem State.wrapAdd_halfCycle (s : State) (off n : Nat) : (s.wrapAdd off n).halfCycle = s.halfCycle := rfl
@[simp] theorem State.wrapAdd_gtcHold (s : State) (off n : Nat) : (s.wrapAdd off n).gtcHold = s.gtcHold := rfl
@[simp] theorem State.wrapAdd_sqs (s : State) (off n : Nat) : (s.wrapAdd off n).sqs = s.sqs := rfl
@[simp] theorem State.wrapAdd_cqs (s : State) (off n : Nat) : (s.wrapAdd off n).cqs = s.cqs := rfl
@[simp] theorem State.wrapAdd_tasks (s : State) (off n : Nat) : (s.wrapAdd off n).tasks = s.tasks := rfl
@[simp] theorem State.wrapAdd_apertures (s : State) (off n : Nat) : (s.wrapAdd off n).apertures = s.apertures := rfl
@[simp] theorem State.wrapAdd_apLoads (s : State) (off n : Nat) : (s.wrapAdd off n).apLoads = s.apLoads := rfl
@[simp] theorem State.wrapAdd_ds (s : State) (off n : Nat) : (s.wrapAdd off n).ds = s.ds := rfl
@[simp] theorem State.wrapAdd_barriers (s : State) (off n : Nat) : (s.wrapAdd off n).barriers = s.barriers := rfl
@[simp] theorem State.wrapAdd_stepEnding (s : State) (off n : Nat) : (s.wrapAdd off n).stepEnding = s.stepEnding := rfl
@[simp] theorem State.wrapAdd_stepEndSeen (s : State) (off n : Nat) : (s.wrapAdd off n).stepEndSeen = s.stepEndSeen :=
    rfl
@[simp] theorem State.wrapAdd_boundaryFresh (s : State) (off n : Nat) : (s.wrapAdd off n).boundaryFresh = s.boundaryFresh :=
    rfl
@[simp] theorem State.wrapAdd_holdLen (s : State) (off n : Nat) : (s.wrapAdd off n).holdLen = s.holdLen := rfl
@[simp] theorem State.wrapAdd_holdReported (s : State) (off n : Nat) : (s.wrapAdd off n).holdReported = s.holdReported :=
    rfl
@[simp] theorem State.wrapAdd_deferred (s : State) (off n : Nat) : (s.wrapAdd off n).deferred = s.deferred := rfl
@[simp] theorem State.wrapAdd_holdClose (s : State) (off n : Nat) : (s.wrapAdd off n).holdClose = s.holdClose := rfl
@[simp] theorem State.wrapAdd_closing (s : State) (off n : Nat) : (s.wrapAdd off n).closing = s.closing := rfl
@[simp] theorem State.wrapAdd_xcache (s : State) (off n : Nat) : (s.wrapAdd off n).xcache = s.xcache := rfl
@[simp] theorem State.wrapAdd_invals (s : State) (off n : Nat) : (s.wrapAdd off n).invals = s.invals := rfl
@[simp] theorem State.wrapAdd_xorphans (s : State) (off n : Nat) : (s.wrapAdd off n).xorphans = s.xorphans := rfl
@[simp] theorem State.wrapAdd_prgs (s : State) (off n : Nat) : (s.wrapAdd off n).prgs = s.prgs := rfl
@[simp] theorem State.wrapAdd_priAlloc (s : State) (off n : Nat) : (s.wrapAdd off n).priAlloc = s.priAlloc := rfl
@[simp] theorem State.wrapAdd_priFailure (s : State) (off n : Nat) : (s.wrapAdd off n).priFailure = s.priFailure := rfl
@[simp] theorem State.wrapAdd_ctagSeq (s : State) (off n : Nat) : (s.wrapAdd off n).ctagSeq = s.ctagSeq := rfl
@[simp] theorem State.wrapAdd_tables (s : State) (off n : Nat) : (s.wrapAdd off n).tables = s.tables := rfl
@[simp] theorem State.wrapAdd_compRetired (s : State) (off n : Nat) : (s.wrapAdd off n).compRetired = s.compRetired :=
    rfl
@[simp] theorem State.wrapAdd_expRetired (s : State) (off n : Nat) : (s.wrapAdd off n).expRetired = s.expRetired := rfl
@[simp] theorem State.wrapAdd_draining (s : State) (off n : Nat) : (s.wrapAdd off n).draining = s.draining := rfl
@[simp] theorem State.wrapAdd_fabricHeld (s : State) (off n : Nat) : (s.wrapAdd off n).fabricHeld = s.fabricHeld := rfl
@[simp] theorem State.wrapAdd_ports (s : State) (off n : Nat) : (s.wrapAdd off n).ports = s.ports := rfl
@[simp] theorem State.wrapAdd_msgSeq (s : State) (off n : Nat) : (s.wrapAdd off n).msgSeq = s.msgSeq := rfl
@[simp] theorem State.wrapAdd_credits (s : State) (off n : Nat) : (s.wrapAdd off n).credits = s.credits := rfl
@[simp] theorem State.wrapAdd_rx (s : State) (off n : Nat) : (s.wrapAdd off n).rx = s.rx := rfl
@[simp] theorem State.wrapAdd_peers (s : State) (off n : Nat) : (s.wrapAdd off n).peers = s.peers := rfl
@[simp] theorem State.wrapAdd_beatDue (s : State) (off n : Nat) : (s.wrapAdd off n).beatDue = s.beatDue := rfl
@[simp] theorem State.wrapAdd_sites (s : State) (off n : Nat) : (s.wrapAdd off n).sites = s.sites := rfl
@[simp] theorem State.wrapAdd_evac (s : State) (off n : Nat) : (s.wrapAdd off n).evac = s.evac := rfl
@[simp] theorem State.wrapAdd_arbs (s : State) (off n : Nat) : (s.wrapAdd off n).arbs = s.arbs := rfl
@[simp] theorem State.wrapAdd_mq (s : State) (off n : Nat) : (s.wrapAdd off n).mq = s.mq := rfl
@[simp] theorem State.wrapAdd_flash0 (s : State) (off n : Nat) : (s.wrapAdd off n).flash0 = s.flash0 := rfl
@[simp] theorem State.wrapAdd_flash1 (s : State) (off n : Nat) : (s.wrapAdd off n).flash1 = s.flash1 := rfl
@[simp] theorem State.wrapAdd_record (s : State) (off n : Nat) : (s.wrapAdd off n).record = s.record := rfl
@[simp] theorem State.wrapAdd_recordWrite (s : State) (off n : Nat) : (s.wrapAdd off n).recordWrite = s.recordWrite :=
    rfl
@[simp] theorem State.wrapAdd_recordDirty (s : State) (off n : Nat) : (s.wrapAdd off n).recordDirty = s.recordDirty :=
    rfl
@[simp] theorem State.wrapAdd_stackIds (s : State) (off n : Nat) : (s.wrapAdd off n).stackIds = s.stackIds := rfl
@[simp] theorem State.wrapAdd_power (s : State) (off n : Nat) : (s.wrapAdd off n).power = s.power := rfl
@[simp] theorem State.wrapAdd_entering (s : State) (off n : Nat) : (s.wrapAdd off n).entering = s.entering := rfl
@[simp] theorem State.wrapAdd_waking (s : State) (off n : Nat) : (s.wrapAdd off n).waking = s.waking := rfl
@[simp] theorem State.wrapAdd_powerAt (s : State) (off n : Nat) : (s.wrapAdd off n).powerAt = s.powerAt := rfl
@[simp] theorem State.wrapAdd_wakeSeen (s : State) (off n : Nat) : (s.wrapAdd off n).wakeSeen = s.wakeSeen := rfl
@[simp] theorem State.wrapAdd_latchedWake (s : State) (off n : Nat) : (s.wrapAdd off n).latchedWake = s.latchedWake :=
    rfl
@[simp] theorem State.wrapAdd_wakeBuf (s : State) (off n : Nat) : (s.wrapAdd off n).wakeBuf = s.wakeBuf := rfl
@[simp] theorem State.wrapAdd_powered (s : State) (off n : Nat) : (s.wrapAdd off n).powered = s.powered := rfl
@[simp] theorem State.wrapAdd_padWait (s : State) (off n : Nat) : (s.wrapAdd off n).padWait = s.padWait := rfl
@[simp] theorem State.wrapAdd_startup (s : State) (off n : Nat) : (s.wrapAdd off n).startup = s.startup := rfl
@[simp] theorem State.wrapAdd_coldStart (s : State) (off n : Nat) : (s.wrapAdd off n).coldStart = s.coldStart := rfl
@[simp] theorem State.wrapAdd_restoring (s : State) (off n : Nat) : (s.wrapAdd off n).restoring = s.restoring := rfl
@[simp] theorem State.wrapAdd_padExit (s : State) (off n : Nat) : (s.wrapAdd off n).padExit = s.padExit := rfl
@[simp] theorem State.wrapAdd_padAt (s : State) (off n : Nat) : (s.wrapAdd off n).padAt = s.padAt := rfl
@[simp] theorem State.wrapAdd_checksAt (s : State) (off n : Nat) : (s.wrapAdd off n).checksAt = s.checksAt := rfl
@[simp] theorem State.wrapAdd_linkDown (s : State) (off n : Nat) : (s.wrapAdd off n).linkDown = s.linkDown := rfl
@[simp] theorem State.wrapAdd_linkDownCycles (s : State) (off n : Nat) : (s.wrapAdd off n).linkDownCycles = s.linkDownCycles :=
    rfl
@[simp] theorem State.wrapAdd_idleCycles (s : State) (off n : Nat) : (s.wrapAdd off n).idleCycles = s.idleCycles := rfl
@[simp] theorem State.wrapAdd_pending (s : State) (off n : Nat) : (s.wrapAdd off n).pending = s.pending := rfl
@[simp] theorem State.setNow_wrapAdd' (s : State) (off n : Nat) (o : Nat) :
    (s.wrapAdd off n).setNow o = s.setNow o := rfl
@[simp] theorem State.readByte_wrapAdd' (s : State) (off n : Nat) (x2 : Nat) :
    (s.wrapAdd off n).readByte x2 = s.readByte x2 := rfl
@[simp] theorem State.task_wrapAdd' (s : State) (off n : Nat) (t2 : TaskRef) :
    (s.wrapAdd off n).task t2 = s.task t2 := rfl
@[simp] theorem State.sq_wrapAdd' (s : State) (off n : Nat) (q2 : Nat) : (s.wrapAdd off n).sq q2 = s.sq q2 := rfl
@[simp] theorem State.cq_wrapAdd' (s : State) (off n : Nat) (c2 : Nat) : (s.wrapAdd off n).cq c2 = s.cq c2 := rfl
@[simp] theorem State.port_wrapAdd' (s : State) (off n : Nat) (p2 : Nat) : (s.wrapAdd off n).port p2 = s.port p2 := rfl
@[simp] theorem State.endpoint_wrapAdd' (s : State) (off n : Nat) (r2 : Nat) :
    (s.wrapAdd off n).endpoint r2 = s.endpoint r2 := rfl
@[simp] theorem State.peer_wrapAdd' (s : State) (off n : Nat) (n2 : Nat) : (s.wrapAdd off n).peer n2 = s.peer n2 := rfl
@[simp] theorem State.site_wrapAdd' (s : State) (off n : Nat) (b2 : Nat) : (s.wrapAdd off n).site b2 = s.site b2 := rfl
@[simp] theorem State.arb_wrapAdd' (s : State) (off n : Nat) (a2 : Nat) : (s.wrapAdd off n).arb a2 = s.arb a2 := rfl
@[simp] theorem State.stream_wrapAdd' (s : State) (off n : Nat) (n2 : Nat) :
    (s.wrapAdd off n).stream n2 = s.stream n2 := rfl
@[simp] theorem State.apertureOwner_wrapAdd' (s : State) (off n : Nat) (n2 : Nat) :
    (s.wrapAdd off n).apertureOwner n2 = s.apertureOwner n2 := rfl
@[simp] theorem State.below_wrapAdd' (s : State) (off n : Nat) : (s.wrapAdd off n).below = s.below := rfl

/-! ### putFlag -/

@[simp] theorem State.putFlag_staged (s : State) (e : Nat) (b : Bool) : (s.putFlag e b).staged = s.staged := rfl
@[simp] theorem State.putFlag_latched (s : State) (e : Nat) (b : Bool) : (s.putFlag e b).latched = s.latched := rfl
@[simp] theorem State.putFlag_drt (s : State) (e : Nat) (b : Bool) : (s.putFlag e b).drt = s.drt := rfl
@[simp] theorem State.putFlag_bar2Log2 (s : State) (e : Nat) (b : Bool) : (s.putFlag e b).bar2Log2 = s.bar2Log2 := rfl
@[simp] theorem State.putFlag_mem (s : State) (e : Nat) (b : Bool) : (s.putFlag e b).mem = s.mem := rfl
@[simp] theorem State.putFlag_memGen (s : State) (e : Nat) (b : Bool) : (s.putFlag e b).memGen = s.memGen := rfl
@[simp] theorem State.putFlag_push (s : State) (e : Nat) (b : Bool) : (s.putFlag e b).push = s.push := rfl
@[simp] theorem State.putFlag_spPayload (s : State) (e : Nat) (b : Bool) : (s.putFlag e b).spPayload = s.spPayload :=
    rfl
@[simp] theorem State.putFlag_freeCtr (s : State) (e : Nat) (b : Bool) : (s.putFlag e b).freeCtr = s.freeCtr := rfl
@[simp] theorem State.putFlag_out (s : State) (e : Nat) (b : Bool) : (s.putFlag e b).out = s.out := rfl
@[simp] theorem State.putFlag_cycle (s : State) (e : Nat) (b : Bool) : (s.putFlag e b).cycle = s.cycle := rfl
@[simp] theorem State.putFlag_hostHeld (s : State) (e : Nat) (b : Bool) : (s.putFlag e b).hostHeld = s.hostHeld := rfl
@[simp] theorem State.putFlag_linkUpAt (s : State) (e : Nat) (b : Bool) : (s.putFlag e b).linkUpAt = s.linkUpAt := rfl
@[simp] theorem State.putFlag_now (s : State) (e : Nat) (b : Bool) : (s.putFlag e b).now = s.now := rfl
@[simp] theorem State.putFlag_later (s : State) (e : Nat) (b : Bool) : (s.putFlag e b).later = s.later := rfl
@[simp] theorem State.putFlag_halfCycle (s : State) (e : Nat) (b : Bool) : (s.putFlag e b).halfCycle = s.halfCycle :=
    rfl
@[simp] theorem State.putFlag_gtcHold (s : State) (e : Nat) (b : Bool) : (s.putFlag e b).gtcHold = s.gtcHold := rfl
@[simp] theorem State.putFlag_sqs (s : State) (e : Nat) (b : Bool) : (s.putFlag e b).sqs = s.sqs := rfl
@[simp] theorem State.putFlag_cqs (s : State) (e : Nat) (b : Bool) : (s.putFlag e b).cqs = s.cqs := rfl
@[simp] theorem State.putFlag_tasks (s : State) (e : Nat) (b : Bool) : (s.putFlag e b).tasks = s.tasks := rfl
@[simp] theorem State.putFlag_apertures (s : State) (e : Nat) (b : Bool) : (s.putFlag e b).apertures = s.apertures :=
    rfl
@[simp] theorem State.putFlag_apLoads (s : State) (e : Nat) (b : Bool) : (s.putFlag e b).apLoads = s.apLoads := rfl
@[simp] theorem State.putFlag_ds (s : State) (e : Nat) (b : Bool) : (s.putFlag e b).ds = s.ds := rfl
@[simp] theorem State.putFlag_barriers (s : State) (e : Nat) (b : Bool) : (s.putFlag e b).barriers = s.barriers := rfl
@[simp] theorem State.putFlag_stepEnding (s : State) (e : Nat) (b : Bool) : (s.putFlag e b).stepEnding = s.stepEnding :=
    rfl
@[simp] theorem State.putFlag_stepEndSeen (s : State) (e : Nat) (b : Bool) : (s.putFlag e b).stepEndSeen = s.stepEndSeen :=
    rfl
@[simp] theorem State.putFlag_boundaryFresh (s : State) (e : Nat) (b : Bool) : (s.putFlag e b).boundaryFresh = s.boundaryFresh :=
    rfl
@[simp] theorem State.putFlag_holdLen (s : State) (e : Nat) (b : Bool) : (s.putFlag e b).holdLen = s.holdLen := rfl
@[simp] theorem State.putFlag_holdReported (s : State) (e : Nat) (b : Bool) : (s.putFlag e b).holdReported = s.holdReported :=
    rfl
@[simp] theorem State.putFlag_deferred (s : State) (e : Nat) (b : Bool) : (s.putFlag e b).deferred = s.deferred := rfl
@[simp] theorem State.putFlag_holdClose (s : State) (e : Nat) (b : Bool) : (s.putFlag e b).holdClose = s.holdClose :=
    rfl
@[simp] theorem State.putFlag_closing (s : State) (e : Nat) (b : Bool) : (s.putFlag e b).closing = s.closing := rfl
@[simp] theorem State.putFlag_xcache (s : State) (e : Nat) (b : Bool) : (s.putFlag e b).xcache = s.xcache := rfl
@[simp] theorem State.putFlag_invals (s : State) (e : Nat) (b : Bool) : (s.putFlag e b).invals = s.invals := rfl
@[simp] theorem State.putFlag_xorphans (s : State) (e : Nat) (b : Bool) : (s.putFlag e b).xorphans = s.xorphans := rfl
@[simp] theorem State.putFlag_prgs (s : State) (e : Nat) (b : Bool) : (s.putFlag e b).prgs = s.prgs := rfl
@[simp] theorem State.putFlag_priAlloc (s : State) (e : Nat) (b : Bool) : (s.putFlag e b).priAlloc = s.priAlloc := rfl
@[simp] theorem State.putFlag_priFailure (s : State) (e : Nat) (b : Bool) : (s.putFlag e b).priFailure = s.priFailure :=
    rfl
@[simp] theorem State.putFlag_ctagSeq (s : State) (e : Nat) (b : Bool) : (s.putFlag e b).ctagSeq = s.ctagSeq := rfl
@[simp] theorem State.putFlag_tables (s : State) (e : Nat) (b : Bool) : (s.putFlag e b).tables = s.tables := rfl
@[simp] theorem State.putFlag_compRetired (s : State) (e : Nat) (b : Bool) : (s.putFlag e b).compRetired = s.compRetired :=
    rfl
@[simp] theorem State.putFlag_expRetired (s : State) (e : Nat) (b : Bool) : (s.putFlag e b).expRetired = s.expRetired :=
    rfl
@[simp] theorem State.putFlag_draining (s : State) (e : Nat) (b : Bool) : (s.putFlag e b).draining = s.draining := rfl
@[simp] theorem State.putFlag_fabricHeld (s : State) (e : Nat) (b : Bool) : (s.putFlag e b).fabricHeld = s.fabricHeld :=
    rfl
@[simp] theorem State.putFlag_ports (s : State) (e : Nat) (b : Bool) : (s.putFlag e b).ports = s.ports := rfl
@[simp] theorem State.putFlag_msgSeq (s : State) (e : Nat) (b : Bool) : (s.putFlag e b).msgSeq = s.msgSeq := rfl
@[simp] theorem State.putFlag_credits (s : State) (e : Nat) (b : Bool) : (s.putFlag e b).credits = s.credits := rfl
@[simp] theorem State.putFlag_rx (s : State) (e : Nat) (b : Bool) : (s.putFlag e b).rx = s.rx := rfl
@[simp] theorem State.putFlag_peers (s : State) (e : Nat) (b : Bool) : (s.putFlag e b).peers = s.peers := rfl
@[simp] theorem State.putFlag_beatDue (s : State) (e : Nat) (b : Bool) : (s.putFlag e b).beatDue = s.beatDue := rfl
@[simp] theorem State.putFlag_sites (s : State) (e : Nat) (b : Bool) : (s.putFlag e b).sites = s.sites := rfl
@[simp] theorem State.putFlag_evac (s : State) (e : Nat) (b : Bool) : (s.putFlag e b).evac = s.evac := rfl
@[simp] theorem State.putFlag_arbs (s : State) (e : Nat) (b : Bool) : (s.putFlag e b).arbs = s.arbs := rfl
@[simp] theorem State.putFlag_mq (s : State) (e : Nat) (b : Bool) : (s.putFlag e b).mq = s.mq := rfl
@[simp] theorem State.putFlag_flash0 (s : State) (e : Nat) (b : Bool) : (s.putFlag e b).flash0 = s.flash0 := rfl
@[simp] theorem State.putFlag_flash1 (s : State) (e : Nat) (b : Bool) : (s.putFlag e b).flash1 = s.flash1 := rfl
@[simp] theorem State.putFlag_record (s : State) (e : Nat) (b : Bool) : (s.putFlag e b).record = s.record := rfl
@[simp] theorem State.putFlag_recordWrite (s : State) (e : Nat) (b : Bool) : (s.putFlag e b).recordWrite = s.recordWrite :=
    rfl
@[simp] theorem State.putFlag_recordDirty (s : State) (e : Nat) (b : Bool) : (s.putFlag e b).recordDirty = s.recordDirty :=
    rfl
@[simp] theorem State.putFlag_stackIds (s : State) (e : Nat) (b : Bool) : (s.putFlag e b).stackIds = s.stackIds := rfl
@[simp] theorem State.putFlag_power (s : State) (e : Nat) (b : Bool) : (s.putFlag e b).power = s.power := rfl
@[simp] theorem State.putFlag_entering (s : State) (e : Nat) (b : Bool) : (s.putFlag e b).entering = s.entering := rfl
@[simp] theorem State.putFlag_waking (s : State) (e : Nat) (b : Bool) : (s.putFlag e b).waking = s.waking := rfl
@[simp] theorem State.putFlag_powerAt (s : State) (e : Nat) (b : Bool) : (s.putFlag e b).powerAt = s.powerAt := rfl
@[simp] theorem State.putFlag_wakeSeen (s : State) (e : Nat) (b : Bool) : (s.putFlag e b).wakeSeen = s.wakeSeen := rfl
@[simp] theorem State.putFlag_latchedWake (s : State) (e : Nat) (b : Bool) : (s.putFlag e b).latchedWake = s.latchedWake :=
    rfl
@[simp] theorem State.putFlag_wakeBuf (s : State) (e : Nat) (b : Bool) : (s.putFlag e b).wakeBuf = s.wakeBuf := rfl
@[simp] theorem State.putFlag_powered (s : State) (e : Nat) (b : Bool) : (s.putFlag e b).powered = s.powered := rfl
@[simp] theorem State.putFlag_padWait (s : State) (e : Nat) (b : Bool) : (s.putFlag e b).padWait = s.padWait := rfl
@[simp] theorem State.putFlag_startup (s : State) (e : Nat) (b : Bool) : (s.putFlag e b).startup = s.startup := rfl
@[simp] theorem State.putFlag_coldStart (s : State) (e : Nat) (b : Bool) : (s.putFlag e b).coldStart = s.coldStart :=
    rfl
@[simp] theorem State.putFlag_restoring (s : State) (e : Nat) (b : Bool) : (s.putFlag e b).restoring = s.restoring :=
    rfl
@[simp] theorem State.putFlag_padExit (s : State) (e : Nat) (b : Bool) : (s.putFlag e b).padExit = s.padExit := rfl
@[simp] theorem State.putFlag_padAt (s : State) (e : Nat) (b : Bool) : (s.putFlag e b).padAt = s.padAt := rfl
@[simp] theorem State.putFlag_checksAt (s : State) (e : Nat) (b : Bool) : (s.putFlag e b).checksAt = s.checksAt := rfl
@[simp] theorem State.putFlag_linkDown (s : State) (e : Nat) (b : Bool) : (s.putFlag e b).linkDown = s.linkDown := rfl
@[simp] theorem State.putFlag_linkDownCycles (s : State) (e : Nat) (b : Bool) : (s.putFlag e b).linkDownCycles = s.linkDownCycles :=
    rfl
@[simp] theorem State.putFlag_idleCycles (s : State) (e : Nat) (b : Bool) : (s.putFlag e b).idleCycles = s.idleCycles :=
    rfl
@[simp] theorem State.putFlag_pending (s : State) (e : Nat) (b : Bool) : (s.putFlag e b).pending = s.pending := rfl
@[simp] theorem State.setNow_putFlag' (s : State) (e : Nat) (b : Bool) (o : Nat) :
    (s.putFlag e b).setNow o = s.setNow o := rfl
@[simp] theorem State.readByte_putFlag' (s : State) (e : Nat) (b : Bool) (x2 : Nat) :
    (s.putFlag e b).readByte x2 = s.readByte x2 := rfl
@[simp] theorem State.task_putFlag' (s : State) (e : Nat) (b : Bool) (t2 : TaskRef) :
    (s.putFlag e b).task t2 = s.task t2 := rfl
@[simp] theorem State.sq_putFlag' (s : State) (e : Nat) (b : Bool) (q2 : Nat) : (s.putFlag e b).sq q2 = s.sq q2 := rfl
@[simp] theorem State.cq_putFlag' (s : State) (e : Nat) (b : Bool) (c2 : Nat) : (s.putFlag e b).cq c2 = s.cq c2 := rfl
@[simp] theorem State.port_putFlag' (s : State) (e : Nat) (b : Bool) (p2 : Nat) :
    (s.putFlag e b).port p2 = s.port p2 := rfl
@[simp] theorem State.endpoint_putFlag' (s : State) (e : Nat) (b : Bool) (r2 : Nat) :
    (s.putFlag e b).endpoint r2 = s.endpoint r2 := rfl
@[simp] theorem State.peer_putFlag' (s : State) (e : Nat) (b : Bool) (n2 : Nat) :
    (s.putFlag e b).peer n2 = s.peer n2 := rfl
@[simp] theorem State.site_putFlag' (s : State) (e : Nat) (b : Bool) (b2 : Nat) :
    (s.putFlag e b).site b2 = s.site b2 := rfl
@[simp] theorem State.arb_putFlag' (s : State) (e : Nat) (b : Bool) (a2 : Nat) :
    (s.putFlag e b).arb a2 = s.arb a2 := rfl
@[simp] theorem State.stream_putFlag' (s : State) (e : Nat) (b : Bool) (n2 : Nat) :
    (s.putFlag e b).stream n2 = s.stream n2 := rfl
@[simp] theorem State.apertureOwner_putFlag' (s : State) (e : Nat) (b : Bool) (n2 : Nat) :
    (s.putFlag e b).apertureOwner n2 = s.apertureOwner n2 := rfl
@[simp] theorem State.below_putFlag' (s : State) (e : Nat) (b : Bool) : (s.putFlag e b).below = s.below := rfl

/-! ### setFlag -/

@[simp] theorem State.setFlag_staged (s : State) (e : Nat) : (s.setFlag e).staged = s.staged := rfl
@[simp] theorem State.setFlag_latched (s : State) (e : Nat) : (s.setFlag e).latched = s.latched := rfl
@[simp] theorem State.setFlag_drt (s : State) (e : Nat) : (s.setFlag e).drt = s.drt := rfl
@[simp] theorem State.setFlag_bar2Log2 (s : State) (e : Nat) : (s.setFlag e).bar2Log2 = s.bar2Log2 := rfl
@[simp] theorem State.setFlag_mem (s : State) (e : Nat) : (s.setFlag e).mem = s.mem := rfl
@[simp] theorem State.setFlag_memGen (s : State) (e : Nat) : (s.setFlag e).memGen = s.memGen := rfl
@[simp] theorem State.setFlag_push (s : State) (e : Nat) : (s.setFlag e).push = s.push := rfl
@[simp] theorem State.setFlag_spPayload (s : State) (e : Nat) : (s.setFlag e).spPayload = s.spPayload := rfl
@[simp] theorem State.setFlag_freeCtr (s : State) (e : Nat) : (s.setFlag e).freeCtr = s.freeCtr := rfl
@[simp] theorem State.setFlag_out (s : State) (e : Nat) : (s.setFlag e).out = s.out := rfl
@[simp] theorem State.setFlag_cycle (s : State) (e : Nat) : (s.setFlag e).cycle = s.cycle := rfl
@[simp] theorem State.setFlag_hostHeld (s : State) (e : Nat) : (s.setFlag e).hostHeld = s.hostHeld := rfl
@[simp] theorem State.setFlag_linkUpAt (s : State) (e : Nat) : (s.setFlag e).linkUpAt = s.linkUpAt := rfl
@[simp] theorem State.setFlag_later (s : State) (e : Nat) : (s.setFlag e).later = s.later := rfl
@[simp] theorem State.setFlag_halfCycle (s : State) (e : Nat) : (s.setFlag e).halfCycle = s.halfCycle := rfl
@[simp] theorem State.setFlag_gtcHold (s : State) (e : Nat) : (s.setFlag e).gtcHold = s.gtcHold := rfl
@[simp] theorem State.setFlag_sqs (s : State) (e : Nat) : (s.setFlag e).sqs = s.sqs := rfl
@[simp] theorem State.setFlag_cqs (s : State) (e : Nat) : (s.setFlag e).cqs = s.cqs := rfl
@[simp] theorem State.setFlag_tasks (s : State) (e : Nat) : (s.setFlag e).tasks = s.tasks := rfl
@[simp] theorem State.setFlag_apertures (s : State) (e : Nat) : (s.setFlag e).apertures = s.apertures := rfl
@[simp] theorem State.setFlag_apLoads (s : State) (e : Nat) : (s.setFlag e).apLoads = s.apLoads := rfl
@[simp] theorem State.setFlag_ds (s : State) (e : Nat) : (s.setFlag e).ds = s.ds := rfl
@[simp] theorem State.setFlag_barriers (s : State) (e : Nat) : (s.setFlag e).barriers = s.barriers := rfl
@[simp] theorem State.setFlag_stepEnding (s : State) (e : Nat) : (s.setFlag e).stepEnding = s.stepEnding := rfl
@[simp] theorem State.setFlag_stepEndSeen (s : State) (e : Nat) : (s.setFlag e).stepEndSeen = s.stepEndSeen := rfl
@[simp] theorem State.setFlag_boundaryFresh (s : State) (e : Nat) : (s.setFlag e).boundaryFresh = s.boundaryFresh :=
    rfl
@[simp] theorem State.setFlag_holdLen (s : State) (e : Nat) : (s.setFlag e).holdLen = s.holdLen := rfl
@[simp] theorem State.setFlag_holdReported (s : State) (e : Nat) : (s.setFlag e).holdReported = s.holdReported := rfl
@[simp] theorem State.setFlag_deferred (s : State) (e : Nat) : (s.setFlag e).deferred = s.deferred := rfl
@[simp] theorem State.setFlag_holdClose (s : State) (e : Nat) : (s.setFlag e).holdClose = s.holdClose := rfl
@[simp] theorem State.setFlag_closing (s : State) (e : Nat) : (s.setFlag e).closing = s.closing := rfl
@[simp] theorem State.setFlag_xcache (s : State) (e : Nat) : (s.setFlag e).xcache = s.xcache := rfl
@[simp] theorem State.setFlag_invals (s : State) (e : Nat) : (s.setFlag e).invals = s.invals := rfl
@[simp] theorem State.setFlag_xorphans (s : State) (e : Nat) : (s.setFlag e).xorphans = s.xorphans := rfl
@[simp] theorem State.setFlag_prgs (s : State) (e : Nat) : (s.setFlag e).prgs = s.prgs := rfl
@[simp] theorem State.setFlag_priAlloc (s : State) (e : Nat) : (s.setFlag e).priAlloc = s.priAlloc := rfl
@[simp] theorem State.setFlag_priFailure (s : State) (e : Nat) : (s.setFlag e).priFailure = s.priFailure := rfl
@[simp] theorem State.setFlag_ctagSeq (s : State) (e : Nat) : (s.setFlag e).ctagSeq = s.ctagSeq := rfl
@[simp] theorem State.setFlag_tables (s : State) (e : Nat) : (s.setFlag e).tables = s.tables := rfl
@[simp] theorem State.setFlag_compRetired (s : State) (e : Nat) : (s.setFlag e).compRetired = s.compRetired := rfl
@[simp] theorem State.setFlag_expRetired (s : State) (e : Nat) : (s.setFlag e).expRetired = s.expRetired := rfl
@[simp] theorem State.setFlag_draining (s : State) (e : Nat) : (s.setFlag e).draining = s.draining := rfl
@[simp] theorem State.setFlag_fabricHeld (s : State) (e : Nat) : (s.setFlag e).fabricHeld = s.fabricHeld := rfl
@[simp] theorem State.setFlag_ports (s : State) (e : Nat) : (s.setFlag e).ports = s.ports := rfl
@[simp] theorem State.setFlag_msgSeq (s : State) (e : Nat) : (s.setFlag e).msgSeq = s.msgSeq := rfl
@[simp] theorem State.setFlag_credits (s : State) (e : Nat) : (s.setFlag e).credits = s.credits := rfl
@[simp] theorem State.setFlag_rx (s : State) (e : Nat) : (s.setFlag e).rx = s.rx := rfl
@[simp] theorem State.setFlag_peers (s : State) (e : Nat) : (s.setFlag e).peers = s.peers := rfl
@[simp] theorem State.setFlag_beatDue (s : State) (e : Nat) : (s.setFlag e).beatDue = s.beatDue := rfl
@[simp] theorem State.setFlag_sites (s : State) (e : Nat) : (s.setFlag e).sites = s.sites := rfl
@[simp] theorem State.setFlag_evac (s : State) (e : Nat) : (s.setFlag e).evac = s.evac := rfl
@[simp] theorem State.setFlag_arbs (s : State) (e : Nat) : (s.setFlag e).arbs = s.arbs := rfl
@[simp] theorem State.setFlag_mq (s : State) (e : Nat) : (s.setFlag e).mq = s.mq := rfl
@[simp] theorem State.setFlag_flash0 (s : State) (e : Nat) : (s.setFlag e).flash0 = s.flash0 := rfl
@[simp] theorem State.setFlag_flash1 (s : State) (e : Nat) : (s.setFlag e).flash1 = s.flash1 := rfl
@[simp] theorem State.setFlag_record (s : State) (e : Nat) : (s.setFlag e).record = s.record := rfl
@[simp] theorem State.setFlag_recordWrite (s : State) (e : Nat) : (s.setFlag e).recordWrite = s.recordWrite := rfl
@[simp] theorem State.setFlag_recordDirty (s : State) (e : Nat) : (s.setFlag e).recordDirty = s.recordDirty := rfl
@[simp] theorem State.setFlag_stackIds (s : State) (e : Nat) : (s.setFlag e).stackIds = s.stackIds := rfl
@[simp] theorem State.setFlag_power (s : State) (e : Nat) : (s.setFlag e).power = s.power := rfl
@[simp] theorem State.setFlag_entering (s : State) (e : Nat) : (s.setFlag e).entering = s.entering := rfl
@[simp] theorem State.setFlag_waking (s : State) (e : Nat) : (s.setFlag e).waking = s.waking := rfl
@[simp] theorem State.setFlag_powerAt (s : State) (e : Nat) : (s.setFlag e).powerAt = s.powerAt := rfl
@[simp] theorem State.setFlag_wakeSeen (s : State) (e : Nat) : (s.setFlag e).wakeSeen = s.wakeSeen := rfl
@[simp] theorem State.setFlag_latchedWake (s : State) (e : Nat) : (s.setFlag e).latchedWake = s.latchedWake := rfl
@[simp] theorem State.setFlag_wakeBuf (s : State) (e : Nat) : (s.setFlag e).wakeBuf = s.wakeBuf := rfl
@[simp] theorem State.setFlag_powered (s : State) (e : Nat) : (s.setFlag e).powered = s.powered := rfl
@[simp] theorem State.setFlag_padWait (s : State) (e : Nat) : (s.setFlag e).padWait = s.padWait := rfl
@[simp] theorem State.setFlag_startup (s : State) (e : Nat) : (s.setFlag e).startup = s.startup := rfl
@[simp] theorem State.setFlag_coldStart (s : State) (e : Nat) : (s.setFlag e).coldStart = s.coldStart := rfl
@[simp] theorem State.setFlag_restoring (s : State) (e : Nat) : (s.setFlag e).restoring = s.restoring := rfl
@[simp] theorem State.setFlag_padExit (s : State) (e : Nat) : (s.setFlag e).padExit = s.padExit := rfl
@[simp] theorem State.setFlag_padAt (s : State) (e : Nat) : (s.setFlag e).padAt = s.padAt := rfl
@[simp] theorem State.setFlag_checksAt (s : State) (e : Nat) : (s.setFlag e).checksAt = s.checksAt := rfl
@[simp] theorem State.setFlag_linkDown (s : State) (e : Nat) : (s.setFlag e).linkDown = s.linkDown := rfl
@[simp] theorem State.setFlag_linkDownCycles (s : State) (e : Nat) : (s.setFlag e).linkDownCycles = s.linkDownCycles :=
    rfl
@[simp] theorem State.setFlag_idleCycles (s : State) (e : Nat) : (s.setFlag e).idleCycles = s.idleCycles := rfl
@[simp] theorem State.setFlag_pending (s : State) (e : Nat) : (s.setFlag e).pending = s.pending := rfl
@[simp] theorem State.readByte_setFlag' (s : State) (e : Nat) (x2 : Nat) :
    (s.setFlag e).readByte x2 = s.readByte x2 := rfl
@[simp] theorem State.task_setFlag' (s : State) (e : Nat) (t2 : TaskRef) : (s.setFlag e).task t2 = s.task t2 := rfl
@[simp] theorem State.sq_setFlag' (s : State) (e : Nat) (q2 : Nat) : (s.setFlag e).sq q2 = s.sq q2 := rfl
@[simp] theorem State.cq_setFlag' (s : State) (e : Nat) (c2 : Nat) : (s.setFlag e).cq c2 = s.cq c2 := rfl
@[simp] theorem State.port_setFlag' (s : State) (e : Nat) (p2 : Nat) : (s.setFlag e).port p2 = s.port p2 := rfl
@[simp] theorem State.endpoint_setFlag' (s : State) (e : Nat) (r2 : Nat) :
    (s.setFlag e).endpoint r2 = s.endpoint r2 := rfl
@[simp] theorem State.peer_setFlag' (s : State) (e : Nat) (n2 : Nat) : (s.setFlag e).peer n2 = s.peer n2 := rfl
@[simp] theorem State.site_setFlag' (s : State) (e : Nat) (b2 : Nat) : (s.setFlag e).site b2 = s.site b2 := rfl
@[simp] theorem State.arb_setFlag' (s : State) (e : Nat) (a2 : Nat) : (s.setFlag e).arb a2 = s.arb a2 := rfl
@[simp] theorem State.stream_setFlag' (s : State) (e : Nat) (n2 : Nat) : (s.setFlag e).stream n2 = s.stream n2 := rfl
@[simp] theorem State.apertureOwner_setFlag' (s : State) (e : Nat) (n2 : Nat) :
    (s.setFlag e).apertureOwner n2 = s.apertureOwner n2 := rfl
@[simp] theorem State.below_setFlag' (s : State) (e : Nat) : (s.setFlag e).below = s.below := rfl

/-! ### emit -/

@[simp] theorem State.emit_regs (s : State) (x : Out) : (s.emit x).regs = s.regs := by unfold State.emit; split <;> rfl
@[simp] theorem State.emit_staged (s : State) (x : Out) : (s.emit x).staged = s.staged :=
    by unfold State.emit; split <;> rfl
@[simp] theorem State.emit_latched (s : State) (x : Out) : (s.emit x).latched = s.latched :=
    by unfold State.emit; split <;> rfl
@[simp] theorem State.emit_drt (s : State) (x : Out) : (s.emit x).drt = s.drt := by unfold State.emit; split <;> rfl
@[simp] theorem State.emit_bar2Log2 (s : State) (x : Out) : (s.emit x).bar2Log2 = s.bar2Log2 :=
    by unfold State.emit; split <;> rfl
@[simp] theorem State.emit_mem (s : State) (x : Out) : (s.emit x).mem = s.mem := by unfold State.emit; split <;> rfl
@[simp] theorem State.emit_memGen (s : State) (x : Out) : (s.emit x).memGen = s.memGen :=
    by unfold State.emit; split <;> rfl
@[simp] theorem State.emit_push (s : State) (x : Out) : (s.emit x).push = s.push := by unfold State.emit; split <;> rfl
@[simp] theorem State.emit_spPayload (s : State) (x : Out) : (s.emit x).spPayload = s.spPayload :=
    by unfold State.emit; split <;> rfl
@[simp] theorem State.emit_freeCtr (s : State) (x : Out) : (s.emit x).freeCtr = s.freeCtr :=
    by unfold State.emit; split <;> rfl
@[simp] theorem State.emit_cycle (s : State) (x : Out) : (s.emit x).cycle = s.cycle :=
    by unfold State.emit; split <;> rfl
@[simp] theorem State.emit_linkUpAt (s : State) (x : Out) : (s.emit x).linkUpAt = s.linkUpAt :=
    by unfold State.emit; split <;> rfl
@[simp] theorem State.emit_now (s : State) (x : Out) : (s.emit x).now = s.now := by unfold State.emit; split <;> rfl
@[simp] theorem State.emit_later (s : State) (x : Out) : (s.emit x).later = s.later :=
    by unfold State.emit; split <;> rfl
@[simp] theorem State.emit_halfCycle (s : State) (x : Out) : (s.emit x).halfCycle = s.halfCycle :=
    by unfold State.emit; split <;> rfl
@[simp] theorem State.emit_gtcHold (s : State) (x : Out) : (s.emit x).gtcHold = s.gtcHold :=
    by unfold State.emit; split <;> rfl
@[simp] theorem State.emit_sqs (s : State) (x : Out) : (s.emit x).sqs = s.sqs := by unfold State.emit; split <;> rfl
@[simp] theorem State.emit_cqs (s : State) (x : Out) : (s.emit x).cqs = s.cqs := by unfold State.emit; split <;> rfl
@[simp] theorem State.emit_tasks (s : State) (x : Out) : (s.emit x).tasks = s.tasks :=
    by unfold State.emit; split <;> rfl
@[simp] theorem State.emit_apertures (s : State) (x : Out) : (s.emit x).apertures = s.apertures :=
    by unfold State.emit; split <;> rfl
@[simp] theorem State.emit_apLoads (s : State) (x : Out) : (s.emit x).apLoads = s.apLoads :=
    by unfold State.emit; split <;> rfl
@[simp] theorem State.emit_ds (s : State) (x : Out) : (s.emit x).ds = s.ds := by unfold State.emit; split <;> rfl
@[simp] theorem State.emit_barriers (s : State) (x : Out) : (s.emit x).barriers = s.barriers :=
    by unfold State.emit; split <;> rfl
@[simp] theorem State.emit_stepEnding (s : State) (x : Out) : (s.emit x).stepEnding = s.stepEnding :=
    by unfold State.emit; split <;> rfl
@[simp] theorem State.emit_stepEndSeen (s : State) (x : Out) : (s.emit x).stepEndSeen = s.stepEndSeen :=
    by unfold State.emit; split <;> rfl
@[simp] theorem State.emit_boundaryFresh (s : State) (x : Out) : (s.emit x).boundaryFresh = s.boundaryFresh :=
    by unfold State.emit; split <;> rfl
@[simp] theorem State.emit_holdLen (s : State) (x : Out) : (s.emit x).holdLen = s.holdLen :=
    by unfold State.emit; split <;> rfl
@[simp] theorem State.emit_holdReported (s : State) (x : Out) : (s.emit x).holdReported = s.holdReported :=
    by unfold State.emit; split <;> rfl
@[simp] theorem State.emit_deferred (s : State) (x : Out) : (s.emit x).deferred = s.deferred :=
    by unfold State.emit; split <;> rfl
@[simp] theorem State.emit_holdClose (s : State) (x : Out) : (s.emit x).holdClose = s.holdClose :=
    by unfold State.emit; split <;> rfl
@[simp] theorem State.emit_closing (s : State) (x : Out) : (s.emit x).closing = s.closing :=
    by unfold State.emit; split <;> rfl
@[simp] theorem State.emit_xcache (s : State) (x : Out) : (s.emit x).xcache = s.xcache :=
    by unfold State.emit; split <;> rfl
@[simp] theorem State.emit_invals (s : State) (x : Out) : (s.emit x).invals = s.invals :=
    by unfold State.emit; split <;> rfl
@[simp] theorem State.emit_xorphans (s : State) (x : Out) : (s.emit x).xorphans = s.xorphans :=
    by unfold State.emit; split <;> rfl
@[simp] theorem State.emit_prgs (s : State) (x : Out) : (s.emit x).prgs = s.prgs := by unfold State.emit; split <;> rfl
@[simp] theorem State.emit_priAlloc (s : State) (x : Out) : (s.emit x).priAlloc = s.priAlloc :=
    by unfold State.emit; split <;> rfl
@[simp] theorem State.emit_priFailure (s : State) (x : Out) : (s.emit x).priFailure = s.priFailure :=
    by unfold State.emit; split <;> rfl
@[simp] theorem State.emit_ctagSeq (s : State) (x : Out) : (s.emit x).ctagSeq = s.ctagSeq :=
    by unfold State.emit; split <;> rfl
@[simp] theorem State.emit_tables (s : State) (x : Out) : (s.emit x).tables = s.tables :=
    by unfold State.emit; split <;> rfl
@[simp] theorem State.emit_compRetired (s : State) (x : Out) : (s.emit x).compRetired = s.compRetired :=
    by unfold State.emit; split <;> rfl
@[simp] theorem State.emit_expRetired (s : State) (x : Out) : (s.emit x).expRetired = s.expRetired :=
    by unfold State.emit; split <;> rfl
@[simp] theorem State.emit_draining (s : State) (x : Out) : (s.emit x).draining = s.draining :=
    by unfold State.emit; split <;> rfl
@[simp] theorem State.emit_fabricHeld (s : State) (x : Out) : (s.emit x).fabricHeld = s.fabricHeld :=
    by unfold State.emit; split <;> rfl
@[simp] theorem State.emit_ports (s : State) (x : Out) : (s.emit x).ports = s.ports :=
    by unfold State.emit; split <;> rfl
@[simp] theorem State.emit_msgSeq (s : State) (x : Out) : (s.emit x).msgSeq = s.msgSeq :=
    by unfold State.emit; split <;> rfl
@[simp] theorem State.emit_credits (s : State) (x : Out) : (s.emit x).credits = s.credits :=
    by unfold State.emit; split <;> rfl
@[simp] theorem State.emit_rx (s : State) (x : Out) : (s.emit x).rx = s.rx := by unfold State.emit; split <;> rfl
@[simp] theorem State.emit_peers (s : State) (x : Out) : (s.emit x).peers = s.peers :=
    by unfold State.emit; split <;> rfl
@[simp] theorem State.emit_beatDue (s : State) (x : Out) : (s.emit x).beatDue = s.beatDue :=
    by unfold State.emit; split <;> rfl
@[simp] theorem State.emit_sites (s : State) (x : Out) : (s.emit x).sites = s.sites :=
    by unfold State.emit; split <;> rfl
@[simp] theorem State.emit_evac (s : State) (x : Out) : (s.emit x).evac = s.evac := by unfold State.emit; split <;> rfl
@[simp] theorem State.emit_arbs (s : State) (x : Out) : (s.emit x).arbs = s.arbs := by unfold State.emit; split <;> rfl
@[simp] theorem State.emit_mq (s : State) (x : Out) : (s.emit x).mq = s.mq := by unfold State.emit; split <;> rfl
@[simp] theorem State.emit_flash0 (s : State) (x : Out) : (s.emit x).flash0 = s.flash0 :=
    by unfold State.emit; split <;> rfl
@[simp] theorem State.emit_flash1 (s : State) (x : Out) : (s.emit x).flash1 = s.flash1 :=
    by unfold State.emit; split <;> rfl
@[simp] theorem State.emit_record (s : State) (x : Out) : (s.emit x).record = s.record :=
    by unfold State.emit; split <;> rfl
@[simp] theorem State.emit_recordWrite (s : State) (x : Out) : (s.emit x).recordWrite = s.recordWrite :=
    by unfold State.emit; split <;> rfl
@[simp] theorem State.emit_recordDirty (s : State) (x : Out) : (s.emit x).recordDirty = s.recordDirty :=
    by unfold State.emit; split <;> rfl
@[simp] theorem State.emit_stackIds (s : State) (x : Out) : (s.emit x).stackIds = s.stackIds :=
    by unfold State.emit; split <;> rfl
@[simp] theorem State.emit_power (s : State) (x : Out) : (s.emit x).power = s.power :=
    by unfold State.emit; split <;> rfl
@[simp] theorem State.emit_entering (s : State) (x : Out) : (s.emit x).entering = s.entering :=
    by unfold State.emit; split <;> rfl
@[simp] theorem State.emit_waking (s : State) (x : Out) : (s.emit x).waking = s.waking :=
    by unfold State.emit; split <;> rfl
@[simp] theorem State.emit_powerAt (s : State) (x : Out) : (s.emit x).powerAt = s.powerAt :=
    by unfold State.emit; split <;> rfl
@[simp] theorem State.emit_wakeSeen (s : State) (x : Out) : (s.emit x).wakeSeen = s.wakeSeen :=
    by unfold State.emit; split <;> rfl
@[simp] theorem State.emit_latchedWake (s : State) (x : Out) : (s.emit x).latchedWake = s.latchedWake :=
    by unfold State.emit; split <;> rfl
@[simp] theorem State.emit_wakeBuf (s : State) (x : Out) : (s.emit x).wakeBuf = s.wakeBuf :=
    by unfold State.emit; split <;> rfl
@[simp] theorem State.emit_powered (s : State) (x : Out) : (s.emit x).powered = s.powered :=
    by unfold State.emit; split <;> rfl
@[simp] theorem State.emit_padWait (s : State) (x : Out) : (s.emit x).padWait = s.padWait :=
    by unfold State.emit; split <;> rfl
@[simp] theorem State.emit_startup (s : State) (x : Out) : (s.emit x).startup = s.startup :=
    by unfold State.emit; split <;> rfl
@[simp] theorem State.emit_coldStart (s : State) (x : Out) : (s.emit x).coldStart = s.coldStart :=
    by unfold State.emit; split <;> rfl
@[simp] theorem State.emit_restoring (s : State) (x : Out) : (s.emit x).restoring = s.restoring :=
    by unfold State.emit; split <;> rfl
@[simp] theorem State.emit_padExit (s : State) (x : Out) : (s.emit x).padExit = s.padExit :=
    by unfold State.emit; split <;> rfl
@[simp] theorem State.emit_padAt (s : State) (x : Out) : (s.emit x).padAt = s.padAt :=
    by unfold State.emit; split <;> rfl
@[simp] theorem State.emit_checksAt (s : State) (x : Out) : (s.emit x).checksAt = s.checksAt :=
    by unfold State.emit; split <;> rfl
@[simp] theorem State.emit_linkDown (s : State) (x : Out) : (s.emit x).linkDown = s.linkDown :=
    by unfold State.emit; split <;> rfl
@[simp] theorem State.emit_linkDownCycles (s : State) (x : Out) : (s.emit x).linkDownCycles = s.linkDownCycles :=
    by unfold State.emit; split <;> rfl
@[simp] theorem State.emit_idleCycles (s : State) (x : Out) : (s.emit x).idleCycles = s.idleCycles :=
    by unfold State.emit; split <;> rfl
@[simp] theorem State.emit_pending (s : State) (x : Out) : (s.emit x).pending = s.pending :=
    by unfold State.emit; split <;> rfl
@[simp] theorem State.reg_emit' (s : State) (x : Out) (o : Nat) :
    (s.emit x).reg o = s.reg o := by unfold State.emit; split <;> rfl
@[simp] theorem State.fld_emit' (s : State) (x : Out) (o lo2 n2 : Nat) :
    (s.emit x).fld o lo2 n2 = s.fld o lo2 n2 := by unfold State.emit; split <;> rfl
@[simp] theorem State.bit_emit' (s : State) (x : Out) (o j : Nat) :
    (s.emit x).bit o j = s.bit o j := by unfold State.emit; split <;> rfl
@[simp] theorem State.reg64_emit' (s : State) (x : Out) (o : Nat) :
    (s.emit x).reg64 o = s.reg64 o := by unfold State.emit; split <;> rfl
@[simp] theorem State.setNow_emit' (s : State) (x : Out) (o : Nat) :
    (s.emit x).setNow o = s.setNow o := by unfold State.emit; split <;> rfl
@[simp] theorem State.gtc_emit' (s : State) (x : Out) : (s.emit x).gtc = s.gtc := by unfold State.emit; split <;> rfl
@[simp] theorem State.node_emit' (s : State) (x : Out) :
    (s.emit x).node = s.node := by unfold State.emit; split <;> rfl
@[simp] theorem State.flag_emit' (s : State) (x : Out) (e2 : Nat) :
    (s.emit x).flag e2 = s.flag e2 := by unfold State.emit; split <;> rfl
@[simp] theorem State.readByte_emit' (s : State) (x : Out) (x2 : Nat) :
    (s.emit x).readByte x2 = s.readByte x2 := by unfold State.emit; split <;> rfl
@[simp] theorem State.task_emit' (s : State) (x : Out) (t2 : TaskRef) :
    (s.emit x).task t2 = s.task t2 := by unfold State.emit; split <;> rfl
@[simp] theorem State.sq_emit' (s : State) (x : Out) (q2 : Nat) :
    (s.emit x).sq q2 = s.sq q2 := by unfold State.emit; split <;> rfl
@[simp] theorem State.cq_emit' (s : State) (x : Out) (c2 : Nat) :
    (s.emit x).cq c2 = s.cq c2 := by unfold State.emit; split <;> rfl
@[simp] theorem State.port_emit' (s : State) (x : Out) (p2 : Nat) :
    (s.emit x).port p2 = s.port p2 := by unfold State.emit; split <;> rfl
@[simp] theorem State.endpoint_emit' (s : State) (x : Out) (r2 : Nat) :
    (s.emit x).endpoint r2 = s.endpoint r2 := by unfold State.emit; split <;> rfl
@[simp] theorem State.peer_emit' (s : State) (x : Out) (n2 : Nat) :
    (s.emit x).peer n2 = s.peer n2 := by unfold State.emit; split <;> rfl
@[simp] theorem State.site_emit' (s : State) (x : Out) (b2 : Nat) :
    (s.emit x).site b2 = s.site b2 := by unfold State.emit; split <;> rfl
@[simp] theorem State.arb_emit' (s : State) (x : Out) (a2 : Nat) :
    (s.emit x).arb a2 = s.arb a2 := by unfold State.emit; split <;> rfl
@[simp] theorem State.stream_emit' (s : State) (x : Out) (n2 : Nat) :
    (s.emit x).stream n2 = s.stream n2 := by unfold State.emit; split <;> rfl
@[simp] theorem State.apertureOwner_emit' (s : State) (x : Out) (n2 : Nat) :
    (s.emit x).apertureOwner n2 = s.apertureOwner n2 := by unfold State.emit; split <;> rfl
@[simp] theorem State.below_emit' (s : State) (x : Out) :
    (s.emit x).below = s.below := by unfold State.emit; split <;> rfl

/-! ### msix -/

@[simp] theorem State.msix_regs (s : State) (v : Nat) : (s.msix v).regs = s.regs := State.emit_regs _ _
@[simp] theorem State.msix_staged (s : State) (v : Nat) : (s.msix v).staged = s.staged := State.emit_staged _ _
@[simp] theorem State.msix_latched (s : State) (v : Nat) : (s.msix v).latched = s.latched := State.emit_latched _ _
@[simp] theorem State.msix_drt (s : State) (v : Nat) : (s.msix v).drt = s.drt := State.emit_drt _ _
@[simp] theorem State.msix_bar2Log2 (s : State) (v : Nat) : (s.msix v).bar2Log2 = s.bar2Log2 := State.emit_bar2Log2 _ _
@[simp] theorem State.msix_mem (s : State) (v : Nat) : (s.msix v).mem = s.mem := State.emit_mem _ _
@[simp] theorem State.msix_memGen (s : State) (v : Nat) : (s.msix v).memGen = s.memGen := State.emit_memGen _ _
@[simp] theorem State.msix_push (s : State) (v : Nat) : (s.msix v).push = s.push := State.emit_push _ _
@[simp] theorem State.msix_spPayload (s : State) (v : Nat) : (s.msix v).spPayload = s.spPayload :=
    State.emit_spPayload _ _
@[simp] theorem State.msix_freeCtr (s : State) (v : Nat) : (s.msix v).freeCtr = s.freeCtr := State.emit_freeCtr _ _
@[simp] theorem State.msix_cycle (s : State) (v : Nat) : (s.msix v).cycle = s.cycle := State.emit_cycle _ _
@[simp] theorem State.msix_linkUpAt (s : State) (v : Nat) : (s.msix v).linkUpAt = s.linkUpAt := State.emit_linkUpAt _ _
@[simp] theorem State.msix_now (s : State) (v : Nat) : (s.msix v).now = s.now := State.emit_now _ _
@[simp] theorem State.msix_later (s : State) (v : Nat) : (s.msix v).later = s.later := State.emit_later _ _
@[simp] theorem State.msix_halfCycle (s : State) (v : Nat) : (s.msix v).halfCycle = s.halfCycle :=
    State.emit_halfCycle _ _
@[simp] theorem State.msix_gtcHold (s : State) (v : Nat) : (s.msix v).gtcHold = s.gtcHold := State.emit_gtcHold _ _
@[simp] theorem State.msix_sqs (s : State) (v : Nat) : (s.msix v).sqs = s.sqs := State.emit_sqs _ _
@[simp] theorem State.msix_cqs (s : State) (v : Nat) : (s.msix v).cqs = s.cqs := State.emit_cqs _ _
@[simp] theorem State.msix_tasks (s : State) (v : Nat) : (s.msix v).tasks = s.tasks := State.emit_tasks _ _
@[simp] theorem State.msix_apertures (s : State) (v : Nat) : (s.msix v).apertures = s.apertures :=
    State.emit_apertures _ _
@[simp] theorem State.msix_apLoads (s : State) (v : Nat) : (s.msix v).apLoads = s.apLoads := State.emit_apLoads _ _
@[simp] theorem State.msix_ds (s : State) (v : Nat) : (s.msix v).ds = s.ds := State.emit_ds _ _
@[simp] theorem State.msix_barriers (s : State) (v : Nat) : (s.msix v).barriers = s.barriers := State.emit_barriers _ _
@[simp] theorem State.msix_stepEnding (s : State) (v : Nat) : (s.msix v).stepEnding = s.stepEnding :=
    State.emit_stepEnding _ _
@[simp] theorem State.msix_stepEndSeen (s : State) (v : Nat) : (s.msix v).stepEndSeen = s.stepEndSeen :=
    State.emit_stepEndSeen _ _
@[simp] theorem State.msix_boundaryFresh (s : State) (v : Nat) : (s.msix v).boundaryFresh = s.boundaryFresh :=
    State.emit_boundaryFresh _ _
@[simp] theorem State.msix_holdLen (s : State) (v : Nat) : (s.msix v).holdLen = s.holdLen := State.emit_holdLen _ _
@[simp] theorem State.msix_holdReported (s : State) (v : Nat) : (s.msix v).holdReported = s.holdReported :=
    State.emit_holdReported _ _
@[simp] theorem State.msix_deferred (s : State) (v : Nat) : (s.msix v).deferred = s.deferred := State.emit_deferred _ _
@[simp] theorem State.msix_holdClose (s : State) (v : Nat) : (s.msix v).holdClose = s.holdClose :=
    State.emit_holdClose _ _
@[simp] theorem State.msix_closing (s : State) (v : Nat) : (s.msix v).closing = s.closing := State.emit_closing _ _
@[simp] theorem State.msix_xcache (s : State) (v : Nat) : (s.msix v).xcache = s.xcache := State.emit_xcache _ _
@[simp] theorem State.msix_invals (s : State) (v : Nat) : (s.msix v).invals = s.invals := State.emit_invals _ _
@[simp] theorem State.msix_xorphans (s : State) (v : Nat) : (s.msix v).xorphans = s.xorphans := State.emit_xorphans _ _
@[simp] theorem State.msix_prgs (s : State) (v : Nat) : (s.msix v).prgs = s.prgs := State.emit_prgs _ _
@[simp] theorem State.msix_priAlloc (s : State) (v : Nat) : (s.msix v).priAlloc = s.priAlloc := State.emit_priAlloc _ _
@[simp] theorem State.msix_priFailure (s : State) (v : Nat) : (s.msix v).priFailure = s.priFailure :=
    State.emit_priFailure _ _
@[simp] theorem State.msix_ctagSeq (s : State) (v : Nat) : (s.msix v).ctagSeq = s.ctagSeq := State.emit_ctagSeq _ _
@[simp] theorem State.msix_tables (s : State) (v : Nat) : (s.msix v).tables = s.tables := State.emit_tables _ _
@[simp] theorem State.msix_compRetired (s : State) (v : Nat) : (s.msix v).compRetired = s.compRetired :=
    State.emit_compRetired _ _
@[simp] theorem State.msix_expRetired (s : State) (v : Nat) : (s.msix v).expRetired = s.expRetired :=
    State.emit_expRetired _ _
@[simp] theorem State.msix_draining (s : State) (v : Nat) : (s.msix v).draining = s.draining := State.emit_draining _ _
@[simp] theorem State.msix_fabricHeld (s : State) (v : Nat) : (s.msix v).fabricHeld = s.fabricHeld :=
    State.emit_fabricHeld _ _
@[simp] theorem State.msix_ports (s : State) (v : Nat) : (s.msix v).ports = s.ports := State.emit_ports _ _
@[simp] theorem State.msix_msgSeq (s : State) (v : Nat) : (s.msix v).msgSeq = s.msgSeq := State.emit_msgSeq _ _
@[simp] theorem State.msix_credits (s : State) (v : Nat) : (s.msix v).credits = s.credits := State.emit_credits _ _
@[simp] theorem State.msix_rx (s : State) (v : Nat) : (s.msix v).rx = s.rx := State.emit_rx _ _
@[simp] theorem State.msix_peers (s : State) (v : Nat) : (s.msix v).peers = s.peers := State.emit_peers _ _
@[simp] theorem State.msix_beatDue (s : State) (v : Nat) : (s.msix v).beatDue = s.beatDue := State.emit_beatDue _ _
@[simp] theorem State.msix_sites (s : State) (v : Nat) : (s.msix v).sites = s.sites := State.emit_sites _ _
@[simp] theorem State.msix_evac (s : State) (v : Nat) : (s.msix v).evac = s.evac := State.emit_evac _ _
@[simp] theorem State.msix_arbs (s : State) (v : Nat) : (s.msix v).arbs = s.arbs := State.emit_arbs _ _
@[simp] theorem State.msix_mq (s : State) (v : Nat) : (s.msix v).mq = s.mq := State.emit_mq _ _
@[simp] theorem State.msix_flash0 (s : State) (v : Nat) : (s.msix v).flash0 = s.flash0 := State.emit_flash0 _ _
@[simp] theorem State.msix_flash1 (s : State) (v : Nat) : (s.msix v).flash1 = s.flash1 := State.emit_flash1 _ _
@[simp] theorem State.msix_record (s : State) (v : Nat) : (s.msix v).record = s.record := State.emit_record _ _
@[simp] theorem State.msix_recordWrite (s : State) (v : Nat) : (s.msix v).recordWrite = s.recordWrite :=
    State.emit_recordWrite _ _
@[simp] theorem State.msix_recordDirty (s : State) (v : Nat) : (s.msix v).recordDirty = s.recordDirty :=
    State.emit_recordDirty _ _
@[simp] theorem State.msix_stackIds (s : State) (v : Nat) : (s.msix v).stackIds = s.stackIds := State.emit_stackIds _ _
@[simp] theorem State.msix_power (s : State) (v : Nat) : (s.msix v).power = s.power := State.emit_power _ _
@[simp] theorem State.msix_entering (s : State) (v : Nat) : (s.msix v).entering = s.entering := State.emit_entering _ _
@[simp] theorem State.msix_waking (s : State) (v : Nat) : (s.msix v).waking = s.waking := State.emit_waking _ _
@[simp] theorem State.msix_powerAt (s : State) (v : Nat) : (s.msix v).powerAt = s.powerAt := State.emit_powerAt _ _
@[simp] theorem State.msix_wakeSeen (s : State) (v : Nat) : (s.msix v).wakeSeen = s.wakeSeen := State.emit_wakeSeen _ _
@[simp] theorem State.msix_latchedWake (s : State) (v : Nat) : (s.msix v).latchedWake = s.latchedWake :=
    State.emit_latchedWake _ _
@[simp] theorem State.msix_wakeBuf (s : State) (v : Nat) : (s.msix v).wakeBuf = s.wakeBuf := State.emit_wakeBuf _ _
@[simp] theorem State.msix_powered (s : State) (v : Nat) : (s.msix v).powered = s.powered := State.emit_powered _ _
@[simp] theorem State.msix_padWait (s : State) (v : Nat) : (s.msix v).padWait = s.padWait := State.emit_padWait _ _
@[simp] theorem State.msix_startup (s : State) (v : Nat) : (s.msix v).startup = s.startup := State.emit_startup _ _
@[simp] theorem State.msix_coldStart (s : State) (v : Nat) : (s.msix v).coldStart = s.coldStart :=
    State.emit_coldStart _ _
@[simp] theorem State.msix_restoring (s : State) (v : Nat) : (s.msix v).restoring = s.restoring :=
    State.emit_restoring _ _
@[simp] theorem State.msix_padExit (s : State) (v : Nat) : (s.msix v).padExit = s.padExit := State.emit_padExit _ _
@[simp] theorem State.msix_padAt (s : State) (v : Nat) : (s.msix v).padAt = s.padAt := State.emit_padAt _ _
@[simp] theorem State.msix_checksAt (s : State) (v : Nat) : (s.msix v).checksAt = s.checksAt := State.emit_checksAt _ _
@[simp] theorem State.msix_linkDown (s : State) (v : Nat) : (s.msix v).linkDown = s.linkDown := State.emit_linkDown _ _
@[simp] theorem State.msix_linkDownCycles (s : State) (v : Nat) : (s.msix v).linkDownCycles = s.linkDownCycles :=
    State.emit_linkDownCycles _ _
@[simp] theorem State.msix_idleCycles (s : State) (v : Nat) : (s.msix v).idleCycles = s.idleCycles :=
    State.emit_idleCycles _ _
@[simp] theorem State.msix_pending (s : State) (v : Nat) : (s.msix v).pending = s.pending := State.emit_pending _ _
@[simp] theorem State.reg_msix' (s : State) (v : Nat) (o : Nat) : (s.msix v).reg o = s.reg o := State.reg_emit' _ _ _
@[simp] theorem State.fld_msix' (s : State) (v : Nat) (o lo2 n2 : Nat) :
    (s.msix v).fld o lo2 n2 = s.fld o lo2 n2 := State.fld_emit' _ _ _ _ _
@[simp] theorem State.bit_msix' (s : State) (v : Nat) (o j : Nat) :
    (s.msix v).bit o j = s.bit o j := State.bit_emit' _ _ _ _
@[simp] theorem State.reg64_msix' (s : State) (v : Nat) (o : Nat) :
    (s.msix v).reg64 o = s.reg64 o := State.reg64_emit' _ _ _
@[simp] theorem State.setNow_msix' (s : State) (v : Nat) (o : Nat) :
    (s.msix v).setNow o = s.setNow o := State.setNow_emit' _ _ _
@[simp] theorem State.gtc_msix' (s : State) (v : Nat) : (s.msix v).gtc = s.gtc := State.gtc_emit' _ _
@[simp] theorem State.node_msix' (s : State) (v : Nat) : (s.msix v).node = s.node := State.node_emit' _ _
@[simp] theorem State.flag_msix' (s : State) (v : Nat) (e2 : Nat) :
    (s.msix v).flag e2 = s.flag e2 := State.flag_emit' _ _ _
@[simp] theorem State.readByte_msix' (s : State) (v : Nat) (x2 : Nat) :
    (s.msix v).readByte x2 = s.readByte x2 := State.readByte_emit' _ _ _
@[simp] theorem State.task_msix' (s : State) (v : Nat) (t2 : TaskRef) :
    (s.msix v).task t2 = s.task t2 := State.task_emit' _ _ _
@[simp] theorem State.sq_msix' (s : State) (v : Nat) (q2 : Nat) : (s.msix v).sq q2 = s.sq q2 := State.sq_emit' _ _ _
@[simp] theorem State.cq_msix' (s : State) (v : Nat) (c2 : Nat) : (s.msix v).cq c2 = s.cq c2 := State.cq_emit' _ _ _
@[simp] theorem State.port_msix' (s : State) (v : Nat) (p2 : Nat) :
    (s.msix v).port p2 = s.port p2 := State.port_emit' _ _ _
@[simp] theorem State.endpoint_msix' (s : State) (v : Nat) (r2 : Nat) :
    (s.msix v).endpoint r2 = s.endpoint r2 := State.endpoint_emit' _ _ _
@[simp] theorem State.peer_msix' (s : State) (v : Nat) (n2 : Nat) :
    (s.msix v).peer n2 = s.peer n2 := State.peer_emit' _ _ _
@[simp] theorem State.site_msix' (s : State) (v : Nat) (b2 : Nat) :
    (s.msix v).site b2 = s.site b2 := State.site_emit' _ _ _
@[simp] theorem State.arb_msix' (s : State) (v : Nat) (a2 : Nat) :
    (s.msix v).arb a2 = s.arb a2 := State.arb_emit' _ _ _
@[simp] theorem State.stream_msix' (s : State) (v : Nat) (n2 : Nat) :
    (s.msix v).stream n2 = s.stream n2 := State.stream_emit' _ _ _
@[simp] theorem State.apertureOwner_msix' (s : State) (v : Nat) (n2 : Nat) :
    (s.msix v).apertureOwner n2 = s.apertureOwner n2 := State.apertureOwner_emit' _ _ _
@[simp] theorem State.below_msix' (s : State) (v : Nat) : (s.msix v).below = s.below := State.below_emit' _ _

/-! ### stepFree -/

@[simp] theorem State.stepFree_regs (s : State) : (s.stepFree).regs = s.regs := rfl
@[simp] theorem State.stepFree_staged (s : State) : (s.stepFree).staged = s.staged := rfl
@[simp] theorem State.stepFree_latched (s : State) : (s.stepFree).latched = s.latched := rfl
@[simp] theorem State.stepFree_drt (s : State) : (s.stepFree).drt = s.drt := rfl
@[simp] theorem State.stepFree_bar2Log2 (s : State) : (s.stepFree).bar2Log2 = s.bar2Log2 := rfl
@[simp] theorem State.stepFree_mem (s : State) : (s.stepFree).mem = s.mem := rfl
@[simp] theorem State.stepFree_memGen (s : State) : (s.stepFree).memGen = s.memGen := rfl
@[simp] theorem State.stepFree_push (s : State) : (s.stepFree).push = s.push := rfl
@[simp] theorem State.stepFree_spPayload (s : State) : (s.stepFree).spPayload = s.spPayload := rfl
@[simp] theorem State.stepFree_out (s : State) : (s.stepFree).out = s.out := rfl
@[simp] theorem State.stepFree_cycle (s : State) : (s.stepFree).cycle = s.cycle := rfl
@[simp] theorem State.stepFree_hostHeld (s : State) : (s.stepFree).hostHeld = s.hostHeld := rfl
@[simp] theorem State.stepFree_linkUpAt (s : State) : (s.stepFree).linkUpAt = s.linkUpAt := rfl
@[simp] theorem State.stepFree_now (s : State) : (s.stepFree).now = s.now := rfl
@[simp] theorem State.stepFree_later (s : State) : (s.stepFree).later = s.later := rfl
@[simp] theorem State.stepFree_halfCycle (s : State) : (s.stepFree).halfCycle = s.halfCycle := rfl
@[simp] theorem State.stepFree_gtcHold (s : State) : (s.stepFree).gtcHold = s.gtcHold := rfl
@[simp] theorem State.stepFree_sqs (s : State) : (s.stepFree).sqs = s.sqs := rfl
@[simp] theorem State.stepFree_cqs (s : State) : (s.stepFree).cqs = s.cqs := rfl
@[simp] theorem State.stepFree_tasks (s : State) : (s.stepFree).tasks = s.tasks := rfl
@[simp] theorem State.stepFree_apertures (s : State) : (s.stepFree).apertures = s.apertures := rfl
@[simp] theorem State.stepFree_apLoads (s : State) : (s.stepFree).apLoads = s.apLoads := rfl
@[simp] theorem State.stepFree_ds (s : State) : (s.stepFree).ds = s.ds := rfl
@[simp] theorem State.stepFree_barriers (s : State) : (s.stepFree).barriers = s.barriers := rfl
@[simp] theorem State.stepFree_stepEnding (s : State) : (s.stepFree).stepEnding = s.stepEnding := rfl
@[simp] theorem State.stepFree_stepEndSeen (s : State) : (s.stepFree).stepEndSeen = s.stepEndSeen := rfl
@[simp] theorem State.stepFree_boundaryFresh (s : State) : (s.stepFree).boundaryFresh = s.boundaryFresh := rfl
@[simp] theorem State.stepFree_holdLen (s : State) : (s.stepFree).holdLen = s.holdLen := rfl
@[simp] theorem State.stepFree_holdReported (s : State) : (s.stepFree).holdReported = s.holdReported := rfl
@[simp] theorem State.stepFree_deferred (s : State) : (s.stepFree).deferred = s.deferred := rfl
@[simp] theorem State.stepFree_holdClose (s : State) : (s.stepFree).holdClose = s.holdClose := rfl
@[simp] theorem State.stepFree_closing (s : State) : (s.stepFree).closing = s.closing := rfl
@[simp] theorem State.stepFree_xcache (s : State) : (s.stepFree).xcache = s.xcache := rfl
@[simp] theorem State.stepFree_invals (s : State) : (s.stepFree).invals = s.invals := rfl
@[simp] theorem State.stepFree_xorphans (s : State) : (s.stepFree).xorphans = s.xorphans := rfl
@[simp] theorem State.stepFree_prgs (s : State) : (s.stepFree).prgs = s.prgs := rfl
@[simp] theorem State.stepFree_priAlloc (s : State) : (s.stepFree).priAlloc = s.priAlloc := rfl
@[simp] theorem State.stepFree_priFailure (s : State) : (s.stepFree).priFailure = s.priFailure := rfl
@[simp] theorem State.stepFree_ctagSeq (s : State) : (s.stepFree).ctagSeq = s.ctagSeq := rfl
@[simp] theorem State.stepFree_tables (s : State) : (s.stepFree).tables = s.tables := rfl
@[simp] theorem State.stepFree_compRetired (s : State) : (s.stepFree).compRetired = s.compRetired := rfl
@[simp] theorem State.stepFree_expRetired (s : State) : (s.stepFree).expRetired = s.expRetired := rfl
@[simp] theorem State.stepFree_draining (s : State) : (s.stepFree).draining = s.draining := rfl
@[simp] theorem State.stepFree_fabricHeld (s : State) : (s.stepFree).fabricHeld = s.fabricHeld := rfl
@[simp] theorem State.stepFree_ports (s : State) : (s.stepFree).ports = s.ports := rfl
@[simp] theorem State.stepFree_msgSeq (s : State) : (s.stepFree).msgSeq = s.msgSeq := rfl
@[simp] theorem State.stepFree_credits (s : State) : (s.stepFree).credits = s.credits := rfl
@[simp] theorem State.stepFree_rx (s : State) : (s.stepFree).rx = s.rx := rfl
@[simp] theorem State.stepFree_peers (s : State) : (s.stepFree).peers = s.peers := rfl
@[simp] theorem State.stepFree_beatDue (s : State) : (s.stepFree).beatDue = s.beatDue := rfl
@[simp] theorem State.stepFree_sites (s : State) : (s.stepFree).sites = s.sites := rfl
@[simp] theorem State.stepFree_evac (s : State) : (s.stepFree).evac = s.evac := rfl
@[simp] theorem State.stepFree_arbs (s : State) : (s.stepFree).arbs = s.arbs := rfl
@[simp] theorem State.stepFree_mq (s : State) : (s.stepFree).mq = s.mq := rfl
@[simp] theorem State.stepFree_flash0 (s : State) : (s.stepFree).flash0 = s.flash0 := rfl
@[simp] theorem State.stepFree_flash1 (s : State) : (s.stepFree).flash1 = s.flash1 := rfl
@[simp] theorem State.stepFree_record (s : State) : (s.stepFree).record = s.record := rfl
@[simp] theorem State.stepFree_recordWrite (s : State) : (s.stepFree).recordWrite = s.recordWrite := rfl
@[simp] theorem State.stepFree_recordDirty (s : State) : (s.stepFree).recordDirty = s.recordDirty := rfl
@[simp] theorem State.stepFree_stackIds (s : State) : (s.stepFree).stackIds = s.stackIds := rfl
@[simp] theorem State.stepFree_power (s : State) : (s.stepFree).power = s.power := rfl
@[simp] theorem State.stepFree_entering (s : State) : (s.stepFree).entering = s.entering := rfl
@[simp] theorem State.stepFree_waking (s : State) : (s.stepFree).waking = s.waking := rfl
@[simp] theorem State.stepFree_powerAt (s : State) : (s.stepFree).powerAt = s.powerAt := rfl
@[simp] theorem State.stepFree_wakeSeen (s : State) : (s.stepFree).wakeSeen = s.wakeSeen := rfl
@[simp] theorem State.stepFree_latchedWake (s : State) : (s.stepFree).latchedWake = s.latchedWake := rfl
@[simp] theorem State.stepFree_wakeBuf (s : State) : (s.stepFree).wakeBuf = s.wakeBuf := rfl
@[simp] theorem State.stepFree_powered (s : State) : (s.stepFree).powered = s.powered := rfl
@[simp] theorem State.stepFree_padWait (s : State) : (s.stepFree).padWait = s.padWait := rfl
@[simp] theorem State.stepFree_startup (s : State) : (s.stepFree).startup = s.startup := rfl
@[simp] theorem State.stepFree_coldStart (s : State) : (s.stepFree).coldStart = s.coldStart := rfl
@[simp] theorem State.stepFree_restoring (s : State) : (s.stepFree).restoring = s.restoring := rfl
@[simp] theorem State.stepFree_padExit (s : State) : (s.stepFree).padExit = s.padExit := rfl
@[simp] theorem State.stepFree_padAt (s : State) : (s.stepFree).padAt = s.padAt := rfl
@[simp] theorem State.stepFree_checksAt (s : State) : (s.stepFree).checksAt = s.checksAt := rfl
@[simp] theorem State.stepFree_linkDown (s : State) : (s.stepFree).linkDown = s.linkDown := rfl
@[simp] theorem State.stepFree_linkDownCycles (s : State) : (s.stepFree).linkDownCycles = s.linkDownCycles := rfl
@[simp] theorem State.stepFree_idleCycles (s : State) : (s.stepFree).idleCycles = s.idleCycles := rfl
@[simp] theorem State.stepFree_pending (s : State) : (s.stepFree).pending = s.pending := rfl
@[simp] theorem State.reg_stepFree' (s : State) (o : Nat) : (s.stepFree).reg o = s.reg o := rfl
@[simp] theorem State.fld_stepFree' (s : State) (o lo2 n2 : Nat) : (s.stepFree).fld o lo2 n2 = s.fld o lo2 n2 := rfl
@[simp] theorem State.bit_stepFree' (s : State) (o j : Nat) : (s.stepFree).bit o j = s.bit o j := rfl
@[simp] theorem State.reg64_stepFree' (s : State) (o : Nat) : (s.stepFree).reg64 o = s.reg64 o := rfl
@[simp] theorem State.setNow_stepFree' (s : State) (o : Nat) : (s.stepFree).setNow o = s.setNow o := rfl
@[simp] theorem State.gtc_stepFree' (s : State) : (s.stepFree).gtc = s.gtc := rfl
@[simp] theorem State.node_stepFree' (s : State) : (s.stepFree).node = s.node := rfl
@[simp] theorem State.flag_stepFree' (s : State) (e2 : Nat) : (s.stepFree).flag e2 = s.flag e2 := rfl
@[simp] theorem State.readByte_stepFree' (s : State) (x2 : Nat) : (s.stepFree).readByte x2 = s.readByte x2 := rfl
@[simp] theorem State.task_stepFree' (s : State) (t2 : TaskRef) : (s.stepFree).task t2 = s.task t2 := rfl
@[simp] theorem State.sq_stepFree' (s : State) (q2 : Nat) : (s.stepFree).sq q2 = s.sq q2 := rfl
@[simp] theorem State.cq_stepFree' (s : State) (c2 : Nat) : (s.stepFree).cq c2 = s.cq c2 := rfl
@[simp] theorem State.port_stepFree' (s : State) (p2 : Nat) : (s.stepFree).port p2 = s.port p2 := rfl
@[simp] theorem State.endpoint_stepFree' (s : State) (r2 : Nat) : (s.stepFree).endpoint r2 = s.endpoint r2 := rfl
@[simp] theorem State.peer_stepFree' (s : State) (n2 : Nat) : (s.stepFree).peer n2 = s.peer n2 := rfl
@[simp] theorem State.site_stepFree' (s : State) (b2 : Nat) : (s.stepFree).site b2 = s.site b2 := rfl
@[simp] theorem State.arb_stepFree' (s : State) (a2 : Nat) : (s.stepFree).arb a2 = s.arb a2 := rfl
@[simp] theorem State.stream_stepFree' (s : State) (n2 : Nat) : (s.stepFree).stream n2 = s.stream n2 := rfl
@[simp] theorem State.apertureOwner_stepFree' (s : State) (n2 : Nat) :
    (s.stepFree).apertureOwner n2 = s.apertureOwner n2 := rfl
@[simp] theorem State.below_stepFree' (s : State) : (s.stepFree).below = s.below := rfl

/-! ### writeMem -/

@[simp] theorem State.writeMem_regs (s : State) (a : Nat) (bs : List Byte) : (s.writeMem a bs).regs = s.regs := rfl
@[simp] theorem State.writeMem_staged (s : State) (a : Nat) (bs : List Byte) : (s.writeMem a bs).staged = s.staged :=
    rfl
@[simp] theorem State.writeMem_latched (s : State) (a : Nat) (bs : List Byte) : (s.writeMem a bs).latched = s.latched :=
    rfl
@[simp] theorem State.writeMem_drt (s : State) (a : Nat) (bs : List Byte) : (s.writeMem a bs).drt = s.drt := rfl
@[simp] theorem State.writeMem_bar2Log2 (s : State) (a : Nat) (bs : List Byte) : (s.writeMem a bs).bar2Log2 = s.bar2Log2 :=
    rfl
@[simp] theorem State.writeMem_memGen (s : State) (a : Nat) (bs : List Byte) : (s.writeMem a bs).memGen = s.memGen :=
    rfl
@[simp] theorem State.writeMem_push (s : State) (a : Nat) (bs : List Byte) : (s.writeMem a bs).push = s.push := rfl
@[simp] theorem State.writeMem_spPayload (s : State) (a : Nat) (bs : List Byte) : (s.writeMem a bs).spPayload = s.spPayload :=
    rfl
@[simp] theorem State.writeMem_freeCtr (s : State) (a : Nat) (bs : List Byte) : (s.writeMem a bs).freeCtr = s.freeCtr :=
    rfl
@[simp] theorem State.writeMem_out (s : State) (a : Nat) (bs : List Byte) : (s.writeMem a bs).out = s.out := rfl
@[simp] theorem State.writeMem_cycle (s : State) (a : Nat) (bs : List Byte) : (s.writeMem a bs).cycle = s.cycle := rfl
@[simp] theorem State.writeMem_hostHeld (s : State) (a : Nat) (bs : List Byte) : (s.writeMem a bs).hostHeld = s.hostHeld :=
    rfl
@[simp] theorem State.writeMem_linkUpAt (s : State) (a : Nat) (bs : List Byte) : (s.writeMem a bs).linkUpAt = s.linkUpAt :=
    rfl
@[simp] theorem State.writeMem_later (s : State) (a : Nat) (bs : List Byte) : (s.writeMem a bs).later = s.later := rfl
@[simp] theorem State.writeMem_halfCycle (s : State) (a : Nat) (bs : List Byte) : (s.writeMem a bs).halfCycle = s.halfCycle :=
    rfl
@[simp] theorem State.writeMem_gtcHold (s : State) (a : Nat) (bs : List Byte) : (s.writeMem a bs).gtcHold = s.gtcHold :=
    rfl
@[simp] theorem State.writeMem_sqs (s : State) (a : Nat) (bs : List Byte) : (s.writeMem a bs).sqs = s.sqs := rfl
@[simp] theorem State.writeMem_cqs (s : State) (a : Nat) (bs : List Byte) : (s.writeMem a bs).cqs = s.cqs := rfl
@[simp] theorem State.writeMem_tasks (s : State) (a : Nat) (bs : List Byte) : (s.writeMem a bs).tasks = s.tasks := rfl
@[simp] theorem State.writeMem_apertures (s : State) (a : Nat) (bs : List Byte) : (s.writeMem a bs).apertures = s.apertures :=
    rfl
@[simp] theorem State.writeMem_apLoads (s : State) (a : Nat) (bs : List Byte) : (s.writeMem a bs).apLoads = s.apLoads :=
    rfl
@[simp] theorem State.writeMem_ds (s : State) (a : Nat) (bs : List Byte) : (s.writeMem a bs).ds = s.ds := rfl
@[simp] theorem State.writeMem_barriers (s : State) (a : Nat) (bs : List Byte) : (s.writeMem a bs).barriers = s.barriers :=
    rfl
@[simp] theorem State.writeMem_stepEnding (s : State) (a : Nat) (bs : List Byte) : (s.writeMem a bs).stepEnding = s.stepEnding :=
    rfl
@[simp] theorem State.writeMem_stepEndSeen (s : State) (a : Nat) (bs : List Byte) : (s.writeMem a bs).stepEndSeen = s.stepEndSeen :=
    rfl
@[simp] theorem State.writeMem_boundaryFresh (s : State) (a : Nat) (bs : List Byte) : (s.writeMem a bs).boundaryFresh = s.boundaryFresh :=
    rfl
@[simp] theorem State.writeMem_holdLen (s : State) (a : Nat) (bs : List Byte) : (s.writeMem a bs).holdLen = s.holdLen :=
    rfl
@[simp] theorem State.writeMem_holdReported (s : State) (a : Nat) (bs : List Byte) : (s.writeMem a bs).holdReported = s.holdReported :=
    rfl
@[simp] theorem State.writeMem_deferred (s : State) (a : Nat) (bs : List Byte) : (s.writeMem a bs).deferred = s.deferred :=
    rfl
@[simp] theorem State.writeMem_holdClose (s : State) (a : Nat) (bs : List Byte) : (s.writeMem a bs).holdClose = s.holdClose :=
    rfl
@[simp] theorem State.writeMem_closing (s : State) (a : Nat) (bs : List Byte) : (s.writeMem a bs).closing = s.closing :=
    rfl
@[simp] theorem State.writeMem_xcache (s : State) (a : Nat) (bs : List Byte) : (s.writeMem a bs).xcache = s.xcache :=
    rfl
@[simp] theorem State.writeMem_invals (s : State) (a : Nat) (bs : List Byte) : (s.writeMem a bs).invals = s.invals :=
    rfl
@[simp] theorem State.writeMem_xorphans (s : State) (a : Nat) (bs : List Byte) : (s.writeMem a bs).xorphans = s.xorphans :=
    rfl
@[simp] theorem State.writeMem_prgs (s : State) (a : Nat) (bs : List Byte) : (s.writeMem a bs).prgs = s.prgs := rfl
@[simp] theorem State.writeMem_priAlloc (s : State) (a : Nat) (bs : List Byte) : (s.writeMem a bs).priAlloc = s.priAlloc :=
    rfl
@[simp] theorem State.writeMem_priFailure (s : State) (a : Nat) (bs : List Byte) : (s.writeMem a bs).priFailure = s.priFailure :=
    rfl
@[simp] theorem State.writeMem_ctagSeq (s : State) (a : Nat) (bs : List Byte) : (s.writeMem a bs).ctagSeq = s.ctagSeq :=
    rfl
@[simp] theorem State.writeMem_tables (s : State) (a : Nat) (bs : List Byte) : (s.writeMem a bs).tables = s.tables :=
    rfl
@[simp] theorem State.writeMem_compRetired (s : State) (a : Nat) (bs : List Byte) : (s.writeMem a bs).compRetired = s.compRetired :=
    rfl
@[simp] theorem State.writeMem_expRetired (s : State) (a : Nat) (bs : List Byte) : (s.writeMem a bs).expRetired = s.expRetired :=
    rfl
@[simp] theorem State.writeMem_draining (s : State) (a : Nat) (bs : List Byte) : (s.writeMem a bs).draining = s.draining :=
    rfl
@[simp] theorem State.writeMem_fabricHeld (s : State) (a : Nat) (bs : List Byte) : (s.writeMem a bs).fabricHeld = s.fabricHeld :=
    rfl
@[simp] theorem State.writeMem_ports (s : State) (a : Nat) (bs : List Byte) : (s.writeMem a bs).ports = s.ports := rfl
@[simp] theorem State.writeMem_msgSeq (s : State) (a : Nat) (bs : List Byte) : (s.writeMem a bs).msgSeq = s.msgSeq :=
    rfl
@[simp] theorem State.writeMem_credits (s : State) (a : Nat) (bs : List Byte) : (s.writeMem a bs).credits = s.credits :=
    rfl
@[simp] theorem State.writeMem_rx (s : State) (a : Nat) (bs : List Byte) : (s.writeMem a bs).rx = s.rx := rfl
@[simp] theorem State.writeMem_peers (s : State) (a : Nat) (bs : List Byte) : (s.writeMem a bs).peers = s.peers := rfl
@[simp] theorem State.writeMem_beatDue (s : State) (a : Nat) (bs : List Byte) : (s.writeMem a bs).beatDue = s.beatDue :=
    rfl
@[simp] theorem State.writeMem_sites (s : State) (a : Nat) (bs : List Byte) : (s.writeMem a bs).sites = s.sites := rfl
@[simp] theorem State.writeMem_evac (s : State) (a : Nat) (bs : List Byte) : (s.writeMem a bs).evac = s.evac := rfl
@[simp] theorem State.writeMem_arbs (s : State) (a : Nat) (bs : List Byte) : (s.writeMem a bs).arbs = s.arbs := rfl
@[simp] theorem State.writeMem_mq (s : State) (a : Nat) (bs : List Byte) : (s.writeMem a bs).mq = s.mq := rfl
@[simp] theorem State.writeMem_flash0 (s : State) (a : Nat) (bs : List Byte) : (s.writeMem a bs).flash0 = s.flash0 :=
    rfl
@[simp] theorem State.writeMem_flash1 (s : State) (a : Nat) (bs : List Byte) : (s.writeMem a bs).flash1 = s.flash1 :=
    rfl
@[simp] theorem State.writeMem_record (s : State) (a : Nat) (bs : List Byte) : (s.writeMem a bs).record = s.record :=
    rfl
@[simp] theorem State.writeMem_recordWrite (s : State) (a : Nat) (bs : List Byte) : (s.writeMem a bs).recordWrite = s.recordWrite :=
    rfl
@[simp] theorem State.writeMem_recordDirty (s : State) (a : Nat) (bs : List Byte) : (s.writeMem a bs).recordDirty = s.recordDirty :=
    rfl
@[simp] theorem State.writeMem_stackIds (s : State) (a : Nat) (bs : List Byte) : (s.writeMem a bs).stackIds = s.stackIds :=
    rfl
@[simp] theorem State.writeMem_power (s : State) (a : Nat) (bs : List Byte) : (s.writeMem a bs).power = s.power := rfl
@[simp] theorem State.writeMem_entering (s : State) (a : Nat) (bs : List Byte) : (s.writeMem a bs).entering = s.entering :=
    rfl
@[simp] theorem State.writeMem_waking (s : State) (a : Nat) (bs : List Byte) : (s.writeMem a bs).waking = s.waking :=
    rfl
@[simp] theorem State.writeMem_powerAt (s : State) (a : Nat) (bs : List Byte) : (s.writeMem a bs).powerAt = s.powerAt :=
    rfl
@[simp] theorem State.writeMem_wakeSeen (s : State) (a : Nat) (bs : List Byte) : (s.writeMem a bs).wakeSeen = s.wakeSeen :=
    rfl
@[simp] theorem State.writeMem_latchedWake (s : State) (a : Nat) (bs : List Byte) : (s.writeMem a bs).latchedWake = s.latchedWake :=
    rfl
@[simp] theorem State.writeMem_wakeBuf (s : State) (a : Nat) (bs : List Byte) : (s.writeMem a bs).wakeBuf = s.wakeBuf :=
    rfl
@[simp] theorem State.writeMem_powered (s : State) (a : Nat) (bs : List Byte) : (s.writeMem a bs).powered = s.powered :=
    rfl
@[simp] theorem State.writeMem_padWait (s : State) (a : Nat) (bs : List Byte) : (s.writeMem a bs).padWait = s.padWait :=
    rfl
@[simp] theorem State.writeMem_startup (s : State) (a : Nat) (bs : List Byte) : (s.writeMem a bs).startup = s.startup :=
    rfl
@[simp] theorem State.writeMem_coldStart (s : State) (a : Nat) (bs : List Byte) : (s.writeMem a bs).coldStart = s.coldStart :=
    rfl
@[simp] theorem State.writeMem_restoring (s : State) (a : Nat) (bs : List Byte) : (s.writeMem a bs).restoring = s.restoring :=
    rfl
@[simp] theorem State.writeMem_padExit (s : State) (a : Nat) (bs : List Byte) : (s.writeMem a bs).padExit = s.padExit :=
    rfl
@[simp] theorem State.writeMem_padAt (s : State) (a : Nat) (bs : List Byte) : (s.writeMem a bs).padAt = s.padAt := rfl
@[simp] theorem State.writeMem_checksAt (s : State) (a : Nat) (bs : List Byte) : (s.writeMem a bs).checksAt = s.checksAt :=
    rfl
@[simp] theorem State.writeMem_linkDown (s : State) (a : Nat) (bs : List Byte) : (s.writeMem a bs).linkDown = s.linkDown :=
    rfl
@[simp] theorem State.writeMem_linkDownCycles (s : State) (a : Nat) (bs : List Byte) : (s.writeMem a bs).linkDownCycles = s.linkDownCycles :=
    rfl
@[simp] theorem State.writeMem_idleCycles (s : State) (a : Nat) (bs : List Byte) : (s.writeMem a bs).idleCycles = s.idleCycles :=
    rfl
@[simp] theorem State.writeMem_pending (s : State) (a : Nat) (bs : List Byte) : (s.writeMem a bs).pending = s.pending :=
    rfl
@[simp] theorem State.reg_writeMem' (s : State) (a : Nat) (bs : List Byte) (o : Nat) :
    (s.writeMem a bs).reg o = s.reg o := rfl
@[simp] theorem State.fld_writeMem' (s : State) (a : Nat) (bs : List Byte) (o lo2 n2 : Nat) :
    (s.writeMem a bs).fld o lo2 n2 = s.fld o lo2 n2 := rfl
@[simp] theorem State.bit_writeMem' (s : State) (a : Nat) (bs : List Byte) (o j : Nat) :
    (s.writeMem a bs).bit o j = s.bit o j := rfl
@[simp] theorem State.reg64_writeMem' (s : State) (a : Nat) (bs : List Byte) (o : Nat) :
    (s.writeMem a bs).reg64 o = s.reg64 o := rfl
@[simp] theorem State.gtc_writeMem' (s : State) (a : Nat) (bs : List Byte) : (s.writeMem a bs).gtc = s.gtc := rfl
@[simp] theorem State.node_writeMem' (s : State) (a : Nat) (bs : List Byte) : (s.writeMem a bs).node = s.node := rfl
@[simp] theorem State.flag_writeMem' (s : State) (a : Nat) (bs : List Byte) (e2 : Nat) :
    (s.writeMem a bs).flag e2 = s.flag e2 := rfl
@[simp] theorem State.task_writeMem' (s : State) (a : Nat) (bs : List Byte) (t2 : TaskRef) :
    (s.writeMem a bs).task t2 = s.task t2 := rfl
@[simp] theorem State.sq_writeMem' (s : State) (a : Nat) (bs : List Byte) (q2 : Nat) :
    (s.writeMem a bs).sq q2 = s.sq q2 := rfl
@[simp] theorem State.cq_writeMem' (s : State) (a : Nat) (bs : List Byte) (c2 : Nat) :
    (s.writeMem a bs).cq c2 = s.cq c2 := rfl
@[simp] theorem State.port_writeMem' (s : State) (a : Nat) (bs : List Byte) (p2 : Nat) :
    (s.writeMem a bs).port p2 = s.port p2 := rfl
@[simp] theorem State.endpoint_writeMem' (s : State) (a : Nat) (bs : List Byte) (r2 : Nat) :
    (s.writeMem a bs).endpoint r2 = s.endpoint r2 := rfl
@[simp] theorem State.peer_writeMem' (s : State) (a : Nat) (bs : List Byte) (n2 : Nat) :
    (s.writeMem a bs).peer n2 = s.peer n2 := rfl
@[simp] theorem State.site_writeMem' (s : State) (a : Nat) (bs : List Byte) (b2 : Nat) :
    (s.writeMem a bs).site b2 = s.site b2 := rfl
@[simp] theorem State.arb_writeMem' (s : State) (a : Nat) (bs : List Byte) (a2 : Nat) :
    (s.writeMem a bs).arb a2 = s.arb a2 := rfl
@[simp] theorem State.stream_writeMem' (s : State) (a : Nat) (bs : List Byte) (n2 : Nat) :
    (s.writeMem a bs).stream n2 = s.stream n2 := rfl
@[simp] theorem State.apertureOwner_writeMem' (s : State) (a : Nat) (bs : List Byte) (n2 : Nat) :
    (s.writeMem a bs).apertureOwner n2 = s.apertureOwner n2 := rfl
@[simp] theorem State.below_writeMem' (s : State) (a : Nat) (bs : List Byte) : (s.writeMem a bs).below = s.below := rfl

/-! ### writeCells -/

@[simp] theorem State.writeCells_regs (s : State) (cs : List WCell) : (s.writeCells cs).regs = s.regs := rfl
@[simp] theorem State.writeCells_staged (s : State) (cs : List WCell) : (s.writeCells cs).staged = s.staged := rfl
@[simp] theorem State.writeCells_latched (s : State) (cs : List WCell) : (s.writeCells cs).latched = s.latched := rfl
@[simp] theorem State.writeCells_drt (s : State) (cs : List WCell) : (s.writeCells cs).drt = s.drt := rfl
@[simp] theorem State.writeCells_bar2Log2 (s : State) (cs : List WCell) : (s.writeCells cs).bar2Log2 = s.bar2Log2 :=
    rfl
@[simp] theorem State.writeCells_memGen (s : State) (cs : List WCell) : (s.writeCells cs).memGen = s.memGen := rfl
@[simp] theorem State.writeCells_push (s : State) (cs : List WCell) : (s.writeCells cs).push = s.push := rfl
@[simp] theorem State.writeCells_spPayload (s : State) (cs : List WCell) : (s.writeCells cs).spPayload = s.spPayload :=
    rfl
@[simp] theorem State.writeCells_freeCtr (s : State) (cs : List WCell) : (s.writeCells cs).freeCtr = s.freeCtr := rfl
@[simp] theorem State.writeCells_out (s : State) (cs : List WCell) : (s.writeCells cs).out = s.out := rfl
@[simp] theorem State.writeCells_cycle (s : State) (cs : List WCell) : (s.writeCells cs).cycle = s.cycle := rfl
@[simp] theorem State.writeCells_hostHeld (s : State) (cs : List WCell) : (s.writeCells cs).hostHeld = s.hostHeld :=
    rfl
@[simp] theorem State.writeCells_linkUpAt (s : State) (cs : List WCell) : (s.writeCells cs).linkUpAt = s.linkUpAt :=
    rfl
@[simp] theorem State.writeCells_later (s : State) (cs : List WCell) : (s.writeCells cs).later = s.later := rfl
@[simp] theorem State.writeCells_halfCycle (s : State) (cs : List WCell) : (s.writeCells cs).halfCycle = s.halfCycle :=
    rfl
@[simp] theorem State.writeCells_gtcHold (s : State) (cs : List WCell) : (s.writeCells cs).gtcHold = s.gtcHold := rfl
@[simp] theorem State.writeCells_sqs (s : State) (cs : List WCell) : (s.writeCells cs).sqs = s.sqs := rfl
@[simp] theorem State.writeCells_cqs (s : State) (cs : List WCell) : (s.writeCells cs).cqs = s.cqs := rfl
@[simp] theorem State.writeCells_tasks (s : State) (cs : List WCell) : (s.writeCells cs).tasks = s.tasks := rfl
@[simp] theorem State.writeCells_apertures (s : State) (cs : List WCell) : (s.writeCells cs).apertures = s.apertures :=
    rfl
@[simp] theorem State.writeCells_apLoads (s : State) (cs : List WCell) : (s.writeCells cs).apLoads = s.apLoads := rfl
@[simp] theorem State.writeCells_ds (s : State) (cs : List WCell) : (s.writeCells cs).ds = s.ds := rfl
@[simp] theorem State.writeCells_barriers (s : State) (cs : List WCell) : (s.writeCells cs).barriers = s.barriers :=
    rfl
@[simp] theorem State.writeCells_stepEnding (s : State) (cs : List WCell) : (s.writeCells cs).stepEnding = s.stepEnding :=
    rfl
@[simp] theorem State.writeCells_stepEndSeen (s : State) (cs : List WCell) : (s.writeCells cs).stepEndSeen = s.stepEndSeen :=
    rfl
@[simp] theorem State.writeCells_boundaryFresh (s : State) (cs : List WCell) : (s.writeCells cs).boundaryFresh = s.boundaryFresh :=
    rfl
@[simp] theorem State.writeCells_holdLen (s : State) (cs : List WCell) : (s.writeCells cs).holdLen = s.holdLen := rfl
@[simp] theorem State.writeCells_holdReported (s : State) (cs : List WCell) : (s.writeCells cs).holdReported = s.holdReported :=
    rfl
@[simp] theorem State.writeCells_deferred (s : State) (cs : List WCell) : (s.writeCells cs).deferred = s.deferred :=
    rfl
@[simp] theorem State.writeCells_holdClose (s : State) (cs : List WCell) : (s.writeCells cs).holdClose = s.holdClose :=
    rfl
@[simp] theorem State.writeCells_closing (s : State) (cs : List WCell) : (s.writeCells cs).closing = s.closing := rfl
@[simp] theorem State.writeCells_xcache (s : State) (cs : List WCell) : (s.writeCells cs).xcache = s.xcache := rfl
@[simp] theorem State.writeCells_invals (s : State) (cs : List WCell) : (s.writeCells cs).invals = s.invals := rfl
@[simp] theorem State.writeCells_xorphans (s : State) (cs : List WCell) : (s.writeCells cs).xorphans = s.xorphans :=
    rfl
@[simp] theorem State.writeCells_prgs (s : State) (cs : List WCell) : (s.writeCells cs).prgs = s.prgs := rfl
@[simp] theorem State.writeCells_priAlloc (s : State) (cs : List WCell) : (s.writeCells cs).priAlloc = s.priAlloc :=
    rfl
@[simp] theorem State.writeCells_priFailure (s : State) (cs : List WCell) : (s.writeCells cs).priFailure = s.priFailure :=
    rfl
@[simp] theorem State.writeCells_ctagSeq (s : State) (cs : List WCell) : (s.writeCells cs).ctagSeq = s.ctagSeq := rfl
@[simp] theorem State.writeCells_tables (s : State) (cs : List WCell) : (s.writeCells cs).tables = s.tables := rfl
@[simp] theorem State.writeCells_compRetired (s : State) (cs : List WCell) : (s.writeCells cs).compRetired = s.compRetired :=
    rfl
@[simp] theorem State.writeCells_expRetired (s : State) (cs : List WCell) : (s.writeCells cs).expRetired = s.expRetired :=
    rfl
@[simp] theorem State.writeCells_draining (s : State) (cs : List WCell) : (s.writeCells cs).draining = s.draining :=
    rfl
@[simp] theorem State.writeCells_fabricHeld (s : State) (cs : List WCell) : (s.writeCells cs).fabricHeld = s.fabricHeld :=
    rfl
@[simp] theorem State.writeCells_ports (s : State) (cs : List WCell) : (s.writeCells cs).ports = s.ports := rfl
@[simp] theorem State.writeCells_msgSeq (s : State) (cs : List WCell) : (s.writeCells cs).msgSeq = s.msgSeq := rfl
@[simp] theorem State.writeCells_credits (s : State) (cs : List WCell) : (s.writeCells cs).credits = s.credits := rfl
@[simp] theorem State.writeCells_rx (s : State) (cs : List WCell) : (s.writeCells cs).rx = s.rx := rfl
@[simp] theorem State.writeCells_peers (s : State) (cs : List WCell) : (s.writeCells cs).peers = s.peers := rfl
@[simp] theorem State.writeCells_beatDue (s : State) (cs : List WCell) : (s.writeCells cs).beatDue = s.beatDue := rfl
@[simp] theorem State.writeCells_sites (s : State) (cs : List WCell) : (s.writeCells cs).sites = s.sites := rfl
@[simp] theorem State.writeCells_evac (s : State) (cs : List WCell) : (s.writeCells cs).evac = s.evac := rfl
@[simp] theorem State.writeCells_arbs (s : State) (cs : List WCell) : (s.writeCells cs).arbs = s.arbs := rfl
@[simp] theorem State.writeCells_mq (s : State) (cs : List WCell) : (s.writeCells cs).mq = s.mq := rfl
@[simp] theorem State.writeCells_flash0 (s : State) (cs : List WCell) : (s.writeCells cs).flash0 = s.flash0 := rfl
@[simp] theorem State.writeCells_flash1 (s : State) (cs : List WCell) : (s.writeCells cs).flash1 = s.flash1 := rfl
@[simp] theorem State.writeCells_record (s : State) (cs : List WCell) : (s.writeCells cs).record = s.record := rfl
@[simp] theorem State.writeCells_recordWrite (s : State) (cs : List WCell) : (s.writeCells cs).recordWrite = s.recordWrite :=
    rfl
@[simp] theorem State.writeCells_recordDirty (s : State) (cs : List WCell) : (s.writeCells cs).recordDirty = s.recordDirty :=
    rfl
@[simp] theorem State.writeCells_stackIds (s : State) (cs : List WCell) : (s.writeCells cs).stackIds = s.stackIds :=
    rfl
@[simp] theorem State.writeCells_power (s : State) (cs : List WCell) : (s.writeCells cs).power = s.power := rfl
@[simp] theorem State.writeCells_entering (s : State) (cs : List WCell) : (s.writeCells cs).entering = s.entering :=
    rfl
@[simp] theorem State.writeCells_waking (s : State) (cs : List WCell) : (s.writeCells cs).waking = s.waking := rfl
@[simp] theorem State.writeCells_powerAt (s : State) (cs : List WCell) : (s.writeCells cs).powerAt = s.powerAt := rfl
@[simp] theorem State.writeCells_wakeSeen (s : State) (cs : List WCell) : (s.writeCells cs).wakeSeen = s.wakeSeen :=
    rfl
@[simp] theorem State.writeCells_latchedWake (s : State) (cs : List WCell) : (s.writeCells cs).latchedWake = s.latchedWake :=
    rfl
@[simp] theorem State.writeCells_wakeBuf (s : State) (cs : List WCell) : (s.writeCells cs).wakeBuf = s.wakeBuf := rfl
@[simp] theorem State.writeCells_powered (s : State) (cs : List WCell) : (s.writeCells cs).powered = s.powered := rfl
@[simp] theorem State.writeCells_padWait (s : State) (cs : List WCell) : (s.writeCells cs).padWait = s.padWait := rfl
@[simp] theorem State.writeCells_startup (s : State) (cs : List WCell) : (s.writeCells cs).startup = s.startup := rfl
@[simp] theorem State.writeCells_coldStart (s : State) (cs : List WCell) : (s.writeCells cs).coldStart = s.coldStart :=
    rfl
@[simp] theorem State.writeCells_restoring (s : State) (cs : List WCell) : (s.writeCells cs).restoring = s.restoring :=
    rfl
@[simp] theorem State.writeCells_padExit (s : State) (cs : List WCell) : (s.writeCells cs).padExit = s.padExit := rfl
@[simp] theorem State.writeCells_padAt (s : State) (cs : List WCell) : (s.writeCells cs).padAt = s.padAt := rfl
@[simp] theorem State.writeCells_checksAt (s : State) (cs : List WCell) : (s.writeCells cs).checksAt = s.checksAt :=
    rfl
@[simp] theorem State.writeCells_linkDown (s : State) (cs : List WCell) : (s.writeCells cs).linkDown = s.linkDown :=
    rfl
@[simp] theorem State.writeCells_linkDownCycles (s : State) (cs : List WCell) : (s.writeCells cs).linkDownCycles = s.linkDownCycles :=
    rfl
@[simp] theorem State.writeCells_idleCycles (s : State) (cs : List WCell) : (s.writeCells cs).idleCycles = s.idleCycles :=
    rfl
@[simp] theorem State.writeCells_pending (s : State) (cs : List WCell) : (s.writeCells cs).pending = s.pending := rfl
@[simp] theorem State.reg_writeCells' (s : State) (cs : List WCell) (o : Nat) :
    (s.writeCells cs).reg o = s.reg o := rfl
@[simp] theorem State.fld_writeCells' (s : State) (cs : List WCell) (o lo2 n2 : Nat) :
    (s.writeCells cs).fld o lo2 n2 = s.fld o lo2 n2 := rfl
@[simp] theorem State.bit_writeCells' (s : State) (cs : List WCell) (o j : Nat) :
    (s.writeCells cs).bit o j = s.bit o j := rfl
@[simp] theorem State.reg64_writeCells' (s : State) (cs : List WCell) (o : Nat) :
    (s.writeCells cs).reg64 o = s.reg64 o := rfl
@[simp] theorem State.gtc_writeCells' (s : State) (cs : List WCell) : (s.writeCells cs).gtc = s.gtc := rfl
@[simp] theorem State.node_writeCells' (s : State) (cs : List WCell) : (s.writeCells cs).node = s.node := rfl
@[simp] theorem State.flag_writeCells' (s : State) (cs : List WCell) (e2 : Nat) :
    (s.writeCells cs).flag e2 = s.flag e2 := rfl
@[simp] theorem State.task_writeCells' (s : State) (cs : List WCell) (t2 : TaskRef) :
    (s.writeCells cs).task t2 = s.task t2 := rfl
@[simp] theorem State.sq_writeCells' (s : State) (cs : List WCell) (q2 : Nat) :
    (s.writeCells cs).sq q2 = s.sq q2 := rfl
@[simp] theorem State.cq_writeCells' (s : State) (cs : List WCell) (c2 : Nat) :
    (s.writeCells cs).cq c2 = s.cq c2 := rfl
@[simp] theorem State.port_writeCells' (s : State) (cs : List WCell) (p2 : Nat) :
    (s.writeCells cs).port p2 = s.port p2 := rfl
@[simp] theorem State.endpoint_writeCells' (s : State) (cs : List WCell) (r2 : Nat) :
    (s.writeCells cs).endpoint r2 = s.endpoint r2 := rfl
@[simp] theorem State.peer_writeCells' (s : State) (cs : List WCell) (n2 : Nat) :
    (s.writeCells cs).peer n2 = s.peer n2 := rfl
@[simp] theorem State.site_writeCells' (s : State) (cs : List WCell) (b2 : Nat) :
    (s.writeCells cs).site b2 = s.site b2 := rfl
@[simp] theorem State.arb_writeCells' (s : State) (cs : List WCell) (a2 : Nat) :
    (s.writeCells cs).arb a2 = s.arb a2 := rfl
@[simp] theorem State.stream_writeCells' (s : State) (cs : List WCell) (n2 : Nat) :
    (s.writeCells cs).stream n2 = s.stream n2 := rfl
@[simp] theorem State.apertureOwner_writeCells' (s : State) (cs : List WCell) (n2 : Nat) :
    (s.writeCells cs).apertureOwner n2 = s.apertureOwner n2 := rfl
@[simp] theorem State.below_writeCells' (s : State) (cs : List WCell) : (s.writeCells cs).below = s.below := rfl

/-! ### putTask -/

@[simp] theorem State.putTask_regs (s : State) (t : Task) : (s.putTask t).regs = s.regs := rfl
@[simp] theorem State.putTask_staged (s : State) (t : Task) : (s.putTask t).staged = s.staged := rfl
@[simp] theorem State.putTask_latched (s : State) (t : Task) : (s.putTask t).latched = s.latched := rfl
@[simp] theorem State.putTask_drt (s : State) (t : Task) : (s.putTask t).drt = s.drt := rfl
@[simp] theorem State.putTask_bar2Log2 (s : State) (t : Task) : (s.putTask t).bar2Log2 = s.bar2Log2 := rfl
@[simp] theorem State.putTask_mem (s : State) (t : Task) : (s.putTask t).mem = s.mem := rfl
@[simp] theorem State.putTask_memGen (s : State) (t : Task) : (s.putTask t).memGen = s.memGen := rfl
@[simp] theorem State.putTask_push (s : State) (t : Task) : (s.putTask t).push = s.push := rfl
@[simp] theorem State.putTask_spPayload (s : State) (t : Task) : (s.putTask t).spPayload = s.spPayload := rfl
@[simp] theorem State.putTask_freeCtr (s : State) (t : Task) : (s.putTask t).freeCtr = s.freeCtr := rfl
@[simp] theorem State.putTask_out (s : State) (t : Task) : (s.putTask t).out = s.out := rfl
@[simp] theorem State.putTask_cycle (s : State) (t : Task) : (s.putTask t).cycle = s.cycle := rfl
@[simp] theorem State.putTask_hostHeld (s : State) (t : Task) : (s.putTask t).hostHeld = s.hostHeld := rfl
@[simp] theorem State.putTask_linkUpAt (s : State) (t : Task) : (s.putTask t).linkUpAt = s.linkUpAt := rfl
@[simp] theorem State.putTask_now (s : State) (t : Task) : (s.putTask t).now = s.now := rfl
@[simp] theorem State.putTask_later (s : State) (t : Task) : (s.putTask t).later = s.later := rfl
@[simp] theorem State.putTask_halfCycle (s : State) (t : Task) : (s.putTask t).halfCycle = s.halfCycle := rfl
@[simp] theorem State.putTask_gtcHold (s : State) (t : Task) : (s.putTask t).gtcHold = s.gtcHold := rfl
@[simp] theorem State.putTask_sqs (s : State) (t : Task) : (s.putTask t).sqs = s.sqs := rfl
@[simp] theorem State.putTask_cqs (s : State) (t : Task) : (s.putTask t).cqs = s.cqs := rfl
@[simp] theorem State.putTask_apertures (s : State) (t : Task) : (s.putTask t).apertures = s.apertures := rfl
@[simp] theorem State.putTask_apLoads (s : State) (t : Task) : (s.putTask t).apLoads = s.apLoads := rfl
@[simp] theorem State.putTask_ds (s : State) (t : Task) : (s.putTask t).ds = s.ds := rfl
@[simp] theorem State.putTask_barriers (s : State) (t : Task) : (s.putTask t).barriers = s.barriers := rfl
@[simp] theorem State.putTask_stepEnding (s : State) (t : Task) : (s.putTask t).stepEnding = s.stepEnding := rfl
@[simp] theorem State.putTask_stepEndSeen (s : State) (t : Task) : (s.putTask t).stepEndSeen = s.stepEndSeen := rfl
@[simp] theorem State.putTask_boundaryFresh (s : State) (t : Task) : (s.putTask t).boundaryFresh = s.boundaryFresh :=
    rfl
@[simp] theorem State.putTask_holdLen (s : State) (t : Task) : (s.putTask t).holdLen = s.holdLen := rfl
@[simp] theorem State.putTask_holdReported (s : State) (t : Task) : (s.putTask t).holdReported = s.holdReported := rfl
@[simp] theorem State.putTask_deferred (s : State) (t : Task) : (s.putTask t).deferred = s.deferred := rfl
@[simp] theorem State.putTask_holdClose (s : State) (t : Task) : (s.putTask t).holdClose = s.holdClose := rfl
@[simp] theorem State.putTask_closing (s : State) (t : Task) : (s.putTask t).closing = s.closing := rfl
@[simp] theorem State.putTask_xcache (s : State) (t : Task) : (s.putTask t).xcache = s.xcache := rfl
@[simp] theorem State.putTask_invals (s : State) (t : Task) : (s.putTask t).invals = s.invals := rfl
@[simp] theorem State.putTask_xorphans (s : State) (t : Task) : (s.putTask t).xorphans = s.xorphans := rfl
@[simp] theorem State.putTask_prgs (s : State) (t : Task) : (s.putTask t).prgs = s.prgs := rfl
@[simp] theorem State.putTask_priAlloc (s : State) (t : Task) : (s.putTask t).priAlloc = s.priAlloc := rfl
@[simp] theorem State.putTask_priFailure (s : State) (t : Task) : (s.putTask t).priFailure = s.priFailure := rfl
@[simp] theorem State.putTask_ctagSeq (s : State) (t : Task) : (s.putTask t).ctagSeq = s.ctagSeq := rfl
@[simp] theorem State.putTask_tables (s : State) (t : Task) : (s.putTask t).tables = s.tables := rfl
@[simp] theorem State.putTask_compRetired (s : State) (t : Task) : (s.putTask t).compRetired = s.compRetired := rfl
@[simp] theorem State.putTask_expRetired (s : State) (t : Task) : (s.putTask t).expRetired = s.expRetired := rfl
@[simp] theorem State.putTask_draining (s : State) (t : Task) : (s.putTask t).draining = s.draining := rfl
@[simp] theorem State.putTask_fabricHeld (s : State) (t : Task) : (s.putTask t).fabricHeld = s.fabricHeld := rfl
@[simp] theorem State.putTask_ports (s : State) (t : Task) : (s.putTask t).ports = s.ports := rfl
@[simp] theorem State.putTask_msgSeq (s : State) (t : Task) : (s.putTask t).msgSeq = s.msgSeq := rfl
@[simp] theorem State.putTask_credits (s : State) (t : Task) : (s.putTask t).credits = s.credits := rfl
@[simp] theorem State.putTask_rx (s : State) (t : Task) : (s.putTask t).rx = s.rx := rfl
@[simp] theorem State.putTask_peers (s : State) (t : Task) : (s.putTask t).peers = s.peers := rfl
@[simp] theorem State.putTask_beatDue (s : State) (t : Task) : (s.putTask t).beatDue = s.beatDue := rfl
@[simp] theorem State.putTask_sites (s : State) (t : Task) : (s.putTask t).sites = s.sites := rfl
@[simp] theorem State.putTask_evac (s : State) (t : Task) : (s.putTask t).evac = s.evac := rfl
@[simp] theorem State.putTask_arbs (s : State) (t : Task) : (s.putTask t).arbs = s.arbs := rfl
@[simp] theorem State.putTask_mq (s : State) (t : Task) : (s.putTask t).mq = s.mq := rfl
@[simp] theorem State.putTask_flash0 (s : State) (t : Task) : (s.putTask t).flash0 = s.flash0 := rfl
@[simp] theorem State.putTask_flash1 (s : State) (t : Task) : (s.putTask t).flash1 = s.flash1 := rfl
@[simp] theorem State.putTask_record (s : State) (t : Task) : (s.putTask t).record = s.record := rfl
@[simp] theorem State.putTask_recordWrite (s : State) (t : Task) : (s.putTask t).recordWrite = s.recordWrite := rfl
@[simp] theorem State.putTask_recordDirty (s : State) (t : Task) : (s.putTask t).recordDirty = s.recordDirty := rfl
@[simp] theorem State.putTask_stackIds (s : State) (t : Task) : (s.putTask t).stackIds = s.stackIds := rfl
@[simp] theorem State.putTask_power (s : State) (t : Task) : (s.putTask t).power = s.power := rfl
@[simp] theorem State.putTask_entering (s : State) (t : Task) : (s.putTask t).entering = s.entering := rfl
@[simp] theorem State.putTask_waking (s : State) (t : Task) : (s.putTask t).waking = s.waking := rfl
@[simp] theorem State.putTask_powerAt (s : State) (t : Task) : (s.putTask t).powerAt = s.powerAt := rfl
@[simp] theorem State.putTask_wakeSeen (s : State) (t : Task) : (s.putTask t).wakeSeen = s.wakeSeen := rfl
@[simp] theorem State.putTask_latchedWake (s : State) (t : Task) : (s.putTask t).latchedWake = s.latchedWake := rfl
@[simp] theorem State.putTask_wakeBuf (s : State) (t : Task) : (s.putTask t).wakeBuf = s.wakeBuf := rfl
@[simp] theorem State.putTask_powered (s : State) (t : Task) : (s.putTask t).powered = s.powered := rfl
@[simp] theorem State.putTask_padWait (s : State) (t : Task) : (s.putTask t).padWait = s.padWait := rfl
@[simp] theorem State.putTask_startup (s : State) (t : Task) : (s.putTask t).startup = s.startup := rfl
@[simp] theorem State.putTask_coldStart (s : State) (t : Task) : (s.putTask t).coldStart = s.coldStart := rfl
@[simp] theorem State.putTask_restoring (s : State) (t : Task) : (s.putTask t).restoring = s.restoring := rfl
@[simp] theorem State.putTask_padExit (s : State) (t : Task) : (s.putTask t).padExit = s.padExit := rfl
@[simp] theorem State.putTask_padAt (s : State) (t : Task) : (s.putTask t).padAt = s.padAt := rfl
@[simp] theorem State.putTask_checksAt (s : State) (t : Task) : (s.putTask t).checksAt = s.checksAt := rfl
@[simp] theorem State.putTask_linkDown (s : State) (t : Task) : (s.putTask t).linkDown = s.linkDown := rfl
@[simp] theorem State.putTask_linkDownCycles (s : State) (t : Task) : (s.putTask t).linkDownCycles = s.linkDownCycles :=
    rfl
@[simp] theorem State.putTask_idleCycles (s : State) (t : Task) : (s.putTask t).idleCycles = s.idleCycles := rfl
@[simp] theorem State.putTask_pending (s : State) (t : Task) : (s.putTask t).pending = s.pending := rfl
@[simp] theorem State.reg_putTask' (s : State) (t : Task) (o : Nat) : (s.putTask t).reg o = s.reg o := rfl
@[simp] theorem State.fld_putTask' (s : State) (t : Task) (o lo2 n2 : Nat) :
    (s.putTask t).fld o lo2 n2 = s.fld o lo2 n2 := rfl
@[simp] theorem State.bit_putTask' (s : State) (t : Task) (o j : Nat) : (s.putTask t).bit o j = s.bit o j := rfl
@[simp] theorem State.reg64_putTask' (s : State) (t : Task) (o : Nat) : (s.putTask t).reg64 o = s.reg64 o := rfl
@[simp] theorem State.setNow_putTask' (s : State) (t : Task) (o : Nat) : (s.putTask t).setNow o = s.setNow o := rfl
@[simp] theorem State.gtc_putTask' (s : State) (t : Task) : (s.putTask t).gtc = s.gtc := rfl
@[simp] theorem State.node_putTask' (s : State) (t : Task) : (s.putTask t).node = s.node := rfl
@[simp] theorem State.flag_putTask' (s : State) (t : Task) (e2 : Nat) : (s.putTask t).flag e2 = s.flag e2 := rfl
@[simp] theorem State.readByte_putTask' (s : State) (t : Task) (x2 : Nat) :
    (s.putTask t).readByte x2 = s.readByte x2 := rfl
@[simp] theorem State.sq_putTask' (s : State) (t : Task) (q2 : Nat) : (s.putTask t).sq q2 = s.sq q2 := rfl
@[simp] theorem State.cq_putTask' (s : State) (t : Task) (c2 : Nat) : (s.putTask t).cq c2 = s.cq c2 := rfl
@[simp] theorem State.port_putTask' (s : State) (t : Task) (p2 : Nat) : (s.putTask t).port p2 = s.port p2 := rfl
@[simp] theorem State.endpoint_putTask' (s : State) (t : Task) (r2 : Nat) :
    (s.putTask t).endpoint r2 = s.endpoint r2 := rfl
@[simp] theorem State.peer_putTask' (s : State) (t : Task) (n2 : Nat) : (s.putTask t).peer n2 = s.peer n2 := rfl
@[simp] theorem State.site_putTask' (s : State) (t : Task) (b2 : Nat) : (s.putTask t).site b2 = s.site b2 := rfl
@[simp] theorem State.arb_putTask' (s : State) (t : Task) (a2 : Nat) : (s.putTask t).arb a2 = s.arb a2 := rfl
@[simp] theorem State.stream_putTask' (s : State) (t : Task) (n2 : Nat) : (s.putTask t).stream n2 = s.stream n2 := rfl
@[simp] theorem State.apertureOwner_putTask' (s : State) (t : Task) (n2 : Nat) :
    (s.putTask t).apertureOwner n2 = s.apertureOwner n2 := rfl
@[simp] theorem State.below_putTask' (s : State) (t : Task) : (s.putTask t).below = s.below := rfl

/-! ### dropTask -/

@[simp] theorem State.dropTask_regs (s : State) (t : TaskRef) : (s.dropTask t).regs = s.regs := rfl
@[simp] theorem State.dropTask_staged (s : State) (t : TaskRef) : (s.dropTask t).staged = s.staged := rfl
@[simp] theorem State.dropTask_latched (s : State) (t : TaskRef) : (s.dropTask t).latched = s.latched := rfl
@[simp] theorem State.dropTask_drt (s : State) (t : TaskRef) : (s.dropTask t).drt = s.drt := rfl
@[simp] theorem State.dropTask_bar2Log2 (s : State) (t : TaskRef) : (s.dropTask t).bar2Log2 = s.bar2Log2 := rfl
@[simp] theorem State.dropTask_mem (s : State) (t : TaskRef) : (s.dropTask t).mem = s.mem := rfl
@[simp] theorem State.dropTask_memGen (s : State) (t : TaskRef) : (s.dropTask t).memGen = s.memGen := rfl
@[simp] theorem State.dropTask_push (s : State) (t : TaskRef) : (s.dropTask t).push = s.push := rfl
@[simp] theorem State.dropTask_spPayload (s : State) (t : TaskRef) : (s.dropTask t).spPayload = s.spPayload := rfl
@[simp] theorem State.dropTask_freeCtr (s : State) (t : TaskRef) : (s.dropTask t).freeCtr = s.freeCtr := rfl
@[simp] theorem State.dropTask_out (s : State) (t : TaskRef) : (s.dropTask t).out = s.out := rfl
@[simp] theorem State.dropTask_cycle (s : State) (t : TaskRef) : (s.dropTask t).cycle = s.cycle := rfl
@[simp] theorem State.dropTask_hostHeld (s : State) (t : TaskRef) : (s.dropTask t).hostHeld = s.hostHeld := rfl
@[simp] theorem State.dropTask_linkUpAt (s : State) (t : TaskRef) : (s.dropTask t).linkUpAt = s.linkUpAt := rfl
@[simp] theorem State.dropTask_now (s : State) (t : TaskRef) : (s.dropTask t).now = s.now := rfl
@[simp] theorem State.dropTask_later (s : State) (t : TaskRef) : (s.dropTask t).later = s.later := rfl
@[simp] theorem State.dropTask_halfCycle (s : State) (t : TaskRef) : (s.dropTask t).halfCycle = s.halfCycle := rfl
@[simp] theorem State.dropTask_gtcHold (s : State) (t : TaskRef) : (s.dropTask t).gtcHold = s.gtcHold := rfl
@[simp] theorem State.dropTask_sqs (s : State) (t : TaskRef) : (s.dropTask t).sqs = s.sqs := rfl
@[simp] theorem State.dropTask_cqs (s : State) (t : TaskRef) : (s.dropTask t).cqs = s.cqs := rfl
@[simp] theorem State.dropTask_apertures (s : State) (t : TaskRef) : (s.dropTask t).apertures = s.apertures := rfl
@[simp] theorem State.dropTask_apLoads (s : State) (t : TaskRef) : (s.dropTask t).apLoads = s.apLoads := rfl
@[simp] theorem State.dropTask_ds (s : State) (t : TaskRef) : (s.dropTask t).ds = s.ds := rfl
@[simp] theorem State.dropTask_barriers (s : State) (t : TaskRef) : (s.dropTask t).barriers = s.barriers := rfl
@[simp] theorem State.dropTask_stepEnding (s : State) (t : TaskRef) : (s.dropTask t).stepEnding = s.stepEnding := rfl
@[simp] theorem State.dropTask_stepEndSeen (s : State) (t : TaskRef) : (s.dropTask t).stepEndSeen = s.stepEndSeen :=
    rfl
@[simp] theorem State.dropTask_boundaryFresh (s : State) (t : TaskRef) : (s.dropTask t).boundaryFresh = s.boundaryFresh :=
    rfl
@[simp] theorem State.dropTask_holdLen (s : State) (t : TaskRef) : (s.dropTask t).holdLen = s.holdLen := rfl
@[simp] theorem State.dropTask_holdReported (s : State) (t : TaskRef) : (s.dropTask t).holdReported = s.holdReported :=
    rfl
@[simp] theorem State.dropTask_deferred (s : State) (t : TaskRef) : (s.dropTask t).deferred = s.deferred := rfl
@[simp] theorem State.dropTask_holdClose (s : State) (t : TaskRef) : (s.dropTask t).holdClose = s.holdClose := rfl
@[simp] theorem State.dropTask_closing (s : State) (t : TaskRef) : (s.dropTask t).closing = s.closing := rfl
@[simp] theorem State.dropTask_xcache (s : State) (t : TaskRef) : (s.dropTask t).xcache = s.xcache := rfl
@[simp] theorem State.dropTask_invals (s : State) (t : TaskRef) : (s.dropTask t).invals = s.invals := rfl
@[simp] theorem State.dropTask_xorphans (s : State) (t : TaskRef) : (s.dropTask t).xorphans = s.xorphans := rfl
@[simp] theorem State.dropTask_prgs (s : State) (t : TaskRef) : (s.dropTask t).prgs = s.prgs := rfl
@[simp] theorem State.dropTask_priAlloc (s : State) (t : TaskRef) : (s.dropTask t).priAlloc = s.priAlloc := rfl
@[simp] theorem State.dropTask_priFailure (s : State) (t : TaskRef) : (s.dropTask t).priFailure = s.priFailure := rfl
@[simp] theorem State.dropTask_ctagSeq (s : State) (t : TaskRef) : (s.dropTask t).ctagSeq = s.ctagSeq := rfl
@[simp] theorem State.dropTask_tables (s : State) (t : TaskRef) : (s.dropTask t).tables = s.tables := rfl
@[simp] theorem State.dropTask_compRetired (s : State) (t : TaskRef) : (s.dropTask t).compRetired = s.compRetired :=
    rfl
@[simp] theorem State.dropTask_expRetired (s : State) (t : TaskRef) : (s.dropTask t).expRetired = s.expRetired := rfl
@[simp] theorem State.dropTask_draining (s : State) (t : TaskRef) : (s.dropTask t).draining = s.draining := rfl
@[simp] theorem State.dropTask_fabricHeld (s : State) (t : TaskRef) : (s.dropTask t).fabricHeld = s.fabricHeld := rfl
@[simp] theorem State.dropTask_ports (s : State) (t : TaskRef) : (s.dropTask t).ports = s.ports := rfl
@[simp] theorem State.dropTask_msgSeq (s : State) (t : TaskRef) : (s.dropTask t).msgSeq = s.msgSeq := rfl
@[simp] theorem State.dropTask_credits (s : State) (t : TaskRef) : (s.dropTask t).credits = s.credits := rfl
@[simp] theorem State.dropTask_rx (s : State) (t : TaskRef) : (s.dropTask t).rx = s.rx := rfl
@[simp] theorem State.dropTask_peers (s : State) (t : TaskRef) : (s.dropTask t).peers = s.peers := rfl
@[simp] theorem State.dropTask_beatDue (s : State) (t : TaskRef) : (s.dropTask t).beatDue = s.beatDue := rfl
@[simp] theorem State.dropTask_sites (s : State) (t : TaskRef) : (s.dropTask t).sites = s.sites := rfl
@[simp] theorem State.dropTask_evac (s : State) (t : TaskRef) : (s.dropTask t).evac = s.evac := rfl
@[simp] theorem State.dropTask_arbs (s : State) (t : TaskRef) : (s.dropTask t).arbs = s.arbs := rfl
@[simp] theorem State.dropTask_mq (s : State) (t : TaskRef) : (s.dropTask t).mq = s.mq := rfl
@[simp] theorem State.dropTask_flash0 (s : State) (t : TaskRef) : (s.dropTask t).flash0 = s.flash0 := rfl
@[simp] theorem State.dropTask_flash1 (s : State) (t : TaskRef) : (s.dropTask t).flash1 = s.flash1 := rfl
@[simp] theorem State.dropTask_record (s : State) (t : TaskRef) : (s.dropTask t).record = s.record := rfl
@[simp] theorem State.dropTask_recordWrite (s : State) (t : TaskRef) : (s.dropTask t).recordWrite = s.recordWrite :=
    rfl
@[simp] theorem State.dropTask_recordDirty (s : State) (t : TaskRef) : (s.dropTask t).recordDirty = s.recordDirty :=
    rfl
@[simp] theorem State.dropTask_stackIds (s : State) (t : TaskRef) : (s.dropTask t).stackIds = s.stackIds := rfl
@[simp] theorem State.dropTask_power (s : State) (t : TaskRef) : (s.dropTask t).power = s.power := rfl
@[simp] theorem State.dropTask_entering (s : State) (t : TaskRef) : (s.dropTask t).entering = s.entering := rfl
@[simp] theorem State.dropTask_waking (s : State) (t : TaskRef) : (s.dropTask t).waking = s.waking := rfl
@[simp] theorem State.dropTask_powerAt (s : State) (t : TaskRef) : (s.dropTask t).powerAt = s.powerAt := rfl
@[simp] theorem State.dropTask_wakeSeen (s : State) (t : TaskRef) : (s.dropTask t).wakeSeen = s.wakeSeen := rfl
@[simp] theorem State.dropTask_latchedWake (s : State) (t : TaskRef) : (s.dropTask t).latchedWake = s.latchedWake :=
    rfl
@[simp] theorem State.dropTask_wakeBuf (s : State) (t : TaskRef) : (s.dropTask t).wakeBuf = s.wakeBuf := rfl
@[simp] theorem State.dropTask_powered (s : State) (t : TaskRef) : (s.dropTask t).powered = s.powered := rfl
@[simp] theorem State.dropTask_padWait (s : State) (t : TaskRef) : (s.dropTask t).padWait = s.padWait := rfl
@[simp] theorem State.dropTask_startup (s : State) (t : TaskRef) : (s.dropTask t).startup = s.startup := rfl
@[simp] theorem State.dropTask_coldStart (s : State) (t : TaskRef) : (s.dropTask t).coldStart = s.coldStart := rfl
@[simp] theorem State.dropTask_restoring (s : State) (t : TaskRef) : (s.dropTask t).restoring = s.restoring := rfl
@[simp] theorem State.dropTask_padExit (s : State) (t : TaskRef) : (s.dropTask t).padExit = s.padExit := rfl
@[simp] theorem State.dropTask_padAt (s : State) (t : TaskRef) : (s.dropTask t).padAt = s.padAt := rfl
@[simp] theorem State.dropTask_checksAt (s : State) (t : TaskRef) : (s.dropTask t).checksAt = s.checksAt := rfl
@[simp] theorem State.dropTask_linkDown (s : State) (t : TaskRef) : (s.dropTask t).linkDown = s.linkDown := rfl
@[simp] theorem State.dropTask_linkDownCycles (s : State) (t : TaskRef) : (s.dropTask t).linkDownCycles = s.linkDownCycles :=
    rfl
@[simp] theorem State.dropTask_idleCycles (s : State) (t : TaskRef) : (s.dropTask t).idleCycles = s.idleCycles := rfl
@[simp] theorem State.dropTask_pending (s : State) (t : TaskRef) : (s.dropTask t).pending = s.pending := rfl
@[simp] theorem State.reg_dropTask' (s : State) (t : TaskRef) (o : Nat) : (s.dropTask t).reg o = s.reg o := rfl
@[simp] theorem State.fld_dropTask' (s : State) (t : TaskRef) (o lo2 n2 : Nat) :
    (s.dropTask t).fld o lo2 n2 = s.fld o lo2 n2 := rfl
@[simp] theorem State.bit_dropTask' (s : State) (t : TaskRef) (o j : Nat) : (s.dropTask t).bit o j = s.bit o j := rfl
@[simp] theorem State.reg64_dropTask' (s : State) (t : TaskRef) (o : Nat) : (s.dropTask t).reg64 o = s.reg64 o := rfl
@[simp] theorem State.setNow_dropTask' (s : State) (t : TaskRef) (o : Nat) :
    (s.dropTask t).setNow o = s.setNow o := rfl
@[simp] theorem State.gtc_dropTask' (s : State) (t : TaskRef) : (s.dropTask t).gtc = s.gtc := rfl
@[simp] theorem State.node_dropTask' (s : State) (t : TaskRef) : (s.dropTask t).node = s.node := rfl
@[simp] theorem State.flag_dropTask' (s : State) (t : TaskRef) (e2 : Nat) : (s.dropTask t).flag e2 = s.flag e2 := rfl
@[simp] theorem State.readByte_dropTask' (s : State) (t : TaskRef) (x2 : Nat) :
    (s.dropTask t).readByte x2 = s.readByte x2 := rfl
@[simp] theorem State.sq_dropTask' (s : State) (t : TaskRef) (q2 : Nat) : (s.dropTask t).sq q2 = s.sq q2 := rfl
@[simp] theorem State.cq_dropTask' (s : State) (t : TaskRef) (c2 : Nat) : (s.dropTask t).cq c2 = s.cq c2 := rfl
@[simp] theorem State.port_dropTask' (s : State) (t : TaskRef) (p2 : Nat) : (s.dropTask t).port p2 = s.port p2 := rfl
@[simp] theorem State.endpoint_dropTask' (s : State) (t : TaskRef) (r2 : Nat) :
    (s.dropTask t).endpoint r2 = s.endpoint r2 := rfl
@[simp] theorem State.peer_dropTask' (s : State) (t : TaskRef) (n2 : Nat) : (s.dropTask t).peer n2 = s.peer n2 := rfl
@[simp] theorem State.site_dropTask' (s : State) (t : TaskRef) (b2 : Nat) : (s.dropTask t).site b2 = s.site b2 := rfl
@[simp] theorem State.arb_dropTask' (s : State) (t : TaskRef) (a2 : Nat) : (s.dropTask t).arb a2 = s.arb a2 := rfl
@[simp] theorem State.stream_dropTask' (s : State) (t : TaskRef) (n2 : Nat) :
    (s.dropTask t).stream n2 = s.stream n2 := rfl
@[simp] theorem State.apertureOwner_dropTask' (s : State) (t : TaskRef) (n2 : Nat) :
    (s.dropTask t).apertureOwner n2 = s.apertureOwner n2 := rfl
@[simp] theorem State.below_dropTask' (s : State) (t : TaskRef) : (s.dropTask t).below = s.below := rfl

/-! ### modTask -/

@[simp] theorem State.modTask_regs (s : State) (t : TaskRef) (f : Task → Task) : (s.modTask t f).regs = s.regs := rfl
@[simp] theorem State.modTask_staged (s : State) (t : TaskRef) (f : Task → Task) : (s.modTask t f).staged = s.staged :=
    rfl
@[simp] theorem State.modTask_latched (s : State) (t : TaskRef) (f : Task → Task) : (s.modTask t f).latched = s.latched :=
    rfl
@[simp] theorem State.modTask_drt (s : State) (t : TaskRef) (f : Task → Task) : (s.modTask t f).drt = s.drt := rfl
@[simp] theorem State.modTask_bar2Log2 (s : State) (t : TaskRef) (f : Task → Task) : (s.modTask t f).bar2Log2 = s.bar2Log2 :=
    rfl
@[simp] theorem State.modTask_mem (s : State) (t : TaskRef) (f : Task → Task) : (s.modTask t f).mem = s.mem := rfl
@[simp] theorem State.modTask_memGen (s : State) (t : TaskRef) (f : Task → Task) : (s.modTask t f).memGen = s.memGen :=
    rfl
@[simp] theorem State.modTask_push (s : State) (t : TaskRef) (f : Task → Task) : (s.modTask t f).push = s.push := rfl
@[simp] theorem State.modTask_spPayload (s : State) (t : TaskRef) (f : Task → Task) : (s.modTask t f).spPayload = s.spPayload :=
    rfl
@[simp] theorem State.modTask_freeCtr (s : State) (t : TaskRef) (f : Task → Task) : (s.modTask t f).freeCtr = s.freeCtr :=
    rfl
@[simp] theorem State.modTask_out (s : State) (t : TaskRef) (f : Task → Task) : (s.modTask t f).out = s.out := rfl
@[simp] theorem State.modTask_cycle (s : State) (t : TaskRef) (f : Task → Task) : (s.modTask t f).cycle = s.cycle :=
    rfl
@[simp] theorem State.modTask_hostHeld (s : State) (t : TaskRef) (f : Task → Task) : (s.modTask t f).hostHeld = s.hostHeld :=
    rfl
@[simp] theorem State.modTask_linkUpAt (s : State) (t : TaskRef) (f : Task → Task) : (s.modTask t f).linkUpAt = s.linkUpAt :=
    rfl
@[simp] theorem State.modTask_now (s : State) (t : TaskRef) (f : Task → Task) : (s.modTask t f).now = s.now := rfl
@[simp] theorem State.modTask_later (s : State) (t : TaskRef) (f : Task → Task) : (s.modTask t f).later = s.later :=
    rfl
@[simp] theorem State.modTask_halfCycle (s : State) (t : TaskRef) (f : Task → Task) : (s.modTask t f).halfCycle = s.halfCycle :=
    rfl
@[simp] theorem State.modTask_gtcHold (s : State) (t : TaskRef) (f : Task → Task) : (s.modTask t f).gtcHold = s.gtcHold :=
    rfl
@[simp] theorem State.modTask_sqs (s : State) (t : TaskRef) (f : Task → Task) : (s.modTask t f).sqs = s.sqs := rfl
@[simp] theorem State.modTask_cqs (s : State) (t : TaskRef) (f : Task → Task) : (s.modTask t f).cqs = s.cqs := rfl
@[simp] theorem State.modTask_apertures (s : State) (t : TaskRef) (f : Task → Task) : (s.modTask t f).apertures = s.apertures :=
    rfl
@[simp] theorem State.modTask_apLoads (s : State) (t : TaskRef) (f : Task → Task) : (s.modTask t f).apLoads = s.apLoads :=
    rfl
@[simp] theorem State.modTask_ds (s : State) (t : TaskRef) (f : Task → Task) : (s.modTask t f).ds = s.ds := rfl
@[simp] theorem State.modTask_barriers (s : State) (t : TaskRef) (f : Task → Task) : (s.modTask t f).barriers = s.barriers :=
    rfl
@[simp] theorem State.modTask_stepEnding (s : State) (t : TaskRef) (f : Task → Task) : (s.modTask t f).stepEnding = s.stepEnding :=
    rfl
@[simp] theorem State.modTask_stepEndSeen (s : State) (t : TaskRef) (f : Task → Task) : (s.modTask t f).stepEndSeen = s.stepEndSeen :=
    rfl
@[simp] theorem State.modTask_boundaryFresh (s : State) (t : TaskRef) (f : Task → Task) : (s.modTask t f).boundaryFresh = s.boundaryFresh :=
    rfl
@[simp] theorem State.modTask_holdLen (s : State) (t : TaskRef) (f : Task → Task) : (s.modTask t f).holdLen = s.holdLen :=
    rfl
@[simp] theorem State.modTask_holdReported (s : State) (t : TaskRef) (f : Task → Task) : (s.modTask t f).holdReported = s.holdReported :=
    rfl
@[simp] theorem State.modTask_deferred (s : State) (t : TaskRef) (f : Task → Task) : (s.modTask t f).deferred = s.deferred :=
    rfl
@[simp] theorem State.modTask_holdClose (s : State) (t : TaskRef) (f : Task → Task) : (s.modTask t f).holdClose = s.holdClose :=
    rfl
@[simp] theorem State.modTask_closing (s : State) (t : TaskRef) (f : Task → Task) : (s.modTask t f).closing = s.closing :=
    rfl
@[simp] theorem State.modTask_xcache (s : State) (t : TaskRef) (f : Task → Task) : (s.modTask t f).xcache = s.xcache :=
    rfl
@[simp] theorem State.modTask_invals (s : State) (t : TaskRef) (f : Task → Task) : (s.modTask t f).invals = s.invals :=
    rfl
@[simp] theorem State.modTask_xorphans (s : State) (t : TaskRef) (f : Task → Task) : (s.modTask t f).xorphans = s.xorphans :=
    rfl
@[simp] theorem State.modTask_prgs (s : State) (t : TaskRef) (f : Task → Task) : (s.modTask t f).prgs = s.prgs := rfl
@[simp] theorem State.modTask_priAlloc (s : State) (t : TaskRef) (f : Task → Task) : (s.modTask t f).priAlloc = s.priAlloc :=
    rfl
@[simp] theorem State.modTask_priFailure (s : State) (t : TaskRef) (f : Task → Task) : (s.modTask t f).priFailure = s.priFailure :=
    rfl
@[simp] theorem State.modTask_ctagSeq (s : State) (t : TaskRef) (f : Task → Task) : (s.modTask t f).ctagSeq = s.ctagSeq :=
    rfl
@[simp] theorem State.modTask_tables (s : State) (t : TaskRef) (f : Task → Task) : (s.modTask t f).tables = s.tables :=
    rfl
@[simp] theorem State.modTask_compRetired (s : State) (t : TaskRef) (f : Task → Task) : (s.modTask t f).compRetired = s.compRetired :=
    rfl
@[simp] theorem State.modTask_expRetired (s : State) (t : TaskRef) (f : Task → Task) : (s.modTask t f).expRetired = s.expRetired :=
    rfl
@[simp] theorem State.modTask_draining (s : State) (t : TaskRef) (f : Task → Task) : (s.modTask t f).draining = s.draining :=
    rfl
@[simp] theorem State.modTask_fabricHeld (s : State) (t : TaskRef) (f : Task → Task) : (s.modTask t f).fabricHeld = s.fabricHeld :=
    rfl
@[simp] theorem State.modTask_ports (s : State) (t : TaskRef) (f : Task → Task) : (s.modTask t f).ports = s.ports :=
    rfl
@[simp] theorem State.modTask_msgSeq (s : State) (t : TaskRef) (f : Task → Task) : (s.modTask t f).msgSeq = s.msgSeq :=
    rfl
@[simp] theorem State.modTask_credits (s : State) (t : TaskRef) (f : Task → Task) : (s.modTask t f).credits = s.credits :=
    rfl
@[simp] theorem State.modTask_rx (s : State) (t : TaskRef) (f : Task → Task) : (s.modTask t f).rx = s.rx := rfl
@[simp] theorem State.modTask_peers (s : State) (t : TaskRef) (f : Task → Task) : (s.modTask t f).peers = s.peers :=
    rfl
@[simp] theorem State.modTask_beatDue (s : State) (t : TaskRef) (f : Task → Task) : (s.modTask t f).beatDue = s.beatDue :=
    rfl
@[simp] theorem State.modTask_sites (s : State) (t : TaskRef) (f : Task → Task) : (s.modTask t f).sites = s.sites :=
    rfl
@[simp] theorem State.modTask_evac (s : State) (t : TaskRef) (f : Task → Task) : (s.modTask t f).evac = s.evac := rfl
@[simp] theorem State.modTask_arbs (s : State) (t : TaskRef) (f : Task → Task) : (s.modTask t f).arbs = s.arbs := rfl
@[simp] theorem State.modTask_mq (s : State) (t : TaskRef) (f : Task → Task) : (s.modTask t f).mq = s.mq := rfl
@[simp] theorem State.modTask_flash0 (s : State) (t : TaskRef) (f : Task → Task) : (s.modTask t f).flash0 = s.flash0 :=
    rfl
@[simp] theorem State.modTask_flash1 (s : State) (t : TaskRef) (f : Task → Task) : (s.modTask t f).flash1 = s.flash1 :=
    rfl
@[simp] theorem State.modTask_record (s : State) (t : TaskRef) (f : Task → Task) : (s.modTask t f).record = s.record :=
    rfl
@[simp] theorem State.modTask_recordWrite (s : State) (t : TaskRef) (f : Task → Task) : (s.modTask t f).recordWrite = s.recordWrite :=
    rfl
@[simp] theorem State.modTask_recordDirty (s : State) (t : TaskRef) (f : Task → Task) : (s.modTask t f).recordDirty = s.recordDirty :=
    rfl
@[simp] theorem State.modTask_stackIds (s : State) (t : TaskRef) (f : Task → Task) : (s.modTask t f).stackIds = s.stackIds :=
    rfl
@[simp] theorem State.modTask_power (s : State) (t : TaskRef) (f : Task → Task) : (s.modTask t f).power = s.power :=
    rfl
@[simp] theorem State.modTask_entering (s : State) (t : TaskRef) (f : Task → Task) : (s.modTask t f).entering = s.entering :=
    rfl
@[simp] theorem State.modTask_waking (s : State) (t : TaskRef) (f : Task → Task) : (s.modTask t f).waking = s.waking :=
    rfl
@[simp] theorem State.modTask_powerAt (s : State) (t : TaskRef) (f : Task → Task) : (s.modTask t f).powerAt = s.powerAt :=
    rfl
@[simp] theorem State.modTask_wakeSeen (s : State) (t : TaskRef) (f : Task → Task) : (s.modTask t f).wakeSeen = s.wakeSeen :=
    rfl
@[simp] theorem State.modTask_latchedWake (s : State) (t : TaskRef) (f : Task → Task) : (s.modTask t f).latchedWake = s.latchedWake :=
    rfl
@[simp] theorem State.modTask_wakeBuf (s : State) (t : TaskRef) (f : Task → Task) : (s.modTask t f).wakeBuf = s.wakeBuf :=
    rfl
@[simp] theorem State.modTask_powered (s : State) (t : TaskRef) (f : Task → Task) : (s.modTask t f).powered = s.powered :=
    rfl
@[simp] theorem State.modTask_padWait (s : State) (t : TaskRef) (f : Task → Task) : (s.modTask t f).padWait = s.padWait :=
    rfl
@[simp] theorem State.modTask_startup (s : State) (t : TaskRef) (f : Task → Task) : (s.modTask t f).startup = s.startup :=
    rfl
@[simp] theorem State.modTask_coldStart (s : State) (t : TaskRef) (f : Task → Task) : (s.modTask t f).coldStart = s.coldStart :=
    rfl
@[simp] theorem State.modTask_restoring (s : State) (t : TaskRef) (f : Task → Task) : (s.modTask t f).restoring = s.restoring :=
    rfl
@[simp] theorem State.modTask_padExit (s : State) (t : TaskRef) (f : Task → Task) : (s.modTask t f).padExit = s.padExit :=
    rfl
@[simp] theorem State.modTask_padAt (s : State) (t : TaskRef) (f : Task → Task) : (s.modTask t f).padAt = s.padAt :=
    rfl
@[simp] theorem State.modTask_checksAt (s : State) (t : TaskRef) (f : Task → Task) : (s.modTask t f).checksAt = s.checksAt :=
    rfl
@[simp] theorem State.modTask_linkDown (s : State) (t : TaskRef) (f : Task → Task) : (s.modTask t f).linkDown = s.linkDown :=
    rfl
@[simp] theorem State.modTask_linkDownCycles (s : State) (t : TaskRef) (f : Task → Task) : (s.modTask t f).linkDownCycles = s.linkDownCycles :=
    rfl
@[simp] theorem State.modTask_idleCycles (s : State) (t : TaskRef) (f : Task → Task) : (s.modTask t f).idleCycles = s.idleCycles :=
    rfl
@[simp] theorem State.modTask_pending (s : State) (t : TaskRef) (f : Task → Task) : (s.modTask t f).pending = s.pending :=
    rfl
@[simp] theorem State.reg_modTask' (s : State) (t : TaskRef) (f : Task → Task) (o : Nat) :
    (s.modTask t f).reg o = s.reg o := rfl
@[simp] theorem State.fld_modTask' (s : State) (t : TaskRef) (f : Task → Task) (o lo2 n2 : Nat) :
    (s.modTask t f).fld o lo2 n2 = s.fld o lo2 n2 := rfl
@[simp] theorem State.bit_modTask' (s : State) (t : TaskRef) (f : Task → Task) (o j : Nat) :
    (s.modTask t f).bit o j = s.bit o j := rfl
@[simp] theorem State.reg64_modTask' (s : State) (t : TaskRef) (f : Task → Task) (o : Nat) :
    (s.modTask t f).reg64 o = s.reg64 o := rfl
@[simp] theorem State.setNow_modTask' (s : State) (t : TaskRef) (f : Task → Task) (o : Nat) :
    (s.modTask t f).setNow o = s.setNow o := rfl
@[simp] theorem State.gtc_modTask' (s : State) (t : TaskRef) (f : Task → Task) : (s.modTask t f).gtc = s.gtc := rfl
@[simp] theorem State.node_modTask' (s : State) (t : TaskRef) (f : Task → Task) : (s.modTask t f).node = s.node := rfl
@[simp] theorem State.flag_modTask' (s : State) (t : TaskRef) (f : Task → Task) (e2 : Nat) :
    (s.modTask t f).flag e2 = s.flag e2 := rfl
@[simp] theorem State.readByte_modTask' (s : State) (t : TaskRef) (f : Task → Task) (x2 : Nat) :
    (s.modTask t f).readByte x2 = s.readByte x2 := rfl
@[simp] theorem State.sq_modTask' (s : State) (t : TaskRef) (f : Task → Task) (q2 : Nat) :
    (s.modTask t f).sq q2 = s.sq q2 := rfl
@[simp] theorem State.cq_modTask' (s : State) (t : TaskRef) (f : Task → Task) (c2 : Nat) :
    (s.modTask t f).cq c2 = s.cq c2 := rfl
@[simp] theorem State.port_modTask' (s : State) (t : TaskRef) (f : Task → Task) (p2 : Nat) :
    (s.modTask t f).port p2 = s.port p2 := rfl
@[simp] theorem State.endpoint_modTask' (s : State) (t : TaskRef) (f : Task → Task) (r2 : Nat) :
    (s.modTask t f).endpoint r2 = s.endpoint r2 := rfl
@[simp] theorem State.peer_modTask' (s : State) (t : TaskRef) (f : Task → Task) (n2 : Nat) :
    (s.modTask t f).peer n2 = s.peer n2 := rfl
@[simp] theorem State.site_modTask' (s : State) (t : TaskRef) (f : Task → Task) (b2 : Nat) :
    (s.modTask t f).site b2 = s.site b2 := rfl
@[simp] theorem State.arb_modTask' (s : State) (t : TaskRef) (f : Task → Task) (a2 : Nat) :
    (s.modTask t f).arb a2 = s.arb a2 := rfl
@[simp] theorem State.stream_modTask' (s : State) (t : TaskRef) (f : Task → Task) (n2 : Nat) :
    (s.modTask t f).stream n2 = s.stream n2 := rfl
@[simp] theorem State.apertureOwner_modTask' (s : State) (t : TaskRef) (f : Task → Task) (n2 : Nat) :
    (s.modTask t f).apertureOwner n2 = s.apertureOwner n2 := rfl
@[simp] theorem State.below_modTask' (s : State) (t : TaskRef) (f : Task → Task) :
    (s.modTask t f).below = s.below := rfl

/-! ### putSq -/

@[simp] theorem State.putSq_regs (s : State) (q : Nat) (r : SqRun) : (s.putSq q r).regs = s.regs := rfl
@[simp] theorem State.putSq_staged (s : State) (q : Nat) (r : SqRun) : (s.putSq q r).staged = s.staged := rfl
@[simp] theorem State.putSq_latched (s : State) (q : Nat) (r : SqRun) : (s.putSq q r).latched = s.latched := rfl
@[simp] theorem State.putSq_drt (s : State) (q : Nat) (r : SqRun) : (s.putSq q r).drt = s.drt := rfl
@[simp] theorem State.putSq_bar2Log2 (s : State) (q : Nat) (r : SqRun) : (s.putSq q r).bar2Log2 = s.bar2Log2 := rfl
@[simp] theorem State.putSq_mem (s : State) (q : Nat) (r : SqRun) : (s.putSq q r).mem = s.mem := rfl
@[simp] theorem State.putSq_memGen (s : State) (q : Nat) (r : SqRun) : (s.putSq q r).memGen = s.memGen := rfl
@[simp] theorem State.putSq_push (s : State) (q : Nat) (r : SqRun) : (s.putSq q r).push = s.push := rfl
@[simp] theorem State.putSq_spPayload (s : State) (q : Nat) (r : SqRun) : (s.putSq q r).spPayload = s.spPayload := rfl
@[simp] theorem State.putSq_freeCtr (s : State) (q : Nat) (r : SqRun) : (s.putSq q r).freeCtr = s.freeCtr := rfl
@[simp] theorem State.putSq_out (s : State) (q : Nat) (r : SqRun) : (s.putSq q r).out = s.out := rfl
@[simp] theorem State.putSq_cycle (s : State) (q : Nat) (r : SqRun) : (s.putSq q r).cycle = s.cycle := rfl
@[simp] theorem State.putSq_hostHeld (s : State) (q : Nat) (r : SqRun) : (s.putSq q r).hostHeld = s.hostHeld := rfl
@[simp] theorem State.putSq_linkUpAt (s : State) (q : Nat) (r : SqRun) : (s.putSq q r).linkUpAt = s.linkUpAt := rfl
@[simp] theorem State.putSq_now (s : State) (q : Nat) (r : SqRun) : (s.putSq q r).now = s.now := rfl
@[simp] theorem State.putSq_later (s : State) (q : Nat) (r : SqRun) : (s.putSq q r).later = s.later := rfl
@[simp] theorem State.putSq_halfCycle (s : State) (q : Nat) (r : SqRun) : (s.putSq q r).halfCycle = s.halfCycle := rfl
@[simp] theorem State.putSq_gtcHold (s : State) (q : Nat) (r : SqRun) : (s.putSq q r).gtcHold = s.gtcHold := rfl
@[simp] theorem State.putSq_cqs (s : State) (q : Nat) (r : SqRun) : (s.putSq q r).cqs = s.cqs := rfl
@[simp] theorem State.putSq_tasks (s : State) (q : Nat) (r : SqRun) : (s.putSq q r).tasks = s.tasks := rfl
@[simp] theorem State.putSq_apertures (s : State) (q : Nat) (r : SqRun) : (s.putSq q r).apertures = s.apertures := rfl
@[simp] theorem State.putSq_apLoads (s : State) (q : Nat) (r : SqRun) : (s.putSq q r).apLoads = s.apLoads := rfl
@[simp] theorem State.putSq_ds (s : State) (q : Nat) (r : SqRun) : (s.putSq q r).ds = s.ds := rfl
@[simp] theorem State.putSq_barriers (s : State) (q : Nat) (r : SqRun) : (s.putSq q r).barriers = s.barriers := rfl
@[simp] theorem State.putSq_stepEnding (s : State) (q : Nat) (r : SqRun) : (s.putSq q r).stepEnding = s.stepEnding :=
    rfl
@[simp] theorem State.putSq_stepEndSeen (s : State) (q : Nat) (r : SqRun) : (s.putSq q r).stepEndSeen = s.stepEndSeen :=
    rfl
@[simp] theorem State.putSq_boundaryFresh (s : State) (q : Nat) (r : SqRun) : (s.putSq q r).boundaryFresh = s.boundaryFresh :=
    rfl
@[simp] theorem State.putSq_holdLen (s : State) (q : Nat) (r : SqRun) : (s.putSq q r).holdLen = s.holdLen := rfl
@[simp] theorem State.putSq_holdReported (s : State) (q : Nat) (r : SqRun) : (s.putSq q r).holdReported = s.holdReported :=
    rfl
@[simp] theorem State.putSq_deferred (s : State) (q : Nat) (r : SqRun) : (s.putSq q r).deferred = s.deferred := rfl
@[simp] theorem State.putSq_holdClose (s : State) (q : Nat) (r : SqRun) : (s.putSq q r).holdClose = s.holdClose := rfl
@[simp] theorem State.putSq_closing (s : State) (q : Nat) (r : SqRun) : (s.putSq q r).closing = s.closing := rfl
@[simp] theorem State.putSq_xcache (s : State) (q : Nat) (r : SqRun) : (s.putSq q r).xcache = s.xcache := rfl
@[simp] theorem State.putSq_invals (s : State) (q : Nat) (r : SqRun) : (s.putSq q r).invals = s.invals := rfl
@[simp] theorem State.putSq_xorphans (s : State) (q : Nat) (r : SqRun) : (s.putSq q r).xorphans = s.xorphans := rfl
@[simp] theorem State.putSq_prgs (s : State) (q : Nat) (r : SqRun) : (s.putSq q r).prgs = s.prgs := rfl
@[simp] theorem State.putSq_priAlloc (s : State) (q : Nat) (r : SqRun) : (s.putSq q r).priAlloc = s.priAlloc := rfl
@[simp] theorem State.putSq_priFailure (s : State) (q : Nat) (r : SqRun) : (s.putSq q r).priFailure = s.priFailure :=
    rfl
@[simp] theorem State.putSq_ctagSeq (s : State) (q : Nat) (r : SqRun) : (s.putSq q r).ctagSeq = s.ctagSeq := rfl
@[simp] theorem State.putSq_tables (s : State) (q : Nat) (r : SqRun) : (s.putSq q r).tables = s.tables := rfl
@[simp] theorem State.putSq_compRetired (s : State) (q : Nat) (r : SqRun) : (s.putSq q r).compRetired = s.compRetired :=
    rfl
@[simp] theorem State.putSq_expRetired (s : State) (q : Nat) (r : SqRun) : (s.putSq q r).expRetired = s.expRetired :=
    rfl
@[simp] theorem State.putSq_draining (s : State) (q : Nat) (r : SqRun) : (s.putSq q r).draining = s.draining := rfl
@[simp] theorem State.putSq_fabricHeld (s : State) (q : Nat) (r : SqRun) : (s.putSq q r).fabricHeld = s.fabricHeld :=
    rfl
@[simp] theorem State.putSq_ports (s : State) (q : Nat) (r : SqRun) : (s.putSq q r).ports = s.ports := rfl
@[simp] theorem State.putSq_msgSeq (s : State) (q : Nat) (r : SqRun) : (s.putSq q r).msgSeq = s.msgSeq := rfl
@[simp] theorem State.putSq_credits (s : State) (q : Nat) (r : SqRun) : (s.putSq q r).credits = s.credits := rfl
@[simp] theorem State.putSq_rx (s : State) (q : Nat) (r : SqRun) : (s.putSq q r).rx = s.rx := rfl
@[simp] theorem State.putSq_peers (s : State) (q : Nat) (r : SqRun) : (s.putSq q r).peers = s.peers := rfl
@[simp] theorem State.putSq_beatDue (s : State) (q : Nat) (r : SqRun) : (s.putSq q r).beatDue = s.beatDue := rfl
@[simp] theorem State.putSq_sites (s : State) (q : Nat) (r : SqRun) : (s.putSq q r).sites = s.sites := rfl
@[simp] theorem State.putSq_evac (s : State) (q : Nat) (r : SqRun) : (s.putSq q r).evac = s.evac := rfl
@[simp] theorem State.putSq_arbs (s : State) (q : Nat) (r : SqRun) : (s.putSq q r).arbs = s.arbs := rfl
@[simp] theorem State.putSq_mq (s : State) (q : Nat) (r : SqRun) : (s.putSq q r).mq = s.mq := rfl
@[simp] theorem State.putSq_flash0 (s : State) (q : Nat) (r : SqRun) : (s.putSq q r).flash0 = s.flash0 := rfl
@[simp] theorem State.putSq_flash1 (s : State) (q : Nat) (r : SqRun) : (s.putSq q r).flash1 = s.flash1 := rfl
@[simp] theorem State.putSq_record (s : State) (q : Nat) (r : SqRun) : (s.putSq q r).record = s.record := rfl
@[simp] theorem State.putSq_recordWrite (s : State) (q : Nat) (r : SqRun) : (s.putSq q r).recordWrite = s.recordWrite :=
    rfl
@[simp] theorem State.putSq_recordDirty (s : State) (q : Nat) (r : SqRun) : (s.putSq q r).recordDirty = s.recordDirty :=
    rfl
@[simp] theorem State.putSq_stackIds (s : State) (q : Nat) (r : SqRun) : (s.putSq q r).stackIds = s.stackIds := rfl
@[simp] theorem State.putSq_power (s : State) (q : Nat) (r : SqRun) : (s.putSq q r).power = s.power := rfl
@[simp] theorem State.putSq_entering (s : State) (q : Nat) (r : SqRun) : (s.putSq q r).entering = s.entering := rfl
@[simp] theorem State.putSq_waking (s : State) (q : Nat) (r : SqRun) : (s.putSq q r).waking = s.waking := rfl
@[simp] theorem State.putSq_powerAt (s : State) (q : Nat) (r : SqRun) : (s.putSq q r).powerAt = s.powerAt := rfl
@[simp] theorem State.putSq_wakeSeen (s : State) (q : Nat) (r : SqRun) : (s.putSq q r).wakeSeen = s.wakeSeen := rfl
@[simp] theorem State.putSq_latchedWake (s : State) (q : Nat) (r : SqRun) : (s.putSq q r).latchedWake = s.latchedWake :=
    rfl
@[simp] theorem State.putSq_wakeBuf (s : State) (q : Nat) (r : SqRun) : (s.putSq q r).wakeBuf = s.wakeBuf := rfl
@[simp] theorem State.putSq_powered (s : State) (q : Nat) (r : SqRun) : (s.putSq q r).powered = s.powered := rfl
@[simp] theorem State.putSq_padWait (s : State) (q : Nat) (r : SqRun) : (s.putSq q r).padWait = s.padWait := rfl
@[simp] theorem State.putSq_startup (s : State) (q : Nat) (r : SqRun) : (s.putSq q r).startup = s.startup := rfl
@[simp] theorem State.putSq_coldStart (s : State) (q : Nat) (r : SqRun) : (s.putSq q r).coldStart = s.coldStart := rfl
@[simp] theorem State.putSq_restoring (s : State) (q : Nat) (r : SqRun) : (s.putSq q r).restoring = s.restoring := rfl
@[simp] theorem State.putSq_padExit (s : State) (q : Nat) (r : SqRun) : (s.putSq q r).padExit = s.padExit := rfl
@[simp] theorem State.putSq_padAt (s : State) (q : Nat) (r : SqRun) : (s.putSq q r).padAt = s.padAt := rfl
@[simp] theorem State.putSq_checksAt (s : State) (q : Nat) (r : SqRun) : (s.putSq q r).checksAt = s.checksAt := rfl
@[simp] theorem State.putSq_linkDown (s : State) (q : Nat) (r : SqRun) : (s.putSq q r).linkDown = s.linkDown := rfl
@[simp] theorem State.putSq_linkDownCycles (s : State) (q : Nat) (r : SqRun) : (s.putSq q r).linkDownCycles = s.linkDownCycles :=
    rfl
@[simp] theorem State.putSq_idleCycles (s : State) (q : Nat) (r : SqRun) : (s.putSq q r).idleCycles = s.idleCycles :=
    rfl
@[simp] theorem State.putSq_pending (s : State) (q : Nat) (r : SqRun) : (s.putSq q r).pending = s.pending := rfl
@[simp] theorem State.reg_putSq' (s : State) (q : Nat) (r : SqRun) (o : Nat) : (s.putSq q r).reg o = s.reg o := rfl
@[simp] theorem State.fld_putSq' (s : State) (q : Nat) (r : SqRun) (o lo2 n2 : Nat) :
    (s.putSq q r).fld o lo2 n2 = s.fld o lo2 n2 := rfl
@[simp] theorem State.bit_putSq' (s : State) (q : Nat) (r : SqRun) (o j : Nat) :
    (s.putSq q r).bit o j = s.bit o j := rfl
@[simp] theorem State.reg64_putSq' (s : State) (q : Nat) (r : SqRun) (o : Nat) :
    (s.putSq q r).reg64 o = s.reg64 o := rfl
@[simp] theorem State.setNow_putSq' (s : State) (q : Nat) (r : SqRun) (o : Nat) :
    (s.putSq q r).setNow o = s.setNow o := rfl
@[simp] theorem State.gtc_putSq' (s : State) (q : Nat) (r : SqRun) : (s.putSq q r).gtc = s.gtc := rfl
@[simp] theorem State.node_putSq' (s : State) (q : Nat) (r : SqRun) : (s.putSq q r).node = s.node := rfl
@[simp] theorem State.flag_putSq' (s : State) (q : Nat) (r : SqRun) (e2 : Nat) :
    (s.putSq q r).flag e2 = s.flag e2 := rfl
@[simp] theorem State.readByte_putSq' (s : State) (q : Nat) (r : SqRun) (x2 : Nat) :
    (s.putSq q r).readByte x2 = s.readByte x2 := rfl
@[simp] theorem State.task_putSq' (s : State) (q : Nat) (r : SqRun) (t2 : TaskRef) :
    (s.putSq q r).task t2 = s.task t2 := rfl
@[simp] theorem State.cq_putSq' (s : State) (q : Nat) (r : SqRun) (c2 : Nat) : (s.putSq q r).cq c2 = s.cq c2 := rfl
@[simp] theorem State.port_putSq' (s : State) (q : Nat) (r : SqRun) (p2 : Nat) :
    (s.putSq q r).port p2 = s.port p2 := rfl
@[simp] theorem State.endpoint_putSq' (s : State) (q : Nat) (r : SqRun) (r2 : Nat) :
    (s.putSq q r).endpoint r2 = s.endpoint r2 := rfl
@[simp] theorem State.peer_putSq' (s : State) (q : Nat) (r : SqRun) (n2 : Nat) :
    (s.putSq q r).peer n2 = s.peer n2 := rfl
@[simp] theorem State.site_putSq' (s : State) (q : Nat) (r : SqRun) (b2 : Nat) :
    (s.putSq q r).site b2 = s.site b2 := rfl
@[simp] theorem State.arb_putSq' (s : State) (q : Nat) (r : SqRun) (a2 : Nat) : (s.putSq q r).arb a2 = s.arb a2 := rfl
@[simp] theorem State.stream_putSq' (s : State) (q : Nat) (r : SqRun) (n2 : Nat) :
    (s.putSq q r).stream n2 = s.stream n2 := rfl
@[simp] theorem State.apertureOwner_putSq' (s : State) (q : Nat) (r : SqRun) (n2 : Nat) :
    (s.putSq q r).apertureOwner n2 = s.apertureOwner n2 := rfl
@[simp] theorem State.below_putSq' (s : State) (q : Nat) (r : SqRun) : (s.putSq q r).below = s.below := rfl

/-! ### putCq -/

@[simp] theorem State.putCq_regs (s : State) (c : Nat) (r : CqRun) : (s.putCq c r).regs = s.regs := rfl
@[simp] theorem State.putCq_staged (s : State) (c : Nat) (r : CqRun) : (s.putCq c r).staged = s.staged := rfl
@[simp] theorem State.putCq_latched (s : State) (c : Nat) (r : CqRun) : (s.putCq c r).latched = s.latched := rfl
@[simp] theorem State.putCq_drt (s : State) (c : Nat) (r : CqRun) : (s.putCq c r).drt = s.drt := rfl
@[simp] theorem State.putCq_bar2Log2 (s : State) (c : Nat) (r : CqRun) : (s.putCq c r).bar2Log2 = s.bar2Log2 := rfl
@[simp] theorem State.putCq_mem (s : State) (c : Nat) (r : CqRun) : (s.putCq c r).mem = s.mem := rfl
@[simp] theorem State.putCq_memGen (s : State) (c : Nat) (r : CqRun) : (s.putCq c r).memGen = s.memGen := rfl
@[simp] theorem State.putCq_push (s : State) (c : Nat) (r : CqRun) : (s.putCq c r).push = s.push := rfl
@[simp] theorem State.putCq_spPayload (s : State) (c : Nat) (r : CqRun) : (s.putCq c r).spPayload = s.spPayload := rfl
@[simp] theorem State.putCq_freeCtr (s : State) (c : Nat) (r : CqRun) : (s.putCq c r).freeCtr = s.freeCtr := rfl
@[simp] theorem State.putCq_out (s : State) (c : Nat) (r : CqRun) : (s.putCq c r).out = s.out := rfl
@[simp] theorem State.putCq_cycle (s : State) (c : Nat) (r : CqRun) : (s.putCq c r).cycle = s.cycle := rfl
@[simp] theorem State.putCq_hostHeld (s : State) (c : Nat) (r : CqRun) : (s.putCq c r).hostHeld = s.hostHeld := rfl
@[simp] theorem State.putCq_linkUpAt (s : State) (c : Nat) (r : CqRun) : (s.putCq c r).linkUpAt = s.linkUpAt := rfl
@[simp] theorem State.putCq_now (s : State) (c : Nat) (r : CqRun) : (s.putCq c r).now = s.now := rfl
@[simp] theorem State.putCq_later (s : State) (c : Nat) (r : CqRun) : (s.putCq c r).later = s.later := rfl
@[simp] theorem State.putCq_halfCycle (s : State) (c : Nat) (r : CqRun) : (s.putCq c r).halfCycle = s.halfCycle := rfl
@[simp] theorem State.putCq_gtcHold (s : State) (c : Nat) (r : CqRun) : (s.putCq c r).gtcHold = s.gtcHold := rfl
@[simp] theorem State.putCq_sqs (s : State) (c : Nat) (r : CqRun) : (s.putCq c r).sqs = s.sqs := rfl
@[simp] theorem State.putCq_tasks (s : State) (c : Nat) (r : CqRun) : (s.putCq c r).tasks = s.tasks := rfl
@[simp] theorem State.putCq_apertures (s : State) (c : Nat) (r : CqRun) : (s.putCq c r).apertures = s.apertures := rfl
@[simp] theorem State.putCq_apLoads (s : State) (c : Nat) (r : CqRun) : (s.putCq c r).apLoads = s.apLoads := rfl
@[simp] theorem State.putCq_ds (s : State) (c : Nat) (r : CqRun) : (s.putCq c r).ds = s.ds := rfl
@[simp] theorem State.putCq_barriers (s : State) (c : Nat) (r : CqRun) : (s.putCq c r).barriers = s.barriers := rfl
@[simp] theorem State.putCq_stepEnding (s : State) (c : Nat) (r : CqRun) : (s.putCq c r).stepEnding = s.stepEnding :=
    rfl
@[simp] theorem State.putCq_stepEndSeen (s : State) (c : Nat) (r : CqRun) : (s.putCq c r).stepEndSeen = s.stepEndSeen :=
    rfl
@[simp] theorem State.putCq_boundaryFresh (s : State) (c : Nat) (r : CqRun) : (s.putCq c r).boundaryFresh = s.boundaryFresh :=
    rfl
@[simp] theorem State.putCq_holdLen (s : State) (c : Nat) (r : CqRun) : (s.putCq c r).holdLen = s.holdLen := rfl
@[simp] theorem State.putCq_holdReported (s : State) (c : Nat) (r : CqRun) : (s.putCq c r).holdReported = s.holdReported :=
    rfl
@[simp] theorem State.putCq_deferred (s : State) (c : Nat) (r : CqRun) : (s.putCq c r).deferred = s.deferred := rfl
@[simp] theorem State.putCq_holdClose (s : State) (c : Nat) (r : CqRun) : (s.putCq c r).holdClose = s.holdClose := rfl
@[simp] theorem State.putCq_closing (s : State) (c : Nat) (r : CqRun) : (s.putCq c r).closing = s.closing := rfl
@[simp] theorem State.putCq_xcache (s : State) (c : Nat) (r : CqRun) : (s.putCq c r).xcache = s.xcache := rfl
@[simp] theorem State.putCq_invals (s : State) (c : Nat) (r : CqRun) : (s.putCq c r).invals = s.invals := rfl
@[simp] theorem State.putCq_xorphans (s : State) (c : Nat) (r : CqRun) : (s.putCq c r).xorphans = s.xorphans := rfl
@[simp] theorem State.putCq_prgs (s : State) (c : Nat) (r : CqRun) : (s.putCq c r).prgs = s.prgs := rfl
@[simp] theorem State.putCq_priAlloc (s : State) (c : Nat) (r : CqRun) : (s.putCq c r).priAlloc = s.priAlloc := rfl
@[simp] theorem State.putCq_priFailure (s : State) (c : Nat) (r : CqRun) : (s.putCq c r).priFailure = s.priFailure :=
    rfl
@[simp] theorem State.putCq_ctagSeq (s : State) (c : Nat) (r : CqRun) : (s.putCq c r).ctagSeq = s.ctagSeq := rfl
@[simp] theorem State.putCq_tables (s : State) (c : Nat) (r : CqRun) : (s.putCq c r).tables = s.tables := rfl
@[simp] theorem State.putCq_compRetired (s : State) (c : Nat) (r : CqRun) : (s.putCq c r).compRetired = s.compRetired :=
    rfl
@[simp] theorem State.putCq_expRetired (s : State) (c : Nat) (r : CqRun) : (s.putCq c r).expRetired = s.expRetired :=
    rfl
@[simp] theorem State.putCq_draining (s : State) (c : Nat) (r : CqRun) : (s.putCq c r).draining = s.draining := rfl
@[simp] theorem State.putCq_fabricHeld (s : State) (c : Nat) (r : CqRun) : (s.putCq c r).fabricHeld = s.fabricHeld :=
    rfl
@[simp] theorem State.putCq_ports (s : State) (c : Nat) (r : CqRun) : (s.putCq c r).ports = s.ports := rfl
@[simp] theorem State.putCq_msgSeq (s : State) (c : Nat) (r : CqRun) : (s.putCq c r).msgSeq = s.msgSeq := rfl
@[simp] theorem State.putCq_credits (s : State) (c : Nat) (r : CqRun) : (s.putCq c r).credits = s.credits := rfl
@[simp] theorem State.putCq_rx (s : State) (c : Nat) (r : CqRun) : (s.putCq c r).rx = s.rx := rfl
@[simp] theorem State.putCq_peers (s : State) (c : Nat) (r : CqRun) : (s.putCq c r).peers = s.peers := rfl
@[simp] theorem State.putCq_beatDue (s : State) (c : Nat) (r : CqRun) : (s.putCq c r).beatDue = s.beatDue := rfl
@[simp] theorem State.putCq_sites (s : State) (c : Nat) (r : CqRun) : (s.putCq c r).sites = s.sites := rfl
@[simp] theorem State.putCq_evac (s : State) (c : Nat) (r : CqRun) : (s.putCq c r).evac = s.evac := rfl
@[simp] theorem State.putCq_arbs (s : State) (c : Nat) (r : CqRun) : (s.putCq c r).arbs = s.arbs := rfl
@[simp] theorem State.putCq_mq (s : State) (c : Nat) (r : CqRun) : (s.putCq c r).mq = s.mq := rfl
@[simp] theorem State.putCq_flash0 (s : State) (c : Nat) (r : CqRun) : (s.putCq c r).flash0 = s.flash0 := rfl
@[simp] theorem State.putCq_flash1 (s : State) (c : Nat) (r : CqRun) : (s.putCq c r).flash1 = s.flash1 := rfl
@[simp] theorem State.putCq_record (s : State) (c : Nat) (r : CqRun) : (s.putCq c r).record = s.record := rfl
@[simp] theorem State.putCq_recordWrite (s : State) (c : Nat) (r : CqRun) : (s.putCq c r).recordWrite = s.recordWrite :=
    rfl
@[simp] theorem State.putCq_recordDirty (s : State) (c : Nat) (r : CqRun) : (s.putCq c r).recordDirty = s.recordDirty :=
    rfl
@[simp] theorem State.putCq_stackIds (s : State) (c : Nat) (r : CqRun) : (s.putCq c r).stackIds = s.stackIds := rfl
@[simp] theorem State.putCq_power (s : State) (c : Nat) (r : CqRun) : (s.putCq c r).power = s.power := rfl
@[simp] theorem State.putCq_entering (s : State) (c : Nat) (r : CqRun) : (s.putCq c r).entering = s.entering := rfl
@[simp] theorem State.putCq_waking (s : State) (c : Nat) (r : CqRun) : (s.putCq c r).waking = s.waking := rfl
@[simp] theorem State.putCq_powerAt (s : State) (c : Nat) (r : CqRun) : (s.putCq c r).powerAt = s.powerAt := rfl
@[simp] theorem State.putCq_wakeSeen (s : State) (c : Nat) (r : CqRun) : (s.putCq c r).wakeSeen = s.wakeSeen := rfl
@[simp] theorem State.putCq_latchedWake (s : State) (c : Nat) (r : CqRun) : (s.putCq c r).latchedWake = s.latchedWake :=
    rfl
@[simp] theorem State.putCq_wakeBuf (s : State) (c : Nat) (r : CqRun) : (s.putCq c r).wakeBuf = s.wakeBuf := rfl
@[simp] theorem State.putCq_powered (s : State) (c : Nat) (r : CqRun) : (s.putCq c r).powered = s.powered := rfl
@[simp] theorem State.putCq_padWait (s : State) (c : Nat) (r : CqRun) : (s.putCq c r).padWait = s.padWait := rfl
@[simp] theorem State.putCq_startup (s : State) (c : Nat) (r : CqRun) : (s.putCq c r).startup = s.startup := rfl
@[simp] theorem State.putCq_coldStart (s : State) (c : Nat) (r : CqRun) : (s.putCq c r).coldStart = s.coldStart := rfl
@[simp] theorem State.putCq_restoring (s : State) (c : Nat) (r : CqRun) : (s.putCq c r).restoring = s.restoring := rfl
@[simp] theorem State.putCq_padExit (s : State) (c : Nat) (r : CqRun) : (s.putCq c r).padExit = s.padExit := rfl
@[simp] theorem State.putCq_padAt (s : State) (c : Nat) (r : CqRun) : (s.putCq c r).padAt = s.padAt := rfl
@[simp] theorem State.putCq_checksAt (s : State) (c : Nat) (r : CqRun) : (s.putCq c r).checksAt = s.checksAt := rfl
@[simp] theorem State.putCq_linkDown (s : State) (c : Nat) (r : CqRun) : (s.putCq c r).linkDown = s.linkDown := rfl
@[simp] theorem State.putCq_linkDownCycles (s : State) (c : Nat) (r : CqRun) : (s.putCq c r).linkDownCycles = s.linkDownCycles :=
    rfl
@[simp] theorem State.putCq_idleCycles (s : State) (c : Nat) (r : CqRun) : (s.putCq c r).idleCycles = s.idleCycles :=
    rfl
@[simp] theorem State.putCq_pending (s : State) (c : Nat) (r : CqRun) : (s.putCq c r).pending = s.pending := rfl
@[simp] theorem State.reg_putCq' (s : State) (c : Nat) (r : CqRun) (o : Nat) : (s.putCq c r).reg o = s.reg o := rfl
@[simp] theorem State.fld_putCq' (s : State) (c : Nat) (r : CqRun) (o lo2 n2 : Nat) :
    (s.putCq c r).fld o lo2 n2 = s.fld o lo2 n2 := rfl
@[simp] theorem State.bit_putCq' (s : State) (c : Nat) (r : CqRun) (o j : Nat) :
    (s.putCq c r).bit o j = s.bit o j := rfl
@[simp] theorem State.reg64_putCq' (s : State) (c : Nat) (r : CqRun) (o : Nat) :
    (s.putCq c r).reg64 o = s.reg64 o := rfl
@[simp] theorem State.setNow_putCq' (s : State) (c : Nat) (r : CqRun) (o : Nat) :
    (s.putCq c r).setNow o = s.setNow o := rfl
@[simp] theorem State.gtc_putCq' (s : State) (c : Nat) (r : CqRun) : (s.putCq c r).gtc = s.gtc := rfl
@[simp] theorem State.node_putCq' (s : State) (c : Nat) (r : CqRun) : (s.putCq c r).node = s.node := rfl
@[simp] theorem State.flag_putCq' (s : State) (c : Nat) (r : CqRun) (e2 : Nat) :
    (s.putCq c r).flag e2 = s.flag e2 := rfl
@[simp] theorem State.readByte_putCq' (s : State) (c : Nat) (r : CqRun) (x2 : Nat) :
    (s.putCq c r).readByte x2 = s.readByte x2 := rfl
@[simp] theorem State.task_putCq' (s : State) (c : Nat) (r : CqRun) (t2 : TaskRef) :
    (s.putCq c r).task t2 = s.task t2 := rfl
@[simp] theorem State.sq_putCq' (s : State) (c : Nat) (r : CqRun) (q2 : Nat) : (s.putCq c r).sq q2 = s.sq q2 := rfl
@[simp] theorem State.port_putCq' (s : State) (c : Nat) (r : CqRun) (p2 : Nat) :
    (s.putCq c r).port p2 = s.port p2 := rfl
@[simp] theorem State.endpoint_putCq' (s : State) (c : Nat) (r : CqRun) (r2 : Nat) :
    (s.putCq c r).endpoint r2 = s.endpoint r2 := rfl
@[simp] theorem State.peer_putCq' (s : State) (c : Nat) (r : CqRun) (n2 : Nat) :
    (s.putCq c r).peer n2 = s.peer n2 := rfl
@[simp] theorem State.site_putCq' (s : State) (c : Nat) (r : CqRun) (b2 : Nat) :
    (s.putCq c r).site b2 = s.site b2 := rfl
@[simp] theorem State.arb_putCq' (s : State) (c : Nat) (r : CqRun) (a2 : Nat) : (s.putCq c r).arb a2 = s.arb a2 := rfl
@[simp] theorem State.stream_putCq' (s : State) (c : Nat) (r : CqRun) (n2 : Nat) :
    (s.putCq c r).stream n2 = s.stream n2 := rfl
@[simp] theorem State.apertureOwner_putCq' (s : State) (c : Nat) (r : CqRun) (n2 : Nat) :
    (s.putCq c r).apertureOwner n2 = s.apertureOwner n2 := rfl
@[simp] theorem State.below_putCq' (s : State) (c : Nat) (r : CqRun) : (s.putCq c r).below = s.below := rfl

/-! ### putPort -/

@[simp] theorem State.putPort_regs (s : State) (p : Nat) (r : SendPort) : (s.putPort p r).regs = s.regs := rfl
@[simp] theorem State.putPort_staged (s : State) (p : Nat) (r : SendPort) : (s.putPort p r).staged = s.staged := rfl
@[simp] theorem State.putPort_latched (s : State) (p : Nat) (r : SendPort) : (s.putPort p r).latched = s.latched := rfl
@[simp] theorem State.putPort_drt (s : State) (p : Nat) (r : SendPort) : (s.putPort p r).drt = s.drt := rfl
@[simp] theorem State.putPort_bar2Log2 (s : State) (p : Nat) (r : SendPort) : (s.putPort p r).bar2Log2 = s.bar2Log2 :=
    rfl
@[simp] theorem State.putPort_mem (s : State) (p : Nat) (r : SendPort) : (s.putPort p r).mem = s.mem := rfl
@[simp] theorem State.putPort_memGen (s : State) (p : Nat) (r : SendPort) : (s.putPort p r).memGen = s.memGen := rfl
@[simp] theorem State.putPort_push (s : State) (p : Nat) (r : SendPort) : (s.putPort p r).push = s.push := rfl
@[simp] theorem State.putPort_spPayload (s : State) (p : Nat) (r : SendPort) : (s.putPort p r).spPayload = s.spPayload :=
    rfl
@[simp] theorem State.putPort_freeCtr (s : State) (p : Nat) (r : SendPort) : (s.putPort p r).freeCtr = s.freeCtr := rfl
@[simp] theorem State.putPort_out (s : State) (p : Nat) (r : SendPort) : (s.putPort p r).out = s.out := rfl
@[simp] theorem State.putPort_cycle (s : State) (p : Nat) (r : SendPort) : (s.putPort p r).cycle = s.cycle := rfl
@[simp] theorem State.putPort_hostHeld (s : State) (p : Nat) (r : SendPort) : (s.putPort p r).hostHeld = s.hostHeld :=
    rfl
@[simp] theorem State.putPort_linkUpAt (s : State) (p : Nat) (r : SendPort) : (s.putPort p r).linkUpAt = s.linkUpAt :=
    rfl
@[simp] theorem State.putPort_now (s : State) (p : Nat) (r : SendPort) : (s.putPort p r).now = s.now := rfl
@[simp] theorem State.putPort_later (s : State) (p : Nat) (r : SendPort) : (s.putPort p r).later = s.later := rfl
@[simp] theorem State.putPort_halfCycle (s : State) (p : Nat) (r : SendPort) : (s.putPort p r).halfCycle = s.halfCycle :=
    rfl
@[simp] theorem State.putPort_gtcHold (s : State) (p : Nat) (r : SendPort) : (s.putPort p r).gtcHold = s.gtcHold := rfl
@[simp] theorem State.putPort_sqs (s : State) (p : Nat) (r : SendPort) : (s.putPort p r).sqs = s.sqs := rfl
@[simp] theorem State.putPort_cqs (s : State) (p : Nat) (r : SendPort) : (s.putPort p r).cqs = s.cqs := rfl
@[simp] theorem State.putPort_tasks (s : State) (p : Nat) (r : SendPort) : (s.putPort p r).tasks = s.tasks := rfl
@[simp] theorem State.putPort_apertures (s : State) (p : Nat) (r : SendPort) : (s.putPort p r).apertures = s.apertures :=
    rfl
@[simp] theorem State.putPort_apLoads (s : State) (p : Nat) (r : SendPort) : (s.putPort p r).apLoads = s.apLoads := rfl
@[simp] theorem State.putPort_ds (s : State) (p : Nat) (r : SendPort) : (s.putPort p r).ds = s.ds := rfl
@[simp] theorem State.putPort_barriers (s : State) (p : Nat) (r : SendPort) : (s.putPort p r).barriers = s.barriers :=
    rfl
@[simp] theorem State.putPort_stepEnding (s : State) (p : Nat) (r : SendPort) : (s.putPort p r).stepEnding = s.stepEnding :=
    rfl
@[simp] theorem State.putPort_stepEndSeen (s : State) (p : Nat) (r : SendPort) : (s.putPort p r).stepEndSeen = s.stepEndSeen :=
    rfl
@[simp] theorem State.putPort_boundaryFresh (s : State) (p : Nat) (r : SendPort) : (s.putPort p r).boundaryFresh = s.boundaryFresh :=
    rfl
@[simp] theorem State.putPort_holdLen (s : State) (p : Nat) (r : SendPort) : (s.putPort p r).holdLen = s.holdLen := rfl
@[simp] theorem State.putPort_holdReported (s : State) (p : Nat) (r : SendPort) : (s.putPort p r).holdReported = s.holdReported :=
    rfl
@[simp] theorem State.putPort_deferred (s : State) (p : Nat) (r : SendPort) : (s.putPort p r).deferred = s.deferred :=
    rfl
@[simp] theorem State.putPort_holdClose (s : State) (p : Nat) (r : SendPort) : (s.putPort p r).holdClose = s.holdClose :=
    rfl
@[simp] theorem State.putPort_closing (s : State) (p : Nat) (r : SendPort) : (s.putPort p r).closing = s.closing := rfl
@[simp] theorem State.putPort_xcache (s : State) (p : Nat) (r : SendPort) : (s.putPort p r).xcache = s.xcache := rfl
@[simp] theorem State.putPort_invals (s : State) (p : Nat) (r : SendPort) : (s.putPort p r).invals = s.invals := rfl
@[simp] theorem State.putPort_xorphans (s : State) (p : Nat) (r : SendPort) : (s.putPort p r).xorphans = s.xorphans :=
    rfl
@[simp] theorem State.putPort_prgs (s : State) (p : Nat) (r : SendPort) : (s.putPort p r).prgs = s.prgs := rfl
@[simp] theorem State.putPort_priAlloc (s : State) (p : Nat) (r : SendPort) : (s.putPort p r).priAlloc = s.priAlloc :=
    rfl
@[simp] theorem State.putPort_priFailure (s : State) (p : Nat) (r : SendPort) : (s.putPort p r).priFailure = s.priFailure :=
    rfl
@[simp] theorem State.putPort_ctagSeq (s : State) (p : Nat) (r : SendPort) : (s.putPort p r).ctagSeq = s.ctagSeq := rfl
@[simp] theorem State.putPort_tables (s : State) (p : Nat) (r : SendPort) : (s.putPort p r).tables = s.tables := rfl
@[simp] theorem State.putPort_compRetired (s : State) (p : Nat) (r : SendPort) : (s.putPort p r).compRetired = s.compRetired :=
    rfl
@[simp] theorem State.putPort_expRetired (s : State) (p : Nat) (r : SendPort) : (s.putPort p r).expRetired = s.expRetired :=
    rfl
@[simp] theorem State.putPort_draining (s : State) (p : Nat) (r : SendPort) : (s.putPort p r).draining = s.draining :=
    rfl
@[simp] theorem State.putPort_fabricHeld (s : State) (p : Nat) (r : SendPort) : (s.putPort p r).fabricHeld = s.fabricHeld :=
    rfl
@[simp] theorem State.putPort_msgSeq (s : State) (p : Nat) (r : SendPort) : (s.putPort p r).msgSeq = s.msgSeq := rfl
@[simp] theorem State.putPort_credits (s : State) (p : Nat) (r : SendPort) : (s.putPort p r).credits = s.credits := rfl
@[simp] theorem State.putPort_rx (s : State) (p : Nat) (r : SendPort) : (s.putPort p r).rx = s.rx := rfl
@[simp] theorem State.putPort_peers (s : State) (p : Nat) (r : SendPort) : (s.putPort p r).peers = s.peers := rfl
@[simp] theorem State.putPort_beatDue (s : State) (p : Nat) (r : SendPort) : (s.putPort p r).beatDue = s.beatDue := rfl
@[simp] theorem State.putPort_sites (s : State) (p : Nat) (r : SendPort) : (s.putPort p r).sites = s.sites := rfl
@[simp] theorem State.putPort_evac (s : State) (p : Nat) (r : SendPort) : (s.putPort p r).evac = s.evac := rfl
@[simp] theorem State.putPort_arbs (s : State) (p : Nat) (r : SendPort) : (s.putPort p r).arbs = s.arbs := rfl
@[simp] theorem State.putPort_mq (s : State) (p : Nat) (r : SendPort) : (s.putPort p r).mq = s.mq := rfl
@[simp] theorem State.putPort_flash0 (s : State) (p : Nat) (r : SendPort) : (s.putPort p r).flash0 = s.flash0 := rfl
@[simp] theorem State.putPort_flash1 (s : State) (p : Nat) (r : SendPort) : (s.putPort p r).flash1 = s.flash1 := rfl
@[simp] theorem State.putPort_record (s : State) (p : Nat) (r : SendPort) : (s.putPort p r).record = s.record := rfl
@[simp] theorem State.putPort_recordWrite (s : State) (p : Nat) (r : SendPort) : (s.putPort p r).recordWrite = s.recordWrite :=
    rfl
@[simp] theorem State.putPort_recordDirty (s : State) (p : Nat) (r : SendPort) : (s.putPort p r).recordDirty = s.recordDirty :=
    rfl
@[simp] theorem State.putPort_stackIds (s : State) (p : Nat) (r : SendPort) : (s.putPort p r).stackIds = s.stackIds :=
    rfl
@[simp] theorem State.putPort_power (s : State) (p : Nat) (r : SendPort) : (s.putPort p r).power = s.power := rfl
@[simp] theorem State.putPort_entering (s : State) (p : Nat) (r : SendPort) : (s.putPort p r).entering = s.entering :=
    rfl
@[simp] theorem State.putPort_waking (s : State) (p : Nat) (r : SendPort) : (s.putPort p r).waking = s.waking := rfl
@[simp] theorem State.putPort_powerAt (s : State) (p : Nat) (r : SendPort) : (s.putPort p r).powerAt = s.powerAt := rfl
@[simp] theorem State.putPort_wakeSeen (s : State) (p : Nat) (r : SendPort) : (s.putPort p r).wakeSeen = s.wakeSeen :=
    rfl
@[simp] theorem State.putPort_latchedWake (s : State) (p : Nat) (r : SendPort) : (s.putPort p r).latchedWake = s.latchedWake :=
    rfl
@[simp] theorem State.putPort_wakeBuf (s : State) (p : Nat) (r : SendPort) : (s.putPort p r).wakeBuf = s.wakeBuf := rfl
@[simp] theorem State.putPort_powered (s : State) (p : Nat) (r : SendPort) : (s.putPort p r).powered = s.powered := rfl
@[simp] theorem State.putPort_padWait (s : State) (p : Nat) (r : SendPort) : (s.putPort p r).padWait = s.padWait := rfl
@[simp] theorem State.putPort_startup (s : State) (p : Nat) (r : SendPort) : (s.putPort p r).startup = s.startup := rfl
@[simp] theorem State.putPort_coldStart (s : State) (p : Nat) (r : SendPort) : (s.putPort p r).coldStart = s.coldStart :=
    rfl
@[simp] theorem State.putPort_restoring (s : State) (p : Nat) (r : SendPort) : (s.putPort p r).restoring = s.restoring :=
    rfl
@[simp] theorem State.putPort_padExit (s : State) (p : Nat) (r : SendPort) : (s.putPort p r).padExit = s.padExit := rfl
@[simp] theorem State.putPort_padAt (s : State) (p : Nat) (r : SendPort) : (s.putPort p r).padAt = s.padAt := rfl
@[simp] theorem State.putPort_checksAt (s : State) (p : Nat) (r : SendPort) : (s.putPort p r).checksAt = s.checksAt :=
    rfl
@[simp] theorem State.putPort_linkDown (s : State) (p : Nat) (r : SendPort) : (s.putPort p r).linkDown = s.linkDown :=
    rfl
@[simp] theorem State.putPort_linkDownCycles (s : State) (p : Nat) (r : SendPort) : (s.putPort p r).linkDownCycles = s.linkDownCycles :=
    rfl
@[simp] theorem State.putPort_idleCycles (s : State) (p : Nat) (r : SendPort) : (s.putPort p r).idleCycles = s.idleCycles :=
    rfl
@[simp] theorem State.putPort_pending (s : State) (p : Nat) (r : SendPort) : (s.putPort p r).pending = s.pending := rfl
@[simp] theorem State.reg_putPort' (s : State) (p : Nat) (r : SendPort) (o : Nat) :
    (s.putPort p r).reg o = s.reg o := rfl
@[simp] theorem State.fld_putPort' (s : State) (p : Nat) (r : SendPort) (o lo2 n2 : Nat) :
    (s.putPort p r).fld o lo2 n2 = s.fld o lo2 n2 := rfl
@[simp] theorem State.bit_putPort' (s : State) (p : Nat) (r : SendPort) (o j : Nat) :
    (s.putPort p r).bit o j = s.bit o j := rfl
@[simp] theorem State.reg64_putPort' (s : State) (p : Nat) (r : SendPort) (o : Nat) :
    (s.putPort p r).reg64 o = s.reg64 o := rfl
@[simp] theorem State.setNow_putPort' (s : State) (p : Nat) (r : SendPort) (o : Nat) :
    (s.putPort p r).setNow o = s.setNow o := rfl
@[simp] theorem State.gtc_putPort' (s : State) (p : Nat) (r : SendPort) : (s.putPort p r).gtc = s.gtc := rfl
@[simp] theorem State.node_putPort' (s : State) (p : Nat) (r : SendPort) : (s.putPort p r).node = s.node := rfl
@[simp] theorem State.flag_putPort' (s : State) (p : Nat) (r : SendPort) (e2 : Nat) :
    (s.putPort p r).flag e2 = s.flag e2 := rfl
@[simp] theorem State.readByte_putPort' (s : State) (p : Nat) (r : SendPort) (x2 : Nat) :
    (s.putPort p r).readByte x2 = s.readByte x2 := rfl
@[simp] theorem State.task_putPort' (s : State) (p : Nat) (r : SendPort) (t2 : TaskRef) :
    (s.putPort p r).task t2 = s.task t2 := rfl
@[simp] theorem State.sq_putPort' (s : State) (p : Nat) (r : SendPort) (q2 : Nat) :
    (s.putPort p r).sq q2 = s.sq q2 := rfl
@[simp] theorem State.cq_putPort' (s : State) (p : Nat) (r : SendPort) (c2 : Nat) :
    (s.putPort p r).cq c2 = s.cq c2 := rfl
@[simp] theorem State.endpoint_putPort' (s : State) (p : Nat) (r : SendPort) (r2 : Nat) :
    (s.putPort p r).endpoint r2 = s.endpoint r2 := rfl
@[simp] theorem State.peer_putPort' (s : State) (p : Nat) (r : SendPort) (n2 : Nat) :
    (s.putPort p r).peer n2 = s.peer n2 := rfl
@[simp] theorem State.site_putPort' (s : State) (p : Nat) (r : SendPort) (b2 : Nat) :
    (s.putPort p r).site b2 = s.site b2 := rfl
@[simp] theorem State.arb_putPort' (s : State) (p : Nat) (r : SendPort) (a2 : Nat) :
    (s.putPort p r).arb a2 = s.arb a2 := rfl
@[simp] theorem State.stream_putPort' (s : State) (p : Nat) (r : SendPort) (n2 : Nat) :
    (s.putPort p r).stream n2 = s.stream n2 := rfl
@[simp] theorem State.apertureOwner_putPort' (s : State) (p : Nat) (r : SendPort) (n2 : Nat) :
    (s.putPort p r).apertureOwner n2 = s.apertureOwner n2 := rfl
@[simp] theorem State.below_putPort' (s : State) (p : Nat) (r : SendPort) : (s.putPort p r).below = s.below := rfl

/-! ### putEndpoint -/

@[simp] theorem State.putEndpoint_regs (s : State) (r : Nat) (x : RxRun) : (s.putEndpoint r x).regs = s.regs := rfl
@[simp] theorem State.putEndpoint_staged (s : State) (r : Nat) (x : RxRun) : (s.putEndpoint r x).staged = s.staged :=
    rfl
@[simp] theorem State.putEndpoint_latched (s : State) (r : Nat) (x : RxRun) : (s.putEndpoint r x).latched = s.latched :=
    rfl
@[simp] theorem State.putEndpoint_drt (s : State) (r : Nat) (x : RxRun) : (s.putEndpoint r x).drt = s.drt := rfl
@[simp] theorem State.putEndpoint_bar2Log2 (s : State) (r : Nat) (x : RxRun) : (s.putEndpoint r x).bar2Log2 = s.bar2Log2 :=
    rfl
@[simp] theorem State.putEndpoint_mem (s : State) (r : Nat) (x : RxRun) : (s.putEndpoint r x).mem = s.mem := rfl
@[simp] theorem State.putEndpoint_memGen (s : State) (r : Nat) (x : RxRun) : (s.putEndpoint r x).memGen = s.memGen :=
    rfl
@[simp] theorem State.putEndpoint_push (s : State) (r : Nat) (x : RxRun) : (s.putEndpoint r x).push = s.push := rfl
@[simp] theorem State.putEndpoint_spPayload (s : State) (r : Nat) (x : RxRun) : (s.putEndpoint r x).spPayload = s.spPayload :=
    rfl
@[simp] theorem State.putEndpoint_freeCtr (s : State) (r : Nat) (x : RxRun) : (s.putEndpoint r x).freeCtr = s.freeCtr :=
    rfl
@[simp] theorem State.putEndpoint_out (s : State) (r : Nat) (x : RxRun) : (s.putEndpoint r x).out = s.out := rfl
@[simp] theorem State.putEndpoint_cycle (s : State) (r : Nat) (x : RxRun) : (s.putEndpoint r x).cycle = s.cycle := rfl
@[simp] theorem State.putEndpoint_hostHeld (s : State) (r : Nat) (x : RxRun) : (s.putEndpoint r x).hostHeld = s.hostHeld :=
    rfl
@[simp] theorem State.putEndpoint_linkUpAt (s : State) (r : Nat) (x : RxRun) : (s.putEndpoint r x).linkUpAt = s.linkUpAt :=
    rfl
@[simp] theorem State.putEndpoint_now (s : State) (r : Nat) (x : RxRun) : (s.putEndpoint r x).now = s.now := rfl
@[simp] theorem State.putEndpoint_later (s : State) (r : Nat) (x : RxRun) : (s.putEndpoint r x).later = s.later := rfl
@[simp] theorem State.putEndpoint_halfCycle (s : State) (r : Nat) (x : RxRun) : (s.putEndpoint r x).halfCycle = s.halfCycle :=
    rfl
@[simp] theorem State.putEndpoint_gtcHold (s : State) (r : Nat) (x : RxRun) : (s.putEndpoint r x).gtcHold = s.gtcHold :=
    rfl
@[simp] theorem State.putEndpoint_sqs (s : State) (r : Nat) (x : RxRun) : (s.putEndpoint r x).sqs = s.sqs := rfl
@[simp] theorem State.putEndpoint_cqs (s : State) (r : Nat) (x : RxRun) : (s.putEndpoint r x).cqs = s.cqs := rfl
@[simp] theorem State.putEndpoint_tasks (s : State) (r : Nat) (x : RxRun) : (s.putEndpoint r x).tasks = s.tasks := rfl
@[simp] theorem State.putEndpoint_apertures (s : State) (r : Nat) (x : RxRun) : (s.putEndpoint r x).apertures = s.apertures :=
    rfl
@[simp] theorem State.putEndpoint_apLoads (s : State) (r : Nat) (x : RxRun) : (s.putEndpoint r x).apLoads = s.apLoads :=
    rfl
@[simp] theorem State.putEndpoint_ds (s : State) (r : Nat) (x : RxRun) : (s.putEndpoint r x).ds = s.ds := rfl
@[simp] theorem State.putEndpoint_barriers (s : State) (r : Nat) (x : RxRun) : (s.putEndpoint r x).barriers = s.barriers :=
    rfl
@[simp] theorem State.putEndpoint_stepEnding (s : State) (r : Nat) (x : RxRun) : (s.putEndpoint r x).stepEnding = s.stepEnding :=
    rfl
@[simp] theorem State.putEndpoint_stepEndSeen (s : State) (r : Nat) (x : RxRun) : (s.putEndpoint r x).stepEndSeen = s.stepEndSeen :=
    rfl
@[simp] theorem State.putEndpoint_boundaryFresh (s : State) (r : Nat) (x : RxRun) : (s.putEndpoint r x).boundaryFresh = s.boundaryFresh :=
    rfl
@[simp] theorem State.putEndpoint_holdLen (s : State) (r : Nat) (x : RxRun) : (s.putEndpoint r x).holdLen = s.holdLen :=
    rfl
@[simp] theorem State.putEndpoint_holdReported (s : State) (r : Nat) (x : RxRun) : (s.putEndpoint r x).holdReported = s.holdReported :=
    rfl
@[simp] theorem State.putEndpoint_deferred (s : State) (r : Nat) (x : RxRun) : (s.putEndpoint r x).deferred = s.deferred :=
    rfl
@[simp] theorem State.putEndpoint_holdClose (s : State) (r : Nat) (x : RxRun) : (s.putEndpoint r x).holdClose = s.holdClose :=
    rfl
@[simp] theorem State.putEndpoint_closing (s : State) (r : Nat) (x : RxRun) : (s.putEndpoint r x).closing = s.closing :=
    rfl
@[simp] theorem State.putEndpoint_xcache (s : State) (r : Nat) (x : RxRun) : (s.putEndpoint r x).xcache = s.xcache :=
    rfl
@[simp] theorem State.putEndpoint_invals (s : State) (r : Nat) (x : RxRun) : (s.putEndpoint r x).invals = s.invals :=
    rfl
@[simp] theorem State.putEndpoint_xorphans (s : State) (r : Nat) (x : RxRun) : (s.putEndpoint r x).xorphans = s.xorphans :=
    rfl
@[simp] theorem State.putEndpoint_prgs (s : State) (r : Nat) (x : RxRun) : (s.putEndpoint r x).prgs = s.prgs := rfl
@[simp] theorem State.putEndpoint_priAlloc (s : State) (r : Nat) (x : RxRun) : (s.putEndpoint r x).priAlloc = s.priAlloc :=
    rfl
@[simp] theorem State.putEndpoint_priFailure (s : State) (r : Nat) (x : RxRun) : (s.putEndpoint r x).priFailure = s.priFailure :=
    rfl
@[simp] theorem State.putEndpoint_ctagSeq (s : State) (r : Nat) (x : RxRun) : (s.putEndpoint r x).ctagSeq = s.ctagSeq :=
    rfl
@[simp] theorem State.putEndpoint_tables (s : State) (r : Nat) (x : RxRun) : (s.putEndpoint r x).tables = s.tables :=
    rfl
@[simp] theorem State.putEndpoint_compRetired (s : State) (r : Nat) (x : RxRun) : (s.putEndpoint r x).compRetired = s.compRetired :=
    rfl
@[simp] theorem State.putEndpoint_expRetired (s : State) (r : Nat) (x : RxRun) : (s.putEndpoint r x).expRetired = s.expRetired :=
    rfl
@[simp] theorem State.putEndpoint_draining (s : State) (r : Nat) (x : RxRun) : (s.putEndpoint r x).draining = s.draining :=
    rfl
@[simp] theorem State.putEndpoint_fabricHeld (s : State) (r : Nat) (x : RxRun) : (s.putEndpoint r x).fabricHeld = s.fabricHeld :=
    rfl
@[simp] theorem State.putEndpoint_ports (s : State) (r : Nat) (x : RxRun) : (s.putEndpoint r x).ports = s.ports := rfl
@[simp] theorem State.putEndpoint_msgSeq (s : State) (r : Nat) (x : RxRun) : (s.putEndpoint r x).msgSeq = s.msgSeq :=
    rfl
@[simp] theorem State.putEndpoint_credits (s : State) (r : Nat) (x : RxRun) : (s.putEndpoint r x).credits = s.credits :=
    rfl
@[simp] theorem State.putEndpoint_peers (s : State) (r : Nat) (x : RxRun) : (s.putEndpoint r x).peers = s.peers := rfl
@[simp] theorem State.putEndpoint_beatDue (s : State) (r : Nat) (x : RxRun) : (s.putEndpoint r x).beatDue = s.beatDue :=
    rfl
@[simp] theorem State.putEndpoint_sites (s : State) (r : Nat) (x : RxRun) : (s.putEndpoint r x).sites = s.sites := rfl
@[simp] theorem State.putEndpoint_evac (s : State) (r : Nat) (x : RxRun) : (s.putEndpoint r x).evac = s.evac := rfl
@[simp] theorem State.putEndpoint_arbs (s : State) (r : Nat) (x : RxRun) : (s.putEndpoint r x).arbs = s.arbs := rfl
@[simp] theorem State.putEndpoint_mq (s : State) (r : Nat) (x : RxRun) : (s.putEndpoint r x).mq = s.mq := rfl
@[simp] theorem State.putEndpoint_flash0 (s : State) (r : Nat) (x : RxRun) : (s.putEndpoint r x).flash0 = s.flash0 :=
    rfl
@[simp] theorem State.putEndpoint_flash1 (s : State) (r : Nat) (x : RxRun) : (s.putEndpoint r x).flash1 = s.flash1 :=
    rfl
@[simp] theorem State.putEndpoint_record (s : State) (r : Nat) (x : RxRun) : (s.putEndpoint r x).record = s.record :=
    rfl
@[simp] theorem State.putEndpoint_recordWrite (s : State) (r : Nat) (x : RxRun) : (s.putEndpoint r x).recordWrite = s.recordWrite :=
    rfl
@[simp] theorem State.putEndpoint_recordDirty (s : State) (r : Nat) (x : RxRun) : (s.putEndpoint r x).recordDirty = s.recordDirty :=
    rfl
@[simp] theorem State.putEndpoint_stackIds (s : State) (r : Nat) (x : RxRun) : (s.putEndpoint r x).stackIds = s.stackIds :=
    rfl
@[simp] theorem State.putEndpoint_power (s : State) (r : Nat) (x : RxRun) : (s.putEndpoint r x).power = s.power := rfl
@[simp] theorem State.putEndpoint_entering (s : State) (r : Nat) (x : RxRun) : (s.putEndpoint r x).entering = s.entering :=
    rfl
@[simp] theorem State.putEndpoint_waking (s : State) (r : Nat) (x : RxRun) : (s.putEndpoint r x).waking = s.waking :=
    rfl
@[simp] theorem State.putEndpoint_powerAt (s : State) (r : Nat) (x : RxRun) : (s.putEndpoint r x).powerAt = s.powerAt :=
    rfl
@[simp] theorem State.putEndpoint_wakeSeen (s : State) (r : Nat) (x : RxRun) : (s.putEndpoint r x).wakeSeen = s.wakeSeen :=
    rfl
@[simp] theorem State.putEndpoint_latchedWake (s : State) (r : Nat) (x : RxRun) : (s.putEndpoint r x).latchedWake = s.latchedWake :=
    rfl
@[simp] theorem State.putEndpoint_wakeBuf (s : State) (r : Nat) (x : RxRun) : (s.putEndpoint r x).wakeBuf = s.wakeBuf :=
    rfl
@[simp] theorem State.putEndpoint_powered (s : State) (r : Nat) (x : RxRun) : (s.putEndpoint r x).powered = s.powered :=
    rfl
@[simp] theorem State.putEndpoint_padWait (s : State) (r : Nat) (x : RxRun) : (s.putEndpoint r x).padWait = s.padWait :=
    rfl
@[simp] theorem State.putEndpoint_startup (s : State) (r : Nat) (x : RxRun) : (s.putEndpoint r x).startup = s.startup :=
    rfl
@[simp] theorem State.putEndpoint_coldStart (s : State) (r : Nat) (x : RxRun) : (s.putEndpoint r x).coldStart = s.coldStart :=
    rfl
@[simp] theorem State.putEndpoint_restoring (s : State) (r : Nat) (x : RxRun) : (s.putEndpoint r x).restoring = s.restoring :=
    rfl
@[simp] theorem State.putEndpoint_padExit (s : State) (r : Nat) (x : RxRun) : (s.putEndpoint r x).padExit = s.padExit :=
    rfl
@[simp] theorem State.putEndpoint_padAt (s : State) (r : Nat) (x : RxRun) : (s.putEndpoint r x).padAt = s.padAt := rfl
@[simp] theorem State.putEndpoint_checksAt (s : State) (r : Nat) (x : RxRun) : (s.putEndpoint r x).checksAt = s.checksAt :=
    rfl
@[simp] theorem State.putEndpoint_linkDown (s : State) (r : Nat) (x : RxRun) : (s.putEndpoint r x).linkDown = s.linkDown :=
    rfl
@[simp] theorem State.putEndpoint_linkDownCycles (s : State) (r : Nat) (x : RxRun) : (s.putEndpoint r x).linkDownCycles = s.linkDownCycles :=
    rfl
@[simp] theorem State.putEndpoint_idleCycles (s : State) (r : Nat) (x : RxRun) : (s.putEndpoint r x).idleCycles = s.idleCycles :=
    rfl
@[simp] theorem State.putEndpoint_pending (s : State) (r : Nat) (x : RxRun) : (s.putEndpoint r x).pending = s.pending :=
    rfl
@[simp] theorem State.reg_putEndpoint' (s : State) (r : Nat) (x : RxRun) (o : Nat) :
    (s.putEndpoint r x).reg o = s.reg o := rfl
@[simp] theorem State.fld_putEndpoint' (s : State) (r : Nat) (x : RxRun) (o lo2 n2 : Nat) :
    (s.putEndpoint r x).fld o lo2 n2 = s.fld o lo2 n2 := rfl
@[simp] theorem State.bit_putEndpoint' (s : State) (r : Nat) (x : RxRun) (o j : Nat) :
    (s.putEndpoint r x).bit o j = s.bit o j := rfl
@[simp] theorem State.reg64_putEndpoint' (s : State) (r : Nat) (x : RxRun) (o : Nat) :
    (s.putEndpoint r x).reg64 o = s.reg64 o := rfl
@[simp] theorem State.setNow_putEndpoint' (s : State) (r : Nat) (x : RxRun) (o : Nat) :
    (s.putEndpoint r x).setNow o = s.setNow o := rfl
@[simp] theorem State.gtc_putEndpoint' (s : State) (r : Nat) (x : RxRun) : (s.putEndpoint r x).gtc = s.gtc := rfl
@[simp] theorem State.node_putEndpoint' (s : State) (r : Nat) (x : RxRun) : (s.putEndpoint r x).node = s.node := rfl
@[simp] theorem State.flag_putEndpoint' (s : State) (r : Nat) (x : RxRun) (e2 : Nat) :
    (s.putEndpoint r x).flag e2 = s.flag e2 := rfl
@[simp] theorem State.readByte_putEndpoint' (s : State) (r : Nat) (x : RxRun) (x2 : Nat) :
    (s.putEndpoint r x).readByte x2 = s.readByte x2 := rfl
@[simp] theorem State.task_putEndpoint' (s : State) (r : Nat) (x : RxRun) (t2 : TaskRef) :
    (s.putEndpoint r x).task t2 = s.task t2 := rfl
@[simp] theorem State.sq_putEndpoint' (s : State) (r : Nat) (x : RxRun) (q2 : Nat) :
    (s.putEndpoint r x).sq q2 = s.sq q2 := rfl
@[simp] theorem State.cq_putEndpoint' (s : State) (r : Nat) (x : RxRun) (c2 : Nat) :
    (s.putEndpoint r x).cq c2 = s.cq c2 := rfl
@[simp] theorem State.port_putEndpoint' (s : State) (r : Nat) (x : RxRun) (p2 : Nat) :
    (s.putEndpoint r x).port p2 = s.port p2 := rfl
@[simp] theorem State.peer_putEndpoint' (s : State) (r : Nat) (x : RxRun) (n2 : Nat) :
    (s.putEndpoint r x).peer n2 = s.peer n2 := rfl
@[simp] theorem State.site_putEndpoint' (s : State) (r : Nat) (x : RxRun) (b2 : Nat) :
    (s.putEndpoint r x).site b2 = s.site b2 := rfl
@[simp] theorem State.arb_putEndpoint' (s : State) (r : Nat) (x : RxRun) (a2 : Nat) :
    (s.putEndpoint r x).arb a2 = s.arb a2 := rfl
@[simp] theorem State.stream_putEndpoint' (s : State) (r : Nat) (x : RxRun) (n2 : Nat) :
    (s.putEndpoint r x).stream n2 = s.stream n2 := rfl
@[simp] theorem State.apertureOwner_putEndpoint' (s : State) (r : Nat) (x : RxRun) (n2 : Nat) :
    (s.putEndpoint r x).apertureOwner n2 = s.apertureOwner n2 := rfl
@[simp] theorem State.below_putEndpoint' (s : State) (r : Nat) (x : RxRun) : (s.putEndpoint r x).below = s.below := rfl

/-! ### putPeer -/

@[simp] theorem State.putPeer_regs (s : State) (n : Nat) (x : PeerRun) : (s.putPeer n x).regs = s.regs := rfl
@[simp] theorem State.putPeer_staged (s : State) (n : Nat) (x : PeerRun) : (s.putPeer n x).staged = s.staged := rfl
@[simp] theorem State.putPeer_latched (s : State) (n : Nat) (x : PeerRun) : (s.putPeer n x).latched = s.latched := rfl
@[simp] theorem State.putPeer_drt (s : State) (n : Nat) (x : PeerRun) : (s.putPeer n x).drt = s.drt := rfl
@[simp] theorem State.putPeer_bar2Log2 (s : State) (n : Nat) (x : PeerRun) : (s.putPeer n x).bar2Log2 = s.bar2Log2 :=
    rfl
@[simp] theorem State.putPeer_mem (s : State) (n : Nat) (x : PeerRun) : (s.putPeer n x).mem = s.mem := rfl
@[simp] theorem State.putPeer_memGen (s : State) (n : Nat) (x : PeerRun) : (s.putPeer n x).memGen = s.memGen := rfl
@[simp] theorem State.putPeer_push (s : State) (n : Nat) (x : PeerRun) : (s.putPeer n x).push = s.push := rfl
@[simp] theorem State.putPeer_spPayload (s : State) (n : Nat) (x : PeerRun) : (s.putPeer n x).spPayload = s.spPayload :=
    rfl
@[simp] theorem State.putPeer_freeCtr (s : State) (n : Nat) (x : PeerRun) : (s.putPeer n x).freeCtr = s.freeCtr := rfl
@[simp] theorem State.putPeer_out (s : State) (n : Nat) (x : PeerRun) : (s.putPeer n x).out = s.out := rfl
@[simp] theorem State.putPeer_cycle (s : State) (n : Nat) (x : PeerRun) : (s.putPeer n x).cycle = s.cycle := rfl
@[simp] theorem State.putPeer_hostHeld (s : State) (n : Nat) (x : PeerRun) : (s.putPeer n x).hostHeld = s.hostHeld :=
    rfl
@[simp] theorem State.putPeer_linkUpAt (s : State) (n : Nat) (x : PeerRun) : (s.putPeer n x).linkUpAt = s.linkUpAt :=
    rfl
@[simp] theorem State.putPeer_now (s : State) (n : Nat) (x : PeerRun) : (s.putPeer n x).now = s.now := rfl
@[simp] theorem State.putPeer_later (s : State) (n : Nat) (x : PeerRun) : (s.putPeer n x).later = s.later := rfl
@[simp] theorem State.putPeer_halfCycle (s : State) (n : Nat) (x : PeerRun) : (s.putPeer n x).halfCycle = s.halfCycle :=
    rfl
@[simp] theorem State.putPeer_gtcHold (s : State) (n : Nat) (x : PeerRun) : (s.putPeer n x).gtcHold = s.gtcHold := rfl
@[simp] theorem State.putPeer_sqs (s : State) (n : Nat) (x : PeerRun) : (s.putPeer n x).sqs = s.sqs := rfl
@[simp] theorem State.putPeer_cqs (s : State) (n : Nat) (x : PeerRun) : (s.putPeer n x).cqs = s.cqs := rfl
@[simp] theorem State.putPeer_tasks (s : State) (n : Nat) (x : PeerRun) : (s.putPeer n x).tasks = s.tasks := rfl
@[simp] theorem State.putPeer_apertures (s : State) (n : Nat) (x : PeerRun) : (s.putPeer n x).apertures = s.apertures :=
    rfl
@[simp] theorem State.putPeer_apLoads (s : State) (n : Nat) (x : PeerRun) : (s.putPeer n x).apLoads = s.apLoads := rfl
@[simp] theorem State.putPeer_ds (s : State) (n : Nat) (x : PeerRun) : (s.putPeer n x).ds = s.ds := rfl
@[simp] theorem State.putPeer_barriers (s : State) (n : Nat) (x : PeerRun) : (s.putPeer n x).barriers = s.barriers :=
    rfl
@[simp] theorem State.putPeer_stepEnding (s : State) (n : Nat) (x : PeerRun) : (s.putPeer n x).stepEnding = s.stepEnding :=
    rfl
@[simp] theorem State.putPeer_stepEndSeen (s : State) (n : Nat) (x : PeerRun) : (s.putPeer n x).stepEndSeen = s.stepEndSeen :=
    rfl
@[simp] theorem State.putPeer_boundaryFresh (s : State) (n : Nat) (x : PeerRun) : (s.putPeer n x).boundaryFresh = s.boundaryFresh :=
    rfl
@[simp] theorem State.putPeer_holdLen (s : State) (n : Nat) (x : PeerRun) : (s.putPeer n x).holdLen = s.holdLen := rfl
@[simp] theorem State.putPeer_holdReported (s : State) (n : Nat) (x : PeerRun) : (s.putPeer n x).holdReported = s.holdReported :=
    rfl
@[simp] theorem State.putPeer_deferred (s : State) (n : Nat) (x : PeerRun) : (s.putPeer n x).deferred = s.deferred :=
    rfl
@[simp] theorem State.putPeer_holdClose (s : State) (n : Nat) (x : PeerRun) : (s.putPeer n x).holdClose = s.holdClose :=
    rfl
@[simp] theorem State.putPeer_closing (s : State) (n : Nat) (x : PeerRun) : (s.putPeer n x).closing = s.closing := rfl
@[simp] theorem State.putPeer_xcache (s : State) (n : Nat) (x : PeerRun) : (s.putPeer n x).xcache = s.xcache := rfl
@[simp] theorem State.putPeer_invals (s : State) (n : Nat) (x : PeerRun) : (s.putPeer n x).invals = s.invals := rfl
@[simp] theorem State.putPeer_xorphans (s : State) (n : Nat) (x : PeerRun) : (s.putPeer n x).xorphans = s.xorphans :=
    rfl
@[simp] theorem State.putPeer_prgs (s : State) (n : Nat) (x : PeerRun) : (s.putPeer n x).prgs = s.prgs := rfl
@[simp] theorem State.putPeer_priAlloc (s : State) (n : Nat) (x : PeerRun) : (s.putPeer n x).priAlloc = s.priAlloc :=
    rfl
@[simp] theorem State.putPeer_priFailure (s : State) (n : Nat) (x : PeerRun) : (s.putPeer n x).priFailure = s.priFailure :=
    rfl
@[simp] theorem State.putPeer_ctagSeq (s : State) (n : Nat) (x : PeerRun) : (s.putPeer n x).ctagSeq = s.ctagSeq := rfl
@[simp] theorem State.putPeer_tables (s : State) (n : Nat) (x : PeerRun) : (s.putPeer n x).tables = s.tables := rfl
@[simp] theorem State.putPeer_compRetired (s : State) (n : Nat) (x : PeerRun) : (s.putPeer n x).compRetired = s.compRetired :=
    rfl
@[simp] theorem State.putPeer_expRetired (s : State) (n : Nat) (x : PeerRun) : (s.putPeer n x).expRetired = s.expRetired :=
    rfl
@[simp] theorem State.putPeer_draining (s : State) (n : Nat) (x : PeerRun) : (s.putPeer n x).draining = s.draining :=
    rfl
@[simp] theorem State.putPeer_fabricHeld (s : State) (n : Nat) (x : PeerRun) : (s.putPeer n x).fabricHeld = s.fabricHeld :=
    rfl
@[simp] theorem State.putPeer_ports (s : State) (n : Nat) (x : PeerRun) : (s.putPeer n x).ports = s.ports := rfl
@[simp] theorem State.putPeer_msgSeq (s : State) (n : Nat) (x : PeerRun) : (s.putPeer n x).msgSeq = s.msgSeq := rfl
@[simp] theorem State.putPeer_credits (s : State) (n : Nat) (x : PeerRun) : (s.putPeer n x).credits = s.credits := rfl
@[simp] theorem State.putPeer_rx (s : State) (n : Nat) (x : PeerRun) : (s.putPeer n x).rx = s.rx := rfl
@[simp] theorem State.putPeer_beatDue (s : State) (n : Nat) (x : PeerRun) : (s.putPeer n x).beatDue = s.beatDue := rfl
@[simp] theorem State.putPeer_sites (s : State) (n : Nat) (x : PeerRun) : (s.putPeer n x).sites = s.sites := rfl
@[simp] theorem State.putPeer_evac (s : State) (n : Nat) (x : PeerRun) : (s.putPeer n x).evac = s.evac := rfl
@[simp] theorem State.putPeer_arbs (s : State) (n : Nat) (x : PeerRun) : (s.putPeer n x).arbs = s.arbs := rfl
@[simp] theorem State.putPeer_mq (s : State) (n : Nat) (x : PeerRun) : (s.putPeer n x).mq = s.mq := rfl
@[simp] theorem State.putPeer_flash0 (s : State) (n : Nat) (x : PeerRun) : (s.putPeer n x).flash0 = s.flash0 := rfl
@[simp] theorem State.putPeer_flash1 (s : State) (n : Nat) (x : PeerRun) : (s.putPeer n x).flash1 = s.flash1 := rfl
@[simp] theorem State.putPeer_record (s : State) (n : Nat) (x : PeerRun) : (s.putPeer n x).record = s.record := rfl
@[simp] theorem State.putPeer_recordWrite (s : State) (n : Nat) (x : PeerRun) : (s.putPeer n x).recordWrite = s.recordWrite :=
    rfl
@[simp] theorem State.putPeer_recordDirty (s : State) (n : Nat) (x : PeerRun) : (s.putPeer n x).recordDirty = s.recordDirty :=
    rfl
@[simp] theorem State.putPeer_stackIds (s : State) (n : Nat) (x : PeerRun) : (s.putPeer n x).stackIds = s.stackIds :=
    rfl
@[simp] theorem State.putPeer_power (s : State) (n : Nat) (x : PeerRun) : (s.putPeer n x).power = s.power := rfl
@[simp] theorem State.putPeer_entering (s : State) (n : Nat) (x : PeerRun) : (s.putPeer n x).entering = s.entering :=
    rfl
@[simp] theorem State.putPeer_waking (s : State) (n : Nat) (x : PeerRun) : (s.putPeer n x).waking = s.waking := rfl
@[simp] theorem State.putPeer_powerAt (s : State) (n : Nat) (x : PeerRun) : (s.putPeer n x).powerAt = s.powerAt := rfl
@[simp] theorem State.putPeer_wakeSeen (s : State) (n : Nat) (x : PeerRun) : (s.putPeer n x).wakeSeen = s.wakeSeen :=
    rfl
@[simp] theorem State.putPeer_latchedWake (s : State) (n : Nat) (x : PeerRun) : (s.putPeer n x).latchedWake = s.latchedWake :=
    rfl
@[simp] theorem State.putPeer_wakeBuf (s : State) (n : Nat) (x : PeerRun) : (s.putPeer n x).wakeBuf = s.wakeBuf := rfl
@[simp] theorem State.putPeer_powered (s : State) (n : Nat) (x : PeerRun) : (s.putPeer n x).powered = s.powered := rfl
@[simp] theorem State.putPeer_padWait (s : State) (n : Nat) (x : PeerRun) : (s.putPeer n x).padWait = s.padWait := rfl
@[simp] theorem State.putPeer_startup (s : State) (n : Nat) (x : PeerRun) : (s.putPeer n x).startup = s.startup := rfl
@[simp] theorem State.putPeer_coldStart (s : State) (n : Nat) (x : PeerRun) : (s.putPeer n x).coldStart = s.coldStart :=
    rfl
@[simp] theorem State.putPeer_restoring (s : State) (n : Nat) (x : PeerRun) : (s.putPeer n x).restoring = s.restoring :=
    rfl
@[simp] theorem State.putPeer_padExit (s : State) (n : Nat) (x : PeerRun) : (s.putPeer n x).padExit = s.padExit := rfl
@[simp] theorem State.putPeer_padAt (s : State) (n : Nat) (x : PeerRun) : (s.putPeer n x).padAt = s.padAt := rfl
@[simp] theorem State.putPeer_checksAt (s : State) (n : Nat) (x : PeerRun) : (s.putPeer n x).checksAt = s.checksAt :=
    rfl
@[simp] theorem State.putPeer_linkDown (s : State) (n : Nat) (x : PeerRun) : (s.putPeer n x).linkDown = s.linkDown :=
    rfl
@[simp] theorem State.putPeer_linkDownCycles (s : State) (n : Nat) (x : PeerRun) : (s.putPeer n x).linkDownCycles = s.linkDownCycles :=
    rfl
@[simp] theorem State.putPeer_idleCycles (s : State) (n : Nat) (x : PeerRun) : (s.putPeer n x).idleCycles = s.idleCycles :=
    rfl
@[simp] theorem State.putPeer_pending (s : State) (n : Nat) (x : PeerRun) : (s.putPeer n x).pending = s.pending := rfl
@[simp] theorem State.reg_putPeer' (s : State) (n : Nat) (x : PeerRun) (o : Nat) :
    (s.putPeer n x).reg o = s.reg o := rfl
@[simp] theorem State.fld_putPeer' (s : State) (n : Nat) (x : PeerRun) (o lo2 n2 : Nat) :
    (s.putPeer n x).fld o lo2 n2 = s.fld o lo2 n2 := rfl
@[simp] theorem State.bit_putPeer' (s : State) (n : Nat) (x : PeerRun) (o j : Nat) :
    (s.putPeer n x).bit o j = s.bit o j := rfl
@[simp] theorem State.reg64_putPeer' (s : State) (n : Nat) (x : PeerRun) (o : Nat) :
    (s.putPeer n x).reg64 o = s.reg64 o := rfl
@[simp] theorem State.setNow_putPeer' (s : State) (n : Nat) (x : PeerRun) (o : Nat) :
    (s.putPeer n x).setNow o = s.setNow o := rfl
@[simp] theorem State.gtc_putPeer' (s : State) (n : Nat) (x : PeerRun) : (s.putPeer n x).gtc = s.gtc := rfl
@[simp] theorem State.node_putPeer' (s : State) (n : Nat) (x : PeerRun) : (s.putPeer n x).node = s.node := rfl
@[simp] theorem State.flag_putPeer' (s : State) (n : Nat) (x : PeerRun) (e2 : Nat) :
    (s.putPeer n x).flag e2 = s.flag e2 := rfl
@[simp] theorem State.readByte_putPeer' (s : State) (n : Nat) (x : PeerRun) (x2 : Nat) :
    (s.putPeer n x).readByte x2 = s.readByte x2 := rfl
@[simp] theorem State.task_putPeer' (s : State) (n : Nat) (x : PeerRun) (t2 : TaskRef) :
    (s.putPeer n x).task t2 = s.task t2 := rfl
@[simp] theorem State.sq_putPeer' (s : State) (n : Nat) (x : PeerRun) (q2 : Nat) :
    (s.putPeer n x).sq q2 = s.sq q2 := rfl
@[simp] theorem State.cq_putPeer' (s : State) (n : Nat) (x : PeerRun) (c2 : Nat) :
    (s.putPeer n x).cq c2 = s.cq c2 := rfl
@[simp] theorem State.port_putPeer' (s : State) (n : Nat) (x : PeerRun) (p2 : Nat) :
    (s.putPeer n x).port p2 = s.port p2 := rfl
@[simp] theorem State.endpoint_putPeer' (s : State) (n : Nat) (x : PeerRun) (r2 : Nat) :
    (s.putPeer n x).endpoint r2 = s.endpoint r2 := rfl
@[simp] theorem State.site_putPeer' (s : State) (n : Nat) (x : PeerRun) (b2 : Nat) :
    (s.putPeer n x).site b2 = s.site b2 := rfl
@[simp] theorem State.arb_putPeer' (s : State) (n : Nat) (x : PeerRun) (a2 : Nat) :
    (s.putPeer n x).arb a2 = s.arb a2 := rfl
@[simp] theorem State.stream_putPeer' (s : State) (n : Nat) (x : PeerRun) (n2 : Nat) :
    (s.putPeer n x).stream n2 = s.stream n2 := rfl
@[simp] theorem State.apertureOwner_putPeer' (s : State) (n : Nat) (x : PeerRun) (n2 : Nat) :
    (s.putPeer n x).apertureOwner n2 = s.apertureOwner n2 := rfl
@[simp] theorem State.below_putPeer' (s : State) (n : Nat) (x : PeerRun) : (s.putPeer n x).below = s.below := rfl

/-! ### putSite -/

@[simp] theorem State.putSite_regs (s : State) (b : Nat) (x : SiteRun) : (s.putSite b x).regs = s.regs := rfl
@[simp] theorem State.putSite_staged (s : State) (b : Nat) (x : SiteRun) : (s.putSite b x).staged = s.staged := rfl
@[simp] theorem State.putSite_latched (s : State) (b : Nat) (x : SiteRun) : (s.putSite b x).latched = s.latched := rfl
@[simp] theorem State.putSite_drt (s : State) (b : Nat) (x : SiteRun) : (s.putSite b x).drt = s.drt := rfl
@[simp] theorem State.putSite_bar2Log2 (s : State) (b : Nat) (x : SiteRun) : (s.putSite b x).bar2Log2 = s.bar2Log2 :=
    rfl
@[simp] theorem State.putSite_mem (s : State) (b : Nat) (x : SiteRun) : (s.putSite b x).mem = s.mem := rfl
@[simp] theorem State.putSite_memGen (s : State) (b : Nat) (x : SiteRun) : (s.putSite b x).memGen = s.memGen := rfl
@[simp] theorem State.putSite_push (s : State) (b : Nat) (x : SiteRun) : (s.putSite b x).push = s.push := rfl
@[simp] theorem State.putSite_spPayload (s : State) (b : Nat) (x : SiteRun) : (s.putSite b x).spPayload = s.spPayload :=
    rfl
@[simp] theorem State.putSite_freeCtr (s : State) (b : Nat) (x : SiteRun) : (s.putSite b x).freeCtr = s.freeCtr := rfl
@[simp] theorem State.putSite_out (s : State) (b : Nat) (x : SiteRun) : (s.putSite b x).out = s.out := rfl
@[simp] theorem State.putSite_cycle (s : State) (b : Nat) (x : SiteRun) : (s.putSite b x).cycle = s.cycle := rfl
@[simp] theorem State.putSite_hostHeld (s : State) (b : Nat) (x : SiteRun) : (s.putSite b x).hostHeld = s.hostHeld :=
    rfl
@[simp] theorem State.putSite_linkUpAt (s : State) (b : Nat) (x : SiteRun) : (s.putSite b x).linkUpAt = s.linkUpAt :=
    rfl
@[simp] theorem State.putSite_now (s : State) (b : Nat) (x : SiteRun) : (s.putSite b x).now = s.now := rfl
@[simp] theorem State.putSite_later (s : State) (b : Nat) (x : SiteRun) : (s.putSite b x).later = s.later := rfl
@[simp] theorem State.putSite_halfCycle (s : State) (b : Nat) (x : SiteRun) : (s.putSite b x).halfCycle = s.halfCycle :=
    rfl
@[simp] theorem State.putSite_gtcHold (s : State) (b : Nat) (x : SiteRun) : (s.putSite b x).gtcHold = s.gtcHold := rfl
@[simp] theorem State.putSite_sqs (s : State) (b : Nat) (x : SiteRun) : (s.putSite b x).sqs = s.sqs := rfl
@[simp] theorem State.putSite_cqs (s : State) (b : Nat) (x : SiteRun) : (s.putSite b x).cqs = s.cqs := rfl
@[simp] theorem State.putSite_tasks (s : State) (b : Nat) (x : SiteRun) : (s.putSite b x).tasks = s.tasks := rfl
@[simp] theorem State.putSite_apertures (s : State) (b : Nat) (x : SiteRun) : (s.putSite b x).apertures = s.apertures :=
    rfl
@[simp] theorem State.putSite_apLoads (s : State) (b : Nat) (x : SiteRun) : (s.putSite b x).apLoads = s.apLoads := rfl
@[simp] theorem State.putSite_ds (s : State) (b : Nat) (x : SiteRun) : (s.putSite b x).ds = s.ds := rfl
@[simp] theorem State.putSite_barriers (s : State) (b : Nat) (x : SiteRun) : (s.putSite b x).barriers = s.barriers :=
    rfl
@[simp] theorem State.putSite_stepEnding (s : State) (b : Nat) (x : SiteRun) : (s.putSite b x).stepEnding = s.stepEnding :=
    rfl
@[simp] theorem State.putSite_stepEndSeen (s : State) (b : Nat) (x : SiteRun) : (s.putSite b x).stepEndSeen = s.stepEndSeen :=
    rfl
@[simp] theorem State.putSite_boundaryFresh (s : State) (b : Nat) (x : SiteRun) : (s.putSite b x).boundaryFresh = s.boundaryFresh :=
    rfl
@[simp] theorem State.putSite_holdLen (s : State) (b : Nat) (x : SiteRun) : (s.putSite b x).holdLen = s.holdLen := rfl
@[simp] theorem State.putSite_holdReported (s : State) (b : Nat) (x : SiteRun) : (s.putSite b x).holdReported = s.holdReported :=
    rfl
@[simp] theorem State.putSite_deferred (s : State) (b : Nat) (x : SiteRun) : (s.putSite b x).deferred = s.deferred :=
    rfl
@[simp] theorem State.putSite_holdClose (s : State) (b : Nat) (x : SiteRun) : (s.putSite b x).holdClose = s.holdClose :=
    rfl
@[simp] theorem State.putSite_closing (s : State) (b : Nat) (x : SiteRun) : (s.putSite b x).closing = s.closing := rfl
@[simp] theorem State.putSite_xcache (s : State) (b : Nat) (x : SiteRun) : (s.putSite b x).xcache = s.xcache := rfl
@[simp] theorem State.putSite_invals (s : State) (b : Nat) (x : SiteRun) : (s.putSite b x).invals = s.invals := rfl
@[simp] theorem State.putSite_xorphans (s : State) (b : Nat) (x : SiteRun) : (s.putSite b x).xorphans = s.xorphans :=
    rfl
@[simp] theorem State.putSite_prgs (s : State) (b : Nat) (x : SiteRun) : (s.putSite b x).prgs = s.prgs := rfl
@[simp] theorem State.putSite_priAlloc (s : State) (b : Nat) (x : SiteRun) : (s.putSite b x).priAlloc = s.priAlloc :=
    rfl
@[simp] theorem State.putSite_priFailure (s : State) (b : Nat) (x : SiteRun) : (s.putSite b x).priFailure = s.priFailure :=
    rfl
@[simp] theorem State.putSite_ctagSeq (s : State) (b : Nat) (x : SiteRun) : (s.putSite b x).ctagSeq = s.ctagSeq := rfl
@[simp] theorem State.putSite_tables (s : State) (b : Nat) (x : SiteRun) : (s.putSite b x).tables = s.tables := rfl
@[simp] theorem State.putSite_compRetired (s : State) (b : Nat) (x : SiteRun) : (s.putSite b x).compRetired = s.compRetired :=
    rfl
@[simp] theorem State.putSite_expRetired (s : State) (b : Nat) (x : SiteRun) : (s.putSite b x).expRetired = s.expRetired :=
    rfl
@[simp] theorem State.putSite_draining (s : State) (b : Nat) (x : SiteRun) : (s.putSite b x).draining = s.draining :=
    rfl
@[simp] theorem State.putSite_fabricHeld (s : State) (b : Nat) (x : SiteRun) : (s.putSite b x).fabricHeld = s.fabricHeld :=
    rfl
@[simp] theorem State.putSite_ports (s : State) (b : Nat) (x : SiteRun) : (s.putSite b x).ports = s.ports := rfl
@[simp] theorem State.putSite_msgSeq (s : State) (b : Nat) (x : SiteRun) : (s.putSite b x).msgSeq = s.msgSeq := rfl
@[simp] theorem State.putSite_credits (s : State) (b : Nat) (x : SiteRun) : (s.putSite b x).credits = s.credits := rfl
@[simp] theorem State.putSite_rx (s : State) (b : Nat) (x : SiteRun) : (s.putSite b x).rx = s.rx := rfl
@[simp] theorem State.putSite_peers (s : State) (b : Nat) (x : SiteRun) : (s.putSite b x).peers = s.peers := rfl
@[simp] theorem State.putSite_beatDue (s : State) (b : Nat) (x : SiteRun) : (s.putSite b x).beatDue = s.beatDue := rfl
@[simp] theorem State.putSite_evac (s : State) (b : Nat) (x : SiteRun) : (s.putSite b x).evac = s.evac := rfl
@[simp] theorem State.putSite_arbs (s : State) (b : Nat) (x : SiteRun) : (s.putSite b x).arbs = s.arbs := rfl
@[simp] theorem State.putSite_mq (s : State) (b : Nat) (x : SiteRun) : (s.putSite b x).mq = s.mq := rfl
@[simp] theorem State.putSite_flash0 (s : State) (b : Nat) (x : SiteRun) : (s.putSite b x).flash0 = s.flash0 := rfl
@[simp] theorem State.putSite_flash1 (s : State) (b : Nat) (x : SiteRun) : (s.putSite b x).flash1 = s.flash1 := rfl
@[simp] theorem State.putSite_record (s : State) (b : Nat) (x : SiteRun) : (s.putSite b x).record = s.record := rfl
@[simp] theorem State.putSite_recordWrite (s : State) (b : Nat) (x : SiteRun) : (s.putSite b x).recordWrite = s.recordWrite :=
    rfl
@[simp] theorem State.putSite_recordDirty (s : State) (b : Nat) (x : SiteRun) : (s.putSite b x).recordDirty = s.recordDirty :=
    rfl
@[simp] theorem State.putSite_stackIds (s : State) (b : Nat) (x : SiteRun) : (s.putSite b x).stackIds = s.stackIds :=
    rfl
@[simp] theorem State.putSite_power (s : State) (b : Nat) (x : SiteRun) : (s.putSite b x).power = s.power := rfl
@[simp] theorem State.putSite_entering (s : State) (b : Nat) (x : SiteRun) : (s.putSite b x).entering = s.entering :=
    rfl
@[simp] theorem State.putSite_waking (s : State) (b : Nat) (x : SiteRun) : (s.putSite b x).waking = s.waking := rfl
@[simp] theorem State.putSite_powerAt (s : State) (b : Nat) (x : SiteRun) : (s.putSite b x).powerAt = s.powerAt := rfl
@[simp] theorem State.putSite_wakeSeen (s : State) (b : Nat) (x : SiteRun) : (s.putSite b x).wakeSeen = s.wakeSeen :=
    rfl
@[simp] theorem State.putSite_latchedWake (s : State) (b : Nat) (x : SiteRun) : (s.putSite b x).latchedWake = s.latchedWake :=
    rfl
@[simp] theorem State.putSite_wakeBuf (s : State) (b : Nat) (x : SiteRun) : (s.putSite b x).wakeBuf = s.wakeBuf := rfl
@[simp] theorem State.putSite_powered (s : State) (b : Nat) (x : SiteRun) : (s.putSite b x).powered = s.powered := rfl
@[simp] theorem State.putSite_padWait (s : State) (b : Nat) (x : SiteRun) : (s.putSite b x).padWait = s.padWait := rfl
@[simp] theorem State.putSite_startup (s : State) (b : Nat) (x : SiteRun) : (s.putSite b x).startup = s.startup := rfl
@[simp] theorem State.putSite_coldStart (s : State) (b : Nat) (x : SiteRun) : (s.putSite b x).coldStart = s.coldStart :=
    rfl
@[simp] theorem State.putSite_restoring (s : State) (b : Nat) (x : SiteRun) : (s.putSite b x).restoring = s.restoring :=
    rfl
@[simp] theorem State.putSite_padExit (s : State) (b : Nat) (x : SiteRun) : (s.putSite b x).padExit = s.padExit := rfl
@[simp] theorem State.putSite_padAt (s : State) (b : Nat) (x : SiteRun) : (s.putSite b x).padAt = s.padAt := rfl
@[simp] theorem State.putSite_checksAt (s : State) (b : Nat) (x : SiteRun) : (s.putSite b x).checksAt = s.checksAt :=
    rfl
@[simp] theorem State.putSite_linkDown (s : State) (b : Nat) (x : SiteRun) : (s.putSite b x).linkDown = s.linkDown :=
    rfl
@[simp] theorem State.putSite_linkDownCycles (s : State) (b : Nat) (x : SiteRun) : (s.putSite b x).linkDownCycles = s.linkDownCycles :=
    rfl
@[simp] theorem State.putSite_idleCycles (s : State) (b : Nat) (x : SiteRun) : (s.putSite b x).idleCycles = s.idleCycles :=
    rfl
@[simp] theorem State.putSite_pending (s : State) (b : Nat) (x : SiteRun) : (s.putSite b x).pending = s.pending := rfl
@[simp] theorem State.reg_putSite' (s : State) (b : Nat) (x : SiteRun) (o : Nat) :
    (s.putSite b x).reg o = s.reg o := rfl
@[simp] theorem State.fld_putSite' (s : State) (b : Nat) (x : SiteRun) (o lo2 n2 : Nat) :
    (s.putSite b x).fld o lo2 n2 = s.fld o lo2 n2 := rfl
@[simp] theorem State.bit_putSite' (s : State) (b : Nat) (x : SiteRun) (o j : Nat) :
    (s.putSite b x).bit o j = s.bit o j := rfl
@[simp] theorem State.reg64_putSite' (s : State) (b : Nat) (x : SiteRun) (o : Nat) :
    (s.putSite b x).reg64 o = s.reg64 o := rfl
@[simp] theorem State.setNow_putSite' (s : State) (b : Nat) (x : SiteRun) (o : Nat) :
    (s.putSite b x).setNow o = s.setNow o := rfl
@[simp] theorem State.gtc_putSite' (s : State) (b : Nat) (x : SiteRun) : (s.putSite b x).gtc = s.gtc := rfl
@[simp] theorem State.node_putSite' (s : State) (b : Nat) (x : SiteRun) : (s.putSite b x).node = s.node := rfl
@[simp] theorem State.flag_putSite' (s : State) (b : Nat) (x : SiteRun) (e2 : Nat) :
    (s.putSite b x).flag e2 = s.flag e2 := rfl
@[simp] theorem State.readByte_putSite' (s : State) (b : Nat) (x : SiteRun) (x2 : Nat) :
    (s.putSite b x).readByte x2 = s.readByte x2 := rfl
@[simp] theorem State.task_putSite' (s : State) (b : Nat) (x : SiteRun) (t2 : TaskRef) :
    (s.putSite b x).task t2 = s.task t2 := rfl
@[simp] theorem State.sq_putSite' (s : State) (b : Nat) (x : SiteRun) (q2 : Nat) :
    (s.putSite b x).sq q2 = s.sq q2 := rfl
@[simp] theorem State.cq_putSite' (s : State) (b : Nat) (x : SiteRun) (c2 : Nat) :
    (s.putSite b x).cq c2 = s.cq c2 := rfl
@[simp] theorem State.port_putSite' (s : State) (b : Nat) (x : SiteRun) (p2 : Nat) :
    (s.putSite b x).port p2 = s.port p2 := rfl
@[simp] theorem State.endpoint_putSite' (s : State) (b : Nat) (x : SiteRun) (r2 : Nat) :
    (s.putSite b x).endpoint r2 = s.endpoint r2 := rfl
@[simp] theorem State.peer_putSite' (s : State) (b : Nat) (x : SiteRun) (n2 : Nat) :
    (s.putSite b x).peer n2 = s.peer n2 := rfl
@[simp] theorem State.arb_putSite' (s : State) (b : Nat) (x : SiteRun) (a2 : Nat) :
    (s.putSite b x).arb a2 = s.arb a2 := rfl
@[simp] theorem State.stream_putSite' (s : State) (b : Nat) (x : SiteRun) (n2 : Nat) :
    (s.putSite b x).stream n2 = s.stream n2 := rfl
@[simp] theorem State.apertureOwner_putSite' (s : State) (b : Nat) (x : SiteRun) (n2 : Nat) :
    (s.putSite b x).apertureOwner n2 = s.apertureOwner n2 := rfl
@[simp] theorem State.below_putSite' (s : State) (b : Nat) (x : SiteRun) : (s.putSite b x).below = s.below := rfl

/-! ### putArb -/

@[simp] theorem State.putArb_regs (s : State) (a : Nat) (x : ArbRun) : (s.putArb a x).regs = s.regs := rfl
@[simp] theorem State.putArb_staged (s : State) (a : Nat) (x : ArbRun) : (s.putArb a x).staged = s.staged := rfl
@[simp] theorem State.putArb_latched (s : State) (a : Nat) (x : ArbRun) : (s.putArb a x).latched = s.latched := rfl
@[simp] theorem State.putArb_drt (s : State) (a : Nat) (x : ArbRun) : (s.putArb a x).drt = s.drt := rfl
@[simp] theorem State.putArb_bar2Log2 (s : State) (a : Nat) (x : ArbRun) : (s.putArb a x).bar2Log2 = s.bar2Log2 := rfl
@[simp] theorem State.putArb_mem (s : State) (a : Nat) (x : ArbRun) : (s.putArb a x).mem = s.mem := rfl
@[simp] theorem State.putArb_memGen (s : State) (a : Nat) (x : ArbRun) : (s.putArb a x).memGen = s.memGen := rfl
@[simp] theorem State.putArb_push (s : State) (a : Nat) (x : ArbRun) : (s.putArb a x).push = s.push := rfl
@[simp] theorem State.putArb_spPayload (s : State) (a : Nat) (x : ArbRun) : (s.putArb a x).spPayload = s.spPayload :=
    rfl
@[simp] theorem State.putArb_freeCtr (s : State) (a : Nat) (x : ArbRun) : (s.putArb a x).freeCtr = s.freeCtr := rfl
@[simp] theorem State.putArb_out (s : State) (a : Nat) (x : ArbRun) : (s.putArb a x).out = s.out := rfl
@[simp] theorem State.putArb_cycle (s : State) (a : Nat) (x : ArbRun) : (s.putArb a x).cycle = s.cycle := rfl
@[simp] theorem State.putArb_hostHeld (s : State) (a : Nat) (x : ArbRun) : (s.putArb a x).hostHeld = s.hostHeld := rfl
@[simp] theorem State.putArb_linkUpAt (s : State) (a : Nat) (x : ArbRun) : (s.putArb a x).linkUpAt = s.linkUpAt := rfl
@[simp] theorem State.putArb_now (s : State) (a : Nat) (x : ArbRun) : (s.putArb a x).now = s.now := rfl
@[simp] theorem State.putArb_later (s : State) (a : Nat) (x : ArbRun) : (s.putArb a x).later = s.later := rfl
@[simp] theorem State.putArb_halfCycle (s : State) (a : Nat) (x : ArbRun) : (s.putArb a x).halfCycle = s.halfCycle :=
    rfl
@[simp] theorem State.putArb_gtcHold (s : State) (a : Nat) (x : ArbRun) : (s.putArb a x).gtcHold = s.gtcHold := rfl
@[simp] theorem State.putArb_sqs (s : State) (a : Nat) (x : ArbRun) : (s.putArb a x).sqs = s.sqs := rfl
@[simp] theorem State.putArb_cqs (s : State) (a : Nat) (x : ArbRun) : (s.putArb a x).cqs = s.cqs := rfl
@[simp] theorem State.putArb_tasks (s : State) (a : Nat) (x : ArbRun) : (s.putArb a x).tasks = s.tasks := rfl
@[simp] theorem State.putArb_apertures (s : State) (a : Nat) (x : ArbRun) : (s.putArb a x).apertures = s.apertures :=
    rfl
@[simp] theorem State.putArb_apLoads (s : State) (a : Nat) (x : ArbRun) : (s.putArb a x).apLoads = s.apLoads := rfl
@[simp] theorem State.putArb_ds (s : State) (a : Nat) (x : ArbRun) : (s.putArb a x).ds = s.ds := rfl
@[simp] theorem State.putArb_barriers (s : State) (a : Nat) (x : ArbRun) : (s.putArb a x).barriers = s.barriers := rfl
@[simp] theorem State.putArb_stepEnding (s : State) (a : Nat) (x : ArbRun) : (s.putArb a x).stepEnding = s.stepEnding :=
    rfl
@[simp] theorem State.putArb_stepEndSeen (s : State) (a : Nat) (x : ArbRun) : (s.putArb a x).stepEndSeen = s.stepEndSeen :=
    rfl
@[simp] theorem State.putArb_boundaryFresh (s : State) (a : Nat) (x : ArbRun) : (s.putArb a x).boundaryFresh = s.boundaryFresh :=
    rfl
@[simp] theorem State.putArb_holdLen (s : State) (a : Nat) (x : ArbRun) : (s.putArb a x).holdLen = s.holdLen := rfl
@[simp] theorem State.putArb_holdReported (s : State) (a : Nat) (x : ArbRun) : (s.putArb a x).holdReported = s.holdReported :=
    rfl
@[simp] theorem State.putArb_deferred (s : State) (a : Nat) (x : ArbRun) : (s.putArb a x).deferred = s.deferred := rfl
@[simp] theorem State.putArb_holdClose (s : State) (a : Nat) (x : ArbRun) : (s.putArb a x).holdClose = s.holdClose :=
    rfl
@[simp] theorem State.putArb_closing (s : State) (a : Nat) (x : ArbRun) : (s.putArb a x).closing = s.closing := rfl
@[simp] theorem State.putArb_xcache (s : State) (a : Nat) (x : ArbRun) : (s.putArb a x).xcache = s.xcache := rfl
@[simp] theorem State.putArb_invals (s : State) (a : Nat) (x : ArbRun) : (s.putArb a x).invals = s.invals := rfl
@[simp] theorem State.putArb_xorphans (s : State) (a : Nat) (x : ArbRun) : (s.putArb a x).xorphans = s.xorphans := rfl
@[simp] theorem State.putArb_prgs (s : State) (a : Nat) (x : ArbRun) : (s.putArb a x).prgs = s.prgs := rfl
@[simp] theorem State.putArb_priAlloc (s : State) (a : Nat) (x : ArbRun) : (s.putArb a x).priAlloc = s.priAlloc := rfl
@[simp] theorem State.putArb_priFailure (s : State) (a : Nat) (x : ArbRun) : (s.putArb a x).priFailure = s.priFailure :=
    rfl
@[simp] theorem State.putArb_ctagSeq (s : State) (a : Nat) (x : ArbRun) : (s.putArb a x).ctagSeq = s.ctagSeq := rfl
@[simp] theorem State.putArb_tables (s : State) (a : Nat) (x : ArbRun) : (s.putArb a x).tables = s.tables := rfl
@[simp] theorem State.putArb_compRetired (s : State) (a : Nat) (x : ArbRun) : (s.putArb a x).compRetired = s.compRetired :=
    rfl
@[simp] theorem State.putArb_expRetired (s : State) (a : Nat) (x : ArbRun) : (s.putArb a x).expRetired = s.expRetired :=
    rfl
@[simp] theorem State.putArb_draining (s : State) (a : Nat) (x : ArbRun) : (s.putArb a x).draining = s.draining := rfl
@[simp] theorem State.putArb_fabricHeld (s : State) (a : Nat) (x : ArbRun) : (s.putArb a x).fabricHeld = s.fabricHeld :=
    rfl
@[simp] theorem State.putArb_ports (s : State) (a : Nat) (x : ArbRun) : (s.putArb a x).ports = s.ports := rfl
@[simp] theorem State.putArb_msgSeq (s : State) (a : Nat) (x : ArbRun) : (s.putArb a x).msgSeq = s.msgSeq := rfl
@[simp] theorem State.putArb_credits (s : State) (a : Nat) (x : ArbRun) : (s.putArb a x).credits = s.credits := rfl
@[simp] theorem State.putArb_rx (s : State) (a : Nat) (x : ArbRun) : (s.putArb a x).rx = s.rx := rfl
@[simp] theorem State.putArb_peers (s : State) (a : Nat) (x : ArbRun) : (s.putArb a x).peers = s.peers := rfl
@[simp] theorem State.putArb_beatDue (s : State) (a : Nat) (x : ArbRun) : (s.putArb a x).beatDue = s.beatDue := rfl
@[simp] theorem State.putArb_sites (s : State) (a : Nat) (x : ArbRun) : (s.putArb a x).sites = s.sites := rfl
@[simp] theorem State.putArb_evac (s : State) (a : Nat) (x : ArbRun) : (s.putArb a x).evac = s.evac := rfl
@[simp] theorem State.putArb_mq (s : State) (a : Nat) (x : ArbRun) : (s.putArb a x).mq = s.mq := rfl
@[simp] theorem State.putArb_flash0 (s : State) (a : Nat) (x : ArbRun) : (s.putArb a x).flash0 = s.flash0 := rfl
@[simp] theorem State.putArb_flash1 (s : State) (a : Nat) (x : ArbRun) : (s.putArb a x).flash1 = s.flash1 := rfl
@[simp] theorem State.putArb_record (s : State) (a : Nat) (x : ArbRun) : (s.putArb a x).record = s.record := rfl
@[simp] theorem State.putArb_recordWrite (s : State) (a : Nat) (x : ArbRun) : (s.putArb a x).recordWrite = s.recordWrite :=
    rfl
@[simp] theorem State.putArb_recordDirty (s : State) (a : Nat) (x : ArbRun) : (s.putArb a x).recordDirty = s.recordDirty :=
    rfl
@[simp] theorem State.putArb_stackIds (s : State) (a : Nat) (x : ArbRun) : (s.putArb a x).stackIds = s.stackIds := rfl
@[simp] theorem State.putArb_power (s : State) (a : Nat) (x : ArbRun) : (s.putArb a x).power = s.power := rfl
@[simp] theorem State.putArb_entering (s : State) (a : Nat) (x : ArbRun) : (s.putArb a x).entering = s.entering := rfl
@[simp] theorem State.putArb_waking (s : State) (a : Nat) (x : ArbRun) : (s.putArb a x).waking = s.waking := rfl
@[simp] theorem State.putArb_powerAt (s : State) (a : Nat) (x : ArbRun) : (s.putArb a x).powerAt = s.powerAt := rfl
@[simp] theorem State.putArb_wakeSeen (s : State) (a : Nat) (x : ArbRun) : (s.putArb a x).wakeSeen = s.wakeSeen := rfl
@[simp] theorem State.putArb_latchedWake (s : State) (a : Nat) (x : ArbRun) : (s.putArb a x).latchedWake = s.latchedWake :=
    rfl
@[simp] theorem State.putArb_wakeBuf (s : State) (a : Nat) (x : ArbRun) : (s.putArb a x).wakeBuf = s.wakeBuf := rfl
@[simp] theorem State.putArb_powered (s : State) (a : Nat) (x : ArbRun) : (s.putArb a x).powered = s.powered := rfl
@[simp] theorem State.putArb_padWait (s : State) (a : Nat) (x : ArbRun) : (s.putArb a x).padWait = s.padWait := rfl
@[simp] theorem State.putArb_startup (s : State) (a : Nat) (x : ArbRun) : (s.putArb a x).startup = s.startup := rfl
@[simp] theorem State.putArb_coldStart (s : State) (a : Nat) (x : ArbRun) : (s.putArb a x).coldStart = s.coldStart :=
    rfl
@[simp] theorem State.putArb_restoring (s : State) (a : Nat) (x : ArbRun) : (s.putArb a x).restoring = s.restoring :=
    rfl
@[simp] theorem State.putArb_padExit (s : State) (a : Nat) (x : ArbRun) : (s.putArb a x).padExit = s.padExit := rfl
@[simp] theorem State.putArb_padAt (s : State) (a : Nat) (x : ArbRun) : (s.putArb a x).padAt = s.padAt := rfl
@[simp] theorem State.putArb_checksAt (s : State) (a : Nat) (x : ArbRun) : (s.putArb a x).checksAt = s.checksAt := rfl
@[simp] theorem State.putArb_linkDown (s : State) (a : Nat) (x : ArbRun) : (s.putArb a x).linkDown = s.linkDown := rfl
@[simp] theorem State.putArb_linkDownCycles (s : State) (a : Nat) (x : ArbRun) : (s.putArb a x).linkDownCycles = s.linkDownCycles :=
    rfl
@[simp] theorem State.putArb_idleCycles (s : State) (a : Nat) (x : ArbRun) : (s.putArb a x).idleCycles = s.idleCycles :=
    rfl
@[simp] theorem State.putArb_pending (s : State) (a : Nat) (x : ArbRun) : (s.putArb a x).pending = s.pending := rfl
@[simp] theorem State.reg_putArb' (s : State) (a : Nat) (x : ArbRun) (o : Nat) : (s.putArb a x).reg o = s.reg o := rfl
@[simp] theorem State.fld_putArb' (s : State) (a : Nat) (x : ArbRun) (o lo2 n2 : Nat) :
    (s.putArb a x).fld o lo2 n2 = s.fld o lo2 n2 := rfl
@[simp] theorem State.bit_putArb' (s : State) (a : Nat) (x : ArbRun) (o j : Nat) :
    (s.putArb a x).bit o j = s.bit o j := rfl
@[simp] theorem State.reg64_putArb' (s : State) (a : Nat) (x : ArbRun) (o : Nat) :
    (s.putArb a x).reg64 o = s.reg64 o := rfl
@[simp] theorem State.setNow_putArb' (s : State) (a : Nat) (x : ArbRun) (o : Nat) :
    (s.putArb a x).setNow o = s.setNow o := rfl
@[simp] theorem State.gtc_putArb' (s : State) (a : Nat) (x : ArbRun) : (s.putArb a x).gtc = s.gtc := rfl
@[simp] theorem State.node_putArb' (s : State) (a : Nat) (x : ArbRun) : (s.putArb a x).node = s.node := rfl
@[simp] theorem State.flag_putArb' (s : State) (a : Nat) (x : ArbRun) (e2 : Nat) :
    (s.putArb a x).flag e2 = s.flag e2 := rfl
@[simp] theorem State.readByte_putArb' (s : State) (a : Nat) (x : ArbRun) (x2 : Nat) :
    (s.putArb a x).readByte x2 = s.readByte x2 := rfl
@[simp] theorem State.task_putArb' (s : State) (a : Nat) (x : ArbRun) (t2 : TaskRef) :
    (s.putArb a x).task t2 = s.task t2 := rfl
@[simp] theorem State.sq_putArb' (s : State) (a : Nat) (x : ArbRun) (q2 : Nat) : (s.putArb a x).sq q2 = s.sq q2 := rfl
@[simp] theorem State.cq_putArb' (s : State) (a : Nat) (x : ArbRun) (c2 : Nat) : (s.putArb a x).cq c2 = s.cq c2 := rfl
@[simp] theorem State.port_putArb' (s : State) (a : Nat) (x : ArbRun) (p2 : Nat) :
    (s.putArb a x).port p2 = s.port p2 := rfl
@[simp] theorem State.endpoint_putArb' (s : State) (a : Nat) (x : ArbRun) (r2 : Nat) :
    (s.putArb a x).endpoint r2 = s.endpoint r2 := rfl
@[simp] theorem State.peer_putArb' (s : State) (a : Nat) (x : ArbRun) (n2 : Nat) :
    (s.putArb a x).peer n2 = s.peer n2 := rfl
@[simp] theorem State.site_putArb' (s : State) (a : Nat) (x : ArbRun) (b2 : Nat) :
    (s.putArb a x).site b2 = s.site b2 := rfl
@[simp] theorem State.stream_putArb' (s : State) (a : Nat) (x : ArbRun) (n2 : Nat) :
    (s.putArb a x).stream n2 = s.stream n2 := rfl
@[simp] theorem State.apertureOwner_putArb' (s : State) (a : Nat) (x : ArbRun) (n2 : Nat) :
    (s.putArb a x).apertureOwner n2 = s.apertureOwner n2 := rfl
@[simp] theorem State.below_putArb' (s : State) (a : Nat) (x : ArbRun) : (s.putArb a x).below = s.below := rfl

/-! ### putStream -/

@[simp] theorem State.putStream_regs (s : State) (n : Nat) (d : DsRun) : (s.putStream n d).regs = s.regs := rfl
@[simp] theorem State.putStream_staged (s : State) (n : Nat) (d : DsRun) : (s.putStream n d).staged = s.staged := rfl
@[simp] theorem State.putStream_latched (s : State) (n : Nat) (d : DsRun) : (s.putStream n d).latched = s.latched :=
    rfl
@[simp] theorem State.putStream_drt (s : State) (n : Nat) (d : DsRun) : (s.putStream n d).drt = s.drt := rfl
@[simp] theorem State.putStream_bar2Log2 (s : State) (n : Nat) (d : DsRun) : (s.putStream n d).bar2Log2 = s.bar2Log2 :=
    rfl
@[simp] theorem State.putStream_mem (s : State) (n : Nat) (d : DsRun) : (s.putStream n d).mem = s.mem := rfl
@[simp] theorem State.putStream_memGen (s : State) (n : Nat) (d : DsRun) : (s.putStream n d).memGen = s.memGen := rfl
@[simp] theorem State.putStream_push (s : State) (n : Nat) (d : DsRun) : (s.putStream n d).push = s.push := rfl
@[simp] theorem State.putStream_spPayload (s : State) (n : Nat) (d : DsRun) : (s.putStream n d).spPayload = s.spPayload :=
    rfl
@[simp] theorem State.putStream_freeCtr (s : State) (n : Nat) (d : DsRun) : (s.putStream n d).freeCtr = s.freeCtr :=
    rfl
@[simp] theorem State.putStream_out (s : State) (n : Nat) (d : DsRun) : (s.putStream n d).out = s.out := rfl
@[simp] theorem State.putStream_cycle (s : State) (n : Nat) (d : DsRun) : (s.putStream n d).cycle = s.cycle := rfl
@[simp] theorem State.putStream_hostHeld (s : State) (n : Nat) (d : DsRun) : (s.putStream n d).hostHeld = s.hostHeld :=
    rfl
@[simp] theorem State.putStream_linkUpAt (s : State) (n : Nat) (d : DsRun) : (s.putStream n d).linkUpAt = s.linkUpAt :=
    rfl
@[simp] theorem State.putStream_now (s : State) (n : Nat) (d : DsRun) : (s.putStream n d).now = s.now := rfl
@[simp] theorem State.putStream_later (s : State) (n : Nat) (d : DsRun) : (s.putStream n d).later = s.later := rfl
@[simp] theorem State.putStream_halfCycle (s : State) (n : Nat) (d : DsRun) : (s.putStream n d).halfCycle = s.halfCycle :=
    rfl
@[simp] theorem State.putStream_gtcHold (s : State) (n : Nat) (d : DsRun) : (s.putStream n d).gtcHold = s.gtcHold :=
    rfl
@[simp] theorem State.putStream_sqs (s : State) (n : Nat) (d : DsRun) : (s.putStream n d).sqs = s.sqs := rfl
@[simp] theorem State.putStream_cqs (s : State) (n : Nat) (d : DsRun) : (s.putStream n d).cqs = s.cqs := rfl
@[simp] theorem State.putStream_tasks (s : State) (n : Nat) (d : DsRun) : (s.putStream n d).tasks = s.tasks := rfl
@[simp] theorem State.putStream_apertures (s : State) (n : Nat) (d : DsRun) : (s.putStream n d).apertures = s.apertures :=
    rfl
@[simp] theorem State.putStream_apLoads (s : State) (n : Nat) (d : DsRun) : (s.putStream n d).apLoads = s.apLoads :=
    rfl
@[simp] theorem State.putStream_barriers (s : State) (n : Nat) (d : DsRun) : (s.putStream n d).barriers = s.barriers :=
    rfl
@[simp] theorem State.putStream_stepEnding (s : State) (n : Nat) (d : DsRun) : (s.putStream n d).stepEnding = s.stepEnding :=
    rfl
@[simp] theorem State.putStream_stepEndSeen (s : State) (n : Nat) (d : DsRun) : (s.putStream n d).stepEndSeen = s.stepEndSeen :=
    rfl
@[simp] theorem State.putStream_boundaryFresh (s : State) (n : Nat) (d : DsRun) : (s.putStream n d).boundaryFresh = s.boundaryFresh :=
    rfl
@[simp] theorem State.putStream_holdLen (s : State) (n : Nat) (d : DsRun) : (s.putStream n d).holdLen = s.holdLen :=
    rfl
@[simp] theorem State.putStream_holdReported (s : State) (n : Nat) (d : DsRun) : (s.putStream n d).holdReported = s.holdReported :=
    rfl
@[simp] theorem State.putStream_deferred (s : State) (n : Nat) (d : DsRun) : (s.putStream n d).deferred = s.deferred :=
    rfl
@[simp] theorem State.putStream_holdClose (s : State) (n : Nat) (d : DsRun) : (s.putStream n d).holdClose = s.holdClose :=
    rfl
@[simp] theorem State.putStream_closing (s : State) (n : Nat) (d : DsRun) : (s.putStream n d).closing = s.closing :=
    rfl
@[simp] theorem State.putStream_xcache (s : State) (n : Nat) (d : DsRun) : (s.putStream n d).xcache = s.xcache := rfl
@[simp] theorem State.putStream_invals (s : State) (n : Nat) (d : DsRun) : (s.putStream n d).invals = s.invals := rfl
@[simp] theorem State.putStream_xorphans (s : State) (n : Nat) (d : DsRun) : (s.putStream n d).xorphans = s.xorphans :=
    rfl
@[simp] theorem State.putStream_prgs (s : State) (n : Nat) (d : DsRun) : (s.putStream n d).prgs = s.prgs := rfl
@[simp] theorem State.putStream_priAlloc (s : State) (n : Nat) (d : DsRun) : (s.putStream n d).priAlloc = s.priAlloc :=
    rfl
@[simp] theorem State.putStream_priFailure (s : State) (n : Nat) (d : DsRun) : (s.putStream n d).priFailure = s.priFailure :=
    rfl
@[simp] theorem State.putStream_ctagSeq (s : State) (n : Nat) (d : DsRun) : (s.putStream n d).ctagSeq = s.ctagSeq :=
    rfl
@[simp] theorem State.putStream_tables (s : State) (n : Nat) (d : DsRun) : (s.putStream n d).tables = s.tables := rfl
@[simp] theorem State.putStream_compRetired (s : State) (n : Nat) (d : DsRun) : (s.putStream n d).compRetired = s.compRetired :=
    rfl
@[simp] theorem State.putStream_expRetired (s : State) (n : Nat) (d : DsRun) : (s.putStream n d).expRetired = s.expRetired :=
    rfl
@[simp] theorem State.putStream_draining (s : State) (n : Nat) (d : DsRun) : (s.putStream n d).draining = s.draining :=
    rfl
@[simp] theorem State.putStream_fabricHeld (s : State) (n : Nat) (d : DsRun) : (s.putStream n d).fabricHeld = s.fabricHeld :=
    rfl
@[simp] theorem State.putStream_ports (s : State) (n : Nat) (d : DsRun) : (s.putStream n d).ports = s.ports := rfl
@[simp] theorem State.putStream_msgSeq (s : State) (n : Nat) (d : DsRun) : (s.putStream n d).msgSeq = s.msgSeq := rfl
@[simp] theorem State.putStream_credits (s : State) (n : Nat) (d : DsRun) : (s.putStream n d).credits = s.credits :=
    rfl
@[simp] theorem State.putStream_rx (s : State) (n : Nat) (d : DsRun) : (s.putStream n d).rx = s.rx := rfl
@[simp] theorem State.putStream_peers (s : State) (n : Nat) (d : DsRun) : (s.putStream n d).peers = s.peers := rfl
@[simp] theorem State.putStream_beatDue (s : State) (n : Nat) (d : DsRun) : (s.putStream n d).beatDue = s.beatDue :=
    rfl
@[simp] theorem State.putStream_sites (s : State) (n : Nat) (d : DsRun) : (s.putStream n d).sites = s.sites := rfl
@[simp] theorem State.putStream_evac (s : State) (n : Nat) (d : DsRun) : (s.putStream n d).evac = s.evac := rfl
@[simp] theorem State.putStream_arbs (s : State) (n : Nat) (d : DsRun) : (s.putStream n d).arbs = s.arbs := rfl
@[simp] theorem State.putStream_mq (s : State) (n : Nat) (d : DsRun) : (s.putStream n d).mq = s.mq := rfl
@[simp] theorem State.putStream_flash0 (s : State) (n : Nat) (d : DsRun) : (s.putStream n d).flash0 = s.flash0 := rfl
@[simp] theorem State.putStream_flash1 (s : State) (n : Nat) (d : DsRun) : (s.putStream n d).flash1 = s.flash1 := rfl
@[simp] theorem State.putStream_record (s : State) (n : Nat) (d : DsRun) : (s.putStream n d).record = s.record := rfl
@[simp] theorem State.putStream_recordWrite (s : State) (n : Nat) (d : DsRun) : (s.putStream n d).recordWrite = s.recordWrite :=
    rfl
@[simp] theorem State.putStream_recordDirty (s : State) (n : Nat) (d : DsRun) : (s.putStream n d).recordDirty = s.recordDirty :=
    rfl
@[simp] theorem State.putStream_stackIds (s : State) (n : Nat) (d : DsRun) : (s.putStream n d).stackIds = s.stackIds :=
    rfl
@[simp] theorem State.putStream_power (s : State) (n : Nat) (d : DsRun) : (s.putStream n d).power = s.power := rfl
@[simp] theorem State.putStream_entering (s : State) (n : Nat) (d : DsRun) : (s.putStream n d).entering = s.entering :=
    rfl
@[simp] theorem State.putStream_waking (s : State) (n : Nat) (d : DsRun) : (s.putStream n d).waking = s.waking := rfl
@[simp] theorem State.putStream_powerAt (s : State) (n : Nat) (d : DsRun) : (s.putStream n d).powerAt = s.powerAt :=
    rfl
@[simp] theorem State.putStream_wakeSeen (s : State) (n : Nat) (d : DsRun) : (s.putStream n d).wakeSeen = s.wakeSeen :=
    rfl
@[simp] theorem State.putStream_latchedWake (s : State) (n : Nat) (d : DsRun) : (s.putStream n d).latchedWake = s.latchedWake :=
    rfl
@[simp] theorem State.putStream_wakeBuf (s : State) (n : Nat) (d : DsRun) : (s.putStream n d).wakeBuf = s.wakeBuf :=
    rfl
@[simp] theorem State.putStream_powered (s : State) (n : Nat) (d : DsRun) : (s.putStream n d).powered = s.powered :=
    rfl
@[simp] theorem State.putStream_padWait (s : State) (n : Nat) (d : DsRun) : (s.putStream n d).padWait = s.padWait :=
    rfl
@[simp] theorem State.putStream_startup (s : State) (n : Nat) (d : DsRun) : (s.putStream n d).startup = s.startup :=
    rfl
@[simp] theorem State.putStream_coldStart (s : State) (n : Nat) (d : DsRun) : (s.putStream n d).coldStart = s.coldStart :=
    rfl
@[simp] theorem State.putStream_restoring (s : State) (n : Nat) (d : DsRun) : (s.putStream n d).restoring = s.restoring :=
    rfl
@[simp] theorem State.putStream_padExit (s : State) (n : Nat) (d : DsRun) : (s.putStream n d).padExit = s.padExit :=
    rfl
@[simp] theorem State.putStream_padAt (s : State) (n : Nat) (d : DsRun) : (s.putStream n d).padAt = s.padAt := rfl
@[simp] theorem State.putStream_checksAt (s : State) (n : Nat) (d : DsRun) : (s.putStream n d).checksAt = s.checksAt :=
    rfl
@[simp] theorem State.putStream_linkDown (s : State) (n : Nat) (d : DsRun) : (s.putStream n d).linkDown = s.linkDown :=
    rfl
@[simp] theorem State.putStream_linkDownCycles (s : State) (n : Nat) (d : DsRun) : (s.putStream n d).linkDownCycles = s.linkDownCycles :=
    rfl
@[simp] theorem State.putStream_idleCycles (s : State) (n : Nat) (d : DsRun) : (s.putStream n d).idleCycles = s.idleCycles :=
    rfl
@[simp] theorem State.putStream_pending (s : State) (n : Nat) (d : DsRun) : (s.putStream n d).pending = s.pending :=
    rfl
@[simp] theorem State.reg_putStream' (s : State) (n : Nat) (d : DsRun) (o : Nat) :
    (s.putStream n d).reg o = s.reg o := rfl
@[simp] theorem State.fld_putStream' (s : State) (n : Nat) (d : DsRun) (o lo2 n2 : Nat) :
    (s.putStream n d).fld o lo2 n2 = s.fld o lo2 n2 := rfl
@[simp] theorem State.bit_putStream' (s : State) (n : Nat) (d : DsRun) (o j : Nat) :
    (s.putStream n d).bit o j = s.bit o j := rfl
@[simp] theorem State.reg64_putStream' (s : State) (n : Nat) (d : DsRun) (o : Nat) :
    (s.putStream n d).reg64 o = s.reg64 o := rfl
@[simp] theorem State.setNow_putStream' (s : State) (n : Nat) (d : DsRun) (o : Nat) :
    (s.putStream n d).setNow o = s.setNow o := rfl
@[simp] theorem State.gtc_putStream' (s : State) (n : Nat) (d : DsRun) : (s.putStream n d).gtc = s.gtc := rfl
@[simp] theorem State.node_putStream' (s : State) (n : Nat) (d : DsRun) : (s.putStream n d).node = s.node := rfl
@[simp] theorem State.flag_putStream' (s : State) (n : Nat) (d : DsRun) (e2 : Nat) :
    (s.putStream n d).flag e2 = s.flag e2 := rfl
@[simp] theorem State.readByte_putStream' (s : State) (n : Nat) (d : DsRun) (x2 : Nat) :
    (s.putStream n d).readByte x2 = s.readByte x2 := rfl
@[simp] theorem State.task_putStream' (s : State) (n : Nat) (d : DsRun) (t2 : TaskRef) :
    (s.putStream n d).task t2 = s.task t2 := rfl
@[simp] theorem State.sq_putStream' (s : State) (n : Nat) (d : DsRun) (q2 : Nat) :
    (s.putStream n d).sq q2 = s.sq q2 := rfl
@[simp] theorem State.cq_putStream' (s : State) (n : Nat) (d : DsRun) (c2 : Nat) :
    (s.putStream n d).cq c2 = s.cq c2 := rfl
@[simp] theorem State.port_putStream' (s : State) (n : Nat) (d : DsRun) (p2 : Nat) :
    (s.putStream n d).port p2 = s.port p2 := rfl
@[simp] theorem State.endpoint_putStream' (s : State) (n : Nat) (d : DsRun) (r2 : Nat) :
    (s.putStream n d).endpoint r2 = s.endpoint r2 := rfl
@[simp] theorem State.peer_putStream' (s : State) (n : Nat) (d : DsRun) (n2 : Nat) :
    (s.putStream n d).peer n2 = s.peer n2 := rfl
@[simp] theorem State.site_putStream' (s : State) (n : Nat) (d : DsRun) (b2 : Nat) :
    (s.putStream n d).site b2 = s.site b2 := rfl
@[simp] theorem State.arb_putStream' (s : State) (n : Nat) (d : DsRun) (a2 : Nat) :
    (s.putStream n d).arb a2 = s.arb a2 := rfl
@[simp] theorem State.apertureOwner_putStream' (s : State) (n : Nat) (d : DsRun) (n2 : Nat) :
    (s.putStream n d).apertureOwner n2 = s.apertureOwner n2 := rfl
@[simp] theorem State.below_putStream' (s : State) (n : Nat) (d : DsRun) : (s.putStream n d).below = s.below := rfl

/-! ### putAperture -/

@[simp] theorem State.putAperture_regs (s : State) (n : Nat) (t : Option TaskRef) : (s.putAperture n t).regs = s.regs :=
    rfl
@[simp] theorem State.putAperture_staged (s : State) (n : Nat) (t : Option TaskRef) : (s.putAperture n t).staged = s.staged :=
    rfl
@[simp] theorem State.putAperture_latched (s : State) (n : Nat) (t : Option TaskRef) : (s.putAperture n t).latched = s.latched :=
    rfl
@[simp] theorem State.putAperture_drt (s : State) (n : Nat) (t : Option TaskRef) : (s.putAperture n t).drt = s.drt :=
    rfl
@[simp] theorem State.putAperture_bar2Log2 (s : State) (n : Nat) (t : Option TaskRef) : (s.putAperture n t).bar2Log2 = s.bar2Log2 :=
    rfl
@[simp] theorem State.putAperture_mem (s : State) (n : Nat) (t : Option TaskRef) : (s.putAperture n t).mem = s.mem :=
    rfl
@[simp] theorem State.putAperture_memGen (s : State) (n : Nat) (t : Option TaskRef) : (s.putAperture n t).memGen = s.memGen :=
    rfl
@[simp] theorem State.putAperture_push (s : State) (n : Nat) (t : Option TaskRef) : (s.putAperture n t).push = s.push :=
    rfl
@[simp] theorem State.putAperture_spPayload (s : State) (n : Nat) (t : Option TaskRef) : (s.putAperture n t).spPayload = s.spPayload :=
    rfl
@[simp] theorem State.putAperture_freeCtr (s : State) (n : Nat) (t : Option TaskRef) : (s.putAperture n t).freeCtr = s.freeCtr :=
    rfl
@[simp] theorem State.putAperture_out (s : State) (n : Nat) (t : Option TaskRef) : (s.putAperture n t).out = s.out :=
    rfl
@[simp] theorem State.putAperture_cycle (s : State) (n : Nat) (t : Option TaskRef) : (s.putAperture n t).cycle = s.cycle :=
    rfl
@[simp] theorem State.putAperture_hostHeld (s : State) (n : Nat) (t : Option TaskRef) : (s.putAperture n t).hostHeld = s.hostHeld :=
    rfl
@[simp] theorem State.putAperture_linkUpAt (s : State) (n : Nat) (t : Option TaskRef) : (s.putAperture n t).linkUpAt = s.linkUpAt :=
    rfl
@[simp] theorem State.putAperture_now (s : State) (n : Nat) (t : Option TaskRef) : (s.putAperture n t).now = s.now :=
    rfl
@[simp] theorem State.putAperture_later (s : State) (n : Nat) (t : Option TaskRef) : (s.putAperture n t).later = s.later :=
    rfl
@[simp] theorem State.putAperture_halfCycle (s : State) (n : Nat) (t : Option TaskRef) : (s.putAperture n t).halfCycle = s.halfCycle :=
    rfl
@[simp] theorem State.putAperture_gtcHold (s : State) (n : Nat) (t : Option TaskRef) : (s.putAperture n t).gtcHold = s.gtcHold :=
    rfl
@[simp] theorem State.putAperture_sqs (s : State) (n : Nat) (t : Option TaskRef) : (s.putAperture n t).sqs = s.sqs :=
    rfl
@[simp] theorem State.putAperture_cqs (s : State) (n : Nat) (t : Option TaskRef) : (s.putAperture n t).cqs = s.cqs :=
    rfl
@[simp] theorem State.putAperture_tasks (s : State) (n : Nat) (t : Option TaskRef) : (s.putAperture n t).tasks = s.tasks :=
    rfl
@[simp] theorem State.putAperture_apLoads (s : State) (n : Nat) (t : Option TaskRef) : (s.putAperture n t).apLoads = s.apLoads :=
    rfl
@[simp] theorem State.putAperture_ds (s : State) (n : Nat) (t : Option TaskRef) : (s.putAperture n t).ds = s.ds := rfl
@[simp] theorem State.putAperture_barriers (s : State) (n : Nat) (t : Option TaskRef) : (s.putAperture n t).barriers = s.barriers :=
    rfl
@[simp] theorem State.putAperture_stepEnding (s : State) (n : Nat) (t : Option TaskRef) : (s.putAperture n t).stepEnding = s.stepEnding :=
    rfl
@[simp] theorem State.putAperture_stepEndSeen (s : State) (n : Nat) (t : Option TaskRef) : (s.putAperture n t).stepEndSeen = s.stepEndSeen :=
    rfl
@[simp] theorem State.putAperture_boundaryFresh (s : State) (n : Nat) (t : Option TaskRef) : (s.putAperture n t).boundaryFresh = s.boundaryFresh :=
    rfl
@[simp] theorem State.putAperture_holdLen (s : State) (n : Nat) (t : Option TaskRef) : (s.putAperture n t).holdLen = s.holdLen :=
    rfl
@[simp] theorem State.putAperture_holdReported (s : State) (n : Nat) (t : Option TaskRef) : (s.putAperture n t).holdReported = s.holdReported :=
    rfl
@[simp] theorem State.putAperture_deferred (s : State) (n : Nat) (t : Option TaskRef) : (s.putAperture n t).deferred = s.deferred :=
    rfl
@[simp] theorem State.putAperture_holdClose (s : State) (n : Nat) (t : Option TaskRef) : (s.putAperture n t).holdClose = s.holdClose :=
    rfl
@[simp] theorem State.putAperture_closing (s : State) (n : Nat) (t : Option TaskRef) : (s.putAperture n t).closing = s.closing :=
    rfl
@[simp] theorem State.putAperture_xcache (s : State) (n : Nat) (t : Option TaskRef) : (s.putAperture n t).xcache = s.xcache :=
    rfl
@[simp] theorem State.putAperture_invals (s : State) (n : Nat) (t : Option TaskRef) : (s.putAperture n t).invals = s.invals :=
    rfl
@[simp] theorem State.putAperture_xorphans (s : State) (n : Nat) (t : Option TaskRef) : (s.putAperture n t).xorphans = s.xorphans :=
    rfl
@[simp] theorem State.putAperture_prgs (s : State) (n : Nat) (t : Option TaskRef) : (s.putAperture n t).prgs = s.prgs :=
    rfl
@[simp] theorem State.putAperture_priAlloc (s : State) (n : Nat) (t : Option TaskRef) : (s.putAperture n t).priAlloc = s.priAlloc :=
    rfl
@[simp] theorem State.putAperture_priFailure (s : State) (n : Nat) (t : Option TaskRef) : (s.putAperture n t).priFailure = s.priFailure :=
    rfl
@[simp] theorem State.putAperture_ctagSeq (s : State) (n : Nat) (t : Option TaskRef) : (s.putAperture n t).ctagSeq = s.ctagSeq :=
    rfl
@[simp] theorem State.putAperture_tables (s : State) (n : Nat) (t : Option TaskRef) : (s.putAperture n t).tables = s.tables :=
    rfl
@[simp] theorem State.putAperture_compRetired (s : State) (n : Nat) (t : Option TaskRef) : (s.putAperture n t).compRetired = s.compRetired :=
    rfl
@[simp] theorem State.putAperture_expRetired (s : State) (n : Nat) (t : Option TaskRef) : (s.putAperture n t).expRetired = s.expRetired :=
    rfl
@[simp] theorem State.putAperture_draining (s : State) (n : Nat) (t : Option TaskRef) : (s.putAperture n t).draining = s.draining :=
    rfl
@[simp] theorem State.putAperture_fabricHeld (s : State) (n : Nat) (t : Option TaskRef) : (s.putAperture n t).fabricHeld = s.fabricHeld :=
    rfl
@[simp] theorem State.putAperture_ports (s : State) (n : Nat) (t : Option TaskRef) : (s.putAperture n t).ports = s.ports :=
    rfl
@[simp] theorem State.putAperture_msgSeq (s : State) (n : Nat) (t : Option TaskRef) : (s.putAperture n t).msgSeq = s.msgSeq :=
    rfl
@[simp] theorem State.putAperture_credits (s : State) (n : Nat) (t : Option TaskRef) : (s.putAperture n t).credits = s.credits :=
    rfl
@[simp] theorem State.putAperture_rx (s : State) (n : Nat) (t : Option TaskRef) : (s.putAperture n t).rx = s.rx := rfl
@[simp] theorem State.putAperture_peers (s : State) (n : Nat) (t : Option TaskRef) : (s.putAperture n t).peers = s.peers :=
    rfl
@[simp] theorem State.putAperture_beatDue (s : State) (n : Nat) (t : Option TaskRef) : (s.putAperture n t).beatDue = s.beatDue :=
    rfl
@[simp] theorem State.putAperture_sites (s : State) (n : Nat) (t : Option TaskRef) : (s.putAperture n t).sites = s.sites :=
    rfl
@[simp] theorem State.putAperture_evac (s : State) (n : Nat) (t : Option TaskRef) : (s.putAperture n t).evac = s.evac :=
    rfl
@[simp] theorem State.putAperture_arbs (s : State) (n : Nat) (t : Option TaskRef) : (s.putAperture n t).arbs = s.arbs :=
    rfl
@[simp] theorem State.putAperture_mq (s : State) (n : Nat) (t : Option TaskRef) : (s.putAperture n t).mq = s.mq := rfl
@[simp] theorem State.putAperture_flash0 (s : State) (n : Nat) (t : Option TaskRef) : (s.putAperture n t).flash0 = s.flash0 :=
    rfl
@[simp] theorem State.putAperture_flash1 (s : State) (n : Nat) (t : Option TaskRef) : (s.putAperture n t).flash1 = s.flash1 :=
    rfl
@[simp] theorem State.putAperture_record (s : State) (n : Nat) (t : Option TaskRef) : (s.putAperture n t).record = s.record :=
    rfl
@[simp] theorem State.putAperture_recordWrite (s : State) (n : Nat) (t : Option TaskRef) : (s.putAperture n t).recordWrite = s.recordWrite :=
    rfl
@[simp] theorem State.putAperture_recordDirty (s : State) (n : Nat) (t : Option TaskRef) : (s.putAperture n t).recordDirty = s.recordDirty :=
    rfl
@[simp] theorem State.putAperture_stackIds (s : State) (n : Nat) (t : Option TaskRef) : (s.putAperture n t).stackIds = s.stackIds :=
    rfl
@[simp] theorem State.putAperture_power (s : State) (n : Nat) (t : Option TaskRef) : (s.putAperture n t).power = s.power :=
    rfl
@[simp] theorem State.putAperture_entering (s : State) (n : Nat) (t : Option TaskRef) : (s.putAperture n t).entering = s.entering :=
    rfl
@[simp] theorem State.putAperture_waking (s : State) (n : Nat) (t : Option TaskRef) : (s.putAperture n t).waking = s.waking :=
    rfl
@[simp] theorem State.putAperture_powerAt (s : State) (n : Nat) (t : Option TaskRef) : (s.putAperture n t).powerAt = s.powerAt :=
    rfl
@[simp] theorem State.putAperture_wakeSeen (s : State) (n : Nat) (t : Option TaskRef) : (s.putAperture n t).wakeSeen = s.wakeSeen :=
    rfl
@[simp] theorem State.putAperture_latchedWake (s : State) (n : Nat) (t : Option TaskRef) : (s.putAperture n t).latchedWake = s.latchedWake :=
    rfl
@[simp] theorem State.putAperture_wakeBuf (s : State) (n : Nat) (t : Option TaskRef) : (s.putAperture n t).wakeBuf = s.wakeBuf :=
    rfl
@[simp] theorem State.putAperture_powered (s : State) (n : Nat) (t : Option TaskRef) : (s.putAperture n t).powered = s.powered :=
    rfl
@[simp] theorem State.putAperture_padWait (s : State) (n : Nat) (t : Option TaskRef) : (s.putAperture n t).padWait = s.padWait :=
    rfl
@[simp] theorem State.putAperture_startup (s : State) (n : Nat) (t : Option TaskRef) : (s.putAperture n t).startup = s.startup :=
    rfl
@[simp] theorem State.putAperture_coldStart (s : State) (n : Nat) (t : Option TaskRef) : (s.putAperture n t).coldStart = s.coldStart :=
    rfl
@[simp] theorem State.putAperture_restoring (s : State) (n : Nat) (t : Option TaskRef) : (s.putAperture n t).restoring = s.restoring :=
    rfl
@[simp] theorem State.putAperture_padExit (s : State) (n : Nat) (t : Option TaskRef) : (s.putAperture n t).padExit = s.padExit :=
    rfl
@[simp] theorem State.putAperture_padAt (s : State) (n : Nat) (t : Option TaskRef) : (s.putAperture n t).padAt = s.padAt :=
    rfl
@[simp] theorem State.putAperture_checksAt (s : State) (n : Nat) (t : Option TaskRef) : (s.putAperture n t).checksAt = s.checksAt :=
    rfl
@[simp] theorem State.putAperture_linkDown (s : State) (n : Nat) (t : Option TaskRef) : (s.putAperture n t).linkDown = s.linkDown :=
    rfl
@[simp] theorem State.putAperture_linkDownCycles (s : State) (n : Nat) (t : Option TaskRef) : (s.putAperture n t).linkDownCycles = s.linkDownCycles :=
    rfl
@[simp] theorem State.putAperture_idleCycles (s : State) (n : Nat) (t : Option TaskRef) : (s.putAperture n t).idleCycles = s.idleCycles :=
    rfl
@[simp] theorem State.putAperture_pending (s : State) (n : Nat) (t : Option TaskRef) : (s.putAperture n t).pending = s.pending :=
    rfl
@[simp] theorem State.reg_putAperture' (s : State) (n : Nat) (t : Option TaskRef) (o : Nat) :
    (s.putAperture n t).reg o = s.reg o := rfl
@[simp] theorem State.fld_putAperture' (s : State) (n : Nat) (t : Option TaskRef) (o lo2 n2 : Nat) :
    (s.putAperture n t).fld o lo2 n2 = s.fld o lo2 n2 := rfl
@[simp] theorem State.bit_putAperture' (s : State) (n : Nat) (t : Option TaskRef) (o j : Nat) :
    (s.putAperture n t).bit o j = s.bit o j := rfl
@[simp] theorem State.reg64_putAperture' (s : State) (n : Nat) (t : Option TaskRef) (o : Nat) :
    (s.putAperture n t).reg64 o = s.reg64 o := rfl
@[simp] theorem State.setNow_putAperture' (s : State) (n : Nat) (t : Option TaskRef) (o : Nat) :
    (s.putAperture n t).setNow o = s.setNow o := rfl
@[simp] theorem State.gtc_putAperture' (s : State) (n : Nat) (t : Option TaskRef) :
    (s.putAperture n t).gtc = s.gtc := rfl
@[simp] theorem State.node_putAperture' (s : State) (n : Nat) (t : Option TaskRef) :
    (s.putAperture n t).node = s.node := rfl
@[simp] theorem State.flag_putAperture' (s : State) (n : Nat) (t : Option TaskRef) (e2 : Nat) :
    (s.putAperture n t).flag e2 = s.flag e2 := rfl
@[simp] theorem State.readByte_putAperture' (s : State) (n : Nat) (t : Option TaskRef) (x2 : Nat) :
    (s.putAperture n t).readByte x2 = s.readByte x2 := rfl
@[simp] theorem State.task_putAperture' (s : State) (n : Nat) (t : Option TaskRef) (t2 : TaskRef) :
    (s.putAperture n t).task t2 = s.task t2 := rfl
@[simp] theorem State.sq_putAperture' (s : State) (n : Nat) (t : Option TaskRef) (q2 : Nat) :
    (s.putAperture n t).sq q2 = s.sq q2 := rfl
@[simp] theorem State.cq_putAperture' (s : State) (n : Nat) (t : Option TaskRef) (c2 : Nat) :
    (s.putAperture n t).cq c2 = s.cq c2 := rfl
@[simp] theorem State.port_putAperture' (s : State) (n : Nat) (t : Option TaskRef) (p2 : Nat) :
    (s.putAperture n t).port p2 = s.port p2 := rfl
@[simp] theorem State.endpoint_putAperture' (s : State) (n : Nat) (t : Option TaskRef) (r2 : Nat) :
    (s.putAperture n t).endpoint r2 = s.endpoint r2 := rfl
@[simp] theorem State.peer_putAperture' (s : State) (n : Nat) (t : Option TaskRef) (n2 : Nat) :
    (s.putAperture n t).peer n2 = s.peer n2 := rfl
@[simp] theorem State.site_putAperture' (s : State) (n : Nat) (t : Option TaskRef) (b2 : Nat) :
    (s.putAperture n t).site b2 = s.site b2 := rfl
@[simp] theorem State.arb_putAperture' (s : State) (n : Nat) (t : Option TaskRef) (a2 : Nat) :
    (s.putAperture n t).arb a2 = s.arb a2 := rfl
@[simp] theorem State.stream_putAperture' (s : State) (n : Nat) (t : Option TaskRef) (n2 : Nat) :
    (s.putAperture n t).stream n2 = s.stream n2 := rfl
@[simp] theorem State.below_putAperture' (s : State) (n : Nat) (t : Option TaskRef) :
    (s.putAperture n t).below = s.below := rfl

end Sys2Proof.Machine
end

