-- ==== Sys2Proof/Laws/Keeps.lean ====
section
/-!
SUPPORT. What every effect of a command keeps of the state before it, as one relation: the files Laws/Keeps*.lean say of
each shared operation and each meaning, in one lemma, that it keeps it.
-/
namespace Sys2Proof.Machine

open Sys2Proof

/-- What a part of a command's effect keeps of the state before it. Always: what waits, the cycles counted, what has left
the block, and the canonical form of memory and register file. With `m`, all of memory; with `f`, the region table, the
copies of the repair record in flash, the power state and the power. -/
structure KeepsF (f m : Bool) (s : State) (pending : List Instr) (cycle : Nat) (out : List Out) (mem : SMap Byte)
    (memGen : Nat) (regs : SMap Word) (drt : SMap DrtEntry) (flash0 flash1 : Option RepairRecord) (power : PState) (powered : Bool) :
    Prop where
  pendingEq : pending = s.pending
  cycleEq : cycle = s.cycle
  outGrows : s.out <:+ out
  memWf : Memory.wf s.memGen s.mem = true → Memory.wf memGen mem = true
  regsWf : Registers.wf s.regs = true → Registers.wf regs = true
  memEq : m = true → mem = s.mem
  memGenEq : m = true → memGen = s.memGen
  drtEq : f = true → drt = s.drt
  flash0Eq : f = true → flash0 = s.flash0
  flash1Eq : f = true → flash1 = s.flash1
  powerEq : f = true → power = s.power
  poweredEq : f = true → powered = s.powered

/-- The state after against the state before. -/
def Keeps (f m : Bool) (s t : State) : Prop :=
  KeepsF f m s t.pending t.cycle t.out t.mem t.memGen t.regs t.drt t.flash0 t.flash1 t.power t.powered

theorem Keeps.toF {f m : Bool} {s u : State} (h : Keeps f m s u) :
    KeepsF f m s u.pending u.cycle u.out u.mem u.memGen u.regs u.drt u.flash0 u.flash1 u.power u.powered :=
  h

theorem Keeps.self (f m : Bool) (s : State) : Keeps f m s s :=
  ⟨rfl, rfl, List.suffix_refl _, id, id, fun _ => rfl, fun _ => rfl, fun _ => rfl, fun _ => rfl, fun _ => rfl, fun _ => rfl, fun _ => rfl⟩

/-- A change of memory that keeps its canonical form. -/
theorem Keeps.putMem {f : Bool} {s u : State} {mem : SMap Byte} {g : Nat} (h : Keeps f false s u)
    (hm : Memory.wf u.memGen u.mem = true → Memory.wf g mem = true) :
    KeepsF f false s u.pending u.cycle u.out mem g u.regs u.drt u.flash0 u.flash1 u.power u.powered :=
  { h.toF with memWf := fun w => hm (h.memWf w), memEq := fun w => absurd w Bool.false_ne_true,
               memGenEq := fun w => absurd w Bool.false_ne_true }

theorem Keeps.foldl {f m : Bool} {α : Type} {s : State} {g : State → α → State} (l : List α)
    (hg : ∀ u x, Keeps f m s u → Keeps f m s (g u x)) {u : State} (h : Keeps f m s u) : Keeps f m s (l.foldl g u) := by
  induction l generalizing u with
  | nil => exact h
  | cons x t ih => exact ih (hg u x h)

/-- The same over a state paired with more. -/
theorem Keeps.foldlFst {f m : Bool} {α β : Type} {s : State} {g : State × β → α → State × β} (l : List α)
    (hg : ∀ acc x, Keeps f m s acc.1 → Keeps f m s (g acc x).1) {p : State × β} (h : Keeps f m s p.1) :
    Keeps f m s (l.foldl g p).1 := by
  induction l generalizing p with
  | nil => exact h
  | cons x t ih => exact ih (hg p x h)

theorem Keeps.foldlSnd {f m : Bool} {α β : Type} {s : State} {g : β × State → α → β × State} (l : List α)
    (hg : ∀ acc x, Keeps f m s acc.2 → Keeps f m s (g acc x).2) {p : β × State} (h : Keeps f m s p.2) :
    Keeps f m s (l.foldl g p).2 := by
  induction l generalizing p with
  | nil => exact h
  | cons x t ih => exact ih (hg p x h)

/-- A state formed anew that keeps what every command keeps. -/
theorem Keeps.anew {s u t : State} (h : Keeps false false s u) (h1 : t.pending = u.pending) (h2 : t.cycle = u.cycle)
    (h3 : u.out <:+ t.out) (h4 : Memory.wf u.memGen u.mem = true → Memory.wf t.memGen t.mem = true)
    (h5 : Registers.wf u.regs = true → Registers.wf t.regs = true) : Keeps false false s t :=
  have no : ∀ {a : Prop}, false = true → a := fun w => absurd w Bool.false_ne_true
  ⟨h1.trans h.pendingEq, h2.trans h.cycleEq, h.outGrows.trans h3, fun w => h4 (h.memWf w), fun w => h5 (h.regsWf w), no, no, no,
    no, no, no, no⟩

/-- The same with memory untouched. -/
theorem Keeps.anewTables {m : Bool} {s u t : State} (h : Keeps false m s u) (h1 : t.pending = u.pending)
    (h2 : t.cycle = u.cycle) (h3 : t.out = u.out) (h4 : t.mem = u.mem) (h6 : t.memGen = u.memGen) (h5 : t.regs = u.regs) :
    Keeps false m s t :=
  have no : ∀ {a : Prop}, false = true → a := fun w => absurd w Bool.false_ne_true
  ⟨h1.trans h.pendingEq, h2.trans h.cycleEq, h3 ▸ h.outGrows, fun w => h4 ▸ h6 ▸ h.memWf w, fun w => h5 ▸ h.regsWf w,
    fun w => h4.trans (h.memEq w), fun w => h6.trans (h.memGenEq w), no, no, no, no, no⟩

/-- The relation at a state written out field by field. -/
theorem Keeps.lit {f m : Bool} {s : State}
    {regs : SMap Word} {staged : SMap (Option Word)} {latched : SMap (Option Word)} {drt : SMap DrtEntry}
    {bar2Log2 : Nat} {mem : SMap Byte} {memGen : Nat} {push : SMap Byte} {spPayload : SMap Byte} {freeCtr : Nat}
    {out : List Out} {cycle : Nat} {hostHeld : List Out} {linkUpAt : Nat} {now : CycleRun} {later : Later}
    {halfCycle : Bool} {gtcHold : Nat} {sqs : SMap SqRun} {cqs : SMap CqRun} {tasks : List Task}
    {apertures : SMap (Option TaskRef)} {apLoads : List ApLoad} {ds : SMap (Option DsRun)} {barriers : List Nat}
    {stepEnding : Bool} {stepEndSeen : Bool} {boundaryFresh : Bool} {holdLen : Nat} {holdReported : Bool}
    {deferred : List Deferred} {holdClose : Option Word} {closing : Option (TaskRef × Bool)}
    {xcache : List CacheEntry} {invals : List Inval} {xorphans : List (TaskRef × Nat)} {prgs : List PrgRun}
    {priAlloc : Nat} {priFailure : Bool} {ctagSeq : SMap Nat} {tables : SMap (List Nat)} {compRetired : List Nat}
    {expRetired : List Nat} {draining : List Nat} {fabricHeld : List Out} {ports : SMap SendPort} {msgSeq : SMap Word}
    {credits : List CreditPair} {rx : SMap RxRun} {peers : SMap PeerRun} {beatDue : Nat} {sites : SMap SiteRun}
    {evac : Option EvacRun} {arbs : SMap ArbRun} {mq : MqRun} {flash0 : Option RepairRecord}
    {flash1 : Option RepairRecord} {record : RepairRecord} {recordWrite : Option RepairRecord} {recordDirty : Bool}
    {stackIds : List (List Byte)} {power : PState} {entering : Option PState} {waking : Option PState} {powerAt : Nat}
    {wakeSeen : Nat} {latchedWake : Option LatchedWake} {wakeBuf : List HeldAccess} {powered : Bool}
    {padWait : List HeldAccess} {startup : Startup} {coldStart : Bool} {restoring : Bool} {padExit : Bool}
    {padAt : Nat} {checksAt : Nat} {linkDown : Bool} {linkDownCycles : Nat} {idleCycles : Nat} {pending : List Instr} :
    Keeps f m s ⟨regs, staged, latched, drt, bar2Log2, mem, memGen, push, spPayload, freeCtr, out, cycle, hostHeld, linkUpAt,
      now, later, halfCycle, gtcHold, sqs, cqs, tasks, apertures, apLoads, ds, barriers, stepEnding, stepEndSeen,
      boundaryFresh, holdLen, holdReported, deferred, holdClose, closing, xcache, invals, xorphans, prgs, priAlloc,
      priFailure, ctagSeq, tables, compRetired, expRetired, draining, fabricHeld, ports, msgSeq, credits, rx,
      peers, beatDue, sites, evac, arbs, mq, flash0, flash1, record, recordWrite, recordDirty, stackIds, power,
      entering, waking, powerAt, wakeSeen, latchedWake, wakeBuf, powered, padWait, startup, coldStart, restoring,
      padExit, padAt, checksAt, linkDown, linkDownCycles, idleCycles, pending⟩ =
      KeepsF f m s pending cycle out mem memGen regs drt flash0 flash1 power powered :=
  rfl

end Sys2Proof.Machine
end

