-- ==== Sys2Proof/Laws/KeepsAccess.lean ====
section
/-!
SUPPORT. What each operation keeps (Laws/Keeps.lean): the shared operations and the memory accesses that no task makes.
-/
namespace Sys2Proof.Machine

open Sys2Proof

theorem State.setReg_keeps (off : ℕ) (v : Word) {f m : Bool} {s u : State} (h : Keeps f m s u) :
    Keeps f m s (State.setReg u off v) :=
  { h.toF with regsWf := fun w => swf_sset _ _ _ _ (h.regsWf w) }

theorem State.setFld_keeps (off : ℕ) (lo : ℕ) (n : ℕ) (v : ℕ) {f m : Bool} {s u : State} (h : Keeps f m s u) :
    Keeps f m s (State.setFld u off lo n v) := by
  unfold State.setFld
  repeat' first
    | with_reducible assumption
    | with_reducible apply State.setReg_keeps

theorem State.putSq_keeps (q : ℕ) (r : SqRun) {f m : Bool} {s u : State} (h : Keeps f m s u) :
    Keeps f m s (State.putSq u q r) := by
  unfold State.putSq
  repeat' first
    | with_reducible assumption
    | with_reducible apply Keeps.foldl
    | with_reducible apply Keeps.toF
    | intro _
    | split
    | dsimp only
    | simp only [Keeps.lit]

theorem State.putTask_keeps (t : Task) {f m : Bool} {s u : State} (h : Keeps f m s u) :
    Keeps f m s (State.putTask u t) := by
  unfold State.putTask
  repeat' first
    | with_reducible assumption
    | with_reducible apply Keeps.foldl
    | with_reducible apply Keeps.toF
    | intro _
    | split
    | dsimp only
    | simp only [Keeps.lit]

theorem State.putStream_keeps (n : ℕ) (d : DsRun) {f m : Bool} {s u : State} (h : Keeps f m s u) :
    Keeps f m s (State.putStream u n d) := by
  unfold State.putStream
  repeat' first
    | with_reducible assumption
    | with_reducible apply Keeps.foldl
    | with_reducible apply Keeps.toF
    | intro _
    | split
    | dsimp only
    | simp only [Keeps.lit]

theorem State.setBit_keeps (off : ℕ) (i : ℕ) (b : Bool) {f m : Bool} {s u : State} (h : Keeps f m s u) :
    Keeps f m s (State.setBit u off i b) := by
  unfold State.setBit
  repeat' first
    | with_reducible assumption
    | with_reducible apply State.setFld_keeps

theorem State.bump_keeps (off : ℕ) (n : ℕ) {f m : Bool} {s u : State} (h : Keeps f m s u) :
    Keeps f m s (State.bump u off n) := by
  unfold State.bump
  repeat' first
    | with_reducible assumption
    | with_reducible apply State.setReg_keeps
    | with_reducible apply Keeps.foldl
    | with_reducible apply Keeps.toF
    | intro _
    | split
    | dsimp only
    | simp only [Keeps.lit]

theorem State.putAperture_keeps (n : ℕ) (t : Option TaskRef) {f m : Bool} {s u : State} (h : Keeps f m s u) :
    Keeps f m s (State.putAperture u n t) := by
  unfold State.putAperture
  repeat' first
    | with_reducible assumption
    | with_reducible apply Keeps.foldl
    | with_reducible apply Keeps.toF
    | intro _
    | split
    | dsimp only
    | simp only [Keeps.lit]

theorem State.stepFree_keeps {f m : Bool} {s u : State} (h : Keeps f m s u) : Keeps f m s (State.stepFree u) := by
  unfold State.stepFree
  repeat' first
    | with_reducible assumption
    | with_reducible apply Keeps.foldl
    | with_reducible apply Keeps.toF
    | intro _
    | split
    | dsimp only
    | simp only [Keeps.lit]

theorem State.writeCells_keeps (cs : List WCell) {f : Bool} {s u : State} (h : Keeps f false s u) :
    Keeps f false s (State.writeCells u cs) :=
  h.putMem (memPutCells_wf _ _ _)

theorem State.freeBits_keeps (cs : List (ℕ × Byte)) {f : Bool} {s u : State} (h : Keeps f false s u) :
    Keeps f false s (State.freeBits u cs) := by
  unfold State.freeBits
  repeat' first
    | with_reducible assumption
    | with_reducible apply State.stepFree_keeps
    | with_reducible apply State.writeCells_keeps

theorem State.setReg64_keeps (off : ℕ) (v : ℕ) {f m : Bool} {s u : State} (h : Keeps f m s u) :
    Keeps f m s (State.setReg64 u off v) := by
  unfold State.setReg64
  repeat' first
    | with_reducible assumption
    | with_reducible apply State.setReg_keeps

theorem State.bump64_keeps (off : ℕ) (n : ℕ) {f m : Bool} {s u : State} (h : Keeps f m s u) :
    Keeps f m s (State.bump64 u off n) := by
  unfold State.bump64
  repeat' first
    | with_reducible assumption
    | with_reducible apply State.setReg64_keeps

theorem State.wrapAdd_keeps (off : ℕ) (n : ℕ) {f m : Bool} {s u : State} (h : Keeps f m s u) :
    Keeps f m s (State.wrapAdd u off n) := by
  unfold State.wrapAdd
  repeat' first
    | with_reducible assumption
    | with_reducible apply State.setReg_keeps

theorem State.modTask_keeps (t : TaskRef) (f0 : Task → Task) {f m : Bool} {s u : State} (h : Keeps f m s u) :
    Keeps f m s (State.modTask u t f0) := by
  unfold State.modTask
  repeat' first
    | with_reducible assumption
    | with_reducible apply Keeps.foldl
    | with_reducible apply Keeps.toF
    | intro _
    | split
    | dsimp only
    | simp only [Keeps.lit]

theorem State.emit_keeps (o : Out) {f m : Bool} {s u : State} (h : Keeps f m s u) : Keeps f m s (State.emit u o) := by
  unfold State.emit
  split
  · exact h
  · exact { h.toF with outGrows := h.outGrows.trans (List.suffix_cons _ _) }

theorem State.notePort_keeps (o : Out) (p : ℕ) {f m : Bool} {s u : State} (h : Keeps f m s u) :
    Keeps f m s (State.notePort u o p) := by
  unfold State.notePort
  repeat' first
    | with_reducible assumption
    | with_reducible apply Keeps.foldl
    | with_reducible apply Keeps.toF
    | intro _
    | split
    | dsimp only
    | simp only [Keeps.lit]

theorem State.placeOut_keeps (o : Out) {f m : Bool} {s u : State} (h : Keeps f m s u) :
    Keeps f m s (State.placeOut u o) := by
  unfold State.placeOut
  repeat' first
    | with_reducible assumption
    | with_reducible apply State.emit_keeps
    | with_reducible apply State.notePort_keeps
    | with_reducible apply Keeps.foldl
    | with_reducible apply Keeps.toF
    | intro _
    | split
    | dsimp only
    | simp only [Keeps.lit]

theorem State.answerTo_keeps (node : ℕ) (o : Out) {f m : Bool} {s u : State} (h : Keeps f m s u) :
    Keeps f m s (State.answerTo u node o) := by
  unfold State.answerTo
  repeat' first
    | with_reducible assumption
    | with_reducible apply State.emit_keeps
    | with_reducible apply State.placeOut_keeps
    | with_reducible apply Keeps.foldl
    | with_reducible apply Keeps.toF
    | intro _
    | split

theorem State.mcEvent_keeps (source : ℕ) (unit : ℕ) (status : Status) (task : Option TaskRef) (addr : ℕ) {f m :
    Bool} {s u : State} (h : Keeps f m s u) : Keeps f m s (State.mcEvent u source unit status task addr) := by
  unfold State.mcEvent
  repeat' first
    | with_reducible assumption
    | with_reducible apply State.bump_keeps
    | with_reducible apply Keeps.foldl
    | with_reducible apply Keeps.toF
    | intro _
    | split
    | dsimp only
    | simp only [Keeps.lit]

theorem State.latch_keeps (l : Latch) {f m : Bool} {s u : State} (h : Keeps f m s u) :
    Keeps f m s (State.latch u l) := by
  unfold State.latch
  repeat' first
    | with_reducible assumption
    | with_reducible apply Keeps.foldl
    | with_reducible apply Keeps.toF
    | intro _
    | split
    | dsimp only
    | simp only [Keeps.lit]

theorem State.tbUe_keeps (a : ℕ) (site : ℕ) (scrub : Bool) {f m : Bool} {s u : State} (h : Keeps f m s u) :
    Keeps f m s (State.tbUe u a site scrub) := by
  unfold State.tbUe
  repeat' first
    | with_reducible assumption
    | with_reducible apply State.bump_keeps
    | with_reducible apply State.latch_keeps

theorem State.mcUncorrectable_keeps (a : ℕ) (status : Status) (task : Option TaskRef) {f m : Bool} {s u : State}
    (h : Keeps f m s u) : Keeps f m s (State.mcUncorrectable u a status task) := by
  unfold State.mcUncorrectable
  repeat' first
    | with_reducible assumption
    | with_reducible apply State.mcEvent_keeps
    | with_reducible apply State.tbUe_keeps
    | with_reducible apply Keeps.foldl
    | with_reducible apply Keeps.toF
    | intro _
    | split

theorem State.countRefused_keeps (a : ℕ) {f m : Bool} {s u : State} (h : Keeps f m s u) :
    Keeps f m s (State.countRefused u a) := by
  unfold State.countRefused
  repeat' first
    | with_reducible assumption
    | with_reducible apply State.bump_keeps

theorem State.memRefusal_keeps (st : Status) (a : ℕ) (task : Option TaskRef) {f m : Bool} {s u : State} (h :
    Keeps f m s u) : Keeps f m s (State.memRefusal u st a task) := by
  unfold State.memRefusal
  repeat' first
    | with_reducible assumption
    | with_reducible apply State.countRefused_keeps
    | with_reducible apply State.mcUncorrectable_keeps
    | with_reducible apply Keeps.foldl
    | with_reducible apply Keeps.toF
    | intro _
    | split

theorem State.noteCorrected_keeps (a : ℕ) (c : MemCond) {f m : Bool} {s u : State} (h : Keeps f m s u) :
    Keeps f m s (State.noteCorrected u a c) := by
  unfold State.noteCorrected
  repeat' first
    | with_reducible assumption
    | with_reducible apply State.bump_keeps
    | with_reducible apply Keeps.foldl
    | with_reducible apply Keeps.toF
    | intro _
    | split

theorem State.emitFabric_keeps (o : Out) {f m : Bool} {s u : State} (h : Keeps f m s u) :
    Keeps f m s (State.emitFabric u o) := by
  unfold State.emitFabric
  repeat' first
    | with_reducible assumption
    | with_reducible apply State.placeOut_keeps
    | with_reducible apply Keeps.foldl
    | with_reducible apply Keeps.toF
    | intro _
    | split

theorem State.apertureFault_keeps (write : Bool) (cause : ℕ) (ap : ℕ) (core : ℕ) (off : ℕ) {f m : Bool} {s u :
    State} (h : Keeps f m s u) : Keeps f m s (State.apertureFault u write cause ap core off) := by
  unfold State.apertureFault
  repeat' first
    | with_reducible assumption
    | with_reducible apply State.latch_keeps
    | with_reducible apply State.bump_keeps

theorem State.apertureReads_keeps (ap : ℕ) (off : ℕ) (len : ℕ) {f m : Bool} {s u : State} (h : Keeps f m s u) :
    Keeps f m s (State.apertureReads u ap off len) := by
  unfold State.apertureReads
  repeat' first
    | with_reducible assumption
    | with_reducible apply State.emit_keeps
    | with_reducible apply Keeps.foldl
    | with_reducible apply Keeps.toF
    | intro _

theorem State.writeMem_keeps (a : ℕ) (bs : List Byte) {f : Bool} {s u : State} (h : Keeps f false s u) :
    Keeps f false s (State.writeMem u a bs) :=
  h.putMem (memPutAll_wf _ _ _ _)

theorem State.applyAtomic_keeps (a : ℕ) (r : AtomicReq) {f : Bool} {s u : State} (h : Keeps f false s u) :
    Keeps f false s (State.applyAtomic u a r) := by
  unfold State.applyAtomic
  repeat' first
    | with_reducible assumption
    | with_reducible apply State.writeMem_keeps

theorem State.flagLater_keeps (e : ℕ) (b : Bool) {f m : Bool} {s u : State} (h : Keeps f m s u) :
    Keeps f m s (State.flagLater u e b) := by
  unfold State.flagLater
  repeat' first
    | with_reducible assumption
    | with_reducible apply Keeps.foldl
    | with_reducible apply Keeps.toF
    | intro _
    | split
    | dsimp only
    | simp only [Keeps.lit]

theorem State.putArb_keeps (a : ℕ) (x : ArbRun) {f m : Bool} {s u : State} (h : Keeps f m s u) :
    Keeps f m s (State.putArb u a x) := by
  unfold State.putArb
  repeat' first
    | with_reducible assumption
    | with_reducible apply Keeps.foldl
    | with_reducible apply Keeps.toF
    | intro _
    | split
    | dsimp only
    | simp only [Keeps.lit]

theorem State.noteSet_keeps (off : ℕ) (bits : Word) {f m : Bool} {s u : State} (h : Keeps f m s u) :
    Keeps f m s (State.noteSet u off bits) := by
  unfold State.noteSet
  repeat' first
    | with_reducible assumption
    | with_reducible apply Keeps.foldl
    | with_reducible apply Keeps.toF
    | intro _
    | split
    | dsimp only
    | simp only [Keeps.lit]

theorem State.putSite_keeps (b : ℕ) (x : SiteRun) {f m : Bool} {s u : State} (h : Keeps f m s u) :
    Keeps f m s (State.putSite u b x) := by
  unfold State.putSite
  repeat' first
    | with_reducible assumption
    | with_reducible apply Keeps.foldl
    | with_reducible apply Keeps.toF
    | intro _
    | split
    | dsimp only
    | simp only [Keeps.lit]

theorem State.hold_keeps (a : HeldAccess) {f m : Bool} {s u : State} (h : Keeps f m s u) :
    Keeps f m s (State.hold u a) := by
  unfold State.hold
  repeat' first
    | with_reducible assumption
    | with_reducible apply Keeps.foldl
    | with_reducible apply Keeps.toF
    | intro _
    | split
    | dsimp only
    | simp only [Keeps.lit]

theorem State.gate_keeps (a : HeldAccess) (g : State → State) {f m : Bool} {s u : State}
    (hg : Keeps f m s (g u)) (h : Keeps f m s u) : Keeps f m s (State.gate u a g) := by
  unfold State.gate
  split
  · exact State.hold_keeps a h
  · split
    · exact h
    · exact hg

theorem State.tierBGate_keeps (a : Nat) (w : HeldAccess) (g : State → State) {f m : Bool} {s u : State}
    (hg : Keeps f m s (g u)) (h : Keeps f m s u) : Keeps f m s (State.tierBGate u a w g) := by
  unfold State.tierBGate
  split
  · exact h
  · exact hg

theorem State.bar2Gate_keeps (off : Nat) (w : HeldAccess) (g : State → State) {f m : Bool} {s u : State}
    (hg : Keeps f m s (g u)) (h : Keeps f m s u) : Keeps f m s (State.bar2Gate u off w g) :=
  State.gate_keeps w _ (State.tierBGate_keeps _ w g hg h) h

theorem State.countTag_keeps (off : ℕ → ℕ) (tag : ℕ) (n : ℕ) {f m : Bool} {s u : State} (h : Keeps f m s u) :
    Keeps f m s (State.countTag u off tag n) := by
  unfold State.countTag
  repeat' first
    | with_reducible assumption
    | with_reducible apply State.bump_keeps
    | with_reducible apply Keeps.foldl
    | with_reducible apply Keeps.toF
    | intro _
    | split

theorem State.putPort_keeps (p : ℕ) (r : SendPort) {f m : Bool} {s u : State} (h : Keeps f m s u) :
    Keeps f m s (State.putPort u p r) := by
  unfold State.putPort
  repeat' first
    | with_reducible assumption
    | with_reducible apply Keeps.foldl
    | with_reducible apply Keeps.toF
    | intro _
    | split
    | dsimp only
    | simp only [Keeps.lit]

theorem State.setFifo_keeps (p : ℕ) (l : List Msg) {f m : Bool} {s u : State} (h : Keeps f m s u) :
    Keeps f m s (State.setFifo u p l) := by
  unfold State.setFifo
  repeat' first
    | with_reducible assumption
    | with_reducible apply State.setFld_keeps
    | with_reducible apply State.putPort_keeps

theorem State.dropOwnWait_keeps (tag : ℕ) {f m : Bool} {s u : State} (h : Keeps f m s u) :
    Keeps f m s (State.dropOwnWait u tag) := by
  unfold State.dropOwnWait
  repeat' first
    | with_reducible assumption
    | with_reducible apply Keeps.foldl
    | with_reducible apply Keeps.toF
    | intro _
    | split
    | dsimp only
    | simp only [Keeps.lit]

theorem State.withdraw_keeps (c : CreditPair) {f m : Bool} {s u : State} (h : Keeps f m s u) :
    Keeps f m s (State.withdraw u c) := by
  unfold State.withdraw
  repeat' first
    | with_reducible assumption
    | with_reducible apply State.dropOwnWait_keeps
    | with_reducible apply State.emitFabric_keeps
    | with_reducible apply Keeps.foldl
    | with_reducible apply Keeps.toF
    | intro _
    | split
    | dsimp only
    | simp only [Keeps.lit]

theorem State.withdrawCredits_keeps {f m : Bool} {s u : State} (h : Keeps f m s u) :
    Keeps f m s (State.withdrawCredits u) := by
  unfold State.withdrawCredits
  repeat' first
    | with_reducible assumption
    | with_reducible apply State.withdraw_keeps
    | with_reducible apply Keeps.foldl
    | with_reducible apply Keeps.toF
    | intro _
    | split

theorem State.failMsg_keeps (p : ℕ) (m0 : Msg) (st : Status) {f m : Bool} {s u : State} (h : Keeps f m s u) :
    Keeps f m s (State.failMsg u p m0 st) := by
  unfold State.failMsg
  repeat' first
    | with_reducible assumption
    | with_reducible apply State.countTag_keeps
    | with_reducible apply State.wrapAdd_keeps
    | with_reducible apply State.setFifo_keeps
    | with_reducible apply State.withdrawCredits_keeps
    | with_reducible apply State.setReg_keeps
    | with_reducible apply State.setFld_keeps
    | with_reducible apply State.setBit_keeps
    | with_reducible apply Keeps.foldl
    | with_reducible apply Keeps.toF
    | intro _
    | split

theorem State.putEndpoint_keeps (r : ℕ) (x : RxRun) {f m : Bool} {s u : State} (h : Keeps f m s u) :
    Keeps f m s (State.putEndpoint u r x) := by
  unfold State.putEndpoint
  repeat' first
    | with_reducible assumption
    | with_reducible apply Keeps.foldl
    | with_reducible apply Keeps.toF
    | intro _
    | split
    | dsimp only
    | simp only [Keeps.lit]

theorem State.putPeer_keeps (n : ℕ) (x : PeerRun) {f m : Bool} {s u : State} (h : Keeps f m s u) :
    Keeps f m s (State.putPeer u n x) := by
  unfold State.putPeer
  repeat' first
    | with_reducible assumption
    | with_reducible apply Keeps.foldl
    | with_reducible apply Keeps.toF
    | intro _
    | split
    | dsimp only
    | simp only [Keeps.lit]

theorem State.latchReg_keeps (off : ℕ) (key : ℕ) (v : ℕ) {f m : Bool} {s u : State} (h : Keeps f m s u) :
    Keeps f m s (State.latchReg u off key v) := by
  unfold State.latchReg
  repeat' first
    | with_reducible assumption
    | with_reducible apply State.latch_keeps

theorem State.checkHeads_keeps {f m : Bool} {s u : State} (h : Keeps f m s u) : Keeps f m s (State.checkHeads u) := by
  unfold State.checkHeads
  repeat' first
    | with_reducible assumption
    | with_reducible apply State.failMsg_keeps
    | with_reducible apply State.bump_keeps
    | with_reducible apply Keeps.foldl
    | with_reducible apply Keeps.toF
    | intro _
    | split

theorem State.clearRc_keeps (off : ℕ) (rc : Word) {f m : Bool} {s u : State} (h : Keeps f m s u) :
    Keeps f m s (State.clearRc u off rc) := by
  unfold State.clearRc
  repeat' first
    | with_reducible assumption
    | with_reducible apply State.setReg_keeps
    | with_reducible apply Keeps.foldl
    | with_reducible apply Keeps.toF
    | intro _
    | split
    | dsimp only
    | simp only [Keeps.lit]

theorem State.putFlag_keeps (e : ℕ) (b : Bool) {f m : Bool} {s u : State} (h : Keeps f m s u) :
    Keeps f m s (State.putFlag u e b) := by
  unfold State.putFlag
  repeat' first
    | with_reducible assumption
    | with_reducible apply State.setBit_keeps

theorem State.clearFlag_keeps (e : ℕ) {f m : Bool} {s u : State} (h : Keeps f m s u) :
    Keeps f m s (State.clearFlag u e) := by
  unfold State.clearFlag
  repeat' first
    | with_reducible assumption
    | with_reducible apply State.putFlag_keeps
    | with_reducible apply Keeps.foldl
    | with_reducible apply Keeps.toF
    | intro _
    | split

theorem State.loseMemory_keeps {f : Bool} {s u : State} (h : Keeps f false s u) :
    Keeps f false s (State.loseMemory u) :=
  h.putMem (mem := []) (g := u.freeCtr + 1) (fun _ => rfl)

theorem State.putCq_keeps (c : ℕ) (r : CqRun) {f m : Bool} {s u : State} (h : Keeps f m s u) :
    Keeps f m s (State.putCq u c r) := by
  unfold State.putCq
  repeat' first
    | with_reducible assumption
    | with_reducible apply Keeps.foldl
    | with_reducible apply Keeps.toF
    | intro _
    | split
    | dsimp only
    | simp only [Keeps.lit]

theorem State.msix_keeps (vector : ℕ) {f m : Bool} {s u : State} (h : Keeps f m s u) :
    Keeps f m s (State.msix u vector) := by
  unfold State.msix
  repeat' first
    | with_reducible assumption
    | with_reducible apply State.emit_keeps

theorem State.dropTask_keeps (t : TaskRef) {f m : Bool} {s u : State} (h : Keeps f m s u) :
    Keeps f m s (State.dropTask u t) := by
  unfold State.dropTask
  repeat' first
    | with_reducible assumption
    | with_reducible apply Keeps.foldl
    | with_reducible apply Keeps.toF
    | intro _
    | split
    | dsimp only
    | simp only [Keeps.lit]

theorem State.emitTo_keeps (node : ℕ) (o : Out) {f m : Bool} {s u : State} (h : Keeps f m s u) :
    Keeps f m s (State.emitTo u node o) := by
  unfold State.emitTo
  repeat' first
    | with_reducible assumption
    | with_reducible apply State.emit_keeps
    | with_reducible apply State.emitFabric_keeps
    | with_reducible apply Keeps.foldl
    | with_reducible apply Keeps.toF
    | intro _
    | split

theorem State.requestPair_keeps (node : ℕ) (tag : ℕ) {f m : Bool} {s u : State} (h : Keeps f m s u) :
    Keeps f m s (State.requestPair u node tag) := by
  unfold State.requestPair
  repeat' first
    | with_reducible assumption
    | with_reducible apply State.emitTo_keeps
    | with_reducible apply Keeps.foldl
    | with_reducible apply Keeps.toF
    | intro _
    | split
    | dsimp only
    | simp only [Keeps.lit]

theorem State.requestCredits_keeps {f m : Bool} {s u : State} (h : Keeps f m s u) :
    Keeps f m s (State.requestCredits u) := by
  unfold State.requestCredits
  repeat' first
    | with_reducible assumption
    | with_reducible apply State.checkHeads_keeps
    | with_reducible apply State.requestPair_keeps
    | with_reducible apply Keeps.foldl
    | with_reducible apply Keeps.toF
    | intro _

theorem State.hwSet_keeps (off : ℕ) (i : ℕ) {f m : Bool} {s u : State} (h : Keeps f m s u) :
    Keeps f m s (State.hwSet u off i) := by
  unfold State.hwSet
  repeat' first
    | with_reducible assumption
    | with_reducible apply State.noteSet_keeps
    | with_reducible apply State.setBit_keeps

theorem State.freeBytes_keeps (as : List ℕ) {f : Bool} {s u : State} (h : Keeps f false s u) :
    Keeps f false s (State.freeBytes u as) := by
  unfold State.freeBytes
  repeat' first
    | with_reducible assumption
    | with_reducible apply State.freeBits_keeps

theorem setNodeId_keeps (value : Word) {f m : Bool} {s u : State} (h : Keeps f m s u) :
    Keeps f m s (setNodeId value u) := by
  unfold setNodeId
  repeat' first
    | with_reducible assumption
    | with_reducible apply State.setReg_keeps
    | with_reducible apply Keeps.foldl
    | with_reducible apply Keeps.toF
    | intro _
    | split

theorem commitDrt_keeps (group : ℕ) (n : ℕ) (value : Word) {m : Bool} {s u : State} (h : Keeps false m s u) :
    Keeps false m s (commitDrt group n value u) :=
  have k := State.setReg_keeps (R.drtCtl group n) (value &&& 0xF0000FFF) h
  k.anewTables rfl rfl rfl rfl rfl rfl

theorem State.restartWait_keeps (p : ℕ) {f m : Bool} {s u : State} (h : Keeps f m s u) :
    Keeps f m s (State.restartWait u p) := by
  unfold State.restartWait
  repeat' first
    | with_reducible assumption
    | with_reducible apply State.putPort_keeps

theorem doBar2Read_keeps (off : ℕ) (len : ℕ) (pasid : Option (BitVec 20)) (cond : MemCond) {f m : Bool} {s u :
    State} (h : Keeps f m s u) : Keeps f m s (doBar2Read off len pasid cond u) := by
  unfold doBar2Read
  repeat' first
    | with_reducible assumption
    | with_reducible apply State.emit_keeps
    | with_reducible apply State.noteCorrected_keeps
    | with_reducible apply State.memRefusal_keeps
    | with_reducible apply Keeps.foldl
    | with_reducible apply Keeps.toF
    | intro _
    | split
    | dsimp only

theorem doBar2Write_keeps (off : ℕ) (bytes : List Byte) (pasid : Option (BitVec 20)) (cond : MemCond) {f : Bool}
    {s u : State} (h : Keeps f false s u) : Keeps f false s (doBar2Write off bytes pasid cond u) := by
  unfold doBar2Write
  repeat' first
    | with_reducible assumption
    | with_reducible apply State.writeMem_keeps
    | with_reducible apply State.noteCorrected_keeps
    | with_reducible apply State.memRefusal_keeps
    | with_reducible apply Keeps.foldl
    | with_reducible apply Keeps.toF
    | intro _
    | split
    | dsimp only

theorem doCoreLoad_keeps (core : ℕ) (a : ℕ) (len : ℕ) (cond : MemCond) {f m : Bool} {s u : State} (h : Keeps f m
    s u) : Keeps f m s (doCoreLoad core a len cond u) := by
  unfold doCoreLoad
  repeat' first
    | with_reducible assumption
    | with_reducible apply State.emit_keeps
    | with_reducible apply State.noteCorrected_keeps
    | with_reducible apply State.memRefusal_keeps
    | with_reducible apply Keeps.foldl
    | with_reducible apply Keeps.toF
    | intro _
    | split

theorem doCoreStore_keeps (core : ℕ) (a : ℕ) (bytes : List Byte) (cond : MemCond) {f : Bool} {s u : State} (h :
    Keeps f false s u) : Keeps f false s (doCoreStore core a bytes cond u) := by
  unfold doCoreStore
  repeat' first
    | with_reducible assumption
    | with_reducible apply State.writeMem_keeps
    | with_reducible apply State.noteCorrected_keeps
    | with_reducible apply State.memRefusal_keeps
    | with_reducible apply Keeps.foldl
    | with_reducible apply Keeps.toF
    | intro _
    | split

theorem doCoreAtomic_keeps (core : ℕ) (a : ℕ) (r : AtomicReq) (cond : MemCond) {f : Bool} {s u : State} (h :
    Keeps f false s u) : Keeps f false s (doCoreAtomic core a r cond u) := by
  unfold doCoreAtomic
  repeat' first
    | with_reducible assumption
    | with_reducible apply State.emit_keeps
    | with_reducible apply State.bump_keeps
    | with_reducible apply State.applyAtomic_keeps
    | with_reducible apply State.noteCorrected_keeps
    | with_reducible apply State.memRefusal_keeps
    | with_reducible apply Keeps.foldl
    | with_reducible apply Keeps.toF
    | intro _
    | split

theorem State.winRefused_keeps (node : ℕ) {f m : Bool} {s u : State} (h : Keeps f m s u) :
    Keeps f m s (State.winRefused u node) := by
  unfold State.winRefused
  repeat' first
    | with_reducible assumption
    | with_reducible apply State.latchReg_keeps
    | with_reducible apply State.bump_keeps

theorem serveRemote_keeps (w : ℕ) (node : ℕ) (r : RemoteAccess) (cond : MemCond) {f : Bool} {s u : State} (h :
    Keeps f false s u) : Keeps f false s (serveRemote w node r cond u) := by
  unfold serveRemote
  repeat' first
    | with_reducible assumption
    | with_reducible apply State.emit_keeps
    | with_reducible apply State.memRefusal_keeps
    | with_reducible apply State.noteCorrected_keeps
    | with_reducible apply State.writeMem_keeps
    | with_reducible apply State.applyAtomic_keeps
    | with_reducible apply Keeps.foldl
    | with_reducible apply Keeps.toF
    | intro _
    | split

theorem pastWindow_keeps (w : ℕ) (node : ℕ) (r : RemoteAccess) (cond : MemCond) {f : Bool} {s u : State} (h :
    Keeps f false s u) : Keeps f false s (pastWindow w node r cond u) := by
  unfold pastWindow
  repeat' first
    | with_reducible assumption
    | with_reducible apply State.emit_keeps
    | with_reducible apply State.winRefused_keeps
    | with_reducible apply State.bump_keeps
    | with_reducible apply serveRemote_keeps
    | with_reducible apply Keeps.foldl
    | with_reducible apply Keeps.toF
    | intro _
    | split

theorem doRemote_keeps (node : ℕ) (r : RemoteAccess) (cond : MemCond) {f : Bool} {s u : State} (h : Keeps f
    false s u) : Keeps f false s (doRemote node r cond u) := by
  unfold doRemote
  repeat' first
    | with_reducible assumption
    | with_reducible apply State.emit_keeps
    | with_reducible apply State.winRefused_keeps
    | with_reducible apply State.tierBGate_keeps
    | with_reducible apply pastWindow_keeps
    | with_reducible apply Keeps.foldl
    | with_reducible apply Keeps.toF
    | intro _
    | split

theorem State.setFlag_keeps (e : ℕ) {f m : Bool} {s u : State} (h : Keeps f m s u) :
    Keeps f m s (State.setFlag u e) := by
  unfold State.setFlag
  repeat' first
    | with_reducible assumption
    | with_reducible apply State.hwSet_keeps

theorem State.logEvent_keeps (e : McEvent) {f m : Bool} {s u : State} (h : Keeps f m s u) :
    Keeps f m s (State.logEvent u e) := by
  unfold State.logEvent
  repeat' first
    | with_reducible assumption
    | with_reducible apply State.bump_keeps
    | with_reducible apply State.setReg_keeps
    | with_reducible apply State.noteSet_keeps
    | with_reducible apply State.setReg64_keeps
    | with_reducible apply State.msix_keeps
    | with_reducible apply Keeps.foldl
    | with_reducible apply Keeps.toF
    | intro _
    | split
    | dsimp only

theorem State.releaseHeld_keeps {f m : Bool} {s u : State} (h : Keeps f m s u) :
    Keeps f m s (State.releaseHeld u) := by
  unfold State.releaseHeld
  repeat' first
    | with_reducible assumption
    | with_reducible apply State.placeOut_keeps
    | with_reducible apply Keeps.foldl
    | with_reducible apply Keeps.toF
    | intro _
    | split
    | dsimp only
    | simp only [Keeps.lit]

theorem State.startWake_keeps (w : LatchedWake) {f m : Bool} {s u : State} (h : Keeps f m s u) :
    Keeps f m s (State.startWake u w) := by
  unfold State.startWake
  repeat' first
    | with_reducible assumption
    | with_reducible apply State.setReg_keeps
    | with_reducible apply State.noteSet_keeps
    | with_reducible apply State.setReg64_keeps
    | with_reducible apply State.hwSet_keeps
    | with_reducible apply Keeps.foldl
    | with_reducible apply Keeps.toF
    | intro _
    | split
    | dsimp only
    | simp only [Keeps.lit]

theorem State.wakeBy_keeps (w : WakeSource) {f m : Bool} {s u : State} (h : Keeps f m s u) :
    Keeps f m s (State.wakeBy u w) := by
  unfold State.wakeBy
  repeat' first
    | with_reducible assumption
    | with_reducible apply State.startWake_keeps
    | with_reducible apply Keeps.foldl
    | with_reducible apply Keeps.toF
    | intro _
    | split
    | dsimp only
    | simp only [Keeps.lit]

theorem doApertureLoad_keeps (core : ℕ) (ap : ℕ) (off : ℕ) (len : ℕ) (answer : HostAnswer) {f m : Bool} {s u :
    State} (h : Keeps f m s u) : Keeps f m s (doApertureLoad core ap off len answer u) := by
  unfold doApertureLoad
  repeat' first
    | with_reducible assumption
    | with_reducible apply State.emit_keeps
    | with_reducible apply State.apertureFault_keeps
    | with_reducible apply State.apertureReads_keeps
    | with_reducible apply Keeps.foldl
    | with_reducible apply Keeps.toF
    | intro _
    | split
    | dsimp only
    | simp only [Keeps.lit]

theorem doApertureStore_keeps (core : ℕ) (ap : ℕ) (off : ℕ) (bytes : List Byte) {f m : Bool} {s u : State} (h :
    Keeps f m s u) : Keeps f m s (doApertureStore core ap off bytes u) := by
  unfold doApertureStore
  repeat' first
    | with_reducible assumption
    | with_reducible apply State.apertureFault_keeps
    | with_reducible apply State.emit_keeps
    | with_reducible apply Keeps.foldl
    | with_reducible apply Keeps.toF
    | intro _
    | split

end Sys2Proof.Machine
end

