-- ==== Sys2Proof/Laws/KeepsTask.lean ====
section
/-!
SUPPORT. What each operation keeps (Laws/Keeps.lean): queues, the way of a task, translation, completion records and the journal.
-/
namespace Sys2Proof.Machine

open Sys2Proof

theorem State.setSqMode_keeps (q : ℕ) (m0 : ℕ) {f m : Bool} {s u : State} (h : Keeps f m s u) :
    Keeps f m s (State.setSqMode u q m0) := by
  unfold State.setSqMode
  repeat' first
    | with_reducible assumption
    | with_reducible apply State.setFld_keeps

theorem State.voidTiles_keeps (b : Option Binding) {f m : Bool} {s u : State} (h : Keeps f m s u) :
    Keeps f m s (State.voidTiles u b) := by
  unfold State.voidTiles
  repeat' first
    | with_reducible assumption
    | with_reducible apply State.putStream_keeps
    | with_reducible apply Keeps.foldl
    | with_reducible apply Keeps.toF
    | intro _
    | split

theorem State.markFailed_keeps (n : Fin 256) {f m : Bool} {s u : State} (h : Keeps f m s u) :
    Keeps f m s (State.markFailed u n) := by
  unfold State.markFailed
  repeat' first
    | with_reducible assumption
    | with_reducible apply State.setBit_keeps

theorem State.oweNotices_keeps (t : Task) {f m : Bool} {s u : State} (h : Keeps f m s u) :
    Keeps f m s (State.oweNotices u t) := by
  unfold State.oweNotices
  repeat' first
    | with_reducible assumption
    | with_reducible apply Keeps.foldl
    | with_reducible apply Keeps.toF
    | intro _
    | split
    | dsimp only
    | simp only [Keeps.lit]

theorem State.returnCredits_keeps (t : Task) {f m : Bool} {s u : State} (h : Keeps f m s u) :
    Keeps f m s (State.returnCredits u t) := by
  unfold State.returnCredits
  repeat' first
    | with_reducible assumption
    | with_reducible apply State.bump_keeps
    | with_reducible apply Keeps.foldl
    | with_reducible apply Keeps.toF
    | intro _
    | split

theorem State.unbind_keeps (t : TaskRef) {f m : Bool} {s u : State} (h : Keeps f m s u) :
    Keeps f m s (State.unbind u t) := by
  unfold State.unbind
  repeat' first
    | with_reducible assumption
    | with_reducible apply State.putAperture_keeps
    | with_reducible apply Keeps.foldl
    | with_reducible apply Keeps.toF
    | intro _
    | split

theorem State.failEffects_keeps (t : Task) (st : Status) {f m : Bool} {s u : State} (h : Keeps f m s u) :
    Keeps f m s (State.failEffects u t st) := by
  unfold State.failEffects
  repeat' first
    | with_reducible assumption
    | with_reducible apply State.voidTiles_keeps
    | with_reducible apply State.markFailed_keeps
    | with_reducible apply State.oweNotices_keeps
    | with_reducible apply State.returnCredits_keeps
    | with_reducible apply State.unbind_keeps
    | with_reducible apply Keeps.foldl
    | with_reducible apply Keeps.toF
    | intro _
    | split

theorem State.countDigested_keeps (t : Task) {f m : Bool} {s u : State} (h : Keeps f m s u) :
    Keeps f m s (State.countDigested u t) := by
  unfold State.countDigested
  repeat' first
    | with_reducible assumption
    | with_reducible apply State.bump64_keeps
    | with_reducible apply Keeps.foldl
    | with_reducible apply Keeps.toF
    | intro _
    | split

theorem State.settleFailing_keeps (t : Task) {f : Bool} {s u : State} (h : Keeps f false s u) :
    Keeps f false s (State.settleFailing u t) := by
  unfold State.settleFailing
  repeat' first
    | with_reducible assumption
    | with_reducible apply State.freeBits_keeps
    | with_reducible apply State.putTask_keeps
    | with_reducible apply State.countDigested_keeps
    | with_reducible apply Keeps.foldl
    | with_reducible apply Keeps.toF
    | intro _
    | split

theorem State.failAgain_keeps (t : Task) (st : Status) {f m : Bool} {s u : State} (h : Keeps f m s u) :
    Keeps f m s (State.failAgain u t st) := by
  unfold State.failAgain
  repeat' first
    | with_reducible assumption
    | with_reducible apply State.putTask_keeps
    | with_reducible apply Keeps.foldl
    | with_reducible apply Keeps.toF
    | intro _
    | split

theorem State.giveRanges_keeps (n : ℕ) {f m : Bool} {s u : State} (h : Keeps f m s u) :
    Keeps f m s (State.giveRanges u n) := by
  unfold State.giveRanges
  repeat' first
    | with_reducible assumption
    | with_reducible apply State.setReg_keeps

theorem State.failTask_keeps (ref : TaskRef) (st : Status) {f : Bool} {s u : State} (h : Keeps f false s u) :
    Keeps f false s (State.failTask u ref st) := by
  unfold State.failTask
  repeat' first
    | with_reducible assumption
    | with_reducible apply State.putTask_keeps
    | with_reducible apply State.failEffects_keeps
    | with_reducible apply State.settleFailing_keeps
    | with_reducible apply State.failAgain_keeps
    | with_reducible apply State.giveRanges_keeps
    | with_reducible apply Keeps.foldl
    | with_reducible apply Keeps.toF
    | intro _
    | split

theorem State.assign_keeps (b : Option Binding) {f m : Bool} {s u : State} (h : Keeps f m s u) :
    Keeps f m s (State.assign u b) := by
  unfold State.assign
  repeat' first
    | with_reducible assumption
    | with_reducible apply State.wrapAdd_keeps
    | with_reducible apply Keeps.foldl
    | with_reducible apply Keeps.toF
    | intro _
    | split

theorem State.bindTask_keeps (ref : TaskRef) {f : Bool} {s u : State} (h : Keeps f false s u) :
    Keeps f false s (State.bindTask u ref) := by
  unfold State.bindTask
  repeat' first
    | with_reducible assumption
    | with_reducible apply State.putTask_keeps
    | with_reducible apply State.failTask_keeps
    | with_reducible apply State.assign_keeps
    | with_reducible apply Keeps.foldl
    | with_reducible apply Keeps.toF
    | intro _
    | split

theorem State.bindWaiting_keeps {f : Bool} {s u : State} (h : Keeps f false s u) :
    Keeps f false s (State.bindWaiting u) := by
  unfold State.bindWaiting
  refine Keeps.foldlFst _ (fun acc x k => ?_) h
  repeat' first
    | with_reducible assumption
    | with_reducible apply State.bindTask_keeps
    | with_reducible apply Keeps.foldl
    | with_reducible apply Keeps.toF
    | intro _
    | split

theorem State.afterXlate_keeps (ref : TaskRef) {f : Bool} {s u : State} (h : Keeps f false s u) :
    Keeps f false s (State.afterXlate u ref) := by
  unfold State.afterXlate
  repeat' first
    | with_reducible assumption
    | with_reducible apply State.failTask_keeps
    | with_reducible apply State.putTask_keeps
    | with_reducible apply State.bindTask_keeps
    | with_reducible apply Keeps.foldl
    | with_reducible apply Keeps.toF
    | intro _
    | split

theorem State.advanceQueue_keeps (q : ℕ) {f : Bool} {s u : State} (h : Keeps f false s u) :
    Keeps f false s (State.advanceQueue u q) := by
  unfold State.advanceQueue
  refine State.bindWaiting_keeps (Keeps.foldlFst _ (fun acc x k => ?_) h)
  repeat' first
    | with_reducible assumption
    | with_reducible apply State.bindWaiting_keeps
    | with_reducible apply State.afterXlate_keeps
    | with_reducible apply Keeps.foldl
    | with_reducible apply Keeps.toF
    | intro _
    | split

theorem State.fail_keeps (ref : TaskRef) (st : Status) {f : Bool} {s u : State} (h : Keeps f false s u) :
    Keeps f false s (State.fail u ref st) := by
  unfold State.fail
  repeat' first
    | with_reducible assumption
    | with_reducible apply State.advanceQueue_keeps
    | with_reducible apply State.failTask_keeps

theorem State.placeBlocks_keeps (ref : TaskRef) (bs : List (ℕ × ℕ)) {f : Bool} {s u : State} (h : Keeps f false
    s u) : Keeps f false s (State.placeBlocks u ref bs) := by
  unfold State.placeBlocks
  repeat' first
    | with_reducible assumption
    | with_reducible apply State.advanceQueue_keeps
    | with_reducible apply State.putTask_keeps
    | with_reducible apply State.fail_keeps
    | with_reducible apply Keeps.foldl
    | with_reducible apply Keeps.toF
    | intro _
    | split

theorem State.admitTask_keeps (t : Task) {f : Bool} {s u : State} (h : Keeps f false s u) :
    Keeps f false s (State.admitTask u t) := by
  unfold State.admitTask
  repeat' first
    | with_reducible assumption
    | with_reducible apply State.fail_keeps
    | with_reducible apply State.placeBlocks_keeps
    | with_reducible apply State.putTask_keeps
    | with_reducible apply Keeps.foldl
    | with_reducible apply Keeps.toF
    | intro _
    | split
    | dsimp only
    | simp only [Keeps.lit]

theorem State.issueFlush_keeps (t : Task) {f m : Bool} {s u : State} (h : Keeps f m s u) :
    Keeps f m s (State.issueFlush u t) := by
  unfold State.issueFlush
  repeat' first
    | with_reducible assumption
    | with_reducible apply State.putTask_keeps
    | with_reducible apply State.emit_keeps
    | with_reducible apply Keeps.foldl
    | with_reducible apply Keeps.toF
    | intro _
    | split

theorem State.settle_keeps (ref : TaskRef) {f : Bool} {s u : State} (h : Keeps f false s u) :
    Keeps f false s (State.settle u ref) := by
  unfold State.settle
  repeat' first
    | with_reducible assumption
    | with_reducible apply State.settleFailing_keeps
    | with_reducible apply State.issueFlush_keeps
    | with_reducible apply State.putTask_keeps
    | with_reducible apply State.countDigested_keeps
    | with_reducible apply Keeps.foldl
    | with_reducible apply Keeps.toF
    | intro _
    | split

theorem State.noteReady_keeps (ref : TaskRef) {f m : Bool} {s u : State} (h : Keeps f m s u) :
    Keeps f m s (State.noteReady u ref) := by
  unfold State.noteReady
  repeat' first
    | with_reducible assumption
    | with_reducible apply State.putTask_keeps
    | with_reducible apply Keeps.foldl
    | with_reducible apply Keeps.toF
    | intro _
    | split

theorem State.grantCredits_keeps (ref : TaskRef) {f m : Bool} {s u : State} (h : Keeps f m s u) :
    Keeps f m s (State.grantCredits u ref) := by
  unfold State.grantCredits
  repeat' first
    | with_reducible assumption
    | with_reducible apply State.emitFabric_keeps
    | with_reducible apply State.putTask_keeps
    | with_reducible apply Keeps.foldl
    | with_reducible apply Keeps.toF
    | intro _
    | split

theorem State.exchange_keeps (ref : TaskRef) {f m : Bool} {s u : State} (h : Keeps f m s u) :
    Keeps f m s (State.exchange u ref) := by
  unfold State.exchange
  repeat' first
    | with_reducible assumption
    | with_reducible apply State.noteReady_keeps
    | with_reducible apply State.grantCredits_keeps

theorem State.applySetEvent_keeps (t : Task) {f m : Bool} {s u : State} (h : Keeps f m s u) :
    Keeps f m s (State.applySetEvent u t) := by
  unfold State.applySetEvent
  repeat' first
    | with_reducible assumption
    | with_reducible apply State.flagLater_keeps
    | with_reducible apply Keeps.foldl
    | with_reducible apply Keeps.toF
    | intro _
    | split

theorem State.capture_keeps (q : ℕ) (oldTail : ℕ) (adv : ℕ) {f m : Bool} {s u : State} (h : Keeps f m s u) :
    Keeps f m s (State.capture u q oldTail adv) := by
  unfold State.capture
  repeat' first
    | with_reducible assumption
    | with_reducible apply State.putSq_keeps
    | with_reducible apply State.bump_keeps
    | with_reducible apply Keeps.foldl
    | with_reducible apply Keeps.toF
    | intro _
    | split
    | dsimp only

theorem State.countLate_keeps (t : Task) {f m : Bool} {s u : State} (h : Keeps f m s u) :
    Keeps f m s (State.countLate u t) := by
  unfold State.countLate
  repeat' first
    | with_reducible assumption
    | with_reducible apply State.bump_keeps
    | with_reducible apply Keeps.foldl
    | with_reducible apply Keeps.toF
    | intro _
    | split

theorem State.countTask_keeps (t : Task) {f m : Bool} {s u : State} (h : Keeps f m s u) :
    Keeps f m s (State.countTask u t) := by
  unfold State.countTask
  repeat' first
    | with_reducible assumption
    | with_reducible apply State.bump_keeps
    | with_reducible apply Keeps.foldl
    | with_reducible apply Keeps.toF
    | intro _
    | split

theorem State.cqAcked_keeps (c : ℕ) (ref : TaskRef) {f m : Bool} {s u : State} (h : Keeps f m s u) :
    Keeps f m s (State.cqAcked u c ref) := by
  unfold State.cqAcked
  repeat' first
    | with_reducible assumption
    | with_reducible apply State.putCq_keeps
    | with_reducible apply State.msix_keeps
    | with_reducible apply Keeps.foldl
    | with_reducible apply Keeps.toF
    | intro _
    | split
    | dsimp only

theorem State.cqAdvance_keeps (c : ℕ) {f m : Bool} {s u : State} (h : Keeps f m s u) :
    Keeps f m s (State.cqAdvance u c) := by
  unfold State.cqAdvance
  repeat' first
    | with_reducible assumption
    | with_reducible apply State.setFld_keeps
    | with_reducible apply State.setBit_keeps
    | with_reducible apply Keeps.foldl
    | with_reducible apply Keeps.toF
    | intro _
    | split
    | dsimp only

theorem State.cqCount_keeps (c : ℕ) (ref : TaskRef) (now : Bool) {f m : Bool} {s u : State} (h : Keeps f m s u) :
    Keeps f m s (State.cqCount u c ref now) := by
  unfold State.cqCount
  repeat' first
    | with_reducible assumption
    | with_reducible apply State.putCq_keeps
    | with_reducible apply Keeps.foldl
    | with_reducible apply Keeps.toF
    | intro _
    | split
    | dsimp only

theorem State.recordDone_keeps (t : Task) (lost : Bool) {f m : Bool} {s u : State} (h : Keeps f m s u) :
    Keeps f m s (State.recordDone u t lost) := by
  unfold State.recordDone
  repeat' first
    | with_reducible assumption
    | with_reducible apply State.unbind_keeps
    | with_reducible apply State.countLate_keeps
    | with_reducible apply State.countTask_keeps
    | with_reducible apply State.putTask_keeps
    | with_reducible apply State.giveRanges_keeps

theorem State.dropRecord_keeps (t : Task) {f m : Bool} {s u : State} (h : Keeps f m s u) :
    Keeps f m s (State.dropRecord u t) := by
  unfold State.dropRecord
  repeat' first
    | with_reducible assumption
    | with_reducible apply State.recordDone_keeps
    | with_reducible apply State.bump_keeps

theorem State.cqStop_keeps (c : ℕ) (st : Status) {f m : Bool} {s u : State} (h : Keeps f m s u) :
    Keeps f m s (State.cqStop u c st) := by
  unfold State.cqStop
  repeat' first
    | with_reducible assumption
    | with_reducible apply State.setReg_keeps
    | with_reducible apply State.setBit_keeps
    | with_reducible apply State.dropRecord_keeps
    | with_reducible apply Keeps.foldl
    | with_reducible apply Keeps.toF
    | intro _
    | split

theorem State.dropXreq_keeps (t : Task) {f m : Bool} {s u : State} (h : Keeps f m s u) :
    Keeps f m s (State.dropXreq u t) := by
  unfold State.dropXreq
  repeat' first
    | with_reducible assumption
    | with_reducible apply State.putTask_keeps

theorem State.tuFault_keeps (q : ℕ) (st : Status) (va : ℕ) {f m : Bool} {s u : State} (h : Keeps f m s u) :
    Keeps f m s (State.tuFault u q st va) := by
  unfold State.tuFault
  repeat' first
    | with_reducible assumption
    | with_reducible apply State.latch_keeps

theorem State.failXlate_keeps (ref : TaskRef) (st : Status) (va : ℕ) {f : Bool} {s u : State} (h : Keeps f false
    s u) : Keeps f false s (State.failXlate u ref st va) := by
  unfold State.failXlate
  repeat' first
    | with_reducible assumption
    | with_reducible apply State.failTask_keeps
    | with_reducible apply State.tuFault_keeps

theorem State.failAtXlate_keeps (ref : TaskRef) (st : Status) (va : ℕ) {f : Bool} {s u : State} (h : Keeps f
    false s u) : Keeps f false s (State.failAtXlate u ref st va) := by
  unfold State.failAtXlate
  repeat' first
    | with_reducible assumption
    | with_reducible apply State.advanceQueue_keeps
    | with_reducible apply State.failXlate_keeps

theorem State.failDone_keeps (t : Task) (st : Status) {f : Bool} {s u : State} (h : Keeps f false s u) :
    Keeps f false s (State.failDone u t st) := by
  unfold State.failDone
  repeat' first
    | with_reducible assumption
    | with_reducible apply State.freeBits_keeps
    | with_reducible apply State.putTask_keeps
    | with_reducible apply State.failEffects_keeps
    | with_reducible apply State.failAgain_keeps
    | with_reducible apply Keeps.foldl
    | with_reducible apply Keeps.toF
    | intro _
    | split

theorem State.failGroup_keeps (g : PrgRun) {f : Bool} {s u : State} (h : Keeps f false s u) :
    Keeps f false s (State.failGroup u g) := by
  unfold State.failGroup
  repeat' first
    | with_reducible assumption
    | with_reducible apply State.failAtXlate_keeps
    | with_reducible apply Keeps.foldl
    | with_reducible apply Keeps.toF
    | intro _
    | split

theorem State.sqHalt_keeps (q : ℕ) (st : Status) (unit : ℕ) (index : Word) (tag : ℕ) (header : Option (List
    Byte)) {f m : Bool} {s u : State} (h : Keeps f m s u) : Keeps f m s (State.sqHalt u q st unit index tag header) := by
  unfold State.sqHalt
  repeat' first
    | with_reducible assumption
    | with_reducible apply State.setSqMode_keeps
    | with_reducible apply State.putSq_keeps
    | with_reducible apply State.setReg_keeps
    | with_reducible apply State.hwSet_keeps
    | with_reducible apply State.msix_keeps
    | with_reducible apply Keeps.foldl
    | with_reducible apply Keeps.toF
    | intro _
    | split
    | dsimp only

theorem State.sqStop_keeps (q : ℕ) (st : Status) (doorbell : Bool) {f m : Bool} {s u : State} (h : Keeps f m s u) :
    Keeps f m s (State.sqStop u q st doorbell) := by
  unfold State.sqStop
  repeat' first
    | with_reducible assumption
    | with_reducible apply State.sqHalt_keeps

theorem State.sqReadFailed_keeps (q : ℕ) (st : Status) (a : ℕ) {f m : Bool} {s u : State} (h : Keeps f m s u) :
    Keeps f m s (State.sqReadFailed u q st a) := by
  unfold State.sqReadFailed
  repeat' first
    | with_reducible assumption
    | with_reducible apply State.sqStop_keeps
    | with_reducible apply State.memRefusal_keeps
    | with_reducible apply Keeps.foldl
    | with_reducible apply Keeps.toF
    | intro _
    | split

theorem State.recordAcked_keeps (t : Task) {f m : Bool} {s u : State} (h : Keeps f m s u) :
    Keeps f m s (State.recordAcked u t) := by
  unfold State.recordAcked
  repeat' first
    | with_reducible assumption
    | with_reducible apply State.cqAcked_keeps
    | with_reducible apply State.applySetEvent_keeps
    | with_reducible apply State.recordDone_keeps

theorem State.recordFailed_keeps (t : Task) (st : Status) {f m : Bool} {s u : State} (h : Keeps f m s u) :
    Keeps f m s (State.recordFailed u t st) := by
  unfold State.recordFailed
  repeat' first
    | with_reducible assumption
    | with_reducible apply State.cqStop_keeps
    | with_reducible apply State.recordDone_keeps

theorem ackRecord_keeps (ref : TaskRef) (answer : RecordAnswer) {f : Bool} {s u : State} (h : Keeps f false s u) :
    Keeps f false s (ackRecord ref answer u) := by
  unfold ackRecord
  repeat' first
    | with_reducible assumption
    | with_reducible apply State.recordAcked_keeps
    | with_reducible apply State.writeMem_keeps
    | with_reducible apply State.recordFailed_keeps
    | with_reducible apply State.memRefusal_keeps
    | with_reducible apply Keeps.foldl
    | with_reducible apply Keeps.toF
    | intro _
    | split
    | dsimp only

theorem State.xlateDone_keeps (ref : TaskRef) {f : Bool} {s u : State} (h : Keeps f false s u) :
    Keeps f false s (State.xlateDone u ref) := by
  unfold State.xlateDone
  repeat' first
    | with_reducible assumption
    | with_reducible apply State.putTask_keeps
    | with_reducible apply State.giveRanges_keeps
    | with_reducible apply State.advanceQueue_keeps
    | with_reducible apply State.afterXlate_keeps
    | with_reducible apply Keeps.foldl
    | with_reducible apply Keeps.toF
    | intro _
    | split

theorem State.xlateNext_keeps (ref : TaskRef) {f : Bool} {s u : State} (h : Keeps f false s u) :
    Keeps f false s (State.xlateNext u ref) := by
  unfold State.xlateNext
  repeat' first
    | with_reducible assumption
    | with_reducible apply State.failAtXlate_keeps
    | with_reducible apply State.bump_keeps
    | with_reducible apply State.xlateDone_keeps
    | with_reducible apply Keeps.foldl
    | with_reducible apply Keeps.toF
    | intro _
    | split

theorem State.formUntranslated_keeps (ref : TaskRef) {f : Bool} {s u : State} (h : Keeps f false s u) :
    Keeps f false s (State.formUntranslated u ref) := by
  unfold State.formUntranslated
  repeat' first
    | with_reducible assumption
    | with_reducible apply State.xlateNext_keeps
    | with_reducible apply State.putTask_keeps
    | with_reducible apply Keeps.foldl
    | with_reducible apply Keeps.toF
    | intro _
    | split

theorem writePush_keeps (q : ℕ) (off : ℕ) (bytes : List Byte) {f m : Bool} {s u : State} (h : Keeps f m s u) :
    Keeps f m s (writePush q off bytes u) := by
  unfold writePush
  repeat' first
    | with_reducible assumption
    | with_reducible apply Keeps.foldl
    | with_reducible apply Keeps.toF
    | intro _
    | split
    | dsimp only
    | simp only [Keeps.lit]

theorem State.sqHostRead_keeps (q : ℕ) (u0 : ℕ) {f m : Bool} {s u : State} (h : Keeps f m s u) :
    Keeps f m s (State.sqHostRead u q u0) := by
  unfold State.sqHostRead
  repeat' first
    | with_reducible assumption
    | with_reducible apply State.emit_keeps
    | with_reducible apply Keeps.foldl
    | with_reducible apply Keeps.toF
    | intro _
    | split

theorem State.readHeader_keeps (q : ℕ) {f m : Bool} {s u : State} (h : Keeps f m s u) :
    Keeps f m s (State.readHeader u q) := by
  unfold State.readHeader
  repeat' first
    | with_reducible assumption
    | with_reducible apply State.putSq_keeps
    | with_reducible apply State.sqHostRead_keeps
    | with_reducible apply Keeps.foldl
    | with_reducible apply Keeps.toF
    | intro _
    | split

theorem State.startFetch_keeps (q : ℕ) {f m : Bool} {s u : State} (h : Keeps f m s u) :
    Keeps f m s (State.startFetch u q) := by
  unfold State.startFetch
  repeat' first
    | with_reducible assumption
    | with_reducible apply State.readHeader_keeps
    | with_reducible apply Keeps.foldl
    | with_reducible apply Keeps.toF
    | intro _
    | split
    | dsimp only

theorem resumeQueue_keeps (q : ℕ) {f m : Bool} {s u : State} (h : Keeps f m s u) : Keeps f m s (resumeQueue q u) := by
  unfold resumeQueue
  repeat' first
    | with_reducible assumption
    | with_reducible apply State.startFetch_keeps
    | with_reducible apply State.setSqMode_keeps
    | with_reducible apply State.putSq_keeps
    | with_reducible apply Keeps.foldl
    | with_reducible apply Keeps.toF
    | intro _
    | split

theorem State.passEntry_keeps (q : ℕ) (n : ℕ) {f m : Bool} {s u : State} (h : Keeps f m s u) :
    Keeps f m s (State.passEntry u q n) := by
  unfold State.passEntry
  repeat' first
    | with_reducible assumption
    | with_reducible apply State.setBit_keeps
    | with_reducible apply State.wrapAdd_keeps
    | with_reducible apply State.setFld_keeps
    | with_reducible apply State.putSq_keeps
    | with_reducible apply Keeps.foldl
    | with_reducible apply Keeps.toF
    | intro _
    | split

theorem skipEntry_keeps (q : ℕ) {f m : Bool} {s u : State} (h : Keeps f m s u) : Keeps f m s (skipEntry q u) := by
  unfold skipEntry
  repeat' first
    | with_reducible assumption
    | with_reducible apply State.startFetch_keeps
    | with_reducible apply State.setSqMode_keeps
    | with_reducible apply State.passEntry_keeps
    | with_reducible apply Keeps.foldl
    | with_reducible apply Keeps.toF
    | intro _
    | split

theorem pauseQueue_keeps (q : ℕ) {f m : Bool} {s u : State} (h : Keeps f m s u) : Keeps f m s (pauseQueue q u) := by
  unfold pauseQueue
  repeat' first
    | with_reducible assumption
    | with_reducible apply State.setSqMode_keeps
    | with_reducible apply State.putSq_keeps
    | with_reducible apply Keeps.foldl
    | with_reducible apply Keeps.toF
    | intro _
    | split

theorem State.setCqHead_keeps (c : ℕ) (head : ℕ) {f m : Bool} {s u : State} (h : Keeps f m s u) :
    Keeps f m s (State.setCqHead u c head) := by
  unfold State.setCqHead
  repeat' first
    | with_reducible assumption
    | with_reducible apply State.setReg_keeps
    | with_reducible apply Keeps.foldl
    | with_reducible apply Keeps.toF
    | intro _
    | split

theorem setEvents_keeps (k : ℕ) (value : Word) {f m : Bool} {s u : State} (h : Keeps f m s u) :
    Keeps f m s (setEvents k value u) := by
  unfold setEvents
  repeat' first
    | with_reducible assumption
    | with_reducible apply State.noteSet_keeps
    | with_reducible apply State.setReg_keeps

theorem clearEvents_keeps (k : ℕ) (value : Word) {f m : Bool} {s u : State} (h : Keeps f m s u) :
    Keeps f m s (clearEvents k value u) := by
  unfold clearEvents
  repeat' first
    | with_reducible assumption
    | with_reducible apply State.setReg_keeps

theorem State.noteTimer_keeps (t : ℕ) {f m : Bool} {s u : State} (h : Keeps f m s u) :
    Keeps f m s (State.noteTimer u t) := by
  unfold State.noteTimer
  repeat' first
    | with_reducible assumption
    | with_reducible apply Keeps.foldl
    | with_reducible apply Keeps.toF
    | intro _
    | split
    | dsimp only
    | simp only [Keeps.lit]

theorem writeTmrCtl_keeps (t : ℕ) (value : Word) {f m : Bool} {s u : State} (h : Keeps f m s u) :
    Keeps f m s (writeTmrCtl t value u) := by
  unfold writeTmrCtl
  repeat' first
    | with_reducible assumption
    | with_reducible apply State.hwSet_keeps
    | with_reducible apply State.setReg_keeps
    | with_reducible apply State.noteTimer_keeps
    | with_reducible apply Keeps.foldl
    | with_reducible apply Keeps.toF
    | intro _
    | split
    | dsimp only

theorem writeCtxMap_keeps (c : ℕ) (value : Word) {f m : Bool} {s u : State} (h : Keeps f m s u) :
    Keeps f m s (writeCtxMap c value u) := by
  unfold writeCtxMap
  repeat' first
    | with_reducible assumption
    | with_reducible apply State.hwSet_keeps
    | with_reducible apply State.setReg_keeps
    | with_reducible apply Keeps.foldl
    | with_reducible apply Keeps.toF
    | intro _
    | split

theorem State.releaseUnits_keeps (t : Task) {f m : Bool} {s u : State} (h : Keeps f m s u) :
    Keeps f m s (State.releaseUnits u t) := by
  unfold State.releaseUnits
  repeat' first
    | with_reducible assumption
    | with_reducible apply State.setReg_keeps
    | with_reducible apply State.setFld_keeps
    | with_reducible apply State.setBit_keeps
    | with_reducible apply Keeps.foldl
    | with_reducible apply Keeps.toF
    | intro _
    | split

theorem State.retireTask_keeps (t : Task) {f : Bool} {s u : State} (h : Keeps f false s u) :
    Keeps f false s (State.retireTask u t) := by
  unfold State.retireTask
  repeat' first
    | with_reducible assumption
    | with_reducible apply State.dropTask_keeps
    | with_reducible apply State.releaseUnits_keeps
    | with_reducible apply State.bindWaiting_keeps
    | with_reducible apply Keeps.foldl
    | with_reducible apply Keeps.toF
    | intro _
    | split
    | dsimp only
    | simp only [Keeps.lit]

theorem State.releaseJournal_keeps {f : Bool} {s u : State} (h : Keeps f false s u) :
    Keeps f false s (State.releaseJournal u) := by
  unfold State.releaseJournal
  repeat' first
    | with_reducible assumption
    | with_reducible apply State.retireTask_keeps
    | with_reducible apply Keeps.foldl
    | with_reducible apply Keeps.toF
    | intro _
    | split

theorem writeJrCfg_keeps (value : Word) {f : Bool} {s u : State} (h : Keeps f false s u) :
    Keeps f false s (writeJrCfg value u) := by
  unfold writeJrCfg
  repeat' first
    | with_reducible assumption
    | with_reducible apply State.setBit_keeps
    | with_reducible apply State.releaseJournal_keeps
    | with_reducible apply State.setFld_keeps
    | with_reducible apply State.hwSet_keeps
    | with_reducible apply State.setReg_keeps
    | with_reducible apply Keeps.foldl
    | with_reducible apply Keeps.toF
    | intro _
    | split
    | dsimp only

theorem setJrHead_keeps (head : ℕ) {f m : Bool} {s u : State} (h : Keeps f m s u) :
    Keeps f m s (setJrHead head u) := by
  unfold setJrHead
  repeat' first
    | with_reducible assumption
    | with_reducible apply State.setReg_keeps
    | with_reducible apply Keeps.foldl
    | with_reducible apply Keeps.toF
    | intro _
    | split

theorem ringSqDoorbell_keeps (q : ℕ) (value : Word) {f m : Bool} {s u : State} (h : Keeps f m s u) :
    Keeps f m s (ringSqDoorbell q value u) := by
  unfold ringSqDoorbell
  repeat' first
    | with_reducible assumption
    | with_reducible apply State.sqStop_keeps
    | with_reducible apply State.putSq_keeps
    | with_reducible apply State.setReg_keeps
    | with_reducible apply State.startFetch_keeps
    | with_reducible apply State.capture_keeps
    | with_reducible apply Keeps.foldl
    | with_reducible apply Keeps.toF
    | intro _
    | split
    | dsimp only

theorem ringCqDoorbell_keeps (q : ℕ) (value : Word) {f m : Bool} {s u : State} (h : Keeps f m s u) :
    Keeps f m s (ringCqDoorbell q value u) := by
  unfold ringCqDoorbell
  repeat' first
    | with_reducible assumption
    | with_reducible apply State.setCqHead_keeps
    | with_reducible apply Keeps.foldl
    | with_reducible apply Keeps.toF
    | intro _
    | split
    | dsimp only

theorem State.invalidateCq_keeps (i : Inval) (c : ℕ) {f m : Bool} {s u : State} (h : Keeps f m s u) :
    Keeps f m s (State.invalidateCq i u c) := by
  unfold State.invalidateCq
  repeat' first
    | with_reducible assumption
    | with_reducible apply State.cqStop_keeps
    | with_reducible apply State.putCq_keeps
    | with_reducible apply Keeps.foldl
    | with_reducible apply Keeps.toF
    | intro _
    | split
    | dsimp only

theorem State.invalidateFailed_keeps (t : Task) {f m : Bool} {s u : State} (h : Keeps f m s u) :
    Keeps f m s (State.invalidateFailed u t) := by
  unfold State.invalidateFailed
  repeat' first
    | with_reducible assumption
    | with_reducible apply State.failAgain_keeps
    | with_reducible apply State.unbind_keeps
    | with_reducible apply State.putTask_keeps
    | with_reducible apply State.bump_keeps
    | with_reducible apply Keeps.foldl
    | with_reducible apply Keeps.toF
    | intro _
    | split
    | dsimp only

theorem State.invalidateSq_keeps (i : Inval) (q : ℕ) {f m : Bool} {s u : State} (h : Keeps f m s u) :
    Keeps f m s (State.invalidateSq i u q) := by
  unfold State.invalidateSq
  repeat' first
    | with_reducible assumption
    | with_reducible apply State.putSq_keeps
    | with_reducible apply State.sqStop_keeps
    | with_reducible apply Keeps.foldl
    | with_reducible apply Keeps.toF
    | intro _
    | split
    | dsimp only

theorem State.invalidateTask_keeps (i : Inval) (ref : TaskRef) {f : Bool} {s u : State} (h : Keeps f false s u) :
    Keeps f false s (State.invalidateTask i u ref) := by
  unfold State.invalidateTask
  repeat' first
    | with_reducible assumption
    | with_reducible apply State.putTask_keeps
    | with_reducible apply State.failTask_keeps
    | with_reducible apply State.bump_keeps
    | with_reducible apply State.failDone_keeps
    | with_reducible apply State.invalidateFailed_keeps
    | with_reducible apply Keeps.foldl
    | with_reducible apply Keeps.toF
    | intro _
    | split
    | dsimp only

theorem State.jrAdvance_keeps {f m : Bool} {s u : State} (h : Keeps f m s u) : Keeps f m s (State.jrAdvance u) := by
  unfold State.jrAdvance
  repeat' first
    | with_reducible assumption
    | with_reducible apply State.setFld_keeps
    | with_reducible apply State.setBit_keeps
    | with_reducible apply Keeps.foldl
    | with_reducible apply Keeps.toF
    | intro _
    | split
    | dsimp only

theorem State.jrOverwrite_keeps {f m : Bool} {s u : State} (h : Keeps f m s u) :
    Keeps f m s (State.jrOverwrite u) := by
  unfold State.jrOverwrite
  repeat' first
    | with_reducible assumption
    | with_reducible apply State.bump_keeps
    | with_reducible apply State.setFld_keeps
    | with_reducible apply Keeps.foldl
    | with_reducible apply Keeps.toF
    | intro _
    | split

theorem State.jrStop_keeps (st : Status) {f m : Bool} {s u : State} (h : Keeps f m s u) :
    Keeps f m s (State.jrStop u st) := by
  unfold State.jrStop
  repeat' first
    | with_reducible assumption
    | with_reducible apply State.setReg_keeps
    | with_reducible apply State.setBit_keeps

theorem State.sendNotices_keeps (ref : TaskRef) {f m : Bool} {s u : State} (h : Keeps f m s u) :
    Keeps f m s (State.sendNotices u ref) := by
  unfold State.sendNotices
  repeat' first
    | with_reducible assumption
    | with_reducible apply State.emitFabric_keeps
    | with_reducible apply Keeps.foldl
    | with_reducible apply Keeps.toF
    | intro _
    | split

theorem State.observe_keeps {f m : Bool} {s u : State} (h : Keeps f m s u) : Keeps f m s (State.observe u) := by
  unfold State.observe
  repeat' first
    | with_reducible assumption
    | with_reducible apply Keeps.foldl
    | with_reducible apply Keeps.toF
    | intro _
    | split
    | dsimp only
    | simp only [Keeps.lit]

theorem State.noteDispatch_keeps {f m : Bool} {s u : State} (h : Keeps f m s u) :
    Keeps f m s (State.noteDispatch u) := by
  unfold State.noteDispatch
  repeat' first
    | with_reducible assumption
    | with_reducible apply Keeps.foldl
    | with_reducible apply Keeps.toF
    | intro _
    | split
    | dsimp only
    | simp only [Keeps.lit]

theorem State.prefetchFailed_keeps (q : ℕ) (p : ℕ) (tag : ℕ) (st : Status) (a : ℕ) {f m : Bool} {s u : State} (h
    : Keeps f m s u) : Keeps f m s (State.prefetchFailed u q p tag st a) := by
  unfold State.prefetchFailed
  repeat' first
    | with_reducible assumption
    | with_reducible apply State.stepFree_keeps
    | with_reducible apply State.sqHalt_keeps
    | with_reducible apply State.memRefusal_keeps
    | with_reducible apply Keeps.foldl
    | with_reducible apply Keeps.toF
    | intro _
    | split

theorem State.requestFor_keeps (ref : TaskRef) {f : Bool} {s u : State} (h : Keeps f false s u) :
    Keeps f false s (State.requestFor u ref) := by
  unfold State.requestFor
  repeat' first
    | with_reducible assumption
    | with_reducible apply State.formUntranslated_keeps
    | with_reducible apply State.xlateNext_keeps
    | with_reducible apply State.putTask_keeps
    | with_reducible apply State.emit_keeps
    | with_reducible apply State.bump_keeps
    | with_reducible apply Keeps.foldl
    | with_reducible apply Keeps.toF
    | intro _
    | split
    | dsimp only

theorem State.retryPages_keeps (g : PrgRun) {f m : Bool} {s u : State} (h : Keeps f m s u) :
    Keeps f m s (State.retryPages u g) := by
  unfold State.retryPages
  repeat' first
    | with_reducible assumption
    | with_reducible apply State.putTask_keeps
    | with_reducible apply Keeps.foldl
    | with_reducible apply Keeps.toF
    | intro _
    | split

theorem State.sendPages_keeps (prg : Nat) (pasid : Option (BitVec 20)) (l : List FaultPage) {f m : Bool} {s u : State}
    (h : Keeps f m s u) : Keeps f m s (State.sendPages u prg pasid l) := by
  induction l generalizing u with
  | nil => exact h
  | cons g t ih => exact ih (State.emit_keeps _ h)

theorem State.sendRecord_keeps (c : ℕ) (a : ℕ) (bs : List Byte) {f m : Bool} {s u : State} (h : Keeps f m s u) :
    Keeps f m s (State.sendRecord u c a bs) := by
  unfold State.sendRecord
  repeat' first
    | with_reducible assumption
    | with_reducible apply State.emit_keeps
    | with_reducible apply Keeps.foldl
    | with_reducible apply Keeps.toF
    | intro _
    | split

theorem State.sqHostReads_keeps (q : ℕ) (units : List ℕ) {f m : Bool} {s u : State} (h : Keeps f m s u) :
    Keeps f m s (State.sqHostReads u q units) := by
  unfold State.sqHostReads
  repeat' first
    | with_reducible assumption
    | with_reducible apply State.sqHostRead_keeps
    | with_reducible apply Keeps.foldl
    | with_reducible apply Keeps.toF
    | intro _
    | split

theorem State.takeClaim_keeps (t : Task) (c : Claim) {f m : Bool} {s u : State} (h : Keeps f m s u) :
    Keeps f m s (State.takeClaim u t c) := by
  unfold State.takeClaim
  repeat' first
    | with_reducible assumption
    | with_reducible apply State.setReg_keeps
    | with_reducible apply State.setFld_keeps
    | with_reducible apply State.setBit_keeps
    | with_reducible apply Keeps.foldl
    | with_reducible apply Keeps.toF
    | intro _
    | split

theorem State.takeSeq_keeps (t : Task) {f m : Bool} {s u : State} (h : Keeps f m s u) : Keeps f m s (u.takeSeq t).2 := by
  unfold State.takeSeq
  split
  · exact h
  · exact h

theorem State.start_keeps (t : Task) (c : Claim) {f : Bool} {s u : State} (h : Keeps f false s u) :
    Keeps f false s (State.start u t c) := by
  unfold State.start
  have k := State.takeSeq_keeps t h
  dsimp only
  repeat' first
    | exact k
    | with_reducible assumption
    | with_reducible apply State.putTask_keeps
    | with_reducible apply State.stepFree_keeps
    | with_reducible apply State.takeClaim_keeps
    | with_reducible apply State.putAperture_keeps
    | with_reducible apply State.failTask_keeps
    | with_reducible apply State.settle_keeps
    | with_reducible apply State.exchange_keeps
    | with_reducible apply Keeps.foldl
    | with_reducible apply Keeps.toF
    | intro _
    | split

theorem State.takeEntry_keeps (q : Fin 1024) (e : List Byte) {f : Bool} {s u : State} (h : Keeps f false s u) :
    Keeps f false s (State.takeEntry u q e) := by
  unfold State.takeEntry
  repeat' first
    | with_reducible assumption
    | with_reducible apply State.sqStop_keeps
    | with_reducible apply State.putSq_keeps
    | with_reducible apply State.startFetch_keeps
    | with_reducible apply State.admitTask_keeps
    | with_reducible apply State.passEntry_keeps
    | with_reducible apply Keeps.foldl
    | with_reducible apply Keeps.toF
    | intro _
    | split

theorem State.takeRanges_keeps (n : ℕ) {f m : Bool} {s u : State} (h : Keeps f m s u) :
    Keeps f m s (State.takeRanges u n) := by
  unfold State.takeRanges
  repeat' first
    | with_reducible assumption
    | with_reducible apply State.setReg_keeps

theorem acceptEntry_keeps (q : Fin 1024) (answer : RingAnswer) {f : Bool} {s u : State} (h : Keeps f false s u) :
    Keeps f false s (acceptEntry q answer u) := by
  unfold acceptEntry
  repeat' first
    | with_reducible assumption
    | with_reducible apply State.takeEntry_keeps
    | with_reducible apply State.sqHostReads_keeps
    | with_reducible apply State.sqReadFailed_keeps
    | with_reducible apply Keeps.foldl
    | with_reducible apply Keeps.toF
    | intro _
    | split
    | dsimp only

theorem appendJournal_keeps (ref : TaskRef) (cond : MemCond) {f : Bool} {s u : State} (h : Keeps f false s u) :
    Keeps f false s (appendJournal ref cond u) := by
  unfold appendJournal
  repeat' first
    | with_reducible assumption
    | with_reducible apply State.retireTask_keeps
    | with_reducible apply State.bump_keeps
    | with_reducible apply State.jrStop_keeps
    | with_reducible apply State.memRefusal_keeps
    | with_reducible apply State.jrAdvance_keeps
    | with_reducible apply State.jrOverwrite_keeps
    | with_reducible apply State.writeMem_keeps
    | with_reducible apply State.noteCorrected_keeps
    | with_reducible apply Keeps.foldl
    | with_reducible apply Keeps.toF
    | intro _
    | split
    | dsimp only

theorem blockListFetched_keeps (ref : TaskRef) (cond : MemCond) {f : Bool} {s u : State} (h : Keeps f false s u) :
    Keeps f false s (blockListFetched ref cond u) := by
  unfold blockListFetched
  repeat' first
    | with_reducible assumption
    | with_reducible apply State.fail_keeps
    | with_reducible apply State.memRefusal_keeps
    | with_reducible apply State.placeBlocks_keeps
    | with_reducible apply State.noteCorrected_keeps
    | with_reducible apply Keeps.foldl
    | with_reducible apply Keeps.toF
    | intro _
    | split
    | dsimp only

theorem completeFence_keeps (ref : TaskRef) {f m : Bool} {s u : State} (h : Keeps f m s u) :
    Keeps f m s (completeFence ref u) := by
  unfold completeFence
  repeat' first
    | with_reducible assumption
    | with_reducible apply State.putTask_keeps
    | with_reducible apply Keeps.foldl
    | with_reducible apply Keeps.toF
    | intro _
    | split

theorem completeWait_keeps (ref : TaskRef) {f m : Bool} {s u : State} (h : Keeps f m s u) :
    Keeps f m s (completeWait ref u) := by
  unfold completeWait
  repeat' first
    | with_reducible assumption
    | with_reducible apply State.putTask_keeps
    | with_reducible apply Keeps.foldl
    | with_reducible apply Keeps.toF
    | intro _
    | split

theorem dispatchOne_keeps {f : Bool} {s u : State} (h : Keeps f false s u) : Keeps f false s (dispatchOne u) := by
  unfold dispatchOne
  repeat' first
    | with_reducible assumption
    | with_reducible apply State.start_keeps
    | with_reducible apply State.noteDispatch_keeps
    | with_reducible apply State.failTask_keeps
    | with_reducible apply Keeps.foldl
    | with_reducible apply Keeps.toF
    | intro _
    | split

theorem writeRecord_keeps (ref : TaskRef) {f m : Bool} {s u : State} (h : Keeps f m s u) :
    Keeps f m s (writeRecord ref u) := by
  unfold writeRecord
  repeat' first
    | with_reducible assumption
    | with_reducible apply State.dropRecord_keeps
    | with_reducible apply State.cqCount_keeps
    | with_reducible apply State.cqAdvance_keeps
    | with_reducible apply State.putTask_keeps
    | with_reducible apply State.sendRecord_keeps
    | with_reducible apply Keeps.foldl
    | with_reducible apply Keeps.toF
    | intro _
    | split
    | dsimp only

theorem irqDelay_keeps (c : ℕ) {f m : Bool} {s u : State} (h : Keeps f m s u) : Keeps f m s (irqDelay c u) := by
  unfold irqDelay
  repeat' first
    | with_reducible assumption
    | with_reducible apply State.putCq_keeps
    | with_reducible apply State.msix_keeps
    | with_reducible apply Keeps.foldl
    | with_reducible apply Keeps.toF
    | intro _
    | split
    | dsimp only

theorem invalidateCompleted_keeps {f m : Bool} {s u : State} (h : Keeps f m s u) :
    Keeps f m s (invalidateCompleted u) := by
  unfold invalidateCompleted
  repeat' first
    | with_reducible assumption
    | with_reducible apply State.emit_keeps
    | with_reducible apply State.bump_keeps
    | with_reducible apply Keeps.foldl
    | with_reducible apply Keeps.toF
    | intro _
    | split
    | dsimp only
    | simp only [Keeps.lit]

theorem invalidateRequested_keeps (pasid : Option (BitVec 20)) (global : Bool) (addr : ℕ) (len : ℕ) {f : Bool}
    {s u : State} (h : Keeps f false s u) : Keeps f false s (invalidateRequested pasid global addr len u) := by
  unfold invalidateRequested
  repeat' first
    | with_reducible assumption
    | with_reducible apply State.invalidateTask_keeps
    | with_reducible apply State.invalidateSq_keeps
    | with_reducible apply State.invalidateCq_keeps
    | with_reducible apply Keeps.foldl
    | with_reducible apply Keeps.toF
    | intro _
    | split
    | dsimp only
    | simp only [Keeps.lit]

theorem sendGroup_keeps (ref : TaskRef) {f m : Bool} {s u : State} (h : Keeps f m s u) :
    Keeps f m s (sendGroup ref u) := by
  unfold sendGroup
  repeat' first
    | with_reducible assumption
    | with_reducible apply State.putTask_keeps
    | with_reducible apply State.sendPages_keeps
    | with_reducible apply State.bump_keeps
    | with_reducible apply Keeps.foldl
    | with_reducible apply Keeps.toF
    | intro _
    | split
    | dsimp only
    | simp only [Keeps.lit]

theorem prgAnswered_keeps (prg : ℕ) (code : PrgCode) {f : Bool} {s u : State} (h : Keeps f false s u) :
    Keeps f false s (prgAnswered prg code u) := by
  unfold prgAnswered
  repeat' first
    | with_reducible assumption
    | with_reducible apply State.retryPages_keeps
    | with_reducible apply State.failGroup_keeps
    | with_reducible apply State.setBit_keeps
    | with_reducible apply Keeps.foldl
    | with_reducible apply Keeps.toF
    | intro _
    | split
    | dsimp only
    | simp only [Keeps.lit]

theorem reserveRanges_keeps (ref : TaskRef) {f : Bool} {s u : State} (h : Keeps f false s u) :
    Keeps f false s (reserveRanges ref u) := by
  unfold reserveRanges
  repeat' first
    | with_reducible assumption
    | with_reducible apply State.putTask_keeps
    | with_reducible apply State.takeRanges_keeps
    | with_reducible apply State.formUntranslated_keeps
    | with_reducible apply Keeps.foldl
    | with_reducible apply Keeps.toF
    | intro _
    | split

theorem headerResponse_keeps (q : ℕ) (answer : RingAnswer) {f m : Bool} {s u : State} (h : Keeps f m s u) :
    Keeps f m s (headerResponse q answer u) := by
  unfold headerResponse
  repeat' first
    | with_reducible assumption
    | with_reducible apply State.putSq_keeps
    | with_reducible apply State.sqReadFailed_keeps
    | with_reducible apply Keeps.foldl
    | with_reducible apply Keeps.toF
    | intro _
    | split
    | dsimp only

theorem headerReread_keeps (q : ℕ) {f m : Bool} {s u : State} (h : Keeps f m s u) :
    Keeps f m s (headerReread q u) := by
  unfold headerReread
  repeat' first
    | with_reducible assumption
    | with_reducible apply State.readHeader_keeps
    | with_reducible apply State.bump_keeps
    | with_reducible apply Keeps.foldl
    | with_reducible apply Keeps.toF
    | intro _
    | split
    | dsimp only

theorem markTimeout_keeps (q : ℕ) {f m : Bool} {s u : State} (h : Keeps f m s u) : Keeps f m s (markTimeout q u) := by
  unfold markTimeout
  repeat' first
    | with_reducible assumption
    | with_reducible apply State.sqStop_keeps
    | with_reducible apply Keeps.foldl
    | with_reducible apply Keeps.toF
    | intro _
    | split

theorem prefetchRead_keeps (q : ℕ) (answer : RingAnswer) {f m : Bool} {s u : State} (h : Keeps f m s u) :
    Keeps f m s (prefetchRead q answer u) := by
  unfold prefetchRead
  repeat' first
    | with_reducible assumption
    | with_reducible apply State.sqHostReads_keeps
    | with_reducible apply State.prefetchFailed_keeps
    | with_reducible apply State.putSq_keeps
    | with_reducible apply Keeps.foldl
    | with_reducible apply Keeps.toF
    | intro _
    | split
    | dsimp only

theorem fireTimer_keeps (t : ℕ) {f m : Bool} {s u : State} (h : Keeps f m s u) : Keeps f m s (fireTimer t u) := by
  unfold fireTimer
  repeat' first
    | with_reducible assumption
    | with_reducible apply State.noteTimer_keeps
    | with_reducible apply State.setFlag_keeps
    | with_reducible apply State.stepFree_keeps
    | with_reducible apply State.bump_keeps
    | with_reducible apply State.setReg64_keeps
    | with_reducible apply State.setBit_keeps
    | with_reducible apply Keeps.foldl
    | with_reducible apply Keeps.toF
    | intro _
    | split

theorem xlateCompleted_keeps (ref : TaskRef) (answer : XlateAnswer) {f : Bool} {s u : State} (h : Keeps f false
    s u) : Keeps f false s (xlateCompleted ref answer u) := by
  unfold xlateCompleted
  repeat' first
    | with_reducible assumption
    | with_reducible apply State.dropXreq_keeps
    | with_reducible apply State.putTask_keeps
    | with_reducible apply State.failAtXlate_keeps
    | with_reducible apply State.xlateNext_keeps
    | with_reducible apply Keeps.foldl
    | with_reducible apply Keeps.toF
    | intro _
    | split
    | dsimp only
    | simp only [Keeps.lit]

theorem requestRound_keeps {f : Bool} {s u : State} (h : Keeps f false s u) : Keeps f false s (requestRound u) := by
  unfold requestRound
  repeat' first
    | with_reducible assumption
    | with_reducible apply State.requestFor_keeps
    | with_reducible apply Keeps.foldl
    | with_reducible apply Keeps.toF
    | intro _

theorem xlateTimeout_keeps (ref : TaskRef) {f : Bool} {s u : State} (h : Keeps f false s u) :
    Keeps f false s (xlateTimeout ref u) := by
  unfold xlateTimeout
  repeat' first
    | with_reducible assumption
    | with_reducible apply State.dropXreq_keeps
    | with_reducible apply State.failAtXlate_keeps
    | with_reducible apply Keeps.foldl
    | with_reducible apply Keeps.toF
    | intro _
    | split
    | dsimp only
    | simp only [Keeps.lit]

end Sys2Proof.Machine
end

