-- ==== Sys2Proof/Laws/KeepsData.lean ====
section
/-!
SUPPORT. What each operation keeps (Laws/Keeps.lean): a task's data path, collectives, streams and the step.
-/
namespace Sys2Proof.Machine

open Sys2Proof

theorem State.activateStreams_keeps {f m : Bool} {s u : State} (h : Keeps f m s u) :
    Keeps f m s (State.activateStreams u) := by
  unfold State.activateStreams
  repeat' first
    | with_reducible assumption
    | with_reducible apply State.setReg_keeps
    | with_reducible apply Keeps.foldl
    | with_reducible apply Keeps.toF
    | intro _
    | split
    | dsimp only
    | simp only [Keeps.lit]

theorem State.countHold_keeps (cause : ℕ) (cycles : ℕ) {f m : Bool} {s u : State} (h : Keeps f m s u) :
    Keeps f m s (State.countHold u cause cycles) := by
  unfold State.countHold
  repeat' first
    | with_reducible assumption
    | with_reducible apply State.bump64_keeps

theorem State.resolveWhere_keeps (p : Deferred → Bool) {f m : Bool} {s u : State} (h : Keeps f m s u) :
    Keeps f m s (State.resolveWhere u p) := by
  unfold State.resolveWhere
  repeat' first
    | with_reducible assumption
    | with_reducible apply State.countHold_keeps
    | with_reducible apply Keeps.foldl
    | with_reducible apply Keeps.toF
    | intro _
    | split
    | dsimp only
    | simp only [Keeps.lit]

theorem State.resolveHolds_keeps {f m : Bool} {s u : State} (h : Keeps f m s u) :
    Keeps f m s (State.resolveHolds u) := by
  unfold State.resolveHolds
  repeat' first
    | with_reducible assumption
    | with_reducible apply State.resolveWhere_keeps

theorem State.addReady_keeps (n : ℕ) (tiles : List ℕ) {f m : Bool} {s u : State} (h : Keeps f m s u) :
    Keeps f m s (State.addReady u n tiles) := by
  unfold State.addReady
  repeat' first
    | with_reducible assumption
    | with_reducible apply State.resolveHolds_keeps
    | with_reducible apply State.putStream_keeps
    | with_reducible apply Keeps.foldl
    | with_reducible apply Keeps.toF
    | intro _
    | split

theorem State.answerPiece_keeps (t : Task) (rank : ℕ) {f m : Bool} {s u : State} (h : Keeps f m s u) :
    Keeps f m s (State.answerPiece u t rank) := by
  unfold State.answerPiece
  repeat' first
    | with_reducible assumption
    | with_reducible apply State.answerTo_keeps

theorem State.pathParity_keeps (t : Task) {f m : Bool} {s u : State} (h : Keeps f m s u) :
    Keeps f m s (State.pathParity u t) := by
  unfold State.pathParity
  repeat' first
    | with_reducible assumption
    | with_reducible apply State.mcEvent_keeps
    | with_reducible apply State.bump_keeps

theorem State.noteRead_keeps (t : Task) (r : ReadReq) (m0 : ReadMarks) {f m : Bool} {s u : State} (h : Keeps f m
    s u) : Keeps f m s (State.noteRead u t r m0) := by
  unfold State.noteRead
  repeat' first
    | with_reducible assumption
    | with_reducible apply State.putStream_keeps
    | with_reducible apply Keeps.foldl
    | with_reducible apply Keeps.toF
    | intro _
    | split
    | dsimp only

theorem State.releaseStaged_keeps (ref : TaskRef) {f m : Bool} {s u : State} (h : Keeps f m s u) :
    Keeps f m s (State.releaseStaged u ref) := by
  unfold State.releaseStaged
  repeat' first
    | with_reducible assumption
    | with_reducible apply State.putTask_keeps
    | with_reducible apply Keeps.foldl
    | with_reducible apply Keeps.toF
    | intro _
    | split

theorem State.noteTiles_keeps (ref : TaskRef) {f m : Bool} {s u : State} (h : Keeps f m s u) :
    Keeps f m s (State.noteTiles u ref) := by
  unfold State.noteTiles
  repeat' first
    | with_reducible assumption
    | with_reducible apply State.addReady_keeps
    | with_reducible apply Keeps.foldl
    | with_reducible apply Keeps.toF
    | intro _
    | split

theorem State.proceed_keeps (ref : TaskRef) {f : Bool} {s u : State} (h : Keeps f false s u) :
    Keeps f false s (State.proceed u ref) := by
  unfold State.proceed
  repeat' first
    | with_reducible assumption
    | with_reducible apply State.settle_keeps
    | with_reducible apply State.exchange_keeps
    | with_reducible apply State.releaseStaged_keeps
    | with_reducible apply State.noteTiles_keeps

theorem State.stageRead_keeps (t : Task) (i : Issued) (m0 : ReadMarks) (bs : List Byte) {f : Bool} {s u : State}
    (h : Keeps f false s u) : Keeps f false s (State.stageRead u t i m0 bs) := by
  unfold State.stageRead
  repeat' first
    | with_reducible assumption
    | with_reducible apply State.noteCorrected_keeps
    | with_reducible apply State.noteRead_keeps
    | with_reducible apply State.putTask_keeps
    | with_reducible apply State.failTask_keeps
    | with_reducible apply State.proceed_keeps
    | with_reducible apply Keeps.foldl
    | with_reducible apply Keeps.toF
    | intro _
    | split
    | dsimp only

theorem State.answerRead_keeps (t : Task) (i : Issued) (answer : ReadAnswer) {f : Bool} {s u : State} (h : Keeps
    f false s u) : Keeps f false s (State.answerRead u t i answer) := by
  unfold State.answerRead
  repeat' first
    | with_reducible assumption
    | with_reducible apply State.failTask_keeps
    | with_reducible apply State.putTask_keeps
    | with_reducible apply State.pathParity_keeps
    | with_reducible apply State.mcUncorrectable_keeps
    | with_reducible apply State.memRefusal_keeps
    | with_reducible apply State.stageRead_keeps
    | with_reducible apply Keeps.foldl
    | with_reducible apply Keeps.toF
    | intro _
    | split
    | dsimp only

theorem State.applyEpoch_keeps {f m : Bool} {s u : State} (h : Keeps f m s u) : Keeps f m s (State.applyEpoch u) := by
  unfold State.applyEpoch
  repeat' first
    | with_reducible assumption
    | with_reducible apply State.setReg_keeps
    | with_reducible apply Keeps.foldl
    | with_reducible apply Keeps.toF
    | intro _

theorem reportLongHold_keeps {f m : Bool} {s u : State} (h : Keeps f m s u) : Keeps f m s (reportLongHold u) := by
  unfold reportLongHold
  repeat' first
    | with_reducible assumption
    | with_reducible apply State.noteSet_keeps
    | with_reducible apply State.setReg_keeps
    | with_reducible apply State.mcEvent_keeps
    | with_reducible apply Keeps.foldl
    | with_reducible apply Keeps.toF
    | intro _
    | split
    | dsimp only
    | simp only [Keeps.lit]

theorem State.setHold_keeps (held : Bool) (cause : ℕ) (stream : ℕ) {f m : Bool} {s u : State} (h : Keeps f m s u) :
    Keeps f m s (State.setHold u held cause stream) := by
  unfold State.setHold
  repeat' first
    | with_reducible assumption
    | with_reducible apply State.setReg_keeps

theorem State.assessHold_keeps {f m : Bool} {s u : State} (h : Keeps f m s u) : Keeps f m s (State.assessHold u) := by
  unfold State.assessHold
  repeat' first
    | with_reducible assumption
    | with_reducible apply State.setHold_keeps
    | with_reducible apply Keeps.foldl
    | with_reducible apply Keeps.toF
    | intro _
    | split
    | dsimp only
    | simp only [Keeps.lit]

theorem State.assertHold_keeps {f m : Bool} {s u : State} (h : Keeps f m s u) : Keeps f m s (State.assertHold u) := by
  unfold State.assertHold
  repeat' first
    | with_reducible assumption
    | with_reducible apply reportLongHold_keeps
    | with_reducible apply State.assessHold_keeps
    | with_reducible apply Keeps.foldl
    | with_reducible apply Keeps.toF
    | intro _
    | split

theorem State.deferHold_keeps (n : ℕ) (j : ℕ) {f m : Bool} {s u : State} (h : Keeps f m s u) :
    Keeps f m s (State.deferHold u n j) := by
  unfold State.deferHold
  repeat' first
    | with_reducible assumption
    | with_reducible apply Keeps.foldl
    | with_reducible apply Keeps.toF
    | intro _
    | split
    | dsimp only
    | simp only [Keeps.lit]

theorem State.countHeldCycle_keeps {f m : Bool} {s u : State} (h : Keeps f m s u) :
    Keeps f m s (State.countHeldCycle u) := by
  unfold State.countHeldCycle
  repeat' first
    | with_reducible assumption
    | with_reducible apply State.deferHold_keeps
    | with_reducible apply State.countHold_keeps
    | with_reducible apply Keeps.foldl
    | with_reducible apply Keeps.toF
    | intro _
    | split
    | dsimp only

theorem State.keepCounts_keeps (step : Word) {f m : Bool} {s u : State} (h : Keeps f m s u) :
    Keeps f m s (State.keepCounts u step) := by
  unfold State.keepCounts
  repeat' first
    | with_reducible assumption
    | with_reducible apply State.setReg64_keeps
    | with_reducible apply State.setReg_keeps
    | with_reducible apply Keeps.foldl
    | with_reducible apply Keeps.toF
    | intro _

theorem State.closeHolds_keeps {f m : Bool} {s u : State} (h : Keeps f m s u) : Keeps f m s (State.closeHolds u) := by
  unfold State.closeHolds
  repeat' first
    | with_reducible assumption
    | with_reducible apply State.countHeldCycle_keeps
    | with_reducible apply State.resolveWhere_keeps
    | with_reducible apply State.keepCounts_keeps
    | with_reducible apply Keeps.foldl
    | with_reducible apply Keeps.toF
    | intro _
    | split
    | dsimp only
    | simp only [Keeps.lit]

theorem State.boundary_keeps (t : Task) {f m : Bool} {s u : State} (h : Keeps f m s u) :
    Keeps f m s (State.boundary u t) := by
  unfold State.boundary
  repeat' first
    | with_reducible assumption
    | with_reducible apply State.closeHolds_keeps
    | with_reducible apply State.setHold_keeps
    | with_reducible apply State.setBit_keeps
    | with_reducible apply State.wrapAdd_keeps
    | with_reducible apply State.setReg64_keeps
    | with_reducible apply State.applyEpoch_keeps
    | with_reducible apply State.setReg_keeps
    | with_reducible apply State.activateStreams_keeps
    | with_reducible apply Keeps.foldl
    | with_reducible apply Keeps.toF
    | intro _
    | split
    | dsimp only
    | simp only [Keeps.lit]

theorem State.codecFail_keeps (t : Task) (st : Status) {f : Bool} {s u : State} (h : Keeps f false s u) :
    Keeps f false s (State.codecFail u t st) := by
  unfold State.codecFail
  repeat' first
    | with_reducible assumption
    | with_reducible apply State.failTask_keeps
    | with_reducible apply State.bump_keeps
    | with_reducible apply State.latchReg_keeps

theorem State.decodeBlock_keeps (t : Task) (p : CodecParams) (i : ℕ) (h0 : List Byte) (payload : List Byte) {f :
    Bool} {s u : State} (h : Keeps f false s u) : Keeps f false s (State.decodeBlock u t p i h0 payload) := by
  unfold State.decodeBlock
  repeat' first
    | with_reducible assumption
    | with_reducible apply State.codecFail_keeps
    | with_reducible apply State.putTask_keeps
    | with_reducible apply Keeps.foldl
    | with_reducible apply Keeps.toF
    | intro _
    | split

theorem State.checkHeader_keeps (t : Task) (p : CodecParams) (i : ℕ) (line : List Byte) {f : Bool} {s u : State}
    (h : Keeps f false s u) : Keeps f false s (State.checkHeader u t p i line) := by
  unfold State.checkHeader
  repeat' first
    | with_reducible assumption
    | with_reducible apply State.codecFail_keeps
    | with_reducible apply State.decodeBlock_keeps
    | with_reducible apply State.putTask_keeps
    | with_reducible apply Keeps.foldl
    | with_reducible apply Keeps.toF
    | intro _
    | split
    | dsimp only

theorem State.countIngot_keeps (h0 : List Byte) (payload : List Byte) (block : List Byte) {f m : Bool} {s u :
    State} (h : Keeps f m s u) : Keeps f m s (State.countIngot u h0 payload block) := by
  unfold State.countIngot
  repeat' first
    | with_reducible assumption
    | with_reducible apply State.bump64_keeps
    | with_reducible apply State.bump_keeps

theorem State.countTerms_keeps (before : Task) (after : Task) {f m : Bool} {s u : State} (h : Keeps f m s u) :
    Keeps f m s (State.countTerms u before after) := by
  unfold State.countTerms
  repeat' first
    | with_reducible assumption
    | with_reducible apply State.bump64_keeps
    | with_reducible apply Keeps.foldl
    | with_reducible apply Keeps.toF
    | intro _
    | split

theorem State.discardRead_keeps (t : Task) (no : ℕ) {f : Bool} {s u : State} (h : Keeps f false s u) :
    Keeps f false s (State.discardRead u t no) := by
  unfold State.discardRead
  repeat' first
    | with_reducible assumption
    | with_reducible apply State.settle_keeps
    | with_reducible apply State.putTask_keeps

theorem State.writeHost_keeps (t : Task) (cells : List WCell) {f : Bool} {s u : State} (h : Keeps f false s u) :
    Keeps f false s (State.writeHost u t cells) := by
  unfold State.writeHost
  repeat' first
    | with_reducible assumption
    | with_reducible apply State.failTask_keeps
    | with_reducible apply State.putTask_keeps
    | with_reducible apply State.emit_keeps
    | with_reducible apply Keeps.foldl
    | with_reducible apply Keeps.toF
    | intro _
    | split

theorem State.writeDevice_keeps (t : Task) (ws : List WriteReq) {f : Bool} {s u : State} (h : Keeps f false s u) :
    Keeps f false s (State.writeDevice u t ws) := by
  unfold State.writeDevice
  repeat' first
    | with_reducible assumption
    | with_reducible apply State.failTask_keeps
    | with_reducible apply State.bump_keeps
    | with_reducible apply State.putTask_keeps
    | with_reducible apply State.emitFabric_keeps
    | with_reducible apply Keeps.foldl
    | with_reducible apply Keeps.toF
    | intro _
    | split
    | dsimp only

theorem State.flushLines_keeps (t : Task) (u0 : LTensor) (more : List WriteReq) {f : Bool} {s u : State} (h :
    Keeps f false s u) : Keeps f false s (State.flushLines u t u0 more) := by
  unfold State.flushLines
  repeat' first
    | with_reducible assumption
    | with_reducible apply State.writeDevice_keeps

theorem State.emitOutputs_keeps (ref : TaskRef) {f : Bool} {s u : State} (h : Keeps f false s u) :
    Keeps f false s (State.emitOutputs u ref) := by
  unfold State.emitOutputs
  repeat' first
    | with_reducible assumption
    | with_reducible apply State.putTask_keeps
    | with_reducible apply State.writeHost_keeps
    | with_reducible apply State.flushLines_keeps
    | with_reducible apply Keeps.foldl
    | with_reducible apply Keeps.toF
    | intro _
    | split
    | dsimp only

theorem State.endArrayCycle_keeps {f m : Bool} {s u : State} (h : Keeps f m s u) :
    Keeps f m s (State.endArrayCycle u) := by
  unfold State.endArrayCycle
  repeat' first
    | with_reducible assumption
    | with_reducible apply State.countHeldCycle_keeps
    | with_reducible apply State.setReg64_keeps
    | with_reducible apply State.setFld_keeps
    | with_reducible apply State.resolveHolds_keeps
    | with_reducible apply State.setBit_keeps
    | with_reducible apply Keeps.foldl
    | with_reducible apply Keeps.toF
    | intro _
    | split
    | dsimp only
    | simp only [Keeps.lit]

theorem State.epochReply_keeps {f m : Bool} {s u : State} (h : Keeps f m s u) : Keeps f m s (State.epochReply u) := by
  unfold State.epochReply
  repeat' first
    | with_reducible assumption
    | with_reducible apply Keeps.foldl
    | with_reducible apply Keeps.toF
    | intro _
    | split
    | dsimp only
    | simp only [Keeps.lit]

theorem flushDone_keeps (ref : TaskRef) (ok : Bool) {f : Bool} {s u : State} (h : Keeps f false s u) :
    Keeps f false s (flushDone ref ok u) := by
  unfold flushDone
  repeat' first
    | with_reducible assumption
    | with_reducible apply State.putTask_keeps
    | with_reducible apply State.proceed_keeps
    | with_reducible apply State.settle_keeps
    | with_reducible apply State.failTask_keeps
    | with_reducible apply Keeps.foldl
    | with_reducible apply Keeps.toF
    | intro _
    | split

theorem releaseFailed_keeps (value : Word) {f m : Bool} {s u : State} (h : Keeps f m s u) :
    Keeps f m s (releaseFailed value u) := by
  unfold releaseFailed
  repeat' first
    | with_reducible assumption
    | with_reducible apply State.putStream_keeps
    | with_reducible apply Keeps.foldl
    | with_reducible apply Keeps.toF
    | intro _
    | split

theorem addCredits_keeps (n : ℕ) (value : Word) {f m : Bool} {s u : State} (h : Keeps f m s u) :
    Keeps f m s (addCredits n value u) := by
  unfold addCredits
  repeat' first
    | with_reducible assumption
    | with_reducible apply State.setReg_keeps
    | with_reducible apply State.hwSet_keeps
    | with_reducible apply Keeps.foldl
    | with_reducible apply Keeps.toF
    | intro _
    | split
    | dsimp only

theorem State.keepHolds_keeps {f m : Bool} {s u : State} (h : Keeps f m s u) : Keeps f m s (State.keepHolds u) := by
  unfold State.keepHolds
  repeat' first
    | with_reducible assumption
    | with_reducible apply State.keepCounts_keeps
    | with_reducible apply Keeps.foldl
    | with_reducible apply Keeps.toF
    | intro _
    | split
    | dsimp only
    | simp only [Keeps.lit]

theorem State.pieceDelivered_keeps (node : ℕ) (tag : ℕ) {f : Bool} {s u : State} (h : Keeps f false s u) :
    Keeps f false s (State.pieceDelivered u node tag) := by
  unfold State.pieceDelivered
  repeat' first
    | with_reducible assumption
    | with_reducible apply State.settle_keeps
    | with_reducible apply State.putTask_keeps
    | with_reducible apply State.countTag_keeps
    | with_reducible apply Keeps.foldl
    | with_reducible apply Keeps.toF
    | intro _
    | split
    | dsimp only

theorem State.wireEncode_keeps (t : Task) (fmt : Nat) (bs : List Byte) {f m : Bool} {s u : State} (h : Keeps f m s u) :
    Keeps f m s (u.wireEncode t fmt bs).2 := by
  unfold State.wireEncode
  dsimp only
  split
  · exact Keeps.foldlSnd _ (fun acc x k => State.countIngot_keeps _ _ _ k) h
  · exact h

theorem State.sendPiece_keeps (t : Task) (qs : List ℕ) (stage : ℕ) (i : ℕ) (bs : List Byte) {f m : Bool} {s u :
    State} (h : Keeps f m s u) : Keeps f m s (State.sendPiece u t qs stage i bs) := by
  unfold State.sendPiece
  repeat' first
    | with_reducible apply State.wireEncode_keeps
    | with_reducible assumption
    | with_reducible apply State.putTask_keeps
    | with_reducible apply State.emitFabric_keeps
    | with_reducible apply Keeps.foldl
    | with_reducible apply Keeps.toF
    | intro _

theorem State.takeCredits_keeps (t : Task) (r : ReadReq) {f m : Bool} {s u : State} (h : Keeps f m s u) :
    Keeps f m s (u.takeCredits t r).1 := by
  unfold State.takeCredits
  split
  · exact State.setReg_keeps _ _ h
  · exact h

theorem State.sendRead_keeps (t : Task) (r : ReadReq) {f m : Bool} {s u : State} (h : Keeps f m s u) :
    Keeps f m s (State.sendRead u t r) := by
  unfold State.sendRead
  have k := State.takeCredits_keeps t r h
  dsimp only
  repeat' first
    | exact k
    | with_reducible assumption
    | with_reducible apply State.putTask_keeps
    | with_reducible apply State.emit_keeps
    | with_reducible apply State.emitFabric_keeps
    | with_reducible apply Keeps.foldl
    | with_reducible apply Keeps.toF
    | intro _
    | split

theorem State.startArrayCycle_keeps {f m : Bool} {s u : State} (h : Keeps f m s u) :
    Keeps f m s (State.startArrayCycle u) := by
  unfold State.startArrayCycle
  repeat' first
    | with_reducible assumption
    | with_reducible apply State.assessHold_keeps
    | with_reducible apply reportLongHold_keeps
    | with_reducible apply Keeps.foldl
    | with_reducible apply Keeps.toF
    | intro _
    | split
    | dsimp only
    | simp only [Keeps.lit]

theorem ackWrite_keeps (ref : TaskRef) (answer : WriteAnswer) {f : Bool} {s u : State} (h : Keeps f false s u) :
    Keeps f false s (ackWrite ref answer u) := by
  unfold ackWrite
  repeat' first
    | with_reducible assumption
    | with_reducible apply State.proceed_keeps
    | with_reducible apply State.putTask_keeps
    | with_reducible apply State.settle_keeps
    | with_reducible apply State.failTask_keeps
    | with_reducible apply State.writeCells_keeps
    | with_reducible apply State.memRefusal_keeps
    | with_reducible apply Keeps.foldl
    | with_reducible apply Keeps.toF
    | intro _
    | split

theorem applyBoundary_keeps {f m : Bool} {s u : State} (h : Keeps f m s u) : Keeps f m s (applyBoundary u) := by
  unfold applyBoundary
  repeat' first
    | with_reducible assumption
    | with_reducible apply State.boundary_keeps
    | with_reducible apply Keeps.foldl
    | with_reducible apply Keeps.toF
    | intro _
    | split

theorem barrierCycle_keeps {f m : Bool} {s u : State} (h : Keeps f m s u) : Keeps f m s (barrierCycle u) := by
  unfold barrierCycle
  repeat' first
    | with_reducible assumption
    | with_reducible apply State.assertHold_keeps
    | with_reducible apply Keeps.foldl
    | with_reducible apply Keeps.toF
    | intro _
    | split

theorem completeClose_keeps {f m : Bool} {s u : State} (h : Keeps f m s u) : Keeps f m s (completeClose u) := by
  unfold completeClose
  repeat' first
    | with_reducible assumption
    | with_reducible apply State.putTask_keeps
    | with_reducible apply State.epochReply_keeps
    | with_reducible apply Keeps.foldl
    | with_reducible apply Keeps.toF
    | intro _
    | split
    | dsimp only
    | simp only [Keeps.lit]

theorem completeTile_keeps (n : ℕ) {f m : Bool} {s u : State} (h : Keeps f m s u) :
    Keeps f m s (completeTile n u) := by
  unfold completeTile
  repeat' first
    | with_reducible assumption
    | with_reducible apply State.resolveHolds_keeps
    | with_reducible apply State.setReg_keeps
    | with_reducible apply State.putStream_keeps
    | with_reducible apply Keeps.foldl
    | with_reducible apply Keeps.toF
    | intro _
    | split

theorem compressNext_keeps (ref : TaskRef) {f : Bool} {s u : State} (h : Keeps f false s u) :
    Keeps f false s (compressNext ref u) := by
  unfold compressNext
  repeat' first
    | with_reducible assumption
    | with_reducible apply State.proceed_keeps
    | with_reducible apply State.writeDevice_keeps
    | with_reducible apply State.countIngot_keeps
    | with_reducible apply Keeps.foldl
    | with_reducible apply Keeps.toF
    | intro _
    | split
    | dsimp only

theorem creditGranted_keeps (ref : TaskRef) (rank : ℕ) (stage : ℕ) (piece : ℕ) (ann : Announcement) {f : Bool}
    {s u : State} (h : Keeps f false s u) : Keeps f false s (creditGranted ref rank stage piece ann u) := by
  unfold creditGranted
  repeat' first
    | with_reducible assumption
    | with_reducible apply State.failTask_keeps
    | with_reducible apply State.putTask_keeps
    | with_reducible apply Keeps.foldl
    | with_reducible apply Keeps.toF
    | intro _
    | split

theorem detachMember_keeps (ref : TaskRef) (rank : ℕ) {f : Bool} {s u : State} (h : Keeps f false s u) :
    Keeps f false s (detachMember ref rank u) := by
  unfold detachMember
  repeat' first
    | with_reducible assumption
    | with_reducible apply State.emitFabric_keeps
    | with_reducible apply State.bump_keeps
    | with_reducible apply State.latchReg_keeps
    | with_reducible apply State.proceed_keeps
    | with_reducible apply State.putTask_keeps
    | with_reducible apply Keeps.foldl
    | with_reducible apply Keeps.toF
    | intro _
    | split

theorem failureNotice_keeps (ctag : ℕ) (st : Status) {f : Bool} {s u : State} (h : Keeps f false s u) :
    Keeps f false s (failureNotice ctag st u) := by
  unfold failureNotice
  repeat' first
    | with_reducible assumption
    | with_reducible apply State.failDone_keeps
    | with_reducible apply State.fail_keeps
    | with_reducible apply Keeps.foldl
    | with_reducible apply Keeps.toF
    | intro _
    | split

theorem pieceReceive_keeps (ref : TaskRef) (p : Piece) {f : Bool} {s u : State} (h : Keeps f false s u) :
    Keeps f false s (pieceReceive ref p u) := by
  unfold pieceReceive
  repeat' first
    | with_reducible assumption
    | with_reducible apply State.failTask_keeps
    | with_reducible apply State.answerPiece_keeps
    | with_reducible apply State.codecFail_keeps
    | with_reducible apply State.proceed_keeps
    | with_reducible apply State.emitOutputs_keeps
    | with_reducible apply State.putTask_keeps
    | with_reducible apply State.countTerms_keeps
    | with_reducible apply State.countTag_keeps
    | with_reducible apply Keeps.foldl
    | with_reducible apply Keeps.toF
    | intro _
    | split
    | dsimp only

theorem pieceSend_keeps (ref : TaskRef) (rank : ℕ) {f : Bool} {s u : State} (h : Keeps f false s u) :
    Keeps f false s (pieceSend ref rank u) := by
  unfold pieceSend
  repeat' first
    | with_reducible assumption
    | with_reducible apply State.proceed_keeps
    | with_reducible apply State.sendPiece_keeps
    | with_reducible apply Keeps.foldl
    | with_reducible apply Keeps.toF
    | intro _
    | split
    | dsimp only

theorem executeStep_keeps (ref : TaskRef) {f : Bool} {s u : State} (h : Keeps f false s u) :
    Keeps f false s (executeStep ref u) := by
  unfold executeStep
  repeat' first
    | with_reducible assumption
    | with_reducible apply State.proceed_keeps
    | with_reducible apply State.emitOutputs_keeps
    | with_reducible apply State.putTask_keeps
    | with_reducible apply State.countTerms_keeps
    | with_reducible apply Keeps.foldl
    | with_reducible apply Keeps.toF
    | intro _
    | split

theorem executeChecked_keeps (ref : TaskRef) (check : PathCheck) {f : Bool} {s u : State} (h : Keeps f false s u) :
    Keeps f false s (executeChecked ref check u) := by
  unfold executeChecked
  repeat' first
    | with_reducible assumption
    | with_reducible apply executeStep_keeps
    | with_reducible apply State.bump_keeps
    | with_reducible apply State.failTask_keeps
    | with_reducible apply State.mcEvent_keeps
    | with_reducible apply State.pathParity_keeps
    | with_reducible apply Keeps.foldl
    | with_reducible apply Keeps.toF
    | intro _
    | split

theorem writeGeneration_keeps (n : ℕ) {f : Bool} {s u : State} (h : Keeps f false s u) :
    Keeps f false s (writeGeneration n u) := by
  unfold writeGeneration
  repeat' first
    | with_reducible assumption
    | with_reducible apply State.putStream_keeps
    | with_reducible apply State.writeMem_keeps
    | with_reducible apply Keeps.foldl
    | with_reducible apply Keeps.toF
    | intro _
    | split

theorem expandIngot_keeps (ref : TaskRef) {f : Bool} {s u : State} (h : Keeps f false s u) :
    Keeps f false s (expandIngot ref u) := by
  unfold expandIngot
  repeat' first
    | with_reducible assumption
    | with_reducible apply State.checkHeader_keeps
    | with_reducible apply State.decodeBlock_keeps
    | with_reducible apply Keeps.foldl
    | with_reducible apply Keeps.toF
    | intro _
    | split
    | dsimp only

theorem issueRead_keeps (ref : TaskRef) {f : Bool} {s u : State} (h : Keeps f false s u) :
    Keeps f false s (issueRead ref u) := by
  unfold issueRead
  repeat' first
    | with_reducible assumption
    | with_reducible apply State.failTask_keeps
    | with_reducible apply State.sendRead_keeps
    | with_reducible apply State.bump_keeps
    | with_reducible apply Keeps.foldl
    | with_reducible apply Keeps.toF
    | intro _
    | split

theorem respond_keeps (ref : TaskRef) (no : ℕ) (answer : ReadAnswer) {f : Bool} {s u : State} (h : Keeps f false
    s u) : Keeps f false s (respond ref no answer u) := by
  unfold respond
  repeat' first
    | with_reducible assumption
    | with_reducible apply State.answerRead_keeps
    | with_reducible apply State.discardRead_keeps
    | with_reducible apply Keeps.foldl
    | with_reducible apply Keeps.toF
    | intro _
    | split

theorem stepEnd_keeps {f m : Bool} {s u : State} (h : Keeps f m s u) : Keeps f m s (stepEnd u) := by
  unfold stepEnd
  repeat' first
    | with_reducible assumption
    | with_reducible apply State.hwSet_keeps
    | with_reducible apply Keeps.foldl
    | with_reducible apply Keeps.toF
    | intro _
    | split
    | dsimp only
    | simp only [Keeps.lit]

theorem stepStart_keeps {f m : Bool} {s u : State} (h : Keeps f m s u) : Keeps f m s (stepStart u) := by
  unfold stepStart
  repeat' first
    | with_reducible assumption
    | with_reducible apply reportLongHold_keeps
    | with_reducible apply State.assessHold_keeps
    | with_reducible apply State.setBit_keeps
    | with_reducible apply State.hwSet_keeps
    | with_reducible apply Keeps.foldl
    | with_reducible apply Keeps.toF
    | intro _
    | split
    | dsimp only
    | simp only [Keeps.lit]

theorem tileDeadline_keeps (n : ℕ) (tile : ℕ) {f m : Bool} {s u : State} (h : Keeps f m s u) :
    Keeps f m s (tileDeadline n tile u) := by
  unfold tileDeadline
  repeat' first
    | with_reducible assumption
    | with_reducible apply State.assertHold_keeps
    | with_reducible apply Keeps.foldl
    | with_reducible apply Keeps.toF
    | intro _
    | split

end Sys2Proof.Machine
end

