-- ==== Sys2Proof/Laws/KeepsFabric.lean ====
section
/-!
SUPPORT. What each operation keeps (Laws/Keeps.lean): the fabric endpoint and the port arbiters.
-/
namespace Sys2Proof.Machine

open Sys2Proof

theorem State.answerMsg_keeps (p : MessagePacket) (st : Status) {f m : Bool} {s u : State} (h : Keeps f m s u) :
    Keeps f m s (State.answerMsg u p st) := by
  unfold State.answerMsg
  repeat' first
    | with_reducible assumption
    | with_reducible apply State.answerTo_keeps

theorem State.failAt_keeps (node : ℕ) (ref : TaskRef) {f : Bool} {s u : State} (h : Keeps f false s u) :
    Keeps f false s (State.failAt u node ref) := by
  unfold State.failAt
  repeat' first
    | with_reducible assumption
    | with_reducible apply State.settle_keeps
    | with_reducible apply State.failTask_keeps
    | with_reducible apply State.putTask_keeps
    | with_reducible apply Keeps.foldl
    | with_reducible apply Keeps.toF
    | intro _
    | split

theorem State.voidSlot_keeps (r : ℕ) (g : RxGrant) {f : Bool} {s u : State} (h : Keeps f false s u) :
    Keeps f false s (State.voidSlot u r g) := by
  unfold State.voidSlot
  repeat' first
    | with_reducible assumption
    | with_reducible apply State.bump_keeps
    | with_reducible apply State.putEndpoint_keeps
    | with_reducible apply State.memRefusal_keeps
    | with_reducible apply State.stepFree_keeps
    | with_reducible apply State.writeMem_keeps
    | with_reducible apply Keeps.foldl
    | with_reducible apply Keeps.toF
    | intro _
    | split
    | dsimp only

theorem State.voidGrants_keeps (r : ℕ) (p : RxGrant → Bool) {f : Bool} {s u : State} (h : Keeps f false s u) :
    Keeps f false s (State.voidGrants u r p) := by
  unfold State.voidGrants
  repeat' first
    | with_reducible assumption
    | with_reducible apply State.voidSlot_keeps
    | with_reducible apply Keeps.foldl
    | with_reducible apply Keeps.toF
    | intro _

theorem State.failCollectives_keeps (node : ℕ) {f : Bool} {s u : State} (h : Keeps f false s u) :
    Keeps f false s (State.failCollectives u node) := by
  unfold State.failCollectives
  repeat' first
    | with_reducible assumption
    | with_reducible apply State.fail_keeps
    | with_reducible apply Keeps.foldl
    | with_reducible apply Keeps.toF
    | intro _

theorem State.peerDies_keeps (node : ℕ) {f : Bool} {s u : State} (h : Keeps f false s u) :
    Keeps f false s (State.peerDies u node) := by
  unfold State.peerDies
  repeat' first
    | with_reducible assumption
    | with_reducible apply State.failAt_keeps
    | with_reducible apply State.failMsg_keeps
    | with_reducible apply State.voidGrants_keeps
    | with_reducible apply State.putEndpoint_keeps
    | with_reducible apply State.failCollectives_keeps
    | with_reducible apply Keeps.foldl
    | with_reducible apply Keeps.toF
    | intro _
    | split
    | dsimp only
    | simp only [Keeps.lit]

theorem State.markDead_keeps (n : ℕ) {f : Bool} {s u : State} (h : Keeps f false s u) :
    Keeps f false s (State.markDead u n) := by
  unfold State.markDead
  repeat' first
    | with_reducible assumption
    | with_reducible apply State.peerDies_keeps
    | with_reducible apply State.bump_keeps
    | with_reducible apply State.setFld_keeps

theorem State.beat_keeps (n : ℕ) (inc : DWord) {f : Bool} {s u : State} (h : Keeps f false s u) :
    Keeps f false s (State.beat u n inc) := by
  unfold State.beat
  repeat' first
    | with_reducible assumption
    | with_reducible apply State.bump_keeps
    | with_reducible apply State.markDead_keeps
    | with_reducible apply State.putPeer_keeps
    | with_reducible apply State.setFld_keeps
    | with_reducible apply Keeps.foldl
    | with_reducible apply Keeps.toF
    | intro _
    | split

theorem State.bumpLater_keeps (p : ℕ) (node : ℕ) (tag : ℕ) {f m : Bool} {s u : State} (h : Keeps f m s u) :
    Keeps f m s (State.bumpLater u p node tag) := by
  unfold State.bumpLater
  repeat' first
    | with_reducible assumption
    | with_reducible apply Keeps.foldl
    | with_reducible apply Keeps.toF
    | intro _
    | split
    | dsimp only
    | simp only [Keeps.lit]

theorem State.burstFails_keeps (n : ℕ) (r : BurstReq) {f : Bool} {s u : State} (h : Keeps f false s u) :
    Keeps f false s (State.burstFails u n r) := by
  unfold State.burstFails
  repeat' first
    | with_reducible assumption
    | with_reducible apply State.emit_keeps
    | with_reducible apply State.settle_keeps
    | with_reducible apply State.fail_keeps
    | with_reducible apply State.modTask_keeps
    | with_reducible apply Keeps.foldl
    | with_reducible apply Keeps.toF
    | intro _
    | split

theorem State.countGrant_keeps (n : ℕ) (rank : ℕ) (w : Waiting) {f m : Bool} {s u : State} (h : Keeps f m s u) :
    Keeps f m s (State.countGrant u n rank w) := by
  unfold State.countGrant
  repeat' first
    | with_reducible assumption
    | with_reducible apply State.bump64_keeps
    | with_reducible apply State.setReg_keeps
    | with_reducible apply Keeps.foldl
    | with_reducible apply Keeps.toF
    | intro _
    | split

theorem State.park_keeps (n : ℕ) (w : Waiting) {f m : Bool} {s u : State} (h : Keeps f m s u) :
    Keeps f m s (State.park u n w) := by
  unfold State.park
  repeat' first
    | with_reducible assumption
    | with_reducible apply State.putArb_keeps
    | with_reducible apply State.emit_keeps
    | with_reducible apply State.bump_keeps
    | with_reducible apply Keeps.foldl
    | with_reducible apply Keeps.toF
    | intro _
    | split
    | dsimp only

theorem State.grantAll_keeps (n : Nat) (away : List Waiting) (k : Nat) (l : List Waiting) {f m : Bool} {s u : State}
    (h : Keeps f m s u) : Keeps f m s (u.grantAll n away k l).2 := by
  induction k generalizing u l with
  | zero => exact h
  | succ k ih =>
    unfold State.grantAll
    split
    · exact h
    · exact ih _ (State.countGrant_keeps _ _ _ (State.putArb_keeps _ _ h))

theorem State.decideOnce_keeps (n : ℕ) (arriving : List Waiting) {f m : Bool} {s u : State} (h : Keeps f m s u) :
    Keeps f m s (State.decideOnce u n arriving) := by
  unfold State.decideOnce
  repeat' first
    | with_reducible apply State.grantAll_keeps
    | with_reducible assumption
    | with_reducible apply State.putArb_keeps
    | with_reducible apply State.park_keeps
    | with_reducible apply Keeps.foldl
    | with_reducible apply Keeps.toF
    | intro _

theorem State.decideAt_keeps (n : ℕ) (ending : List ℕ) (arriving : List Waiting) {f m : Bool} {s u : State} (h :
    Keeps f m s u) : Keeps f m s (State.decideAt u n ending arriving) := by
  unfold State.decideAt
  repeat' first
    | with_reducible assumption
    | with_reducible apply State.decideOnce_keeps
    | with_reducible apply State.putArb_keeps

theorem State.dropNoReader_keeps (tag : ℕ) {f m : Bool} {s u : State} (h : Keeps f m s u) :
    Keeps f m s (State.dropNoReader u tag) := by
  unfold State.dropNoReader
  repeat' first
    | with_reducible assumption
    | with_reducible apply State.countTag_keeps
    | with_reducible apply State.bump_keeps

theorem State.failRead_keeps (ref : TaskRef) (no : ℕ) (space : Space) (st : Status) (age : ℕ) {f : Bool} {s u :
    State} (h : Keeps f false s u) : Keeps f false s (State.failRead u ref no space st age) := by
  unfold State.failRead
  repeat' first
    | with_reducible assumption
    | with_reducible apply State.settle_keeps
    | with_reducible apply State.failTask_keeps
    | with_reducible apply State.putTask_keeps
    | with_reducible apply Keeps.foldl
    | with_reducible apply Keeps.toF
    | intro _
    | split

theorem State.failWrite_keeps (ref : TaskRef) (st : Status) (age : ℕ) {f : Bool} {s u : State} (h : Keeps f
    false s u) : Keeps f false s (State.failWrite u ref st age) := by
  unfold State.failWrite
  repeat' first
    | with_reducible assumption
    | with_reducible apply State.settle_keeps
    | with_reducible apply State.failTask_keeps
    | with_reducible apply State.putTask_keeps
    | with_reducible apply Keeps.foldl
    | with_reducible apply Keeps.toF
    | intro _
    | split

theorem State.failPiece_keeps (ref : TaskRef) (rank : ℕ) (stage : ℕ) (index : ℕ) (st : Status) (age : ℕ) {f :
    Bool} {s u : State} (h : Keeps f false s u) : Keeps f false s (State.failPiece u ref rank stage index st age) := by
  unfold State.failPiece
  repeat' first
    | with_reducible assumption
    | with_reducible apply State.settle_keeps
    | with_reducible apply State.failTask_keeps
    | with_reducible apply State.putTask_keeps
    | with_reducible apply Keeps.foldl
    | with_reducible apply Keeps.toF
    | intro _
    | split

theorem State.failPortMsg_keeps (p : ℕ) (m0 : Msg) (st : Status) {f m : Bool} {s u : State} (h : Keeps f m s u) :
    Keeps f m s (State.failPortMsg u p m0 st) := by
  unfold State.failPortMsg
  repeat' first
    | with_reducible assumption
    | with_reducible apply State.requestCredits_keeps
    | with_reducible apply State.failMsg_keeps
    | with_reducible apply Keeps.foldl
    | with_reducible apply Keeps.toF
    | intro _
    | split
    | dsimp only
    | simp only [Keeps.lit]

theorem State.failFabric_keeps (owner : FabricOwner) (st : Status) (age : ℕ) {f : Bool} {s u : State} (h : Keeps
    f false s u) : Keeps f false s (State.failFabric u owner st age) := by
  unfold State.failFabric
  repeat' first
    | with_reducible assumption
    | with_reducible apply State.failRead_keeps
    | with_reducible apply State.failWrite_keeps
    | with_reducible apply State.failPiece_keeps
    | with_reducible apply State.failPortMsg_keeps
    | with_reducible apply Keeps.foldl
    | with_reducible apply Keeps.toF
    | intro _
    | split

theorem State.failRingRead_keeps (q : ℕ) (age : ℕ) {f m : Bool} {s u : State} (h : Keeps f m s u) :
    Keeps f m s (State.failRingRead u q age) := by
  unfold State.failRingRead
  repeat' first
    | with_reducible assumption
    | with_reducible apply State.putSq_keeps
    | with_reducible apply State.sqReadFailed_keeps
    | with_reducible apply Keeps.foldl
    | with_reducible apply Keeps.toF
    | intro _
    | split
    | dsimp only

theorem State.failHost_keeps (owner : HostOwner) (apCause : ℕ) (age : ℕ) {f : Bool} {s u : State} (h : Keeps f
    false s u) : Keeps f false s (State.failHost u owner apCause age) := by
  unfold State.failHost
  repeat' first
    | with_reducible assumption
    | with_reducible apply State.failRead_keeps
    | with_reducible apply flushDone_keeps
    | with_reducible apply State.failRingRead_keeps
    | with_reducible apply ackRecord_keeps
    | with_reducible apply State.emit_keeps
    | with_reducible apply State.apertureFault_keeps
    | with_reducible apply Keeps.foldl
    | with_reducible apply Keeps.toF
    | intro _
    | split
    | dsimp only
    | simp only [Keeps.lit]

theorem writeFeCtl_keeps (value : Word) {f m : Bool} {s u : State} (h : Keeps f m s u) :
    Keeps f m s (writeFeCtl value u) := by
  unfold writeFeCtl
  repeat' first
    | with_reducible assumption
    | with_reducible apply State.setBit_keeps
    | with_reducible apply State.setReg64_keeps
    | with_reducible apply State.putPeer_keeps
    | with_reducible apply State.requestCredits_keeps
    | with_reducible apply Keeps.foldl
    | with_reducible apply Keeps.toF
    | intro _
    | split
    | dsimp only
    | simp only [Keeps.lit]

theorem writePeerCfg_keeps (n : ℕ) (value : Word) {f m : Bool} {s u : State} (h : Keeps f m s u) :
    Keeps f m s (writePeerCfg n value u) := by
  unfold writePeerCfg
  repeat' first
    | with_reducible assumption
    | with_reducible apply State.setReg_keeps
    | with_reducible apply State.putPeer_keeps
    | with_reducible apply Keeps.foldl
    | with_reducible apply Keeps.toF
    | intro _
    | split
    | dsimp only

theorem State.rxStop_keeps (r : ℕ) {f : Bool} {s u : State} (h : Keeps f false s u) :
    Keeps f false s (State.rxStop u r) := by
  unfold State.rxStop
  repeat' first
    | with_reducible assumption
    | with_reducible apply State.answerTo_keeps
    | with_reducible apply State.setBit_keeps
    | with_reducible apply State.voidGrants_keeps
    | with_reducible apply State.putEndpoint_keeps
    | with_reducible apply Keeps.foldl
    | with_reducible apply Keeps.toF
    | intro _

theorem State.rxStart_keeps (r : ℕ) {f m : Bool} {s u : State} (h : Keeps f m s u) :
    Keeps f m s (State.rxStart u r) := by
  unfold State.rxStart
  repeat' first
    | with_reducible assumption
    | with_reducible apply State.putEndpoint_keeps
    | with_reducible apply State.setReg_keeps
    | with_reducible apply State.setBit_keeps

theorem writeRxCfg_keeps (r : ℕ) (value : Word) {f : Bool} {s u : State} (h : Keeps f false s u) :
    Keeps f false s (writeRxCfg r value u) := by
  unfold writeRxCfg
  repeat' first
    | with_reducible assumption
    | with_reducible apply State.setBit_keeps
    | with_reducible apply State.rxStop_keeps
    | with_reducible apply State.setReg_keeps
    | with_reducible apply State.rxStart_keeps
    | with_reducible apply State.hwSet_keeps
    | with_reducible apply Keeps.foldl
    | with_reducible apply Keeps.toF
    | intro _
    | split
    | dsimp only

theorem State.takeSlot_keeps (r : ℕ) (node : ℕ) {f m : Bool} {s u : State} (h : Keeps f m s u) :
    Keeps f m s (State.takeSlot u r node) := by
  unfold State.takeSlot
  repeat' first
    | with_reducible assumption
    | with_reducible apply State.setFld_keeps
    | with_reducible apply State.setBit_keeps
    | with_reducible apply State.putEndpoint_keeps
    | with_reducible apply Keeps.foldl
    | with_reducible apply Keeps.toF
    | intro _
    | split

theorem State.grantSlots_keeps (r : ℕ) (node : ℕ) (k : ℕ) {f m : Bool} {s u : State} (h : Keeps f m s u) :
    Keeps f m s (State.grantSlots u r node k) := by
  unfold State.grantSlots
  repeat' first
    | with_reducible assumption
    | with_reducible apply State.answerTo_keeps
    | with_reducible apply State.takeSlot_keeps
    | with_reducible apply Keeps.foldl
    | with_reducible apply Keeps.toF
    | intro _

theorem State.serveWaiting_keeps (r : ℕ) {f m : Bool} {s u : State} (h : Keeps f m s u) :
    Keeps f m s (State.serveWaiting u r) := by
  unfold State.serveWaiting
  repeat' first
    | with_reducible assumption
    | with_reducible apply State.putEndpoint_keeps
    | with_reducible apply State.grantSlots_keeps
    | with_reducible apply Keeps.foldl
    | with_reducible apply Keeps.toF
    | intro _
    | split

theorem writeRxHead_keeps (r : ℕ) (value : Word) {f m : Bool} {s u : State} (h : Keeps f m s u) :
    Keeps f m s (writeRxHead r value u) := by
  unfold writeRxHead
  repeat' first
    | with_reducible assumption
    | with_reducible apply State.serveWaiting_keeps
    | with_reducible apply State.setReg_keeps
    | with_reducible apply Keeps.foldl
    | with_reducible apply Keeps.toF
    | intro _
    | split
    | dsimp only

theorem sendMessage_keeps (p : ℕ) (value : Word) {f m : Bool} {s u : State} (h : Keeps f m s u) :
    Keeps f m s (sendMessage p value u) := by
  unfold sendMessage
  repeat' first
    | with_reducible assumption
    | with_reducible apply State.hwSet_keeps
    | with_reducible apply State.wrapAdd_keeps
    | with_reducible apply State.setFifo_keeps
    | with_reducible apply State.bumpLater_keeps
    | with_reducible apply State.restartWait_keeps
    | with_reducible apply Keeps.foldl
    | with_reducible apply Keeps.toF
    | intro _
    | split
    | dsimp only
    | simp only [Keeps.lit]

theorem resumePort_keeps (p : ℕ) {f m : Bool} {s u : State} (h : Keeps f m s u) : Keeps f m s (resumePort p u) := by
  unfold resumePort
  repeat' first
    | with_reducible assumption
    | with_reducible apply State.requestCredits_keeps
    | with_reducible apply State.restartWait_keeps
    | with_reducible apply State.setBit_keeps
    | with_reducible apply State.setFifo_keeps
    | with_reducible apply Keeps.foldl
    | with_reducible apply Keeps.toF
    | intro _
    | split

theorem discardPort_keeps (p : ℕ) {f m : Bool} {s u : State} (h : Keeps f m s u) : Keeps f m s (discardPort p u) := by
  unfold discardPort
  repeat' first
    | with_reducible assumption
    | with_reducible apply State.requestCredits_keeps
    | with_reducible apply State.restartWait_keeps
    | with_reducible apply State.setBit_keeps
    | with_reducible apply State.setFifo_keeps
    | with_reducible apply Keeps.foldl
    | with_reducible apply Keeps.toF
    | intro _
    | split

theorem flushPort_keeps (p : ℕ) {f m : Bool} {s u : State} (h : Keeps f m s u) : Keeps f m s (flushPort p u) := by
  unfold flushPort
  repeat' first
    | with_reducible assumption
    | with_reducible apply State.requestCredits_keeps
    | with_reducible apply State.restartWait_keeps
    | with_reducible apply State.setBit_keeps
    | with_reducible apply State.setFifo_keeps
    | with_reducible apply State.wrapAdd_keeps
    | with_reducible apply Keeps.foldl
    | with_reducible apply Keeps.toF
    | intro _
    | split

theorem State.moveLane_keeps (p : ℕ) {f m : Bool} {s u : State} (h : Keeps f m s u) :
    Keeps f m s (State.moveLane u p) := by
  unfold State.moveLane
  repeat' first
    | with_reducible assumption
    | with_reducible apply State.setFld_keeps
    | with_reducible apply Keeps.foldl
    | with_reducible apply Keeps.toF
    | intro _
    | split

theorem State.rxEvent_keeps (r : ℕ) {f m : Bool} {s u : State} (h : Keeps f m s u) :
    Keeps f m s (State.rxEvent u r) := by
  unfold State.rxEvent
  repeat' first
    | with_reducible assumption
    | with_reducible apply State.flagLater_keeps
    | with_reducible apply Keeps.foldl
    | with_reducible apply Keeps.toF
    | intro _
    | split

theorem State.rxRefuse_keeps (r : ℕ) (tag : ℕ) {f m : Bool} {s u : State} (h : Keeps f m s u) :
    Keeps f m s (State.rxRefuse u r tag) := by
  unfold State.rxRefuse
  repeat' first
    | with_reducible assumption
    | with_reducible apply State.countTag_keeps
    | with_reducible apply State.bump_keeps

theorem State.sendTo_keeps (x : (ℕ × Msg) × ℕ) {f m : Bool} {s u : State} (h : Keeps f m s u) :
    Keeps f m s (State.sendTo u x) := by
  unfold State.sendTo
  repeat' first
    | with_reducible assumption
    | with_reducible apply State.putPort_keeps
    | with_reducible apply State.restartWait_keeps
    | with_reducible apply State.emitTo_keeps
    | with_reducible apply Keeps.foldl
    | with_reducible apply Keeps.toF
    | intro _
    | split

theorem State.takeRequest_keeps (node : ℕ) (tag : ℕ) (count : ℕ) {f m : Bool} {s u : State} (h : Keeps f m s u) :
    Keeps f m s (State.takeRequest u node tag count) := by
  unfold State.takeRequest
  repeat' first
    | with_reducible assumption
    | with_reducible apply State.answerTo_keeps
    | with_reducible apply State.dropNoReader_keeps
    | with_reducible apply State.rxRefuse_keeps
    | with_reducible apply State.grantSlots_keeps
    | with_reducible apply State.putEndpoint_keeps
    | with_reducible apply Keeps.foldl
    | with_reducible apply Keeps.toF
    | intro _
    | split
    | dsimp only

theorem State.takeRetries_keeps (n : ℕ) (ws : List Waiting) {f m : Bool} {s u : State} (h : Keeps f m s u) :
    Keeps f m s (State.takeRetries u n ws) := by
  unfold State.takeRetries
  repeat' first
    | with_reducible assumption
    | with_reducible apply State.putArb_keeps

theorem State.arrive_keeps (n : Nat) (r : BurstReq) {f m : Bool} {s u : State} (h : Keeps f m s u) :
    Keeps f m s (u.arrive n r).1 := by
  unfold State.arrive
  dsimp only
  split
  · exact h
  · split
    · exact h
    · exact State.putArb_keeps _ _ h

theorem arbiterArrival_keeps (n : ℕ) (r : BurstReq) {f m : Bool} {s u : State} (h : Keeps f m s u) :
    Keeps f m s (arbiterArrival n r u) :=
  State.decideAt_keeps _ _ _ (State.arrive_keeps n r h)

theorem State.arriveAll_keeps (n : Nat) (l : List BurstReq) {f m : Bool} {s u : State} (h : Keeps f m s u) :
    Keeps f m s (u.arriveAll n l).1 := by
  induction l generalizing u with
  | nil => exact h
  | cons r l ih => exact ih (State.arrive_keeps n r h)

theorem arbiterDecision_keeps (n : ℕ) (ending : List ℕ) (rs : List BurstReq) (retries : List ℕ) {f m : Bool} {s
    u : State} (h : Keeps f m s u) : Keeps f m s (arbiterDecision n ending rs retries u) := by
  unfold arbiterDecision
  repeat' first
    | with_reducible apply State.arriveAll_keeps
    | with_reducible assumption
    | with_reducible apply State.takeRetries_keeps
    | with_reducible apply State.decideAt_keeps

theorem arbiterRetry_keeps (n : ℕ) (i : ℕ) {f m : Bool} {s u : State} (h : Keeps f m s u) :
    Keeps f m s (arbiterRetry n i u) := by
  unfold arbiterRetry
  repeat' first
    | with_reducible assumption
    | with_reducible apply State.decideAt_keeps
    | with_reducible apply State.takeRetries_keeps
    | with_reducible apply Keeps.foldl
    | with_reducible apply Keeps.toF
    | intro _
    | split
    | dsimp only

theorem creditAnswered_keeps (node : ℕ) (tag : ℕ) (answer : CreditAnswer) {f m : Bool} {s u : State} (h : Keeps
    f m s u) : Keeps f m s (creditAnswered node tag answer u) := by
  unfold creditAnswered
  repeat' first
    | with_reducible assumption
    | with_reducible apply State.sendTo_keeps
    | with_reducible apply State.requestCredits_keeps
    | with_reducible apply Keeps.foldl
    | with_reducible apply Keeps.toF
    | intro _
    | split
    | dsimp only
    | simp only [Keeps.lit]

theorem creditRequested_keeps (node : ℕ) (tag : ℕ) (count : ℕ) {f m : Bool} {s u : State} (h : Keeps f m s u) :
    Keeps f m s (creditRequested node tag count u) := by
  unfold creditRequested
  repeat' first
    | with_reducible assumption
    | with_reducible apply State.takeRequest_keeps
    | with_reducible apply State.wakeBy_keeps
    | with_reducible apply Keeps.foldl
    | with_reducible apply Keeps.toF
    | intro _
    | split

theorem creditRetry_keeps (node : ℕ) (tag : ℕ) {f m : Bool} {s u : State} (h : Keeps f m s u) :
    Keeps f m s (creditRetry node tag u) := by
  unfold creditRetry
  repeat' first
    | with_reducible assumption
    | with_reducible apply State.emitTo_keeps
    | with_reducible apply Keeps.foldl
    | with_reducible apply Keeps.toF
    | intro _
    | split
    | dsimp only
    | simp only [Keeps.lit]

theorem delivered_keeps (node : ℕ) (tag : ℕ) (seq : Word) {f : Bool} {s u : State} (h : Keeps f false s u) :
    Keeps f false s (delivered node tag seq u) := by
  unfold delivered
  repeat' first
    | with_reducible assumption
    | with_reducible apply State.pieceDelivered_keeps
    | with_reducible apply State.countTag_keeps
    | with_reducible apply State.wrapAdd_keeps
    | with_reducible apply State.setFifo_keeps
    | with_reducible apply State.requestCredits_keeps
    | with_reducible apply State.restartWait_keeps
    | with_reducible apply Keeps.foldl
    | with_reducible apply Keeps.toF
    | intro _
    | split
    | dsimp only

theorem packetCrcFail_keeps (p : ℕ) (resent : Bool) (source : ℕ) (owner : FabricOwner) {f : Bool} {s u : State}
    (h : Keeps f false s u) : Keeps f false s (packetCrcFail p resent source owner u) := by
  unfold packetCrcFail
  repeat' first
    | with_reducible assumption
    | with_reducible apply State.bump_keeps
    | with_reducible apply State.emit_keeps
    | with_reducible apply State.failFabric_keeps
    | with_reducible apply State.mcEvent_keeps
    | with_reducible apply Keeps.foldl
    | with_reducible apply Keeps.toF
    | intro _
    | split

theorem portDrained_keeps (p : ℕ) {f m : Bool} {s u : State} (h : Keeps f m s u) : Keeps f m s (portDrained p u) := by
  unfold portDrained
  repeat' first
    | with_reducible assumption
    | with_reducible apply State.moveLane_keeps
    | with_reducible apply State.setBit_keeps
    | with_reducible apply Keeps.foldl
    | with_reducible apply Keeps.toF
    | intro _
    | split
    | dsimp only
    | simp only [Keeps.lit]

theorem heartbeatReceived_keeps (node : ℕ) (inc : DWord) {f : Bool} {s u : State} (h : Keeps f false s u) :
    Keeps f false s (heartbeatReceived node inc u) := by
  unfold heartbeatReceived
  repeat' first
    | with_reducible assumption
    | with_reducible apply State.requestCredits_keeps
    | with_reducible apply State.beat_keeps
    | with_reducible apply Keeps.foldl
    | with_reducible apply Keeps.toF
    | intro _
    | split

theorem sendHeartbeats_keeps {f m : Bool} {s u : State} (h : Keeps f m s u) : Keeps f m s (sendHeartbeats u) := by
  unfold sendHeartbeats
  repeat' first
    | with_reducible assumption
    | with_reducible apply State.emitFabric_keeps
    | with_reducible apply Keeps.foldl
    | with_reducible apply Keeps.toF
    | intro _
    | split
    | dsimp only
    | simp only [Keeps.lit]

theorem messageArrived_keeps (p : MessagePacket) (cond : MemCond) {f : Bool} {s u : State} (h : Keeps f false s u) :
    Keeps f false s (messageArrived p cond u) := by
  unfold messageArrived
  repeat' first
    | with_reducible assumption
    | with_reducible apply State.answerMsg_keeps
    | with_reducible apply State.dropNoReader_keeps
    | with_reducible apply State.countTag_keeps
    | with_reducible apply State.memRefusal_keeps
    | with_reducible apply State.rxRefuse_keeps
    | with_reducible apply State.putEndpoint_keeps
    | with_reducible apply State.stepFree_keeps
    | with_reducible apply State.writeMem_keeps
    | with_reducible apply State.noteCorrected_keeps
    | with_reducible apply Keeps.foldl
    | with_reducible apply Keeps.toF
    | intro _
    | split
    | dsimp only

theorem messageRefused_keeps (p : ℕ) (num : Option Word) (st : Status) {f m : Bool} {s u : State} (h : Keeps f m
    s u) : Keeps f m s (messageRefused p num st u) := by
  unfold messageRefused
  repeat' first
    | with_reducible assumption
    | with_reducible apply State.failPortMsg_keeps
    | with_reducible apply Keeps.foldl
    | with_reducible apply Keeps.toF
    | intro _
    | split

theorem slotWritten_keeps (r : ℕ) (slot : ℕ) {f : Bool} {s u : State} (h : Keeps f false s u) :
    Keeps f false s (slotWritten r slot u) := by
  unfold slotWritten
  repeat' first
    | with_reducible assumption
    | with_reducible apply State.putEndpoint_keeps
    | with_reducible apply State.stepFree_keeps
    | with_reducible apply State.writeMem_keeps
    | with_reducible apply State.answerMsg_keeps
    | with_reducible apply State.rxEvent_keeps
    | with_reducible apply State.countTag_keeps
    | with_reducible apply State.bump_keeps
    | with_reducible apply Keeps.foldl
    | with_reducible apply Keeps.toF
    | intro _
    | split
    | dsimp only

theorem peerTimeout_keeps (n : ℕ) {f : Bool} {s u : State} (h : Keeps f false s u) :
    Keeps f false s (peerTimeout n u) := by
  unfold peerTimeout
  repeat' first
    | with_reducible assumption
    | with_reducible apply State.requestCredits_keeps
    | with_reducible apply State.markDead_keeps
    | with_reducible apply Keeps.foldl
    | with_reducible apply Keeps.toF
    | intro _
    | split

theorem portWatchdog_keeps (n : ℕ) (slot : ℕ) {f : Bool} {s u : State} (h : Keeps f false s u) :
    Keeps f false s (portWatchdog n slot u) := by
  unfold portWatchdog
  repeat' first
    | with_reducible assumption
    | with_reducible apply State.putArb_keeps
    | with_reducible apply State.mcEvent_keeps
    | with_reducible apply State.bump_keeps
    | with_reducible apply State.latchReg_keeps
    | with_reducible apply State.burstFails_keeps
    | with_reducible apply State.setBit_keeps
    | with_reducible apply Keeps.foldl
    | with_reducible apply Keeps.toF
    | intro _
    | split

theorem sendWatchdog_keeps (p : ℕ) {f m : Bool} {s u : State} (h : Keeps f m s u) :
    Keeps f m s (sendWatchdog p u) := by
  unfold sendWatchdog
  repeat' first
    | with_reducible assumption
    | with_reducible apply State.requestCredits_keeps
    | with_reducible apply State.failMsg_keeps
    | with_reducible apply Keeps.foldl
    | with_reducible apply Keeps.toF
    | intro _
    | split
    | dsimp only

theorem slotTimeout_keeps (r : ℕ) (slot : ℕ) {f : Bool} {s u : State} (h : Keeps f false s u) :
    Keeps f false s (slotTimeout r slot u) := by
  unfold slotTimeout
  repeat' first
    | with_reducible assumption
    | with_reducible apply State.voidGrants_keeps

end Sys2Proof.Machine
end

