-- ==== Sys2Proof/Laws/KeepsService.lean ====
section
/-!
SUPPORT. What each operation keeps (Laws/Keeps.lean): repair, tier B and management.
-/
namespace Sys2Proof.Machine

open Sys2Proof

theorem State.abortQueue_keeps (q : ℕ) {f m : Bool} {s u : State} (h : Keeps f m s u) :
    Keeps f m s (State.abortQueue u q) := by
  unfold State.abortQueue
  repeat' first
    | with_reducible assumption
    | with_reducible apply State.setSqMode_keeps
    | with_reducible apply State.putSq_keeps
    | with_reducible apply Keeps.foldl
    | with_reducible apply Keeps.toF
    | intro _
    | split

theorem State.endPadWait_keeps (ref : TaskRef) {f m : Bool} {s u : State} (h : Keeps f m s u) :
    Keeps f m s (State.endPadWait u ref) := by
  unfold State.endPadWait
  repeat' first
    | with_reducible assumption
    | with_reducible apply State.modTask_keeps
    | with_reducible apply Keeps.foldl
    | with_reducible apply Keeps.toF
    | intro _
    | split

theorem State.abortTask_keeps (ref : TaskRef) {f : Bool} {s u : State} (h : Keeps f false s u) :
    Keeps f false s (State.abortTask u ref) := by
  unfold State.abortTask
  repeat' first
    | with_reducible assumption
    | with_reducible apply State.fail_keeps
    | with_reducible apply State.endPadWait_keeps
    | with_reducible apply Keeps.foldl
    | with_reducible apply Keeps.toF
    | intro _
    | split
    | dsimp only
    | simp only [Keeps.lit]

theorem State.selfRefresh_keeps {f m : Bool} {s u : State} (h : Keeps f m s u) :
    Keeps f m s (State.selfRefresh u) := by
  unfold State.selfRefresh
  repeat' first
    | with_reducible assumption
    | with_reducible apply State.setBit_keeps
    | with_reducible apply Keeps.foldl
    | with_reducible apply Keeps.toF
    | intro _
    | split

theorem State.beginEntry_keeps (dest : PState) {f m : Bool} {s u : State} (h : Keeps f m s u) :
    Keeps f m s (State.beginEntry u dest) := by
  unfold State.beginEntry
  repeat' first
    | with_reducible assumption
    | with_reducible apply State.setBit_keeps
    | with_reducible apply State.selfRefresh_keeps
    | with_reducible apply Keeps.foldl
    | with_reducible apply Keeps.toF
    | intro _
    | split
    | dsimp only
    | simp only [Keeps.lit]

theorem State.afterReply_keeps (r : Reply) {f m : Bool} {s u : State} (h : Keeps f m s u) :
    Keeps f m s (State.afterReply u r) := by
  unfold State.afterReply
  repeat' first
    | with_reducible assumption
    | with_reducible apply State.beginEntry_keeps
    | with_reducible apply Keeps.foldl
    | with_reducible apply Keeps.toF
    | intro _
    | split

theorem State.markReads_keeps (owner : Option TaskRef) (a : ℕ) (corrected : Bool) (refreshed : Bool) {f m :
    Bool} {s u : State} (h : Keeps f m s u) : Keeps f m s (State.markReads u owner a corrected refreshed) := by
  unfold State.markReads
  repeat' first
    | with_reducible assumption
    | with_reducible apply State.modTask_keeps
    | with_reducible apply Keeps.foldl
    | with_reducible apply Keeps.toF
    | intro _
    | split

theorem State.atBank_keeps (b : Nat) (w : HeldLine) (g : State → State) {f m : Bool} {s u : State}
    (hg : Keeps f m s (g u)) (h : Keeps f m s u) : Keeps f m s (State.atBank u b w g) := by
  unfold State.atBank
  split
  · dsimp only
    split
    · exact State.markReads_keeps _ _ _ _ (State.putSite_keeps _ _ (State.bump_keeps _ _ h))
    · exact State.putSite_keeps _ _ (State.bump_keeps _ _ h)
  · exact hg

theorem State.atSite_keeps (b : Nat) (w : HeldLine) (g : State → State) {f m : Bool} {s u : State}
    (hg : Keeps f m s (g u)) (h : Keeps f m s u) : Keeps f m s (State.atSite u b w g) := by
  unfold State.atSite
  split
  · exact State.atBank_keeps b w g hg h
  · exact State.putSite_keeps _ _ h

theorem State.setSiteState_keeps (b : ℕ) (v : ℕ) {f m : Bool} {s u : State} (h : Keeps f m s u) :
    Keeps f m s (State.setSiteState u b v) := by
  unfold State.setSiteState
  repeat' first
    | with_reducible assumption
    | with_reducible apply State.setFld_keeps

theorem State.bringIn_keeps (kind : ℕ) (n : ℕ) (pos : ℕ) {f m : Bool} {s u : State} (h : Keeps f m s u) :
    Keeps f m s (State.bringIn u kind n pos) := by
  unfold State.bringIn
  repeat' first
    | with_reducible assumption
    | with_reducible apply State.setFld_keeps
    | with_reducible apply State.setBit_keeps
    | with_reducible apply Keeps.foldl
    | with_reducible apply Keeps.toF
    | intro _
    | split

theorem State.cancelEvac_keeps {f m : Bool} {s u : State} (h : Keeps f m s u) : Keeps f m s (State.cancelEvac u) := by
  unfold State.cancelEvac
  repeat' first
    | with_reducible assumption
    | with_reducible apply State.setFld_keeps
    | with_reducible apply State.setBit_keeps
    | with_reducible apply State.setReg_keeps
    | with_reducible apply Keeps.foldl
    | with_reducible apply Keeps.toF
    | intro _
    | split
    | dsimp only
    | simp only [Keeps.lit]

theorem State.startRecordWrite_keeps {f m : Bool} {s u : State} (h : Keeps f m s u) :
    Keeps f m s (State.startRecordWrite u) := by
  unfold State.startRecordWrite
  repeat' first
    | with_reducible assumption
    | with_reducible apply State.setBit_keeps
    | with_reducible apply Keeps.foldl
    | with_reducible apply Keeps.toF
    | intro _
    | split
    | dsimp only
    | simp only [Keeps.lit]

theorem State.changeRecord_keeps (f0 : RepairRecord → RepairRecord) {f m : Bool} {s u : State} (h : Keeps f m s u) :
    Keeps f m s (State.changeRecord u f0) := by
  unfold State.changeRecord
  repeat' first
    | with_reducible assumption
    | with_reducible apply State.startRecordWrite_keeps
    | with_reducible apply Keeps.foldl
    | with_reducible apply Keeps.toF
    | intro _
    | split
    | dsimp only
    | simp only [Keeps.lit]

theorem State.reply_keeps (p : Packet) (st : Status) (last : Bool) (result : List Byte) {f m : Bool} {s u :
    State} (h : Keeps f m s u) : Keeps f m s (State.reply u p st last result) := by
  unfold State.reply
  repeat' first
    | with_reducible assumption
    | with_reducible apply Keeps.foldl
    | with_reducible apply Keeps.toF
    | intro _
    | split
    | dsimp only
    | simp only [Keeps.lit]

theorem State.final_keeps (p : Packet) (st : Status) (result : List Byte) {f m : Bool} {s u : State} (h : Keeps
    f m s u) : Keeps f m s (State.final u p st result) := by
  unfold State.final
  repeat' first
    | with_reducible assumption
    | with_reducible apply State.reply_keeps

theorem State.carryRetire_keeps (x : RetireRun) (pos : Option ℕ) {f m : Bool} {s u : State} (h : Keeps f m s u) :
    Keeps f m s (State.carryRetire u x pos) := by
  unfold State.carryRetire
  repeat' first
    | with_reducible assumption
    | with_reducible apply State.changeRecord_keeps
    | with_reducible apply State.final_keeps
    | with_reducible apply Keeps.foldl
    | with_reducible apply Keeps.toF
    | intro _
    | split
    | dsimp only
    | simp only [Keeps.lit]

theorem State.clearCounters_keeps {f m : Bool} {s u : State} (h : Keeps f m s u) :
    Keeps f m s (State.clearCounters u) := by
  unfold State.clearCounters
  repeat' first
    | with_reducible assumption
    | with_reducible apply State.clearRc_keeps
    | with_reducible apply Keeps.foldl
    | with_reducible apply Keeps.toF
    | intro _

theorem State.putCopy_keeps (copy : Bool) (r : Option RepairRecord) {m : Bool} {s u : State} (h : Keeps false m
    s u) : Keeps false m s (State.putCopy u copy r) := by
  unfold State.putCopy
  have none : ∀ {a : Prop}, false = true → a := fun w => absurd w Bool.false_ne_true
  split <;> exact ⟨h.pendingEq, h.cycleEq, h.outGrows, h.memWf, h.regsWf, h.memEq, h.memGenEq, none, none, none, none, none⟩

theorem State.endEvac_keeps (st : Status) {f m : Bool} {s u : State} (h : Keeps f m s u) :
    Keeps f m s (State.endEvac u st) := by
  unfold State.endEvac
  repeat' first
    | with_reducible assumption
    | with_reducible apply State.reply_keeps
    | with_reducible apply Keeps.foldl
    | with_reducible apply Keeps.toF
    | intro _
    | split
    | dsimp only
    | simp only [Keeps.lit]

theorem State.endReadout_keeps (b : ℕ) {f m : Bool} {s u : State} (h : Keeps f m s u) :
    Keeps f m s (State.endReadout u b) := by
  unfold State.endReadout
  repeat' first
    | with_reducible assumption
    | with_reducible apply State.putSite_keeps

theorem State.logRow_keeps (b : ℕ) (r : RowAddr) {f m : Bool} {s u : State} (h : Keeps f m s u) :
    Keeps f m s (State.logRow u b r) := by
  unfold State.logRow
  repeat' first
    | with_reducible assumption
    | with_reducible apply State.setReg_keeps
    | with_reducible apply State.bump_keeps
    | with_reducible apply Keeps.foldl
    | with_reducible apply Keeps.toF
    | intro _
    | split

theorem State.trackRow_keeps (b : ℕ) (r : RowAddr) {f m : Bool} {s u : State} (h : Keeps f m s u) :
    Keeps f m s (State.trackRow u b r) := by
  unfold State.trackRow
  repeat' first
    | with_reducible assumption
    | with_reducible apply State.putSite_keeps
    | with_reducible apply State.logRow_keeps
    | with_reducible apply Keeps.foldl
    | with_reducible apply Keeps.toF
    | intro _
    | split
    | dsimp only

theorem State.putWrong_keeps (a : ℕ) (wrong : List ℕ) {f : Bool} {s u : State} (h : Keeps f false s u) :
    Keeps f false s (State.putWrong u a wrong) := by
  unfold State.putWrong
  repeat' first
    | with_reducible assumption
    | with_reducible apply State.writeMem_keeps

theorem State.readLine_memGen (b a : Nat) (e : LineErrors) (r : RowAddr) {u t : State} (ht : u.readLine b a e r = some t) :
    t.memGen = u.memGen := by
  unfold State.readLine at ht
  split at ht
  · cases ht
  · cases ht
    rfl
  · cases ht
    exact (State.trackRow_keeps (f := true) _ _ (Keeps.self true true _)).memGenEq rfl
  · cases ht
    rfl

theorem State.readLine_keeps (b a : Nat) (e : LineErrors) (r : RowAddr) {f : Bool} {s u t : State} (h : Keeps f false s u)
    (ht : u.readLine b a e r = some t) : Keeps f false s t := by
  unfold State.readLine at ht
  split at ht
  · cases ht
  · cases ht
    exact h
  · cases ht
    exact State.trackRow_keeps _ _ (State.bump_keeps _ _ h)
  · cases ht
    exact State.putWrong_keeps _ _ h

theorem serveRequest_keeps (b : ℕ) (a : ℕ) (e : LineErrors) (r : RowAddr) (owner : Option TaskRef) {f : Bool} {s
    u : State} (h : Keeps f false s u) : Keeps f false s (serveRequest b a e r owner u) := by
  unfold serveRequest
  repeat' first
    | exact State.readLine_keeps _ _ _ _ h (by assumption)
    | with_reducible assumption
    | with_reducible apply State.markReads_keeps
    | with_reducible apply State.mcUncorrectable_keeps
    | with_reducible apply State.fail_keeps
    | with_reducible apply Keeps.foldl
    | with_reducible apply Keeps.toF
    | intro _
    | split

theorem serveScrub_keeps (b : ℕ) (a : ℕ) (e : LineErrors) (r : RowAddr) {f : Bool} {s u : State} (h : Keeps f
    false s u) : Keeps f false s (serveScrub b a e r u) := by
  unfold serveScrub
  split
  · rename_i t ht
    have k := State.readLine_keeps _ _ _ _ h ht
    have k' : Keeps _ _ s { t with mem := u.mem, now := u.now } :=
      { k.toF with memWf := fun w => ?_, memEq := fun w => absurd w Bool.false_ne_true }
    · split
      · exact k'
      · exact k
    · rw [State.readLine_memGen _ _ _ _ ht]
      exact h.memWf w
  · exact State.mcEvent_keeps _ _ _ _ _ (State.tbUe_keeps _ _ _ h)

theorem State.rebind_keeps (e : EvacRun) {f m : Bool} {s u : State} (h : Keeps f m s u) :
    Keeps f m s (State.rebind u e) := by
  unfold State.rebind
  repeat' first
    | with_reducible assumption
    | with_reducible apply State.setSiteState_keeps
    | with_reducible apply State.setFld_keeps
    | with_reducible apply State.setReg_keeps
    | with_reducible apply State.changeRecord_keeps
    | with_reducible apply Keeps.foldl
    | with_reducible apply Keeps.toF
    | intro _
    | split
    | dsimp only
    | simp only [Keeps.lit]

theorem serveCopy_keeps (a : ℕ) (e : LineErrors) (r : RowAddr) {f : Bool} {s u : State} (h : Keeps f false s u) :
    Keeps f false s (serveCopy a e r u) := by
  unfold serveCopy
  split
  · exact h
  · split
    · exact State.endEvac_keeps _ (State.cancelEvac_keeps (State.mcEvent_keeps _ _ _ _ _ (State.tbUe_keeps _ _ _ h)))
    · rename_i t ht
      have k := State.setReg64_keeps R.tbEvacDoneLo (t.reg64 R.tbEvacDoneLo + 64) (State.readLine_keeps _ _ _ _ h ht)
      dsimp only
      split
      · exact State.rebind_keeps _ k
      · exact k

theorem State.serveHeld_keeps (b : ℕ) (h0 : HeldLine) {f : Bool} {s u : State} (h : Keeps f false s u) :
    Keeps f false s (State.serveHeld u b h0) := by
  unfold State.serveHeld
  repeat' first
    | with_reducible assumption
    | with_reducible apply serveRequest_keeps
    | with_reducible apply serveScrub_keeps
    | with_reducible apply serveCopy_keeps
    | with_reducible apply Keeps.foldl
    | with_reducible apply Keeps.toF
    | intro _
    | split

theorem State.endRefresh_keeps (b : ℕ) {f : Bool} {s u : State} (h : Keeps f false s u) :
    Keeps f false s (State.endRefresh u b) := by
  unfold State.endRefresh
  repeat' first
    | with_reducible assumption
    | with_reducible apply State.serveHeld_keeps
    | with_reducible apply State.atBank_keeps
    | with_reducible apply State.putSite_keeps
    | with_reducible apply Keeps.foldl
    | with_reducible apply Keeps.toF
    | intro _
    | split

theorem State.endRefreshes_keeps {f : Bool} {s u : State} (h : Keeps f false s u) :
    Keeps f false s (State.endRefreshes u) := by
  unfold State.endRefreshes
  repeat' first
    | with_reducible assumption
    | with_reducible apply State.endRefresh_keeps
    | with_reducible apply Keeps.foldl
    | with_reducible apply Keeps.toF
    | intro _

theorem State.fillBuffer_keeps (p : Packet) (bytes : List Byte) (cond : MemCond) (result : List Byte) {f : Bool}
    {s u : State} (h : Keeps f false s u) : Keeps f false s (State.fillBuffer u p bytes cond result) := by
  unfold State.fillBuffer
  repeat' first
    | with_reducible assumption
    | with_reducible apply State.final_keeps
    | with_reducible apply State.freeBytes_keeps
    | with_reducible apply State.memRefusal_keeps
    | with_reducible apply State.writeMem_keeps
    | with_reducible apply State.noteCorrected_keeps
    | with_reducible apply Keeps.foldl
    | with_reducible apply Keeps.toF
    | intro _
    | split
    | dsimp only

theorem State.forceOff_keeps (ref : Option TaskRef) {f : Bool} {s u : State} (h : Keeps f false s u) :
    Keeps f false s (State.forceOff u ref) := by
  unfold State.forceOff
  repeat' first
    | with_reducible assumption
    | with_reducible apply State.abortTask_keeps
    | with_reducible apply Keeps.foldl
    | with_reducible apply Keeps.toF
    | intro _
    | split

theorem writeLaneCtl_keeps (p : ℕ) (value : Word) {f m : Bool} {s u : State} (h : Keeps f m s u) :
    Keeps f m s (writeLaneCtl p value u) := by
  unfold writeLaneCtl
  repeat' first
    | with_reducible assumption
    | with_reducible apply State.hwSet_keeps
    | with_reducible apply State.setBit_keeps
    | with_reducible apply State.setReg_keeps
    | with_reducible apply Keeps.foldl
    | with_reducible apply Keeps.toF
    | intro _
    | split
    | dsimp only
    | simp only [Keeps.lit]

theorem State.mqStop_keeps {f m : Bool} {s u : State} (h : Keeps f m s u) : Keeps f m s (State.mqStop u) := by
  unfold State.mqStop
  repeat' first
    | with_reducible assumption
    | with_reducible apply State.setBit_keeps
    | with_reducible apply State.setFld_keeps
    | with_reducible apply Keeps.foldl
    | with_reducible apply Keeps.toF
    | intro _
    | split
    | dsimp only
    | simp only [Keeps.lit]

theorem State.mqStart_keeps {f m : Bool} {s u : State} (h : Keeps f m s u) : Keeps f m s (State.mqStart u) := by
  unfold State.mqStart
  repeat' first
    | with_reducible assumption
    | with_reducible apply State.setReg_keeps
    | with_reducible apply State.setBit_keeps
    | with_reducible apply State.setFld_keeps
    | with_reducible apply Keeps.foldl
    | with_reducible apply Keeps.toF
    | intro _
    | split
    | dsimp only
    | simp only [Keeps.lit]

theorem writeMqCfg_keeps (value : Word) {f m : Bool} {s u : State} (h : Keeps f m s u) :
    Keeps f m s (writeMqCfg value u) := by
  unfold writeMqCfg
  repeat' first
    | with_reducible assumption
    | with_reducible apply State.setBit_keeps
    | with_reducible apply State.hwSet_keeps
    | with_reducible apply State.mqStop_keeps
    | with_reducible apply State.setFld_keeps
    | with_reducible apply State.mqStart_keeps
    | with_reducible apply Keeps.foldl
    | with_reducible apply Keeps.toF
    | intro _
    | split

theorem State.mqError_keeps (st : Status) {f m : Bool} {s u : State} (h : Keeps f m s u) :
    Keeps f m s (State.mqError u st) := by
  unfold State.mqError
  repeat' first
    | with_reducible assumption
    | with_reducible apply State.setFld_keeps
    | with_reducible apply Keeps.foldl
    | with_reducible apply Keeps.toF
    | intro _
    | split
    | dsimp only
    | simp only [Keeps.lit]

theorem ringMqDoorbell_keeps (value : Word) {f m : Bool} {s u : State} (h : Keeps f m s u) :
    Keeps f m s (ringMqDoorbell value u) := by
  unfold ringMqDoorbell
  repeat' first
    | with_reducible assumption
    | with_reducible apply State.mqError_keeps
    | with_reducible apply Keeps.foldl
    | with_reducible apply Keeps.toF
    | intro _
    | split
    | dsimp only
    | simp only [Keeps.lit]

theorem writeMqCqHead_keeps (value : Word) {f m : Bool} {s u : State} (h : Keeps f m s u) :
    Keeps f m s (writeMqCqHead value u) := by
  unfold writeMqCqHead
  repeat' first
    | with_reducible assumption
    | with_reducible apply State.setReg_keeps
    | with_reducible apply Keeps.foldl
    | with_reducible apply Keeps.toF
    | intro _
    | split

theorem switchPair_keeps (value : Word) {f m : Bool} {s u : State} (h : Keeps f m s u) :
    Keeps f m s (switchPair value u) := by
  unfold switchPair
  repeat' first
    | with_reducible assumption
    | with_reducible apply State.setBit_keeps
    | with_reducible apply Keeps.foldl
    | with_reducible apply Keeps.toF
    | intro _
    | split

theorem State.interim_keeps (p : Packet) (result : List Byte) {f m : Bool} {s u : State} (h : Keeps f m s u) :
    Keeps f m s (State.interim u p result) := by
  unfold State.interim
  repeat' first
    | with_reducible assumption
    | with_reducible apply State.reply_keeps

theorem State.makeCq_keeps (b : List Byte) (rs : List XRange) {f m : Bool} {s u : State} (h : Keeps f m s u) :
    Keeps f m s (State.makeCq u b rs) := by
  unfold State.makeCq
  repeat' first
    | with_reducible assumption
    | with_reducible apply State.setReg_keeps
    | with_reducible apply State.setReg64_keeps
    | with_reducible apply State.putCq_keeps

theorem State.makeSq_keeps (b : List Byte) (rs : List XRange) {f m : Bool} {s u : State} (h : Keeps f m s u) :
    Keeps f m s (State.makeSq u b rs) := by
  unfold State.makeSq
  repeat' first
    | with_reducible assumption
    | with_reducible apply State.setReg_keeps
    | with_reducible apply State.setReg64_keeps
    | with_reducible apply State.putSq_keeps

theorem State.newModule_keeps (b : ℕ) (serial : ℕ) {f m : Bool} {s u : State} (h : Keeps f m s u) :
    Keeps f m s (State.newModule u b serial) := by
  unfold State.newModule
  repeat' first
    | with_reducible assumption
    | with_reducible apply State.setBit_keeps
    | with_reducible apply Keeps.foldl
    | with_reducible apply Keeps.toF
    | intro _
    | split
    | dsimp only
    | simp only [Keeps.lit]

theorem State.onPacket_keeps (op : Nat) (g : Packet → State → State) {f m : Bool} {s u : State}
    (hg : ∀ p v, Keeps f m s v → Keeps f m s (g p v)) (h : Keeps f m s u) : Keeps f m s (State.onPacket u op g) := by
  unfold State.onPacket
  split
  · exact h
  · split
    · exact hg _ _ h
    · exact h

theorem abortScope_keeps {f : Bool} {s u : State} (h : Keeps f false s u) : Keeps f false s (abortScope u) := by
  unfold abortScope
  repeat' first
    | with_reducible assumption
    | with_reducible apply State.onPacket_keeps
    | with_reducible apply State.final_keeps
    | with_reducible apply State.abortTask_keeps
    | with_reducible apply State.abortQueue_keeps
    | with_reducible apply Keeps.foldl
    | with_reducible apply Keeps.toF
    | intro _
    | split
    | dsimp only
    | simp only [Keeps.lit]

theorem State.nextScrub_keeps (b : ℕ) {f m : Bool} {s u : State} (h : Keeps f m s u) :
    Keeps f m s (State.nextScrub u b) := by
  unfold State.nextScrub
  repeat' first
    | with_reducible assumption
    | with_reducible apply State.putSite_keeps

theorem State.onBuffer_keeps (op : Nat) (g : Packet → State → State) {f m : Bool} {s u : State}
    (hg : ∀ p v, Keeps f m s v → Keeps f m s (g p v)) (h : Keeps f m s u) : Keeps f m s (State.onBuffer u op g) := by
  unfold State.onBuffer
  split
  · split
    · exact h
    · exact State.onPacket_keeps op g hg h
  · split
    · exact h
    · exact State.onPacket_keeps op g hg h

theorem State.openWindow_keeps (b : List Byte) {f m : Bool} {s u : State} (h : Keeps f m s u) :
    Keeps f m s (State.openWindow u b) := by
  unfold State.openWindow
  repeat' first
    | with_reducible assumption
    | with_reducible apply State.setReg64_keeps
    | with_reducible apply State.setReg_keeps

theorem State.putImage_keeps (b : ℕ) (image : List Byte) {f m : Bool} {s u : State} (h : Keeps f m s u) :
    Keeps f m s (State.putImage u b image) := by
  unfold State.putImage
  repeat' first
    | with_reducible assumption
    | with_reducible apply State.setReg_keeps
    | with_reducible apply Keeps.foldl
    | with_reducible apply Keeps.toF
    | intro _

theorem State.recordRow_keeps (e : RowEntry) {f m : Bool} {s u : State} (h : Keeps f m s u) :
    Keeps f m s (State.recordRow u e) := by
  unfold State.recordRow
  repeat' first
    | with_reducible assumption
    | with_reducible apply State.changeRecord_keeps
    | with_reducible apply Keeps.foldl
    | with_reducible apply Keeps.toF
    | intro _
    | split
    | dsimp only

theorem State.releaseEvac_keeps (r : RepairRecord) {f m : Bool} {s u : State} (h : Keeps f m s u) :
    Keeps f m s (State.releaseEvac u r) := by
  unfold State.releaseEvac
  repeat' first
    | with_reducible assumption
    | with_reducible apply State.reply_keeps
    | with_reducible apply Keeps.foldl
    | with_reducible apply Keeps.toF
    | intro _
    | split
    | dsimp only
    | simp only [Keeps.lit]

theorem State.releaseRetire_keeps (r : RepairRecord) {f m : Bool} {s u : State} (h : Keeps f m s u) :
    Keeps f m s (State.releaseRetire u r) := by
  unfold State.releaseRetire
  repeat' first
    | with_reducible assumption
    | with_reducible apply State.reply_keeps
    | with_reducible apply Keeps.foldl
    | with_reducible apply Keeps.toF
    | intro _
    | split
    | dsimp only
    | simp only [Keeps.lit]

theorem State.resetRegs_keeps (offs : List ℕ) {f m : Bool} {s u : State} (h : Keeps f m s u) :
    Keeps f m s (State.resetRegs u offs) := by
  unfold State.resetRegs
  repeat' first
    | with_reducible assumption
    | with_reducible apply State.setReg_keeps
    | with_reducible apply Keeps.foldl
    | with_reducible apply Keeps.toF
    | intro _

theorem State.retireUnit_keeps (kind : ℕ) (n : ℕ) {f m : Bool} {s u : State} (h : Keeps f m s u) :
    Keeps f m s (State.retireUnit u kind n) := by
  unfold State.retireUnit
  repeat' first
    | with_reducible assumption
    | with_reducible apply State.setFld_keeps
    | with_reducible apply State.setBit_keeps
    | with_reducible apply Keeps.foldl
    | with_reducible apply Keeps.toF
    | intro _
    | split
    | dsimp only
    | simp only [Keeps.lit]

theorem State.ringRequests_keeps (b : List Byte) {f m : Bool} {s u : State} (h : Keeps f m s u) :
    Keeps f m s (State.ringRequests u b) := by
  unfold State.ringRequests
  repeat' first
    | with_reducible assumption
    | with_reducible apply State.bump_keeps
    | with_reducible apply Keeps.foldl
    | with_reducible apply Keeps.toF
    | intro _
    | split

theorem State.siteFails_keeps (b : ℕ) (check : ℕ) {f m : Bool} {s u : State} (h : Keeps f m s u) :
    Keeps f m s (State.siteFails u b check) := by
  unfold State.siteFails
  repeat' first
    | with_reducible assumption
    | with_reducible apply State.setSiteState_keeps
    | with_reducible apply State.setFld_keeps

theorem State.spdRead_keeps (b : ℕ) (st : ℕ) (r : SpdResult) {f m : Bool} {s u : State} (h : Keeps f m s u) :
    Keeps f m s (State.spdRead u b st r) := by
  unfold State.spdRead
  repeat' first
    | with_reducible assumption
    | with_reducible apply State.siteFails_keeps
    | with_reducible apply State.putSite_keeps
    | with_reducible apply State.newModule_keeps
    | with_reducible apply State.putImage_keeps
    | with_reducible apply State.setSiteState_keeps
    | with_reducible apply State.setFld_keeps
    | with_reducible apply Keeps.foldl
    | with_reducible apply Keeps.toF
    | intro _
    | split

theorem State.takePacket_keeps (b : List Byte) {f m : Bool} {s u : State} (h : Keeps f m s u) :
    Keeps f m s (State.takePacket u b) := by
  unfold State.takePacket
  repeat' first
    | with_reducible assumption
    | with_reducible apply State.wrapAdd_keeps
    | with_reducible apply State.setReg_keeps
    | with_reducible apply State.setBit_keeps
    | with_reducible apply State.reply_keeps
    | with_reducible apply Keeps.foldl
    | with_reducible apply Keeps.toF
    | intro _
    | split
    | dsimp only
    | simp only [Keeps.lit]

theorem cancelEvacuation_keeps {f m : Bool} {s u : State} (h : Keeps f m s u) : Keeps f m s (cancelEvacuation u) := by
  unfold cancelEvacuation
  repeat' first
    | with_reducible assumption
    | with_reducible apply State.onPacket_keeps
    | with_reducible apply State.final_keeps
    | with_reducible apply State.endEvac_keeps
    | with_reducible apply State.cancelEvac_keeps
    | with_reducible apply Keeps.foldl
    | with_reducible apply Keeps.toF
    | intro _
    | split

theorem copyLine_keeps (e : LineErrors) (r : RowAddr) {f : Bool} {s u : State} (h : Keeps f false s u) :
    Keeps f false s (copyLine e r u) := by
  unfold copyLine
  repeat' first
    | with_reducible assumption
    | with_reducible apply State.atSite_keeps
    | with_reducible apply serveCopy_keeps
    | with_reducible apply Keeps.foldl
    | with_reducible apply Keeps.toF
    | intro _
    | split

theorem copyRow_keeps (b : ℕ) (n : ℕ) {f m : Bool} {s u : State} (h : Keeps f m s u) :
    Keeps f m s (copyRow b n u) := by
  unfold copyRow
  repeat' first
    | with_reducible assumption
    | with_reducible apply State.recordRow_keeps
    | with_reducible apply State.setBit_keeps
    | with_reducible apply Keeps.foldl
    | with_reducible apply Keeps.toF
    | intro _
    | split
    | dsimp only

theorem createQueue_keeps (xlate : RingXlate) {f m : Bool} {s u : State} (h : Keeps f m s u) :
    Keeps f m s (createQueue xlate u) := by
  unfold createQueue
  repeat' first
    | with_reducible assumption
    | with_reducible apply State.onPacket_keeps
    | with_reducible apply State.final_keeps
    | with_reducible apply State.ringRequests_keeps
    | with_reducible apply State.makeSq_keeps
    | with_reducible apply State.makeCq_keeps
    | with_reducible apply Keeps.foldl
    | with_reducible apply Keeps.toF
    | intro _
    | split
    | dsimp only

theorem destroyQueue_keeps {f m : Bool} {s u : State} (h : Keeps f m s u) : Keeps f m s (destroyQueue u) := by
  unfold destroyQueue
  repeat' first
    | with_reducible assumption
    | with_reducible apply State.onPacket_keeps
    | with_reducible apply State.final_keeps
    | with_reducible apply State.putSq_keeps
    | with_reducible apply State.resetRegs_keeps
    | with_reducible apply State.putCq_keeps
    | with_reducible apply Keeps.foldl
    | with_reducible apply Keeps.toF
    | intro _
    | split
    | dsimp only

theorem evacuateSite_keeps (spd : SpdResult) (trained : Bool) {f m : Bool} {s u : State} (h : Keeps f m s u) :
    Keeps f m s (evacuateSite spd trained u) := by
  unfold evacuateSite
  repeat' first
    | with_reducible assumption
    | with_reducible apply State.onPacket_keeps
    | with_reducible apply State.final_keeps
    | with_reducible apply State.setReg64_keeps
    | with_reducible apply State.interim_keeps
    | with_reducible apply State.spdRead_keeps
    | with_reducible apply State.emit_keeps
    | with_reducible apply State.siteFails_keeps
    | with_reducible apply State.setReg_keeps
    | with_reducible apply State.setSiteState_keeps
    | with_reducible apply State.setBit_keeps
    | with_reducible apply Keeps.foldl
    | with_reducible apply Keeps.toF
    | intro _
    | split
    | dsimp only
    | simp only [Keeps.lit]

theorem finishAbort_keeps {f m : Bool} {s u : State} (h : Keeps f m s u) : Keeps f m s (finishAbort u) := by
  unfold finishAbort
  repeat' first
    | with_reducible assumption
    | with_reducible apply Keeps.foldl
    | with_reducible apply Keeps.toF
    | intro _
    | split
    | dsimp only
    | simp only [Keeps.lit]

theorem retireEngine_keeps {f : Bool} {s u : State} (h : Keeps f false s u) : Keeps f false s (retireEngine u) := by
  unfold retireEngine
  repeat' first
    | with_reducible assumption
    | with_reducible apply State.onPacket_keeps
    | with_reducible apply State.final_keeps
    | with_reducible apply State.carryRetire_keeps
    | with_reducible apply State.retireUnit_keeps
    | with_reducible apply State.interim_keeps
    | with_reducible apply State.forceOff_keeps
    | with_reducible apply Keeps.foldl
    | with_reducible apply Keeps.toF
    | intro _
    | split
    | dsimp only
    | simp only [Keeps.lit]

theorem retireDrained_keeps {f m : Bool} {s u : State} (h : Keeps f m s u) : Keeps f m s (retireDrained u) := by
  unfold retireDrained
  repeat' first
    | with_reducible assumption
    | with_reducible apply State.retireUnit_keeps
    | with_reducible apply State.bringIn_keeps
    | with_reducible apply State.carryRetire_keeps
    | with_reducible apply Keeps.foldl
    | with_reducible apply Keeps.toF
    | intro _
    | split

theorem stageEpoch_keeps {f m : Bool} {s u : State} (h : Keeps f m s u) : Keeps f m s (stageEpoch u) := by
  unfold stageEpoch
  repeat' first
    | with_reducible assumption
    | with_reducible apply State.onPacket_keeps
    | with_reducible apply State.final_keeps
    | with_reducible apply State.interim_keeps
    | with_reducible apply State.setReg_keeps
    | with_reducible apply Keeps.foldl
    | with_reducible apply Keeps.toF
    | intro _
    | split
    | dsimp only
    | simp only [Keeps.lit]

theorem stageFirmware_keeps (signatureOk : Bool) (cond : MemCond) {f m : Bool} {s u : State} (h : Keeps f m s u) :
    Keeps f m s (stageFirmware signatureOk cond u) := by
  unfold stageFirmware
  repeat' first
    | with_reducible assumption
    | with_reducible apply State.onPacket_keeps
    | with_reducible apply State.final_keeps
    | with_reducible apply State.interim_keeps
    | with_reducible apply State.memRefusal_keeps
    | with_reducible apply State.noteCorrected_keeps
    | with_reducible apply State.setReg_keeps
    | with_reducible apply Keeps.foldl
    | with_reducible apply Keeps.toF
    | intro _
    | split
    | dsimp only
    | simp only [Keeps.lit]

theorem stageDone_keeps (ok : Bool) {f m : Bool} {s u : State} (h : Keeps f m s u) :
    Keeps f m s (stageDone ok u) := by
  unfold stageDone
  repeat' first
    | with_reducible assumption
    | with_reducible apply State.final_keeps
    | with_reducible apply State.setReg_keeps
    | with_reducible apply Keeps.foldl
    | with_reducible apply Keeps.toF
    | intro _
    | split
    | dsimp only
    | simp only [Keeps.lit]

theorem switchFirmware_keeps {f m : Bool} {s u : State} (h : Keeps f m s u) : Keeps f m s (switchFirmware u) := by
  unfold switchFirmware
  repeat' first
    | with_reducible assumption
    | with_reducible apply State.onPacket_keeps
    | with_reducible apply State.final_keeps
    | with_reducible apply State.setBit_keeps
    | with_reducible apply State.interim_keeps
    | with_reducible apply Keeps.foldl
    | with_reducible apply Keeps.toF
    | intro _
    | split
    | dsimp only
    | simp only [Keeps.lit]

theorem switchDone_keeps {f m : Bool} {s u : State} (h : Keeps f m s u) : Keeps f m s (switchDone u) := by
  unfold switchDone
  repeat' first
    | with_reducible assumption
    | with_reducible apply State.setBit_keeps
    | with_reducible apply State.final_keeps
    | with_reducible apply Keeps.foldl
    | with_reducible apply Keeps.toF
    | intro _
    | split
    | dsimp only
    | simp only [Keeps.lit]

theorem switchTimeout_keeps {f m : Bool} {s u : State} (h : Keeps f m s u) : Keeps f m s (switchTimeout u) := by
  unfold switchTimeout
  repeat' first
    | with_reducible assumption
    | with_reducible apply State.final_keeps
    | with_reducible apply State.setBit_keeps
    | with_reducible apply Keeps.foldl
    | with_reducible apply Keeps.toF
    | intro _
    | split
    | dsimp only
    | simp only [Keeps.lit]

theorem writeFlag_keeps {f m : Bool} {s u : State} (h : Keeps f m s u) : Keeps f m s (writeFlag u) := by
  unfold writeFlag
  repeat' first
    | with_reducible assumption
    | with_reducible apply State.onPacket_keeps
    | with_reducible apply State.final_keeps
    | with_reducible apply State.clearFlag_keeps
    | with_reducible apply State.setFlag_keeps
    | with_reducible apply Keeps.foldl
    | with_reducible apply Keeps.toF
    | intro _
    | split

theorem readIdentity_keeps (cond : MemCond) {f : Bool} {s u : State} (h : Keeps f false s u) :
    Keeps f false s (readIdentity cond u) := by
  unfold readIdentity
  repeat' first
    | with_reducible assumption
    | with_reducible apply State.onBuffer_keeps
    | with_reducible apply State.final_keeps
    | with_reducible apply State.fillBuffer_keeps
    | with_reducible apply Keeps.foldl
    | with_reducible apply Keeps.toF
    | intro _
    | split
    | dsimp only

theorem remapDone_keeps (p : ℕ) (trained : Bool) {f m : Bool} {s u : State} (h : Keeps f m s u) :
    Keeps f m s (remapDone p trained u) := by
  unfold remapDone
  repeat' first
    | with_reducible assumption
    | with_reducible apply State.setReg_keeps
    | with_reducible apply State.setBit_keeps
    | with_reducible apply State.changeRecord_keeps
    | with_reducible apply State.setFld_keeps
    | with_reducible apply State.hwSet_keeps
    | with_reducible apply Keeps.foldl
    | with_reducible apply Keeps.toF
    | intro _
    | split
    | dsimp only

theorem lockstepStop_keeps {f m : Bool} {s u : State} (h : Keeps f m s u) : Keeps f m s (lockstepStop u) := by
  unfold lockstepStop
  repeat' first
    | with_reducible assumption
    | with_reducible apply State.setFld_keeps
    | with_reducible apply State.mcEvent_keeps

theorem packetTimeout_keeps {f m : Bool} {s u : State} (h : Keeps f m s u) : Keeps f m s (packetTimeout u) := by
  unfold packetTimeout
  repeat' first
    | with_reducible assumption
    | with_reducible apply State.mqError_keeps
    | with_reducible apply Keeps.foldl
    | with_reducible apply Keeps.toF
    | intro _
    | split

theorem readPacket_keeps (cond : MemCond) {f m : Bool} {s u : State} (h : Keeps f m s u) :
    Keeps f m s (readPacket cond u) := by
  unfold readPacket
  repeat' first
    | with_reducible assumption
    | with_reducible apply State.mqError_keeps
    | with_reducible apply State.memRefusal_keeps
    | with_reducible apply State.noteCorrected_keeps
    | with_reducible apply State.takePacket_keeps
    | with_reducible apply Keeps.foldl
    | with_reducible apply Keeps.toF
    | intro _
    | split
    | dsimp only
    | simp only [Keeps.lit]

theorem rereadPacket_keeps {f m : Bool} {s u : State} (h : Keeps f m s u) : Keeps f m s (rereadPacket u) := by
  unfold rereadPacket
  repeat' first
    | with_reducible assumption
    | with_reducible apply Keeps.foldl
    | with_reducible apply Keeps.toF
    | intro _
    | split
    | dsimp only
    | simp only [Keeps.lit]

theorem writeReply_keeps {f : Bool} {s u : State} (h : Keeps f false s u) : Keeps f false s (writeReply u) := by
  unfold writeReply
  repeat' first
    | with_reducible assumption
    | with_reducible apply State.writeMem_keeps
    | with_reducible apply State.setReg_keeps
    | with_reducible apply State.setBit_keeps
    | with_reducible apply State.afterReply_keeps
    | with_reducible apply State.msix_keeps
    | with_reducible apply Keeps.foldl
    | with_reducible apply Keeps.toF
    | intro _
    | split
    | dsimp only
    | simp only [Keeps.lit]

theorem setPower_keeps {f m : Bool} {s u : State} (h : Keeps f m s u) : Keeps f m s (setPower u) := by
  unfold setPower
  repeat' first
    | with_reducible assumption
    | with_reducible apply State.onPacket_keeps
    | with_reducible apply State.final_keeps
    | with_reducible apply Keeps.foldl
    | with_reducible apply Keeps.toF
    | intro _
    | split
    | dsimp only
    | simp only [Keeps.lit]

theorem refreshBank_keeps (b : ℕ) (bank : ℕ) (writes : ℕ) {f m : Bool} {s u : State} (h : Keeps f m s u) :
    Keeps f m s (refreshBank b bank writes u) := by
  unfold refreshBank
  repeat' first
    | with_reducible assumption
    | with_reducible apply State.putSite_keeps
    | with_reducible apply State.setFld_keeps
    | with_reducible apply State.bump_keeps
    | with_reducible apply Keeps.foldl
    | with_reducible apply Keeps.toF
    | intro _
    | split

theorem pollRate_keeps (b : ℕ) (rate : ℕ) {f m : Bool} {s u : State} (h : Keeps f m s u) :
    Keeps f m s (pollRate b rate u) := by
  unfold pollRate
  repeat' first
    | with_reducible assumption
    | with_reducible apply State.putSite_keeps
    | with_reducible apply Keeps.foldl
    | with_reducible apply Keeps.toF
    | intro _
    | split

theorem recordWritten_keeps (ok : Bool) {m : Bool} {s u : State} (h : Keeps false m s u) :
    Keeps false m s (recordWritten ok u) := by
  unfold recordWritten
  repeat' first
    | with_reducible assumption
    | with_reducible apply State.setBit_keeps
    | with_reducible apply State.putCopy_keeps
    | with_reducible apply State.setReg_keeps
    | with_reducible apply State.hwSet_keeps
    | with_reducible apply State.releaseRetire_keeps
    | with_reducible apply State.releaseEvac_keeps
    | with_reducible apply State.startRecordWrite_keeps
    | with_reducible apply Keeps.foldl
    | with_reducible apply Keeps.toF
    | intro _
    | split
    | dsimp only
    | simp only [Keeps.lit]

theorem scrubLine_keeps (b : ℕ) (e : LineErrors) (r : RowAddr) {f : Bool} {s u : State} (h : Keeps f false s u) :
    Keeps f false s (scrubLine b e r u) := by
  unfold scrubLine
  repeat' first
    | with_reducible assumption
    | with_reducible apply State.atSite_keeps
    | with_reducible apply State.putSite_keeps
    | with_reducible apply serveScrub_keeps
    | with_reducible apply Keeps.foldl
    | with_reducible apply Keeps.toF
    | intro _
    | split

theorem sparePairBooted_keeps (aOk : Bool) (bOk : Bool) {f m : Bool} {s u : State} (h : Keeps f m s u) :
    Keeps f m s (sparePairBooted aOk bOk u) := by
  unfold sparePairBooted
  repeat' first
    | with_reducible assumption
    | with_reducible apply State.setBit_keeps
    | with_reducible apply State.setReg_keeps
    | with_reducible apply State.cancelEvac_keeps
    | with_reducible apply State.changeRecord_keeps
    | with_reducible apply Keeps.foldl
    | with_reducible apply Keeps.toF
    | intro _
    | split
    | dsimp only
    | simp only [Keeps.lit]

theorem startSpd_keeps (b : ℕ) (r : SpdResult) {f m : Bool} {s u : State} (h : Keeps f m s u) :
    Keeps f m s (startSpd b r u) := by
  unfold startSpd
  repeat' first
    | with_reducible assumption
    | with_reducible apply State.endReadout_keeps
    | with_reducible apply State.spdRead_keeps
    | with_reducible apply State.emit_keeps
    | with_reducible apply Keeps.foldl
    | with_reducible apply Keeps.toF
    | intro _
    | split

theorem spdTimeout_keeps (b : ℕ) {f m : Bool} {s u : State} (h : Keeps f m s u) : Keeps f m s (spdTimeout b u) := by
  unfold spdTimeout
  repeat' first
    | with_reducible assumption
    | with_reducible apply State.endReadout_keeps
    | with_reducible apply State.siteFails_keeps
    | with_reducible apply State.emit_keeps
    | with_reducible apply Keeps.foldl
    | with_reducible apply Keeps.toF
    | intro _
    | split

theorem installTable_keeps {f m : Bool} {s u : State} (h : Keeps f m s u) : Keeps f m s (installTable u) := by
  unfold installTable
  repeat' first
    | with_reducible assumption
    | with_reducible apply State.setReg_keeps
    | with_reducible apply State.final_keeps
    | with_reducible apply Keeps.foldl
    | with_reducible apply Keeps.toF
    | intro _
    | split
    | dsimp only
    | simp only [Keeps.lit]

theorem loadTable_keeps (cond : MemCond) {f m : Bool} {s u : State} (h : Keeps f m s u) :
    Keeps f m s (loadTable cond u) := by
  unfold loadTable
  repeat' first
    | with_reducible assumption
    | with_reducible apply State.onBuffer_keeps
    | with_reducible apply State.final_keeps
    | with_reducible apply State.memRefusal_keeps
    | with_reducible apply State.noteCorrected_keeps
    | with_reducible apply State.setFld_keeps
    | with_reducible apply Keeps.foldl
    | with_reducible apply Keeps.toF
    | intro _
    | split
    | dsimp only
    | simp only [Keeps.lit]

theorem snapTelemetry_keeps (cond : MemCond) {f : Bool} {s u : State} (h : Keeps f false s u) :
    Keeps f false s (snapTelemetry cond u) := by
  unfold snapTelemetry
  repeat' first
    | with_reducible assumption
    | with_reducible apply State.onBuffer_keeps
    | with_reducible apply State.final_keeps
    | with_reducible apply State.fillBuffer_keeps
    | with_reducible apply State.clearCounters_keeps
    | with_reducible apply Keeps.foldl
    | with_reducible apply Keeps.toF
    | intro _
    | split
    | dsimp only

theorem rowReported_keeps (stack : ℕ) (pc : ℕ) (bank : ℕ) (row : ℕ) {f m : Bool} {s u : State} (h : Keeps f m s u) :
    Keeps f m s (rowReported stack pc bank row u) := by
  unfold rowReported
  repeat' first
    | with_reducible assumption
    | with_reducible apply State.recordRow_keeps
    | with_reducible apply Keeps.foldl
    | with_reducible apply Keeps.toF
    | intro _
    | split

theorem readTierB_keeps (a : ℕ) (e : LineErrors) (r : RowAddr) (owner : Option TaskRef) {f : Bool} {s u : State}
    (h : Keeps f false s u) : Keeps f false s (readTierB a e r owner u) := by
  unfold readTierB
  repeat' first
    | with_reducible assumption
    | with_reducible apply State.atBank_keeps
    | with_reducible apply serveRequest_keeps
    | with_reducible apply Keeps.foldl
    | with_reducible apply Keeps.toF
    | intro _
    | split
    | dsimp only

theorem windowClosed_keeps {f m : Bool} {s u : State} (h : Keeps f m s u) : Keeps f m s (windowClosed u) := by
  unfold windowClosed
  repeat' first
    | with_reducible assumption
    | with_reducible apply State.onPacket_keeps
    | with_reducible apply State.setBit_keeps
    | with_reducible apply State.final_keeps
    | with_reducible apply Keeps.foldl
    | with_reducible apply Keeps.toF
    | intro _
    | split
    | dsimp only
    | simp only [Keeps.lit]

theorem windowDrained_keeps {f m : Bool} {s u : State} (h : Keeps f m s u) : Keeps f m s (windowDrained u) := by
  unfold windowDrained
  repeat' first
    | with_reducible assumption
    | with_reducible apply State.final_keeps
    | with_reducible apply Keeps.foldl
    | with_reducible apply Keeps.toF
    | intro _
    | split
    | dsimp only
    | simp only [Keeps.lit]

theorem windowOpened_keeps {f m : Bool} {s u : State} (h : Keeps f m s u) : Keeps f m s (windowOpened u) := by
  unfold windowOpened
  repeat' first
    | with_reducible assumption
    | with_reducible apply State.onPacket_keeps
    | with_reducible apply State.final_keeps
    | with_reducible apply State.openWindow_keeps
    | with_reducible apply Keeps.foldl
    | with_reducible apply Keeps.toF
    | intro _
    | split
    | dsimp only

end Sys2Proof.Machine
end

