-- ==== Sys2Proof/Laws/KeepsPower.lean ====
section
/-!
SUPPORT. What each operation keeps (Laws/Keeps.lean): reset, start-up, the register bus, power and the tick.
-/
namespace Sys2Proof.Machine

open Sys2Proof

theorem State.bindCold_keeps {f m : Bool} {s u : State} (h : Keeps f m s u) : Keeps f m s (State.bindCold u) := by
  unfold State.bindCold
  repeat' first
    | with_reducible assumption
    | with_reducible apply State.setSiteState_keeps
    | with_reducible apply State.setFld_keeps
    | with_reducible apply Keeps.foldl
    | with_reducible apply Keeps.toF
    | intro _
    | split

theorem State.bindKept_keeps {f m : Bool} {s u : State} (h : Keeps f m s u) : Keeps f m s (State.bindKept u) := by
  unfold State.bindKept
  repeat' first
    | with_reducible assumption
    | with_reducible apply State.setFld_keeps
    | with_reducible apply Keeps.foldl
    | with_reducible apply Keeps.toF
    | intro _
    | split

theorem State.cutRecord_keeps {m : Bool} {s u : State} (h : Keeps false m s u) :
    Keeps false m s (State.cutRecord u) := by
  unfold State.cutRecord
  repeat' first
    | with_reducible assumption
    | with_reducible apply State.putCopy_keeps
    | with_reducible apply Keeps.foldl
    | with_reducible apply Keeps.toF
    | intro _
    | split
    | dsimp only
    | simp only [Keeps.lit]

theorem State.carry_keeps (old : State) (offs : List Nat) {f m : Bool} {s u : State} (h : Keeps f m s u) :
    Keeps f m s (u.carry old offs) :=
  Keeps.foldl _ (fun _ _ hv => State.setReg_keeps _ _ hv) h

theorem State.cold_keeps (kept : List ℕ) {s u : State} (h : Keeps false false s u) :
    Keeps false false s (State.cold u kept) := by
  unfold State.cold
  exact State.setBit_keeps _ _ _ (State.carry_keeps _ _ (h.anew rfl rfl (List.suffix_refl _) (fun _ => rfl) (fun _ => rfl)))

theorem State.plainWrite_keeps (off : ℕ) (v : Word) {f m : Bool} {s u : State} (h : Keeps f m s u) :
    Keeps f m s (State.plainWrite u off v) := by
  unfold State.plainWrite
  repeat' first
    | with_reducible assumption
    | with_reducible apply State.setReg_keeps
    | with_reducible apply Keeps.foldl
    | with_reducible apply Keeps.toF
    | intro _
    | split

theorem State.commitPair_keeps (src : Requester) (high : ℕ) (v : Word) {f m : Bool} {s u : State} (h : Keeps f m
    s u) : Keeps f m s (State.commitPair u src high v) := by
  unfold State.commitPair
  repeat' first
    | with_reducible assumption
    | with_reducible apply State.plainWrite_keeps
    | with_reducible apply Keeps.foldl
    | with_reducible apply Keeps.toF
    | intro _
    | split
    | dsimp only
    | simp only [Keeps.lit]

theorem State.failLoads_keeps {f m : Bool} {s u : State} (h : Keeps f m s u) : Keeps f m s (State.failLoads u) := by
  unfold State.failLoads
  repeat' first
    | with_reducible assumption
    | with_reducible apply State.emit_keeps
    | with_reducible apply State.apertureFault_keeps
    | with_reducible apply Keeps.foldl
    | with_reducible apply Keeps.toF
    | intro _

theorem ringsFailed_keeps (l : List Nat) {f m : Bool} {s u : State} (h : Keeps f m s u) :
    Keeps f m s (l.foldl (fun v q => if (v.sq q).outstanding ∧ v.sqHost q then v.sqReadFailed q St.host 0 else v) u) := by
  refine Keeps.foldl _ (fun v x hv => ?_) h
  split
  · exact State.sqReadFailed_keeps _ _ _ hv
  · exact hv

theorem noStale_keeps {f m : Bool} {s u : State} (h : Keeps f m s u) :
    Keeps f m s { u with sqs := u.sqs.map (fun x => (x.1, { x.2 with stale := [] })) } :=
  h

theorem State.failRings_keeps {f m : Bool} {s u : State} (h : Keeps f m s u) : Keeps f m s (State.failRings u) := by
  unfold State.failRings
  have k := ringsFailed_keeps (List.range 1024) h
  generalize List.range 1024 = l at k ⊢
  exact noStale_keeps k

theorem State.stageLow_keeps (src : Requester) (off : ℕ) (v : Word) {f m : Bool} {s u : State} (h : Keeps f m s u) :
    Keeps f m s (State.stageLow u src off v) := by
  unfold State.stageLow
  repeat' first
    | with_reducible assumption
    | with_reducible apply Keeps.foldl
    | with_reducible apply Keeps.toF
    | intro _
    | split
    | dsimp only
    | simp only [Keeps.lit]

theorem releasePads_keeps (value : Word) {f m : Bool} {s u : State} (h : Keeps f m s u) :
    Keeps f m s (releasePads value u) := by
  unfold releasePads
  repeat' first
    | with_reducible assumption
    | with_reducible apply State.setBit_keeps
    | with_reducible apply Keeps.foldl
    | with_reducible apply Keeps.toF
    | intro _
    | split
    | dsimp only
    | simp only [Keeps.lit]

theorem releaseCores_keeps (value : Word) {f m : Bool} {s u : State} (h : Keeps f m s u) :
    Keeps f m s (releaseCores value u) := by
  unfold releaseCores
  repeat' first
    | with_reducible assumption
    | with_reducible apply State.setBit_keeps
    | with_reducible apply Keeps.foldl
    | with_reducible apply Keeps.toF
    | intro _
    | split

theorem writeSqCtl_keeps (q : ℕ) (v : Word) {f m : Bool} {s u : State} (h : Keeps f m s u) :
    Keeps f m s (writeSqCtl q v u) := by
  unfold writeSqCtl
  repeat' first
    | with_reducible assumption
    | with_reducible apply resumeQueue_keeps
    | with_reducible apply skipEntry_keeps
    | with_reducible apply pauseQueue_keeps
    | with_reducible apply Keeps.foldl
    | with_reducible apply Keeps.toF
    | intro _
    | split

theorem writeSpCtl_keeps (p : ℕ) (v : Word) {f m : Bool} {s u : State} (h : Keeps f m s u) :
    Keeps f m s (writeSpCtl p v u) := by
  unfold writeSpCtl
  repeat' first
    | with_reducible assumption
    | with_reducible apply resumePort_keeps
    | with_reducible apply discardPort_keeps
    | with_reducible apply flushPort_keeps
    | with_reducible apply Keeps.foldl
    | with_reducible apply Keeps.toF
    | intro _
    | split

theorem writeRoutes_keeps {x : Nat × Nat × Nat × (Nat → Word → State → State)} (hx : x ∈ writeRoutes) (n : Nat) (v : Word)
    {s u : State} (h : Keeps false false s u) : Keeps false false s (x.2.2.2 n v u) := by
  simp only [writeRoutes, List.mem_cons, List.not_mem_nil, or_false] at hx
  rcases hx with rfl | rfl | rfl | rfl | rfl | rfl | rfl | rfl | rfl | rfl | rfl | rfl | rfl | rfl | rfl | rfl | rfl | rfl | rfl |
    rfl | rfl | rfl | rfl | rfl | rfl | rfl | rfl | rfl | rfl | rfl <;> dsimp only
  repeat' first
    | with_reducible assumption
    | with_reducible apply setNodeId_keeps
    | with_reducible apply releasePads_keeps
    | with_reducible apply releaseCores_keeps
    | with_reducible apply writeSqCtl_keeps
    | with_reducible apply State.setCqHead_keeps
    | with_reducible apply setEvents_keeps
    | with_reducible apply clearEvents_keeps
    | with_reducible apply writeTmrCtl_keeps
    | with_reducible apply commitDrt_keeps
    | with_reducible apply writeCtxMap_keeps
    | with_reducible apply releaseFailed_keeps
    | with_reducible apply State.setReg_keeps
    | with_reducible apply addCredits_keeps
    | with_reducible apply writeFeCtl_keeps
    | with_reducible apply writePeerCfg_keeps
    | with_reducible apply writeRxCfg_keeps
    | with_reducible apply writeRxHead_keeps
    | with_reducible apply writeLaneCtl_keeps
    | with_reducible apply sendMessage_keeps
    | with_reducible apply writeSpCtl_keeps
    | with_reducible apply writeJrCfg_keeps
    | with_reducible apply setJrHead_keeps
    | with_reducible apply writeMqCfg_keeps
    | with_reducible apply ringMqDoorbell_keeps
    | with_reducible apply writeMqCqHead_keeps
    | with_reducible apply switchPair_keeps
    | with_reducible apply ringSqDoorbell_keeps
    | with_reducible apply ringCqDoorbell_keeps

theorem wordWrite_keeps (src : Requester) (off : ℕ) (v : Word) {s u : State} (h : Keeps false false s u) :
    Keeps false false s (wordWrite src off v u) := by
  unfold wordWrite
  repeat' first
    | with_reducible exact writeRoutes_keeps (List.mem_of_find?_eq_some (by assumption)) _ _ h
    | with_reducible assumption
    | with_reducible apply State.stageLow_keeps
    | with_reducible apply State.commitPair_keeps
    | with_reducible apply State.plainWrite_keeps
    | with_reducible apply Keeps.foldl
    | with_reducible apply Keeps.toF
    | intro _
    | split
    | dsimp only
    | simp only [Keeps.lit]

theorem busWrite_keeps (src : Requester) (off : ℕ) (bytes : List Byte) {s u : State} (h : Keeps false false s u) :
    Keeps false false s (busWrite src off bytes u) := by
  unfold busWrite
  repeat' first
    | with_reducible assumption
    | with_reducible apply writePush_keeps
    | with_reducible apply wordWrite_keeps
    | with_reducible apply Keeps.foldl
    | with_reducible apply Keeps.toF
    | intro _
    | split

theorem State.readLow_keeps (src : Requester) (off : ℕ) {f m : Bool} {s u : State} (h : Keeps f m s u) :
    Keeps f m s (State.readLow u src off) := by
  unfold State.readLow
  repeat' first
    | with_reducible assumption
    | with_reducible apply State.emit_keeps
    | with_reducible apply Keeps.foldl
    | with_reducible apply Keeps.toF
    | intro _
    | split
    | dsimp only
    | simp only [Keeps.lit]

theorem State.readHigh_keeps (src : Requester) (off : ℕ) {f m : Bool} {s u : State} (h : Keeps f m s u) :
    Keeps f m s (State.readHigh u src off) := by
  unfold State.readHigh
  repeat' first
    | with_reducible assumption
    | with_reducible apply State.emit_keeps
    | with_reducible apply Keeps.foldl
    | with_reducible apply Keeps.toF
    | intro _
    | split
    | dsimp only
    | simp only [Keeps.lit]

theorem State.readClear_keeps (src : Requester) (off : ℕ) (rc : Word) {f m : Bool} {s u : State} (h : Keeps f m
    s u) : Keeps f m s (State.readClear u src off rc) := by
  unfold State.readClear
  repeat' first
    | with_reducible assumption
    | with_reducible apply State.emit_keeps
    | with_reducible apply State.clearRc_keeps

theorem wordRead_keeps (src : Requester) (off : ℕ) {f m : Bool} {s u : State} (h : Keeps f m s u) :
    Keeps f m s (wordRead src off u) := by
  unfold wordRead
  repeat' first
    | with_reducible assumption
    | with_reducible apply State.readLow_keeps
    | with_reducible apply State.readHigh_keeps
    | with_reducible apply State.emit_keeps
    | with_reducible apply State.readClear_keeps
    | with_reducible apply Keeps.foldl
    | with_reducible apply Keeps.toF
    | intro _
    | split

theorem busRead_keeps (src : Requester) (off : ℕ) (len : ℕ) {f m : Bool} {s u : State} (h : Keeps f m s u) :
    Keeps f m s (busRead src off len u) := by
  unfold busRead
  repeat' first
    | with_reducible assumption
    | with_reducible apply wordRead_keeps
    | with_reducible apply State.emit_keeps
    | with_reducible apply Keeps.foldl
    | with_reducible apply Keeps.toF
    | intro _
    | split

theorem State.forward_keeps (w : HeldAccess) {s u : State} (h : Keeps false false s u) :
    Keeps false false s (State.forward u w) := by
  unfold State.forward
  repeat' first
    | with_reducible assumption
    | with_reducible apply busWrite_keeps
    | with_reducible apply busRead_keeps
    | with_reducible apply State.tierBGate_keeps
    | with_reducible apply doBar2Read_keeps
    | with_reducible apply doBar2Write_keeps
    | with_reducible apply doCoreLoad_keeps
    | with_reducible apply doCoreStore_keeps
    | with_reducible apply doCoreAtomic_keeps
    | with_reducible apply doRemote_keeps
    | with_reducible apply Keeps.foldl
    | with_reducible apply Keeps.toF
    | intro _
    | split

theorem State.ifRuns_keeps (g : State → State) {f m : Bool} {s u : State} (hg : Keeps f m s (g u)) (h : Keeps f m s u) :
    Keeps f m s (State.ifRuns u g) := by
  unfold State.ifRuns
  split
  · exact hg
  · exact h

theorem State.landLatch_keeps (l : Latch) {f m : Bool} {s u : State} (h : Keeps f m s u) :
    Keeps f m s (State.landLatch u l) := by
  unfold State.landLatch
  repeat' first
    | with_reducible assumption
    | with_reducible apply State.noteSet_keeps
    | with_reducible apply State.setReg_keeps
    | with_reducible apply Keeps.foldl
    | with_reducible apply Keeps.toF
    | intro _
    | split

theorem State.land_keeps {f m : Bool} {s u : State} (h : Keeps f m s u) : Keeps f m s (State.land u) := by
  unfold State.land
  repeat' first
    | with_reducible assumption
    | with_reducible apply State.putFlag_keeps
    | with_reducible apply State.setFlag_keeps
    | with_reducible apply State.landLatch_keeps
    | with_reducible apply State.logEvent_keeps
    | with_reducible apply State.sendNotices_keeps
    | with_reducible apply Keeps.foldl
    | with_reducible apply Keeps.toF
    | intro _
    | split
    | dsimp only
    | simp only [Keeps.lit]

theorem State.leaveSelfRefresh_keeps {f m : Bool} {s u : State} (h : Keeps f m s u) :
    Keeps f m s (State.leaveSelfRefresh u) := by
  unfold State.leaveSelfRefresh
  repeat' first
    | with_reducible assumption
    | with_reducible apply State.setBit_keeps
    | with_reducible apply Keeps.foldl
    | with_reducible apply Keeps.toF
    | intro _

theorem State.linkFails_keeps (ref : TaskRef) {f : Bool} {s u : State} (h : Keeps f false s u) :
    Keeps f false s (State.linkFails u ref) := by
  unfold State.linkFails
  repeat' first
    | with_reducible assumption
    | with_reducible apply State.failHost_keeps
    | with_reducible apply State.settle_keeps
    | with_reducible apply State.fail_keeps
    | with_reducible apply State.failAtXlate_keeps
    | with_reducible apply Keeps.foldl
    | with_reducible apply Keeps.toF
    | intro _
    | split

theorem State.offState_keeps {s u : State} (h : Keeps false false s u) : Keeps false false s (State.offState u) := by
  unfold State.offState
  exact (State.setReg_keeps R.stStatus 0 (State.cold_keeps alwaysOnRegs h)).anew rfl rfl (List.suffix_refl _) id id

theorem State.replay_keeps (w : HeldAccess) {s u : State} (h : Keeps false false s u) :
    Keeps false false s (State.replay u w) := by
  unfold State.replay
  repeat' first
    | with_reducible assumption
    | with_reducible apply pastWindow_keeps
    | with_reducible apply State.forward_keeps
    | with_reducible apply Keeps.foldl
    | with_reducible apply Keeps.toF
    | intro _
    | split

theorem State.restore_keeps (image : Bool) {f m : Bool} {s u : State} (h : Keeps f m s u) :
    Keeps f m s (State.restore u image) := by
  unfold State.restore
  repeat' first
    | with_reducible assumption
    | with_reducible apply State.setReg_keeps
    | with_reducible apply State.setBit_keeps
    | with_reducible apply Keeps.foldl
    | with_reducible apply Keeps.toF
    | intro _
    | split
    | dsimp only
    | simp only [Keeps.lit]

theorem State.reviveSites_keeps {f m : Bool} {s u : State} (h : Keeps f m s u) :
    Keeps f m s (State.reviveSites u) := by
  unfold State.reviveSites
  repeat' first
    | with_reducible assumption
    | with_reducible apply State.changeRecord_keeps
    | with_reducible apply State.setSiteState_keeps
    | with_reducible apply Keeps.foldl
    | with_reducible apply Keeps.toF
    | intro _
    | split

theorem State.selfReset_keeps (cause : ℕ) {s u : State} (h : Keeps false false s u) :
    Keeps false false s (State.selfReset u cause) := by
  unfold State.selfReset
  let c := (u.freeBits u.lostCells).cutRecord
  have n : Keeps false false s _ := h.anew (t := { State.reset with
      mem := c.mem, memGen := c.memGen, checksAt := u.cycle, freeCtr := c.freeCtr, out := u.out, cycle := u.cycle,
      pending := u.pending, gtcHold := u.gtcHold, flash0 := c.flash0, flash1 := c.flash1, record := c.startRecord,
      stackIds := u.stackIds, powered := u.powered, coldStart := u.coldStart && decide (u.startup ≠ .done), restoring := true,
      linkDown := u.linkDown, linkDownCycles := if cause = 30 then lossTaken else u.linkDownCycles })
    rfl rfl (List.suffix_refl _) (fun w => ?_) (fun _ => rfl)
  · have k2 := State.setBit_keeps R.cpRecord 27 false (State.carry_keeps u (imageRegs ++ alwaysOnRegs) n)
    have k3 := State.setBit_keeps R.pwStatus 28 (u.bit R.pwStatus 28) (State.setReg_keeps R.pwStatus 0x80000000 k2)
    have k4 := State.setBit_keeps R.pwCoreHold 31 true (State.bump_keeps R.rstCount 1 (State.hwSet_keeps R.rstCause cause k3))
    refine Keeps.foldl _ (fun v x hv => State.setBit_keeps _ _ _ hv) ?_
    split
    · exact State.setFld_keeps _ _ _ _ k4
    · exact k4
  · exact (State.cutRecord_keeps (State.freeBits_keeps u.lostCells (Keeps.self false false u))).memWf w

theorem State.serveEndpoints_keeps {f m : Bool} {s u : State} (h : Keeps f m s u) :
    Keeps f m s (State.serveEndpoints u) := by
  unfold State.serveEndpoints
  repeat' first
    | with_reducible assumption
    | with_reducible apply State.serveWaiting_keeps
    | with_reducible apply Keeps.foldl
    | with_reducible apply Keeps.toF
    | intro _

theorem State.settleRows_keeps (sel : RowEntry → Bool) (oks : List Bool) {f m : Bool} {s u : State} (h : Keeps f
    m s u) : Keeps f m s (State.settleRows u sel oks) := by
  unfold State.settleRows
  repeat' first
    | with_reducible assumption
    | with_reducible apply State.changeRecord_keeps
    | with_reducible apply Keeps.foldl
    | with_reducible apply Keeps.toF
    | intro _
    | split

theorem State.tickTime_keeps {f m : Bool} {s u : State} (h : Keeps f m s u) : Keeps f m s (State.tickTime u) := by
  unfold State.tickTime
  repeat' first
    | with_reducible assumption
    | with_reducible apply State.bump64_keeps
    | with_reducible apply State.setBit_keeps
    | with_reducible apply Keeps.foldl
    | with_reducible apply Keeps.toF
    | intro _
    | split
    | dsimp only
    | simp only [Keeps.lit]

theorem State.tickIdleGated_keeps {f m : Bool} {s u : State} (h : Keeps f m s u) :
    Keeps f m s (State.tickIdleGated u) := by
  unfold State.tickIdleGated
  repeat' first
    | with_reducible assumption
    | with_reducible apply State.beginEntry_keeps
    | with_reducible apply Keeps.foldl
    | with_reducible apply Keeps.toF
    | intro _
    | split

theorem State.tickTimers_keeps {f m : Bool} {s u : State} (h : Keeps f m s u) : Keeps f m s (State.tickTimers u) := by
  unfold State.tickTimers
  repeat' first
    | with_reducible assumption
    | with_reducible apply Keeps.foldl
    | with_reducible apply Keeps.toF
    | intro _
    | split
    | dsimp only
    | simp only [Keeps.lit]

theorem State.tickCloseWait_keeps {f m : Bool} {s u : State} (h : Keeps f m s u) :
    Keeps f m s (State.tickCloseWait u) := by
  unfold State.tickCloseWait
  repeat' first
    | with_reducible assumption
    | with_reducible apply Keeps.foldl
    | with_reducible apply Keeps.toF
    | intro _
    | split
    | dsimp only
    | simp only [Keeps.lit]

theorem State.tickArbiters_keeps {f m : Bool} {s u : State} (h : Keeps f m s u) :
    Keeps f m s (State.tickArbiters u) := by
  unfold State.tickArbiters
  repeat' first
    | with_reducible assumption
    | with_reducible apply State.bump_keeps
    | with_reducible apply Keeps.foldl
    | with_reducible apply Keeps.toF
    | intro _
    | split

theorem State.tickEngines_keeps {f m : Bool} {s u : State} (h : Keeps f m s u) :
    Keeps f m s (State.tickEngines u) := by
  unfold State.tickEngines
  repeat' first
    | with_reducible assumption
    | with_reducible apply State.bump_keeps
    | with_reducible apply Keeps.foldl
    | with_reducible apply Keeps.toF
    | intro _
    | split

theorem State.tickPads_keeps {f m : Bool} {s u : State} (h : Keeps f m s u) : Keeps f m s (State.tickPads u) := by
  unfold State.tickPads
  repeat' first
    | with_reducible assumption
    | with_reducible apply State.bump_keeps
    | with_reducible apply Keeps.foldl
    | with_reducible apply Keeps.toF
    | intro _
    | split

theorem State.tickPorts_keeps {f m : Bool} {s u : State} (h : Keeps f m s u) : Keeps f m s (State.tickPorts u) := by
  unfold State.tickPorts
  repeat' first
    | with_reducible assumption
    | with_reducible apply State.countTag_keeps
    | with_reducible apply State.putPort_keeps
    | with_reducible apply Keeps.foldl
    | with_reducible apply Keeps.toF
    | intro _
    | split

theorem State.tickRings_keeps {f m : Bool} {s u : State} (h : Keeps f m s u) : Keeps f m s (State.tickRings u) := by
  unfold State.tickRings
  repeat' first
    | with_reducible assumption
    | with_reducible apply State.bump_keeps
    | with_reducible apply Keeps.foldl
    | with_reducible apply Keeps.toF
    | intro _
    | split
    | dsimp only

theorem State.tickArray_keeps {f m : Bool} {s u : State} (h : Keeps f m s u) : Keeps f m s (State.tickArray u) := by
  unfold State.tickArray
  repeat' first
    | with_reducible assumption
    | with_reducible apply State.startArrayCycle_keeps
    | with_reducible apply State.keepHolds_keeps
    | with_reducible apply State.endArrayCycle_keeps
    | with_reducible apply Keeps.foldl
    | with_reducible apply Keeps.toF
    | intro _
    | split
    | dsimp only
    | simp only [Keeps.lit]

theorem State.tickRunning_keeps {f m : Bool} {s u : State} (h : Keeps f m s u) :
    Keeps f m s (State.tickRunning u) := by
  unfold State.tickRunning
  repeat' first
    | with_reducible assumption
    | with_reducible apply State.tickIdleGated_keeps
    | with_reducible apply State.tickTimers_keeps
    | with_reducible apply State.tickCloseWait_keeps
    | with_reducible apply State.tickArbiters_keeps
    | with_reducible apply State.tickEngines_keeps
    | with_reducible apply State.tickPads_keeps
    | with_reducible apply State.tickPorts_keeps
    | with_reducible apply State.tickRings_keeps
    | with_reducible apply State.tickArray_keeps

theorem State.tierBServes_keeps {s u : State} (h : Keeps false false s u) :
    Keeps false false s (State.tierBServes u) := by
  unfold State.tierBServes
  repeat' first
    | with_reducible assumption
    | with_reducible apply State.setBit_keeps
    | with_reducible apply State.serveEndpoints_keeps
    | with_reducible apply State.replay_keeps
    | with_reducible apply Keeps.foldl
    | with_reducible apply Keeps.toF
    | intro _
    | split
    | dsimp only
    | simp only [Keeps.lit]

theorem State.trainSites_keeps (trained : List Bool) {f m : Bool} {s u : State} (h : Keeps f m s u) :
    Keeps f m s (State.trainSites u trained) := by
  unfold State.trainSites
  repeat' first
    | with_reducible assumption
    | with_reducible apply State.siteFails_keeps
    | with_reducible apply Keeps.foldl
    | with_reducible apply Keeps.toF
    | intro _
    | split

theorem State.useRecord_keeps {f m : Bool} {s u : State} (h : Keeps f m s u) : Keeps f m s (State.useRecord u) := by
  unfold State.useRecord
  repeat' first
    | with_reducible assumption
    | with_reducible apply State.setReg_keeps
    | with_reducible apply State.setBit_keeps
    | with_reducible apply State.startRecordWrite_keeps
    | with_reducible apply Keeps.foldl
    | with_reducible apply Keeps.toF
    | intro _
    | split
    | dsimp only
    | simp only [Keeps.lit]

theorem autoIdle_keeps {f m : Bool} {s u : State} (h : Keeps f m s u) : Keeps f m s (autoIdle u) := by
  unfold autoIdle
  repeat' first
    | with_reducible assumption
    | with_reducible apply State.beginEntry_keeps
    | with_reducible apply Keeps.foldl
    | with_reducible apply Keeps.toF
    | intro _
    | split

theorem checksDone_keeps (r : BootResult) {f m : Bool} {s u : State} (h : Keeps f m s u) :
    Keeps f m s (checksDone r u) := by
  unfold checksDone
  repeat' first
    | with_reducible assumption
    | with_reducible apply State.useRecord_keeps
    | with_reducible apply State.setReg_keeps
    | with_reducible apply State.setFld_keeps
    | with_reducible apply State.setBit_keeps
    | with_reducible apply State.settleRows_keeps
    | with_reducible apply State.restore_keeps
    | with_reducible apply Keeps.foldl
    | with_reducible apply Keeps.toF
    | intro _
    | split
    | dsimp only
    | simp only [Keeps.lit]

theorem continuationDone_keeps (trained : List Bool) (rowsApplied : List Bool) {s u : State} (h : Keeps false
    false s u) : Keeps false false s (continuationDone trained rowsApplied u) := by
  unfold continuationDone
  repeat' first
    | with_reducible assumption
    | with_reducible apply State.trainSites_keeps
    | with_reducible apply State.bindCold_keeps
    | with_reducible apply State.reviveSites_keeps
    | with_reducible apply State.settleRows_keeps
    | with_reducible apply State.bindKept_keeps
    | with_reducible apply State.setBit_keeps
    | with_reducible apply State.leaveSelfRefresh_keeps
    | with_reducible apply State.tierBServes_keeps
    | with_reducible apply Keeps.foldl
    | with_reducible apply Keeps.toF
    | intro _
    | split
    | dsimp only
    | simp only [Keeps.lit]

theorem correctTime_keeps (delta : ℤ) {f m : Bool} {s u : State} (h : Keeps f m s u) :
    Keeps f m s (correctTime delta u) := by
  unfold correctTime
  repeat' first
    | with_reducible assumption
    | with_reducible apply State.setBit_keeps
    | with_reducible apply State.setReg64_keeps
    | with_reducible apply Keeps.foldl
    | with_reducible apply Keeps.toF
    | intro _
    | split
    | dsimp only
    | simp only [Keeps.lit]

theorem entryComplete_keeps {s u : State} (h : Keeps false false s u) : Keeps false false s (entryComplete u) := by
  unfold entryComplete
  split
  · exact h
  · rename_i p _
    have k : Keeps false false s (if p = .off then { u.offState with latchedWake := u.latchedWake }
        else { u with entering := none, power := p }) := by
      split
      · exact (State.offState_keeps h).anew rfl rfl (List.suffix_refl _) id id
      · exact h.anew rfl rfl (List.suffix_refl _) id id
    split
    · exact h
    · dsimp only
      generalize (if p = .off then ({ u.offState with latchedWake := u.latchedWake } : State)
          else { u with entering := none, power := p }) = v at k ⊢
      split
      · exact State.startWake_keeps _ k
      · exact k

theorem linkDownDone_keeps {f m : Bool} {s u : State} (h : Keeps f m s u) :
    Keeps f m s { u with apLoads := [], linkDown := true, linkDownCycles := 0 } :=
  h

theorem linkDown_keeps {f : Bool} {s u : State} (h : Keeps f false s u) : Keeps f false s (linkDown u) := by
  unfold linkDown
  split
  · exact h
  · have k := State.failLoads_keeps (State.failRings_keeps (Keeps.foldl (u.tasks.map Task.ref) (fun v x hv => State.linkFails_keeps x hv) h))
    dsimp only
    generalize (List.foldl State.linkFails u (List.map Task.ref u.tasks)).failRings.failLoads = w at k ⊢
    exact linkDownDone_keeps k

theorem linkUp_keeps {f m : Bool} {s u : State} (h : Keeps f m s u) : Keeps f m s (linkUp u) :=
  { h.toF with outGrows := h.outGrows.trans (List.suffix_append _ _) }

theorem linkLoss_keeps {s u : State} (h : Keeps false false s u) : Keeps false false s (linkLoss u) := by
  unfold linkLoss
  repeat' first
    | with_reducible assumption
    | with_reducible apply State.ifRuns_keeps
    | with_reducible apply State.selfReset_keeps
    | with_reducible apply Keeps.foldl
    | with_reducible apply Keeps.toF
    | intro _
    | split

theorem selfRefreshExit_keeps {s u : State} (h : Keeps false false s u) :
    Keeps false false s (selfRefreshExit u) := by
  unfold selfRefreshExit
  repeat' first
    | with_reducible assumption
    | with_reducible apply State.tierBServes_keeps
    | with_reducible apply State.leaveSelfRefresh_keeps
    | with_reducible apply Keeps.foldl
    | with_reducible apply Keeps.toF
    | intro _
    | split
    | dsimp only
    | simp only [Keeps.lit]

theorem restoreDone_keeps {f m : Bool} {s u : State} (h : Keeps f m s u) : Keeps f m s (restoreDone u) := by
  unfold restoreDone
  repeat' first
    | with_reducible assumption
    | with_reducible apply State.restore_keeps
    | with_reducible apply Keeps.foldl
    | with_reducible apply Keeps.toF
    | intro _
    | split
    | dsimp only
    | simp only [Keeps.lit]

theorem wakeComplete_keeps {s u : State} (h : Keeps false false s u) : Keeps false false s (wakeComplete u) := by
  unfold wakeComplete
  split
  · exact h
  · split
    · exact h
    · refine State.serveEndpoints_keeps (Keeps.foldl _ (fun v x hv => State.forward_keeps _ hv) ?_)
      exact h.anew rfl rfl (List.suffix_refl _) id id

theorem wakeEvent_keeps (w : WakeSource) (held : List HeldAccess) {f m : Bool} {s u : State} (h : Keeps f m s u) :
    Keeps f m s (wakeEvent w held u) := by
  unfold wakeEvent
  repeat' first
    | with_reducible assumption
    | with_reducible apply State.wakeBy_keeps
    | with_reducible apply State.hold_keeps
    | with_reducible apply Keeps.foldl
    | with_reducible apply Keeps.toF
    | intro _
    | split

/-- The end of a core cycle counts it, and keeps what every effect keeps. -/
theorem State.nextCycle_keeps (s : State) : Keeps true false { s with cycle := s.cycle + 1 } s.nextCycle :=
  have k : Keeps true false s (abortScope s).observe := State.observe_keeps (abortScope_keeps (Keeps.self true false s))
  { k.toF with cycleEq := congrArg (· + 1) k.cycleEq }

/-- A core cycle with no command keeps the tables and the power state, beyond its own count. -/
theorem State.tick_keeps (s : State) : Keeps true false { s with cycle := s.cycle + 1 } s.tick := by
  have k : Keeps true false { s with cycle := s.cycle + 1 } s.nextCycle.land.releaseHeld.requestCredits.endRefreshes :=
    State.endRefreshes_keeps (State.requestCredits_keeps (State.releaseHeld_keeps (State.land_keeps (State.nextCycle_keeps s))))
  unfold State.tick
  dsimp only
  split
  · exact k
  · split
    · exact State.tickTime_keeps k
    · exact State.tickRunning_keeps (State.tickTime_keeps k)

end Sys2Proof.Machine
end

