-- ==== Sys2Proof/Laws/Rs.lean ====
section
/-!
SUPPORT. Laws of the code of a tier B line: a line returned from the place it was asked of ends as its symbols alone
decide, whichever line it is (R299, R300).
-/
namespace Sys2Proof.Machine.Rs

/-- With the address right, no address symbol differs. -/
theorem errorAt_inPlace (l : List (Fin 72 × Byte)) (line p : Nat) :
    errorAt ⟨l, none⟩ line p = errorAt ⟨l, none⟩ 0 p := by
  simp [errorAt, Option.getD]

theorem errorWord_inPlace (l : List (Fin 72 × Byte)) (line : Nat) : errorWord ⟨l, none⟩ line = errorWord ⟨l, none⟩ 0 := by
  simp only [errorWord]
  exact List.map_congr_left (fun p _ => errorAt_inPlace l line p)

theorem residue_inPlace (l : List (Fin 72 × Byte)) (line : Nat) (v : Verdict) (p : Nat) :
    residue ⟨l, none⟩ line v p = residue ⟨l, none⟩ 0 v p := by
  simp only [residue, errorAt_inPlace l line]

/-- A line returned from its own row and column ends the same whichever line it is. -/
theorem judge_inPlace (l : List (Fin 72 × Byte)) (line : Nat) : judge ⟨l, none⟩ line = judge ⟨l, none⟩ 0 := by
  have h : residue ⟨l, none⟩ line = residue ⟨l, none⟩ 0 := funext fun v => funext fun p => residue_inPlace l line v p
  simp [judge, errorWord_inPlace l line, h]

end Sys2Proof.Machine.Rs
end

