-- ==== Sys2Proof/Tests/Slice0.lean ====
section
/-!
SUPPORT. Tests of the model. The `witness` theorems show, statement by statement of Certificates/Slice0/Obligations.lean,
states and operands that meet the hypotheses of each clause, at the edge of their range where they have one.
-/
namespace Sys2Proof.Tests

open Sys2Proof.Machine

-- One check after another: the kernel evaluates each, and many at once take many threads.
set_option Elab.async false

/-- Registers given words. -/
def withRegs (l : List (Nat × Nat)) (s : State) : State := l.foldl (fun u p => u.setReg p.1 (BitVec.ofNat 32 p.2)) s

/-- Bytes of zero with fields put in: offset, length, value. -/
def bytesOf (n : Nat) (l : List (Nat × Nat × Nat)) : List Byte :=
  l.foldl (fun b f => patchBytes b f.1 (leBytes f.2.1 f.2.2)) (List.replicate n 0)

/-- An entry of `u` units. -/
def entryOf (op u : Nat) (mark : Bool) (l : List (Nat × Nat × Nat)) : List Byte :=
  bytesOf (64 * u) ((0, 1, op) :: (1, 1, boolBit mark * 128 + (u - 1)) :: l)

/-- A running queue 3 with 64 units, ring 2 enabled with 64 records. -/
def sQ : State :=
  withRegs [(R.sqCfg 3, 0x80000000), (R.sqState 3, 0x60000000), (R.sqLimits 3, 0x0F000000), (R.cqCfg 2, 0x80000000),
    (R.cqTail 2, 0x80000000), (R.sqBaseLo 3, 0x1000), (R.cqBaseLo 2, 0x8000), (R.pwStatus, 0xE0000000), (R.gtcLo, 77)]
    { State.reset with startup := .done, coldStart := false, cycle := 5000 }

namespace Bus

def off0 (s : State) : State := { s with power := .off }
def rest_1 := [Instr.perstAssert]
def st2 : State := { sQ with pending := [Instr.hotReset, Instr.perstAssert] }
def st3 : State := { State.reset with powered := false }
def st4 : State := off0 sQ
def st5 : State := off0 { sQ with gtcHold := 2 }
def bytes4 : List Byte := [5, 0, 0, 0]
def coreSt : State := { sQ with padWait := [.coreStore 2 0x40000000000 [1] .good] }
def st6 : State := { sQ with power := .idleGated }
def src_7 := Requester.core 2
def clr31 : List Byte := [0, 0, 0, 0x80]
def row (o : Nat) : RegRow := (regRow o).getD ⟨0, 0, 0, 0, 0, 0, 0, 0, 0, 0⟩
def r_8 := row R.strSessionCfg
def bytes_9 := bytes4.take 3
def r_10 := row R.cxErr
def sBump : State := sQ.bump (R.cqFullStall 2) 3
def off_11 := R.cqFullStall 2
def r_13 := row (R.cqFullStall 2)
def fl0 : State := { sQ with later := { events := [], flags := [(511, true)], latches := [], notices := [] } }
def lx : Latch := { off := R.cxErr, key := 5, val := 77, also := [] }
def ly : Latch := { off := R.cxErr, key := 4, val := 2 ^ 31 - 1, also := [] }
def la (u : State) : State := { u with later := { events := [], flags := [], latches := [lx, ly], notices := [] } }
def st14 : State := la sQ
def st15 : State := la (withRegs [(R.cxErr, 0x80000001)] sQ)
def ev : McEvent := { source := 15, unit := 255, status := 9, task := none, addr := 0, time := 77 }
def evs (u : State) : State := { u with later := { events := [ev], flags := [], latches := [], notices := [] } }
def st16 : State := evs sQ
def st18 : State := evs (withRegs ((List.range 16).map (fun n => (R.mcInfo n, 0x80000000))) sQ)
def rl_19 := row R.jrBaseLo
def rh_20 := row (R.jrBaseLo + 4)
def st21 : State := withRegs [(R.mqState, 0x80000000)] sQ
def delta_23 := (5 : Int)
def delta_24 := (-1 : Int)
def opened : State := withRegs [(R.ctxMap 5, 0xC0000077), (R.drtBaseLo 0 3, 0x4000), (R.drtLimitLo 0 3, 0x4000),
  (R.tuCoreCtx 2, 5)] sQ
def c_27 := (0 : Fin 4096)
def st28 : State := withRegs [(R.feStatus, 1)] opened
def g_29 := (2 : Fin 3)
def n_30 := (1023 : Fin 1024)
def c_31 := (4095 : Fin 4096)
def st32 : State := withRegs [(R.sqCfg 7, 0x8000000F)] opened
def c_33 := (15 : Fin 4096)
def four : List Byte := [1, 2, 3, 4]
def eight : List Byte := List.replicate 8 7
def pasid_34 := (none : Option (BitVec 20))
def pasid_35 := (some 9 : Option (BitVec 20))
def off_36 := (0x040000000000 : Nat)
def st37 : State := withRegs [(R.pwStatus, 0x80000000)] sQ
def seen : State := { opened with drt := [(3, { base := 0x4000, limit := 0x4000, valid := true, read := true, write := true, atomic := true, ctx := 5 })] }
def owner : Task := { newTask ⟨3, 4, 0⟩ (entryOf 9 1 true []) 1 2 with phase := .running, ranges := [⟨0x1000, 0x900000, 0x1000, true, true, false, false⟩] }
def bound : State := { sQ with tasks := [owner], apertures := [(3, some ⟨3, 4, 0⟩)] }
def core_39 := (2 : Fin 8)
def ap_40 := (3 : Fin 16)
def r_42 := ({ op := .add, wide := true, a := 5, b := 0 } : AtomicReq)
def a_43 := (0x0400_0000_0000 : Nat)
def st44 : State := withRegs [(R.pwStatus, 0x80000000)] seen
def off_45 := (0x00FFFFFC : Nat)
def windowed : State := withRegs [(R.feCtl, 0x80000000), (R.feStatus, 1), (R.winCtl 3, 0xF0000000), (R.winBaseLo 3,
  0x4000), (R.winLimitLo 3, 0x5000), (R.winSrc 3, 0xFFFF0009)] sQ
def r_48 := RemoteAccess.read 24569 8

theorem witness_FrontCommandRuns :
    (st2.pending = Instr.hotReset :: rest_1) := by decide +kernel

theorem witness_EmptyQueueTicks :
    (st3.pending = [] ∧ st3.quiet ∧ st3.powered = false) ∧
    (st4.pending = [] ∧ st4.quiet ∧ st4.powered = true ∧ st4.power = PState.off ∧ st4.gtcHold = 0) ∧
    (st5.pending = [] ∧ st5.quiet ∧ st5.powered = true ∧ st5.power = PState.off ∧ 1 < st5.gtcHold) := by decide +kernel

theorem witness_RegisterWriteByAccessType_1 :
    (sQ.takesWrite Requester.host R.strSessionCfg ∧ plainRegister R.strSessionCfg ∧ bytes4.length = 4 ∧
    regRow R.strSessionCfg = some r_8 ∧ sQ.refusesValue R.strSessionCfg (BitVec.ofNat 32 (leNat bytes4)) = false ∧ 2 < 32 ∧
    r_8.rw.testBit 2 = true ∧ r_8.w1c.testBit 2 = false ∧ r_8.w1s.testBit 2 = false) ∧
    (sQ.takesWrite Requester.host R.strSessionCfg ∧ plainRegister R.strSessionCfg ∧ bytes4.length = 4 ∧
    regRow R.strSessionCfg = some r_8 ∧ sQ.refusesValue R.strSessionCfg (BitVec.ofNat 32 (leNat bytes4)) = false ∧
    31 < 32 ∧ r_8.rw.testBit 31 = false ∧ r_8.w1c.testBit 31 = false ∧ r_8.w1s.testBit 31 = false) ∧
    (sQ.takesWrite Requester.host R.strSessionCfg ∧ pushAt R.strSessionCfg = none ∧
    (bytes_9.length ≠ 4 ∨ R.strSessionCfg % 4 ≠ 0) ∧
    (bytes_9.length ≠ 8 ∨ isPairLow R.strSessionCfg = false)) := by decide +kernel

theorem witness_RegisterWriteByAccessType_2 :
    (sQ.takesWrite Requester.host 1008 ∧ plainRegister 1008 ∧ bytes4.length = 4 ∧ regRow 1008 = none) ∧
    (st6.below = true ∧ st6.wakeBuf.length < 16) ∧
    (coreSt.below = false ∧ coreSt.waitsBehindHeld (HeldAccess.reg src_7 R.strSessionCfg bytes4) = true) := by
    decide +kernel

theorem witness_SameCycleEventsAreKept_1 :
    (st16.takesWrite Requester.host R.cxErr ∧ plainRegister R.cxErr ∧ clr31.length = 4 ∧ regRow R.cxErr = some r_10 ∧
    st16.refusesValue R.cxErr (BitVec.ofNat 32 (leNat clr31)) = false ∧ 31 < 32 ∧ r_10.rw.testBit 31 = false ∧
    r_10.w1s.testBit 31 = false ∧ r_10.w1c.testBit 31 = true ∧ (leNat clr31).testBit 31 = true) ∧
    (sBump.takesRead Requester.host ∧ off_11 % 4 = 0 ∧ isPairLow off_11 = false ∧ isPairHigh off_11 = false ∧
    regRow off_11 = some r_13 ∧ r_13.rc = 2 ^ 32 - 1 ∧ 0 < 32 ∧ 32 ≤ 32 ∧ (sBump.countedNow off_11).2 < 2 ^ 32) ∧
    (511 < 512 ∧ fl0.later = { events := [], flags := [(511, true)], latches := [], notices := [] }) := by decide +kernel

theorem witness_SameCycleEventsAreKept_2 :
    (st14.later = { events := [], flags := [], latches := [lx, ly], notices := [] } ∧ lx.off = ly.off ∧ ly.key < lx.key ∧
    lx.also = [] ∧ ly.also = [] ∧ ly.val < 2 ^ 31 ∧ st14.bit ly.off 31 = false) ∧
    (st15.later = { events := [], flags := [], latches := [lx, ly], notices := [] } ∧ lx.off = ly.off ∧ ly.key < lx.key ∧
    lx.also = [] ∧ ly.also = [] ∧ ly.val < 2 ^ 31 ∧ st15.bit ly.off 31 = true) ∧
    (st16.later = { events := [ev], flags := [], latches := [], notices := [] } ∧ st16.bit R.mcCtl 31 = false ∧
    st16.freeMcEntry = some 0 ∧ 0 < 16 ∧ ev.source < 16 ∧ ev.unit < 256) ∧
    (st18.later = { events := [ev], flags := [], latches := [], notices := [] } ∧ st18.bit R.mcCtl 31 = false ∧
    st18.freeMcEntry = none) := by decide +kernel

theorem witness_PairsMoveAsOne :
    (sQ.takesRead Requester.host ∧ R.jrBaseLo % 4 = 0 ∧ isPairLow R.jrBaseLo = true ∧ isPairLow (R.jrBaseLo + 4) = false) ∧
    (sQ.takesRead Requester.host ∧ (2 ≠ 4 ∨ R.jrBaseLo % 4 ≠ 0) ∧
    (2 ≠ 8 ∨ isPairLow R.jrBaseLo = false)) := by decide +kernel

theorem witness_TimeAndLockstep :
    (0 ≤ delta_23) ∧
    (delta_24 < 0) ∧
    (sQ.cpRuns = true) ∧
    (st21.cpRuns = false) := by decide +kernel

theorem witness_ProtectionTables :
    (st28.takesWrite Requester.cp R.nodeId ∧ (st28.bit R.feCtl 31 = true ∨ st28.bit R.feStatus 0 = true)) ∧
    (opened.takesWrite Requester.cp R.nodeId ∧ opened.bit R.feCtl 31 = false ∧ opened.bit R.feStatus 0 = false) ∧
    (opened.takesWrite Requester.cp (R.drtCtl ↑g_29 ↑n_30)) ∧
    (opened.takesWrite Requester.cp (R.ctxMap ↑c_27) ∧ c_27 = 0) ∧
    (st32.takesWrite Requester.cp (R.ctxMap ↑c_33) ∧ c_33 ≠ 0 ∧ st32.ctxInUse ↑c_33 = true) ∧
    (st28.takesWrite Requester.cp (R.ctxMap ↑c_31) ∧ c_31 ≠ 0 ∧ st28.ctxInUse ↑c_31 = false ∧
    st28.pasidTaken (↑c_31) 3221225591 = true) ∧
    (opened.takesWrite Requester.cp (R.ctxMap ↑c_31) ∧ c_31 ≠ 0 ∧ opened.ctxInUse ↑c_31 = false ∧
    opened.pasidTaken (↑c_31) 3221225592 = false) := by decide +kernel

theorem witness_Bar2Accesses :
    (sQ.takesBar2Read ∧ sQ.tierBWaits (sQ.bar2Local 256) = false ∧ sQ.ctxOfPasid pasid_34 = some 0 ∧
    inTier (sQ.bar2Local 256) 4 = true ∧ sQ.drtAllows 0 Acc.read (sQ.bar2Local 256) 4 = true ∧
    sQ.bound (sQ.bar2Local 256) 4 = true) ∧
    (sQ.takesBar2Read ∧ sQ.tierBWaits (sQ.bar2Local 256) = false ∧
    (sQ.ctxOfPasid pasid_35 = none ∨ inTier (sQ.bar2Local 256) 4 = false)) ∧
    (sQ.below = false ∧ sQ.tierBWaits (sQ.bar2Local 256) = false ∧ sQ.ctxOfPasid pasid_34 = some 0 ∧
    inTier (sQ.bar2Local 256) four.length = true ∧ sQ.drtAllows 0 Acc.write (sQ.bar2Local 256) four.length = true ∧
    sQ.bound (sQ.bar2Local 256) four.length = true) ∧
    (st37.below = false ∧ st37.tierBWaits (st37.bar2Local off_36) = true) := by decide +kernel

theorem witness_ApertureAccesses :
    (apertureSize 4088 8 = true ∧ bound.apertureCause (↑ap_40) 4088 8 = none ∧ bound.linkDown = false) ∧
    (apertureSize 4088 eight.length = true ∧ bound.apertureCause (↑ap_40) 4088 eight.length = none) ∧
    (apertureSize 4096 8 = true ∧ bound.apertureCause (↑ap_40) 4096 8 = some 1) ∧
    (apertureSize 4096 eight.length = true ∧ bound.apertureCause (↑ap_40) 4096 eight.length = some 1) ∧
    (apertureSize 4095 8 = false) ∧
    (apertureSize 4095 eight.length = false) := by decide +kernel

theorem witness_CoreAccesses :
    ((regionOf 20472).isMemory = true ∧ seen.tierBWaits 20472 = false ∧
    seen.coreVerdict (↑core_39) Acc.read 20472 8 MemCond.good = none) ∧
    (seen.tierBWaits 20480 = false ∧ inMemory 20480 8 = true ∧ regionOf 20480 ≠ Region.scratch ∧
    seen.drtAllows (seen.coreCtx ↑core_39) Acc.read 20480 8 = false) ∧
    ((regionOf 20472).isMemory = true ∧ seen.tierBWaits 20472 = false ∧
    seen.coreVerdict (↑core_39) Acc.write 20472 eight.length MemCond.good = none) ∧
    (st44.tierBWaits a_43 = true) ∧
    (seen.tierBWaits 20472 = false ∧ atomicLegal r_42 20472 = true ∧
    seen.memVerdict (seen.coreCtx ↑core_39) Acc.atomic 20472 (atomicSize r_42) MemCond.good = none) ∧
    (off_45 < 16777216) := by decide +kernel

theorem witness_RemoteAccesses_1 :
    (windowed.feActive = true ∧ windowed.winFor 9 (remoteAcc r_48) (remoteAddr r_48) (remoteLen r_48) = none) ∧
    (windowed.feActive = true ∧ windowed.winFor 9 Acc.read 24568 8 = some 3 ∧ windowed.tierBWaits 24568 = false ∧
    windowed.memVerdict (windowed.fld (R.winCtl 3) 0 12) Acc.read 24568 8 MemCond.good = none) ∧
    (windowed.feActive = true ∧ windowed.winFor 9 Acc.write 24568 eight.length = some 3 ∧
    windowed.tierBWaits 24568 = false ∧ windowed.memVerdict (windowed.fld (R.winCtl 3) 0 12) Acc.write 24568 eight.length
    MemCond.good = none) := by decide +kernel

theorem witness_RemoteAccesses_2 :
    (windowed.feActive = true ∧ windowed.winFor 9 Acc.atomic 24568 (atomicSize r_42) = some 3 ∧
    windowed.tierBWaits 24568 = false ∧ atomicLegal r_42 24568 = true ∧ isFadd r_42 = false ∧
    windowed.memVerdict (windowed.fld (R.winCtl 3) 0 12) Acc.atomic 24568 (atomicSize r_42) MemCond.good = none) ∧
    (sQ.feActive = false) := by decide +kernel

theorem witness_PairsMoveAsOne_write :
    sQ.takesWrite .host R.jrBaseLo ∧ sQ.takesWrite .host (R.jrBaseLo + 4) ∧ R.jrBaseLo % 4 = 0 ∧
    isPairLow R.jrBaseLo = true ∧ isPairLow (R.jrBaseLo + 4) = false ∧
    pushAt R.jrBaseLo = none ∧ pushAt (R.jrBaseLo + 4) = none ∧ bytes4.length = 4 ∧ regRow R.jrBaseLo = some rl_19 ∧
    regRow (R.jrBaseLo + 4) = some rh_20 ∧ sQ.pairHeld R.jrBaseLo = false ∧
    (∀ i < 32, rl_19.w1c.testBit i = false ∧ rl_19.w1s.testBit i = false ∧ rh_20.w1c.testBit i = false ∧
      rh_20.w1s.testBit i = false) := by decide +kernel

theorem witness_PairsMoveAsOne_values (u : State) :
    u.refusesValue R.jrBaseLo (BitVec.ofNat 32 (leNat bytes4)) = false ∧
    u.refusesValue (R.jrBaseLo + 4) (BitVec.ofNat 32 (leNat bytes4)) = false := ⟨rfl, rfl⟩

end Bus

namespace Doorbells

def q3 : Fin 1024 := 3
def wt : List Byte := entryOf 9 1 true [(4,4,77),(8,1,2)]
def s1 := { sQ with push := putBytes [] (1024*3) wt }
def v_1 := (1 : Word)
def c_2 := (2 : Fin 256)
def bs_3 := wt.take 63
def st5 : State := withRegs [(R.sqState 3, 0x60000008), (R.sqIndex 3, 9), (R.sqTail 3, 8), (R.qiIrq, 0x80000005)] s1
def st9 : State := withRegs [(R.sqState 3, 0xE0000000), (R.sqIndex 3, 9)] s1
def st11 : State := withRegs [(R.sqState 3, 0)] s1

theorem witness_DoorbellPages_1 :
    (st11.takesWrite Requester.host (R.sqDoorbell ↑q3) ∧ st11.sqMode ↑q3 = 0) ∧
    (s1.takesWrite Requester.host (R.sqDoorbell ↑q3) ∧ s1.sqMode ↑q3 ≠ 0 ∧ getField v_1 0 16 < s1.sqUnits ↑q3 ∧
    (getField v_1 0 16 + s1.sqUnits ↑q3 - s1.sqTail ↑q3) % s1.sqUnits ↑q3 < (s1.sqHead ↑q3 + 2 * s1.sqUnits ↑q3 - s1.sqTail
    ↑q3 - 1) % s1.sqUnits ↑q3 + 1 ∧ getField v_1 31 1 = 0 ∧
    (getField v_1 0 16 + s1.sqUnits ↑q3 - s1.sqTail ↑q3) % s1.sqUnits ↑q3 ≠ 0) ∧
    (s1.takesWrite Requester.host (R.sqDoorbell ↑q3) ∧ s1.sqMode ↑q3 ≠ 0 ∧ getField v_1 0 16 < s1.sqUnits ↑q3 ∧
    (getField v_1 0 16 + s1.sqUnits ↑q3 - s1.sqTail ↑q3) % s1.sqUnits ↑q3 < (s1.sqHead ↑q3 + 2 * s1.sqUnits ↑q3 - s1.sqTail
    ↑q3 - 1) % s1.sqUnits ↑q3 + 1 ∧ getField v_1 31 1 = 0 ∧ s1.sqMode ↑q3 = 1 ∧ getField v_1 0 16 ≠ s1.sqHead ↑q3 ∧
    s1.sq ↑q3 = sqDefault ↑q3) := by decide +kernel

theorem witness_DoorbellPages_2 :
    (s1.takesWrite Requester.host (R.sqDoorbell ↑q3) ∧ s1.sqMode ↑q3 = 1 ∧ getField 2147483649 0 16 < s1.sqUnits ↑q3 ∧
    (getField 2147483649 0 16 + s1.sqUnits ↑q3 - s1.sqTail ↑q3) % s1.sqUnits ↑q3 < (s1.sqHead ↑q3 + 2 * s1.sqUnits ↑q3 -
    s1.sqTail ↑q3 - 1) % s1.sqUnits ↑q3 + 1 ∧ getField 2147483649 31 1 = 1 ∧ s1.sqHead ↑q3 = s1.sqTail ↑q3 ∧
    (getField 2147483649 0 16 + s1.sqUnits ↑q3 - s1.sqTail ↑q3) % s1.sqUnits ↑q3 = entryUnits (s1.pushedEntry ↑q3) ∧
    entryMark (s1.pushedEntry ↑q3) = s1.sqPhase ↑q3) ∧
    (st5.takesWrite Requester.host (R.sqDoorbell ↑q3) ∧ (st5.sqMode ↑q3 = 1 ∨ st5.sqMode ↑q3 = 2) ∧
    (st5.sqUnits ↑q3 ≤ getField 100 0 16 ∨ (st5.sqHead ↑q3 + 2 * st5.sqUnits ↑q3 - st5.sqTail ↑q3 - 1) % st5.sqUnits ↑q3 +
    1 ≤ (getField 100 0 16 + st5.sqUnits ↑q3 - st5.sqTail ↑q3) % st5.sqUnits ↑q3)) := by decide +kernel

theorem witness_DoorbellPages_3 :
    (st9.takesWrite Requester.host (R.sqDoorbell ↑q3) ∧ st9.sqMode ↑q3 = 3 ∧
    (st9.sqUnits ↑q3 ≤ getField 64 0 16 ∨ (st9.sqHead ↑q3 + 2 * st9.sqUnits ↑q3 - st9.sqTail ↑q3 - 1) % st9.sqUnits ↑q3 + 1
    ≤ (getField 64 0 16 + st9.sqUnits ↑q3 - st9.sqTail ↑q3) % st9.sqUnits ↑q3)) ∧
    (st5.takesWrite Requester.host (R.sqDoorbell ↑q3 + 1024 + 64) ∧ pushWriteOk 64 wt.length = true) ∧
    (s1.takesWrite Requester.host (R.sqDoorbell ↑q3 + 1024 + 64) ∧ pushWriteOk 64 bs_3.length = false) ∧
    (s1.takesWrite Requester.host (R.cqHead ↑c_2) ∧ getField 2147483649 0 16 < s1.cqRecords ↑c_2) ∧
    (st5.takesWrite Requester.host (R.cqHead ↑c_2) ∧ st5.cqRecords ↑c_2 ≤ getField 100 0 16) := by decide +kernel

theorem witness_DoorbellPages_4 :
    (s1.takesWrite Requester.host (R.cqHeadDoorbell ↑q3) ∧ (s1.bit (R.sqCfg ↑q3) 31 = true ∧
    s1.fld (R.cqCfg (getField 2147483649 16 8)) 0 12 = s1.sqCtx ↑q3) ∧
    getField 2147483649 0 16 < s1.cqRecords (getField 2147483649 16 8)) ∧
    (st5.takesWrite Requester.host (R.cqHeadDoorbell ↑q3) ∧ (¬(st5.bit (R.sqCfg ↑q3) 31 = true ∧
    st5.fld (R.cqCfg (getField 100 16 8)) 0 12 = st5.sqCtx ↑q3) ∨ st5.cqRecords (getField 100 16 8) ≤ getField 100 0 16))
    := by decide +kernel

end Doorbells

namespace Queues

def q3 : Fin 1024 := 3
def wt : List Byte := entryOf 9 1 true [(4,4,77),(8,1,2)]
def wt0 : List Byte := entryOf 9 1 false [(4,4,77),(8,1,2)]
def putM (a : Nat) (bs : List Byte) (s : State) : State := { s.writeMem a bs with now := s.now }
def sq1 (r : SqRun) (s : State) : State := s.putSq 3 r
def sR : State := sq1 { sqDefault 3 with outstanding := true, firstRead := some 4000, lastRead := 4990 } (withRegs
  [(R.sqTail 3, 4)] (putM 0x1000 wt sQ))
def st1 : State := (putM 0x1000 wt0 sR)
def st2 : State := sq1 { sqDefault 3 with firstRead := some 4000, lastRead := 4936 } sR
def st3 : State := sq1 { sqDefault 3 with firstRead := some 1800, lastRead := 4937, latched := some wt } (withRegs
  [(R.sqIndex 3, 17)] sR)
def st5 : State := sq1 { sqDefault 3 with stale := [(0x1000, 4900)] } sR
def a_6 := (0x1000, 4900)
def l_7 := ([] : List (Nat × Nat))
def sP : State := withRegs [(R.sqCfg 3, 0x80020000), (R.sqTail 3, 1)] (putM (0x1000+64) wt (putM 0x1000 wt sQ))
def st8 : State := (putM (0x1000+64) wt0 sP)
def a_10 := (0x1040 : Nat)
def mv : List Byte := entryOf 10 1 true [(4,4,77),(8,1,2)]
def badE : List Byte := entryOf 10 1 true [(4,4,77),(8,1,2),(40,1,1)]
def st11 : State := sq1 { sqDefault 3 with pushed := some mv, pubs := [(1, 55, 4000)] } (withRegs [(R.sqTail 3,
  1),(R.sqIndex 3, 0xFFFFFFFF)] sQ)
def st13 : State := sq1 { sqDefault 3 with prefetched := [(0,badE)], pubs := [(1, 55, 4000)] } (withRegs [(R.sqTail 3,
  1),(R.sqIndex 3, 0xFFFFFFFF)] sQ)
def sPa := sq1 { sqDefault 3 with outstanding := true, header := some wt, pubs := [(1,3,4)], prefetched := [(1,wt)], latched := some wt } (withRegs [(R.sqTail 3, 4), (R.sqIndex 3, 5)] sQ)
def st15 : State := withRegs [(R.sqState 3, 0xE000003F)] sPa
def refA : TaskRef := ⟨3, 4, 0⟩
def refB : TaskRef := ⟨3, 5, 0⟩
def wE : List Byte := entryOf 9 1 true [(4,4,77),(8,1,2),(10,2,0x8003),(16,2,0x8004)]
def fE : List Byte := entryOf 10 1 true [(4,4,77),(8,1,2)]
def tw : Task := { newTask refA wE 1 2 with phase := .running, seen := [3,4] }
def tf : Task := { newTask refB fE 1 2 with phase := .running }
def st17 : State := { sQ with tasks := [tw, tf] }
def st18 : State := { sQ with tasks := [{tw with seen := [3]}, tf] }
def tsk19 : Task := {tw with seen := [3]}
def st20 : State := { sQ with tasks := [{tw with phase := .journal}, tf] }
def k_21 := (0 : Fin 16)
def st22 : State := withRegs [(R.eventSet 0, 0x80000011), (R.eventSet 1,
  7)] { sQ with tasks := [{tw with seen := [3,4], phase := .queued}, tf] }
def tsk23 : Task := {tw with seen := [3,4], phase := .queued}
def n_24 := (2 : Fin 16)
def st25 : State := withRegs [(R.tmrCtl 2, 0x80000003), (R.tmrCmpLo 2,
  77)] { sQ with tasks := [{tw with seen := [], phase := .queued}, tf] }
def st26 : State := withRegs [(R.tmrCtl 2, 0xC0000003), (R.tmrCmpLo 2, 4), (R.tmrPeriod 2,
  10)] { sQ with tasks := [{tw with seen := [], phase := .queued}, tf] }
def st27 : State := withRegs [(R.tmrCtl 2, 0x80000003), (R.tmrCmpLo 2,
  78)] { sQ with tasks := [{tw with seen := [], phase := .queued}, tf] }

theorem witness_RingReads_1 :
    ((sR.sq ↑q3).stale = [] ∧ (sR.sq ↑q3).outstanding = true ∧ sR.sqWaits ↑q3 = false ∧
    sR.cycle ≤ (sR.sq ↑q3).firstRead.getD 0 + 3200 ∧ sR.sqRead ↑q3 [sR.sqHead ↑q3] (RingAnswer.data []) = Except.ok wt ∧
    entryMark wt = sR.sqPhase ↑q3) ∧
    ((st1.sq ↑q3).stale = [] ∧ (st1.sq ↑q3).outstanding = true ∧ st1.sqWaits ↑q3 = false ∧
    st1.cycle ≤ (st1.sq ↑q3).firstRead.getD 0 + 3200 ∧
    st1.sqRead ↑q3 [st1.sqHead ↑q3] (RingAnswer.data []) = Except.ok wt0 ∧ entryMark wt0 ≠ st1.sqPhase ↑q3) ∧
    ((sR.sq ↑q3).stale = [] ∧ (sR.sq ↑q3).outstanding = true ∧ sR.sqWaits ↑q3 = false ∧
    sR.cycle ≤ (sR.sq ↑q3).firstRead.getD 0 + 3200 ∧
    sR.sqRead ↑q3 [sR.sqHead ↑q3] RingAnswer.uncorrectable = Except.error (16385, 4096)) ∧
    ((st5.sq ↑q3).stale = a_6 :: l_7) := by decide +kernel

theorem witness_RingReads_2 :
    ((st2.sq ↑q3).firstRead = some 4000 ∧ (st2.sq ↑q3).outstanding = false ∧ (st2.sq ↑q3).lastRead + 64 ≤ st2.cycle ∧
    (st2.sq ↑q3).answeredAt < st2.cycle ∧ st2.cycle < 4000 + 3200) ∧
    (((sR.sq ↑q3).outstanding = true ∨ sR.cycle < (sR.sq ↑q3).lastRead + 64 ∨ sR.cycle ≤ (sR.sq ↑q3).answeredAt)) ∧
    ((st3.sq ↑q3).firstRead = some 1800 ∧ 1800 + 3200 ≤ st3.cycle) ∧
    ((sR.sq ↑q3).firstRead = some 4000 ∧ sR.cycle < 4000 + 3200) ∧
    ((sR.sqMode ↑q3 ≠ 1 ∨ sR.fld (R.sqCfg ↑q3) 16 8 ≤ (prefetchPos (sR.sqUnits ↑q3) (sR.sq ↑q3).prefetched (sR.sq
    ↑q3).prefetched.length (sR.sqTail ↑q3) + sR.sqUnits ↑q3 - sR.sqTail ↑q3) % sR.sqUnits ↑q3 ∨ sR.sqWaits ↑q3 = true)) :=
    by decide +kernel

theorem witness_RingReads_3 :
    (sP.sqMode ↑q3 = 1 ∧ (prefetchPos (sP.sqUnits ↑q3) (sP.sq ↑q3).prefetched (sP.sq ↑q3).prefetched.length (sP.sqTail
    ↑q3) + sP.sqUnits ↑q3 - sP.sqTail ↑q3) % sP.sqUnits ↑q3 < sP.fld (R.sqCfg ↑q3) 16 8 ∧ sP.sqWaits ↑q3 = false ∧
    sP.sqRead ↑q3 [prefetchPos (sP.sqUnits ↑q3) (sP.sq ↑q3).prefetched (sP.sq ↑q3).prefetched.length (sP.sqTail ↑q3)]
    RingAnswer.uncorrectable = Except.error (16385, a_10)) := by decide +kernel

theorem witness_RingReads_4 :
    (st8.sqMode ↑q3 = 1 ∧ (prefetchPos (st8.sqUnits ↑q3) (st8.sq ↑q3).prefetched (st8.sq ↑q3).prefetched.length (st8.sqTail
    ↑q3) + st8.sqUnits ↑q3 - st8.sqTail ↑q3) % st8.sqUnits ↑q3 < st8.fld (R.sqCfg ↑q3) 16 8 ∧ st8.sqWaits ↑q3 = false ∧
    st8.sqRead ↑q3 [prefetchPos (st8.sqUnits ↑q3) (st8.sq ↑q3).prefetched (st8.sq ↑q3).prefetched.length (st8.sqTail ↑q3)]
    (RingAnswer.data []) = Except.ok wt0 ∧
    entryMark wt0 ≠ st8.phaseAt (↑q3) (prefetchPos (st8.sqUnits ↑q3) (st8.sq ↑q3).prefetched (st8.sq ↑q3).prefetched.length
    (st8.sqTail ↑q3))) := by decide +kernel

theorem witness_RingReads_5 :
    (sP.sqMode ↑q3 = 1 ∧ (prefetchPos (sP.sqUnits ↑q3) (sP.sq ↑q3).prefetched (sP.sq ↑q3).prefetched.length (sP.sqTail
    ↑q3) + sP.sqUnits ↑q3 - sP.sqTail ↑q3) % sP.sqUnits ↑q3 < sP.fld (R.sqCfg ↑q3) 16 8 ∧ sP.sqWaits ↑q3 = false ∧
    sP.sqRead ↑q3 [prefetchPos (sP.sqUnits ↑q3) (sP.sq ↑q3).prefetched (sP.sq ↑q3).prefetched.length (sP.sqTail ↑q3)]
    (RingAnswer.data []) = Except.ok wt ∧
    entryMark wt = sP.phaseAt (↑q3) (prefetchPos (sP.sqUnits ↑q3) (sP.sq ↑q3).prefetched (sP.sq ↑q3).prefetched.length
    (sP.sqTail ↑q3)) ∧ sP.sqCovered ↑q3 + (prefetchPos (sP.sqUnits ↑q3) (sP.sq ↑q3).prefetched (sP.sq
    ↑q3).prefetched.length (sP.sqTail ↑q3) + sP.sqUnits ↑q3 - sP.sqTail ↑q3) % sP.sqUnits ↑q3 + entryUnits wt < sP.sqUnits
    ↑q3 ∧ sP.sqRead (↑q3) (List.map (fun i => prefetchPos (sP.sqUnits ↑q3) (sP.sq ↑q3).prefetched (sP.sq
    ↑q3).prefetched.length (sP.sqTail ↑q3) + i) (List.range (entryUnits wt))) (RingAnswer.data []) = Except.ok wt) := by
    decide +kernel

theorem witness_EntryAcceptance :
    (st11.roomFor ↑q3 = true ∧ st11.fetched ↑q3 = some (mv, 0) ∧ entryCheck st11 (↑q3) mv = none ∧
    st11.task { sq := q3, index := BitVec.toNat (st11.reg (R.sqIndex ↑q3)), life := (st11.sq ↑q3).life } = none) ∧
    (st13.roomFor ↑q3 = true ∧ st13.fetched ↑q3 = some (badE, 0) ∧
    entryCheck st13 (↑q3) badE = some 4102) := by decide +kernel

theorem witness_PauseResumeSkip :
    (sPa.takesWrite Requester.cp (R.sqCtl ↑q3) ∧ sPa.sqMode ↑q3 = 1) ∧
    (st15.takesWrite Requester.cp (R.sqCtl ↑q3) ∧ st15.sqMode ↑q3 ≠ 1) ∧
    (st15.takesWrite Requester.cp (R.sqCtl ↑q3) ∧ (st15.sqMode ↑q3 = 2 ∨ st15.sqMode ↑q3 = 3)) ∧
    (sPa.takesWrite Requester.cp (R.sqCtl ↑q3) ∧ sPa.sqMode ↑q3 ≠ 2 ∧ sPa.sqMode ↑q3 ≠ 3) ∧
    (st15.takesWrite Requester.cp (R.sqCtl ↑q3) ∧ st15.sqMode ↑q3 = 3 ∧ (st15.sq ↑q3).latched = some wt) ∧
    (sPa.takesWrite Requester.cp (R.sqCtl ↑q3) ∧ (sPa.sqMode ↑q3 ≠ 3 ∨ (sPa.sq ↑q3).latched = none)) := by decide +kernel

theorem witness_WaitAndFence :
    (st17.task refA = some tw ∧ tw.phase = Phase.running ∧ entryOpcode tw.entry = 9 ∧ (∀ e ∈ tw.awaited, e ∈ tw.seen)) ∧
    (st18.task refA = some tsk19 ∧ tsk19.phase = Phase.running ∧ entryOpcode tsk19.entry = 9 ∧ (∃ e ∈ tsk19.awaited,
    e ∉ tsk19.seen)) ∧
    (st20.task refB = some tf ∧ tf.phase = Phase.running ∧ entryOpcode tf.entry = 10 ∧ st20.earlierOpen refB = []) ∧
    (st17.task refB = some tf ∧ tf.phase = Phase.running ∧ entryOpcode tf.entry = 10 ∧
    st17.earlierOpen refB ≠ []) := by decide +kernel

theorem witness_EventFlagsSetAndClear :
    (st22.takesWrite Requester.cp (R.eventSet ↑k_21) ∧ 4 < 512) ∧
    (st22.takesWrite Requester.cp (R.eventClr ↑k_21) ∧ 4 < 512) ∧
    (abortScope st22 = st22 ∧ tsk23 ∈ st22.tasks ∧ 4 ∈ tsk23.awaited ∧ st22.flag 4 = true) := by decide +kernel

theorem witness_TimersFireAndArm_1 :
    (st25.bit (R.tmrCtl ↑n_24) 31 = true ∧ st25.reg64 (R.tmrCmpLo ↑n_24) ≤ st25.gtc ∧
    st25.now.timers.contains ↑n_24 = false ∧ st25.bit (R.tmrCtl ↑n_24) 30 = false) ∧
    (st26.bit (R.tmrCtl ↑n_24) 31 = true ∧ st26.reg64 (R.tmrCmpLo ↑n_24) ≤ st26.gtc ∧
    st26.now.timers.contains ↑n_24 = false ∧ st26.bit (R.tmrCtl ↑n_24) 30 = true ∧ st26.reg (R.tmrPeriod ↑n_24) ≠ 0 ∧
    st26.gtc + BitVec.toNat (st26.reg (R.tmrPeriod ↑n_24)) < 2 ^ 64) ∧
    ((st27.bit (R.tmrCtl ↑n_24) 31 = false ∨ st27.gtc < st27.reg64 (R.tmrCmpLo ↑n_24) ∨ st27.now.timers.contains ↑n_24 =
    true)) ∧
    (st26.takesWrite Requester.cp (R.tmrCtl ↑n_24) ∧ (¬(getField 3221225489 30 1 = 1 ∧
    (st26.reg (R.tmrPeriod ↑n_24) = 0 ∨ st26.reg (R.tmrPeriod ↑n_24) = 4294967295)))) := by decide +kernel

theorem witness_TimersFireAndArm_2 :
    (st26.takesWrite Requester.cp (R.tmrCtl ↑n_24) ∧ (¬(getField 3221225489 30 1 = 1 ∧
    (st26.reg (R.tmrPeriod ↑n_24) = 0 ∨ st26.reg (R.tmrPeriod ↑n_24) = 4294967295))) ∧ getField 3221225489 31 1 = 1) ∧
    (st27.takesWrite Requester.cp (R.tmrCtl ↑n_24) ∧ (getField 3221225489 30 1 = 1 ∧
    (st27.reg (R.tmrPeriod ↑n_24) = 0 ∨ st27.reg (R.tmrPeriod ↑n_24) = 4294967295)) ∧
    getField 3221225489 31 1 = 1) := by decide +kernel

end Queues

namespace Translation

def refA : TaskRef := ⟨3, 4, 0⟩
def refB : TaskRef := ⟨3, 5, 0⟩
def le (a l : Nat) : List Byte := leBytes 8 a ++ leBytes 8 l
def stE2 : List Byte := entryOf 2 2 true [(4,4,77),(8,1,2),(16,8,0x4000),(24,4,2),(28,4,4096)]
def tb : Task := { newTask refA stE2 1 2 with phase := .blockList }
def sb (x : Task) (l : List Byte) : State := { ({ sQ with tasks := [x] } : State).writeMem 0x4000 l with now := sQ.now }
def st1 : State := sb tb (le 0x10000 0x20000 ++ le 0x11000 0x21000)
def st2 : State := sb tb (le 0x10000 0x20004 ++ le 0x11000 0x21000)
def tp : Task := { newTask refA stE2 1 2 with phase := .waitRanges, todo := [⟨0x100000, 0x300000, true, false⟩], blocks := [(0x100000, 0x20000)] }
def sx (x : Task) (r : List (Nat × Nat)) : State := withRegs ((R.tuStatus, 0x60000000) :: (R.tuRangesFree,
  65536-1) :: r) { sQ with tasks := [x] }
def st3 : State := sx tp [(R.tuRangesFree, 255)]
def st5 : State := sx tp [(R.tuStatus, 0)]
def tt : Task := { tp with phase := .translating, reserved := 256 }
def rq0 : XlateReq := ⟨0x100000, 0x20000, false, 5000, []⟩
def st6 : State := sx tt []
def st7 : State := sx tp []
def wP : Option (BitVec 20) := sQ.taskPasid refA
def manyC : List CacheEntry := (List.range 257).map (fun i => ⟨wP, ⟨0x100000 + 0x1000 * i, 0x9000000 + 0x10000 * i, 0x1000,
  true, false, false, false⟩⟩)
def wideT : Task := { tt with todo := [⟨0x100000, 0x100000 + 0x1000 * 300, true, false⟩] }
def st8 : State := { sx tt [] with xorphans := (List.range 64).map (fun i => (⟨9, i, 0⟩, 4000)) }
def st9 : State := { sx wideT [] with xcache := manyC }
def rq : XlateReq := ⟨0x100000, 0x20000, false, 100, []⟩
def tq : Task := { tt with xreq := some rq }
def st10 : State := { sx tq [] with cycle := 320100 }
def xs_11 := [Xlation.mk 4096 0x777000 true false false]
def st14 : State := { sx tq [] with cycle := 320099 }
def tf : Task := { tt with todo := [], faults := [⟨0x100000, true, false, 0⟩, ⟨0x101000, true, false, 2⟩] }
def spr := sx tf [(R.tuGroupCfg, 512)]
def pg : PrgRun := ⟨0, refA, tf.faults⟩
def sg : State := { spr with prgs := [pg, ⟨7, refB, [⟨0x5000, true, true, 1⟩]⟩] }
def prg_18 := (0 : Fin 512)
def ms : Task := { tf with ranges := [⟨0x100000, 0x9000, 0x2000, true, false, false, false⟩, ⟨0x109000, 0x9000, 0x2000, true, false, false, false⟩], phase := .running }
def si (x : Task) : State :=
  { spr with tasks := [x], xcache := [⟨none, ⟨0x100000, 0x9000, 0x2000, true, false, false, false⟩⟩, ⟨some 3, ⟨0x100000, 0x9000, 0x2000, true, false, false, false⟩⟩] }
def st21 : State := si ms
def iv : Inval := ⟨none, false, 0x101000, 4096⟩
def rest_25 := ([] : List Inval)
def st26 : State := { si ms with invals := [iv] }
def rest_28 := (List.replicate 31 iv)
def st29 : State := { si { ms with flushing := true, hostLast := some 0x101000, flushAt := 5000 } with invals := List.replicate 32 iv }

theorem witness_BlockListsAndRangeStore_1 :
    (st1.task refA = some tb ∧ tb.phase = Phase.blockList ∧ st1.tierBWaits (streamList tb.entry) = false ∧
    st1.memVerdict (st1.ctxOf refA) Acc.read (streamList tb.entry) (16 * streamCount tb.entry) MemCond.good = none ∧
    blocksAligned (descriptors (st1.seenMem (streamList tb.entry) (16 * streamCount tb.entry)) (streamCount tb.entry)) =
    true) ∧
    (st2.task refA = some tb ∧ tb.phase = Phase.blockList ∧ st2.tierBWaits (streamList tb.entry) = false ∧
    st2.memVerdict (st2.ctxOf refA) Acc.read (streamList tb.entry) (16 * streamCount tb.entry) MemCond.good = none ∧
    blocksAligned (descriptors (st2.seenMem (streamList tb.entry) (16 * streamCount tb.entry)) (streamCount tb.entry)) =
    false) := by decide +kernel

theorem witness_BlockListsAndRangeStore_2 :
    (st2.task refA = some tb ∧ tb.phase = Phase.blockList ∧ st2.tierBWaits (streamList tb.entry) = false ∧
    st2.memVerdict (st2.ctxOf refA) Acc.read (streamList tb.entry) (16 * streamCount tb.entry) MemCond.uncorrectable = some
    16385) ∧
    (st7.task refA = some tp ∧ (tp.phase ≠ Phase.blockList ∨ st7.tierBWaits (streamList tp.entry) = true)) ∧
    (st3.task refA = some tp ∧ tp.phase = Phase.waitRanges ∧ tp.todo ≠ [] ∧ st3.firstBeforeXlate tp = true ∧
    st3.fld R.tuRangesFree 0 16 + tp.reserved < 256) ∧
    (st7.task refA = some tp ∧ tp.phase = Phase.waitRanges ∧ tp.todo ≠ [] ∧ st7.firstBeforeXlate tp = true ∧
    256 ≤ st7.fld R.tuRangesFree 0 16 + tp.reserved ∧ st7.atsOn = true) := by decide +kernel

theorem witness_BlockListsAndRangeStore_3 :
    (st5.task refA = some tp ∧ tp.phase = Phase.waitRanges ∧ tp.todo ≠ [] ∧ st5.firstBeforeXlate tp = true ∧
    256 ≤ st5.fld R.tuRangesFree 0 16 + tp.reserved ∧ st5.atsOn = false) := by decide +kernel

theorem witness_TranslationRounds_1 :
    (List.filter (fun t => decide (t.phase = Phase.translating)) st6.tasks = [tt] ∧ st6.task tt.ref = some tt ∧
    tt.xreq = none ∧ tt.todo ≠ [] ∧ st6.atsOn = true ∧
    (st6.useCache (st6.taskPasid tt.ref) st6.xcache.length tt).ranges.length ≤ 256 ∧
    (st6.useCache (st6.taskPasid tt.ref) st6.xcache.length tt).nextRequest st6.cycle = some rq0 ∧
    st6.xlateOutstanding < 64) ∧
    (List.filter (fun t => decide (t.phase = Phase.translating)) st8.tasks = [tt] ∧ st8.task tt.ref = some tt ∧
    tt.xreq = none ∧ tt.todo ≠ [] ∧ st8.atsOn = true ∧
    (st8.useCache (st8.taskPasid tt.ref) st8.xcache.length tt).ranges.length ≤ 256 ∧
    (st8.useCache (st8.taskPasid tt.ref) st8.xcache.length tt).nextRequest st8.cycle = some rq0 ∧
    64 ≤ st8.xlateOutstanding) := by decide +kernel

theorem witness_TranslationRounds_2 :
    (List.filter (fun t => decide (t.phase = Phase.translating)) st9.tasks = [wideT] ∧ st9.task wideT.ref = some wideT ∧
    wideT.xreq = none ∧ wideT.todo ≠ [] ∧ st9.atsOn = true ∧
    256 < (st9.useCache (st9.taskPasid wideT.ref) st9.xcache.length wideT).ranges.length) ∧
    ((∀ x ∈ st7.tasks, x.phase ≠ Phase.translating)) := by decide +kernel

theorem witness_TranslationAnswers :
    (st10.task refA = some tq ∧ tq.phase = Phase.translating ∧ tq.xreq = some rq ∧ 0 < rq.len ∧ rq.voids = [] ∧
    st10.invals = []) ∧
    (st10.task refA = some tq ∧ tq.phase = Phase.translating ∧ tq.xreq = some rq ∧ 0 < rq.len ∧
    max rq.at_ st10.linkUpAt + 320000 ≤ st10.cycle) ∧
    (st14.task refA = some tq ∧ tq.phase = Phase.translating ∧ tq.xreq = some rq ∧ 0 < rq.len ∧
    st14.cycle < max rq.at_ st14.linkUpAt + 320000) ∧
    (st10.task refA = some tq ∧ tq.phase = Phase.translating ∧ tq.xreq = some rq ∧ 0 < rq.len ∧ rq.voids = [] ∧
    st10.invals = [] ∧ (tq.applyXlations rq.addr xs_11).ranges.length ≤ 256 ∧
    (tq.applyXlations rq.addr xs_11).todo ≠ []) := by decide +kernel

theorem witness_PageRequests :
    (spr.task refA = some tf ∧ spr.freePrg = some 0 ∧ tf.phase = Phase.translating ∧ tf.todo = [] ∧ tf.xreq = none ∧
    spr.priOn = true ∧ spr.priStopped = false ∧ (∀ g ∈ spr.prgs, g.task ≠ refA) ∧
    0 < min (min (spr.fld R.tuGroupCfg 0 10) spr.priFree) tf.faults.length) ∧
    (List.find? (fun y => decide (y.prg = ↑prg_18)) sg.prgs = some pg ∧ sg.task pg.task = some tf ∧
    tf.phase = Phase.translating) := by decide +kernel

theorem witness_Invalidations :
    (st21.invals.length < 32) ∧
    (32 ≤ st29.invals.length) ∧
    (st26.invals = iv :: rest_25 ∧ st26.inFlight iv = false) ∧
    (st29.invals = iv :: rest_28 ∧ st29.inFlight iv = true) := by decide +kernel

end Translation

namespace DataPath

def refA : TaskRef := ⟨3, 4, 0⟩
def view (o base ext : Nat) (host : Bool) : List (Nat × Nat × Nat) :=
  [(o, 8, base), (o+8, 4, 1 + boolBit host * 65536), (o+32, 6, 1), (o+40,4, ext)]
def mv (hs hd : Bool) (n : Nat) : List Byte := entryOf 1 5 true ([(4,4,77),(8,1,2),(10,2,0),(12,2,0x8007)] ++ view 16 0x100
  n hs ++ view 144 0x2000 n hd)
def s0 : State := sQ
def t0 (e : List Byte) : Task := { newTask refA e 1 2 with eligible := true, phase := .queued }
def tk (s : State) : Task := (s.task refA).getD (newTask refA [] 0 0)
def mem0 : SMap Byte := (List.range 64).map (fun i => (0x100 + i, BitVec.ofNat 8 (i * 3 + 1)))
def sB : State := { s0 with mem := mem0, tasks := [t0 (mv false false 64)] }
def cl : Claim := ⟨some 0, none, none, none, 0⟩
def noT : List Task := []
def tsk1 : Task := tk sB
def tC : Task := { t0 (mv false false 64) with phase := .running, tDispatch := 77, engine := some 0 }
def sC : State := { withRegs [(R.engStatus 0, 0x20000000), (R.engStatus 0 + 4, 3), (R.engStatus 0 + 8, 4)] sB with tasks := [tC] }
def rd (s : State) : ReadReq := (s.nextRead (tk s)).getD ⟨.device, 0, 0, .data, 0⟩
def tsk2 : Task := tk sC
def r_3 := rd sC
def iD : Issued := { no := 0, req := ⟨.device, 0x100, 64, .data, 0⟩, alloc := 64, at_ := 5000, answered := false, bytes := [], corrected := false, refreshed := false, emitted := false, taken := false }
def tD : Task := { tC with readsIssued := 1, issueQ := [iD] }
def sD : State := { sC with tasks := [tD] }
def is0 (n : Nat) (s : State) : Issued := (tk s).issueQ.getD n ⟨0, ⟨.device, 0, 0, .data, 0⟩, 0, 0, false, [], false,
  false, false, false⟩
def tsk5 : Task := tk sD
def i_6 := is0 0 sD
def bsE : List Byte := mem0.map Prod.snd
def tE : Task := { tD with issueQ := [{ iD with answered := true, bytes := bsE }] }
def sE : State := { sD with tasks := [tE] }
def tsk8 : Task := tk sE
def tR : Task := { tE with issueQ := [{ iD with answered := true, bytes := bsE, taken := true }], consumed := mem0.map (fun p => (p.1, some p.2)) }
def sR : State := { sE with tasks := [tR] }
def wG : WriteReq := ⟨.device, mem0.map (fun p => ⟨p.1 + 0x1F00, 255, p.2⟩), none, none, 5000⟩
def tG : Task := { tR with issueQ := [], emitted := List.replicate 64 (some 0), pendingW := [wG] }
def sG : State := { sR with tasks := [tG] }
def w0 (s : State) : WriteReq := ((tk s).pendingW.head?).getD ⟨.device, [], none, none, 0⟩
def tsk9 : Task := tk sG
def w_10 := w0 sG
def l_11 := (tk sG).pendingW.tail
def st12 : State := { sG with regs := (withRegs [(R.nodeId, 5)] sG).regs }
def st13 : State := sG.putTask { tk sG with flushing := true, pendingW := [] }
def tsk14 : Task := { tk sG with flushing := true, pendingW := [] }
def mem1 : SMap Byte := mem0 ++ mem0.map (fun p => (p.1 + 0x1F00, p.2))
def sH0 : State := { sG with mem := mem1, tasks := [{ tG with pendingW := [], phase := .finished, reachAt := some 5000, bytes := 64, digest := 0xde547aa516302402 }] }
def tsk15 : Task := tk sH0
def sH : State := { sH0 with cycle := 5001 }
def tsk16 : Task := tk sH
def st17 : State := withRegs [(R.cqHead 2, 1)] sH
def st18 : State := withRegs [(R.cqCfg 2, 0xA0000000)] sH
def tI : Task := { tk sH0 with phase := .recordIssued, recordAt := 5001 }
def sI : State := { withRegs [(R.cqTail 2, 0x80000001)] sH with tasks := [tI] }
def tsk21 : Task := tk sI
def st22 : State := withRegs [(R.cqCfg 2, 0xC0000000)] sI
def c_23 := (2 : Fin 256)
def st24 : State := (withRegs [(R.cqIrq 2, 0x80050000), (R.cqIrqDelay 2, 2)] s0).putCq 2 ⟨[], 3, some 1800, none, []⟩
def st25 : State := (withRegs [(R.cqIrq 2, 0x80050000), (R.cqIrqDelay 2, 2)] s0).putCq 2 ⟨[], 3, some 1800, some refA, []⟩
def st27 : State := (withRegs [(R.cqIrq 2, 0x80050000), (R.cqIrqDelay 2, 2)] s0).putCq 2 ⟨[], 3, some 1801, some refA, []⟩
def sJ : State := { sI with cycle := 5002, tasks := [{ tI with phase := .journal, tDone := 78, journalAt := 5001 }] }
def jr (v : Nat) := withRegs [(R.jrCfg, v), (R.jrTail, 0x8000003F), (R.jrBaseLo, 0x9000)] sJ
def st28 : State := jr 0
def tsk29 : Task := tk sJ
def st31 : State := jr 0xC0000000
def st32 : State := jr 0x90000000
def sK : State := sC.putTask
  { tC with entry := mv true true 64, ranges := [⟨0, 0x100000, 0x4000, true, true, false, false⟩] }
def zK : XRange := ((tk sK).rangeOf (rd sK).addr (rd sK).len).getD ⟨0, 0, 0, true, true, false, false⟩
def tsk33 : Task := tk sK
def r_34 := rd sK
def st35 : State := sK.putTask { tk sK with ranges := [] }
def tsk36 : Task := { tk sK with ranges := [] }
def sL : State := sR.putTask
  { tR with entry := mv true true 64, consumed := (List.range 64).foldl (fun m i => sset (fun _ => none) m (dataKey true (0x100+i)) (some 3)) [], ranges := [⟨0, 0x100000, 0x4000, true, true, false, false⟩] }
def tsk37 : Task := tk sL
def allBusy : State := withRegs ((List.range 64).map (fun n => (R.engStatus n, 0x20000000 + n))) sB
def e_40 := (0 : Fin 68)
def st41 : State := withRegs [(R.nodeId, 0x10005)] sD
def bs_42 := (List.replicate 64 3 : List Byte)
def dDr : DsRun := { drain := true, barrier := false, lead := 3, tileBytes := 4096, queue := 3, ring := 0x10000, gen := 0x30000, first := 10, period := 5, use := 4, tiles := 9, bad := false, released := false, ready := [], genIssued := [], voided := [], done := [], lastMarks := [] }
def mvD : List Byte := entryOf 1 5 true ([(4,4,77),(8,1,2),(12,2,0x8007)] ++ view 16 0xF0000010000 64 false ++ view 144
  0x2000 64 false)
def tDr : Task := { newTask refA mvD 1 2 with phase := .running, drainBind := some ⟨7, 0, 1⟩ }
def sDr : State := { sQ.putStream 7 dDr with tasks := [tDr] }
def r_43 := rd sDr
def wtE : List Byte := entryOf 9 1 true [(4,4,77),(8,1,2)]
def sW : State := { s0 with tasks := [{ newTask refA wtE 1 2 with eligible := true, phase := .queued }] }
def clW : Claim := ⟨none, none, none, none, 0⟩
def tsk45 : Task := tk sW
def mvS : List Byte := entryOf 1 5 true ([(4,4,77),(8,1,2)] ++ view 16 0x1000 64 false ++ view 144 0 64 false ++
  [(272,1,0x40),(273,1,1),(275,1,15),(280,8,0x40000),(288,8,0x80000),(296,8,64)])
def sM : State := { s0 with tasks := [{ newTask refA mvS 1 2 with eligible := true, phase := .queued }] }
def tsk46 : Task := tk sM
def far1 : State := withRegs [(R.nodeId, 0x10005), (R.feCtl, 0x80000000)] sC
def tsk47 : Task := tk far1
def r_48 := rd far1
def far2 : State := withRegs [(R.nodeId, 0x10005), (R.feCtl, 0x80000000), (R.fePeerCfg 1023, 0xC0000000)] sC
def tsk49 : Task := tk far2
def r_50 := rd far2
def dFl : DsRun := { drain := false, barrier := false, lead := 0, tileBytes := 4096, queue := 3, ring := 0x10000, gen := 0x30000, first := 10, period := 5, use := 4, tiles := 9, bad := false, released := false, ready := [], genIssued := [], voided := [], done := [], lastMarks := [] }
def mvF : List Byte := entryOf 1 5 true ([(4,4,77),(8,1,2),(12,2,0x8007)] ++ view 16 0x100 64 false ++ view 144
  0xF0000010000 64 false)
def tFl : Task := { tR with entry := mvF, fillBind := some ⟨7, 3, 1⟩ }
def sFl : State := (sR.putStream 7 dFl).putTask tFl
def jOff : State := withRegs [(R.jrCfg, 0x80000000), (R.jrTail, 0x8000003F), (R.jrHead, 5), (R.jrBaseLo + 4, 0x400),
  (R.tbSiteMap, 0xFFFFFFFF)] sJ
def jSt : Status := (jOff.memVerdict 0 .write jOff.jrSlot 64 .good).getD 0
def sHh : State := (withRegs [(R.cqCfg 2, 0xC0000000), (R.cqIrq 2, 0x80000000)] sH).putCq 2 ⟨[⟨0x8000, 0x900000, 0x1000,
  true, true, false, false⟩], 0, none, none, []⟩
def hT : Nat × Bool := (0x900000, true)
def tsk51 : Task := tk sHh

theorem witness_DispatchByRank :
    (sW.now.dispatched = false ∧ sW.candidates = noT ++ tsk45 :: noT ∧ (∀ y ∈ noT, sW.grantFor y = Grant.hold) ∧
    sW.task tsk45.ref = some tsk45 ∧ sW.grantFor tsk45 = Grant.go clW ∧ isQueueTask (entryOpcode tsk45.entry) = true ∧
    tsk45.coll.announced = []) ∧
    (sB.now.dispatched = false ∧ sB.candidates = noT ++ tsk1 :: noT ∧ (∀ y ∈ noT, sB.grantFor y = Grant.hold) ∧
    sB.task tsk1.ref = some tsk1 ∧ sB.grantFor tsk1 = Grant.go cl ∧ cl.engine = some e_40) ∧
    (sM.now.dispatched = false ∧ sM.candidates = noT ++ tsk46 :: noT ∧ (∀ y ∈ noT, sM.grantFor y = Grant.hold) ∧
    sM.task tsk46.ref = some tsk46 ∧ sM.grantFor tsk46 = Grant.fail 20483) ∧
    ((allBusy.now.dispatched = true ∨ ∀ y ∈ allBusy.candidates, allBusy.grantFor y = Grant.hold)) := by decide +kernel

theorem witness_ReadsGoOut_1 :
    (sDr.task refA = some tDr ∧ tDr.phase = Phase.running ∧ sDr.nextRead tDr = some r_43 ∧ tDr.issued < 1024 ∧
    tDr.staged + r_43.alloc ≤ 524288 ∧ sDr.gated tDr r_43 = true) ∧
    (sC.task refA = some tsk2 ∧ tsk2.phase = Phase.running ∧ sC.nextRead tsk2 = some r_3 ∧ tsk2.issued < 1024 ∧
    tsk2.staged + r_3.alloc ≤ 524288 ∧ sC.gated tsk2 r_3 = false ∧ r_3.space = Space.device ∧ r_3.addr / 2 ^ 48 = sC.node) ∧
    (far1.task refA = some tsk47 ∧ tsk47.phase = Phase.running ∧ far1.nextRead tsk47 = some r_48 ∧ tsk47.issued < 1024 ∧
    tsk47.staged + r_48.alloc ≤ 524288 ∧ far1.gated tsk47 r_48 = false ∧ r_48.space = Space.device ∧
    r_48.addr / 2 ^ 48 ≠ far1.node ∧ far1.deadNode (r_48.addr / 2 ^ 48) = false) := by decide +kernel

theorem witness_ReadsGoOut_2 :
    (sK.task refA = some tsk33 ∧ tsk33.phase = Phase.running ∧ sK.nextRead tsk33 = some r_34 ∧ tsk33.issued < 1024 ∧
    tsk33.staged + r_34.alloc ≤ 524288 ∧ sK.gated tsk33 r_34 = false ∧ r_34.space = Space.host ∧
    tsk33.rangeOf r_34.addr r_34.len = some zK) ∧
    (st35.task refA = some tsk36 ∧ tsk36.phase = Phase.running ∧ st35.nextRead tsk36 = some r_34 ∧ tsk36.issued < 1024 ∧
    tsk36.staged + r_34.alloc ≤ 524288 ∧ st35.gated tsk36 r_34 = false ∧ r_34.space = Space.host ∧
    tsk36.rangeOf r_34.addr r_34.len = none) ∧
    (far2.task refA = some tsk49 ∧ tsk49.phase = Phase.running ∧ far2.nextRead tsk49 = some r_50 ∧ tsk49.issued < 1024 ∧
    tsk49.staged + r_50.alloc ≤ 524288 ∧ far2.gated tsk49 r_50 = false ∧ r_50.space = Space.device ∧
    r_50.addr / 2 ^ 48 ≠ far2.node ∧ far2.deadNode (r_50.addr / 2 ^ 48) = true) := by decide +kernel

theorem witness_ReadsAreAnswered_1 :
    (sD.task refA = some tsk5 ∧ tsk5.phase = Phase.running ∧
    List.find? (fun j => decide (j.no = i_6.no) && !j.answered) tsk5.issueQ = some i_6 ∧ i_6.taken = false ∧
    (decide (i_6.req.space = Space.device) && sD.localWaits i_6.req.addr) = false ∧ sD.lineHeld tsk5 i_6 = false ∧
    (i_6.req.space = Space.device ∧ i_6.req.addr / 2 ^ 48 = sD.node) ∧
    sD.memVerdict (sD.ctxOf refA) Acc.read (i_6.req.addr % 2 ^ 48) i_6.req.len MemCond.good = none ∧
    (tsk5.answer i_6.no (sD.seenMem (i_6.req.addr % 2 ^ 48) i_6.req.len)).indexFaults = false) := by decide +kernel

theorem witness_ReadsAreAnswered_2 :
    (st41.task refA = some tsk5 ∧ tsk5.phase = Phase.running ∧
    List.find? (fun j => decide (j.no = i_6.no) && !j.answered) tsk5.issueQ = some i_6 ∧ i_6.taken = false ∧
    (decide (i_6.req.space = Space.device) && st41.localWaits i_6.req.addr) = false ∧ st41.lineHeld tsk5 i_6 = false ∧
    (¬(i_6.req.space = Space.device ∧ i_6.req.addr / 2 ^ 48 = st41.node)) ∧
    (tsk5.answer i_6.no bs_42).indexFaults = false) := by decide +kernel

theorem witness_OutputsAreWritten_1 :
    (sR.task refA = some tR ∧ tR.phase = Phase.running ∧ isQueueTask (entryOpcode tR.entry) = false ∧ (∀ i < 1024,
    sR.fld (R.fePeerCfg i) 29 2 ≠ 2) ∧ sR.readyOutputs tR (tR.finalTensor sR.node) ≠ [] ∧ entryDestHost tR.entry = false) ∧
    (sL.task refA = some tsk37 ∧ tsk37.phase = Phase.running ∧ isQueueTask (entryOpcode tsk37.entry) = false ∧ (∀ i < 1024,
    sL.fld (R.fePeerCfg i) 29 2 ≠ 2) ∧ sL.readyOutputs tsk37 (tsk37.finalTensor sL.node) ≠ [] ∧
    entryDestHost tsk37.entry = true) ∧
    (sFl.task refA = some tFl ∧ tFl.phase = Phase.running ∧ isQueueTask (entryOpcode tFl.entry) = false ∧ (∀ i < 1024,
    sFl.fld (R.fePeerCfg i) 29 2 ≠ 2) ∧ sFl.readyOutputs tFl (tFl.finalTensor sFl.node) = [] ∧
    sFl.withheld tFl = true) := by decide +kernel

theorem witness_OutputsAreWritten_2 :
    (sE.task refA = some tsk8 ∧ tsk8.phase = Phase.running ∧ isQueueTask (entryOpcode tsk8.entry) = false ∧ (∀ i < 1024,
    sE.fld (R.fePeerCfg i) 29 2 ≠ 2) ∧ sE.readyOutputs tsk8 (tsk8.finalTensor sE.node) = [] ∧ sE.withheld tsk8 = false ∧
    entryDestHost tsk8.entry = false) ∧
    (sE.task refA = some tsk8 ∧ tsk8.phase = Phase.running ∧
    isQueueTask (entryOpcode tsk8.entry) = false) := by decide +kernel

theorem witness_WritesAreAcknowledged :
    (sG.task refA = some tsk9 ∧ tsk9.phase = Phase.running ∧ tsk9.pendingW = w_10 :: l_11 ∧
    sG.localWaits w_10.span.1 = false ∧ w_10.span.1 / 2 ^ 48 = sG.node ∧
    sG.writeVerdict tsk9 w_10 WriteAnswer.accepted = none) ∧
    (sG.task refA = some tsk9 ∧ tsk9.phase = Phase.running ∧ tsk9.pendingW = w_10 :: l_11 ∧
    sG.localWaits w_10.span.1 = false ∧ w_10.span.1 / 2 ^ 48 = sG.node ∧
    sG.writeVerdict tsk9 w_10 (WriteAnswer.error 12289) = some 12289) ∧
    (st12.task refA = some tsk9 ∧ tsk9.phase = Phase.running ∧ tsk9.pendingW = w_10 :: l_11 ∧
    st12.localWaits w_10.span.1 = false ∧ w_10.span.1 / 2 ^ 48 ≠ st12.node) ∧
    (st13.task refA = some tsk14 ∧ tsk14.phase = Phase.running ∧ tsk14.flushing = true) := by decide +kernel

theorem witness_CompletionRecords_1 :
    (sH0.task refA = some tsk15 ∧ tsk15.phase = Phase.finished ∧ sH0.reached tsk15 = false) ∧
    (st17.task refA = some tsk16 ∧ tsk16.phase = Phase.finished ∧ st17.cqStopped (entryRing tsk16.entry) = false ∧
    (st17.cqFull (entryRing tsk16.entry) = true ∨ st17.nextOfRing tsk16 = false)) ∧
    (sHh.task refA = some tsk51 ∧ tsk51.phase = Phase.finished ∧ sHh.reached tsk51 = true ∧
    sHh.cqStopped (entryRing tsk51.entry) = false ∧ sHh.cqFull (entryRing tsk51.entry) = false ∧
    sHh.nextOfRing tsk51 = true ∧ (sHh.bit (R.cqIrq (entryRing tsk51.entry)) 31 && (entryIrqNow tsk51.entry || decide
    (sHh.fld (R.cqIrq (entryRing tsk51.entry)) 8 8 + 1 ≤ (sHh.cq (entryRing tsk51.entry)).written + 1))) = true) := by
    decide +kernel

theorem witness_CompletionRecords_2 :
    (sH.task refA = some tsk16 ∧ tsk16.phase = Phase.finished ∧ sH.reached tsk16 = true ∧
    sH.cqStopped (entryRing tsk16.entry) = false ∧ sH.cqFull (entryRing tsk16.entry) = false ∧ sH.nextOfRing tsk16 = true ∧
    (sH.bit (R.cqIrq (entryRing tsk16.entry)) 31 && (entryIrqNow tsk16.entry || decide (sH.fld (R.cqIrq (entryRing
    tsk16.entry)) 8 8 + 1 ≤ (sH.cq (entryRing tsk16.entry)).written + 1))) = false) ∧
    (sH.task refA = some tsk16 ∧ tsk16.phase = Phase.finished ∧ sH.reached tsk16 = true ∧
    sH.cqStopped (entryRing tsk16.entry) = false ∧ sH.cqFull (entryRing tsk16.entry) = false ∧ sH.nextOfRing tsk16 = true ∧
    sH.cqHost (entryRing tsk16.entry) = false) := by decide +kernel

theorem witness_CompletionRecords_3 :
    (sHh.task refA = some tsk51 ∧ tsk51.phase = Phase.finished ∧ sHh.reached tsk51 = true ∧
    sHh.cqStopped (entryRing tsk51.entry) = false ∧ sHh.cqFull (entryRing tsk51.entry) = false ∧
    sHh.nextOfRing tsk51 = true ∧ sHh.cqHost (entryRing tsk51.entry) = true ∧
    hostTarget (sHh.cq (entryRing tsk51.entry)).ranges (sHh.cqSlot (entryRing tsk51.entry) (sHh.cqTail (entryRing
    tsk51.entry))) = some hT) ∧
    (st18.task refA = some tsk16 ∧ tsk16.phase = Phase.finished ∧ st18.reached tsk16 = true ∧
    st18.cqStopped (entryRing tsk16.entry) = true) := by decide +kernel

theorem witness_CompletionRecords_4 :
    (st22.task refA = some tsk21 ∧ tsk21.phase = Phase.recordIssued ∧
    (st22.cqHost (entryRing tsk21.entry) = true ∨ st22.tierBWaits (st22.cqSlot (entryRing tsk21.entry) tsk21.recordPos) =
    false) ∧ st22.recordVerdict (entryRing tsk21.entry) (st22.cqSlot (entryRing tsk21.entry) tsk21.recordPos)
    RecordAnswer.acknowledged = none ∧ st22.cqHost (entryRing tsk21.entry) = true) ∧
    (sI.task refA = some tsk21 ∧ tsk21.phase = Phase.recordIssued ∧
    (sI.cqHost (entryRing tsk21.entry) = true ∨ sI.tierBWaits (sI.cqSlot (entryRing tsk21.entry) tsk21.recordPos) = false)
    ∧ sI.recordVerdict (entryRing tsk21.entry) (sI.cqSlot (entryRing tsk21.entry) tsk21.recordPos)
    RecordAnswer.acknowledged = none ∧ sI.cqHost (entryRing tsk21.entry) = false) := by decide +kernel

theorem witness_CompletionRecords_5 :
    (sI.task refA = some tsk21 ∧ tsk21.phase = Phase.recordIssued ∧
    (sI.cqHost (entryRing tsk21.entry) = true ∨ sI.tierBWaits (sI.cqSlot (entryRing tsk21.entry) tsk21.recordPos) = false)
    ∧ sI.recordVerdict (entryRing tsk21.entry) (sI.cqSlot (entryRing tsk21.entry) tsk21.recordPos)
    RecordAnswer.uncorrectable = some 16385 ∧ sI.cqStopped (entryRing tsk21.entry) = false) ∧
    ((st24.cq ↑c_23).firstAt = some 1800 ∧ st24.bit (R.cqIrq ↑c_23) 31 = true ∧
    1800 + 1600 * st24.fld (R.cqIrqDelay ↑c_23) 0 10 ≤ st24.cycle ∧ (st24.cq ↑c_23).first = none) ∧
    ((st25.cq ↑c_23).firstAt = some 1800 ∧ st25.bit (R.cqIrq ↑c_23) 31 = true ∧
    1800 + 1600 * st25.fld (R.cqIrqDelay ↑c_23) 0 10 ≤ st25.cycle ∧ (st25.cq ↑c_23).first = some refA) := by decide +kernel

theorem witness_CompletionRecords_6 :
    ((st27.cq ↑c_23).firstAt = some 1801 ∧ st27.bit (R.cqIrq ↑c_23) 31 = true ∧
    st27.cycle < 1801 + 1600 * st27.fld (R.cqIrqDelay ↑c_23) 0 10) := by decide +kernel

theorem witness_Journal_1 :
    (st28.task refA = some tsk29 ∧ tsk29.phase = Phase.journal ∧ st28.jrEn = false) ∧
    (st32.task refA = some tsk29 ∧ tsk29.phase = Phase.journal ∧ st32.jrEn = true ∧ st32.jrStopped = true) ∧
    (st31.task refA = some tsk29 ∧ tsk29.phase = Phase.journal ∧ (st31.jrEn = true ∧ st31.jrStopped = false ∧
    (st31.jrFull = false ∨ st31.bit R.jrCfg 30 = true) ∧ st31.tierBWaits st31.jrSlot = false ∧
    st31.nextOfJournal tsk29 = true) ∧ st31.memVerdict 0 Acc.write st31.jrSlot 64 (writeCond st31.jrSlot 64
    MemCond.uncorrectable) = none) := by decide +kernel

theorem witness_Journal_2 :
    (jOff.task refA = some tsk29 ∧ tsk29.phase = Phase.journal ∧ (jOff.jrEn = true ∧ jOff.jrStopped = false ∧
    (jOff.jrFull = false ∨ jOff.bit R.jrCfg 30 = true) ∧ jOff.tierBWaits jOff.jrSlot = false ∧
    jOff.nextOfJournal tsk29 = true) ∧ jOff.memVerdict 0 Acc.write jOff.jrSlot 64 (writeCond jOff.jrSlot 64 MemCond.good) =
    some jSt) ∧
    (st28.takesWrite Requester.cp R.jrCfg ∧ st28.jrEn = false ∧ getField 2147483651 31 1 = 1 ∧
    getField 2147483651 0 4 ≤ 14 ∧ inTier (st28.reg64 R.jrBaseLo) (64 * 2 ^ (getField 2147483651 0 4 + 6)) = true) ∧
    (st28.takesWrite Requester.cp R.jrCfg ∧ st28.jrEn = false ∧ getField 3221225487 31 1 = 1 ∧
    (14 < getField 3221225487 0 4 ∨ inTier (st28.reg64 R.jrBaseLo) (64 * 2 ^ (getField 3221225487 0 4 + 6)) = false)) := by
    decide +kernel

theorem witness_Journal_3 :
    (jOff.takesWrite Requester.cp R.jrCfg ∧ jOff.jrEn = true ∧ getField 3 31 1 = 0 ∧
    jOff.jrFull = false) := by decide +kernel

end DataPath

namespace Codec

def refA : TaskRef := ⟨3, 4, 0⟩
def view (o base ext : Nat) : List (Nat × Nat × Nat) := [(o, 8, base), (o+8, 4, 1), (o+32, 6, 1), (o+40,4, ext)]
def blk (t : Nat) : List (Nat × Nat × Nat) := [(272,1,t),(273,1,1),(275,1,if t = 1 then 0 else
  15),(280,8,0x40000),(288,8,0x80000),(296,8,64)]
def mvC : List Byte := entryOf 1 5 true ([(4,4,77),(8,1,2)] ++ view 16 0x1000 64 ++ view 144 0 64 ++ blk 0x40)
def mvX : List Byte := entryOf 1 5 true ([(4,4,77),(8,1,2)] ++ view 16 0 64 ++ view 144 0x6000 64 ++ blk 0x01)
def slotted : State := { withRegs [(R.cxSlot 0, 0x40000005)] sQ with tables := [(0, List.replicate 256 8)] }
def xp : CodecParams := (entryExpand mvX).getD ⟨0,0,0,0,0,0,0⟩
def c0 : CodecParams := (entryCompress mvC).getD ⟨0,0,0,0,0,0,0⟩
def hdr (enc gen slen : Nat) : List Byte := let h := bytesOf 16 [(0, 1, enc), (2, 2, gen), (4, 2, 7), (6, 2,
  slen)]; patchBytes h 12 (leBytes 4 (crc32c (h.take 12)).toNat)
def iss (h : List Byte) : Issued := ⟨0, ⟨.device, 0x40000, 64, .ingotHeader 0, 0⟩, 4096, 0, true, h ++ List.replicate 48 0,
  false, false, false, false⟩
def tX (h : List Byte) : Task := { newTask refA mvX 1 2 with phase := .running, readsIssued := 1, issueQ := [iss h] }
def sX (h : List Byte) : State := { slotted with tasks := [tX h] }
def noIss : List Issued := []
def zeros64 : List Byte := List.replicate 64 0
def st1 : State := sX (hdr 1 5 0)
def tsk2 : Task := tX (hdr 1 5 0)
def i_3 := iss (hdr 1 5 0)
def st4 : State := sX (hdr 0 5 8)
def tsk5 : Task := tX (hdr 0 5 8)
def i_6 := iss (hdr 0 5 8)
def st7 : State := sX (hdr 1 6 0)
def tsk8 : Task := tX (hdr 1 6 0)
def i_9 := iss (hdr 1 6 0)
def tI : Task := { newTask refA mvC 1 2 with phase := .running, image := (List.range 64).map (fun i => (i, some (BitVec.ofNat 8 (i * i)))) }
def sI : State := { slotted with tasks := [tI] }
def ib : List Byte := (List.range 64).map (fun i => BitVec.ofNat 8 (i * i))

theorem witness_IngotsExpandAndBuild_1 :
    (st7.task refA = some tsk8 ∧ tsk8.phase = Phase.running ∧ entryExpand tsk8.entry = some xp ∧
    tsk8.issueQ = i_9 :: noIss ∧ i_9.req.kind = ReadKind.ingotHeader tsk8.hdrs.length ∧ i_9.answered = true ∧
    headerCheck (headerOf xp (tsk8.touchIngot st7.node tsk8.hdrs.length) i_9.bytes) (xp.ulen (tsk8.touchIngot st7.node
    tsk8.hdrs.length)) xp.slot (st7.slotGen xp.slot) = some 20483) := by decide +kernel

theorem witness_IngotsExpandAndBuild_2 :
    (st4.task refA = some tsk5 ∧ tsk5.phase = Phase.running ∧ entryExpand tsk5.entry = some xp ∧
    tsk5.issueQ = i_6 :: noIss ∧ i_6.req.kind = ReadKind.ingotHeader tsk5.hdrs.length ∧ i_6.answered = true ∧
    headerCheck (headerOf xp (tsk5.touchIngot st4.node tsk5.hdrs.length) i_6.bytes) (xp.ulen (tsk5.touchIngot st4.node
    tsk5.hdrs.length)) xp.slot (st4.slotGen xp.slot) = none ∧
    payloadBytes (headerOf xp (tsk5.touchIngot st4.node tsk5.hdrs.length) i_6.bytes) ≠ 0) := by decide +kernel

theorem witness_IngotsExpandAndBuild_3 :
    (st1.task refA = some tsk2 ∧ tsk2.phase = Phase.running ∧ entryExpand tsk2.entry = some xp ∧
    tsk2.issueQ = i_3 :: noIss ∧ i_3.req.kind = ReadKind.ingotHeader tsk2.hdrs.length ∧ i_3.answered = true ∧
    headerCheck (headerOf xp (tsk2.touchIngot st1.node tsk2.hdrs.length) i_3.bytes) (xp.ulen (tsk2.touchIngot st1.node
    tsk2.hdrs.length)) xp.slot (st1.slotGen xp.slot) = none ∧
    payloadBytes (headerOf xp (tsk2.touchIngot st1.node tsk2.hdrs.length) i_3.bytes) = 0 ∧
    expandPayload (headerOf xp (tsk2.touchIngot st1.node tsk2.hdrs.length) i_3.bytes) (st1.slotLens xp.slot) (xp.ulen
    (tsk2.touchIngot st1.node tsk2.hdrs.length)) [] = Except.ok zeros64) := by decide +kernel

theorem witness_IngotsExpandAndBuild_4 :
    (sI.task refA = some tI ∧ tI.phase = Phase.running ∧ entryCompress tI.entry = some c0 ∧ tI.ingotsBuilt = false ∧
    (∀ i < 1024, sI.fld (R.fePeerCfg i) 29 2 ≠ 2) ∧
    tI.imageBlock c0 (tI.ingotSpan.1 + tI.ingotsDone) = some ib) := by decide +kernel

end Codec

namespace Streams

def refA : TaskRef := ⟨3, 4, 0⟩
def refB : TaskRef := ⟨3, 5, 0⟩
def nx (c : Instr) (s : State) : State := match exec c s with | .next t => t | _ => s
def d0 : DsRun := { drain := false, barrier := false, lead := 3, tileBytes := 4096, queue := 3, ring := 0x10000, gen := 0x30000, first := 10, period := 5, use := 4, tiles := 9, bad := false, released := false, ready := [], genIssued := [], voided := [], done := [], lastMarks := [] }
def sS (d : DsRun) (r : List (Nat × Nat)) : State :=
  { (withRegs r sQ).putStream 7 d with boundaryFresh := true, barriers := [15], deferred := [⟨7, 0, 3⟩, ⟨7, 1, 3⟩] }
def n_2 := (7 : Fin 256)
def st8 : State := { sS d0 [(R.strHold, 0x81000007), (R.strHoldLimit, 3), (R.mcCtl, 0x80000004)] with holdLen := 3 }
def st9 : State := { sS d0 [(R.strHold, 0x81000007), (R.strHoldLimit, 3), (R.mcCtl, 0x80000004)] with holdLen := 3, holdReported := true }
def st10 : State := { sS d0 [(R.strRun, 0x80000000), (R.strScLo, 15)] with stepEnding := true, halfCycle := true }
def st11 : State := { sS d0 [(R.strRun, 0x80000000), (R.strScLo, 15), (R.strHold, 0x81000007)] with stepEnding := true, halfCycle := true }
def st13 : State := { sS d0 [(R.strHold, 0x81000007), (R.strHoldLimit, 3), (R.mcCtl, 0x80000004), (R.strHoldLong, 0x80000003)] with holdLen := 3 }
def dR : DsRun := {d0 with ready := [5,2,0], genIssued := [0], voided := [2]}
def st14 : State := sS dR [(R.dsState 7, 0x40000000), (R.crdVal 7, 5)]
def v_15 := (1:Word)
def n_16 := (7 : Fin 64)
def st17 : State := sS d0 [(R.dsState 7, 0x40000000), (R.crdVal 7, 5)]
def cE : List Byte := entryOf 11 1 true [(4,4,77),(8,1,2)]
def tc : Task := { newTask refA cE 1 2 with phase := .running }
def sc (l : List (Nat × Nat)) (x : Task) : State :=
  { (withRegs ([(R.dsCfg 9, 0x80000003), (R.strStep, 0xFFFFFFFF), (R.epochStaged, 7), (R.rdArrivalCfg, 3), (R.strSessionCfg, 4)] ++ l) sQ) with tasks := [tc, x] }
def other : Task := { newTask refB cE 0 2 with phase := .journal }
def st18 : State := sc [] other
def st20 : State := nx .stepBoundaryApply (sc [] other)
def pE : Packet := ⟨[], 9⟩
def st22 : State := { sc [] other with halfCycle := true }
def st23 : State := nx .stepBoundaryApply { sc [] other with mq := { MqRun.empty with epoch := some pE } }
def st24 : State := { sc [] other with linkDown := true, linkDownCycles := 16001, entering := some .off }
def st28 : State := sS dR [(R.crdVal 7, 5)]

theorem witness_StrobesAndHold_1 :
    (st8.boundaryFresh = true ∧ st8.running = false) ∧
    ((st10.boundaryFresh = false ∨ st10.running = true)) ∧
    (st10.running = true) ∧
    (st8.running = false) ∧
    (st10.running = true ∧ st10.stepEnding = true ∧ st10.held = false) ∧
    (st11.running = true ∧ st11.stepEnding = true ∧ st11.held = true) ∧
    (st10.stream ↑n_2 = some d0 ∧ st10.running = true ∧ d0.dueTile st10.sc = some 1 ∧ d0.slotReady 1 = false ∧
    st10.held = false) ∧
    (st11.stream ↑n_2 = some d0 ∧ st11.running = true ∧ d0.dueTile st11.sc = some 1 ∧ d0.slotReady 1 = false ∧
    st11.held = true) ∧
    (st10.running = true ∧ st10.barriers.contains st10.sc = true ∧ st10.held = false) ∧
    (st11.running = true ∧ st11.barriers.contains st11.sc = true ∧ st11.held = true) := by decide +kernel

theorem witness_StrobesAndHold_2 :
    (st8.held = true ∧ 0 < BitVec.toNat (st8.reg R.strHoldLimit) ∧ BitVec.toNat (st8.reg R.strHoldLimit) ≤ st8.holdLen ∧
    st8.holdReported = false ∧ st8.bit R.strHoldLong 31 = false) ∧
    (st13.held = true ∧ 0 < BitVec.toNat (st13.reg R.strHoldLimit) ∧
    BitVec.toNat (st13.reg R.strHoldLimit) ≤ st13.holdLen ∧ st13.holdReported = false ∧ st13.bit R.strHoldLong 31 = true) ∧
    (st9.held = true ∧ 0 < BitVec.toNat (st9.reg R.strHoldLimit) ∧ BitVec.toNat (st9.reg R.strHoldLimit) ≤ st9.holdLen ∧
    st9.holdReported = true) := by decide +kernel

theorem witness_StreamsMoveOn_1 :
    (st14.takesWrite Requester.cp R.strHoldCtl ∧ getField v_15 0 1 = 1 ∧ st14.streamFailed ↑n_2 = true ∧
    st14.stream ↑n_2 = some dR) ∧
    (st28.takesWrite Requester.cp R.strHoldCtl ∧ getField v_15 0 1 = 1 ∧ st28.streamFailed ↑n_2 = false) ∧
    (st14.takesWrite Requester.cp R.strHoldCtl ∧ getField 4294967290 0 1 = 0) ∧
    (st14.takesWrite Requester.cp (R.crdAdd ↑n_16) ∧
    BitVec.toNat (st14.reg (R.crdVal ↑n_16)) + (4294967290 : Word).toNat < 2 ^ 32) ∧
    (st14.takesWrite Requester.cp (R.crdAdd ↑n_16) ∧
    2 ^ 32 ≤ BitVec.toNat (st14.reg (R.crdVal ↑n_16)) + (4294967291 : Word).toNat) ∧
    (st14.takesWrite Requester.cp (R.crdVal ↑n_16)) ∧
    (st14.stream ↑n_2 = some dR ∧ dR.nextGen = some 5) ∧
    (st17.stream ↑n_2 = some d0 ∧ d0.nextGen = none) ∧
    (st14.stream ↑n_2 = some dR ∧ List.find? (fun i => !dR.done.contains i) dR.genIssued = some 0) := by decide +kernel

theorem witness_StreamsMoveOn_2 :
    (st17.stream ↑n_2 = some d0 ∧ List.find? (fun i => !d0.done.contains i) d0.genIssued = none) := by decide +kernel

theorem witness_StepBoundary :
    (st18.runningClose = some tc ∧ st18.boundaryDue tc = true ∧ st18.halfCycle = false) ∧
    (st22.runningClose = some tc ∧ st22.boundaryDue tc = true ∧ st22.halfCycle = true) ∧
    (st23.runningClose = some tc ∧ st23.boundaryDue tc = false) ∧
    (st20.runningClose = some tc ∧ st20.closing = some (tc.ref, true) ∧ st20.mq.epoch = none) ∧
    (st23.runningClose = some tc ∧ st23.closing = some (tc.ref, true) ∧ st23.mq.epoch = some pE ∧
    st23.reg R.epochStaged = st23.reg (R.epochApplied 0)) ∧
    (st18.closing = none) := by decide +kernel

theorem witness_StepNumber :
    ((Instr.linkLossTimeout = Instr.powerOn ∨ Instr.linkLossTimeout = Instr.powerRemoved ∨ Instr.linkLossTimeout =
    Instr.powerEntryComplete ∧ st24.entering = some PState.off ∧ st24.linesDone = true ∧
    st24.powerAt + entryCycles PState.off ≤ st24.cycle ∨ st24.powered = true ∧ st24.power ≠ PState.off ∧
    (Instr.linkLossTimeout = Instr.hotReset ∨ Instr.linkLossTimeout = Instr.functionLevelReset ∨ Instr.linkLossTimeout =
    Instr.perstAssert ∨ Instr.linkLossTimeout = Instr.linkLossTimeout ∧ st24.linkDown = true ∧
    16000 < st24.linkDownCycles ∧ st24.linkDownCycles < lossTaken))) ∧
    (st24.runningClose = some tc ∧ st24.boundaryDue tc = true) := by decide +kernel

end Streams

namespace Collectives

def refA : TaskRef := ⟨3, 4, 0⟩
def view (o base ext : Nat) (host : Bool) : List (Nat × Nat × Nat) :=
  [(o, 8, base), (o+8, 4, 1 + boolBit host * 65536), (o+32, 6, 1), (o+40,4, ext)]
def cE (kind root us : Nat) (n2 : Nat) : List Byte := entryOf 5 5 true ([(4,4,77),(8,1,2),(12,2,0x8007)] ++ view 16 0x1000
  64 false ++ view 144 0x2000 n2 false ++
  [(272,1,kind),(273,1,0),(274,1,if kind = 0 ∨ kind = 3 then 0 else
  1),(275,1,1),(276,2,root),(278,2,0x55),(280,2,us),(282,1,12),(284,1,1),(285,1,1),(286,2,0),(288,2,2),(290,2,1)])
def on (s : State) : State := withRegs [(R.feCtl, 0x80000000)] s
def nx (c : Instr) (s : State) : State := match exec c s with | .next t => t | _ => s
def tk (s : State) : Task := (s.task refA).getD (newTask refA [] 0 0)
def coll0 (g : List (Nat × Nat × Nat)) (c : Option Nat) : CollRun :=
  { (newTask refA [] 0 0).coll with granted := g, readyAt := c }
def tB (e : List Byte) (g : List (Nat × Nat × Nat)) (r : Option Nat) : Task :=
  { newTask refA e 1 2 with phase := .running, tDispatch := 77, eligible := true, engine := some 0, readsIssued := 1, consumed := (List.range 64).map (fun i => (4096 + i, some 0)), emitted := List.replicate 64 (some 0), coll := coll0 g r }
def sB (e : List Byte) : State :=
  { withRegs [(R.nodeId, 0x10000)] sQ with tasks := [tB e (if e.getD 272 0 = 0 then [(1, 0, 0)] else []) (if e.getD 272 0 = 0 then none else some 5000)] }
def x := tk (sB (cE 0 0 0 128))
def ann0 : Announcement := x.announcement 0
def annB : Announcement := { x.announcement 0 with seqNo := 9 }
def st1 : State := on (sB (cE 0 0 0 128))
def sC (e : List Byte) := nx (.collectiveCreditGrant refA 1 0 ⟨0, x.announcement 0⟩) (sB e)
def st2 : State := on (sC (cE 0 0 0 128))
def tsk3 : Task := tk (sC (cE 0 0 0 128))
def noN : List Nat := []
def bs_4 := ((tk (sC (cE 0 0 0 128))).pieceBytes 0 0 1 0).getD []
def sPW : State := (sC (cE 0 0 0 128)).putPort 5
  { fifo := [⟨1, 0, (x.group 0).getD 1 0, 0x55, 0, [], 3, none, false, 0, none⟩], waited := 0 }
def st8 : State := on sPW
def tsk9 : Task := tk sPW
def P : Piece := ⟨1, 0, 0, x.announcement 0, (List.range 64).map (fun i => BitVec.ofNat 8 (i+100))⟩
def bs_10 := fitBytes 64 P.bytes
def p_11 := {P with ann := {P.ann with seqNo := 9}}
def p_12 := {P with index := 5}
def ctag_13 := (0x55 : BitVec 16)
def sD := { sB (cE 3 0 2 64) with cycle := 9000 }
def st16 : State := on sD
def tsk17 : Task := tk sD

theorem witness_CollectiveExchange_1 :
    (st1.task refA = some x ∧ openCollective x = true ∧ x.coll.credits.contains (1, 0, 0) = false ∧
    (x.phase = Phase.running → ann0 = x.announcement st1.node)) ∧
    (st1.task refA = some x ∧ openCollective x = true ∧ x.phase = Phase.running ∧ annB ≠ x.announcement st1.node) ∧
    (st2.task refA = some tsk3 ∧ openCollective tsk3 = true ∧ tsk3.coll.credits.contains (1, 0, 0) = true ∧
    (tsk3.phase = Phase.running → ann0 = tsk3.announcement st2.node)) := by decide +kernel

theorem witness_CollectiveExchange_2 :
    (st2.task refA = some tsk3 ∧ tsk3.phase = Phase.running ∧ openCollective tsk3 = true ∧
    (if tsk3.isRoot st2.node = true then tsk3.peersOf st2.node else List.filter (fun p => decide (p = 1)) (tsk3.peersOf
    st2.node)) = 1 :: noN ∧ tsk3.nextPiece st2.node 1 = some (1, 0, 0) ∧ (∀ p ∈ 1 :: noN, (p, 0, 0) ∈ tsk3.coll.credits) ∧
    tsk3.pieceBytes st2.node 0 1 0 = some bs_4 ∧ (∀ p ∈ 1 :: noN,
    st2.pairWaiting ((tsk3.group st2.node).getD p 0) (collCtl tsk3.entry).ctag = []) ∧ (∀ u ∈ st2.tasks,
    u.ref ≠ refA → ∀ w ∈ u.coll.awaiting, w.tag ≠ (collCtl tsk3.entry).ctag) ∧
    st2.bit R.feCtl 31 = true) := by decide +kernel

theorem witness_CollectiveExchange_3 :
    (st8.task refA = some tsk9 ∧ tsk9.phase = Phase.running ∧ openCollective tsk9 = true ∧
    (if tsk9.isRoot st8.node = true then tsk9.peersOf st8.node else List.filter (fun p => decide (p = 1)) (tsk9.peersOf
    st8.node)) = 1 :: noN ∧ tsk9.nextPiece st8.node 1 = some (1, 0, 0) ∧ (∀ p ∈ 1 :: noN, (p, 0, 0) ∈ tsk9.coll.credits) ∧
    tsk9.pieceBytes st8.node 0 1 0 = some bs_4 ∧ (∃ p ∈ 1 :: noN,
    st8.pairWaiting ((tsk9.group st8.node).getD p 0) (collCtl tsk9.entry).ctag ≠ [])) := by decide +kernel

theorem witness_CollectiveExchange_4 :
    (st1.task refA = some x ∧ x.phase = Phase.running ∧ openCollective x = true ∧ P.ann = x.announcement st1.node ∧
    (P.rank, P.stage, P.index) ∈ x.coll.granted ∧ (P.rank, P.stage, P.index) ∉ x.coll.received ∧
    (st1.pieceContent x P (min (2 ^ (collCtl x.entry).chunkLog2) ((x.recvStream st1.node P.stage P.rank).bytes - P.index *
    2 ^ (collCtl x.entry).chunkLog2))).toOption = some bs_10) ∧
    (st1.task refA = some x ∧ x.phase = Phase.running ∧ openCollective x = true ∧ p_12.ann = x.announcement st1.node ∧
    ((p_12.rank, p_12.stage, p_12.index) ∉ x.coll.granted ∨ (p_12.rank, p_12.stage, p_12.index) ∈ x.coll.received)) ∧
    (st1.task refA = some x ∧ x.phase = Phase.running ∧ openCollective x = true ∧
    p_11.ann ≠ x.announcement st1.node) := by decide +kernel

theorem witness_CollectiveExchange_5 :
    (st1.noticeTask ctag_13.toNat = some x ∧ st1.task x.ref = some x ∧ (x.phase ≠ Phase.failing ∧
    (x.phase = Phase.finished → x.status = St.success))) ∧
    (st16.task refA = some tsk17 ∧ st16.detachDue tsk17 1 = true ∧ st16.bit R.feCtl 31 = true) ∧
    (st1.task refA = some x ∧ st1.detachDue x 1 = false) := by decide +kernel

end Collectives

namespace Fabric

def refA : TaskRef := ⟨3, 4, 0⟩
def fe : State := { withRegs [(R.feCtl, 0x80000000), (R.feStatus, 1), (R.nodeId, 0x10005)] sQ with cycle := 100 }
def msg (node tag num : Nat) : Msg := ⟨BitVec.ofNat 32 num, 7, node, tag, 3, List.replicate 32 9, num, none, false, 0, none⟩
def tag0 (s : State) := withRegs [(R.rxCfg 4, 0xC0004000), (R.rxTag 4, 0x55), (R.rxBaseLo 4, 0x4000), (R.rxTail 4,
  0x80000000),(R.tcCfg 3, 0x80000055)] s
def st1 : State := withRegs [(R.fePeerCfg 2, 0xA0000007)] sQ
def p_2 := (3 : Fin 32)
def v_3 := (0 : Word)
def st4 : State := { fe with credits := [⟨7, 1, 1, .requested, 16, 0, some 3⟩] }
def st5 : State := { withRegs [(R.feCtl, 0), (R.feLaneStatus 3, 1)] fe with draining := [3] }
def st7 : State := { withRegs [(R.feCtl, 0), (R.feLaneStatus 3, 0)] fe with draining := [3,4] }
def ir (sp : Space) : Issued := ⟨0, ⟨sp, 2^48*9, 64, .data, 0⟩, 64, 0, false, [], false, false, false, false⟩
def tr (sp : Space) : Task :=
  { newTask refA (entryOf 1 5 true [(8,1,2)]) 1 2 with phase := .running, issueQ := [ir sp], pendingW := [⟨.device, [⟨2^48*9, 0xFF, 1⟩], none, none, 0⟩] }
def st8 : State := { fe with tasks := [tr .device] }
def tsk9 : Task := tr .device
def i_10 := ir .device
def w_11 := (⟨.device, [⟨2^48*9, 0xFF, 1⟩], none, none, 0⟩ : WriteReq)
def l_12 := ([] : List WriteReq)
def st13 : State := { fe with tasks := [tr .host] }
def tsk14 : Task := tr .host
def i_15 := ir .host
def sp (l : List Msg) (r : List (Nat × Nat)) : State := (withRegs r (tag0 fe)).putPort 3 ⟨l, 40⟩
def p_17 := (3 : Fin 64)
def st18 : State := sp [msg 9 0x55 4] []
def m_19 := msg 9 0x55 4
def q_20 := (3 : Fin 1024)
def st22 : State := (withRegs [(R.sqCfg 3, 0xC0000000),(R.sqIndex 3,
  44)] fe).putSq 3 { sqDefault 3 with outstanding := true, latched := some (entryOf 1 1 true [(4,4,99)]) }
def core_23 := (2 : Fin 8)
def ap_24 := (3 : Fin 16)
def st25 : State := { fe with cycle := 320000, apLoads := [⟨2,3,8,4,0,none,[]⟩, ⟨1,3,8,4,0,none,[]⟩] }
def l_26 := (⟨2,3,8,4,0,none,[]⟩ : ApLoad)
def wr0 : WriteReq := ⟨.device, [⟨2^48*9, 0xFF, 1⟩], none, none, 0⟩
def noW : List WriteReq := []
def po0 : PieceOut := ⟨7, 0x55, 1, 0, 2, 0, some 3⟩
def trP : Task := { tr .device with coll := { (tr .device).coll with awaiting := [po0] } }
def late : State := { fe with cycle := 320000 }
def st27 : State := { late with tasks := [tr .device] }
def st28 : State := { late with tasks := [tr .host] }
def st29 : State := { late with tasks := [trP] }
def st30 : State := { fe with tasks := [trP] }
def mSent : Msg := { msg 9 0x55 4 with sent := true }
def st31 : State := { sp [mSent] [] with cycle := 160000 }
def st32 : State := ({ withRegs [(R.sqCfg 3, 0xC0000000),(R.sqIndex 3, 44)] fe with cycle := 320000 } : State).putSq 3
  { sqDefault 3 with outstanding := true, latched := some (entryOf 1 1 true [(4,4,99)]) }
def st33 : State := { fe with apLoads := [⟨2,3,8,4,0,none,[]⟩] }
def r_34 := (4 : Fin 256)
def st35 : State := withRegs [(R.rxCfg 4, 0)] (tag0 fe)
def rxg : RxRun := ⟨[(9, 3), (8,2)], [⟨2, 0x4080, 9, true, 10, none⟩, ⟨3, 0x40C0, 9, true, 10, some ⟨9, 0x55, 3, 77, 1,
  List.replicate 64 3⟩⟩]⟩
def sRx := (tag0 fe).putEndpoint 4 rxg
def st36 : State := sRx.putEndpoint 4 {rxg with wait := []}
def tag_37 := (0x56:Nat)
def tag_38 := (0x55:Nat)
def st40 : State := sRx.putEndpoint 4 {rxg with wait := List.replicate 64 (1,1)}
def st41 : State := withRegs [(R.rxSrc 4, 0xFFFF0008)] sRx
def st42 : State := withRegs [(R.fePeerCfg 4, 0xC0000009)] sRx
def sCr (st : CreditState) : State :=
  { sp [msg 9 0x55 4, msg 9 0x55 5] [] with credits := [⟨9, 0x55, 2, st, 16, 0, some 3⟩] }
def st43 : State := sCr .requested
def c_44 := (⟨9, 0x55, 2, .requested, 16, 0, some 3⟩ : CreditPair)
def st46 : State := sCr (.backoff 16)
def c_47 := (⟨9, 0x55, 2, .backoff 16, 16, 0, some 3⟩ : CreditPair)
def st48 : State := { sRx with power := .idleGated }
def st49 : State := withRegs [(R.feStatus, 0)] sRx
def pk : MessagePacket := ⟨9, 0x55, 2, 77, 1, List.replicate 64 3⟩
def g_52 := (⟨2, 0x4080, 9, true, 10, none⟩ : RxGrant)
def p_53 := { pk with tag := 3 }
def p_54 := (⟨9, 0x55, 3, 77, 1, List.replicate 64 3⟩ : MessagePacket)
def r_55 := (4:Fin 256)
def g_56 := (⟨3, 0x40C0, 9, true, 10, some ⟨9, 0x55, 3, 77, 1, List.replicate 64 3⟩⟩ : RxGrant)
def seq_57 := (7:Word)
def st58 : State := sp [{msg 9 0x55 4 with sent := true}, msg 9 0x55 5] []
def st59 : State := { sRx with cycle := 160010 }
def st60 : State := { sRx with cycle := 160009 }
def noD : State := withRegs [(R.pwStatus, 0x80000000)] sRx
def rxB : RxRun := ⟨[], [⟨2, 0x40000004080, 9, true, 10, none⟩, ⟨3, 0x400000040C0, 9, true, 10, some ⟨9, 0x55, 3, 77, 1,
  List.replicate 64 3⟩⟩]⟩
def st61 : State := noD.putEndpoint 4 rxB
def g_62 := (⟨2, 0x40000004080, 9, true, 10, none⟩ : RxGrant)
def st63 : State := withRegs [(R.rxCfg 4, 0xC0004005)] sRx
def g_64 := (⟨3, 0x400000040C0, 9, true, 10, some ⟨9, 0x55, 3, 77, 1, List.replicate 64 3⟩⟩ : RxGrant)
def tag_65 := (0x57:Nat)
def poA : PieceOut := ⟨9, 0x57, 1, 0, 2, 0, some 3⟩
def tP7 : Task := { tr .device with coll := { (tr .device).coll with awaiting := [poA] } }
def st66 : State := { sp [{msg 9 0x55 4 with sent := true}, msg 9 0x55 5] [] with tasks := [tP7] }
def p_67 := (3:Fin 64)
def m_69 := {msg 9 0x55 4 with sent := true}
def st72 : State := sp [{msg 9 0x55 4 with sent := true}, {msg 9 0x55 5 with sent := true}] [(R.spStatus 3, 0x80007001),
  (R.spErrNum 3, 4)]
def m_73 := {msg 9 0x55 5 with sent := true}
def fifo2 : List Msg := [{msg 9 0x55 4 with sent := false}, msg 9 0x55 5]
def st76 : State := sp fifo2 [(R.spDest 3, 0x550009), (R.spAccepted 3, 0xFFFFFFFF), (R.spWdog 3, 40)]
def st79 : State := { sp fifo2 [(R.spDest 3, 0x550009), (R.spAccepted 3, 0xFFFFFFFF), (R.spWdog 3, 40)] with padWait := [.coreStore 0 0x40000000000 [] .good] }
def k_80 := [msg 9 0x55 5]
def st83 : State := { sp fifo2 [(R.spDest 3, 0x550009), (R.spAccepted 3, 0xFFFFFFFF), (R.spWdog 3, 41)] with padWait := [.coreStore 0 0x40000000000 [] .good] }
def st84 : State := sp (List.replicate 16 (msg 9 0x55 4)) [(R.spDest 3, 0x550009)]
def st85 : State := sp fifo2 [(R.spStatus 3, 0x80007001), (R.spErrNum 3, 4), (R.spFailed 3, 0xFFFFFFFF)]
def sPe := { withRegs [(R.fePeerCfg 2, 0xA0000007), (R.fePeerCfg 4, 0xA0000009)] (sp fifo2 []) with cycle := 60000 }.putPeer 4 ⟨12000, some 5⟩
def n_87 := (4 : Fin 1024)
def st88 : State := { sPe with cycle := 59999 }
def st89 : State := withRegs [(R.feCtl, 0)] sPe
def n_90 := (5 : Fin 1024)

theorem witness_FabricEndpointControl :
    (st1.takesWrite Requester.cp R.feCtl ∧ getField 2147483648 31 1 = 1 ∧ st1.feEnabled = false) ∧
    (fe.takesWrite Requester.cp R.feCtl ∧ getField v_3 31 1 = 0 ∧ fe.feEnabled = true ∧ fe.fabricIdle = true) ∧
    (st4.takesWrite Requester.cp R.feCtl ∧ getField v_3 31 1 = 0 ∧ st4.feEnabled = true ∧ st4.fabricIdle = false) ∧
    (st7.draining.contains ↑p_2 = true ∧ st7.portBusy ↑p_2 = false ∧ st7.bit (R.feLaneStatus ↑p_2) 0 = false) ∧
    (st5.draining.contains ↑p_2 = true ∧ st5.portBusy ↑p_2 = false ∧ st5.bit (R.feLaneStatus ↑p_2) 0 = true) ∧
    ((st1.draining.contains ↑p_2 = false ∨ st1.portBusy ↑p_2 = true)) := by decide +kernel

theorem witness_RequestsThatFail_1 :
    (st27.task refA = some tsk9 ∧ tsk9.phase = Phase.running ∧ i_10 ∈ tsk9.issueQ ∧ (∀ j ∈ tsk9.issueQ,
    j.no = i_10.no → j = i_10) ∧ i_10.answered = false ∧ i_10.req.space = Space.device ∧
    i_10.req.addr / 2 ^ 48 ≠ st27.node ∧ i_10.at_ + 160000 ≤ st27.cycle) ∧
    (st8.task refA = some tsk9 ∧ tsk9.phase = Phase.running ∧ i_10 ∈ tsk9.issueQ ∧ (∀ j ∈ tsk9.issueQ,
    j.no = i_10.no → j = i_10) ∧ i_10.answered = false ∧ i_10.req.space = Space.device ∧
    i_10.req.addr / 2 ^ 48 ≠ st8.node ∧ st8.cycle < i_10.at_ + 160000) ∧
    (st27.task refA = some tsk9 ∧ tsk9.phase = Phase.running ∧ i_10 ∈ tsk9.issueQ ∧ (∀ j ∈ tsk9.issueQ,
    j.no = i_10.no → j = i_10) ∧ i_10.answered = false ∧ i_10.req.space = Space.device ∧
    i_10.req.addr / 2 ^ 48 ≠ st27.node ∧ i_10.at_ ≤ st27.cycle) := by decide +kernel

theorem witness_RequestsThatFail_2 :
    (st28.task refA = some tsk14 ∧ tsk14.phase = Phase.running ∧ i_15 ∈ tsk14.issueQ ∧ (∀ j ∈ tsk14.issueQ,
    j.no = i_15.no → j = i_15) ∧ i_15.answered = false ∧ i_15.req.space = Space.host ∧
    st28.hostOverdue i_15.at_ 320000 = true) ∧
    (st13.task refA = some tsk14 ∧ tsk14.phase = Phase.running ∧ i_15 ∈ tsk14.issueQ ∧ (∀ j ∈ tsk14.issueQ,
    j.no = i_15.no → j = i_15) ∧ i_15.answered = false ∧ i_15.req.space = Space.host ∧
    st13.hostOverdue i_15.at_ 320000 = false) ∧
    (st27.task refA = some tsk9 ∧ tsk9.phase = Phase.running ∧ tsk9.pendingW = wr0 :: noW ∧
    wr0.span.1 / 2 ^ 48 ≠ st27.node ∧ wr0.at_ + 160000 ≤ st27.cycle) ∧
    (st8.task refA = some tsk9 ∧ tsk9.phase = Phase.running ∧ tsk9.pendingW = w_11 :: l_12 ∧
    w_11.span.1 / 2 ^ 48 ≠ st8.node ∧ st8.cycle < w_11.at_ + 160000) := by decide +kernel

theorem witness_RequestsThatFail_3 :
    (st29.task refA = some trP ∧ trP.phase = Phase.running ∧ po0 ∈ trP.coll.awaiting ∧ (∀ z ∈ trP.coll.awaiting,
    z.rank = po0.rank → z.stage = po0.stage → z.index = po0.index → z = po0) ∧ po0.at_ + 160000 ≤ st29.cycle) ∧
    (st30.task refA = some trP ∧ trP.phase = Phase.running ∧ po0 ∈ trP.coll.awaiting ∧ (∀ z ∈ trP.coll.awaiting,
    z.rank = po0.rank → z.stage = po0.stage → z.index = po0.index → z = po0) ∧ st30.cycle < po0.at_ + 160000) ∧
    (st31.spStopped ↑p_17 = false ∧ st31.unansweredMsg (↑p_17) 160000 = some mSent) ∧
    (st18.unansweredMsg (↑p_17) 160000 = none) ∧
    ((st32.sq ↑q_20).stale = [] ∧ (st32.sq ↑q_20).outstanding = true ∧ st32.sqHost ↑q_20 = true ∧
    st32.hostOverdue (st32.sq ↑q_20).lastRead 320000 = true) := by decide +kernel

theorem witness_RequestsThatFail_4 :
    ((st22.sq ↑q_20).stale = [] ∧ (st22.sq ↑q_20).outstanding = true ∧ st22.sqHost ↑q_20 = true ∧
    st22.hostOverdue (st22.sq ↑q_20).lastRead 320000 = false) ∧
    (l_26 ∈ st25.apLoads ∧ l_26.core = ↑core_23 ∧ l_26.ap = ↑ap_24 ∧ (∀ z ∈ st25.apLoads,
    z.core = l_26.core → z.ap = l_26.ap → z = l_26) ∧ st25.hostOverdue l_26.at_ 320000 = true) ∧
    (l_26 ∈ st33.apLoads ∧ l_26.core = ↑core_23 ∧ l_26.ap = ↑ap_24 ∧ (∀ z ∈ st33.apLoads,
    z.core = l_26.core → z.ap = l_26.ap → z = l_26) ∧ st33.hostOverdue l_26.at_ 320000 = false) ∧
    (5 = st28.node) ∧
    (9 ≠ fe.node) := by decide +kernel

theorem witness_ReceiveEndpoints_1 :
    (st35.takesWrite Requester.cp (R.rxCfg ↑r_34) ∧ st35.rxEn ↑r_34 = false ∧ getField 2147483648 31 1 = 1 ∧
    (st35.setReg (R.rxCfg ↑r_34) (writtenWord (st35.reg (R.rxCfg ↑r_34)) 2147483648 1333776383 536870912 0 (BitVec.toNat
    (st35.setNow (R.rxCfg ↑r_34) &&& st35.reg (R.rxCfg ↑r_34) &&& 536870912)))).rxEnableOk ↑r_34 = true) ∧
    (st35.takesWrite Requester.cp (R.rxCfg ↑r_34) ∧ st35.rxEn ↑r_34 = false ∧ getField 2298478592 31 1 = 1 ∧
    (st35.setReg (R.rxCfg ↑r_34) (writtenWord (st35.reg (R.rxCfg ↑r_34)) 2298478592 1333776383 536870912 0 (BitVec.toNat
    (st35.setNow (R.rxCfg ↑r_34) &&& st35.reg (R.rxCfg ↑r_34) &&& 536870912)))).rxEnableOk ↑r_34 = false) ∧
    (st36.takesWrite Requester.cp (R.rxCfg ↑r_34) ∧ st36.rxEn ↑r_34 = true ∧ getField 15 31 1 = 0) := by decide +kernel

theorem witness_ReceiveEndpoints_2 :
    (st36.takesWrite Requester.cp (R.rxHead ↑r_34) ∧ st36.rxEn ↑r_34 = true ∧ getField 15 0 16 < st36.rxSlots ↑r_34 ∧
    (st36.endpoint ↑r_34).wait = []) ∧
    (st35.takesWrite Requester.cp (R.rxHead ↑r_34) ∧
    (st35.rxEn ↑r_34 = false ∨ st35.rxSlots ↑r_34 ≤ getField 2147483648 0 16)) := by decide +kernel

theorem witness_CreditProtocol_1 :
    (st48.power ≠ PState.off ∧ (9 = st48.node → st48.asks tag_38 = true) ∧ (9 ≠ st48.node → st48.feActive = true) ∧
    st48.below = true ∧ st48.entering = none ∧ st48.waking = none) ∧
    (sRx.power ≠ PState.off ∧ (9 = sRx.node → sRx.asks tag_37 = true) ∧ (9 ≠ sRx.node → sRx.feActive = true) ∧
    sRx.below = false ∧ sRx.rxFor tag_37 = none) ∧
    (st42.power ≠ PState.off ∧ (9 = st42.node → st42.asks tag_38 = true) ∧ (9 ≠ st42.node → st42.feActive = true) ∧
    st42.below = false ∧ st42.rxFor tag_38 = some 4 ∧ st42.deadNode 9 = true) ∧
    (st41.power ≠ PState.off ∧ (9 = st41.node → st41.asks tag_38 = true) ∧ (9 ≠ st41.node → st41.feActive = true) ∧
    st41.below = false ∧ st41.rxFor tag_38 = some 4 ∧ st41.deadNode 9 = false ∧
    st41.rxAdmits 4 9 = false) := by decide +kernel

theorem witness_CreditProtocol_2 :
    (st36.power ≠ PState.off ∧ (9 = st36.node → st36.asks tag_38 = true) ∧ (9 ≠ st36.node → st36.feActive = true) ∧
    st36.below = false ∧ st36.rxFor tag_38 = some 4 ∧ st36.deadNode 9 = false ∧ st36.rxAdmits 4 9 = true ∧
    ((st36.endpoint 4).wait = [] ∧ 0 < st36.rxFree 4 ∧ st36.rxReachable 4 = true)) ∧
    (sRx.power ≠ PState.off ∧ (9 = sRx.node → sRx.asks tag_38 = true) ∧ (9 ≠ sRx.node → sRx.feActive = true) ∧
    sRx.below = false ∧ sRx.rxFor tag_38 = some 4 ∧ sRx.deadNode 9 = false ∧ sRx.rxAdmits 4 9 = true ∧
    (¬((sRx.endpoint 4).wait = [] ∧ 0 < sRx.rxFree 4 ∧ sRx.rxReachable 4 = true)) ∧
    (sRx.endpoint 4).wait.length < 64) := by decide +kernel

theorem witness_CreditProtocol_3 :
    (st40.power ≠ PState.off ∧ (9 = st40.node → st40.asks tag_38 = true) ∧ (9 ≠ st40.node → st40.feActive = true) ∧
    st40.below = false ∧ st40.rxFor tag_38 = some 4 ∧ st40.deadNode 9 = false ∧ st40.rxAdmits 4 9 = true ∧
    (¬((st40.endpoint 4).wait = [] ∧ 0 < st40.rxFree 4 ∧ st40.rxReachable 4 = true)) ∧ 64 ≤ (st40.endpoint 4).wait.length) ∧
    ((9 ≠ st49.node ∧ st49.feActive = false ∨ 9 = st49.node ∧ st49.asks tag_38 = false ∨ st49.power = PState.off)) ∧
    (c_44 ∈ st43.credits ∧ c_44.node = 9 ∧ c_44.tag = tag_38 ∧ c_44.waits = false ∧
    (9 = st43.node ∨ st43.feEnabled = true)) ∧
    (c_47 ∈ st46.credits ∧ c_47.node = 9 ∧ c_47.tag = tag_38 ∧ c_47.backOff st46.cycle = true ∧
    (9 = st46.node ∨ st46.feEnabled = true)) ∧
    ((∀ c ∈ st36.credits, c.node = 9 → c.tag = tag_38 → c.backOff st36.cycle = false)) := by decide +kernel

theorem witness_MessageDelivery_1 :
    ((p_53.src = sRx.node ∨ sRx.feActive = true) ∧ sRx.rxFor p_53.tag = none) ∧
    ((pk.src = st61.node ∨ st61.feActive = true) ∧ st61.rxFor pk.tag = some 4 ∧
    List.find? (fun h => decide (h.slot = pk.slot) && decide (h.node = pk.src) && h.msg.isNone) (st61.endpoint 4).granted =
    some g_62 ∧ st61.tierBWaits g_62.addr = true) ∧
    ((pk.src = sRx.node ∨ sRx.feActive = true) ∧ sRx.rxFor pk.tag = some 4 ∧
    List.find? (fun h => decide (h.slot = pk.slot) && decide (h.node = pk.src) && h.msg.isNone) (sRx.endpoint 4).granted =
    some g_52 ∧ sRx.tierBWaits g_52.addr = false ∧
    sRx.memVerdict (sRx.rxCtx 4) Acc.write g_52.addr (64 + (roundUp (16 + pk.payload.length) 64 - 64)) (writeCond g_52.addr
    (64 + (roundUp (16 + pk.payload.length) 64 - 64)) MemCond.good) = none) := by decide +kernel

theorem witness_MessageDelivery_2 :
    ((pk.src = st63.node ∨ st63.feActive = true) ∧ st63.rxFor pk.tag = some 4 ∧
    List.find? (fun h => decide (h.slot = pk.slot) && decide (h.node = pk.src) && h.msg.isNone) (st63.endpoint 4).granted =
    some g_52 ∧ st63.tierBWaits g_52.addr = false ∧
    st63.memVerdict (st63.rxCtx 4) Acc.write g_52.addr (64 + (roundUp (16 + pk.payload.length) 64 - 64)) (writeCond
    g_52.addr (64 + (roundUp (16 + pk.payload.length) 64 - 64)) MemCond.good) = some St.context) ∧
    (List.find? (fun h => decide (h.slot = 3) && h.msg.isSome) (st61.endpoint ↑r_55).granted = some g_64 ∧
    g_64.msg = some p_54 ∧ st61.tierBWaits g_64.addr = true) ∧
    (List.find? (fun h => decide (h.slot = 3) && h.msg.isSome) (sRx.endpoint ↑r_55).granted = some g_56 ∧
    g_56.msg = some p_54 ∧ sRx.tierBWaits g_56.addr = false) := by decide +kernel

theorem witness_MessageDelivery_3 :
    (List.find? (fun p => (st58.port p).fifo.any fun m => decide (m.node = 9) && decide (m.tag = tag_38) && decide (m.seq =
    seq_57) && m.sent) (List.range 64) = some 3) ∧
    (List.find? (fun p => (st66.port p).fifo.any fun m => decide (m.node = 9) && decide (m.tag = tag_65) && decide (m.seq =
    seq_57) && m.sent) (List.range 64) = none ∧
    List.find? (fun x => x.coll.awaiting.any fun w => decide (w.node = 9) && decide (w.tag = tag_65)) st66.tasks = some tP7
    ∧ st66.task tP7.ref = some tP7 ∧ tP7.phase = Phase.running ∧
    List.find? (fun w => decide (w.node = 9) && decide (w.tag = tag_65)) tP7.coll.awaiting = some poA) := by decide +kernel

theorem witness_MessageDelivery_4 :
    (List.find? (fun p => (st58.port p).fifo.any fun m => decide (m.node = 9) && decide (m.tag = tag_65) && decide (m.seq =
    seq_57) && m.sent) (List.range 64) = none ∧
    List.find? (fun x => x.coll.awaiting.any fun w => decide (w.node = 9) && decide (w.tag = tag_65)) st58.tasks = none) ∧
    (st58.spStopped ↑p_67 = false ∧ List.find? (fun m => m.sent && decide (m.num = 4)) (st58.port ↑p_67).fifo = some m_69) ∧
    (st72.spStopped ↑p_67 = true ∧ List.find? (fun m => m.sent && decide (m.num = 5)) (st72.port ↑p_67).fifo = some m_73) ∧
    (List.find? (fun m => m.sent && decide (m.num = 77)) (st58.port ↑p_67).fifo = none) := by decide +kernel

theorem witness_MessageDelivery_5 :
    (List.filter (fun h => decide (h.slot = 2) && h.msg.isNone) (st59.endpoint ↑r_55).granted = [g_52] ∧
    g_52.at_ + 160000 ≤ st59.cycle ∧ st59.memVerdict (st59.rxCtx ↑r_55) Acc.write g_52.addr 64 MemCond.good = none) ∧
    (List.filter (fun h => decide (h.slot = 2) && h.msg.isNone) (st60.endpoint ↑r_55).granted = [g_52] ∧
    st60.cycle < g_52.at_ + 160000) := by decide +kernel

theorem witness_SendPorts :
    (st84.takesWrite Requester.cp (R.spSend ↑p_17) ∧ 16 ≤ (st84.port ↑p_17).fifo.length) ∧
    (st76.takesWrite Requester.cp (R.spSend ↑p_17) ∧ (st76.port ↑p_17).fifo.length < 16) ∧
    (st85.takesWrite Requester.cp (R.spCtl ↑p_17) ∧ st85.spStopped ↑p_17 = true ∧ (∀ m ∈ (st85.port ↑p_17).fifo,
    st85.msgFault m = none)) ∧
    (st76.takesWrite Requester.cp (R.spCtl ↑p_17) ∧ st76.spStopped ↑p_17 = false) ∧
    ((st79.port ↑p_17).fifo = m_19 :: k_80 ∧ st79.spStopped ↑p_17 = false ∧ m_19.sent = false ∧
    0 < BitVec.toNat (st79.reg (R.spWdog ↑p_17)) ∧ BitVec.toNat (st79.reg (R.spWdog ↑p_17)) ≤ (st79.port ↑p_17).waited) ∧
    ((st83.port ↑p_17).fifo = m_19 :: k_80 ∧ st83.spStopped ↑p_17 = false ∧ m_19.sent = false ∧
    (BitVec.toNat (st83.reg (R.spWdog ↑p_17)) = 0 ∨ (st83.port ↑p_17).waited < BitVec.toNat (st83.reg (R.spWdog ↑p_17))))
    := by decide +kernel

theorem witness_Peers :
    (st88.feEnabled = true ∧ st88.beatDue ≤ st88.cycle ∧ st88.power ≠ PState.off) ∧
    ((st89.feEnabled = false ∨ st89.cycle < st89.beatDue ∨ st89.power = PState.off)) ∧
    (st88.feEnabled = true) ∧
    (st89.feEnabled = false) ∧
    (sPe.feEnabled = true ∧ sPe.watched ↑n_87 = true ∧ sPe.peerState ↑n_87 = 1 ∧
    (sPe.peer ↑n_87).lastBeat + 48000 ≤ sPe.cycle ∧ 3 < 64 ∧ (sPe.port 3).fifo = m_19 :: k_80 ∧
    m_19.node = sPe.peerNode ↑n_87) ∧
    (st88.feEnabled = true ∧ st88.watched ↑n_87 = true ∧ st88.peerState ↑n_87 = 1 ∧
    st88.cycle < (st88.peer ↑n_87).lastBeat + 48000) ∧
    (st89.takesWrite Requester.cp (R.fePeerCfg ↑n_90) ∧ getField 2147483699 31 1 = 1 ∧ st89.watched ↑n_90 = false) ∧
    (st88.takesWrite Requester.cp (R.fePeerCfg ↑n_87) ∧ getField 51 31 1 = 0) := by decide +kernel

end Fabric

namespace Memory

def refA : TaskRef := ⟨3, 4, 0⟩
def a0 : Nat := 0x0400_0000_0040
def r0 : RowAddr := ⟨3, 2, 77⟩
def e0 : LineErrors := ⟨[], none⟩
def e1 : LineErrors := ⟨[(5, 0x11), (9, 0x40)], none⟩
def e2 : LineErrors := ⟨[(5, 0x11), (9, 0x40), (10, 3), (11, 4), (12, 9)], none⟩
def e3 : LineErrors := ⟨[(63, 24), (62, 200), (61, 173), (60, 239), (59, 54), (58, 81), (57, 11), (56, 255), (55, 1)], none⟩
def iB : Issued := ⟨3, ⟨.device, a0, 64, .data, 0⟩, 64, 0, false, [], false, false, false, false⟩
def tr : Task := { newTask refA (entryOf 1 5 true [(8,1,2)]) 1 2 with phase := .running, issueQ := [iB] }
def sT : State := { withRegs [(R.tbScrubCfg, 1), (R.tbRowCfg, 1), (R.tbSiteStatus 0, 0x20000000), (R.tbSiteStatus 8, 0x80000000)] sQ with tasks := [tr], cycle := 60000 }
def noO : Option TaskRef := none
def yesO : Option TaskRef := some refA
def site0 : SiteRun :=
  { track := [], scrubLine := 1, scrubAt := some 100, refreshing := [], held := [], nextRate := 1, polledAt := some 100, serial := 0, spdDone := true }
def sBusy : State := sT.putSite 0 { site0 with refreshing := [(2, 60001)] }
def noPad : State := withRegs [(R.pwStatus, 0x80000000)] sT
def miss3 : List Nat := (List.range 64).map (Rs.residue e3 0 (Rs.decode (Rs.errorWord e3 0)))
def b_1 := (0 : Fin 9)
def st3 : State := (withRegs [(R.tbScrubCfg, 0), (R.tbSiteStatus 0, 0)] sT).putSite 0 site0
def st4 : State := sT.putSite 0 { site0 with polledAt := some 59990 }
def b_5 := (8 : Fin 9)
def v0 (l : Nat) : EvacRun := ⟨3, 3, 8, l⟩
def sV (l : Nat) : State :=
  { withRegs [(R.tbSiteStatus 3, 0x60000000), (R.tbEvac, 0x80000000)] sT with evac := some (v0 l), mq := { MqRun.empty with evac := some ⟨entryOf 0x90 1 true [], 0⟩ } }
def st6 : State := sV 5
def v_7 := v0 5
def st8 : State := sV (2^33-1)
def v_9 := v0 (2^33-1)
def st10 : State := withRegs [(R.pwStatus, 0x80000000)] (sV 5)
def st11 : State := (sV 5).putSite 3 { site0 with refreshing := [(2, 60001)] }
def st12 : State := (sV 5).putSite 3 { site0 with held := [⟨.copy, true, 0, e1, r0⟩] }
def b_13 := (2 : Fin 9)
def n_14 := (3 : Fin 16)
def st15 : State := withRegs [(R.tbRow 2 3, 0x86E00077)] sT
def st16 : State := withRegs [(R.tbRow 2 3, 0x06E00077)] sT
def sp (a c : Bool) : SpdResult := ⟨a, c, true, true, true, 0x1234567890, [1,2,3]⟩
def sS : State := { sT with startup := .checks }
def b_17 := (4 : Fin 9)
def r_18 := sp true true
def r_19 := sp true false
def st21 : State := { sS with startup := .done, restoring := false }
def st22 : State := { sS with cycle := 1600000 }
def br (c : Fin 8) : BurstReq := ⟨.coreLoad c, false, 0x400, 512, 0⟩
def kc (c : Nat) : ReqKey := ⟨68, c, 2, 77⟩
def full : SMap (Option Burst) := (List.range 24).map (fun i => (i, some ⟨br 5, kc 5, 4000⟩))
def sA (x : ArbRun) (r : List (Nat × Nat)) : State := { withRegs r sQ with arbs := [(2, x)] }
def aF : ArbRun := { arbDefault 0 with slots := full }
def wt (c : Fin 8) : Waiting := ⟨br c, kc c, 7, 10, 10, 16⟩
def wl (c : Fin 8) : Waiting := ⟨br c, kc c, 7, 10, 4999, 16⟩
def n_23 := (2 : Fin 48)
def r_24 := br 7
def st25 : State := sA (arbDefault 0) []
def l_26 := List.range' 1 23
def k_27 := kc 7
def st28 : State := sA aF [(R.arbCtl 2, 0)]
def ending_29 := [3, 5]
def st30 : State := sA aF [(R.arbCtl 2, 0x80000000)]
def r_31 := { br 7 with len := 513 }
def st32 : State := sA aF []
def st33 : State := sA { aF with parked := [wt 7] } []
def w_34 := wt 7
def l_35 := [5]
def st36 : State := sA { aF with backoff := [wt 7] } []
def st37 : State := sA { arbDefault 0 with backoff := [wt 6, wt 7] } [(R.arbCtl 2, 0x80000000)]
def st38 : State := sA { aF with backoff := [wt 6, wt 7] } [(R.arbCtl 2, 0x80000000)]
def st39 : State := sA { aF with backoff := [wt 6, wl 7] } [(R.arbCtl 2, 0x80000000)]
def w_40 := wl 7
def b_42 := (⟨br 5, kc 5, 4000⟩ : Burst)
def st43 : State := sA aF [(R.arbWdog 2, 1001)]
def bT : Burst := ⟨⟨.task refA false, false, 0x400, 64, 0⟩, ⟨3, 0, 1, 1⟩, 4000⟩
def iA : Issued := ⟨3, ⟨.device, 0x400, 64, .data, 0⟩, 64, 0, false, [], false, false, false, false⟩
def trA : Task := { tr with issueQ := [iA] }
def st44 : State := { sA { arbDefault 0 with slots := [(3, some bT)] } [(R.arbWdog 2, 1000)] with tasks := [trA] }

theorem judge_e0 (line : Nat) : Rs.judge e0 line = .clean := (Rs.judge_inPlace _ line).trans (by decide +kernel)

theorem judge_e1 (line : Nat) : Rs.judge e1 line = .corrected := (Rs.judge_inPlace _ line).trans (by decide +kernel)

theorem judge_e2 (line : Nat) : Rs.judge e2 line = .uncorrectable := (Rs.judge_inPlace _ line).trans (by decide +kernel)

theorem judge_e3 (line : Nat) : Rs.judge e3 line = .missed miss3 := (Rs.judge_inPlace _ line).trans (by decide +kernel)

theorem witness_TierBLines_1 :
    (regionOf a0 = Region.tierB ∧ sBusy.tbReady = true ∧ sBusy.siteOf (moduleOf a0) = ↑b_1 ∧
    sBusy.bankBusy (↑b_1) r0.bank = true ∧ yesO = some refA ∧ sBusy.task refA = some tr ∧ iB ∈ tr.issueQ ∧
    (iB.answered = false ∧ sBusy.readsOwn iB = true ∧ iB.req.addr % 2 ^ 48 / 64 ≤ a0 / 64 ∧
    a0 / 64 ≤ (iB.req.addr % 2 ^ 48 + (iB.req.len - 1)) / 64)) ∧
    (regionOf a0 = Region.tierB ∧ sT.tbReady = true ∧ sT.siteOf (moduleOf a0) = ↑b_1 ∧ sT.bankBusy (↑b_1) r0.bank = false ∧
    Rs.judge e0 (moduleInternal (lineOf a0) / 64) = Rs.Ending.clean) := by
  simp only [judge_e0]
  decide +kernel

theorem witness_TierBLines_2 :
    (regionOf a0 = Region.tierB ∧ sT.tbReady = true ∧ sT.siteOf (moduleOf a0) = ↑b_1 ∧ sT.bankBusy (↑b_1) r0.bank = false ∧
    Rs.judge e1 (moduleInternal (lineOf a0) / 64) = Rs.Ending.corrected ∧ yesO = some refA ∧ sT.task refA = some tr ∧
    iB ∈ tr.issueQ ∧ (iB.answered = false ∧ sT.readsOwn iB = true ∧ iB.req.addr % 2 ^ 48 / 64 ≤ a0 / 64 ∧
    a0 / 64 ≤ (iB.req.addr % 2 ^ 48 + (iB.req.len - 1)) / 64)) ∧
    (regionOf a0 = Region.tierB ∧ sT.tbReady = true ∧ sT.siteOf (moduleOf a0) = ↑b_1 ∧ sT.bankBusy (↑b_1) r0.bank = false ∧
    Rs.judge e1 (moduleInternal (lineOf a0) / 64) = Rs.Ending.corrected ∧
    List.find? (fun i => !sT.bit (R.tbRow (↑b_1) i) 31) (List.range 16) = some 0 ∧
    rowCount (sT.site ↑b_1).track r0 + 1 = sT.fld R.tbRowCfg 0 4) := by
  simp only [judge_e1]
  decide +kernel

theorem witness_TierBLines_3 :
    (regionOf a0 = Region.tierB ∧ sT.tbReady = true ∧ sT.siteOf (moduleOf a0) = ↑b_1 ∧ sT.bankBusy (↑b_1) r0.bank = false ∧
    Rs.judge e3 (moduleInternal (lineOf a0) / 64) = Rs.Ending.missed miss3) ∧
    (regionOf a0 = Region.tierB ∧ sT.tbReady = true ∧ sT.siteOf (moduleOf a0) = ↑b_1 ∧ sT.bankBusy (↑b_1) r0.bank = false ∧
    Rs.judge e2 (moduleInternal (lineOf a0) / 64) = Rs.Ending.uncorrectable ∧ noO = none) ∧
    (regionOf a0 = Region.tierB ∧ sT.tbReady = true ∧ sT.siteOf (moduleOf a0) = ↑b_1 ∧ sT.bankBusy (↑b_1) r0.bank = false ∧
    Rs.judge e2 (moduleInternal (lineOf a0) / 64) = Rs.Ending.uncorrectable ∧ yesO = some refA ∧ sT.task refA = some tr ∧
    tr.phase = Phase.running) ∧
    (noPad.moduleAt ↑b_1 = some 0 ∧ noPad.scrubDue ↑b_1 = true ∧ noPad.tbReady = false) := by
  simp only [judge_e2, judge_e3]
  decide +kernel

theorem witness_TierBLines_4 :
    (sT.moduleAt ↑b_1 = some 0 ∧ sT.scrubDue ↑b_1 = true ∧ sT.tbReady = true ∧ sT.bankBusy (↑b_1) r0.bank = false ∧
    Rs.judge e2 (moduleInternal (moduleAddress 0 (64 * (sT.site ↑b_1).scrubLine)) / 64) = Rs.Ending.uncorrectable) ∧
    (st3.moduleAt ↑b_1 = some 0 ∧ st3.scrubDue ↑b_1 = false) ∧
    (sT.moduleAt ↑b_5 = none) ∧
    (sT.refreshes ↑b_1 = true ∧ 5 ≠ 3) ∧
    (sT.refreshes ↑b_1 = true ∧ (∀ (at_ : ℕ), (sT.site ↑b_1).polledAt = some at_ → at_ + 51200 ≤ sT.cycle)) ∧
    (st4.refreshes ↑b_1 = true ∧ (st4.site ↑b_1).polledAt = some 59990 ∧ st4.cycle < 59990 + 51200) ∧
    (st3.refreshes ↑b_1 = false) ∧
    (st10.evac = some v_7 ∧ v_7.source < 9 ∧ v_7.target < 9 ∧ v_7.lm < 8 ∧ v_7.source ≠ v_7.target ∧
    (∀ h ∈ (st10.site v_7.source).held, h.use ≠ LineUse.copy) ∧ st10.tbReady = false) := by
  simp only [judge_e2]
  decide +kernel

theorem witness_TierBLines_5 :
    (st11.evac = some v_7 ∧ v_7.source < 9 ∧ v_7.target < 9 ∧ v_7.lm < 8 ∧ v_7.source ≠ v_7.target ∧
    (∀ h ∈ (st11.site v_7.source).held, h.use ≠ LineUse.copy) ∧ st11.tbReady = true ∧
    st11.bankBusy v_7.source r0.bank = true) ∧
    (st6.evac = some v_7 ∧ v_7.source < 9 ∧ v_7.target < 9 ∧ v_7.lm < 8 ∧ v_7.source ≠ v_7.target ∧
    (∀ h ∈ (st6.site v_7.source).held, h.use ≠ LineUse.copy) ∧ st6.tbReady = true ∧
    st6.bankBusy v_7.source r0.bank = false ∧
    Rs.judge e1 (moduleInternal (moduleAddress v_7.lm (64 * v_7.line)) / 64) ≠ Rs.Ending.uncorrectable ∧
    v_7.line + 1 ≠ moduleLines) := by
  simp only [judge_e1]
  decide +kernel

theorem witness_TierBLines_6 :
    (st8.evac = some v_9 ∧ v_9.source < 9 ∧ v_9.target < 9 ∧ v_9.lm < 8 ∧ v_9.source ≠ v_9.target ∧
    (∀ h ∈ (st8.site v_9.source).held, h.use ≠ LineUse.copy) ∧ st8.tbReady = true ∧
    st8.bankBusy v_9.source r0.bank = false ∧
    Rs.judge e1 (moduleInternal (moduleAddress v_9.lm (64 * v_9.line)) / 64) ≠ Rs.Ending.uncorrectable ∧
    v_9.line + 1 = moduleLines) ∧
    (st8.evac = some v_9 ∧ v_9.source < 9 ∧ v_9.target < 9 ∧ v_9.lm < 8 ∧ v_9.source ≠ v_9.target ∧
    (∀ h ∈ (st8.site v_9.source).held, h.use ≠ LineUse.copy) ∧ st8.tbReady = true ∧
    st8.bankBusy v_9.source r0.bank = false ∧
    Rs.judge e2 (moduleInternal (moduleAddress v_9.lm (64 * v_9.line)) / 64) = Rs.Ending.uncorrectable) := by
  simp only [judge_e1, judge_e2]
  decide +kernel

theorem witness_TierBLines_7 :
    (st12.evac = some v_7 ∧ v_7.source < 9 ∧ v_7.target < 9 ∧ v_7.lm < 8 ∧ v_7.source ≠ v_7.target ∧
    (∃ h ∈ (st12.site v_7.source).held, h.use = LineUse.copy)) ∧
    (sT.evac = none) ∧
    (st15.cpRuns = true ∧ st15.bit (R.tbRow ↑b_13 ↑n_14) 31 = true ∧ st15.record.rows = []) ∧
    ((st16.cpRuns = false ∨ st16.bit (R.tbRow ↑b_13 ↑n_14) 31 = false)) := by decide +kernel

theorem witness_SiteChecks :
    (st22.spdDue ↑b_17 = true ∧ r_18.answered = true ∧ spdCheck r_18 = 0) ∧
    (sS.spdDue ↑b_17 = true ∧ spdCheck r_19 ≠ 0) ∧
    (st22.spdDue ↑b_17 = true ∧ st22.checksAt + 1600000 ≤ st22.cycle) ∧
    (sS.spdDue ↑b_17 = true ∧ sS.cycle < sS.checksAt + 1600000) ∧
    (st21.spdDue ↑b_17 = false) := by decide +kernel

theorem witness_PortArbitration_1 :
    ((st25.arb ↑n_23).parked = [] ∧ (st25.arb ↑n_23).held = [] ∧ st25.reqKey r_24 = some k_27 ∧
    st25.reqFits (↑n_23) r_24 = true ∧ (st25.arb ↑n_23).backoff = [] ∧ r_24.owner ≠ BurstOwner.copy ∧
    r_24.owner ≠ BurstOwner.heartbeat ∧ (st25.arb ↑n_23).idle (↑n_23) r_24.channel = 0 :: l_26 ∧ 3 ≠ 0) ∧
    ((st25.arb ↑n_23).parked = [] ∧ (st25.arb ↑n_23).held = [] ∧ st25.reqKey r_24 = some k_27 ∧
    st25.reqFits (↑n_23) r_24 = true ∧ (st25.arb ↑n_23).backoff = [] ∧ r_24.owner ≠ BurstOwner.copy ∧
    r_24.owner ≠ BurstOwner.heartbeat ∧ (st25.arb ↑n_23).idle (↑n_23) r_24.channel = 0 :: l_26 ∧
    3 ≠ ↑n_23) := by decide +kernel

theorem witness_PortArbitration_2 :
    ((st28.arb ↑n_23).parked = [] ∧ (st28.arb ↑n_23).held = [] ∧ st28.reqKey r_24 = some k_27 ∧
    st28.reqFits (↑n_23) r_24 = true ∧ (st28.arb ↑n_23).backoff = [] ∧ r_24.owner ≠ BurstOwner.copy ∧
    r_24.owner ≠ BurstOwner.heartbeat ∧ (st28.arb ↑n_23).idle (↑n_23) r_24.channel = [] ∧ st28.retryService ↑n_23 = false) ∧
    ((st30.arb ↑n_23).parked = [] ∧ (st30.arb ↑n_23).held = [] ∧ st30.reqKey r_24 = some k_27 ∧
    st30.reqFits (↑n_23) r_24 = true ∧ (st30.arb ↑n_23).backoff = [] ∧ r_24.owner ≠ BurstOwner.copy ∧
    r_24.owner ≠ BurstOwner.heartbeat ∧ (st30.arb ↑n_23).idle (↑n_23) r_24.channel = [] ∧ st30.retryService ↑n_23 = true) ∧
    ((st32.arb ↑n_23).parked = [] ∧ (st32.arb ↑n_23).held = [] ∧
    (st32.reqKey r_31 = none ∨ st32.reqFits (↑n_23) r_31 = false)) ∧
    ((st28.arb ↑n_23).held = [] ∧ (st28.arb ↑n_23).parked = []) := by decide +kernel

theorem witness_PortArbitration_3 :
    ((st33.arb ↑n_23).held = [] ∧ (st33.arb ↑n_23).parked = [w_34] ∧ (st33.arb ↑n_23).backoff = [] ∧
    w_34.req.owner ≠ BurstOwner.copy ∧ w_34.req.owner ≠ BurstOwner.heartbeat ∧
    (List.foldl (fun x i => x.putSlot i none) (st33.arb ↑n_23) (st33.ended (↑n_23) ending_29)).idle (↑n_23)
    w_34.req.channel = 3 :: l_35 ∧ w_34.req.channel < (arbShape ↑n_23).1) ∧
    ((st36.arb ↑n_23).held = [] ∧ (st36.arb ↑n_23).parked = [] ∧ (st36.arb ↑n_23).backoff = [w_34] ∧
    w_34.since + w_34.wait ≤ st36.cycle ∧ w_34.req.owner ≠ BurstOwner.copy ∧ w_34.req.owner ≠ BurstOwner.heartbeat ∧
    (List.foldl (fun x i => x.putSlot i none) (st36.arb ↑n_23) (st36.ended (↑n_23) ending_29)).idle (↑n_23)
    w_34.req.channel = 3 :: l_35 ∧ w_34.req.channel < (arbShape ↑n_23).1) := by decide +kernel

theorem witness_PortArbitration_4 :
    ((st37.arb ↑n_23).backoff[1]? = some w_34 ∧ w_34.since + w_34.wait ≤ st37.cycle ∧ (∀ v ∈ (st37.arb ↑n_23).backoff,
    v ≠ w_34 → sameStream v w_34 = false) ∧ (st37.arb ↑n_23).parked = [] ∧ (st37.arb ↑n_23).held = [] ∧
    w_34.req.owner ≠ BurstOwner.copy ∧ w_34.req.owner ≠ BurstOwner.heartbeat ∧ w_34.req.channel < (arbShape ↑n_23).1 ∧
    (st37.arb ↑n_23).idle (↑n_23) w_34.req.channel = 0 :: l_26) := by decide +kernel

theorem witness_PortArbitration_5 :
    ((st38.arb ↑n_23).backoff[1]? = some w_34 ∧ w_34.since + w_34.wait ≤ st38.cycle ∧ (∀ v ∈ (st38.arb ↑n_23).backoff,
    v ≠ w_34 → sameStream v w_34 = false) ∧ (st38.arb ↑n_23).parked = [] ∧ (st38.arb ↑n_23).held = [] ∧
    w_34.req.owner ≠ BurstOwner.copy ∧ w_34.req.owner ≠ BurstOwner.heartbeat ∧ w_34.req.channel < (arbShape ↑n_23).1 ∧
    (st38.arb ↑n_23).idle (↑n_23) w_34.req.channel = [] ∧ st38.retryService ↑n_23 = true) ∧
    ((st39.arb ↑n_23).backoff[1]? = some w_40 ∧ st39.cycle < w_40.since + w_40.wait) ∧
    ((st44.arb ↑n_23).slot 3 = some bT ∧ bT.at_ + BitVec.toNat (st44.reg (R.arbWdog ↑n_23)) ≤ st44.cycle ∧
    bT.req.owner = BurstOwner.task refA false ∧ st44.task refA = some trA ∧ trA.phase = Phase.running) := by decide +kernel

theorem witness_PortArbitration_6 :
    ((st43.arb ↑n_23).slot 3 = some b_42 ∧
    st43.cycle < b_42.at_ + BitVec.toNat (st43.reg (R.arbWdog ↑n_23))) := by decide +kernel

end Memory

namespace Management

def pk (op : Nat) (l : List (Nat × Nat × Nat)) : List Byte := entryOf op 1 true ((4,4,0x1234) :: l)
def mqOn : State := withRegs [(R.mqCfg, 0x80000000), (R.mqState, 0x40000000), (R.mqSqHead, 0x80000000), (R.mqCqTail,
  0x80000000), (R.mqSqBaseLo, 0x10000), (R.mqCqBaseLo, 0x20000), (R.mqIrq, 0x80000005), (R.ctxMap 5, 0x80000000)] sQ
def st1 : State := withRegs [(R.mqCfg, 0), (R.mqState, 0)] mqOn
def st2 : State := withRegs [(R.mqPending, 2)] mqOn
def st4 : State := withRegs [(R.mqState, 0xC0000000)] mqOn
def epk := pk 0x87 [(8,4,7)]
def sRd (b : List Byte) : State :=
  { (({ mqOn with mq := { MqRun.empty with tail := 1 } } : State).writeMem 0x10000 b) with now := mqOn.now }
def st5 : State := sRd epk
def st6 : State := sRd (pk 0x88 [(8,1,9)])
def st8 : State := sRd []
def sRr (o : Bool) (l f : Nat) : State :=
  { mqOn with mq := { MqRun.empty with tail := 1, readFirst := some f, readLast := l, outstanding := o } }
def st9 : State := sRr false 4936 1800
def st10 : State := sRr false 4937 1801
def rp (op : Byte) : Reply := ⟨0x77, 0, op, true, 3, [1,2,3], []⟩
def sRp (t h : Nat) (op : Byte) : State :=
  { withRegs [(R.mqCqTail, t), (R.mqCqHead, h), (R.mqPending, 0x180)] mqOn with mq := { MqRun.empty with replies := [rp op, rp op], powerTo := some 3 } }
def st12 : State := sRp 0x8000000F 3 0x88
def r_13 := rp 0x88
def l_14 := [rp 0x88]
def st15 : State := sRp 0x8000000F 0 0x88
def cur (b : List Byte) : State := { mqOn with mq := { MqRun.empty with cur := some ⟨b, 9⟩, replies := [rp 0x87] } }
def pp (b : List Byte) : Packet := ⟨b, 9⟩
def qc (kind n : Nat) : List Byte := pk 0x81 [(8,1,kind),(9,1,3),(10,2,n),(12,2,5),(14,1,0),(15,1,if kind = 0 then 4 else
  0),(16,1,if kind = 0 then 3 else 0),(24,8,0x40000)]
def st19 : State := cur (qc 0 7)
def p_20 := pp (qc 0 7)
def rs_21 := ([] : List XRange)
def st22 : State := cur (qc 1 7)
def p_23 := pp (qc 1 7)
def st24 : State := cur (qc 0 3)
def p_25 := pp (qc 0 3)
def st26 : State := withRegs [(R.ctxMap 5, 0)] (cur (qc 0 7))
def qh (kind n : Nat) : List Byte := pk 0x81 [(8,1,kind),(9,1,3),(10,2,n),(12,2,5),(14,1,1),(20,4,77),(24,8,0x40000)]
def st27 : State := withRegs [(R.tuStatus, 0x40000000)] (cur (qh 0 7))
def p_28 := pp (qh 0 7)
def qd (kind n : Nat) : List Byte := pk 0x82 [(8,1,kind),(10,2,n)]
def st33 : State := cur (qd 0 3)
def p_34 := pp (qd 0 3)
def st35 : State := cur (qd 1 2)
def p_36 := pp (qd 1 2)
def st37 : State := cur (qd 1 5)
def p_38 := pp (qd 1 5)
def refA : TaskRef := ⟨3, 4, 0⟩
def refB : TaskRef := ⟨3, 5, 0⟩
def tA : Task := { newTask refA (entryOf 1 5 true [(8,1,2)]) 1 2 with phase := .running, issueQ := [⟨0, ⟨.device, 0x4000, 64, .data, 0⟩, 64, 0, false, [], false, false, false, false⟩] }
def tB : Task := { newTask refB (entryOf 9 1 true [(8,1,2)]) 1 2 with phase := .queued }
def ab (sc n i : Nat) : List Byte := pk 0x83 [(8,1,sc),(10,2,n),(12,4,i)]
def cT (b : List Byte) : State := { cur b with tasks := [tA, tB] }
def st41 : State := cT (ab 1 3 0)
def p_42 := pp (ab 1 3 0)
def st45 : State := cT (ab 1 4 0)
def p_46 := pp (ab 1 4 0)
def arun : AbortRun := ⟨pp (ab 1 3 0), [refA, refB], [refA, refB]⟩
def sAb (x y : Task) : State :=
  { withRegs [(R.cqHead 2, 1)] mqOn with tasks := [x, y], mq := { MqRun.empty with abort := some arun } }
def st47 : State := sAb { tA with phase := .finished } { tB with phase := .finished }
def p_48 := pp epk
def st50 : State := cur epk
def curN (b : List Byte) : State := { mqOn with mq := { MqRun.empty with cur := some ⟨b, 9⟩ } }
def st52 : State := curN epk
def st_53 := (match (withRegs [(R.tuStatus, 0x40000000)] mqOn).ringList (qh 0 7) .error with | .error e => e | _ => 0)
def fw (e c : Nat) : List Byte := pk 0x8F [(8,2,e),(10,1,c)]
def st54 : State := cur (fw 77 0)
def p_55 := pp (fw 77 0)
def st56 : State := withRegs [(R.eventSet 2, 0xFFFFFFFF)] (cur (fw 77 1))
def p_57 := pp (fw 77 1)
def pw (n : Nat) : List Byte := pk 0x88 [(8,1,n)]
def st58 : State := cur (pw 0)
def p_59 := pp (pw 0)
def st60 : State := cur (pw 1)
def p_61 := pp (pw 1)
def st62 : State := cur (pw 3)
def p_63 := pp (pw 3)

theorem witness_ManagementQueue_1 :
    (st1.takesWrite Requester.host R.mqCfg ∧ st1.mqEn = false ∧ getField 2147483906 31 1 = 1 ∧
    st1.mqEnableOk (getField 2147483906 0 4) (getField 2147483906 8 4) = true) ∧
    (st1.takesWrite Requester.host R.mqCfg ∧ st1.mqEn = false ∧ getField 2147483913 31 1 = 1 ∧
    st1.mqEnableOk (getField 2147483913 0 4) (getField 2147483913 8 4) = false) ∧
    (mqOn.takesWrite Requester.host R.mqCfg ∧ mqOn.mqEn = true ∧ getField 3 31 1 = 0 ∧ mqOn.mqBusy = false) ∧
    (st2.takesWrite Requester.host R.mqCfg ∧ st2.mqEn = true ∧ getField 19 31 1 = 0 ∧ st2.mqBusy = true) ∧
    (st1.takesWrite Requester.host R.mqDoorbell ∧ (st1.mqEn = false ∨ st1.mqMode = 0 ∨ st1.mqMode = 2)) := by decide +kernel

theorem witness_ManagementQueue_2 :
    (mqOn.takesWrite Requester.host R.mqDoorbell ∧ mqOn.mqEn = true ∧ (mqOn.mqMode = 1 ∨ mqOn.mqMode = 3) ∧
    getField 3 0 16 < mqOn.mqPackets ∧ (getField 3 0 16 + mqOn.mqPackets - mqOn.mq.tail) % mqOn.mqPackets < (mqOn.mqHead +
    2 * mqOn.mqPackets - mqOn.mq.tail - 1) % mqOn.mqPackets + 1) ∧
    (st4.takesWrite Requester.host R.mqDoorbell ∧ st4.mqEn = true ∧ st4.mqMode = 3 ∧
    (st4.mqPackets ≤ getField 19 0 16 ∨ (st4.mqHead + 2 * st4.mqPackets - st4.mq.tail - 1) % st4.mqPackets + 1 ≤ (getField
    19 0 16 + st4.mqPackets - st4.mq.tail) % st4.mqPackets)) ∧
    (st2.takesWrite Requester.host R.mqDoorbell ∧ st2.mqEn = true ∧ st2.mqMode = 1 ∧
    (st2.mqPackets ≤ getField 19 0 16 ∨ (st2.mqHead + 2 * st2.mqPackets - st2.mq.tail - 1) % st2.mqPackets + 1 ≤ (getField
    19 0 16 + st2.mqPackets - st2.mq.tail) % st2.mqPackets)) := by decide +kernel

theorem witness_ManagementQueue_3 :
    (mqOn.takesWrite Requester.host R.mqCqHead ∧ getField 3 0 16 < mqOn.mqReplies) ∧
    (st1.takesWrite Requester.host R.mqCqHead ∧ st1.mqReplies ≤ getField 2147483906 0 16) ∧
    (st5.mqReads = true ∧ st5.mqHead ≠ st5.mq.tail ∧ (st5.mq.readFirst = none ∨ st5.mq.outstanding = true) ∧
    st5.memVerdict 0 Acc.read (st5.reg64 R.mqSqBaseLo + 64 * st5.mqHead) 64 MemCond.good = none ∧
    natBit (byteAt (st5.seenMem (st5.reg64 R.mqSqBaseLo + 64 * st5.mqHead) 64) 1) 7 = st5.bit R.mqSqHead 31 ∧
    129 ≤ pkOpcode (st5.seenMem (st5.reg64 R.mqSqBaseLo + 64 * st5.mqHead) 64) ∧
    pkOpcode (st5.seenMem (st5.reg64 R.mqSqBaseLo + 64 * st5.mqHead) 64) ≤ 143) := by decide +kernel

theorem witness_ManagementQueue_4 :
    (st5.mqReads = true ∧ st5.mqHead ≠ st5.mq.tail ∧ (st5.mq.readFirst = none ∨ st5.mq.outstanding = true) ∧
    st5.memVerdict 0 Acc.read (st5.reg64 R.mqSqBaseLo + 64 * st5.mqHead) 64 MemCond.good = none ∧
    natBit (byteAt (st5.seenMem (st5.reg64 R.mqSqBaseLo + 64 * st5.mqHead) 64) 1) 7 = st5.bit R.mqSqHead 31 ∧
    packetCheck (st5.seenMem (st5.reg64 R.mqSqBaseLo + 64 * st5.mqHead) 64) = none) ∧
    (st6.mqReads = true ∧ st6.mqHead ≠ st6.mq.tail ∧ (st6.mq.readFirst = none ∨ st6.mq.outstanding = true) ∧
    st6.memVerdict 0 Acc.read (st6.reg64 R.mqSqBaseLo + 64 * st6.mqHead) 64 MemCond.good = none ∧
    natBit (byteAt (st6.seenMem (st6.reg64 R.mqSqBaseLo + 64 * st6.mqHead) 64) 1) 7 = st6.bit R.mqSqHead 31 ∧
    packetCheck (st6.seenMem (st6.reg64 R.mqSqBaseLo + 64 * st6.mqHead) 64) = some 4102) := by decide +kernel

theorem witness_ManagementQueue_5 :
    (st8.mqReads = true ∧ st8.mqHead ≠ st8.mq.tail ∧ (st8.mq.readFirst = none ∨ st8.mq.outstanding = true) ∧
    st8.memVerdict 0 Acc.read (st8.reg64 R.mqSqBaseLo + 64 * st8.mqHead) 64 MemCond.good = none ∧
    natBit (byteAt (st8.seenMem (st8.reg64 R.mqSqBaseLo + 64 * st8.mqHead) 64) 1) 7 ≠ st8.bit R.mqSqHead 31) ∧
    (st5.mqReads = true ∧ st5.mqHead ≠ st5.mq.tail ∧ (st5.mq.readFirst = none ∨ st5.mq.outstanding = true) ∧
    st5.memVerdict 0 Acc.read (st5.reg64 R.mqSqBaseLo + 64 * st5.mqHead) 64 MemCond.uncorrectable = some 16385) ∧
    (st9.mq.readFirst = some 1800 ∧ st9.mqReads = true ∧ st9.mq.outstanding = false ∧ st9.mq.readLast + 64 ≤ st9.cycle) ∧
    (st10.mq.readFirst = some 1801 ∧ (st10.mq.outstanding = true ∨ st10.cycle < st10.mq.readLast + 64)) := by decide +kernel

theorem witness_ManagementQueue_6 :
    (st9.mq.readFirst = some 1800 ∧ st9.mqMode = 1 ∧ 1800 + 3200 ≤ st9.cycle) ∧
    (st10.mq.readFirst = some 1801 ∧ st10.cycle < 1801 + 3200) ∧
    (st15.mq.replies = r_13 :: l_14 ∧ st15.mqEn = true ∧ st15.mqMode ≠ 2 ∧
    (st15.mqCqTail + 1) % st15.mqReplies = st15.fld R.mqCqHead 0 16) ∧
    (st12.mq.replies = r_13 :: l_14 ∧ st12.mqEn = true ∧ st12.mqMode ≠ 2 ∧
    (st12.mqCqTail + 1) % st12.mqReplies ≠ st12.fld R.mqCqHead 0 16) ∧
    ((st1.mq.replies = [] ∨ st1.mqEn = false ∨ st1.mqMode = 2)) := by decide +kernel

theorem witness_QueueCommands_1 :
    (st24.cpRuns = true ∧ st24.mq.cur = some p_25 ∧ pkOpcode p_25.bytes = 129 ∧
    st24.numberEnabled (pkBits p_25.bytes 8 0 1) (pkNumber p_25.bytes) = true) ∧
    (st26.cpRuns = true ∧ st26.mq.cur = some p_20 ∧ pkOpcode p_20.bytes = 129 ∧
    st26.numberEnabled (pkBits p_20.bytes 8 0 1) (pkNumber p_20.bytes) = false ∧
    st26.bit (R.ctxMap (uintAt p_20.bytes 12 2 % 4096)) 31 = false) ∧
    (st27.cpRuns = true ∧ st27.mq.cur = some p_28 ∧ pkOpcode p_28.bytes = 129 ∧
    st27.numberEnabled (pkBits p_28.bytes 8 0 1) (pkNumber p_28.bytes) = false ∧
    st27.bit (R.ctxMap (uintAt p_28.bytes 12 2 % 4096)) 31 = true ∧
    st27.ringList p_28.bytes RingXlate.error = Except.error st_53) := by decide +kernel

theorem witness_QueueCommands_2 :
    (st19.cpRuns = true ∧ st19.mq.cur = some p_20 ∧ pkOpcode p_20.bytes = 129 ∧
    st19.numberEnabled (pkBits p_20.bytes 8 0 1) (pkNumber p_20.bytes) = false ∧
    st19.bit (R.ctxMap (uintAt p_20.bytes 12 2 % 4096)) 31 = true ∧
    st19.ringList p_20.bytes RingXlate.error = Except.ok rs_21 ∧ pkBits p_20.bytes 8 0 1 = 0) ∧
    (st22.cpRuns = true ∧ st22.mq.cur = some p_23 ∧ pkOpcode p_23.bytes = 129 ∧
    st22.numberEnabled (pkBits p_23.bytes 8 0 1) (pkNumber p_23.bytes) = false ∧
    st22.bit (R.ctxMap (uintAt p_23.bytes 12 2 % 4096)) 31 = true ∧
    st22.ringList p_23.bytes RingXlate.error = Except.ok rs_21 ∧ pkBits p_23.bytes 8 0 1 = 1) ∧
    (st37.cpRuns = true ∧ st37.mq.cur = some p_38 ∧ pkOpcode p_38.bytes = 130 ∧
    st37.mayDestroy (pkBits p_38.bytes 8 0 1) (pkNumber p_38.bytes) = false) := by decide +kernel

theorem witness_QueueCommands_3 :
    (st33.cpRuns = true ∧ st33.mq.cur = some p_34 ∧ pkOpcode p_34.bytes = 130 ∧
    st33.mayDestroy (pkBits p_34.bytes 8 0 1) (pkNumber p_34.bytes) = true ∧ pkBits p_34.bytes 8 0 1 = 0) ∧
    (st35.cpRuns = true ∧ st35.mq.cur = some p_36 ∧ pkOpcode p_36.bytes = 130 ∧
    st35.mayDestroy (pkBits p_36.bytes 8 0 1) (pkNumber p_36.bytes) = true ∧ pkBits p_36.bytes 8 0 1 = 1) ∧
    (st45.cpRuns = true ∧ st45.mq.cur = some p_46 ∧ pkOpcode p_46.bytes = 131 ∧ pkNumber p_46.bytes < 1024 ∧
    pkBits p_46.bytes 8 0 2 ≠ 2 ∧ st45.bit (R.sqCfg (pkNumber p_46.bytes)) 31 = false) := by decide +kernel

theorem witness_QueueCommands_4 :
    (st41.cpRuns = true ∧ st41.mq.cur = some p_42 ∧ pkOpcode p_42.bytes = 131 ∧ pkNumber p_42.bytes < 1024 ∧
    (pkBits p_42.bytes 8 0 2 = 2 ∨ st41.bit (R.sqCfg (pkNumber p_42.bytes)) 31 = true) ∧ pkBits p_42.bytes 8 0 2 = 1 ∧
    (st41.sqMode (pkNumber p_42.bytes) = 1 ∨ st41.sqMode (pkNumber p_42.bytes) = 2)) ∧
    (st47.cpRuns = true ∧ st47.mq.abort = some arun ∧ (∀ r ∈ arun.tasks, ∀ (y : Machine.Task),
    st47.task r = some y → st47.waitsRoom y = true) ∧ arun.packet.bytes ≠ []) ∧
    (st50.cpRuns = true ∧ st50.mq.cur = some p_48 ∧ pkOpcode p_48.bytes = 135 ∧
    (({ st50 with mq := { st50.mq with cur := none } } : State).opInProgress 135 = true ∨ BitVec.ofNat 32 (uintAt
    p_48.bytes 8 4) = st50.epochNow)) := by decide +kernel

theorem witness_QueueCommands_5 :
    (st52.cpRuns = true ∧ st52.mq.cur = some p_48 ∧ pkOpcode p_48.bytes = 135 ∧
    ({ st52 with mq := { st52.mq with cur := none } } : State).opInProgress 135 = false ∧
    BitVec.ofNat 32 (uintAt p_48.bytes 8 4) ≠ st52.epochNow) ∧
    (st54.cpRuns = true ∧ st54.mq.cur = some p_55 ∧ pkOpcode p_55.bytes = 143 ∧ pkBits p_55.bytes 10 0 1 = 0) ∧
    (st56.cpRuns = true ∧ st56.mq.cur = some p_57 ∧ pkOpcode p_57.bytes = 143 ∧ pkBits p_57.bytes 10 0 1 = 1) ∧
    (st58.cpRuns = true ∧ st58.mq.cur = some p_59 ∧ pkOpcode p_59.bytes = 136 ∧
    pkBits p_59.bytes 8 0 3 = powerNumber st58.power) ∧
    (st62.cpRuns = true ∧ st62.mq.cur = some p_63 ∧ pkOpcode p_63.bytes = 136 ∧
    pkBits p_63.bytes 8 0 3 ≠ powerNumber st62.power ∧ 2 ≤ pkBits p_63.bytes 8 0 3 ∧
    st62.mayLower = false) := by decide +kernel

theorem witness_QueueCommands_6 :
    (st60.cpRuns = true ∧ st60.mq.cur = some p_61 ∧ pkOpcode p_61.bytes = 136 ∧
    pkBits p_61.bytes 8 0 3 ≠ powerNumber st60.power ∧
    (pkBits p_61.bytes 8 0 3 < 2 ∨ st60.mayLower = true)) := by decide +kernel

def st49 : State := sAb { tA with phase := .finished } { tB with phase := .recordIssued }

theorem witness_QueueCommands_abortWaits :
    st49.cpRuns = true ∧ st49.mq.abort = some arun ∧ refB ∈ arun.tasks ∧
    (st49.task refB).map (fun y => st49.waitsRoom y) = some false := by decide +kernel

end Management

namespace Service

def pk (op : Nat) (l : List (Nat × Nat × Nat)) : List Byte := entryOf op 1 true ((4,4,0x1234) :: l)
def mqOn : State := withRegs [(R.mqCfg, 0x80000000), (R.mqState, 0x40000000), (R.mqSqHead, 0x80000000), (R.mqCqTail,
  0x80000000), (R.mqSqBaseLo, 0x10000), (R.mqCqBaseLo, 0x20000), (R.mqIrq, 0x80000005), (R.ctxMap 5, 0x80000000)] sQ
def rp (op : Byte) : Reply := ⟨0x77, 0, op, true, 3, [1,2,3], []⟩
def cur (b : List Byte) : State := { mqOn with mq := { MqRun.empty with cur := some ⟨b, 9⟩, replies := [rp 0x86] } }
def wm (s : State) (a : Nat) (b : List Byte) : State := { s.writeMem a b with now := s.now }
def pp (b : List Byte) : Packet := ⟨b, 9⟩
def img : List Byte := bytesOf 144 [(0,1,1),(8,1,0x11),(136,4,3192728088)]
def memImg : SMap Byte := [(0x30000, 1), (0x30008, 0x11), (0x30088, 0x18), (0x30089, 0x2A), (0x3008A, 0x4D), (0x3008B,
  0xBE)]
def tl (g : Nat) : List Byte := pk 0x84 [(8,1,1),(10,2,g),(16,8,0x30000)]
def p_1 := pp (tl 7)
def st2 : State := { cur (tl 7) with mem := memImg }
def st3 : State := cur (tl 7)
def st6 : State := { mqOn with mq := { MqRun.empty with load := some ⟨pp (tl 7), 1, 7, imageLens img⟩ } }
def l_7 := (⟨pp (tl 7), 1, 7, imageLens img⟩ : LoadRun)
def wo (lo hi : Nat) : List Byte := pk 0x85 [(8,1,3),(9,1,3),(10,2,5),(16,8,lo),(24,8,hi)]
def p_8 := pp (wo 0x4000 0x5000)
def st9 : State := cur (wo 0x4000 0x5000)
def st10 : State := withRegs [(R.ctxMap 5, 0)] (cur (wo 0x4000 0x5000))
def st11 : State := withRegs [(R.winCtl 3, 0x80000000)] (cur (wo 0x4000 0x5000))
def er (k n f : Nat) : List Byte := pk 0x89 [(8,1,k),(9,1,n),(10,1,f)]
def st14 : State := cur (er 0 3 0)
def p_15 := pp (er 0 3 0)
def st16 : State := cur (er 0 67 0)
def p_17 := pp (er 0 67 0)
def bad1 : SpdResult :=
  { answered := true, crcOk := false, typeOk := true, capacityOk := true, rateOk := true, serial := 77, image := [] }
def rr (k n : Nat) : RetireRun := ⟨pp (er k n 0), k, n, false, none, none, 5, false⟩
def sR (k n : Nat) : State := { mqOn with mq := { MqRun.empty with retire := some (rr k n) } }
def st22 : State := sR 0 3
def tsk23 := rr 0 3
def ev (lm dst c : Nat) : List Byte := pk 0x8A [(8,1,lm),(9,1,dst),(10,1,c)]
def spd : SpdResult := ⟨true, true, true, true, true, 77, []⟩
def ss : State → State := withRegs [(R.tbSiteMap, 0x76543210), (R.tbSiteStatus 2, 0x20000000), (R.tbSiteStatus 8,
  0x40000000)]
def st26 : State := ss (cur (ev 2 8 0))
def p_27 := pp (ev 2 8 0)
def st28 : State := ss (cur (ev 2 3 0))
def p_29 := pp (ev 2 3 0)
def st30 : State := ss (cur (ev 2 8 1))
def p_31 := pp (ev 2 8 1)
def evr : EvacRun := ⟨2, 2, 8, 100⟩
def st32 : State := ({ ss (cur (ev 2 8 1)) with evac := some evr, mq := { MqRun.empty with cur := some (pp (ev 2 8 1)), evac := some (pp (ev 2 8 0)) } } : State)
def ir (w i len : Nat) : List Byte := pk 0x8B [(8,1,w),(9,1,i),(16,8,0x50000),(24,4,len)]
def st33 : State := cur (ir 0 0 4096)
def p_34 := pp (ir 0 0 4096)
def st35 : State := cur (ir 3 0 4096)
def p_36 := pp (ir 3 0 4096)
def st37 : State := cur (ir 3 0 8)
def p_38 := pp (ir 3 0 8)
def ts (c len : Nat) : List Byte := pk 0x8E [(8,1,c),(16,8,0x50000),(24,4,len)]
def st39 : State := cur (ts 1 65536)
def p_40 := pp (ts 1 65536)
def st41 : State := cur (ts 0 65536)
def p_42 := pp (ts 0 65536)
def st43 : State := cur (ts 0 16)
def p_44 := pp (ts 0 16)
def fwImg : List Byte := bytesOf 64 [(8,4,55)]
def fs (i n crc : Nat) : List Byte := pk 0x8C [(8,1,i),(16,8,0x50000),(24,4,n),(28,4,crc)]
def okc : Nat := (crc32c fwImg).toNat
def st45 : State := wm (cur (fs 1 64 okc)) 0x50000 fwImg
def p_46 := pp (fs 1 64 okc)
def st47 : State := wm (cur (fs 0 64 okc)) 0x50000 fwImg
def p_48 := pp (fs 0 64 okc)
def st49 : State := ({ mqOn with mq := { MqRun.empty with stage := some ⟨pp (fs 1 64 0), 1, 55⟩ } } : State)
def tsk50 := (⟨pp (fs 1 64 0), 1, 55⟩ : StageRun)
def fx (i per : Nat) : List Byte := pk 0x8D [(8,1,i),(9,1,per)]
def st51 : State := withRegs [(versionReg true, 9), (R.sqState 3, 0)] (cur (fx 1 1))
def p_52 := pp (fx 1 1)
def st54 : State := withRegs [(versionReg true, 0)] (cur (fx 1 1))
def sw (a per : Nat) : SwitchRun := ⟨pp (fx 1 per), 1, decide (per = 1), a⟩
def st55 : State := ({ withRegs [(versionReg true, 9)] mqOn with cycle := 160000010, mq := { MqRun.empty with switch := some (sw 10 1) } } : State)
def tsk56 := sw 10 1
def st57 : State := ({ withRegs [(versionReg true, 9)] mqOn with cycle := 160000009, mq := { MqRun.empty with switch := some (sw 10 0) } } : State)
def tsk58 := sw 10 0
def tC : Task := { newTask ⟨3, 4, 0⟩ (entryOf 1 5 true [(8,1,2),(272,1,0x40),(273,1,1),(274,1,1)]) 1 2 with phase := .running }
def st59 : State := { cur (tl 7) with mem := memImg, tasks := [tC] }
def st60 : State := { cur (er 0 3 0) with mq := { (cur (er 0 3 0)).mq with retire := some (rr 0 5) } }
def rrT : RetireRun := { rr 0 3 with task := some ⟨3, 4, 0⟩ }
def st61 : State := { sR 0 3 with tasks := [tC], mq := { MqRun.empty with retire := some rrT } }
def st62 : State := withRegs [(versionReg false, 9), (R.sqState 3, 0)] (cur (fx 0 1))
def p_63 := pp (fx 0 1)
def p_64 := pp (wo 0xEFFFFFFF000 0xF0000000000)
def st65 : State := cur (wo 0xEFFFFFFF000 0xF0000000000)
def tlB (g : Nat) : List Byte := pk 0x84 [(8,1,1),(10,2,g),(16,8,0x40000000000)]
def p_66 := pp (tlB 7)
def st67 : State := withRegs [(R.pwStatus, 0x80000000)] (cur (tlB 7))
def tEng : Task := { tC with engine := some 3 }
def refE : TaskRef := ⟨3, 4, 0⟩
def st68 : State := { cur (er 0 3 1) with tasks := [tEng] }
def p_69 := pp (er 0 3 1)
def st70 : State := { cur (fx 1 1) with mq := { MqRun.empty with cur := some (pp (fx 1 1)), switch := some (sw 10 1) } }

/-- The CRC-32C of a table image is that of its parts in turn. -/
theorem crcBytes_append {w : Nat} (p : BitVec w) (a b : List Byte) (c : BitVec w) :
    crcBytes p (a ++ b) c = crcBytes p b (crcBytes p a c) := by
  induction a generalizing c with
  | nil => rfl
  | cons x t h => exact h _

/-- A part of the image. -/
def imgPart (k : Nat) : List Byte := (img.drop (17 * k)).take 17

theorem img_crc_0 : crcBytes 0x82F63B78#32 (imgPart 0) 4294967295#32 = 4223911390#32 := by decide +kernel
theorem img_crc_1 : crcBytes 0x82F63B78#32 (imgPart 1) 4223911390#32 = 2762990724#32 := by decide +kernel
theorem img_crc_2 : crcBytes 0x82F63B78#32 (imgPart 2) 2762990724#32 = 2309914056#32 := by decide +kernel
theorem img_crc_3 : crcBytes 0x82F63B78#32 (imgPart 3) 2309914056#32 = 208616464#32 := by decide +kernel
theorem img_crc_4 : crcBytes 0x82F63B78#32 (imgPart 4) 208616464#32 = 947200603#32 := by decide +kernel
theorem img_crc_5 : crcBytes 0x82F63B78#32 (imgPart 5) 947200603#32 = 280031456#32 := by decide +kernel
theorem img_crc_6 : crcBytes 0x82F63B78#32 (imgPart 6) 280031456#32 = 484212458#32 := by decide +kernel
theorem img_crc_7 : crcBytes 0x82F63B78#32 (imgPart 7) 484212458#32 = 1102239207#32 := by decide +kernel

theorem img_parts : img.take 136 = imgPart 0 ++ (imgPart 1 ++ (imgPart 2 ++ (imgPart 3 ++ (imgPart 4 ++ (imgPart 5 ++
    (imgPart 6 ++ imgPart 7)))))) := by decide +kernel

theorem img_crc : crc32c (img.take 136) = 3192728088#32 := by
  rw [img_parts, crc32c]
  simp only [crcBytes_append, img_crc_0, img_crc_1, img_crc_2, img_crc_3, img_crc_4, img_crc_5, img_crc_6, img_crc_7]
  rfl

theorem img_valid : imageValid img = true := by
  rw [imageValid, img_crc]
  decide +kernel

theorem witness_TablesAndWindows_1 :
    (st59.cpRuns = true ∧ st59.mq.cur = some p_1 ∧ pkOpcode p_1.bytes = 132 ∧
    st59.tierBWaits (pkBuffer p_1.bytes) = false ∧ st59.slotRefs (pkBits p_1.bytes 8 0 2) ≠ 0) ∧
    (st2.cpRuns = true ∧ st2.mq.cur = some p_1 ∧ pkOpcode p_1.bytes = 132 ∧ st2.tierBWaits (pkBuffer p_1.bytes) = false ∧
    st2.slotRefs (pkBits p_1.bytes 8 0 2) = 0 ∧
    st2.memVerdict 0 Acc.read (pkBuffer p_1.bytes) 144 MemCond.uncorrectable = some 16385) ∧
    (st3.cpRuns = true ∧ st3.mq.cur = some p_1 ∧ pkOpcode p_1.bytes = 132 ∧ st3.tierBWaits (pkBuffer p_1.bytes) = false ∧
    st3.slotRefs (pkBits p_1.bytes 8 0 2) = 0 ∧ st3.memVerdict 0 Acc.read (pkBuffer p_1.bytes) 144 MemCond.good = none ∧
    (uintAt p_1.bytes 10 2 = 0 ∨ imageValid (st3.seenMem (pkBuffer p_1.bytes) 144) = false)) := by decide +kernel

theorem witness_TablesAndWindows_2 :
    (st2.cpRuns = true ∧ st2.mq.cur = some p_1 ∧ pkOpcode p_1.bytes = 132 ∧ st2.tierBWaits (pkBuffer p_1.bytes) = false ∧
    st2.slotRefs (pkBits p_1.bytes 8 0 2) = 0 ∧ st2.memVerdict 0 Acc.read (pkBuffer p_1.bytes) 144 MemCond.good = none ∧
    uintAt p_1.bytes 10 2 ≠ 0 ∧ st2.seenMem (pkBuffer p_1.bytes) 144 = img) ∧
    (st67.cpRuns = true ∧ st67.mq.cur = some p_66 ∧ st67.tierBWaits (pkBuffer p_66.bytes) = true) ∧
    (st6.cpRuns = true ∧ st6.mq.load = some l_7 ∧ l_7.packet.bytes ≠ [] ∧ l_7.gen < 65536) ∧
    (st11.cpRuns = true ∧ st11.mq.cur = some p_8 ∧ pkOpcode p_8.bytes = 133 ∧
    st11.bit (R.winCtl (pkBits p_8.bytes 8 0 6)) 31 = true) := by decide +kernel

theorem witness_TablesAndWindows_3 :
    (st65.cpRuns = true ∧ st65.mq.cur = some p_64 ∧ pkOpcode p_64.bytes = 133 ∧
    st65.bit (R.winCtl (pkBits p_64.bytes 8 0 6)) 31 = false ∧
    (isForbidden (regionOf (uintAt p_64.bytes 16 8)) = true ∨ isForbidden (regionOf (uintAt p_64.bytes 24 8 + 4095)) =
    true)) ∧
    (st10.cpRuns = true ∧ st10.mq.cur = some p_8 ∧ pkOpcode p_8.bytes = 133 ∧
    st10.bit (R.winCtl (pkBits p_8.bytes 8 0 6)) 31 = false ∧
    (¬(isForbidden (regionOf (uintAt p_8.bytes 16 8)) = true ∨ isForbidden (regionOf (uintAt p_8.bytes 24 8 + 4095)) =
    true)) ∧ st10.bit (R.ctxMap (uintAt p_8.bytes 10 2 % 4096)) 31 = false) := by decide +kernel

theorem witness_TablesAndWindows_4 :
    (st9.cpRuns = true ∧ st9.mq.cur = some p_8 ∧ pkOpcode p_8.bytes = 133 ∧
    st9.bit (R.winCtl (pkBits p_8.bytes 8 0 6)) 31 = false ∧
    (¬(isForbidden (regionOf (uintAt p_8.bytes 16 8)) = true ∨ isForbidden (regionOf (uintAt p_8.bytes 24 8 + 4095)) =
    true)) ∧ st9.bit (R.ctxMap (uintAt p_8.bytes 10 2 % 4096)) 31 = true) := by decide +kernel

theorem witness_ServiceCommands_1 :
    (st60.cpRuns = true ∧ st60.mq.cur = some p_15 ∧ pkOpcode p_15.bytes = 137 ∧
    (st60.mq.retire.isSome = true ∨ ({ st60 with mq := { st60.mq with cur := none } } : State).opInProgress 137 = true ∨
    st60.isRetired (pkBits p_15.bytes 8 0 2) (byteAt p_15.bytes 9) = true)) ∧
    (st16.cpRuns = true ∧ st16.mq.cur = some p_17 ∧ pkOpcode p_17.bytes = 137 ∧ st16.mq.retire = none ∧
    ({ st16 with mq := { st16.mq with cur := none } } : State).opInProgress 137 = false ∧
    st16.isRetired (pkBits p_17.bytes 8 0 2) (byteAt p_17.bytes 9) = false ∧
    st16.isActive (pkBits p_17.bytes 8 0 2) (byteAt p_17.bytes 9) = false ∧
    pkBits p_17.bytes 10 1 1 = 0) := by decide +kernel

theorem witness_ServiceCommands_2 :
    (st68.cpRuns = true ∧ st68.mq.cur = some p_69 ∧ pkOpcode p_69.bytes = 137 ∧ st68.mq.retire = none ∧
    ({ st68 with mq := { st68.mq with cur := none } } : State).opInProgress 137 = false ∧
    st68.isRetired (pkBits p_69.bytes 8 0 2) (byteAt p_69.bytes 9) = false ∧
    st68.isActive (pkBits p_69.bytes 8 0 2) (byteAt p_69.bytes 9) = true ∧ pkBits p_69.bytes 10 0 1 = 1 ∧
    st68.taskOn (pkBits p_69.bytes 8 0 2) (byteAt p_69.bytes 9) = some refE ∧ st68.task refE = some tEng ∧
    st68.abortable tEng = true ∧ tEng.phase = Phase.running) := by decide +kernel

theorem witness_ServiceCommands_3 :
    (st14.cpRuns = true ∧ st14.mq.cur = some p_15 ∧ pkOpcode p_15.bytes = 137 ∧ st14.mq.retire = none ∧
    ({ st14 with mq := { st14.mq with cur := none } } : State).opInProgress 137 = false ∧
    st14.isRetired (pkBits p_15.bytes 8 0 2) (byteAt p_15.bytes 9) = false ∧
    st14.isActive (pkBits p_15.bytes 8 0 2) (byteAt p_15.bytes 9) = true ∧ pkBits p_15.bytes 10 0 1 = 0) ∧
    (st61.cpRuns = true ∧ st61.mq.retire = some rrT ∧ rrT.drained = false ∧ st61.lacksRecord rrT.task = true) ∧
    (st22.cpRuns = true ∧ st22.mq.retire = some tsk23 ∧ tsk23.drained = false ∧ st22.lacksRecord tsk23.task = false ∧
    st22.spareOf tsk23.kind = some 64 ∧ st22.isActive tsk23.kind tsk23.unit = true ∧ tsk23.persist = false ∧
    tsk23.packet.bytes ≠ []) := by decide +kernel

theorem witness_ServiceCommands_4 :
    (st28.cpRuns = true ∧ st28.mq.cur = some p_29 ∧ pkOpcode p_29.bytes = 138 ∧ pkBits p_29.bytes 10 0 1 = 0 ∧
    (({ st28 with mq := { st28.mq with cur := none } } : State).opInProgress 138 = true ∨ st28.evac.isSome = true ∨
    st28.siteOf (pkBits p_29.bytes 8 0 3) = 15 ∨ st28.siteState (st28.siteOf (pkBits p_29.bytes 8 0 3)) ≠ 1 ∨
    st28.siteState (pkBits p_29.bytes 9 0 4) ≠ 2)) ∧
    (st26.cpRuns = true ∧ st26.mq.cur = some p_27 ∧ pkOpcode p_27.bytes = 138 ∧ pkBits p_27.bytes 10 0 1 = 0 ∧
    ({ st26 with mq := { st26.mq with cur := none } } : State).opInProgress 138 = false ∧ st26.evac = none ∧
    st26.siteOf (pkBits p_27.bytes 8 0 3) < 9 ∧ pkBits p_27.bytes 9 0 4 < 9 ∧
    st26.siteState (st26.siteOf (pkBits p_27.bytes 8 0 3)) = 1 ∧ st26.siteState (pkBits p_27.bytes 9 0 4) = 2 ∧
    targetCheck bad1 true ≠ 0) := by decide +kernel

theorem witness_ServiceCommands_5 :
    (st26.cpRuns = true ∧ st26.mq.cur = some p_27 ∧ pkOpcode p_27.bytes = 138 ∧ pkBits p_27.bytes 10 0 1 = 0 ∧
    ({ st26 with mq := { st26.mq with cur := none } } : State).opInProgress 138 = false ∧ st26.evac = none ∧
    st26.siteOf (pkBits p_27.bytes 8 0 3) < 9 ∧ pkBits p_27.bytes 9 0 4 < 9 ∧
    st26.siteState (st26.siteOf (pkBits p_27.bytes 8 0 3)) = 1 ∧ st26.siteState (pkBits p_27.bytes 9 0 4) = 2 ∧
    targetCheck spd true = 0) ∧
    (st30.cpRuns = true ∧ st30.mq.cur = some p_31 ∧ pkOpcode p_31.bytes = 138 ∧ pkBits p_31.bytes 10 0 1 = 1 ∧
    st30.evac = none) ∧
    (st32.cpRuns = true ∧ st32.mq.cur = some p_31 ∧ pkOpcode p_31.bytes = 138 ∧ pkBits p_31.bytes 10 0 1 = 1 ∧
    st32.evac = some evr ∧ evr.source < 9 ∧ evr.target < 9 ∧ evr.source ≠ evr.target ∧ st32.mq.evac = some p_27 ∧
    p_27.bytes ≠ []) := by decide +kernel

theorem witness_ServiceCommands_6 :
    (st33.cpRuns = true ∧ st33.mq.cur = some p_34 ∧ st33.tierBWaits (pkBuffer p_34.bytes) = false ∧
    pkOpcode p_34.bytes = 139 ∧ ((st33.identity (byteAt p_34.bytes 8) (byteAt p_34.bytes 9)).length ≤ pkLen p_34.bytes ∧
    st33.memVerdict 0 Acc.write (pkBuffer p_34.bytes) (st33.identity (byteAt p_34.bytes 8) (byteAt p_34.bytes 9)).length
    (writeCond (pkBuffer p_34.bytes) (st33.identity (byteAt p_34.bytes 8) (byteAt p_34.bytes 9)).length MemCond.good) =
    none)) := by decide +kernel

theorem witness_ServiceCommands_7 :
    (st35.cpRuns = true ∧ st35.mq.cur = some p_36 ∧ st35.tierBWaits (pkBuffer p_36.bytes) = false ∧
    pkOpcode p_36.bytes = 139 ∧ (st35.identity (byteAt p_36.bytes 8) (byteAt p_36.bytes 9)).length ≤ pkLen p_36.bytes ∧
    st35.memVerdict 0 Acc.write (pkBuffer p_36.bytes) (st35.identity (byteAt p_36.bytes 8) (byteAt p_36.bytes 9)).length
    (writeCond (pkBuffer p_36.bytes) (st35.identity (byteAt p_36.bytes 8) (byteAt p_36.bytes 9)).length
    MemCond.uncorrectable) = some 16385) ∧
    (st37.cpRuns = true ∧ st37.mq.cur = some p_38 ∧ st37.tierBWaits (pkBuffer p_38.bytes) = false ∧
    pkOpcode p_38.bytes = 139 ∧ pkLen p_38.bytes < (st37.identity (byteAt p_38.bytes 8) (byteAt p_38.bytes 9)).length) :=
    by decide +kernel

theorem witness_ServiceCommands_8 :
    (st39.cpRuns = true ∧ st39.mq.cur = some p_40 ∧ st39.tierBWaits (pkBuffer p_40.bytes) = false ∧
    pkOpcode p_40.bytes = 142 ∧ (st39.snapshot.length ≤ pkLen p_40.bytes ∧
    st39.memVerdict 0 Acc.write (pkBuffer p_40.bytes) st39.snapshot.length (writeCond (pkBuffer p_40.bytes)
    st39.snapshot.length MemCond.good) = none) ∧ pkBits p_40.bytes 8 0 1 = 1 ∧ MemCond.good ≠ MemCond.corrected) ∧
    (st41.cpRuns = true ∧ st41.mq.cur = some p_42 ∧ st41.tierBWaits (pkBuffer p_42.bytes) = false ∧
    pkOpcode p_42.bytes = 142 ∧ (st41.snapshot.length ≤ pkLen p_42.bytes ∧
    st41.memVerdict 0 Acc.write (pkBuffer p_42.bytes) st41.snapshot.length (writeCond (pkBuffer p_42.bytes)
    st41.snapshot.length MemCond.good) = none) ∧ pkBits p_42.bytes 8 0 1 = 0) := by decide +kernel

theorem witness_ServiceCommands_9 :
    (st43.cpRuns = true ∧ st43.mq.cur = some p_44 ∧ st43.tierBWaits (pkBuffer p_44.bytes) = false ∧
    pkOpcode p_44.bytes = 142 ∧ pkLen p_44.bytes < st43.snapshot.length) ∧
    (st47.cpRuns = true ∧ st47.mq.cur = some p_48 ∧ pkOpcode p_48.bytes = 140 ∧
    (({ st47 with mq := { st47.mq with cur := none } } : State).opInProgress 140 = true ∨ decide (pkBits p_48.bytes 8 0 1 =
    1) = st47.runningImage)) ∧
    (st45.cpRuns = true ∧ st45.mq.cur = some p_46 ∧ pkOpcode p_46.bytes = 140 ∧
    ({ st45 with mq := { st45.mq with cur := none } } : State).opInProgress 140 = false ∧
    decide (pkBits p_46.bytes 8 0 1 = 1) ≠ st45.runningImage ∧
    st45.memVerdict 0 Acc.read (pkBuffer p_46.bytes) (pkLen p_46.bytes) MemCond.uncorrectable = some 16385) := by
    decide +kernel

theorem witness_ServiceCommands_10 :
    (st45.cpRuns = true ∧ st45.mq.cur = some p_46 ∧ pkOpcode p_46.bytes = 140 ∧
    ({ st45 with mq := { st45.mq with cur := none } } : State).opInProgress 140 = false ∧
    decide (pkBits p_46.bytes 8 0 1 = 1) ≠ st45.runningImage ∧
    st45.memVerdict 0 Acc.read (pkBuffer p_46.bytes) (pkLen p_46.bytes) MemCond.good = none ∧
    (BitVec.toNat (crc32c (st45.seenMem (pkBuffer p_46.bytes) (pkLen p_46.bytes))) = uintAt p_46.bytes 28 4 ∧
    true = true)) := by decide +kernel

theorem witness_ServiceCommands_11 :
    (st45.cpRuns = true ∧ st45.mq.cur = some p_46 ∧ pkOpcode p_46.bytes = 140 ∧
    ({ st45 with mq := { st45.mq with cur := none } } : State).opInProgress 140 = false ∧
    decide (pkBits p_46.bytes 8 0 1 = 1) ≠ st45.runningImage ∧
    st45.memVerdict 0 Acc.read (pkBuffer p_46.bytes) (pkLen p_46.bytes) MemCond.good = none ∧
    (¬(BitVec.toNat (crc32c (st45.seenMem (pkBuffer p_46.bytes) (pkLen p_46.bytes))) = uintAt p_46.bytes 28 4 ∧
    false = true))) ∧
    (st49.cpRuns = true ∧ st49.mq.stage = some tsk50 ∧ tsk50.packet.bytes ≠ []) ∧
    (st70.cpRuns = true ∧ st70.mq.cur = some p_52 ∧ pkOpcode p_52.bytes = 141 ∧
    ({ st70 with mq := { st70.mq with cur := none } } : State).opInProgress 141 = true) := by decide +kernel

theorem witness_ServiceCommands_12 :
    (st54.cpRuns = true ∧ st54.mq.cur = some p_52 ∧ pkOpcode p_52.bytes = 141 ∧
    ({ st54 with mq := { st54.mq with cur := none } } : State).opInProgress 141 = false ∧
    st54.imageVersion (decide (pkBits p_52.bytes 8 0 1 = 1)) = 0) ∧
    (st62.cpRuns = true ∧ st62.mq.cur = some p_63 ∧ pkOpcode p_63.bytes = 141 ∧
    ({ st62 with mq := { st62.mq with cur := none } } : State).opInProgress 141 = false ∧
    st62.imageVersion (decide (pkBits p_63.bytes 8 0 1 = 1)) ≠ 0 ∧
    (decide (pkBits p_63.bytes 8 0 1 = 1) = st62.runningImage ∨ st62.quiescent = false)) := by decide +kernel

theorem witness_ServiceCommands_13 :
    (st51.cpRuns = true ∧ st51.mq.cur = some p_52 ∧ pkOpcode p_52.bytes = 141 ∧
    ({ st51 with mq := { st51.mq with cur := none } } : State).opInProgress 141 = false ∧
    st51.imageVersion (decide (pkBits p_52.bytes 8 0 1 = 1)) ≠ 0 ∧
    decide (pkBits p_52.bytes 8 0 1 = 1) ≠ st51.runningImage ∧ st51.quiescent = true) ∧
    (st55.cpRuns = true ∧ st55.mq.switch = some tsk56 ∧ tsk56.packet.bytes ≠ [] ∧ tsk56.persist = true) ∧
    (st57.cpRuns = true ∧ st57.mq.switch = some tsk58 ∧ tsk58.packet.bytes ≠ [] ∧ tsk58.persist = false) ∧
    (st55.cpRuns = true ∧ st55.mq.switch = some tsk56 ∧ tsk56.packet.bytes ≠ [] ∧ tsk56.at_ + 160000000 ≤ st55.cycle) ∧
    (st57.cpRuns = true ∧ st57.mq.switch = some tsk58 ∧ tsk58.packet.bytes ≠ [] ∧
    st57.cycle < tsk58.at_ + 160000000) := by decide +kernel

end Service

namespace Power

def tsk0 : Task := { newTask ⟨3, 4, 0⟩ (entryOf 1 5 true [(8,1,2)]) 1 2 with phase := .running }
def run0 : State := { sQ with powered := true, power := .active, tasks := [tsk0] }
def lost (n : Nat) : State := { run0 with linkDown := true, linkDownCycles := n }
def st1 : State := lost 16001
def st3 : State := { run0 with power := .off }
def st4 : State := { run0 with restoring := true }
def st5 : State := { withRegs [(R.stStatus, 0xC0000000)] run0 with restoring := true }
def st6 : State := { withRegs [(R.stStatus, 0x80000000)] run0 with restoring := true }
def boot (a b : Bool) (n : StackCheck) : BootResult := ⟨a, b, [0, 0, n, 0, 0, 0, 0, 0], [], []⟩
def start0 : State := { State.reset with startup := .checks, restoring := false, powered := true }
def r_7 := boot true true 0
def r_8 := boot true true 3
def r_9 := boot false false 0
def pads (x : Startup) : State := { withRegs [(R.pwStatus, 0xE0000000)] run0 with startup := x }
def st10 : State := pads .paused
def st12 : State := pads .checks
def st13 : State := { pads .continuing with padAt := 1800 }
def st16 : State := { pads .done with padExit := true, padAt := 1800 }
def st20 : State := { pads .continuing with padAt := 1801 }
def st21 : State := { run0 with power := .retention }
def src_22 := Requester.core 1
def lw0 : LatchedWake := ⟨.doorbell 3, 10, 20⟩
def idle (n : Nat) : State :=
  { withRegs [(R.pwCfg, 0x80000002)] sQ with powered := true, power := .active, idleCycles := n }
def st23 : State := idle 3200
def st25 : State := { idle 0 with entering := some .idleGated, powerAt := 0, cycle := 6400 }
def w_26 := WakeSource.doorbell 3
def st28 : State := { idle 0 with entering := some .off, powerAt := 0, cycle := 3200000 }
def w_29 := WakeSource.hostLink 0
def st30 : State := { idle 0 with entering := some .off, powerAt := 0, cycle := 3200000, latchedWake := some lw0 }
def st31 : State := { idle 0 with entering := some .bankHold, powerAt := 0, cycle := 15999, latchedWake := some lw0 }
def st32 : State := { idle 0 with entering := some .retention, powerAt := 0, cycle := 80000, latchedWake := some lw0 }
def st36 : State := { idle 0 with power := .off }
def st37 : State := { idle 0 with power := .retention, waking := some .retention, cycle := 1920000, powerAt := 0 }
def st38 : State := { idle 0 with power := .idleGated, waking := some .idleGated, cycle := 3199, powerAt := 0 }
def lane (l : List (Nat × Nat)) : State := withRegs l sQ
def p_40 := (31 : Fin 32)
def st41 : State := lane []
def c_42 := Instr.laneRemap .cp 31 0x80000003
def c_44 := Instr.laneRemap .cp 31 0x00000003
def st46 : State := lane [(R.feLaneStatus 31, 0x1), (R.feLaneCtl 31, 0x20000003), (R.mqState, 0x80000000)]
def st47 : State := lane [(R.cpPair, 1)]
def wr : RepairRecord := { RepairRecord.shipment with seq := 7 }
def st48 : State := { sQ with recordWrite := some wr }
def stack_49 := (7 : Fin 8)
def rowE : RowEntry := { kind := 0, unit := 7, state := 0, dev := 31, serial := 0, bank := 63, row := 262143 }
def st50 : State := { sQ with record := { sQ.record with rows := [rowE] } }
def st51 : State := withRegs [(R.mqState, 0x80000000)] sQ
def pkC (op : Nat) (l : List (Nat × Nat × Nat)) : List Byte := entryOf op 1 true ((4,4,0x1234) :: l)
def wcP : Packet := ⟨pkC 0x86 [(8, 1, 3)], 9⟩
def wcS (l : List (Nat × Nat)) : State := { withRegs l sQ with mq := { MqRun.empty with cur := some wcP } }
def st52 : State := wcS [(R.winCtl 3, 0x80000000)]
def st53 : State := wcS []
def closing3 (l : List HeldAccess) : State := { sQ with mq := { MqRun.empty with close := some (wcP, 3) }, padWait := l }
def st54 : State := closing3 []
def st55 : State := closing3 [.remote 9 (.read 0x40000000000 8) .good 3]
def st56 : State := { (withRegs [(R.sqCfg 3, 0xC0000000)] run0).putSq 3 { sqDefault 3 with outstanding := true } with linkDown := false }
def st57 : State := idle 0
def rec1 : RepairRecord := { RepairRecord.shipment with seq := 7 }
def st58 : State := { run0 with recordWrite := some rec1 }
def tskH : Task := { tsk0 with hostLast := some 64 }
def st59 : State := { run0 with tasks := [tskH] }
def st60 : State := { run0 with apLoads := [⟨2, 3, 8, 4, 0, none, []⟩] }
def l_61 := (⟨2, 3, 8, 4, 0, none, []⟩ : ApLoad)
def st62 : State := { sQ with recordWrite := some rec1, recordDirty := true }
def st63 : State := lane [(R.feLaneStatus 31, 1)]

theorem witness_WindowClose :
    (st52.cpRuns = true ∧ st52.mq.cur = some wcP ∧ pkOpcode wcP.bytes = 134 ∧
    st52.bit (R.winCtl (pkBits wcP.bytes 8 0 6)) 31 = true) ∧
    (st53.cpRuns = true ∧ st53.mq.cur = some wcP ∧ pkOpcode wcP.bytes = 134 ∧
    st53.bit (R.winCtl (pkBits wcP.bytes 8 0 6)) 31 = false) ∧
    (st54.cpRuns = true ∧ st54.mq.close = some (wcP, 3) ∧ (∀ a ∈ st54.padWait, waitsBehind 3 a = false) ∧ wcP.bytes ≠ []) ∧
    (st55.cpRuns = true ∧ st55.mq.close = some (wcP, 3) ∧ (∃ a ∈ st55.padWait, waitsBehind 3 a = true)) := by decide +kernel

theorem witness_Resets_1 :
    (st56.recordWrite = none) ∧
    (st58.recordWrite.isSome = true) ∧
    ((Instr.hotReset = Instr.hotReset ∧ 29 = 29 ∨ Instr.hotReset = Instr.functionLevelReset ∧
    29 = 28 ∨ Instr.hotReset = Instr.perstAssert ∧ 29 = 27 ∨ Instr.hotReset = Instr.linkLossTimeout ∧ 29 = 30 ∧
    st56.linkDown = true ∧ 16000 < st56.linkDownCycles ∧ st56.linkDownCycles < lossTaken) ∧ st56.powered = true ∧
    st56.power ≠ PState.off ∧ st56.recordWrite = none) ∧
    ((Instr.hotReset = Instr.hotReset ∧ 29 = 29 ∨ Instr.hotReset = Instr.functionLevelReset ∧
    29 = 28 ∨ Instr.hotReset = Instr.perstAssert ∧ 29 = 27 ∨ Instr.hotReset = Instr.linkLossTimeout ∧ 29 = 30 ∧
    st58.linkDown = true ∧ 16000 < st58.linkDownCycles ∧ st58.linkDownCycles < lossTaken) ∧ st58.powered = true ∧
    st58.power ≠ PState.off ∧ st58.recordWrite.isSome = true) := by decide +kernel

theorem witness_Resets_2 :
    ((Instr.hotReset = Instr.hotReset ∧ 29 = 29 ∨ Instr.hotReset = Instr.functionLevelReset ∧
    29 = 28 ∨ Instr.hotReset = Instr.perstAssert ∧ 29 = 27 ∨ Instr.hotReset = Instr.linkLossTimeout ∧ 29 = 30 ∧
    st56.linkDown = true ∧ 16000 < st56.linkDownCycles ∧ st56.linkDownCycles < lossTaken) ∧ st56.powered = true ∧
    st56.power ≠ PState.off ∧ 3 < 1024) ∧
    ((Instr.hotReset = Instr.hotReset ∧ 29 = 29 ∨ Instr.hotReset = Instr.functionLevelReset ∧
    29 = 28 ∨ Instr.hotReset = Instr.perstAssert ∧ 29 = 27 ∨ Instr.hotReset = Instr.linkLossTimeout ∧ 29 = 30 ∧
    st3.linkDown = true ∧ 16000 < st3.linkDownCycles ∧ st3.linkDownCycles < lossTaken) ∧
    (st3.powered = false ∨ st3.power = PState.off)) ∧
    ((st56.linkDown = false ∨ st56.linkDownCycles ≤ 16000)) := by decide +kernel

theorem witness_Resets_3 :
    (st5.restoring = true ∧ st5.bit R.pwStatus 28 = false ∧ st5.bit R.stStatus 31 = true ∧ st5.bit R.stStatus 30 = true) ∧
    (st6.restoring = true ∧ st6.bit R.pwStatus 28 = false ∧ st6.bit R.stStatus 31 = true ∧ st6.bit R.stStatus 30 = false) ∧
    (st4.restoring = true ∧ st4.bit R.pwStatus 28 = false ∧ st4.bit R.stStatus 31 = false) ∧
    (st56.restoring = false) ∧
    (st60.linkDown = false ∧ l_61 ∈ st60.apLoads) ∧
    (st56.linkDown = false ∧ 3 < 1024 ∧ (st56.sq 3).outstanding = true ∧ st56.sqHost 3 = true) ∧
    (st59.linkDown = false ∧ st59.tasks = [tskH] ∧ tskH.phase = Phase.running ∧ tskH.hostLast.isSome = true ∧
    tskH.flushed = false ∧ tskH.issueQ = [] ∧ tskH.flushing = false ∧ isQueueTask (entryOpcode tskH.entry) = false) ∧
    (st1.linkDown = true) ∧
    (st56.linkDown = false) := by decide +kernel

theorem witness_StartupAndPower_1 :
    (start0.startup = Startup.checks ∧ start0.restoring = false ∧ start0.powered = true ∧
    bootImage (start0.bit R.cpBoot 0) r_7.imageAOk r_7.imageBOk = some false ∧ (∀ n < 8, ↑(r_7.stackChecks.getD n 0) = 0)) ∧
    (start0.startup = Startup.checks ∧ start0.restoring = false ∧ start0.powered = true ∧
    bootImage (start0.bit R.cpBoot 0) r_8.imageAOk r_8.imageBOk = some false ∧ (∃ n < 8, ↑(r_8.stackChecks.getD n 0) ≠ 0)) ∧
    (start0.startup = Startup.checks ∧ start0.restoring = false ∧ start0.powered = true ∧
    bootImage (start0.bit R.cpBoot 0) r_9.imageAOk r_9.imageBOk = none) ∧
    ((run0.startup ≠ Startup.checks ∨ run0.restoring = true ∨ run0.powered = false)) ∧
    (st10.takesWrite Requester.host R.padRelease ∧ getField 1 0 1 = 1 ∧ st10.bit R.pwStatus 31 = true ∧
    st10.startup = Startup.paused) := by decide +kernel

theorem witness_StartupAndPower_2 :
    (run0.takesWrite Requester.host R.padRelease ∧ getField 1 0 1 = 1 ∧ run0.bit R.pwStatus 31 = true ∧
    run0.startup = Startup.done) ∧
    (st12.takesWrite Requester.host R.padRelease ∧ getField 1 0 1 = 1 ∧ st12.bit R.pwStatus 31 = true ∧
    st12.startup = Startup.checks) ∧
    (st13.takesWrite Requester.host R.padRelease ∧ (getField 0 0 1 = 0 ∨ st13.bit R.pwStatus 31 = false)) ∧
    (st21.below = true ∧ src_22 ≠ Requester.host) ∧
    (st21.below = true ∧ Requester.host = Requester.host) ∧
    (run0.takesWrite Requester.host R.pwCoreHold ∧ getField 1 0 1 = 1 ∧ run0.bit R.pwStatus 29 = true) ∧
    (st13.takesWrite Requester.host R.pwCoreHold ∧ (getField 0 0 1 = 0 ∨ st13.bit R.pwStatus 29 = false)) ∧
    (st13.startup = Startup.continuing ∧ (st13.coldStart = true ∨ st13.padAt + 3200 ≤ st13.cycle) ∧
    st13.padWait = []) := by decide +kernel

theorem witness_StartupAndPower_3 :
    ((st20.startup ≠ Startup.continuing ∨ st20.coldStart = false ∧ st20.cycle < st20.padAt + 3200)) ∧
    (st16.padExit = true ∧ st16.padAt + 3200 ≤ st16.cycle ∧ st16.padWait = []) ∧
    ((st32.padExit = false ∨ st32.cycle < st32.padAt + 3200)) ∧
    (st23.bit R.pwCfg 31 = true ∧ st23.below = false ∧ st23.isIdle = true ∧
    st23.fld R.pwCfg 0 16 * 1600 ≤ st23.idleCycles) ∧
    ((st32.bit R.pwCfg 31 = false ∨ st32.below = true ∨ st32.isIdle = false ∨ st32.idleCycles < st32.fld R.pwCfg 0 16 *
    1600)) ∧
    (st31.entering = some PState.bankHold ∧ (PState.bankHold, 16000) ∈ [(PState.idleGated, 6400), (PState.bankHold, 16000),
    (PState.retention, 80000), (PState.off, 3200000)] ∧
    (st31.linesDone = false ∨ st31.cycle < st31.powerAt + 16000)) := by decide +kernel

theorem witness_StartupAndPower_4 :
    (st25.entering = some PState.idleGated ∧ (PState.idleGated, 6400) ∈ [(PState.idleGated, 6400), (PState.bankHold,
    16000), (PState.retention, 80000), (PState.off, 3200000)] ∧ st25.linesDone = true ∧ st25.powerAt + 6400 ≤ st25.cycle ∧
    PState.idleGated ≠ PState.off ∧ st25.latchedWake = none) ∧
    (st28.entering = some PState.off ∧ (PState.off, 3200000) ∈ [(PState.idleGated, 6400), (PState.bankHold, 16000),
    (PState.retention, 80000), (PState.off, 3200000)] ∧ st28.linesDone = true ∧ st28.powerAt + 3200000 ≤ st28.cycle ∧
    PState.off = PState.off ∧ st28.latchedWake = none) := by decide +kernel

theorem witness_StartupAndPower_5 :
    (st30.entering = some PState.off ∧ (PState.off, 3200000) ∈ [(PState.idleGated, 6400), (PState.bankHold, 16000),
    (PState.retention, 80000), (PState.off, 3200000)] ∧ st30.linesDone = true ∧ st30.powerAt + 3200000 ≤ st30.cycle ∧
    PState.off = PState.off ∧ st30.latchedWake = some lw0) ∧
    (st32.entering = some PState.retention ∧ (PState.retention, 80000) ∈ [(PState.idleGated, 6400), (PState.bankHold,
    16000), (PState.retention, 80000), (PState.off, 3200000)] ∧ st32.linesDone = true ∧ st32.powerAt + 80000 ≤ st32.cycle ∧
    PState.retention ≠ PState.off ∧ st32.latchedWake = some lw0 ∧ lw0.time < 2 ^ 64) ∧
    (st36.powered = true ∧ st36.power ≠ PState.active ∧ st36.entering = none ∧ st36.waking = none ∧
    wakes st36.power w_29 = true ∧ st36.power = PState.off) := by decide +kernel

theorem witness_StartupAndPower_6 :
    (st25.powered = true ∧ st25.entering = some PState.idleGated ∧ wakes PState.idleGated w_26 = true ∧
    st25.latchedWake = none) ∧
    (st37.powered = true ∧ st37.entering = none ∧ st37.waking.isSome = true ∧ st37.wakeSeen ≠ st37.cycle) ∧
    ((st57.below = false ∨ st57.powered = false)) ∧
    (st38.waking = some PState.idleGated ∧ (PState.idleGated, 3200) ∈ [(PState.idleGated, 3200), (PState.bankHold, 28800),
    (PState.retention, 1920000), (PState.off, 400000000)] ∧ st38.cycle < st38.powerAt + 3200) ∧
    (st37.waking = some PState.retention ∧ (PState.retention, 1920000) ∈ [(PState.idleGated, 3200), (PState.bankHold,
    28800), (PState.retention, 1920000), (PState.off, 400000000)] ∧ st37.powerAt + 1920000 ≤ st37.cycle ∧
    st37.wakeBuf = []) := by decide +kernel

theorem witness_ServiceAndRepair_1 :
    (st41.takesWrite Requester.cp (R.feLaneCtl ↑p_40) ∧
    (c_44 = Instr.laneRemap Requester.cp p_40 3 ∨ c_44 = Instr.laneRestore Requester.cp p_40 3) ∧ getField 3 31 1 = 0) ∧
    (st63.takesWrite Requester.cp (R.feLaneCtl ↑p_40) ∧
    (c_42 = Instr.laneRemap Requester.cp p_40 2147483651 ∨ c_42 = Instr.laneRestore Requester.cp p_40 2147483651) ∧
    getField 2147483651 31 1 = 1 ∧ st63.laneRefused (↑p_40) (getField 2147483651 30 1) (getField 2147483651 0 3) = true) ∧
    (st41.takesWrite Requester.cp (R.feLaneCtl ↑p_40) ∧
    (c_42 = Instr.laneRemap Requester.cp p_40 2147483651 ∨ c_42 = Instr.laneRestore Requester.cp p_40 2147483651) ∧
    getField 2147483651 31 1 = 1 ∧ st41.laneRefused (↑p_40) (getField 2147483651 30 1) (getField 2147483651 0 3) = false)
    := by decide +kernel

theorem witness_ServiceAndRepair_2 :
    (st63.bit (R.feLaneStatus ↑p_40) 0 = true ∧ st63.draining.contains ↑p_40 = false ∧
    st63.bit (R.feLaneCtl ↑p_40) 29 = false) ∧
    (st46.bit (R.feLaneStatus ↑p_40) 0 = true ∧ st46.draining.contains ↑p_40 = false ∧
    st46.bit (R.feLaneCtl ↑p_40) 29 = true ∧ st46.recordWrite = none) ∧
    (st46.takesWrite Requester.cp R.cpPair ∧ getField 1 0 1 = 1 ∧ st46.cpRuns = false ∧ st46.bit R.cpPair 31 = false) ∧
    (st47.takesWrite Requester.cp R.cpPair ∧ (getField 1 0 1 = 0 ∨ st47.cpRuns = true ∨ st47.bit R.cpPair 31 = true)) ∧
    (st47.bit R.cpPair 0 = true ∧ bootImage (st47.bit R.cpBoot 0) true true = some false) ∧
    (st47.bit R.cpPair 0 = true ∧ bootImage (st47.bit R.cpBoot 0) false false = none) ∧
    (sQ.bit R.cpPair 0 = false) ∧
    (st48.recordWrite = some wr ∧ st48.recordDirty = false) := by decide +kernel

theorem witness_ServiceAndRepair_3 :
    (st62.recordWrite = some rec1 ∧ st62.recordDirty = true) ∧
    (sQ.recordWrite = none) ∧
    (sQ.cpRuns = true ∧ (∀ x ∈ sQ.record.rows,
    { x with state := 0 } ≠
    { kind := 0, unit := ↑stack_49, state := 0, dev := 31, serial := 0, bank := 63, row := 262143 % 2 ^ 18 }) ∧
    sQ.record.rows.length < 4079) ∧
    ((∃ x ∈ st50.record.rows, { x with state := 0 } =
    { kind := 0, unit := ↑stack_49, state := 0, dev := 31, serial := 0, bank := 63, row := 262143 % 2 ^ 18 })) ∧
    (st51.cpRuns = false) := by decide +kernel

end Power

/-! ### Statements over every command -/

namespace Whole

/-- A state with one command waiting. -/
def waiting : State := { State.reset with pending := [Instr.lateResponse true] }

/-- The state after a step. -/
def after : State := match step waiting with | .next t => t | _ => waiting

theorem witness_EveryStepKeepsCanonicalForm : waiting.wf = true ∧ step waiting = .next after :=
  ⟨by decide +kernel, rfl⟩

theorem witness_EveryStepTakesOneCommand : step waiting = .next after ∧ waiting.pending ≠ [] := ⟨rfl, by decide +kernel⟩

theorem witness_ResetState : (1 : Nat) ≠ 0 ∧ 511 < 512 ∧ 47 < 48 ∧ 1023 < 1024 ∧ 255 < 256 := by decide

theorem witness_OnlyStoresChangeMemory :
    mayStore (.lateResponse true) = false ∧
    exec (.lateResponse true) waiting = .next { after with pending := waiting.pending } :=
  ⟨by decide, rfl⟩

theorem witness_OnlyTheseChangeTables :
    mayRetable (.lateResponse true) = false ∧
    exec (.lateResponse true) waiting = .next { after with pending := waiting.pending } :=
  ⟨by decide, rfl⟩

theorem test_step_takes_front : after.pending = [] ∧ after.reg R.tmLateHost = 1 ∧ after.reg R.tmLateFabric = 0 := by
  decide +kernel

/-- An empty queue is one core cycle; the global time counter runs (R393). -/
def ticked : State := match step { State.reset with powered := true } with | .next t => t | _ => State.reset

theorem test_step_idle : ticked.cycle = 1 ∧ ticked.gtc = 1 ∧ ticked.pending = [] := by decide +kernel

/-- The table gives no row a word. -/
theorem test_decodeTableWord_none : decodeTableWord 32 0 = none ∧ decodeTableWord 0 0 = none := by decide

theorem test_withFetchWord_keeps : State.reset.withFetchWord 32 5 = State.reset := rfl

end Whole

/-! ### Ill-formed commands: one for each check of WellFormed.lean -/

namespace Forms

theorem test_wf_offset : Instr.wf (.pairLowRead .host ⟨2 ^ 26, 4⟩) = false ∧ Instr.wf (.pairLowRead .host ⟨2 ^ 26 - 4,
  4⟩) = true := by
  decide

theorem test_wf_value : Instr.wf (.registerWrite .host 64 4 (2 ^ 32)) = false ∧
    Instr.wf (.registerWrite .host 64 4 (2 ^ 32 - 1)) = true := by decide

theorem test_wf_payload : Instr.wf (.registerWrite .host 64 0 0) = false ∧ Instr.wf (.bar2Read 0 4097 none .good) = false ∧
    Instr.wf (.bar2Read 0 4096 none .good) = true := by decide

theorem test_wf_bar2 : Instr.wf (.bar2Atomicop (2 ^ 43)) = false ∧ Instr.wf (.bar2Atomicop (2 ^ 43 - 1)) = true := by decide

theorem test_wf_addresses : Instr.wf (.coreLoad 0 (2 ^ 48) 8 none .good) = false ∧
    Instr.wf (.apertureLoad 0 0 (2 ^ 36) 8 .error) = false ∧ Instr.wf (.pushWindowWrite .host 0 1024 [0]) = false ∧
    Instr.wf (.invalidateRequest none false (2 ^ 64) 4096) = false ∧
    Instr.wf (.invalidateRequest none false 0 0) = false := by
  decide

theorem test_wf_nodes : Instr.wf (.fabricRemoteAccess 65536 (.read 0 8) .good) = false ∧
    Instr.wf (.creditRequestArrival 5 65536 1) = false ∧ Instr.wf (.heartbeatReceive 65536 0) = false ∧
    Instr.wf (.wakeEvent (.fabric 65536) []) = false := by decide

theorem test_wf_tasks : Instr.wf (.readIssue ⟨0, 2 ^ 32, 0⟩) = false ∧ Instr.wf (.readIssue ⟨1023, 2 ^ 32 - 1, 0⟩) = true ∧
    Instr.wf (.fabricRequestTimeout (.taskWrite ⟨0, 2 ^ 32, 0⟩)) = false ∧
    Instr.wf (.hostRequestTimeout (.taskFlush ⟨0, 2 ^ 32, 0⟩)) = false := by decide

theorem test_wf_translation : Instr.wf (.translationCompletion ⟨0, 0, 0⟩ (.ok [⟨0, 0x1000, true, true, false⟩])) = false ∧
    Instr.wf (.translationCompletion ⟨0, 0, 0⟩ (.ok [⟨4096, 2 ^ 64, true, true, false⟩])) = false := by decide

theorem test_wf_collective : Instr.wf (.collectivePieceSend ⟨0, 0, 0⟩ 65536) = false ∧
    Instr.wf (.multicastDetachTimeout ⟨0, 0, 0⟩ 65536) = false := by decide

theorem test_wf_message : Instr.wf (.messagePacketArrival ⟨9, 5, 0, 64, 0, []⟩ .good) = false ∧
    Instr.wf (.messagePacketArrival ⟨9, 5, 0, 63, 1, List.replicate 4 0⟩ .good) = false ∧
    Instr.wf (.messagePacketArrival ⟨9, 5, 0, 63, 1, List.replicate 8 0⟩ .good) = true ∧
    Instr.wf (.slotGrantTimeout 0 65536) = false := by decide

theorem test_wf_rows : Instr.wf (.scrubRead 0 ⟨[], none⟩ ⟨18, 0, 0⟩) = false ∧ Instr.wf (.scrubRead 0 ⟨[], none⟩ ⟨17, 16,
  0⟩) = false ∧
    Instr.wf (.scrubRead 0 ⟨[], none⟩ ⟨17, 15, 2 ^ 18⟩) = false ∧ Instr.wf (.scrubRead 0 ⟨[], some (2 ^ 33)⟩ ⟨17, 15,
    0⟩) = false ∧ Instr.wf (.refreshDue 0 16 0) = false ∧
    Instr.wf (.tierARowReport 0 256 0 0) = false := by decide

theorem test_wf_bursts : Instr.wf (.arbiterRequestArrival 0 ⟨.scrub, false, 0, 0, 0⟩) = false ∧
    Instr.wf (.arbiterRequestArrival 0 ⟨.scrub, false, 0, 513, 0⟩) = false ∧
    Instr.wf (.arbiterRequestArrival 0 ⟨.scrub, false, 0, 64, 32⟩) = false ∧
    Instr.wf (.arbiterRequestArrival 0 ⟨.scrub, false, 0, 512, 31⟩) = true := by decide

end Forms

/-! ### Worked examples and check values of the spec -/

namespace Examples

/-- The nine ASCII characters 1 to 9. -/
def nine : List Byte := [0x31, 0x32, 0x33, 0x34, 0x35, 0x36, 0x37, 0x38, 0x39]

/-- R186: the check value of CRC-32C. -/
theorem test_crc32c : crc32c nine = 0xE3069283 ∧ crc32c [] = 0 := by decide +kernel

/-- R357: the check value of the digest. -/
theorem test_digest : crc64 nine = 0x995DC9BBDF1939FA ∧ crc64 [] = 0 := by decide +kernel

/-- The decode table of 07_pewter_codec.md, Worked example. -/
def lens : List Nat := (List.range 256).map (fun s =>
  if s = 0x7E then 1 else if s = 0x7D then 2 else if s = 0x7F then 3 else if s = 0x7C then 4 else if s = 0x80 then 5 else
  15)

/-- Its canonical codes, and its Kraft sum 31,995 / 32,768. -/
theorem test_codes : codeOf lens 0x7E = some (1, 0) ∧ codeOf lens 0x7D = some (2, 0b10) ∧ codeOf lens 0x7F = some (3,
  0b110) ∧
    codeOf lens 0x7C = some (4, 0b1110) ∧ codeOf lens 0x80 = some (5, 0b11110) ∧
    codeOf lens 0 = some (15, 0b111110000000000) ∧ kraft lens = 31995 := by decide +kernel

/-- Its header bytes 0 to 7. -/
theorem test_header : (headerBody 4 1 2 7 7 4096 (List.replicate 1528 0)).take 8 =
    [0x0C, 0x87, 0x07, 0x00, 0xFF, 0x01, 0xBF, 0x00] := by decide +kernel

/-- Its first words, and the stream of their codes. -/
theorem test_words : joinWord 7 0x7E 0x40 = 0x3F40 ∧ joinWord 7 0x7D 0x80 = 0xBE80 ∧ joinWord 7 0x7F 0 = 0x3F80 ∧
    joinWord 7 0x7C 0x20 = 0x3E20 ∧ joinWord 7 0x80 0 = 0x4000 ∧ symbolField 7 0xBE80 = 0x7D ∧ restField 7 0xBE80 = 0x80 ∧
    packBits ([0x7E, 0x7D, 0x7F, 0x7C, 0x80].flatMap (codeBits lens)) = [0xDA, 0x3D] := by decide +kernel

/-- 08_streams_delivery.md, Worked example: DS012. -/
def late : State := withRegs [(R.dsCfg 12, 0x810F0028), (R.dsRing 12, 0x06A00000), (R.dsGen 12, 0x06A30000),
  (R.dsFirstLo 12, 600),
  (R.dsPeriod 12, 200), (R.dsUse 12, 200), (R.dsTiles 12, 12)] State.reset

theorem test_stream : (late.stagedStream 12).drain = false ∧ (late.stagedStream 12).lead = 2 ∧
    (late.stagedStream 12).tileBytes = 65536 ∧ (late.stagedStream 12).queue = 40 ∧
    (late.stagedStream 12).deadline 5 = 1600 ∧
    (late.stagedStream 12).ring + (late.stagedStream 12).ringLen = (late.stagedStream 12).gen ∧
    (late.stagedStream 12).isBad [] = false := by decide +kernel

/-- 13_port_arbitration.md, Worked example: bursts of 8 beats on A3, from other nodes; scheduled is rank 1,
  session rank 2. -/
def request (node : Nat) (session : Bool) (age : Nat) : BurstReq := ⟨.remote node session age, false, 0x600, 512, 0⟩
def keyOf (node rank age : Nat) : ReqKey := ⟨66, node, rank, age⟩

/-- Core cycle 107 in normal service: slot 4 ends, S1 and K1 are parked, K2 arrives. -/
def slot4 : State :=
  let busy : SMap (Option Burst) := (List.range 24).map (fun i => (i, some ⟨request 60 false 5, keyOf 60 1 5, 99⟩))
  { withRegs [(R.arbCtl 3, 0)] sQ with cycle := 107, arbs := [(3, { arbDefault 3 with slots := busy, issued := 2, parked := [
      ⟨request 1 true 40, keyOf 1 2 40, 0, 101, 101, 16⟩, ⟨request 2 false 90, keyOf 2 1 90, 1, 103, 103, 16⟩] })] }

/-- What the port holds after its decision. -/
def decided : ArbRun :=
  match exec (.arbiterDecision 3 [4] ⟨[request 3 false 85], []⟩) slot4 with | .next t => t.arb 3 | _ => arbDefault 3

theorem test_decision : (decided.slot 4).map Burst.req = some (request 3 false 85) ∧
    decided.parked.map Waiting.req = [request 1 true 40, request 2 false 90] := by decide +kernel

/-- 16_reset_power.md, Worked example: RST_CAUSE and RST_COUNT after the link has been down for more than 10 µs. -/
def relinked : State :=
  match exec .linkLossTimeout
  { withRegs [(R.rstCause, 0)] sQ with powered := true, linkDown := true, linkDownCycles := 16001 } with
  | .next t => t
  | _ => sQ

theorem test_link_loss : relinked.reg R.rstCause = 0x40000000 ∧ relinked.reg R.rstCount = 1 := by decide +kernel

/-- 17_service_repair.md, Worked example: ENG17 retired, ENG64 at logical position 17. -/
def retired17 : List Byte :=
  recordBytes { RepairRecord.shipment with seq := 7, engPos := RepairRecord.shipment.engPos.set 17 64, engRetired := [17] }

theorem test_record : (retired17.drop 4).take 4 = [7, 0, 0, 0] ∧ byteAt retired17 49 = 0x40 ∧
    byteAt (recordBytes RepairRecord.shipment) 49 = 0x11 ∧ (retired17.drop 96).take 3 = [0, 0, 2] := by decide +kernel

end Examples

end Sys2Proof.Tests
end

section
namespace Sys2Proof.Machine

open Sys2Proof

/-!
### What register writes leave unchanged

The frame of the named register updates, in the words of `State.onlyRegs`: one rule for each, and how they chain.
-/

theorem State.onlyRegs.refl (s : State) (l : List Nat) : s.onlyRegs s l := ⟨rfl, fun _ _ => rfl⟩

theorem State.onlyRegs.trans {s t u : State} {l : List Nat} (h : s.onlyRegs t l) (k : t.onlyRegs u l) : s.onlyRegs u l := by
  obtain ⟨ht, hr⟩ := h
  obtain ⟨hu, kr⟩ := k
  exact ⟨hu.trans (by rw [ht]), fun o ho => (kr o ho).trans (hr o ho)⟩

theorem State.onlyRegs.setReg {s t : State} {l : List Nat} {off : Nat} (h : s.onlyRegs t l) (hl : off ∈ l) (v : Word) :
    s.onlyRegs (t.setReg off v) l :=
  h.trans ⟨rfl, fun _ ho => State.reg_setReg_ne _ _ (fun e => ho (e ▸ hl))⟩

theorem State.onlyRegs.setReg64 {s t : State} {l : List Nat} {off : Nat} (h : s.onlyRegs t l) (hl : off ∈ l)
    (h4 : off + 4 ∈ l) (v : Nat) : s.onlyRegs (t.setReg64 off v) l :=
  (h.setReg hl _).setReg h4 _

theorem State.onlyRegs.setBit {s t : State} {l : List Nat} {off : Nat} (h : s.onlyRegs t l) (hl : off ∈ l) (i : Nat)
    (b : Bool) : s.onlyRegs (t.setBit off i b) l :=
  h.setReg hl _

/-- What is noted of the present core cycle is no register. -/
theorem State.onlyRegs.withNow {s t : State} {l : List Nat} (h : s.onlyRegs t l) (n : CycleRun) :
    s.onlyRegs { t with now := n } l :=
  h.trans ⟨rfl, fun _ _ => rfl⟩

theorem State.onlyRegs.noteSet {s t : State} {l : List Nat} (h : s.onlyRegs t l) (off : Nat) (bits : Word) :
    s.onlyRegs (t.noteSet off bits) l :=
  h.withNow _

theorem State.onlyRegs.bump {s t : State} {l : List Nat} {off : Nat} (h : s.onlyRegs t l) (hl : off ∈ l) (n : Nat) :
    s.onlyRegs (t.bump off n) l :=
  (h.setReg hl _).withNow _

theorem State.onlyRegs.hwSet {s t : State} {l : List Nat} {off : Nat} (h : s.onlyRegs t l) (hl : off ∈ l) (i : Nat) :
    s.onlyRegs (t.hwSet off i) l :=
  (h.setBit hl i true).noteSet _ _

theorem State.onlyRegs.clearRc {s t : State} {l : List Nat} {off : Nat} (h : s.onlyRegs t l) (hl : off ∈ l) (rc : Word) :
    s.onlyRegs (t.clearRc off rc) l :=
  (h.setReg hl _).withNow _

/-!
### The words of registers bit by bit

The fields of a number, a register after a write by its access types (R6, R7), the low field of a word put over another word.
-/

theorem getField_ofNat (v lo n : Nat) (h : lo + n ≤ 32) : getField (BitVec.ofNat 32 v) lo n = v / 2 ^ lo % 2 ^ n := by
  apply Nat.eq_of_testBit_eq
  intro j
  rw [testBit_getField, BitVec.getLsbD_ofNat, Nat.testBit_mod_two_pow, Nat.testBit_div_two_pow, Nat.add_comm j lo]
  by_cases hj : j < n
  · simp [hj, show lo + j < 32 by omega]
  · simp [hj]

theorem getLsbD_writtenWord (old value : Word) (rw w1c w1s hwSet i : Nat) (hi : i < 32) :
    (writtenWord old value rw w1c w1s hwSet).getLsbD i =
      ((if rw.testBit i then value.getLsbD i else old.getLsbD i) && !(value.getLsbD i && w1c.testBit i) ||
        value.getLsbD i && w1s.testBit i || hwSet.testBit i) := by
  simp only [writtenWord, BitVec.getLsbD_or, BitVec.getLsbD_and, BitVec.getLsbD_not, BitVec.getLsbD_ofNat, hi, decide_true,
    Bool.true_and]
  cases rw.testBit i <;> simp

/-- The bits of `x` under a mask, those of `w` elsewhere. -/
def maskedWord (w x mask : Word) : Word := (w &&& ~~~ mask) ||| (x &&& mask)

theorem getLsbD_maskedWord_low (w x : Word) (k i : Nat) :
    (maskedWord w x (BitVec.ofNat 32 (2 ^ k - 1))).getLsbD i = if i < k then x.getLsbD i else w.getLsbD i := by
  by_cases hi : i < 32
  · simp only [maskedWord, BitVec.getLsbD_or, BitVec.getLsbD_and, BitVec.getLsbD_not, BitVec.getLsbD_ofNat,
      Nat.testBit_two_pow_sub_one, hi, decide_true, Bool.true_and]
    by_cases hk : i < k <;> simp [hk]
  · simp [BitVec.getLsbD_of_ge _ _ (Nat.le_of_not_lt hi)]

theorem getField_maskedWord_low (w x : Word) (k : Nat) :
    getField (maskedWord w x (BitVec.ofNat 32 (2 ^ k - 1))) 0 k = getField x 0 k := by
  apply Nat.eq_of_testBit_eq
  intro j
  rw [testBit_getField, testBit_getField, getLsbD_maskedWord_low, Nat.zero_add]
  by_cases hj : j < k <;> simp [hj]

theorem State.rcWord_eq (s : State) (off : Nat) (rc : Word) : s.rcWord off rc = maskedWord (s.reg off) (s.countedNow off).1 rc :=
  rfl

theorem State.reg_clearRc_self (s : State) (off : Nat) (rc : Word) :
    (s.clearRc off rc).reg off = maskedWord (s.reg off) (BitVec.ofNat 32 (min (s.countedNow off).2 0xFFFFFFFF)) rc :=
  State.reg_setReg_self s off _

@[simp] theorem State.reg_bump_self (s : State) (off n : Nat) : (s.bump off n).reg off = satAdd (s.reg off) n :=
  State.reg_setReg_self s off _

theorem State.countedNow_bump_self (s : State) (off n : Nat) :
    (s.bump off n).countedNow off = ((s.countedNow off).1, (s.countedNow off).2 + n) := by
  simp [State.countedNow, State.bump]

/-!
### An access to the register bus that acts at once (R4 to R7)

Which register operation the command comes to, and what that leaves in the register.
-/

/-- What is written does not count for whether a write waits. -/
theorem State.waitsBehindHeld_reg (s : State) (src : Requester) (off : Nat) (b c : List Byte) :
    s.waitsBehindHeld (.reg src off b) = s.waitsBehindHeld (.reg src off c) := by
  unfold State.waitsBehindHeld
  congr 1
  funext w
  cases src <;> cases w <;> rfl

/-- What is read does not count for whether a read waits. -/
theorem State.waitsBehindHeld_regRead (s : State) (src : Requester) (off len off' len' : Nat) :
    s.waitsBehindHeld (.regRead src off len) = s.waitsBehindHeld (.regRead src off' len') := by
  unfold State.waitsBehindHeld
  congr 1
  funext w
  cases w <;> rfl

theorem State.gate_of_takesWrite {s : State} {src : Requester} {off : Nat} (h : s.takesWrite src off) (bytes : List Byte)
    (f : State → State) : s.gate (.reg src off bytes) f = f s := by
  obtain ⟨hb, hw⟩ := h
  simp [State.gate, hb, s.waitsBehindHeld_reg src off bytes [], hw]

theorem State.gate_of_takesRead {s : State} {src : Requester} (h : s.takesRead src) (off len : Nat) (f : State → State) :
    s.gate (.regRead src off len) f = f s := by
  obtain ⟨hb, hw⟩ := h
  simp [State.gate, hb, s.waitsBehindHeld_regRead src off len 0 0, hw]

theorem exec_registerWrite_of_takesWrite {s : State} {src : Requester} {off : Nat} (h : s.takesWrite src off)
    (bytes : List Byte) : exec (.registerWrite src off bytes.length (leNat bytes)) s = .next (busWrite src off bytes s) := by
  have he : exec (.registerWrite src off bytes.length (leNat bytes)) s =
      execRegisterWrite src off bytes.length (leNat bytes) s := rfl
  rw [he, execRegisterWrite, leBytes_leNat, State.gate_of_takesWrite h]

theorem exec_rcRegisterRead_of_takesRead {s : State} {src : Requester} (h : s.takesRead src) (off len : Nat) :
    exec (.rcRegisterRead src off len) s = .next (busRead src off len s) := by
  have he : exec (.rcRegisterRead src off len) s = execRcRegisterRead src off len s := rfl
  rw [he, execRcRegisterRead, State.gate_of_takesRead h]

theorem busWrite_of_plainRegister {off : Nat} (h : plainRegister off) (src : Requester) {bytes : List Byte}
    (hl : bytes.length = 4) (s : State) : busWrite src off bytes s = s.plainWrite off (BitVec.ofNat 32 (leNat bytes)) := by
  obtain ⟨hpush, hpay, hlow, hhigh, halign, hroute⟩ := h
  simp [busWrite, wordWrite, hpush, hpay, hlow, hhigh, halign, hroute, hl]

theorem State.plainWrite_of_row {s : State} {off : Nat} {r : RegRow} {v : Word} (hr : regRow off = some r)
    (hv : s.refusesValue off v = false) :
    s.plainWrite off v =
      s.setReg off (writtenWord (s.reg off) v r.rw r.w1c r.w1s (s.setNow off &&& s.reg off &&& BitVec.ofNat 32 r.w1c).toNat) := by
  simp [State.plainWrite, hr, hv]

theorem busRead_of_rc {off : Nat} {r : RegRow} (ha : off % 4 = 0) (hlow : isPairLow off = false)
    (hhigh : isPairHigh off = false) (hr : regRow off = some r) (hrc : r.rc ≠ 0) (src : Requester) (s : State) :
    busRead src off 4 s = s.readClear src off (BitVec.ofNat 32 r.rc) := by
  simp [busRead, wordRead, ha, hlow, hhigh, hr, hrc]

/-- R7: a W1C bit written as 1 stays set exactly where hardware has set it in this core cycle. -/
theorem State.getLsbD_plainWrite_w1c {s : State} {off i : Nat} {r : RegRow} {v : Word} (hr : regRow off = some r)
    (hv : s.refusesValue off v = false) (hi : i < 32) (hrw : r.rw.testBit i = false) (hw1s : r.w1s.testBit i = false)
    (hw1c : r.w1c.testBit i = true) (h1 : v.getLsbD i = true) :
    ((s.plainWrite off v).reg off).getLsbD i = ((s.setNow off).getLsbD i && (s.reg off).getLsbD i) := by
  rw [State.plainWrite_of_row hr hv, State.reg_setReg_self, getLsbD_writtenWord _ _ _ _ _ _ _ hi, BitVec.testBit_toNat,
    BitVec.getLsbD_and, BitVec.getLsbD_and, BitVec.getLsbD_ofNat]
  simp [hrw, hw1s, hw1c, h1, hi]

theorem State.onlyRegs_plainWrite {s : State} {off : Nat} {r : RegRow} {v : Word} (hr : regRow off = some r)
    (hv : s.refusesValue off v = false) : s.onlyRegs (s.plainWrite off v) [off] := by
  rw [State.plainWrite_of_row hr hv]
  exact (State.onlyRegs.refl s _).setReg (by simp) _

/-- A read that clears puts its one answer before what has left the block, and changes its register alone. -/
theorem State.onlyRegsOut_readClear (s : State) (src : Requester) (off : Nat) (rc : Word) :
    s.onlyRegsOut (s.readClear src off rc) [off] [.regData src (s.rcWord off rc)] :=
  ⟨rfl, ((State.onlyRegs.refl s [off]).clearRc (by simp) rc).2⟩

/-- R7: the counter that a read clears is left with this core cycle's increments. -/
theorem State.getField_readClear {s : State} {off k : Nat} (hk : k ≤ 32) (hc : (s.countedNow off).2 < 2 ^ k)
    (src : Requester) :
    getField ((s.readClear src off (BitVec.ofNat 32 (2 ^ k - 1))).reg off) 0 k = (s.countedNow off).2 := by
  have hle : 2 ^ k ≤ 2 ^ 32 := Nat.pow_le_pow_right (by decide) hk
  have hmin : min (s.countedNow off).2 0xFFFFFFFF = (s.countedNow off).2 := by omega
  have hreg : (s.readClear src off (BitVec.ofNat 32 (2 ^ k - 1))).reg off =
      (s.clearRc off (BitVec.ofNat 32 (2 ^ k - 1))).reg off := rfl
  rw [hreg, State.reg_clearRc_self, getField_maskedWord_low, hmin, getField_ofNat _ _ _ (by omega), Nat.pow_zero, Nat.div_one,
    Nat.mod_eq_of_lt hc]

theorem State.getLsbD_readClear_ge {s : State} {off k i : Nat} (h : k ≤ i) (src : Requester) :
    ((s.readClear src off (BitVec.ofNat 32 (2 ^ k - 1))).reg off).getLsbD i = (s.reg off).getLsbD i := by
  have hreg : (s.readClear src off (BitVec.ofNat 32 (2 ^ k - 1))).reg off =
      (s.clearRc off (BitVec.ofNat 32 (2 ^ k - 1))).reg off := rfl
  rw [hreg, State.reg_clearRc_self, getLsbD_maskedWord_low, if_neg (by omega)]

/-!
### How what an event causes lands as the next core cycle begins (R413)

A flag, a first-event register, an entry of the machine-check log (R356).
-/

/-- The state in which nothing waits to land. -/
def State.noneLater (s : State) : State := { s with later := { events := [], flags := [], latches := [], notices := [] } }

theorem State.onlyRegs_noneLater (s : State) (l : List Nat) : s.onlyRegs s.noneLater l := ⟨rfl, fun _ _ => rfl⟩

/-! Flags -/

theorem State.land_of_flag {s : State} {e : Nat} {b : Bool}
    (h : s.later = { events := [], flags := [(e, b)], latches := [], notices := [] }) :
    s.land = if b then s.noneLater.setFlag e else s.noneLater.putFlag e false := by
  cases b <;> simp [State.land, h, State.noneLater]

theorem State.flag_putFlag_self (s : State) (e : Nat) (b : Bool) : (s.putFlag e b).flag e = b :=
  State.bit_setBit_self s _ _ b (Nat.mod_lt _ (by decide))

theorem State.flag_setFlag_self (s : State) (e : Nat) : (s.setFlag e).flag e = true :=
  State.flag_putFlag_self s e true

/-! First-event registers -/

theorem State.land_of_latches {s : State} {x y : Latch}
    (h : s.later = { events := [], flags := [], latches := [x, y], notices := [] }) (hk : y.key < x.key) :
    s.land = (s.noneLater.landLatch y).landLatch x := by
  simp [State.land, h, insertLatch, hk, State.noneLater]

theorem State.landLatch_of_valid {s : State} {l : Latch} (h : s.bit l.off 31 = true) : s.landLatch l = s := by
  simp [State.landLatch, h]

theorem State.landLatch_of_free {s : State} {l : Latch} (h : s.bit l.off 31 = false) (ha : l.also = []) :
    s.landLatch l = (s.setReg l.off (BitVec.ofNat 32 (2 ^ 31 + l.val))).noteSet l.off 0x80000000 := by
  simp [State.landLatch, h, ha]

theorem State.reg_landLatch_of_free {s : State} {l : Latch} (h : s.bit l.off 31 = false) (ha : l.also = []) :
    (s.landLatch l).reg l.off = BitVec.ofNat 32 (2 ^ 31 + l.val) := by
  rw [State.landLatch_of_free h ha, State.reg_noteSet', State.reg_setReg_self]

/-- A register that has taken an event is valid, so it takes no other. -/
theorem State.bit_landLatch_of_free {s : State} {l : Latch} (h : s.bit l.off 31 = false) (ha : l.also = [])
    (hv : l.val < 2 ^ 31) : (s.landLatch l).bit l.off 31 = true := by
  have hf : (2 ^ 31 + l.val) / 2 ^ 31 % 2 ^ 1 = 1 := by omega
  rw [State.bit, State.fld, State.reg_landLatch_of_free h ha, getField_ofNat _ _ _ (by decide), hf, decide_eq_true rfl]

theorem State.onlyRegs_landLatch_of_free {s : State} {l : Latch} (h : s.bit l.off 31 = false) (ha : l.also = []) :
    s.onlyRegs (s.landLatch l) [l.off] := by
  rw [State.landLatch_of_free h ha]
  exact ((State.onlyRegs.refl s _).setReg (by simp) _).noteSet _ _

/-! The machine-check log -/

theorem State.land_of_event {s : State} {e : McEvent}
    (h : s.later = { events := [e], flags := [], latches := [], notices := [] }) : s.land = s.noneLater.logEvent e := by
  simp [State.land, h, insertEvent, State.noneLater]

/-- The first word of a log entry (R373). -/
def McEvent.infoWord (e : McEvent) : Word :=
  BitVec.ofNat 32 (2 ^ 31 + e.source * 2 ^ 24 + e.unit * 2 ^ 16 + e.status.toNat)

/-- The words of a log entry that name its task (R373). -/
def State.putMcTask (s : State) (n : Nat) : Option TaskRef → State
  | none => (s.setReg (R.mcTask n) 0).setReg (R.mcIndex n) 0
  | some t => (s.setReg (R.mcTask n) (BitVec.ofNat 32 (2 ^ 31 + t.sq))).setReg (R.mcIndex n) (BitVec.ofNat 32 t.index)

/-- Log entry `n` filled with an event. -/
def State.fillMcEntry (s : State) (n : Nat) (e : McEvent) : State :=
  (((((s.noteSet (R.mcInfo n) 0x80000000).setReg (R.mcInfo n) e.infoWord).putMcTask n e.task).setReg64 (R.mcAddrLo n) e.addr).setReg64
    (R.mcTimeLo n) e.time)

theorem State.reg_putMcTask_ne (s : State) {n o : Nat} (t : Option TaskRef) (h1 : o ≠ R.mcTask n) (h2 : o ≠ R.mcIndex n) :
    (s.putMcTask n t).reg o = s.reg o := by
  cases t <;> simp only [State.putMcTask, State.reg_setReg_ne _ _ h1, State.reg_setReg_ne _ _ h2]

theorem State.onlyRegs.putMcTask {s t : State} {l : List Nat} {n : Nat} (h : s.onlyRegs t l) (h1 : R.mcTask n ∈ l)
    (h2 : R.mcIndex n ∈ l) (o : Option TaskRef) : s.onlyRegs (t.putMcTask n o) l := by
  cases o with
  | none => exact (h.setReg h1 _).setReg h2 _
  | some r => exact (h.setReg h1 _).setReg h2 _

theorem State.onlyRegs_fillMcEntry (s : State) (n : Nat) (e : McEvent) : s.onlyRegs (s.fillMcEntry n e) (mcRegs n) :=
  (((((State.onlyRegs.refl s (mcRegs n)).noteSet _ _).setReg (by simp [mcRegs]) _).putMcTask (by simp [mcRegs])
    (by simp [mcRegs]) _).setReg64 (by simp [mcRegs]) (by simp [mcRegs]) _).setReg64 (by simp [mcRegs]) (by simp [mcRegs]) _

theorem State.reg_fillMcEntry_info (s : State) (n : Nat) (e : McEvent) : (s.fillMcEntry n e).reg (R.mcInfo n) = e.infoWord := by
  unfold State.fillMcEntry
  rw [State.reg_setReg64_ne _ _ (by simp [R.mcInfo, R.mcTimeLo]) (by simp only [R.mcInfo, R.mcTimeLo]; omega),
    State.reg_setReg64_ne _ _ (by simp [R.mcInfo, R.mcAddrLo]) (by simp only [R.mcInfo, R.mcAddrLo]; omega),
    State.reg_putMcTask_ne _ _ (by simp [R.mcInfo, R.mcTask]) (by simp [R.mcInfo, R.mcIndex]), State.reg_setReg_self]

/-- The register that enables the log's message is none of the log's own. -/
theorem mcCtl_not_mem_mcRegs (n : Nat) : R.mcCtl ∉ mcRegs n := by
  simp only [mcRegs, R.mcCtl, R.mcCount, R.mcLost, R.mcInfo, R.mcTask, R.mcIndex, R.mcAddrLo, R.mcTimeLo, List.mem_cons,
    List.not_mem_nil, or_false]
  omega

theorem State.onlyRegs.bit_eq {s t : State} {l : List Nat} {o : Nat} (h : s.onlyRegs t l) (ho : o ∉ l) (i : Nat) :
    t.bit o i = s.bit o i := by
  rw [State.bit, State.fld, h.2 o ho, State.bit, State.fld]

/-- R356: a free entry takes the event. -/
theorem State.logEvent_of_free {s : State} {e : McEvent} {n : Nat} (hn : s.freeMcEntry = some n)
    (hc : s.bit R.mcCtl 31 = false) : s.logEvent e = s.fillMcEntry n e := by
  have hc' : (s.fillMcEntry n e).bit R.mcCtl 31 = false := by
    rw [(State.onlyRegs_fillMcEntry s n e).bit_eq (mcCtl_not_mem_mcRegs n), hc]
  have he : s.logEvent e =
      if (s.fillMcEntry n e).bit R.mcCtl 31 then (s.fillMcEntry n e).msix ((s.fillMcEntry n e).fld R.mcCtl 0 11)
      else s.fillMcEntry n e := by
    simp only [State.logEvent, hn]
    rfl
  rw [he, hc', if_neg (by decide)]

/-- R356: with every entry taken the event is lost, and counted. -/
theorem State.logEvent_of_full {s : State} {e : McEvent} (hn : s.freeMcEntry = none) (hc : s.bit R.mcCtl 31 = false) :
    s.logEvent e = s.bump R.mcLost 1 := by
  have hc' : (s.bump R.mcLost 1).bit R.mcCtl 31 = false := by
    rw [((State.onlyRegs.refl s [R.mcLost]).bump (by simp) 1).bit_eq (by decide), hc]
  simp only [State.logEvent, hn, hc', Bool.false_eq_true, if_false]

theorem McEvent.getField_infoWord {e : McEvent} (hs : e.source < 16) (hu : e.unit < 256) :
    getField e.infoWord 31 1 = 1 ∧ getField e.infoWord 24 4 = e.source ∧ getField e.infoWord 16 8 = e.unit ∧
      getField e.infoWord 0 16 = e.status.toNat := by
  have ht : e.status.toNat < 2 ^ 16 := e.status.isLt
  unfold McEvent.infoWord
  refine ⟨?_, ?_, ?_, ?_⟩ <;> rw [getField_ofNat _ _ _ (by decide)] <;> omega

/-!
### Events of one core cycle (R7, R356, R413)

Each clause of `Obligations.SameCycleEventsAreKept`, and the whole.
-/

theorem registerWrite_w1c_keeps_setNow (src : Requester) (off : Nat) (bytes : List Byte) (s : State) (r : RegRow) (i : Nat)
    (hs : s.takesWrite src off) (hp : plainRegister off) (hl : bytes.length = 4) (hr : regRow off = some r)
    (hv : s.refusesValue off (BitVec.ofNat 32 (leNat bytes)) = false) (hi : i < 32) (hrw : r.rw.testBit i = false)
    (hw1s : r.w1s.testBit i = false) (hw1c : r.w1c.testBit i = true) (h1 : (leNat bytes).testBit i = true) :
    ∃ t, exec (.registerWrite src off bytes.length (leNat bytes)) s = .next t ∧ s.onlyRegs t [off] ∧
      (t.reg off).getLsbD i = ((s.setNow off).getLsbD i && (s.reg off).getLsbD i) := by
  have hbit : (BitVec.ofNat 32 (leNat bytes) : Word).getLsbD i = true := by simp [BitVec.getLsbD_ofNat, hi, h1]
  refine ⟨s.plainWrite off (BitVec.ofNat 32 (leNat bytes)), ?_, State.onlyRegs_plainWrite hr hv,
    State.getLsbD_plainWrite_w1c hr hv hi hrw hw1s hw1c hbit⟩
  rw [exec_registerWrite_of_takesWrite hs, busWrite_of_plainRegister hp src hl]

theorem rcRegisterRead_keeps_increments (src : Requester) (off k : Nat) (s : State) (r : RegRow) (hs : s.takesRead src)
    (ha : off % 4 = 0) (hlow : isPairLow off = false) (hhigh : isPairHigh off = false) (hr : regRow off = some r)
    (hrc : r.rc = 2 ^ k - 1) (h0 : 0 < k) (hk : k ≤ 32) (hc : (s.countedNow off).2 < 2 ^ k) :
    ∃ t v, exec (.rcRegisterRead src off 4) s = .next t ∧ s.onlyRegsOut t [off] [.regData src v] ∧
      getField v 0 k = getField (s.countedNow off).1 0 k ∧ (∀ i, k ≤ i → v.getLsbD i = (s.reg off).getLsbD i) ∧
      getField (t.reg off) 0 k = (s.countedNow off).2 ∧ (∀ i, k ≤ i → (t.reg off).getLsbD i = (s.reg off).getLsbD i) := by
  have hne : r.rc ≠ 0 := by
    have := Nat.one_lt_two_pow (Nat.ne_of_gt h0)
    omega
  refine ⟨s.readClear src off (BitVec.ofNat 32 (2 ^ k - 1)), s.rcWord off (BitVec.ofNat 32 (2 ^ k - 1)), ?_,
    State.onlyRegsOut_readClear s src off _, ?_, fun i hi => ?_, State.getField_readClear hk hc src,
    fun i hi => State.getLsbD_readClear_ge hi src⟩
  · rw [exec_rcRegisterRead_of_takesRead hs, busRead_of_rc ha hlow hhigh hr hne, hrc]
  · rw [State.rcWord_eq, getField_maskedWord_low]
  · rw [State.rcWord_eq, getLsbD_maskedWord_low, if_neg (by omega)]

theorem land_flag (s : State) (e : Nat) (b : Bool)
    (h : s.later = { events := [], flags := [(e, b)], latches := [], notices := [] }) :
    s.land.flag e = b ∧ s.onlyRegs s.land [R.eventSet (e / 32)] := by
  have h0 : s.onlyRegs s.noneLater [R.eventSet (e / 32)] := State.onlyRegs_noneLater s _
  rw [State.land_of_flag h]
  cases b with
  | false => exact ⟨State.flag_putFlag_self _ e false, h0.setBit (by simp) _ _⟩
  | true => exact ⟨State.flag_setFlag_self _ e, h0.hwSet (by simp) _⟩

/-- The latch with the lower key lands first; the register is valid then, so the other finds it taken. -/
theorem land_latches (s : State) (x y : Latch)
    (h : s.later = { events := [], flags := [], latches := [x, y], notices := [] }) (ho : x.off = y.off) (hk : y.key < x.key)
    (hy : y.also = []) (hv : y.val < 2 ^ 31) :
    (s.bit y.off 31 = false → s.land.reg y.off = BitVec.ofNat 32 (2 ^ 31 + y.val) ∧ s.onlyRegs s.land [y.off]) ∧
      (s.bit y.off 31 = true → s.onlyRegs s.land []) := by
  have hl : s.land = (s.noneLater.landLatch y).landLatch x := State.land_of_latches h hk
  constructor
  · intro hfree
    have hx : (s.noneLater.landLatch y).bit x.off 31 = true := ho ▸ State.bit_landLatch_of_free hfree hy hv
    rw [hl, State.landLatch_of_valid hx]
    exact ⟨State.reg_landLatch_of_free hfree hy,
      (State.onlyRegs_noneLater s _).trans (State.onlyRegs_landLatch_of_free hfree hy)⟩
  · intro hvalid
    have hfirst : s.noneLater.landLatch y = s.noneLater := State.landLatch_of_valid hvalid
    have hsecond : s.noneLater.landLatch x = s.noneLater := State.landLatch_of_valid (ho ▸ hvalid)
    rw [hl, hfirst, hsecond]
    exact State.onlyRegs_noneLater s _

theorem land_event_of_free (s : State) (e : McEvent) (n : Nat)
    (h : s.later = { events := [e], flags := [], latches := [], notices := [] }) (hc : s.bit R.mcCtl 31 = false)
    (hn : s.freeMcEntry = some n) (hs : e.source < 16) (hu : e.unit < 256) :
    s.land.bit (R.mcInfo n) 31 = true ∧ s.land.fld (R.mcInfo n) 24 4 = e.source ∧ s.land.fld (R.mcInfo n) 16 8 = e.unit ∧
      s.land.fld (R.mcInfo n) 0 16 = e.status.toNat ∧ s.onlyRegs s.land (mcRegs n) := by
  have hl : s.land = s.noneLater.fillMcEntry n e := (State.land_of_event h).trans (State.logEvent_of_free hn hc)
  have hw : s.land.reg (R.mcInfo n) = e.infoWord := by rw [hl, State.reg_fillMcEntry_info]
  obtain ⟨hvalid, hsource, hunit, hstatus⟩ := McEvent.getField_infoWord hs hu
  simp only [State.bit, State.fld, hw, hvalid, hsource, hunit, hstatus, decide_true, true_and]
  exact hl ▸ (State.onlyRegs_noneLater s _).trans (State.onlyRegs_fillMcEntry _ n e)

theorem land_event_of_full (s : State) (e : McEvent)
    (h : s.later = { events := [e], flags := [], latches := [], notices := [] }) (hc : s.bit R.mcCtl 31 = false)
    (hn : s.freeMcEntry = none) :
    s.land.reg R.mcLost = satAdd (s.reg R.mcLost) 1 ∧ s.onlyRegs s.land [R.mcLost] := by
  have hl : s.land = s.noneLater.bump R.mcLost 1 := (State.land_of_event h).trans (State.logEvent_of_full hn hc)
  rw [hl]
  exact ⟨State.reg_bump_self _ _ _, (State.onlyRegs_noneLater s _).bump (by simp) 1⟩

/-- Settles O10, clause by clause. -/
theorem sameCycleEventsAreKept : Obligations.SameCycleEventsAreKept := by
  unfold Obligations.SameCycleEventsAreKept
  refine ⟨registerWrite_w1c_keeps_setNow, rcRegisterRead_keeps_increments, ?bump, ?flag, ?latches, ?event⟩
  case bump => exact fun off n s => ⟨State.countedNow_bump_self s off n, State.reg_bump_self s off n⟩
  case flag => exact fun s e b _ h => land_flag s e b h
  case latches => exact fun s x y h ho hk _ hy hv => land_latches s x y h ho hk hy hv
  case event =>
    exact fun s e h hc => ⟨fun n hn _ hs hu => land_event_of_free s e n h hc hn hs hu, land_event_of_full s e h hc⟩

end Sys2Proof.Machine
end

section
namespace Sys2Proof.Machine

open Sys2Proof

/-!
### A register that an operation leaves alone

Folds of updates, and the named updates that write some other register.
-/

theorem State.reg_of_regs_eq {s t : State} (h : s.regs = t.regs) (o : Nat) : s.reg o = t.reg o := by
  unfold State.reg
  rw [h]

/-- A register that every update of a fold leaves alone reads as before. -/
theorem State.reg_foldl {β : Type} {f : State → β → State} {o : Nat} {l : List β}
    (hf : ∀ u, ∀ x ∈ l, (f u x).reg o = u.reg o) (s : State) : (l.foldl f s).reg o = s.reg o :=
  List.foldlRecOn (motive := fun u => u.reg o = s.reg o) l f rfl (fun u hu x hx => (hf u x hx).trans hu)

theorem State.reg_hwSet_ne (s : State) {off o : Nat} (i : Nat) (h : o ≠ off) : (s.hwSet off i).reg o = s.reg o :=
  State.reg_setBit_ne s i true h

theorem State.reg_setHold_ne (s : State) {o : Nat} (held : Bool) (cause stream : Nat) (h : o ≠ R.strHold) :
    (s.setHold held cause stream).reg o = s.reg o :=
  State.reg_setReg_ne s _ h

@[simp] theorem State.reg_wrapAdd_self (s : State) (off n : Nat) : (s.wrapAdd off n).reg off = s.reg off + BitVec.ofNat 32 n :=
  State.reg_setReg_self s off _

/-!
### The step boundary, register by register (R209, R232, R365)

The boundary writes the hold counters, all from HOLD_CUR up, the registers of the delivery streams, all from STR_BAD up, and a
few by name: a register below the first of a group is not touched by what it does to that group.
-/

theorem State.reg_countHold_of_lt (s : State) {o : Nat} (cause cycles : Nat) (h : o < R.holdCurLo 0) :
    (s.countHold cause cycles).reg o = s.reg o := by
  unfold R.holdCurLo at h
  unfold State.countHold State.bump64
  rw [State.reg_setReg64_ne, State.reg_setReg64_ne] <;> simp only [R.holdCurLo, R.holdTotalLo] <;> omega

theorem State.reg_resolveWhere_of_lt (s : State) {o : Nat} (p : Deferred → Bool) (h : o < R.holdCurLo 0) :
    (s.resolveWhere p).reg o = s.reg o :=
  State.reg_foldl (fun u _ _ => u.reg_countHold_of_lt _ _ h) s

theorem State.reg_countHeldCycle_of_lt (s : State) {o : Nat} (h : o < R.holdCurLo 0) : s.countHeldCycle.reg o = s.reg o := by
  unfold State.countHeldCycle
  dsimp only
  split
  case isTrue => rfl
  case isFalse => exact s.reg_countHold_of_lt _ _ h

theorem State.reg_keepCounts_of_lt (s : State) {o : Nat} (step : Word) (h : o < R.holdCurLo 0) :
    (s.keepCounts step).reg o = s.reg o := by
  unfold R.holdCurLo at h
  unfold State.keepCounts
  rw [State.reg_setReg_ne _ _ (by unfold R.holdLastStep; omega)]
  refine State.reg_foldl (fun u c _ => ?_) s
  rw [State.reg_setReg64_ne, State.reg_setReg64_ne] <;> simp only [R.holdCurLo, R.holdLastLo] <;> omega

theorem State.reg_closeHolds_of_lt (s : State) {o : Nat} (h : o < R.holdCurLo 0) : s.closeHolds.reg o = s.reg o := by
  have counted : (if s.running && s.held then s.countHeldCycle else s).reg o = s.reg o := by
    split
    · exact s.reg_countHeldCycle_of_lt h
    · rfl
  unfold State.closeHolds
  dsimp only
  split
  case isTrue => exact (State.reg_resolveWhere_of_lt _ _ h).trans counted
  case isFalse => exact (State.reg_keepCounts_of_lt _ _ h).trans ((State.reg_resolveWhere_of_lt _ _ h).trans counted)

/-- The active streams are no register. -/
theorem State.reg_withStreams (s : State) (d : SMap (Option DsRun)) (o : Nat) : ({ s with ds := d } : State).reg o = s.reg o := rfl

theorem State.reg_activateStreams_of_lt (s : State) {o : Nat} (h : o < R.strBad 0) : s.activateStreams.reg o = s.reg o := by
  unfold R.strBad at h
  unfold State.activateStreams
  refine (State.reg_withStreams _ _ o).trans
    ((State.reg_foldl (fun u k _ => ?bad) _).trans (State.reg_foldl (fun u n _ => ?table) s))
  case bad => rw [State.reg_setReg_ne, State.reg_setReg_ne] <;> simp only [R.strBad, R.strFailed] <;> omega
  case table =>
    rw [State.reg_setReg_ne, State.reg_setReg_ne, State.reg_setReg_ne] <;> simp only [R.dsNext, R.dsDone, R.dsState] <;> omega

theorem State.reg_applyEpoch_ne (s : State) {o : Nat} (he : ∀ i < 12, o ≠ R.epochApplied i) (hs : o ≠ R.strSessionActive)
    (hr : o ≠ R.rdArrivalActive) : s.applyEpoch.reg o = s.reg o := by
  unfold State.applyEpoch
  rw [State.reg_setReg_ne _ _ hr, State.reg_setReg_ne _ _ hs]
  exact State.reg_foldl (fun u i hi => u.reg_setReg_ne _ (he i (List.mem_range.mp hi))) s

/-- STR_STEP is no EPOCH_APPLIED register. -/
theorem strStep_ne_epochApplied : ∀ i < 12, R.strStep ≠ R.epochApplied i := by
  unfold R.strStep R.epochApplied
  omega

theorem State.reg_boundary_strStep (s : State) (x : Task) : (s.boundary x).reg R.strStep = s.reg R.strStep + 1 := by
  have fields : (s.boundary x).regs =
      (((((s.closeHolds.setReg64 R.strScLo 0).wrapAdd R.strStep 1).setBit R.strRun 31 false).setHold false 0
        0).activateStreams.setReg R.strBarriers (BitVec.ofNat 32 (closeCount x.entry))).applyEpoch.regs := by
    unfold State.boundary
    rfl
  rw [State.reg_of_regs_eq fields, State.reg_applyEpoch_ne _ strStep_ne_epochApplied (by decide) (by decide),
    State.reg_setReg_ne _ _ (by decide), State.reg_activateStreams_of_lt _ (by decide), State.reg_setHold_ne _ _ _ _ (by decide),
    State.reg_setBit_ne _ _ _ (by decide), State.reg_wrapAdd_self, State.reg_setReg64_ne _ _ (by decide) (by decide),
    State.reg_closeHolds_of_lt _ (by decide)]
  rfl

theorem exec_stepBoundaryApply_of_due {s : State} {x : Task} (hx : s.runningClose = some x) (hd : s.boundaryDue x = true) :
    exec .stepBoundaryApply s = .next (s.boundary x) :=
  congrArg Host.Outcome.next (show applyBoundary s = s.boundary x by simp [applyBoundary, hx, hd])

/-!
### What a register reads after a reset (R377, R381)

A register that no reset carries over reads its reset value.
-/

theorem State.reg_carry_of_not_mem (s old : State) {offs : List Nat} {o : Nat} (h : o ∉ offs) :
    (s.carry old offs).reg o = s.reg o :=
  State.reg_foldl (fun u x hx => u.reg_setReg_ne _ (show o ≠ x from fun e => h (e ▸ hx))) s

theorem State.reg_cold (s : State) {kept : List Nat} {o : Nat} (h : o ∉ imageRegs ++ kept) (hc : o ≠ R.cpRecord) :
    (s.cold kept).reg o = resetWord o := by
  unfold State.cold
  exact (State.reg_setBit_ne _ _ _ hc).trans (State.reg_carry_of_not_mem _ _ h)

theorem State.reg_offState (s : State) {o : Nat} (h : o ∉ imageRegs ++ alwaysOnRegs) : s.offState.reg o = resetWord o := by
  obtain ⟨hst, hrec⟩ : o ≠ R.stStatus ∧ o ≠ R.cpRecord := by simp_all [alwaysOnRegs]
  have fields : s.offState.regs = ((s.cold alwaysOnRegs).setReg R.stStatus 0).regs := by
    unfold State.offState
    rfl
  rw [State.reg_of_regs_eq fields, State.reg_setReg_ne _ _ hst, s.reg_cold h hrec]

theorem State.reg_selfReset (s : State) (cause : Nat) {o : Nat} (h : o ∉ imageRegs ++ alwaysOnRegs) (hp : o ≠ R.pwStatus)
    (hm : o ≠ R.mqState) (ht : ∀ b < 9, o ≠ R.tbSiteStatus b) : (s.selfReset cause).reg o = resetWord o := by
  obtain ⟨hcause, hcount, hhold, hrec⟩ : o ≠ R.rstCause ∧ o ≠ R.rstCount ∧ o ≠ R.pwCoreHold ∧ o ≠ R.cpRecord := by
    simp_all [alwaysOnRegs]
  unfold State.selfReset
  refine (State.reg_foldl (fun u b hb => u.reg_setBit_ne _ _ (ht b (List.mem_range.mp hb))) _).trans ?_
  dsimp only
  rw [apply_ite (fun u : State => u.reg o), State.reg_setFld_ne _ _ _ _ hm, ite_self, State.reg_setBit_ne _ _ _ hhold,
    State.reg_bump_ne _ _ hcount, State.reg_hwSet_ne _ _ hcause, State.reg_setBit_ne _ _ _ hp, State.reg_setReg_ne _ _ hp,
    State.reg_setBit_ne _ _ _ hrec]
  exact State.reg_carry_of_not_mem _ _ h

/-- The start of a wake writes registers of the always-on slice alone. -/
theorem State.reg_startWake (s : State) (w : LatchedWake) {o : Nat} (h : o ∉ alwaysOnRegs) : (s.startWake w).reg o = s.reg o := by
  obtain ⟨hwake, hdetail, hlo, hhi, hcause⟩ : o ≠ R.pwWake ∧ o ≠ R.pwWakeDetail ∧ o ≠ R.pwWakeTimeLo ∧ o ≠ R.pwWakeTimeHi ∧
      o ≠ R.rstCause := by simp_all [alwaysOnRegs]
  have recorded (u : State) : (if s.power = .off then u.hwSet R.rstCause 26 else u).reg o = u.reg o := by
    split
    · exact u.reg_hwSet_ne 26 hcause
    · rfl
  unfold State.startWake
  dsimp only
  refine (State.reg_of_regs_eq rfl o).trans ((recorded _).trans ?_)
  rw [State.reg_noteSet', State.reg_setReg64_ne _ _ hlo hhi, State.reg_setReg_ne _ _ hdetail, State.reg_setReg_ne _ _ hwake]

/-- STR_STEP is reset to 0 (R234). -/
theorem resetWord_strStep : resetWord R.strStep = 0 := by decide

theorem strStep_not_mem_kept : R.strStep ∉ imageRegs ++ alwaysOnRegs := by decide

theorem State.reg_cold_strStep (s : State) : (s.cold []).reg R.strStep = 0 :=
  (s.reg_cold (by decide) (by decide)).trans resetWord_strStep

theorem State.reg_selfReset_strStep (s : State) (cause : Nat) : (s.selfReset cause).reg R.strStep = 0 :=
  (s.reg_selfReset cause strStep_not_mem_kept (by decide) (by decide)
    (fun b _ => by unfold R.strStep R.tbSiteStatus; omega)).trans resetWord_strStep

/-- The way to Off ends in a cold state, whether or not a wake latched meanwhile starts at once (R385, R387). -/
theorem reg_entryComplete_strStep_of_off {s : State} (he : s.entering = some .off) (hl : s.linesDone = true)
    (hc : s.powerAt + entryCycles .off ≤ s.cycle) : (entryComplete s).reg R.strStep = 0 := by
  have late : ¬ (! s.linesDone ∨ s.cycle < s.powerAt + entryCycles .off) := by simp [hl, hc]
  have cold : ({ s.offState with latchedWake := s.latchedWake } : State).reg R.strStep = 0 :=
    (State.reg_of_regs_eq rfl _).trans ((s.reg_offState strStep_not_mem_kept).trans resetWord_strStep)
  unfold entryComplete
  rw [he]
  dsimp only
  rw [if_neg late, if_pos rfl]
  split
  next w _ => exact (State.reg_startWake _ w (by decide)).trans cold
  next => exact cold

theorem State.ifRuns_of_runs {s : State} (hp : s.powered = true) (ho : s.power ≠ .off) (f : State → State) : s.ifRuns f = f s :=
  if_pos ⟨hp, ho⟩

theorem linkLoss_of_lost {s : State} (hp : s.powered = true) (ho : s.power ≠ .off) (hd : s.linkDown = true)
    (hlo : 16000 < s.linkDownCycles) (hhi : s.linkDownCycles < lossTaken) : linkLoss s = s.selfReset 30 :=
  (if_pos ⟨hd, hlo, hhi⟩).trans (State.ifRuns_of_runs hp ho _)

/-- The four commands that end in a self-reset of a block that runs (R377, R378). -/
theorem exec_eq_selfReset {s : State} {c : Instr} (hp : s.powered = true) (ho : s.power ≠ .off)
    (hc : c = .hotReset ∨ c = .functionLevelReset ∨ c = .perstAssert ∨
      (c = .linkLossTimeout ∧ s.linkDown = true ∧ 16000 < s.linkDownCycles ∧ s.linkDownCycles < lossTaken)) :
    ∃ cause, exec c s = .next (s.selfReset cause) := by
  obtain rfl | rfl | rfl | ⟨rfl, hd, hlo, hhi⟩ := hc
  · exact ⟨29, congrArg Host.Outcome.next (State.ifRuns_of_runs hp ho _)⟩
  · exact ⟨28, congrArg Host.Outcome.next (State.ifRuns_of_runs hp ho _)⟩
  · exact ⟨27, congrArg Host.Outcome.next (State.ifRuns_of_runs hp ho _)⟩
  · exact ⟨30, congrArg Host.Outcome.next (linkLoss_of_lost hp ho hd hlo hhi)⟩

/-- Settles O41: each reset ends in a state whose STR_STEP holds its reset value, and of what a boundary does to the register
file only the increment falls on STR_STEP. -/
theorem stepNumber : Obligations.StepNumber := by
  unfold Obligations.StepNumber
  refine ⟨fun s c hreset => ?resets, fun s x hx hd => ?boundary⟩
  case resets =>
    obtain rfl | rfl | ⟨rfl, he, hl, hc⟩ | ⟨hp, ho, hself⟩ := hreset
    · exact ⟨_, rfl, s.reg_cold_strStep⟩
    · exact ⟨_, rfl, (State.reg_of_regs_eq rfl _).trans s.reg_cold_strStep⟩
    · exact ⟨_, rfl, reg_entryComplete_strStep_of_off he hl hc⟩
    · obtain ⟨cause, hnext⟩ := exec_eq_selfReset hp ho hself
      exact ⟨_, hnext, s.reg_selfReset_strStep cause⟩
  case boundary =>
    refine ⟨_, exec_stepBoundaryApply_of_due hx hd, ?_⟩
    rw [State.reg_boundary_strStep, BitVec.toNat_add]
    rfl

end Sys2Proof.Machine
end

section
namespace Sys2Proof.Machine

open Sys2Proof

/-!
### A packet in hand and its final reply (R326, R331)

What a management command makes of the packet that Zuqueco has read, and what a final reply adds to the state.
-/

/-- The bytes of a packet that has an opcode other than 0 are not lost. -/
theorem Packet.bytes_ne_nil_of_opcode {p : Packet} {op : Nat} (h : pkOpcode p.bytes = op) (h0 : op ≠ 0) : p.bytes ≠ [] :=
  fun e => h0 (h ▸ e ▸ rfl)

theorem State.final_of_bytes_ne_nil {p : Packet} (h : p.bytes ≠ []) (s : State) (st : Status) (result : List Byte) :
    s.final p st result = { s with mq := { s.mq with replies := s.mq.replies ++ [p.answer st true result] } } :=
  if_neg h

theorem State.onPacket_of_cur {s : State} {p : Packet} {op : Nat} (hr : s.cpRuns = true) (hc : s.mq.cur = some p)
    (ho : pkOpcode p.bytes = op) (f : Packet → State → State) :
    s.onPacket op f = f p { s with mq := { s.mq with cur := none } } := by
  unfold State.onPacket
  rw [hc]
  exact if_pos ⟨hr, ho⟩

/-!
### WINDOW_CLOSE (R45, R340)

The two effects of the command on a window, the two outcomes of its drain.
-/

/-- A window that is not open serves no access, whatever its other fields grant. -/
theorem State.winServes_of_closed {s : State} {w : Nat} (h : s.bit (R.winCtl w) 31 = false) (node : Nat) (acc : Acc)
    (a len : Nat) : s.winServes w node acc a len = false := by
  simp [State.winServes, h]

theorem windowClosed_of_open {s : State} {p : Packet} (hr : s.cpRuns = true) (hc : s.mq.cur = some p)
    (ho : pkOpcode p.bytes = 0x86) (hw : s.bit (R.winCtl (pkBits p.bytes 8 0 6)) 31 = true) :
    windowClosed s =
      { s.setBit (R.winCtl (pkBits p.bytes 8 0 6)) 31 false with
        mq := { s.mq with cur := none, close := some (p, pkBits p.bytes 8 0 6) } } :=
  (State.onPacket_of_cur hr hc ho _).trans (if_pos hw)

theorem windowClosed_of_closed {s : State} {p : Packet} (hr : s.cpRuns = true) (hc : s.mq.cur = some p)
    (ho : pkOpcode p.bytes = 0x86) (hw : s.bit (R.winCtl (pkBits p.bytes 8 0 6)) 31 = false) :
    windowClosed s = { s with mq := { s.mq with cur := none, replies := s.mq.replies ++ [p.answer St.success true []] } } := by
  have shut : ¬ s.bit (R.winCtl (pkBits p.bytes 8 0 6)) 31 = true := by simp [hw]
  have hb : p.bytes ≠ [] := Packet.bytes_ne_nil_of_opcode ho (by decide)
  exact (State.onPacket_of_cur hr hc ho _).trans ((if_neg shut).trans (State.final_of_bytes_ne_nil hb _ _ _))

theorem windowDrained_of_none_waits {s : State} {p : Packet} {w : Nat} (hr : s.cpRuns = true) (hc : s.mq.close = some (p, w))
    (hn : ∀ a, a ∈ s.padWait → waitsBehind w a = false) (hb : p.bytes ≠ []) :
    windowDrained s = { s with mq := { s.mq with close := none, replies := s.mq.replies ++ [p.answer St.success true []] } } := by
  have free : ¬ (! s.cpRuns ∨ s.padWait.any (waitsBehind w)) := by simpa [hr] using hn
  unfold windowDrained
  rw [hc]
  exact (if_neg free).trans (State.final_of_bytes_ne_nil hb _ _ _)

theorem windowDrained_of_waits {s : State} {p : Packet} {w : Nat} (hc : s.mq.close = some (p, w))
    (ha : ∃ a, a ∈ s.padWait ∧ waitsBehind w a = true) : windowDrained s = s := by
  unfold windowDrained
  rw [hc]
  exact if_pos (.inr (List.any_eq_true.mpr ha))

/-- Settles O56: the command that finds its window open and the one that finds it closed, the drain with no access left behind
the window and with one that still waits. -/
theorem windowClose : Obligations.WindowClose := by
  unfold Obligations.WindowClose
  refine fun s hr => ⟨fun p hc ho => ⟨fun hw => ?opened, fun hw => ?closed⟩,
    fun p w hc => ⟨fun hn hb => ?drained, fun ha => ?waits⟩⟩
  case opened =>
    have hshut : (windowClosed s).bit (R.winCtl (pkBits p.bytes 8 0 6)) 31 = false := by
      rw [windowClosed_of_open hr hc ho hw]
      exact State.bit_setBit_self s _ 31 false (by decide)
    refine ⟨windowClosed s, rfl, hshut, State.winServes_of_closed hshut, ?_⟩
    rw [windowClosed_of_open hr hc ho hw]
    exact ⟨rfl, rfl, fun o hne => State.reg_setBit_ne s 31 false (List.ne_of_not_mem_cons hne)⟩
  case closed => exact congrArg Host.Outcome.next (windowClosed_of_closed hr hc ho hw)
  case drained => exact congrArg Host.Outcome.next (windowDrained_of_none_waits hr hc hn hb)
  case waits => exact congrArg Host.Outcome.next (windowDrained_of_waits hc ha)

end Sys2Proof.Machine
end

section
namespace Sys2Proof.Machine

open Sys2Proof

/-!
### What every command keeps

The one inversion lemma of `exec`: it always answers a next state, which keeps of the state before what its command may not change.
-/

theorem Keeps.ite {f m : Bool} {s u v : State} {p : Prop} [Decidable p] (hu : Keeps f m s u) (hv : Keeps f m s v) :
    Keeps f m s (if p then u else v) := by
  split
  · exact hu
  · exact hv

/-- What a part that may keep more keeps. -/
theorem Keeps.weaken {f m : Bool} {s t : State} (h : Keeps f m s t) : Keeps false false s t :=
  { h.toF with
    memEq := nofun, memGenEq := nofun, drtEq := nofun, flash0Eq := nofun, flash1Eq := nofun, powerEq := nofun, poweredEq := nofun }

theorem exec_coreLoad_keeps (core : Fin 8) (addr len : Nat) (buffered : Option (List Byte)) (cond : MemCond) {f m : Bool}
    {s : State} (k : Keeps f m s s) :
    ∃ t, exec (.coreLoad core addr len buffered cond) s = .next t ∧ Keeps f m s t := by
  refine ⟨_, rfl, ?_⟩
  split
  case h_1 => exact State.gate_keeps _ _ (busRead_keeps _ _ _ k) k
  case h_2 => exact Keeps.ite (doApertureLoad_keeps _ _ _ _ _ k) k
  case h_3 => exact doCoreLoad_keeps _ _ _ _ k
  case h_4 => exact State.emit_keeps _ k
  case h_5 => exact State.tierBGate_keeps _ _ _ (doCoreLoad_keeps _ _ _ _ k) k

theorem exec_coreStore_keeps (core : Fin 8) (addr : Nat) (bytes : List Byte) (cond : MemCond) {s : State}
    (k : Keeps false false s s) : ∃ t, exec (.coreStore core addr bytes cond) s = .next t ∧ Keeps false false s t := by
  refine ⟨_, rfl, ?_⟩
  split
  case h_1 => exact State.gate_keeps _ _ (busWrite_keeps _ _ _ k) k
  case h_2 => exact Keeps.ite (doApertureStore_keeps _ _ _ _ k) k
  case h_3 => exact State.tierBGate_keeps _ _ _ (doCoreStore_keeps _ _ _ _ k) k

theorem exec_keeps (c : Instr) (s : State) : ∃ t, exec c s = .next t ∧ Keeps (! mayRetable c) (! mayStore c) s t := by
  have k {f m : Bool} : Keeps f m s s := Keeps.self f m s
  cases c with
  | registerWrite => exact ⟨_, rfl, State.gate_keeps _ _ (busWrite_keeps _ _ _ k) k⟩
  | pairLowRead => exact ⟨_, rfl, State.gate_keeps _ _ (busRead_keeps _ _ _ k) k⟩
  | rcRegisterRead => exact ⟨_, rfl, State.gate_keeps _ _ (busRead_keeps _ _ _ k) k⟩
  | fabricTimeCorrection => exact ⟨_, rfl, correctTime_keeps _ k⟩
  | lockstepDisagree => exact ⟨_, rfl, Keeps.ite (lockstepStop_keeps k) k⟩
  | nodeIdWrite => exact ⟨_, rfl, State.gate_keeps _ _ (setNodeId_keeps _ k) k⟩
  | drtCtlWrite => exact ⟨_, rfl, State.gate_keeps _ _ (commitDrt_keeps _ _ _ k) k⟩
  | bar2Read => exact ⟨_, rfl, State.bar2Gate_keeps _ _ _ (doBar2Read_keeps _ _ _ _ k) k⟩
  | bar2Write => exact ⟨_, rfl, State.bar2Gate_keeps _ _ _ (doBar2Write_keeps _ _ _ _ k) k⟩
  | bar2Atomicop => exact ⟨_, rfl, State.emit_keeps _ k⟩
  | peerToPeerRequest => exact ⟨_, rfl, State.emit_keeps _ k⟩
  | apertureLoad => exact ⟨_, rfl, Keeps.ite (doApertureLoad_keeps _ _ _ _ _ k) k⟩
  | apertureStore => exact ⟨_, rfl, Keeps.ite (doApertureStore_keeps _ _ _ _ k) k⟩
  | coreLoad => exact exec_coreLoad_keeps _ _ _ _ _ k
  | coreStore => exact exec_coreStore_keeps _ _ _ _ k
  | coreAtomic => exact ⟨_, rfl, State.tierBGate_keeps _ _ _ (doCoreAtomic_keeps _ _ _ _ k) k⟩
  | fabricRemoteAccess => exact ⟨_, rfl, Keeps.ite (doRemote_keeps _ _ _ k) k⟩
  | sqDoorbell => exact ⟨_, rfl, State.gate_keeps _ _ (ringSqDoorbell_keeps _ _ k) k⟩
  | pushWindowWrite => exact ⟨_, rfl, State.gate_keeps _ _ (writePush_keeps _ _ _ k) k⟩
  | cqHeadDoorbell => exact ⟨_, rfl, State.gate_keeps _ _ (ringCqDoorbell_keeps _ _ k) k⟩
  | cqHeadWrite => exact ⟨_, rfl, State.gate_keeps _ _ (State.setCqHead_keeps _ _ k) k⟩
  | sqHeaderReadResponse => exact ⟨_, rfl, headerResponse_keeps _ _ k⟩
  | sqHeaderReread => exact ⟨_, rfl, headerReread_keeps _ k⟩
  | sqMarkTimeout => exact ⟨_, rfl, markTimeout_keeps _ k⟩
  | sqPrefetchRead => exact ⟨_, rfl, prefetchRead_keeps _ _ k⟩
  | entryAccept => exact ⟨_, rfl, acceptEntry_keeps _ _ k⟩
  | sqPause => exact ⟨_, rfl, State.gate_keeps _ _ (pauseQueue_keeps _ k) k⟩
  | sqResume => exact ⟨_, rfl, State.gate_keeps _ _ (resumeQueue_keeps _ k) k⟩
  | sqSkip => exact ⟨_, rfl, State.gate_keeps _ _ (skipEntry_keeps _ k) k⟩
  | blockListFetchComplete => exact ⟨_, rfl, blockListFetched_keeps _ _ k⟩
  | rangeStoreReserve => exact ⟨_, rfl, reserveRanges_keeps _ k⟩
  | translationRequestIssue => exact ⟨_, rfl, requestRound_keeps k⟩
  | translationCompletion => exact ⟨_, rfl, xlateCompleted_keeps _ _ k⟩
  | translationTimeout => exact ⟨_, rfl, xlateTimeout_keeps _ k⟩
  | pageRequestGroup => exact ⟨_, rfl, sendGroup_keeps _ k⟩
  | prgResponse => exact ⟨_, rfl, prgAnswered_keeps _ _ k⟩
  | priReenable => exact ⟨_, rfl, (State.setBit_keeps R.tuStatus 29 true (State.setBit_keeps R.tuStatus 31 false k)).toF⟩
  | invalidateRequest => exact ⟨_, rfl, invalidateRequested_keeps _ _ _ _ k⟩
  | invalidateCompletion => exact ⟨_, rfl, invalidateCompleted_keeps k⟩
  | ctxMapWrite => exact ⟨_, rfl, State.gate_keeps _ _ (writeCtxMap_keeps _ _ k) k⟩
  | dispatch => exact ⟨_, rfl, dispatchOne_keeps k⟩
  | readIssue => exact ⟨_, rfl, issueRead_keeps _ k⟩
  | readResponse => exact ⟨_, rfl, respond_keeps _ _ _ k⟩
  | ingotExpand => exact ⟨_, rfl, expandIngot_keeps _ k⟩
  | executeWrite => exact ⟨_, rfl, executeChecked_keeps _ _ k⟩
  | compressBlockDone => exact ⟨_, rfl, compressNext_keeps _ k⟩
  | writeAck => exact ⟨_, rfl, ackWrite_keeps _ _ k⟩
  | flushReadCompletion => exact ⟨_, rfl, flushDone_keeps _ _ k⟩
  | completionRecordWrite => exact ⟨_, rfl, writeRecord_keeps _ k⟩
  | completionRecordAck => exact ⟨_, rfl, ackRecord_keeps _ _ k⟩
  | cqIrqDelayExpiry => exact ⟨_, rfl, irqDelay_keeps _ k⟩
  | journalAppend => exact ⟨_, rfl, appendJournal_keeps _ _ k⟩
  | journalEnable => exact ⟨_, rfl, State.gate_keeps _ _ (writeJrCfg_keeps _ k) k⟩
  | journalDisable => exact ⟨_, rfl, State.gate_keeps _ _ (writeJrCfg_keeps _ k) k⟩
  | waitComplete => exact ⟨_, rfl, completeWait_keeps _ k⟩
  | fenceComplete => exact ⟨_, rfl, completeFence_keeps _ k⟩
  | eventSetWrite => exact ⟨_, rfl, State.gate_keeps _ _ (setEvents_keeps _ _ k) k⟩
  | eventClrWrite => exact ⟨_, rfl, State.gate_keeps _ _ (clearEvents_keeps _ _ k) k⟩
  | timerFire => exact ⟨_, rfl, fireTimer_keeps _ k⟩
  | tmrCtlWrite => exact ⟨_, rfl, State.gate_keeps _ _ (writeTmrCtl_keeps _ _ k) k⟩
  | stepStartStrobe => exact ⟨_, rfl, stepStart_keeps k⟩
  | stepEndStrobe => exact ⟨_, rfl, stepEnd_keeps k⟩
  | tileDeadline => exact ⟨_, rfl, tileDeadline_keeps _ _ k⟩
  | barrierCycle => exact ⟨_, rfl, barrierCycle_keeps k⟩
  | generationWordWrite => exact ⟨_, rfl, writeGeneration_keeps _ k⟩
  | tileComplete => exact ⟨_, rfl, completeTile_keeps _ k⟩
  | holdLimitReached => exact ⟨_, rfl, reportLongHold_keeps k⟩
  | releaseFailed => exact ⟨_, rfl, State.gate_keeps _ _ (releaseFailed_keeps _ k) k⟩
  | crdAddWrite => exact ⟨_, rfl, State.gate_keeps _ _ (addCredits_keeps _ _ k) k⟩
  | crdValWrite => exact ⟨_, rfl, State.gate_keeps _ _ (State.setReg_keeps _ _ k) k⟩
  | stepBoundaryApply => exact ⟨_, rfl, applyBoundary_keeps k⟩
  | stepCloseComplete => exact ⟨_, rfl, completeClose_keeps k⟩
  | collectiveCreditGrant => exact ⟨_, rfl, creditGranted_keeps _ _ _ _ _ k⟩
  | collectivePieceSend => exact ⟨_, rfl, pieceSend_keeps _ _ k⟩
  | collectivePieceReceive => exact ⟨_, rfl, pieceReceive_keeps _ _ k⟩
  | collectiveFailureNotice => exact ⟨_, rfl, failureNotice_keeps _ _ k⟩
  | multicastDetachTimeout => exact ⟨_, rfl, detachMember_keeps _ _ k⟩
  | feCtlWrite => exact ⟨_, rfl, State.gate_keeps _ _ (writeFeCtl_keeps _ k) k⟩
  | fabricPortDrained => exact ⟨_, rfl, portDrained_keeps _ k⟩
  | fabricRequestTimeout => exact ⟨_, rfl, State.failFabric_keeps _ _ _ k⟩
  | hostRequestTimeout => exact ⟨_, rfl, State.failHost_keeps _ _ _ k⟩
  | lateResponse => exact ⟨_, rfl, State.bump_keeps _ _ k⟩
  | fabricPacketCrcFail => exact ⟨_, rfl, packetCrcFail_keeps _ _ _ _ k⟩
  | rxEnable => exact ⟨_, rfl, State.gate_keeps _ _ (writeRxCfg_keeps _ _ k) k⟩
  | rxDisable => exact ⟨_, rfl, State.gate_keeps _ _ (writeRxCfg_keeps _ _ k) k⟩
  | rxHeadWrite => exact ⟨_, rfl, State.gate_keeps _ _ (writeRxHead_keeps _ _ k) k⟩
  | creditRequestArrival => exact ⟨_, rfl, creditRequested_keeps _ _ _ k⟩
  | creditAnswerArrival => exact ⟨_, rfl, creditAnswered_keeps _ _ _ k⟩
  | creditRetryBackoff => exact ⟨_, rfl, creditRetry_keeps _ _ k⟩
  | messagePacketArrival => exact ⟨_, rfl, messageArrived_keeps _ _ k⟩
  | messageSlotWritten => exact ⟨_, rfl, slotWritten_keeps _ _ k⟩
  | deliveryReply => exact ⟨_, rfl, delivered_keeps _ _ _ k⟩
  | messageRefusalAnswer => exact ⟨_, rfl, messageRefused_keeps _ _ _ k⟩
  | slotGrantTimeout => exact ⟨_, rfl, slotTimeout_keeps _ _ k⟩
  | spSend => exact ⟨_, rfl, State.gate_keeps _ _ (sendMessage_keeps _ _ k) k⟩
  | spResume => exact ⟨_, rfl, State.gate_keeps _ _ (resumePort_keeps _ k) k⟩
  | spDiscard => exact ⟨_, rfl, State.gate_keeps _ _ (discardPort_keeps _ k) k⟩
  | spFlush => exact ⟨_, rfl, State.gate_keeps _ _ (flushPort_keeps _ k) k⟩
  | sendWatchdogExpiry => exact ⟨_, rfl, sendWatchdog_keeps _ k⟩
  | heartbeatSend => exact ⟨_, rfl, sendHeartbeats_keeps k⟩
  | heartbeatReceive => exact ⟨_, rfl, heartbeatReceived_keeps _ _ k⟩
  | peerHeartbeatTimeout => exact ⟨_, rfl, peerTimeout_keeps _ k⟩
  | peerCfgWrite => exact ⟨_, rfl, State.gate_keeps _ _ (writePeerCfg_keeps _ _ k) k⟩
  | tierBRead => exact ⟨_, rfl, readTierB_keeps _ _ _ _ k⟩
  | rowLogCopy => exact ⟨_, rfl, copyRow_keeps _ _ k⟩
  | scrubRead => exact ⟨_, rfl, scrubLine_keeps _ _ _ k⟩
  | refreshDue => exact ⟨_, rfl, refreshBank_keeps _ _ _ k⟩
  | refreshRatePoll => exact ⟨_, rfl, pollRate_keeps _ _ k⟩
  | evacuationCopyLine => exact ⟨_, rfl, copyLine_keeps _ _ k⟩
  | spdReadout => exact ⟨_, rfl, startSpd_keeps _ _ k⟩
  | spdResponseTimeout => exact ⟨_, rfl, spdTimeout_keeps _ k⟩
  | arbiterRequestArrival => exact ⟨_, rfl, arbiterArrival_keeps _ _ k⟩
  | arbiterDecision => exact ⟨_, rfl, arbiterDecision_keeps _ _ _ _ k⟩
  | arbiterRetryBackoff => exact ⟨_, rfl, arbiterRetry_keeps _ _ k⟩
  | portWatchdogExpiry => exact ⟨_, rfl, portWatchdog_keeps _ _ k⟩
  | mqEnable => exact ⟨_, rfl, State.gate_keeps _ _ (writeMqCfg_keeps _ k) k⟩
  | mqDisable => exact ⟨_, rfl, State.gate_keeps _ _ (writeMqCfg_keeps _ k) k⟩
  | mqDoorbell => exact ⟨_, rfl, State.gate_keeps _ _ (ringMqDoorbell_keeps _ k) k⟩
  | mqPacketRead => exact ⟨_, rfl, readPacket_keeps _ k⟩
  | mqPacketReread => exact ⟨_, rfl, rereadPacket_keeps k⟩
  | mqMarkTimeout => exact ⟨_, rfl, packetTimeout_keeps k⟩
  | mqReplyWrite => exact ⟨_, rfl, writeReply_keeps k⟩
  | mqCqHeadWrite => exact ⟨_, rfl, State.gate_keeps _ _ (writeMqCqHead_keeps _ k) k⟩
  | queueCreate => exact ⟨_, rfl, createQueue_keeps _ k⟩
  | queueDestroy => exact ⟨_, rfl, destroyQueue_keeps k⟩
  | abort => exact ⟨_, rfl, abortScope_keeps k⟩
  | abortComplete => exact ⟨_, rfl, finishAbort_keeps k⟩
  | tableLoad => exact ⟨_, rfl, loadTable_keeps _ k⟩
  | tableInstallComplete => exact ⟨_, rfl, Keeps.ite (installTable_keeps k) k⟩
  | windowOpen => exact ⟨_, rfl, windowOpened_keeps k⟩
  | windowClose => exact ⟨_, rfl, windowClosed_keeps k⟩
  | windowCloseDrained => exact ⟨_, rfl, windowDrained_keeps k⟩
  | epochSet => exact ⟨_, rfl, stageEpoch_keeps k⟩
  | powerSet => exact ⟨_, rfl, setPower_keeps k⟩
  | engineRetire => exact ⟨_, rfl, retireEngine_keeps k⟩
  | engineRetireDrained => exact ⟨_, rfl, retireDrained_keeps k⟩
  | siteEvacuate => exact ⟨_, rfl, evacuateSite_keeps _ _ k⟩
  | siteEvacuateCancel => exact ⟨_, rfl, cancelEvacuation_keeps k⟩
  | identRead => exact ⟨_, rfl, readIdentity_keeps _ k⟩
  | telemetrySnap => exact ⟨_, rfl, snapTelemetry_keeps _ k⟩
  | flagWrite => exact ⟨_, rfl, writeFlag_keeps k⟩
  | firmwareStage => exact ⟨_, rfl, stageFirmware_keeps _ _ k⟩
  | firmwareStageDone => exact ⟨_, rfl, stageDone_keeps _ k⟩
  | firmwareSwitch => exact ⟨_, rfl, switchFirmware_keeps k⟩
  | firmwareSwitchFinal => exact ⟨_, rfl, switchDone_keeps k⟩
  | firmwareSwitchTimeout => exact ⟨_, rfl, switchTimeout_keeps k⟩
  | powerOn => exact ⟨_, rfl, State.cold_keeps _ k⟩
  | powerRemoved => exact ⟨_, rfl, (State.cold_keeps [] k).anew rfl rfl (List.suffix_refl _) id id⟩
  | hostLinkDown => exact ⟨_, rfl, linkDown_keeps k⟩
  | hostLinkUp => exact ⟨_, rfl, Keeps.ite (linkUp_keeps k) k⟩
  | linkLossTimeout => exact ⟨_, rfl, linkLoss_keeps k⟩
  | hotReset => exact ⟨_, rfl, State.ifRuns_keeps _ (State.selfReset_keeps _ k) k⟩
  | functionLevelReset => exact ⟨_, rfl, State.ifRuns_keeps _ (State.selfReset_keeps _ k) k⟩
  | perstAssert => exact ⟨_, rfl, State.ifRuns_keeps _ (State.selfReset_keeps _ k) k⟩
  | selfResetRestoreDone => exact ⟨_, rfl, restoreDone_keeps k⟩
  | startupChecksDone => exact ⟨_, rfl, checksDone_keeps _ k⟩
  | padRelease => exact ⟨_, (apply_ite Host.Outcome.next _ _ _).symm, Keeps.ite k (State.gate_keeps _ _ (releasePads_keeps _ k) k)⟩
  | startupContinuationDone => exact ⟨_, rfl, continuationDone_keeps _ _ k⟩
  | coreHoldRelease => exact ⟨_, rfl, State.gate_keeps _ _ (releaseCores_keeps _ k) k⟩
  | autoIdleExpiry => exact ⟨_, rfl, autoIdle_keeps k⟩
  | powerEntryComplete => exact ⟨_, rfl, entryComplete_keeps k⟩
  | wakeEvent => exact ⟨_, rfl, wakeEvent_keeps _ _ k⟩
  | wakeComplete => exact ⟨_, rfl, wakeComplete_keeps k⟩
  | laneRemap => exact ⟨_, rfl, State.gate_keeps _ _ (writeLaneCtl_keeps _ _ k) k⟩
  | laneRestore => exact ⟨_, rfl, State.gate_keeps _ _ (writeLaneCtl_keeps _ _ k) k⟩
  | laneRemapDone => exact ⟨_, rfl, remapDone_keeps _ _ k⟩
  | cpPairSwitch => exact ⟨_, rfl, State.gate_keeps _ _ (switchPair_keeps _ k) k⟩
  | sparePairReady => exact ⟨_, rfl, sparePairBooted_keeps _ _ k⟩
  | repairRecordWriteDone => exact ⟨_, rfl, recordWritten_keeps _ k⟩
  | selfRefreshExit => exact ⟨_, rfl, selfRefreshExit_keeps k⟩
  | atsEnable => exact ⟨_, rfl, State.setBit_keeps _ _ _ k⟩
  | tierARowReport => exact ⟨_, rfl, rowReported_keeps _ _ _ _ k⟩

/-- What a command answers keeps the same. -/
theorem keeps_of_exec {c : Instr} {s t : State} (h : exec c s = .next t) : Keeps (! mayRetable c) (! mayStore c) s t := by
  obtain ⟨u, hu, k⟩ := exec_keeps c s
  obtain rfl : u = t := Host.Outcome.next.inj (hu.symm.trans h)
  exact k

theorem step_of_empty {s : State} (h : s.pending = []) : step s = .next s.tick := by
  unfold step
  rw [h]

theorem step_of_cons {s : State} {c : Instr} {rest : List Instr} (h : s.pending = c :: rest) :
    step s = exec c { s with pending := rest } := by
  unfold step
  rw [h]

/-- Settles O1: the second branch of `step`. -/
theorem frontCommandRuns : Obligations.FrontCommandRuns := by
  unfold Obligations.FrontCommandRuns
  exact fun _ _ _ => step_of_cons

/-- The two ways to step, and what each keeps. -/
theorem keeps_of_step {s t : State} (h : step s = .next t) :
    (s.pending = [] ∧ Keeps true false { s with cycle := s.cycle + 1 } t) ∨
      ∃ c rest, s.pending = c :: rest ∧ Keeps false false { s with pending := rest } t := by
  by_cases hp : s.pending = []
  · obtain rfl : s.tick = t := Host.Outcome.next.inj ((step_of_empty hp).symm.trans h)
    exact .inl ⟨hp, s.tick_keeps⟩
  · obtain ⟨c, rest, hc⟩ := List.exists_cons_of_ne_nil hp
    rw [step_of_cons hc] at h
    exact .inr ⟨c, rest, hc, (keeps_of_exec h).weaken⟩

/-- Settles O3: each of the two ways to step keeps both canonical forms. -/
theorem everyStepKeepsCanonicalForm : Obligations.EveryStepKeepsCanonicalForm := by
  unfold Obligations.EveryStepKeepsCanonicalForm
  intro s t hwf h
  obtain ⟨hmem, hregs⟩ := Bool.and_eq_true_iff.mp hwf
  refine Bool.and_eq_true_iff.mpr ?_
  obtain ⟨_, k⟩ | ⟨_, _, _, k⟩ := keeps_of_step h
  · exact ⟨k.memWf hmem, k.regsWf hregs⟩
  · exact ⟨k.memWf hmem, k.regsWf hregs⟩

/-- Settles O4: a core cycle passes on the empty queue alone, and a command runs on the rest of its queue. -/
theorem everyStepTakesOneCommand : Obligations.EveryStepTakesOneCommand := by
  unfold Obligations.EveryStepTakesOneCommand
  intro s t h
  obtain ⟨hp, k⟩ | ⟨c, rest, hp, k⟩ := keeps_of_step h
  · refine ⟨?_, k.outGrows, ?_⟩
    · rw [k.pendingEq]
      simp [hp]
    · rw [k.cycleEq, if_pos hp]
  · refine ⟨?_, k.outGrows, ?_⟩
    · rw [k.pendingEq, hp, List.tail_cons]
    · rw [k.cycleEq, hp, if_neg (List.cons_ne_nil c rest), Nat.add_zero]

theorem Keeps.sameMem {f : Bool} {s t : State} (h : Keeps f true s t) : s.sameMem t := by
  intro a
  unfold State.readByte
  rw [h.memEq rfl, h.memGenEq rfl]

/-- Settles O7. -/
theorem onlyStoresChangeMemory : Obligations.OnlyStoresChangeMemory := by
  unfold Obligations.OnlyStoresChangeMemory
  intro c s t hc h
  have k : Keeps (! mayRetable c) true s t := by simpa [hc] using keeps_of_exec h
  exact k.sameMem

/-- Settles O8. -/
theorem onlyTheseChangeTables : Obligations.OnlyTheseChangeTables := by
  unfold Obligations.OnlyTheseChangeTables
  intro c s t hc h
  have k : Keeps true (! mayStore c) s t := by simpa [hc] using keeps_of_exec h
  exact ⟨k.drtEq rfl, k.flash0Eq rfl, k.flash1Eq rfl, k.powerEq rfl, k.poweredEq rfl⟩

/-- Settles O5. -/
theorem resetIsCanonical : Obligations.ResetIsCanonical := by
  unfold Obligations.ResetIsCanonical
  rfl


/-!
### The state after reset

Which registers reset to zero: those that no row of the reset table holds.
-/

theorem inArray_iff {base stride count off : Nat} :
    inArray base stride count off = true ↔ base ≤ off ∧ (off - base) % stride = 0 ∧ (off - base) / stride < count := by
  simp [inArray, and_assoc]

/-- Does a row of the reset table, or the array of engine registers, hold an offset? -/
def rowHolds (off : Nat) (r : Nat × Nat × Nat × Nat) : Prop :=
  r.1 ≤ off ∧ (off - r.1) % r.2.1 = 0 ∧ (off - r.1) / r.2.1 < r.2.2.1

theorem resetWord_of_no_row {off : Nat} (h : ∀ r ∈ (0x300000, 0x1000, 68, 0) :: resetRows, ¬ rowHolds off r) :
    resetWord off = 0 := by
  have free (r : Nat × Nat × Nat × Nat) (hr : r ∈ (0x300000, 0x1000, 68, 0) :: resetRows) :
      inArray r.1 r.2.1 r.2.2.1 off = false := Bool.eq_false_iff.mpr fun hi => h r hr (inArray_iff.mp hi)
  have none_ : resetRows.find? (fun r => inArray r.1 r.2.1 r.2.2.1 off) = none :=
    List.find?_eq_none.mpr fun r hr => by simp [free r (List.mem_cons_of_mem _ hr)]
  simp [resetWord, free _ List.mem_cons_self, none_]

theorem resetWord_sqCfg (q : Nat) (h : q < 1024) : resetWord (R.sqCfg q) = 0 := by
  refine resetWord_of_no_row ?_
  simp only [resetRows, R.sqCfg, List.forall_mem_cons, rowHolds, List.not_mem_nil, false_imp_iff, implies_true, and_true]
  and_intros <;> omega

theorem resetWord_cqCfg (c : Nat) (h : c < 256) : resetWord (R.cqCfg c) = 0 := by
  refine resetWord_of_no_row ?_
  simp only [resetRows, R.cqCfg, List.forall_mem_cons, rowHolds, List.not_mem_nil, false_imp_iff, implies_true, and_true]
  and_intros <;> omega

theorem resetWord_eventSet (k : Nat) (h : k < 16) : resetWord (R.eventSet k) = 0 := by
  refine resetWord_of_no_row ?_
  simp only [resetRows, R.eventSet, List.forall_mem_cons, rowHolds, List.not_mem_nil, false_imp_iff, implies_true, and_true]
  and_intros <;> omega

theorem resetWord_arbCtl : ∀ n < 48, n < 11 ∨ 16 ≤ n → resetWord (R.arbCtl n) = 0x80000000 := by decide

/-- Settles O6: the register file of reset is empty, so every register reads its reset value. -/
theorem resetState : Obligations.ResetState := by
  unfold Obligations.ResetState
  have hreg : ∀ o, State.reset.reg o = resetWord o := fun _ => rfl
  refine ⟨hreg, rfl, rfl, fun ctx acc a len hctx => ?drt, fun e he => ?flag, resetWord_strStep, rfl, fun n hn => ?retry,
    fun q hq => ?sq, fun c hc => ?cq⟩
  case drt =>
    have hany (i : Nat) : State.reset.drt.any
        (fun p => decide (p.1 / 1024 = groupOf a) && p.2.admits ctx acc (a / 4096 + i)) = false := rfl
    simp only [State.drtAllows, hctx, decide_false, Bool.false_or, hany]
    simp [List.range_succ]
  case flag => simp [State.flag, State.bit, State.fld, hreg, resetWord_eventSet (e / 32) (by omega), getField]
  case retry => simp [State.retryService, State.bit, State.fld, hreg, resetWord_arbCtl n (by omega) (by omega), getField]
  case sq => simp [State.bit, State.fld, hreg, resetWord_sqCfg q hq, getField]
  case cq => simp [State.bit, State.fld, hreg, resetWord_cqCfg c hc, getField]


/-!
### A core cycle in which nothing stands over

Each part of the core cycle leaves such a state alone; what time does is then the whole of it (R385, R393).
-/

theorem abortScope_of_no_packet {s : State} (h : s.mq.cur = none) : abortScope s = s := by
  simp [abortScope, State.onPacket, h]

theorem State.land_of_nothing {s : State} (h : s.later = { events := [], flags := [], latches := [], notices := [] }) :
    s.land = s := by
  have same : ({ s with later := { events := [], flags := [], latches := [], notices := [] } } : State) = s := by rw [← h]
  simp [State.land, h, same]

theorem State.releaseHeld_of_nil {s : State} (h : s.fabricHeld = []) : s.releaseHeld = s := by
  have same : ({ s with fabricHeld := [] } : State) = s := by rw [← h]
  simp [State.releaseHeld, h, same]

theorem State.unsent_of_no_ports {s : State} (h : s.ports = []) (p : Nat) : s.unsent p = [] := by
  simp [State.unsent, State.port, h, sget, portDefault]

theorem State.requestCredits_of_no_ports {s : State} (h : s.ports = []) : s.requestCredits = s := by
  have heads : s.checkHeads = s :=
    List.foldlRecOn (motive := fun u => u = s) _ _ rfl fun u hu p _ => by
      subst hu
      simp [State.doomedMsg, State.unsent_of_no_ports h]
  have none_ : s.unsentMsgs = [] := by
    have every : (List.range 64).flatMap (fun _ => ([] : List (Nat × Msg × Nat))) = [] := List.flatMap_eq_nil_iff.mpr fun _ _ => rfl
    simp [State.unsentMsgs, State.unsent_of_no_ports h, fifoKeys, every]
  simp [State.requestCredits, heads, none_]

theorem State.endRefreshes_of_no_sites {s : State} (h : s.sites = []) : s.endRefreshes = s :=
  List.foldlRecOn (motive := fun u => u = s) _ _ rfl fun u hu b _ => by
    subst hu
    have same : ({ u with sites := [] } : State) = u := by rw [← h]
    have rest : u.site b = siteDefault b := by simp [State.site, h, sget]
    have put : u.putSite b (siteDefault b) = u := by simp [State.putSite, h, sset, serase, same]
    simp [State.endRefresh, rest, siteDefault]
    simpa [siteDefault] using put

theorem State.nextCycle_of_quiet {s : State} (h : s.quiet) :
    s.nextCycle = { s with cycle := s.cycle + 1, now := CycleRun.fresh } := by
  obtain ⟨htasks, -, -, -, -, hcur⟩ := h
  simp [State.nextCycle, abortScope_of_no_packet hcur, State.observe, htasks]

/-- What a core cycle does before time passes comes to `State.nextCycle`. -/
theorem State.tick_of_quiet {s : State} (h : s.quiet) :
    s.tick = if ! s.powered then s.nextCycle else if s.power = .off then s.nextCycle.tickTime
      else s.nextCycle.tickTime.tickRunning := by
  obtain ⟨-, hlater, hheld, hports, hsites, -⟩ := id h
  have hn := State.nextCycle_of_quiet h
  have same : s.nextCycle.land.releaseHeld.requestCredits.endRefreshes = s.nextCycle := by
    rw [State.land_of_nothing (hn ▸ hlater), State.releaseHeld_of_nil (hn ▸ hheld),
      State.requestCredits_of_no_ports (hn ▸ hports), State.endRefreshes_of_no_sites (hn ▸ hsites)]
  simp only [State.tick, same]

/-- Settles O2. -/
theorem emptyQueueTicks : Obligations.EmptyQueueTicks := by
  unfold Obligations.EmptyQueueTicks
  intro s hp
  have k := s.tick_keeps
  refine ⟨s.tick, step_of_empty hp, k.pendingEq.trans hp, k.cycleEq, k.outGrows, k.drtEq rfl, k.flash0Eq rfl, k.flash1Eq rfl,
    k.powerEq rfl, k.poweredEq rfl, fun hq hn => ?unpowered, fun hq hn ho hg => ?counts, fun hq hn ho hg => ?held⟩
  case unpowered => simp [State.tick_of_quiet hq, State.nextCycle_of_quiet hq, hn]
  case counts =>
    have ht : s.tick = ({ s with cycle := s.cycle + 1, now := CycleRun.fresh } : State).setReg64 R.gtcLo (s.gtc + 1) := by
      simp [State.tick_of_quiet hq, State.nextCycle_of_quiet hq, hn, ho, State.tickTime, hg]
      rfl
    rw [ht]
    refine ⟨State.reg64_setReg64 _ _ _, fun o ho => ?_, rfl⟩
    simp only [List.mem_cons, List.not_mem_nil, or_false, not_or] at ho
    exact State.reg_setReg64_ne _ _ ho.1 ho.2
  case held =>
    have h0 : s.gtcHold ≠ 0 := by omega
    have h1 : s.gtcHold ≠ 1 := by omega
    simp [State.tick_of_quiet hq, State.nextCycle_of_quiet hq, hn, ho, State.tickTime, h0, h1]


end Sys2Proof.Machine
end

section
namespace Sys2Proof.Machine

open Sys2Proof

/-!
### An access that acts at once, and what leaves the block at once

The named register writes through their gate, and answers, which no loss of the host link holds back (R379).
-/

theorem State.regWrite_of_takesWrite {s : State} {src : Requester} {off : Nat} (h : s.takesWrite src off) (v : Word)
    (f : State → State) : s.regWrite src off v f = .next (f s) :=
  congrArg Host.Outcome.next (State.gate_of_takesWrite h _ f)

theorem State.emit_of_not_toHost {o : Out} (h : o.toHost = false) (s : State) : s.emit o = { s with out := o :: s.out } := by
  simp [State.emit, h]

/-- What leaves for the host is kept in order of its leaving, or of its waiting for DL_Up. -/
theorem State.emit_shape (s : State) (o : Out) : ∃ a b, s.emit o = { s with out := a, hostHeld := b } := by
  unfold State.emit
  split
  · exact ⟨s.out, s.hostHeld ++ [o], rfl⟩
  · exact ⟨o :: s.out, s.hostHeld, rfl⟩

/-!
### Lo/hi pairs (R5)

The four accesses to a pair: the low word staged and the high word committed, the low word read and the high word latched.
-/

theorem exec_pairLowRead_of_takesRead {s : State} {src : Requester} (h : s.takesRead src) (off len : Nat) :
    exec (.pairLowRead src ⟨off, len⟩) s = .next (busRead src off len s) :=
  congrArg Host.Outcome.next (State.gate_of_takesRead h off len _)

theorem isPairHigh_add_four {low : Nat} (h : isPairLow low = true) : isPairHigh (low + 4) = true := by
  simp [isPairHigh, h]

theorem wordWrite_of_pairLow {low : Nat} (h : isPairLow low = true) (src : Requester) (v : Word) (s : State) :
    wordWrite src low v s = s.stageLow src low v := by
  simp [wordWrite, h]

theorem wordWrite_of_pairHigh {low : Nat} (h : isPairLow low = true) (hh : isPairLow (low + 4) = false) (src : Requester)
    (v : Word) (s : State) : wordWrite src (low + 4) v s = s.commitPair src (low + 4) v := by
  simp [wordWrite, hh, isPairHigh_add_four h]

theorem busWrite_of_word {off : Nat} (hp : pushAt off = none) (ha : off % 4 = 0) {bytes : List Byte} (hl : bytes.length = 4)
    (src : Requester) (s : State) : busWrite src off bytes s = wordWrite src off (BitVec.ofNat 32 (leNat bytes)) s := by
  simp [busWrite, hp, ha, hl]

theorem busWrite_of_pair {low : Nat} (hp : pushAt low = none) (h : isPairLow low = true) {bl bh : List Byte}
    (hl : bl.length = 4) (hh : bh.length = 4) (src : Requester) (s : State) :
    busWrite src low (bl ++ bh) s =
      wordWrite src (low + 4) (BitVec.ofNat 32 (leNat bh)) (wordWrite src low (BitVec.ofNat 32 (leNat bl)) s) := by
  have htake : (bl ++ bh).take 4 = bl := by simp [← hl]
  have hdrop : (bl ++ bh).drop 4 = bh := by simp [← hl]
  simp [busWrite, hp, h, hl, hh, htake, hdrop]

/-- What the commit of a pair whose low word is staged writes: both words by their access types. -/
theorem State.commitPair_stageLow {s : State} {src : Requester} {low : Nat} {vl vh : Word}
    (hheld : s.pairHeld low = false) :
    ∃ st, (s.stageLow src low vl).commitPair src (low + 4) vh =
      (({ s with staged := st } : State).plainWrite low vl).plainWrite (low + 4) vh := by
  have staged : s.stageLow src low vl = { s with staged := sset (fun _ => none) s.staged (pairSlot src low) (some vl) } := by
    simp [State.stageLow, hheld]
  have held : ∀ st, ({ s with staged := st } : State).pairHeld low = false := fun _ => hheld
  rw [staged]
  refine ⟨sset (fun _ => none) (sset (fun _ => none) s.staged (pairSlot src low) (some vl)) (pairSlot src low) none, ?_⟩
  simp [State.commitPair, held]

/-- R6: a bit of no access type but read-write takes the bit written. -/
theorem State.getLsbD_plainWrite_rw {s : State} {off : Nat} {r : RegRow} {v : Word} (hr : regRow off = some r)
    (hv : s.refusesValue off v = false) {i : Nat} (hi : i < 32) (hc : r.w1c.testBit i = false) (hs : r.w1s.testBit i = false) :
    ((s.plainWrite off v).reg off).getLsbD i = if r.rw.testBit i then v.getLsbD i else (s.reg off).getLsbD i := by
  rw [State.plainWrite_of_row hr hv, State.reg_setReg_self, getLsbD_writtenWord _ _ _ _ _ _ _ hi, BitVec.testBit_toNat,
    BitVec.getLsbD_and, BitVec.getLsbD_ofNat]
  simp [hc, hs]

/-- A write by access types changes its register alone. -/
theorem State.reg_plainWrite_ne {s : State} {off o : Nat} {v : Word} (h : o ≠ off) : (s.plainWrite off v).reg o = s.reg o := by
  unfold State.plainWrite
  split
  · rfl
  · split
    · rfl
    · exact State.reg_setReg_ne _ _ h

theorem State.plainWrite_shape (s : State) (off : Nat) (v : Word) : ∃ r, s.plainWrite off v = { s with regs := r } := by
  unfold State.plainWrite
  split
  · exact ⟨_, rfl⟩
  · split
    · exact ⟨_, rfl⟩
    · exact ⟨_, rfl⟩

theorem getLsbD_ofNat_leNat (bs : List Byte) {i : Nat} (hi : i < 32) :
    (BitVec.ofNat 32 (leNat bs)).getLsbD i = (leNat bs).testBit i := by
  rw [BitVec.getLsbD_ofNat, decide_eq_true hi, Bool.true_and]

theorem pairWrite_commits (src : Requester) (low : Nat) (bl bh : List Byte) (s : State) (rl rh : RegRow)
    (hw : s.takesWrite src low) (hw4 : s.takesWrite src (low + 4)) (ha : low % 4 = 0) (hlow : isPairLow low = true)
    (hhigh : isPairLow (low + 4) = false) (hp : pushAt low = none) (hp4 : pushAt (low + 4) = none) (hbl : bl.length = 4)
    (hbh : bh.length = 4) (hrl : regRow low = some rl) (hrh : regRow (low + 4) = some rh) (hheld : s.pairHeld low = false)
    (hval : ∀ u : State, u.refusesValue low (BitVec.ofNat 32 (leNat bl)) = false ∧
      u.refusesValue (low + 4) (BitVec.ofNat 32 (leNat bh)) = false)
    (hplain : ∀ i, i < 32 →
      rl.w1c.testBit i = false ∧ rl.w1s.testBit i = false ∧ rh.w1c.testBit i = false ∧ rh.w1s.testBit i = false) :
    ∃ t u, exec (.registerWrite src low bl.length (leNat bl)) s = .next t ∧ t = { s with staged := t.staged } ∧
      exec (.registerWrite src (low + 4) bh.length (leNat bh)) t = .next u ∧
      exec (.registerWrite src low (bl ++ bh).length (leNat (bl ++ bh))) s = .next u ∧
      u = { s with regs := u.regs, staged := u.staged } ∧ s.regsBut u [low, low + 4] ∧
      ∀ i, i < 32 →
        (u.reg low).getLsbD i = (if rl.rw.testBit i then (leNat bl).testBit i else (s.reg low).getLsbD i) ∧
        (u.reg (low + 4)).getLsbD i = (if rh.rw.testBit i then (leNat bh).testBit i else (s.reg (low + 4)).getLsbD i) := by
  let vl := BitVec.ofNat 32 (leNat bl)
  let vh := BitVec.ofNat 32 (leNat bh)
  obtain ⟨st, hcommit⟩ := State.commitPair_stageLow (src := src) (vl := vl) (vh := vh) hheld
  have hstage : s.stageLow src low vl = { s with staged := (s.stageLow src low vl).staged } := by simp [State.stageLow, hheld]
  have hw4' : (s.stageLow src low vl).takesWrite src (low + 4) := hstage ▸ hw4
  refine ⟨s.stageLow src low vl, (s.stageLow src low vl).commitPair src (low + 4) vh, ?_, hstage, ?_, ?_, ?_⟩
  · rw [exec_registerWrite_of_takesWrite hw, busWrite_of_word hp ha hbl, wordWrite_of_pairLow hlow]
  · rw [exec_registerWrite_of_takesWrite hw4', busWrite_of_word hp4 (by omega) hbh, wordWrite_of_pairHigh hlow hhigh]
  · rw [exec_registerWrite_of_takesWrite hw, busWrite_of_pair hp hlow hbl hbh, wordWrite_of_pairLow hlow,
      wordWrite_of_pairHigh hlow hhigh]
  · rw [hcommit]
    generalize hu : ({ s with staged := st } : State) = u
    obtain ⟨r1, h1⟩ := u.plainWrite_shape low vl
    obtain ⟨r2, h2⟩ := (u.plainWrite low vl).plainWrite_shape (low + 4) vh
    have hreg : ∀ o, u.reg o = s.reg o := by simp [← hu, State.reg]
    refine ⟨by rw [h2, h1, ← hu], fun o ho => ?_, fun i hi => ⟨?_, ?_⟩⟩
    · simp only [List.mem_cons, List.not_mem_nil, or_false, not_or] at ho
      rw [State.reg_plainWrite_ne ho.2, State.reg_plainWrite_ne ho.1, hreg]
    · rw [State.reg_plainWrite_ne (by omega), State.getLsbD_plainWrite_rw hrl (hval u).1 hi (hplain i hi).1 (hplain i hi).2.1, hreg,
        getLsbD_ofNat_leNat bl hi]
    · rw [State.getLsbD_plainWrite_rw hrh (hval _).2 hi (hplain i hi).2.2.1 (hplain i hi).2.2.2, State.reg_plainWrite_ne (by omega),
        hreg, getLsbD_ofNat_leNat bh hi]

theorem State.readLow_eq (s : State) (src : Requester) (low : Nat) :
    s.readLow src low = { s with
      latched := sset (fun _ => none) s.latched (pairSlot src (low + 4)) (some (s.readWord (low + 4))),
      out := .regData src (s.readWord low) :: s.out } :=
  State.emit_of_not_toHost rfl _

theorem State.readHigh_of_latched {s : State} {src : Requester} {off : Nat} {w : Word}
    (h : sget (fun _ => none) s.latched (pairSlot src off) = some w) :
    s.readHigh src off = { s with
      latched := sset (fun _ => none) s.latched (pairSlot src off) none, out := .regData src w :: s.out } := by
  unfold State.readHigh
  rw [h]
  exact State.emit_of_not_toHost rfl _

theorem wordRead_of_pairLow {low : Nat} (h : isPairLow low = true) (src : Requester) (s : State) :
    wordRead src low s = s.readLow src low := by
  simp [wordRead, h]

theorem wordRead_of_pairHigh {low : Nat} (h : isPairLow low = true) (hh : isPairLow (low + 4) = false) (src : Requester)
    (s : State) : wordRead src (low + 4) s = s.readHigh src (low + 4) := by
  simp [wordRead, hh, isPairHigh_add_four h]

theorem pairRead_latches (src : Requester) (low : Nat) (s : State) (hr : s.takesRead src) (ha : low % 4 = 0)
    (hlow : isPairLow low = true) (hhigh : isPairLow (low + 4) = false) :
    ∃ t, exec (.pairLowRead src ⟨low, 4⟩) s = .next t ∧
      t = { s with latched := t.latched, out := .regData src (s.readWord low) :: s.out } ∧
      (∀ u : State, u.takesRead src → u.latched = t.latched →
        ∃ v, exec (.pairLowRead src ⟨low + 4, 4⟩) u = .next v ∧
          v = { u with latched := v.latched, out := .regData src (s.readWord (low + 4)) :: u.out }) ∧
      ∃ v, exec (.pairLowRead src ⟨low, 8⟩) s = .next v ∧
        v = { s with latched := v.latched,
                     out := .regData src (s.readWord (low + 4)) :: .regData src (s.readWord low) :: s.out } := by
  have latches (u : State) (h : u.latched = (s.readLow src low).latched) :
      sget (fun _ => none) u.latched (pairSlot src (low + 4)) = some (s.readWord (low + 4)) := by
    rw [h, State.readLow_eq]
    exact sget_sset_self (fun _ => none) s.latched (pairSlot src (low + 4)) (some (s.readWord (low + 4)))
  refine ⟨s.readLow src low, ?_, by rw [State.readLow_eq], fun u hu hl => ⟨u.readHigh src (low + 4), ?_, ?_⟩,
    (s.readLow src low).readHigh src (low + 4), ?_, ?_⟩
  · rw [exec_pairLowRead_of_takesRead hr]
    simp [busRead, ha, wordRead_of_pairLow hlow]
  · rw [exec_pairLowRead_of_takesRead hu]
    simp [busRead, ha, wordRead_of_pairHigh hlow hhigh]
  · rw [State.readHigh_of_latched (latches u hl)]
  · rw [exec_pairLowRead_of_takesRead hr]
    simp [busRead, hlow, wordRead_of_pairLow hlow, wordRead_of_pairHigh hlow hhigh]
  · rw [State.readHigh_of_latched (latches _ rfl), State.readLow_eq]

/-- Settles O11: the write of a pair, its read, and the accesses that are neither. -/
theorem pairsMoveAsOne : Obligations.PairsMoveAsOne := by
  unfold Obligations.PairsMoveAsOne
  refine ⟨pairWrite_commits, pairRead_latches, fun src off len s hr h4 h8 => ?_⟩
  have n4 : ¬ (len = 4 ∧ off % 4 = 0) := by omega
  have n8 : ¬ (len = 8 ∧ isPairLow off = true) := by
    rintro ⟨hlen, hlow⟩
    simp [hlen, hlow] at h8
  rw [exec_pairLowRead_of_takesRead hr, busRead, if_neg n4, if_neg n8, State.emit_of_not_toHost rfl]

/-!
### Time and lockstep (R393, R12)
-/

theorem execFabricTimeCorrection_forward {delta : Int} (h : 0 ≤ delta) (s : State) :
    exec (.fabricTimeCorrection delta) s =
      .next { (s.setReg64 R.gtcLo (s.gtc + delta.toNat)).setBit R.gtcStatus 31 true with gtcHold := 0 } :=
  congrArg Host.Outcome.next (if_pos h)

theorem timeCorrection_forward {delta : Int} (h : 0 ≤ delta) (s : State) :
    ∃ t, exec (.fabricTimeCorrection delta) s = .next t ∧ t.gtc = (s.gtc + delta.toNat) % 2 ^ 64 ∧
      t.bit R.gtcStatus 31 = true ∧ t = { s with regs := t.regs, gtcHold := 0 } ∧
      s.regsBut t [R.gtcLo, R.gtcHi, R.gtcStatus] := by
  refine ⟨_, execFabricTimeCorrection_forward h s, ?_, State.bit_setBit_self _ _ _ _ (by decide), rfl, fun o ho => ?_⟩
  · have pair : ∀ (u : State) (b : Bool), (u.setBit R.gtcStatus 31 b).reg64 R.gtcLo = u.reg64 R.gtcLo := fun u b => by
      unfold State.reg64
      rw [State.reg_setBit_ne _ _ _ (by decide), State.reg_setBit_ne _ _ _ (by decide)]
    exact (pair _ true).trans (State.reg64_setReg64 _ _ _)
  · simp only [List.mem_cons, List.not_mem_nil, or_false, not_or] at ho
    obtain ⟨hlo, hhi, hst⟩ := ho
    exact (State.reg_setBit_ne _ _ _ hst).trans (State.reg_setReg64_ne _ _ hlo hhi)

theorem State.onlyRegs.withLater {s t : State} {l : List Nat} (h : s.onlyRegs t l) (x : Later) :
    s.onlyRegs { t with later := x } l :=
  h.trans ⟨rfl, fun _ _ => rfl⟩

theorem State.onlyRegs.setFld {s t : State} {l : List Nat} {off : Nat} (h : s.onlyRegs t l) (hl : off ∈ l) (lo n v : Nat) :
    s.onlyRegs (t.setFld off lo n v) l :=
  h.setReg hl _

theorem State.onlyRegs.mcEvent {s t : State} {l : List Nat} (h : s.onlyRegs t l) (hl : R.mcCount ∈ l) (source unit : Nat)
    (st : Status) (task : Option TaskRef) (addr : Nat) : s.onlyRegs (t.mcEvent source unit st task addr) l :=
  (h.bump hl 1).withLater _

theorem lockstepStop_stops (s : State) :
    (lockstepStop s).mqMode = 2 ∧ (lockstepStop s).reg R.mcCount = satAdd (s.reg R.mcCount) 1 ∧
      (lockstepStop s).later.events = s.later.events ++
        [{ source := 1, unit := s.fld R.mqState 29 1, status := 0, task := none, addr := 0, time := s.gtc }] ∧
      s.onlyRegs (lockstepStop s) [R.mqState, R.mcCount] :=
  ⟨State.fld_setFld_self _ _ _ _ _ (by decide), (State.reg_setFld_ne _ _ _ _ (by decide)).trans (State.reg_bump_self _ _ _), rfl,
    ((State.onlyRegs.refl s _).mcEvent (by simp) _ _ _ _ _).setFld (by simp) _ _ _⟩

/-- Settles O12. -/
theorem timeAndLockstep : Obligations.TimeAndLockstep := by
  unfold Obligations.TimeAndLockstep
  refine ⟨fun delta s => ⟨fun h => timeCorrection_forward h s, fun h => ?back⟩, fun s => ⟨fun h => ?stops, fun h => ?halted⟩⟩
  case back => exact congrArg Host.Outcome.next (if_neg (by omega))
  case stops => exact ⟨_, congrArg Host.Outcome.next (if_pos h), lockstepStop_stops s⟩
  case halted => exact congrArg Host.Outcome.next (if_neg (by simp [h]))

/-!
### NODE_ID, the region table, the context map (R28, R41, R42, R256)
-/

theorem State.onlyRegs_setReg (s : State) (off : Nat) (v : Word) : s.onlyRegs (s.setReg off v) [off] :=
  (State.onlyRegs.refl s _).setReg (by simp) v

theorem State.bit_eq (s : State) (off i : Nat) : s.bit off i = decide (getField (s.reg off) i 1 = 1) := rfl

theorem nodeIdWrite_takes_effect {s : State} (hc : s.bit R.feCtl 31 = false) (ha : s.bit R.feStatus 0 = false) (v : Word) :
    (setNodeId v s).node = getField v 0 16 ∧ (setNodeId v s).bit R.nodeId 16 = true ∧ s.onlyRegs (setNodeId v s) [R.nodeId] := by
  have hset : setNodeId v s = s.setReg R.nodeId (BitVec.ofNat 32 (2 ^ 16 + getField v 0 16)) := by simp [setNodeId, hc, ha]
  have hlt : getField v 0 16 < 2 ^ 16 := Nat.mod_lt _ (by decide)
  rw [hset]
  refine ⟨?_, ?_, s.onlyRegs_setReg _ _⟩
  · rw [State.node, State.fld_setReg_self, getField_ofNat _ _ _ (by decide)]
    omega
  · rw [State.bit, State.fld_setReg_self, getField_ofNat _ _ _ (by decide)]
    exact decide_eq_true (by omega)

theorem DrtEntry.admits_iff (e : DrtEntry) (ctx : Nat) (acc : Acc) (page : Nat) :
    e.admits ctx acc page = true ↔
      e.valid = true ∧ e.ctx = ctx ∧ e.grants acc = true ∧ e.base / 4096 ≤ page ∧ page ≤ e.limit / 4096 := by
  simp [DrtEntry.admits, and_assoc]

theorem drtCommitted_admits (s : State) (g n : Nat) (v : Word) (ctx : Nat) (acc : Acc) (page : Nat) :
    (drtCommitted s g n v).admits ctx acc page = true ↔
      (getField v 31 1 = 1 ∧ getField v 0 12 = ctx ∧
        (match acc with | .read => getField v 30 1 = 1 | .write => getField v 29 1 = 1 | .atomic => getField v 28 1 = 1) ∧
        s.reg64 (R.drtBaseLo g n) / 4096 ≤ page ∧ page ≤ s.reg64 (R.drtLimitLo g n) / 4096) := by
  rw [DrtEntry.admits_iff]
  cases acc <;> simp [DrtEntry.grants, drtCommitted]

theorem ctxMapWrite_outcomes (s : State) (c : Fin 4096) (v : Word) :
    (c = 0 → writeCtxMap c v s = s) ∧
    (c ≠ 0 → s.ctxInUse c = true → writeCtxMap c v s = s.hwSet R.tuStatus 1) ∧
    (c ≠ 0 → s.ctxInUse c = false → s.pasidTaken c v = true → writeCtxMap c v s = s.hwSet R.tuStatus 0) ∧
    (c ≠ 0 → s.ctxInUse c = false → s.pasidTaken c v = false →
      writeCtxMap c v s = s.setReg (R.ctxMap c) (v &&& 0xC00FFFFF)) := by
  have zero : c = 0 ↔ c.val = 0 := Fin.val_eq_zero_iff.symm
  refine ⟨fun h0 => ?_, fun h0 hu => ?_, fun h0 hu hp => ?_, fun h0 hu hp => ?_⟩
  · simp [writeCtxMap, h0]
  all_goals rw [Ne, zero] at h0
  · simp [writeCtxMap, h0, hu]
  · simp [writeCtxMap, h0, hu, hp]
  · simp [writeCtxMap, h0, hu, hp]

theorem State.bit_hwSet_self (s : State) (off i : Nat) (h : i < 32) : (s.hwSet off i).bit off i = true :=
  State.bit_setBit_self s off i true h

/-- Settles O13. -/
theorem protectionTables : Obligations.ProtectionTables := by
  unfold Obligations.ProtectionTables
  refine ⟨fun src v s hw => ⟨fun h => ?runs, fun hc ha => ?node⟩, fun src g n v s hw => ?drt, fun src c v s hw => ?ctx⟩
  case runs =>
    have hset : setNodeId v s = s := by simpa [setNodeId] using fun h1 h2 => by simp [h1, h2] at h
    exact (State.regWrite_of_takesWrite hw v _).trans (congrArg _ hset)
  case node => exact ⟨_, State.regWrite_of_takesWrite hw v _, nodeIdWrite_takes_effect hc ha v⟩
  case drt =>
    refine ⟨commitDrt g n v s, State.regWrite_of_takesWrite hw v _, fun ctx acc page => ?_, fun k hk => sget_sset_ne _ _ _ hk,
      rfl, (s.onlyRegs_setReg _ _).2, State.reg_setReg_self _ _ _⟩
    have entry : sget drtDefault (commitDrt g n v s).drt (1024 * g + n) = drtCommitted s g n v := sget_sset_self _ _ _ _
    rw [entry]
    exact drtCommitted_admits s g n v ctx acc page
  case ctx =>
    obtain ⟨h0, hbusy, hdup, htaken⟩ := ctxMapWrite_outcomes s c v
    have hx := State.regWrite_of_takesWrite hw v (writeCtxMap c v)
    refine ⟨fun hc => hx.trans (congrArg _ (h0 hc)), fun hc hu => ⟨_, hx, ?_⟩, fun hc hu hp => ⟨_, hx, ?_⟩,
      fun hc hu hp => ⟨_, hx, ?_⟩⟩
    · rw [hbusy hc hu]
      exact ⟨s.bit_hwSet_self _ _ (by decide), (State.onlyRegs.refl s _).hwSet (by simp) _⟩
    · rw [hdup hc hu hp]
      exact ⟨s.bit_hwSet_self _ _ (by decide), (State.onlyRegs.refl s _).hwSet (by simp) _⟩
    · rw [htaken hc hu hp]
      exact ⟨State.reg_setReg_self _ _ _, s.onlyRegs_setReg _ _⟩

/-!
### BAR2 (R48, R169)
-/

theorem State.gate_of_active {s : State} {a : HeldAccess} (hb : s.below = false) (hw : s.waitsBehindHeld a = false)
    (f : State → State) : s.gate a f = f s := by
  simp [State.gate, hb, hw]

/-- What a BAR2 read reads does not count for whether it waits. -/
theorem State.waitsBehindHeld_bar2Read (s : State) (off len : Nat) (pasid : Option (BitVec 20)) (c : MemCond) :
    s.waitsBehindHeld (.bar2Read off len pasid c) = s.waitsBehindHeld (.bar2Read 0 0 none .good) := by
  unfold State.waitsBehindHeld
  congr 1
  funext w
  cases w <;> rfl

/-- Nothing orders a BAR2 write behind an access that waits (R287). -/
theorem State.waitsBehindHeld_bar2Write (s : State) (off : Nat) (bs : List Byte) (pasid : Option (BitVec 20)) (relaxed : Bool)
    (c : MemCond) : s.waitsBehindHeld (.bar2Write off bs pasid relaxed c) = false := by
  simp [State.waitsBehindHeld]

theorem exec_bar2Read_of_taken {s : State} {off : Nat} (h : s.takesBar2Read) (ht : s.tierBWaits (s.bar2Local off) = false)
    (len : Nat) (pasid : Option (BitVec 20)) (c : MemCond) :
    exec (.bar2Read off len pasid c) s = .next (doBar2Read off len pasid c s) := by
  have hg := State.gate_of_active h.1 ((s.waitsBehindHeld_bar2Read off len pasid c).trans h.2)
    (fun t => t.tierBGate (t.bar2Local off) (.bar2Read off len pasid c) (doBar2Read off len pasid c))
  exact congrArg Host.Outcome.next (hg.trans (if_neg (by simp [ht])))

theorem exec_bar2Write_of_active {s : State} (h : s.below = false) (off : Nat) (bs : List Byte) (pasid : Option (BitVec 20))
    (relaxed : Bool) (c : MemCond) :
    exec (.bar2Write off bs ⟨pasid, relaxed⟩ c) s =
      .next (s.tierBGate (s.bar2Local off) (.bar2Write off bs pasid relaxed c) (doBar2Write off bs pasid c)) :=
  congrArg Host.Outcome.next (State.gate_of_active h (s.waitsBehindHeld_bar2Write _ _ _ _ _) _)

theorem State.memVerdict_good {s : State} {ctx a len : Nat} {acc : Acc} (hd : s.drtAllows ctx acc a len = true)
    (hb : s.bound a len = true) : s.memVerdict ctx acc a len .good = none := by
  simp [State.memVerdict, hd, hb]

theorem State.bar2Verdict_serve {s : State} {ctx a len : Nat} {acc : Acc} {pasid : Option (BitVec 20)}
    (hp : s.ctxOfPasid pasid = some ctx) (hi : inTier a len = true) (hd : s.drtAllows ctx acc a len = true)
    (hb : s.bound a len = true) : s.bar2Verdict acc a len pasid .good = .serve := by
  simp [State.bar2Verdict, hp, hi, State.memVerdict_good hd hb]

theorem State.bar2Verdict_unsupported {s : State} {a len : Nat} {pasid : Option (BitVec 20)}
    (h : s.ctxOfPasid pasid = none ∨ inTier a len = false) (acc : Acc) (c : MemCond) :
    s.bar2Verdict acc a len pasid c = .unsupported none := by
  unfold State.bar2Verdict
  split
  · rfl
  · simp_all

@[simp] theorem State.noteCorrected_good (s : State) (a : Nat) : s.noteCorrected a .good = s := rfl

@[simp] theorem writeCond_good (a len : Nat) : writeCond a len .good = .good := ite_self _

/-! What a store does to memory. -/

theorem State.readByte_writeMem_self (s : State) (a : Nat) (bs : List Byte) {i : Nat} (h : i < bs.length) :
    (s.writeMem a bs).readByte (a + i) = bs[i] :=
  memPutAll_self _ _ _ _ _ h

theorem State.sameMemBut_writeMem (s : State) (a : Nat) (bs : List Byte) : s.sameMemBut (s.writeMem a bs) a bs.length :=
  fun _ h => memPutAll_other _ _ _ _ _ h

theorem doBar2Write_of_serve {s : State} {off ctx : Nat} {bs : List Byte} {pasid : Option (BitVec 20)}
    (hp : s.ctxOfPasid pasid = some ctx) (hi : inTier (s.bar2Local off) bs.length = true)
    (hd : s.drtAllows ctx .write (s.bar2Local off) bs.length = true) (hb : s.bound (s.bar2Local off) bs.length = true) :
    doBar2Write off bs pasid .good s = s.writeMem (s.bar2Local off) bs := by
  simp [doBar2Write, State.bar2Verdict_serve hp hi hd hb]

/-- Settles O14. -/
theorem bar2Accesses : Obligations.Bar2Accesses := by
  unfold Obligations.Bar2Accesses
  refine ⟨fun off len ctx pasid s hs ht hp hi hd hb => ?read, fun off len pasid c s hs ht hu => ?unsupported,
    fun off ctx bs pasid relaxed s hs ht hp hi hd hb => ?write, fun off bs pasid relaxed c s hs ht => ?waits,
    fun off s => ?atomic, fun r s => ?peer⟩
  case read =>
    rw [exec_bar2Read_of_taken hs ht, doBar2Read]
    simp only [State.bar2Verdict_serve hp hi hd hb, State.noteCorrected_good]
    rw [State.emit_of_not_toHost rfl]
  case unsupported =>
    rw [exec_bar2Read_of_taken hs ht, doBar2Read]
    simp only [State.bar2Verdict_unsupported hu]
    rw [State.emit_of_not_toHost rfl]
  case write =>
    refine ⟨s.writeMem (s.bar2Local off) bs, ?_, rfl, fun i h => s.readByte_writeMem_self _ bs h, s.sameMemBut_writeMem _ bs⟩
    rw [exec_bar2Write_of_active hs, State.tierBGate, if_neg (by simp [ht]), doBar2Write_of_serve hp hi hd hb]
  case waits => exact (exec_bar2Write_of_active hs off bs pasid relaxed c).trans (congrArg _ (if_pos ht))
  case atomic => exact congrArg Host.Outcome.next (State.emit_of_not_toHost rfl s)
  case peer => exact congrArg Host.Outcome.next (State.emit_of_not_toHost rfl s)


end Sys2Proof.Machine
end

section
namespace Sys2Proof.Machine

open Sys2Proof

/-!
### Several requests for the host, one after another (R379)
-/

/-- Requests for the host wait for DL_Up behind those that wait, or leave in their order. -/
theorem State.foldl_emit_toHost {l : List Out} (h : ∀ o ∈ l, o.toHost = true) (s : State) :
    l.foldl State.emit s =
      if s.linkDown then { s with hostHeld := s.hostHeld ++ l } else { s with out := l.reverse ++ s.out } := by
  induction l generalizing s with
  | nil => simp
  | cons o l ih =>
    have ho : o.toHost = true := h o List.mem_cons_self
    rw [List.foldl_cons, ih (fun x hx => h x (List.mem_cons_of_mem _ hx))]
    by_cases hl : s.linkDown <;> simp [State.emit, ho, hl]

theorem State.sentHost_foldl_emit {l : List Out} (h : ∀ o ∈ l, o.toHost = true) (s : State) :
    s.sentHost (l.foldl State.emit s) l ∧
      l.foldl State.emit s =
        { s with out := (l.foldl State.emit s).out, hostHeld := (l.foldl State.emit s).hostHeld } := by
  rw [State.foldl_emit_toHost h, State.sentHost]
  by_cases hl : s.linkDown <;> simp [hl]

/-!
### Host apertures (R38 to R40)
-/

/-- The reads a load makes of the host. -/
def State.apertureReadsOut (s : State) (ap off len : Nat) : List Out :=
  (s.aperturePieces ap off len).map (fun p => .hostRead p.1 p.2.2.1 (s.aperturePasid ap) p.2.1)

/-- The posted writes a store makes of the host. -/
def State.apertureWritesOut (s : State) (ap off : Nat) (bs : List Byte) : List Out :=
  (s.aperturePieces ap off bs.length).map (fun p =>
    .hostWrite p.1 ((bs.drop p.2.2.2).take p.2.2.1) (s.aperturePasid ap) false p.2.1)

theorem State.apertureReads_eq (s : State) (ap off len : Nat) :
    s.apertureReads ap off len = (s.apertureReadsOut ap off len).foldl State.emit s := by
  simp [State.apertureReads, State.apertureReadsOut, List.foldl_map]

theorem toHost_apertureReadsOut (s : State) (ap off len : Nat) : ∀ o ∈ s.apertureReadsOut ap off len, o.toHost = true := by
  simp only [State.apertureReadsOut, List.mem_map, forall_exists_index, and_imp]
  rintro _ p _ rfl
  rfl

theorem toHost_apertureWritesOut (s : State) (ap off : Nat) (bs : List Byte) :
    ∀ o ∈ s.apertureWritesOut ap off bs, o.toHost = true := by
  simp only [State.apertureWritesOut, List.mem_map, forall_exists_index, and_imp]
  rintro _ p _ rfl
  rfl

theorem exec_apertureLoad_of_size {off len : Nat} (h : apertureSize off len = true) (core : Fin 8) (ap : Fin 16) (a : HostAnswer)
    (s : State) : exec (.apertureLoad core ap off len a) s = .next (doApertureLoad core ap off len a s) :=
  congrArg Host.Outcome.next (if_pos h)

theorem exec_apertureStore_of_size {off : Nat} {bs : List Byte} (h : apertureSize off bs.length = true) (core : Fin 8) (ap : Fin 16)
    (s : State) : exec (.apertureStore core ap off bs) s = .next (doApertureStore core ap off bs s) :=
  congrArg Host.Outcome.next (if_pos h)

theorem doApertureLoad_of_served {s : State} {ap off len : Nat} (h : s.apertureCause ap off len = none) (core : Nat) :
    (∀ bs, s.linkDown = false → doApertureLoad core ap off len (.data bs) s =
      { s with out := .coreData core (fitBytes len bs) :: ((s.apertureReadsOut ap off len).reverse ++ s.out) }) ∧
    ∃ t, doApertureLoad core ap off len .pending s = t ∧ s.sentHost t (s.apertureReadsOut ap off len) ∧
      t.apLoads = s.apLoads ++ [{ core := core, ap := ap, offset := off, len := len, at_ := s.cycle,
                                  pasid := s.aperturePasid ap, host := s.apertureHost ap off len }] ∧
      t = { s with apLoads := t.apLoads, out := t.out, hostHeld := t.hostHeld } := by
  obtain ⟨hsent, hshape⟩ := State.sentHost_foldl_emit (toHost_apertureReadsOut s ap off len) s
  constructor
  · intro bs hl
    simp only [doApertureLoad, h, State.apertureReads_eq]
    rw [State.foldl_emit_toHost (toHost_apertureReadsOut s ap off len), State.emit_of_not_toHost rfl]
    simp [hl]
  · refine ⟨_, rfl, ?_⟩
    simp only [doApertureLoad, h, State.apertureReads_eq]
    exact ⟨hsent, by rw [hshape]; rfl, by rw [hshape]⟩

theorem State.apertureFault_records (s : State) (write : Bool) (c ap core off : Nat) :
    (s.apertureFault write c ap core off).reg R.apertureFaultCount = satAdd (s.reg R.apertureFaultCount) 1 ∧
      (s.apertureFault write c ap core off).later.latches = s.later.latches ++
        [{ off := R.apertureFault, key := ap, val := boolBit write * 2 ^ 30 + c * 2 ^ 28 + ap * 2 ^ 16 + core * 2 ^ 13,
           also := pairWords R.apertureFaultOfsLo off }] ∧
      s.onlyRegs (s.apertureFault write c ap core off) [R.apertureFaultCount] :=
  ⟨State.reg_bump_self _ _ _, rfl, ((State.onlyRegs.refl s _).bump (by simp) 1).withLater _⟩

/-- An answer that no loss of the host link holds back leaves beside the registers changed. -/
theorem State.onlyRegs.emitLocal {s t : State} {l : List Nat} {o : Out} (h : s.onlyRegs t l) (ho : o.toHost = false) :
    s.onlyRegsOut (t.emit o) l [o] := by
  obtain ⟨ht, hr⟩ := h
  rw [State.emit_of_not_toHost ho]
  refine ⟨?_, hr⟩
  rw [ht]
  rfl

/-- Settles O15: the accesses that are served, those that fail, those that do not occur. -/
theorem apertureAccesses : Obligations.ApertureAccesses := by
  unfold Obligations.ApertureAccesses
  refine ⟨fun core ap off len s hs hc => ?load, fun core ap off bs s hs hc => ?store, fun core ap off len c a s hs hc => ?loadFails,
    fun core ap off c bs s hs hc => ?storeFails, fun core ap off len a bs s => ⟨fun hs => ?_, fun hs => ?_⟩⟩
  case load =>
    obtain ⟨hdata, t, ht, hpending⟩ := doApertureLoad_of_served hc core.val
    exact ⟨fun bs hl => (exec_apertureLoad_of_size hs _ _ _ s).trans (congrArg _ (hdata bs hl)),
      t, (exec_apertureLoad_of_size hs _ _ _ s).trans (congrArg _ ht), hpending⟩
  case store =>
    have hst : doApertureStore core ap off bs s = (s.apertureWritesOut ap off bs).foldl State.emit s := by
      simp [doApertureStore, hc, State.apertureWritesOut, List.foldl_map]
    refine ⟨_, exec_apertureStore_of_size hs _ _ s, ?_⟩
    rw [hst]
    exact State.sentHost_foldl_emit (toHost_apertureWritesOut s ap off bs) s
  case loadFails =>
    have hst : doApertureLoad core ap off len a s =
        (s.apertureFault false c ap core off).emit (.coreData core (List.replicate len 0)) := by
      simp [doApertureLoad, hc]
    obtain ⟨hcount, hlatch, honly⟩ := s.apertureFault_records false c ap core off
    refine ⟨_, exec_apertureLoad_of_size hs _ _ _ s, ?_, ?_, ?_⟩ <;> rw [hst]
    · rw [State.reg_emit', hcount]
    · rw [State.emit_later, hlatch]
      simp [boolBit]
    · exact honly.emitLocal rfl
  case storeFails =>
    have hst : doApertureStore core ap off bs s = s.apertureFault true c ap core off := by simp [doApertureStore, hc]
    obtain ⟨hcount, hlatch, honly⟩ := s.apertureFault_records true c ap core off
    refine ⟨_, exec_apertureStore_of_size hs _ _ s, ?_, ?_, ?_⟩ <;> rw [hst]
    · exact hcount
    · rw [hlatch]
      simp [boolBit]
    · exact honly
  · exact congrArg Host.Outcome.next (if_neg (by simp [hs]))
  · exact congrArg Host.Outcome.next (if_neg (by simp [hs]))

/-!
### What a store leaves to the reads of its core cycle (R283)
-/

/-- The bytes noted before a write: those that have not been noted yet are, as they are read. -/
theorem sget_foldl_note (f : Nat → Byte) (as : List Nat) (m : SMap (Option Byte)) (x : Nat) :
    sget (fun _ => none) (as.foldl (fun m a =>
        if (sget (fun _ => none) m a).isSome then m else sset (fun _ => none) m a (some (f a))) m) x =
      if x ∈ as ∧ sget (fun _ => none) m x = none then some (f x) else sget (fun _ => none) m x := by
  induction as generalizing m with
  | nil => simp
  | cons a as ih =>
    rw [List.foldl_cons, ih]
    by_cases ha : (sget (fun _ => none) m a).isSome
    · rw [if_pos ha]
      obtain ⟨b, hb⟩ := Option.isSome_iff_exists.mp ha
      by_cases hx : x = a
      · subst hx
        simp [hb]
      · simp [hx]
    · rw [if_neg ha, sget_sset]
      by_cases hx : x = a
      · subst hx
        simp_all
      · simp [hx]

theorem State.seenByte_writeMem (s : State) (a : Nat) (bs : List Byte) (x : Nat) : (s.writeMem a bs).seenByte x = s.seenByte x := by
  have noted : sget (fun _ => none) (s.writeMem a bs).now.before x =
      if x ∈ List.range' a bs.length ∧ sget (fun _ => none) s.now.before x = none then some (s.readByte x)
      else sget (fun _ => none) s.now.before x :=
    sget_foldl_note s.readByte _ _ x
  unfold State.seenByte
  rw [noted]
  by_cases hx : x ∈ List.range' a bs.length
  · cases hb : sget (fun _ => none) s.now.before x <;> simp [hx]
  · have other : (s.writeMem a bs).readByte x = s.readByte x :=
      s.sameMemBut_writeMem a bs x (by simp [List.mem_range'_1] at hx; omega)
    simp [hx, other]

theorem State.readMem_writeMem_self (s : State) (a : Nat) (bs : List Byte) : (s.writeMem a bs).readMem a bs.length = bs :=
  List.ext_getElem (by simp [State.readMem]) fun i _ h => by
    simp only [State.readMem, List.getElem_map, List.getElem_range]
    exact s.readByte_writeMem_self a bs h

/-- An atomic that is served leaves its result in the word and changes no other byte (R168). -/
theorem State.applyAtomic_result (s : State) (a : Nat) (r : AtomicReq) :
    (s.applyAtomic a r).readMem a (atomicSize r) = leBytes (atomicSize r) (atomicResult r (leNat (s.readMem a (atomicSize r)))) ∧
      s.sameMemBut (s.applyAtomic a r) a (atomicSize r) := by
  have hw := s.readMem_writeMem_self a (leBytes (atomicSize r) (atomicResult r (leNat (s.readMem a (atomicSize r)))))
  have hb := s.sameMemBut_writeMem a (leBytes (atomicSize r) (atomicResult r (leNat (s.readMem a (atomicSize r)))))
  rw [leBytes_length] at hw hb
  exact ⟨hw, hb⟩

/-!
### A core's accesses (R257, R168)
-/

theorem State.tierBGate_of_serves {s : State} {a : Nat} (h : s.tierBWaits a = false) (w : HeldAccess) (f : State → State) :
    s.tierBGate a w f = f s :=
  if_neg (by simp [h])

theorem State.tierBGate_of_waits {s : State} {a : Nat} (h : s.tierBWaits a = true) (w : HeldAccess) (f : State → State) :
    s.tierBGate a w f = { s with padWait := s.padWait ++ [w] } :=
  if_pos h

theorem exec_coreLoad_of_memory {s : State} {a : Nat} (hm : (regionOf a).isMemory = true) (ht : s.tierBWaits a = false)
    (core : Fin 8) (len : Nat) (c : MemCond) : exec (.coreLoad core a len none c) s = .next (doCoreLoad core a len c s) := by
  have he : exec (.coreLoad core a len none c) s = execCoreLoad core a len none c s := rfl
  rw [he]
  unfold execCoreLoad
  split <;> simp_all [Region.isMemory, State.tierBGate_of_serves]

theorem exec_coreStore_of_memory {s : State} {a : Nat} (hm : (regionOf a).isMemory = true) (core : Fin 8) (bs : List Byte)
    (c : MemCond) :
    exec (.coreStore core a bs c) s = .next (s.tierBGate a (.coreStore core a bs c) (doCoreStore core a bs c)) := by
  have he : exec (.coreStore core a bs c) s = execCoreStore core a bs c s := rfl
  rw [he]
  unfold execCoreStore
  split <;> simp_all [Region.isMemory]

theorem isMemory_of_tierBWaits {s : State} {a : Nat} (h : s.tierBWaits a = true) : (regionOf a).isMemory = true := by
  obtain ⟨hr, -⟩ : regionOf a = .tierB ∧ s.tbReady = false := by simpa [State.tierBWaits] using h
  rw [hr]
  rfl

theorem regionOf_registers {off : Nat} (h : off < 0x01000000) : regionOf (0x0F1000000000 + off) = .registers := by
  unfold regionOf
  rw [if_neg (by omega), if_neg (by omega), if_neg (by omega), if_neg (by omega), if_pos (by omega)]

theorem regionOffset_registers (off : Nat) : regionOffset (0x0F1000000000 + off) = off := by
  unfold regionOffset
  omega

theorem exec_coreAtomic_of_serves {s : State} {a : Nat} (ht : s.tierBWaits a = false) (core : Fin 8) (r : AtomicReq) (c : MemCond) :
    exec (.coreAtomic core a r c) s = .next (doCoreAtomic core a r c s) :=
  congrArg Host.Outcome.next (State.tierBGate_of_serves ht _ _)

theorem doCoreAtomic_of_served {s : State} {core a : Nat} {r : AtomicReq} (hl : atomicLegal r a = true)
    (hv : s.memVerdict (s.coreCtx core) .atomic a (atomicSize r) .good = none) :
    doCoreAtomic core a r .good s =
      { s.applyAtomic a r with out := .coreData core (s.readMem a (atomicSize r)) :: s.out } := by
  have hst : doCoreAtomic core a r .good s = (s.applyAtomic a r).emit (.coreData core (s.readMem a (atomicSize r))) := by
    simp [doCoreAtomic, hl, hv]
  rw [hst, State.emit_of_not_toHost rfl]
  rfl

/-- A refusal of the region table is counted at its controller group. -/
theorem doCoreLoad_of_refused {s : State} {core a len : Nat} (hi : inMemory a len = true) (hs : regionOf a ≠ .scratch)
    (hd : s.drtAllows (s.coreCtx core) .read a len = false) (c : MemCond) :
    doCoreLoad core a len c s = (s.bump (R.tuRefused (groupOf a)) 1).emit (.coreData core (List.replicate len 0)) := by
  have hv : s.coreVerdict core .read a len c = some St.context := by simp [State.coreVerdict, hi, hs, State.memVerdict, hd]
  simp [doCoreLoad, hv, State.memRefusal, State.countRefused]

theorem isMemory_of_inMemory {a len : Nat} (h : inMemory a len = true) : (regionOf a).isMemory = true :=
  (Bool.and_eq_true_iff.mp h).1

/-- Settles O16. -/
theorem coreAccesses : Obligations.CoreAccesses := by
  unfold Obligations.CoreAccesses
  refine ⟨fun core a len s hm ht hv => ?load, fun core a len c s ht hi hs hd => ?refused, fun core a bs s hm ht hv => ?store,
    fun core a bs c s ht => ?waits, fun core a r s ht hl hv => ?atomic, fun core off len bs b c s hoff => ⟨?regRead, ?regWrite⟩⟩
  case load =>
    rw [exec_coreLoad_of_memory hm ht]
    simp only [doCoreLoad, hv, State.noteCorrected_good]
    rw [State.emit_of_not_toHost rfl]
  case refused =>
    refine ⟨_, exec_coreLoad_of_memory (isMemory_of_inMemory hi) ht core len c, ?_⟩
    rw [doCoreLoad_of_refused hi hs hd]
    exact ⟨by rw [State.reg_emit', State.reg_bump_self], ((State.onlyRegs.refl s _).bump (by simp) 1).emitLocal rfl⟩
  case store =>
    have hst : doCoreStore core a bs .good s = s.writeMem a bs := by simp [doCoreStore, hv]
    refine ⟨s.writeMem a bs, ?_, rfl, fun i h => s.readByte_writeMem_self a bs h, s.sameMemBut_writeMem a bs,
      s.seenByte_writeMem a bs⟩
    rw [exec_coreStore_of_memory hm, State.tierBGate_of_serves ht, hst]
  case waits => rw [exec_coreStore_of_memory (isMemory_of_tierBWaits ht), State.tierBGate_of_waits ht]
  case atomic =>
    refine ⟨_, exec_coreAtomic_of_serves ht core r .good, ?_⟩
    rw [doCoreAtomic_of_served hl hv]
    exact ⟨rfl, s.applyAtomic_result a r⟩
  case regRead =>
    have he : exec (.coreLoad core (0x0F1000000000 + off) len b c) s =
        execCoreLoad core (0x0F1000000000 + off) len b c s := rfl
    rw [he]
    unfold execCoreLoad
    rw [regionOf_registers hoff, regionOffset_registers]
    rfl
  case regWrite =>
    have he : exec (.coreStore core (0x0F1000000000 + off) bs c) s = execCoreStore core (0x0F1000000000 + off) bs c s := rfl
    have hr : exec (.registerWrite (.core core) off bs.length (leNat bs)) s =
        execRegisterWrite (.core core) off bs.length (leNat bs) s := rfl
    rw [he, hr]
    unfold execCoreStore execRegisterWrite
    rw [regionOf_registers hoff, regionOffset_registers, leBytes_leNat]

/-!
### Remote windows (R43, R45)
-/

theorem exec_fabricRemoteAccess_of_active {s : State} (h : s.feActive = true) (node : Nat) (r : RemoteAccess) (c : MemCond) :
    exec (.fabricRemoteAccess node r c) s = .next (doRemote node r c s) :=
  congrArg Host.Outcome.next (if_pos h)

theorem doRemote_of_window {s : State} {node w : Nat} {r : RemoteAccess}
    (hw : s.winFor node (remoteAcc r) (remoteAddr r) (remoteLen r) = some w) (ht : s.tierBWaits (remoteAddr r) = false)
    (c : MemCond) : doRemote node r c s = pastWindow w node r c s := by
  simp only [doRemote, hw]
  exact State.tierBGate_of_serves ht _ _

theorem doRemote_of_no_window {s : State} {node : Nat} {r : RemoteAccess}
    (hw : s.winFor node (remoteAcc r) (remoteAddr r) (remoteLen r) = none) (c : MemCond) :
    doRemote node r c s = (s.winRefused node).emit (.fabricAnswer node St.window []) := by
  simp only [doRemote, hw]

theorem pastWindow_read (w node a n : Nat) (c : MemCond) (s : State) :
    pastWindow w node (.read a n) c s = serveRemote w node (.read a n) c s := rfl

theorem pastWindow_write (w node a : Nat) (bs : List Byte) (c : MemCond) (s : State) :
    pastWindow w node (.write a bs) c s = serveRemote w node (.write a bs) c s := rfl

theorem pastWindow_atomic {a : Nat} {r : AtomicReq} (hl : atomicLegal r a = true) (hf : isFadd r = false) (w node : Nat)
    (c : MemCond) (s : State) : pastWindow w node (.atomic a r) c s = serveRemote w node (.atomic a r) c s := by
  simp [pastWindow, hl, hf]

/-- What a remote access does at the memory. -/
def State.madeRemote (s : State) : RemoteAccess → State
  | .read _ _ => s
  | .write a bs => s.writeMem a bs
  | .atomic a q => s.applyAtomic a q

/-- The bytes that answer a remote access. -/
def State.remoteBytes (s : State) : RemoteAccess → List Byte
  | .read a n => s.seenMem a n
  | .write _ _ => []
  | .atomic a q => s.readMem a (atomicSize q)

theorem serveRemote_of_served {s : State} {w : Nat} {r : RemoteAccess}
    (hv : s.memVerdict (s.fld (R.winCtl w) 0 12) (remoteAcc r) (remoteAddr r) (remoteLen r) .good = none) (node : Nat) :
    serveRemote w node r .good s =
      { s.madeRemote r with out := .fabricAnswer node St.success (s.remoteBytes r) :: s.out } := by
  have hc : remoteCond r .good = .good := by cases r <;> simp [remoteCond]
  have hst : serveRemote w node r .good s =
      (s.madeRemote r).emit (.fabricAnswer node St.success (s.remoteBytes r)) := by
    simp only [serveRemote, hc, hv, State.noteCorrected_good]
    cases r <;> rfl
  have hout : (s.madeRemote r).out = s.out := by cases r <;> rfl
  rw [hst, State.emit_of_not_toHost rfl, hout]

/-- Settles O17. -/
theorem remoteAccesses : Obligations.RemoteAccesses := by
  unfold Obligations.RemoteAccesses
  refine ⟨fun node r c s ha hw => ?refused, fun node a len w s ha hw ht hv => ?read, fun node a w bs s ha hw ht hv => ?write,
    fun node a w r s ha hw ht hl hf hv => ?atomic, fun node r c s ha => ?inactive⟩
  case refused =>
    refine ⟨_, exec_fabricRemoteAccess_of_active ha node r c, ?_⟩
    rw [doRemote_of_no_window hw]
    refine ⟨?_, ?_, (((State.onlyRegs.refl s _).bump (by simp) 1).withLater _).emitLocal rfl⟩
    · rw [State.reg_emit']
      exact State.reg_bump_self _ _ _
    · rw [State.emit_later]
      rfl
  case read =>
    rw [exec_fabricRemoteAccess_of_active ha, doRemote_of_window (r := .read a len) hw ht, pastWindow_read,
      serveRemote_of_served (r := .read a len) hv]
    rfl
  case write =>
    refine ⟨_, exec_fabricRemoteAccess_of_active ha _ _ _, ?_⟩
    rw [doRemote_of_window (r := .write a bs) hw ht, pastWindow_write, serveRemote_of_served (r := .write a bs) hv]
    exact ⟨rfl, fun i h => s.readByte_writeMem_self a bs h, s.sameMemBut_writeMem a bs⟩
  case atomic =>
    refine ⟨_, exec_fabricRemoteAccess_of_active ha _ _ _, ?_⟩
    rw [doRemote_of_window (r := .atomic a r) hw ht, pastWindow_atomic hl hf, serveRemote_of_served (r := .atomic a r) hv]
    exact ⟨rfl, s.applyAtomic_result a r⟩
  case inactive =>
    have hn : ¬ s.bit R.feStatus 0 = true := by simpa [State.feActive] using ha
    exact congrArg Host.Outcome.next (if_neg hn)

end Sys2Proof.Machine
end

section
namespace Sys2Proof.Machine

open Sys2Proof

/-!
### A submission queue stops (R70, R71)
-/

theorem State.sqs_msix_if (c : State) (b : Bool) (v : Nat) : (if b then c.msix v else c).sqs = c.sqs := by
  cases b
  · rfl
  · simp

theorem State.reg_msix_if (c : State) (b : Bool) (v o : Nat) : (if b then c.msix v else c).reg o = c.reg o := by
  cases b
  · rfl
  · simp

/-- What leaves the block does so beside registers, notes and queues. -/
theorem State.emit_with (s : State) (o : Out) (r : SMap Word) (n : CycleRun) (l : Later) (q : SMap SqRun) :
    ({ s with regs := r, now := n, later := l, sqs := q } : State).emit o =
      { s.emit o with regs := r, now := n, later := l, sqs := q } := by
  unfold State.emit
  split <;> rfl

/-- The state of a queue's stop before the message of its interrupt. -/
def State.sqHaltQuiet (s : State) (q : Nat) (st : Status) (unit : Nat) (index : Word) (tag : Nat) (header : Option (List Byte)) : State :=
  let a := (s.putSq q { s.abandon q with latched := header }).setSqMode q 3
  let b := (a.setReg (R.sqErr q) (BitVec.ofNat 32 (st.toNat * 2 ^ 16 + unit))).setReg (R.sqErrIndex q) index
  (b.setReg (R.sqErrTag q) (BitVec.ofNat 32 tag)).hwSet (R.qiSqerr (q / 32)) (q % 32)

theorem State.sqHalt_eq (s : State) (q : Nat) (st : Status) (unit : Nat) (index : Word) (tag : Nat) (header : Option (List Byte)) :
    s.sqHalt q st unit index tag header =
      let c := s.sqHaltQuiet q st unit index tag header
      if c.bit R.qiIrq 31 then c.msix (c.fld R.qiIrq 0 11) else c := rfl

theorem State.sq_putSq_self (s : State) (q : Nat) (r : SqRun) : (s.putSq q r).sq q = r :=
  sget_sset_self sqDefault s.sqs q r

theorem State.sq_putSq_ne (s : State) {q k : Nat} (h : k ≠ q) (r : SqRun) : (s.putSq q r).sq k = s.sq k :=
  sget_sset_ne sqDefault s.sqs r h

section
variable (s : State) {q : Nat} (st : Status) (unit : Nat) (index : Word) (tag : Nat) (header : Option (List Byte))

theorem State.reg_sqHaltQuiet_ne {o : Nat} (ho : o ∉ [R.sqState q, R.sqErr q, R.sqErrIndex q, R.sqErrTag q, R.qiSqerr (q / 32)]) :
    (s.sqHaltQuiet q st unit index tag header).reg o = s.reg o := by
  simp only [List.mem_cons, List.not_mem_nil, or_false, not_or] at ho
  obtain ⟨h1, h2, h3, h4, h5⟩ := ho
  simp [State.sqHaltQuiet, State.setSqMode, State.reg_hwSet_ne, State.reg_setReg_ne, State.reg_setFld_ne, h1, h2, h3, h4, h5]

theorem State.sqHaltQuiet_records (hq : q < 1024) :
    let t := s.sqHaltQuiet q st unit index tag header
    t.sqMode q = 3 ∧ t.reg (R.sqErr q) = BitVec.ofNat 32 (st.toNat * 2 ^ 16 + unit) ∧ t.reg (R.sqErrIndex q) = index ∧
      t.reg (R.sqErrTag q) = BitVec.ofNat 32 tag ∧ t.bit (R.qiSqerr (q / 32)) (q % 32) = true := by
  refine ⟨?_, ?_, ?_, ?_, State.bit_hwSet_self _ _ _ (Nat.mod_lt _ (by decide))⟩
  · simp (disch := omega) only [State.sqHaltQuiet, State.sqMode, State.fld, State.reg_hwSet_ne, State.reg_setReg_ne, R.sqErr,
      R.sqErrIndex, R.sqErrTag, R.qiSqerr, R.sqState]
    exact State.fld_setFld_self _ _ 30 2 3 (by decide)
  · simp (disch := omega) only [State.sqHaltQuiet, State.reg_hwSet_ne, State.reg_setReg_ne, State.reg_setReg_self, R.sqErr,
      R.sqErrIndex, R.sqErrTag, R.qiSqerr]
  · simp (disch := omega) only [State.sqHaltQuiet, State.reg_hwSet_ne, State.reg_setReg_ne, State.reg_setReg_self, R.sqErr,
      R.sqErrIndex, R.sqErrTag, R.qiSqerr]
  · simp (disch := omega) only [State.sqHaltQuiet, State.reg_hwSet_ne, State.reg_setReg_ne, State.reg_setReg_self, R.sqErr,
      R.sqErrIndex, R.sqErrTag, R.qiSqerr, R.sqState]

theorem qiIrq_ne_sqRegs (hq : q < 1024) :
    R.qiIrq ∉ [R.sqState q, R.sqErr q, R.sqErrIndex q, R.sqErrTag q, R.qiSqerr (q / 32)] := by
  simp only [List.mem_cons, List.not_mem_nil, or_false, not_or, R.qiIrq, R.sqErr, R.sqErrIndex, R.sqErrTag, R.qiSqerr, R.sqState]
  omega

/-- A queue stops for the entry at HEAD. -/
theorem State.sqHalt_stops (hq : q < 1024) :
    s.stops (s.sqHalt q st (s.sqHead q) index tag header) q st index tag := by
  obtain ⟨hmode, herr, hindex, htag, hbit⟩ := s.sqHaltQuiet_records st (s.sqHead q) index tag header hq
  have hirq : (s.sqHaltQuiet q st (s.sqHead q) index tag header).reg R.qiIrq = s.reg R.qiIrq :=
    s.reg_sqHaltQuiet_ne st _ index tag header (qiIrq_ne_sqRegs hq)
  have hreg : ∀ o, (s.sqHalt q st (s.sqHead q) index tag header).reg o =
      (s.sqHaltQuiet q st (s.sqHead q) index tag header).reg o := fun o => State.reg_msix_if _ _ _ o
  have hsqs : (s.sqHalt q st (s.sqHead q) index tag header).sqs =
      sset sqDefault s.sqs q { s.abandon q with latched := header } := State.sqs_msix_if _ _ _
  refine ⟨?_, ?_, ?_, ?_, ?_, ?_, fun o ho => ?_, fun k hk => ?_⟩
  · rw [State.sqMode, State.fld, hreg]; exact hmode
  · rw [hreg, herr]
  · rw [hreg, hindex]
  · rw [hreg, htag]
  · rw [State.bit, State.fld, hreg]; exact hbit
  · simp only [State.sqHalt_eq, State.bit, State.fld, hirq]
    by_cases hb : getField (s.reg R.qiIrq) 31 1 = 1
    · simp only [hb, decide_true, if_true]
      generalize hc : s.sqHaltQuiet q st (s.sqHead q) index tag header = c
      have hmsix : c.msix (getField (s.reg R.qiIrq) 0 11) =
          { s.msix (getField (s.reg R.qiIrq) 0 11) with regs := c.regs, now := c.now, later := c.later, sqs := c.sqs } := by
        rw [← hc]
        exact State.emit_with s _ _ _ _ _
      rw [hmsix]
    · simp only [hb, decide_false, Bool.false_eq_true, if_false]
      rfl
  · rw [hreg, s.reg_sqHaltQuiet_ne st _ index tag header ho]
  · rw [State.sq, hsqs]; exact sget_sset_ne sqDefault s.sqs _ hk

end

theorem State.sqStop_stops (s : State) {q : Nat} (hq : q < 1024) (st : Status) (doorbell : Bool) :
    s.stops (s.sqStop q st doorbell) q st (if doorbell && (s.entryRead q).isNone then 0 else s.reg (R.sqIndex q))
      (s.latchedTag q) :=
  s.sqHalt_stops st _ _ _ hq

/-!
### A queue begins to fetch (R60, R64)
-/

/-- The fetch of a queue once a header read has been issued. -/
def State.readingHeader (s : State) (q : Nat) : SqRun :=
  let r := s.sq q
  { r with firstRead := some (r.firstRead.getD s.cycle), lastRead := s.cycle, outstanding := true }

theorem State.sqHostRead_shape (s : State) (q u : Nat) : ∃ a b, s.sqHostRead q u = { s with out := a, hostHeld := b } := by
  unfold State.sqHostRead
  split
  · exact s.emit_shape _
  · exact ⟨s.out, s.hostHeld, rfl⟩

theorem State.readHeader_shape (s : State) (q : Nat) :
    ∃ a b, s.readHeader q = { s.putSq q (s.readingHeader q) with out := a, hostHeld := b } := by
  unfold State.readHeader
  split
  · exact (s.putSq q (s.readingHeader q)).sqHostRead_shape q (s.sqHead q)
  · exact ⟨s.out, s.hostHeld, rfl⟩

/-- Does a queue begin to fetch? -/
def State.fetchStarts (s : State) (q : Nat) : Bool :=
  let r := s.sq q
  decide (s.sqMode q = 1 ∧ s.sqHead q ≠ s.sqTail q ∧ r.firstRead = none ∧ r.header = none ∧ r.pushed = none ∧
    r.prefetched.all (fun p => decide (p.1 ≠ s.sqHead q)))

theorem State.startFetch_eq (s : State) (q : Nat) :
    s.startFetch q = if s.fetchStarts q then s.readHeader q else s := by
  simp only [State.startFetch, State.fetchStarts, decide_eq_true_eq]

theorem State.sq_of_sqs {s t : State} {q : Nat} {r : SqRun} (h : t.sqs = sset sqDefault s.sqs q r) :
    t.sq q = r ∧ s.sqsBut t q := by
  unfold State.sqsBut State.sq
  rw [h]
  exact ⟨sget_sset_self _ _ _ _, fun k hk => sget_sset_ne sqDefault s.sqs r hk⟩

/-- A beginning fetch changes what its queue holds, and sends its read. -/
theorem State.startFetch_shape (s : State) (q : Nat) :
    ∃ r a b, s.startFetch q = { s with sqs := r, out := a, hostHeld := b } ∧
      sget sqDefault r q = (if s.fetchStarts q then s.readingHeader q else s.sq q) ∧
      ∀ k, k ≠ q → sget sqDefault r k = s.sq k := by
  rw [State.startFetch_eq]
  cases s.fetchStarts q
  · exact ⟨s.sqs, s.out, s.hostHeld, rfl, rfl, fun _ _ => rfl⟩
  · obtain ⟨a, b, h⟩ := s.readHeader_shape q
    exact ⟨_, a, b, h, State.sq_of_sqs (s := s) (t := s.putSq q (s.readingHeader q)) rfl⟩

/-!
### Doorbells, the push window, the HEAD of a completion ring (R58 to R60, R68, R88)
-/

/-- Where a doorbell's new TAIL lies: how far beyond the old one, and how much of the ring is free. -/
def State.tailAdvance (s : State) (q new : Nat) : Nat := (new + s.sqUnits q - s.sqTail q) % s.sqUnits q
def State.ringFree (s : State) (q : Nat) : Nat := (s.sqHead q + 2 * s.sqUnits q - s.sqTail q - 1) % s.sqUnits q + 1

/-- TAIL moves, and what it newly covers is published (R60, R74). -/
def State.moveTail (s : State) (q new : Nat) : State :=
  let adv := s.tailAdvance q new
  let r := s.sq q
  (s.setReg (R.sqTail q) (BitVec.ofNat 32 new)).putSq q
    { r with pubs := if adv = 0 then r.pubs else r.pubs ++ [(adv, s.gtc, s.cycle)] }

theorem ringSqDoorbell_of_disabled {s : State} {q : Nat} (h : s.sqMode q = 0) (v : Word) : ringSqDoorbell q v s = s := by
  simp [ringSqDoorbell, h]

theorem ringSqDoorbell_of_out_of_range {s : State} {q : Nat} {v : Word} (h : s.sqMode q ≠ 0)
    (hr : s.sqUnits q ≤ getField v 0 16 ∨ s.ringFree q ≤ s.tailAdvance q (getField v 0 16)) :
    ringSqDoorbell q v s = if s.sqMode q = 3 then s else s.sqStop q St.length true := by
  unfold ringSqDoorbell
  simp only [if_neg h]
  exact if_pos hr

theorem ringSqDoorbell_of_in_range {s : State} {q : Nat} {v : Word} (h : s.sqMode q ≠ 0) (hu : getField v 0 16 < s.sqUnits q)
    (hf : s.tailAdvance q (getField v 0 16) < s.ringFree q) :
    ringSqDoorbell q v s =
      (if getField v 31 1 = 1 then (s.moveTail q (getField v 0 16)).capture q (s.sqTail q) (s.tailAdvance q (getField v 0 16))
       else s.moveTail q (getField v 0 16)).startFetch q := by
  unfold ringSqDoorbell
  simp only [if_neg h]
  exact if_neg (not_or.mpr ⟨not_le.mpr hu, not_le.mpr hf⟩)

theorem getField_lt (w : Word) (lo n : Nat) : getField w lo n < 2 ^ n := Nat.mod_lt _ (Nat.two_pow_pos n)

theorem State.fld_low_setReg_self (s : State) (off v n : Nat) (h : v < 2 ^ n) (hn : n ≤ 32) :
    (s.setReg off (BitVec.ofNat 32 v)).fld off 0 n = v := by
  rw [State.fld_setReg_self, getField_ofNat _ _ _ (by omega), Nat.pow_zero, Nat.div_one, Nat.mod_eq_of_lt h]

section
variable (s : State) (q new : Nat)

theorem State.sqTail_moveTail (h : new < 2 ^ 16) : (s.moveTail q new).sqTail q = new :=
  s.fld_low_setReg_self (R.sqTail q) new 16 h (by decide)

theorem State.reg_moveTail_ne {o : Nat} (h : o ≠ R.sqTail q) : (s.moveTail q new).reg o = s.reg o := State.reg_setReg_ne _ _ h

theorem State.sqState_moveTail : (s.moveTail q new).reg (R.sqState q) = s.reg (R.sqState q) :=
  s.reg_moveTail_ne q new (by simp only [R.sqState, R.sqTail]; omega)

theorem State.sqMode_moveTail : (s.moveTail q new).sqMode q = s.sqMode q := by
  simp only [State.sqMode, State.fld, s.sqState_moveTail q new]

theorem State.sqHead_moveTail : (s.moveTail q new).sqHead q = s.sqHead q := by
  simp only [State.sqHead, State.fld, s.sqState_moveTail q new]

theorem State.sqPhase_moveTail : (s.moveTail q new).sqPhase q = s.sqPhase q := by
  simp only [State.sqPhase, State.bit_eq, s.sqState_moveTail q new]

theorem State.sq_moveTail : (s.moveTail q new).sq q = 
      { s.sq q with pubs := if s.tailAdvance q new = 0 then (s.sq q).pubs
                            else (s.sq q).pubs ++ [(s.tailAdvance q new, s.gtc, s.cycle)] } ∧
    s.sqsBut (s.moveTail q new) q := State.sq_of_sqs rfl

end

/-- R60: an accepted doorbell without PUSHED. -/
theorem State.startFetch_moveTail (s : State) (q new : Nat) (hn : new < 2 ^ 16) :
    let t := (s.moveTail q new).startFetch q
    t.sqTail q = new ∧ t = { s with regs := t.regs, sqs := t.sqs, out := t.out, hostHeld := t.hostHeld } ∧
      s.regsBut t [R.sqTail q] ∧ s.sqsBut t q ∧
      (s.tailAdvance q new ≠ 0 → (t.sq q).pubs = (s.sq q).pubs ++ [(s.tailAdvance q new, s.gtc, s.cycle)]) ∧
      (s.sqMode q = 1 → new ≠ s.sqHead q → s.sq q = sqDefault q → (t.sq q).firstRead = some s.cycle) := by
  obtain ⟨r, a, b, hfetch, hsq, hothers⟩ := (s.moveTail q new).startFetch_shape q
  obtain ⟨hmoved, hmovedOthers⟩ := s.sq_moveTail q new
  rw [hfetch]
  refine ⟨s.sqTail_moveTail q new hn, rfl, fun o ho => s.reg_moveTail_ne q new (List.ne_of_not_mem_cons ho),
    fun k hk => (hothers k hk).trans (hmovedOthers k hk), fun ha => ?_, fun hm hh hd => ?_⟩
  · change (sget sqDefault r q).pubs = _
    rw [hsq, apply_ite SqRun.pubs, State.readingHeader, hmoved, if_neg ha]
    exact ite_self _
  · have hstart : (s.moveTail q new).fetchStarts q = true := by
      simp only [State.fetchStarts, s.sqMode_moveTail, s.sqHead_moveTail, s.sqTail_moveTail q new hn, hmoved, hd]
      simp [sqDefault, hm, hh.symm]
    change (sget sqDefault r q).firstRead = _
    rw [hsq, if_pos hstart, State.readingHeader, hmoved, hd]
    rfl

/-- R68: a doorbell with PUSHED whose copy is the entry expected at HEAD. -/
theorem State.startFetch_capture_moveTail {s : State} {q new : Nat} (hn : new < 2 ^ 16) (hm : s.sqMode q = 1)
    (hh : s.sqHead q = s.sqTail q) (ha : s.tailAdvance q new = entryUnits (s.pushedEntry q))
    (hp : entryMark (s.pushedEntry q) = s.sqPhase q) :
    let t := ((s.moveTail q new).capture q (s.sqTail q) (s.tailAdvance q new)).startFetch q
    t.sqTail q = new ∧ (t.sq q).pushed = some (s.pushedEntry q) ∧
      t.reg (R.sqPushUsed q) = satAdd (s.reg (R.sqPushUsed q)) 1 ∧
      t = { s with regs := t.regs, sqs := t.sqs, now := t.now } ∧ s.regsBut t [R.sqTail q, R.sqPushUsed q] ∧ s.sqsBut t q := by
  have hne : R.sqPushUsed q ≠ R.sqTail q := by simp only [R.sqPushUsed, R.sqTail]; omega
  have hcapture : (s.moveTail q new).capture q (s.sqTail q) (s.tailAdvance q new) =
      ((s.moveTail q new).bump (R.sqPushUsed q) 1).putSq q
        { (s.moveTail q new).sq q with pushed := some (s.pushedEntry q), prefetched := [] } :=
    if_pos ⟨(s.sqMode_moveTail q new).trans hm, (s.sqHead_moveTail q new).trans hh, ha, hp.trans (s.sqPhase_moveTail q new).symm⟩
  obtain ⟨hself, hothers⟩ := State.sq_of_sqs (congrArg State.sqs hcapture)
  have hstart : ((s.moveTail q new).capture q (s.sqTail q) (s.tailAdvance q new)).fetchStarts q = false := by
    simp [State.fetchStarts, hself]
  intro t
  have ht : t = (s.moveTail q new).capture q (s.sqTail q) (s.tailAdvance q new) := by
    simp only [t, State.startFetch_eq, hstart, Bool.false_eq_true, if_false]
  have hreg : ∀ o, t.reg o = ((s.moveTail q new).bump (R.sqPushUsed q) 1).reg o := fun o => by rw [ht, hcapture]; rfl
  refine ⟨?_, ?_, ?_, ?_, fun o ho => ?_, fun k hk => ?_⟩
  · rw [State.sqTail, State.fld, hreg, State.reg_bump_ne _ _ hne.symm]
    exact s.sqTail_moveTail q new hn
  · rw [ht, hself]
  · rw [hreg, State.reg_bump_self, s.reg_moveTail_ne q new hne]
  · rw [ht, hcapture]
    rfl
  · simp only [List.mem_cons, List.not_mem_nil, or_false, not_or] at ho
    rw [hreg, State.reg_bump_ne _ _ ho.2, s.reg_moveTail_ne q new ho.1]
  · rw [ht]
    exact (hothers k hk).trans ((s.sq_moveTail q new).2 k hk)

theorem sget_putBytes (m : SMap Byte) (k : Nat) (bs : List Byte) (x : Nat) :
    sget (fun _ => 0) (putBytes m k bs) x =
      if h : k ≤ x ∧ x < k + bs.length then bs[x - k]'(by omega) else sget (fun _ => 0) m x := by
  induction bs generalizing m k with
  | nil => simp [putBytes]
  | cons b t ih =>
    rw [putBytes, ih]
    by_cases hx : x = k
    · subst hx
      simp [sget_sset_self]
    · rw [sget_sset_ne _ _ _ hx]
      by_cases h : k + 1 ≤ x ∧ x < k + 1 + t.length
      · have h' : k ≤ x ∧ x < k + (b :: t).length := by simp only [List.length_cons]; omega
        rw [dif_pos h, dif_pos h']
        simp only [show x - k = x - (k + 1) + 1 by omega, List.getElem_cons_succ]
      · have h' : ¬ (k ≤ x ∧ x < k + (b :: t).length) := by simp only [List.length_cons]; omega
        rw [dif_neg h, dif_neg h']

theorem exec_pushWindowWrite_of_takesWrite {s : State} {src : Requester} {q : Fin 1024} {off : Nat}
    (h : s.takesWrite src (R.sqDoorbell q + 0x400 + off)) (bs : List Byte) :
    exec (.pushWindowWrite src q off bs) s = .next (writePush q off bs s) :=
  congrArg Host.Outcome.next (State.gate_of_takesWrite h bs _)

theorem State.setCqHead_of_lt {s : State} {c head : Nat} (h : head < s.cqRecords c) (hh : head < 2 ^ 16) :
    (s.setCqHead c head).fld (R.cqHead c) 0 16 = head ∧ s.onlyRegs (s.setCqHead c head) [R.cqHead c] := by
  rw [State.setCqHead, if_pos h]
  exact ⟨s.fld_low_setReg_self _ _ _ hh (by decide), s.onlyRegs_setReg _ _⟩

theorem State.setCqHead_of_ge {s : State} {c head : Nat} (h : s.cqRecords c ≤ head) : s.setCqHead c head = s :=
  if_neg (not_lt.mpr h)

/-- Settles O18: doorbells by where the new TAIL lies, the push window byte by byte, the two ways to write HEAD. -/
theorem doorbellPages : Obligations.DoorbellPages := by
  unfold Obligations.DoorbellPages
  refine ⟨fun src q v s h => ?doorbell, fun src q off bs s h => ?push, fun src c v s h => ?head, fun src q v s h => ?headDoorbell⟩
  case doorbell =>
    have hexec : exec (.sqDoorbell src q v) s = .next (ringSqDoorbell q v s) := State.regWrite_of_takesWrite h v _
    have hn : getField v 0 16 < 2 ^ 16 := getField_lt v 0 16
    have outOfRange := fun hm hr => ringSqDoorbell_of_out_of_range (s := s) (q := q) (v := v) hm hr
    refine ⟨fun hm => hexec.trans (congrArg _ (ringSqDoorbell_of_disabled hm v)), fun hm hu hf hb => ⟨_, hexec, ?_⟩,
      fun hm hu hf hb hh ha hp => ⟨_, hexec, ?_⟩, fun hm hr => ⟨_, hexec, ?_⟩, fun hm hr => hexec.trans (congrArg _ ?_)⟩
    · rw [ringSqDoorbell_of_in_range hm hu hf, if_neg (by omega)]
      exact s.startFetch_moveTail q _ hn
    · rw [ringSqDoorbell_of_in_range (by omega) hu hf, if_pos hb]
      exact State.startFetch_capture_moveTail hn hm hh ha hp
    · rw [outOfRange (by omega) hr, if_neg (by omega)]
      exact s.sqStop_stops q.isLt St.length true
    · rw [outOfRange (by omega) hr, if_pos hm]
  case push =>
    have hexec := exec_pushWindowWrite_of_takesWrite h bs
    refine ⟨fun hok => ⟨_, hexec, ?_⟩, fun hno => hexec.trans (congrArg _ ?_)⟩
    · rw [writePush, if_pos hok]
      refine ⟨rfl, fun i hi => ?_, fun k hk => ?_⟩
      · rw [sget_putBytes, dif_pos (by omega)]
        simp only [Nat.add_sub_cancel_left]
      · rw [sget_putBytes, dif_neg (by omega)]
    · rw [writePush, hno]
      rfl
  case head =>
    have hexec : exec (.cqHeadWrite src c v) s = .next (s.setCqHead c (getField v 0 16)) := State.regWrite_of_takesWrite h v _
    exact ⟨fun hlt => ⟨_, hexec, State.setCqHead_of_lt hlt (getField_lt v 0 16)⟩,
      fun hge => hexec.trans (congrArg _ (State.setCqHead_of_ge hge))⟩
  case headDoorbell =>
    have hexec : exec (.cqHeadDoorbell src q v) s = .next (ringCqDoorbell q v s) := State.regWrite_of_takesWrite h v _
    refine ⟨fun hown hlt => ⟨_, hexec, ?_⟩, fun hno => hexec.trans (congrArg _ ?_)⟩
    · rw [ringCqDoorbell, if_pos hown]
      exact State.setCqHead_of_lt hlt (getField_lt v 0 16)
    · unfold ringCqDoorbell
      obtain hno | hge := hno
      · exact if_neg hno
      · simp only [State.setCqHead_of_ge hge, ite_self]

end Sys2Proof.Machine
end

section
namespace Sys2Proof.Machine

open Sys2Proof

/-!
### A ring longer than HEAD and TAIL can count (R64, R66, R70)

SIZE 15 of SQ_CFG makes a ring of 2^21 units, and a prefetched entry at unit 65,535 puts the next speculative read at unit
65,536. Where that read fails, SQ_ERR takes the unit beyond its 16-bit field, and the status it latches is another one.
-/

/-- Queue 0 runs on a host ring of 2^21 units, with TAIL at 65,535 and one entry prefetched there. -/
def longRing : State :=
  (((State.reset.setReg (R.sqCfg 0) 0x40FFF000).setReg (R.sqState 0) 0x40000000).setReg (R.sqTail 0) 0x0000FFFF).putSq 0
    { sqDefault 0 with prefetched := [(65535, [])] }

theorem State.reg_sqErr_prefetchFailed (s : State) {q : Nat} (hq : q < 1024) (p tag : Nat) (st : Status) (a : Nat) :
    (s.prefetchFailed q p tag st a).reg (R.sqErr q) = BitVec.ofNat 32 (st.toNat * 2 ^ 16 + p) := by
  unfold State.prefetchFailed
  rw [State.reg_stepFree', State.sqHalt_eq, State.reg_msix_if]
  exact (State.sqHaltQuiet_records _ _ _ _ _ _ hq).2.1

theorem sqRead_longRing (units : List Nat) : longRing.sqRead 0 units .error = .error (St.host, 0) := by
  unfold State.sqRead
  exact if_pos (by decide)

theorem prefetchRead_longRing :
    prefetchRead 0 .error longRing = (longRing.sqHostReads 0 [65536]).prefetchFailed 0 65536 0 St.host 0 := by
  have hp : prefetchPos (longRing.sqUnits 0) (longRing.sq 0).prefetched (longRing.sq 0).prefetched.length (longRing.sqTail 0) =
      65536 := by decide
  have hrun : ¬ (longRing.sqMode 0 ≠ 1 ∨
      longRing.fld (R.sqCfg 0) 16 8 ≤ (65536 + longRing.sqUnits 0 - longRing.sqTail 0) % longRing.sqUnits 0 ∨
      longRing.sqWaits 0) := by decide
  unfold prefetchRead
  simp only [hp, sqRead_longRing]
  exact if_neg hrun

/-- Refutes O19: on the ring of 2^21 units a failed speculative read latches the status 0x7002 for 0x7001 HOST. -/
theorem not_ringReads : ¬ Obligations.RingReads := by
  unfold Obligations.RingReads
  intro h
  obtain ⟨t, ht, -, hstatus, -⟩ := ((h.2 0 .error longRing).2 (by decide) (by decide) (by decide)).1 St.host 0 (sqRead_longRing _)
  have htr : t = (longRing.sqHostReads 0 [65536]).prefetchFailed 0 65536 0 St.host 0 :=
    (Host.Outcome.next.inj ht).symm.trans prefetchRead_longRing
  have hreg := (longRing.sqHostReads 0 [65536]).reg_sqErr_prefetchFailed (q := 0) (by decide) 65536 0 St.host 0
  rw [← htr] at hreg
  exact absurd ((congrArg (getField · 16 16) hreg).symm.trans hstatus) (by decide)

/-!
### PAUSE, RESUME and SKIP (R72)
-/

section
variable (s : State) (q : Nat) (r : SqRun) (m : Nat)

/-- A queue's mode and what it holds are set at once. -/
theorem State.setSqMode_putSq_shape :
    (s.putSq q r).setSqMode q m = { s with regs := ((s.putSq q r).setSqMode q m).regs, sqs := sset sqDefault s.sqs q r } := rfl

theorem State.sqMode_setSqMode (h : m < 4) : (s.setSqMode q m).sqMode q = m :=
  (s.fld_setFld_self (R.sqState q) 30 2 m (by decide)).trans (Nat.mod_eq_of_lt h)

theorem State.sqHead_setSqMode : (s.setSqMode q m).sqHead q = s.sqHead q :=
  s.fld_setFld_other (R.sqState q) 30 2 m 0 16 (by decide)

theorem State.sqPhase_setSqMode : (s.setSqMode q m).sqPhase q = s.sqPhase q :=
  congrArg (fun v => decide (v = 1)) (s.fld_setFld_other (R.sqState q) 30 2 m 29 1 (by decide))

theorem State.reg_setSqMode_ne {o : Nat} (h : o ≠ R.sqState q) : (s.setSqMode q m).reg o = s.reg o :=
  State.reg_setFld_ne s 30 2 m h

theorem State.sqTail_setSqMode : (s.setSqMode q m).sqTail q = s.sqTail q := by
  simp only [State.sqTail, State.fld, s.reg_setSqMode_ne q m (o := R.sqTail q) (by simp only [R.sqTail, R.sqState]; omega)]

end

/-- What a queue holds once it is paused. -/
def State.pausedRun (s : State) (q : Nat) : SqRun :=
  { s.abandon q with
    header := match (s.sq q).header with
      | some h => if entryUnits h ≤ s.sqCovered q then some h else none
      | none => none }

theorem pauseQueue_eq (q : Nat) (s : State) :
    pauseQueue q s = if s.sqMode q ≠ 1 then s else (s.putSq q (s.pausedRun q)).setSqMode q 2 := rfl

/-- The expected phase turns where the ring wraps (R62). -/
def State.turnPhase (s : State) (q n : Nat) : State :=
  if s.sqUnits q ≤ s.sqHead q + n then s.setBit (R.sqState q) 29 (! s.sqPhase q) else s

/-- HEAD and the index past an entry of some units. -/
def State.moveHead (s : State) (q n : Nat) : State :=
  ((s.turnPhase q n).setFld (R.sqState q) 0 16 ((s.sqHead q + n) % s.sqUnits q)).wrapAdd (R.sqIndex q) 1

theorem State.passEntry_eq (s : State) (q n : Nat) : ∃ r, s.passEntry q n = (s.moveHead q n).putSq q r ∧
    r.life = if s.reg (R.sqIndex q) = 0xFFFFFFFF then (s.sq q).life + 1 else (s.sq q).life := ⟨_, rfl, rfl⟩

theorem State.turnPhase_shape (s : State) (q n : Nat) : ∃ r, s.turnPhase q n = { s with regs := r } := by
  unfold State.turnPhase
  split
  · exact ⟨_, rfl⟩
  · exact ⟨s.regs, rfl⟩

theorem State.moveHead_shape (s : State) (q n : Nat) : ∃ r, s.moveHead q n = { s with regs := r } := by
  obtain ⟨r, h⟩ := s.turnPhase_shape q n
  rw [State.moveHead, h]
  exact ⟨_, rfl⟩

theorem State.sqPhase_turnPhase (s : State) (q n : Nat) :
    (s.turnPhase q n).sqPhase q = if s.sqUnits q ≤ s.sqHead q + n then ! s.sqPhase q else s.sqPhase q := by
  unfold State.turnPhase
  split
  · exact s.bit_setBit_self _ 29 _ (by decide)
  · rfl

theorem State.reg_turnPhase_ne (s : State) {q o : Nat} (n : Nat) (h : o ≠ R.sqState q) : (s.turnPhase q n).reg o = s.reg o := by
  unfold State.turnPhase
  split
  · exact s.reg_setBit_ne _ _ h
  · rfl

theorem State.moveHead_advances (s : State) (q n : Nat) :
    let t := s.moveHead q n
    t.sqHead q = (s.sqHead q + n) % s.sqUnits q % 2 ^ 16 ∧
      (t.sqPhase q = if s.sqUnits q ≤ s.sqHead q + n then ! s.sqPhase q else s.sqPhase q) ∧
      t.reg (R.sqIndex q) = s.reg (R.sqIndex q) + 1 ∧ s.regsBut t [R.sqState q, R.sqIndex q] := by
  have hne : R.sqIndex q ≠ R.sqState q := by simp only [R.sqIndex, R.sqState]; omega
  have hstate : (s.moveHead q n).reg (R.sqState q) =
      ((s.turnPhase q n).setFld (R.sqState q) 0 16 ((s.sqHead q + n) % s.sqUnits q)).reg (R.sqState q) :=
    State.reg_setReg_ne _ _ hne.symm
  refine ⟨?_, ?_, ?_, fun o ho => ?_⟩
  · rw [State.sqHead, State.fld, hstate]
    exact State.fld_setFld_self _ _ 0 16 _ (by decide)
  · rw [State.sqPhase, State.bit_eq, hstate, ← s.sqPhase_turnPhase]
    exact State.bit_setFld_other _ (R.sqState q) 0 16 _ 29 (by decide)
  · rw [State.moveHead, State.reg_wrapAdd_self, State.reg_setFld_ne _ _ _ _ hne, s.reg_turnPhase_ne n hne]
    rfl
  · simp only [List.mem_cons, List.not_mem_nil, or_false, not_or] at ho
    rw [State.moveHead, State.wrapAdd, State.reg_setReg_ne _ _ ho.2, State.reg_setFld_ne _ _ _ _ ho.1, s.reg_turnPhase_ne n ho.1]

/-- R62: HEAD, the phase and the index as an entry of some units is passed. -/
theorem State.passEntry_advances (s : State) (q n : Nat) :
    let t := s.passEntry q n
    t.sqHead q = (s.sqHead q + n) % s.sqUnits q % 2 ^ 16 ∧
      (t.sqPhase q = if s.sqUnits q ≤ s.sqHead q + n then ! s.sqPhase q else s.sqPhase q) ∧
      t.reg (R.sqIndex q) = s.reg (R.sqIndex q) + 1 ∧ t = { s with regs := t.regs, sqs := t.sqs } ∧
      s.regsBut t [R.sqState q, R.sqIndex q] ∧ s.sqsBut t q := by
  obtain ⟨r, hpass, -⟩ := s.passEntry_eq q n
  obtain ⟨g, hshape⟩ := s.moveHead_shape q n
  obtain ⟨hhead, hphase, hindex, hregs⟩ := s.moveHead_advances q n
  rw [hpass]
  generalize s.moveHead q n = u at hshape hhead hphase hindex hregs
  subst hshape
  exact ⟨hhead, hphase, hindex, rfl, hregs, (State.sq_of_sqs rfl).2⟩

/-- A queue that resumes fetches again at HEAD. -/
theorem State.resumed (s : State) (q : Nat) :
    let t := ((s.putSq q (s.abandon q)).setSqMode q 1).startFetch q
    t.sqMode q = 1 ∧ t.sqHead q = s.sqHead q ∧ t.sqPhase q = s.sqPhase q ∧ (t.sq q).header = none ∧ (t.sq q).pushed = none ∧
      (t.sq q).prefetched = [] ∧ (t.sq q).outstanding = decide (s.sqHead q ≠ s.sqTail q) ∧
      t = { s with regs := t.regs, sqs := t.sqs, out := t.out, hostHeld := t.hostHeld } ∧ s.regsBut t [R.sqState q] ∧
      s.sqsBut t q := by
  obtain ⟨hsq, hothers⟩ := State.sq_of_sqs (congrArg State.sqs (s.setSqMode_putSq_shape q (s.abandon q) 1))
  have hshape := s.setSqMode_putSq_shape q (s.abandon q) 1
  have hmode := (s.putSq q (s.abandon q)).sqMode_setSqMode q 1 (by decide)
  have hhead : ((s.putSq q (s.abandon q)).setSqMode q 1).sqHead q = s.sqHead q := State.sqHead_setSqMode _ q 1
  have htail : ((s.putSq q (s.abandon q)).setSqMode q 1).sqTail q = s.sqTail q := State.sqTail_setSqMode _ q 1
  have hphase : ((s.putSq q (s.abandon q)).setSqMode q 1).sqPhase q = s.sqPhase q := State.sqPhase_setSqMode _ q 1
  have hregs : s.regsBut ((s.putSq q (s.abandon q)).setSqMode q 1) [R.sqState q] :=
    fun o ho => State.reg_setSqMode_ne _ q 1 (List.ne_of_not_mem_cons ho)
  generalize (s.putSq q (s.abandon q)).setSqMode q 1 = u at hsq hothers hshape hmode hhead htail hphase hregs
  obtain ⟨r, a, b, hfetch, hrun, hrest⟩ := u.startFetch_shape q
  have hstarts : u.fetchStarts q = decide (s.sqHead q ≠ s.sqTail q) := by
    simp only [State.fetchStarts, hmode, hhead, htail, hsq]
    simp [State.abandon]
  have hheld : sget sqDefault r q = { s.abandon q with
      firstRead := (sget sqDefault r q).firstRead, lastRead := (sget sqDefault r q).lastRead,
      outstanding := decide (s.sqHead q ≠ s.sqTail q) } := by
    rw [hrun, hstarts]
    by_cases hne : s.sqHead q = s.sqTail q
    · simp only [hne, ne_eq, not_true_eq_false, decide_false, Bool.false_eq_true, if_false, hsq]
      rfl
    · simp only [hne, ne_eq, not_false_eq_true, decide_true, if_true, State.readingHeader, hsq]
  rw [hfetch]
  refine ⟨hmode, hhead, hphase, congrArg SqRun.header hheld, congrArg SqRun.pushed hheld, congrArg SqRun.prefetched hheld,
    congrArg SqRun.outstanding hheld, ?_, hregs, fun k hk => (hrest k hk).trans (hothers k hk)⟩
  rw [hshape]

/-- An entry passed by SKIP. -/
theorem State.skipped (s : State) (q n : Nat) :
    let t := ((s.passEntry q n).setSqMode q 1).startFetch q
    t.sqMode q = 1 ∧ t.sqHead q = (s.sqHead q + n) % s.sqUnits q % 2 ^ 16 ∧
      (t.sqPhase q = if s.sqUnits q ≤ s.sqHead q + n then ! s.sqPhase q else s.sqPhase q) ∧
      t.reg (R.sqIndex q) = s.reg (R.sqIndex q) + 1 ∧
      t = { s with regs := t.regs, sqs := t.sqs, out := t.out, hostHeld := t.hostHeld } ∧
      s.regsBut t [R.sqState q, R.sqIndex q] ∧ s.sqsBut t q := by
  obtain ⟨hhead, hphase, hindex, hshape, hregs, hothers⟩ := s.passEntry_advances q n
  generalize s.passEntry q n = u at hhead hphase hindex hshape hregs hothers
  obtain ⟨r, a, b, hfetch, -, hrest⟩ := (u.setSqMode q 1).startFetch_shape q
  rw [hfetch]
  refine ⟨State.sqMode_setSqMode _ q 1 (by decide), (State.sqHead_setSqMode _ q 1).trans hhead,
    (State.sqPhase_setSqMode _ q 1).trans hphase, ?_, ?_, fun o ho => ?_, fun k hk => (hrest k hk).trans (hothers k hk)⟩
  · exact (State.reg_setSqMode_ne _ q 1 (by simp only [R.sqIndex, R.sqState]; omega)).trans hindex
  · rw [hshape]
    rfl
  · exact (State.reg_setSqMode_ne _ q 1 (List.ne_of_not_mem_cons ho)).trans (hregs o ho)

/-- Settles O21. -/
theorem pauseResumeSkip : Obligations.PauseResumeSkip := by
  unfold Obligations.PauseResumeSkip
  refine ⟨fun src q s h => ?pause, fun src q s h => ?resume, fun src q s h => ?skip⟩
  case pause =>
    have hexec : exec (.sqPause src q) s = .next (pauseQueue q s) := State.regWrite_of_takesWrite h _ _
    refine ⟨fun hm => ⟨_, hexec, ?_⟩, fun hm => hexec.trans (congrArg _ (if_pos hm))⟩
    rw [pauseQueue_eq, if_neg (not_not.mpr hm)]
    obtain ⟨hsq, hothers⟩ := State.sq_of_sqs (congrArg State.sqs (s.setSqMode_putSq_shape q (s.pausedRun q) 2))
    refine ⟨State.sqMode_setSqMode _ q 2 (by decide), State.sqHead_setSqMode _ q 2, State.sqPhase_setSqMode _ q 2, rfl,
      fun o ho => State.reg_setSqMode_ne _ q 2 (List.ne_of_not_mem_cons ho), hothers, ?_⟩
    rw [hsq]
    exact ⟨rfl, rfl, rfl, rfl, fun h hh => by simp only [State.pausedRun, hh]⟩
  case resume =>
    have hexec : exec (.sqResume src q) s = .next (resumeQueue q s) := State.regWrite_of_takesWrite h _ _
    refine ⟨fun hm => ⟨_, hexec, ?_⟩, fun h2 h3 => hexec.trans (congrArg _ (if_neg (not_or.mpr ⟨h2, h3⟩)))⟩
    rw [resumeQueue, if_pos hm]
    exact s.resumed q
  case skip =>
    have hexec : exec (.sqSkip src q) s = .next (skipEntry q s) := State.regWrite_of_takesWrite h _ _
    refine ⟨fun e hm he => ⟨_, hexec, ?_⟩, fun hno => hexec.trans (congrArg _ ?_)⟩
    · have hskip : skipEntry q s = ((s.passEntry q (entryUnits e)).setSqMode q 1).startFetch q := by
        simp only [skipEntry, he, hm, if_true]
      rw [hskip]
      exact s.skipped q (entryUnits e)
    · unfold skipEntry
      obtain hm | hl := hno
      · simp only [hm, if_false]
        split <;> rfl
      · simp only [hl]

/-!
### WAIT and FENCE (R77, R78)
-/

theorem State.ref_of_task {s : State} {r : TaskRef} {x : Task} (h : s.task r = some x) : x.ref = r :=
  of_decide_eq_true (List.find?_some (p := fun y : Task => decide (y.ref = r)) h)

theorem State.task_map_eq (s : State) (f : Task → Task) (hf : ∀ x, (f x).ref = x.ref) (r : TaskRef) :
    ({ s with tasks := s.tasks.map f } : State).task r = (s.task r).map f := by
  unfold State.task
  rw [List.find?_map]
  simp only [Function.comp_def, hf]

theorem State.task_putTask_self {s : State} {r : TaskRef} {x y : Task} (h : s.task r = some x) (hy : y.ref = r) :
    (s.putTask y).task r = some y := by
  have hx := State.ref_of_task h
  refine (s.task_map_eq (fun x => if x.ref = y.ref then y else x) (fun x => ?_) r).trans ?_
  · split
    · exact Eq.symm ‹_›
    · rfl
  · rw [h, Option.map_some, if_pos (hx.trans hy.symm)]

theorem State.tasksBut_putTask (s : State) (y : Task) : s.tasksBut (s.putTask y) y.ref := by
  intro r hr
  refine (s.task_map_eq (fun x => if x.ref = y.ref then y else x) (fun x => ?_) r).trans ?_
  · split
    · exact Eq.symm ‹_›
    · rfl
  · cases hx : s.task r with
    | none => rfl
    | some x => rw [Option.map_some, if_neg (fun h => hr ((State.ref_of_task hx).symm.trans h))]

theorem State.refs_putTask (s : State) (y : Task) : (s.putTask y).tasks.map Task.ref = s.tasks.map Task.ref := by
  simp only [State.putTask, List.map_map]
  refine List.map_congr_left fun x _ => ?_
  by_cases h : x.ref = y.ref <;> simp [h]

theorem Task.allSeen_iff (t : Task) : t.allSeen = true ↔ ∀ e ∈ t.awaited, e ∈ t.seen := by
  simp [Task.allSeen]

/-- A queue task that completes. -/
theorem State.putTask_queueDone {s : State} {ref : TaskRef} {x : Task} (h : s.task ref = some x) :
    (s.putTask x.queueDone).task ref = some x.queueDone ∧
      s.putTask x.queueDone = { s with tasks := (s.putTask x.queueDone).tasks } ∧ s.tasksBut (s.putTask x.queueDone) ref := by
  have hx := State.ref_of_task h
  exact ⟨State.task_putTask_self h hx, rfl, hx ▸ s.tasksBut_putTask x.queueDone⟩

/-- Settles O22. -/
theorem waitAndFence : Obligations.WaitAndFence := by
  unfold Obligations.WaitAndFence
  intro ref s x hx hp
  refine ⟨fun hop hseen => ⟨_, rfl, ?_⟩, fun hop hno => congrArg Host.Outcome.next ?_, fun hop hnone => ⟨_, rfl, ?_⟩,
    fun hop hsome => congrArg Host.Outcome.next ?_⟩
  · have ht : completeWait ref s = s.putTask x.queueDone := by
      simp only [completeWait, hx]
      exact if_pos ⟨hop, hp, (Task.allSeen_iff x).mpr hseen⟩
    rw [ht]
    exact State.putTask_queueDone hx
  · obtain ⟨e, he, hne⟩ := hno
    simp only [completeWait, hx]
    exact if_neg fun h => hne ((Task.allSeen_iff x).mp h.2.2 e he)
  · have ht : completeFence ref s = s.putTask x.queueDone := by
      simp only [completeFence, hx]
      exact if_pos ⟨hop, hp, hnone⟩
    rw [ht]
    exact State.putTask_queueDone hx
  · obtain ⟨y, hy⟩ := hsome
    simp only [completeFence, hx]
    exact if_neg fun h => List.ne_nil_of_mem hy h.2.2

/-!
### Event flags (R75, R79, R80)
-/

theorem State.bit_eq_getLsbD (s : State) (off i : Nat) : s.bit off i = (s.reg off).getLsbD i := by
  have hbit := testBit_getField (s.reg off) i 1 0
  simp only [Nat.lt_one_iff, decide_true, Bool.true_and, Nat.add_zero] at hbit
  rw [State.bit_eq, ← hbit, Nat.testBit_zero, Nat.mod_eq_of_lt (show _ < 2 from getField_lt _ i 1)]

theorem State.flag_eq (s : State) (e : Nat) : s.flag e = (s.reg (R.eventSet (e / 32))).getLsbD (e % 32) :=
  s.bit_eq_getLsbD _ _

theorem eventSet_eq_iff {j k : Nat} : R.eventSet j = R.eventSet k ↔ j = k := by
  simp only [R.eventSet]
  omega

theorem State.setNow_noteSet_self (s : State) (off : Nat) (bits : Word) :
    (s.noteSet off bits).setNow off = s.setNow off ||| bits :=
  sget_sset_self _ _ _ _

theorem getField_congr {w v : Word} {lo n : Nat} (h : ∀ j, j < n → w.getLsbD (lo + j) = v.getLsbD (lo + j)) :
    getField w lo n = getField v lo n := by
  apply Nat.eq_of_testBit_eq
  intro j
  rw [testBit_getField, testBit_getField]
  by_cases hj : j < n
  · rw [h j hj]
  · simp [hj]

/-- Each flag of word `k` after its register has been written, and each flag of another word. -/
theorem State.flag_setReg_eventSet (s : State) (k e : Nat) (w : Word) :
    (s.setReg (R.eventSet k) w).flag e = if e / 32 = k then w.getLsbD (e % 32) else s.flag e := by
  rw [State.flag_eq]
  split
  next h => rw [h, State.reg_setReg_self]
  next h => rw [State.reg_setReg_ne _ _ (fun he => h (eventSet_eq_iff.mp he)), State.flag_eq]

/-- The task observes a flag that is set, and is eligible where it waited for that one. -/
theorem State.observing_seen {s : State} {x : Task} {e : Nat} (ha : e ∈ x.awaited) (hf : s.flag e = true) :
    e ∈ (s.observing x).seen ∧ ((entryWait x.entry).event = e → (s.observing x).eligible = true) := by
  have hseen : e ∈ (s.observing x).seen := by
    by_cases hx : e ∈ x.seen <;> simp [State.observing, ha, hf, hx]
  refine ⟨hseen, fun he => ?_⟩
  have hcontains : (s.observing x).seen.contains (entryWait x.entry).event = true := by
    rw [he, List.contains_iff_mem]
    exact hseen
  simp only [State.observing] at hcontains ⊢
  rw [hcontains, Bool.or_true]

theorem Task.arrives_shape (x : Task) (now : Nat) : ∃ a, x.arrives now = { x with reachAt := a } := by
  unfold Task.arrives
  split
  · exact ⟨_, rfl⟩
  · exact ⟨x.reachAt, rfl⟩

/-- Settles O23. -/
theorem eventFlagsSetAndClear : Obligations.EventFlagsSetAndClear := by
  unfold Obligations.EventFlagsSetAndClear
  refine ⟨fun src k v s h => ⟨_, State.regWrite_of_takesWrite h _ _, fun e he => ?_, ?_, fun i hi => ?_⟩,
    fun src k v s h => ⟨_, State.regWrite_of_takesWrite h _ _, fun e he => ?_, ?_⟩, fun s x e hab hx ha hf => ?observed⟩
  · have hflag : (setEvents k v s).flag e = if e / 32 = k then (s.reg (R.eventSet k) ||| v).getLsbD (e % 32) else s.flag e :=
      s.flag_setReg_eventSet k e _
    rw [hflag]
    by_cases hk : e / 32 = k
    · rw [if_pos hk, BitVec.getLsbD_or, State.flag_eq, hk]
      simp
    · simp [hk]
  · exact ((State.onlyRegs.refl s _).setReg (by simp) _).noteSet _ _
  · rw [setEvents, State.setNow_noteSet_self, BitVec.getLsbD_or, hi, Bool.or_true]
  · rw [clearEvents, State.flag_setReg_eventSet]
    by_cases hk : e / 32 = k
    · have hlt : e % 32 < 32 := Nat.mod_lt _ (by decide)
      simp [hk, State.flag_eq, hlt]
    · simp [hk]
  · exact s.onlyRegs_setReg _ _
  case observed =>
    obtain ⟨hseen, heligible⟩ := State.observing_seen ha hf
    obtain ⟨a, harrives⟩ := (s.observing x).arrives_shape s.cycle
    refine ⟨(s.observing x).arrives s.cycle, ?_, ?_⟩
    · have htasks : s.nextCycle.tasks = (s.tasks.map s.observing).map (fun t => t.arrives s.cycle) := by
        simp only [State.nextCycle, hab, State.observe]
      rw [htasks]
      exact List.mem_map_of_mem (List.mem_map_of_mem hx)
    · rw [harrives]
      exact ⟨rfl, rfl, hseen, heligible⟩

/-!
### Timers (R81)
-/

theorem timerRegs_ne (n : Nat) (hn : n < 16) (k : Nat) (hk : k < 16) :
    R.tmrCtl n ≠ R.eventSet k ∧ R.tmrCmpLo n ≠ R.eventSet k ∧ R.tmrCmpLo n + 4 ≠ R.eventSet k ∧ R.tmrMissed n ≠ R.eventSet k ∧
      R.tmrCtl n ≠ R.tmrCmpLo n ∧ R.tmrCtl n ≠ R.tmrCmpLo n + 4 ∧ R.tmrCtl n ≠ R.tmrMissed n ∧ R.tmrCmpLo n ≠ R.tmrMissed n ∧
      R.tmrCmpLo n + 4 ≠ R.tmrMissed n := by
  simp only [R.tmrCtl, R.tmrCmpLo, R.tmrMissed, R.eventSet]
  omega

theorem timer_eventWord_lt (s : State) (n : Nat) : s.fld (R.tmrCtl n) 0 9 / 32 < 16 := by
  have := getField_lt (s.reg (R.tmrCtl n)) 0 9
  simp only [State.fld]
  omega

theorem State.flag_noteTimer (s : State) (n e : Nat) : (s.noteTimer n).flag e = s.flag e := rfl
theorem State.reg_noteTimer (s : State) (n o : Nat) : (s.noteTimer n).reg o = s.reg o := rfl

theorem contains_timers_noteTimer (s : State) (n : Nat) : (s.noteTimer n).now.timers.contains n = true := by
  simp [State.noteTimer]

/-- The least number of periods that takes CMP above the counter. -/
theorem timerPeriods_spec {s : State} {n : Nat} (hp : s.reg (R.tmrPeriod n) ≠ 0) (hc : s.reg64 (R.tmrCmpLo n) ≤ s.gtc) :
    let p := (s.reg (R.tmrPeriod n)).toNat
    let cmp := s.reg64 (R.tmrCmpLo n) + timerPeriods s n * p
    1 ≤ timerPeriods s n ∧ s.gtc < cmp ∧ cmp ≤ s.gtc + p := by
  have hp0 : (s.reg (R.tmrPeriod n)).toNat ≠ 0 := fun h => hp (BitVec.eq_of_toNat_eq h)
  simp only [timerPeriods, if_neg hp0]
  have hdiv := Nat.div_add_mod (s.gtc - s.reg64 (R.tmrCmpLo n)) (s.reg (R.tmrPeriod n)).toNat
  have hmod := Nat.mod_lt (s.gtc - s.reg64 (R.tmrCmpLo n)) (Nat.pos_of_ne_zero hp0)
  rw [Nat.mul_comm] at hdiv
  generalize (s.gtc - s.reg64 (R.tmrCmpLo n)) / (s.reg (R.tmrPeriod n)).toNat = k at hdiv ⊢
  rw [Nat.add_mul]
  omega

/-- What a write of TMR_CTL leaves in its register where it is not refused. -/
def timerWord (s : State) (n : Nat) (v : Word) : Word :=
  writtenWord (s.reg (R.tmrCtl n)) v 0xC00001FF 0x20000000 0 (s.setNow (R.tmrCtl n) &&& s.reg (R.tmrCtl n) &&& 0x20000000).toNat

/-- A periodic arming with PERIOD zero or all ones. -/
def badArming (s : State) (n : Nat) (v : Word) : Prop :=
  getField v 30 1 = 1 ∧ (s.reg (R.tmrPeriod n) = 0 ∨ s.reg (R.tmrPeriod n) = 0xFFFFFFFF)

theorem getField_timerWord (s : State) (n : Nat) (v : Word) :
    getField (timerWord s n v) 0 9 = getField v 0 9 ∧ getField (timerWord s n v) 30 1 = getField v 30 1 ∧
      getField (timerWord s n v) 31 1 = getField v 31 1 := by
  have hbit : ∀ i, i < 9 ∨ i = 30 ∨ i = 31 → (timerWord s n v).getLsbD i = v.getLsbD i := by
    intro i hi
    have hmasks : Nat.testBit 0xC00001FF i = true ∧ Nat.testBit 0x20000000 i = false := by
      obtain h | rfl | rfl := hi
      · revert i; decide
      · decide
      · decide
    rw [timerWord, getLsbD_writtenWord _ _ _ _ _ _ _ (by omega), BitVec.testBit_toNat, BitVec.getLsbD_and, hmasks.1, hmasks.2]
    have hkept : (0x20000000#32).getLsbD i = false := hmasks.2
    simp [hkept]
  refine ⟨?_, ?_, ?_⟩ <;> refine getField_congr fun j hj => hbit _ (by omega)

theorem timer_due {s : State} {n : Nat} (ha : s.bit (R.tmrCtl n) 31 = true) (hc : s.reg64 (R.tmrCmpLo n) ≤ s.gtc)
    (hnow : s.now.timers.contains n = false) :
    (s.bit (R.tmrCtl n) 31 = true ∧ s.reg64 (R.tmrCmpLo n) ≤ s.gtc ∧ (! s.now.timers.contains n) = true) = True :=
  eq_true ⟨ha, hc, by rw [hnow]; rfl⟩

/-- A one-shot timer that fires. -/
theorem fireTimer_oneShot {s : State} {n : Nat} (hn : n < 16) (ha : s.bit (R.tmrCtl n) 31 = true)
    (hc : s.reg64 (R.tmrCmpLo n) ≤ s.gtc) (hnow : s.now.timers.contains n = false) (hp : s.bit (R.tmrCtl n) 30 = false) :
    let t := fireTimer n s
    t.flag (s.fld (R.tmrCtl n) 0 9) = true ∧ t.bit (R.tmrCtl n) 31 = false ∧ t.now.timers.contains n = true ∧
      s.onlyRegs t [R.tmrCtl n, R.eventSet (s.fld (R.tmrCtl n) 0 9 / 32)] := by
  have hfire : fireTimer n s = ((s.setBit (R.tmrCtl n) 31 false).setFlag (s.fld (R.tmrCtl n) 0 9)).noteTimer n := by
    simp only [fireTimer, timer_due ha hc hnow, if_true, hp, Bool.false_eq_true, if_false]
  obtain ⟨hctl, -⟩ := timerRegs_ne n hn _ (timer_eventWord_lt s n)
  rw [hfire]
  refine ⟨?_, ?_, contains_timers_noteTimer _ _, ?_⟩
  · rw [State.flag_noteTimer, State.flag_setFlag_self]
  · rw [State.bit_eq, State.reg_noteTimer, State.setFlag, State.reg_hwSet_ne _ _ hctl]
    exact s.bit_setBit_self (R.tmrCtl n) 31 false (by decide)
  · exact (((State.onlyRegs.refl s _).setBit (by simp) 31 false).hwSet (by simp) _).withNow _

/-- A periodic timer that fires. -/
theorem fireTimer_periodic {s : State} {n : Nat} (hn : n < 16) (ha : s.bit (R.tmrCtl n) 31 = true)
    (hc : s.reg64 (R.tmrCmpLo n) ≤ s.gtc) (hnow : s.now.timers.contains n = false) (hp : s.bit (R.tmrCtl n) 30 = true) :
    let t := fireTimer n s
    t.flag (s.fld (R.tmrCtl n) 0 9) = true ∧
      t.reg64 (R.tmrCmpLo n) = (s.reg64 (R.tmrCmpLo n) + timerPeriods s n * (s.reg (R.tmrPeriod n)).toNat) % 2 ^ 64 ∧
      t.reg (R.tmrMissed n) = satAdd (s.reg (R.tmrMissed n)) (timerPeriods s n - 1) ∧ t.bit (R.tmrCtl n) 31 = true ∧
      t.now.timers.contains n = true ∧ t = { s with regs := t.regs, now := t.now, freeCtr := t.freeCtr } ∧
      s.regsBut t [R.tmrCmpLo n, R.tmrCmpLo n + 4, R.tmrMissed n, R.eventSet (s.fld (R.tmrCtl n) 0 9 / 32)] := by
  obtain ⟨hctl, hlo, hhi, hmissed, hctlLo, hctlHi, hctlMissed, hloMissed, hhiMissed⟩ :=
    timerRegs_ne n hn _ (timer_eventWord_lt s n)
  let moved := s.setReg64 (R.tmrCmpLo n) (s.reg64 (R.tmrCmpLo n) + timerPeriods s n * (s.reg (R.tmrPeriod n)).toNat)
  let counted := moved.bump (R.tmrMissed n) (timerPeriods s n - 1)
  have hfire : fireTimer n s = (counted.stepFree.setFlag (s.fld (R.tmrCtl n) 0 9)).noteTimer n := by
    simp only [fireTimer, timer_due ha hc hnow, if_true, hp, counted, moved]
  have hreg : ∀ o, o ≠ R.eventSet (s.fld (R.tmrCtl n) 0 9 / 32) → (fireTimer n s).reg o = counted.reg o := fun o ho => by
    rw [hfire, State.reg_noteTimer, State.setFlag, State.reg_hwSet_ne _ _ ho, State.reg_stepFree']
  refine ⟨?_, ?_, ?_, ?_, ?_, ?_, fun o ho => ?_⟩
  · rw [hfire, State.flag_noteTimer, State.flag_setFlag_self]
  · rw [State.reg64, hreg _ hlo, hreg _ hhi, State.reg_bump_ne _ _ hloMissed, State.reg_bump_ne _ _ hhiMissed]
    exact s.reg64_setReg64 _ _
  · rw [hreg _ hmissed, State.reg_bump_self, State.reg_setReg64_ne _ _ hloMissed.symm hhiMissed.symm]
  · rw [State.bit_eq, hreg _ hctl, State.reg_bump_ne _ _ hctlMissed, State.reg_setReg64_ne _ _ hctlLo hctlHi]
    exact ha
  · rw [hfire]
    exact contains_timers_noteTimer _ _
  · rw [hfire]
    rfl
  · simp only [List.mem_cons, List.not_mem_nil, or_false, not_or] at ho
    rw [hreg _ ho.2.2.2, State.reg_bump_ne _ _ ho.2.2.1, State.reg_setReg64_ne _ _ ho.1 ho.2.1]

/-- A write of TMR_CTL, by what it arms. -/
theorem writeTmrCtl_cases (n : Nat) (v : Word) (s : State) :
    (getField v 31 1 = 1 ∧ badArming s n v ∧
      writeTmrCtl n v s = (s.setReg (R.tmrCtl n) (putField (timerWord s n v) 31 1 0)).hwSet (R.tmrCtl n) 29) ∨
    (getField v 31 1 = 1 ∧ ¬ badArming s n v ∧ writeTmrCtl n v s = (s.setReg (R.tmrCtl n) (timerWord s n v)).noteTimer n) ∨
    (getField v 31 1 ≠ 1 ∧ writeTmrCtl n v s = s.setReg (R.tmrCtl n) (timerWord s n v)) := by
  by_cases ha : getField v 31 1 = 1
  · by_cases hb : badArming s n v
    · refine Or.inl ⟨ha, hb, ?_⟩
      have hb' : getField v 30 1 = 1 ∧ (s.reg (R.tmrPeriod n) = 0 ∨ s.reg (R.tmrPeriod n) = 0xFFFFFFFF) := hb
      simp only [writeTmrCtl, timerWord, ha, decide_true, Bool.true_and, ← Bool.decide_and, decide_eq_true_eq, if_pos hb']
    · refine Or.inr (Or.inl ⟨ha, hb, ?_⟩)
      have hb' : ¬ (getField v 30 1 = 1 ∧ (s.reg (R.tmrPeriod n) = 0 ∨ s.reg (R.tmrPeriod n) = 0xFFFFFFFF)) := hb
      simp only [writeTmrCtl, timerWord, ha, decide_true, Bool.true_and, ← Bool.decide_and, decide_eq_true_eq, if_neg hb', if_true]
  · exact Or.inr (Or.inr ⟨ha, by simp [writeTmrCtl, timerWord, ha]⟩)

/-- Settles O24. -/
theorem timersFireAndArm : Obligations.TimersFireAndArm := by
  unfold Obligations.TimersFireAndArm
  refine ⟨fun n s ha hc hnow hp => ⟨_, rfl, fireTimer_oneShot n.isLt ha hc hnow hp⟩, fun n s ha hc hnow hp hz hlim => ?periodic,
    fun n s hno => congrArg Host.Outcome.next (if_neg ?_), fun src n v s h => ?armed⟩
  case periodic =>
    obtain ⟨hflag, hcmp, hmissed, hctl, hfired, hshape, hregs⟩ := fireTimer_periodic n.isLt ha hc hnow hp
    obtain ⟨hk, hlo, hhi⟩ := timerPeriods_spec hz hc
    have hcmp' := hcmp.trans (Nat.mod_eq_of_lt (by omega))
    exact ⟨_, timerPeriods s n, rfl, hflag, hk, hcmp', by rw [hcmp']; exact hlo, by rw [hcmp']; exact hhi, hmissed, hctl, hfired,
      hshape, hregs⟩
  · rintro ⟨h1, h2, h3⟩
    obtain h | h | h := hno
    · simp [h] at h1
    · omega
    · rw [h] at h3
      exact Bool.noConfusion h3
  case armed =>
    obtain ⟨hevent, hperiodic, harm⟩ := getField_timerWord s n v
    refine ⟨_, State.regWrite_of_takesWrite h v _, ?_⟩
    obtain ⟨ha, hb, ht⟩ | ⟨ha, hb, ht⟩ | ⟨ha, ht⟩ := writeTmrCtl_cases n v s
    · rw [ht]
      refine ⟨((State.onlyRegs.refl s _).setReg (by simp) _).hwSet (by simp) 29, ?_, ?_, fun hn => absurd hb hn, fun hn => absurd hb hn,
        fun _ _ => ⟨?_, State.bit_hwSet_self _ _ 29 (by decide)⟩⟩
      · refine (State.fld_setFld_other _ _ 29 1 _ 0 9 (by decide)).trans ?_
        rw [State.fld_setReg_self, getField_putField_other _ _ _ _ _ _ (by decide), hevent]
      · refine (State.fld_setFld_other _ _ 29 1 _ 30 1 (by decide)).trans ?_
        rw [State.fld_setReg_self, getField_putField_other _ _ _ _ _ _ (by decide), hperiodic]
      · refine (State.bit_setBit_other _ _ 29 31 _ (by decide)).trans ?_
        rw [State.bit_eq, State.reg_setReg_self, getField_putField_self _ _ _ _ (by decide)]
        rfl
    · have hreg : (writeTmrCtl n v s).reg (R.tmrCtl n) = timerWord s n v := by
        rw [ht]
        exact s.reg_setReg_self _ _
      refine ⟨by rw [ht]; exact (s.onlyRegs_setReg _ _).withNow _, ?_, ?_, fun _ => ?_, fun _ _ => ?_, fun hn => absurd hn hb⟩
      · rw [State.fld, hreg, hevent]
      · rw [State.fld, hreg, hperiodic]
      · rw [State.fld, hreg, harm]
      · rw [ht]
        exact contains_timers_noteTimer _ _
    · rw [ht]
      refine ⟨s.onlyRegs_setReg _ _, ?_, ?_, fun _ => ?_, fun _ hn => absurd hn ha, fun _ hn => absurd hn ha⟩
      · rw [State.fld_setReg_self, hevent]
      · rw [State.fld_setReg_self, hperiodic]
      · rw [State.fld_setReg_self, harm]

end Sys2Proof.Machine
end

section
namespace Sys2Proof.Machine

open Sys2Proof

/-!
### Tasks on their way to dispatch (R22, R57, R212, R222, R248)

What failing a task before its dispatch, check 10 and the binding check change of the state beside the tasks, and what they
change of a task. Every operation of this way is one task's turn; a queue that moves on is a flow of such turns.
-/

/-- A register of streams or credits, or the free entries of the range store. -/
def streamReg (o : Nat) : Bool := decide (0x380000 ≤ o ∧ o < 0x3B0000) || decide (o = R.tuRangesFree)

/-- What the way to dispatch leaves alone beside the tasks, with the first events it notes. -/
structure State.Beside (s : State) (l : List Latch) (t : State) : Prop where
  frame : t = { s with regs := t.regs, now := t.now, later := t.later, tasks := t.tasks, ds := t.ds, apertures := t.apertures }
  latches : t.later.latches = s.later.latches ++ l
  quiet : t.later.events = s.later.events ∧ t.later.flags = s.later.flags ∧ t.now.dispatched = s.now.dispatched
  regs : ∀ o, streamReg o = false → t.reg o = s.reg o

theorem State.Beside.refl (s : State) : s.Beside [] s := ⟨rfl, (List.append_nil _).symm, ⟨rfl, rfl, rfl⟩, fun _ _ => rfl⟩

theorem State.Beside.trans {s t u : State} {l m : List Latch} (h : s.Beside l t) (k : t.Beside m u) : s.Beside (l ++ m) u where
  frame := k.frame.trans (by rw [h.frame])
  latches := by rw [k.latches, h.latches, List.append_assoc]
  quiet := ⟨k.quiet.1.trans h.quiet.1, k.quiet.2.1.trans h.quiet.2.1, k.quiet.2.2.trans h.quiet.2.2⟩
  regs o ho := (k.regs o ho).trans (h.regs o ho)

theorem State.Beside.sameMem {s t : State} {l : List Latch} (h : s.Beside l t) : s.sameMem t := fun a => by rw [h.frame]; rfl

theorem State.Beside.setReg {s t : State} {l : List Latch} (h : s.Beside l t) {off : Nat} (ho : streamReg off = true) (v : Word) :
    s.Beside l (t.setReg off v) where
  frame := by rw [h.frame]; rfl
  latches := h.latches
  quiet := h.quiet
  regs o hf := (State.reg_setReg_ne t v (fun he => by rw [he, ho] at hf; exact Bool.noConfusion hf)).trans (h.regs o hf)

theorem State.Beside.bump {s t : State} {l : List Latch} (h : s.Beside l t) {off : Nat} (ho : streamReg off = true) (n : Nat) :
    s.Beside l (t.bump off n) where
  frame := by rw [h.frame]; rfl
  latches := h.latches
  quiet := h.quiet
  regs o hf := (State.reg_bump_ne t n (fun he => by rw [he, ho] at hf; exact Bool.noConfusion hf)).trans (h.regs o hf)

theorem State.Beside.withTasks {s t : State} {l : List Latch} (h : s.Beside l t) (x : List Task) : s.Beside l { t with tasks := x } where
  frame := by rw [h.frame]
  latches := h.latches
  quiet := h.quiet
  regs := h.regs

theorem streamReg_of_mem {o : Nat} (h : 0x380000 ≤ o) (h' : o < 0x3B0000) : streamReg o = true := by
  simp [streamReg, h, h']

theorem streamReg_eq_false {o : Nat} (h : o < 0x380000) (h' : o ≠ R.tuRangesFree) : streamReg o = false := by
  simp only [streamReg, Bool.or_eq_false_iff, decide_eq_false_iff_not]
  exact ⟨by omega, h'⟩

theorem streamReg_dsState (n : Fin 256) : streamReg (R.dsState n) = true :=
  streamReg_of_mem (by simp only [R.dsState]; omega) (by simp only [R.dsState]; omega)

theorem streamReg_dsNext (n : Fin 256) : streamReg (R.dsNext n) = true :=
  streamReg_of_mem (by simp only [R.dsNext]; omega) (by simp only [R.dsNext]; omega)

theorem streamReg_strFailed (n : Fin 256) : streamReg (R.strFailed (n / 32)) = true :=
  streamReg_of_mem (by simp only [R.strFailed]; omega) (by simp only [R.strFailed]; omega)

theorem streamReg_crdVal {n : Nat} (h : n < 64) : streamReg (R.crdVal n) = true :=
  streamReg_of_mem (by simp only [R.crdVal]; omega) (by simp only [R.crdVal]; omega)

theorem streamReg_tuRangesFree : streamReg R.tuRangesFree = true := by decide

theorem streamCredit_lt {e : List Byte} {n : Nat} (h : streamCredit e = some n) : n < 64 := by
  unfold streamCredit at h
  split at h
  · rw [← Option.some.inj h]
    exact Nat.mod_lt _ (by decide)
  · exact absurd h (by simp)

theorem State.Beside.markFailed {s t : State} {l : List Latch} (h : s.Beside l t) (n : Fin 256) : s.Beside l (t.markFailed n) :=
  (h.setReg (streamReg_dsState n) _).setReg (streamReg_strFailed n) _

theorem State.Beside.voidTiles {s t : State} {l : List Latch} (h : s.Beside l t) (b : Option Binding) : s.Beside l (t.voidTiles b) := by
  unfold State.voidTiles
  split
  · exact h
  · split
    · exact h
    · exact ⟨by rw [h.frame]; rfl, h.latches, h.quiet, h.regs⟩

theorem State.Beside.returnCredits {s t : State} {l : List Latch} (h : s.Beside l t) (x : Task) : s.Beside l (t.returnCredits x) := by
  unfold State.returnCredits
  split
  · split
    next hn => exact h.bump (streamReg_crdVal (streamCredit_lt hn)) _
    next => exact h
  · exact h

theorem State.Beside.oweNotices {s t : State} {l : List Latch} (h : s.Beside l t) (x : Task) : s.Beside l (t.oweNotices x) := by
  unfold State.oweNotices
  split
  · exact ⟨by rw [h.frame], h.latches, h.quiet, h.regs⟩
  · exact h

theorem State.Beside.unbind {s t : State} {l : List Latch} (h : s.Beside l t) (r : TaskRef) : s.Beside l (t.unbind r) := by
  unfold State.unbind
  refine List.foldlRecOn (motive := fun u => s.Beside l u) _ _ h fun u hu n _ => ?_
  split
  · exact ⟨by rw [hu.frame]; rfl, hu.latches, hu.quiet, hu.regs⟩
  · exact hu

theorem State.Beside.failEffects {s t : State} {l : List Latch} (h : s.Beside l t) (x : Task) (st : Status) :
    s.Beside l (t.failEffects x st) := by
  have hmarked : s.Beside l (x.streamsBound.foldl State.markFailed t) :=
    List.foldlRecOn (motive := fun u => s.Beside l u) _ _ h fun u hu n _ => hu.markFailed n
  have hcredits := (((hmarked.voidTiles x.fillBind).voidTiles x.drainBind).returnCredits x).oweNotices x
  unfold State.failEffects
  split
  · exact hcredits.unbind x.ref
  · exact hcredits

/-! ### A task's own turn -/

/-- What its way to dispatch does to a task. -/
structure Task.Moves (x y : Task) : Prop where
  entry : y.entry = x.entry
  blocks : y.blocks = x.blocks
  todo : x.todo = [] → y.todo = []
  phase : x.phase ≠ .waitRanges → y.phase ≠ .waitRanges

theorem Task.Moves.refl (x : Task) : x.Moves x := ⟨rfl, rfl, id, id⟩

theorem Task.Moves.trans {x y z : Task} (h : x.Moves y) (k : y.Moves z) : x.Moves z :=
  ⟨k.entry.trans h.entry, k.blocks.trans h.blocks, k.todo ∘ h.todo, k.phase ∘ h.phase⟩

/-- One task's turn: every other task stays as it is. -/
structure State.Turn (s : State) (r : TaskRef) (l : List Latch) (t : State) : Prop where
  beside : s.Beside l t
  refs : t.tasks.map Task.ref = s.tasks.map Task.ref
  others : s.tasksBut t r
  own : ∀ x, s.task r = some x → ∃ y, t.task r = some y ∧ x.Moves y

theorem State.Turn.refl (s : State) (r : TaskRef) : s.Turn r [] s :=
  ⟨State.Beside.refl s, rfl, fun _ _ => rfl, fun x hx => ⟨x, hx, Task.Moves.refl x⟩⟩

theorem State.Turn.trans {s t u : State} {r : TaskRef} {l m : List Latch} (h : s.Turn r l t) (k : t.Turn r m u) :
    s.Turn r (l ++ m) u where
  beside := h.beside.trans k.beside
  refs := k.refs.trans h.refs
  others x hx := (k.others x hx).trans (h.others x hx)
  own x hx := by
    obtain ⟨y, hy, hxy⟩ := h.own x hx
    obtain ⟨z, hz, hyz⟩ := k.own y hy
    exact ⟨z, hz, hxy.trans hyz⟩

/-- Effects beside the tasks and then the task itself. -/
theorem State.Beside.putTask {s t : State} {l : List Latch} (h : s.Beside l t) (ht : t.tasks = s.tasks) {r : TaskRef} {x y : Task}
    (hx : s.task r = some x) (hy : y.ref = r) (hxy : x.Moves y) :
    s.Turn r l (t.putTask y) ∧ (t.putTask y).task r = some y := by
  have htask : ∀ k, t.task k = s.task k := fun k => by rw [State.task, ht]; rfl
  have hself : (t.putTask y).task r = some y := State.task_putTask_self ((htask r).trans hx) hy
  refine ⟨⟨h.withTasks _, ?_, fun k hk => ?_, fun z hz => ⟨y, hself, ?_⟩⟩, hself⟩
  · rw [State.refs_putTask, ht]
  · rw [← htask k]
    exact t.tasksBut_putTask y k (by rw [hy]; exact hk)
  · rw [← Option.some.inj (hx.symm.trans hz)]
    exact hxy

/-- Tasks that have not been dispatched and have not failed. -/
def Phase.undispatched : Phase → Bool
  | .running | .failing | .finished | .recordIssued | .journal => false
  | _ => true

theorem State.tasks_failEffects (s : State) (x : Task) (st : Status) : (s.failEffects x st).tasks = s.tasks := by
  have void : ∀ (u : State) b, (u.voidTiles b).tasks = u.tasks := fun u b => by
    unfold State.voidTiles
    split
    · rfl
    · split <;> rfl
  have credits : ∀ u : State, ((u.returnCredits x).oweNotices x).tasks = u.tasks := fun u => by
    have hr : (u.returnCredits x).tasks = u.tasks := by
      unfold State.returnCredits
      split
      · split <;> rfl
      · rfl
    unfold State.oweNotices
    split <;> exact hr
  have unbound : ∀ u : State, (u.unbind x.ref).tasks = u.tasks := fun u =>
    List.foldlRecOn (motive := fun v : State => v.tasks = u.tasks) _ _ rfl fun v hv n _ => by
      split <;> exact hv
  have marked : (x.streamsBound.foldl State.markFailed s).tasks = s.tasks :=
    List.foldlRecOn (motive := fun v : State => v.tasks = s.tasks) _ _ rfl fun v hv n _ => hv
  unfold State.failEffects
  split
  · rw [unbound, credits, void, void, marked]
  · rw [credits, void, void, marked]

/-- A task that has not been dispatched fails (R57). -/
theorem State.failTask_of_undispatched {s : State} {r : TaskRef} {x : Task} (hx : s.task r = some x)
    (hp : x.phase.undispatched = true) (st : Status) :
    s.Turn r [] (s.failTask r st) ∧ (s.failTask r st).task r = some (x.failedEarly st s.cycle) := by
  have hfail : s.failTask r st = ((s.failEffects x st).giveRanges x.reserved).putTask (x.failedEarly st s.cycle) := by
    unfold State.failTask
    simp only [hx]
    have late : ∀ {p : Phase}, x.phase = p → p.undispatched = false → False := fun h hf => by
      rw [h, hf] at hp
      exact Bool.noConfusion hp
    split
    next h => exact (late h rfl).elim
    next h => exact (late h rfl).elim
    next h => exact (late h rfl).elim
    next h => exact (late h rfl).elim
    next h => exact (late h rfl).elim
    next => rfl
  have hb : s.Beside [] ((s.failEffects x st).giveRanges x.reserved) :=
    ((State.Beside.refl s).failEffects x st).setReg streamReg_tuRangesFree _
  rw [hfail]
  exact hb.putTask (s.tasks_failEffects x st) hx (show x.ref = r from State.ref_of_task hx) ⟨rfl, rfl, fun _ => rfl, fun _ => by simp [Task.failedEarly]⟩

theorem State.Beside.assign {s t : State} {l : List Latch} (h : s.Beside l t) (b : Option Binding) : s.Beside l (t.assign b) := by
  unfold State.assign
  split
  · exact h
  · exact h.setReg (streamReg_dsNext _) _

theorem State.tasks_assign (s : State) (b : Option Binding) : (s.assign b).tasks = s.tasks := by
  unfold State.assign
  split <;> rfl

theorem State.bindTask_turn {s : State} {r : TaskRef} {x : Task} (hx : s.task r = some x) (hp : x.phase.undispatched = true) :
    s.Turn r [] (s.bindTask r) := by
  have hr := State.ref_of_task hx
  simp only [State.bindTask, hx]
  split
  · exact ((State.Beside.refl s).putTask rfl hx (y := { x with phase := .queued }) hr ⟨rfl, rfl, id, fun _ => by simp⟩).1
  · split
    · exact (State.failTask_of_undispatched hx hp _).1
    next f d _ =>
      have ht : ((s.assign f).assign d).tasks = s.tasks := by rw [State.tasks_assign, State.tasks_assign]
      exact ((((State.Beside.refl s).assign f).assign d).putTask ht hx
        (y := { x with phase := .queued, fillBind := f, drainBind := d }) hr ⟨rfl, rfl, id, fun _ => by simp⟩).1

theorem State.afterXlate_turn {s : State} {r : TaskRef} {x : Task} (hx : s.task r = some x) (hp : x.phase.undispatched = true) :
    s.Turn r [] (s.afterXlate r) := by
  have hr := State.ref_of_task hx
  simp only [State.afterXlate, hx]
  split
  · exact (State.failTask_of_undispatched hx hp _).1
  · split
    · exact ((State.Beside.refl s).putTask rfl hx (y := { x with phase := .bindWait }) hr
        ⟨rfl, rfl, id, fun _ => by simp⟩).1
    · exact State.bindTask_turn hx hp

/-! ### A queue that moves on -/

/-- The turns of any number of tasks that wait for check 9 with nothing to translate, or for the binding check. -/
structure State.Flow (s t : State) : Prop where
  beside : s.Beside [] t
  refs : t.tasks.map Task.ref = s.tasks.map Task.ref
  tasks : ∀ r x, s.task r = some x →
    ∃ y, t.task r = some y ∧ x.Moves y ∧ (x.phase ≠ .waitRanges → x.phase ≠ .bindWait → y = x)

theorem State.Flow.refl (s : State) : s.Flow s :=
  ⟨State.Beside.refl s, rfl, fun _ x hx => ⟨x, hx, Task.Moves.refl x, fun _ _ => rfl⟩⟩

theorem State.Flow.trans {s t u : State} (h : s.Flow t) (k : t.Flow u) : s.Flow u where
  beside := h.beside.trans k.beside
  refs := k.refs.trans h.refs
  tasks r x hx := by
    obtain ⟨y, hy, hxy, hsame⟩ := h.tasks r x hx
    obtain ⟨z, hz, hyz, hsame'⟩ := k.tasks r y hy
    refine ⟨z, hz, hxy.trans hyz, fun h1 h2 => ?_⟩
    have he : y = x := hsame h1 h2
    subst he
    exact hsame' h1 h2

/-- A task whose turn a flow may hold. -/
def Phase.flows : Phase → Bool
  | .waitRanges | .bindWait => true
  | _ => false

theorem State.Turn.flow {s t : State} {r : TaskRef} {x : Task} (h : s.Turn r [] t) (hx : s.task r = some x)
    (hp : x.phase.flows = true) : s.Flow t where
  beside := h.beside
  refs := h.refs
  tasks k z hz := by
    by_cases hk : k = r
    · subst hk
      obtain ⟨y, hy, hxy⟩ := h.own z hz
      refine ⟨y, hy, hxy, fun h1 h2 => ?_⟩
      rw [← Option.some.inj (hz.symm.trans hx)] at hp
      cases hph : z.phase <;> simp [hph, Phase.flows] at hp h1 h2
    · exact ⟨z, (h.others k hk).trans hz, Task.Moves.refl z, fun _ _ => rfl⟩

theorem State.bindWaiting_flow (s : State) : s.Flow s.bindWaiting := by
  unfold State.bindWaiting
  refine List.foldlRecOn (motive := fun acc : State × List Nat => s.Flow acc.1) _ _ (State.Flow.refl s) fun acc h r _ => ?_
  split
  · exact h
  next x hx =>
    split
    · exact h
    · split
      next hp =>
        split
        · exact h
        · exact h.trans ((State.bindTask_turn hx (by rw [hp]; rfl)).flow hx (by rw [hp]; rfl))
      next => exact h
      next => exact h
      next => exact h
      next => exact h

theorem State.advanceQueue_flow (s : State) (q : Nat) : s.Flow (s.advanceQueue q) := by
  refine State.Flow.trans ?_ (State.bindWaiting_flow _)
  refine List.foldlRecOn (motive := fun acc : State × Bool => s.Flow acc.1) _ _ (State.Flow.refl s) fun acc h r _ => ?_
  split
  · exact h
  · split
    · exact h
    next x hx =>
      split
      next => exact h
      next => exact h
      next hp =>
        split
        · exact h.trans ((State.afterXlate_turn hx (by rw [hp]; rfl)).flow hx (by rw [hp]; rfl))
        · exact h
      next => exact h

/-- A flow after one task's turn, where that task is not of the flow any more. -/
theorem State.Turn.then_flow {s t u : State} {r : TaskRef} {l : List Latch} (h : s.Turn r l t) (k : t.Flow u) :
    s.Beside l u ∧ u.tasks.map Task.ref = s.tasks.map Task.ref ∧
      (∀ y, t.task r = some y → y.phase ≠ .waitRanges → y.phase ≠ .bindWait → u.task r = some y) ∧
      ∀ x, s.task r = some x → ∃ y, u.task r = some y ∧ x.Moves y := by
  refine ⟨by simpa using h.beside.trans k.beside, k.refs.trans h.refs, fun y hy h1 h2 => ?_, fun x hx => ?_⟩
  · obtain ⟨z, hz, -, hsame⟩ := k.tasks r y hy
    rw [hz, hsame h1 h2]
  · obtain ⟨y, hy, hxy⟩ := h.own x hx
    obtain ⟨z, hz, hyz, -⟩ := k.tasks r y hy
    exact ⟨z, hz, hxy.trans hyz⟩

/-- A task fails before its dispatch, and the tasks behind it in its queue go on. -/
theorem State.fail_of_undispatched {s : State} {r : TaskRef} {x : Task} (hx : s.task r = some x) (hp : x.phase.undispatched = true)
    (st : Status) :
    s.Beside [] (s.fail r st) ∧ (s.fail r st).tasks.map Task.ref = s.tasks.map Task.ref ∧
      (s.fail r st).task r = some (x.failedEarly st s.cycle) := by
  obtain ⟨hturn, hself⟩ := State.failTask_of_undispatched hx hp st
  obtain ⟨hbeside, hrefs, hkept, -⟩ := hturn.then_flow (State.advanceQueue_flow (s.failTask r st) r.sq)
  exact ⟨hbeside, hrefs, hkept _ hself (by simp [Task.failedEarly]) (by simp [Task.failedEarly])⟩

/-- What TU_FAULT is to record of a translation failure. -/
def tuLatch (q : Nat) (st : Status) (va : Nat) : Latch :=
  { off := R.tuFault, key := q, val := q % 1024 * 2 ^ 16 + st.toNat, also := pairWords R.tuFaultVaLo va }

theorem State.Beside.tuFault (s : State) (q : Nat) (st : Status) (va : Nat) : s.Beside [tuLatch q st va] (s.tuFault q st va) :=
  ⟨rfl, rfl, ⟨rfl, rfl, rfl⟩, fun _ _ => rfl⟩

/-- A task fails at check 9, and the tasks behind it in its queue go on. -/
theorem State.failAtXlate_of_undispatched {s : State} {r : TaskRef} {x : Task} (hx : s.task r = some x)
    (hp : x.phase.undispatched = true) (st : Status) (va : Nat) :
    s.Beside [tuLatch r.sq st va] (s.failAtXlate r st va) ∧ (s.failAtXlate r st va).tasks.map Task.ref = s.tasks.map Task.ref ∧
      (s.failAtXlate r st va).task r = some (x.failedEarly st s.cycle) := by
  obtain ⟨hbeside, hrefs, hself⟩ := State.fail_of_undispatched (s := s.tuFault r.sq st va) hx hp st
  exact ⟨(State.Beside.tuFault s r.sq st va).trans hbeside, hrefs, hself⟩

theorem State.xlateDone_moves {s : State} {r : TaskRef} {x : Task} (hx : s.task r = some x) (hp : x.phase.undispatched = true) :
    s.Beside [] (s.xlateDone r) ∧ (s.xlateDone r).tasks.map Task.ref = s.tasks.map Task.ref ∧
      ∃ y, (s.xlateDone r).task r = some y ∧ x.Moves y := by
  have hr := State.ref_of_task hx
  simp only [State.xlateDone, hx]
  obtain ⟨hgive, hself⟩ := ((State.Beside.refl s).setReg streamReg_tuRangesFree
    (BitVec.ofNat 32 (s.fld R.tuRangesFree 0 16 + (x.reserved - x.ranges.length)))).putTask rfl hx
      (y := { x with reserved := x.ranges.length }) hr ⟨rfl, rfl, id, id⟩
  obtain ⟨hbeside, hrefs, -, hmoves⟩ :=
    (hgive.trans (State.afterXlate_turn hself hp)).then_flow (State.advanceQueue_flow _ r.sq)
  exact ⟨hbeside, hrefs, hmoves x hx⟩

/-!
### Block lists and the range store (R226, R243, R248, R249)
-/

/-- The blocks of a STREAM that are known: taken over, or the task fails with 0x1003 ALIGN. -/
theorem State.placeBlocks_spec {s : State} {r : TaskRef} {x : Task} (hx : s.task r = some x) (hp : x.phase.undispatched = true)
    (bs : List (Nat × Nat)) :
    s.Beside [] (s.placeBlocks r bs) ∧ (s.placeBlocks r bs).tasks.map Task.ref = s.tasks.map Task.ref ∧
      ∃ y, (s.placeBlocks r bs).task r = some y ∧ y.entry = x.entry ∧ (blocksAligned bs = true → y.blocks = bs) ∧
        (blocksAligned bs = false → y.phase = .finished ∧ y.status = St.align) := by
  have hr := State.ref_of_task hx
  simp only [State.placeBlocks, hx]
  cases hb : blocksAligned bs
  · obtain ⟨hbeside, hrefs, hself⟩ := State.fail_of_undispatched hx hp St.align
    exact ⟨hbeside, hrefs, _, hself, rfl, fun h => absurd h (by simp), fun _ => ⟨rfl, rfl⟩⟩
  · let z : Task := { x with phase := .waitRanges, blocks := bs, todo := footprint (hostPieces x.entry bs) }
    have hz : (s.putTask z).task r = some z := State.task_putTask_self hx hr
    have hflow := State.advanceQueue_flow (s.putTask z) r.sq
    obtain ⟨y, hy, hzy, -⟩ := hflow.tasks r z hz
    refine ⟨((State.Beside.refl s).withTasks _).trans hflow.beside, hflow.refs.trans (s.refs_putTask z), y, hy, hzy.entry,
      fun _ => hzy.blocks, fun h => absurd h (by simp)⟩

theorem State.tasks_noteCorrected (s : State) (a : Nat) (c : MemCond) : (s.noteCorrected a c).tasks = s.tasks := by
  unfold State.noteCorrected
  split
  · rfl
  · split <;> rfl

theorem State.tasks_mcEvent (s : State) (source unit : Nat) (st : Status) (r : Option TaskRef) (a : Nat) :
    (s.mcEvent source unit st r a).tasks = s.tasks := rfl

theorem State.tasks_tbUe (s : State) (a site : Nat) (scrub : Bool) : (s.tbUe a site scrub).tasks = s.tasks := rfl

theorem State.tasks_memRefusal (s : State) (st : Status) (a : Nat) (r : Option TaskRef) : (s.memRefusal st a r).tasks = s.tasks := by
  unfold State.memRefusal
  split
  · rfl
  · split
    · unfold State.mcUncorrectable
      split
      · rw [State.tasks_mcEvent, State.tasks_tbUe]
      · rw [State.tasks_mcEvent]
      · rw [State.tasks_mcEvent]
    · rfl

theorem State.task_of_tasks {s t : State} (h : t.tasks = s.tasks) (r : TaskRef) : t.task r = s.task r := by
  rw [State.task, h]
  rfl

theorem State.sameMem.trans {s t u : State} (h : s.sameMem t) (k : t.sameMem u) : s.sameMem u := fun a => (k a).trans (h a)

theorem State.sameMem_noteCorrected (s : State) (a : Nat) (c : MemCond) : s.sameMem (s.noteCorrected a c) :=
  (State.noteCorrected_keeps a c (Keeps.self true true s)).sameMem

theorem State.sameMem_memRefusal (s : State) (st : Status) (a : Nat) (r : Option TaskRef) : s.sameMem (s.memRefusal st a r) :=
  (State.memRefusal_keeps st a r (Keeps.self true true s)).sameMem

/-- A task whose footprint has been translated as far as it goes stays on its way, or fails. -/
theorem State.xlateNext_moves {s : State} {r : TaskRef} {x : Task} (hx : s.task r = some x) (hp : x.phase.undispatched = true) :
    s.sameMem (s.xlateNext r) ∧ ∃ y, (s.xlateNext r).task r = some y ∧ x.Moves y := by
  have failed : ∀ (u : State) st va, u.tasks = s.tasks → s.sameMem u →
      s.sameMem (u.failAtXlate r st va) ∧ ∃ y, (u.failAtXlate r st va).task r = some y ∧ x.Moves y := fun u st va hu hm => by
    obtain ⟨hbeside, -, hself⟩ := State.failAtXlate_of_undispatched ((State.task_of_tasks hu r).trans hx) hp st va
    exact ⟨hm.trans hbeside.sameMem, _, hself, rfl, rfl, fun _ => rfl, fun _ => by simp [Task.failedEarly]⟩
  have stays : s.sameMem s ∧ ∃ y, s.task r = some y ∧ x.Moves y := ⟨fun _ => rfl, x, hx, Task.Moves.refl x⟩
  simp only [State.xlateNext, hx]
  split
  · exact failed _ _ _ rfl (fun _ => rfl)
  · split
    · exact stays
    · split
      · obtain ⟨hbeside, -, hmoves⟩ := State.xlateDone_moves hx hp
        exact ⟨hbeside.sameMem, hmoves⟩
      · split
        · exact failed _ _ _ rfl (fun _ => rfl)
        · split
          · exact failed _ _ _ rfl (fun _ => rfl)
          · exact stays

theorem blockListFetched_of_waits {s : State} {ref : TaskRef} {x : Task} (hx : s.task ref = some x)
    (h : x.phase ≠ .blockList ∨ s.tierBWaits (streamList x.entry) = true) (c : MemCond) : blockListFetched ref c s = s := by
  simp only [blockListFetched, hx]
  exact if_pos h

theorem blockListFetched_of_due {s : State} {ref : TaskRef} {x : Task} (hx : s.task ref = some x) (hp : x.phase = .blockList)
    (ht : s.tierBWaits (streamList x.entry) = false) (c : MemCond) :
    blockListFetched ref c s =
      match s.memVerdict (s.ctxOf ref) .read (streamList x.entry) (16 * streamCount x.entry) c with
      | some st => (s.memRefusal st (streamList x.entry) (some ref)).fail ref st
      | none => (s.noteCorrected (streamList x.entry) c).placeBlocks ref
          (descriptors (s.seenMem (streamList x.entry) (16 * streamCount x.entry)) (streamCount x.entry)) := by
  simp only [blockListFetched, hx]
  refine (if_neg (by simp [hp, ht])).trans ?_
  rfl

/-- The first task of its queue before check 9 enters it. -/
theorem reserveRanges_of_room {s : State} {ref : TaskRef} {x : Task} (hx : s.task ref = some x)
    (h : x.phase = .waitRanges ∧ x.todo ≠ [] ∧ s.firstBeforeXlate x = true ∧ 256 ≤ s.fld R.tuRangesFree 0 16 + x.reserved) :
    reserveRanges ref s =
      let t := (s.takeRanges (256 - x.reserved)).putTask { x with phase := .translating, reserved := 256 }
      if s.atsOn then t else t.formUntranslated ref := by
  simp only [reserveRanges, hx]
  exact if_pos h

/-- A footprint formed into untranslated ranges leaves nothing to translate. -/
theorem State.formUntranslated_moves {s : State} {r : TaskRef} {x : Task} (hx : s.task r = some x) (hp : x.phase = .translating) :
    s.sameMem (s.formUntranslated r) ∧
      ∃ y, (s.formUntranslated r).task r = some y ∧ y.entry = x.entry ∧ y.todo = [] ∧ y.phase ≠ .waitRanges := by
  have hr := State.ref_of_task hx
  simp only [State.formUntranslated, hx]
  let z : Task := { x with ranges := placeRanges x.ranges (untranslatedRanges x.todo), todo := [] }
  obtain ⟨hmem, y, hy, hzy⟩ := State.xlateNext_moves (s := s.putTask z) (State.task_putTask_self hx (y := z) hr)
    (show z.phase.undispatched = true by simp only [z, hp]; rfl)
  exact ⟨hmem, y, hy, hzy.entry, hzy.todo rfl, hzy.phase (by simp [z, hp])⟩

/-- Settles O25. -/
theorem blockListsAndRangeStore : Obligations.BlockListsAndRangeStore := by
  unfold Obligations.BlockListsAndRangeStore
  refine ⟨fun ref c s x hx hp ht => ?list, fun ref c s x hx hno => congrArg Host.Outcome.next (blockListFetched_of_waits hx hno c),
    fun ref s x hx hp htodo hfirst => ⟨fun hlow => congrArg Host.Outcome.next ?_, fun hroom hats => ⟨_, rfl, ?_⟩, fun hroom hats => ?off⟩,
    fun en s => ⟨_, rfl, s.bit_setBit_self _ 30 en (by decide), s.bit_setBit_other _ 30 29 en (by decide),
      s.bit_setBit_other _ 30 31 en (by decide), (State.onlyRegs.refl s _).setBit (by simp) 30 en⟩⟩
  case list =>
    have hund : x.phase.undispatched = true := by rw [hp]; rfl
    have hexec : exec (.blockListFetchComplete ref c) s = _ := congrArg Host.Outcome.next (blockListFetched_of_due hx hp ht c)
    rw [hexec]
    split
    next st hv =>
      have htasks := s.tasks_memRefusal st (streamList x.entry) (some ref)
      obtain ⟨hbeside, hrefs, hself⟩ := State.fail_of_undispatched ((State.task_of_tasks htasks ref).trans hx) hund st
      refine ⟨_, _, rfl, hself, rfl, (s.sameMem_memRefusal st _ _).trans hbeside.sameMem, by rw [hrefs, htasks], ?_, ?_, ?_⟩
      · exact fun hnone => absurd (hv.symm.trans hnone) (by simp)
      · exact fun hnone => absurd (hv.symm.trans hnone) (by simp)
      · exact fun st' hst => ⟨rfl, Option.some.inj (hv.symm.trans hst)⟩
    next hv =>
      have htasks := s.tasks_noteCorrected (streamList x.entry) c
      obtain ⟨hbeside, hrefs, y, hy, hentry, hplaced, hfailed⟩ := State.placeBlocks_spec ((State.task_of_tasks htasks ref).trans hx) hund
        (descriptors (s.seenMem (streamList x.entry) (16 * streamCount x.entry)) (streamCount x.entry))
      refine ⟨_, y, rfl, hy, hentry, (s.sameMem_noteCorrected _ c).trans hbeside.sameMem, by rw [hrefs, htasks],
        fun _ => hplaced, fun _ => hfailed, fun st hst => absurd (hv.symm.trans hst) (by simp)⟩
  · simp only [reserveRanges, hx]
    exact if_neg fun h => absurd h.2.2.2 (by omega)
  · rw [reserveRanges_of_room hx ⟨hp, htodo, hfirst, hroom⟩, if_pos hats]
    have hr := State.ref_of_task hx
    refine ⟨State.task_putTask_self hx hr, ?_, rfl, fun o ho => State.reg_setReg_ne _ _ (List.ne_of_not_mem_cons ho), ?_⟩
    · exact s.fld_low_setReg_self R.tuRangesFree _ 16 (by have := getField_lt (s.reg R.tuRangesFree) 0 16; simp only [State.fld]; omega)
        (by decide)
    · exact hr ▸ State.tasksBut_putTask (s.takeRanges (256 - x.reserved)) { x with phase := .translating, reserved := 256 }
  case off =>
    rw [show exec (.rangeStoreReserve ref) s = .next (reserveRanges ref s) from rfl, reserveRanges_of_room hx ⟨hp, htodo, hfirst, hroom⟩,
      if_neg (by simp [hats])]
    have hr := State.ref_of_task hx
    have hz := State.task_putTask_self (s := s.takeRanges (256 - x.reserved)) hx
      (y := { x with phase := .translating, reserved := 256 }) hr
    obtain ⟨hmem, y, hy, hentry, hdone, hphase⟩ := State.formUntranslated_moves hz rfl
    exact ⟨_, y, rfl, hy, hentry, hdone, hphase, hmem⟩

/-!
### The acceptance of an entry (R52, R57, R62, R70)
-/

theorem State.sqHostReads_shape (s : State) (q : Nat) (units : List Nat) :
    ∃ a b, s.sqHostReads q units = { s with out := a, hostHeld := b } := by
  unfold State.sqHostReads
  split
  · refine List.foldlRecOn (motive := fun u : State => ∃ a b, u = { s with out := a, hostHeld := b }) _ _ ⟨s.out, s.hostHeld, rfl⟩
      fun u hu x _ => ?_
    obtain ⟨a, b, rfl⟩ := hu
    obtain ⟨c, d, h⟩ := State.sqHostRead_shape { s with out := a, hostHeld := b } q x
    exact ⟨c, d, h⟩
  · exact ⟨s.out, s.hostHeld, rfl⟩

/-- An accepted task: it is in the block with its entry, whatever check 8 and check 9 make of it. -/
theorem State.admitTask_spec {s : State} {x : Task} (hnew : s.task x.ref = none) (hp : x.phase.undispatched = true) :
    s.Beside [] (s.admitTask x) ∧ (s.admitTask x).tasks.map Task.ref = s.tasks.map Task.ref ++ [x.ref] ∧
      ∃ y, (s.admitTask x).task x.ref = some y ∧ y.entry = x.entry := by
  let u : State := { s with tasks := s.tasks ++ [x] }
  have hu : u.task x.ref = some x := by
    simp only [u, State.task, List.find?_append] at hnew ⊢
    rw [hnew]
    simp
  have hbeside : s.Beside [] u := (State.Beside.refl s).withTasks _
  have hrefs : u.tasks.map Task.ref = s.tasks.map Task.ref ++ [x.ref] := by simp [u]
  have failed : ∀ st, s.Beside [] (u.fail x.ref st) ∧ (u.fail x.ref st).tasks.map Task.ref = s.tasks.map Task.ref ++ [x.ref] ∧
      ∃ y, (u.fail x.ref st).task x.ref = some y ∧ y.entry = x.entry := fun st => by
    obtain ⟨hb, hr, hself⟩ := State.fail_of_undispatched hu hp st
    exact ⟨hbeside.trans hb, hr.trans hrefs, _, hself, rfl⟩
  have placed : ∀ bs, s.Beside [] (u.placeBlocks x.ref bs) ∧
      (u.placeBlocks x.ref bs).tasks.map Task.ref = s.tasks.map Task.ref ++ [x.ref] ∧
      ∃ y, (u.placeBlocks x.ref bs).task x.ref = some y ∧ y.entry = x.entry := fun bs => by
    obtain ⟨hb, hr, y, hy, hentry, -⟩ := State.placeBlocks_spec hu hp bs
    exact ⟨hbeside.trans hb, hr.trans hrefs, y, hy, hentry⟩
  dsimp only [State.admitTask]
  split
  · exact failed _
  · split
    · split
      · exact placed _
      · split
        · exact placed _
        · split
          · exact ⟨hbeside.withTasks _, (u.refs_putTask _).trans hrefs, { x with phase := .blockList },
              State.task_putTask_self hu rfl, rfl⟩
          · exact failed _
    · exact placed _

theorem streamReg_sqRegs {q : Nat} (h : q < 1024) :
    streamReg (R.sqState q) = false ∧ streamReg (R.sqIndex q) = false := by
  constructor
  · exact streamReg_eq_false (by simp only [R.sqState]; omega) (by simp only [R.sqState, R.tuRangesFree]; omega)
  · exact streamReg_eq_false (by simp only [R.sqIndex]; omega) (by simp only [R.sqIndex, R.tuRangesFree]; omega)

/-- An entry that passes its checks. -/
theorem State.takeEntry_of_passed {s : State} {q : Fin 1024} {e : List Byte} (hc : entryCheck s q e = none)
    (hnew : s.task { sq := q, index := (s.reg (R.sqIndex q)).toNat, life := (s.sq q).life } = none) :
    let ref : TaskRef := { sq := q, index := (s.reg (R.sqIndex q)).toNat, life := (s.sq q).life }
    ∃ x, (s.takeEntry q e).sqHead q = (s.sqHead q + entryUnits e) % s.sqUnits q % 2 ^ 16 ∧
      ((s.takeEntry q e).sqPhase q = if s.sqUnits q ≤ s.sqHead q + entryUnits e then ! s.sqPhase q else s.sqPhase q) ∧
      (s.takeEntry q e).reg (R.sqIndex q) = s.reg (R.sqIndex q) + 1 ∧ (s.takeEntry q e).task ref = some x ∧ x.entry = e ∧
      s.sqsBut (s.takeEntry q e) q ∧ (s.takeEntry q e).tasks.map Task.ref = s.tasks.map Task.ref ++ [ref] := by
  intro ref
  let x := newTask ref e (takePubs (s.sq q).pubs (entryUnits e) (0, 0)).1 s.cycle
  have htake : s.takeEntry q e = ((s.passEntry q (entryUnits e)).admitTask x).startFetch q := by
    simp only [State.takeEntry, hc, x, ref]
  obtain ⟨hhead, hphase, hindex, hshape, -, hsqs⟩ := s.passEntry_advances q (entryUnits e)
  rw [htake]
  have htasks : (s.passEntry q (entryUnits e)).tasks = s.tasks := by rw [hshape]
  generalize s.passEntry q (entryUnits e) = u at hhead hphase hindex hsqs htasks
  obtain ⟨hbeside, hrefs, y, hy, hentry⟩ := State.admitTask_spec (s := u) (x := x) ((State.task_of_tasks htasks ref).trans hnew) rfl
  have hframe := hbeside.frame
  have hregs := hbeside.regs
  generalize u.admitTask x = v at hframe hregs hrefs hy
  obtain ⟨r, a, b, hfetch, -, hrest⟩ := v.startFetch_shape q
  have hstate : v.reg (R.sqState q) = u.reg (R.sqState q) := hregs _ (streamReg_sqRegs q.isLt).1
  have hidx : v.reg (R.sqIndex q) = u.reg (R.sqIndex q) := hregs _ (streamReg_sqRegs q.isLt).2
  rw [hfetch]
  refine ⟨y, ?_, ?_, hidx.trans hindex, hy, hentry, fun k hk => (hrest k hk).trans ?_, ?_⟩
  · rw [← hhead]
    exact congrArg (fun w => getField w 0 16) hstate
  · rw [← hphase]
    exact congrArg (fun w => decide (getField w 29 1 = 1)) hstate
  · rw [hframe]
    exact hsqs k hk
  · rw [← htasks]
    exact hrefs

theorem State.stops.tasks {s t : State} {q : Nat} {st : Status} {index : Word} {tag : Nat} (h : s.stops t q st index tag) :
    t.tasks = s.tasks := by
  obtain ⟨-, -, -, -, -, hframe, -, -⟩ := h
  rw [hframe]
  split
  · simp
  · rfl

theorem State.stops.sameMem {s t : State} {q : Nat} {st : Status} {index : Word} {tag : Nat} (h : s.stops t q st index tag) :
    s.sameMem t := by
  obtain ⟨-, -, -, -, -, hframe, -, -⟩ := h
  intro a
  rw [hframe]
  split
  · exact State.readByte_msix' s _ a
  · rfl

theorem State.stops.status {s t : State} {q : Nat} {st : Status} {index : Word} {tag : Nat} (h : s.stops t q st index tag) :
    t.fld (R.sqErr q) 16 16 = st.toNat := by
  obtain ⟨-, herr, -⟩ := h
  have hst := st.isLt
  have hhead := getField_lt (s.reg (R.sqState q)) 0 16
  rw [State.fld, herr, getField_ofNat _ _ _ (by decide)]
  simp only [State.sqHead, State.fld]
  omega

/-- The first check that fails stops the queue. -/
theorem State.takeEntry_of_failed {s : State} {q : Fin 1024} {e : List Byte} {st : Status} (hc : entryCheck s q e = some st) :
    (s.takeEntry q e).sqMode q = 3 ∧ (s.takeEntry q e).fld (R.sqErr q) 16 16 = st.toNat ∧
      (s.takeEntry q e).reg (R.sqErrIndex q) = s.reg (R.sqIndex q) ∧
      (s.takeEntry q e).reg (R.sqErrTag q) = BitVec.ofNat 32 (uintAt (e.take 64) 4 4) ∧
      (s.takeEntry q e).tasks = s.tasks ∧ s.sameMem (s.takeEntry q e) ∧ s.sqsBut (s.takeEntry q e) q := by
  let u := s.putSq q { s.sq q with latched := some (e.take 64) }
  have htake : s.takeEntry q e = u.sqStop q st false := by simp only [State.takeEntry, hc, u]
  have hstops := u.sqStop_stops q.isLt st false
  have htag : u.latchedTag q = uintAt (e.take 64) 4 4 := by
    simp only [State.latchedTag, State.entryRead, u, State.sq_putSq_self]
  rw [htake]
  obtain ⟨hmode, -, hindex, htagReg, -, -, -, hsqs⟩ := id hstops
  exact ⟨hmode, hstops.status, hindex, by rw [htagReg, htag], hstops.tasks, hstops.sameMem,
    fun k hk => (hsqs k hk).trans (s.sq_putSq_ne hk _)⟩

/-- What a fetched entry comes to once its units have been read. -/
theorem acceptEntry_takes {q : Fin 1024} {ans : RingAnswer} {s : State} {e : List Byte} (hroom : s.roomFor q = true)
    (hf : s.fetched q = some (e, 0) ∨ ∃ h n body, s.fetched q = some (h, n + 1) ∧ s.sqWaits q = false ∧ e = h ++ body ∧
      s.sqRead q ((List.range (n + 1)).map (fun i => (s.sqHead q + 1 + i) % s.sqUnits q)) ans = .ok body) :
    ∃ a b, acceptEntry q ans s = ({ s with out := a, hostHeld := b } : State).takeEntry q e := by
  unfold acceptEntry
  rw [hroom]
  obtain hf | ⟨h, n, body, hf, hw, rfl, hread⟩ := hf
  · rw [hf]
    exact ⟨s.out, s.hostHeld, rfl⟩
  · rw [hf]
    simp only [hw, Bool.not_true, Bool.false_eq_true, if_false]
    obtain ⟨a, b, hr⟩ := s.sqHostReads_shape q ((List.range (n + 1)).map (fun i => (s.sqHead q + 1 + i) % s.sqUnits q))
    have hread' : ({ s with out := a, hostHeld := b } : State).sqRead q
        ((List.range (n + 1)).map (fun i => (s.sqHead q + 1 + i) % s.sqUnits q)) ans = .ok body := hread
    rw [hr, hread']
    exact ⟨a, b, rfl⟩

/-- Settles O20. -/
theorem entryAcceptance : Obligations.EntryAcceptance := by
  unfold Obligations.EntryAcceptance
  intro q ans s e hroom hf ref
  obtain ⟨a, b, hacc⟩ := acceptEntry_takes hroom hf
  have hexec : exec (.entryAccept q ans) s = .next (({ s with out := a, hostHeld := b } : State).takeEntry q e) :=
    congrArg Host.Outcome.next hacc
  refine ⟨fun hc hnew => ?_, fun st hc => ?_⟩
  · obtain ⟨x, h⟩ := State.takeEntry_of_passed (s := { s with out := a, hostHeld := b }) (q := q) (e := e) hc hnew
    exact ⟨_, x, hexec, h⟩
  · exact ⟨_, hexec, State.takeEntry_of_failed (s := { s with out := a, hostHeld := b }) hc⟩

end Sys2Proof.Machine
end

section
namespace Sys2Proof.Machine

open Sys2Proof

/-!
### Translations taken over by a task (R238 to R241, R244)
-/

/-- Translations change what is left to translate, the ranges formed and the pages that fault. -/
def Task.Translates (x y : Task) : Prop := ∃ a b c, y = { x with todo := a, ranges := b, faults := c }

theorem Task.Translates.refl (x : Task) : x.Translates x := ⟨x.todo, x.ranges, x.faults, rfl⟩

theorem Task.Translates.trans {x y z : Task} (h : x.Translates y) (k : y.Translates z) : x.Translates z := by
  obtain ⟨a, b, c, rfl⟩ := h
  obtain ⟨a', b', c', rfl⟩ := k
  exact ⟨a', b', c', rfl⟩

theorem Task.Translates.same {x y : Task} (h : x.Translates y) :
    y.ref = x.ref ∧ y.entry = x.entry ∧ y.phase = x.phase ∧ y.blocks = x.blocks := by
  obtain ⟨a, b, c, rfl⟩ := h
  exact ⟨rfl, rfl, rfl, rfl⟩

theorem Task.applyXlation_translates (t : Task) (pos : Nat) (x : Xlation) : t.Translates (t.applyXlation pos x) := by
  unfold Task.applyXlation
  dsimp only
  split
  · exact ⟨_, _, _, rfl⟩
  · exact ⟨_, t.ranges, _, rfl⟩

theorem Task.applyXlations_translates (t : Task) (pos : Nat) (xs : List Xlation) : t.Translates (t.applyXlations pos xs) := by
  induction xs generalizing t pos with
  | nil => exact Task.Translates.refl t
  | cons x l ih => exact (t.applyXlation_translates pos x).trans (ih _ _)

theorem State.useCache_translates (s : State) (pasid : Option (BitVec 20)) (n : Nat) (t : Task) :
    t.Translates (s.useCache pasid n t) := by
  induction n generalizing t with
  | zero => exact Task.Translates.refl t
  | succ n ih =>
    unfold State.useCache
    split
    · exact Task.Translates.refl t
    · split
      · exact Task.Translates.refl t
      · exact (t.applyXlation_translates _ _).trans (ih _)

/-- R239, R240: a request begins at a 4 KiB boundary and asks for at most 128 KiB. -/
theorem Task.nextRequest_bounds {t : Task} {now : Nat} {r : XlateReq} (h : t.nextRequest now = some r) :
    r.addr % 4096 = 0 ∧ r.len ≤ 131072 := by
  unfold Task.nextRequest at h
  split at h
  · exact absurd h (by simp)
  next p l _ =>
    have hr := (Option.some.inj h).symm
    subst hr
    exact ⟨Nat.mul_mod_left _ _, by dsimp only; omega⟩

/-- A round with one task at check 9 is that task's turn. -/
theorem requestRound_of_one {s : State} {x : Task} (h : s.tasks.filter (fun t => decide (t.phase = .translating)) = [x]) :
    requestRound s = s.requestFor x.ref := by
  simp only [requestRound, h]
  rfl

theorem State.requestFor_of_ats {s : State} {x : Task} (hx : s.task x.ref = some x) (hp : x.phase = .translating)
    (hreq : x.xreq = none) (ht : x.todo ≠ []) (ha : s.atsOn = true) :
    s.requestFor x.ref =
      let z := s.useCache (s.taskPasid x.ref) s.xcache.length x
      if 256 < z.ranges.length then (s.putTask z).xlateNext x.ref
      else match z.nextRequest s.cycle with
        | none => (s.putTask z).xlateNext x.ref
        | some r => if s.xlateOutstanding < 64 then
            ((s.putTask { z with xreq := some r }).bump R.tuXlateReqs 1).emit
              (.translationRequest r.addr r.len (s.taskPasid x.ref) (! r.write))
          else s.putTask z := by
  simp only [State.requestFor, hx]
  refine (if_neg (by simp [hp, hreq, ht])).trans ((if_neg (by simp [ha])).trans ?_)
  rfl

theorem State.sentHost_emit (s : State) {o : Out} (h : o.toHost = true) : s.sentHost (s.emit o) [o] := by
  simpa using (State.sentHost_foldl_emit (l := [o]) (by simpa using h) s).1

/-- Settles O26. -/
theorem translationRounds : Obligations.TranslationRounds := by
  unfold Obligations.TranslationRounds
  refine ⟨fun s x hone hx hreq htodo hats => ?one, fun s hnone => congrArg Host.Outcome.next ?_⟩
  case one =>
    have hp : x.phase = .translating := by
      have hmem : x ∈ s.tasks.filter (fun t => decide (t.phase = .translating)) := by rw [hone]; exact List.mem_singleton_self x
      simpa using (List.mem_filter.mp hmem).2
    intro z
    have hround : requestRound s =
        if 256 < z.ranges.length then (s.putTask z).xlateNext x.ref
        else match z.nextRequest s.cycle with
          | none => (s.putTask z).xlateNext x.ref
          | some r => if s.xlateOutstanding < 64 then
              ((s.putTask { z with xreq := some r }).bump R.tuXlateReqs 1).emit
                (.translationRequest r.addr r.len (s.taskPasid x.ref) (! r.write))
            else s.putTask z :=
      (requestRound_of_one hone).trans (State.requestFor_of_ats hx hp hreq htodo hats)
    obtain ⟨hzref, hzentry, hzphase, -⟩ := (s.useCache_translates (s.taskPasid x.ref) s.xcache.length x).same
    change z.ref = x.ref at hzref
    change z.entry = x.entry at hzentry
    change z.phase = x.phase at hzphase
    clear_value z
    have hself : (s.putTask z).task x.ref = some z := State.task_putTask_self hx hzref
    refine ⟨fun r hn hr ho => ?_, fun r hn hr ho => ?_, fun hn => ?_⟩
    · have ht : requestRound s = ((s.putTask { z with xreq := some r }).bump R.tuXlateReqs 1).emit
          (.translationRequest r.addr r.len (s.taskPasid x.ref) (! r.write)) := by
        rw [hround, if_neg (by omega), hr]
        exact if_pos ho
      obtain ⟨a, b, hemit⟩ := ((s.putTask { z with xreq := some r }).bump R.tuXlateReqs 1).emit_shape
        (.translationRequest r.addr r.len (s.taskPasid x.ref) (! r.write))
      have hsent := ((s.putTask { z with xreq := some r }).bump R.tuXlateReqs 1).sentHost_emit
        (o := .translationRequest r.addr r.len (s.taskPasid x.ref) (! r.write)) rfl
      have hown := State.task_putTask_self hx (y := { z with xreq := some r }) hzref
      have hothers := s.tasksBut_putTask { z with xreq := some r }
      obtain ⟨haddr, hlen⟩ := Task.nextRequest_bounds hr
      refine ⟨_, { z with xreq := some r }, congrArg Host.Outcome.next ht, ?_⟩
      rw [hemit] at hsent ⊢
      exact ⟨hown, rfl, hzentry, haddr, hlen, hsent, rfl, State.reg_bump_self _ _ _,
        fun o ho => State.reg_bump_ne _ _ (List.ne_of_not_mem_cons ho), hzref ▸ hothers⟩
    · have ht : requestRound s = s.putTask z := by
        rw [hround, if_neg (by omega), hr]
        exact if_neg (by omega)
      exact ⟨_, congrArg Host.Outcome.next ht, hself, rfl, hzref ▸ s.tasksBut_putTask z⟩
    · have ht : requestRound s = (s.putTask z).xlateNext x.ref := by rw [hround, if_pos hn]
      have hnext : (s.putTask z).xlateNext x.ref = ((s.putTask z).bump R.tuFragmented 1).failAtXlate x.ref St.fragmented
          (match z.ranges[256]? with | some r => r.host / 4096 * 4096 | none => 0) := by
        simp only [State.xlateNext, hself]
        exact if_pos hn
      obtain ⟨hbeside, -, hfailed⟩ := State.failAtXlate_of_undispatched
        (s := (s.putTask z).bump R.tuFragmented 1) hself (by rw [hzphase, hp]; rfl) St.fragmented
        (match z.ranges[256]? with | some r => r.host / 4096 * 4096 | none => 0)
      refine ⟨_, z.failedEarly St.fragmented s.cycle, congrArg Host.Outcome.next (ht.trans hnext), hfailed, hzentry, rfl, rfl, ?_, ?_,
        ?_⟩
      · exact (hbeside.regs _ (by decide)).trans (State.reg_bump_ne _ _ (by decide))
      · exact (hbeside.regs _ (by decide)).trans (State.reg_bump_self _ _ _)
      · exact hbeside.sameMem
  · have : s.tasks.filter (fun t => decide (t.phase = .translating)) = [] :=
      List.filter_eq_nil_iff.mpr fun x hx => by simp [hnone x hx]
    simp only [requestRound, this]
    rfl

/-!
### Translation Completions (R241, R242, R253, R379)
-/

theorem voiding_nil (pasid : Option (BitVec 20)) (a len : Nat) : voiding pasid a len [] = [] := rfl

/-- A translation that fails a task at check 9 with 0x2004 TRANSLATION_ERROR. -/
theorem State.translationError_fails {s : State} {ref : TaskRef} {x : Task} {r : XlateReq} (hx : s.task ref = some x)
    (hp : x.phase = .translating) :
    let t := (s.dropXreq x).failAtXlate ref St.translationError r.addr
    ∃ y, t.task ref = some y ∧ y.phase = .finished ∧ y.status = St.translationError ∧ y.entry = x.entry ∧ s.sameMem t ∧
      t.later.latches = s.later.latches ++
        [{ off := R.tuFault, key := ref.sq.val, val := ref.sq.val % 1024 * 2 ^ 16 + 0x2004, also := pairWords R.tuFaultVaLo r.addr }] := by
  have hr := State.ref_of_task hx
  have hdrop : (s.dropXreq x).task ref = some { x with xreq := none } := State.task_putTask_self hx hr
  obtain ⟨hbeside, -, hself⟩ := State.failAtXlate_of_undispatched hdrop (show x.phase.undispatched = true by rw [hp]; rfl)
    St.translationError r.addr
  exact ⟨_, hself, rfl, rfl, rfl, hbeside.sameMem, hbeside.latches⟩

/-- Settles O27. -/
theorem translationAnswers : Obligations.TranslationAnswers := by
  unfold Obligations.TranslationAnswers
  intro ref s x r hx hp hreq hlen failed
  have hr := State.ref_of_task hx
  refine ⟨fun hv hi => ?_, fun hdue => ?_, fun hearly => congrArg Host.Outcome.next ?_, fun xs hv hi hn htodo => ?_⟩
  · obtain ⟨y, hy⟩ := State.translationError_fails (r := r) hx hp
    refine ⟨_, y, congrArg Host.Outcome.next (?_ : xlateCompleted ref .error s = _), hy⟩
    simp only [xlateCompleted, hx, hreq, hp, hv, hi, List.append_nil, voiding_nil]
    exact if_neg (by omega)
  · obtain ⟨y, hy⟩ := State.translationError_fails (r := r) hx hp
    refine ⟨_, y, congrArg Host.Outcome.next (?_ : xlateTimeout ref s = _), hy⟩
    simp only [xlateTimeout, hx, hreq, hp]
    exact if_neg (by simp [State.hostOverdue, hdue]; omega)
  · simp only [xlateTimeout, hx, hreq]
    exact if_pos (Or.inr (by simp only [State.hostOverdue, Bool.not_eq_true', decide_eq_false_iff_not]; omega))
  · let z : Task := { x.applyXlations r.addr xs with xreq := none }
    obtain ⟨hzref, -, hzphase, -⟩ := (x.applyXlations_translates r.addr xs).same
    let u : State := { s with xcache := cacheXlations (s.taskPasid ref) s.xcache r.addr xs }
    have hz : (u.putTask z).task ref = some z := State.task_putTask_self (s := u) hx (hzref.trans hr)
    have hnext : (u.putTask z).xlateNext ref = u.putTask z := by
      simp only [State.xlateNext, hz]
      exact (if_neg (show ¬ 256 < z.ranges.length from Nat.not_lt.mpr hn)).trans (if_pos (Or.inl htodo))
    have hdone : xlateCompleted ref (.ok xs) s = u.putTask z := by
      refine Eq.trans ?_ hnext
      have hvoid : ∀ n, voiding (s.taskPasid ref) r.addr n (r.voids ++ s.invals) = [] := fun n => by rw [hv, hi]; rfl
      simp only [xlateCompleted, hx, hreq, hp, hvoid]
      exact if_neg (show ¬ r.len = 0 by omega)
    refine ⟨u.putTask z, congrArg Host.Outcome.next hdone, hz, rfl, ?_⟩
    have hothers := u.tasksBut_putTask z
    rw [show z.ref = ref from hzref.trans hr] at hothers
    exact hothers

/-!
### Page requests (R245 to R247)
-/

/-- The Page Requests of a group. -/
def pagesOut (prg : Nat) (pasid : Option (BitVec 20)) : List FaultPage → List Out
  | [] => []
  | f :: t => .pageRequest f.addr prg f.read f.write t.isEmpty pasid :: pagesOut prg pasid t

theorem State.sendPages_eq (s : State) (prg : Nat) (pasid : Option (BitVec 20)) (l : List FaultPage) :
    s.sendPages prg pasid l = (pagesOut prg pasid l).foldl State.emit s := by
  induction l generalizing s with
  | nil => rfl
  | cons f t ih => exact ih _

theorem toHost_pagesOut (prg : Nat) (pasid : Option (BitVec 20)) (l : List FaultPage) :
    ∀ o ∈ pagesOut prg pasid l, o.toHost = true := by
  induction l with
  | nil => simp [pagesOut]
  | cons f t ih =>
    intro o ho
    obtain rfl | ho := List.mem_cons.mp ho
    · rfl
    · exact ih o ho

/-- The last page of a group is marked. -/
theorem pagesOut_eq (prg : Nat) (pasid : Option (BitVec 20)) (l : List FaultPage) (k : Nat) :
    pagesOut prg pasid l = (l.zipIdx k).map (fun p =>
      .pageRequest p.1.addr prg p.1.read p.1.write (decide (p.2 + 1 = k + l.length)) pasid) := by
  induction l generalizing k with
  | nil => rfl
  | cons f t ih =>
    rw [pagesOut, ih (k + 1), List.zipIdx_cons, List.map_cons]
    congr 1
    · congr 1
      cases t <;> simp
    · simp only [List.length_cons, Nat.add_comm t.length 1, Nat.add_assoc]

theorem State.tasksBut_putTask_of_ref (s : State) {y : Task} {r : TaskRef} (h : y.ref = r) : s.tasksBut (s.putTask y) r :=
  h ▸ s.tasksBut_putTask y

/-- A task whose first faulting pages have gone out. -/
def Task.askedFor (x : Task) (n : Nat) : Task :=
  { x with faults := (x.faults.take n).map (fun f => { f with tries := f.tries + 1 }) ++ x.faults.drop n }

/-- A group of Page Requests as it is noted, before its requests leave. -/
def State.groupNoted (s : State) (ref : TaskRef) (x : Task) (prg n : Nat) : State :=
  ((({ s.putTask (x.askedFor n) with prgs := s.prgs ++ [{ prg := prg, task := ref, pages := x.faults.take n }] } : State).bump
    R.tuPageReqs n).bump R.tuPrgs 1)

theorem State.bump_shape (s : State) (off n : Nat) : ∃ r c, s.bump off n = { s with regs := r, now := c } := ⟨_, _, rfl⟩

theorem State.groupNoted_spec (s : State) (ref : TaskRef) (x : Task) (prg n : Nat) :
    (∃ r c, s.groupNoted ref x prg n = { s with
      regs := r, now := c, tasks := (s.putTask (x.askedFor n)).tasks,
      prgs := s.prgs ++ [{ prg := prg, task := ref, pages := x.faults.take n }] }) ∧
    (s.groupNoted ref x prg n).reg R.tuPageReqs = satAdd (s.reg R.tuPageReqs) n ∧
    (s.groupNoted ref x prg n).reg R.tuPrgs = satAdd (s.reg R.tuPrgs) 1 ∧
    s.regsBut (s.groupNoted ref x prg n) [R.tuPageReqs, R.tuPrgs] := by
  refine ⟨?_, ?_, ?_, fun o ho => ?_⟩
  · unfold State.groupNoted
    generalize hu : ({ s.putTask (x.askedFor n) with prgs := s.prgs ++ [{ prg := prg, task := ref, pages := x.faults.take n }] } :
      State) = u
    obtain ⟨r, c, h⟩ := u.bump_shape R.tuPageReqs n
    obtain ⟨r', c', h'⟩ := (u.bump R.tuPageReqs n).bump_shape R.tuPrgs 1
    exact ⟨r', c', by rw [h', h, ← hu]; rfl⟩
  · rw [State.groupNoted, State.reg_bump_ne _ _ (by decide), State.reg_bump_self]
    rfl
  · rw [State.groupNoted, State.reg_bump_self, State.reg_bump_ne _ _ (by decide)]
    rfl
  · simp only [List.mem_cons, List.not_mem_nil, or_false, not_or] at ho
    rw [State.groupNoted, State.reg_bump_ne _ _ ho.2, State.reg_bump_ne _ _ ho.1]
    rfl

theorem sendGroup_of_due {ref : TaskRef} {s : State} {x : Task} {prg n : Nat} (hx : s.task ref = some x) (hg : s.freePrg = some prg)
    (hn : n = min (min (s.fld R.tuGroupCfg 0 10) s.priFree) x.faults.length)
    (h : x.phase = .translating ∧ x.todo = [] ∧ x.xreq = none ∧ 0 < n ∧ s.priOn = true ∧ s.priStopped = false ∧
      ∀ g, g ∈ s.prgs → g.task ≠ ref) :
    sendGroup ref s = (pagesOut prg (s.taskPasid ref) (x.faults.take n)).foldl State.emit (s.groupNoted ref x prg n) := by
  obtain ⟨h1, h2, h3, h4, h5, h6, h7⟩ := h
  subst hn
  rw [← State.sendPages_eq]
  simp only [sendGroup, hx, hg]
  exact if_pos ⟨h1, h2, h3, h4, h5, by rw [h6]; rfl, by simpa using h7⟩

theorem State.foldl_emit_shape (l : List Out) (s : State) : ∃ a b, l.foldl State.emit s = { s with out := a, hostHeld := b } := by
  refine List.foldlRecOn (motive := fun u : State => ∃ a b, u = { s with out := a, hostHeld := b }) _ _ ⟨s.out, s.hostHeld, rfl⟩
    fun u hu o _ => ?_
  obtain ⟨a, b, rfl⟩ := hu
  obtain ⟨c, d, h⟩ := State.emit_shape { s with out := a, hostHeld := b } o
  exact ⟨c, d, h⟩

/-- A task that fails at check 9 leaves a task of another name as it is, unless that one waits to go on. -/
theorem State.task_failAtXlate_ne {s : State} {r k : TaskRef} {x y : Task} (hx : s.task r = some x)
    (hp : x.phase.undispatched = true) (hk : k ≠ r) (hy : s.task k = some y) (h1 : y.phase ≠ .waitRanges)
    (h2 : y.phase ≠ .bindWait) (st : Status) (va : Nat) : (s.failAtXlate r st va).task k = some y := by
  obtain ⟨hturn, -⟩ := State.failTask_of_undispatched (s := s.tuFault r.sq st va) hx hp st
  obtain ⟨z, hz, -, hsame⟩ := (State.advanceQueue_flow ((s.tuFault r.sq st va).failTask r st) r.sq).tasks k y
    ((hturn.others k hk).trans hy)
  rw [hsame h1 h2] at hz
  exact hz

/-- A task at check 9, or failed there for a page fault. -/
def Task.atOrFailed (y : Task) : Prop := y.phase = .translating ∨ (y.phase = .finished ∧ y.status = St.pageFault)

theorem Task.atOrFailed.settled {y : Task} (h : y.atOrFailed) : y.phase ≠ .waitRanges ∧ y.phase ≠ .bindWait := by
  obtain h | ⟨h, -⟩ := h <;> simp [h]

/-- What a group's failure does to the task of a group. -/
theorem State.failGroup_task {s : State} {g h : PrgRun} {y : Task} (hy : s.task g.task = some y) (ha : y.atOrFailed) :
    ∃ z, (s.failGroup h).task g.task = some z ∧ z.atOrFailed ∧
      (y.phase = .finished ∨ h.task = g.task → z.phase = .finished) := by
  unfold State.failGroup
  split
  next hnone =>
    refine ⟨y, hy, ha, fun hor => hor.resolve_right fun he => ?_⟩
    rw [he, hy] at hnone
    exact absurd hnone (by simp)
  next x hx =>
    split
    next hp =>
      by_cases hk : g.task = h.task
      · obtain ⟨-, -, hself⟩ := State.failAtXlate_of_undispatched hx (by rw [hp]; rfl) St.pageFault
          (match h.pages with | f :: _ => f.addr | [] => 0)
        rw [hk]
        exact ⟨_, hself, Or.inr ⟨rfl, rfl⟩, fun _ => rfl⟩
      · refine ⟨y, State.task_failAtXlate_ne hx (by rw [hp]; rfl) hk hy ha.settled.1 ha.settled.2 _ _, ha, fun hor => ?_⟩
        exact hor.resolve_right fun he => hk he.symm
    next hp =>
      refine ⟨y, hy, ha, fun hor => hor.elim id fun he => ?_⟩
      rw [he, hy] at hx
      rw [← Option.some.inj hx] at hp
      exact (ha.resolve_left hp).1

theorem State.failGroups_task {g : PrgRun} (l : List PrgRun) {s : State} {y : Task} (hy : s.task g.task = some y) (ha : y.atOrFailed)
    (hg : y.phase = .finished ∨ g ∈ l) :
    ∃ z, (l.foldl State.failGroup s).task g.task = some z ∧ z.phase = .finished ∧ z.status = St.pageFault := by
  induction l generalizing s y with
  | nil =>
    have hf := hg.resolve_right (by simp)
    exact ⟨y, hy, hf, (ha.resolve_left (by simp [hf])).2⟩
  | cons h l ih =>
    obtain ⟨z, hz, hza, hzf⟩ := State.failGroup_task (h := h) hy ha
    refine ih hz hza ?_
    obtain hf | hm := hg
    · exact Or.inl (hzf (Or.inl hf))
    · obtain rfl | hm := List.mem_cons.mp hm
      · exact Or.inl (hzf (Or.inr rfl))
      · exact Or.inr hm

theorem State.failGroup_beside (s : State) (g : PrgRun) : ∃ l, s.Beside l (s.failGroup g) := by
  unfold State.failGroup
  split
  · exact ⟨[], State.Beside.refl s⟩
  next x hx =>
    split
    next hp => exact ⟨_, (State.failAtXlate_of_undispatched hx (by rw [hp]; rfl) _ _).1⟩
    next => exact ⟨[], State.Beside.refl s⟩

theorem State.failGroups_beside (l : List PrgRun) (s : State) : ∃ m, s.Beside m (l.foldl State.failGroup s) := by
  induction l generalizing s with
  | nil => exact ⟨[], State.Beside.refl s⟩
  | cons g l ih =>
    obtain ⟨m, hm⟩ := s.failGroup_beside g
    obtain ⟨m', hm'⟩ := ih (s.failGroup g)
    exact ⟨m ++ m', hm.trans hm'⟩

/-- Settles O28. -/
theorem pageRequests : Obligations.PageRequests := by
  unfold Obligations.PageRequests
  refine ⟨fun ref s x prg hx hg hp htodo hreq hon hstop hfree => ?group, fun prg s g x hfind hx hp => ⟨?success, ?invalid, ?failure⟩,
    fun s => ⟨_, rfl, ?_, ?_, rfl, rfl, fun o ho => ?_⟩⟩
  case group =>
    intro n hn
    have hr := State.ref_of_task hx
    have hdue := sendGroup_of_due hx hg (n := n) rfl ⟨hp, htodo, hreq, hn, hon, hstop, hfree⟩
    have hpages := pagesOut_eq prg (s.taskPasid ref) (x.faults.take n) 0
    rw [List.length_take_of_le (Nat.min_le_right _ _), Nat.zero_add] at hpages
    have hsent := (State.sentHost_foldl_emit (toHost_pagesOut prg (s.taskPasid ref) (x.faults.take n)) (s.groupNoted ref x prg n)).1
    obtain ⟨a, b, hshape⟩ := State.foldl_emit_shape (pagesOut prg (s.taskPasid ref) (x.faults.take n)) (s.groupNoted ref x prg n)
    have hothers := s.tasksBut_putTask (x.askedFor n)
    rw [show (x.askedFor n).ref = ref from hr] at hothers
    obtain ⟨⟨r, c, hnoted⟩, hreqs, hgroups, hregs⟩ := s.groupNoted_spec ref x prg n
    have hself : (s.groupNoted ref x prg n).task ref = some (x.askedFor n) :=
      (State.task_of_tasks (s := s.putTask (x.askedFor n)) (by rw [hnoted]) ref).trans (State.task_putTask_self hx hr)
    refine ⟨_, congrArg Host.Outcome.next hdue, ?_⟩
    rw [hshape] at hsent ⊢
    rw [hpages] at hsent
    generalize s.groupNoted ref x prg n = u at hsent hnoted hreqs hgroups hregs hself
    subst hnoted
    exact ⟨hsent, rfl, hself, rfl, hreqs, hgroups, hregs, hothers⟩
  case success =>
    have hdone : prgAnswered prg .success s =
        ({ s with prgs := s.prgs.filter (fun y => decide (y.prg ≠ prg.val)) } : State).putTask
          { x with todo := footprint (x.todo ++ g.pages.flatMap (fun f => x.uncovered f.addr (f.addr + 4096))) } := by
      simp only [prgAnswered, hfind, State.retryPages]
      rw [show ({ s with prgs := s.prgs.filter (fun y => decide (y.prg ≠ prg.val)) } : State).task g.task = some x from hx]
      exact if_pos hp
    have hr := State.ref_of_task hx
    exact ⟨_, congrArg Host.Outcome.next hdone, rfl, fun y => by simp [State.putTask], s.tasksBut_putTask_of_ref hr,
      State.task_putTask_self (s := { s with prgs := _ }) hx hr⟩
  case invalid =>
    let u : State := { s with prgs := s.prgs.filter (fun y => decide (y.prg ≠ prg.val)) }
    have hdone : prgAnswered prg .invalidRequest s = u.failGroup g := by simp only [prgAnswered, hfind, u]
    obtain ⟨l, hbeside⟩ := u.failGroup_beside g
    obtain ⟨z, hz, hza, hzf⟩ := State.failGroup_task (s := u) (h := g) hx (Or.inl hp)
    have hf := hzf (Or.inr rfl)
    refine ⟨_, z, congrArg Host.Outcome.next hdone, hz, hf, (hza.resolve_left (by simp [hf])).2, fun y => ?_, hbeside.sameMem⟩
    rw [hbeside.frame]
    simp [u]
  case failure =>
    let u : State := { s.setBit R.tuStatus 31 true with priFailure := true, prgs := [] }
    have hdone : prgAnswered prg .responseFailure s = s.prgs.foldl State.failGroup u := by simp only [prgAnswered, hfind, u]
    obtain ⟨l, hbeside⟩ := State.failGroups_beside s.prgs u
    obtain ⟨z, hz, hf, hst⟩ := State.failGroups_task (s := u) s.prgs hx (Or.inl hp) (Or.inr (List.mem_of_find?_eq_some hfind))
    refine ⟨_, z, congrArg Host.Outcome.next hdone, ?_, ?_, ?_, hz, hf, hst, hbeside.sameMem⟩
    · rw [State.priStopped, State.bit_eq, hbeside.regs _ (by decide)]
      exact s.bit_setBit_self _ 31 true (by decide)
    · rw [hbeside.frame]
    · rw [hbeside.frame]
  · exact (State.bit_setBit_other _ _ 29 31 true (by decide)).trans (s.bit_setBit_self _ 31 false (by decide))
  · exact State.bit_setBit_self _ _ 29 true (by decide)
  · exact (State.reg_setBit_ne _ _ _ (List.ne_of_not_mem_cons ho)).trans (State.reg_setBit_ne _ _ _ (List.ne_of_not_mem_cons ho))

/-!
### Invalidation (R251 to R254)

No task gains a range by what an invalidation does beside marking: it fails tasks, stops rings and discards records.
-/

/-- Tasks keep their names and gain no range; the translations and invalidations held stay. -/
structure State.Shrinks (s t : State) : Prop where
  invals : t.invals = s.invals
  xcache : t.xcache = s.xcache
  refs : t.tasks.map Task.ref = s.tasks.map Task.ref
  tasks : ∀ y ∈ t.tasks, ∃ x ∈ s.tasks, x.ref = y.ref ∧ ∀ r ∈ y.ranges, r ∈ x.ranges

theorem State.Shrinks.refl (s : State) : s.Shrinks s := ⟨rfl, rfl, rfl, fun y hy => ⟨y, hy, rfl, fun _ h => h⟩⟩

theorem State.Shrinks.trans {s t u : State} (h : s.Shrinks t) (k : t.Shrinks u) : s.Shrinks u where
  invals := k.invals.trans h.invals
  xcache := k.xcache.trans h.xcache
  refs := k.refs.trans h.refs
  tasks z hz := by
    obtain ⟨y, hy, hyr, hyz⟩ := k.tasks z hz
    obtain ⟨x, hx, hxr, hxy⟩ := h.tasks y hy
    exact ⟨x, hx, hxr.trans hyr, fun r hr => hxy r (hyz r hr)⟩

/-- Effects on nothing that an invalidation holds. -/
theorem State.Shrinks.beside {s t u : State} (h : s.Shrinks t) (hi : u.invals = t.invals) (hx : u.xcache = t.xcache)
    (ht : u.tasks = t.tasks) : s.Shrinks u :=
  h.trans ⟨hi, hx, by rw [ht], fun y hy => ⟨y, ht ▸ hy, rfl, fun _ h => h⟩⟩

theorem State.Shrinks.setReg {s t : State} (h : s.Shrinks t) (off : Nat) (v : Word) : s.Shrinks (t.setReg off v) :=
  h.beside rfl rfl rfl

theorem State.Shrinks.bump {s t : State} (h : s.Shrinks t) (off n : Nat) : s.Shrinks (t.bump off n) := h.beside rfl rfl rfl

/-- A task replaced by one of its name with no more ranges. -/
theorem State.Shrinks.putTask {s t : State} (h : s.Shrinks t) {x y : Task} (hx : x ∈ s.tasks) (hr : x.ref = y.ref)
    (hy : ∀ r ∈ y.ranges, r ∈ x.ranges) : s.Shrinks (t.putTask y) where
  invals := h.invals
  xcache := h.xcache
  refs := (t.refs_putTask y).trans h.refs
  tasks z hz := by
    obtain ⟨w, hw, rfl⟩ := List.mem_map.mp hz
    split
    · exact ⟨x, hx, hr, hy⟩
    · exact h.tasks w hw

theorem State.mem_of_task {s : State} {r : TaskRef} {x : Task} (h : s.task r = some x) : x ∈ s.tasks := List.mem_of_find?_eq_some h

theorem State.Beside.shrinks {s t : State} {l : List Latch} (h : s.Beside l t) (ht : t.tasks = s.tasks) : s.Shrinks t :=
  (State.Shrinks.refl s).beside (by rw [h.frame]) (by rw [h.frame]) ht

theorem State.failEffects_shrinks (s : State) (x : Task) (st : Status) : s.Shrinks (s.failEffects x st) :=
  ((State.Beside.refl s).failEffects x st).shrinks (s.tasks_failEffects x st)

theorem State.Shrinks.settleFailing {s t : State} (h : s.Shrinks t) {x y : Task} (hx : x ∈ s.tasks) (hr : x.ref = y.ref)
    (hy : ∀ r ∈ y.ranges, r ∈ x.ranges) : s.Shrinks (t.settleFailing y) := by
  have hcount : s.Shrinks (t.countDigested y) := by
    unfold State.countDigested
    split
    · exact h
    · exact h.beside rfl rfl rfl
  unfold State.settleFailing
  split
  · exact (hcount.putTask (y := { y with phase := .finished }) hx hr hy).beside rfl rfl rfl
  · exact h

theorem State.Shrinks.failAgain {s t : State} (h : s.Shrinks t) {x y : Task} (hx : x ∈ s.tasks) (hr : x.ref = y.ref)
    (hy : ∀ r ∈ y.ranges, r ∈ x.ranges) (st : Status) : s.Shrinks (t.failAgain y st) := by
  unfold State.failAgain
  split
  · exact h.putTask hx hr hy
  · exact h

theorem State.failTask_shrinks (s : State) (ref : TaskRef) (st : Status) : s.Shrinks (s.failTask ref st) := by
  unfold State.failTask
  split
  · exact State.Shrinks.refl s
  next x hx =>
    have hm := State.mem_of_task hx
    have heff := s.failEffects_shrinks x st
    split
    · have hput := heff.putTask (y := x.failedRunning st s.cycle) hm rfl fun _ h => h
      split
      · exact hput.putTask hm rfl fun _ h => h
      · exact hput.settleFailing hm rfl fun _ h => h
    · exact (State.Shrinks.refl s).failAgain hm rfl (fun _ h => h) st
    · exact (State.Shrinks.refl s).failAgain hm rfl (fun _ h => h) st
    · exact State.Shrinks.refl s
    · exact State.Shrinks.refl s
    · exact (heff.setReg R.tuRangesFree _).putTask (y := x.failedEarly st s.cycle) hm rfl fun r h => absurd (show r ∈ ([] : List XRange) from h) List.not_mem_nil

theorem State.failDone_shrinks (s : State) {x : Task} (hx : x ∈ s.tasks) (st : Status) : s.Shrinks (s.failDone x st) := by
  unfold State.failDone
  split
  · exact ((s.failEffects_shrinks x st).putTask (y := { x with status := st, failedAt := s.cycle, bytes := 0, digest := 0 }) hx rfl
      fun _ h => h).beside rfl rfl rfl
  · exact (State.Shrinks.refl s).failAgain hx rfl (fun _ h => h) st

theorem State.Shrinks.unbind {s t : State} (h : s.Shrinks t) (r : TaskRef) : s.Shrinks (t.unbind r) := by
  refine List.foldlRecOn (motive := fun u : State => s.Shrinks u) _ _ h fun u hu n _ => ?_
  split
  · exact hu.beside rfl rfl rfl
  · exact hu

theorem State.Shrinks.recordDone {s t : State} (h : s.Shrinks t) {x : Task} (hx : x ∈ s.tasks) (lost : Bool) :
    s.Shrinks (t.recordDone x lost) := by
  have hcount : s.Shrinks (t.countTask x) := by
    unfold State.countTask
    split
    · exact h
    · dsimp only
      split
      · exact h.bump _ _
      · exact (h.bump _ _).bump _ _
  have hlate : s.Shrinks ((t.countTask x).countLate x) := by
    unfold State.countLate
    split
    · exact hcount.bump _ _
    · exact hcount
  have hgive : s.Shrinks ((((t.countTask x).countLate x).unbind x.ref).giveRanges x.reserved) :=
    (hlate.unbind x.ref).setReg R.tuRangesFree _
  unfold State.recordDone
  dsimp only
  refine hgive.putTask hx ?_ fun r hr => absurd hr ?_
  · rfl
  · exact List.not_mem_nil

theorem State.cqStop_shrinks (s : State) (c : Nat) (st : Status) : s.Shrinks (s.cqStop c st) := by
  have hstop : s.Shrinks (if s.cqStopped c then s
      else (s.setBit (R.cqCfg c) 29 true).setReg (R.cqErr c) (BitVec.ofNat 32 (st.toNat * 2 ^ 16))) := by
    split
    · exact State.Shrinks.refl s
    · exact ((State.Shrinks.refl s).setReg _ _).setReg _ _
  unfold State.cqStop
  dsimp only
  generalize (if s.cqStopped c then s
      else (s.setBit (R.cqCfg c) 29 true).setReg (R.cqErr c) (BitVec.ofNat 32 (st.toNat * 2 ^ 16))) = u at hstop
  refine hstop.trans (List.foldlRecOn (motive := fun v : State => u.Shrinks v) _ _ (State.Shrinks.refl u) fun v hv x hx => ?_)
  exact (hv.bump _ _).recordDone (List.mem_filter.mp hx).1 true

theorem State.sqHalt_shrinks (s : State) (q : Nat) (st : Status) (unit : Nat) (index : Word) (tag : Nat)
    (header : Option (List Byte)) : s.Shrinks (s.sqHalt q st unit index tag header) := by
  have hquiet : s.Shrinks (s.sqHaltQuiet q st unit index tag header) := (State.Shrinks.refl s).beside rfl rfl rfl
  rw [State.sqHalt_eq]
  generalize s.sqHaltQuiet q st unit index tag header = u at hquiet
  dsimp only
  split
  · exact hquiet.beside (State.msix_invals _ _) (State.msix_xcache _ _) (State.msix_tasks _ _)
  · exact hquiet

theorem State.invalidateSq_shrinks (i : Inval) (s : State) (q : Nat) : s.Shrinks (s.invalidateSq i q) := by
  unfold State.invalidateSq
  dsimp only
  split
  · have hmark := (State.Shrinks.refl s).beside (u := s.putSq q { s.sq q with ranges := i.mark (s.sq q).ranges }) rfl rfl rfl
    split
    · exact hmark.trans (State.sqHalt_shrinks _ _ _ _ _ _ _)
    · exact hmark
  · exact State.Shrinks.refl s

theorem State.invalidateCq_shrinks (i : Inval) (s : State) (c : Nat) : s.Shrinks (s.invalidateCq i c) := by
  unfold State.invalidateCq
  dsimp only
  split
  · exact ((State.Shrinks.refl s).beside (u := s.putCq c { s.cq c with ranges := i.mark (s.cq c).ranges }) rfl rfl rfl).trans
      (State.cqStop_shrinks _ _ _)
  · exact State.Shrinks.refl s

/-- Registers of queues, rings and contexts read as before: those below the translation unit's. -/
def State.lowRegs (s t : State) : Prop := ∀ o, o < 0x230000 → t.reg o = s.reg o

theorem State.lowRegs.refl (s : State) : s.lowRegs s := fun _ _ => rfl

theorem State.lowRegs.trans {s t u : State} (h : s.lowRegs t) (k : t.lowRegs u) : s.lowRegs u := fun o ho => (k o ho).trans (h o ho)

theorem State.lowRegs.bump {s t : State} (h : s.lowRegs t) {off : Nat} (ho : 0x230000 ≤ off) (n : Nat) : s.lowRegs (t.bump off n) :=
  fun o hl => (State.reg_bump_ne t n (by omega)).trans (h o hl)

theorem streamReg_of_low {o : Nat} (h : o < 0x230000) : streamReg o = false :=
  streamReg_eq_false (by omega) (by simp only [R.tuRangesFree]; omega)

theorem State.Beside.lowRegs {s t : State} {l : List Latch} (h : s.Beside l t) : s.lowRegs t :=
  fun o ho => h.regs o (streamReg_of_low ho)

theorem State.settleFailing_lowRegs (s : State) (x : Task) : s.lowRegs (s.settleFailing x) := by
  have hcount : s.lowRegs (s.countDigested x) := by
    unfold State.countDigested
    split
    · exact State.lowRegs.refl s
    next e _ =>
      intro o ho
      exact State.reg_setReg64_ne _ _ (by simp only [R.tmEngBytesLo]; omega) (by simp only [R.tmEngBytesLo]; omega)
  unfold State.settleFailing
  split
  · exact hcount
  · exact State.lowRegs.refl s

theorem State.failAgain_lowRegs (s : State) (x : Task) (st : Status) : s.lowRegs (s.failAgain x st) := by
  unfold State.failAgain
  split
  · exact fun _ _ => rfl
  · exact State.lowRegs.refl s

theorem State.failTask_lowRegs (s : State) (ref : TaskRef) (st : Status) : s.lowRegs (s.failTask ref st) := by
  unfold State.failTask
  split
  · exact State.lowRegs.refl s
  next x hx =>
    have heff : s.Beside [] (s.failEffects x st) := (State.Beside.refl s).failEffects x st
    split
    · split
      · exact heff.lowRegs
      · exact State.lowRegs.trans (t := (s.failEffects x st).putTask (x.failedRunning st s.cycle)) heff.lowRegs
          (State.settleFailing_lowRegs _ _)
    · exact s.failAgain_lowRegs x st
    · exact s.failAgain_lowRegs x st
    · exact State.lowRegs.refl s
    · exact State.lowRegs.refl s
    · exact (heff.setReg streamReg_tuRangesFree _).lowRegs

theorem State.failDone_lowRegs (s : State) (x : Task) (st : Status) : s.lowRegs (s.failDone x st) := by
  unfold State.failDone
  split
  · exact ((State.Beside.refl s).failEffects x st).lowRegs
  · exact s.failAgain_lowRegs x st

theorem State.unbind_lowRegs (s : State) (r : TaskRef) : s.lowRegs (s.unbind r) := ((State.Beside.refl s).unbind r).lowRegs

theorem State.invalidateFailed_lowRegs (s : State) (x : Task) : s.lowRegs (s.invalidateFailed x) := by
  have h : s.lowRegs (((s.putTask x).unbind x.ref).failAgain x St.invalidated) :=
    State.lowRegs.trans (t := (s.putTask x).unbind x.ref) (State.unbind_lowRegs (s.putTask x) x.ref) (State.failAgain_lowRegs _ _ _)
  unfold State.invalidateFailed
  dsimp only
  split
  · exact h.bump (by decide) 1
  · exact h

/-- The ranges of a task that an invalidation overlaps are marked. -/
def Inval.marks (i : Inval) (y : Task) : Prop := ∀ r ∈ y.ranges, i.hits r = true → r.marked = true

theorem Inval.hits_mark (i : Inval) {rs : List XRange} {r : XRange} (h : r ∈ i.mark rs) (hh : i.hits r = true) : r.marked = true := by
  obtain ⟨q, hq, rfl⟩ := List.mem_map.mp h
  have : i.hits q = true := hh
  simp [this]

/-- What an invalidation does to one task: its own name's tasks hold no range it overlaps and that is not marked. -/
structure State.Invalidated (i : Inval) (s : State) (ref : TaskRef) (v : State) : Prop where
  low : s.lowRegs v
  invals : v.invals = s.invals
  xcache : v.xcache = s.xcache
  refs : v.tasks.map Task.ref = s.tasks.map Task.ref
  own : ∀ y ∈ v.tasks, y.ref = ref → i.appliesTo (s.taskPasid ref) = true → i.marks y
  others : ∀ y ∈ v.tasks, y.ref ≠ ref → ∃ x ∈ s.tasks, x.ref = y.ref ∧ ∀ r ∈ y.ranges, r ∈ x.ranges

/-- The task is replaced by one whose ranges are marked, and nothing gains a range after that. -/
theorem State.Shrinks.invalidated {i : Inval} {s v : State} {ref : TaskRef} {z : Task} (h : (s.putTask z).Shrinks v) (hl : s.lowRegs v)
    (hz : z.ref = ref) (hm : i.appliesTo (s.taskPasid ref) = true → i.marks z) : s.Invalidated i ref v where
  low := hl
  invals := h.invals
  xcache := h.xcache
  refs := h.refs.trans (s.refs_putTask z)
  own y hy hr ha := by
    obtain ⟨w, hw, hwr, hsub⟩ := h.tasks y hy
    obtain ⟨x, -, rfl⟩ := List.mem_map.mp hw
    by_cases hx : x.ref = z.ref
    · rw [if_pos hx] at hsub
      exact fun r hry => hm ha r (hsub r hry)
    · rw [if_neg hx] at hwr
      exact absurd (hwr.trans (hr.trans hz.symm)) hx
  others y hy hr := by
    obtain ⟨w, hw, hwr, hsub⟩ := h.tasks y hy
    obtain ⟨x, hx, rfl⟩ := List.mem_map.mp hw
    by_cases he : x.ref = z.ref
    · rw [if_pos he] at hwr
      exact absurd (hwr.symm.trans hz) hr
    · rw [if_neg he] at hwr hsub
      exact ⟨x, hx, hwr, hsub⟩

theorem State.invalidateFailed_shrinks {s : State} {x : Task} (hx : x ∈ (s.putTask x).tasks) :
    (s.putTask x).Shrinks (s.invalidateFailed x) := by
  have h : (s.putTask x).Shrinks (((s.putTask x).unbind x.ref).failAgain x St.invalidated) :=
    ((State.Shrinks.refl _).unbind x.ref).failAgain hx rfl (fun _ h => h) _
  unfold State.invalidateFailed
  dsimp only
  split
  · exact h.bump _ _
  · exact h

/-- A task whose outstanding Translation Request has noted an invalidation; and one with the ranges it overlaps marked. -/
def Task.noted (x : Task) (i : Inval) : Task :=
  { x with xreq := x.xreq.map (fun r => if 0 < r.len then { r with voids := r.voids ++ [i] } else r) }

def Task.marked (x : Task) (i : Inval) : Task := { x.noted i with ranges := i.mark x.ranges }

theorem State.invalidateTask_of_task {i : Inval} {s : State} {ref : TaskRef} {x : Task} (hx : s.task ref = some x) :
    s.invalidateTask i ref =
      if ! (i.appliesTo (s.taskPasid ref) && x.ranges.any (fun r => i.hits r && ! r.marked)) then s.putTask (x.noted i)
      else match x.phase with
        | .running => ((s.putTask (x.marked i)).bump R.tuInvalFailed 1).failTask ref St.invalidated
        | .finished =>
          if x.status = St.success then ((s.putTask (x.marked i)).bump R.tuInvalFailed 1).failDone (x.marked i) St.invalidated
          else s.invalidateFailed (x.marked i)
        | .failing => s.invalidateFailed (x.marked i)
        | .translating => (s.putTask ((x.noted i).retranslated i)).bump R.tuRetranslated 1
        | .waitRanges => (s.putTask ((x.noted i).retranslated i)).bump R.tuRetranslated 1
        | .bindWait => (s.putTask ((x.noted i).retranslated i)).bump R.tuRetranslated 1
        | .queued => (s.putTask ((x.noted i).retranslated i)).bump R.tuRetranslated 1
        | _ => s.putTask (x.marked i) := by
  unfold State.invalidateTask
  rw [hx]
  rfl

theorem State.invalidateTask_spec (i : Inval) (s : State) (ref : TaskRef) : s.Invalidated i ref (s.invalidateTask i ref) := by
  cases hx : s.task ref with
  | none =>
    rw [State.invalidateTask, hx]
    refine ⟨State.lowRegs.refl s, rfl, rfl, rfl, fun y hy hr _ => ?_, fun y hy _ => ⟨y, hy, rfl, fun _ h => h⟩⟩
    exact absurd hr (by simpa using List.find?_eq_none.mp hx y hy)
  | some x =>
    have hr := State.ref_of_task hx
    have hmem : x.marked i ∈ (s.putTask (x.marked i)).tasks := State.mem_of_task (State.task_putTask_self hx hr)
    have marked : ∀ v, (s.putTask (x.marked i)).Shrinks v → s.lowRegs v → s.Invalidated i ref v :=
      fun v h hl => h.invalidated hl hr fun _ r hrm => i.hits_mark hrm
    have bumped : (s.putTask (x.marked i)).Shrinks ((s.putTask (x.marked i)).bump R.tuInvalFailed 1) :=
      (State.Shrinks.refl _).bump _ _
    have hmem' : x.marked i ∈ ((s.putTask (x.marked i)).bump R.tuInvalFailed 1).tasks := hmem
    have bumpedLow : s.lowRegs ((s.putTask (x.marked i)).bump R.tuInvalFailed 1) :=
      State.lowRegs.bump (t := s.putTask (x.marked i)) (fun _ _ => rfl) (by decide) 1
    have again : s.Invalidated i ref ((s.putTask ((x.noted i).retranslated i)).bump R.tuRetranslated 1) := by
      refine State.Shrinks.invalidated ((State.Shrinks.refl _).bump _ _)
        (State.lowRegs.bump (t := s.putTask ((x.noted i).retranslated i)) (fun _ _ => rfl) (by decide) 1) hr fun _ r hrz hh => ?_
      have := (List.mem_filter.mp (show r ∈ x.ranges.filter (fun r => ! i.hits r) from hrz)).2
      rw [hh] at this
      exact Bool.noConfusion this
    have failed : s.Invalidated i ref (s.invalidateFailed (x.marked i)) :=
      marked _ (State.invalidateFailed_shrinks hmem) (s.invalidateFailed_lowRegs _)
    rw [State.invalidateTask_of_task hx]
    split
    next hno =>
      refine State.Shrinks.invalidated (z := x.noted i) (State.Shrinks.refl _) (fun _ _ => rfl) hr fun ha r hrz hh => ?_
      have hrx : r ∈ x.ranges := hrz
      simp only [ha, Bool.true_and, Bool.not_eq_true', List.any_eq_false] at hno
      simpa [hh] using hno r hrx
    · split
      · exact marked _ (bumped.trans (State.failTask_shrinks _ _ _)) (bumpedLow.trans (State.failTask_lowRegs _ _ _))
      · split
        · exact marked _ (bumped.trans (State.failDone_shrinks _ hmem' _)) (bumpedLow.trans (State.failDone_lowRegs _ _ _))
        · exact failed
      · exact failed
      · exact again
      · exact again
      · exact again
      · exact again
      · exact marked _ (State.Shrinks.refl _) fun _ _ => rfl

theorem State.lowRegs.taskPasid {s t : State} (h : s.lowRegs t) (r : TaskRef) : t.taskPasid r = s.taskPasid r := by
  have hcfg : t.reg (R.sqCfg r.sq) = s.reg (R.sqCfg r.sq) := h _ (by simp only [R.sqCfg]; omega)
  have hctx : t.ctxOf r = s.ctxOf r := by simp only [State.ctxOf, State.fld, hcfg]
  have hlt : s.ctxOf r < 4096 := getField_lt (s.reg (R.sqCfg r.sq)) 0 12
  have hmap : t.reg (R.ctxMap (s.ctxOf r)) = s.reg (R.ctxMap (s.ctxOf r)) := h _ (by simp only [R.ctxMap]; omega)
  simp only [State.taskPasid, State.pasidOf, hctx, State.bit_eq, State.fld, hmap]
  rfl

/-- The turns of a list of tasks. -/
theorem State.invalidateTasks_spec (i : Inval) (l : List TaskRef) (s : State) :
    let v := l.foldl (State.invalidateTask i) s
    v.invals = s.invals ∧ v.xcache = s.xcache ∧ v.tasks.map Task.ref = s.tasks.map Task.ref ∧
      ∀ y ∈ v.tasks, i.appliesTo (s.taskPasid y.ref) = true →
        (y.ref ∈ l ∨ ∀ x ∈ s.tasks, x.ref = y.ref → i.marks x) → i.marks y := by
  induction l generalizing s with
  | nil =>
    exact ⟨rfl, rfl, rfl, fun y hy _ h => h.elim (fun hm => absurd hm List.not_mem_nil) fun h => h y hy rfl⟩
  | cons ref l ih =>
    have hone := s.invalidateTask_spec i ref
    obtain ⟨hinvals, hxcache, hrefs, hmarks⟩ := ih (s.invalidateTask i ref)
    refine ⟨hinvals.trans hone.invals, hxcache.trans hone.xcache, hrefs.trans hone.refs, fun y hy ha h => hmarks y hy ?_ ?_⟩
    · rw [hone.low.taskPasid]
      exact ha
    · by_cases hr : y.ref = ref
      · exact Or.inr fun x hx hxr => hone.own x hx (hxr.trans hr) (hr ▸ ha)
      · obtain hm | hm := h
        · exact Or.inl ((List.mem_cons.mp hm).resolve_left hr)
        · refine Or.inr fun x hx hxr => ?_
          obtain ⟨w, hw, hwr, hsub⟩ := hone.others x hx (fun he => hr (hxr.symm.trans he))
          exact fun r hrx => hm w hw (hwr.trans hxr) r (hsub r hrx)

theorem State.Shrinks.foldl {α : Type} {f : State → α → State} (hf : ∀ (s : State) x, s.Shrinks (f s x)) (l : List α) (s : State) :
    s.Shrinks (l.foldl f s) :=
  List.foldlRecOn (motive := fun u : State => s.Shrinks u) _ _ (State.Shrinks.refl s) fun _ hu x _ => hu.trans (hf _ x)

/-- An Invalidate Request that is taken. -/
theorem invalidateRequested_taken {s : State} (h : s.invals.length < 32) (i : Inval) :
    let t := invalidateRequested i.pasid i.global i.addr i.len s
    t.invals = s.invals ++ [i] ∧ (∀ c ∈ t.xcache, c ∈ s.xcache ∧ ¬ (i.appliesTo c.pasid = true ∧ i.hits c.range = true)) ∧
      (∀ y ∈ t.tasks, i.appliesTo (s.taskPasid y.ref) = true → i.marks y) ∧ t.tasks.map Task.ref = s.tasks.map Task.ref := by
  intro t
  let u : State := { s with invals := s.invals ++ [i], xcache := s.xcache.filter (fun c => ! (i.appliesTo c.pasid && i.hits c.range)) }
  let v := (s.tasks.map Task.ref).foldl (State.invalidateTask i) u
  obtain ⟨hinvals, hxcache, hrefs, hmarks⟩ := u.invalidateTasks_spec i (s.tasks.map Task.ref)
  have hshrinks : v.Shrinks t := by
    have ht : t = _ := if_neg (Nat.not_le.mpr h)
    rw [ht]
    exact (State.Shrinks.foldl (State.invalidateSq_shrinks i) _ v).trans (State.Shrinks.foldl (State.invalidateCq_shrinks i) _ _)
  refine ⟨hshrinks.invals.trans hinvals, fun c hc => ?_, fun y hy ha => ?_, hshrinks.refs.trans hrefs⟩
  · rw [hshrinks.xcache.trans hxcache] at hc
    obtain ⟨hcs, hcn⟩ := List.mem_filter.mp hc
    exact ⟨hcs, fun hboth => by simp [hboth.1, hboth.2] at hcn⟩
  · obtain ⟨x, hx, hxr, hsub⟩ := hshrinks.tasks y hy
    have hlisted : x.ref ∈ s.tasks.map Task.ref := by
      rw [← show v.tasks.map Task.ref = s.tasks.map Task.ref from hrefs]
      exact List.mem_map_of_mem hx
    exact fun r hr => hmarks x hx (hxr ▸ ha) (Or.inl hlisted) r (hsub r hr)

/-- A task whose Translation Request an invalidation held void may issue it again once no other one holds it. -/
def Task.released (i : Inval) (t : Task) : Task :=
  match t.xreq with
  | some r =>
    if r.len ≠ 0 then t
    else if r.voids.erase i = [] then { t with xreq := none } else { t with xreq := some { r with voids := r.voids.erase i } }
  | none => t

theorem Task.ref_released (i : Inval) (t : Task) : (t.released i).ref = t.ref := by
  unfold Task.released
  split
  · split
    · rfl
    · split <;> rfl
  · rfl

theorem invalidateCompleted_of_drained {s : State} {i : Inval} {rest : List Inval} (hs : s.invals = i :: rest)
    (hf : s.inFlight i = false) :
    invalidateCompleted s =
      (({ s with invals := rest, tasks := s.tasks.map (Task.released i) } : State).bump R.tuInvals 1).emit .invalidateCompletion := by
  simp only [invalidateCompleted, hs]
  exact if_neg (by simp [hf])

/-- Settles O29. -/
theorem invalidations : Obligations.Invalidations := by
  unfold Obligations.Invalidations
  refine ⟨fun pasid g a len s => ?_, fun i rest s hs => ⟨fun hf => ?_, fun hf => congrArg Host.Outcome.next ?_⟩⟩
  · intro i
    refine ⟨fun h => ?_, fun h => congrArg Host.Outcome.next (if_pos h)⟩
    obtain ⟨hinvals, hxcache, hmarks, hrefs⟩ := invalidateRequested_taken h i
    exact ⟨_, rfl, hinvals, hxcache, hmarks, hrefs⟩
  · have ht := invalidateCompleted_of_drained hs hf
    let u : State := ({ s with invals := rest, tasks := s.tasks.map (Task.released i) } : State).bump R.tuInvals 1
    obtain ⟨a, b, hshape⟩ := u.emit_shape .invalidateCompletion
    have hsent : u.sentHost (u.emit .invalidateCompletion) [.invalidateCompletion] := u.sentHost_emit rfl
    refine ⟨_, congrArg Host.Outcome.next ht, ?_⟩
    rw [hshape] at hsent ⊢
    refine ⟨rfl, hsent, State.reg_bump_self _ _ _, fun o ho => State.reg_bump_ne _ _ (List.ne_of_not_mem_cons ho), ?_⟩
    exact (List.map_map ..).trans (List.map_congr_left fun x _ => Task.ref_released i x)
  · simp only [invalidateCompleted, hs]
    exact if_pos hf

end Sys2Proof.Machine
end

section
namespace Sys2Proof.Machine

open Sys2Proof

/-!
### Operations that write registers alone

The shape of a fold of register updates, and what a register holds after a number was written to it.
-/

/-- A fold of updates of the register file is one. -/
theorem State.foldl_regs_shape {β : Type} {f : State → β → State} (l : List β) (hf : ∀ u x, ∃ r, f u x = { u with regs := r }) (s : State) :
    ∃ r, l.foldl f s = { s with regs := r } :=
  List.foldlRecOn (motive := fun u : State => ∃ r, u = { s with regs := r }) l f ⟨s.regs, rfl⟩ (fun u ⟨r, hr⟩ x _ => by
    obtain ⟨r', h⟩ := hf u x
    exact ⟨r', by rw [h, hr]⟩)

theorem State.fld_setReg_ofNat (s : State) (off lo n v : Nat) :
    (s.setReg off (BitVec.ofNat 32 v)).fld off lo n = v % 2 ^ 32 / 2 ^ lo % 2 ^ n := by
  unfold State.fld getField
  rw [State.reg_setReg_self, BitVec.toNat_ofNat]

theorem State.bit_setReg_ofNat (s : State) (off i v : Nat) :
    (s.setReg off (BitVec.ofNat 32 v)).bit off i = decide (v % 2 ^ 32 / 2 ^ i % 2 = 1) := by
  rw [State.bit_eq, State.reg_setReg_self]
  unfold getField
  rw [BitVec.toNat_ofNat, Nat.pow_one]

theorem State.reg64_congr {s t : State} {o : Nat} (h : t.reg o = s.reg o) (h4 : t.reg (o + 4) = s.reg (o + 4)) :
    t.reg64 o = s.reg64 o := by
  unfold State.reg64
  rw [h, h4]

theorem State.bit_congr {s t : State} {o : Nat} (h : t.reg o = s.reg o) (i : Nat) : t.bit o i = s.bit o i := by
  rw [State.bit_eq, State.bit_eq, h]

theorem State.fld_congr {s t : State} {o : Nat} (h : t.reg o = s.reg o) (lo n : Nat) : t.fld o lo n = s.fld o lo n := by
  unfold State.fld
  rw [h]

/-!
### Array hold (R216, R217, R220, R221)
-/

/-- What asserting, releasing and reporting a hold may change. -/
def State.onlyHolds (s t : State) : Prop :=
  t = { s with regs := t.regs, now := t.now, later := t.later, holdLen := t.holdLen, holdReported := t.holdReported } ∧
    s.regsBut t [R.strHold, R.strHoldLong, R.mcCount]

theorem State.onlyHolds.trans {s t u : State} (h : s.onlyHolds t) (k : t.onlyHolds u) : s.onlyHolds u :=
  ⟨by rw [k.1, h.1], fun o ho => (k.2 o ho).trans (h.2 o ho)⟩

theorem State.onlyHolds.sc {s t : State} (h : s.onlyHolds t) : t.sc = s.sc :=
  State.reg64_congr (h.2 _ (by decide)) (h.2 _ (by decide))

theorem State.onlyHolds.running {s t : State} (h : s.onlyHolds t) : t.running = s.running :=
  State.bit_congr (h.2 _ (by decide)) 31

theorem State.setHold_eq (s : State) (b : Bool) (c n : Nat) :
    ∃ v, s.setHold b c n = s.setReg R.strHold v := ⟨_, rfl⟩

theorem State.held_setHold (s : State) (b : Bool) {c n : Nat} (hc : c < 16) (hn : n < 256) : (s.setHold b c n).held = b := by
  have hv : (boolBit b * 2 ^ 31 + c * 2 ^ 24 + n) % 2 ^ 32 / 2 ^ 31 % 2 = boolBit b := by
    have hb : boolBit b ≤ 1 := by cases b <;> decide
    omega
  unfold State.setHold State.held
  rw [State.bit_setReg_ofNat, hv]
  cases b <;> rfl

theorem State.holdCause_lt (s : State) (n : Nat) (d : DsRun) (u : Nat) : (s.holdCause n d u).getD 3 < 16 := by
  unfold State.holdCause
  dsimp only
  split_ifs <;> simp

theorem State.onlyHolds_setHold (s : State) (b : Bool) (c n : Nat) : s.onlyHolds (s.setHold b c n) := by
  obtain ⟨v, hv⟩ := s.setHold_eq b c n
  rw [hv]
  exact ⟨rfl, fun _ ho => State.reg_setReg_ne s v (List.ne_of_not_mem_cons ho)⟩

theorem State.onlyHolds.withLength {s t : State} (h : s.onlyHolds t) (l : Nat) (p : Bool) :
    s.onlyHolds { t with holdLen := l, holdReported := p } :=
  h.trans ⟨rfl, fun _ _ => rfl⟩

theorem State.held_withLength (s : State) (l : Nat) (p : Bool) : ({ s with holdLen := l, holdReported := p } : State).held = s.held := rfl

/-- A hold that begins is in its first array cycle. -/
def State.beginHold (s u : State) : State := if s.held then u else { u with holdLen := 1, holdReported := false }

theorem State.onlyHolds.beginHold {s u : State} (h : s.onlyHolds u) : s.onlyHolds (s.beginHold u) := by
  unfold State.beginHold
  split
  · exact h
  · exact h.withLength 1 false

theorem State.held_beginHold (s u : State) : (s.beginHold u).held = u.held := by
  unfold State.beginHold
  split
  · rfl
  · exact u.held_withLength 1 false

/-- The stream or the barrier that holds, with its cause. -/
def State.holder (s : State) : Option (Nat × Fin 256) :=
  match s.streamHolding, s.barrierHolding with
  | some (n, d, u), _ => some ((s.holdCause n d u).getD 3, n)
  | none, some n => some (9, n)
  | none, none => none

theorem State.holder_cause_lt {s : State} {c : Nat} {n : Fin 256} (h : s.holder = some (c, n)) : c < 16 := by
  unfold State.holder at h
  split at h
  · obtain ⟨rfl, rfl⟩ := Prod.mk.inj (Option.some.inj h)
    exact s.holdCause_lt _ _ _
  · obtain ⟨rfl, rfl⟩ := Prod.mk.inj (Option.some.inj h)
    decide
  · exact nomatch h

theorem State.holder_isSome (s : State) : s.holder.isSome = true ↔ s.streamHolding.isSome = true ∨ s.barrierHolding.isSome = true := by
  unfold State.holder
  split
  next h => simp [h]
  next h k => simp [h, k]
  next h k => simp [h, k]

theorem State.assessHold_of_holder {s : State} (hr : s.running = true) {c : Nat} {n : Fin 256} (h : s.holder = some (c, n)) :
    s.assessHold = s.beginHold (s.setHold true c n) := by
  unfold State.holder at h
  unfold State.assessHold State.beginHold
  rw [hr]
  dsimp only
  rw [if_neg (by decide)]
  cases hk : s.streamHolding with
  | some p =>
    rw [hk] at h
    obtain ⟨rfl, rfl⟩ := Prod.mk.inj (Option.some.inj h)
    rfl
  | none =>
    cases hb : s.barrierHolding with
    | some m =>
      rw [hk, hb] at h
      obtain ⟨rfl, rfl⟩ := Prod.mk.inj (Option.some.inj h)
      rfl
    | none =>
      rw [hk, hb] at h
      exact nomatch h

theorem State.assessHold_of_no_holder {s : State} (h : s.running = false ∨ s.holder = none) :
    s.assessHold = { (s.setHold false 0 0) with holdLen := 0, holdReported := false } := by
  unfold State.assessHold
  obtain hr | h := h
  · rw [hr]
    exact if_pos rfl
  · unfold State.holder at h
    cases hk : s.streamHolding with
    | some p =>
      rw [hk] at h
      exact nomatch h
    | none =>
      cases hb : s.barrierHolding with
      | some m =>
        rw [hk, hb] at h
        exact nomatch h
      | none => exact ite_self _

theorem State.assessHold_cases (s : State) :
    (∃ c n, s.running = true ∧ s.holder = some (c, n) ∧ s.assessHold = s.beginHold (s.setHold true c n)) ∨
    ((s.running = false ∨ s.holder = none) ∧
      s.assessHold = { (s.setHold false 0 0) with holdLen := 0, holdReported := false }) := by
  cases hr : s.running with
  | false => exact .inr ⟨.inl rfl, State.assessHold_of_no_holder (.inl hr)⟩
  | true => cases hh : s.holder with
    | none => exact .inr ⟨.inr rfl, State.assessHold_of_no_holder (.inr hh)⟩
    | some p => exact .inl ⟨p.1, p.2, rfl, rfl, State.assessHold_of_holder hr hh⟩

theorem State.onlyHolds_assessHold (s : State) : s.onlyHolds s.assessHold := by
  obtain ⟨c, n, -, -, he⟩ | ⟨-, he⟩ := s.assessHold_cases
  · rw [he]
    exact (s.onlyHolds_setHold true c n).beginHold
  · rw [he]
    exact (s.onlyHolds_setHold false 0 0).withLength 0 false

theorem State.held_assessHold (s : State) : s.assessHold.held = (s.running && s.holder.isSome) := by
  obtain ⟨c, n, hr, hh, he⟩ | ⟨h, he⟩ := s.assessHold_cases
  · rw [he, hr, hh, State.held_beginHold]
    exact s.held_setHold true (State.holder_cause_lt hh) n.isLt
  · have hf : (s.running && s.holder.isSome) = false := by
      obtain hr | hh := h
      · rw [hr, Bool.false_and]
      · rw [hh, Option.isSome_none, Bool.and_false]
    rw [he, hf, State.held_withLength]
    exact s.held_setHold false (by decide : 0 < 16) (by decide : 0 < 256)

/-- A hold that begins lasts one array cycle so far. -/
theorem State.holdLen_assessHold {s : State} (hr : s.running = true) (hh : s.holder.isSome = true) (hs : s.held = false) :
    s.assessHold.holdLen = 1 := by
  obtain ⟨⟨c, n⟩, hp⟩ := Option.isSome_iff_exists.mp hh
  rw [State.assessHold_of_holder hr hp]
  unfold State.beginHold
  rw [if_neg (by simp [hs])]

/-- STR_HOLD_LONG is set, with the stream that holds, unless it is set. -/
def State.markLongHold (s : State) : State :=
  if s.bit R.strHoldLong 31 then s
  else (s.setReg R.strHoldLong (BitVec.ofNat 32 (2 ^ 31 + s.fld R.strHold 0 8))).noteSet R.strHoldLong 0x80000000

theorem State.onlyRegs_markLongHold (s : State) : s.onlyRegs s.markLongHold [R.strHoldLong] := by
  unfold State.markLongHold
  split
  · exact ⟨rfl, fun _ _ => rfl⟩
  · exact ⟨rfl, fun o ho => State.reg_setReg_ne s _ (List.ne_of_not_mem_cons ho)⟩

theorem reportLongHold_of_due {s : State} (hh : s.held = true) (h0 : 0 < (s.reg R.strHoldLimit).toNat)
    (hl : (s.reg R.strHoldLimit).toNat ≤ s.holdLen) (hr : s.holdReported = false) :
    reportLongHold s = { (s.markLongHold.mcEvent 2 (s.fld R.strHold 0 8) 0 none 0) with holdReported := true } :=
  if_pos (by simp [hh, h0, hl, hr])

theorem reportLongHold_of_reported {s : State} (hr : s.holdReported = true) : reportLongHold s = s :=
  if_neg (by simp [hr])

theorem onlyHolds_reportLongHold (s : State) : s.onlyHolds (reportLongHold s) ∧ (reportLongHold s).holdLen = s.holdLen := by
  unfold reportLongHold
  dsimp only
  split
  · have k := s.onlyRegs_markLongHold
    refine ⟨⟨?_, fun o ho => ?_⟩, ?_⟩
    · unfold State.markLongHold at k
      generalize (if s.bit R.strHoldLong 31 = true then s else _) = u at k ⊢
      obtain ⟨k, -⟩ := k
      rw [k]
      rfl
    · simp only [List.mem_cons, List.not_mem_nil, or_false, not_or] at ho
      exact (State.reg_bump_ne _ _ ho.2.2).trans (k.2 o (by simp [ho.2.1]))
    · unfold State.markLongHold at k
      generalize (if s.bit R.strHoldLong 31 = true then s else _) = u at k ⊢
      obtain ⟨k, -⟩ := k
      rw [k]
      rfl
  · exact ⟨⟨rfl, fun _ _ => rfl⟩, rfl⟩

theorem held_reportLongHold (s : State) : (reportLongHold s).held = s.held := by
  unfold reportLongHold
  dsimp only
  split
  · refine (State.bit_congr ?_ 31)
    refine (State.reg_bump_ne _ _ (by decide)).trans ?_
    exact (s.onlyRegs_markLongHold).2 _ (by decide)
  · rfl

/-- R216: hold asserted in the array cycle a tile or a barrier falls due in. -/
theorem State.assertHold_spec {s : State} (hr : s.running = true) (hs : s.held = false) :
    s.onlyHolds s.assertHold ∧ s.assertHold.held = s.holder.isSome ∧ (s.holder.isSome = true → s.assertHold.holdLen = 1) := by
  have he : s.assertHold = reportLongHold s.assessHold := if_neg (by simp [hs])
  obtain ⟨k, hl⟩ := onlyHolds_reportLongHold s.assessHold
  rw [he]
  refine ⟨s.onlyHolds_assessHold.trans k, ?_, fun hh => hl.trans (State.holdLen_assessHold hr hh hs)⟩
  rw [held_reportLongHold, State.held_assessHold, hr, Bool.true_and]

theorem State.assertHold_of_held {s : State} (hs : s.held = true) : s.assertHold = s := if_pos hs

theorem State.mem_enabledStreams {s : State} {n : Fin 256} {d : DsRun} (h : s.stream n = some d) : (n, d) ∈ s.enabledStreams := by
  have hm : (n.val, some d) ∈ s.ds := by
    unfold State.stream at h
    revert h
    generalize s.ds = m
    induction m with
    | nil => exact fun h => nomatch h
    | cons p t ih =>
      intro h
      rw [sget_cons] at h
      split at h
      next hk =>
        obtain ⟨k, v⟩ := p
        dsimp only at hk h
        subst hk h
        exact List.mem_cons_self
      next hk => exact List.mem_cons_of_mem _ (ih h)
  exact List.mem_filterMap.mpr ⟨_, hm, by simp⟩

/-- R216: a stream whose due tile is in no ready slot holds. -/
theorem State.streamHolding_isSome {s : State} {n : Fin 256} {d : DsRun} {u : Nat} (h : s.stream n = some d)
    (hd : d.dueTile s.sc = some u) (hs : d.slotReady u = false) : s.streamHolding.isSome = true := by
  unfold State.streamHolding
  rw [List.findSome?_isSome_iff]
  exact ⟨_, State.mem_enabledStreams h, by simp [hd, hs]⟩

/-!
### The end of an array cycle (R207, R220, R365)
-/

theorem State.countHold_shape (s : State) (c n : Nat) : ∃ r, s.countHold c n = { s with regs := r } := ⟨_, rfl⟩

theorem State.resolveWhere_shape (s : State) (p : Deferred → Bool) :
    ∃ r, s.resolveWhere p = { s with regs := r, deferred := s.deferred.filter (fun x => ! p x) } := by
  obtain ⟨r, hr⟩ := State.foldl_regs_shape (f := fun u (x : Deferred) => u.countHold (s.deferredCause x) x.cycles)
    (s.deferred.filter p) (fun u x => u.countHold_shape _ _) s
  exact ⟨r, by unfold State.resolveWhere; rw [hr]⟩

theorem State.countHeldCycle_shape (s : State) : ∃ r d, s.countHeldCycle = { s with regs := r, deferred := d } := by
  unfold State.countHeldCycle
  dsimp only
  split
  · exact ⟨_, _, rfl⟩
  · obtain ⟨r, hr⟩ := s.countHold_shape (s.fld R.strHold 24 4) 1
    exact ⟨r, s.deferred, hr⟩

/-- The schedule counter at the end of an array cycle of the step. -/
def State.advanceSchedule (s : State) : State :=
  if s.held then s.countHeldCycle
  else (if s.barriers.contains s.sc then s.setFld R.strBarriers 8 8 (s.fld R.strBarriers 8 8 + 1) else s).setReg64 R.strScLo
    ((s.sc + 1) % 2 ^ 48)

theorem State.setReg64_shape (s : State) (off v : Nat) : ∃ r, s.setReg64 off v = { s with regs := r } := ⟨_, rfl⟩

theorem State.setFld_shape (s : State) (off lo n v : Nat) : ∃ r, s.setFld off lo n v = { s with regs := r } := ⟨_, rfl⟩

theorem State.advanceSchedule_shape (s : State) : ∃ r d, s.advanceSchedule = { s with regs := r, deferred := d } := by
  unfold State.advanceSchedule
  split
  · exact s.countHeldCycle_shape
  · split
    · obtain ⟨r, hr⟩ := s.setFld_shape R.strBarriers 8 8 (s.fld R.strBarriers 8 8 + 1)
      rw [hr]
      obtain ⟨r', hr'⟩ := State.setReg64_shape { s with regs := r } R.strScLo ((s.sc + 1) % 2 ^ 48)
      exact ⟨r', s.deferred, hr'⟩
    · obtain ⟨r', hr'⟩ := s.setReg64_shape R.strScLo ((s.sc + 1) % 2 ^ 48)
      exact ⟨r', s.deferred, hr'⟩

theorem State.sc_advanceSchedule (s : State) : s.advanceSchedule.sc = if s.held then s.sc else (s.sc + 1) % 2 ^ 48 := by
  unfold State.advanceSchedule
  split
  · exact State.reg64_congr (s.reg_countHeldCycle_of_lt (by decide)) (s.reg_countHeldCycle_of_lt (by decide))
  · refine (State.reg64_setReg64 _ _ _).trans ?_
    omega

theorem State.endArrayCycle_of_ending {s : State} (hr : s.running = true) (he : s.stepEnding = true) :
    s.endArrayCycle = { (s.advanceSchedule.resolveHolds.setBit R.strRun 31 false) with stepEnding := false, stepEndSeen := true } := by
  have hend : s.advanceSchedule.resolveHolds.stepEnding = true := by
    obtain ⟨r, d, ha⟩ := s.advanceSchedule_shape
    obtain ⟨r', hw⟩ := s.advanceSchedule.resolveWhere_shape s.advanceSchedule.decided
    unfold State.resolveHolds
    rw [hw, ha]
    exact he
  refine (if_neg (by simp [hr])).trans (if_pos hend)

/-- R207: the array cycle a step-end strobe lies in is the step's last. -/
theorem State.endArrayCycle_of_strobe {s : State} (hr : s.running = true) (he : s.stepEnding = true) :
    s.endArrayCycle.running = false ∧ s.endArrayCycle.stepEnding = false ∧ s.endArrayCycle.stepEndSeen = true ∧
      s.endArrayCycle.sc = (if s.held then s.sc else (s.sc + 1) % 2 ^ 48) ∧ s.sameMem s.endArrayCycle := by
  rw [State.endArrayCycle_of_ending hr he]
  refine ⟨State.bit_setBit_self _ _ _ _ (by decide), rfl, rfl, ?_, fun a => ?_⟩
  · refine Eq.trans ?_ s.sc_advanceSchedule
    have keeps (o : Nat) (h : o ≠ R.strRun) (hl : o < R.holdCurLo 0) :
        (s.advanceSchedule.resolveHolds.setBit R.strRun 31 false).reg o = s.advanceSchedule.reg o :=
      (State.reg_setBit_ne _ _ _ h).trans (State.reg_resolveWhere_of_lt _ _ hl)
    exact State.reg64_congr (keeps _ (by decide) (by decide)) (keeps _ (by decide) (by decide))
  · obtain ⟨r, d, ha⟩ := s.advanceSchedule_shape
    obtain ⟨r', hw⟩ := s.advanceSchedule.resolveWhere_shape s.advanceSchedule.decided
    unfold State.resolveHolds
    rw [hw, ha]
    rfl
/-!
### O38
-/

theorem stepStart_of_fresh {s : State} (hf : s.boundaryFresh = true) (hr : s.running = false) :
    stepStart s = reportLongHold ({ (s.setBit R.strRun 31 true) with boundaryFresh := false } : State).assessHold :=
  if_pos (by simp [hf, hr])

theorem stepStart_of_stale {s : State} (h : s.boundaryFresh = false ∨ s.running = true) : stepStart s = s.hwSet R.strRun 30 :=
  if_neg (by
    obtain h | h := h
    · simp [h]
    · simp [h])

/-- R207: what a step-start strobe after a fresh boundary does. -/
theorem stepStart_spec {s : State} (hf : s.boundaryFresh = true) (hr : s.running = false) :
    ∃ t, stepStart s = t ∧ t.running = true ∧ t.boundaryFresh = false ∧
      t = { s with regs := t.regs, now := t.now, later := t.later, boundaryFresh := false, holdLen := t.holdLen,
                   holdReported := t.holdReported } ∧
      s.regsBut t [R.strRun, R.strHold, R.strHoldLong, R.mcCount] := by
  have hb : (s.setBit R.strRun 31 true).running = true := State.bit_setBit_self _ _ _ _ (by decide)
  have hne (o : Nat) (ho : o ≠ R.strRun) : (s.setBit R.strRun 31 true).reg o = s.reg o := State.reg_setBit_ne s 31 true ho
  obtain ⟨r, hs⟩ : ∃ r, s.setBit R.strRun 31 true = { s with regs := r } := ⟨_, rfl⟩
  rw [hs] at hb hne
  rw [stepStart_of_fresh hf hr, hs]
  let u : State := { s with regs := r, boundaryFresh := false }
  have k : u.onlyHolds (reportLongHold u.assessHold) := u.onlyHolds_assessHold.trans (onlyHolds_reportLongHold u.assessHold).1
  refine ⟨_, rfl, k.running.trans hb, by rw [k.1], k.1.trans rfl, fun o ho => ?_⟩
  have hn := List.ne_of_not_mem_cons ho
  exact (k.2 o (List.not_mem_of_not_mem_cons ho)).trans (hne o hn)

theorem State.onlyRegs_hwSet (s : State) (off i : Nat) : s.onlyRegs (s.hwSet off i) [off] :=
  ⟨rfl, fun _ ho => State.reg_hwSet_ne s i (List.ne_of_not_mem_cons ho)⟩

theorem tileDeadline_of_due {s : State} {n tile : Nat} {d : DsRun} (hd : s.stream n = some d) (hr : s.running = true)
    (ht : d.dueTile s.sc = some tile) (hs : d.slotReady tile = false) : tileDeadline n tile s = s.assertHold := by
  unfold tileDeadline
  rw [hd]
  exact if_pos (by simp [hr, ht, hs])

theorem barrierCycle_of_due {s : State} (hr : s.running = true) (hb : s.barriers.contains s.sc = true) :
    barrierCycle s = s.assertHold := if_pos (by rw [hr, hb]; rfl)

/-- R221: what STR_HOLD_LONG shows of a hold that is reported. -/
theorem State.markLongHold_spec (s : State) :
    s.markLongHold.bit R.strHoldLong 31 = true ∧
      (s.bit R.strHoldLong 31 = false → s.markLongHold.fld R.strHoldLong 0 8 = s.fld R.strHold 0 8) ∧
      (s.bit R.strHoldLong 31 = true → s.markLongHold.reg R.strHoldLong = s.reg R.strHoldLong) := by
  unfold State.markLongHold
  have hn : s.fld R.strHold 0 8 < 2 ^ 8 := getField_lt _ 0 8
  split
  next h => exact ⟨h, fun hf => absurd h (by simp [hf]), fun _ => rfl⟩
  next h =>
    refine ⟨?_, fun _ => ?_, fun ht => absurd ht h⟩
    · refine (State.bit_setReg_ofNat s R.strHoldLong 31 _).trans (decide_eq_true ?_)
      omega
    · refine (State.fld_setReg_ofNat s R.strHoldLong 0 8 _).trans ?_
      omega

/-- R221: what the report of a long hold does. -/
theorem reportLongHold_spec {s : State} (hh : s.held = true) (h0 : 0 < (s.reg R.strHoldLimit).toNat)
    (hl : (s.reg R.strHoldLimit).toNat ≤ s.holdLen) (hr : s.holdReported = false) :
    ∃ t, reportLongHold s = t ∧ t.holdReported = true ∧
      t.reg R.mcCount = satAdd (s.reg R.mcCount) 1 ∧ t.bit R.strHoldLong 31 = true ∧
      (s.bit R.strHoldLong 31 = false → t.fld R.strHoldLong 0 8 = s.fld R.strHold 0 8) ∧
      (s.bit R.strHoldLong 31 = true → t.reg R.strHoldLong = s.reg R.strHoldLong) ∧
      t.later.events = s.later.events ++
        [{ source := 2, unit := s.fld R.strHold 0 8, status := 0, task := none, addr := 0, time := s.gtc }] ∧
      t = { s with regs := t.regs, now := t.now, later := t.later, holdReported := true } ∧
      s.regsBut t [R.mcCount, R.strHoldLong] := by
  obtain ⟨hbit, hnew, hold⟩ := s.markLongHold_spec
  obtain ⟨hshape, hregs⟩ := s.onlyRegs_markLongHold
  have hlater : s.markLongHold.later = s.later := by
    unfold State.markLongHold
    split <;> rfl
  have hg : s.markLongHold.gtc = s.gtc := State.reg64_congr (hregs _ (by decide)) (hregs _ (by decide))
  refine ⟨_, reportLongHold_of_due hh h0 hl hr, rfl, ?_, ?_, ?_, ?_, ?_, ?_, ?_⟩
  · refine (State.reg_bump_self _ _ _).trans ?_
    rw [hregs _ (by decide)]
  · exact (State.bit_congr (State.reg_bump_ne _ _ (by decide)) 31).trans hbit
  · exact fun h => (State.fld_congr (State.reg_bump_ne _ _ (by decide)) 0 8).trans (hnew h)
  · exact fun h => (State.reg_bump_ne _ _ (by decide)).trans (hold h)
  · show s.markLongHold.later.events ++ [_] = _
    rw [hlater, hg]
  · generalize s.markLongHold = u at hshape ⊢
    rw [hshape]
    rfl
  · intro o ho
    simp only [List.mem_cons, List.not_mem_nil, or_false, not_or] at ho
    exact (State.reg_bump_ne _ _ ho.1).trans (hregs o (by simp [ho.2]))

/-- Settles O38: what the strobes, the deadlines and the barriers do is read off the assessment of the hold, which writes three
registers alone. -/
theorem strobesAndHold : Obligations.StrobesAndHold := by
  unfold Obligations.StrobesAndHold
  refine ⟨fun s => ⟨fun hf hr => ?_, fun h => ?_, fun hr => ?_, fun hr => ?_, fun hr he => ?_⟩, ?_, ?_, ?_⟩
  · obtain ⟨t, ht, hspec⟩ := stepStart_spec hf hr
    exact ⟨t, congrArg Host.Outcome.next ht, hspec⟩
  · refine ⟨_, congrArg Host.Outcome.next (stepStart_of_stale h), s.bit_hwSet_self _ _ (by decide), ?_, s.onlyRegs_hwSet _ _⟩
    exact State.bit_setBit_other s R.strRun 30 31 true (by decide)
  · exact congrArg Host.Outcome.next (if_pos hr)
  · have he : stepEnd s = s.hwSet R.strRun 30 := if_neg (by simp [hr])
    refine ⟨_, congrArg Host.Outcome.next he, s.bit_hwSet_self _ _ (by decide), ?_, s.onlyRegs_hwSet _ _⟩
    exact (State.bit_setBit_other s R.strRun 30 31 true (by decide)).trans hr
  · obtain ⟨hrun, hend, hseen, hsc, hmem⟩ := State.endArrayCycle_of_strobe hr he
    refine ⟨hrun, hend, hseen, fun hh => ?_, fun hh => ?_, hmem⟩
    · rw [hsc, hh]
      rfl
    · rw [hsc, hh]
      rfl
  · intro n tile s d hd hr ht hs
    have he : exec (.tileDeadline n tile) s = .next s.assertHold := congrArg Host.Outcome.next (tileDeadline_of_due hd hr ht hs)
    refine ⟨fun hh => ?_, fun hh => by rw [he, State.assertHold_of_held hh]⟩
    have hsome : s.holder.isSome = true := s.holder_isSome.mpr (.inl (State.streamHolding_isSome hd ht hs))
    obtain ⟨k, hheld, hlen⟩ := State.assertHold_spec hr hh
    refine ⟨_, he, hheld.trans hsome, k.sc, ?_, k.2⟩
    have hk := k.1
    rw [hlen hsome] at hk
    exact hk
  · intro s hr hb
    have he : exec .barrierCycle s = .next s.assertHold := congrArg Host.Outcome.next (barrierCycle_of_due hr hb)
    refine ⟨fun hh => ?_, fun hh => by rw [he, State.assertHold_of_held hh]⟩
    obtain ⟨k, hheld, -⟩ := State.assertHold_spec hr hh
    exact ⟨_, he, by rw [hheld, State.holder_isSome], k.sc, k.1, k.2⟩
  · intro s hh h0 hl
    refine ⟨fun hr => ?_, fun hr => congrArg Host.Outcome.next (reportLongHold_of_reported hr)⟩
    obtain ⟨t, ht, hspec⟩ := reportLongHold_spec hh h0 hl hr
    exact ⟨t, congrArg Host.Outcome.next ht, hspec⟩

end Sys2Proof.Machine
end

section
namespace Sys2Proof.Machine

open Sys2Proof

/-!
### Streams, credits and generation words (R215, R222, R228)
-/

theorem State.setReg_shape (s : State) (off : Nat) (v : Word) : ∃ r, s.setReg off v = { s with regs := r } := ⟨_, rfl⟩

theorem State.stream_putStream_self (s : State) (n : Nat) (d : DsRun) : (s.putStream n d).stream n = some d :=
  sget_sset_self (fun _ => none) s.ds n (some d)

theorem State.stream_putStream_ne (s : State) {n k : Nat} (d : DsRun) (h : k ≠ n) : (s.putStream n d).stream k = s.stream k :=
  sget_sset_ne (fun _ => none) s.ds (some d) h

/-- A stream that has failed is released. -/
def State.releaseIfFailed (s u : State) (x : Fin 256 × DsRun) : State :=
  if s.streamFailed x.1 then u.putStream x.1 { x.2 with released := true } else u

theorem State.releaseIfFailed_shape (s u : State) (x : Fin 256 × DsRun) : ∃ d, s.releaseIfFailed u x = { u with ds := d } := by
  unfold State.releaseIfFailed
  split
  · exact ⟨_, rfl⟩
  · exact ⟨u.ds, rfl⟩

/-- A stream that has not failed stays as it is. -/
theorem State.stream_releaseIfFailed_of_sound {s u : State} {x : Fin 256 × DsRun} {n : Fin 256} (h : s.streamFailed n = false) :
    (s.releaseIfFailed u x).stream n = u.stream n := by
  unfold State.releaseIfFailed
  split
  next hf => exact u.stream_putStream_ne _ (fun he => by rw [← he, h] at hf; exact Bool.noConfusion hf)
  next => rfl

/-- Is a stream there, and released? -/
def State.isReleased (s : State) (n : Fin 256) : Prop := ∃ e, s.stream n = some e ∧ e.released = true

theorem State.isReleased_releaseIfFailed {s u : State} {x : Fin 256 × DsRun} {n : Fin 256} (h : s.streamFailed n = true)
    (hx : x.1 = n ∨ u.isReleased n) : (s.releaseIfFailed u x).isReleased n := by
  unfold State.releaseIfFailed
  by_cases he : x.1 = n
  · rw [he, if_pos h]
    exact ⟨_, u.stream_putStream_self _ _, rfl⟩
  · obtain ⟨e, hu, hr⟩ := hx.resolve_left he
    split
    · exact ⟨e, (u.stream_putStream_ne _ (fun hn => he (Fin.ext hn.symm))).trans hu, hr⟩
    · exact ⟨e, hu, hr⟩

theorem State.isReleased_foldl {s : State} {n : Fin 256} (h : s.streamFailed n = true) (l : List (Fin 256 × DsRun)) (u : State)
    (hx : (∃ d, (n, d) ∈ l) ∨ u.isReleased n) : (l.foldl s.releaseIfFailed u).isReleased n := by
  induction l generalizing u with
  | nil => exact hx.resolve_left (fun ⟨_, hd⟩ => nomatch hd)
  | cons x l ih =>
    refine ih _ ?_
    obtain ⟨d, hd⟩ | hu := hx
    · obtain rfl | hl := List.mem_cons.mp hd
      · exact .inr (State.isReleased_releaseIfFailed h (.inl rfl))
      · exact .inl ⟨d, hl⟩
    · exact .inr (State.isReleased_releaseIfFailed h (.inr hu))

theorem releaseFailed_eq {v : Word} (hv : getField v 0 1 = 1) (s : State) :
    releaseFailed v s = s.enabledStreams.foldl s.releaseIfFailed s :=
  if_neg (by omega)

/-- R222: RELEASE_FAILED releases the streams that have failed and no other. -/
theorem releaseFailed_spec {v : Word} (hv : getField v 0 1 = 1) (s : State) :
    ∃ t, releaseFailed v s = t ∧ t = { s with ds := t.ds } ∧
      ∀ n : Fin 256, (s.streamFailed n = true → ∀ d, s.stream n = some d → ∃ e, t.stream n = some e ∧ e.released = true) ∧
        (s.streamFailed n = false → t.stream n = s.stream n) := by
  refine ⟨_, releaseFailed_eq hv s, ?_, fun n => ⟨fun hf d hd => ?_, fun hf => ?_⟩⟩
  · obtain ⟨d, hd⟩ : ∃ d, s.enabledStreams.foldl s.releaseIfFailed s = { s with ds := d } :=
      List.foldlRecOn (motive := fun u : State => ∃ d, u = { s with ds := d }) s.enabledStreams s.releaseIfFailed ⟨s.ds, rfl⟩
        (fun u ⟨d, hd⟩ x _ => by
          obtain ⟨d', h⟩ := s.releaseIfFailed_shape u x
          exact ⟨d', by rw [h, hd]⟩)
    rw [hd]
  · exact State.isReleased_foldl hf _ s (.inl ⟨d, State.mem_enabledStreams hd⟩)
  · exact List.foldlRecOn (motive := fun u : State => u.stream n = s.stream n) s.enabledStreams s.releaseIfFailed rfl
      (fun u hu x _ => (State.stream_releaseIfFailed_of_sound hf).trans hu)

theorem addCredits_of_lt {s : State} {n : Nat} {v : Word} (h : (s.reg (R.crdVal n)).toNat + v.toNat < 2 ^ 32) :
    addCredits n v s = s.setReg (R.crdVal n) (BitVec.ofNat 32 ((s.reg (R.crdVal n)).toNat + v.toNat)) := if_pos h

theorem addCredits_of_ge {s : State} {n : Nat} {v : Word} (h : 2 ^ 32 ≤ (s.reg (R.crdVal n)).toNat + v.toNat) :
    addCredits n v s = (s.setReg (R.crdVal n) 0xFFFFFFFF).hwSet (R.crdStatus n) 31 := if_neg (by omega)

theorem crdStatus_ne_crdVal (n : Nat) : R.crdVal n ≠ R.crdStatus n := by
  simp only [R.crdVal, R.crdStatus]
  omega

theorem onlyRegs_addCredits_of_ge {s : State} {n : Nat} {v : Word} (h : 2 ^ 32 ≤ (s.reg (R.crdVal n)).toNat + v.toNat) :
    s.onlyRegs (addCredits n v s) [R.crdVal n, R.crdStatus n] := by
  rw [addCredits_of_ge h]
  refine ⟨rfl, fun o ho => ?_⟩
  simp only [List.mem_cons, List.not_mem_nil, or_false, not_or] at ho
  exact (State.reg_hwSet_ne _ _ ho.2).trans (State.reg_setReg_ne s _ ho.1)

/-- The lower of two tiles. -/
def lowerTile (m : Option Nat) (i : Nat) : Option Nat := match m with | none => some i | some j => some (min i j)

theorem lowerTile_eq (m : Option Nat) (i : Nat) : ∃ k, lowerTile m i = some k ∧ (k = i ∨ m = some k) ∧ k ≤ i ∧ ∀ j, m = some j → k ≤ j := by
  cases m with
  | none => exact ⟨i, rfl, .inl rfl, le_refl i, fun j h => nomatch h⟩
  | some j =>
    refine ⟨min i j, rfl, ?_, min_le_left i j, fun j' h => ?_⟩
    · obtain h | h := min_choice i j
      · exact .inl h
      · exact .inr (congrArg some h.symm)
    · obtain rfl := Option.some.inj h
      exact min_le_right i j

theorem foldl_lowerTile {l : List Nat} {m : Option Nat} {i : Nat} (h : l.foldl lowerTile m = some i) :
    (i ∈ l ∨ m = some i) ∧ (∀ j ∈ l, i ≤ j) ∧ ∀ j, m = some j → i ≤ j := by
  induction l generalizing m with
  | nil => exact ⟨.inr h, fun j hj => absurd hj List.not_mem_nil, fun j hj => (Option.some.inj (h.symm.trans hj)).le⟩
  | cons x l ih =>
    obtain ⟨hmem, hle, hm⟩ := ih h
    obtain ⟨k, hk, hc, hx, hj⟩ := lowerTile_eq m x
    have hik := hm k hk
    refine ⟨?_, fun j hj' => ?_, fun j hj' => hik.trans (hj j hj')⟩
    · obtain hl | he := hmem
      · exact .inl (List.mem_cons_of_mem _ hl)
      · obtain rfl := Option.some.inj (hk.symm.trans he)
        obtain rfl | hm' := hc
        · exact .inl List.mem_cons_self
        · exact .inr hm'
    · obtain rfl | hl := List.mem_cons.mp hj'
      · exact hik.trans hx
      · exact hle j hl

/-- R215: the tile whose generation word comes next is the lowest of those that await one. -/
theorem DsRun.nextGen_spec {d : DsRun} {i : Nat} (h : d.nextGen = some i) :
    i ∈ d.ready ∧ i ∉ d.genIssued ∧ i ∉ d.voided ∧ ∀ j, j ∈ d.ready → j ∉ d.genIssued → j ∉ d.voided → i ≤ j := by
  have hf : (d.ready.filter (fun i => ! d.genIssued.contains i && ! d.voided.contains i)).foldl lowerTile none = some i := h
  obtain ⟨hmem, hle, -⟩ := foldl_lowerTile hf
  have hi := hmem.resolve_right (fun e => nomatch e)
  simp only [List.mem_filter, Bool.and_eq_true, Bool.not_eq_true', List.contains_eq_mem, decide_eq_false_iff_not] at hi hle
  exact ⟨hi.1, hi.2.1, hi.2.2, fun j hr hg hv => hle j ⟨hr, hg, hv⟩⟩

/-- R215: the write of a generation word. -/
theorem State.writeMem_putStream_spec (s : State) (n : Nat) (d : DsRun) (a v : Nat) :
    ∃ t, (s.writeMem a (leBytes 8 v)).putStream n d = t ∧ t.readMem a 8 = leBytes 8 v ∧ s.sameMemBut t a 8 ∧ t.stream n = some d ∧
      t = { s with mem := t.mem, ds := t.ds, now := t.now } := by
  have hl : (leBytes 8 v).length = 8 := leBytes_length 8 v
  generalize leBytes 8 v = bs at hl ⊢
  have hm := s.readMem_writeMem_self a bs
  have hb := s.sameMemBut_writeMem a bs
  rw [hl] at hm hb
  exact ⟨_, rfl, hm, hb, State.stream_putStream_self _ _ _, rfl⟩

theorem writeGeneration_of_next {s : State} {n i : Nat} {d : DsRun} (hd : s.stream n = some d) (hi : d.nextGen = some i) :
    writeGeneration n s = (s.writeMem (d.genAddr i) (leBytes 8 (s.genWord d i))).putStream n { d with genIssued := d.genIssued ++ [i] } := by
  simp only [writeGeneration, hd, hi]

theorem writeGeneration_of_none {s : State} {n : Nat} {d : DsRun} (hd : s.stream n = some d) (hi : d.nextGen = none) :
    writeGeneration n s = s := by
  simp only [writeGeneration, hd, hi]

theorem completeTile_of_none {s : State} {n : Nat} {d : DsRun} (hd : s.stream n = some d)
    (hi : d.genIssued.find? (fun i => ! d.done.contains i) = none) : completeTile n s = s := by
  simp only [completeTile, hd, hi]

/-- A tile is done, and DS_DONE shows how far the tiles are done without gaps. -/
def State.tileDone (s : State) (n : Nat) (d : DsRun) : State :=
  (s.putStream n d).setReg (R.dsDone n) (BitVec.ofNat 32 (doneFrom d.done d.done.length 0))

theorem completeTile_of_some {s : State} {n i : Nat} {d : DsRun} (hd : s.stream n = some d)
    (hi : d.genIssued.find? (fun i => ! d.done.contains i) = some i) :
    completeTile n s = (s.tileDone n { d with done := d.done ++ [i] }).resolveHolds := by
  simp only [completeTile, hd, hi]
  rfl

theorem dsDone_lt_holdCur {n : Nat} (h : n < 256) : R.dsDone n < R.holdCurLo 0 := by
  simp only [R.dsDone, R.holdCurLo]
  omega

/-- R215: the acknowledgement of a generation word completes its tile. -/
theorem tileDone_resolved {s : State} {n : Nat} (hn : n < 256) (d : DsRun) :
    ∃ t, (s.tileDone n d).resolveHolds = t ∧ t.stream n = some d ∧
      t.reg (R.dsDone n) = BitVec.ofNat 32 (doneFrom d.done d.done.length 0) ∧
      t = { s with regs := t.regs, ds := t.ds, deferred := t.deferred } := by
  have hreg : (s.tileDone n d).resolveHolds.reg (R.dsDone n) = BitVec.ofNat 32 (doneFrom d.done d.done.length 0) :=
    (State.reg_resolveWhere_of_lt _ _ (dsDone_lt_holdCur hn)).trans (State.reg_setReg_self _ _ _)
  obtain ⟨r, hw⟩ := (s.tileDone n d).resolveWhere_shape (s.tileDone n d).decided
  obtain ⟨r', hd⟩ : ∃ r', s.tileDone n d = { s.putStream n d with regs := r' } :=
    State.setReg_shape _ _ _
  have hs : (s.tileDone n d).stream n = some d := by
    rw [hd]
    exact s.stream_putStream_self n d
  refine ⟨_, rfl, ?_, hreg, ?_⟩
  · unfold State.resolveHolds
    rw [hw]
    exact hs
  · unfold State.resolveHolds
    rw [hw, hd]
    rfl

/-- Settles O39. -/
theorem streamsMoveOn : Obligations.StreamsMoveOn := by
  unfold Obligations.StreamsMoveOn
  refine ⟨fun src v s h => ⟨fun hv => ?_, fun hv => ?_⟩, fun src n v s => ⟨fun h hlt => ?_, fun h hge => ?_, fun h => ?_⟩,
    fun n s d hd => ⟨fun i hi => ?_, fun hi => ?_, fun i hi => ?_, fun hi => ?_⟩⟩
  · obtain ⟨t, ht, hspec⟩ := releaseFailed_spec hv s
    exact ⟨t, (State.regWrite_of_takesWrite h v _).trans (congrArg Host.Outcome.next ht), hspec⟩
  · exact (State.regWrite_of_takesWrite h v _).trans (congrArg Host.Outcome.next (if_pos hv))
  · refine ⟨_, (State.regWrite_of_takesWrite h v _).trans (congrArg Host.Outcome.next (addCredits_of_lt hlt)), ?_, s.onlyRegs_setReg _ _⟩
    rw [State.reg_setReg_self, BitVec.toNat_ofNat]
    exact Nat.mod_eq_of_lt hlt
  · refine ⟨_, State.regWrite_of_takesWrite h v _, ?_, ?_, onlyRegs_addCredits_of_ge hge⟩
    · rw [addCredits_of_ge hge]
      exact (State.reg_hwSet_ne _ _ (crdStatus_ne_crdVal n)).trans (State.reg_setReg_self _ _ _)
    · rw [addCredits_of_ge hge]
      exact State.bit_hwSet_self _ _ _ (by decide)
  · exact ⟨_, State.regWrite_of_takesWrite h v _, State.reg_setReg_self _ _ _, s.onlyRegs_setReg _ _⟩
  · obtain ⟨hr, hg, hv, hle⟩ := DsRun.nextGen_spec hi
    obtain ⟨t, ht, hspec⟩ := s.writeMem_putStream_spec n { d with genIssued := d.genIssued ++ [i] } (d.genAddr i) (s.genWord d i)
    exact ⟨hr, hg, hv, hle, t, congrArg Host.Outcome.next ((writeGeneration_of_next hd hi).trans ht), hspec⟩
  · exact congrArg Host.Outcome.next (writeGeneration_of_none hd hi)
  · obtain ⟨t, ht, hspec⟩ := tileDone_resolved (s := s) n.isLt { d with done := d.done ++ [i] }
    exact ⟨t, congrArg Host.Outcome.next ((completeTile_of_some hd hi).trans ht), hspec⟩
  · exact congrArg Host.Outcome.next (completeTile_of_none hd hi)

end Sys2Proof.Machine
end

section
namespace Sys2Proof.Machine

open Sys2Proof

/-!
### What the step boundary leaves in each register and table (R209, R210, R232, R365)
-/

theorem State.reg_activateStreams_of_ge (s : State) {o : Nat} (h : R.rdArrivalCfg ≤ o) : s.activateStreams.reg o = s.reg o := by
  unfold R.rdArrivalCfg at h
  unfold State.activateStreams
  refine (State.reg_withStreams _ _ o).trans
    ((State.reg_foldl (fun u k hk => ?bad) _).trans (State.reg_foldl (fun u n hn => ?table) s))
  case bad =>
    have := List.mem_range.mp hk
    rw [State.reg_setReg_ne, State.reg_setReg_ne] <;> simp only [R.strBad, R.strFailed] <;> omega
  case table =>
    have := List.mem_range.mp hn
    rw [State.reg_setReg_ne, State.reg_setReg_ne, State.reg_setReg_ne] <;> simp only [R.dsNext, R.dsDone, R.dsState] <;> omega

/-- The step as its counter, its number, its strobe and its hold stand once it has ended. -/
def State.stepEnded (s : State) : State :=
  (((s.closeHolds.setReg64 R.strScLo 0).wrapAdd R.strStep 1).setBit R.strRun 31 false).setHold false 0 0

/-- A step whose boundary has been applied by a STEP_CLOSE, and whose strobes are to come. -/
def State.freshStep (s : State) (x : Task) : State :=
  { s with
    barriers := closeBarriers x.entry, stepEnding := false, stepEndSeen := false, boundaryFresh := true, holdLen := 0,
    holdReported := false, closing := some (x.ref, true) }

theorem State.boundary_eq (s : State) (x : Task) : s.boundary x =
    ((s.stepEnded.activateStreams.setReg R.strBarriers (BitVec.ofNat 32 (closeCount x.entry))).applyEpoch).freshStep x := by
  unfold State.boundary State.stepEnded
  rfl

theorem State.reg_freshStep (s : State) (x : Task) (o : Nat) : (s.freshStep x).reg o = s.reg o := rfl

/-- The registers that the streams and the epoch are not activated in. -/
def clearOfTables (o : Nat) : Prop :=
  (o < R.strBad 0 ∨ R.rdArrivalCfg ≤ o) ∧ o ≠ R.strBarriers ∧ (∀ i < 12, o ≠ R.epochApplied i) ∧ o ≠ R.strSessionActive ∧
    o ≠ R.rdArrivalActive

theorem State.reg_staged_tables (s : State) {o : Nat} (v : Word) (h : o < R.strBad 0 ∨ R.rdArrivalCfg ≤ o) (hb : o ≠ R.strBarriers) :
    (s.activateStreams.setReg R.strBarriers v).reg o = s.reg o := by
  rw [State.reg_setReg_ne _ _ hb]
  obtain h | h := h
  · exact s.reg_activateStreams_of_lt h
  · exact s.reg_activateStreams_of_ge h

theorem State.reg_boundary_of_clear (s : State) (x : Task) {o : Nat} (h : clearOfTables o) : (s.boundary x).reg o = s.stepEnded.reg o := by
  obtain ⟨hs, hb, he, ha, hr⟩ := h
  rw [State.boundary_eq, State.reg_freshStep]
  exact (State.reg_applyEpoch_ne _ he ha hr).trans (State.reg_staged_tables _ _ hs hb)

theorem clearOfTables_of_ge {o : Nat} (h : R.holdCurLo 0 ≤ o) : clearOfTables o := by
  unfold R.holdCurLo at h
  refine ⟨.inr (by unfold R.rdArrivalCfg; omega), ?_, fun i hi => ?_, ?_, ?_⟩ <;> simp only [R.strBarriers, R.epochApplied, R.strSessionActive, R.rdArrivalActive] <;>
    omega

theorem clearOfTables_of_step {o : Nat} (h : R.strScLo ≤ o) (h' : o ≤ R.strHold) : clearOfTables o := by
  unfold R.strScLo at h
  unfold R.strHold at h'
  refine ⟨.inl ?_, ?_, fun i hi => ?_, ?_, ?_⟩ <;>
    simp only [R.strBad, R.strBarriers, R.epochApplied, R.strSessionActive, R.rdArrivalActive] <;> omega

theorem State.reg_stepEnded_of_other (s : State) {o : Nat} (h : o < R.strScLo ∨ R.strHold < o) : s.stepEnded.reg o = s.closeHolds.reg o := by
  unfold R.strScLo R.strHold at h
  unfold State.stepEnded
  rw [State.reg_setHold_ne, State.reg_setBit_ne]
  · refine (State.reg_setReg_ne _ _ ?_).trans (State.reg_setReg64_ne _ _ ?_ ?_) <;> simp only [R.strStep, R.strScLo] <;> omega
  · simp only [R.strRun]
    omega
  · simp only [R.strHold]
    omega

theorem State.sc_stepEnded (s : State) : s.stepEnded.sc = 0 := by
  have keeps (o : Nat) (h : o ≠ R.strHold) (h' : o ≠ R.strRun) (h'' : o ≠ R.strStep) :
      s.stepEnded.reg o = (s.closeHolds.setReg64 R.strScLo 0).reg o :=
    (State.reg_setHold_ne _ _ _ _ h).trans ((State.reg_setBit_ne _ _ _ h').trans (State.reg_setReg_ne _ _ h''))
  refine (State.reg64_congr (keeps _ (by decide) (by decide) (by decide)) (keeps _ (by decide) (by decide) (by decide))).trans ?_
  exact State.reg64_setReg64 _ _ _

theorem State.held_stepEnded (s : State) : s.stepEnded.held = false := State.held_setHold _ _ (by decide : 0 < 16) (by decide : 0 < 256)

theorem State.running_stepEnded (s : State) : s.stepEnded.running = false :=
  (State.bit_congr (State.reg_setHold_ne _ _ _ _ (by decide)) 31).trans (State.bit_setBit_self _ _ _ _ (by decide))

/-! ### The epoch -/

theorem State.reg_applyEpoch_epochApplied (s : State) {i : Nat} (hi : i < 12) : s.applyEpoch.reg (R.epochApplied i) = s.reg R.epochStaged := by
  unfold State.applyEpoch
  rw [State.reg_setReg_ne _ _ (by simp only [R.epochApplied, R.rdArrivalActive]; omega),
    State.reg_setReg_ne _ _ (by simp only [R.epochApplied, R.strSessionActive]; omega)]
  have key : ∀ (l : List Nat) (u : State), i ∈ l ∨ u.reg (R.epochApplied i) = s.reg R.epochStaged →
      (l.foldl (fun u i => u.setReg (R.epochApplied i) (s.reg R.epochStaged)) u).reg (R.epochApplied i) = s.reg R.epochStaged := by
    intro l
    induction l with
    | nil => exact fun u h => h.resolve_left (fun hm => nomatch hm)
    | cons j l ih =>
      refine fun u h => ih _ ?_
      rw [State.reg_setReg]
      split
      · exact .inr rfl
      next hne =>
        refine h.imp_left (fun hm => (List.mem_cons.mp hm).resolve_left (fun e => hne ?_))
        rw [e]
  exact key _ s (.inl (List.mem_range.mpr hi))

theorem State.reg_applyEpoch_rdArrivalActive (s : State) : s.applyEpoch.reg R.rdArrivalActive = s.reg R.rdArrivalCfg :=
  State.reg_setReg_self _ _ _

theorem State.reg_applyEpoch_strSessionActive (s : State) : s.applyEpoch.reg R.strSessionActive = s.reg R.strSessionCfg :=
  (State.reg_setReg_ne _ _ (by decide)).trans (State.reg_setReg_self _ _ _)

/-- A register that a boundary copies is one that the step's end leaves alone. -/
theorem State.reg_staged_copied (s : State) {o : Nat} (v : Word) (h : o < R.strBad 0 ∨ R.rdArrivalCfg ≤ o) (hc : o < R.holdCurLo 0)
    (hb : o ≠ R.strBarriers) (hs : o < R.strScLo ∨ R.strHold < o) : (s.stepEnded.activateStreams.setReg R.strBarriers v).reg o = s.reg o :=
  (State.reg_staged_tables _ v h hb).trans
    ((s.reg_stepEnded_of_other hs).trans (s.reg_closeHolds_of_lt hc))

/-! ### The hold counters -/

theorem State.reg_keepCounts_cur (s : State) (step : Word) {c : Nat} (hc : c < 16) : (s.keepCounts step).reg64 (R.holdCurLo c) = 0 := by
  have key : ∀ (l : List Nat) (u : State), (∀ j ∈ l, j < 16) → c ∈ l ∨ u.reg64 (R.holdCurLo c) = 0 →
      (l.foldl (fun u c => (u.setReg64 (R.holdLastLo c) (s.reg64 (R.holdCurLo c))).setReg64 (R.holdCurLo c) 0) u).reg64
        (R.holdCurLo c) = 0 := by
    intro l
    induction l with
    | nil => exact fun u _ h => h.resolve_left (fun hm => nomatch hm)
    | cons j l ih =>
      refine fun u hl h => ih _ (fun i hi => hl i (List.mem_cons_of_mem _ hi)) ?_
      have hj := hl j List.mem_cons_self
      by_cases he : c = j
      · subst he
        exact .inr (State.reg64_setReg64 _ _ _)
      · refine (h.imp_left (fun hm => (List.mem_cons.mp hm).resolve_left he)).imp_right (fun hz => ?_)
        refine (State.reg64_congr ?_ ?_).trans hz
        · rw [State.reg_setReg64_ne, State.reg_setReg64_ne] <;> simp only [R.holdCurLo, R.holdLastLo] <;> omega
        · rw [State.reg_setReg64_ne, State.reg_setReg64_ne] <;> simp only [R.holdCurLo, R.holdLastLo] <;> omega
  unfold State.keepCounts
  refine (State.reg64_congr ?_ ?_).trans (key _ s (fun j hj => List.mem_range.mp hj) (.inl (List.mem_range.mpr hc)))
  · exact State.reg_setReg_ne _ _ (by simp only [R.holdCurLo, R.holdLastStep]; omega)
  · exact State.reg_setReg_ne _ _ (by simp only [R.holdCurLo, R.holdLastStep]; omega)

theorem State.keepCounts_shape (s : State) (step : Word) : ∃ r, s.keepCounts step = { s with regs := r } := by
  obtain ⟨r, hr⟩ := State.foldl_regs_shape
    (f := fun u c => (u.setReg64 (R.holdLastLo c) (s.reg64 (R.holdCurLo c))).setReg64 (R.holdCurLo c) 0) (List.range 16)
    (fun u c => ⟨_, rfl⟩) s
  unfold State.keepCounts
  rw [hr]
  exact ⟨_, rfl⟩

/-- The array cycle of a step that is held counts in it. -/
def State.countHeld (s : State) : State := if s.running && s.held then s.countHeldCycle else s

theorem State.countHeld_resolved_shape (s : State) :
    ∃ r, s.countHeld.resolveWhere (fun _ => true) = { s with regs := r, deferred := [] } := by
  obtain ⟨r, hr⟩ := s.countHeld.resolveWhere_shape (fun _ => true)
  have hnil : s.countHeld.deferred.filter (fun _ => ! true) = [] := List.filter_eq_nil_iff.mpr (fun _ _ h => nomatch h)
  rw [hr, hnil]
  unfold State.countHeld
  split
  · obtain ⟨r', d, h⟩ := s.countHeldCycle_shape
    exact ⟨r, by rw [h]⟩
  · exact ⟨r, rfl⟩

theorem State.closeHolds_of_half {s : State} (h : s.halfCycle = true) :
    ∃ r, s.closeHolds = { s with regs := r, deferred := [], holdClose := some (s.reg R.strStep) } := by
  obtain ⟨r, hr⟩ := s.countHeld_resolved_shape
  refine ⟨r, (if_pos h).trans ?_⟩
  unfold State.countHeld at hr
  rw [hr]

theorem State.closeHolds_of_whole {s : State} (h : s.halfCycle = false) :
    (∃ r, s.closeHolds = { s with regs := r, deferred := [] }) ∧ s.closeHolds.reg R.holdLastStep = s.reg R.strStep ∧
      ∀ c < 16, s.closeHolds.reg64 (R.holdCurLo c) = 0 := by
  have he : s.closeHolds = (s.countHeld.resolveWhere (fun _ => true)).keepCounts (s.reg R.strStep) := if_neg (by simp [h])
  obtain ⟨r, hr⟩ := s.countHeld_resolved_shape
  rw [he]
  refine ⟨?_, State.reg_setReg_self _ _ _, fun c hc => State.reg_keepCounts_cur _ _ hc⟩
  obtain ⟨r', hk⟩ := (s.countHeld.resolveWhere (fun _ => true)).keepCounts_shape (s.reg R.strStep)
  exact ⟨r', by rw [hk, hr]⟩

theorem State.closeHolds_shape (s : State) : ∃ r c, s.closeHolds = { s with regs := r, deferred := [], holdClose := c } := by
  obtain h | h := Bool.eq_false_or_eq_true s.halfCycle
  · obtain ⟨r, hr⟩ := State.closeHolds_of_half h
    exact ⟨r, some (s.reg R.strStep), hr⟩
  · obtain ⟨⟨r, hr⟩, -⟩ := State.closeHolds_of_whole h
    exact ⟨r, s.holdClose, hr⟩

/-! ### The streams of the next step -/

theorem State.activateStreams_shape (s : State) : ∃ r d, s.activateStreams = { s with regs := r, ds := d } := by
  have bads : ∀ u : State, ∃ r, (List.range 8).foldl (fun u k =>
      (u.setReg (R.strBad k) (BitVec.ofNat 32 (bitsOfList 32 (fun j => s.stagedStreams.any (fun x => decide (x.1 = 32 * k + j) && x.2.bad))))).setReg
        (R.strFailed k) 0) u = { u with regs := r } :=
    State.foldl_regs_shape _ (fun u k => by
      obtain ⟨r, hr⟩ := u.setReg_shape (R.strBad k)
        (BitVec.ofNat 32 (bitsOfList 32 (fun j => s.stagedStreams.any (fun x => decide (x.1 = 32 * k + j) && x.2.bad))))
      rw [hr]
      exact ⟨_, rfl⟩)
  have tables : ∃ r, (List.range 256).foldl (fun u n =>
      ((u.setReg (R.dsNext n) 0).setReg (R.dsDone n) 0).setReg (R.dsState n)
        (BitVec.ofNat 32 (2 ^ 31 * boolBit (s.stagedStreams.any (fun x => decide (x.1 = n) && x.2.bad))))) s = { s with regs := r } :=
    State.foldl_regs_shape _ (fun u n => by
      generalize BitVec.ofNat 32 (2 ^ 31 * boolBit (s.stagedStreams.any (fun x => decide (x.1 = n) && x.2.bad))) = v
      exact ⟨_, rfl⟩) s
  obtain ⟨r, hr⟩ := tables
  obtain ⟨r', hr'⟩ := bads { s with regs := r }
  refine ⟨r', s.activateStreams.ds, ?_⟩
  unfold State.activateStreams
  dsimp only
  rw [hr, hr']

theorem sget_map_some (en : List Nat) (f : Nat → Option DsRun) (hf : ∀ n, (f n).isSome = true) (n : Nat) :
    (sget (fun _ => none) (en.map (fun n => (n, f n))) n).isSome = decide (n ∈ en) := by
  induction en with
  | nil => simp [sget]
  | cons m l ih =>
    rw [List.map_cons, sget_cons]
    split
    next h => simp [hf, h]
    next h => rw [ih]; simp [h]

/-- The numbers of the streams that the staged table enables. -/
def State.stagedNumbers (s : State) : List Nat := (List.range 256).filter (fun n => s.bit (R.dsCfg n) 31)

/-- A stream of the staged table, as it is activated. -/
def State.activated (s : State) (n : Nat) : DsRun :=
  let others := (s.stagedNumbers.map (fun n => (n, s.stagedStream n))).filter (fun y => decide (y.1 ≠ n))
  { s.stagedStream n with bad := (s.stagedStream n).isBad (others.map Prod.snd) }

theorem State.ds_activateStreams (s : State) : s.activateStreams.ds = s.stagedNumbers.map (fun n => (n, some (s.activated n))) := by
  show s.stagedStreams.map _ = _
  unfold State.stagedStreams
  rw [List.map_map, List.map_map]
  rfl

/-- R210: the streams of a step are those that the staged table enables. -/
theorem State.stream_activateStreams (s : State) (n : Fin 256) : (s.activateStreams.stream n).isSome = s.bit (R.dsCfg n) 31 := by
  unfold State.stream
  rw [State.ds_activateStreams, sget_map_some _ _ (fun _ => rfl)]
  unfold State.stagedNumbers
  simp [n.isLt]

theorem State.applyEpoch_shape (s : State) : ∃ r, s.applyEpoch = { s with regs := r } := by
  obtain ⟨r, hr⟩ := State.foldl_regs_shape (f := fun u i => u.setReg (R.epochApplied i) (s.reg R.epochStaged)) (List.range 12)
    (fun u i => ⟨_, rfl⟩) s
  unfold State.applyEpoch
  rw [hr]
  exact ⟨_, rfl⟩

theorem State.stepEnded_shape (s : State) : ∃ r, s.stepEnded = { s.closeHolds with regs := r } := by
  obtain ⟨v, hv⟩ := State.setHold_eq (((s.closeHolds.setReg64 R.strScLo 0).wrapAdd R.strStep 1).setBit R.strRun 31 false) false 0 0
  unfold State.stepEnded
  rw [hv]
  obtain ⟨r, hr⟩ := s.closeHolds.setReg64_shape R.strScLo 0
  rw [hr]
  exact ⟨_, rfl⟩

/-- The state as the boundary leaves its tables and registers. -/
def State.tablesActive (s : State) (x : Task) : State :=
  (s.stepEnded.activateStreams.setReg R.strBarriers (BitVec.ofNat 32 (closeCount x.entry))).applyEpoch

theorem State.tablesActive_eq (s : State) (x : Task) :
    ∃ r, s.tablesActive x = { s.closeHolds with regs := r, ds := s.stepEnded.activateStreams.ds } := by
  obtain ⟨r2, h2⟩ := s.stepEnded_shape
  obtain ⟨r3, d, h3⟩ := s.stepEnded.activateStreams_shape
  unfold State.tablesActive
  generalize s.stepEnded.activateStreams = u at h3 ⊢
  obtain ⟨r4, h4⟩ := u.setReg_shape R.strBarriers (BitVec.ofNat 32 (closeCount x.entry))
  generalize u.setReg R.strBarriers (BitVec.ofNat 32 (closeCount x.entry)) = w at h4 ⊢
  obtain ⟨r5, h5⟩ := w.applyEpoch_shape
  exact ⟨r5, by rw [h5, h4, h3, h2]⟩

theorem State.tablesActive_shape (s : State) (x : Task) : ∃ r d c, s.tablesActive x = { s with regs := r, ds := d, deferred := [], holdClose := c } := by
  obtain ⟨r, c, h1⟩ := s.closeHolds_shape
  obtain ⟨r', h'⟩ := s.tablesActive_eq x
  exact ⟨r', _, c, by rw [h', h1]⟩

theorem State.freshStep_shape {s t : State} {x : Task} {r : SMap Word} {d : SMap (Option DsRun)} {c : Option Word}
    (h : t = { s with regs := r, ds := d, deferred := [], holdClose := c }) :
    t.freshStep x = { s with regs := (t.freshStep x).regs, ds := (t.freshStep x).ds, deferred := [], holdClose := (t.freshStep x).holdClose,
                             barriers := closeBarriers x.entry, stepEnding := false, stepEndSeen := false, boundaryFresh := true,
                             holdLen := 0, holdReported := false, closing := some (x.ref, true) } := by
  rw [h]
  rfl

theorem State.holdClose_tablesActive_of_half {s : State} (h : s.halfCycle = true) (x : Task) :
    (s.tablesActive x).holdClose = some (s.reg R.strStep) := by
  obtain ⟨r, h1⟩ := State.closeHolds_of_half h
  obtain ⟨r', h'⟩ := s.tablesActive_eq x
  rw [h', h1]

theorem State.stream_tablesActive (s : State) (x : Task) (n : Fin 256) : ((s.tablesActive x).stream n).isSome = s.bit (R.dsCfg n) 31 := by
  have hd : (s.tablesActive x).ds = s.stepEnded.activateStreams.ds := by
    obtain ⟨r', h'⟩ := s.tablesActive_eq x
    rw [h']
  have hs : (s.tablesActive x).stream n = s.stepEnded.activateStreams.stream n := by
    unfold State.stream
    rw [hd]
  have ho : R.dsCfg n < R.holdCurLo 0 ∧ R.strHold < R.dsCfg n := by
    have := n.isLt
    simp only [R.dsCfg, R.holdCurLo, R.strHold]
    omega
  rw [hs, State.stream_activateStreams]
  exact State.bit_congr ((s.reg_stepEnded_of_other (.inr ho.2)).trans (s.reg_closeHolds_of_lt ho.1)) 31

theorem State.reg_tablesActive_copied (s : State) (x : Task) :
    (∀ i, i < 12 → (s.tablesActive x).reg (R.epochApplied i) = s.reg R.epochStaged) ∧
      (s.tablesActive x).reg R.rdArrivalActive = s.reg R.rdArrivalCfg ∧
      (s.tablesActive x).reg R.strSessionActive = s.reg R.strSessionCfg := by
  have staged (o : Nat) (h : o < R.strBad 0 ∨ R.rdArrivalCfg ≤ o) (hc : o < R.holdCurLo 0) (hb : o ≠ R.strBarriers)
      (hs : o < R.strScLo ∨ R.strHold < o) := s.reg_staged_copied (BitVec.ofNat 32 (closeCount x.entry)) h hc hb hs
  exact ⟨fun i hi => (State.reg_applyEpoch_epochApplied _ hi).trans (staged _ (by decide) (by decide) (by decide) (by decide)),
    (State.reg_applyEpoch_rdArrivalActive _).trans (staged _ (by decide) (by decide) (by decide) (by decide)),
    (State.reg_applyEpoch_strSessionActive _).trans (staged _ (by decide) (by decide) (by decide) (by decide))⟩

/-- R365: the counters of the step that ends are kept at once in the first core cycle of an array cycle. -/
theorem State.holds_boundary_of_whole {s : State} (h : s.halfCycle = false) (x : Task) :
    (s.boundary x).reg R.holdLastStep = s.reg R.strStep ∧ ∀ c, c < 16 → (s.boundary x).reg64 (R.holdCurLo c) = 0 := by
  obtain ⟨-, hstep, hcur⟩ := State.closeHolds_of_whole h
  have keeps (o : Nat) (ho : R.holdCurLo 0 ≤ o) : (s.boundary x).reg o = s.closeHolds.reg o :=
    (s.reg_boundary_of_clear x (clearOfTables_of_ge ho)).trans
      (s.reg_stepEnded_of_other (.inr (Nat.lt_of_lt_of_le (by decide) ho)))
  refine ⟨(keeps _ (by decide)).trans hstep, fun c hc => (State.reg64_congr (keeps _ ?_) (keeps _ ?_)).trans (hcur c hc)⟩
  · simp only [R.holdCurLo]
    omega
  · simp only [R.holdCurLo]
    omega

/-- R232: what a boundary leaves of the step that has ended. -/
theorem State.step_boundary (s : State) (x : Task) :
    (s.boundary x).sc = 0 ∧ (s.boundary x).running = false ∧ (s.boundary x).held = false := by
  have keeps (o : Nat) (h : R.strScLo ≤ o) (h' : o ≤ R.strHold) := s.reg_boundary_of_clear x (clearOfTables_of_step h h')
  exact ⟨(State.reg64_congr (keeps _ (by decide) (by decide)) (keeps _ (by decide) (by decide))).trans s.sc_stepEnded,
    (State.bit_congr (keeps _ (by decide) (by decide)) 31).trans s.running_stepEnded,
    (State.bit_congr (keeps _ (by decide) (by decide)) 31).trans s.held_stepEnded⟩

/-- R209, R232, R365: what the boundary does. -/
theorem State.boundary_spec (s : State) (x : Task) : ∃ t, s.boundary x = t ∧ t.reg R.strStep = s.reg R.strStep + 1 ∧ t.sc = 0 ∧
      t.running = false ∧ t.held = false ∧ (∀ i, i < 12 → t.reg (R.epochApplied i) = s.reg R.epochStaged) ∧
      t.reg R.rdArrivalActive = s.reg R.rdArrivalCfg ∧ t.reg R.strSessionActive = s.reg R.strSessionCfg ∧
      (s.halfCycle = false → t.reg R.holdLastStep = s.reg R.strStep ∧ ∀ c, c < 16 → t.reg64 (R.holdCurLo c) = 0) ∧
      (s.halfCycle = true → t.holdClose = some (s.reg R.strStep)) ∧
      (∀ n : Fin 256, (t.stream n).isSome = s.bit (R.dsCfg n) 31) ∧
      t = { s with regs := t.regs, ds := t.ds, deferred := [], holdClose := t.holdClose, barriers := closeBarriers x.entry,
                   stepEnding := false, stepEndSeen := false, boundaryFresh := true, holdLen := 0, holdReported := false,
                   closing := some (x.ref, true) } := by
  obtain ⟨hsc, hrun, hheld⟩ := s.step_boundary x
  obtain ⟨hep, harr, hses⟩ := s.reg_tablesActive_copied x
  obtain ⟨r, d, c, hshape⟩ := s.tablesActive_shape x
  have hstep := s.reg_boundary_strStep x
  have hwhole (h : s.halfCycle = false) := State.holds_boundary_of_whole h x
  have hhalf (h : s.halfCycle = true) := State.holdClose_tablesActive_of_half h x
  have hstream := s.stream_tablesActive x
  have hb : s.boundary x = (s.tablesActive x).freshStep x := s.boundary_eq x
  rw [hb] at hsc hrun hheld hstep hwhole ⊢
  clear hb
  generalize s.tablesActive x = u at hsc hrun hheld hstep hwhole hep harr hses hshape hhalf hstream ⊢
  exact ⟨_, rfl, hstep, hsc, hrun, hheld, hep, harr, hses, hwhole, hhalf, hstream, State.freshStep_shape hshape⟩

/-! ### STEP_CLOSE completes (R232, R341) -/

theorem State.epochReply_of_none {s : State} (h : s.mq.epoch = none) : s.epochReply = s := by
  unfold State.epochReply
  rw [h]

theorem State.epochReply_of_applied {s : State} {p : Packet} (h : s.mq.epoch = some p) (he : s.reg R.epochStaged = s.reg (R.epochApplied 0)) :
    ∃ r, s.epochReply = { s with mq := { s.mq with epoch := none, replies := s.mq.replies ++ [r] } } ∧ r.status = St.success ∧
      r.last = true ∧ r.index = p.index := by
  refine ⟨p.answer St.success true (leBytes 4 (s.reg R.epochStaged).toNat ++ leBytes 4 (s.reg R.strStep).toNat), ?_, rfl, rfl, rfl⟩
  unfold State.epochReply
  rw [h]
  exact if_pos he

theorem State.epochReply_shape (s : State) : ∃ m, s.epochReply = { s with mq := m } := by
  unfold State.epochReply
  split
  · exact ⟨s.mq, rfl⟩
  · split
    · exact ⟨_, rfl⟩
    · exact ⟨s.mq, rfl⟩

/-- The status of a STEP_CLOSE (R210). -/
def State.closeStatus (s : State) : Status := if s.enabledStreams.any (fun x => x.2.bad) then St.delivery else St.success

theorem completeClose_of_closing {s : State} {x : Task} (hx : s.runningClose = some x) (hc : s.closing = some (x.ref, true)) :
    completeClose s = { (s.epochReply.putTask { x with phase := .finished, status := s.closeStatus, bytes := 0, digest := 0 }) with
      closing := none } := by
  unfold completeClose
  rw [hx, hc]
  exact if_pos rfl

theorem completeClose_of_none {s : State} (hc : s.closing = none) : completeClose s = s := by
  unfold completeClose
  rw [hc]
  cases s.runningClose <;> rfl

/-- A task of the block is the one that its name finds, or another of that name is. -/
theorem State.task_isSome_of_mem {s : State} {x : Task} (h : x ∈ s.tasks) : ∃ z, s.task x.ref = some z := by
  have hs : (s.task x.ref).isSome = true := List.find?_isSome.mpr ⟨x, h, decide_eq_true rfl⟩
  exact Option.isSome_iff_exists.mp hs

/-- Settles O40. -/
theorem stepBoundary : Obligations.StepBoundary := by
  unfold Obligations.StepBoundary
  refine ⟨fun s x hx => ⟨fun hd => ?_, fun hd => ?_⟩, fun s x hx hc => ?_, fun s hc => congrArg Host.Outcome.next (completeClose_of_none hc)⟩
  · obtain ⟨t, ht, hspec⟩ := s.boundary_spec x
    exact ⟨t, (exec_stepBoundaryApply_of_due hx hd).trans (congrArg Host.Outcome.next ht), hspec⟩
  · refine congrArg Host.Outcome.next ?_
    unfold applyBoundary
    rw [hx]
    exact if_neg (by simp [hd])
  · obtain ⟨z, hz⟩ := State.task_isSome_of_mem (List.mem_of_find?_eq_some hx)
    obtain ⟨m, hm⟩ := s.epochReply_shape
    let y : Task := { x with phase := .finished, status := s.closeStatus, bytes := 0, digest := 0 }
    have ht : completeClose s = { (({ s with mq := m } : State).putTask y) with closing := none } := by
      rw [completeClose_of_closing hx hc, hm]
    refine ⟨_, y, congrArg Host.Outcome.next ht, State.task_putTask_self (s := { s with mq := m }) (y := y) hz rfl, rfl, rfl, rfl,
      fun he => ?_, fun p hp he => ?_, rfl, State.tasksBut_putTask { s with mq := m } y⟩
    · rw [State.epochReply_of_none he] at hm
      exact (congrArg State.mq hm).symm
    · obtain ⟨r, hr, hst, hlast, hidx⟩ := State.epochReply_of_applied hp he
      have hmq : m = { s.mq with epoch := none, replies := s.mq.replies ++ [r] } := congrArg State.mq (hm.symm.trans hr)
      subst hmq
      exact ⟨rfl, r, rfl, hst, hlast, hidx⟩

end Sys2Proof.Machine
end

section
namespace Sys2Proof.Machine

open Sys2Proof

/-!
### Packets on their ports (R260, R276, R278, R406)

An answer, a credit or a heartbeat leaves no trace but the packet itself; a credit request and its withdrawal note the port in the
credits alone.
-/

/-- A packet of the fabric that no table of the block notes the port of. -/
structure Out.plain (o : Out) : Prop where
  note : ∀ s p, State.notePort s o p = s
  fabric : o.toHost = false
  placed : ∀ p, (o.withPort p).toHost = false

/-- Nothing that has left, or waits for its port, is taken back. -/
structure State.outKept (s t : State) : Prop where
  out : ∀ o ∈ s.out, o ∈ t.out
  held : ∀ o ∈ s.fabricHeld, o ∈ t.fabricHeld

theorem State.outKept.refl (s : State) : s.outKept s := ⟨fun _ h => h, fun _ h => h⟩

theorem State.outKept.of_eq {s t : State} (ho : t.out = s.out) (hh : t.fabricHeld = s.fabricHeld) : s.outKept t :=
  ⟨fun _ h => ho ▸ h, fun _ h => hh ▸ h⟩

theorem State.outKept.trans {s t u : State} (h : s.outKept t) (k : t.outKept u) : s.outKept u :=
  ⟨fun o ho => k.out o (h.out o ho), fun o ho => k.held o (h.held o ho)⟩

theorem State.outKept.packetLeft {s t : State} (h : s.outKept t) {o : Nat → Out} (hs : s.packetLeft o) : t.packetLeft o := by
  obtain ⟨p, hp⟩ := hs
  exact ⟨p, hp.imp (h.out _) (h.held _)⟩

theorem State.placeOut_of_plain {o : Out} (ho : o.plain) (s : State) :
    ∃ a b, s.placeOut o = { s with out := a, fabricHeld := b } ∧ match s.portOf o with
      | some p => a = o.withPort p :: s.out ∧ b = s.fabricHeld
      | none => a = s.out ∧ b = s.fabricHeld ++ [o] := by
  unfold State.placeOut
  cases s.portOf o with
  | some p =>
    dsimp only
    rw [ho.note, State.emit_of_not_toHost (ho.placed p)]
    exact ⟨_, _, rfl, rfl, rfl⟩
  | none => exact ⟨_, _, rfl, rfl, rfl⟩

theorem State.answerTo_of_plain {o : Out} (ho : o.plain) (s : State) (node : Nat) :
    ∃ a b, s.answerTo node o = { s with out := a, fabricHeld := b } ∧
      s.sentAnswer { s with out := a, fabricHeld := b } node o := by
  unfold State.answerTo State.sentAnswer
  split
  · rw [State.emit_of_not_toHost ho.fabric]
    exact ⟨_, _, rfl, rfl, rfl⟩
  · split
    · obtain ⟨a, b, h, hp⟩ := State.placeOut_of_plain ho s
      exact ⟨a, b, h, hp⟩
    · exact ⟨_, _, rfl, rfl, rfl⟩

theorem State.emitFabric_of_plain {o : Out} (ho : o.plain) (s : State) :
    ∃ a b, s.emitFabric o = { s with out := a, fabricHeld := b } ∧ s.sentFabric { s with out := a, fabricHeld := b } o := by
  unfold State.emitFabric State.sentFabric
  split
  · obtain ⟨a, b, h, hp⟩ := State.placeOut_of_plain ho s
    exact ⟨a, b, h, hp⟩
  · exact ⟨_, _, rfl, rfl, rfl⟩

/-- What the port of a packet depends on. -/
theorem State.portOf_congr {s t : State} (hr : ∀ p < 32, t.reg (R.feLaneStatus p) = s.reg (R.feLaneStatus p))
    (hd : t.draining = s.draining) (hc : t.credits = s.credits) (hp : t.ports = s.ports) (ht : t.tasks = s.tasks)
    (hh : t.fabricHeld = s.fabricHeld) (o : Out) : t.portOf o = s.portOf o := by
  have hbit : ∀ p ∈ List.range 32, t.bit (R.feLaneStatus p) 1 = s.bit (R.feLaneStatus p) 1 :=
    fun p hp => State.bit_congr (hr p (List.mem_range.mp hp)) 1
  have hserve : t.servingPorts = s.servingPorts := List.filter_congr hbit
  have hhash : t.hashPorts = s.hashPorts := List.filter_congr (fun p hp => by rw [hbit p hp, hd])
  have helse (n g p : Nat) : t.unansweredElsewhere n g p = s.unansweredElsewhere n g p := by
    unfold State.unansweredElsewhere
    rw [hc, hp, ht]
  unfold State.portOf
  rw [hserve, hhash, hh]
  split
  · rfl
  · split
    · rfl
    next hpick =>
      have hmem := List.mem_of_getElem? hpick
      rw [hbit _ (List.mem_of_mem_filter hmem), helse]

/-- The answer that leaves is the same where what the port depends on is the same. -/
theorem State.sentAnswer_congr {s t u : State} {node : Nat} {o : Out} (h : t.sentAnswer u node o) (hn : t.node = s.node)
    (hf : t.reg R.feStatus = s.reg R.feStatus) (ho : t.out = s.out) (hh : t.fabricHeld = s.fabricHeld) (hp : t.portOf o = s.portOf o) :
    s.sentAnswer u node o := by
  unfold State.sentAnswer at h ⊢
  rw [hn, State.bit_congr hf, ho, hh, hp] at h
  exact h

theorem State.sentAnswer.outKept {s t : State} {node : Nat} {o : Out} (h : s.sentAnswer t node o) : s.outKept t := by
  unfold State.sentAnswer at h
  have added (a : Out) (l : List Out) : t.out = a :: s.out ∧ t.fabricHeld = s.fabricHeld → s.outKept t :=
    fun ⟨h1, h2⟩ => ⟨fun o ho => h1 ▸ List.mem_cons_of_mem _ ho, fun o ho => h2 ▸ ho⟩
  split at h
  · exact added o [] h
  · split at h
    · split at h
      · exact added _ [] h
      · exact ⟨fun o ho => h.1 ▸ ho, fun o ho => h.2 ▸ List.mem_append_left _ ho⟩
    · exact ⟨fun o ho => h.1 ▸ ho, fun o ho => h.2 ▸ ho⟩

/-- An answer to this chip leaves, and to another one while the endpoint runs. -/
theorem State.sentAnswer.packetLeft {s t : State} {node : Nat} {o : Nat → Out} (hw : ∀ p q, (o q).withPort p = o p)
    (h : s.sentAnswer t node (o 0)) (ha : node = s.node ∨ s.feActive = true) : t.packetLeft o := by
  unfold State.sentAnswer at h
  split at h
  · exact ⟨0, .inl (h.1 ▸ List.mem_cons_self)⟩
  next hne =>
    have hrun : s.bit R.feStatus 0 = true := ha.resolve_left hne
    rw [if_pos hrun] at h
    split at h
    next p _ => exact ⟨p, .inl (by rw [h.1, hw p 0]; exact List.mem_cons_self)⟩
    · exact ⟨0, .inr (by rw [h.2]; exact List.mem_append_right _ (List.mem_singleton_self _))⟩

/-! ### Counts by tag (R281) -/

/-- A count by tag writes the counters of one kind alone. -/
theorem State.countTag_shape (s : State) (off : Nat → Nat) (tag n : Nat) :
    (∃ r c, s.countTag off tag n = { s with regs := r, now := c }) ∧
      ∀ o, (∀ k < 64, o ≠ off k) → (s.countTag off tag n).reg o = s.reg o := by
  unfold State.countTag
  refine ⟨List.foldlRecOn (motive := fun u : State => ∃ r c, u = { s with regs := r, now := c }) (List.range 64) _ ⟨s.regs, s.now, rfl⟩
    (fun u ⟨r, c, hu⟩ k _ => ?_), fun o ho => State.reg_foldl (fun u k hk => ?_) s⟩
  · split
    · obtain ⟨r', c', h⟩ := u.bump_shape (off k) n
      exact ⟨r', c', by rw [h, hu]⟩
    · exact ⟨r, c, hu⟩
  · split
    · exact u.reg_bump_ne n (ho k (List.mem_range.mp hk))
    · rfl

/-! ### The ports' own work: messages that fail, and requests for credit (R267, R269, R273) -/

/-- The registers that the ports' own work writes. -/
def postReg (o : Nat) : Prop :=
  o = R.feDeadRefused ∨ ∃ k < 64, o = R.tcFailed k ∨ o = R.spStatus k ∨ o = R.spErrNum k ∨ o = R.spFailed k

/-- What the ports' own work leaves alone: all but some registers, the credits, what the endpoints of this chip hold waiting, and
what leaves; and the ports whose next message is sound. -/
structure State.Posts (s t : State) : Prop where
  frame : t = { s with regs := t.regs, now := t.now, credits := t.credits, rx := t.rx, out := t.out, fabricHeld := t.fabricHeld }
  regs : ∀ o, ¬ postReg o → t.reg o = s.reg o
  kept : s.outKept t
  calm : ∀ p < 64, s.doomedMsg p = none →
    t.reg (R.spStatus p) = s.reg (R.spStatus p) ∧ t.reg (R.spErrNum p) = s.reg (R.spErrNum p) ∧ t.reg (R.spFailed p) = s.reg (R.spFailed p)

theorem State.Posts.refl (s : State) : s.Posts s := ⟨rfl, fun _ _ => rfl, .refl s, fun _ _ _ => ⟨rfl, rfl, rfl⟩⟩

theorem State.deadNode_congr {s t : State} (h : ∀ n < 1024, t.reg (R.fePeerCfg n) = s.reg (R.fePeerCfg n)) (node : Nat) :
    t.deadNode node = s.deadNode node := by
  have hn : ∀ n ∈ List.range 1024, t.reg (R.fePeerCfg n) = s.reg (R.fePeerCfg n) := fun n hm => h n (List.mem_range.mp hm)
  unfold State.deadNode State.fld
  refine Bool.eq_iff_iff.mpr ?_
  simp only [List.any_eq_true]
  exact exists_congr (fun n => and_congr_right (fun hm => by rw [hn n hm]))

/-- Which message of a port fails by itself depends on the port, the node and the peers alone. -/
theorem State.doomedMsg_congr {s t : State} {p : Nat} (hp : t.ports = s.ports) (hs : t.reg (R.spStatus p) = s.reg (R.spStatus p))
    (hi : t.reg R.nodeId = s.reg R.nodeId) (hd : ∀ n < 1024, t.reg (R.fePeerCfg n) = s.reg (R.fePeerCfg n)) :
    t.doomedMsg p = s.doomedMsg p := by
  have hport : t.port p = s.port p := by
    unfold State.port
    rw [hp]
  have hfault (m : Msg) : t.msgFault m = s.msgFault m := by
    unfold State.msgFault
    rw [State.bit_congr hi, State.deadNode_congr hd]
  unfold State.doomedMsg State.unsent State.spStopped
  rw [State.bit_congr hs, hport]
  simp only [hfault]

theorem fePeerCfg_not_post {n : Nat} (hn : n < 1024) : ¬ postReg (R.fePeerCfg n) := by
  rintro (h | ⟨k, hk, h | h | h | h⟩) <;>
    simp only [R.fePeerCfg, R.feDeadRefused, R.tcFailed, R.spStatus, R.spErrNum, R.spFailed] at h <;> omega

theorem nodeId_not_post : ¬ postReg R.nodeId := by
  rintro (h | ⟨k, hk, h | h | h | h⟩) <;>
    simp only [R.nodeId, R.feDeadRefused, R.tcFailed, R.spStatus, R.spErrNum, R.spFailed] at h <;> omega

theorem State.Posts.ports {s t : State} (h : s.Posts t) : t.ports = s.ports := by rw [h.frame]

theorem State.Posts.doomed {s t : State} (h : s.Posts t) {p : Nat} (hp : p < 64) (hd : s.doomedMsg p = none) : t.doomedMsg p = none :=
  (State.doomedMsg_congr h.ports (h.calm p hp hd).1 (h.regs _ nodeId_not_post) (fun _ hn => h.regs _ (fePeerCfg_not_post hn))).trans hd

theorem State.Posts.trans {s t u : State} (h : s.Posts t) (k : t.Posts u) : s.Posts u where
  frame := by rw [k.frame, h.frame]
  regs o ho := (k.regs o ho).trans (h.regs o ho)
  kept := h.kept.trans k.kept
  calm p hp hd := by
    obtain ⟨h1, h2, h3⟩ := h.calm p hp hd
    obtain ⟨k1, k2, k3⟩ := k.calm p hp (h.doomed hp hd)
    exact ⟨k1.trans h1, k2.trans h2, k3.trans h3⟩

/-- A change of the credits, of what waits at endpoints, and of what leaves. -/
theorem State.Posts.of_eq {s t : State} (hf : t = { s with credits := t.credits, rx := t.rx, out := t.out, fabricHeld := t.fabricHeld })
    (hk : s.outKept t) : s.Posts t where
  frame := by rw [hf]
  regs o _ := by rw [hf]; rfl
  kept := hk
  calm p _ _ := by rw [hf]; exact ⟨rfl, rfl, rfl⟩

theorem State.Posts.foldl {β : Type} {f : State → β → State} (l : List β) (hf : ∀ u : State, ∀ x ∈ l, u.Posts (f u x)) (s : State) :
    s.Posts (l.foldl f s) :=
  List.foldlRecOn (motive := fun u => s.Posts u) l f (.refl s) (fun u hu x hx => hu.trans (hf u x hx))

/-- A packet whose port the credits note at most. -/
structure Out.creditOnly (o : Out) : Prop where
  note : ∀ s p, ∃ c, State.notePort s o p = { s with credits := c }
  fabric : o.toHost = false
  placed : ∀ p, (o.withPort p).toHost = false

theorem State.emit_posts {o : Out} (ho : o.toHost = false) (s : State) : s.Posts (s.emit o) := by
  rw [State.emit_of_not_toHost ho]
  exact .of_eq rfl ⟨fun _ h => List.mem_cons_of_mem _ h, fun _ h => h⟩

theorem State.placeOut_posts {o : Out} (ho : o.creditOnly) (s : State) : s.Posts (s.placeOut o) := by
  unfold State.placeOut
  split
  next p _ =>
    obtain ⟨c, hc⟩ := ho.note s p
    rw [hc]
    exact .trans (t := { s with credits := c }) (.of_eq rfl (.of_eq rfl rfl)) (State.emit_posts (ho.placed p) _)
  next => exact .of_eq rfl ⟨fun _ h => h, fun _ h => List.mem_append_left _ h⟩

theorem State.emitFabric_posts {o : Out} (ho : o.creditOnly) (s : State) : s.Posts (s.emitFabric o) := by
  unfold State.emitFabric
  split
  · exact State.placeOut_posts ho s
  · exact .refl s

theorem State.emitTo_posts {o : Out} (ho : o.creditOnly) (s : State) (node : Nat) : s.Posts (s.emitTo node o) := by
  unfold State.emitTo
  split
  · exact State.emit_posts ho.fabric s
  · exact State.emitFabric_posts ho s

theorem creditRequest_creditOnly (n t k p : Nat) : (Out.creditRequest n t k p).creditOnly := ⟨fun _ _ => ⟨_, rfl⟩, rfl, fun _ => rfl⟩

theorem creditWithdrawn_creditOnly (n t p : Nat) : (Out.creditWithdrawn n t p).creditOnly := ⟨fun s _ => ⟨s.credits, rfl⟩, rfl, fun _ => rfl⟩

theorem State.withdraw_posts (s : State) (c : CreditPair) : s.Posts (s.withdraw c) := by
  have hcut : s.Posts { s with credits := s.credits.filter (fun x => decide (x ≠ c)) } := .of_eq rfl (.of_eq rfl rfl)
  unfold State.withdraw
  dsimp only
  split
  · exact hcut
  · split
    · exact hcut.trans (.of_eq rfl (.of_eq rfl rfl))
    · exact hcut.trans (State.emitFabric_posts (creditWithdrawn_creditOnly _ _ _) _)

theorem State.withdrawCredits_posts (s : State) : s.Posts s.withdrawCredits := by
  refine State.Posts.foldl _ (fun u c _ => ?_) s
  split
  · exact u.withdraw_posts c
  · exact .refl u

theorem State.requestPair_posts (s : State) (node tag : Nat) : s.Posts (s.requestPair node tag) := by
  unfold State.requestPair
  dsimp only
  split
  · exact .refl s
  · generalize hcs : s.credits ++ _ = cs
    exact .trans (t := { s with credits := cs }) (.of_eq rfl (.of_eq rfl rfl)) (State.emitTo_posts (creditRequest_creditOnly _ _ _ _) _ _)

/-! ### A port stops (R273) -/

/-- The failure of a message, as its port counts and shows it. -/
def State.stopPort (s : State) (p : Nat) (m : Msg) (st : Status) : State :=
  ((((s.wrapAdd (R.spFailed p) 1).countTag R.tcFailed m.tag 1).setBit (R.spStatus p) 31 true).setFld (R.spStatus p) 0 16 st.toNat).setReg
    (R.spErrNum p) m.num

theorem State.failMsg_of_running {s : State} {p : Nat} (h : s.spStopped p = false) (m : Msg) (st : Status) :
    s.failMsg p m st = (s.stopPort p m st).withdrawCredits := by
  unfold State.failMsg State.stopPort
  rw [h]
  rfl

theorem State.failMsg_of_stopped {s : State} {p : Nat} (h : s.spStopped p = true) (m : Msg) (st : Status) :
    s.failMsg p m st = ((s.wrapAdd (R.spFailed p) 1).countTag R.tcFailed m.tag 1).setFifo p
      ((s.port p).fifo.filter (fun x => decide (x.num ≠ m.num))) := by
  unfold State.failMsg
  rw [h]
  rfl

theorem State.stopPort_shape (s : State) (p : Nat) (m : Msg) (st : Status) :
    ∃ r c, s.stopPort p m st = { s with regs := r, now := c } := by
  unfold State.stopPort
  obtain ⟨⟨r, c, h⟩, -⟩ := (s.wrapAdd (R.spFailed p) 1).countTag_shape R.tcFailed m.tag 1
  rw [h]
  exact ⟨_, c, rfl⟩

/-- A register of a send port, of the counters by tag and of the endpoint, by where it lies. -/
theorem spRegs_ne {p k : Nat} : R.spStatus p ≠ R.spErrNum k ∧ R.spStatus p ≠ R.spFailed k ∧ R.spErrNum p ≠ R.spFailed k := by
  simp only [R.spStatus, R.spErrNum, R.spFailed]
  omega

theorem State.reg_stopPort (s : State) (p : Nat) (m : Msg) (st : Status) {o : Nat} (h1 : o ≠ R.spFailed p)
    (h2 : ∀ k < 64, o ≠ R.tcFailed k) (h3 : o ≠ R.spStatus p) (h4 : o ≠ R.spErrNum p) : (s.stopPort p m st).reg o = s.reg o := by
  unfold State.stopPort
  rw [State.reg_setReg_ne _ _ h4, State.reg_setFld_ne _ _ _ _ h3, State.reg_setBit_ne _ _ _ h3]
  exact ((s.wrapAdd (R.spFailed p) 1).countTag_shape R.tcFailed m.tag 1).2 o h2 |>.trans (State.reg_setReg_ne _ _ h1)

theorem State.stopPort_spec (s : State) (p : Nat) (m : Msg) (st : Status) :
    (s.stopPort p m st).spStopped p = true ∧ (s.stopPort p m st).fld (R.spStatus p) 0 16 = st.toNat ∧
      (s.stopPort p m st).reg (R.spErrNum p) = m.num := by
  have hne : R.spStatus p ≠ R.spErrNum p := (spRegs_ne (k := p)).1
  refine ⟨?_, ?_, State.reg_setReg_self _ _ _⟩
  · refine (State.bit_congr (State.reg_setReg_ne _ _ hne) 31).trans ?_
    exact (congrArg (fun n => decide (n = 1)) (State.fld_setFld_other _ _ 0 16 st.toNat 31 1 (by decide))).trans
      (State.bit_setBit_self _ _ _ _ (by decide))
  · refine (State.fld_congr (State.reg_setReg_ne _ _ hne) 0 16).trans ((State.fld_setFld_self _ _ 0 16 _ (by decide)).trans ?_)
    exact Nat.mod_eq_of_lt st.isLt

/-- The ports that are not asked for keep their registers while another one stops. -/
theorem State.stopPort_posts {s : State} {p : Nat} (hp : p < 64) (m : Msg) (st : Status) (hd : s.doomedMsg p ≠ none) :
    s.Posts (s.stopPort p m st) where
  frame := by
    obtain ⟨r, c, h⟩ := s.stopPort_shape p m st
    rw [h]
  regs o ho := by
    refine s.reg_stopPort p m st (fun e => ho ?_) (fun k hk e => ho ?_) (fun e => ho ?_) (fun e => ho ?_)
    · exact .inr ⟨p, hp, .inr (.inr (.inr e))⟩
    · exact .inr ⟨k, hk, .inl e⟩
    · exact .inr ⟨p, hp, .inr (.inl e)⟩
    · exact .inr ⟨p, hp, .inr (.inr (.inl e))⟩
  kept := by
    obtain ⟨r, c, h⟩ := s.stopPort_shape p m st
    rw [h]
    exact .of_eq rfl rfl
  calm k hk hn := by
    have hne : k ≠ p := fun e => hd (e ▸ hn)
    refine ⟨s.reg_stopPort p m st ?_ (fun j hj => ?_) ?_ ?_, s.reg_stopPort p m st ?_ (fun j hj => ?_) ?_ ?_,
      s.reg_stopPort p m st ?_ (fun j hj => ?_) ?_ ?_⟩ <;>
      simp only [R.spStatus, R.spErrNum, R.spFailed, R.tcFailed] <;> omega

theorem State.doomedMsg_of_stopped {s : State} {p : Nat} (h : s.spStopped p = true) : s.doomedMsg p = none := if_pos h

theorem State.spStopped_of_doomed {s : State} {p : Nat} (h : s.doomedMsg p ≠ none) : s.spStopped p = false :=
  Bool.eq_false_iff.mpr (fun hs => h (State.doomedMsg_of_stopped hs))

theorem State.bump_posts {s : State} {off : Nat} (h : off = R.feDeadRefused) (n : Nat) : s.Posts (s.bump off n) where
  frame := rfl
  regs o ho := s.reg_bump_ne n (fun e => ho (.inl (e.trans h)))
  kept := .of_eq rfl rfl
  calm p hp _ := by
    refine ⟨s.reg_bump_ne n ?_, s.reg_bump_ne n ?_, s.reg_bump_ne n ?_⟩ <;> rw [h] <;>
      simp only [R.spStatus, R.spErrNum, R.spFailed, R.feDeadRefused] <;> omega

theorem State.doomedMsg_bump (s : State) (n p : Nat) (hp : p < 64) : (s.bump R.feDeadRefused n).doomedMsg p = s.doomedMsg p := by
  have hne (o : Nat) (ho : o ≠ R.feDeadRefused) : (s.bump R.feDeadRefused n).reg o = s.reg o := s.reg_bump_ne n ho
  refine State.doomedMsg_congr rfl (hne _ ?_) (hne _ (by decide)) (fun k hk => hne _ ?_) <;>
    simp only [R.spStatus, R.fePeerCfg, R.feDeadRefused] <;> omega

theorem State.failMsg_posts {s : State} {p : Nat} (hp : p < 64) (m : Msg) (st : Status) (hd : s.doomedMsg p ≠ none) :
    s.Posts (s.failMsg p m st) := by
  rw [State.failMsg_of_running (State.spStopped_of_doomed hd)]
  exact (State.stopPort_posts hp m st hd).trans (State.withdrawCredits_posts _)

theorem State.checkHeads_posts (s : State) : s.Posts s.checkHeads := by
  refine State.Posts.foldl _ (fun u p hm => ?_) s
  have hp := List.mem_range.mp hm
  split
  next => exact .refl u
  next m st hd =>
    have hne : u.doomedMsg p ≠ none := by simp [hd]
    split
    · exact (State.bump_posts rfl 1).trans (State.failMsg_posts hp m st (by rw [State.doomedMsg_bump u 1 p hp]; exact hne))
    · exact State.failMsg_posts hp m st hne

theorem State.requestCredits_posts (s : State) : s.Posts s.requestCredits :=
  s.checkHeads_posts.trans (State.Posts.foldl _ (fun u _ _ => u.requestPair_posts _ _) _)

theorem State.Posts.tasks {s t : State} (h : s.Posts t) : t.tasks = s.tasks := by rw [h.frame]

theorem State.Posts.sameMem {s t : State} (h : s.Posts t) : s.sameMem t := fun a => by rw [h.frame]; rfl

theorem State.Posts.port {s t : State} (h : s.Posts t) (p : Nat) : t.port p = s.port p := by
  unfold State.port
  rw [h.ports]

theorem State.Posts.spStopped {s t : State} (h : s.Posts t) {p : Nat} (hp : p < 64) (hs : s.spStopped p = true) :
    t.spStopped p = true := (State.bit_congr (h.calm p hp (State.doomedMsg_of_stopped hs)).1 31).trans hs

/-- A port has stopped for a message, which stays in its place: every FIFO, every task and all of memory are as they were. -/
structure State.portStops (s t : State) (p : Nat) (st : Status) (m : Msg) : Prop where
  stopped : t.spStopped p = true
  status : t.fld (R.spStatus p) 0 16 = st.toNat
  num : t.reg (R.spErrNum p) = m.num
  ports : t.ports = s.ports
  tasks : t.tasks = s.tasks
  mem : s.sameMem t

theorem State.portStops.posts {s t u : State} {p : Nat} {st : Status} {m : Msg} (h : s.portStops t p st m) (hp : p < 64) (k : t.Posts u) :
    s.portStops u p st m := by
  obtain ⟨hs, hn, -⟩ := k.calm p hp (State.doomedMsg_of_stopped h.stopped)
  exact ⟨k.spStopped hp h.stopped, (State.fld_congr hs 0 16).trans h.status, hn.trans h.num, k.ports.trans h.ports,
    k.tasks.trans h.tasks, fun a => (k.sameMem a).trans (h.mem a)⟩

theorem State.portStops.port {s t : State} {p : Nat} {st : Status} {m : Msg} (h : s.portStops t p st m) (k : Nat) : t.port k = s.port k := by
  unfold State.port
  rw [h.ports]

/-- R273: a message that fails stops its port. -/
theorem State.failMsg_stops {s : State} {p : Nat} (hp : p < 64) (hs : s.spStopped p = false) (m : Msg) (st : Status) :
    s.portStops (s.failMsg p m st).requestCredits p st m := by
  obtain ⟨h1, h2, h3⟩ := s.stopPort_spec p m st
  obtain ⟨r, c, hw⟩ := s.stopPort_shape p m st
  have hstop : s.portStops (s.stopPort p m st) p st m :=
    ⟨h1, h2, h3, by rw [hw], by rw [hw], fun a => by rw [hw]; rfl⟩
  rw [State.failMsg_of_running hs]
  exact (hstop.posts hp (State.withdrawCredits_posts _)).posts hp (State.requestCredits_posts _)

/-- A message that a stopped port loses: the port stays stopped, the others go on. -/
theorem State.failMsg_requested_of_stopped {s : State} {p : Nat} (hp : p < 64) (hs : s.spStopped p = true) (m : Msg) (st : Status) :
    ∃ t, (s.failMsg p m st).requestCredits = t ∧ t.spStopped p = true ∧
      (t.port p).fifo = (s.port p).fifo.filter (fun x => decide (x.num ≠ m.num)) ∧
      t.reg (R.spFailed p) = s.reg (R.spFailed p) + 1 ∧ t.tasks = s.tasks ∧ s.sameMem t := by
  have k := (s.failMsg p m st).requestCredits_posts
  rw [State.failMsg_of_stopped hs] at k ⊢
  obtain ⟨⟨r, c, hshape⟩, hregs⟩ := (s.wrapAdd (R.spFailed p) 1).countTag_shape R.tcFailed m.tag 1
  have hfail : ((s.wrapAdd (R.spFailed p) 1).countTag R.tcFailed m.tag 1).reg (R.spFailed p) = s.reg (R.spFailed p) + 1 :=
    (hregs _ (fun j hj => by simp only [R.spFailed, R.tcFailed]; omega)).trans (State.reg_setReg_self _ _ _)
  have hst : ((s.wrapAdd (R.spFailed p) 1).countTag R.tcFailed m.tag 1).reg (R.spStatus p) = s.reg (R.spStatus p) :=
    (hregs _ (fun j hj => by simp only [R.spStatus, R.tcFailed]; omega)).trans (State.reg_setReg_ne _ _ (spRegs_ne (k := p)).2.1)
  generalize (s.port p).fifo.filter (fun x => decide (x.num ≠ m.num)) = l at k ⊢
  generalize (s.wrapAdd (R.spFailed p) 1).countTag R.tcFailed m.tag 1 = u at hshape hfail hst k ⊢
  have hstop : (u.setFifo p l).spStopped p = true := by
    refine Eq.trans ?_ (Eq.trans (State.bit_congr hst 31) hs)
    exact congrArg (fun n => decide (n = 1)) (State.fld_setFld_other _ _ 16 5 _ 31 1 (by decide))
  have hfifo : ((u.setFifo p l).port p).fifo = l :=
    congrArg SendPort.fifo (sget_sset_self portDefault u.ports p { u.port p with fifo := l })
  refine ⟨_, rfl, k.spStopped hp hstop, ?_, ?_, ?_, fun a => (k.sameMem a).trans ?_⟩
  · rw [k.port]
    exact hfifo
  · refine (k.calm p hp (State.doomedMsg_of_stopped hstop)).2.2.trans (Eq.trans ?_ hfail)
    exact State.reg_setFld_ne _ _ _ _ (Ne.symm (spRegs_ne (k := p)).2.1)
  · rw [k.tasks, hshape]
    rfl
  · rw [hshape]
    rfl

end Sys2Proof.Machine
end

section
namespace Sys2Proof.Machine

open Sys2Proof

/-!
### Send ports (R267, R268, R270, R273, R274)
-/

theorem State.port_putPort_self (s : State) (p : Nat) (r : SendPort) : (s.putPort p r).port p = r :=
  sget_sset_self portDefault s.ports p r

theorem State.port_putPort_ne (s : State) {p k : Nat} (r : SendPort) (h : k ≠ p) : (s.putPort p r).port k = s.port k :=
  sget_sset_ne portDefault s.ports r h

theorem State.fifo_setFifo_self (s : State) (p : Nat) (l : List Msg) : ((s.setFifo p l).port p).fifo = l :=
  congrArg SendPort.fifo (s.port_putPort_self p { s.port p with fifo := l })

theorem State.fifo_setFifo_ne (s : State) {p k : Nat} (l : List Msg) (h : k ≠ p) : (s.setFifo p l).port k = s.port k :=
  s.port_putPort_ne { s.port p with fifo := l } h

theorem State.fifo_restartWait (s : State) (p k : Nat) : ((s.restartWait p).port k).fifo = (s.port k).fifo := by
  by_cases h : k = p
  · subst h
    exact (congrArg SendPort.fifo (s.port_putPort_self k { s.port k with waited := 0 })).trans rfl
  · exact congrArg SendPort.fifo (s.port_putPort_ne { s.port p with waited := 0 } h)

theorem State.reg_restartWait (s : State) (p o : Nat) : (s.restartWait p).reg o = s.reg o := rfl

/-- Whether a message can be carried depends on its node and its length, this chip's number and the peers alone. -/
theorem State.msgFault_congr {s t : State} (hi : t.reg R.nodeId = s.reg R.nodeId)
    (hd : ∀ n < 1024, t.reg (R.fePeerCfg n) = s.reg (R.fePeerCfg n)) {m m' : Msg} (hl : m'.len8m1 = m.len8m1) (hn : m'.node = m.node) :
    t.msgFault m' = s.msgFault m := by
  unfold State.msgFault
  rw [State.bit_congr hi, State.deadNode_congr hd, hl, hn]

theorem State.doomedMsg_of_sound {s : State} {p : Nat} (h : ∀ m ∈ (s.port p).fifo, s.msgFault m = none) : s.doomedMsg p = none := by
  unfold State.doomedMsg
  split
  · rfl
  · split
    · rfl
    next m hm =>
      have hmem : m ∈ (s.port p).fifo := List.mem_of_mem_filter (List.mem_of_mem_head? hm)
      rw [h m hmem]

/-- A stopped port with its FIFO as an action leaves it, running again. -/
def State.reopen (s : State) (p : Nat) (l : List Msg) : State := ((s.setFifo p l).setBit (R.spStatus p) 31 false).restartWait p

theorem State.reopen_shape (s : State) (p : Nat) (l : List Msg) : ∃ r x, s.reopen p l = { s with regs := r, ports := x } :=
  ⟨(s.reopen p l).regs, (s.reopen p l).ports, rfl⟩

theorem State.reg_reopen (s : State) {p o : Nat} (l : List Msg) (h : o ≠ R.spStatus p) : (s.reopen p l).reg o = s.reg o :=
  (State.reg_restartWait _ _ _).trans ((State.reg_setBit_ne (s.setFifo p l) 31 false h).trans
    (State.reg_setFld_ne (s.putPort p { s.port p with fifo := l }) _ _ _ h))

theorem State.fifo_reopen (s : State) (p : Nat) (l : List Msg) : ((s.reopen p l).port p).fifo = l := by
  have hf := s.fifo_setFifo_self p l
  unfold State.reopen
  rw [State.fifo_restartWait, State.port_setBit']
  exact hf

theorem State.spStopped_reopen (s : State) (p : Nat) (l : List Msg) : (s.reopen p l).spStopped p = false := by
  unfold State.reopen State.spStopped
  generalize s.setFifo p l = u
  exact (State.bit_congr (State.reg_restartWait _ _ _) 31).trans (u.bit_setBit_self _ _ _ (by decide))

theorem State.msgFault_reopen (s : State) (p : Nat) (l : List Msg) {m m' : Msg} (hl : m'.len8m1 = m.len8m1) (hn : m'.node = m.node) :
    (s.reopen p l).msgFault m' = s.msgFault m :=
  State.msgFault_congr (s.reg_reopen l (by simp only [R.nodeId, R.spStatus]; omega))
    (fun n hn => s.reg_reopen l (by simp only [R.fePeerCfg, R.spStatus]; omega)) hl hn

/-- R273: what an action on a stopped port leaves, when the waiting messages have asked for credit. -/
theorem State.reopened (s : State) {p : Nat} (hp : p < 64) (l : List Msg) :
    ∃ t, (s.reopen p l).requestCredits = t ∧ (t.port p).fifo = l ∧
      ((∀ m ∈ l, s.msgFault m = none) → t.spStopped p = false ∧ t.reg (R.spFailed p) = s.reg (R.spFailed p)) ∧
      t.tasks = s.tasks ∧ s.sameMem t := by
  have k := (s.reopen p l).requestCredits_posts
  obtain ⟨r, x, hshape⟩ := s.reopen_shape p l
  refine ⟨_, rfl, ?_, fun hs => ?_, ?_, fun a => (k.sameMem a).trans ?_⟩
  · rw [k.port]
    exact s.fifo_reopen p l
  · have hd : (s.reopen p l).doomedMsg p = none := State.doomedMsg_of_sound (fun m hm => by
      rw [s.fifo_reopen p l] at hm
      exact (s.msgFault_reopen p l rfl rfl).trans (hs m hm))
    obtain ⟨h1, -, h3⟩ := k.calm p hp hd
    exact ⟨(State.bit_congr h1 31).trans (s.spStopped_reopen p l), h3.trans (s.reg_reopen l (Ne.symm (spRegs_ne (k := p)).2.1))⟩
  · rw [k.tasks, hshape]
  · rw [hshape]
    rfl

/-- A resumed message, as if accepted now. -/
def State.acceptedAgain (s : State) (p : Nat) (m : Msg) : Msg :=
  if s.failedMsg p m then { m with slot := none, sent := false, order := 64 * s.cycle + p, port := none } else m

theorem State.acceptedAgain_same (s : State) (p : Nat) (m : Msg) :
    (s.acceptedAgain p m).len8m1 = m.len8m1 ∧ (s.acceptedAgain p m).node = m.node := by
  unfold State.acceptedAgain
  split
  · exact ⟨rfl, rfl⟩
  · exact ⟨rfl, rfl⟩

theorem resumePort_of_stopped {s : State} {p : Nat} (h : s.spStopped p = true) :
    resumePort p s = (s.reopen p ((s.port p).fifo.map (s.acceptedAgain p))).requestCredits := if_neg (by simp [h])

theorem discardPort_of_stopped {s : State} {p : Nat} (h : s.spStopped p = true) :
    discardPort p s = (s.reopen p ((s.port p).fifo.filter (fun m => ! s.failedMsg p m))).requestCredits := if_neg (by simp [h])

theorem flushPort_of_stopped {s : State} {p : Nat} (h : s.spStopped p = true) :
    flushPort p s = ((s.wrapAdd (R.spFailed p) (s.port p).fifo.length).reopen p []).requestCredits := if_neg (by simp [h])

/-- R268: the message that a write of SP_SEND gives. -/
def State.newMsg (s : State) (p : Nat) (v : Word) : Msg :=
  let node := s.fld (R.spDest p) 0 16
  let tag := s.fld (R.spDest p) 16 16
  { num := s.reg (R.spAccepted p), node := node, tag := tag,
    seq := sget (fun _ => 0) s.msgSeq (pairKey node tag) -
      BitVec.ofNat 32 ((s.ports.flatMap (fun x => x.2.fifo)).countP (s.laterPorts p node tag)),
    len8m1 := getField v 0 5, payload := s.payload p (8 * (getField v 0 5 + 1)), order := 64 * s.cycle + p, slot := none, sent := false,
    at_ := 0, port := none }

/-- A message that comes after another of its pair, with the next SEQ. -/
def State.movedUp (s : State) (p node tag : Nat) (m : Msg) : Msg := if s.laterPorts p node tag m then { m with seq := m.seq + 1 } else m

theorem sget_map_port (ps : SMap SendPort) (f : List Msg → List Msg) (hf : f [] = []) (k : Nat) :
    (sget portDefault (ps.map (fun x => (x.1, { x.2 with fifo := f x.2.fifo }))) k).fifo = f (sget portDefault ps k).fifo := by
  induction ps with
  | nil => exact hf.symm
  | cons x l ih =>
    rw [List.map_cons, sget_cons, sget_cons]
    split
    · rfl
    · exact ih

theorem State.fifo_bumpLater (s : State) (p node tag k : Nat) :
    ((s.bumpLater p node tag).port k).fifo = (s.port k).fifo.map (s.movedUp p node tag) :=
  sget_map_port s.ports (List.map (s.movedUp p node tag)) rfl k

/-- The message at the end of its port's FIFO, before the wait of the port's oldest is counted. -/
def State.appended (s : State) (p : Nat) (m : Msg) : State :=
  let s1 := ((s.bumpLater p m.node m.tag).setFifo p ((s.port p).fifo ++ [m])).wrapAdd (R.spAccepted p) 1
  { s1 with msgSeq := sset (fun _ => 0) s1.msgSeq (pairKey m.node m.tag) (sget (fun _ => 0) s.msgSeq (pairKey m.node m.tag) + 1) }

theorem sendMessage_of_room {s : State} {p : Nat} {v : Word} (h : (s.port p).fifo.length < 16) :
    sendMessage p v s = if (s.port p).fifo = [] then (s.appended p (s.newMsg p v)).restartWait p else s.appended p (s.newMsg p v) :=
  if_neg (by omega)

theorem spAccepted_ne {p : Nat} : R.spAccepted p ≠ R.spStatus p := by
  simp only [R.spAccepted, R.spStatus]
  omega

theorem State.bumpLater_shape (s : State) (p node tag : Nat) : ∃ x, s.bumpLater p node tag = { s with ports := x } := ⟨_, rfl⟩

theorem State.setFifo_shape (s : State) (p : Nat) (l : List Msg) : ∃ r x, s.setFifo p l = { s with regs := r, ports := x } :=
  ⟨(s.setFifo p l).regs, (s.setFifo p l).ports, rfl⟩

theorem State.reg_setFifo_ne (s : State) {p o : Nat} (l : List Msg) (h : o ≠ R.spStatus p) : (s.setFifo p l).reg o = s.reg o :=
  State.reg_setFld_ne (s.putPort p { s.port p with fifo := l }) _ _ _ h

theorem State.fifo_withSeq (s : State) (off n : Nat) (q : SMap Word) (k : Nat) :
    ({ (s.wrapAdd off n) with msgSeq := q } : State).port k = s.port k := rfl

/-- What accepting a message does. -/
theorem State.appended_spec (s : State) (p : Nat) (m : Msg) : ∃ t, s.appended p m = t ∧ (t.port p).fifo = (s.port p).fifo ++ [m] ∧
    t.reg (R.spAccepted p) = s.reg (R.spAccepted p) + 1 ∧
    sget (fun _ => 0) t.msgSeq (pairKey m.node m.tag) = sget (fun _ => 0) s.msgSeq (pairKey m.node m.tag) + 1 ∧
    (∀ k, k ≠ p → (t.port k).fifo = (s.port k).fifo.map (s.movedUp p m.node m.tag)) ∧
    t = { s with regs := t.regs, ports := t.ports, msgSeq := t.msgSeq } ∧ s.regsBut t [R.spStatus p, R.spAccepted p] := by
  have hother := s.fifo_bumpLater p m.node m.tag
  obtain ⟨x, hb⟩ := s.bumpLater_shape p m.node m.tag
  unfold State.appended
  generalize sget (fun _ => 0) s.msgSeq (pairKey m.node m.tag) + 1 = q
  generalize s.bumpLater p m.node m.tag = u at hother hb ⊢
  have hself := u.fifo_setFifo_self p ((s.port p).fifo ++ [m])
  have hne (k : Nat) (hk : k ≠ p) := u.fifo_setFifo_ne ((s.port p).fifo ++ [m]) hk
  have hreg (o : Nat) (ho : o ≠ R.spStatus p) := u.reg_setFifo_ne ((s.port p).fifo ++ [m]) ho
  obtain ⟨r, y, hf⟩ := u.setFifo_shape p ((s.port p).fifo ++ [m])
  generalize u.setFifo p ((s.port p).fifo ++ [m]) = w at hself hne hreg hf ⊢
  have hu (o : Nat) : u.reg o = s.reg o := by
    rw [hb]
    rfl
  refine ⟨_, rfl, ?_, ?_, sget_sset_self _ _ _ _, fun k hk => ?_, ?_, fun o ho => ?_⟩
  · rw [State.fifo_withSeq]
    exact hself
  · refine (State.reg_setReg_self _ _ _).trans ?_
    rw [hreg _ spAccepted_ne, hu]
    rfl
  · rw [State.fifo_withSeq, hne k hk]
    exact hother k
  · rw [hf, hb]
    rfl
  · simp only [List.mem_cons, List.not_mem_nil, or_false, not_or] at ho
    exact (State.reg_setReg_ne w _ ho.2).trans ((hreg o ho.1).trans (hu o))

/-- Settles O48: the actions of a port come down to its FIFO as they leave it and to what the waiting messages ask for, which
leaves a sound port alone. -/
theorem sendPorts : Obligations.SendPorts := by
  unfold Obligations.SendPorts
  intro src p v s
  refine ⟨fun hw => ⟨fun hfull => ?_, fun hroom => ?_⟩, fun hw hs => ⟨?_, ?_, ?_⟩, fun hw hs => ⟨?_, ?_, ?_⟩, fun m k hl hs hm => ⟨?_, ?_⟩⟩
  · have he : sendMessage p v s = s.hwSet (R.spStatus p) 30 := if_pos hfull
    exact ⟨_, (State.regWrite_of_takesWrite hw v _).trans (congrArg Host.Outcome.next he), s.bit_hwSet_self _ _ (by decide),
      s.onlyRegs_hwSet _ _⟩
  · obtain ⟨t, ht, hfifo, hnum, hseq, hothers, hshape, hregs⟩ := s.appended_spec p (s.newMsg p v)
    have he := sendMessage_of_room (v := v) hroom
    rw [ht] at he
    have hx := (State.regWrite_of_takesWrite hw v (sendMessage p v)).trans (congrArg Host.Outcome.next he)
    split at hx
    · refine ⟨_, s.newMsg p v, hx, (t.fifo_restartWait p p).trans hfifo, rfl, rfl, rfl, rfl, rfl, rfl, rfl, hnum, hseq,
        fun k hk => (t.fifo_restartWait p k).trans (hothers k hk), ?_, hregs⟩
      rw [hshape]
      rfl
    · exact ⟨_, s.newMsg p v, hx, hfifo, rfl, rfl, rfl, rfl, rfl, rfl, rfl, hnum, hseq, hothers, hshape, hregs⟩
  · obtain ⟨t, ht, hfifo, hsound, htasks, hmem⟩ := s.reopened p.isLt ((s.port p).fifo.map (s.acceptedAgain p))
    refine ⟨t, (State.regWrite_of_takesWrite hw 1 _).trans (congrArg Host.Outcome.next ((resumePort_of_stopped hs).trans ht)), hfifo,
      fun h => (hsound (fun m hm => ?_)).1, htasks, hmem⟩
    obtain ⟨m', hm', rfl⟩ := List.mem_map.mp hm
    obtain ⟨hlen, hnode⟩ := s.acceptedAgain_same p m'
    exact (State.msgFault_congr rfl (fun _ _ => rfl) hlen hnode).trans (h m' hm')
  · obtain ⟨t, ht, hfifo, hsound, htasks, hmem⟩ := s.reopened p.isLt ((s.port p).fifo.filter (fun m => ! s.failedMsg p m))
    exact ⟨t, (State.regWrite_of_takesWrite hw 2 _).trans (congrArg Host.Outcome.next ((discardPort_of_stopped hs).trans ht)), hfifo,
      fun h => (hsound (fun m hm => h m (List.mem_of_mem_filter hm))).1, htasks, hmem⟩
  · obtain ⟨t, ht, hfifo, hsound, htasks, hmem⟩ := (s.wrapAdd (R.spFailed p) (s.port p).fifo.length).reopened p.isLt []
    obtain ⟨hrun, hfail⟩ := hsound (fun m hm => nomatch hm)
    exact ⟨t, (State.regWrite_of_takesWrite hw 4 _).trans (congrArg Host.Outcome.next ((flushPort_of_stopped hs).trans ht)), hfifo, hrun,
      hfail.trans (State.reg_wrapAdd_self _ _ _), htasks, hmem⟩
  · exact (State.regWrite_of_takesWrite hw 1 _).trans (congrArg Host.Outcome.next (if_pos (by simp [hs])))
  · exact (State.regWrite_of_takesWrite hw 2 _).trans (congrArg Host.Outcome.next (if_pos (by simp [hs])))
  · exact (State.regWrite_of_takesWrite hw 4 _).trans (congrArg Host.Outcome.next (if_pos (by simp [hs])))
  · intro h0 hlim
    have hx : sendWatchdog p s = (s.failMsg p m St.sendWatchdog).requestCredits := by
      unfold sendWatchdog
      rw [hl]
      exact if_pos (by simp [hs, hm, h0, hlim])
    have k := State.failMsg_stops p.isLt hs m St.sendWatchdog
    exact ⟨_, congrArg Host.Outcome.next hx, k.stopped, k.status, k.num, congrArg SendPort.fifo (k.port p), k.tasks, k.mem⟩
  · intro hlim
    refine congrArg Host.Outcome.next ?_
    unfold sendWatchdog
    rw [hl]
    refine if_neg (fun h => ?_)
    simp only [Bool.and_eq_true, decide_eq_true_eq] at h
    omega

end Sys2Proof.Machine
end

section
namespace Sys2Proof.Machine

open Sys2Proof

/-!
### Receive endpoints (R262 to R266, R269, R271, R272)
-/

theorem State.endpoint_putEndpoint_self (s : State) (r : Nat) (x : RxRun) : (s.putEndpoint r x).endpoint r = x :=
  sget_sset_self rxDefault s.rx r x

theorem State.endpoint_putEndpoint_ne (s : State) {r k : Nat} (x : RxRun) (h : k ≠ r) : (s.putEndpoint r x).endpoint k = s.endpoint k :=
  sget_sset_ne rxDefault s.rx x h

/-- What granting slots of an endpoint changes: its tail, what is held of it, and what leaves. -/
structure State.Grants (s t : State) (r : Nat) : Prop where
  frame : t = { s with regs := t.regs, rx := t.rx, out := t.out, fabricHeld := t.fabricHeld }
  regs : s.regsBut t [R.rxTail r]
  others : ∀ k, k ≠ r → t.endpoint k = s.endpoint k
  kept : s.outKept t

theorem State.Grants.refl (s : State) (r : Nat) : s.Grants s r := ⟨rfl, fun _ _ => rfl, fun _ _ => rfl, .refl s⟩

theorem State.Grants.trans {s t u : State} {r : Nat} (h : s.Grants t r) (k : t.Grants u r) : s.Grants u r :=
  ⟨by rw [k.frame, h.frame], fun o ho => (k.regs o ho).trans (h.regs o ho), fun j hj => (k.others j hj).trans (h.others j hj),
    h.kept.trans k.kept⟩

theorem State.Grants.reg {s t : State} {r o : Nat} (h : s.Grants t r) (ho : o ≠ R.rxTail r) : t.reg o = s.reg o :=
  h.regs o (by simp [ho])

theorem State.putEndpoint_grants (s : State) (r : Nat) (x : RxRun) : s.Grants (s.putEndpoint r x) r :=
  ⟨rfl, fun _ _ => rfl, fun _ hk => s.endpoint_putEndpoint_ne x hk, .of_eq rfl rfl⟩

theorem State.Grants.setTail {s t : State} {r : Nat} (h : s.Grants t r) (lo n v : Nat) : s.Grants (t.setFld (R.rxTail r) lo n v) r :=
  h.trans ⟨rfl, fun _ ho => t.reg_setFld_ne lo n v (List.ne_of_not_mem_cons ho), fun _ _ => rfl, .of_eq rfl rfl⟩

/-- The tail moved on past one slot. -/
def State.advanceTail (s : State) (r : Nat) : State :=
  let n := (s.rxTailOf r + 1) % s.rxSlots r
  let s1 := s.setFld (R.rxTail r) 0 16 n
  if n = 0 then s1.setBit (R.rxTail r) 31 (! s.bit (R.rxTail r) 31) else s1

theorem State.advanceTail_grants (s : State) (r : Nat) : s.Grants (s.advanceTail r) r ∧ (s.advanceTail r).rx = s.rx := by
  unfold State.advanceTail
  dsimp only
  have h := (State.Grants.refl s r).setTail 0 16 ((s.rxTailOf r + 1) % s.rxSlots r)
  have hrx : (s.setFld (R.rxTail r) 0 16 ((s.rxTailOf r + 1) % s.rxSlots r)).rx = s.rx := rfl
  generalize s.setFld (R.rxTail r) 0 16 ((s.rxTailOf r + 1) % s.rxSlots r) = u at h hrx ⊢
  split
  · exact ⟨h.setTail 31 1 _, hrx⟩
  · exact ⟨h, hrx⟩

/-- The grant of the slot at the tail. -/
def State.tailGrant (s : State) (r node : Nat) : RxGrant :=
  { slot := s.rxTailOf r, addr := s.rxSlotAddr r (s.rxTailOf r), node := node, phase := s.bit (R.rxTail r) 31, at_ := s.cycle, msg := none }

/-- A slot granted. -/
def State.addGrant (s : State) (r : Nat) (g : RxGrant) : State :=
  s.putEndpoint r { s.endpoint r with granted := (s.endpoint r).granted ++ [g] }

theorem State.takeSlot_eq (s : State) (r node : Nat) : s.takeSlot r node = (s.advanceTail r).addGrant r (s.tailGrant r node) := rfl

theorem State.takeSlot_grants (s : State) (r node : Nat) :
    s.Grants (s.takeSlot r node) r ∧ ((s.takeSlot r node).endpoint r).granted.length = (s.endpoint r).granted.length + 1 := by
  obtain ⟨h, hrx⟩ := s.advanceTail_grants r
  have he : (s.advanceTail r).endpoint r = s.endpoint r := by
    unfold State.endpoint
    rw [hrx]
  rw [State.takeSlot_eq]
  generalize s.tailGrant r node = g
  generalize s.advanceTail r = u at h he ⊢
  refine ⟨h.trans (u.putEndpoint_grants r _), ?_⟩
  unfold State.addGrant
  rw [State.endpoint_putEndpoint_self, he, List.length_append]
  rfl

theorem State.takeSlots_grants (s : State) (r node j : Nat) :
    s.Grants ((List.range j).foldl (fun u _ => u.takeSlot r node) s) r ∧
      (((List.range j).foldl (fun u _ => u.takeSlot r node) s).endpoint r).granted.length = (s.endpoint r).granted.length + j := by
  induction j with
  | zero => exact ⟨.refl s r, rfl⟩
  | succ j ih =>
    rw [List.range_succ, List.foldl_append]
    obtain ⟨h, hl⟩ := ih
    generalize (List.range j).foldl (fun u _ => u.takeSlot r node) s = u at h hl ⊢
    obtain ⟨k, hk⟩ := u.takeSlot_grants r node
    exact ⟨h.trans k, by rw [List.foldl_cons, List.foldl_nil, hk, hl, Nat.add_assoc]⟩

theorem creditGrant_plain (n t : Nat) (l : List Nat) (p : Nat) : (Out.creditGrant n t l p).plain := ⟨fun _ _ => rfl, rfl, fun _ => rfl⟩
theorem creditQueued_plain (n t p : Nat) : (Out.creditQueued n t p).plain := ⟨fun _ _ => rfl, rfl, fun _ => rfl⟩
theorem creditRetry_plain (n t p : Nat) : (Out.creditRetry n t p).plain := ⟨fun _ _ => rfl, rfl, fun _ => rfl⟩
theorem creditRefused_plain (n t : Nat) (st : Status) (p : Nat) : (Out.creditRefused n t st p).plain := ⟨fun _ _ => rfl, rfl, fun _ => rfl⟩
theorem messageAnswer_plain (n t : Nat) (q : Word) (st : Status) (p : Nat) : (Out.messageAnswer n t q st p).plain :=
  ⟨fun _ _ => rfl, rfl, fun _ => rfl⟩
theorem heartbeat_plain (n : Nat) (i : DWord) (p : Nat) : (Out.heartbeat n i p).plain := ⟨fun _ _ => rfl, rfl, fun _ => rfl⟩

/-- The registers of an endpoint and of the fabric's ports, by where they lie. -/
theorem feLaneStatus_ne_rxTail {p r : Nat} (_ : p < 32) (_ : r < 256) : R.feLaneStatus p ≠ R.rxTail r := by
  simp only [R.feLaneStatus, R.rxTail]
  omega

/-- An answer leaves a state that grants have led to as it would have left the first. -/
theorem State.Grants.sentAnswer {s t u : State} {r node : Nat} {o : Out} (hr : r < 256) (h : s.Grants t r) (ho : t.out = s.out)
    (hh : t.fabricHeld = s.fabricHeld) (k : t.sentAnswer u node o) : s.sentAnswer u node o := by
  have hf := h.frame
  refine State.sentAnswer_congr k ?_ (h.reg ?_) ho hh
    (State.portOf_congr (fun p hp => h.reg (feLaneStatus_ne_rxTail hp hr)) ?_ ?_ ?_ ?_ hh o)
  · exact State.fld_congr (h.reg (by simp only [R.nodeId, R.rxTail]; omega)) 0 16
  · simp only [R.feStatus, R.rxTail]
    omega
  · rw [hf]
  · rw [hf]
  · rw [hf]
  · rw [hf]

/-- R269: what a grant does. -/
theorem State.grantSlots_spec (s : State) {r : Nat} (hr : r < 256) (node k : Nat) :
    s.Grants (s.grantSlots r node k) r ∧
      s.sentAnswer (s.grantSlots r node k) node (.creditGrant node (s.rxTagOf r)
        ((List.range (min k (s.rxFree r))).map (fun i => (s.rxTailOf r + i) % s.rxSlots r)) 0) ∧
      ((s.grantSlots r node k).endpoint r).granted.length = (s.endpoint r).granted.length + min k (s.rxFree r) := by
  have hquiet : ∀ u : State, (u.takeSlot r node).out = u.out ∧ (u.takeSlot r node).fabricHeld = u.fabricHeld := fun u => by
    rw [State.takeSlot_eq]
    unfold State.advanceTail
    dsimp only
    split <;> exact ⟨rfl, rfl⟩
  unfold State.grantSlots
  dsimp only
  generalize (List.range (min k (s.rxFree r))).map (fun i => (s.rxTailOf r + i) % s.rxSlots r) = slots
  obtain ⟨h, hl⟩ := s.takeSlots_grants r node (min k (s.rxFree r))
  have hout : ((List.range (min k (s.rxFree r))).foldl (fun u _ => u.takeSlot r node) s).out = s.out ∧
      ((List.range (min k (s.rxFree r))).foldl (fun u _ => u.takeSlot r node) s).fabricHeld = s.fabricHeld :=
    List.foldlRecOn (motive := fun u : State => u.out = s.out ∧ u.fabricHeld = s.fabricHeld) _ _ ⟨rfl, rfl⟩
      (fun u hu _ _ => ⟨(hquiet u).1.trans hu.1, (hquiet u).2.trans hu.2⟩)
  generalize (List.range (min k (s.rxFree r))).foldl (fun u _ => u.takeSlot r node) s = u at h hl hout ⊢
  obtain ⟨a, b, hx, hs⟩ := State.answerTo_of_plain (creditGrant_plain node (s.rxTagOf r) slots 0) u node
  rw [hx]
  exact ⟨h.trans ⟨rfl, fun _ _ => rfl, fun _ _ => rfl, hs.outKept⟩, h.sentAnswer hr hout.1 hout.2 hs, hl⟩

/-- R269: freed slots go to the requests that wait. -/
theorem State.serveWaiting_grants (s : State) {r : Nat} (hr : r < 256) : s.Grants (s.serveWaiting r) r := by
  unfold State.serveWaiting
  refine List.foldlRecOn (motive := fun u : State => s.Grants u r) _ _ (.refl s r) (fun u hu w _ => ?_)
  split
  · obtain ⟨h, -, -⟩ := u.grantSlots_spec hr w.1 w.2
    generalize u.grantSlots r w.1 w.2 = v at h ⊢
    exact (hu.trans h).trans (v.putEndpoint_grants r _)
  · exact hu

theorem State.serveWaiting_of_none {s : State} {r : Nat} (h : (s.endpoint r).wait = []) : s.serveWaiting r = s := by
  unfold State.serveWaiting
  rw [h]
  rfl

/-! ### Void slots (R264, R271) -/

/-- A slot is no longer granted, and counts as voided. -/
def State.dropGrant (s : State) (r : Nat) (g : RxGrant) : State :=
  (s.putEndpoint r { s.endpoint r with granted := (s.endpoint r).granted.filter (fun h => decide (h ≠ g)) }).bump (R.rxVoided r) 1

/-- What voiding a slot may change: registers of counts, the slot's line, what is held of its endpoint. -/
structure State.Voids (s t : State) (r : Nat) : Prop where
  frame : t = { s with regs := t.regs, now := t.now, mem := t.mem, rx := t.rx, freeCtr := t.freeCtr }
  regs : ∀ o, o ≠ R.rxVoided r → (∀ g < 3, o ≠ R.tuRefused g) → t.reg o = s.reg o
  others : ∀ k, k ≠ r → t.endpoint k = s.endpoint k
  wait : (t.endpoint r).wait = (s.endpoint r).wait

theorem State.Voids.refl (s : State) (r : Nat) : s.Voids s r := ⟨rfl, fun _ _ _ => rfl, fun _ _ => rfl, rfl⟩

theorem State.Voids.trans {s t u : State} {r : Nat} (h : s.Voids t r) (k : t.Voids u r) : s.Voids u r :=
  ⟨by rw [k.frame, h.frame], fun o h1 h2 => (k.regs o h1 h2).trans (h.regs o h1 h2), fun j hj => (k.others j hj).trans (h.others j hj),
    k.wait.trans h.wait⟩

theorem State.dropGrant_voids (s : State) (r : Nat) (g : RxGrant) : s.Voids (s.dropGrant r g) r :=
  ⟨rfl, fun _ h _ => State.reg_bump_ne _ _ h, fun _ hk => (State.endpoint_bump' _ _ _ _).trans (s.endpoint_putEndpoint_ne _ hk),
    (congrArg RxRun.wait ((State.endpoint_bump' _ _ _ _).trans (s.endpoint_putEndpoint_self r _))).trans rfl⟩

theorem State.dropGrant_granted (s : State) (r : Nat) (g : RxGrant) :
    ((s.dropGrant r g).endpoint r).granted = (s.endpoint r).granted.filter (fun h => decide (h ≠ g)) :=
  congrArg RxRun.granted ((State.endpoint_bump' _ _ _ _).trans (s.endpoint_putEndpoint_self r _))

theorem groupOf_lt (a : Nat) : groupOf a < 3 := by
  unfold groupOf
  split <;> decide

theorem memVerdict_good_ne {s : State} {ctx : Nat} {acc : Acc} {a len : Nat} {st : Status} (h : s.memVerdict ctx acc a len .good = some st) :
    st ≠ St.uncorrectable := by
  unfold State.memVerdict at h
  split at h
  · rw [← Option.some.inj h]
    decide
  · split at h
    · rw [← Option.some.inj h]
      decide
    · exact nomatch h

/-- A refusal without an uncorrectable word is counted at most. -/
theorem State.memRefusal_voids {st : Status} (h : st ≠ St.uncorrectable) (s : State) (a r : Nat) :
    s.Voids (s.memRefusal st a none) r ∧ (s.memRefusal st a none).rx = s.rx ∧ (s.memRefusal st a none).mem = s.mem := by
  unfold State.memRefusal
  rw [if_neg h]
  split
  · exact ⟨⟨rfl, fun _ _ h2 => s.reg_bump_ne 1 (h2 _ (groupOf_lt a)), fun _ _ => rfl, rfl⟩, rfl, rfl⟩
  · exact ⟨.refl s r, rfl, rfl⟩

theorem State.voidSlot_of_served {s : State} {r : Nat} {g : RxGrant}
    (h : (s.dropGrant r g).memVerdict ((s.dropGrant r g).rxCtx r) .write g.addr 64 .good = none) :
    s.voidSlot r g = ((s.dropGrant r g).writeMem g.addr (voidLine (s.dropGrant r g).freeCtr g.addr g.phase)).stepFree := by
  unfold State.dropGrant at h ⊢
  unfold State.voidSlot
  dsimp only
  rw [h]

theorem State.voidSlot_of_refused {s : State} {r : Nat} {g : RxGrant} {st : Status}
    (h : (s.dropGrant r g).memVerdict ((s.dropGrant r g).rxCtx r) .write g.addr 64 .good = some st) :
    s.voidSlot r g = (s.dropGrant r g).memRefusal st g.addr none := by
  unfold State.dropGrant at h ⊢
  unfold State.voidSlot
  dsimp only
  rw [h]

theorem voidLine_length (n a : Nat) (ph : Bool) : (voidLine n a ph).length = 64 := by simp [voidLine]

/-- R271: what voiding a slot does. -/
theorem State.voidSlot_spec (s : State) (r : Nat) (g : RxGrant) : s.Voids (s.voidSlot r g) r ∧ s.sameMemBut (s.voidSlot r g) g.addr 64 ∧
    ((s.voidSlot r g).endpoint r).granted = (s.endpoint r).granted.filter (fun h => decide (h ≠ g)) := by
  have hd := s.dropGrant_voids r g
  have hg := s.dropGrant_granted r g
  have hm : ∀ a, (s.dropGrant r g).readByte a = s.readByte a := fun _ => rfl
  cases hv : (s.dropGrant r g).memVerdict ((s.dropGrant r g).rxCtx r) .write g.addr 64 .good with
  | none =>
    rw [State.voidSlot_of_served hv]
    generalize s.dropGrant r g = u at hd hg hm ⊢
    have hw := u.sameMemBut_writeMem g.addr (voidLine u.freeCtr g.addr g.phase)
    rw [voidLine_length] at hw
    generalize voidLine u.freeCtr g.addr g.phase = bs at hw ⊢
    exact ⟨hd.trans ⟨rfl, fun _ _ _ => rfl, fun _ _ => rfl, rfl⟩, fun x hx => (hw x hx).trans (hm x), hg⟩
  | some st =>
    rw [State.voidSlot_of_refused hv]
    obtain ⟨hr, hrx, hmem⟩ := State.memRefusal_voids (memVerdict_good_ne hv) (s.dropGrant r g) g.addr r
    generalize s.dropGrant r g = u at hd hg hm hr hrx hmem ⊢
    have hsame := u.sameMem_memRefusal st g.addr none
    refine ⟨hd.trans hr, fun x _ => (hsame x).trans (hm x), ?_⟩
    rw [← hg]
    unfold State.endpoint
    rw [hrx]

/-- R272: voiding what a test picks of the grants that hold no message. -/
theorem State.voidGrants_spec (s : State) (r : Nat) (p : RxGrant → Bool) : s.Voids (s.voidGrants r p) r ∧
    (∀ a, (∀ g, g ∈ (s.endpoint r).granted → p g = true → g.msg = none → a < g.addr ∨ g.addr + 64 ≤ a) →
      (s.voidGrants r p).readByte a = s.readByte a) ∧
    ((s.voidGrants r p).endpoint r).granted = (s.endpoint r).granted.filter (fun g => ! (p g && g.msg.isNone)) := by
  have key : ∀ (l : List RxGrant) (u : State), u.Voids (l.foldl (fun u g => u.voidSlot r g) u) r ∧
      (∀ a, (∀ g ∈ l, a < g.addr ∨ g.addr + 64 ≤ a) → (l.foldl (fun u g => u.voidSlot r g) u).readByte a = u.readByte a) ∧
      ((l.foldl (fun u g => u.voidSlot r g) u).endpoint r).granted = (u.endpoint r).granted.filter (fun h => decide (h ∉ l)) := by
    intro l
    induction l with
    | nil => exact fun u => ⟨.refl u r, fun _ _ => rfl, by simp⟩
    | cons g l ih =>
      intro u
      obtain ⟨h1, h2, h3⟩ := u.voidSlot_spec r g
      obtain ⟨k1, k2, k3⟩ := ih (u.voidSlot r g)
      refine ⟨h1.trans k1, fun a ha => (k2 a (fun x hx => ha x (List.mem_cons_of_mem _ hx))).trans (h2 a (ha g List.mem_cons_self)), ?_⟩
      rw [List.foldl_cons, k3, h3, List.filter_filter]
      refine List.filter_congr (fun x _ => ?_)
      simp only [List.mem_cons, not_or, Bool.decide_and]
      exact Bool.and_comm _ _
  obtain ⟨h1, h2, h3⟩ := key ((s.endpoint r).granted.filter (fun g => p g && g.msg.isNone)) s
  refine ⟨h1, fun a ha => h2 a (fun g hg => ?_), h3.trans (List.filter_congr (fun g hg => ?_))⟩
  · simp only [List.mem_filter, Bool.and_eq_true, Option.isNone_iff_eq_none] at hg
    exact ha g hg.1 hg.2.1 hg.2.2
  · simp only [List.mem_filter, hg, true_and]
    cases p g && g.msg.isNone <;> rfl

/-! ### O45 -/

theorem rxCfg_ne (r : Nat) : R.rxCfg r ≠ R.rxHead r ∧ R.rxCfg r ≠ R.rxTail r ∧ R.rxHead r ≠ R.rxTail r ∧ R.rxCfg r ≠ R.rxVoided r := by
  simp only [R.rxCfg, R.rxHead, R.rxTail, R.rxVoided]
  omega

/-- R262: an endpoint whose ring starts anew. -/
theorem State.rxStart_spec (s : State) (r : Nat) : ∃ t, s.rxStart r = t ∧ t.rxEn r = true ∧ t.rxHeadOf r = 0 ∧ t.rxTailOf r = 0 ∧
    t.bit (R.rxTail r) 31 = true ∧
    t.endpoint r = { wait := [], granted := (s.endpoint r).granted.filter (fun g => g.msg.isSome) } ∧
    t = { s with regs := t.regs, rx := t.rx } ∧ s.regsBut t [R.rxCfg r, R.rxHead r, R.rxTail r] ∧
    (∀ k, k ≠ r → t.endpoint k = s.endpoint k) := by
  obtain ⟨h1, h2, h3, -⟩ := rxCfg_ne r
  have hregs : ∃ x, s.rxStart r = { ((s.setBit (R.rxCfg r) 31 true).setReg (R.rxHead r) 0).setReg (R.rxTail r) 0x80000000 with rx := x } ∧
      sget rxDefault x r = { wait := [], granted := (s.endpoint r).granted.filter (fun g => g.msg.isSome) } ∧
      ∀ k, k ≠ r → sget rxDefault x k = s.endpoint k :=
    ⟨_, rfl, sget_sset_self _ _ _ _, fun k hk => sget_sset_ne _ _ _ hk⟩
  obtain ⟨x, hx, hself, hne⟩ := hregs
  have hcfg : (s.setBit (R.rxCfg r) 31 true).bit (R.rxCfg r) 31 = true := State.bit_setBit_self _ _ _ _ (by decide)
  have hother (o : Nat) (ho : o ≠ R.rxCfg r) : (s.setBit (R.rxCfg r) 31 true).reg o = s.reg o := s.reg_setBit_ne 31 true ho
  obtain ⟨w, hw⟩ : ∃ w, s.setBit (R.rxCfg r) 31 true = { s with regs := w } := ⟨_, rfl⟩
  rw [hw] at hcfg hother hx
  generalize hu : ({ s with regs := w } : State) = u at hcfg hother hx
  have hut : ∀ o, o ≠ R.rxHead r → o ≠ R.rxTail r → ((u.setReg (R.rxHead r) 0).setReg (R.rxTail r) 0x80000000).reg o = u.reg o :=
    fun o h h' => (State.reg_setReg_ne _ _ h').trans (State.reg_setReg_ne _ _ h)
  have hh : ((u.setReg (R.rxHead r) 0).setReg (R.rxTail r) 0x80000000).reg (R.rxHead r) = 0 :=
    (State.reg_setReg_ne _ _ h3).trans (State.reg_setReg_self _ _ _)
  have ht : ((u.setReg (R.rxHead r) 0).setReg (R.rxTail r) 0x80000000).reg (R.rxTail r) = 0x80000000 := State.reg_setReg_self _ _ _
  obtain ⟨w', hw'⟩ : ∃ w', (u.setReg (R.rxHead r) 0).setReg (R.rxTail r) 0x80000000 = { s with regs := w' } := ⟨_, by rw [← hu]; rfl⟩
  rw [hw'] at hx hut hh ht
  refine ⟨_, hx, ?_, ?_, ?_, ?_, hself, rfl, fun o ho => ?_, hne⟩
  · exact (State.bit_congr (hut _ h1 h2) 31).trans hcfg
  · exact (congrArg (fun w => getField w 0 16) hh).trans (by decide)
  · exact (congrArg (fun w => getField w 0 16) ht).trans (by decide)
  · exact (congrArg (fun w => decide (getField w 31 1 = 1)) ht).trans (by decide)
  · simp only [List.mem_cons, List.not_mem_nil, or_false, not_or] at ho
    exact (hut o ho.2.1 ho.2.2).trans (hother o ho.1)

/-- The requests of an endpoint's wait list are refused: no endpoint reads their tag. -/
def State.refuseWaiting (s : State) (tag : Nat) (l : List (Nat × Nat)) : State :=
  l.foldl (fun u w => u.answerTo w.1 (.creditRefused w.1 tag St.noReader 0)) s

theorem State.refuseWaiting_spec (s : State) (tag : Nat) (l : List (Nat × Nat)) :
    (∃ a b, s.refuseWaiting tag l = { s with out := a, fabricHeld := b }) ∧ s.outKept (s.refuseWaiting tag l) ∧
      ∀ w, w ∈ l → (w.1 = s.node ∨ s.feActive = true) → (s.refuseWaiting tag l).packetLeft (.creditRefused w.1 tag St.noReader) := by
  induction l generalizing s with
  | nil => exact ⟨⟨_, _, rfl⟩, .refl s, fun w hw => nomatch hw⟩
  | cons x l ih =>
    obtain ⟨a, b, he, hs⟩ := State.answerTo_of_plain (creditRefused_plain x.1 tag St.noReader 0) s x.1
    obtain ⟨⟨a', b', h1⟩, h2, h3⟩ := ih { s with out := a, fabricHeld := b }
    have hcons : s.refuseWaiting tag (x :: l) = ({ s with out := a, fabricHeld := b } : State).refuseWaiting tag l :=
      congrArg (fun u : State => u.refuseWaiting tag l) he
    rw [hcons]
    refine ⟨⟨a', b', h1⟩, hs.outKept.trans h2, fun w hw ha => ?_⟩
    obtain rfl | hl := List.mem_cons.mp hw
    · exact h2.packetLeft (hs.packetLeft (o := .creditRefused w.1 tag St.noReader) (fun _ _ => rfl) ha)
    · exact h3 w hl ha

theorem State.rxStop_eq (s : State) (r : Nat) : s.rxStop r =
    (((s.refuseWaiting (s.rxTagOf r) (s.endpoint r).wait).putEndpoint r { s.endpoint r with wait := [] }).voidGrants r
      (fun _ => true)).setBit (R.rxCfg r) 31 false := rfl

/-- R272: an endpoint that is disabled. -/
theorem State.rxStop_spec (s : State) (r : Nat) : ∃ t, s.rxStop r = t ∧ t.rxEn r = false ∧ (t.endpoint r).wait = [] ∧
    (∀ g, g ∈ (t.endpoint r).granted → g.msg.isSome = true) ∧
    (∀ w, w ∈ (s.endpoint r).wait → (w.1 = s.node ∨ s.feActive = true) →
      t.packetLeft (.creditRefused w.1 (s.rxTagOf r) St.noReader)) ∧
    (∀ a, (∀ g, g ∈ (s.endpoint r).granted → g.msg = none → a < g.addr ∨ g.addr + 64 ≤ a) → t.readByte a = s.readByte a) ∧
    t.tasks = s.tasks ∧ (∀ k, k ≠ r → t.endpoint k = s.endpoint k) := by
  obtain ⟨⟨a, b, h1⟩, -, hleft⟩ := s.refuseWaiting_spec (s.rxTagOf r) (s.endpoint r).wait
  rw [State.rxStop_eq]
  generalize s.refuseWaiting (s.rxTagOf r) (s.endpoint r).wait = u at h1 hleft ⊢
  have hself := u.endpoint_putEndpoint_self r { s.endpoint r with wait := [] }
  have hne (k : Nat) (hk : k ≠ r) := u.endpoint_putEndpoint_ne { s.endpoint r with wait := [] } hk
  obtain ⟨x, hx⟩ : ∃ x, u.putEndpoint r { s.endpoint r with wait := [] } = { u with rx := x } := ⟨_, rfl⟩
  rw [hx] at hself hne ⊢
  obtain ⟨hv, hmem, hgr⟩ := State.voidGrants_spec { u with rx := x } r (fun _ => true)
  generalize State.voidGrants { u with rx := x } r (fun _ => true) = w at hv hmem hgr ⊢
  have hframe := hv.frame
  refine ⟨_, rfl, State.bit_setBit_self _ _ _ _ (by decide), ?_, fun g hg => ?_, fun z hz ha => ?_, fun c hc => ?_, ?_, fun k hk => ?_⟩
  · rw [State.endpoint_setBit', hv.wait, hself]
  · rw [State.endpoint_setBit', hgr] at hg
    simpa using (List.mem_filter.mp hg).2
  · obtain ⟨port, hp⟩ := hleft z hz ha
    refine ⟨port, ?_⟩
    rw [State.setBit_out, State.setBit_fabricHeld, hframe]
    exact hp
  · rw [State.readByte_setBit', hmem c (fun g hg _ hn => hc g (by rw [hself] at hg; exact hg) hn), h1]
    rfl
  · rw [State.setBit_tasks, hframe, h1]
  · rw [State.endpoint_setBit', hv.others k hk, hne k hk, h1]
    rfl

theorem writeRxCfg_of_enabled {s : State} {r : Nat} {v : Word} (he : s.rxEn r = true) (hv : getField v 31 1 = 0) :
    writeRxCfg r v s = s.rxStop r ∨ writeRxCfg r v s = (s.rxStop r).setBit (R.rxCfg r) 29 false := by
  unfold writeRxCfg
  dsimp only
  rw [if_pos he, if_neg (by omega)]
  split
  · exact .inr rfl
  · exact .inl rfl

/-- RX_CFG as a write that enables leaves it before its checks. -/
def State.rxWritten (s : State) (r : Nat) (v : Word) : State :=
  s.setReg (R.rxCfg r) (writtenWord (s.reg (R.rxCfg r)) v 0x4F7FCFFF 0x20000000 0
    (s.setNow (R.rxCfg r) &&& s.reg (R.rxCfg r) &&& 0x20000000).toNat)

theorem writeRxCfg_of_disabled {s : State} {r : Nat} {v : Word} (he : s.rxEn r = false) (hv : getField v 31 1 = 1) :
    writeRxCfg r v s = if (s.rxWritten r v).rxEnableOk r then (s.rxWritten r v).rxStart r else (s.rxWritten r v).hwSet (R.rxCfg r) 29 := by
  unfold writeRxCfg State.rxWritten
  dsimp only
  rw [if_neg (by simp [he]), if_neg (by omega)]

theorem State.rxEn_rxWritten (s : State) (r : Nat) (v : Word) (he : s.rxEn r = false) : (s.rxWritten r v).rxEn r = false := by
  have hb : (s.reg (R.rxCfg r)).getLsbD 31 = false := by
    rw [← State.bit_eq_getLsbD]
    exact he
  unfold State.rxEn State.rxWritten
  rw [State.bit_eq_getLsbD, State.reg_setReg_self]
  unfold writtenWord
  simp only [BitVec.getLsbD_or, BitVec.getLsbD_and, BitVec.getLsbD_not, hb, BitVec.ofNat_toNat, BitVec.setWidth_eq, BitVec.getLsbD_ofNat]
  have h1 : Nat.testBit 0x4F7FCFFF 31 = false := by decide
  simp [h1]

/-- Settles O45: an endpoint that starts, one that stops, and one whose reader has moved on, each by what its operation leaves
alone. -/
theorem receiveEndpoints : Obligations.ReceiveEndpoints := by
  unfold Obligations.ReceiveEndpoints
  intro src r v s
  refine ⟨fun hw he hv hok => ?_, fun hw he hv hok => ?_, fun hw he hv => ?_, fun hw he hlt => ?_, fun hw hno => ?_⟩
  · have hx : writeRxCfg r v s = (s.rxWritten r v).rxStart r := (writeRxCfg_of_disabled he hv).trans (if_pos hok)
    obtain ⟨t, ht, h1, h2, h3, h4, h5, h6, h7, h8⟩ := (s.rxWritten r v).rxStart_spec r
    refine ⟨t, (State.regWrite_of_takesWrite hw v _).trans (congrArg Host.Outcome.next (hx.trans ht)), h1, h2, h3, h4, h5, ?_,
      fun o ho => (h7 o ho).trans ?_, h8⟩
    · rw [h6]
      rfl
    · exact State.reg_setReg_ne s _ (List.ne_of_not_mem_cons ho)
  · have hx : writeRxCfg r v s = (s.rxWritten r v).hwSet (R.rxCfg r) 29 :=
      (writeRxCfg_of_disabled he hv).trans (if_neg (fun h => by
        have hc := h.symm.trans hok
        exact Bool.noConfusion hc))
    refine ⟨_, (State.regWrite_of_takesWrite hw v _).trans (congrArg Host.Outcome.next hx), ?_, State.bit_hwSet_self _ _ _ (by decide), ?_⟩
    · exact (State.bit_setBit_other (s.rxWritten r v) _ 29 31 true (by decide)).trans (s.rxEn_rxWritten r v he)
    · obtain ⟨w, hw'⟩ : ∃ w, s.rxWritten r v = s.setReg (R.rxCfg r) w := ⟨_, rfl⟩
      rw [hw']
      refine ⟨rfl, fun o ho => ?_⟩
      exact (State.reg_hwSet_ne _ _ (List.ne_of_not_mem_cons ho)).trans (State.reg_setReg_ne s _ (List.ne_of_not_mem_cons ho))
  · obtain ⟨t, ht, h1, h2, h3, h4, h5, h6, h7⟩ := s.rxStop_spec r
    obtain hx | hx := writeRxCfg_of_enabled he hv
    · exact ⟨t, (State.regWrite_of_takesWrite hw v _).trans (congrArg Host.Outcome.next (hx.trans ht)), h1, h2, h3, h4, h5, h6, h7⟩
    · rw [ht] at hx
      refine ⟨_, (State.regWrite_of_takesWrite hw v _).trans (congrArg Host.Outcome.next hx), ?_, ?_, ?_, fun w hw' ha => ?_,
        fun a ha => ?_, ?_, fun k hk => ?_⟩
      · exact (State.bit_setBit_other t _ 29 31 false (by decide)).trans h1
      · rw [State.endpoint_setBit']
        exact h2
      · rw [State.endpoint_setBit']
        exact h3
      · obtain ⟨port, hp⟩ := h4 w hw' ha
        exact ⟨port, by rw [State.setBit_out, State.setBit_fabricHeld]; exact hp⟩
      · rw [State.readByte_setBit']
        exact h5 a ha
      · rw [State.setBit_tasks]
        exact h6
      · rw [State.endpoint_setBit']
        exact h7 k hk
  · have hx : writeRxHead r v s = (s.setReg (R.rxHead r) (BitVec.ofNat 32 (getField v 0 16))).serveWaiting r :=
      if_pos (by simp [he, hlt])
    have hlow : getField v 0 16 < 2 ^ 16 := getField_lt v 0 16
    have hset := s.fld_low_setReg_self (R.rxHead r) (getField v 0 16) 16 hlow (by decide)
    have hother (o : Nat) (ho : o ≠ R.rxHead r) := s.reg_setReg_ne (BitVec.ofNat 32 (getField v 0 16)) ho
    obtain ⟨w, hw'⟩ := s.setReg_shape (R.rxHead r) (BitVec.ofNat 32 (getField v 0 16))
    rw [hw'] at hx hset hother
    have k := State.serveWaiting_grants { s with regs := w } r.isLt
    have hframe := k.frame
    refine ⟨_, (State.regWrite_of_takesWrite hw v _).trans (congrArg Host.Outcome.next hx), ?_, fun a => ?_, ?_, fun o ho => ?_, fun hwait => ?_⟩
    · exact (State.fld_congr (k.reg (rxCfg_ne r).2.2.1) 0 16).trans hset
    · rw [hframe]
      rfl
    · rw [hframe]
    · simp only [List.mem_cons, List.not_mem_nil, or_false, not_or] at ho
      exact (k.reg ho.2).trans (hother o ho.1)
    · rw [State.serveWaiting_of_none (s := { s with regs := w }) hwait]
      exact ⟨rfl, fun o ho => hother o (List.ne_of_not_mem_cons ho)⟩
  · refine (State.regWrite_of_takesWrite hw v _).trans (congrArg Host.Outcome.next (if_neg (fun h => ?_)))
    simp only [Bool.and_eq_true, decide_eq_true_eq] at h
    obtain hf | hge := hno
    · rw [hf] at h
      exact Bool.noConfusion h.1
    · omega

end Sys2Proof.Machine
end

section
namespace Sys2Proof.Machine

open Sys2Proof

/-!
### Credit requests and their answers (R263, R269, R272, R276)
-/

/-- What the drop or the refusal of a packet counts. -/
structure State.Counts (s t : State) (l : List Nat) : Prop where
  frame : t = { s with regs := t.regs, now := t.now }
  regs : ∀ o, o ∉ l → (∀ k < 64, o ≠ R.tcDropped k) → t.reg o = s.reg o

theorem State.countDropped (s : State) (off tag : Nat) (ho : ∀ k < 64, off ≠ R.tcDropped k) :
    s.Counts ((s.bump off 1).countTag R.tcDropped tag 1) [off] ∧
      ((s.bump off 1).countTag R.tcDropped tag 1).reg off = satAdd (s.reg off) 1 := by
  obtain ⟨⟨r, c, h⟩, hregs⟩ := (s.bump off 1).countTag_shape R.tcDropped tag 1
  refine ⟨⟨?_, fun o h1 h2 => (hregs o h2).trans (s.reg_bump_ne 1 (List.ne_of_not_mem_cons h1))⟩, (hregs off ho).trans (s.reg_bump_self off 1)⟩
  rw [h]
  rfl

/-- An answer leaves a state in which a packet has been counted as it would have left the one before. -/
theorem State.Counts.sentAnswer {s t u : State} {l : List Nat} {node : Nat} {o : Out} (h : s.Counts t l)
    (hl : R.feStatus ∉ l ∧ R.nodeId ∉ l ∧ ∀ p < 32, R.feLaneStatus p ∉ l) (k : t.sentAnswer u node o) : s.sentAnswer u node o := by
  have hf := h.frame
  obtain ⟨h1, h2, h3⟩ := hl
  have far (o : Nat) (ho : o < R.tcDropped 0 ∨ R.feLaneStatus 0 ≤ o) : ∀ k < 64, o ≠ R.tcDropped k := fun k hk => by
    simp only [R.tcDropped, R.feLaneStatus] at ho ⊢
    omega
  refine State.sentAnswer_congr k (State.fld_congr (h.regs _ h2 (far _ (by decide))) 0 16) (h.regs _ h1 (far _ (by decide)))
    (by rw [hf]) (by rw [hf]) (State.portOf_congr (fun p hp => h.regs _ (h3 p hp) (far _ ?_)) ?_ ?_ ?_ ?_ ?_ o)
  · simp only [R.feLaneStatus]
    omega
  · rw [hf]
  · rw [hf]
  · rw [hf]
  · rw [hf]
  · rw [hf]

/-- A packet that is counted and answered. -/
theorem State.Counts.answered {s t : State} {l : List Nat} (h : s.Counts t l)
    (hl : R.feStatus ∉ l ∧ R.nodeId ∉ l ∧ ∀ p < 32, R.feLaneStatus p ∉ l) {o : Out} (ho : o.plain) (node : Nat) :
    s.sentAnswer (t.answerTo node o) node o ∧ (∀ a, (t.answerTo node o).reg a = t.reg a) ∧
      t.answerTo node o = { s with regs := (t.answerTo node o).regs, now := (t.answerTo node o).now, out := (t.answerTo node o).out,
                                   fabricHeld := (t.answerTo node o).fabricHeld } := by
  obtain ⟨a, b, he, hs⟩ := State.answerTo_of_plain ho t node
  have hf := h.frame
  rw [he]
  refine ⟨h.sentAnswer hl hs, fun _ => rfl, ?_⟩
  rw [hf]

theorem feRegs_not_mem_rxRefused {r : Nat} (hr : r < 256) :
    R.feStatus ∉ [R.rxRefused r] ∧ R.nodeId ∉ [R.rxRefused r] ∧ ∀ p < 32, R.feLaneStatus p ∉ [R.rxRefused r] := by
  refine ⟨?_, ?_, fun p hp => ?_⟩ <;>
    simp only [List.mem_singleton, R.feStatus, R.nodeId, R.feLaneStatus, R.rxRefused] <;> omega

theorem feRegs_not_mem_feNoReader :
    R.feStatus ∉ [R.feNoReader] ∧ R.nodeId ∉ [R.feNoReader] ∧ ∀ p < 32, R.feLaneStatus p ∉ [R.feNoReader] := by
  refine ⟨by decide, by decide, fun p hp => ?_⟩
  simp only [List.mem_singleton, R.feLaneStatus, R.feNoReader]
  omega

theorem State.lt_of_rxFor {s : State} {tag r : Nat} (h : s.rxFor tag = some r) : r < 256 ∧ s.rxTagOf r = tag := by
  have hm := List.mem_range.mp (List.mem_of_find?_eq_some h)
  have hp := List.find?_some h
  simp only [Bool.and_eq_true, decide_eq_true_eq] at hp
  exact ⟨hm, hp.2⟩

/-- A request that is not for this endpoint to take. -/
theorem creditRequested_of_void {node tag count : Nat} {s : State}
    (h : (node ≠ s.node ∧ s.feActive = false) ∨ (node = s.node ∧ s.asks tag = false) ∨ s.power = .off) :
    creditRequested node tag count s = s := if_pos (by simpa using h)

theorem creditRequested_of_taken {node tag count : Nat} {s : State} (ho : s.power ≠ .off) (ha : node = s.node → s.asks tag = true)
    (hf : node ≠ s.node → s.feActive = true) :
    creditRequested node tag count s = (if s.below then s.wakeBy (.fabric node) else s).takeRequest node tag count := by
  refine if_neg ?_
  rintro (⟨h1, h2⟩ | ⟨h1, h2⟩ | h)
  · rw [hf h1] at h2
    exact absurd h2 (by decide)
  · rw [ha h1] at h2
    exact absurd h2 (by decide)
  · exact ho h

/-- What taking a request leaves alone: the power state and its registers. -/
theorem State.takeRequest_always_on (s : State) (node tag count : Nat) :
    (s.takeRequest node tag count).waking = s.waking ∧
      ∀ o, o < R.feNoReader → (s.takeRequest node tag count).reg o = s.reg o := by
  have plain {o : Out} (ho : o.plain) (t : State) : (t.answerTo node o).waking = t.waking ∧ ∀ a, (t.answerTo node o).reg a = t.reg a := by
    obtain ⟨a, b, he, -⟩ := State.answerTo_of_plain ho t node
    rw [he]
    exact ⟨rfl, fun _ => rfl⟩
  have counted {t : State} {l : List Nat} (h : s.Counts t l) (hl : ∀ o, o < R.feNoReader → o ∉ l) :
      t.waking = s.waking ∧ ∀ o, o < R.feNoReader → t.reg o = s.reg o := by
    refine ⟨by rw [h.frame], fun o ho => h.regs o (hl o ho) (fun k _ => ?_)⟩
    simp only [R.feNoReader, R.tcDropped] at ho ⊢
    omega
  have answered {t : State} {o : Out} (ho : o.plain) (h : t.waking = s.waking ∧ ∀ o, o < R.feNoReader → t.reg o = s.reg o) :
      (t.answerTo node o).waking = s.waking ∧ ∀ a, a < R.feNoReader → (t.answerTo node o).reg a = s.reg a :=
    ⟨(plain ho t).1.trans h.1, fun a ha => ((plain ho t).2 a).trans (h.2 a ha)⟩
  unfold State.takeRequest
  split
  next =>
    refine answered (creditRefused_plain _ _ _ _) (counted (s.countDropped R.feNoReader tag (by decide)).1 (fun o ho => ?_))
    simp only [List.mem_singleton]
    omega
  next r hr =>
    have hlt := (State.lt_of_rxFor hr).1
    dsimp only
    split
    · exact answered (creditRefused_plain _ _ _ _) ⟨rfl, fun _ _ => rfl⟩
    · split
      · refine answered (creditRefused_plain _ _ _ _) (counted (s.countDropped (R.rxRefused r) tag ?_).1 (fun o ho => ?_))
        · simp only [R.rxRefused, R.tcDropped]
          omega
        · simp only [List.mem_singleton, R.rxRefused, R.feNoReader] at ho ⊢
          omega
      · split
        · obtain ⟨h, -, -⟩ := s.grantSlots_spec hlt node count
          refine ⟨by rw [h.frame], fun o ho => h.reg ?_⟩
          simp only [R.rxTail, R.feNoReader] at ho ⊢
          omega
        · split
          · exact answered (creditQueued_plain _ _ _) ⟨rfl, fun _ _ => rfl⟩
          · exact answered (creditRetry_plain _ _ _) ⟨rfl, fun _ _ => rfl⟩

/-! ### A wake starts (R276, R392) -/

/-- The registers in which a wake is recorded. -/
def State.wakeNoted (s : State) (w : LatchedWake) : State :=
  (((s.setReg R.pwWake (BitVec.ofNat 32 (2 ^ 31 + (wakeCode w.source).1 * 2 ^ 28 + powerNumber s.power * 2 ^ 25))).setReg R.pwWakeDetail
    (BitVec.ofNat 32 (wakeCode w.source).2)).setReg64 R.pwWakeTimeLo w.time).noteSet R.pwWake 0x80000000

theorem State.startWake_eq (s : State) (w : LatchedWake) : s.startWake w =
    { (if s.power = .off then (s.wakeNoted w).hwSet R.rstCause 26 else s.wakeNoted w) with
      waking := some s.power, powerAt := s.cycle, wakeSeen := w.at_, latchedWake := none } := by
  unfold State.startWake State.wakeNoted
  generalize wakeCode w.source = c
  obtain ⟨src, detail⟩ := c
  rfl

theorem State.noteSet_shape (s : State) (off : Nat) (b : Word) : ∃ c, s.noteSet off b = { s with now := c } := ⟨_, rfl⟩

theorem State.wakeNoted_shape (s : State) (w : LatchedWake) : ∃ r c, s.wakeNoted w = { s with regs := r, now := c } := by
  unfold State.wakeNoted
  generalize BitVec.ofNat 32 (2 ^ 31 + (wakeCode w.source).1 * 2 ^ 28 + powerNumber s.power * 2 ^ 25) = v
  obtain ⟨r1, h1⟩ := s.setReg_shape R.pwWake v
  rw [h1]
  obtain ⟨r2, h2⟩ := State.setReg_shape { s with regs := r1 } R.pwWakeDetail (BitVec.ofNat 32 (wakeCode w.source).2)
  rw [h2]
  obtain ⟨r3, h3⟩ := State.setReg64_shape { s with regs := r2 } R.pwWakeTimeLo w.time
  rw [h3]
  obtain ⟨c, hc⟩ := State.noteSet_shape { s with regs := r3 } R.pwWake 0x80000000
  exact ⟨r3, c, hc⟩

theorem wakeCode_lt (w : WakeSource) : (wakeCode w).1 < 8 := by cases w <;> simp [wakeCode]

theorem powerNumber_le (p : PState) : powerNumber p ≤ 4 := by cases p <;> decide

theorem State.wakeNoted_spec (s : State) (w : LatchedWake) : (s.wakeNoted w).bit R.pwWake 31 = true ∧
    (s.wakeNoted w).fld R.pwWake 28 3 = (wakeCode w.source).1 ∧ (s.wakeNoted w).fld R.pwWake 25 3 = powerNumber s.power ∧
    (s.wakeNoted w).reg R.pwWakeDetail = BitVec.ofNat 32 (wakeCode w.source).2 ∧ (s.wakeNoted w).reg64 R.pwWakeTimeLo = w.time % 2 ^ 64 := by
  have hc := wakeCode_lt w.source
  have hp := powerNumber_le s.power
  unfold State.wakeNoted
  generalize (wakeCode w.source).1 = c at hc ⊢
  generalize powerNumber s.power = n at hp ⊢
  have hv : (2 ^ 31 + c * 2 ^ 28 + n * 2 ^ 25) % 2 ^ 32 = 2 ^ 31 + c * 2 ^ 28 + n * 2 ^ 25 := by omega
  have hwake : ((s.setReg R.pwWake (BitVec.ofNat 32 (2 ^ 31 + c * 2 ^ 28 + n * 2 ^ 25))).reg R.pwWake).toNat = 2 ^ 31 + c * 2 ^ 28 + n * 2 ^ 25 := by
    rw [State.reg_setReg_self, BitVec.toNat_ofNat, hv]
  generalize s.setReg R.pwWake (BitVec.ofNat 32 (2 ^ 31 + c * 2 ^ 28 + n * 2 ^ 25)) = u at hwake ⊢
  have hu : (((u.setReg R.pwWakeDetail (BitVec.ofNat 32 (wakeCode w.source).2)).setReg64 R.pwWakeTimeLo w.time).noteSet R.pwWake
      0x80000000).reg R.pwWake = u.reg R.pwWake := by
    rw [State.reg_noteSet', State.reg_setReg64_ne _ _ (by decide) (by decide), State.reg_setReg_ne _ _ (by decide)]
  refine ⟨?_, ?_, ?_, ?_, ?_⟩
  · rw [State.bit_eq, hu, decide_eq_true_eq]
    unfold getField
    rw [hwake]
    omega
  · unfold State.fld getField
    rw [hu, hwake]
    omega
  · unfold State.fld getField
    rw [hu, hwake]
    omega
  · rw [State.reg_noteSet', State.reg_setReg64_ne _ _ (by decide) (by decide), State.reg_setReg_self]
  · rw [State.reg64_noteSet', State.reg64_setReg64]

/-- R392: what the start of a wake records, and what else it does. -/
theorem State.startWake_spec (s : State) (w : LatchedWake) : ∃ t, s.startWake w = t ∧ t.bit R.pwWake 31 = true ∧
    t.fld R.pwWake 28 3 = (wakeCode w.source).1 ∧ t.fld R.pwWake 25 3 = powerNumber s.power ∧
    t.reg R.pwWakeDetail = BitVec.ofNat 32 (wakeCode w.source).2 ∧ t.reg64 R.pwWakeTimeLo = w.time % 2 ^ 64 ∧
    (s.power = .off → t.bit R.rstCause 26 = true) ∧
    ∃ r c, t = { s with regs := r, now := c, waking := some s.power, powerAt := s.cycle, wakeSeen := w.at_, latchedWake := none } := by
  obtain ⟨h1, h2, h3, h4, h5⟩ := s.wakeNoted_spec w
  obtain ⟨r, c, hs⟩ := s.wakeNoted_shape w
  rw [State.startWake_eq]
  generalize s.wakeNoted w = u at h1 h2 h3 h4 h5 hs ⊢
  have hreg (o : Nat) (ho : o ≠ R.rstCause) : (if s.power = .off then u.hwSet R.rstCause 26 else u).reg o = u.reg o := by
    split
    · exact u.reg_hwSet_ne 26 ho
    · rfl
  have hcause (h : s.power = .off) : (if s.power = .off then u.hwSet R.rstCause 26 else u).bit R.rstCause 26 = true := by
    rw [if_pos h]
    exact u.bit_hwSet_self _ _ (by decide)
  obtain ⟨r', c', hv⟩ : ∃ r' c', (if s.power = .off then u.hwSet R.rstCause 26 else u) = { s with regs := r', now := c' } := by
    split
    · exact ⟨(u.hwSet R.rstCause 26).regs, (u.hwSet R.rstCause 26).now, by rw [hs]; rfl⟩
    · exact ⟨r, c, hs⟩
  generalize (if s.power = .off then u.hwSet R.rstCause 26 else u) = v at hreg hcause hv ⊢
  have hwake := hreg R.pwWake (by decide)
  refine ⟨_, rfl, (State.bit_congr hwake 31).trans h1, (State.fld_congr hwake 28 3).trans h2, (State.fld_congr hwake 25 3).trans h3,
    (hreg _ (by decide)).trans h4, (State.reg64_congr (hreg _ (by decide)) (hreg _ (by decide))).trans h5, fun h => hcause h, r', c', ?_⟩
  rw [hv]

/-- R276: a request below Active starts a wake. -/
theorem wakeBy_fabric_spec {s : State} {node : Nat} (ho : s.power ≠ .off) (hb : s.below = true) (he : s.entering = none)
    (hw : s.waking = none) : ∃ t, s.wakeBy (.fabric node) = t ∧ t.waking = some s.power ∧ t.fld R.pwWake 28 3 = 4 ∧
      t.reg R.pwWakeDetail = BitVec.ofNat 32 (node % 2 ^ 16) := by
  have ha : s.power ≠ .active := by
    intro h
    unfold State.below at hb
    rw [he, hw, h] at hb
    exact absurd hb (by decide)
  have hwk : wakes s.power (.fabric node) = true := by
    cases hp : s.power with
    | active => exact absurd hp ha
    | off => exact absurd hp ho
    | idleGated => rfl
    | bankHold => rfl
    | retention => rfl
  have hx : s.wakeBy (.fabric node) = s.startWake { source := .fabric node, at_ := s.cycle, time := s.gtc } := by
    unfold State.wakeBy
    rw [he]
    dsimp only
    rw [hwk, hw]
    rfl
  obtain ⟨t, ht, -, h2, -, h4, -, -, r, c, hs⟩ := s.startWake_spec { source := .fabric node, at_ := s.cycle, time := s.gtc }
  exact ⟨t, hx.trans ht, by rw [hs], h2, h4⟩

/-! ### Answers at the source (R269) -/

theorem creditAnswered_of_here {s : State} {node tag : Nat} {c : CreditPair} (hc : c ∈ s.credits) (hn : c.node = node) (ht : c.tag = tag)
    (hw : c.waits = false) (a : CreditAnswer) : creditAnswered node tag a s = match a with
      | .grant slots => ({ (((s.pairWaiting node tag).zip slots).foldl State.sendTo s) with
          credits := (((s.pairWaiting node tag).zip slots).foldl State.sendTo s).credits.filter
            (fun c => ! (decide (c.node = node) && decide (c.tag = tag) && ! c.waits)) } : State).requestCredits
      | .queued => { s with credits := s.credits.map (fun c =>
          if (decide (c.node = node) && decide (c.tag = tag) && ! c.waits) = true then { c with state := .queued } else c) }
      | .retry => { s with credits := s.credits.map (fun c =>
          if (decide (c.node = node) && decide (c.tag = tag) && ! c.waits) = true then
            { c with state := .backoff c.wait, wait := min (2 * c.wait) (2 ^ 14), at_ := s.cycle } else c) } := by
  have hany : s.credits.any (fun c => decide (c.node = node) && decide (c.tag = tag) && ! c.waits) = true :=
    List.any_eq_true.mpr ⟨c, hc, by simp [hn, ht, hw]⟩
  refine (if_neg (by rw [hany]; decide)).trans ?_
  cases a <;> rfl

/-- A message on its way: its port, its credit pair and its task are left alone, but for what the port notes of it. -/
theorem State.emitTo_message (s : State) (node tag slot : Nat) (q : Word) (bs : List Byte) :
    (∃ x a b, s.emitTo node (.message node tag slot q bs 0) = { s with ports := x, out := a, fabricHeld := b }) ∧
      s.outKept (s.emitTo node (.message node tag slot q bs 0)) ∧
      ((node = s.node ∨ s.feEnabled = true) → (s.emitTo node (.message node tag slot q bs 0)).packetLeft (.message node tag slot q bs)) := by
  unfold State.emitTo
  split
  · exact ⟨⟨_, _, _, rfl⟩, ⟨fun _ h => List.mem_cons_of_mem _ h, fun _ h => h⟩, fun _ => ⟨0, .inl List.mem_cons_self⟩⟩
  next hne =>
    unfold State.emitFabric
    split
    · unfold State.placeOut
      split
      next p _ =>
        exact ⟨⟨_, _, _, rfl⟩, ⟨fun _ h => List.mem_cons_of_mem _ h, fun _ h => h⟩, fun _ => ⟨p, .inl List.mem_cons_self⟩⟩
      next =>
        exact ⟨⟨_, _, _, rfl⟩, ⟨fun _ h => h, fun _ h => List.mem_append_left _ h⟩,
          fun _ => ⟨0, .inr (List.mem_append_right _ (List.mem_singleton_self _))⟩⟩
    next hf =>
      exact ⟨⟨s.ports, _, _, rfl⟩, .refl s, fun ha => absurd (ha.resolve_left hne) hf⟩

/-- A message is marked as sent to its slot. -/
def State.markSent (s : State) (z : (Nat × Msg) × Nat) : State :=
  let put (y : Msg) : Msg := if y.num = z.1.2.num then { y with slot := some z.2, sent := true, at_ := s.cycle } else y
  let u := s.putPort z.1.1 { s.port z.1.1 with fifo := (s.port z.1.1).fifo.map put }
  if ((s.port z.1.1).fifo.map Msg.num).head? = some z.1.2.num then u.restartWait z.1.1 else u

theorem State.markSent_shape (s : State) (z : (Nat × Msg) × Nat) : ∃ x, s.markSent z = { s with ports := x } := by
  unfold State.markSent
  dsimp only
  split
  · exact ⟨_, rfl⟩
  · exact ⟨_, rfl⟩

theorem State.sendTo_eq (s : State) (z : (Nat × Msg) × Nat) :
    s.sendTo z = (s.markSent z).emitTo z.1.2.node (.message z.1.2.node z.1.2.tag z.2 z.1.2.seq z.1.2.payload 0) := rfl

theorem State.sendTo_spec (s : State) (z : (Nat × Msg) × Nat) :
    (∃ x a b, s.sendTo z = { s with ports := x, out := a, fabricHeld := b }) ∧ s.outKept (s.sendTo z) ∧
      ((z.1.2.node = s.node ∨ s.feEnabled = true) →
        (s.sendTo z).packetLeft (.message z.1.2.node z.1.2.tag z.2 z.1.2.seq z.1.2.payload)) := by
  obtain ⟨x, hx⟩ := s.markSent_shape z
  rw [State.sendTo_eq, hx]
  obtain ⟨⟨x', a, b, h1⟩, h2, h3⟩ := State.emitTo_message { s with ports := x } z.1.2.node z.1.2.tag z.2 z.1.2.seq z.1.2.payload
  exact ⟨⟨x', a, b, by rw [h1]⟩, ⟨h2.out, h2.held⟩, h3⟩

theorem State.sendAll_spec (s : State) (l : List ((Nat × Msg) × Nat)) :
    (∃ x a b, l.foldl State.sendTo s = { s with ports := x, out := a, fabricHeld := b }) ∧ s.outKept (l.foldl State.sendTo s) ∧
      ∀ z, z ∈ l → (z.1.2.node = s.node ∨ s.feEnabled = true) →
        (l.foldl State.sendTo s).packetLeft (.message z.1.2.node z.1.2.tag z.2 z.1.2.seq z.1.2.payload) := by
  induction l generalizing s with
  | nil => exact ⟨⟨_, _, _, rfl⟩, .refl s, fun z hz => nomatch hz⟩
  | cons y l ih =>
    obtain ⟨⟨x, a, b, h1⟩, h2, h3⟩ := s.sendTo_spec y
    obtain ⟨⟨x', a', b', k1⟩, k2, k3⟩ := ih (s.sendTo y)
    rw [List.foldl_cons]
    refine ⟨⟨x', a', b', by rw [k1, h1]⟩, h2.trans k2, fun z hz ha => ?_⟩
    obtain rfl | hl := List.mem_cons.mp hz
    · exact k2.packetLeft (h3 ha)
    · refine k3 z hl ?_
      rw [h1]
      exact ha

theorem State.of_mem_pairWaiting {s : State} {node tag : Nat} {x : Nat × Msg} (h : x ∈ s.pairWaiting node tag) :
    x.2.node = node ∧ x.2.tag = tag := by
  have hf := List.mem_filter.mp ((List.takeWhile_prefix _).subset h)
  simpa using hf.2

/-- R269: a grant sends the pair's waiting messages to their slots. -/
theorem granted_spec (s : State) (node tag : Nat) (slots : List Nat) (f : CreditPair → Bool) :
    ∃ t, ({ (((s.pairWaiting node tag).zip slots).foldl State.sendTo s) with
          credits := (((s.pairWaiting node tag).zip slots).foldl State.sendTo s).credits.filter f } : State).requestCredits = t ∧
      ((node = s.node ∨ s.feEnabled = true) → ∀ z, z ∈ (s.pairWaiting node tag).zip slots →
        t.packetLeft (.message node tag z.2 z.1.2.seq z.1.2.payload)) ∧ t.tasks = s.tasks ∧ s.sameMem t := by
  obtain ⟨⟨x, a, b, h1⟩, -, h3⟩ := s.sendAll_spec ((s.pairWaiting node tag).zip slots)
  have hpair : ∀ z ∈ (s.pairWaiting node tag).zip slots, z.1.2.node = node ∧ z.1.2.tag = tag :=
    fun z hz => State.of_mem_pairWaiting (List.of_mem_zip hz).1
  generalize (s.pairWaiting node tag).zip slots = l at h1 h3 hpair ⊢
  generalize l.foldl State.sendTo s = u at h1 h3 ⊢
  have k := State.requestCredits_posts { u with credits := u.credits.filter f }
  refine ⟨_, rfl, fun ha z hz => k.kept.packetLeft ?_, k.tasks.trans (by rw [h1]), fun c => (k.sameMem c).trans (by rw [h1]; rfl)⟩
  obtain ⟨hn, ht⟩ := hpair z hz
  have hleft := h3 z hz (by rw [hn]; exact ha)
  rw [hn, ht] at hleft
  exact hleft

/-- R269: a request whose back-off has ended goes out again. -/
theorem creditRetry_of_due {s : State} {node tag : Nat} {c : CreditPair} (hc : c ∈ s.credits) (hn : c.node = node) (ht : c.tag = tag)
    (hb : c.backOff s.cycle = true) : ∃ t, creditRetry node tag s = t ∧
      (∃ p, { c with state := .requested, count := min 16 (s.pairWaiting node tag).length, at_ := s.cycle, port := p } ∈ t.credits) ∧
      t = { s with credits := t.credits, out := t.out, fabricHeld := t.fabricHeld } ∧
      ((node = s.node ∨ s.feEnabled = true) → t.packetLeft (.creditRequest node tag (min 16 (s.pairWaiting node tag).length))) := by
  have hany : s.credits.any (fun c => decide (c.node = node) && decide (c.tag = tag) && c.backOff s.cycle) = true :=
    List.any_eq_true.mpr ⟨c, hc, by simp [hn, ht, hb]⟩
  generalize hk : min 16 (s.pairWaiting node tag).length = k
  have hx : creditRetry node tag s = ({ s with credits := s.credits.map (fun c =>
      if (decide (c.node = node) && decide (c.tag = tag) && c.backOff s.cycle) = true then
        { c with state := .requested, count := k, at_ := s.cycle, port := none } else c) } : State).emitTo node (.creditRequest node tag k 0) := by
    subst hk
    exact if_neg (by rw [hany]; decide)
  have hmem : { c with state := .requested, count := k, at_ := s.cycle, port := none } ∈ s.credits.map (fun c =>
      if (decide (c.node = node) && decide (c.tag = tag) && c.backOff s.cycle) = true then
        { c with state := .requested, count := k, at_ := s.cycle, port := none } else c) :=
    List.mem_map.mpr ⟨c, hc, if_pos (by simp [hn, ht, hb])⟩
  rw [hx]
  generalize s.credits.map (fun c => if (decide (c.node = node) && decide (c.tag = tag) && c.backOff s.cycle) = true then
    { c with state := .requested, count := k, at_ := s.cycle, port := none } else c) = cs at hmem ⊢
  refine ⟨_, rfl, ?_⟩
  unfold State.emitTo
  split
  · exact ⟨⟨none, hmem⟩, rfl, fun _ => ⟨0, .inl List.mem_cons_self⟩⟩
  next hne =>
    unfold State.emitFabric
    split
    · unfold State.placeOut
      split
      next p _ =>
        refine ⟨⟨some p, List.mem_map.mpr ⟨_, hmem, if_pos ⟨hn, ht⟩⟩⟩, rfl, fun _ => ⟨p, .inl List.mem_cons_self⟩⟩
      next => exact ⟨⟨none, hmem⟩, rfl, fun _ => ⟨0, .inr (List.mem_append_right _ (List.mem_singleton_self _))⟩⟩
    next hf => exact ⟨⟨none, hmem⟩, rfl, fun ha => absurd (ha.resolve_left hne) hf⟩

theorem creditRetry_of_waiting {s : State} {node tag : Nat}
    (h : ∀ c, c ∈ s.credits → c.node = node → c.tag = tag → c.backOff s.cycle = false) : creditRetry node tag s = s := by
  refine if_pos ?_
  rw [Bool.not_eq_true', Bool.eq_false_iff]
  intro ha
  obtain ⟨c, hc, hp⟩ := List.any_eq_true.mp ha
  simp only [Bool.and_eq_true, decide_eq_true_eq] at hp
  rw [h c hc hp.1.1 hp.1.2] at hp
  exact Bool.noConfusion hp.2

/-! ### O46 -/

theorem takeRequest_of_none {s : State} {node tag count : Nat} (h : s.rxFor tag = none) :
    s.takeRequest node tag count = (s.dropNoReader tag).answerTo node (.creditRefused node tag St.noReader 0) := by
  simp only [State.takeRequest, h]

theorem takeRequest_of_some {s : State} {node tag count r : Nat} (h : s.rxFor tag = some r) :
    s.takeRequest node tag count =
      if s.deadNode node then s.answerTo node (.creditRefused node tag St.deadDestination 0)
      else if ! s.rxAdmits r node then (s.rxRefuse r tag).answerTo node (.creditRefused node tag St.window 0)
      else if (s.endpoint r).wait = [] ∧ 0 < s.rxFree r ∧ s.rxReachable r then s.grantSlots r node count
      else if (s.endpoint r).wait.length < 64 then
        (s.putEndpoint r { s.endpoint r with wait := (s.endpoint r).wait ++ [(node, count)] }).answerTo node (.creditQueued node tag 0)
      else s.answerTo node (.creditRetry node tag 0) := by
  simp only [State.takeRequest, h]

/-- A request that is answered and leaves nothing else. -/
theorem State.answered_alone (s : State) {o : Out} (ho : o.plain) (node : Nat) : ∃ t, s.answerTo node o = t ∧ s.sentAnswer t node o ∧
    t = { s with out := t.out, fabricHeld := t.fabricHeld } := by
  obtain ⟨a, b, he, hs⟩ := State.answerTo_of_plain ho s node
  exact ⟨_, he, hs, rfl⟩

/-- Settles O46: a request by what its endpoint finds, an answer by what it makes of the pair's credit. -/
theorem creditProtocol : Obligations.CreditProtocol := by
  unfold Obligations.CreditProtocol
  refine ⟨fun node tag count s ho ha hf => ?_, fun node tag count s h => congrArg Host.Outcome.next (creditRequested_of_void ?_),
    fun node tag s c hc hn ht hw => ⟨fun slots => ?_, ?_, ?_⟩, fun node tag s => ⟨fun c hc hn ht hb => ?_, fun h => ?_⟩⟩
  · have hx := creditRequested_of_taken (count := count) ho ha hf
    have hactive (hb : s.below = false) : exec (.creditRequestArrival node tag count) s = .next (s.takeRequest node tag count) := by
      rw [hb] at hx
      exact congrArg Host.Outcome.next hx
    refine ⟨fun hb he hw => ?_, fun hb hr => ?_, fun r hb hr => ⟨fun hd => ?_, fun hd ha' => ?_, fun hd ha' => ⟨fun hopen => ?_,
      fun hshut hroom => ?_, fun hshut hfull => ?_⟩⟩⟩
    · obtain ⟨u, hu, h1, h2, h3⟩ := wakeBy_fabric_spec (node := node) ho hb he hw
      obtain ⟨k1, k2⟩ := u.takeRequest_always_on node tag count
      rw [hb, if_pos rfl, hu] at hx
      exact ⟨_, congrArg Host.Outcome.next hx, k1.trans h1, (State.fld_congr (k2 _ (by decide)) 28 3).trans h2, (k2 _ (by decide)).trans h3⟩
    · obtain ⟨hc, hn⟩ := s.countDropped R.feNoReader tag (by decide)
      obtain ⟨h1, h2, h3⟩ := hc.answered feRegs_not_mem_feNoReader (creditRefused_plain node tag St.noReader 0) node
      exact ⟨_, (hactive hb).trans (congrArg Host.Outcome.next (takeRequest_of_none hr)), (h2 _).trans hn, h1, h3⟩
    · obtain ⟨t, ht, h1, h2⟩ := s.answered_alone (creditRefused_plain node tag St.deadDestination 0) node
      refine ⟨t, (hactive hb).trans (congrArg Host.Outcome.next ?_), h1, h2⟩
      rw [takeRequest_of_some hr, if_pos hd]
      exact ht
    · have hlt := (State.lt_of_rxFor hr).1
      obtain ⟨hc, hn⟩ := s.countDropped (R.rxRefused r) tag (by simp only [R.rxRefused, R.tcDropped]; omega)
      obtain ⟨h1, h2, h3⟩ := hc.answered (feRegs_not_mem_rxRefused hlt) (creditRefused_plain node tag St.window 0) node
      refine ⟨_, (hactive hb).trans (congrArg Host.Outcome.next ?_), (h2 _).trans hn, h1, h3⟩
      rw [takeRequest_of_some hr, if_neg (by simp [hd]), if_pos (by simp [ha'])]
      rfl
    · obtain ⟨hlt, htag⟩ := State.lt_of_rxFor hr
      obtain ⟨h1, h2, h3⟩ := s.grantSlots_spec hlt node count
      refine ⟨_, (hactive hb).trans (congrArg Host.Outcome.next ?_), h2, h3, h1.frame, h1.regs⟩
      rw [takeRequest_of_some hr, if_neg (by simp [hd]), if_neg (by simp [ha']), if_pos hopen]
    · obtain ⟨hlt, -⟩ := State.lt_of_rxFor hr
      have hg := s.putEndpoint_grants r { s.endpoint r with wait := (s.endpoint r).wait ++ [(node, count)] }
      have hself := s.endpoint_putEndpoint_self r { s.endpoint r with wait := (s.endpoint r).wait ++ [(node, count)] }
      obtain ⟨x, hx'⟩ : ∃ x, s.putEndpoint r { s.endpoint r with wait := (s.endpoint r).wait ++ [(node, count)] } = { s with rx := x } :=
        ⟨_, rfl⟩
      rw [hx'] at hg hself
      obtain ⟨a, b, he, hs⟩ := State.answerTo_of_plain (creditQueued_plain node tag 0) { s with rx := x } node
      have k := hg.sentAnswer hlt rfl rfl hs
      rw [← he] at k
      refine ⟨({ s with rx := x } : State).answerTo node (.creditQueued node tag 0),
        (hactive hb).trans (congrArg Host.Outcome.next ?_), ?_, k, ?_⟩
      · rw [takeRequest_of_some hr, if_neg (by simp [hd]), if_neg (by simp [ha']), if_neg hshut, if_pos hroom, hx']
      · rw [he]
        exact congrArg RxRun.wait hself
      · rw [he]
    · obtain ⟨t, ht, h1, h2⟩ := s.answered_alone (creditRetry_plain node tag 0) node
      refine ⟨t, (hactive hb).trans (congrArg Host.Outcome.next ?_), h1, h2⟩
      rw [takeRequest_of_some hr, if_neg (by simp [hd]), if_neg (by simp [ha']), if_neg hshut, if_neg (by omega)]
      exact ht
  · exact h
  · obtain ⟨t, hx, hspec⟩ := granted_spec s node tag slots (fun c => ! (decide (c.node = node) && decide (c.tag = tag) && ! c.waits))
    exact ⟨t, congrArg Host.Outcome.next ((creditAnswered_of_here hc hn ht hw (.grant slots)).trans hx), hspec⟩
  · refine ⟨_, congrArg Host.Outcome.next (creditAnswered_of_here hc hn ht hw .queued), rfl, ?_, List.length_map _⟩
    exact List.mem_map.mpr ⟨c, hc, if_pos (by simp [hn, ht, hw])⟩
  · refine ⟨_, congrArg Host.Outcome.next (creditAnswered_of_here hc hn ht hw .retry), rfl, ?_, List.length_map _⟩
    exact List.mem_map.mpr ⟨c, hc, if_pos (by simp [hn, ht, hw])⟩
  · obtain ⟨t, hx, hspec⟩ := creditRetry_of_due hc hn ht hb
    exact ⟨t, congrArg Host.Outcome.next hx, hspec⟩
  · exact congrArg Host.Outcome.next (creditRetry_of_waiting h)

end Sys2Proof.Machine
end

section
namespace Sys2Proof.Machine

open Sys2Proof

/-!
### The SPD checks of a site (R296, R382)
-/

theorem State.site_putSite_self (s : State) (b : Nat) (x : SiteRun) : (s.putSite b x).site b = x :=
  sget_sset_self siteDefault s.sites b x

theorem State.site_putSite_ne (s : State) {b k : Nat} (x : SiteRun) (h : k ≠ b) : (s.putSite b x).site k = s.site k :=
  sget_sset_ne siteDefault s.sites x h

/-- A site takes a check's outcome and a state. -/
def State.siteChecked (s : State) (b check st : Nat) : State := (s.setFld (R.tbSiteStatus b) 0 8 check).setSiteState b st

theorem State.siteChecked_spec (s : State) (b st : Nat) {check : Nat} (hc : check < 256) :
    (s.siteChecked b check st).fld (R.tbSiteStatus b) 0 8 = check ∧ (s.siteChecked b check st).siteState b = st % 8 ∧
      (∃ r, s.siteChecked b check st = { s with regs := r }) ∧ s.regsBut (s.siteChecked b check st) [R.tbSiteStatus b] := by
  refine ⟨?_, State.fld_setFld_self _ _ 29 3 _ (by decide), ?_, fun o ho => ?_⟩
  · refine (State.fld_setFld_other _ _ 29 3 st 0 8 (by decide)).trans ((State.fld_setFld_self _ _ 0 8 _ (by decide)).trans ?_)
    exact Nat.mod_eq_of_lt hc
  · obtain ⟨r, hr⟩ := s.setFld_shape (R.tbSiteStatus b) 0 8 check
    obtain ⟨r', hr'⟩ := State.setFld_shape { s with regs := r } (R.tbSiteStatus b) 29 3 st
    exact ⟨r', by unfold State.siteChecked State.setSiteState; rw [hr]; exact hr'⟩
  · have hne := List.ne_of_not_mem_cons ho
    exact (State.reg_setFld_ne _ _ _ _ hne).trans (State.reg_setFld_ne s _ _ _ hne)

theorem State.putImage_shape (s : State) (b : Nat) (image : List Byte) : ∃ r, s.putImage b image = { s with regs := r } :=
  State.foldl_regs_shape _ (fun u _ => u.setReg_shape _ _) s

theorem State.newModule_shape (s : State) (b serial : Nat) : ∃ r d, s.newModule b serial = { s with regs := r, record := d } := by
  unfold State.newModule
  obtain ⟨r, hr⟩ := s.setFld_shape (R.tbSiteStatus b) 27 1 (boolBit false)
  obtain ⟨r', hr'⟩ := s.setFld_shape (R.tbSiteStatus b) 27 1 (boolBit true)
  split
  · exact ⟨r, s.record, hr⟩
  · unfold State.setBit
    rw [hr']
    exact ⟨_, _, rfl⟩

/-- R311: a readout that answers, before its checks. -/
def State.readoutTaken (s : State) (b : Nat) (r : SpdResult) : State :=
  ((s.putImage b r.image).newModule b (r.serial % 2 ^ 32)).putSite b { s.site b with serial := r.serial % 2 ^ 32 }

theorem State.readoutTaken_spec (s : State) (b : Nat) (r : SpdResult) :
    (∃ x d, s.readoutTaken b r = { s with regs := x, record := d, sites := (s.readoutTaken b r).sites }) ∧
      ((s.readoutTaken b r).site b).serial = r.serial % 2 ^ 32 := by
  unfold State.readoutTaken
  obtain ⟨r1, h1⟩ := s.putImage_shape b r.image
  rw [h1]
  obtain ⟨r2, d, h2⟩ := State.newModule_shape { s with regs := r1 } b (r.serial % 2 ^ 32)
  rw [h2]
  exact ⟨⟨r2, d, rfl⟩, congrArg SiteRun.serial (State.site_putSite_self _ b _)⟩

theorem State.spdRead_of_answered {s : State} {b st : Nat} {r : SpdResult} (h : r.answered = true) :
    s.spdRead b st r = (s.readoutTaken b r).siteChecked b (spdCheck r) (if spdCheck r = 0 then st else 5) := by
  unfold State.spdRead State.readoutTaken
  rw [if_neg (by simp [h])]
  dsimp only
  split
  next h0 => rw [h0]; rfl
  next h0 => rfl

theorem State.spdRead_of_silent {s : State} {b st : Nat} {r : SpdResult} (h : r.answered = false) :
    s.spdRead b st r = s.siteChecked b (spdCheck r) 5 := by
  have hc : spdCheck r = 1 := by
    unfold spdCheck
    rw [h]
    rfl
  unfold State.spdRead
  rw [if_pos (by simp [h]), hc]
  rfl

theorem spdCheck_lt (r : SpdResult) : spdCheck r < 256 := by
  unfold spdCheck
  split_ifs <;> decide

theorem State.emit_i3cRead (s : State) (b : Nat) : s.emit (.i3cRead b) = { s with out := .i3cRead b :: s.out } :=
  State.emit_of_not_toHost rfl s

/-- A readout is over: its outcome stands. -/
theorem State.endReadout_spec (s : State) (b : Nat) : (∃ x, s.endReadout b = { s with sites := x }) ∧
    ((s.endReadout b).site b).serial = (s.site b).serial ∧ (s.endReadout b).spdDue b = false := by
  have hself := s.site_putSite_self b { s.site b with spdDone := true }
  refine ⟨⟨_, rfl⟩, (congrArg SiteRun.serial hself).trans rfl, ?_⟩
  have hd : ((s.endReadout b).site b).spdDone = true := congrArg SiteRun.spdDone hself
  unfold State.spdDue
  rw [hd]
  exact Bool.and_false _

theorem startSpd_of_due {s : State} {b : Nat} (h : s.spdDue b = true) (r : SpdResult) :
    startSpd b r s = (({ s with out := .i3cRead b :: s.out } : State).spdRead b (s.record.siteState.getD b 0) r).endReadout b := by
  rw [← State.emit_i3cRead]
  exact if_pos h

/-- R382: what the readout of a start does. -/
theorem startSpd_spec {s : State} {b : Nat} (h : s.spdDue b = true) (r : SpdResult) : ∃ t, startSpd b r s = t ∧
    t.fld (R.tbSiteStatus b) 0 8 = spdCheck r ∧
    (t.siteState b = if r.answered ∧ spdCheck r = 0 then s.record.siteState.getD b 0 % 8 else 5) ∧
    (r.answered = true → (t.site b).serial = r.serial % 2 ^ 32) ∧ t.spdDue b = false ∧
    t = { s with regs := t.regs, sites := t.sites, record := t.record, out := .i3cRead b :: s.out } := by
  have key : ∀ u : State, u.fld (R.tbSiteStatus b) 0 8 = spdCheck r →
      (u.siteState b = if r.answered ∧ spdCheck r = 0 then s.record.siteState.getD b 0 % 8 else 5) →
      (r.answered = true → (u.site b).serial = r.serial % 2 ^ 32) →
      u = { s with regs := u.regs, sites := u.sites, record := u.record, out := .i3cRead b :: s.out } →
      ∃ t, u.endReadout b = t ∧ t.fld (R.tbSiteStatus b) 0 8 = spdCheck r ∧
        (t.siteState b = if r.answered ∧ spdCheck r = 0 then s.record.siteState.getD b 0 % 8 else 5) ∧
        (r.answered = true → (t.site b).serial = r.serial % 2 ^ 32) ∧ t.spdDue b = false ∧
        t = { s with regs := t.regs, sites := t.sites, record := t.record, out := .i3cRead b :: s.out } := by
    intro u h1 h2 h3 h4
    obtain ⟨⟨x, hx⟩, hserial, hdue⟩ := u.endReadout_spec b
    refine ⟨_, rfl, ?_, ?_, fun ha => hserial.trans (h3 ha), hdue, ?_⟩
    · rw [hx]
      exact h1
    · rw [hx]
      exact h2
    · rw [hx, h4]
  rw [startSpd_of_due h]
  cases ha : r.answered with
  | true =>
    rw [State.spdRead_of_answered ha]
    obtain ⟨⟨x, d, hshape⟩, hserial⟩ := State.readoutTaken_spec { s with out := .i3cRead b :: s.out } b r
    generalize State.readoutTaken { s with out := .i3cRead b :: s.out } b r = u at hshape hserial ⊢
    obtain ⟨k1, k2, ⟨r', k3⟩, -⟩ := u.siteChecked_spec b (if spdCheck r = 0 then s.record.siteState.getD b 0 else 5) (spdCheck_lt r)
    refine ha ▸ key _ k1 (k2.trans ?_) (fun _ => ?_) ?_
    · rw [ha]
      by_cases h0 : spdCheck r = 0
      · rw [if_pos h0, if_pos ⟨rfl, h0⟩]
      · rw [if_neg h0, if_neg (fun hc => h0 hc.2)]
    · rw [k3]
      exact hserial
    · rw [k3, hshape]
  | false =>
    rw [State.spdRead_of_silent ha]
    obtain ⟨k1, k2, ⟨r', k3⟩, -⟩ := State.siteChecked_spec { s with out := .i3cRead b :: s.out } b 5 (spdCheck_lt r)
    refine ha ▸ key _ k1 (k2.trans ?_) (fun hc => ?_) ?_
    · rw [ha, if_neg (fun hc => Bool.noConfusion hc.1)]
    · rw [ha] at hc
      exact Bool.noConfusion hc
    · rw [k3]

theorem spdTimeout_of_late {s : State} {b : Nat} (h : s.spdDue b = true) (hc : s.checksAt + 1600000 ≤ s.cycle) :
    spdTimeout b s = (({ s with out := .i3cRead b :: s.out } : State).siteChecked b 1 5).endReadout b := by
  rw [← State.emit_i3cRead]
  exact if_pos ⟨h, hc⟩

/-- Settles O51: a readout is checked and taken whole, or its site fails. -/
theorem siteChecks : Obligations.SiteChecks := by
  unfold Obligations.SiteChecks
  intro b r s
  refine ⟨fun h => ⟨fun ha h0 => ?_, fun hne => ?_, fun hc => ?_, fun hc => ?_⟩, fun h => ⟨?_, ?_⟩⟩
  · obtain ⟨t, ht, h1, h2, h3, h4, h5⟩ := startSpd_spec h r
    rw [if_pos ⟨ha, h0⟩] at h2
    exact ⟨t, congrArg Host.Outcome.next ht, h1.trans h0, h2, h3 ha, h4, h5⟩
  · obtain ⟨t, ht, h1, h2, -, h4, h5⟩ := startSpd_spec h r
    rw [if_neg (fun hp => hne hp.2)] at h2
    exact ⟨t, congrArg Host.Outcome.next ht, h1, h2, h4, h5⟩
  · obtain ⟨k1, k2, ⟨r', k3⟩, k4⟩ := State.siteChecked_spec { s with out := .i3cRead b.val :: s.out } b 5 (by decide : 1 < 256)
    have hx := spdTimeout_of_late h hc
    generalize State.siteChecked { s with out := .i3cRead b.val :: s.out } b.val 1 5 = u at k1 k2 k3 k4 hx
    obtain ⟨⟨x, hs⟩, -, hdue⟩ := u.endReadout_spec b
    refine ⟨_, congrArg Host.Outcome.next hx, ?_, ?_, hdue, ?_, fun o ho => ?_⟩
    · rw [hs]
      exact k1
    · rw [hs]
      exact k2
    · rw [hs, k3]
    · rw [hs]
      exact k4 o ho
  · exact congrArg Host.Outcome.next (if_neg (fun hp => absurd hp.2 (Nat.not_le.mpr hc)))
  · exact congrArg Host.Outcome.next (if_neg (by simp [h]))
  · exact congrArg Host.Outcome.next (if_neg (fun hp => by
      rw [h] at hp
      exact Bool.noConfusion hp.1))

end Sys2Proof.Machine
end

section
/-!
### The management queue pair (R324 to R331)
-/
namespace Sys2Proof.Machine

/-- Nothing but registers of a list has changed. -/
def State.setsRegs (s t : State) (l : List Nat) : Prop := (∃ r, t = { s with regs := r }) ∧ s.regsBut t l

theorem State.setsRegs.refl (s : State) (l : List Nat) : s.setsRegs s l := ⟨⟨_, rfl⟩, fun _ _ => rfl⟩

theorem State.setsRegs.trans {s t u : State} {l : List Nat} (h : s.setsRegs t l) (k : t.setsRegs u l) : s.setsRegs u l := by
  obtain ⟨⟨r, rfl⟩, hr⟩ := h
  obtain ⟨⟨r', rfl⟩, hr'⟩ := k
  exact ⟨⟨r', rfl⟩, fun o ho => (hr' o ho).trans (hr o ho)⟩

theorem State.setsRegs.mono {s t : State} {l k : List Nat} (h : s.setsRegs t l) (hk : ∀ o ∈ l, o ∈ k) : s.setsRegs t k :=
  ⟨h.1, fun o ho => h.2 o (fun hl => ho (hk o hl))⟩

theorem State.setsRegs_setReg (s : State) (off : Nat) (v : Word) : s.setsRegs (s.setReg off v) [off] :=
  ⟨s.setReg_shape off v, fun _ ho => s.reg_setReg_ne v (List.ne_of_not_mem_cons ho)⟩

theorem State.setsRegs_setFld (s : State) (off lo n v : Nat) : s.setsRegs (s.setFld off lo n v) [off] := s.setsRegs_setReg off _

theorem State.setsRegs_setBit (s : State) (off i : Nat) (b : Bool) : s.setsRegs (s.setBit off i b) [off] :=
  s.setsRegs_setFld off i 1 _

theorem State.setsRegs.onlyRegs {s t : State} {l : List Nat} (h : s.setsRegs t l) : s.onlyRegs t l := by
  obtain ⟨⟨r, rfl⟩, hr⟩ := h
  exact ⟨rfl, hr⟩

/-! Enable and disable. -/

theorem mqRegs_ne : R.mqCfg ≠ R.mqSqHead ∧ R.mqCfg ≠ R.mqCqTail ∧ R.mqCfg ≠ R.mqCqHead ∧ R.mqCfg ≠ R.mqIndex ∧ R.mqState ≠ R.mqSqHead ∧
    R.mqState ≠ R.mqCqTail ∧ R.mqState ≠ R.mqCqHead ∧ R.mqState ≠ R.mqIndex ∧ R.mqState ≠ R.mqCfg ∧ R.mqSqHead ≠ R.mqCqTail ∧
    R.mqSqHead ≠ R.mqCqHead ∧ R.mqSqHead ≠ R.mqIndex ∧ R.mqCqTail ≠ R.mqCqHead ∧ R.mqCqTail ≠ R.mqIndex := by
  decide

/-- The registers of a start but those of MQ_STATE: both rings empty, both phases 1. -/
def State.mqRings (s : State) : State :=
  ((((s.setBit R.mqCfg 31 true).setReg R.mqSqHead 0x80000000).setReg R.mqCqTail 0x80000000).setReg R.mqCqHead 0).setReg R.mqIndex 0

theorem State.mqRings_spec (s : State) : (∃ r, s.mqRings = { s with regs := r }) ∧ s.mqRings.bit R.mqCfg 31 = true ∧
    s.mqRings.reg R.mqSqHead = 0x80000000 ∧ s.mqRings.reg R.mqCqTail = 0x80000000 ∧
    (∀ lo n, lo + n ≤ 31 → s.mqRings.fld R.mqCfg lo n = s.fld R.mqCfg lo n) ∧ s.mqRings.reg R.mqState = s.reg R.mqState := by
  obtain ⟨hch, hct, hcr, hci, hsh, hst, hsr, hsi, hsc, hht, hhr, hhi, htr, hti⟩ := mqRegs_ne
  have hcfg : s.mqRings.reg R.mqCfg = (s.setBit R.mqCfg 31 true).reg R.mqCfg :=
    (State.reg_setReg_ne _ _ hci).trans ((State.reg_setReg_ne _ _ hcr).trans
      ((State.reg_setReg_ne _ _ hct).trans (State.reg_setReg_ne _ _ hch)))
  refine ⟨⟨_, rfl⟩, ?_, ?_, ?_, fun lo n hn => ?_, ?_⟩
  · exact (State.bit_congr hcfg 31).trans (State.bit_setBit_self _ _ _ _ (by decide))
  · exact (State.reg_setReg_ne _ _ hhi).trans ((State.reg_setReg_ne _ _ hhr).trans
      ((State.reg_setReg_ne _ _ hht).trans (State.reg_setReg_self _ _ _)))
  · exact (State.reg_setReg_ne _ _ hti).trans ((State.reg_setReg_ne _ _ htr).trans (State.reg_setReg_self _ _ _))
  · exact (State.fld_congr hcfg lo n).trans (State.fld_setBit_other _ _ _ _ _ _ (Or.inr hn))
  · exact (State.reg_setReg_ne _ _ hsi).trans ((State.reg_setReg_ne _ _ hsr).trans
      ((State.reg_setReg_ne _ _ hst).trans ((State.reg_setReg_ne _ _ hsh).trans (State.reg_setBit_ne _ _ _ hsc))))

/-- A pair that has halted keeps its state, another takes the state given. -/
def State.mqMoves (s u : State) (n : Nat) : State := if s.mqMode = 2 then u else u.setFld R.mqState 30 2 n

theorem State.mqMoves_spec (s u : State) (n : Nat) (h : u.mqMode = s.mqMode) (hn : n < 4) :
    u.setsRegs (s.mqMoves u n) [R.mqState] ∧ (s.mqMoves u n).mqMode = if s.mqMode = 2 then 2 else n := by
  unfold State.mqMoves
  split
  next hm => exact ⟨.refl _ _, h.trans hm⟩
  next => exact ⟨u.setsRegs_setFld _ _ _ _, (u.fld_setFld_self R.mqState 30 2 n (by decide)).trans (Nat.mod_eq_of_lt hn)⟩

theorem State.mqStart_eq (s : State) : s.mqStart = { s.mqMoves (s.mqRings.setFld R.mqState 0 16 0) 1 with
    mq := { (s.mqMoves (s.mqRings.setFld R.mqState 0 16 0) 1).mq with
      readFirst := none, outstanding := false, tail := 0, cur := none, replies := [] } } := rfl

theorem State.mqStart_spec (s : State) : ∃ t, s.mqStart = t ∧ t.mqEn = true ∧ t.mqHead = 0 ∧ t.mqCqTail = 0 ∧
    t.bit R.mqSqHead 31 = true ∧ t.bit R.mqCqTail 31 = true ∧ (t.mqMode = if s.mqMode = 2 then 2 else 1) ∧ t.mq.tail = 0 ∧
    t.mq.replies = [] ∧ t.mqPackets = s.mqPackets ∧ t = { s with regs := t.regs, mq := t.mq } := by
  obtain ⟨hch, hct, hcr, hci, hsh, hst, hsr, hsi, hsc, hht, hhr, hhi, htr, hti⟩ := mqRegs_ne
  obtain ⟨⟨r, hr⟩, hen, hhead, htail, hsize, hstate⟩ := s.mqRings_spec
  rw [s.mqStart_eq]
  generalize s.mqRings = u at hr hen hhead htail hsize hstate ⊢
  have hmode : (u.setFld R.mqState 0 16 0).mqMode = s.mqMode :=
    (u.fld_setFld_other R.mqState 0 16 0 30 2 (by decide)).trans (State.fld_congr hstate 30 2)
  obtain ⟨hm, hm'⟩ := s.mqMoves_spec (u.setFld R.mqState 0 16 0) 1 hmode (by decide)
  obtain ⟨⟨r', hshape⟩, hregs⟩ := ((u.setsRegs_setFld R.mqState 0 16 0).trans hm)
  generalize s.mqMoves (u.setFld R.mqState 0 16 0) 1 = w at hm' hshape hregs ⊢
  have hkeep (o : Nat) (ho : o ≠ R.mqState) : w.reg o = u.reg o := hregs o (by simpa using ho)
  have hw : w = { s with regs := r' } := by rw [hshape, hr]
  refine ⟨_, rfl, ?_, ?_, ?_, ?_, ?_, hm', rfl, rfl, ?_, ?_⟩
  · exact (State.bit_congr (hkeep _ hsc.symm) 31).trans hen
  · exact (congrArg (fun x => getField x 0 16) ((hkeep _ hsh.symm).trans hhead)).trans (by decide)
  · exact (congrArg (fun x => getField x 0 16) ((hkeep _ hst.symm).trans htail)).trans (by decide)
  · exact (congrArg (fun x => decide (getField x 31 1 = 1)) ((hkeep _ hsh.symm).trans hhead)).trans (by decide)
  · exact (congrArg (fun x => decide (getField x 31 1 = 1)) ((hkeep _ hst.symm).trans htail)).trans (by decide)
  · exact congrArg (fun x => 2 ^ (x + 4)) ((State.fld_congr (hkeep _ hsc.symm) 0 4).trans (hsize 0 4 (by decide)))
  · rw [hw]

theorem State.mqStop_spec (s : State) : ∃ t, s.mqStop = t ∧ t.mqEn = false ∧ (t.mqMode = if s.mqMode = 2 then 2 else 0) ∧
    t = { s with regs := t.regs, mq := t.mq } ∧ s.regsBut t [R.mqCfg, R.mqState] := by
  have hmode : (s.setBit R.mqCfg 31 false).mqMode = s.mqMode := State.fld_setBit_ne s 31 30 2 false (by decide)
  have hen : (s.setBit R.mqCfg 31 false).mqEn = false := State.bit_setBit_self s _ _ _ (by decide)
  have hbit := s.setsRegs_setBit R.mqCfg 31 false
  generalize hu : s.setBit R.mqCfg 31 false = u at hmode hen hbit
  obtain ⟨hm, hm'⟩ := s.mqMoves_spec u 0 hmode (by decide)
  have hstop : s.mqStop = { s.mqMoves u 0 with mq := { (s.mqMoves u 0).mq with readFirst := none, outstanding := false, tail := 0 } } := by
    rw [← hu]
    rfl
  obtain ⟨⟨r, hshape⟩, hregs⟩ := (hbit.mono (by simp)).trans (hm.mono (by simp) : u.setsRegs _ [R.mqCfg, R.mqState])
  rw [hstop]
  have hcfg : (s.mqMoves u 0).reg R.mqCfg = u.reg R.mqCfg := hm.2 _ (by decide)
  generalize s.mqMoves u 0 = w at hm' hshape hregs hcfg ⊢
  refine ⟨_, rfl, (State.bit_congr hcfg 31).trans hen, hm', by rw [hshape], fun o ho => hregs o ho⟩

/-- What a write of MQ_CFG first does: BAD and BUSY stay or are cleared. -/
def State.mqFlags (s : State) (v : Word) : State :=
  (s.setBit R.mqCfg 30 (s.bit R.mqCfg 30 && (decide (getField v 30 1 = 0) || decide (getField (s.setNow R.mqCfg) 30 1 = 1)))).setBit
    R.mqCfg 29 (s.bit R.mqCfg 29 && (decide (getField v 29 1 = 0) || decide (getField (s.setNow R.mqCfg) 29 1 = 1)))

theorem State.mqFlags_spec (s : State) (v : Word) : s.setsRegs (s.mqFlags v) [R.mqCfg] ∧ (s.mqFlags v).mqEn = s.mqEn ∧
    (s.mqFlags v).mqMode = s.mqMode := by
  have h : s.setsRegs (s.mqFlags v) [R.mqCfg] := (s.setsRegs_setBit _ _ _).trans (State.setsRegs_setBit _ _ _ _)
  refine ⟨h, ?_, State.fld_congr (h.2 _ (by decide)) 30 2⟩
  exact (State.bit_setBit_other _ _ _ _ _ (by decide)).trans (State.bit_setBit_other _ _ _ _ _ (by decide))

/-- A write of MQ_CFG at a disabled pair also sets both sizes. -/
def State.mqSizes (s : State) (v : Word) : State :=
  ((s.mqFlags v).setFld R.mqCfg 0 4 (getField v 0 4)).setFld R.mqCfg 8 4 (getField v 8 4)

theorem State.mqSizes_spec (s : State) (v : Word) : s.setsRegs (s.mqSizes v) [R.mqCfg] ∧ (s.mqSizes v).mqEn = s.mqEn ∧
    (s.mqSizes v).mqMode = s.mqMode ∧ (s.mqSizes v).mqPackets = 2 ^ (getField v 0 4 + 4) := by
  obtain ⟨h, he, hm⟩ := s.mqFlags_spec v
  have h' : s.setsRegs (s.mqSizes v) [R.mqCfg] := h.trans ((State.setsRegs_setFld _ _ _ _ _).trans (State.setsRegs_setFld _ _ _ _ _))
  refine ⟨h', ?_, State.fld_congr (h'.2 _ (by decide)) 30 2, congrArg (fun x => 2 ^ (x + 4)) ?_⟩
  · exact ((State.bit_setFld_other _ _ _ _ _ _ (by decide)).trans (State.bit_setFld_other _ _ _ _ _ _ (by decide))).trans he
  · exact (State.fld_setFld_other _ _ _ _ _ _ _ (by decide)).trans ((State.fld_setFld_self _ _ _ _ _ (by decide)).trans
      (Nat.mod_eq_of_lt (getField_lt v 0 4)))

theorem writeMqCfg_of_enabled {s : State} {v : Word} (he : s.mqEn = true) (hv : getField v 31 1 = 0) :
    writeMqCfg v s = if s.mqBusy then (s.mqFlags v).hwSet R.mqCfg 29 else (s.mqFlags v).mqStop :=
  (if_pos he).trans (if_neg (by omega))

theorem writeMqCfg_of_disabled {s : State} {v : Word} (he : s.mqEn = false) (hv : getField v 31 1 = 1) :
    writeMqCfg v s = if s.mqEnableOk (getField v 0 4) (getField v 8 4) then (s.mqSizes v).mqStart else (s.mqSizes v).hwSet R.mqCfg 30 :=
  (if_neg (by simp [he])).trans (if_neg (by omega))

theorem State.setsRegs.hwSet {s t : State} {l : List Nat} {off : Nat} (h : s.setsRegs t l) (ho : off ∈ l) (i : Nat) :
    s.onlyRegs (t.hwSet off i) l := by
  obtain ⟨⟨r, hr⟩, hregs⟩ := h
  obtain ⟨hshape, hset⟩ := t.onlyRegs_hwSet off i
  refine ⟨?_, fun o hl => (hset o (fun h' => hl (List.mem_singleton.mp h' ▸ ho))).trans (hregs o hl)⟩
  rw [hshape, hr]

theorem State.mqEn_hwSet (s : State) {i : Nat} (h : i ≠ 31) : (s.hwSet R.mqCfg i).mqEn = s.mqEn :=
  s.bit_setBit_other R.mqCfg i 31 true h

/-! Error, doorbell, marks. -/

theorem State.mqError_spec (s : State) (st : Status) : ∃ t, s.mqError st = t ∧ t.mqMode = 3 ∧ t.fld R.mqState 0 16 = st.toNat ∧
    t = { s with regs := t.regs, mq := t.mq } ∧ s.regsBut t [R.mqState] := by
  obtain ⟨⟨r, hr⟩, hregs⟩ := (s.setsRegs_setFld R.mqState 30 2 3).trans (State.setsRegs_setFld _ R.mqState 0 16 st.toNat)
  have hm : ((s.setFld R.mqState 30 2 3).setFld R.mqState 0 16 st.toNat).fld R.mqState 30 2 = 3 :=
    (State.fld_setFld_other _ _ _ _ _ _ _ (by decide)).trans (State.fld_setFld_self _ _ _ _ _ (by decide))
  have hst : ((s.setFld R.mqState 30 2 3).setFld R.mqState 0 16 st.toNat).fld R.mqState 0 16 = st.toNat :=
    (State.fld_setFld_self _ _ _ _ _ (by decide)).trans (Nat.mod_eq_of_lt st.isLt)
  unfold State.mqError
  generalize (s.setFld R.mqState 30 2 3).setFld R.mqState 0 16 st.toNat = u at hr hregs hm hst
  exact ⟨_, rfl, hm, hst, by rw [hr], fun o ho => hregs o ho⟩

/-! Packets. -/

theorem State.noteCorrected_spec (s : State) (a : Nat) (c : MemCond) :
    (∃ r n, s.noteCorrected a c = { s with regs := r, now := n }) ∧ s.regsBut (s.noteCorrected a c) [R.tmTierACe, R.tmScratchCe] := by
  have hbump (off : Nat) (ho : off ∈ [R.tmTierACe, R.tmScratchCe]) : (∃ r n, s.bump off 1 = { s with regs := r, now := n }) ∧
      s.regsBut (s.bump off 1) [R.tmTierACe, R.tmScratchCe] :=
    ⟨s.bump_shape off 1, fun o hn => s.reg_bump_ne 1 (fun h => hn (h ▸ ho))⟩
  unfold State.noteCorrected
  split
  · exact ⟨⟨_, _, rfl⟩, fun _ _ => rfl⟩
  · split
    · exact hbump _ (by simp)
    · exact hbump _ (by simp)
    · exact ⟨⟨_, _, rfl⟩, fun _ _ => rfl⟩

/-- The word of MQ_SQ_HEAD as a packet is taken: the next index, with the phase. -/
def State.mqNextHead (s : State) : Nat :=
  boolBit (if s.mqHead + 1 = s.mqPackets then ! s.bit R.mqSqHead 31 else s.bit R.mqSqHead 31) * 2 ^ 31 +
    (s.mqHead + 1) % s.mqPackets

/-- The registers of a packet taken: HEAD, the index, and MQ_PENDING. -/
def State.mqTaken (s : State) (op : Nat) : State :=
  let u := (s.setReg R.mqSqHead (BitVec.ofNat 32 s.mqNextHead)).wrapAdd R.mqIndex 1
  if 0x81 ≤ op ∧ op ≤ 0x8F then u.setBit R.mqPending (op - 0x80) true else u

theorem fld_low_of_word {b n h : Nat} (_ : b ≤ 1) (_ : n ≤ 2 ^ 19) (_ : h < n) :
    (b * 2 ^ 31 + h) % 2 ^ 32 / 2 ^ 0 % 2 ^ 16 = h % 2 ^ 16 := by
  omega

theorem boolBit_le (b : Bool) : boolBit b ≤ 1 := by
  cases b <;> decide

theorem State.mqPackets_le (s : State) : s.mqPackets ≤ 2 ^ 19 :=
  Nat.pow_le_pow_right (by decide) (by have := getField_lt (s.reg R.mqCfg) 0 4; unfold State.fld; omega)

theorem State.mqPackets_pos (s : State) : 0 < s.mqPackets := Nat.two_pow_pos _

theorem State.mqTaken_spec (s : State) (op : Nat) : s.setsRegs (s.mqTaken op) [R.mqSqHead, R.mqIndex, R.mqPending] ∧
    (s.mqTaken op).reg R.mqIndex = s.reg R.mqIndex + 1 ∧ (s.mqTaken op).mqHead = (s.mqHead + 1) % s.mqPackets % 2 ^ 16 ∧
    (0x81 ≤ op → op ≤ 0x8F → (s.mqTaken op).bit R.mqPending (op - 0x80) = true) := by
  have hhead : (s.setReg R.mqSqHead (BitVec.ofNat 32 s.mqNextHead)).mqHead = (s.mqHead + 1) % s.mqPackets % 2 ^ 16 :=
    (s.fld_setReg_ofNat R.mqSqHead 0 16 s.mqNextHead).trans
      (fld_low_of_word (boolBit_le _) s.mqPackets_le (Nat.mod_lt _ s.mqPackets_pos))
  have hset := s.setsRegs_setReg R.mqSqHead (BitVec.ofNat 32 s.mqNextHead)
  have hidx : (s.setReg R.mqSqHead (BitVec.ofNat 32 s.mqNextHead)).reg R.mqIndex = s.reg R.mqIndex := s.reg_setReg_ne _ (by decide)
  unfold State.mqTaken
  generalize s.setReg R.mqSqHead (BitVec.ofNat 32 s.mqNextHead) = u at hhead hset hidx
  have hadd : u.setsRegs (u.wrapAdd R.mqIndex 1) [R.mqIndex] := u.setsRegs_setReg R.mqIndex _
  have hone : (u.wrapAdd R.mqIndex 1).reg R.mqIndex = s.reg R.mqIndex + 1 :=
    (u.reg_setReg_self R.mqIndex _).trans (congrArg (· + 1) hidx)
  have hall := (hset.mono (k := [R.mqSqHead, R.mqIndex, R.mqPending]) (by simp)).trans (hadd.mono (by simp))
  have hw : (u.wrapAdd R.mqIndex 1).mqHead = (s.mqHead + 1) % s.mqPackets % 2 ^ 16 :=
    (State.fld_congr (hadd.2 R.mqSqHead (by decide)) 0 16).trans hhead
  generalize u.wrapAdd R.mqIndex 1 = w at hone hall hw
  dsimp only
  split
  next h =>
    have hbit := w.setsRegs_setBit R.mqPending (op - 0x80) true
    refine ⟨hall.trans (hbit.mono (by simp)), (hbit.2 _ (by decide)).trans hone, (State.fld_congr (hbit.2 _ (by decide)) 0 16).trans hw,
      fun _ _ => State.bit_setBit_self _ _ _ _ (by omega)⟩
  next h => exact ⟨hall, hone, hw, fun h1 h2 => absurd ⟨h1, h2⟩ h⟩

/-- The packet is no longer being read. -/
def State.mqRead (s : State) : State := { s with mq := { s.mq with readFirst := none, outstanding := false } }

theorem State.mqRead_setBit (s : State) (off i : Nat) (b : Bool) : s.mqRead.setBit off i b = (s.setBit off i b).mqRead := rfl

theorem State.reply_eq (s : State) {p : Packet} (hp : p.bytes ≠ []) (st : Status) (last : Bool) (result : List Byte) :
    s.reply p st last result = { s with mq := { s.mq with replies := s.mq.replies ++ [p.answer st last result] } } :=
  if_neg hp

/-- The packet taken is in hand where it passes the general checks, and is answered at once where not. -/
theorem State.takePacket_eq (s : State) (b : List Byte) : s.takePacket b =
    match packetCheck b with
    | some st => (s.mqTaken (pkOpcode b)).mqRead.reply { bytes := b, index := s.reg R.mqIndex } st true []
    | none => { (s.mqTaken (pkOpcode b)).mqRead with
        mq := { (s.mqTaken (pkOpcode b)).mqRead.mq with cur := some { bytes := b, index := s.reg R.mqIndex } } } := by
  have htaken : (s.mqTaken (pkOpcode b)).mqRead =
      if 0x81 ≤ pkOpcode b ∧ pkOpcode b ≤ 0x8F then
        ((s.setReg R.mqSqHead (BitVec.ofNat 32 s.mqNextHead)).wrapAdd R.mqIndex 1).mqRead.setBit R.mqPending (pkOpcode b - 0x80) true
      else ((s.setReg R.mqSqHead (BitVec.ofNat 32 s.mqNextHead)).wrapAdd R.mqIndex 1).mqRead := by
    unfold State.mqTaken
    generalize (s.setReg R.mqSqHead (BitVec.ofNat 32 s.mqNextHead)).wrapAdd R.mqIndex 1 = u
    dsimp only
    split
    · exact (u.mqRead_setBit _ _ _).symm
    · rfl
  rw [htaken]
  rfl

theorem State.takePacket_spec (s : State) {b : List Byte} (hb : b ≠ []) : ∃ t, s.takePacket b = t ∧
    t.reg R.mqIndex = s.reg R.mqIndex + 1 ∧ t.mqHead = (s.mqHead + 1) % s.mqPackets % 2 ^ 16 ∧
    (0x81 ≤ pkOpcode b → pkOpcode b ≤ 0x8F → t.bit R.mqPending (pkOpcode b - 0x80) = true) ∧
    t = { s with regs := t.regs, mq := t.mq } ∧ s.regsBut t [R.mqSqHead, R.mqIndex, R.mqPending] ∧
    (packetCheck b = none → t.mq.cur = some { bytes := b, index := s.reg R.mqIndex } ∧ t.mq.replies = s.mq.replies) ∧
    (∀ st, packetCheck b = some st → t.mq.cur = s.mq.cur ∧
      t.mq.replies = s.mq.replies ++ [({ bytes := b, index := s.reg R.mqIndex } : Packet).answer st true []]) := by
  obtain ⟨⟨⟨r, hr⟩, hregs⟩, hidx, hhead, hpend⟩ := s.mqTaken_spec (pkOpcode b)
  rw [s.takePacket_eq b]
  generalize s.mqTaken (pkOpcode b) = u at hr hregs hidx hhead hpend ⊢
  cases hc : packetCheck b with
  | none =>
    refine ⟨_, rfl, hidx, hhead, hpend, by rw [hr]; rfl, fun o ho => hregs o ho, fun _ => ⟨rfl, by rw [hr]; rfl⟩, (fun st h => nomatch h)⟩
  | some st =>
    dsimp only
    rw [State.reply_eq _ (p := { bytes := b, index := s.reg R.mqIndex }) hb]
    refine ⟨_, rfl, hidx, hhead, hpend, by rw [hr]; rfl, fun o ho => hregs o ho, (fun h => nomatch h), fun st' h => ?_⟩
    obtain rfl := Option.some.inj h
    exact ⟨by rw [hr]; rfl, by rw [hr]; rfl⟩

theorem readPacket_of_read {s : State} (hr : s.mqReads = true) (hh : s.mqHead ≠ s.mq.tail)
    (hf : s.mq.readFirst = none ∨ s.mq.outstanding = true) (c : MemCond) : readPacket c s =
    match s.memVerdict 0 .read (s.reg64 R.mqSqBaseLo + 64 * s.mqHead) 64 c with
    | some st => (s.memRefusal st (s.reg64 R.mqSqBaseLo + 64 * s.mqHead) none).mqError st
    | none =>
      let b := s.seenMem (s.reg64 R.mqSqBaseLo + 64 * s.mqHead) 64
      let s1 := s.noteCorrected (s.reg64 R.mqSqBaseLo + 64 * s.mqHead) c
      if natBit (byteAt b 1) 7 = s.bit R.mqSqHead 31 then s1.takePacket b
      else { s1 with mq := { s.mq with
        readFirst := some (s.mq.readFirst.getD s.cycle), outstanding := false,
        readLast := if s.mq.outstanding then s.mq.readLast else s.cycle } } := by
  refine (if_neg ?_).trans rfl
  rintro (h | h | ⟨h, k⟩)
  · rw [hr] at h
    exact absurd h (by decide)
  · exact hh h
  · obtain hn | ho := hf
    · rw [hn] at h
      exact absurd h (by decide)
    · rw [ho] at k
      exact absurd k (by decide)

/-! Replies. -/

/-- Memory, the tasks, the replies that wait and TAIL of the reply ring are as they were. -/
def State.answers (s t : State) : Prop :=
  s.sameMem t ∧ t.tasks = s.tasks ∧ t.mq.replies = s.mq.replies ∧ t.reg R.mqCqTail = s.reg R.mqCqTail

theorem State.answers.refl (s : State) : s.answers s := ⟨fun _ => rfl, rfl, rfl, rfl⟩

theorem State.answers.trans {s t u : State} (h : s.answers t) (k : t.answers u) : s.answers u :=
  ⟨h.1.trans k.1, k.2.1.trans h.2.1, k.2.2.1.trans h.2.2.1, k.2.2.2.trans h.2.2.2⟩

theorem State.setsRegs.answers {s t : State} {l : List Nat} (h : s.setsRegs t l) (hl : R.mqCqTail ∉ l) : s.answers t := by
  obtain ⟨⟨r, rfl⟩, hr⟩ := h
  exact ⟨fun _ => rfl, rfl, rfl, hr _ hl⟩

theorem State.emit_answers (s : State) (o : Out) : s.answers (s.emit o) := by
  obtain ⟨a, b, h⟩ := s.emit_shape o
  rw [h]
  exact ⟨fun _ => rfl, rfl, rfl, rfl⟩

theorem State.selfRefresh_answers (s : State) : s.answers s.selfRefresh := by
  refine List.foldlRecOn (motive := fun u : State => s.answers u) _ _ (.refl s) fun u hu b hb => ?_
  split
  · exact hu
  · refine hu.trans ((u.setsRegs_setBit _ 28 true).answers ?_)
    have : b < 9 := List.mem_range.mp hb
    simp only [List.mem_singleton, R.mqCqTail, R.tbSiteStatus]
    omega

theorem State.beginEntry_answers (s : State) (dest : PState) : s.answers (s.beginEntry dest) := by
  have hpw (u : State) : u.answers ((u.setBit R.pwStatus 31 true).setBit R.pwStatus 30 false) :=
    ((u.setsRegs_setBit R.pwStatus 31 true).trans (State.setsRegs_setBit _ _ _ _)).answers (by decide)
  unfold State.beginEntry
  dsimp only
  split
  · exact ⟨fun _ => rfl, rfl, rfl, rfl⟩
  · split
    · exact .trans ⟨fun _ => rfl, rfl, rfl, rfl⟩ (hpw _)
    · exact .trans (.trans ⟨fun _ => rfl, rfl, rfl, rfl⟩ (hpw _)) (State.selfRefresh_answers _)

theorem State.afterReply_answers (s : State) (r : Reply) : s.answers (s.afterReply r) := by
  unfold State.afterReply
  split
  · split
    · split
      · exact .refl s
      · exact s.beginEntry_answers _
    · exact .refl s
  · exact .refl s

theorem replyBytes_length (r : Reply) (phase : Bool) : (replyBytes r phase).length = 32 := by
  simp [replyBytes, fitBytes, leBytes_length]

/-- The word of MQ_CQ_TAIL after a reply: the next index, with the phase. -/
def State.mqNextTail (s : State) : Nat :=
  if s.mqCqTail + 1 = s.mqReplies then boolBit (! s.bit R.mqCqTail 31) * 2 ^ 31
  else boolBit (s.bit R.mqCqTail 31) * 2 ^ 31 + (s.mqCqTail + 1)

theorem State.mqNextTail_low (s : State) : s.mqNextTail % 2 ^ 32 / 2 ^ 0 % 2 ^ 16 =
    (if s.mqCqTail + 1 = s.mqReplies then 0 else s.mqCqTail + 1) % 2 ^ 16 := by
  have ht : s.mqCqTail < 2 ^ 16 := getField_lt _ 0 16
  unfold State.mqNextTail
  split
  · have h := fld_low_of_word (h := 0) (boolBit_le (! s.bit R.mqCqTail 31)) (by decide : 1 ≤ 2 ^ 19) Nat.one_pos
    rwa [Nat.add_zero] at h
  · exact fld_low_of_word (n := 2 ^ 19) (boolBit_le _) (Nat.le_refl _) (by omega)

/-- The reply stands in its ring and TAIL has moved on. -/
def State.replyWritten (s : State) (r : Reply) (rest : List Reply) : State :=
  { (s.writeMem (s.reg64 R.mqCqBaseLo + 32 * s.mqCqTail) (replyBytes r (s.bit R.mqCqTail 31))).setReg R.mqCqTail
      (BitVec.ofNat 32 s.mqNextTail) with mq := { s.mq with replies := rest } }

theorem State.replyWritten_spec (s : State) (r : Reply) (rest : List Reply) :
    (s.replyWritten r rest).readMem (s.reg64 R.mqCqBaseLo + 32 * s.mqCqTail) 32 = replyBytes r (s.bit R.mqCqTail 31) ∧
    s.sameMemBut (s.replyWritten r rest) (s.reg64 R.mqCqBaseLo + 32 * s.mqCqTail) 32 ∧ (s.replyWritten r rest).mq.replies = rest ∧
    (s.replyWritten r rest).mqCqTail = (if s.mqCqTail + 1 = s.mqReplies then 0 else s.mqCqTail + 1) % 2 ^ 16 ∧
    (s.replyWritten r rest).tasks = s.tasks := by
  unfold State.replyWritten
  generalize s.reg64 R.mqCqBaseLo + 32 * s.mqCqTail = a
  have hread := s.readMem_writeMem_self a (replyBytes r (s.bit R.mqCqTail 31))
  have hbut := s.sameMemBut_writeMem a (replyBytes r (s.bit R.mqCqTail 31))
  rw [replyBytes_length] at hread hbut
  have htasks : (s.writeMem a (replyBytes r (s.bit R.mqCqTail 31))).tasks = s.tasks := rfl
  generalize s.writeMem a (replyBytes r (s.bit R.mqCqTail 31)) = u at hread hbut htasks
  have htail := (u.fld_setReg_ofNat R.mqCqTail 0 16 s.mqNextTail).trans s.mqNextTail_low
  obtain ⟨x, hx⟩ := u.setReg_shape R.mqCqTail (BitVec.ofNat 32 s.mqNextTail)
  rw [hx] at htail ⊢
  exact ⟨hread, hbut, rfl, htail, htasks⟩

/-- A command ends with its final reply. -/
def State.mqEnded (s : State) (r : Reply) : State :=
  if r.last ∧ 0x81 ≤ r.opcode.toNat ∧ r.opcode.toNat ≤ 0x8F ∧ ! s.opInProgress r.opcode.toNat then
    s.setBit R.mqPending (r.opcode.toNat - 0x80) false
  else s

theorem State.mqEnded_answers (s : State) (r : Reply) : s.answers (s.mqEnded r) := by
  unfold State.mqEnded
  split
  · exact (s.setsRegs_setBit _ _ _).answers (by decide)
  · exact .refl s

/-- The message of the reply ring goes out. -/
def State.mqSignals (s : State) : State := if s.bit R.mqIrq 31 then s.msix (s.fld R.mqIrq 0 11) else s

theorem State.mqSignals_answers (s : State) : s.answers s.mqSignals := by
  unfold State.mqSignals
  split
  · exact s.emit_answers _
  · exact .refl s

theorem writeReply_of_room {s : State} {r : Reply} {l : List Reply} (hl : s.mq.replies = r :: l) (he : s.mqEn = true)
    (hm : s.mqMode ≠ 2) (hroom : (s.mqCqTail + 1) % s.mqReplies ≠ s.fld R.mqCqHead 0 16) :
    writeReply s = (((s.replyWritten (s.countWaits r) l).mqEnded (s.countWaits r)).mqSignals).afterReply (s.countWaits r) := by
  unfold writeReply
  rw [hl]
  refine (if_neg ?_).trans rfl
  rintro (h | h | h)
  · rw [he] at h
    exact absurd h (by decide)
  · exact hm h
  · exact hroom h

theorem writeReply_of_no_room {s : State} (h : s.mq.replies = [] ∨ s.mqEn = false ∨ s.mqMode = 2 ∨
    (s.mqCqTail + 1) % s.mqReplies = s.fld R.mqCqHead 0 16) : writeReply s = s := by
  unfold writeReply
  split
  next => rfl
  next r l hl =>
    rw [hl] at h
    refine if_pos ?_
    obtain h | h | h | h := h
    · exact nomatch h
    · exact .inl (by rw [h]; rfl)
    · exact .inr (.inl h)
    · exact .inr (.inr h)

theorem writeReply_spec {s : State} {r : Reply} {l : List Reply} (hl : s.mq.replies = r :: l) (he : s.mqEn = true)
    (hm : s.mqMode ≠ 2) (hroom : (s.mqCqTail + 1) % s.mqReplies ≠ s.fld R.mqCqHead 0 16) :
    ∃ t, writeReply s = t ∧
      t.readMem (s.reg64 R.mqCqBaseLo + 32 * s.mqCqTail) 32 = replyBytes (s.countWaits r) (s.bit R.mqCqTail 31) ∧
      s.sameMemBut t (s.reg64 R.mqCqBaseLo + 32 * s.mqCqTail) 32 ∧ t.mq.replies = l ∧
      t.mqCqTail = (if s.mqCqTail + 1 = s.mqReplies then 0 else s.mqCqTail + 1) % 2 ^ 16 ∧ t.tasks = s.tasks := by
  obtain ⟨hread, hbut, hrest, htail, htasks⟩ := s.replyWritten_spec (s.countWaits r) l
  refine ⟨_, writeReply_of_room hl he hm hroom, ?_⟩
  generalize s.replyWritten (s.countWaits r) l = u at hread hbut hrest htail htasks
  obtain ⟨hmem, ht, hrep, hreg⟩ := (u.mqEnded_answers (s.countWaits r)).trans
    ((State.mqSignals_answers _).trans (State.afterReply_answers _ (s.countWaits r)))
  refine ⟨Eq.trans ?_ hread, fun x hx => (hmem x).trans (hbut x hx), hrep.trans hrest, (State.fld_congr hreg 0 16).trans htail,
    ht.trans htasks⟩
  exact List.map_congr_left fun i _ => hmem _

/-! ### The management queue pair -/

theorem mqEnable_starts {src : Requester} {v : Word} {s : State} (hw : s.takesWrite src R.mqCfg) (he : s.mqEn = false)
    (hv : getField v 31 1 = 1) (hok : s.mqEnableOk (getField v 0 4) (getField v 8 4) = true) :
    ∃ t, exec (.mqEnable src v) s = .next t ∧ t.mqEn = true ∧ t.mqHead = 0 ∧ t.mqCqTail = 0 ∧ t.bit R.mqSqHead 31 = true ∧
      t.bit R.mqCqTail 31 = true ∧ (t.mqMode = if s.mqMode = 2 then 2 else 1) ∧ t.mq.tail = 0 ∧ t.mq.replies = [] ∧
      t.mqPackets = 2 ^ (getField v 0 4 + 4) ∧ t = { s with regs := t.regs, mq := t.mq } := by
  obtain ⟨⟨⟨r, hr⟩, -⟩, -, hmode, hsize⟩ := s.mqSizes_spec v
  obtain ⟨t, ht, hen, hhead, htail, hp, hq, hm, hdb, hrep, hpk, hshape⟩ := (s.mqSizes v).mqStart_spec
  refine ⟨t, (State.regWrite_of_takesWrite hw v _).trans (congrArg Host.Outcome.next
    (((writeMqCfg_of_disabled he hv).trans (if_pos hok)).trans ht)), hen, hhead, htail, hp, hq, ?_, hdb, hrep, hpk.trans hsize, ?_⟩
  · rw [hm, hmode]
  · rw [hshape, hr]

theorem mqDisable_stops {src : Requester} {v : Word} {s : State} (hw : s.takesWrite src R.mqCfg) (he : s.mqEn = true)
    (hv : getField v 31 1 = 0) (hb : s.mqBusy = false) :
    ∃ t, exec (.mqDisable src v) s = .next t ∧ t.mqEn = false ∧ (t.mqMode = if s.mqMode = 2 then 2 else 0) ∧
      t = { s with regs := t.regs, mq := t.mq } ∧ s.regsBut t [R.mqCfg, R.mqState] := by
  obtain ⟨⟨⟨r, hr⟩, hregs⟩, -, hmode⟩ := s.mqFlags_spec v
  obtain ⟨t, ht, hen, hm, hshape, hbut⟩ := (s.mqFlags v).mqStop_spec
  refine ⟨t, (State.regWrite_of_takesWrite hw v _).trans (congrArg Host.Outcome.next
    (((writeMqCfg_of_enabled he hv).trans (if_neg (by simp [hb]))).trans ht)), hen, ?_, ?_, fun o ho => (hbut o ho).trans (hregs o ?_)⟩
  · rw [hm, hmode]
  · rw [hshape, hr]
  · exact fun h => ho (List.mem_cons.mpr (.inl (List.mem_singleton.mp h)))

theorem ringMqDoorbell_of_running {s : State} (he : s.mqEn = true) (hm : s.mqMode = 1 ∨ s.mqMode = 3) (v : Word) :
    ringMqDoorbell v s =
      if s.mqPackets ≤ getField v 0 16 ∨ (s.mqHead + 2 * s.mqPackets - s.mq.tail - 1) % s.mqPackets + 1 ≤
          (getField v 0 16 + s.mqPackets - s.mq.tail) % s.mqPackets then
        (if s.mqMode = 3 then s else s.mqError St.length)
      else { s with mq := { s.mq with tail := getField v 0 16 } } :=
  if_neg (by
    rintro (h | h | h)
    · rw [he] at h
      exact absurd h (by decide)
    · omega
    · omega)

/-- Settles O53. -/
theorem managementQueue : Obligations.ManagementQueue := by
  unfold Obligations.ManagementQueue
  refine ⟨fun src v s hw => ⟨mqEnable_starts hw, fun he hv hok => ?_, mqDisable_stops hw, fun he hv hb => ?_⟩,
    fun src v s => ⟨fun hw h => ?_, fun hw he hm hlt hadv => ?_, fun hw he hm hbad => ?_, fun hw he hm hbad => ?_,
      fun hw hlt => ?_, fun hw hge => ?_⟩,
    fun c s hr hh hf => ⟨fun hv hmark => ?_, fun hv hmark => ?_, fun st hv => ?_⟩,
    fun s f hf => ⟨fun hr ho hd => ?_, fun h => ?_, fun hm hd => ?_, fun hd => ?_⟩,
    fun s r l hl he hm => ⟨fun hfull => ?_, fun hroom => ?_⟩, fun s h => ?_⟩
  case refine_1 =>
    obtain ⟨hs, hen, -, -⟩ := s.mqSizes_spec v
    exact ⟨_, (State.regWrite_of_takesWrite hw v _).trans (congrArg Host.Outcome.next
        ((writeMqCfg_of_disabled he hv).trans (if_neg (by simp [hok])))),
      (State.mqEn_hwSet _ (by decide)).trans (hen.trans he), State.bit_hwSet_self _ _ _ (by decide),
      hs.hwSet (by simp) 30⟩
  case refine_2 =>
    obtain ⟨hs, hen, -⟩ := s.mqFlags_spec v
    exact ⟨_, (State.regWrite_of_takesWrite hw v _).trans (congrArg Host.Outcome.next
        ((writeMqCfg_of_enabled he hv).trans (if_pos hb))),
      (State.mqEn_hwSet _ (by decide)).trans (hen.trans he), State.bit_hwSet_self _ _ _ (by decide),
      hs.hwSet (by simp) 29⟩
  case refine_3 =>
    refine (State.regWrite_of_takesWrite hw v _).trans (congrArg Host.Outcome.next (if_pos ?_))
    obtain h | h := h
    · exact .inl (by rw [h]; rfl)
    · exact .inr h
  case refine_4 =>
    exact (State.regWrite_of_takesWrite hw v _).trans (congrArg Host.Outcome.next
      ((ringMqDoorbell_of_running he hm v).trans (if_neg (by omega))))
  case refine_5 =>
    exact (State.regWrite_of_takesWrite hw v _).trans (congrArg Host.Outcome.next
      ((ringMqDoorbell_of_running he (.inr hm) v).trans ((if_pos hbad).trans (if_pos hm))))
  case refine_6 =>
    obtain ⟨t, ht, hmode, hst, hshape, hregs⟩ := s.mqError_spec St.length
    exact ⟨t, (State.regWrite_of_takesWrite hw v _).trans (congrArg Host.Outcome.next
      ((ringMqDoorbell_of_running he (.inl hm) v).trans ((if_pos hbad).trans ((if_neg (by omega)).trans ht)))), hmode, hst, hshape, hregs⟩
  case refine_7 =>
    exact ⟨_, (State.regWrite_of_takesWrite hw v _).trans (congrArg Host.Outcome.next (if_pos hlt)),
      s.fld_low_setReg_self R.mqCqHead (getField v 0 16) 16 (getField_lt v 0 16) (by decide), s.onlyRegs_setReg _ _⟩
  case refine_8 =>
    exact (State.regWrite_of_takesWrite hw v _).trans (congrArg Host.Outcome.next (if_neg (Nat.not_lt.mpr hge)))
  case refine_9 =>
    have hread := readPacket_of_read hr hh hf c
    rw [hv] at hread
    have hb : s.seenMem (s.reg64 R.mqSqBaseLo + 64 * s.mqHead) 64 ≠ [] :=
      List.ne_nil_of_length_pos (by simp [State.seenMem])
    generalize s.reg64 R.mqSqBaseLo + 64 * s.mqHead = a at hread hv hmark hb ⊢
    obtain ⟨⟨r, n, hshape⟩, hce⟩ := s.noteCorrected_spec a c
    have hkeep (o : Nat) (h1 : o ≠ R.tmTierACe) (h2 : o ≠ R.tmScratchCe) : (s.noteCorrected a c).reg o = s.reg o :=
      hce o (by simp [h1, h2])
    obtain ⟨t, ht, hidx, hhead, hpend, htshape, htregs, hnone, hsome⟩ := (s.noteCorrected a c).takePacket_spec hb
    have hi := hkeep R.mqIndex (by decide) (by decide)
    have hhd : (s.noteCorrected a c).mqHead = s.mqHead := State.fld_congr (hkeep R.mqSqHead (by decide) (by decide)) 0 16
    have hpk : (s.noteCorrected a c).mqPackets = s.mqPackets :=
      congrArg (fun x => 2 ^ (x + 4)) (State.fld_congr (hkeep R.mqCfg (by decide) (by decide)) 0 4)
    have hmq : (s.noteCorrected a c).mq = s.mq := by rw [hshape]
    rw [hi] at hidx hnone hsome
    rw [hmq] at hnone hsome
    rw [hhd, hpk] at hhead
    refine ⟨t, congrArg Host.Outcome.next ((hread.trans (if_pos hmark)).trans ht), hidx, hhead, hpend, ?_, fun o ho => ?_, hnone, hsome⟩
    · rw [htshape, hshape]
    · simp only [List.mem_cons, List.not_mem_nil, or_false, not_or] at ho
      exact (htregs o (by simp [ho])).trans (hkeep o ho.2.2.2.1 ho.2.2.2.2)
  case refine_10 =>
    have hread := readPacket_of_read hr hh hf c
    rw [hv] at hread
    generalize s.reg64 R.mqSqBaseLo + 64 * s.mqHead = a at hread hv hmark ⊢
    obtain ⟨⟨r, n, hshape⟩, hce⟩ := s.noteCorrected_spec a c
    refine ⟨_, congrArg Host.Outcome.next (hread.trans (if_neg hmark)), by rw [hshape], fun o ho => hce o ho, rfl, rfl, rfl, rfl⟩
  case refine_11 =>
    have hread := readPacket_of_read hr hh hf c
    rw [hv] at hread
    replace hread : readPacket c s = (s.memRefusal st (s.reg64 R.mqSqBaseLo + 64 * s.mqHead) none).mqError st := hread
    have htasks := s.tasks_memRefusal st (s.reg64 R.mqSqBaseLo + 64 * s.mqHead) none
    have hmem := s.sameMem_memRefusal st (s.reg64 R.mqSqBaseLo + 64 * s.mqHead) none
    generalize s.memRefusal st (s.reg64 R.mqSqBaseLo + 64 * s.mqHead) none = u at hread htasks hmem
    obtain ⟨t, ht, hmode, hst, hshape, -⟩ := u.mqError_spec st
    refine ⟨t, congrArg Host.Outcome.next (hread.trans ht), hmode, hst, ?_, ?_⟩
    · rw [hshape]
      exact htasks
    · rw [hshape]
      exact hmem
  case refine_12 => exact congrArg Host.Outcome.next (if_pos ⟨hr, by rw [hf]; rfl, by rw [ho]; rfl, hd⟩)
  case refine_13 =>
    refine congrArg Host.Outcome.next (if_neg ?_)
    rintro ⟨-, -, ho, hd⟩
    obtain h | h := h
    · rw [h] at ho
      exact absurd ho (by decide)
    · omega
  case refine_14 =>
    obtain ⟨t, ht, hmode, hst, hshape, hregs⟩ := s.mqError_spec St.phase
    refine ⟨t, congrArg Host.Outcome.next (Eq.trans ?_ ht), hmode, hst, hshape, hregs⟩
    unfold packetTimeout
    rw [hf]
    exact if_pos ⟨hm, hd⟩
  case refine_15 =>
    refine congrArg Host.Outcome.next ?_
    unfold packetTimeout
    rw [hf]
    exact if_neg (by omega)
  case refine_16 => exact congrArg Host.Outcome.next (writeReply_of_no_room (.inr (.inr (.inr hfull))))
  case refine_17 =>
    obtain ⟨t, ht, h⟩ := writeReply_spec hl he hm hroom
    exact ⟨t, congrArg Host.Outcome.next ht, h⟩
  case refine_18 =>
    refine congrArg Host.Outcome.next (writeReply_of_no_room ?_)
    obtain h | h | h := h
    · exact .inl h
    · exact .inr (.inl h)
    · exact .inr (.inr (.inl h))

end Sys2Proof.Machine
end

section
/-!
### A running task's turn (R15, R21, R22, R176, R204, R215)

What the work on one task changes beside that task: registers of streams, credits, holds and engine counts, the streams, and what
leaves the block. Every other task stays as it is.
-/
namespace Sys2Proof.Machine

/-- A register that work on a task may change: of streams, of credits, of holds, or of engine counts. -/
def workReg (o : Nat) : Bool := streamReg o || decide (0x801000 ≤ o ∧ o < 0x801200) || decide (0x804000 ≤ o ∧ o < 0x900000)

/-- What work on tasks leaves alone. -/
structure State.Around (s t : State) : Prop where
  frame : t = { s with
    regs := t.regs, mem := t.mem, freeCtr := t.freeCtr, out := t.out, hostHeld := t.hostHeld, now := t.now, later := t.later,
    tasks := t.tasks, apertures := t.apertures, ds := t.ds, deferred := t.deferred, fabricHeld := t.fabricHeld }
  latches : t.later.latches = s.later.latches
  events : t.later.events = s.later.events
  flags : t.later.flags = s.later.flags
  dispatched : t.now.dispatched = s.now.dispatched
  regs : ∀ o, workReg o = false → t.reg o = s.reg o
  kept : s.outKept t

theorem State.Around.refl (s : State) : s.Around s := ⟨rfl, rfl, rfl, rfl, rfl, fun _ _ => rfl, .refl s⟩

theorem State.Around.trans {s t u : State} (h : s.Around t) (k : t.Around u) : s.Around u where
  frame := k.frame.trans (by rw [h.frame])
  latches := k.latches.trans h.latches
  events := k.events.trans h.events
  flags := k.flags.trans h.flags
  dispatched := k.dispatched.trans h.dispatched
  regs o ho := (k.regs o ho).trans (h.regs o ho)
  kept := h.kept.trans k.kept

theorem State.Around.setReg {s t : State} (h : s.Around t) {off : Nat} (ho : workReg off = true) (v : Word) : s.Around (t.setReg off v) :=
  h.trans ⟨rfl, rfl, rfl, rfl, rfl, fun o hf => State.reg_setReg_ne t v (fun he => by rw [he, ho] at hf; exact Bool.noConfusion hf),
    .of_eq rfl rfl⟩

theorem State.Around.bump64 {s t : State} (h : s.Around t) {off : Nat} (ho : workReg off = true) (ho' : workReg (off + 4) = true)
    (n : Nat) : s.Around (t.bump64 off n) :=
  (h.setReg ho _).setReg ho' _

theorem State.Around.withTasks {s t : State} (h : s.Around t) (x : List Task) : s.Around { t with tasks := x } :=
  h.trans ⟨rfl, rfl, rfl, rfl, rfl, fun _ _ => rfl, .of_eq rfl rfl⟩

theorem State.Around.putTask {s t : State} (h : s.Around t) (x : Task) : s.Around (t.putTask x) := h.withTasks _

theorem State.Around.putStream {s t : State} (h : s.Around t) (n : Nat) (d : DsRun) : s.Around (t.putStream n d) :=
  h.trans ⟨rfl, rfl, rfl, rfl, rfl, fun _ _ => rfl, .of_eq rfl rfl⟩

theorem State.Around.withDeferred {s t : State} (h : s.Around t) (x : List Deferred) : s.Around { t with deferred := x } :=
  h.trans ⟨rfl, rfl, rfl, rfl, rfl, fun _ _ => rfl, .of_eq rfl rfl⟩

theorem State.Around.freeBits {s t : State} (h : s.Around t) (cs : List (Nat × Byte)) : s.Around (t.freeBits cs) :=
  h.trans ⟨rfl, rfl, rfl, rfl, rfl, fun _ _ => rfl, .of_eq rfl rfl⟩

theorem State.sentFabric.outKept {s t : State} {o : Out} (h : s.sentFabric t o) : s.outKept t := by
  unfold State.sentFabric at h
  split at h
  · split at h
    next p hp => exact ⟨fun o ho => h.1 ▸ List.mem_cons_of_mem _ ho, fun o ho => h.2 ▸ ho⟩
    next => exact ⟨fun o ho => h.1 ▸ ho, fun o ho => h.2 ▸ List.mem_append_left _ ho⟩
  · exact .of_eq h.1 h.2

theorem State.Around.emitFabric {s t : State} (h : s.Around t) {o : Out} (ho : o.plain) :
    s.Around (t.emitFabric o) ∧ (t.emitFabric o).tasks = t.tasks ∧ (t.emitFabric o).mem = t.mem ∧ (t.emitFabric o).memGen = t.memGen := by
  obtain ⟨a, b, he, hs⟩ := State.emitFabric_of_plain ho t
  rw [he]
  exact ⟨h.trans ⟨rfl, rfl, rfl, rfl, rfl, fun _ _ => rfl, hs.outKept⟩, rfl, rfl, rfl⟩

theorem State.emit_outKept (s : State) (o : Out) : s.outKept (s.emit o) := by
  unfold State.emit
  split
  · exact .of_eq rfl rfl
  · exact ⟨fun x hx => List.mem_cons_of_mem _ hx, fun x hx => hx⟩

theorem State.Around.emit {s t : State} (h : s.Around t) (o : Out) : s.Around (t.emit o) := by
  have hk := t.emit_outKept o
  obtain ⟨a, b, he⟩ := t.emit_shape o
  rw [he] at hk ⊢
  exact h.trans ⟨rfl, rfl, rfl, rfl, rfl, fun _ _ => rfl, hk⟩

theorem workReg_of_streamReg {o : Nat} (h : streamReg o = true) : workReg o = true := by simp [workReg, h]

theorem State.Beside.around {s t : State} (h : s.Beside [] t) : s.Around t where
  frame := h.frame.trans (by rw [h.frame])
  latches := h.latches.trans (List.append_nil _)
  events := h.quiet.1
  flags := h.quiet.2.1
  dispatched := h.quiet.2.2
  regs o ho := h.regs o (by
    cases hs : streamReg o with
    | false => rfl
    | true => rw [workReg_of_streamReg hs] at ho; exact Bool.noConfusion ho)
  kept := .of_eq (by rw [h.frame]) (by rw [h.frame])

/-! What changes of the tasks: one task, and no task comes or goes. -/

/-- The turn of one task: the others stay as they are. -/
structure State.Works (s t : State) (r : TaskRef) : Prop where
  around : s.Around t
  others : s.tasksBut t r
  refs : t.tasks.map Task.ref = s.tasks.map Task.ref

theorem State.Works.refl (s : State) (r : TaskRef) : s.Works s r := ⟨.refl s, fun _ _ => rfl, rfl⟩

theorem State.Works.trans {s t u : State} {r : TaskRef} (h : s.Works t r) (k : t.Works u r) : s.Works u r :=
  ⟨h.around.trans k.around, fun x hx => (k.others x hx).trans (h.others x hx), k.refs.trans h.refs⟩

theorem State.Around.works {s t : State} (h : s.Around t) (ht : t.tasks = s.tasks) (r : TaskRef) : s.Works t r :=
  ⟨h, fun x _ => State.task_of_tasks ht x, by rw [ht]⟩

/-- A task is put back after work beside the tasks. -/
theorem State.Around.worksPut {s t : State} (h : s.Around t) (ht : t.tasks = s.tasks) {r : TaskRef} {x y : Task}
    (hx : s.task r = some x) (hy : y.ref = r) : s.Works (t.putTask y) r ∧ (t.putTask y).task r = some y := by
  have hx' : t.task r = some x := (State.task_of_tasks ht r).trans hx
  refine ⟨⟨h.putTask y, fun z hz => ?_, ?_⟩, State.task_putTask_self hx' hy⟩
  · exact (State.tasksBut_putTask_of_ref t hy z hz).trans (State.task_of_tasks ht z)
  · rw [State.refs_putTask, ht]

/-! ### Failing (R22) -/

theorem workReg_tmEngBytes (e : Fin 68) : workReg (R.tmEngBytesLo e) = true ∧ workReg (R.tmEngBytesLo e + 4) = true := by
  have h : 0x804000 ≤ R.tmEngBytesLo e ∧ R.tmEngBytesLo e + 4 < 0x900000 := by simp only [R.tmEngBytesLo]; omega
  have h1 : 0x804000 ≤ R.tmEngBytesLo e ∧ R.tmEngBytesLo e < 0x900000 := by omega
  have h2 : 0x804000 ≤ R.tmEngBytesLo e + 4 ∧ R.tmEngBytesLo e + 4 < 0x900000 := by omega
  simp [workReg, h1, h2]

theorem State.countDigested_around (s : State) (x : Task) : s.Around (s.countDigested x) ∧ (s.countDigested x).tasks = s.tasks ∧
    (s.countDigested x).mem = s.mem := by
  unfold State.countDigested
  split
  · exact ⟨.refl s, rfl, rfl⟩
  next e he =>
    obtain ⟨h1, h2⟩ := workReg_tmEngBytes e
    have h := (State.Around.refl s).bump64 h1 h2 (x.digestInput s.node).length
    obtain ⟨r, hr⟩ := s.setReg64_shape (R.tmEngBytesLo e) (s.reg64 (R.tmEngBytesLo e) + (x.digestInput s.node).length)
    unfold State.bump64 at h ⊢
    rw [hr] at h ⊢
    exact ⟨h, rfl, rfl⟩

theorem State.failEffects_around (s : State) (x : Task) (st : Status) : s.Around (s.failEffects x st) :=
  ((State.Beside.refl s).failEffects x st).around

/-- A task that has failed with a status while it ran: it waits for what is outstanding, or has finished. -/
def Task.FailsWith (x y : Task) (st : Status) : Prop :=
  y = { x with phase := y.phase, status := st, failedAt := y.failedAt, bytes := 0, digest := 0, issueQ := y.issueQ } ∧
    (y.phase = .failing ∨ y.phase = .finished)

theorem State.settleFailing_works {s : State} {x : Task} (hx : s.task x.ref = some x) :
    s.Works (s.settleFailing x) x.ref ∧
      ((s.settleFailing x).task x.ref = some x ∨ (s.settleFailing x).task x.ref = some { x with phase := .finished }) := by
  unfold State.settleFailing
  split
  · obtain ⟨ha, ht, -⟩ := s.countDigested_around x
    obtain ⟨hw, hy⟩ := ha.worksPut ht (y := { x with phase := .finished }) hx rfl
    exact ⟨⟨hw.around.freeBits _, hw.others, hw.refs⟩, .inr hy⟩
  · exact ⟨.refl s _, .inl hx⟩

theorem State.failTask_of_running {s : State} {r : TaskRef} {x : Task} (hx : s.task r = some x) (hp : x.phase = .running) (st : Status) :
    s.Works (s.failTask r st) r ∧ ∃ y, (s.failTask r st).task r = some y ∧ x.FailsWith y st := by
  obtain rfl : x.ref = r := State.ref_of_task hx
  have ha := s.failEffects_around x st
  have ht := s.tasks_failEffects x st
  unfold State.failTask
  simp only [hx, hp]
  obtain ⟨hw, hy⟩ := ha.worksPut ht (y := x.failedRunning st s.cycle) hx rfl
  generalize s.failEffects x st = u at hw hy ⊢
  split
  · have hw' := (State.Around.refl (u.putTask (x.failedRunning st s.cycle))).worksPut rfl
      (y := { x.failedRunning st s.cycle with phase := .finished }) hy rfl
    exact ⟨hw.trans hw'.1, _, hw'.2, rfl, .inr rfl⟩
  · obtain ⟨hw', hy' | hy'⟩ := State.settleFailing_works (x := x.failedRunning st s.cycle) hy
    · exact ⟨hw.trans hw', _, hy', rfl, .inl rfl⟩
    · exact ⟨hw.trans hw', _, hy', rfl, .inr rfl⟩

/-- Settling a task that has failed keeps it failed. -/
theorem State.settle_of_failed {s : State} {r : TaskRef} {x : Task} (hx : s.task r = some x)
    (hp : x.phase = .failing ∨ x.phase = .finished) :
    s.Works (s.settle r) r ∧ ∃ y, (s.settle r).task r = some y ∧ y = { x with phase := y.phase } ∧
      (y.phase = .failing ∨ y.phase = .finished) := by
  obtain rfl : x.ref = r := State.ref_of_task hx
  unfold State.settle
  simp only [hx]
  obtain hp | hp := hp
  · rw [hp]
    obtain ⟨hw, hy | hy⟩ := State.settleFailing_works hx
    · exact ⟨hw, x, hy, rfl, .inl hp⟩
    · exact ⟨hw, _, hy, rfl, .inr rfl⟩
  · rw [hp]
    exact ⟨.refl s _, x, hx, rfl, .inr hp⟩

theorem State.noteTiles_of_idle {s : State} {r : TaskRef} {x : Task} (hx : s.task r = some x) (hp : x.phase ≠ .running) :
    s.noteTiles r = s := by
  unfold State.noteTiles
  rw [hx]
  exact if_pos hp

theorem State.releaseStaged_of_idle {s : State} {r : TaskRef} {x : Task} (hx : s.task r = some x) (hp : x.phase ≠ .running) :
    s.releaseStaged r = s := by
  unfold State.releaseStaged
  rw [hx]
  exact if_pos (.inl hp)

theorem State.grantCredits_of_idle {s : State} {r : TaskRef} {x : Task} (hx : s.task r = some x) (hp : x.phase ≠ .running) :
    s.grantCredits r = s := by
  unfold State.grantCredits
  rw [hx]
  exact if_pos (.inl hp)

theorem State.noteReady_of_idle {s : State} {r : TaskRef} {x : Task} (hx : s.task r = some x) (hp : x.phase ≠ .running) :
    s.noteReady r = s := by
  unfold State.noteReady
  rw [hx]
  exact if_pos (.inl hp)

/-- Of a task that does not run only the end moves on. -/
theorem State.proceed_of_idle {s : State} {r : TaskRef} {x : Task} (hx : s.task r = some x) (hp : x.phase ≠ .running) :
    s.proceed r = s.settle r := by
  unfold State.proceed State.exchange
  rw [State.noteTiles_of_idle hx hp, State.releaseStaged_of_idle hx hp, State.grantCredits_of_idle hx hp, State.noteReady_of_idle hx hp]

theorem phase_ne_running_of_failed {p : Phase} (h : p = .failing ∨ p = .finished) : p ≠ .running := by
  rintro rfl
  exact h.elim (fun h => nomatch h) (fun h => nomatch h)

theorem State.failTask_then_settle {s : State} {r : TaskRef} {x : Task} (hx : s.task r = some x) (hp : x.phase = .running) (st : Status) :
    s.Works ((s.failTask r st).settle r) r ∧ ∃ y, ((s.failTask r st).settle r).task r = some y ∧ x.FailsWith y st := by
  obtain ⟨hw, y, hy, hf, hph⟩ := State.failTask_of_running hx hp st
  obtain ⟨hw', z, hz, he, hph'⟩ := State.settle_of_failed hy hph
  refine ⟨hw.trans hw', z, hz, ?_, hph'⟩
  rw [he, hf]

/-! ### Moving on (R15, R16, R176, R204, R213, R215) -/

/-- What moving on changes of a running task: staged entries that have been taken leave, credits are granted, and it may finish once
nothing is staged. -/
structure Task.Proceeds (x y : Task) : Prop where
  frame : y = { x with
    issueQ := y.issueQ, phase := y.phase, status := y.status, bytes := y.bytes, digest := y.digest, flushing := y.flushing,
    flushAt := y.flushAt, coll := { x.coll with granted := y.coll.granted, readyAt := y.coll.readyAt } }
  queue : y.issueQ.Sublist x.issueQ
  untaken : ∀ i ∈ x.issueQ, i.taken = false → i ∈ y.issueQ
  phase : y.phase = .running ∨ (y.phase = .finished ∧ y.issueQ = [])
  flushing : x.flushed = true → y.flushing = x.flushing
  queueTask : isQueueTask (entryOpcode x.entry) = true → y.phase = .running

theorem Task.Proceeds.refl {x : Task} (h : x.phase = .running) : x.Proceeds x :=
  ⟨rfl, .refl _, fun _ h _ => h, .inl h, fun _ => rfl, fun _ => h⟩

/-- One more step of a task that still runs. -/
theorem Task.Proceeds.trans {x y z : Task} (h : x.Proceeds y) (k : y.Proceeds z) : x.Proceeds z where
  frame := k.frame.trans (by rw [h.frame])
  queue := k.queue.trans h.queue
  untaken i hi ht := k.untaken i (h.untaken i hi ht) ht
  phase := k.phase
  flushing hf := (k.flushing (by rw [h.frame]; exact hf)).trans (h.flushing hf)
  queueTask hq := k.queueTask (by rw [h.frame]; exact hq)

/-- A running task's turn: it moves on, memory stays. -/
def State.Moves (s t : State) (r : TaskRef) (x y : Task) : Prop :=
  s.Works t r ∧ t.task r = some y ∧ x.Proceeds y ∧ t.mem = s.mem ∧ t.memGen = s.memGen

theorem State.Moves.trans {s t u : State} {r : TaskRef} {x y z : Task} (h : s.Moves t r x y) (k : t.Moves u r y z) : s.Moves u r x z :=
  ⟨h.1.trans k.1, k.2.1, h.2.2.1.trans k.2.2.1, k.2.2.2.1.trans h.2.2.2.1, k.2.2.2.2.trans h.2.2.2.2⟩

theorem State.Moves.sameMem {s t : State} {r : TaskRef} {x y : Task} (h : s.Moves t r x y) : s.sameMem t := by
  obtain ⟨-, -, -, hm, hg⟩ := h
  intro a
  unfold State.readByte
  rw [hm, hg]

theorem workReg_hold {c : Nat} (h : c < 16) : workReg (R.holdCurLo c) = true ∧ workReg (R.holdCurLo c + 4) = true ∧
    workReg (R.holdTotalLo c) = true ∧ workReg (R.holdTotalLo c + 4) = true := by
  have hold (o : Nat) (h : 0x801000 ≤ o ∧ o < 0x801200) : workReg o = true := by simp [workReg, h]
  simp only [R.holdCurLo, R.holdTotalLo]
  exact ⟨hold _ (by omega), hold _ (by omega), hold _ (by omega), hold _ (by omega)⟩

theorem State.countHold_around (s : State) {c : Nat} (h : c < 16) (n : Nat) : s.Around (s.countHold c n) := by
  obtain ⟨h1, h2, h3, h4⟩ := workReg_hold h
  exact ((State.Around.refl s).bump64 h1 h2 n).bump64 h3 h4 n

theorem readCause_lt (m : Option (ReadMarks × Bool)) : readCause m < 16 := by
  unfold readCause
  repeat' split
  all_goals decide

theorem State.deferredCause_lt (s : State) (x : Deferred) : s.deferredCause x < 16 := by
  unfold State.deferredCause
  split
  · decide
  · split
    · decide
    · exact readCause_lt _

theorem State.resolveWhere_around (s : State) (p : Deferred → Bool) : s.Around (s.resolveWhere p) := by
  unfold State.resolveWhere
  refine State.Around.withDeferred (t := (s.deferred.filter p).foldl (fun u x => u.countHold (s.deferredCause x) x.cycles) s) ?_ _
  exact List.foldlRecOn (motive := fun u : State => s.Around u) _ _ (.refl s)
    fun u hu x _ => hu.trans (u.countHold_around (s.deferredCause_lt x) _)

theorem State.resolveWhere_spec (s : State) (p : Deferred → Bool) : (s.resolveWhere p).tasks = s.tasks ∧ (s.resolveWhere p).mem = s.mem ∧
    (s.resolveWhere p).memGen = s.memGen := by
  obtain ⟨r, h⟩ := s.resolveWhere_shape p
  rw [h]
  exact ⟨rfl, rfl, rfl⟩

/-- Work beside the tasks that leaves memory. -/
def State.Beyond (s t : State) : Prop := s.Around t ∧ t.tasks = s.tasks ∧ t.mem = s.mem ∧ t.memGen = s.memGen

theorem State.Beyond.refl (s : State) : s.Beyond s := ⟨.refl s, rfl, rfl, rfl⟩

theorem State.Beyond.trans {s t u : State} (h : s.Beyond t) (k : t.Beyond u) : s.Beyond u :=
  ⟨h.1.trans k.1, k.2.1.trans h.2.1, k.2.2.1.trans h.2.2.1, k.2.2.2.trans h.2.2.2⟩

theorem State.addReady_beyond (s : State) (n : Nat) (tiles : List Nat) : s.Beyond (s.addReady n tiles) := by
  unfold State.addReady
  split
  · exact .refl s
  next d _ =>
    unfold State.resolveHolds
    generalize { d with ready := d.ready ++ tiles.filter (fun i => ! d.ready.contains i) } = e
    obtain ⟨ht, hm, hg⟩ := (s.putStream n e).resolveWhere_spec (s.putStream n e).decided
    exact ⟨((State.Around.refl s).putStream n e).trans (State.resolveWhere_around _ _), ht, hm, hg⟩

theorem State.noteTiles_beyond (s : State) (r : TaskRef) : s.Beyond (s.noteTiles r) := by
  unfold State.noteTiles
  split
  · exact .refl s
  next t _ =>
    split
    · exact .refl s
    · have hfill : s.Beyond (match t.fillBind with
          | none => s
          | some b => s.addReady b.stream ((List.range' b.first b.count).filter (s.tileFilled t))) := by
        split
        · exact .refl s
        · exact s.addReady_beyond _ _
      dsimp only
      split
      · exact hfill
      · exact hfill.trans (State.addReady_beyond _ _ _)

theorem State.Beyond.moves {s t : State} (h : s.Beyond t) {r : TaskRef} {x y : Task} (hx : s.task r = some x) (hy : y.ref = r)
    (hxy : x.Proceeds y) : s.Moves (t.putTask y) r x y := by
  obtain ⟨ha, ht, hm, hg⟩ := h
  obtain ⟨hw, hput⟩ := ha.worksPut ht hx hy
  exact ⟨hw, hput, hxy, hm, hg⟩

theorem State.Beyond.stays {s t : State} (h : s.Beyond t) {r : TaskRef} {x : Task} (hx : s.task r = some x) (hp : x.phase = .running) :
    s.Moves t r x x :=
  ⟨h.1.works h.2.1 r, (State.task_of_tasks h.2.1 r).trans hx, .refl hp, h.2.2.1, h.2.2.2⟩

theorem Task.released_proceeds {x : Task} (hp : x.phase = .running) (self : Nat) :
    x.Proceeds { x with issueQ := x.issueQ.filter (fun i => ! i.taken || x.heldForPiece self i) } where
  frame := rfl
  queue := List.filter_sublist
  untaken i hi ht := List.mem_filter.mpr ⟨hi, by rw [ht]; rfl⟩
  phase := .inl hp
  flushing _ := rfl
  queueTask _ := hp

theorem State.releaseStaged_moves {s : State} {r : TaskRef} {x : Task} (hx : s.task r = some x) (hp : x.phase = .running) :
    ∃ y, s.Moves (s.releaseStaged r) r x y ∧ y.phase = .running := by
  obtain rfl : x.ref = r := State.ref_of_task hx
  unfold State.releaseStaged
  rw [hx]
  dsimp only
  split
  · exact ⟨x, (State.Beyond.refl s).stays hx hp, hp⟩
  · exact ⟨_, (State.Beyond.refl s).moves hx rfl (Task.released_proceeds hp s.node), hp⟩

theorem collectiveCredit_plain (n t stage piece : Nat) (a : Announcement) (p : Nat) : (Out.collectiveCredit n t stage piece a p).plain :=
  ⟨fun _ _ => rfl, rfl, fun _ => rfl⟩

theorem State.foldl_emitFabric_beyond {β : Type} (f : β → Out) (hf : ∀ x, (f x).plain) (l : List β) (s : State) :
    s.Beyond (l.foldl (fun u x => u.emitFabric (f x)) s) :=
  List.foldlRecOn (motive := fun u : State => s.Beyond u) _ _ (.refl s) fun u hu x _ =>
    hu.trans ((State.Around.refl u).emitFabric (hf x))

theorem Task.granted_proceeds {x : Task} (hp : x.phase = .running) (g : List (Nat × Nat × Nat)) :
    x.Proceeds { x with coll := { x.coll with granted := g } } :=
  ⟨rfl, .refl _, fun _ h _ => h, .inl hp, fun _ => rfl, fun _ => hp⟩

theorem State.grantCredits_moves {s : State} {r : TaskRef} {x : Task} (hx : s.task r = some x) (hp : x.phase = .running) :
    ∃ y, s.Moves (s.grantCredits r) r x y ∧ y.phase = .running := by
  obtain rfl : x.ref = r := State.ref_of_task hx
  unfold State.grantCredits
  rw [hx]
  dsimp only
  split
  · exact ⟨x, (State.Beyond.refl s).stays hx hp, hp⟩
  · refine ⟨_, State.Beyond.moves (State.foldl_emitFabric_beyond _ (fun _ => collectiveCredit_plain _ _ _ _ _ _) _ s) hx rfl
      (Task.granted_proceeds hp _), hp⟩

theorem Task.ready_proceeds {x : Task} (hp : x.phase = .running) (c : Option Nat) :
    x.Proceeds { x with coll := { x.coll with readyAt := c } } :=
  ⟨rfl, .refl _, fun _ h _ => h, .inl hp, fun _ => rfl, fun _ => hp⟩

theorem State.noteReady_moves {s : State} {r : TaskRef} {x : Task} (hx : s.task r = some x) (hp : x.phase = .running) :
    ∃ y, s.Moves (s.noteReady r) r x y ∧ y.phase = .running := by
  obtain rfl : x.ref = r := State.ref_of_task hx
  unfold State.noteReady
  rw [hx]
  dsimp only
  split
  · exact ⟨x, (State.Beyond.refl s).stays hx hp, hp⟩
  · split
    · split
      · exact ⟨_, (State.Beyond.refl s).moves hx rfl (Task.ready_proceeds hp _), hp⟩
      · exact ⟨x, (State.Beyond.refl s).stays hx hp, hp⟩
    · exact ⟨x, (State.Beyond.refl s).stays hx hp, hp⟩

/-! The end of a task's data. -/

theorem Task.issueQ_of_dataDone {x : Task} {self : Nat} (h : x.dataDone self = true) : x.issueQ = [] := by
  simp only [Task.dataDone, Bool.and_eq_true, decide_eq_true_eq] at h
  exact h.1.1.1.2

theorem Task.flushes_proceeds {x : Task} (hp : x.phase = .running) (hf : x.flushed = false) (at_ : Nat) :
    x.Proceeds { x with flushing := true, flushAt := at_ } :=
  ⟨rfl, .refl _, fun _ h _ => h, .inl hp, fun h => by rw [hf] at h; exact Bool.noConfusion h, fun _ => hp⟩

theorem Task.succeeded_proceeds {x : Task} (self : Nat) (hd : x.issueQ = []) (hq : isQueueTask (entryOpcode x.entry) ≠ true) :
    x.Proceeds (x.succeeded self) :=
  ⟨rfl, .refl _, fun _ h _ => h, .inr ⟨rfl, hd⟩, fun _ => rfl, fun h => absurd h hq⟩

theorem State.issueFlush_moves {s : State} {x : Task} (hx : s.task x.ref = some x) (hp : x.phase = .running) (hf : x.flushed = false) :
    ∃ y, s.Moves (s.issueFlush x) x.ref x y := by
  unfold State.issueFlush
  split
  · exact ⟨x, (State.Beyond.refl s).stays hx hp⟩
  · have hemit (o : Out) : s.Beyond (s.emit o) := by
      have h := (State.Around.refl s).emit o
      obtain ⟨a, b, he⟩ := s.emit_shape o
      rw [he] at h ⊢
      exact ⟨h, rfl, rfl, rfl⟩
    split
    · exact ⟨_, (hemit _).moves hx rfl (Task.flushes_proceeds hp hf _)⟩
    · exact ⟨_, (State.Beyond.refl s).moves hx rfl (Task.flushes_proceeds hp hf _)⟩

theorem State.countDigested_beyond (s : State) (x : Task) : s.Beyond (s.countDigested x) := by
  obtain ⟨ha, ht, hm⟩ := s.countDigested_around x
  exact ⟨ha, ht, hm, by rw [ha.frame]⟩

theorem State.settle_moves {s : State} {r : TaskRef} {x : Task} (hx : s.task r = some x) (hp : x.phase = .running) :
    ∃ y, s.Moves (s.settle r) r x y := by
  obtain rfl : x.ref = r := State.ref_of_task hx
  have hstay : ∃ y, s.Moves s x.ref x y := ⟨x, (State.Beyond.refl s).stays hx hp⟩
  unfold State.settle
  simp only [hx, hp]
  split
  · exact hstay
  next hq =>
    split
    · exact hstay
    next hd =>
      split
      next hf =>
        simp only [Bool.and_eq_true, Bool.not_eq_true'] at hf
        exact State.issueFlush_moves hx hp hf.2
      next =>
        split
        · have hqueue : x.issueQ = [] := Task.issueQ_of_dataDone (by simpa using hd)
          exact ⟨_, (s.countDigested_beyond x).moves hx rfl (Task.succeeded_proceeds s.node hqueue hq)⟩
        · exact hstay

/-- A running task moves on: other tasks and memory stay. -/
theorem State.proceed_moves {s : State} {r : TaskRef} {x : Task} (hx : s.task r = some x) (hp : x.phase = .running) :
    ∃ y, s.Moves (s.proceed r) r x y := by
  have h1 := (s.noteTiles_beyond r).stays hx hp
  obtain ⟨y2, h2, hp2⟩ := State.releaseStaged_moves h1.2.1 hp
  obtain ⟨y3, h3, hp3⟩ := State.grantCredits_moves h2.2.1 hp2
  obtain ⟨y4, h4, hp4⟩ := State.noteReady_moves h3.2.1 hp3
  obtain ⟨y5, h5⟩ := State.settle_moves h4.2.1 hp4
  exact ⟨y5, (((h1.trans h2).trans h3).trans h4).trans h5⟩

theorem State.proceed_of_failed {s : State} {r : TaskRef} {x : Task} (hx : s.task r = some x)
    (hp : x.phase = .failing ∨ x.phase = .finished) :
    s.Works (s.proceed r) r ∧ ∃ y, (s.proceed r).task r = some y ∧ y = { x with phase := y.phase } ∧
      (y.phase = .failing ∨ y.phase = .finished) := by
  rw [State.proceed_of_idle hx (phase_ne_running_of_failed hp)]
  exact State.settle_of_failed hx hp

end Sys2Proof.Machine
end

section
/-!
### The data path of a running task (R15, R21, R22, R36, R204, R250, R277)
-/
namespace Sys2Proof.Machine

/-! A read goes out. -/

theorem crdVal_mem {n : Nat} (h : n < 64) : R.crdVal n ∈ (List.range 64).map R.crdVal :=
  List.mem_map.mpr ⟨n, List.mem_range.mpr h, rfl⟩

theorem crdVal_bounds {o : Nat} (h : o ∈ (List.range 64).map R.crdVal) : 0x390000 ≤ o ∧ o < 0x390400 := by
  obtain ⟨n, hn, rfl⟩ := List.mem_map.mp h
  have := List.mem_range.mp hn
  simp only [R.crdVal]
  omega

theorem Task.creditNeed_lt {x : Task} {r : ReadReq} {c n : Nat} (h : x.creditNeed r = some (c, n)) : c < 64 := by
  unfold Task.creditNeed at h
  split at h
  · split at h
    next c' i n' hc hr =>
      split at h
      · obtain ⟨rfl, -⟩ := Prod.mk.inj (Option.some.inj h)
        exact streamCredit_lt hc
      · exact nomatch h
    · exact nomatch h
  · exact nomatch h

/-- A read takes credits of one counter at most, and the task counts the runs it has taken. -/
theorem State.takeCredits_spec (s : State) (x : Task) (r : ReadReq) : ∃ g n,
    s.takeCredits x r = ({ s with regs := g }, { x with runsTaken := n }) ∧ s.regsBut { s with regs := g } ((List.range 64).map R.crdVal) := by
  unfold State.takeCredits
  split
  next c n hc =>
    obtain ⟨g, hg⟩ := s.setReg_shape (R.crdVal c) (BitVec.ofNat 32 ((s.reg (R.crdVal c)).toNat - n))
    refine ⟨g, x.runsTaken + 1, by rw [hg], fun o ho => ?_⟩
    rw [← hg]
    exact s.reg_setReg_ne _ (fun h => ho (h ▸ crdVal_mem (Task.creditNeed_lt hc)))
  next => exact ⟨s.regs, x.runsTaken, rfl, fun _ _ => rfl⟩

/-- The issue-queue entry of a read that goes out. -/
def State.issueEntry (s : State) (x : Task) (r : ReadReq) : Issued :=
  { no := x.readsIssued, req := r, alloc := r.alloc, at_ := s.cycle, answered := false, bytes := [], corrected := false,
    refreshed := false, emitted := false, taken := false }

/-- The task of a read that has gone out. -/
def State.readSent (s : State) (x : Task) (r : ReadReq) (n : Nat) : Task :=
  { x with runsTaken := n, readsIssued := x.readsIssued + 1, issueQ := x.issueQ ++ [s.issueEntry x r] }

/-- The credits are taken and the entry is queued. -/
def State.readQueued (s : State) (x : Task) (r : ReadReq) (g : SMap Word) (n : Nat) : State :=
  ({ s with regs := g } : State).putTask (s.readSent x r n)

/-- Its credits taken and its entry queued, a read leaves for its place. -/
theorem State.sendRead_eq (s : State) (x : Task) (r : ReadReq) : ∃ g n,
    s.regsBut { s with regs := g } ((List.range 64).map R.crdVal) ∧
    (r.space = .device → s.sendRead x r = if r.addr / 2 ^ 48 = s.node then s.readQueued x r g n
      else (s.readQueued x r g n).emitFabric (.remoteRead r.addr r.len 0)) ∧
    (∀ z, r.space = .host → x.rangeOf r.addr r.len = some z → s.sendRead x r = (s.readQueued x r g n).emit
      (.hostRead (z.target (r.addr - z.host)) r.len (s.taskPasid x.ref) (! z.untranslated))) := by
  obtain ⟨g, n, h, hr⟩ := s.takeCredits_spec x r
  have hrange : ({ x with runsTaken := n } : Task).rangeOf r.addr r.len = x.rangeOf r.addr r.len := rfl
  refine ⟨g, n, hr, fun hd => ?_, fun z hh hz => ?_⟩
  · unfold State.sendRead
    rw [h, hd]
    rfl
  · unfold State.sendRead
    rw [h, hh]
    dsimp only
    rw [hz]
    rfl

theorem State.readQueued_spec {s : State} {r : TaskRef} {x : Task} (hx : s.task r = some x) (hp : x.phase = .running) (q : ReadReq)
    {g : SMap Word} (hg : s.regsBut { s with regs := g } ((List.range 64).map R.crdVal)) (n : Nat) :
    ∃ y, (s.readQueued x q g n).task r = some y ∧ y.entry = x.entry ∧ y.phase = .running ∧ y.readsIssued = x.readsIssued + 1 ∧
      y.issueQ.map Issued.req = x.issueQ.map Issued.req ++ [q] ∧ (∃ l, s.readQueued x q g n = { s with regs := g, tasks := l }) ∧
      s.regsBut (s.readQueued x q g n) ((List.range 64).map R.crdVal) ∧ s.tasksBut (s.readQueued x q g n) r := by
  have hr : x.ref = r := State.ref_of_task hx
  have hy : ({ s with regs := g } : State).task r = some x := hx
  refine ⟨s.readSent x q n, State.task_putTask_self hy hr, rfl, hp, rfl, List.map_append, ⟨_, rfl⟩, hg, fun z hz => ?_⟩
  exact State.tasksBut_putTask_of_ref { s with regs := g } (y := s.readSent x q n) hr z hz

/-- Where a packet of no triple leaves depends on the ports that serve alone. -/
theorem State.sentFabric_congr {s t u : State} {o : Out} (h : t.sentFabric u o) (ho : o.triple = none)
    (hf : t.reg R.feCtl = s.reg R.feCtl) (hr : ∀ p < 32, t.reg (R.feLaneStatus p) = s.reg (R.feLaneStatus p)) (hout : t.out = s.out)
    (hh : t.fabricHeld = s.fabricHeld) : s.sentFabric u o := by
  have hserve : t.servingPorts = s.servingPorts :=
    List.filter_congr fun p hp => State.bit_congr (hr p (List.mem_range.mp hp)) 1
  have hport : t.portOf o = s.portOf o := by
    unfold State.portOf
    rw [ho, hserve]
  unfold State.sentFabric at h ⊢
  rw [State.bit_congr hf, hport, hout, hh] at h
  exact h

theorem remoteRead_plain (a n p : Nat) : (Out.remoteRead a n p).plain := ⟨fun _ _ => rfl, rfl, fun _ => rfl⟩

theorem issueRead_of_running {ref : TaskRef} {s : State} {x : Task} {r : ReadReq} (hx : s.task ref = some x) (hp : x.phase = .running)
    (hr : s.nextRead x = some r) (hi : x.issued < 1024) (ha : x.staged + r.alloc ≤ 524288) : issueRead ref s =
      if s.gated x r then s
      else if r.space = .host then
        (if (x.rangeOf r.addr r.len).isNone then s.failTask ref St.pageFault else s.sendRead x r)
      else if r.addr / 2 ^ 48 ≠ s.node && s.deadNode (r.addr / 2 ^ 48) then
        (s.bump R.feDeadRefused 1).failTask ref St.deadDestination
      else s.sendRead x r := by
  have hroom (b : Bool) : (1024 ≤ x.issued ∨ 524288 < x.staged + r.alloc ∨ b = true) ↔ b = true := by
    simp only [Nat.not_le.mpr hi, Nat.not_lt.mpr ha, false_or]
  unfold issueRead
  rw [hx]
  dsimp only
  rw [if_neg (not_not_intro hp), hr]
  simp only [hroom]

theorem workReg_eq_false {o : Nat} (h : ¬ (0x380000 ≤ o ∧ o < 0x3B0000)) (hf : o ≠ R.tuRangesFree)
    (hh : ¬ (0x801000 ≤ o ∧ o < 0x801200)) (he : ¬ (0x804000 ≤ o ∧ o < 0x900000)) : workReg o = false := by
  simp only [workReg, streamReg, h, hf, hh, he, decide_false, Bool.or_false]

/-- Settles O31. -/
theorem readsGoOut : Obligations.ReadsGoOut := by
  unfold Obligations.ReadsGoOut
  intro ref s x r hx hp hr hi ha
  have hissue := issueRead_of_running hx hp hr hi ha
  obtain rfl : x.ref = ref := State.ref_of_task hx
  obtain ⟨g, n, hg, hdev, hhost⟩ := s.sendRead_eq x r
  obtain ⟨y, hy, he, hph, hn, hq, ⟨l, hl⟩, hregs, hbut⟩ := State.readQueued_spec hx hp r hg n
  have hcrd (o : Nat) (h : ¬ (0x390000 ≤ o ∧ o < 0x390400)) : (s.readQueued x r g n).reg o = s.reg o :=
    hregs o (fun hm => h (crdVal_bounds hm))
  refine ⟨fun hgate => ?_, fun hgate hsp hn' => ?_, fun hgate hsp hn' hdead => ?_, fun z hgate hsp hz => ?_, fun hgate hsp hz => ?_,
    fun hgate hsp hn' hdead => ?_⟩
  case refine_1 => exact congrArg Host.Outcome.next (hissue.trans (if_pos hgate))
  all_goals rw [if_neg (by simp [hgate])] at hissue
  case refine_2 =>
    rw [if_neg (by simp [hsp]), hn', if_neg (by simp), hdev hsp, if_pos hn'] at hissue
    refine ⟨_, y, congrArg Host.Outcome.next hissue, ⟨hy, he, hph, hn, hq, ?_, hregs, hbut⟩, ?_, ?_, ?_⟩
    all_goals rw [hl]
  case refine_3 =>
    rw [if_neg (by simp [hsp]), hdead, Bool.and_false, if_neg Bool.false_ne_true, hdev hsp, if_neg hn'] at hissue
    obtain ⟨a, b, hem, hsent⟩ := State.emitFabric_of_plain (remoteRead_plain r.addr r.len 0) (s.readQueued x r g n)
    rw [hem] at hissue
    refine ⟨_, y, congrArg Host.Outcome.next hissue, ⟨hy, he, hph, hn, hq, by rw [hl], hregs, hbut⟩, ?_, by rw [hl]⟩
    refine State.sentFabric_congr hsent rfl (hcrd _ (by decide)) (fun p hp32 => hcrd _ ?_) (by rw [hl]) (by rw [hl])
    simp only [R.feLaneStatus]
    omega
  case refine_4 =>
    rw [if_pos hsp, hz, if_neg (by simp), hhost z hsp hz] at hissue
    have hsent := (s.readQueued x r g n).sentHost_emit
      (o := .hostRead (z.target (r.addr - z.host)) r.len (s.taskPasid x.ref) (! z.untranslated)) rfl
    obtain ⟨a, b, hem⟩ := (s.readQueued x r g n).emit_shape
      (.hostRead (z.target (r.addr - z.host)) r.len (s.taskPasid x.ref) (! z.untranslated))
    rw [hem] at hissue hsent
    refine ⟨_, y, congrArg Host.Outcome.next hissue, ⟨hy, he, hph, hn, hq, by rw [hl], hregs, hbut⟩, by rw [hl], ?_⟩
    rw [hl] at hsent
    exact hsent
  case refine_5 =>
    rw [if_pos hsp, hz, if_pos Option.isNone_none] at hissue
    obtain ⟨hw, y, hy, hf, hph⟩ := State.failTask_of_running hx hp St.pageFault
    exact ⟨_, y, congrArg Host.Outcome.next hissue, hy, by rw [hf], phase_ne_running_of_failed hph, hw.others⟩
  case refine_6 =>
    rw [if_neg (by simp [hsp]), hdead, decide_eq_true hn', Bool.true_and, if_pos rfl] at hissue
    have hbx : (s.bump R.feDeadRefused 1).task x.ref = some x := hx
    obtain ⟨hw, y, hy, hf, hph⟩ := State.failTask_of_running hbx hp St.deadDestination
    refine ⟨_, y, congrArg Host.Outcome.next hissue, hy, by rw [hf], phase_ne_running_of_failed hph, ?_, fun k hk => hw.others k hk⟩
    exact (hw.around.regs _ (by decide)).trans (s.reg_bump_self _ _)

/-! A write is answered. -/

/-- What a task's turn leaves of the others, from a state with the same tasks otherwise. -/
theorem State.Moves.but {s u t : State} {r : TaskRef} {x y : Task} (h : u.Moves t r x y) (hu : s.tasksBut u r) : s.tasksBut t r :=
  fun z hz => (h.1.others z hz).trans (hu z hz)

theorem State.Works.but {s u t : State} {r : TaskRef} (h : u.Works t r) (hu : s.tasksBut u r) : s.tasksBut t r :=
  fun z hz => (h.others z hz).trans (hu z hz)

/-- The task without its oldest write. -/
def Task.acked (x : Task) (l : List WriteReq) : Task := { x with pendingW := l }

theorem ackWrite_of_elsewhere {ref : TaskRef} {s : State} {x : Task} {w : WriteReq} {l : List WriteReq} (hx : s.task ref = some x)
    (hp : x.phase = .running) (hw : x.pendingW = w :: l) (hn : w.span.1 / 2 ^ 48 ≠ s.node) :
    ackWrite ref .accepted s = (s.putTask (x.acked l)).proceed ref := by
  unfold ackWrite
  rw [hx]
  dsimp only
  rw [hw]
  dsimp only
  rw [if_neg (fun h => h.1 hp), if_pos hn]
  rfl

theorem ackWrite_of_own {ref : TaskRef} {s : State} {x : Task} {w : WriteReq} {l : List WriteReq} (hx : s.task ref = some x)
    (hp : x.phase = .running) (hw : x.pendingW = w :: l) (hl : s.localWaits w.span.1 = false) (hn : w.span.1 / 2 ^ 48 = s.node)
    (ans : WriteAnswer) : ackWrite ref ans s = match s.writeVerdict x w ans with
      | none => ((s.writeCells w.cells).putTask (x.acked l)).proceed ref
      | some st => (((s.memRefusal st (w.span.1 % 2 ^ 48) (some ref)).putTask (x.acked l)).failTask ref st).settle ref := by
  unfold ackWrite
  rw [hx]
  dsimp only
  rw [hw]
  dsimp only
  rw [if_neg (fun h => h.1 hp), if_neg (not_not_intro hn), if_neg (by rw [hl]; decide)]
  rfl

theorem flushDone_of_flushing {ref : TaskRef} {s : State} {x : Task} (hx : s.task ref = some x) (hf : x.flushing = true) (ok : Bool) :
    flushDone ref ok s = if ok then (s.putTask { x with flushing := false, flushed := true }).proceed ref
      else ((s.putTask { x with flushing := false, flushed := true }).failTask ref St.host).settle ref := by
  unfold flushDone
  rw [hx]
  exact if_neg (by rw [hf]; decide)

/-- Settles O35. -/
theorem writesAreAcknowledged : Obligations.WritesAreAcknowledged := by
  unfold Obligations.WritesAreAcknowledged
  refine ⟨fun ref s x w l hx hp hw hl => ⟨fun hn hv => ?_, fun ans st hn hv => ?_, fun hn => ?_⟩, fun ref s x hx hp hf => ⟨?_, ?_⟩⟩
  all_goals
    have hr : x.ref = ref := State.ref_of_task hx
  case refine_1 =>
    have hack := ackWrite_of_own hx hp hw hl hn .accepted
    rw [hv] at hack
    have hu : ((s.writeCells w.cells).putTask (x.acked l)).task ref = some (x.acked l) :=
      State.task_putTask_self (s := s.writeCells w.cells) hx hr
    obtain ⟨y, hm⟩ := State.proceed_moves hu hp
    have hmem := hm.sameMem
    obtain ⟨-, hy, hxy, -⟩ := id hm
    refine ⟨_, y, congrArg Host.Outcome.next hack, hy, by rw [hxy.frame]; rfl, by rw [hxy.frame]; rfl, hmem, fun a ha => ?_,
      hm.but (State.tasksBut_putTask_of_ref (s.writeCells w.cells) (y := x.acked l) hr)⟩
    exact (hmem a).trans (memPutCells_other _ _ _ _ ha)
  case refine_2 =>
    have hack := ackWrite_of_own hx hp hw hl hn ans
    rw [hv] at hack
    have htasks := s.tasks_memRefusal st (w.span.1 % 2 ^ 48) (some ref)
    dsimp only at hack
    generalize s.memRefusal st (w.span.1 % 2 ^ 48) (some ref) = u at hack htasks
    have hu : (u.putTask (x.acked l)).task ref = some (x.acked l) :=
      State.task_putTask_self ((State.task_of_tasks htasks ref).trans hx) hr
    obtain ⟨hwk, y, hy, hfail, hph⟩ := State.failTask_then_settle hu hp st
    refine ⟨_, y, congrArg Host.Outcome.next hack, hy, by rw [hfail], phase_ne_running_of_failed hph, hwk.but fun z hz => ?_⟩
    exact (State.tasksBut_putTask_of_ref u (y := x.acked l) hr z hz).trans (State.task_of_tasks htasks z)
  case refine_3 =>
    have hack := ackWrite_of_elsewhere hx hp hw hn
    have hu : (s.putTask (x.acked l)).task ref = some (x.acked l) := State.task_putTask_self hx hr
    obtain ⟨y, hm⟩ := State.proceed_moves hu hp
    have hmem := hm.sameMem
    obtain ⟨-, hy, hxy, -⟩ := id hm
    exact ⟨_, y, congrArg Host.Outcome.next hack, hy, by rw [hxy.frame]; rfl, by rw [hxy.frame]; rfl, hmem,
      hm.but (State.tasksBut_putTask_of_ref s (y := x.acked l) hr)⟩
  all_goals
    have hu : (s.putTask { x with flushing := false, flushed := true }).task ref = some { x with flushing := false, flushed := true } :=
      State.task_putTask_self hx hr
    have hbut := State.tasksBut_putTask_of_ref s (y := { x with flushing := false, flushed := true }) hr
  case refine_4 =>
    obtain ⟨y, hm⟩ := State.proceed_moves hu hp
    have hmem := hm.sameMem
    obtain ⟨-, hy, hxy, -⟩ := id hm
    exact ⟨_, y, congrArg Host.Outcome.next ((flushDone_of_flushing hx hf true).trans (if_pos rfl)), hy, by rw [hxy.frame],
      by rw [hxy.frame], hxy.flushing rfl, hmem, hm.but hbut⟩
  case refine_5 =>
    obtain ⟨hwk, y, hy, hfail, hph⟩ := State.failTask_then_settle hu hp St.host
    exact ⟨_, y, congrArg Host.Outcome.next ((flushDone_of_flushing hx hf false).trans (if_neg Bool.false_ne_true)), hy,
      by rw [hfail], phase_ne_running_of_failed hph, hwk.but hbut⟩

end Sys2Proof.Machine
end

section
/-!
### Responses (R15, R22, R352)
-/
namespace Sys2Proof.Machine

/-- The marks of a response noted for some tiles of a stream. -/
def State.markTiles (s : State) (n : Nat) (tiles : List Nat) (e : ReadMarks × Bool) : State :=
  match s.stream n with
  | none => s
  | some d => s.putStream n { d with lastMarks := tiles.foldl (fun l i => sset (fun _ => none) l i (some e)) d.lastMarks }

theorem State.markTiles_shape (s : State) (n : Nat) (tiles : List Nat) (e : ReadMarks × Bool) :
    ∃ d, s.markTiles n tiles e = { s with ds := d } := by
  unfold State.markTiles
  split
  · exact ⟨_, rfl⟩
  · exact ⟨_, rfl⟩

theorem State.noteRead_eq (s : State) (x : Task) (r : ReadReq) (m : ReadMarks) : s.noteRead x r m =
    let s1 := match x.fillBind with
      | none => s
      | some b => s.markTiles b.stream (if gatesByElement x.entry then [s.gatingTile x b r] else List.range' b.first b.count)
          (m, decide (r.space = .host))
    match x.drainBind, s.drainTile x r with
    | some b, some i => s1.markTiles b.stream [i] (m, decide (r.space = .host))
    | _, _ => s1 := rfl

theorem State.noteRead_shape (s : State) (x : Task) (r : ReadReq) (m : ReadMarks) : ∃ d, s.noteRead x r m = { s with ds := d } := by
  have hfill : ∃ d, (match x.fillBind with
      | none => s
      | some b => s.markTiles b.stream (if gatesByElement x.entry then [s.gatingTile x b r] else List.range' b.first b.count)
          (m, decide (r.space = .host))) = { s with ds := d } := by
    split
    · exact ⟨_, rfl⟩
    · exact s.markTiles_shape _ _ _
  rw [s.noteRead_eq]
  obtain ⟨d, hd⟩ := hfill
  rw [hd]
  dsimp only
  split
  · obtain ⟨d', hd'⟩ := State.markTiles_shape { s with ds := d } _ _ _
    exact ⟨d', hd'⟩
  · exact ⟨d, rfl⟩

/-- The response noted: its correction counted, its bytes with the task, its marks with the tiles. -/
theorem State.stageRead_spec {s : State} {r : TaskRef} {x : Task} (hx : s.task r = some x) (i : Issued) (m : ReadMarks) (bs : List Byte)
    (hf : (x.answer i.no bs).indexFaults = false) : ∃ u, s.stageRead x i m bs = u.proceed r ∧ u.task r = some (x.answer i.no bs) ∧
      s.tasksBut u r ∧ s.sameMem u := by
  obtain rfl : x.ref = r := State.ref_of_task hx
  have hce : ∃ g c, (if s.readsOwn i && m.corrected then s.noteCorrected (i.req.addr % 2 ^ 48) .corrected else s) =
      { s with regs := g, now := c } := by
    split
    · exact (s.noteCorrected_spec _ _).1
    · exact ⟨s.regs, s.now, rfl⟩
  obtain ⟨g, c, hce⟩ := hce
  have hstage : s.stageRead x i m bs = if (x.answer i.no bs).indexFaults then
      ((((({ s with regs := g, now := c } : State).putTask (x.answer i.no bs)).noteRead (x.answer i.no bs) i.req
        (s.marksOf i m)).failTask x.ref St.indexRange))
      else (((({ s with regs := g, now := c } : State).putTask (x.answer i.no bs)).noteRead (x.answer i.no bs) i.req
        (s.marksOf i m)).proceed x.ref) := by
    rw [← hce]
    rfl
  rw [hf, if_neg Bool.false_ne_true] at hstage
  have hput : (({ s with regs := g, now := c } : State).putTask (x.answer i.no bs)).task x.ref = some (x.answer i.no bs) :=
    State.task_putTask_self (s := { s with regs := g, now := c }) hx rfl
  have hbut := State.tasksBut_putTask_of_ref { s with regs := g, now := c } (y := x.answer i.no bs) (r := x.ref) rfl
  have hmem : s.sameMem (({ s with regs := g, now := c } : State).putTask (x.answer i.no bs)) := fun _ => rfl
  generalize ({ s with regs := g, now := c } : State).putTask (x.answer i.no bs) = u at hstage hput hbut hmem
  obtain ⟨d, hd⟩ := u.noteRead_shape (x.answer i.no bs) i.req (s.marksOf i m)
  rw [hd] at hstage
  exact ⟨{ u with ds := d }, hstage, hput, hbut, hmem⟩

/-- A staged entry that the execute side has not taken stays, and its task goes on running. -/
theorem Task.Proceeds.keeps {x y : Task} (h : x.Proceeds y) {i : Issued} (hi : i ∈ x.issueQ) (ht : i.taken = false) :
    i ∈ y.issueQ ∧ y.phase = .running := by
  have hmem := h.untaken i hi ht
  refine ⟨hmem, h.phase.resolve_right fun ⟨_, hq⟩ => ?_⟩
  rw [hq] at hmem
  exact nomatch hmem

theorem Task.mem_answer {x : Task} {i : Issued} (hi : i ∈ x.issueQ) (bs : List Byte) :
    { i with answered := true, bytes := fitBytes i.req.len bs } ∈ (x.answer i.no bs).issueQ :=
  List.mem_map.mpr ⟨i, hi, if_pos rfl⟩

theorem respond_of_running {ref : TaskRef} {s : State} {x : Task} {i : Issued} (hx : s.task ref = some x) (hp : x.phase = .running)
    (hi : x.issueQ.find? (fun j => decide (j.no = i.no) && ! j.answered) = some i)
    (hw : (decide (i.req.space = .device) && s.localWaits i.req.addr) = false) (hh : s.lineHeld x i = false) (ans : ReadAnswer) :
    respond ref i.no ans s = s.answerRead x i ans := by
  unfold respond
  rw [hx]
  dsimp only
  rw [hi]
  dsimp only
  rw [hw, hh, Bool.or_false, if_neg Bool.false_ne_true, hp]

/-- A read that is refused leaves the issue queue and fails its task. -/
theorem State.refusedRead {s u : State} {r : TaskRef} {x : Task} (hx : s.task r = some x) (hp : x.phase = .running)
    (hu : u.tasks = s.tasks) (q : List Issued) (st : Status) :
    (u.putTask { x with issueQ := q }).Works ((u.putTask { x with issueQ := q }).failTask r st) r ∧
    ∃ y, ((u.putTask { x with issueQ := q }).failTask r st).task r = some y ∧ y.entry = x.entry ∧ y.status = st ∧
      (y.phase = .failing ∨ y.phase = .finished) ∧ s.tasksBut ((u.putTask { x with issueQ := q }).failTask r st) r := by
  have hr : x.ref = r := State.ref_of_task hx
  have hput : (u.putTask { x with issueQ := q }).task r = some { x with issueQ := q } :=
    State.task_putTask_self ((State.task_of_tasks hu r).trans hx) hr
  obtain ⟨hw, y, hy, hf, hph⟩ := State.failTask_of_running hput hp st
  refine ⟨hw, y, hy, by rw [hf], by rw [hf], hph, hw.but fun z hz => ?_⟩
  exact (State.tasksBut_putTask_of_ref u (y := { x with issueQ := q }) hr z hz).trans (State.task_of_tasks hu z)

/-- The issue queue without a read. -/
def Task.without (x : Task) (no : Nat) : List Issued := x.issueQ.filter (fun j => decide (j.no ≠ no))

theorem State.answerRead_data_own {s : State} {x : Task} {i : Issued} (ho : i.req.space = .device ∧ i.req.addr / 2 ^ 48 = s.node)
    (hv : s.memVerdict (s.ctxOf x.ref) .read (i.req.addr % 2 ^ 48) i.req.len .good = none) (m : ReadMarks) (bs : List Byte) :
    s.answerRead x i (.data m bs) = s.stageRead x i m (s.seenMem (i.req.addr % 2 ^ 48) i.req.len) := by
  have hown : (decide (i.req.space = .device) && decide (i.req.addr / 2 ^ 48 = s.node)) = true := by
    rw [decide_eq_true ho.1, decide_eq_true ho.2, Bool.and_true]
  unfold State.answerRead
  dsimp only
  rw [hown, if_pos rfl, hv]

theorem State.answerRead_data_elsewhere {s : State} {x : Task} {i : Issued}
    (ho : ¬ (i.req.space = .device ∧ i.req.addr / 2 ^ 48 = s.node)) (m : ReadMarks) (bs : List Byte) :
    s.answerRead x i (.data m bs) = s.stageRead x i m bs := by
  have hown : (decide (i.req.space = .device) && decide (i.req.addr / 2 ^ 48 = s.node)) = false := by
    rw [Bool.and_eq_false_iff, decide_eq_false_iff_not, decide_eq_false_iff_not]
    exact Decidable.not_and_iff_or_not.mp ho
  unfold State.answerRead
  dsimp only
  rw [hown, if_neg Bool.false_ne_true]

/-- What is recorded of a read with data that cannot be corrected. -/
theorem State.tasks_mcUncorrectable (s : State) (a : Nat) (st : Status) (r : Option TaskRef) :
    (s.mcUncorrectable a st r).tasks = s.tasks := by
  unfold State.mcUncorrectable
  split
  · exact (State.tasks_mcEvent _ _ _ _ _ _).trans (State.tasks_tbUe _ _ _ _)
  · exact State.tasks_mcEvent _ _ _ _ _ _
  · exact State.tasks_mcEvent _ _ _ _ _ _

/-- Settles O32. -/
theorem readsAreAnswered : Obligations.ReadsAreAnswered := by
  unfold Obligations.ReadsAreAnswered
  intro ref s x i m bs hx hp hi ht hw hh
  obtain rfl : x.ref = ref := State.ref_of_task hx
  have hresp := respond_of_running hx hp hi hw hh
  have hmem : i ∈ x.issueQ := List.mem_of_find?_eq_some hi
  have hstaged (d : List Byte) (hf : (x.answer i.no d).indexFaults = false) : ∃ t y, s.stageRead x i m d = t ∧
      t.task x.ref = some y ∧ y.entry = x.entry ∧ y.phase = .running ∧
      { i with answered := true, bytes := fitBytes i.req.len d } ∈ y.issueQ ∧ s.sameMem t ∧ s.tasksBut t x.ref := by
    obtain ⟨u, hu, htask, hbut, hsame⟩ := State.stageRead_spec hx i m d hf
    obtain ⟨y, hmv⟩ := State.proceed_moves htask hp
    obtain ⟨-, hy, hxy, -⟩ := id hmv
    obtain ⟨hq, hrun⟩ := hxy.keeps (Task.mem_answer hmem d) ht
    exact ⟨_, y, hu, hy, by rw [hxy.frame]; rfl, hrun, hq, hsame.trans hmv.sameMem, hmv.but hbut⟩
  refine ⟨fun ho hv hf => ?_, fun ho hf => ?_, fun st => ?_, ?_, ?_⟩
  case refine_1 =>
    obtain ⟨t, y, ht', h⟩ := hstaged _ hf
    exact ⟨t, y, congrArg Host.Outcome.next ((hresp _).trans ((State.answerRead_data_own ho hv m bs).trans ht')), h⟩
  case refine_2 =>
    obtain ⟨t, y, ht', h⟩ := hstaged _ hf
    exact ⟨t, y, congrArg Host.Outcome.next ((hresp _).trans ((State.answerRead_data_elsewhere ho m bs).trans ht')), h⟩
  case refine_3 =>
    obtain ⟨-, y, hy, -, hst, hph, hbut⟩ := State.refusedRead hx hp rfl (x.without i.no) (if i.req.space = .host then St.host else st)
    exact ⟨_, y, congrArg Host.Outcome.next (hresp _), hy, hst, phase_ne_running_of_failed hph, hbut⟩
  case refine_4 =>
    have hans : ∃ u : State, u.tasks = s.tasks ∧ s.answerRead x i .uncorrectable =
        (u.putTask { x with issueQ := x.without i.no }).failTask x.ref (if i.req.space = .host then St.host else St.uncorrectable) := by
      unfold State.answerRead
      dsimp only
      by_cases hs : i.req.space = .host
      · exact ⟨s, rfl, by rw [if_pos hs, if_pos hs]; rfl⟩
      · rw [if_neg hs, if_neg hs]
        split
        · exact ⟨_, s.tasks_mcUncorrectable _ _ _, rfl⟩
        · exact ⟨s, rfl, rfl⟩
    obtain ⟨u, hu, hans⟩ := hans
    obtain ⟨-, y, hy, -, hst, hph, hbut⟩ := State.refusedRead hx hp hu (x.without i.no) (if i.req.space = .host then St.host else St.uncorrectable)
    exact ⟨_, y, congrArg Host.Outcome.next ((hresp _).trans hans), hy, hst, phase_ne_running_of_failed hph, hbut⟩
  case refine_5 =>
    have hu : (s.pathParity x).tasks = s.tasks := State.tasks_mcEvent _ _ _ _ _ _
    obtain ⟨hwk, y, hy, -, hst, hph, hbut⟩ := State.refusedRead hx hp hu (x.without i.no) St.uncorrectable
    refine ⟨_, y, congrArg Host.Outcome.next (hresp _), ⟨hy, hst, phase_ne_running_of_failed hph, hbut⟩, ?_⟩
    refine (hwk.around.regs _ (by decide)).trans ?_
    exact ((s.bump R.tmPathParity 1).reg_bump_ne (off := R.mcCount) 1 (by decide)).trans (s.reg_bump_self _ _)

end Sys2Proof.Machine
end

section
/-!
### The expander, the compressor and the execute side (R15, R96, R196 to R203, R213, R352)
-/
namespace Sys2Proof.Machine

/-! The expander. -/

theorem expandIngot_of_fresh {ref : TaskRef} {s : State} {x : Task} {p : CodecParams} {i : Issued} {l : List Issued}
    (hx : s.task ref = some x) (hp : x.phase = .running) (he : entryExpand x.entry = some p) (hq : x.issueQ = i :: l)
    (hk : i.req.kind = .ingotHeader x.hdrs.length) (ha : i.answered = true) :
    expandIngot ref s = s.checkHeader x p x.hdrs.length i.bytes := by
  unfold expandIngot
  rw [hx]
  dsimp only
  rw [hp, he]
  dsimp only
  rw [hq]
  simp only [List.findSome?_cons, hk, ha, and_self, if_true]

theorem Task.touchIngot_withHdrs (x : Task) (hs : List (List Byte)) (self i : Nat) :
    ({ x with hdrs := hs } : Task).touchIngot self i = x.touchIngot self i := rfl

theorem State.decodeBlock_ok {s : State} {x : Task} {p : CodecParams} {i : Nat} {h payload block : List Byte}
    (hb : expandPayload h (s.slotLens p.slot) (p.ulen (x.touchIngot s.node i)) payload = .ok block) :
    s.decodeBlock x p i h payload = s.putTask (x.emitBlock i block) := by
  unfold State.decodeBlock
  rw [hb]

/-- What a codec failure leaves: CX_ERR to be recorded, the failure counted, the task failed. -/
theorem State.codecFail_spec {s : State} {r : TaskRef} {x x' : Task} (hx : s.task r = some x') (hr : x.ref = r) (hp : x'.phase = .running)
    (st : Status) : ∃ y, (s.codecFail x st).task r = some y ∧ x'.FailsWith y st ∧
      (s.codecFail x st).reg R.cxErrCount = satAdd (s.reg R.cxErrCount) 1 ∧
      (s.codecFail x st).later.latches = s.later.latches ++
        [{ off := R.cxErr, key := x.engineField, val := x.engineField * 2 ^ 16 + st.toNat, also := [] }] ∧
      s.tasksBut (s.codecFail x st) r := by
  obtain rfl := hr
  unfold State.codecFail
  have hcount := (s.latchReg R.cxErr x.engineField (x.engineField * 2 ^ 16 + st.toNat)).reg_bump_self R.cxErrCount 1
  obtain ⟨g, c, hb⟩ := (s.latchReg R.cxErr x.engineField (x.engineField * 2 ^ 16 + st.toNat)).bump_shape R.cxErrCount 1
  rw [hb] at hcount ⊢
  have hlatch : ({ s.latchReg R.cxErr x.engineField (x.engineField * 2 ^ 16 + st.toNat) with regs := g, now := c } : State).later.latches =
      s.later.latches ++ [{ off := R.cxErr, key := x.engineField, val := x.engineField * 2 ^ 16 + st.toNat, also := [] }] := rfl
  have htasks : ({ s.latchReg R.cxErr x.engineField (x.engineField * 2 ^ 16 + st.toNat) with regs := g, now := c } : State).tasks =
      s.tasks := rfl
  generalize ({ s.latchReg R.cxErr x.engineField (x.engineField * 2 ^ 16 + st.toNat) with regs := g, now := c } : State) = u
    at hcount hlatch htasks ⊢
  obtain ⟨hw, y, hy, hf⟩ := State.failTask_of_running ((State.task_of_tasks htasks x.ref).trans hx) hp st
  exact ⟨y, hy, hf, (hw.around.regs _ (by decide)).trans hcount, hw.around.latches.trans hlatch,
    fun z hz => (hw.others z hz).trans (State.task_of_tasks htasks z)⟩

/-! Writes on their way to memory. -/

/-- The packet of a write at another node. -/
def WriteReq.packet (w : WriteReq) : Out :=
  match w.atomic, w.cells with
  | some q, c :: _ => .remoteAtomic c.addr q 0
  | _, cs => .remoteWrite cs 0

theorem WriteReq.packet_plain (w : WriteReq) : w.packet.plain := by
  unfold WriteReq.packet
  split
  · exact ⟨fun _ _ => rfl, rfl, fun _ => rfl⟩
  · exact ⟨fun _ _ => rfl, rfl, fun _ => rfl⟩

/-- A task with writes added to those that wait for their answer. -/
def Task.writing (x : Task) (ws : List WriteReq) (at_ : Nat) : Task :=
  { x.noteBlocks (ws.flatMap WriteReq.cells) with pendingW := x.pendingW ++ ws.map (fun w => { w with at_ := at_ }) }

/-- No watched peer is dead. -/
def State.allAlive (s : State) : Prop := ∀ i, i < 1024 → s.fld (R.fePeerCfg i) 29 2 ≠ 2

theorem State.allAlive.deadNode {s : State} (h : s.allAlive) (n : Nat) : s.deadNode n = false := by
  unfold State.deadNode
  rw [List.any_eq_false]
  intro i hi
  simp [h i (List.mem_range.mp hi)]

theorem State.writeDevice_alive {s : State} (h : s.allAlive) (x : Task) (ws : List WriteReq) :
    ∃ u, s.Beyond u ∧ u.cycle = s.cycle ∧ s.writeDevice x ws = u.putTask (x.writing ws s.cycle) := by
  unfold State.writeDevice
  dsimp only
  rw [if_neg (by
    rw [Bool.not_eq_true, List.any_eq_false]
    intro w _
    rw [h.deadNode]
    decide)]
  have hb := State.foldl_emitFabric_beyond WriteReq.packet WriteReq.packet_plain (ws.filter (fun w =>
    decide ((match w.cells with | c :: _ => c.addr / 2 ^ 48 | [] => s.node) ≠ s.node))) s
  refine ⟨_, hb, by rw [hb.1.frame], ?_⟩
  have hc : (List.foldl (fun u w => u.emitFabric w.packet) s (ws.filter (fun w =>
    decide ((match w.cells with | c :: _ => c.addr / 2 ^ 48 | [] => s.node) ≠ s.node)))).cycle = s.cycle := by rw [hb.1.frame]
  rfl

theorem State.countIngot_spec (s : State) (h p b : List Byte) : (∃ r c, s.countIngot h p b = { s with regs := r, now := c }) ∧
    ∀ o, 0x4010b0 ≤ o → (s.countIngot h p b).reg o = s.reg o := by
  have henc : hdrEnc h < 8 := Nat.mod_lt _ (by decide)
  have hreg : ∀ o, 0x4010b0 ≤ o → (s.bump (R.cxEncCount (hdrEnc h)) 1).reg o = s.reg o := fun o ho =>
    s.reg_bump_ne 1 (by simp only [R.cxEncCount]; omega)
  obtain ⟨r, c, hb⟩ := s.bump_shape (R.cxEncCount (hdrEnc h)) 1
  unfold State.countIngot
  rw [hb] at hreg ⊢
  have hpair (u : State) (off n o : Nat) (h1 : o ≠ off) (h2 : o ≠ off + 4) : (u.bump64 off n).reg o = u.reg o :=
    (State.reg_setReg_ne _ _ h2).trans (State.reg_setReg_ne _ _ h1)
  refine ⟨?_, fun o ho => ?_⟩
  · obtain ⟨r1, h1⟩ := State.setReg64_shape { s with regs := r, now := c } R.cxInLo
      (State.reg64 { s with regs := r, now := c } R.cxInLo + b.length)
    unfold State.bump64
    rw [h1]
    obtain ⟨r2, h2⟩ := State.setReg64_shape { s with regs := r1, now := c } R.cxOutLo
      (State.reg64 { s with regs := r1, now := c } R.cxOutLo + (p.length + 16))
    exact ⟨r2, c, h2⟩
  · refine (hpair _ _ _ o ?_ ?_).trans ((hpair _ _ _ o ?_ ?_).trans (hreg o ho))
    all_goals
      simp only [R.cxInLo, R.cxOutLo]
      omega

/-- Writes leave, and the task moves on. -/
theorem State.writeDevice_proceeds {s : State} (h : s.allAlive) {r : TaskRef} {x0 x : Task} (hx0 : s.task r = some x0) (hr : x.ref = r)
    (hp : x.phase = .running) (ws : List WriteReq) : ∃ y, ((s.writeDevice x ws).proceed r).task r = some y ∧
      (x.writing ws s.cycle).Proceeds y ∧ s.sameMem ((s.writeDevice x ws).proceed r) ∧ s.tasksBut ((s.writeDevice x ws).proceed r) r := by
  obtain ⟨u, ⟨-, ht, hm, hg⟩, -, hu⟩ := s.writeDevice_alive h x ws
  rw [hu]
  have hput : (u.putTask (x.writing ws s.cycle)).task r = some (x.writing ws s.cycle) :=
    State.task_putTask_self ((State.task_of_tasks ht r).trans hx0) hr
  obtain ⟨y, hmv⟩ := State.proceed_moves hput hp
  refine ⟨y, hmv.2.1, hmv.2.2.1, State.sameMem.trans (fun a => ?_) hmv.sameMem, hmv.but fun z hz => ?_⟩
  · show sget (memDefault u.memGen) u.mem a = _
    rw [hm, hg]
    rfl
  · exact (State.tasksBut_putTask_of_ref u (y := x.writing ws s.cycle) hr z hz).trans (State.task_of_tasks ht z)

theorem compressNext_of_block {ref : TaskRef} {s : State} {x : Task} {p : CodecParams} {block : List Byte} (hx : s.task ref = some x)
    (hp : x.phase = .running) (he : entryCompress x.entry = some p) (hb : x.ingotsBuilt = false)
    (hi : x.imageBlock p (x.ingotSpan.1 + x.ingotsDone) = some block) : ∃ h payload g ws, compressNext ref s =
      ((s.countIngot h payload block).writeDevice { x with gather := g, ingotsDone := x.ingotsDone + 1 } ws).proceed ref := by
  unfold compressNext
  rw [hx]
  dsimp only
  rw [hp, he]
  dsimp only
  rw [hb, if_neg Bool.false_ne_true, hi]
  exact ⟨_, _, _, _, rfl⟩

/-- Settles O33. -/
theorem ingotsExpandAndBuild : Obligations.IngotsExpandAndBuild := by
  unfold Obligations.IngotsExpandAndBuild
  refine ⟨fun ref s x p i l hx hp he hq hk ha => ?_, fun ref s x p block hx hp he hb hd hi => ?_⟩
  · have hexp := expandIngot_of_fresh hx hp he hq hk ha
    have hr : x.ref = ref := State.ref_of_task hx
    have hput (y : Task) (hy : y.ref = ref) : (s.putTask y).task ref = some y ∧ s.putTask y = { s with tasks := (s.putTask y).tasks } ∧
        s.tasksBut (s.putTask y) ref :=
      ⟨State.task_putTask_self hx hy, rfl, State.tasksBut_putTask_of_ref s hy⟩
    unfold State.checkHeader at hexp
    dsimp only at hexp
    refine ⟨fun st hv => ?_, fun hv hz => ?_, fun block hv hz hblk => ?_⟩
    all_goals
      rw [hv] at hexp
      dsimp only at hexp
    case refine_1 =>
      obtain ⟨y, hy, ⟨hf, hph⟩, hcount, hlatch, hbut⟩ := State.codecFail_spec hx hr hp st
      exact ⟨_, y, congrArg Host.Outcome.next hexp, hy, by rw [hf], phase_ne_running_of_failed hph, hcount, hlatch, hbut⟩
    case refine_2 =>
      rw [if_neg hz] at hexp
      exact ⟨_, congrArg Host.Outcome.next hexp, hput _ hr⟩
    case refine_3 =>
      rw [if_pos hz] at hexp
      rw [← x.touchIngot_withHdrs (x.hdrs ++ [headerOf p (x.touchIngot s.node x.hdrs.length) i.bytes])] at hblk
      exact ⟨_, congrArg Host.Outcome.next (hexp.trans (State.decodeBlock_ok hblk)), hput _ hr⟩
  · obtain ⟨h, payload, g, ws, hc⟩ := compressNext_of_block hx hp he hb hi
    obtain ⟨⟨r, c, hs⟩, hregs⟩ := s.countIngot_spec h payload block
    have halive : (s.countIngot h payload block).allAlive := fun i hi => by
      have hfld := State.fld_congr (hregs (R.fePeerCfg i) (by simp only [R.fePeerCfg]; omega)) 29 2
      rw [hfld]
      exact hd i hi
    rw [hs] at hc halive
    obtain ⟨y, hy, hf, hm, hbut⟩ := State.writeDevice_proceeds halive (x := { x with gather := g, ingotsDone := x.ingotsDone + 1 }) hx
      (State.ref_of_task hx :) hp ws
    refine ⟨_, y, congrArg Host.Outcome.next hc, hy, by rw [hf.frame]; rfl, by rw [hf.frame]; rfl, ?_, hm, hbut⟩
    rw [hf.frame]
    exact List.prefix_append _ _

end Sys2Proof.Machine
end

section
/-!
### The execute side (R15, R96, R213, R352, R374)
-/
namespace Sys2Proof.Machine

/-! Outputs that can be written are written. -/

/-- Some outputs more have been emitted; the task's data and its place are as they were. -/
structure Task.Emits (x y : Task) (n : Nat) : Prop where
  same : y.ref = x.ref ∧ y.entry = x.entry ∧ y.phase = x.phase ∧ y.issueQ = x.issueQ ∧ y.consumed = x.consumed ∧ y.coll = x.coll ∧
    y.status = x.status
  emitted : ∃ l, y.emitted = x.emitted ++ l ∧ l.length = n

/-- The task with its ready outputs counted as emitted. -/
def State.emitted (s : State) (x : Task) (outs : List (Option Nat)) : Task :=
  { x with emitted := x.emitted ++ (List.range outs.length).map (fun i =>
      (outs.getD i none).map (x.digestValue s.node (x.emitted.length + i) (x.finalTensor s.node))) }

theorem State.emitted_emits (s : State) (x : Task) (outs : List (Option Nat)) : x.Emits (s.emitted x outs) outs.length :=
  ⟨⟨rfl, rfl, rfl, rfl, rfl, rfl, rfl⟩, _, rfl, by rw [List.length_map, List.length_range]⟩

/-- Where the outputs go: into the image that a compressor takes, to their owners as writes, or to the host. -/
theorem State.emitOutputs_cases {s : State} {r : TaskRef} {x : Task} (hx : s.task r = some x) :
    let outs := s.readyOutputs x (x.finalTensor s.node)
    (entryDestHost x.entry = true ∧ (s.emitOutputs r = s.putTask (s.emitted x outs) ∨
      ∃ cells, s.emitOutputs r = s.writeHost ((s.emitted x outs).noteBlocks cells) cells)) ∨
    (entryDestHost x.entry = false ∧ ((∃ m, s.emitOutputs r = s.putTask { s.emitted x outs with image := m }) ∨
      ∃ g ws, s.emitOutputs r = s.writeDevice { s.emitted x outs with gather := g } ws)) := by
  intro outs
  unfold State.emitOutputs
  rw [hx]
  dsimp only
  cases hd : entryDestHost x.entry with
  | true =>
    refine .inl ⟨rfl, ?_⟩
    rw [if_pos rfl]
    split
    · exact .inl rfl
    · exact .inr ⟨_, rfl⟩
  | false =>
    refine .inr ⟨rfl, ?_⟩
    rw [if_neg Bool.false_ne_true]
    split
    · exact .inl ⟨_, rfl⟩
    · exact .inr ⟨_, _, rfl⟩

theorem Task.Emits.withImage {x y : Task} {n : Nat} (h : x.Emits y n) (m : SMap (Option Byte)) : x.Emits { y with image := m } n :=
  ⟨h.same, h.emitted⟩

theorem Task.Emits.writing {x y : Task} {n : Nat} (h : x.Emits y n) (g : List WriteReq) (ws : List WriteReq) (at_ : Nat) :
    x.Emits (({ y with gather := g } : Task).writing ws at_) n :=
  ⟨h.same, h.emitted⟩

/-- Outputs that do not go to the host: the task moves on, and memory stays. -/
theorem State.emitOutputs_proceeds {s : State} (ha : s.allAlive) {r : TaskRef} {x : Task} (hx : s.task r = some x) (hp : x.phase = .running)
    (hd : entryDestHost x.entry = false) : ∃ z y, ((s.emitOutputs r).proceed r).task r = some y ∧
      x.Emits z (s.readyOutputs x (x.finalTensor s.node)).length ∧ z.Proceeds y ∧ s.sameMem ((s.emitOutputs r).proceed r) ∧
      s.tasksBut ((s.emitOutputs r).proceed r) r := by
  have hr : x.ref = r := State.ref_of_task hx
  have he := s.emitted_emits x (s.readyOutputs x (x.finalTensor s.node))
  obtain ⟨hh, -⟩ | ⟨-, ⟨m, hm⟩ | ⟨g, ws, hw⟩⟩ := State.emitOutputs_cases hx
  · rw [hd] at hh
    exact Bool.noConfusion hh
  · rw [hm]
    generalize s.readyOutputs x (x.finalTensor s.node) = outs at he ⊢
    have hput : (s.putTask { s.emitted x outs with image := m }).task r = some { s.emitted x outs with image := m } :=
      State.task_putTask_self hx hr
    obtain ⟨y, hmv⟩ := State.proceed_moves hput hp
    exact ⟨_, y, hmv.2.1, he.withImage m, hmv.2.2.1, State.sameMem.trans (fun _ => rfl) hmv.sameMem,
      hmv.but (State.tasksBut_putTask_of_ref s (y := { s.emitted x outs with image := m }) hr)⟩
  · rw [hw]
    generalize s.readyOutputs x (x.finalTensor s.node) = outs at he ⊢
    obtain ⟨y, hy, hz, hsame, hbut⟩ := State.writeDevice_proceeds ha (x := { s.emitted x outs with gather := g }) hx hr hp ws
    exact ⟨_, y, hy, he.writing g ws s.cycle, hz, hsame, hbut⟩

/-- Host writes go out, or a byte outside the range list fails the task. -/
theorem State.writeHost_cases (s : State) (x : Task) (cells : List WCell) :
    s.writeHost x cells = s.failTask x.ref St.pageFault ∨
    ∃ u last, s.Beyond u ∧ s.writeHost x cells = u.putTask { x with hostLast := last } := by
  unfold State.writeHost
  split
  · exact .inl rfl
  · refine .inr ⟨_, _, ?_, rfl⟩
    refine List.foldlRecOn (motive := fun u : State => s.Beyond u) _ _ (.refl s) fun u hu w _ => hu.trans ?_
    have h := (State.Around.refl u).emit (.hostWrite w.addr w.bytes (s.taskPasid x.ref) (entryNoSnoop x.entry) w.translated)
    obtain ⟨a, b, he⟩ := u.emit_shape (.hostWrite w.addr w.bytes (s.taskPasid x.ref) (entryNoSnoop x.entry) w.translated)
    rw [he] at h ⊢
    exact ⟨h, rfl, rfl, rfl⟩

/-- Outputs that go to the host. -/
theorem State.emitOutputs_host {s : State} {r : TaskRef} {x : Task} (hx : s.task r = some x) (hp : x.phase = .running)
    (hd : entryDestHost x.entry = true) : ∃ y, ((s.emitOutputs r).proceed r).task r = some y ∧ y.entry = x.entry ∧
      s.tasksBut ((s.emitOutputs r).proceed r) r ∧ ((y.status = St.pageFault ∧ y.phase ≠ .running) ∨
        y.emitted.length = x.emitted.length + (s.readyOutputs x (x.finalTensor s.node)).length) := by
  have hr : x.ref = r := State.ref_of_task hx
  obtain ⟨⟨-, hentry, -⟩, l, hl, hn⟩ := s.emitted_emits x (s.readyOutputs x (x.finalTensor s.node))
  have hcases := State.emitOutputs_cases hx
  generalize s.readyOutputs x (x.finalTensor s.node) = outs at hcases hentry hl hn ⊢
  have hgo (u : State) (z : Task) (hu : s.Beyond u) (hz : z = { s.emitted x outs with
      hostLast := z.hostLast, blocksWritten := z.blocksWritten }) (he : s.emitOutputs r = u.putTask z) :
      ∃ y, ((s.emitOutputs r).proceed r).task r = some y ∧ y.entry = x.entry ∧
        s.tasksBut ((s.emitOutputs r).proceed r) r ∧ ((y.status = St.pageFault ∧ y.phase ≠ .running) ∨
          y.emitted.length = x.emitted.length + outs.length) := by
    obtain ⟨-, ht, -⟩ := hu
    have hzr : z.ref = r := by rw [hz]; exact hr
    have hzp : z.phase = .running := by rw [hz]; exact hp
    have hput : (u.putTask z).task r = some z := State.task_putTask_self ((State.task_of_tasks ht r).trans hx) hzr
    obtain ⟨y, hmv⟩ := State.proceed_moves hput hzp
    rw [he]
    refine ⟨y, hmv.2.1, ?_, hmv.but fun k hk => ?_, .inr ?_⟩
    · rw [hmv.2.2.1.frame, hz]
      exact hentry
    · exact (State.tasksBut_putTask_of_ref u hzr k hk).trans (State.task_of_tasks ht k)
    · rw [hmv.2.2.1.frame, hz]
      exact (congrArg List.length hl).trans (by rw [List.length_append, hn])
  obtain ⟨-, he | ⟨cells, he⟩⟩ | ⟨hh, -⟩ := hcases
  · exact hgo s _ (.refl s) rfl he
  · obtain hf | ⟨u, last, hu, hw⟩ := s.writeHost_cases ((s.emitted x outs).noteBlocks cells) cells
    · have hfail : s.emitOutputs r = s.failTask r St.pageFault := he.trans (hf.trans (congrArg (s.failTask · _) hr))
      obtain ⟨hwk, z, hz, hzf, hph⟩ := State.failTask_of_running hx hp St.pageFault
      rw [← hfail] at hwk hz
      obtain ⟨hwk', y, hy, hyf, hph'⟩ := State.proceed_of_failed hz hph
      exact ⟨y, hy, by rw [hyf, hzf], (hwk.trans hwk').others, .inl ⟨by rw [hyf, hzf], phase_ne_running_of_failed hph'⟩⟩
    · exact hgo u _ hu rfl (he.trans hw)
  · rw [hd] at hh
    exact Bool.noConfusion hh

/-! The staged data that is ready is consumed. -/

theorem Task.consume_same (x : Task) (self : Nat) : (x.consume self).ref = x.ref ∧ (x.consume self).entry = x.entry ∧
    (x.consume self).phase = x.phase ∧ (x.consume self).emitted = x.emitted := by
  unfold Task.consume
  split
  · exact ⟨rfl, rfl, rfl, rfl⟩
  · split
    · exact ⟨rfl, rfl, rfl, rfl⟩
    · exact ⟨rfl, rfl, rfl, rfl⟩

theorem State.countTerms_spec (s : State) (x y : Task) : (∃ r, s.countTerms x y = { s with regs := r }) ∧
    ∀ o, 0x410000 ≤ o → (s.countTerms x y).reg o = s.reg o := by
  unfold State.countTerms
  split
  · exact ⟨⟨_, rfl⟩, fun _ _ => rfl⟩
  next l _ =>
    refine ⟨s.setReg64_shape _ _, fun o ho => ?_⟩
    have hl := l.isLt
    refine (State.reg_setReg_ne _ _ ?_).trans (State.reg_setReg_ne _ _ ?_)
    all_goals
      simp only [R.rdLaneTermsLo]
      omega

theorem executeChecked_good {ref : TaskRef} {s : State} {x : Task} (hx : s.task ref = some x) (hp : x.phase = .running)
    (hq : isQueueTask (entryOpcode x.entry) = false) : executeChecked ref .good s =
      if s.readyOutputs x (x.finalTensor s.node) ≠ [] then (s.emitOutputs ref).proceed ref
      else if s.withheld x then s
      else (((s.countTerms x (x.consume s.node)).putTask (x.consume s.node)).emitOutputs ref).proceed ref := by
  have hgo : ¬ (x.phase ≠ .running ∨ isQueueTask (entryOpcode x.entry) = true) := by
    rw [hq]
    rintro (h | h)
    · exact h hp
    · exact Bool.noConfusion h
  unfold executeChecked executeStep
  rw [hx]
  dsimp only
  rw [if_neg hgo, if_neg hgo]

theorem executeChecked_of_running {ref : TaskRef} {s : State} {x : Task} (hx : s.task ref = some x) (hp : x.phase = .running)
    (hq : isQueueTask (entryOpcode x.entry) = false) (check : PathCheck) : executeChecked ref check s = match check with
      | .good => executeStep ref s
      | .corrected n => executeStep ref (s.bump R.tmSramCe n)
      | .uncorrectable m => (s.mcEvent 7 (internalUnit x m) St.uncorrectable (some ref) 0).failTask ref St.uncorrectable
      | .parity => (s.pathParity x).failTask ref St.uncorrectable := by
  unfold executeChecked
  rw [hx]
  refine (if_neg ?_).trans ?_
  · rw [hq]
    rintro (h | h)
    · exact h hp
    · exact Bool.noConfusion h
  · cases check <;> rfl

/-- A task that an event fails: the event is noted, the others stay. -/
theorem State.failTask_noted {s u : State} {r : TaskRef} {x : Task} (hx : s.task r = some x) (hp : x.phase = .running)
    (hu : u.tasks = s.tasks) (st : Status) : u.Works (u.failTask r st) r ∧ ∃ y, (u.failTask r st).task r = some y ∧ x.FailsWith y st ∧
      s.tasksBut (u.failTask r st) r := by
  obtain ⟨hw, y, hy, hf⟩ := State.failTask_of_running ((State.task_of_tasks hu r).trans hx) hp st
  exact ⟨hw, y, hy, hf, hw.but fun z _ => State.task_of_tasks hu z⟩

/-- Settles O34. -/
theorem outputsAreWritten : Obligations.OutputsAreWritten := by
  unfold Obligations.OutputsAreWritten
  refine ⟨fun ref s x hx hp hq ha => ⟨fun ho hd => ?_, fun ho hd => ?_, fun ho hw => ?_, fun ho hw hd => ?_⟩,
    fun ref s x hx hp hq => ⟨fun n => ?_, fun m => ?_, ?_⟩⟩
  case refine_1 =>
    obtain ⟨z, y, hy, ⟨⟨-, he, -, hiq, -⟩, l, hl, hn⟩, hzy, hm, hbut⟩ := State.emitOutputs_proceeds ha hx hp hd
    have hem : y.emitted = z.emitted := by rw [hzy.frame]
    refine ⟨_, y, congrArg Host.Outcome.next ((executeChecked_good hx hp hq).trans (if_pos ho)), hy, ?_, ?_, ?_, hiq ▸ hzy.queue, hm, hbut⟩
    · rw [hzy.frame]
      exact he
    · rw [hem, hl, List.length_append, hn]
    · rw [hem, hl]
      exact List.prefix_append _ _
  case refine_2 =>
    obtain ⟨y, h⟩ := State.emitOutputs_host hx hp hd
    exact ⟨_, y, congrArg Host.Outcome.next ((executeChecked_good hx hp hq).trans (if_pos ho)), h⟩
  case refine_3 =>
    exact congrArg Host.Outcome.next ((executeChecked_good hx hp hq).trans ((if_neg (not_not_intro ho)).trans (if_pos hw)))
  case refine_4 =>
    obtain ⟨hr', he', hp', hem'⟩ := x.consume_same s.node
    obtain ⟨⟨g, hg⟩, hregs⟩ := s.countTerms_spec x (x.consume s.node)
    have hrun := (executeChecked_good hx hp hq).trans ((if_neg (not_not_intro ho)).trans (if_neg (by rw [hw]; decide)))
    have halive : (s.countTerms x (x.consume s.node)).allAlive := fun i hi => by
      have hfld := State.fld_congr (hregs (R.fePeerCfg i) (by simp only [R.fePeerCfg]; omega)) 29 2
      rw [hfld]
      exact ha i hi
    rw [hg] at hrun halive
    have hput : (({ s with regs := g } : State).putTask (x.consume s.node)).task ref = some (x.consume s.node) :=
      State.task_putTask_self (s := { s with regs := g }) hx (hr'.trans (State.ref_of_task hx))
    have hbut0 := State.tasksBut_putTask_of_ref { s with regs := g } (y := x.consume s.node) (hr'.trans (State.ref_of_task hx))
    have hmem0 : s.sameMem (({ s with regs := g } : State).putTask (x.consume s.node)) := fun _ => rfl
    have halive' : (({ s with regs := g } : State).putTask (x.consume s.node)).allAlive := halive
    generalize ({ s with regs := g } : State).putTask (x.consume s.node) = u at hrun hput hbut0 hmem0 halive'
    obtain ⟨z, y, hy, ⟨⟨-, he, -, -, hc, -⟩, l, hl, hn⟩, hzy, hm, hbut⟩ :=
      State.emitOutputs_proceeds halive' hput (hp'.trans hp) (by rw [he']; exact hd)
    refine ⟨_, y, congrArg Host.Outcome.next hrun, hy, ?_, ?_, ?_, hmem0.trans hm, fun k hk => (hbut k hk).trans (hbut0 k hk)⟩
    · rw [hzy.frame]
      exact he.trans he'
    · rw [hzy.frame]
      exact hc
    · have hem : y.emitted = z.emitted := by rw [hzy.frame]
      rw [hem, hl, hem']
      exact List.prefix_append _ _
  case refine_5 =>
    refine congrArg Host.Outcome.next ((executeChecked_of_running hx hp hq (.corrected n)).trans ?_)
    exact (executeChecked_of_running (s := s.bump R.tmSramCe n) hx hp hq .good).symm
  case refine_6 =>
    obtain ⟨hw, y, hy, ⟨hf, hph⟩, hbut⟩ := State.failTask_noted hx hp
      (s.tasks_mcEvent 7 (internalUnit x m) St.uncorrectable (some ref) 0) St.uncorrectable
    exact ⟨_, y, congrArg Host.Outcome.next (executeChecked_of_running hx hp hq (.uncorrectable m)),
      ⟨hy, by rw [hf], phase_ne_running_of_failed hph, hbut⟩, hw.around.events⟩
  case refine_7 =>
    have hr : x.ref = ref := State.ref_of_task hx
    have htasks : (s.pathParity x).tasks = s.tasks := State.tasks_mcEvent _ _ _ _ _ _
    obtain ⟨hw, y, hy, ⟨hf, hph⟩, hbut⟩ := State.failTask_noted hx hp htasks St.uncorrectable
    refine ⟨_, y, congrArg Host.Outcome.next (executeChecked_of_running hx hp hq .parity),
      ⟨hy, by rw [hf], phase_ne_running_of_failed hph, hbut⟩, (hw.around.regs _ (by decide)).trans ?_, ?_⟩
    · exact ((s.bump R.tmPathParity 1).reg_bump_ne (off := R.mcCount) 1 (by decide)).trans (s.reg_bump_self _ _)
    · have hgtc : (s.bump R.tmPathParity 1).gtc = s.gtc :=
        State.reg64_congr (s.reg_bump_ne (o := R.gtcLo) 1 (by decide)) (s.reg_bump_ne (o := R.gtcLo + 4) 1 (by decide))
      rw [hw.around.events, ← hr, ← hgtc]
      rfl

end Sys2Proof.Machine
end

section
/-!
### Completion records (R83 to R90)
-/
namespace Sys2Proof.Machine

/-! Steps 7 and 8 of a task: its record dealt with, it waits for the journal. -/

theorem State.unbind_shape (s : State) (r : TaskRef) : ∃ a, s.unbind r = { s with apertures := a } := by
  refine List.foldlRecOn (motive := fun u : State => ∃ a, u = { s with apertures := a }) _ _ ⟨s.apertures, rfl⟩ fun u ⟨a, hu⟩ n _ => ?_
  rw [hu]
  split
  · exact ⟨_, rfl⟩
  · exact ⟨a, rfl⟩

/-- Registers and what is noted of this core cycle have changed, of registers only those that work on tasks writes. -/
def State.countsWork (s t : State) : Prop := (∃ r c, t = { s with regs := r, now := c }) ∧ ∀ o, workReg o = false → t.reg o = s.reg o

theorem State.countsWork.refl (s : State) : s.countsWork s := ⟨⟨_, _, rfl⟩, fun _ _ => rfl⟩

theorem State.countsWork.bump {s t : State} (h : s.countsWork t) {off : Nat} (ho : workReg off = true) (n : Nat) :
    s.countsWork (t.bump off n) := by
  obtain ⟨⟨r, c, ht⟩, hr⟩ := h
  refine ⟨?_, fun o hf => (t.reg_bump_ne n (fun he => by rw [he, ho] at hf; exact Bool.noConfusion hf)).trans (hr o hf)⟩
  obtain ⟨r', c', hb⟩ := t.bump_shape off n
  exact ⟨r', c', by rw [hb, ht]⟩

theorem workReg_tmEngTasks (e : Fin 68) : workReg (R.tmEngTasks e) = true ∧ workReg (R.tmEngFailed e) = true := by
  have h1 : 0x804000 ≤ R.tmEngTasks e ∧ R.tmEngTasks e < 0x900000 := by simp only [R.tmEngTasks]; omega
  have h2 : 0x804000 ≤ R.tmEngFailed e ∧ R.tmEngFailed e < 0x900000 := by simp only [R.tmEngFailed]; omega
  simp [workReg, h1, h2]

theorem State.countTask_counts (s : State) (x : Task) : s.countsWork (s.countTask x) := by
  unfold State.countTask
  split
  · exact .refl s
  next e _ =>
    obtain ⟨h1, h2⟩ := workReg_tmEngTasks e
    dsimp only
    split
    · exact (State.countsWork.refl s).bump h1 1
    · exact ((State.countsWork.refl s).bump h1 1).bump h2 1

theorem State.countsWork.countLate {s t : State} (h : s.countsWork t) (x : Task) : s.countsWork (t.countLate x) := by
  unfold State.countLate
  split
  · exact h.bump (by decide) 1
  · exact h

/-- The task whose record has been dealt with. -/
def State.journaled (s : State) (x : Task) (lost : Bool) : Task :=
  let y : Task := { x with phase := .journal, journalAt := s.cycle, tDone := s.gtc, recordLost := lost, ranges := [], reserved := 0 }
  { y with record := s.journalRecord y }

theorem State.recordDone_spec (s : State) (x : Task) (lost : Bool) :
    (∃ g n a, s.recordDone x lost = ({ s with regs := g, now := n, apertures := a } : State).putTask (s.journaled x lost)) ∧
    ∀ o, workReg o = false → (s.recordDone x lost).reg o = s.reg o := by
  obtain ⟨⟨g, n, hc⟩, hregs⟩ := (s.countTask_counts x).countLate x
  have hdone : s.recordDone x lost =
      ((((s.countTask x).countLate x).unbind x.ref).giveRanges x.reserved).putTask (s.journaled x lost) := rfl
  obtain ⟨a, ha⟩ := ((s.countTask x).countLate x).unbind_shape x.ref
  rw [hdone, ha]
  rw [hc] at hregs ⊢
  unfold State.giveRanges
  obtain ⟨g', hg⟩ := State.setReg_shape { s with regs := g, now := n, apertures := a } R.tuRangesFree
    (BitVec.ofNat 32 (State.fld { s with regs := g, now := n, apertures := a } R.tuRangesFree 0 16 + x.reserved))
  refine ⟨⟨g', n, a, by rw [hg]⟩, fun o ho => ?_⟩
  refine (State.reg_setReg_ne { s with regs := g, now := n, apertures := a } _ ?_).trans (hregs o ho)
  rintro rfl
  exact absurd ho (by decide)

/-- A task reaches the journal: the other tasks stay. -/
theorem State.recordDone_task {s : State} {r : TaskRef} {x : Task} (hx : s.task r = some x) (lost : Bool) :
    (s.recordDone x lost).task r = some (s.journaled x lost) ∧ s.tasksBut (s.recordDone x lost) r := by
  have hr : x.ref = r := State.ref_of_task hx
  obtain ⟨⟨g, n, a, h⟩, -⟩ := s.recordDone_spec x lost
  rw [h]
  exact ⟨State.task_putTask_self (s := { s with regs := g, now := n, apertures := a }) hx hr,
    State.tasksBut_putTask_of_ref { s with regs := g, now := n, apertures := a } (y := s.journaled x lost) hr⟩

theorem workReg_cq {c o : Nat} (hc : c < 256) (h : 0x110000 + 0x40 * c ≤ o ∧ o < 0x110040 + 0x40 * c) : workReg o = false :=
  workReg_eq_false (by omega) (by simp only [R.tuRangesFree]; omega) (by omega) (by omega)

theorem entryRing_lt (e : List Byte) : entryRing e < 256 := by
  unfold entryRing byteAt
  exact BitVec.isLt _

theorem cqDropped_mem (c : Nat) : 0x110000 + 0x40 * c ≤ R.cqDropped c ∧ R.cqDropped c < 0x110040 + 0x40 * c := by
  simp only [R.cqDropped]
  omega

/-- A stopped ring discards a record and counts it. -/
theorem State.dropRecord_spec {s : State} {r : TaskRef} {x : Task} (hx : s.task r = some x) :
    (∃ g n a l, s.dropRecord x = { s with regs := g, now := n, apertures := a, tasks := l }) ∧
    (∃ y, (s.dropRecord x).task r = some y ∧ y.phase = .journal ∧ y.recordLost = true ∧ y.tDone = s.gtc ∧ y.ref = x.ref) ∧
    s.tasksBut (s.dropRecord x) r ∧
    (s.dropRecord x).reg (R.cqDropped (entryRing x.entry)) = satAdd (s.reg (R.cqDropped (entryRing x.entry))) 1 ∧
    (∀ o, workReg o = false → o ≠ R.cqDropped (entryRing x.entry) → (s.dropRecord x).reg o = s.reg o) := by
  have hc := entryRing_lt x.entry
  have hself := s.reg_bump_self (R.cqDropped (entryRing x.entry)) 1
  have hne (o : Nat) (ho : o ≠ R.cqDropped (entryRing x.entry)) := s.reg_bump_ne (o := o) 1 ho
  have hlow : R.gtcLo ≠ R.cqDropped (entryRing x.entry) ∧ R.gtcLo + 4 ≠ R.cqDropped (entryRing x.entry) := by
    simp only [R.gtcLo, R.cqDropped]
    omega
  have hgtc : (s.bump (R.cqDropped (entryRing x.entry)) 1).gtc = s.gtc := State.reg64_congr (hne _ hlow.1) (hne _ hlow.2)
  unfold State.dropRecord
  obtain ⟨g, n, hb⟩ := s.bump_shape (R.cqDropped (entryRing x.entry)) 1
  rw [hb] at hself hne hgtc ⊢
  obtain ⟨⟨g', n', a', h⟩, hregs⟩ := State.recordDone_spec { s with regs := g, now := n } x true
  obtain ⟨hy, hbut⟩ := State.recordDone_task (s := { s with regs := g, now := n }) hx true
  refine ⟨⟨g', n', a', _, by rw [h]; rfl⟩, ⟨_, hy, rfl, rfl, hgtc, rfl⟩, hbut, ?_, fun o ho hd => (hregs o ho).trans (hne o hd)⟩
  exact (hregs _ (workReg_cq hc (cqDropped_mem _))).trans hself

/-! A record is issued. -/

theorem State.cqAdvance_spec (s : State) (c : Nat) : s.setsRegs (s.cqAdvance c) [R.cqTail c] ∧
    (s.cqAdvance c).cqTail c = (s.cqTail c + 1) % s.cqRecords c % 2 ^ 16 ∧
    ((s.cqAdvance c).cqPhase c = if (s.cqTail c + 1) % s.cqRecords c = 0 then ! s.cqPhase c else s.cqPhase c) := by
  have hset := s.setsRegs_setFld (R.cqTail c) 0 16 ((s.cqTail c + 1) % s.cqRecords c)
  have htail := s.fld_setFld_self (R.cqTail c) 0 16 ((s.cqTail c + 1) % s.cqRecords c) (by decide)
  have hphase := s.bit_setFld_other (R.cqTail c) 0 16 ((s.cqTail c + 1) % s.cqRecords c) 31 (by decide)
  unfold State.cqAdvance
  dsimp only
  split
  next h =>
    refine ⟨hset.trans (State.setsRegs_setBit _ _ _ _), ?_, State.bit_setBit_self _ _ _ _ (by decide)⟩
    exact (State.fld_setBit_other _ (R.cqTail c) 31 0 16 _ (by decide)).trans htail
  next h => exact ⟨hset, htail, hphase⟩

/-- The interrupt's count after a record of a ring. -/
def State.cqCounted (s : State) (c : Nat) (ref : TaskRef) (now : Bool) : CqRun :=
  if s.bit (R.cqIrq c) 31 && (now || decide (s.fld (R.cqIrq c) 8 8 + 1 ≤ (s.cq c).written + 1)) then
    { s.cq c with written := 0, firstAt := none, first := none, due := (s.cq c).due ++ [ref] }
  else { s.cq c with
    written := (s.cq c).written + 1, firstAt := some ((s.cq c).firstAt.getD s.cycle),
    first := if (s.cq c).firstAt = none then some ref else (s.cq c).first }

theorem State.cqCount_eq (s : State) (c : Nat) (ref : TaskRef) (now : Bool) : s.cqCount c ref now = s.putCq c (s.cqCounted c ref now) := by
  unfold State.cqCount State.cqCounted
  dsimp only
  split <;> rfl

theorem State.ranges_cqCounted (s : State) (c : Nat) (ref : TaskRef) (now : Bool) : (s.cqCounted c ref now).ranges = (s.cq c).ranges := by
  unfold State.cqCounted
  split <;> rfl

theorem State.cq_putCq_self (s : State) (c : Nat) (r : CqRun) : (s.putCq c r).cq c = r := sget_sset_self _ _ _ _

/-- The task whose record has been issued. -/
def State.recordSent (s : State) (x : Task) : Task :=
  { x with
    phase := .recordIssued, record := completionRecord x (s.sqHead x.ref.sq) (s.cqPhase (entryRing x.entry)),
    recordPos := s.cqTail (entryRing x.entry), recordAt := s.cycle }

theorem State.sendRecord_spec (s : State) (c a : Nat) (bs : List Byte) : (∃ o h, s.sendRecord c a bs = { s with out := o, hostHeld := h }) ∧
    ∀ h, hostTarget (s.cq c).ranges a = some h →
      s.sentHost (s.sendRecord c a bs) [.hostWrite h.1 bs (s.cqPasid c) false h.2, .flushRead (h.1 + 28) (s.cqPasid c) h.2] := by
  unfold State.sendRecord
  split
  next h hh =>
    have hall := State.sentHost_foldl_emit (l := [.hostWrite h.1 bs (s.cqPasid c) false h.2, .flushRead (h.1 + 28) (s.cqPasid c) h.2])
      (by simp [Out.toHost]) s
    refine ⟨⟨_, _, hall.2⟩, fun h' hh' => ?_⟩
    obtain rfl := Option.some.inj (hh.symm.trans hh')
    exact hall.1
  next hh => exact ⟨⟨_, _, rfl⟩, fun h' hh' => nomatch (hh.symm.trans hh')⟩

/-! A ring stops. -/

theorem State.recordDone_but (s : State) (x : Task) (lost : Bool) : s.tasksBut (s.recordDone x lost) x.ref := by
  obtain ⟨⟨g, n, a, h⟩, -⟩ := s.recordDone_spec x lost
  rw [h]
  exact State.tasksBut_putTask { s with regs := g, now := n, apertures := a } (s.journaled x lost)

/-- What the ring's stop leaves: memory, the tasks with no record that waits, and all registers but its count. -/
structure State.drops (s t : State) (c : Nat) (r : TaskRef) : Prop where
  mem : s.sameMem t
  task : t.task r = s.task r
  regs : ∀ o, workReg o = false → o ≠ R.cqDropped c → t.reg o = s.reg o

theorem State.drops.refl (s : State) (c : Nat) (r : TaskRef) : s.drops s c r := ⟨fun _ => rfl, rfl, fun _ _ _ => rfl⟩

theorem State.drops.dropRecord {s t : State} {c : Nat} {r : TaskRef} (h : s.drops t c r) {x : Task} (hx : entryRing x.entry = c)
    (hr : x.ref ≠ r) : s.drops (t.dropRecord x) c r := by
  obtain ⟨g, n, hb⟩ := t.bump_shape (R.cqDropped (entryRing x.entry)) 1
  have hne (o : Nat) (ho : o ≠ R.cqDropped c) : (t.bump (R.cqDropped (entryRing x.entry)) 1).reg o = t.reg o :=
    t.reg_bump_ne 1 (by rw [hx]; exact ho)
  unfold State.dropRecord
  rw [hb] at hne ⊢
  obtain ⟨⟨g', n', a', hd⟩, hregs⟩ := State.recordDone_spec { t with regs := g, now := n } x true
  have hbut := State.recordDone_but { t with regs := g, now := n } x true
  refine ⟨h.mem.trans fun a => ?_, (hbut r hr.symm).trans h.task, fun o ho hc => (hregs o ho).trans ((hne o hc).trans (h.regs o ho hc))⟩
  rw [hd]
  rfl

theorem cqErr_ne {c : Nat} (hc : c < 256) : R.cqErr c ≠ R.cqDropped c ∧ R.cqCfg c ≠ R.cqDropped c ∧ R.cqCfg c ≠ R.cqErr c ∧
    workReg (R.cqErr c) = false ∧ workReg (R.cqCfg c) = false := by
  refine ⟨?_, ?_, ?_, workReg_cq hc ?_, workReg_cq hc ?_⟩
  all_goals
    simp only [R.cqErr, R.cqCfg, R.cqDropped, ne_eq]
    omega

theorem State.cqStop_spec {s : State} {c : Nat} (hc : c < 256) (hs : s.cqStopped c = false) (st : Status) {r : TaskRef}
    (hr : ∀ x ∈ s.tasks, x.ref = r → x.phase ≠ .finished) : (s.cqStop c st).cqStopped c = true ∧
      (s.cqStop c st).fld (R.cqErr c) 16 16 = st.toNat ∧ s.sameMem (s.cqStop c st) ∧ (s.cqStop c st).task r = s.task r := by
  obtain ⟨hed, hcd, hce, hwe, hwc⟩ := cqErr_ne hc
  have hstop : ((s.setBit (R.cqCfg c) 29 true).setReg (R.cqErr c) (BitVec.ofNat 32 (st.toNat * 2 ^ 16))).cqStopped c = true :=
    (State.bit_setReg_ne _ 29 _ hce).trans (State.bit_setBit_self s _ _ _ (by decide))
  have herr : ((s.setBit (R.cqCfg c) 29 true).setReg (R.cqErr c) (BitVec.ofNat 32 (st.toNat * 2 ^ 16))).fld (R.cqErr c) 16 16 = st.toNat := by
    have h := st.isLt
    rw [State.fld_setReg_ofNat]
    omega
  obtain ⟨g, hg⟩ : ∃ g, (s.setBit (R.cqCfg c) 29 true).setReg (R.cqErr c) (BitVec.ofNat 32 (st.toNat * 2 ^ 16)) = { s with regs := g } :=
    ⟨_, rfl⟩
  have heq : s.cqStop c st = (s.waitingOn c).foldl State.dropRecord { s with regs := g } := by
    unfold State.cqStop
    rw [if_neg (by rw [hs]; decide), hg]
    rfl
  rw [hg] at hstop herr
  have hfold : ({ s with regs := g } : State).drops ((s.waitingOn c).foldl State.dropRecord { s with regs := g }) c r :=
    List.foldlRecOn (motive := fun u : State => ({ s with regs := g } : State).drops u c r) _ _ (.refl _ c r) fun u hu x hx => by
      obtain ⟨hmem, hph⟩ := List.mem_filter.mp hx
      simp only [Bool.and_eq_true, decide_eq_true_eq] at hph
      exact hu.dropRecord hph.2 (fun h => hr x hmem h hph.1)
  rw [heq]
  exact ⟨(State.bit_congr (hfold.regs _ hwc hcd) 29).trans hstop, (State.fld_congr (hfold.regs _ hwe hed) 16 16).trans herr,
    hfold.mem, hfold.task⟩

/-! The record of a finished task. -/

theorem writeRecord_of_waiting {ref : TaskRef} {s : State} {x : Task} (hx : s.task ref = some x) (hp : x.phase = .finished) :
    writeRecord ref s = if ! s.reached x then s
      else if s.cqStopped (entryRing x.entry) then s.dropRecord x
      else if s.cqFull (entryRing x.entry) ∨ ! s.nextOfRing x then s
      else
        let s1 := ((s.putTask (s.recordSent x)).cqAdvance (entryRing x.entry)).cqCount (entryRing x.entry) ref (entryIrqNow x.entry)
        if s.cqHost (entryRing x.entry) then
          s1.sendRecord (entryRing x.entry) (s.cqSlot (entryRing x.entry) (s.cqTail (entryRing x.entry)))
            (completionRecord x (s.sqHead ref.sq) (s.cqPhase (entryRing x.entry)))
        else s1 := by
  obtain rfl : x.ref = ref := State.ref_of_task hx
  have hphase (b : Bool) : (x.phase ≠ .finished ∨ b = true) ↔ b = true := or_iff_right (not_not_intro hp)
  unfold writeRecord
  rw [hx]
  dsimp only
  simp only [hphase]
  rfl

theorem cqIrq_ne (c : Nat) : R.cqIrq c ≠ R.cqTail c ∧ R.cqPasid c ≠ R.cqTail c := by
  simp only [R.cqIrq, R.cqTail, R.cqPasid]
  omega

theorem State.cqCounted_congr {s t : State} {c : Nat} (hr : t.reg (R.cqIrq c) = s.reg (R.cqIrq c)) (hq : t.cqs = s.cqs)
    (hc : t.cycle = s.cycle) (ref : TaskRef) (now : Bool) : t.cqCounted c ref now = s.cqCounted c ref now := by
  have hcq : t.cq c = s.cq c := congrArg (fun m => sget cqDefault m c) hq
  unfold State.cqCounted
  rw [State.bit_congr hr, State.fld_congr hr, hcq, hc]

/-- The record of a finished task issued: TAIL moves on, the interrupt counts it. -/
theorem State.recordIssued_spec {s : State} {ref : TaskRef} {x : Task} (hx : s.task ref = some x) :
    let c := entryRing x.entry
    let t := ((s.putTask (s.recordSent x)).cqAdvance c).cqCount c ref (entryIrqNow x.entry)
    t.task ref = some (s.recordSent x) ∧ t.cqTail c = (s.cqTail c + 1) % s.cqRecords c % 2 ^ 16 ∧
      (t.cqPhase c = if (s.cqTail c + 1) % s.cqRecords c = 0 then ! s.cqPhase c else s.cqPhase c) ∧
      (∃ g l q, t = { s with regs := g, tasks := l, cqs := q }) ∧ s.regsBut t [R.cqTail c] ∧ s.tasksBut t ref ∧
      t.cq c = s.cqCounted c ref (entryIrqNow x.entry) := by
  intro c t
  have hr : (s.recordSent x).ref = ref := (State.ref_of_task hx :)
  obtain ⟨⟨⟨g, hg⟩, hregs⟩, htail, hphase⟩ := (s.putTask (s.recordSent x)).cqAdvance_spec c
  have ht : t = ((s.putTask (s.recordSent x)).cqAdvance c).putCq c
      (((s.putTask (s.recordSent x)).cqAdvance c).cqCounted c ref (entryIrqNow x.entry)) := State.cqCount_eq _ _ _ _
  have hcount : ((s.putTask (s.recordSent x)).cqAdvance c).cqCounted c ref (entryIrqNow x.entry) = s.cqCounted c ref (entryIrqNow x.entry) :=
    State.cqCounted_congr (hregs _ (fun h => (cqIrq_ne c).1 (List.mem_singleton.mp h))) (by rw [hg]) (by rw [hg]) ref _
  rw [hcount] at ht
  rw [ht]
  generalize s.cqCounted c ref (entryIrqNow x.entry) = q
  rw [hg] at htail hphase hregs ⊢
  refine ⟨State.task_putTask_self hx hr, htail, hphase, ⟨g, _, _, rfl⟩, hregs, State.tasksBut_putTask_of_ref s hr, ?_⟩
  exact State.cq_putCq_self _ c q

theorem ackRecord_of_answered {ref : TaskRef} {s : State} {x : Task} (hx : s.task ref = some x) (hp : x.phase = .recordIssued)
    (hw : s.cqHost (entryRing x.entry) = true ∨ s.tierBWaits (s.cqSlot (entryRing x.entry) x.recordPos) = false) (ans : RecordAnswer) :
    ackRecord ref ans s = match s.recordVerdict (entryRing x.entry) (s.cqSlot (entryRing x.entry) x.recordPos) ans with
      | none => (if s.cqHost (entryRing x.entry) then s
          else s.writeMem (s.cqSlot (entryRing x.entry) x.recordPos) x.record).recordAcked x
      | some st => (if s.cqHost (entryRing x.entry) then s
          else s.memRefusal st (s.cqSlot (entryRing x.entry) x.recordPos) (some ref)).recordFailed x st := by
  unfold ackRecord
  rw [hx]
  refine if_neg ?_
  rintro (h | h)
  · exact h hp
  · obtain hw | hw := hw
    · rw [hw] at h
      exact absurd h (by simp)
    · rw [hw, Bool.and_false] at h
      exact absurd h (by decide)

theorem State.sentHost_of_eq {s t u : State} {l : List Out} (h : t.sentHost u l) (hd : t.linkDown = s.linkDown) (ho : t.out = s.out)
    (hh : t.hostHeld = s.hostHeld) : s.sentHost u l := by
  unfold State.sentHost at h ⊢
  rw [hd, ho, hh] at h
  exact h

/-- A record acknowledged: the set event is to follow, the message it triggered goes out. -/
theorem State.recordAcked_spec {s : State} {ref : TaskRef} {x : Task} (hx : s.task ref = some x) :
    (s.recordAcked x).task ref = some (s.journaled x false) ∧ s.sameMem (s.recordAcked x) ∧
    (s.recordAcked x).later.flags = s.later.flags ++
      (if x.recordEvent then [((entrySet x.entry).event, ! (entrySet x.entry).clr)] else []) ∧
    s.sentHost (s.recordAcked x) (if (s.cq (entryRing x.entry)).due.contains ref && s.bit (R.cqIrq (entryRing x.entry)) 31 then
      [.msix (s.fld (R.cqIrq (entryRing x.entry)) 16 11)] else []) := by
  obtain rfl : x.ref = ref := State.ref_of_task hx
  have hc := entryRing_lt x.entry
  obtain ⟨⟨g, n, a, h⟩, hregs⟩ := s.recordDone_spec x false
  obtain ⟨hy, -⟩ := State.recordDone_task hx false
  have hirq := hregs (R.cqIrq (entryRing x.entry)) (workReg_cq hc (by simp only [R.cqIrq]; omega))
  unfold State.recordAcked
  generalize s.recordDone x false = u at h hregs hy hirq ⊢
  have hset : ∃ l, u.applySetEvent x = { u with later := l } ∧ l.flags = s.later.flags ++
      (if x.recordEvent then [((entrySet x.entry).event, ! (entrySet x.entry).clr)] else []) := by
    unfold State.applySetEvent
    split
    · exact ⟨_, rfl, by rw [h]; rfl⟩
    · exact ⟨u.later, rfl, by rw [h]; exact (List.append_nil _).symm⟩
  obtain ⟨l, hl, hflags⟩ := hset
  rw [hl]
  unfold State.cqAcked
  have hcq : ({ u with later := l } : State).cq (entryRing x.entry) = s.cq (entryRing x.entry) := by rw [h]; rfl
  have hbit : ({ u with later := l } : State).bit (R.cqIrq (entryRing x.entry)) 31 = s.bit (R.cqIrq (entryRing x.entry)) 31 :=
    State.bit_congr hirq 31
  have hfld : ({ u with later := l } : State).fld (R.cqIrq (entryRing x.entry)) 16 11 = s.fld (R.cqIrq (entryRing x.entry)) 16 11 :=
    State.fld_congr hirq 16 11
  rw [hcq, hbit, hfld]
  dsimp only
  have hsame : s.sameMem { u with later := l } := fun _ => by rw [h]; rfl
  have hkeep : ({ u with later := l } : State).linkDown = s.linkDown ∧ ({ u with later := l } : State).out = s.out ∧
      ({ u with later := l } : State).hostHeld = s.hostHeld := by
    rw [h]
    exact ⟨rfl, rfl, rfl⟩
  have hy' : ({ u with later := l } : State).task x.ref = some (s.journaled x false) := hy
  have hf' : ({ u with later := l } : State).later.flags = l.flags := rfl
  generalize ({ u with later := l } : State) = w at hsame hkeep hy' hf'
  generalize { s.cq (entryRing x.entry) with
    first := if (s.cq (entryRing x.entry)).first = some x.ref then none else (s.cq (entryRing x.entry)).first,
    due := (s.cq (entryRing x.entry)).due.filter (fun r => decide (r ≠ x.ref)) } = q
  split
  · have hsent := (w.putCq (entryRing x.entry) q).sentHost_emit (o := .msix (s.fld (R.cqIrq (entryRing x.entry)) 16 11)) rfl
    unfold State.msix
    obtain ⟨o, hh, he⟩ := (w.putCq (entryRing x.entry) q).emit_shape (.msix (s.fld (R.cqIrq (entryRing x.entry)) 16 11))
    rw [he] at hsent ⊢
    exact ⟨hy', hsame, hf'.trans hflags, State.sentHost_of_eq hsent hkeep.1 hkeep.2.1 hkeep.2.2⟩
  · refine ⟨hy', hsame, hf'.trans hflags, ?_⟩
    unfold State.sentHost
    split
    · exact ⟨hkeep.2.1, hkeep.2.2.trans (List.append_nil _).symm⟩
    · exact ⟨hkeep.2.1, hkeep.2.2⟩

/-! A record's write fails. -/

theorem State.mcEvent_lowRegs (s : State) (source unit : Nat) (st : Status) (r : Option TaskRef) (a : Nat) :
    s.lowRegs (s.mcEvent source unit st r a) :=
  (State.lowRegs.refl s).bump (off := R.mcCount) (by decide) 1

theorem State.tbUe_lowRegs (s : State) (a site : Nat) (scrub : Bool) : s.lowRegs (s.tbUe a site scrub) := by
  intro o ho
  unfold State.tbUe
  rw [State.reg_latch']
  exact s.reg_bump_ne 1 (by simp only [R.tbUeCount]; omega)

theorem State.memRefusal_lowRegs (s : State) (st : Status) (a : Nat) (r : Option TaskRef) : s.lowRegs (s.memRefusal st a r) := by
  unfold State.memRefusal
  split
  · exact (State.lowRegs.refl s).bump (by simp only [R.tuRefused]; omega) 1
  · split
    · unfold State.mcUncorrectable
      split
      · exact (s.tbUe_lowRegs a (s.siteOf (moduleOf a)) false).trans (State.mcEvent_lowRegs _ _ _ _ _ _)
      · exact s.mcEvent_lowRegs _ _ _ _ _
      · exact s.mcEvent_lowRegs _ _ _ _ _
    · exact .refl s

theorem State.recordFailed_spec {s : State} {ref : TaskRef} {x : Task} (hx : s.task ref = some x)
    (hs : s.cqStopped (entryRing x.entry) = false) (st : Status) : (s.recordFailed x st).task ref = some (s.journaled x true) ∧
      (s.recordFailed x st).cqStopped (entryRing x.entry) = true ∧ (s.recordFailed x st).fld (R.cqErr (entryRing x.entry)) 16 16 = st.toNat ∧
      s.sameMem (s.recordFailed x st) := by
  have hc := entryRing_lt x.entry
  have hr : x.ref = ref := State.ref_of_task hx
  obtain ⟨⟨g, n, a, h⟩, hregs⟩ := s.recordDone_spec x true
  obtain ⟨hy, -⟩ := State.recordDone_task hx true
  have hstop : (s.recordDone x true).cqStopped (entryRing x.entry) = false :=
    (State.bit_congr (hregs _ (workReg_cq hc (by simp only [R.cqCfg]; omega))) 29).trans hs
  have hput : ∀ z ∈ (s.recordDone x true).tasks, z.ref = ref → z.phase ≠ .finished := by
    rw [h]
    intro z hz hzr
    obtain ⟨w, -, rfl⟩ := List.mem_map.mp hz
    split
    · exact fun he => nomatch he
    next hne =>
      rw [if_neg hne] at hzr
      exact absurd (hzr.trans hr.symm) hne
  obtain ⟨h1, h2, h3, h4⟩ := State.cqStop_spec hc hstop st hput
  exact ⟨h4.trans hy, h1, h2, State.sameMem.trans (fun b => by rw [h]; rfl) h3⟩

/-- The delay interrupt is due. -/
theorem irqDelay_of_due {c : Fin 256} {s : State} {f : Nat} (hf : (s.cq c).firstAt = some f) (hi : s.bit (R.cqIrq c) 31 = true)
    (hd : f + 1600 * s.fld (R.cqIrqDelay c) 0 10 ≤ s.cycle) : irqDelay c s = match (s.cq c).first with
      | some t => s.putCq c { s.cq c with written := 0, firstAt := none, first := none, due := (s.cq c).due ++ [t] }
      | none => (s.putCq c { s.cq c with written := 0, firstAt := none }).msix (s.fld (R.cqIrq c) 16 11) := by
  unfold irqDelay
  dsimp only
  rw [hf]
  refine (if_pos ⟨hi, hd⟩).trans ?_
  cases (s.cq c).first <;> rfl

theorem State.cq_emit_shape (s : State) (o : Out) (c : Nat) : (s.emit o).cq c = s.cq c := by
  obtain ⟨a, b, h⟩ := s.emit_shape o
  rw [h]
  rfl

/-- Settles O36. -/
theorem completionRecords : Obligations.CompletionRecords := by
  unfold Obligations.CompletionRecords
  refine ⟨fun ref s x hx hp => ?_, fun ref s x ans hx hp hw => ⟨fun hv => ?_, fun st hv hs => ?_⟩,
    fun c s f hf hi => ⟨fun hd => ?_, fun hd => ?_⟩⟩
  case refine_1 =>
    have hwr := writeRecord_of_waiting hx hp
    refine ⟨fun hn => ?_, fun hs hq => ?_, fun hn hs hf hq => ?_, fun hn hs => ?_⟩
    case refine_1 => exact congrArg Host.Outcome.next (hwr.trans (if_pos (by rw [hn]; rfl)))
    case refine_2 =>
      refine congrArg Host.Outcome.next (hwr.trans ?_)
      split
      · rfl
      · rw [if_neg (by rw [hs]; decide), if_pos]
        exact hq.imp_right (fun h => by rw [h]; rfl)
    case refine_3 =>
      rw [hn, hs, hf, hq, if_neg (by decide), if_neg Bool.false_ne_true, if_neg (by decide)] at hwr
      obtain ⟨hy, htail, hphase, ⟨g, l, q, hg⟩, hregs, hbut, hcq⟩ := State.recordIssued_spec hx
      have hpasid : (((s.putTask (s.recordSent x)).cqAdvance (entryRing x.entry)).cqCount (entryRing x.entry) ref
          (entryIrqNow x.entry)).cqPasid (entryRing x.entry) = s.cqPasid (entryRing x.entry) :=
        congrArg (fun n => some (BitVec.ofNat 20 n))
          (State.fld_congr (hregs _ (fun h => (cqIrq_ne _).2 (List.mem_singleton.mp h))) 0 20)
      have hranges : ((((s.putTask (s.recordSent x)).cqAdvance (entryRing x.entry)).cqCount (entryRing x.entry) ref
          (entryIrqNow x.entry)).cq (entryRing x.entry)).ranges = (s.cq (entryRing x.entry)).ranges := by
        rw [hcq]
        exact s.ranges_cqCounted _ _ _
      obtain rfl : x.ref = ref := State.ref_of_task hx
      dsimp only at hwr
      generalize ((s.putTask (s.recordSent x)).cqAdvance (entryRing x.entry)).cqCount (entryRing x.entry) x.ref (entryIrqNow x.entry) = u
        at hwr hy htail hphase hg hregs hbut hcq hpasid hranges
      have hout : ∃ o h, (if s.cqHost (entryRing x.entry) then
            u.sendRecord (entryRing x.entry) (s.cqSlot (entryRing x.entry) (s.cqTail (entryRing x.entry)))
              (completionRecord x (s.sqHead x.ref.sq) (s.cqPhase (entryRing x.entry)))
          else u) = { u with out := o, hostHeld := h } ∧
          (s.cqHost (entryRing x.entry) = false → o = s.out ∧ h = s.hostHeld) ∧
          (∀ t, s.cqHost (entryRing x.entry) = true → hostTarget (s.cq (entryRing x.entry)).ranges
              (s.cqSlot (entryRing x.entry) (s.cqTail (entryRing x.entry))) = some t →
            s.sentHost { u with out := o, hostHeld := h }
              [.hostWrite t.1 (completionRecord x (s.sqHead x.ref.sq) (s.cqPhase (entryRing x.entry)))
                (s.cqPasid (entryRing x.entry)) false t.2,
               .flushRead (t.1 + 28) (s.cqPasid (entryRing x.entry)) t.2]) := by
        cases hh : s.cqHost (entryRing x.entry) with
        | false =>
          rw [if_neg Bool.false_ne_true]
          exact ⟨u.out, u.hostHeld, rfl, fun _ => by rw [hg]; exact ⟨rfl, rfl⟩, fun t h => nomatch h⟩
        | true =>
          rw [if_pos rfl]
          obtain ⟨⟨o, h, he⟩, hsent⟩ := u.sendRecord_spec (entryRing x.entry)
            (s.cqSlot (entryRing x.entry) (s.cqTail (entryRing x.entry)))
            (completionRecord x (s.sqHead x.ref.sq) (s.cqPhase (entryRing x.entry)))
          refine ⟨o, h, he, (fun h => nomatch h), fun t _ ht => ?_⟩
          rw [he, hpasid, hranges] at hsent
          exact State.sentHost_of_eq (hsent t ht) (by rw [hg]) (by rw [hg]) (by rw [hg])
      obtain ⟨o, h, he, hdev, hhost⟩ := hout
      rw [he] at hwr
      have hcq' : ({ u with out := o, hostHeld := h } : State).cq (entryRing x.entry) = s.cqCounted (entryRing x.entry) x.ref
        (entryIrqNow x.entry) := hcq
      refine ⟨_, congrArg Host.Outcome.next hwr, hy, htail, hphase, by rw [hg], hregs, hbut, fun ht => ?_, fun ht => ?_, hdev, hhost⟩
      all_goals
        rw [hcq']
        unfold State.cqCounted
        rw [ht]
      · exact ⟨rfl, rfl, rfl⟩
      · exact ⟨rfl, rfl, rfl⟩
    case refine_4 =>
      rw [hn, hs, if_neg (by decide), if_pos rfl] at hwr
      obtain ⟨⟨g, n, a, l, h⟩, ⟨y, hy, hph, hl, ht, -⟩, hbut, hcount, -⟩ := State.dropRecord_spec hx
      exact ⟨_, y, congrArg Host.Outcome.next hwr, hy, hph, hl, ht, hcount, fun b => by rw [h]; rfl, hbut⟩
  case refine_2 =>
    have hack := ackRecord_of_answered hx hp hw ans
    rw [hv] at hack
    dsimp only at hack
    cases hh : s.cqHost (entryRing x.entry) with
    | true =>
      rw [hh, if_pos rfl] at hack
      obtain ⟨hy, hm, hf, hs⟩ := State.recordAcked_spec hx
      exact ⟨_, _, congrArg Host.Outcome.next hack, hy, rfl, rfl, rfl, fun _ => hm, (fun h => nomatch h), hf, hs⟩
    | false =>
      rw [hh, if_neg Bool.false_ne_true] at hack
      have hread := s.readMem_writeMem_self (s.cqSlot (entryRing x.entry) x.recordPos) x.record
      have hbut := s.sameMemBut_writeMem (s.cqSlot (entryRing x.entry) x.recordPos) x.record
      obtain ⟨hy, hm, hf, hs⟩ := State.recordAcked_spec
        (s := s.writeMem (s.cqSlot (entryRing x.entry) x.recordPos) x.record) (ref := ref) (x := x) hx
      refine ⟨_, _, congrArg Host.Outcome.next hack, hy, rfl, rfl, rfl, (fun h => nomatch h), fun _ => ⟨?_, fun b hb => ?_⟩, hf, hs⟩
      · exact (List.map_congr_left fun i _ => hm _).trans hread
      · exact (hm b).trans (hbut b hb)
  case refine_3 =>
    have hack := ackRecord_of_answered hx hp hw ans
    rw [hv] at hack
    dsimp only at hack
    have hgo (u : State) (hu : u.tasks = s.tasks) (hl : s.lowRegs u) (hm : s.sameMem u)
        (he : ackRecord ref ans s = u.recordFailed x st) : ∃ t y, exec (.completionRecordAck ref ans) s = .next t ∧
        t.task ref = some y ∧ y.phase = .journal ∧ y.recordLost = true ∧ t.cqStopped (entryRing x.entry) = true ∧
        t.fld (R.cqErr (entryRing x.entry)) 16 16 = st.toNat ∧ s.sameMem t := by
      have hc := entryRing_lt x.entry
      have hus : u.cqStopped (entryRing x.entry) = false :=
        (State.bit_congr (hl _ (by simp only [R.cqCfg]; omega)) 29).trans hs
      obtain ⟨hy, h1, h2, h3⟩ := State.recordFailed_spec ((State.task_of_tasks hu ref).trans hx) hus st
      exact ⟨_, _, congrArg Host.Outcome.next he, hy, rfl, rfl, h1, h2, hm.trans h3⟩
    cases hh : s.cqHost (entryRing x.entry) with
    | true =>
      rw [hh, if_pos rfl] at hack
      exact hgo s rfl (.refl s) (fun _ => rfl) hack
    | false =>
      rw [hh, if_neg Bool.false_ne_true] at hack
      exact hgo _ (s.tasks_memRefusal st _ _) (s.memRefusal_lowRegs st _ _) (s.sameMem_memRefusal st _ _) hack
  case refine_4 =>
    have hirq := irqDelay_of_due hf hi hd
    cases hy : (s.cq c).first with
    | some y =>
      rw [hy] at hirq
      have hcq := s.cq_putCq_self c { s.cq c with written := 0, firstAt := none, first := none, due := (s.cq c).due ++ [y] }
      refine ⟨_, congrArg Host.Outcome.next hirq, rfl, by rw [hcq], by rw [hcq], (fun h => nomatch h), fun z hz => ?_⟩
      obtain rfl := Option.some.inj hz
      exact ⟨by rw [hcq], rfl, rfl⟩
    | none =>
      rw [hy] at hirq
      dsimp only at hirq
      have hcq := s.cq_putCq_self c { s.cq c with written := 0, firstAt := none }
      have hcqe := ((s.putCq c { s.cq c with written := 0, firstAt := none }).cq_emit_shape (.msix (s.fld (R.cqIrq c) 16 11)) c).trans hcq
      have hsent := (s.putCq c { s.cq c with written := 0, firstAt := none }).sentHost_emit (o := .msix (s.fld (R.cqIrq c) 16 11)) rfl
      unfold State.msix at hirq
      obtain ⟨o, hh, he⟩ := (s.putCq c { s.cq c with written := 0, firstAt := none }).emit_shape (.msix (s.fld (R.cqIrq c) 16 11))
      rw [he] at hsent hirq hcqe
      exact ⟨_, congrArg Host.Outcome.next hirq, rfl, by rw [hcqe], by rw [hcqe], fun _ => hsent, (fun z hz => nomatch hz)⟩
  case refine_5 =>
    refine congrArg Host.Outcome.next ?_
    unfold irqDelay
    dsimp only
    rw [hf]
    exact if_neg (fun h => absurd h.2 (Nat.not_le.mpr hd))

end Sys2Proof.Machine
end

section
/-!
### The journal (R361 to R364)
-/
namespace Sys2Proof.Machine

theorem State.setsRegs.ite {s t u : State} {l : List Nat} {p : Prop} [Decidable p] (ht : s.setsRegs t l) (hu : s.setsRegs u l) :
    s.setsRegs (if p then t else u) l := by
  split
  · exact ht
  · exact hu

/-- Registers alone have changed, those of a block of addresses. -/
def State.setsBelow (s t : State) (n : Nat) : Prop := (∃ r, t = { s with regs := r }) ∧ ∀ o, n ≤ o → t.reg o = s.reg o

theorem State.setsBelow.refl (s : State) (n : Nat) : s.setsBelow s n := ⟨⟨_, rfl⟩, fun _ _ => rfl⟩

theorem State.setsBelow.trans {s t u : State} {n : Nat} (h : s.setsBelow t n) (k : t.setsBelow u n) : s.setsBelow u n := by
  obtain ⟨⟨r, rfl⟩, hr⟩ := h
  obtain ⟨⟨r', rfl⟩, hr'⟩ := k
  exact ⟨⟨r', rfl⟩, fun o ho => (hr' o ho).trans (hr o ho)⟩

theorem State.setsRegs.below {s t : State} {off n : Nat} (h : s.setsRegs t [off]) (ho : off < n) : s.setsBelow t n :=
  ⟨h.1, fun o hn => h.2 o (fun hm => by have := List.mem_singleton.mp hm; omega)⟩

/-- The engine of a task is free again. -/
def State.releaseEngine (s : State) (l : Option (Fin 68)) : State :=
  match l with
  | none => s
  | some e => (((s.setFld (R.engStatus e) 27 3 0).setReg (R.engTaskSq e) 0).setReg (R.engTaskIndex e) 0)

/-- The busy bit of another unit is cleared. -/
def State.clearUnit {α : Type} (s : State) (off : Nat) (f : α → Nat) (l : Option α) : State :=
  match l with
  | none => s
  | some n => s.setBit off (f n) false

/-- The reorder buffer's units go back. -/
def State.returnRob (s : State) (n : Nat) : State := s.setFld R.rdRobUsed 0 9 (s.fld R.rdRobUsed 0 9 - n)

theorem State.releaseUnits_eq (s : State) (x : Task) : s.releaseUnits x =
    ((((s.releaseEngine x.engine).clearUnit R.rdLaneBusy Fin.val x.lane).clearUnit R.cxExpBusy id x.expander).clearUnit R.cxCompBusy id
      x.compressor).returnRob x.robUnits := by
  unfold State.releaseUnits
  cases x.engine <;> cases x.lane <;> cases x.expander <;> cases x.compressor <;> simp only [State.releaseEngine, State.clearUnit,
    State.returnRob, id]

theorem State.releaseEngine_below (s : State) (l : Option (Fin 68)) : s.setsBelow (s.releaseEngine l) 0x500000 := by
  cases l with
  | none => exact .refl s _
  | some e =>
    have he := e.isLt
    refine ((s.setsRegs_setFld (R.engStatus e) 27 3 0).below ?_).trans
      (((State.setsRegs_setReg _ (R.engTaskSq e) 0).below ?_).trans ((State.setsRegs_setReg _ (R.engTaskIndex e) 0).below ?_))
    all_goals
      simp only [R.engStatus, R.engTaskSq, R.engTaskIndex]
      omega

theorem State.clearUnit_below {α : Type} (s : State) {off : Nat} (ho : off < 0x500000) (f : α → Nat) (l : Option α) :
    s.setsBelow (s.clearUnit off f l) 0x500000 := by
  unfold State.clearUnit
  split
  · exact .refl s _
  · exact (s.setsRegs_setBit _ _ _).below ho

/-- The units of a task are free again: only their registers change. -/
theorem State.releaseUnits_below (s : State) (x : Task) : s.setsBelow (s.releaseUnits x) 0x500000 := by
  rw [s.releaseUnits_eq]
  exact (s.releaseEngine_below x.engine).trans ((State.clearUnit_below _ (by decide) _ _).trans ((State.clearUnit_below _ (by decide) _ _).trans
    ((State.clearUnit_below _ (by decide) _ _).trans ((State.setsRegs_setFld _ R.rdRobUsed 0 9 _).below (by decide)))))

/-! A task leaves the block. -/

/-- The registers of the journal, and others above the data path's. -/
theorem workReg_jr {o : Nat} (h : 0x800000 ≤ o ∧ o < 0x800040) : workReg o = false :=
  workReg_eq_false (by omega) (by simp only [R.tuRangesFree]; omega) (by omega) (by omega)

theorem State.task_dropTask (s : State) (r : TaskRef) : (s.dropTask r).task r = none :=
  List.find?_eq_none.mpr fun x hx => by simpa using (List.mem_filter.mp hx).2

theorem State.task_eq_none_of_refs {s t : State} {r : TaskRef} (h : t.tasks.map Task.ref = s.tasks.map Task.ref) (hs : s.task r = none) :
    t.task r = none := by
  refine List.find?_eq_none.mpr fun x hx hr => ?_
  have hmem : r ∈ s.tasks.map Task.ref := h ▸ List.mem_map.mpr ⟨x, hx, of_decide_eq_true hr⟩
  obtain ⟨y, hy, hyr⟩ := List.mem_map.mp hmem
  exact List.find?_eq_none.mp hs y hy (decide_eq_true hyr)

/-- A task that has left is in the block no more; memory, and the registers of the journal, are as they were. -/
theorem State.retireTask_spec (s : State) (x : Task) : (s.retireTask x).task x.ref = none ∧ s.sameMem (s.retireTask x) ∧
    ∀ o, 0x800000 ≤ o ∧ o < 0x800040 → (s.retireTask x).reg o = s.reg o := by
  obtain ⟨⟨r, hr⟩, hregs⟩ := s.releaseUnits_below x
  unfold State.retireTask
  rw [hr]
  have hnone := State.task_dropTask { s with regs := r, xorphans := s.xorphans ++ (match x.xreq with
    | some q => if 0 < q.len then [(x.ref, q.at_)] else []
    | none => []) } x.ref
  have hsame : s.sameMem (({ s with regs := r, xorphans := s.xorphans ++ (match x.xreq with
    | some q => if 0 < q.len then [(x.ref, q.at_)] else []
    | none => []) } : State).dropTask x.ref) := fun _ => rfl
  have hreg (o : Nat) (ho : 0x500000 ≤ o) : (({ s with regs := r, xorphans := s.xorphans ++ (match x.xreq with
    | some q => if 0 < q.len then [(x.ref, q.at_)] else []
    | none => []) } : State).dropTask x.ref).reg o = s.reg o := by
    rw [hr] at hregs
    exact hregs o ho
  dsimp only
  generalize ({ s with regs := r, xorphans := s.xorphans ++ (match x.xreq with
    | some q => if 0 < q.len then [(x.ref, q.at_)] else []
    | none => []) } : State).dropTask x.ref = u at hnone hsame hreg ⊢
  split
  · obtain ⟨hb, hrefs, -⟩ := u.bindWaiting_flow
    exact ⟨State.task_eq_none_of_refs hrefs hnone, hsame.trans hb.sameMem, fun o ho =>
      (hb.around.regs o (workReg_jr ho)).trans (hreg o (by omega))⟩
  · exact ⟨hnone, hsame, fun o ho => hreg o (by omega)⟩

/-! The journal's positions. -/

theorem jrRegs_ne : R.jrHead ≠ R.jrTail ∧ R.jrCfg ≠ R.jrTail ∧ R.jrCfg ≠ R.jrHead ∧ R.jrTail ≠ R.jrOverwritten ∧ R.jrCfg ≠ R.jrOverwritten ∧
    R.jrErr ≠ R.jrCfg ∧ R.jrTail ≠ R.jrCfg ∧ R.jrTail ≠ R.jrErr ∧ R.jrCfg ≠ R.jrErr := by
  decide

/-- HEAD moves past the record that is overwritten: TAIL and the size stay, and memory. -/
theorem State.jrOverwrite_spec (s : State) : (∃ r n, s.jrOverwrite = { s with regs := r, now := n }) ∧
    s.jrOverwrite.reg R.jrTail = s.reg R.jrTail ∧ s.jrOverwrite.reg R.jrCfg = s.reg R.jrCfg := by
  obtain ⟨ht, hc, hch, hto, hco, -⟩ := jrRegs_ne
  unfold State.jrOverwrite
  split
  · obtain ⟨r, hr⟩ := s.setFld_shape R.jrHead 0 20 ((s.jrHead + 1) % s.jrRecords)
    have h1 := s.reg_setFld_ne (o := R.jrTail) 0 20 ((s.jrHead + 1) % s.jrRecords) ht.symm
    have h2 := s.reg_setFld_ne (o := R.jrCfg) 0 20 ((s.jrHead + 1) % s.jrRecords) hch
    rw [hr] at h1 h2 ⊢
    obtain ⟨r', n, hb⟩ := State.bump_shape { s with regs := r } R.jrOverwritten 1
    exact ⟨⟨r', n, hb⟩, (State.reg_bump_ne _ 1 hto).trans h1, (State.reg_bump_ne _ 1 hco).trans h2⟩
  · exact ⟨⟨_, _, rfl⟩, rfl, rfl⟩

theorem State.jrAdvance_spec (s : State) : (∃ r, s.jrAdvance = { s with regs := r }) ∧
    s.jrAdvance.jrTail = (s.jrTail + 1) % s.jrRecords % 2 ^ 20 := by
  obtain ⟨r, hr⟩ := s.setFld_shape R.jrTail 0 20 ((s.jrTail + 1) % s.jrRecords)
  have htail := s.fld_setFld_self R.jrTail 0 20 ((s.jrTail + 1) % s.jrRecords) (by decide)
  unfold State.jrAdvance
  dsimp only
  rw [hr] at htail ⊢
  split
  · obtain ⟨⟨r', hr'⟩, -⟩ := State.setsRegs_setBit { s with regs := r } R.jrTail 31 (! s.jrPhase)
    exact ⟨⟨r', hr'⟩, (State.fld_setBit_other _ R.jrTail 31 0 20 _ (by decide)).trans htail⟩
  · exact ⟨⟨r, rfl⟩, htail⟩

theorem State.jrStop_spec (s : State) (st : Status) : (∃ r, s.jrStop st = { s with regs := r }) ∧ (s.jrStop st).jrStopped = true ∧
    (s.jrStop st).fld R.jrErr 16 16 = st.toNat ∧ (s.jrStop st).reg R.jrTail = s.reg R.jrTail := by
  obtain ⟨-, -, -, -, -, -, htc, hte, hce⟩ := jrRegs_ne
  obtain ⟨r, hr⟩ := (s.setsRegs_setBit R.jrCfg 28 true).1
  have hbit := s.bit_setBit_self R.jrCfg 28 true (by decide)
  have htail := s.reg_setBit_ne (o := R.jrTail) 28 true htc
  unfold State.jrStop
  rw [hr] at hbit htail ⊢
  have herr := State.fld_setReg_ofNat { s with regs := r } R.jrErr 16 16 (st.toNat * 2 ^ 16)
  have hne (o : Nat) (ho : o ≠ R.jrErr) := State.reg_setReg_ne { s with regs := r } (BitVec.ofNat 32 (st.toNat * 2 ^ 16)) ho
  obtain ⟨r', hr'⟩ := State.setReg_shape { s with regs := r } R.jrErr (BitVec.ofNat 32 (st.toNat * 2 ^ 16))
  rw [hr'] at herr hne ⊢
  refine ⟨⟨r', rfl⟩, (State.bit_congr (hne _ hce) 28).trans hbit, herr.trans ?_, (hne _ hte).trans htail⟩
  have h := st.isLt
  omega

theorem State.reg_mcEvent_ne (s : State) (source unit : Nat) (st : Status) (r : Option TaskRef) (a : Nat) {o : Nat} (ho : o ≠ R.mcCount) :
    (s.mcEvent source unit st r a).reg o = s.reg o := s.reg_bump_ne 1 ho

theorem State.reg_tbUe_ne (s : State) (a site : Nat) (scrub : Bool) {o : Nat} (ho : o ≠ R.tbUeCount site) :
    (s.tbUe a site scrub).reg o = s.reg o := by
  unfold State.tbUe
  rw [State.reg_latch']
  exact s.reg_bump_ne 1 ho

theorem State.memRefusal_jr (s : State) (st : Status) (a : Nat) {o : Nat} (ho : 0x800000 ≤ o ∧ o < 0x800040) :
    (s.memRefusal st a none).reg o = s.reg o := by
  have hmc : o ≠ R.mcCount := by simp only [R.mcCount]; omega
  unfold State.memRefusal
  split
  · have hg := groupOf_lt a
    exact s.reg_bump_ne 1 (by simp only [R.tuRefused]; omega)
  · split
    · unfold State.mcUncorrectable
      split
      · have hb : s.siteOf (moduleOf a) < 2 ^ 4 := getField_lt _ _ _
        exact (State.reg_mcEvent_ne _ _ _ _ _ _ hmc).trans (s.reg_tbUe_ne _ _ _ (by simp only [R.tbUeCount]; omega))
      · exact s.reg_mcEvent_ne _ _ _ _ _ hmc
      · exact s.reg_mcEvent_ne _ _ _ _ _ hmc
    · rfl

/-! A record is appended. -/

theorem appendJournal_of_off {s : State} {ref : TaskRef} {x : Task} (c : MemCond) (hx : s.task ref = some x) (hp : x.phase = .journal)
    (he : s.jrEn = false) : appendJournal ref c s = s.retireTask x := by
  unfold appendJournal
  rw [hx]
  exact (if_neg (not_not_intro hp)).trans (if_pos (by rw [he]; rfl))

theorem appendJournal_of_stopped {s : State} {ref : TaskRef} {x : Task} (c : MemCond) (hx : s.task ref = some x) (hp : x.phase = .journal)
    (he : s.jrEn = true) (hs : s.jrStopped = true) : appendJournal ref c s = (s.bump R.jrDropped 1).retireTask x := by
  unfold appendJournal
  rw [hx]
  exact (if_neg (not_not_intro hp)).trans ((if_neg (by rw [he]; decide)).trans (if_pos hs))

/-- The journal is open to a task: enabled, neither stopped nor full without WRAP, its slot served, the task the next. -/
def State.journalOpen (s : State) (x : Task) : Prop :=
  s.jrEn = true ∧ s.jrStopped = false ∧ (s.jrFull = false ∨ s.bit R.jrCfg 30 = true) ∧ s.tierBWaits s.jrSlot = false ∧ s.nextOfJournal x = true

/-- The record with the journal's phase. -/
def State.journalImage (s : State) (x : Task) : List Byte := patchBytes x.record 15 [BitVec.ofNat 8 (boolBit s.jrPhase)]

theorem appendJournal_of_open {s : State} {ref : TaskRef} {x : Task} (c : MemCond) (hx : s.task ref = some x) (hp : x.phase = .journal)
    (ho : s.journalOpen x) : appendJournal ref c s =
      match s.memVerdict 0 .write s.jrSlot 64 (writeCond s.jrSlot 64 c) with
      | some st => ((s.memRefusal st s.jrSlot none).jrStop st).retireTask x
      | none => (((s.noteCorrected s.jrSlot (writeCond s.jrSlot 64 c)).writeMem s.jrSlot (s.journalImage x)).jrOverwrite.jrAdvance).retireTask x := by
  obtain ⟨he, hs, hf, hb, hn⟩ := ho
  unfold appendJournal
  rw [hx]
  exact (if_neg (not_not_intro hp)).trans ((if_neg (by rw [he]; decide)).trans ((if_neg (by rw [hs]; decide)).trans
    (if_neg (by rw [hb, hn]; rcases hf with hf | hf <;> simp [hf]))))

/-- The record is in its slot, and TAIL has moved on. -/
theorem State.journalWritten_spec (s : State) (c : MemCond) (a : Nat) (bs : List Byte) :
    ∃ u, ((s.noteCorrected a c).writeMem a bs).jrOverwrite.jrAdvance = u ∧ u.readMem a bs.length = bs ∧ s.sameMemBut u a bs.length ∧
      u.jrTail = (s.jrTail + 1) % s.jrRecords % 2 ^ 20 := by
  obtain ⟨⟨r, n, hnote⟩, hregs⟩ := s.noteCorrected_spec a c
  have htail := hregs R.jrTail (by decide)
  have hcfg := hregs R.jrCfg (by decide)
  rw [hnote] at htail hcfg ⊢
  have hread := State.readMem_writeMem_self { s with regs := r, now := n } a bs
  have hbut := State.sameMemBut_writeMem { s with regs := r, now := n } a bs
  have hwt : (({ s with regs := r, now := n } : State).writeMem a bs).reg R.jrTail = s.reg R.jrTail := htail
  have hwc : (({ s with regs := r, now := n } : State).writeMem a bs).reg R.jrCfg = s.reg R.jrCfg := hcfg
  generalize ({ s with regs := r, now := n } : State).writeMem a bs = u at hread hbut hwt hwc ⊢
  obtain ⟨⟨r1, n1, ho⟩, hot, hoc⟩ := u.jrOverwrite_spec
  obtain ⟨⟨r2, ha⟩, hat⟩ := u.jrOverwrite.jrAdvance_spec
  refine ⟨_, rfl, ?_, fun x hx => ?_, hat.trans ?_⟩
  · rw [ha, ho]
    exact hread
  · rw [ha, ho]
    exact hbut x hx
  · rw [show u.jrOverwrite.jrTail = s.jrTail from State.fld_congr (hot.trans hwt) 0 20,
      show u.jrOverwrite.jrRecords = s.jrRecords from congrArg (fun x => 2 ^ (x + 6)) (State.fld_congr (hoc.trans hwc) 0 4)]

theorem State.readMem_of_sameMem {s t : State} (h : s.sameMem t) (a n : Nat) : t.readMem a n = s.readMem a n :=
  List.map_congr_left fun i _ => h (a + i)

/-! JR_CFG. -/

/-- What a write of JR_CFG first does: BAD stays or is cleared. -/
def State.jrFlags (s : State) (v : Word) : State :=
  s.setBit R.jrCfg 29 (s.bit R.jrCfg 29 && (decide (getField v 29 1 = 0) || decide (getField (s.setNow R.jrCfg) 29 1 = 1)))

theorem State.jrFlags_spec (s : State) (v : Word) : s.setsRegs (s.jrFlags v) [R.jrCfg] ∧ (s.jrFlags v).jrEn = s.jrEn ∧
    (s.jrFlags v).jrFull = s.jrFull := by
  have h : s.setsRegs (s.jrFlags v) [R.jrCfg] := s.setsRegs_setBit _ _ _
  have hrec : (s.jrFlags v).jrRecords = s.jrRecords := congrArg (fun x => 2 ^ (x + 6)) (s.fld_setBit_other R.jrCfg 29 0 4 _ (by decide))
  refine ⟨h, s.bit_setBit_other R.jrCfg 29 31 _ (by decide), ?_⟩
  unfold State.jrFull
  rw [hrec, show (s.jrFlags v).jrTail = s.jrTail from State.fld_congr (h.2 _ (by decide)) 0 20,
    show (s.jrFlags v).jrHead = s.jrHead from State.fld_congr (h.2 _ (by decide)) 0 20]

/-- A write of JR_CFG at a disabled journal also sets its size and WRAP. -/
def State.jrSizes (s : State) (v : Word) : State :=
  ((s.jrFlags v).setFld R.jrCfg 0 4 (getField v 0 4)).setFld R.jrCfg 30 1 (getField v 30 1)

theorem State.jrSizes_spec (s : State) (v : Word) : s.setsRegs (s.jrSizes v) [R.jrCfg] ∧ (s.jrSizes v).jrEn = s.jrEn ∧
    (s.jrSizes v).fld R.jrCfg 0 4 = getField v 0 4 ∧ (s.jrSizes v).fld R.jrCfg 30 1 = getField v 30 1 := by
  obtain ⟨h, he, -⟩ := s.jrFlags_spec v
  refine ⟨h.trans ((State.setsRegs_setFld _ _ _ _ _).trans (State.setsRegs_setFld _ _ _ _ _)), ?_, ?_, ?_⟩
  · exact ((State.bit_setFld_other _ _ _ _ _ _ (by decide)).trans (State.bit_setFld_other _ _ _ _ _ _ (by decide))).trans he
  · exact (State.fld_setFld_other _ _ _ _ _ _ _ (by decide)).trans ((State.fld_setFld_self _ _ _ _ _ (by decide)).trans
      (Nat.mod_eq_of_lt (getField_lt v 0 4)))
  · exact (State.fld_setFld_self _ _ _ _ _ (by decide)).trans (Nat.mod_eq_of_lt (getField_lt v 30 1))

/-- The journal starts, empty. -/
def State.jrStart (s : State) : State := (((s.setBit R.jrCfg 31 true).setBit R.jrCfg 28 false).setReg R.jrTail 0x80000000).setReg R.jrHead 0

theorem State.jrStart_spec (s : State) : s.setsRegs s.jrStart [R.jrCfg, R.jrTail, R.jrHead] ∧ s.jrStart.jrEn = true ∧
    s.jrStart.jrStopped = false ∧ s.jrStart.jrTail = 0 ∧ s.jrStart.jrHead = 0 ∧ s.jrStart.jrPhase = true ∧
    s.jrStart.fld R.jrCfg 0 4 = s.fld R.jrCfg 0 4 ∧ s.jrStart.fld R.jrCfg 30 1 = s.fld R.jrCfg 30 1 := by
  obtain ⟨hht, hct, hch, -⟩ := jrRegs_ne
  have hset := (s.setsRegs_setBit R.jrCfg 31 true).trans (State.setsRegs_setBit _ R.jrCfg 28 false)
  have hen : ((s.setBit R.jrCfg 31 true).setBit R.jrCfg 28 false).jrEn = true :=
    (State.bit_setBit_other _ _ _ _ _ (by decide)).trans (State.bit_setBit_self _ _ _ _ (by decide))
  have hstop : ((s.setBit R.jrCfg 31 true).setBit R.jrCfg 28 false).jrStopped = false := State.bit_setBit_self _ _ _ _ (by decide)
  have hfld (lo n : Nat) (h : 31 < lo ∨ lo + n ≤ 31) (h' : 28 < lo ∨ lo + n ≤ 28) :
      ((s.setBit R.jrCfg 31 true).setBit R.jrCfg 28 false).fld R.jrCfg lo n = s.fld R.jrCfg lo n :=
    (State.fld_setBit_other _ _ _ _ _ _ h').trans (State.fld_setBit_other _ _ _ _ _ _ h)
  have hsize := hfld 0 4 (by decide) (by decide)
  have hwrap : ((s.setBit R.jrCfg 31 true).setBit R.jrCfg 28 false).fld R.jrCfg 30 1 = s.fld R.jrCfg 30 1 :=
    hfld 30 1 (by decide) (by decide)
  unfold State.jrStart
  generalize (s.setBit R.jrCfg 31 true).setBit R.jrCfg 28 false = u at hset hen hstop hsize hwrap ⊢
  have ht := (u.setReg R.jrTail 0x80000000).reg_setReg_ne (0 : Word) hht.symm
  have ht' := u.reg_setReg_self R.jrTail 0x80000000
  have hh := (u.setReg R.jrTail 0x80000000).reg_setReg_self R.jrHead 0
  have hc := ((u.setReg R.jrTail 0x80000000).reg_setReg_ne (0 : Word) hch).trans (u.reg_setReg_ne 0x80000000 hct)
  have h2 := (u.setsRegs_setReg R.jrTail 0x80000000).mono (k := [R.jrCfg, R.jrTail, R.jrHead]) (by simp)
  have h3 := ((u.setReg R.jrTail 0x80000000).setsRegs_setReg R.jrHead 0).mono (k := [R.jrCfg, R.jrTail, R.jrHead]) (by simp)
  have hall := (hset.mono (k := [R.jrCfg, R.jrTail, R.jrHead]) (by simp)).trans (h2.trans h3)
  generalize (u.setReg R.jrTail 0x80000000).setReg R.jrHead 0 = w at ht hh hc hall ⊢
  exact ⟨hall, (State.bit_congr hc 31).trans hen, (State.bit_congr hc 28).trans hstop,
    (congrArg (fun x => getField x 0 20) (ht.trans ht')).trans (by decide), (congrArg (fun x => getField x 0 20) hh).trans (by decide),
    (congrArg (fun x => decide (getField x 31 1 = 1)) (ht.trans ht')).trans (by decide), (State.fld_congr hc 0 4).trans hsize,
    (State.fld_congr hc 30 1).trans hwrap⟩

theorem writeJrCfg_of_disabled {s : State} {v : Word} (he : s.jrEn = false) (hv : getField v 31 1 = 1) : writeJrCfg v s =
    if 14 < getField v 0 4 ∨ inTier (s.reg64 R.jrBaseLo) (64 * 2 ^ (getField v 0 4 + 6)) = false then (s.jrSizes v).hwSet R.jrCfg 29
    else (s.jrSizes v).jrStart :=
  (if_neg (by simp [he])).trans (if_neg (by omega))

theorem writeJrCfg_of_enabled {s : State} {v : Word} (he : s.jrEn = true) (hv : getField v 31 1 = 0) :
    writeJrCfg v s = (s.jrFlags v).releaseJournal.setBit R.jrCfg 31 false :=
  (if_pos he).trans (if_neg (by omega))

theorem State.releaseJournal_sameMem (s : State) : s.sameMem s.releaseJournal := by
  unfold State.releaseJournal
  split
  · exact List.foldlRecOn (motive := fun u : State => s.sameMem u) _ _ (fun _ => rfl) fun u hu x _ =>
      hu.trans (u.retireTask_spec x).2.1
  · exact fun _ => rfl

theorem State.releaseJournal_of_room {s : State} (h : s.jrFull = false) : s.releaseJournal = s := if_neg (by simp [h])

theorem State.jrEn_hwSet (s : State) {i : Nat} (h : i ≠ 31) : (s.hwSet R.jrCfg i).jrEn = s.jrEn :=
  s.bit_setBit_other R.jrCfg i 31 true h

/-- Settles O37. -/
theorem journal : Obligations.Journal := by
  unfold Obligations.Journal
  refine ⟨fun ref s x c hx hp => ⟨fun he => ?_, fun he hs => ?_, fun ho hv => ?_, fun st ho hv => ?_⟩, fun src v s hw he hv => ?_,
    fun src v s hw he hv => ?_⟩
  · obtain rfl : x.ref = ref := State.ref_of_task hx
    obtain ⟨hn, hm, -⟩ := s.retireTask_spec x
    exact ⟨_, congrArg Host.Outcome.next (appendJournal_of_off c hx hp he), hn, hm⟩
  · obtain rfl : x.ref = ref := State.ref_of_task hx
    obtain ⟨hn, hm, hr⟩ := (s.bump R.jrDropped 1).retireTask_spec x
    exact ⟨_, congrArg Host.Outcome.next (appendJournal_of_stopped c hx hp he hs), hn, hm, (hr _ (by decide)).trans (s.reg_bump_self _ _)⟩
  · obtain rfl : x.ref = ref := State.ref_of_task hx
    have hact := appendJournal_of_open c hx hp ho
    rw [hv] at hact
    obtain ⟨u, hu, hread, hbut, htail⟩ := s.journalWritten_spec (writeCond s.jrSlot 64 c) s.jrSlot (s.journalImage x)
    obtain ⟨hn, hm, hr⟩ := u.retireTask_spec x
    exact ⟨_, congrArg Host.Outcome.next (hact.trans (by rw [hu])), hn, (State.readMem_of_sameMem hm _ _).trans hread,
      fun a ha => (hm a).trans (hbut a ha), (State.fld_congr (hr _ (by decide)) 0 20).trans htail⟩
  · obtain rfl : x.ref = ref := State.ref_of_task hx
    have hact := appendJournal_of_open c hx hp ho
    rw [hv] at hact
    obtain ⟨⟨r, hs⟩, hstop, herr, ht⟩ := (s.memRefusal st s.jrSlot none).jrStop_spec st
    have hsame : s.sameMem ((s.memRefusal st s.jrSlot none).jrStop st) := by
      rw [hs]
      exact s.sameMem_memRefusal st s.jrSlot none
    have htail := ht.trans (s.memRefusal_jr st s.jrSlot (by decide))
    obtain ⟨hn, hm, hr⟩ := ((s.memRefusal st s.jrSlot none).jrStop st).retireTask_spec x
    exact ⟨_, congrArg Host.Outcome.next hact, hn, hsame.trans hm, (State.bit_congr (hr _ (by decide)) 28).trans hstop,
      (State.fld_congr (hr _ (by decide)) 16 16).trans herr, (State.fld_congr ((hr _ (by decide)).trans htail) 0 20)⟩
  · have hact : exec (.journalEnable src v) s = .next (writeJrCfg v s) := State.regWrite_of_takesWrite hw v _
    rw [writeJrCfg_of_disabled he hv] at hact
    obtain ⟨hset, hen, hsize, hwrap⟩ := s.jrSizes_spec v
    refine ⟨fun hl ht => ?_, fun hbad => ?_⟩
    · rw [if_neg (by rw [ht]; simp; omega)] at hact
      obtain ⟨hs, h1, h2, h3, h4, h5, h6, h7⟩ := (s.jrSizes v).jrStart_spec
      exact ⟨_, hact, h1, h2, h3, h4, h5, h6.trans hsize, h7.trans hwrap, ((hset.mono (by simp)).trans hs).onlyRegs⟩
    · rw [if_pos hbad] at hact
      exact ⟨_, hact, (State.jrEn_hwSet _ (by decide)).trans (hen.trans he),
        State.bit_hwSet_self _ _ _ (by decide), hset.hwSet (by simp) 29⟩
  · obtain ⟨hset, hen, hfull⟩ := s.jrFlags_spec v
    refine ⟨_, (State.regWrite_of_takesWrite hw v _).trans (congrArg Host.Outcome.next (writeJrCfg_of_enabled he hv)),
      State.bit_setBit_self _ _ _ _ (by decide), ?_, fun hroom => ?_⟩
    · have hflags : s.sameMem (s.jrFlags v) := fun _ => rfl
      exact hflags.trans ((s.jrFlags v).releaseJournal_sameMem.trans (fun _ => rfl))
    · rw [State.releaseJournal_of_room (hfull.trans hroom)]
      exact (hset.trans (State.setsRegs_setBit _ _ _ _)).onlyRegs

end Sys2Proof.Machine
end

section
/-!
### Dispatch (R16, R74)
-/
namespace Sys2Proof.Machine

/-! The ranking. -/

theorem mem_insertRank {t x : Task} {l : List Task} : x ∈ insertRank t l ↔ x = t ∨ x ∈ l := by
  induction l with
  | nil => simp [insertRank]
  | cons u l ih =>
    unfold insertRank
    split
    · simp
    · simp only [List.mem_cons, ih]
      exact or_left_comm

theorem mem_foldl_insertRank {x : Task} (l m : List Task) :
    x ∈ l.foldl (fun k t => insertRank t k) m ↔ x ∈ l ∨ x ∈ m := by
  induction l generalizing m with
  | nil => simp
  | cons u l ih =>
    rw [List.foldl_cons, ih, mem_insertRank, List.mem_cons]
    exact or_left_comm.trans or_assoc.symm

theorem State.queued_of_candidate {s : State} {x : Task} (h : x ∈ s.candidates) : x.phase = .queued := by
  have hx := (mem_foldl_insertRank _ _).mp h
  simp only [List.not_mem_nil, or_false, List.mem_filter, Bool.and_eq_true, decide_eq_true_eq] at hx
  exact hx.2.1.1.1

/-! The turn of each candidate. -/

/-- What the search for the task to dispatch finds at a candidate. -/
def State.turnOf (s : State) (t : Task) : Option (Task × Grant) :=
  match s.grantFor t with
  | .hold => none
  | g => some (t, g)

theorem State.turnOf_of_hold {s : State} {t : Task} (h : s.grantFor t = .hold) : s.turnOf t = none := by
  unfold State.turnOf
  rw [h]

theorem State.turnOf_of_go {s : State} {t : Task} {c : Claim} (h : s.grantFor t = .go c) : s.turnOf t = some (t, .go c) := by
  unfold State.turnOf
  rw [h]

theorem State.turnOf_of_fail {s : State} {t : Task} {st : Status} (h : s.grantFor t = .fail st) : s.turnOf t = some (t, .fail st) := by
  unfold State.turnOf
  rw [h]

/-- What the first candidate that is not held meets. -/
def State.takeTurn (s : State) : Option (Task × Grant) → State
  | some (t, .go c) => s.noteDispatch.start t c
  | some (t, .fail st) => s.failTask t.ref st
  | _ => s

theorem dispatchOne_eq (s : State) : dispatchOne s = if s.now.dispatched then s else s.takeTurn (s.candidates.findSome? s.turnOf) := rfl

theorem State.findSome_turnOf {s : State} {pre post : List Task} {x : Task} {g : Task × Grant}
    (hpre : ∀ y, y ∈ pre → s.grantFor y = .hold) (hx : s.turnOf x = some g) : (pre ++ x :: post).findSome? s.turnOf = some g := by
  have hnone : pre.findSome? s.turnOf = none := List.findSome?_eq_none_iff.mpr fun y hy => State.turnOf_of_hold (hpre y hy)
  rw [List.findSome?_append, hnone, List.findSome?_cons, hx]
  rfl

/-! The units of a claim. -/

/-- The engine of a claim names its task. -/
def State.takeEngine (s : State) (t : Task) (l : Option (Fin 68)) : State :=
  match l with
  | none => s
  | some e => (((s.setFld (R.engStatus e) 27 3 (4 + boolBit (entrySession t.entry) * 2 +
      boolBit (t.fillBind.isSome || t.drainBind.isSome))).setReg (R.engTaskSq e) (BitVec.ofNat 32 t.ref.sq)).setReg
        (R.engTaskIndex e) (BitVec.ofNat 32 t.ref.index))

/-- The busy bit of another unit is set. -/
def State.takeUnit {α : Type} (s : State) (off : Nat) (f : α → Nat) (l : Option α) : State :=
  match l with
  | none => s
  | some n => s.setBit off (f n) true

/-- The units of the reorder buffer are taken. -/
def State.takeRob (s : State) (n : Nat) : State := s.setFld R.rdRobUsed 0 9 (s.fld R.rdRobUsed 0 9 + n)

theorem State.takeClaim_eq (s : State) (t : Task) (c : Claim) : s.takeClaim t c =
    ((((s.takeEngine t c.engine).takeUnit R.rdLaneBusy Fin.val c.lane).takeUnit R.cxExpBusy id c.expander).takeUnit R.cxCompBusy id
      c.compressor).takeRob c.rob := by
  unfold State.takeClaim
  cases c.engine <;> cases c.lane <;> cases c.expander <;> cases c.compressor <;> simp only [State.takeEngine, State.takeUnit,
    State.takeRob, id]

theorem State.setsRegs_takeUnit {α : Type} (s : State) (off : Nat) (f : α → Nat) (l : Option α) : s.setsRegs (s.takeUnit off f l) [off] := by
  cases l with
  | none => exact .refl s _
  | some n => exact s.setsRegs_setBit off (f n) true

theorem engRegs_ne (e : Fin 68) : R.engStatus e ≠ R.engTaskSq e ∧ R.engStatus e ≠ R.engTaskIndex e ∧ R.engTaskSq e ≠ R.engTaskIndex e := by
  simp only [R.engStatus, R.engTaskSq, R.engTaskIndex]
  omega

theorem busyBit (a b : Bool) : (4 + boolBit a * 2 + boolBit b) % 2 ^ 3 / 2 ^ 2 % 2 = 1 := by
  cases a <;> cases b <;> rfl

theorem getField_high (w : Word) : getField w 29 1 = getField w 27 3 / 2 ^ 2 % 2 := by
  unfold getField
  omega

/-- An engine that works for a task. -/
def State.engineOf (s : State) (e : Fin 68) (r : TaskRef) : Prop :=
  s.bit (R.engStatus e) 29 = true ∧ s.reg (R.engTaskSq e) = BitVec.ofNat 32 r.sq ∧ s.reg (R.engTaskIndex e) = BitVec.ofNat 32 r.index

theorem State.engineOf_congr {s t : State} {e : Fin 68} {r : TaskRef} (h : ∀ o, 0x300000 ≤ o → o < 0x380000 → t.reg o = s.reg o)
    (k : s.engineOf e r) : t.engineOf e r := by
  have he := e.isLt
  obtain ⟨h1, h2, h3⟩ := k
  refine ⟨(State.bit_congr (h _ ?_ ?_) 29).trans h1, (h _ ?_ ?_).trans h2, (h _ ?_ ?_).trans h3⟩
  all_goals
    simp only [R.engStatus, R.engTaskSq, R.engTaskIndex]
    omega

theorem State.takeEngine_spec (s : State) (t : Task) (l : Option (Fin 68)) : (∃ r, s.takeEngine t l = { s with regs := r }) ∧
    ∀ e, l = some e → (s.takeEngine t l).engineOf e t.ref := by
  cases l with
  | none => exact ⟨⟨_, rfl⟩, fun _ h => nomatch h⟩
  | some e =>
    obtain ⟨h1, h2, h3⟩ := engRegs_ne e
    have hbit : (s.setFld (R.engStatus e) 27 3 (4 + boolBit (entrySession t.entry) * 2 +
        boolBit (t.fillBind.isSome || t.drainBind.isSome))).bit (R.engStatus e) 29 = true := by
      have hfld := s.fld_setFld_self (R.engStatus e) 27 3 (4 + boolBit (entrySession t.entry) * 2 +
        boolBit (t.fillBind.isSome || t.drainBind.isSome)) (by decide)
      exact decide_eq_true ((getField_high _).trans ((congrArg (fun n => n / 2 ^ 2 % 2) hfld).trans (busyBit _ _)))
    obtain ⟨r, hr⟩ := s.setFld_shape (R.engStatus e) 27 3 (4 + boolBit (entrySession t.entry) * 2 +
        boolBit (t.fillBind.isSome || t.drainBind.isSome))
    unfold State.takeEngine
    dsimp only
    rw [hr] at hbit ⊢
    generalize hu : ({ s with regs := r } : State) = u at hbit ⊢
    have hi := (u.setReg (R.engTaskSq e) (BitVec.ofNat 32 t.ref.sq)).reg_setReg_self (R.engTaskIndex e) (BitVec.ofNat 32 t.ref.index)
    have hs := ((u.setReg (R.engTaskSq e) (BitVec.ofNat 32 t.ref.sq)).reg_setReg_ne (BitVec.ofNat 32 t.ref.index) h3).trans
      (u.reg_setReg_self (R.engTaskSq e) (BitVec.ofNat 32 t.ref.sq))
    have hst := ((u.setReg (R.engTaskSq e) (BitVec.ofNat 32 t.ref.sq)).reg_setReg_ne (BitVec.ofNat 32 t.ref.index) h2).trans
      (u.reg_setReg_ne (BitVec.ofNat 32 t.ref.sq) h1)
    obtain ⟨r', hr'⟩ := ((u.setsRegs_setReg (R.engTaskSq e) (BitVec.ofNat 32 t.ref.sq)).mono
      (k := [R.engTaskSq e, R.engTaskIndex e]) (by simp)).trans ((State.setsRegs_setReg _ (R.engTaskIndex e)
        (BitVec.ofNat 32 t.ref.index)).mono (by simp)) |>.1
    generalize (u.setReg (R.engTaskSq e) (BitVec.ofNat 32 t.ref.sq)).setReg (R.engTaskIndex e) (BitVec.ofNat 32 t.ref.index) = w
      at hi hs hst hr' ⊢
    refine ⟨⟨r', by rw [hr', ← hu]⟩, fun e' he => ?_⟩
    obtain rfl := Option.some.inj he
    exact ⟨(State.bit_congr hst 29).trans hbit, hs, hi⟩

theorem State.takeClaim_spec (s : State) (t : Task) (c : Claim) : (∃ r, s.takeClaim t c = { s with regs := r }) ∧
    ∀ e, c.engine = some e → (s.takeClaim t c).engineOf e t.ref := by
  obtain ⟨⟨r, hr⟩, he⟩ := s.takeEngine_spec t c.engine
  rw [s.takeClaim_eq]
  generalize s.takeEngine t c.engine = u at hr he ⊢
  have hset : u.setsRegs ((((u.takeUnit R.rdLaneBusy Fin.val c.lane).takeUnit R.cxExpBusy id c.expander).takeUnit R.cxCompBusy id
      c.compressor).takeRob c.rob) [R.rdLaneBusy, R.cxExpBusy, R.cxCompBusy, R.rdRobUsed] :=
    ((u.setsRegs_takeUnit _ _ _).mono (by simp)).trans (((State.setsRegs_takeUnit _ _ _ _).mono (by simp)).trans
      (((State.setsRegs_takeUnit _ _ _ _).mono (by simp)).trans ((State.setsRegs_setFld _ _ _ _ _).mono (by simp))))
  obtain ⟨⟨r', hr'⟩, hregs⟩ := hset
  refine ⟨⟨r', by rw [hr', hr]⟩, fun e h => State.engineOf_congr (fun o _ ho => hregs o ?_) (he e h)⟩
  simp only [List.mem_cons, List.not_mem_nil, or_false, R.rdLaneBusy, R.cxExpBusy, R.cxCompBusy, R.rdRobUsed]
  omega

/-! A task starts. -/

/-- A task that has its units. -/
def State.startTask (s : State) (x : Task) (c : Claim) : Task :=
  { x with phase := .running, tDispatch := s.gtc, engine := c.engine, lane := c.lane, expander := c.expander,
           compressor := c.compressor, robUnits := c.rob, freeBase := s.freeCtr, coll := { x.coll with seqNo := (s.takeSeq x).1 } }

/-- The task in the block, with its units and its aperture. -/
def State.begin (s : State) (x : Task) (c : Claim) : State :=
  let u := (((s.takeSeq x).2.takeClaim x c).stepFree).putTask (s.startTask x c)
  if entryApt x.entry then u.putAperture (entryAperture x.entry) (some x.ref) else u

theorem State.start_eq (s : State) (x : Task) (c : Claim) : s.start x c =
    if entryOpcode x.entry = 0x05 ∧ (x.group s.node).any s.deadNode then (s.begin x c).failTask x.ref St.deadDestination
    else if x.coll.announced.any (fun a => decide (a ≠ (s.startTask x c).announcement s.node)) then
      (s.begin x c).failTask x.ref St.mismatch
    else ((s.begin x c).exchange x.ref).settle x.ref := rfl

theorem State.takeSeq_shape (s : State) (x : Task) : ∃ l, (s.takeSeq x).2 = { s with ctagSeq := l } := by
  unfold State.takeSeq
  split
  · exact ⟨_, rfl⟩
  · exact ⟨_, rfl⟩

/-- The block, with a task of it dispatched. -/
theorem State.begin_spec {s : State} {x : Task} (hx : s.task x.ref = some x) (c : Claim) :
    (s.begin x c).task x.ref = some (s.startTask x c) ∧ s.tasksBut (s.begin x c) x.ref ∧ (s.begin x c).now = s.now ∧
      ∀ e, c.engine = some e → (s.begin x c).engineOf e x.ref := by
  obtain ⟨l, hl⟩ := s.takeSeq_shape x
  obtain ⟨⟨r, hr⟩, he⟩ := (s.takeSeq x).2.takeClaim_spec x c
  rw [hl] at hr he
  have hput : (((s.takeSeq x).2.takeClaim x c).stepFree.putTask (s.startTask x c)).task x.ref = some (s.startTask x c) := by
    rw [hl, hr]
    exact State.task_putTask_self (s := State.stepFree { s with ctagSeq := l, regs := r }) hx rfl
  have hbut : s.tasksBut (((s.takeSeq x).2.takeClaim x c).stepFree.putTask (s.startTask x c)) x.ref := by
    rw [hl, hr]
    exact State.tasksBut_putTask (State.stepFree { s with ctagSeq := l, regs := r }) (s.startTask x c)
  have hnow : (((s.takeSeq x).2.takeClaim x c).stepFree.putTask (s.startTask x c)).now = s.now := by
    rw [hl, hr]
    rfl
  have heng (e : Fin 68) (h : c.engine = some e) :
      (((s.takeSeq x).2.takeClaim x c).stepFree.putTask (s.startTask x c)).engineOf e x.ref := by
    rw [hl]
    exact he e h
  unfold State.begin
  dsimp only
  generalize ((s.takeSeq x).2.takeClaim x c).stepFree.putTask (s.startTask x c) = u at hput hbut hnow heng ⊢
  split
  · exact ⟨hput, hbut, hnow, heng⟩
  · exact ⟨hput, hbut, hnow, heng⟩

/-- What a task that has begun may still come to in its core cycle: its units and its dispatch stay. -/
structure Task.Begins (x y : Task) : Prop where
  entry : y.entry = x.entry
  dispatched : y.tDispatch = x.tDispatch
  units : y.engine = x.engine ∧ y.lane = x.lane ∧ y.expander = x.expander ∧ y.compressor = x.compressor ∧ y.robUnits = x.robUnits
  phase : y.phase ≠ .queued

theorem Task.Proceeds.begins {x y : Task} (h : x.Proceeds y) : x.Begins y := by
  have hf := h.frame
  refine ⟨by rw [hf], by rw [hf], ⟨by rw [hf], by rw [hf], by rw [hf], by rw [hf], by rw [hf]⟩, ?_⟩
  obtain hp | ⟨hp, -⟩ := h.phase
  · rw [hp]
    decide
  · rw [hp]
    decide

theorem Task.FailsWith.begins {x y : Task} {st : Status} (h : x.FailsWith y st) : x.Begins y := by
  obtain ⟨hf, hp⟩ := h
  refine ⟨by rw [hf], by rw [hf], ⟨by rw [hf], by rw [hf], by rw [hf], by rw [hf], by rw [hf]⟩, ?_⟩
  obtain hp | hp := hp
  · rw [hp]
    decide
  · rw [hp]
    decide

theorem State.exchange_moves {s : State} {r : TaskRef} {x : Task} (hx : s.task r = some x) (hp : x.phase = .running) :
    ∃ y, s.Moves (s.exchange r) r x y ∧ y.phase = .running := by
  obtain ⟨y, h, hy⟩ := State.grantCredits_moves hx hp
  obtain ⟨z, k, hz⟩ := State.noteReady_moves h.2.1 hy
  exact ⟨z, h.trans k, hz⟩

/-- The end of a task's dispatch: it has begun, and runs on where no announcement stood against it. -/
theorem State.start_spec {s : State} {x : Task} (hx : s.task x.ref = some x) (c : Claim) :
    ∃ y, (s.begin x c).Works (s.start x c) x.ref ∧ (s.start x c).task x.ref = some y ∧ (s.startTask x c).Begins y ∧
      (isQueueTask (entryOpcode x.entry) = true → x.coll.announced = [] → y.phase = .running) := by
  obtain ⟨hb, -⟩ := s.begin_spec hx c
  rw [s.start_eq]
  have hfail (st : Status) := State.failTask_of_running hb rfl st
  split
  next hdead =>
    obtain ⟨hw, y, hy, hf⟩ := hfail St.deadDestination
    exact ⟨y, hw, hy, hf.begins, fun hq => by rw [hdead.1] at hq; exact absurd hq (by decide)⟩
  · split
    next hm =>
      obtain ⟨hw, y, hy, hf⟩ := hfail St.mismatch
      exact ⟨y, hw, hy, hf.begins, fun _ hn => by rw [hn] at hm; exact absurd hm Bool.false_ne_true⟩
    next =>
      obtain ⟨z, hz, hzp⟩ := State.exchange_moves hb rfl
      obtain ⟨y, hy⟩ := State.settle_moves hz.2.1 hzp
      obtain ⟨hw, hty, hpr, -⟩ := hz.trans hy
      exact ⟨y, hw, hty, hpr.begins, fun hq _ => hpr.queueTask hq⟩

theorem workReg_eng {o : Nat} (h : 0x300000 ≤ o) (h' : o < 0x380000) : workReg o = false :=
  workReg_eq_false (by omega) (by simp only [R.tuRangesFree]; omega) (by omega) (by omega)

/-- Settles O30. -/
theorem dispatchByRank : Obligations.DispatchByRank := by
  unfold Obligations.DispatchByRank
  refine ⟨fun s pre post x hn hc hpre hx => ⟨fun c hg => ?_, fun st hg => ?_⟩, fun s h => congrArg Host.Outcome.next ?_⟩
  · have hact : dispatchOne s = s.noteDispatch.start x c := by
      rw [dispatchOne_eq, hn, hc, State.findSome_turnOf hpre (State.turnOf_of_go hg)]
      rfl
    have hx' : s.noteDispatch.task x.ref = some x := hx
    obtain ⟨-, hbut, hnow, heng⟩ := State.begin_spec hx' c
    obtain ⟨y, hw, hy, hbegin, hrun⟩ := State.start_spec hx' c
    obtain ⟨h1, h2, h3, h4, h5⟩ := hbegin.units
    exact ⟨_, y, congrArg Host.Outcome.next hact, hy, hbegin.entry, hbegin.phase, hbegin.dispatched, h1, h2, h3, h4, h5,
      hw.around.dispatched.trans (congrArg (fun n => n.dispatched) hnow), fun r hr => (hw.others r hr).trans (hbut r hr), hrun,
      fun e he => State.engineOf_congr (fun o h h' => hw.around.regs o (workReg_eng h h')) (heng e he)⟩
  · have hact : dispatchOne s = s.failTask x.ref st := by
      rw [dispatchOne_eq, hn, hc, State.findSome_turnOf hpre (State.turnOf_of_fail hg)]
      rfl
    have hq : x.phase = .queued := State.queued_of_candidate (by rw [hc]; simp)
    obtain ⟨ht, hy⟩ := State.failTask_of_undispatched hx (by rw [hq]; rfl) st
    exact ⟨_, _, congrArg Host.Outcome.next hact, hy, rfl, rfl, rfl, ht.others, ht.beside.sameMem⟩
  · rw [dispatchOne_eq]
    obtain h | h := h
    · exact if_pos h
    · rw [List.findSome?_eq_none_iff.mpr fun y hy => State.turnOf_of_hold (h y hy)]
      exact ite_self s

end Sys2Proof.Machine
end

section
/-!
### Control of the fabric endpoint (R260, R276, R405)
-/
namespace Sys2Proof.Machine

theorem feRegs_ne : R.feCtl ≠ R.feStatus ∧ R.feCtl ≠ R.feIncarnLo ∧ R.feCtl ≠ R.feIncarnLo + 4 ∧ R.feStatus ≠ R.feIncarnLo ∧
    R.feStatus ≠ R.feIncarnLo + 4 := by
  decide

theorem State.peer_putPeer_self (s : State) (n : Nat) (x : PeerRun) : (s.putPeer n x).peer n = x := sget_sset_self _ _ _ _

theorem State.peer_putPeer_ne (s : State) {n k : Nat} (x : PeerRun) (h : k ≠ n) : (s.putPeer n x).peer k = s.peer k :=
  sget_sset_ne _ _ _ h

theorem feReg_not_post {o : Nat} (h : o < 0x500010) : ¬ postReg o := by
  rintro (h' | ⟨k, hk, h' | h' | h' | h'⟩) <;>
    simp only [R.feDeadRefused, R.tcFailed, R.spStatus, R.spErrNum, R.spFailed] at h' <;> omega

/-! The endpoint starts. -/

/-- The registers of an endpoint that starts: EN, the incarnation, ACTIVE. -/
def State.feRegs (s : State) : State := ((s.setBit R.feCtl 31 true).setReg64 R.feIncarnLo s.gtc).setBit R.feStatus 0 true

theorem State.feRegs_spec (s : State) : s.setsRegs s.feRegs [R.feCtl, R.feIncarnLo, R.feIncarnLo + 4, R.feStatus] ∧
    s.feRegs.feEnabled = true ∧ s.feRegs.feActive = true ∧ s.feRegs.reg64 R.feIncarnLo = s.gtc := by
  obtain ⟨hcs, hci, hci', hsi, hsi'⟩ := feRegs_ne
  have hen := s.bit_setBit_self R.feCtl 31 true (by decide)
  have h1 := (s.setsRegs_setBit R.feCtl 31 true).mono (k := [R.feCtl, R.feIncarnLo, R.feIncarnLo + 4, R.feStatus]) (by simp)
  have hgtc : s.gtc < 2 ^ 64 := by
    have hl := (s.reg R.gtcLo).isLt
    have hh := (s.reg (R.gtcLo + 4)).isLt
    unfold State.gtc State.reg64
    omega
  unfold State.feRegs
  generalize s.gtc = g at hgtc ⊢
  generalize s.setBit R.feCtl 31 true = u at hen h1 ⊢
  have hg := (u.reg64_setReg64 R.feIncarnLo g).trans (Nat.mod_eq_of_lt hgtc)
  have hc := u.reg_setReg64_ne g hci hci'
  have h2 : u.setsRegs (u.setReg64 R.feIncarnLo g) [R.feCtl, R.feIncarnLo, R.feIncarnLo + 4, R.feStatus] :=
    ((u.setsRegs_setReg R.feIncarnLo _).mono (by simp)).trans ((State.setsRegs_setReg _ (R.feIncarnLo + 4) _).mono (by simp))
  generalize u.setReg64 R.feIncarnLo g = v at hg hc h2 ⊢
  have h3 := (v.setsRegs_setBit R.feStatus 0 true).mono (k := [R.feCtl, R.feIncarnLo, R.feIncarnLo + 4, R.feStatus]) (by simp)
  refine ⟨(h1.trans h2).trans h3, ?_, v.bit_setBit_self R.feStatus 0 true (by decide), ?_⟩
  · exact (v.bit_setBit_ne 0 31 true hcs).trans ((State.bit_congr hc 31).trans hen)
  · exact (State.reg64_congr (v.reg_setBit_ne 0 true hsi.symm) (v.reg_setBit_ne 0 true hsi'.symm)).trans hg

/-- Every watched peer's wait for a heartbeat begins. -/
def State.watchPeers (s u : State) : State :=
  (List.range 1024).foldl (fun u n => if s.watched n then u.putPeer n { u.peer n with lastBeat := s.cycle } else u) u

theorem State.foldl_watch_spec (s u : State) (l : List Nat) :
    ∃ p, l.foldl (fun u n => if s.watched n then u.putPeer n { u.peer n with lastBeat := s.cycle } else u) u = { u with peers := p } ∧
      ∀ n, (n ∈ l ∧ s.watched n = true ∨ (u.peer n).lastBeat = s.cycle) → (sget peerDefault p n).lastBeat = s.cycle := by
  induction l generalizing u with
  | nil => exact ⟨_, rfl, fun n h => h.elim (fun h => absurd h.1 List.not_mem_nil) id⟩
  | cons k l ih =>
    rw [List.foldl_cons]
    split
    next hk =>
      obtain ⟨p, hp, hbeat⟩ := ih (u.putPeer k { u.peer k with lastBeat := s.cycle })
      refine ⟨p, hp, fun n hn => hbeat n ?_⟩
      by_cases h : n = k
      · exact .inr (by rw [h, State.peer_putPeer_self])
      · rw [State.peer_putPeer_ne _ _ h]
        exact hn.imp_left fun ⟨hm, hw⟩ => ⟨(List.mem_cons.mp hm).resolve_left h, hw⟩
    next hk =>
      obtain ⟨p, hp, hbeat⟩ := ih u
      refine ⟨p, hp, fun n hn => hbeat n (hn.imp_left fun ⟨hm, hw⟩ => ⟨(List.mem_cons.mp hm).resolve_left ?_, hw⟩)⟩
      rintro rfl
      exact hk hw

/-- The counts of messages start anew; the ports that a remap drains stay out of service. -/
def State.freshCounts (s : State) (now : Nat) : State :=
  { s with beatDue := now, msgSeq := [], draining := s.draining.filter (fun p => s.bit (R.feLaneStatus p) 0) }

theorem writeFeCtl_of_start {s : State} {v : Word} (hv : getField v 31 1 = 1) (he : s.feEnabled = false) :
    writeFeCtl v s = ((s.watchPeers s.feRegs).freshCounts s.cycle).requestCredits := by
  unfold writeFeCtl
  rw [hv, he]
  rfl

theorem State.freshCounts_requestCredits (s : State) (now : Nat) : ∃ t, (s.freshCounts now).requestCredits = t ∧
    (∀ o, ¬ postReg o → t.reg o = s.reg o) ∧ t.beatDue = now ∧ t.msgSeq = [] ∧
    t.draining = s.draining.filter (fun p => s.bit (R.feLaneStatus p) 0) ∧ t.peers = s.peers ∧ t.tasks = s.tasks ∧ s.sameMem t := by
  have h := (s.freshCounts now).requestCredits_posts
  have hregs := h.regs
  have hframe := h.frame
  generalize (s.freshCounts now).requestCredits = t at hregs hframe
  refine ⟨t, rfl, hregs, ?_, ?_, ?_, ?_, ?_, fun a => ?_⟩
  all_goals
    rw [hframe]
    rfl

theorem writeFeCtl_of_stop {s : State} {v : Word} (hv : getField v 31 1 = 0) (he : s.feEnabled = true) : writeFeCtl v s =
    if s.fabricIdle then (s.setBit R.feCtl 31 false).setBit R.feStatus 0 false
    else { s.setBit R.feCtl 31 false with draining := List.range 32 } := by
  unfold writeFeCtl
  rw [hv, he]
  rfl

/-! A port drains. -/

theorem State.moveLane_spec (s : State) (p : Nat) : s.setsRegs (s.moveLane p) [R.feLaneStatus p] ∧
    (s.bit (R.feLaneStatus p) 0 = false → (s.moveLane p).reg (R.feLaneStatus p) = s.reg (R.feLaneStatus p)) ∧
    (s.bit (R.feLaneStatus p) 0 = true → (s.moveLane p).fld (R.feLaneStatus p) (if s.bit (R.feLaneCtl p) 30 then 24 else 28) 4 =
      if s.fld (R.feLaneCtl p) 0 3 < 4 then 8 + s.fld (R.feLaneCtl p) 0 3 else 0) := by
  have hact : s.moveLane p = if s.bit (R.feLaneStatus p) 0 then
      s.setFld (R.feLaneStatus p) (if s.bit (R.feLaneCtl p) 30 then 24 else 28) 4
        (if s.fld (R.feLaneCtl p) 0 3 < 4 then 8 + s.fld (R.feLaneCtl p) 0 3 else 0)
      else s := by
    have hw : (if getField (s.reg (R.feLaneCtl p)) 30 1 = 1 then 24 else 28) = if s.bit (R.feLaneCtl p) 30 then 24 else 28 := by
      by_cases h : getField (s.reg (R.feLaneCtl p)) 30 1 = 1
      · rw [if_pos h, show s.bit (R.feLaneCtl p) 30 = true from decide_eq_true h]
        rfl
      · rw [if_neg h, show s.bit (R.feLaneCtl p) 30 = false from decide_eq_false h]
        rfl
    rw [← hw]
    rfl
  have hlane : (if s.fld (R.feLaneCtl p) 0 3 < 4 then 8 + s.fld (R.feLaneCtl p) 0 3 else 0) < 2 ^ 4 := by
    split <;> omega
  have hlo : (if s.bit (R.feLaneCtl p) 30 then 24 else 28) + 4 ≤ 32 := by
    split <;> decide
  rw [hact]
  split
  next h =>
    exact ⟨s.setsRegs_setFld _ _ _ _, fun hf => by rw [h] at hf; exact Bool.noConfusion hf,
      fun _ => (s.fld_setFld_self _ _ _ _ hlo).trans (Nat.mod_eq_of_lt hlane)⟩
  next h => exact ⟨.refl s _, fun _ => rfl, fun ht => absurd ht h⟩

/-- A port that has drained leaves the list, with its new lane. -/
def State.portOut (s : State) (p : Nat) : State := ({ s with draining := s.draining.filter (fun q => decide (q ≠ p)) } : State).moveLane p

theorem portDrained_of_idle {p : Nat} {s : State} (h : s.draining.contains p = true) (hb : s.portBusy p = false) : portDrained p s =
    if (s.portOut p).draining = [] ∧ ! s.feEnabled then (s.portOut p).setBit R.feStatus 0 false else s.portOut p :=
  if_neg (by rw [h, hb]; simp)

theorem State.portOut_spec (s : State) (p : Nat) : (∃ r, s.portOut p = { s with
      regs := r, draining := s.draining.filter (fun q => decide (q ≠ p)) }) ∧ s.regsBut (s.portOut p) [R.feLaneStatus p] ∧
    (s.bit (R.feLaneStatus p) 0 = false → (s.portOut p).reg (R.feLaneStatus p) = s.reg (R.feLaneStatus p)) ∧
    (s.bit (R.feLaneStatus p) 0 = true → (s.portOut p).fld (R.feLaneStatus p) (if s.bit (R.feLaneCtl p) 30 then 24 else 28) 4 =
      if s.fld (R.feLaneCtl p) 0 3 < 4 then 8 + s.fld (R.feLaneCtl p) 0 3 else 0) := by
  obtain ⟨⟨⟨r, hr⟩, hregs⟩, hstay, hmove⟩ :=
    State.moveLane_spec { s with draining := s.draining.filter (fun q => decide (q ≠ p)) } p
  exact ⟨⟨r, hr⟩, hregs, hstay, hmove⟩

/-- Settles O43. -/
theorem fabricEndpointControl : Obligations.FabricEndpointControl := by
  unfold Obligations.FabricEndpointControl
  refine ⟨fun src v s hw => ⟨fun hv he => ?_, fun hv he hi => ?_, fun hv he hi => ?_⟩, fun p s => ⟨fun hd hb => ?_, fun h => ?_⟩⟩
  · have hact : exec (.feCtlWrite src v) s = .next (writeFeCtl v s) := State.regWrite_of_takesWrite hw v _
    rw [writeFeCtl_of_start hv he] at hact
    obtain ⟨⟨⟨r, hr⟩, hregs⟩, hen, hact', hgtc⟩ := s.feRegs_spec
    obtain ⟨p, hp, hbeat⟩ := s.foldl_watch_spec s.feRegs (List.range 1024)
    have hp' : s.watchPeers s.feRegs = { s.feRegs with peers := p } := hp
    have hlane (n : Nat) : s.feRegs.reg (R.feLaneStatus n) = s.reg (R.feLaneStatus n) := hregs _ (by
      simp only [List.mem_cons, List.not_mem_nil, or_false, R.feCtl, R.feIncarnLo, R.feStatus, R.feLaneStatus]
      omega)
    obtain ⟨t, ht, hreg, hbd, hseq, hdr, hpe, htk, hm⟩ := (s.watchPeers s.feRegs).freshCounts_requestCredits s.cycle
    have hfe (o : Nat) (ho : o < 0x500010) : t.reg o = s.feRegs.reg o := (hreg o (feReg_not_post ho)).trans (by rw [hp']; rfl)
    rw [ht] at hact
    refine ⟨t, hact, (State.bit_congr (hfe _ (by decide)) 31).trans hen, (State.bit_congr (hfe _ (by decide)) 0).trans hact',
      (State.reg64_congr (hfe _ (by decide)) (hfe _ (by decide))).trans hgtc, hseq, hbd, hdr.trans ?_, fun n hn hw' => ?_, htk.trans ?_,
      fun a => (hm a).trans ?_⟩
    · rw [show (s.watchPeers s.feRegs).draining = s.draining by rw [hp', hr]]
      refine congrArg (fun f => s.draining.filter f) (funext fun q => State.bit_congr ?_ 0)
      exact (show (s.watchPeers s.feRegs).reg _ = s.feRegs.reg _ by rw [hp']; rfl).trans (hlane q)
    · exact (congrArg (fun m => (sget peerDefault m n).lastBeat) (hpe.trans (by rw [hp']))).trans (hbeat n (.inl ⟨List.mem_range.mpr hn, hw'⟩))
    · rw [hp', hr]
    · rw [hp', hr]
      rfl
  · have hact : exec (.feCtlWrite src v) s = .next (writeFeCtl v s) := State.regWrite_of_takesWrite hw v _
    rw [writeFeCtl_of_stop hv he, if_pos hi] at hact
    obtain ⟨hcs, -⟩ := feRegs_ne
    have hen := s.bit_setBit_self R.feCtl 31 false (by decide)
    have h1 := (s.setsRegs_setBit R.feCtl 31 false).mono (k := [R.feCtl, R.feStatus]) (by simp)
    generalize s.setBit R.feCtl 31 false = u at hact hen h1
    exact ⟨_, hact, (u.bit_setBit_ne 0 31 false hcs).trans hen, u.bit_setBit_self R.feStatus 0 false (by decide),
      (h1.trans ((u.setsRegs_setBit R.feStatus 0 false).mono (by simp))).onlyRegs⟩
  · have hact : exec (.feCtlWrite src v) s = .next (writeFeCtl v s) := State.regWrite_of_takesWrite hw v _
    rw [writeFeCtl_of_stop hv he, if_neg (by rw [hi]; decide)] at hact
    obtain ⟨hcs, -⟩ := feRegs_ne
    have hen := s.bit_setBit_self R.feCtl 31 false (by decide)
    obtain ⟨⟨r, hr⟩, hregs⟩ := s.setsRegs_setBit R.feCtl 31 false
    generalize s.setBit R.feCtl 31 false = u at hact hen hr hregs
    exact ⟨_, hact, hen, State.bit_congr (hregs _ (by decide)) 0, by rw [hr], hregs⟩
  · have hact : exec (.fabricPortDrained p) s = .next (portDrained p s) := rfl
    rw [portDrained_of_idle hd hb] at hact
    obtain ⟨⟨r, hr⟩, hregs, hstay, hmove⟩ := s.portOut_spec p
    have hlane : R.feLaneStatus p ≠ R.feStatus := by
      simp only [R.feLaneStatus, R.feStatus]
      omega
    have hdr : (s.portOut p).draining = s.draining.filter (fun q => decide (q ≠ p.val)) := by rw [hr]
    have hactive : (s.portOut p).feActive = s.feActive := State.bit_congr (hregs _ (by simpa using hlane.symm)) 0
    have hframe : s.portOut p = { s with regs := (s.portOut p).regs, draining := (s.portOut p).draining } := by rw [hr]
    generalize s.portOut p = u at hact hregs hstay hmove hdr hactive hframe
    split at hact
    next hlast =>
      obtain ⟨hempty, hen⟩ := hlast
      obtain ⟨⟨r', hr'⟩, hregs'⟩ := u.setsRegs_setBit R.feStatus 0 false
      have hbit := u.bit_setBit_self R.feStatus 0 false (by decide)
      have hl := hregs' (R.feLaneStatus p) (by simpa using hlane)
      generalize u.setBit R.feStatus 0 false = w at hact hr' hregs' hbit hl
      have hdw : w.draining = u.draining := by rw [hr']
      refine ⟨w, hact, hdw.trans hdr, by rw [hr']; rw [hframe], fun o ho => ?_, fun _ _ => hbit, fun h => ?_, fun h => hl.trans (hstay h),
        fun h => (State.fld_congr hl _ _).trans (hmove h)⟩
      · simp only [List.mem_cons, List.not_mem_nil, or_false, not_or] at ho
        exact (hregs' o (by simpa using ho.2)).trans (hregs o (by simpa using ho.1))
      · obtain h | h := h
        · exact absurd (hdw.trans hempty) h
        · rw [h] at hen
          exact absurd hen (by decide)
    next hmore =>
      refine ⟨u, hact, hdr, hframe, fun o ho => ?_, fun h he => absurd ⟨h, by rw [he]; rfl⟩ hmore, fun _ => hactive, hstay, hmove⟩
      simp only [List.mem_cons, List.not_mem_nil, or_false, not_or] at ho
      exact hregs o (by simpa using ho.1)
  · exact congrArg Host.Outcome.next (if_pos (h.imp (fun h => by rw [h]; rfl) id))

end Sys2Proof.Machine
end

section
/-!
### Requests that fail (R261, R353, R367, R368)
-/
namespace Sys2Proof.Machine

/-! A task's request. -/

/-- A task has failed, and every other is as it was. -/
def State.failedBut (s t : State) (r : TaskRef) (x : Task) (st : Status) : Prop :=
  ∃ y, t.task r = some y ∧ y.entry = x.entry ∧ y.status = st ∧ (y.phase = .failing ∨ y.phase = .finished) ∧ s.tasksBut t r

/-- A running task fails with what it no longer waits for, from a state beside. -/
theorem State.failsWithout {s u : State} {r : TaskRef} {x z : Task} (hx : s.task r = some x) (hu : u.tasks = s.tasks)
    (hr : z.ref = r) (he : z.entry = x.entry) (hp : z.phase = .running) (st : Status) :
    u.Around (((u.putTask z).failTask r st).settle r) ∧ s.failedBut (((u.putTask z).failTask r st).settle r) r x st := by
  have hput : (u.putTask z).task r = some z := State.task_putTask_self ((State.task_of_tasks hu r).trans hx) hr
  obtain ⟨hw, y, hy, hf, hph⟩ := State.failTask_then_settle hput hp st
  exact ⟨((State.Around.refl u).putTask z).trans hw.around, y, hy, by rw [hf]; exact he, by rw [hf], hph, fun k hk =>
    (hw.others k hk).trans ((u.tasksBut_putTask_of_ref hr k hk).trans (State.task_of_tasks hu k))⟩

/-- Is a read of a task the outstanding one that has waited so long? -/
def State.readExpired (s : State) (no : Nat) (space : Space) (age : Nat) (i : Issued) : Bool :=
  decide (i.no = no) && ! i.answered && decide (i.req.space = space) &&
    (if space = .host then s.hostOverdue i.at_ age else s.overdue i.at_ age) &&
      (decide (space = .host) || decide (i.req.addr / 2 ^ 48 ≠ s.node))

theorem State.failRead_of_expired {s : State} {r : TaskRef} {x : Task} {i : Issued} (hx : s.task r = some x) (hi : i ∈ x.issueQ)
    {space : Space} {age : Nat} (he : s.readExpired i.no space age i = true) (st : Status) : s.failRead r i.no space st age =
      ((s.putTask { x with issueQ := x.issueQ.filter (fun j => decide (j.no ≠ i.no)) }).failTask r st).settle r := by
  unfold State.failRead
  rw [hx]
  cases hf : x.issueQ.find? (s.readExpired i.no space age) with
  | none => exact absurd he (List.find?_eq_none.mp hf i hi)
  | some j =>
    unfold State.readExpired at hf
    dsimp only
    rw [hf]

theorem State.failRead_of_waiting {s : State} {r : TaskRef} {x : Task} {no : Nat} (hx : s.task r = some x) {space : Space} {age : Nat}
    (he : ∀ i ∈ x.issueQ, s.readExpired no space age i = false) (st : Status) : s.failRead r no space st age = s := by
  have hf : x.issueQ.find? (s.readExpired no space age) = none := List.find?_eq_none.mpr fun i hi h => by
    rw [he i hi] at h
    exact Bool.noConfusion h
  unfold State.failRead
  rw [hx]
  unfold State.readExpired at hf
  dsimp only
  rw [hf]

/-- The packet's second failure is recorded, and nothing else has changed yet. -/
theorem State.mcEvent_beside (s : State) (source unit : Nat) (st : Status) (r : Option TaskRef) (a : Nat) :
    (s.mcEvent source unit st r a).tasks = s.tasks ∧ (s.mcEvent source unit st r a).cycle = s.cycle ∧
    (s.mcEvent source unit st r a).node = s.node ∧
    (s.mcEvent source unit st r a).reg R.mcCount = satAdd (s.reg R.mcCount) 1 ∧
    (s.mcEvent source unit st r a).later.events = s.later.events ++
      [{ source := source, unit := unit, status := st, task := r, addr := a, time := s.gtc }] :=
  ⟨rfl, rfl, State.fld_congr (s.reg_mcEvent_ne _ _ _ _ _ (by decide)) 0 16, s.reg_bump_self R.mcCount 1, rfl⟩

/-- A read from another node is overdue. -/
theorem State.readExpired_device {s : State} {i : Issued} {age : Nat} (ha : i.answered = false) (hs : i.req.space = .device)
    (hn : i.req.addr / 2 ^ 48 ≠ s.node) (h : i.at_ + age ≤ s.cycle) : s.readExpired i.no .device age i = true := by
  unfold State.readExpired
  rw [ha, hs, decide_eq_true hn, if_neg (by decide), show s.overdue i.at_ age = true from decide_eq_true h]
  simp

/-- The one read of a number that is not overdue is not taken for another. -/
theorem State.readExpired_of_waiting {s : State} {q : List Issued} {i : Issued} {age : Nat} {space : Space}
    (hone : ∀ j, j ∈ q → j.no = i.no → j = i)
    (h : (if space = .host then s.hostOverdue i.at_ age else s.overdue i.at_ age) = false) :
    ∀ j ∈ q, s.readExpired i.no space age j = false := by
  intro j hj
  unfold State.readExpired
  by_cases hno : j.no = i.no
  · rw [hone j hj hno, h]
    simp
  · rw [decide_eq_false hno]
    simp

theorem State.readExpired_host {s : State} {i : Issued} {age : Nat} (ha : i.answered = false) (hs : i.req.space = .host)
    (h : s.hostOverdue i.at_ age = true) : s.readExpired i.no .host age i = true := by
  unfold State.readExpired
  rw [ha, hs, if_pos rfl, h]
  simp

theorem State.failWrite_of_pending {s : State} {r : TaskRef} {x : Task} {w : WriteReq} {l : List WriteReq} (hx : s.task r = some x)
    (hw : x.pendingW = w :: l) (st : Status) (age : Nat) : s.failWrite r st age =
      if w.span.1 / 2 ^ 48 = s.node ∨ ! s.overdue w.at_ age then s
      else ((s.putTask { x with pendingW := l }).failTask r st).settle r := by
  unfold State.failWrite
  simp only [hx, hw]

/-- Is a piece the one that has waited so long? -/
def State.pieceExpired (s : State) (w : PieceOut) (age : Nat) (z : PieceOut) : Bool :=
  decide (z.rank = w.rank) && decide (z.stage = w.stage) && decide (z.index = w.index) && s.overdue z.at_ age

theorem State.failPiece_of_expired {s : State} {r : TaskRef} {x : Task} {w : PieceOut} {age : Nat} (hx : s.task r = some x)
    (hw : w ∈ x.coll.awaiting) (h : w.at_ + age ≤ s.cycle) (st : Status) : ∃ z, s.failPiece r w.rank w.stage w.index st age =
      ((s.putTask { x with coll := { x.coll with awaiting := x.coll.awaiting.filter (fun y => decide (y ≠ z)) } }).failTask r st).settle r := by
  have he : s.pieceExpired w age w = true := by
    unfold State.pieceExpired
    rw [show s.overdue w.at_ age = true from decide_eq_true h]
    simp
  unfold State.failPiece
  rw [hx]
  cases hf : x.coll.awaiting.find? (s.pieceExpired w age) with
  | none => exact absurd he (List.find?_eq_none.mp hf w hw)
  | some z =>
    unfold State.pieceExpired at hf
    dsimp only
    rw [hf]
    exact ⟨z, rfl⟩

theorem State.failPiece_of_waiting {s : State} {r : TaskRef} {x : Task} {w : PieceOut} {age : Nat} (hx : s.task r = some x)
    (hone : ∀ z, z ∈ x.coll.awaiting → z.rank = w.rank → z.stage = w.stage → z.index = w.index → z = w)
    (h : s.cycle < w.at_ + age) (st : Status) : s.failPiece r w.rank w.stage w.index st age = s := by
  have hf : x.coll.awaiting.find? (s.pieceExpired w age) = none := List.find?_eq_none.mpr fun z hz he => by
    simp only [State.pieceExpired, State.overdue, Bool.and_eq_true, decide_eq_true_eq] at he
    obtain ⟨⟨⟨h1, h2⟩, h3⟩, h4⟩ := he
    rw [hone z hz h1 h2 h3] at h4
    omega
  unfold State.failPiece
  rw [hx]
  unfold State.pieceExpired at hf
  dsimp only
  rw [hf]

/-! A send port's request. -/

theorem State.failPortMsg_stops {s : State} {p : Nat} (hp : p < 64) (hs : s.spStopped p = false) (m : Msg) (st : Status) :
    s.portStops (s.failPortMsg p m st) p st m := by
  unfold State.failPortMsg
  dsimp only
  generalize s.credits.filter _ = l
  obtain ⟨h1, h2, h3, h4, h5, h6⟩ := State.failMsg_stops (s := { s with credits := l }) hp hs m st
  exact ⟨h1, h2, h3, h4, h5, h6⟩

/-! A ring's request. -/

theorem State.sqReadFailed_of_host {s : State} {q : Nat} (h : s.sqHost q = true) (st : Status) (a : Nat) :
    s.sqReadFailed q st a = s.sqStop q st false := by
  unfold State.sqReadFailed
  rw [if_pos h]

theorem State.failRingRead_of_fresh {s : State} {q : Nat} (hs : (s.sq q).stale = []) (ho : (s.sq q).outstanding = true)
    (hh : s.sqHost q = true) (age : Nat) : s.failRingRead q age =
      if s.hostOverdue (s.sq q).lastRead age then (s.putSq q { s.sq q with outstanding := false }).sqStop q St.host false else s := by
  have hfail := State.sqReadFailed_of_host (s := s.putSq q { s.sq q with outstanding := false }) (q := q) hh St.host 0
  rw [← hfail]
  unfold State.failRingRead
  simp only [hs, ho, hh, Bool.true_and]

theorem State.emit_putSq (s : State) (q : Nat) (r : SqRun) (o : Out) : (s.putSq q r).emit o = (s.emit o).putSq q r := by
  unfold State.emit
  by_cases h : (o.toHost && s.linkDown) = true
  · refine (if_pos h).trans (Eq.symm ?_)
    exact congrArg (fun u : State => u.putSq q r) (if_pos h)
  · refine (if_neg h).trans (Eq.symm ?_)
    exact congrArg (fun u : State => u.putSq q r) (if_neg h)

theorem State.stops_of_forgotten {s t : State} {q : Nat} {st : Status} {index : Word} {tag : Nat}
    (h : (s.putSq q { s.sq q with outstanding := false }).stops t q st index tag) : s.stops t q st index tag := by
  obtain ⟨h1, h2, h3, h4, h5, hframe, hregs, hsqs⟩ := h
  refine ⟨h1, h2, h3, h4, h5, ?_, hregs, fun k hk => (hsqs k hk).trans (s.sq_putSq_ne hk _)⟩
  have hu : (if (s.putSq q { s.sq q with outstanding := false }).bit R.qiIrq 31 then
      (s.putSq q { s.sq q with outstanding := false }).msix ((s.putSq q { s.sq q with outstanding := false }).fld R.qiIrq 0 11)
      else s.putSq q { s.sq q with outstanding := false }) =
      (if s.bit R.qiIrq 31 then s.msix (s.fld R.qiIrq 0 11) else s).putSq q { s.sq q with outstanding := false } := by
    rw [apply_ite (fun u : State => u.putSq q { s.sq q with outstanding := false })]
    exact congrArg (fun u => if s.bit R.qiIrq 31 then u else s.putSq q { s.sq q with outstanding := false })
      (s.emit_putSq q _ (.msix (s.fld R.qiIrq 0 11)))
  dsimp only at hframe
  rw [hu] at hframe
  rw [hframe]
  rfl

theorem State.latchedTag_of_forgotten (s : State) (q : Nat) :
    (s.putSq q { s.sq q with outstanding := false }).latchedTag q = s.latchedTag q := by
  unfold State.latchedTag State.entryRead
  rw [s.sq_putSq_self]
  rfl

/-! An aperture's load. -/

/-- Is a load the one of a core and an aperture that has waited so long? -/
def State.loadExpired (s : State) (core : Fin 8) (ap : Fin 16) (age : Nat) (l : ApLoad) : Bool :=
  decide (l.core = core.val) && decide (l.ap = ap.val) && s.hostOverdue l.at_ age

theorem State.failAperture_of_expired {s : State} {core : Fin 8} {ap : Fin 16} {l : ApLoad} {cause age : Nat}
    (hf : s.apLoads.find? (s.loadExpired core ap age) = some l) : s.failHost (.aperture core ap) cause age =
      (({ s with apLoads := s.apLoads.filter (fun x => decide (x ≠ l)) } : State).apertureFault false cause l.ap l.core l.offset).emit
        (.coreData l.core (List.replicate l.len 0)) := by
  unfold State.loadExpired at hf
  unfold State.failHost
  dsimp only
  rw [hf]

theorem State.failAperture_of_waiting {s : State} {core : Fin 8} {ap : Fin 16} {cause age : Nat}
    (hf : s.apLoads.find? (s.loadExpired core ap age) = none) : s.failHost (.aperture core ap) cause age = s := by
  unfold State.loadExpired at hf
  unfold State.failHost
  dsimp only
  rw [hf]

theorem State.apertureFault_spec (s : State) (cause ap core off : Nat) : ∃ u, s.apertureFault false cause ap core off = u ∧
    u = { s with regs := u.regs, now := u.now, later := u.later } ∧ s.regsBut u [R.apertureFaultCount] ∧
    u.reg R.apertureFaultCount = satAdd (s.reg R.apertureFaultCount) 1 ∧
    u.later.latches = s.later.latches ++
      [{ off := R.apertureFault, key := ap, val := cause * 2 ^ 28 + ap * 2 ^ 16 + core * 2 ^ 13,
         also := pairWords R.apertureFaultOfsLo off }] := by
  have hself := s.reg_bump_self R.apertureFaultCount 1
  have hne : s.regsBut (s.bump R.apertureFaultCount 1) [R.apertureFaultCount] := fun o ho => s.reg_bump_ne 1 (by simpa using ho)
  obtain ⟨r, n, hr⟩ := s.bump_shape R.apertureFaultCount 1
  unfold State.apertureFault
  rw [hr] at hself hne ⊢
  refine ⟨_, rfl, rfl, hne, hself, ?_⟩
  simp only [State.latch, boolBit, Bool.false_eq_true, if_false, Nat.zero_mul, Nat.zero_add]

/-- Settles O44. -/
theorem requestsThatFail : Obligations.RequestsThatFail := by
  unfold Obligations.RequestsThatFail
  refine ⟨fun ref s x i hx hp hi hone ha => ⟨fun hs hn => ⟨fun h => ?_, fun h => ?_, fun h p node => ?_⟩, fun hs => ⟨fun h => ?_, fun h => ?_⟩⟩,
    fun ref s x w l hx hp hw hn => ⟨fun h => ?_, fun h => ?_⟩, fun ref s x w hx hp hw hone => ⟨fun h => ?_, fun h => ?_⟩,
    fun p s => ⟨fun m hs hm => ?_, fun hm => ?_⟩, fun q s hst ho hh => ⟨fun h => ?_, fun h => ?_⟩,
    fun core ap s l hl hc hap hone => ⟨fun h => ?_, fun h => ?_⟩, fun host s => ?_, fun p node o s => ⟨fun h => ?_, fun h => ?_⟩⟩
  · have hexp := State.readExpired_device (age := 160000) ha hs hn h
    exact ⟨_, congrArg Host.Outcome.next (State.failRead_of_expired hx hi hexp St.fabric),
      (State.failsWithout (u := s) hx rfl (z := { x with issueQ := x.issueQ.filter (fun j => decide (j.no ≠ i.no)) })
        (State.ref_of_task hx :) rfl hp St.fabric).2⟩
  · exact congrArg Host.Outcome.next (State.failRead_of_waiting hx (State.readExpired_of_waiting hone
      ((if_neg (by decide)).trans (decide_eq_false (by omega)))) St.fabric)
  · obtain ⟨htasks, hcycle, hnode, hcount, hev⟩ := s.mcEvent_beside 10 p St.fabricCrc (some ref) node
    have hact : exec (.fabricPacketCrcFail p true node (.taskRead ref i.no)) s =
      .next ((s.mcEvent 10 p St.fabricCrc (some ref) node).failRead ref i.no .device St.fabricCrc 0) := rfl
    generalize s.mcEvent 10 p St.fabricCrc (some ref) node = u at htasks hcycle hnode hcount hev hact
    have hxu : u.task ref = some x := (State.task_of_tasks htasks ref).trans hx
    have hexp := State.readExpired_device (s := u) (age := 0) ha hs (by rw [hnode]; exact hn) (by omega)
    rw [State.failRead_of_expired hxu hi hexp St.fabricCrc] at hact
    obtain ⟨har, hf⟩ := State.failsWithout hx htasks (z := { x with issueQ := x.issueQ.filter (fun j => decide (j.no ≠ i.no)) })
      (State.ref_of_task hx :) rfl hp St.fabricCrc
    exact ⟨_, hact, hf, (har.regs _ (by decide)).trans hcount, har.events.trans hev⟩
  · have hexp := State.readExpired_host (age := 320000) ha hs h
    exact ⟨_, congrArg Host.Outcome.next (State.failRead_of_expired hx hi hexp St.host),
      (State.failsWithout (u := s) hx rfl (z := { x with issueQ := x.issueQ.filter (fun j => decide (j.no ≠ i.no)) })
        (State.ref_of_task hx :) rfl hp St.host).2⟩
  · exact congrArg Host.Outcome.next (State.failRead_of_waiting hx (State.readExpired_of_waiting hone
      ((if_pos rfl).trans h)) St.host)
  · have hact : exec (.fabricRequestTimeout (.taskWrite ref)) s = .next (s.failWrite ref St.fabric 160000) := rfl
    rw [State.failWrite_of_pending hx hw, if_neg (not_or.mpr ⟨hn, by
      rw [show s.overdue w.at_ 160000 = true from decide_eq_true h]
      decide⟩)] at hact
    obtain ⟨-, y, hy⟩ := State.failsWithout (s := s) (u := s) hx rfl (z := { x with pendingW := l }) (State.ref_of_task hx :) rfl hp St.fabric
    exact ⟨_, y, hact, hy⟩
  · refine congrArg Host.Outcome.next ((State.failWrite_of_pending hx hw _ _).trans (if_pos (.inr ?_)))
    rw [show s.overdue w.at_ 160000 = false from decide_eq_false (by omega)]
    rfl
  · obtain ⟨z, hz⟩ := State.failPiece_of_expired hx hw h St.fabric
    obtain ⟨-, y, hy⟩ := State.failsWithout (s := s) (u := s) hx rfl
      (z := { x with coll := { x.coll with awaiting := x.coll.awaiting.filter (fun y => decide (y ≠ z)) } })
      (State.ref_of_task hx :) rfl hp St.fabric
    exact ⟨_, y, congrArg Host.Outcome.next hz, hy⟩
  · exact congrArg Host.Outcome.next (State.failPiece_of_waiting hx hone h St.fabric)
  · have hact : s.failFabric (.sendPort p) St.fabric 160000 = s.failPortMsg p m St.fabric := by
      unfold State.failFabric
      simp only [hm]
    have h := State.failPortMsg_stops p.isLt hs m St.fabric
    exact ⟨_, congrArg Host.Outcome.next hact, h.stopped, h.status, h.num, congrArg SendPort.fifo (by unfold State.port; rw [h.ports]),
      h.tasks, h.mem⟩
  · refine congrArg Host.Outcome.next ?_
    unfold State.failFabric
    simp only [hm]
  · have hact := State.failRingRead_of_fresh hst ho hh 320000
    rw [if_pos h] at hact
    have hstop := (s.putSq q { s.sq q with outstanding := false }).sqStop_stops q.isLt St.host false
    rw [s.latchedTag_of_forgotten q] at hstop
    exact ⟨_, congrArg Host.Outcome.next hact, State.stops_of_forgotten hstop⟩
  · exact congrArg Host.Outcome.next ((State.failRingRead_of_fresh hst ho hh 320000).trans (if_neg (by rw [h]; decide)))
  · have hexp : s.loadExpired core ap 320000 l = true := by
      unfold State.loadExpired
      rw [hc, hap, h]
      simp
    cases hf : s.apLoads.find? (s.loadExpired core ap 320000) with
    | none => exact absurd hexp (List.find?_eq_none.mp hf l hl)
    | some z =>
      have hz := List.find?_some hf
      simp only [State.loadExpired, Bool.and_eq_true, decide_eq_true_eq] at hz
      obtain ⟨⟨hzc, hza⟩, -⟩ := hz
      obtain rfl : z = l := hone z (List.mem_of_find?_eq_some hf) (hzc.trans hc.symm) (hza.trans hap.symm)
      obtain ⟨u, hu, hframe, hregs, hcount, hlat⟩ := State.apertureFault_spec
        { s with apLoads := s.apLoads.filter (fun x => decide (x ≠ z)) } 3 z.ap z.core z.offset
      have hact : exec (.hostRequestTimeout (.aperture core ap)) s = .next (u.emit (.coreData z.core (List.replicate z.len 0))) :=
        congrArg Host.Outcome.next ((State.failAperture_of_expired hf).trans (by rw [hu]))
      rw [State.emit_of_not_toHost rfl] at hact
      refine ⟨_, hact, fun y => ?_, ?_, hregs, hcount, hlat⟩
      · rw [hframe]
        exact List.mem_filter.trans (and_congr_right fun _ => decide_eq_true_iff)
      · rw [hframe]
  · refine congrArg Host.Outcome.next (State.failAperture_of_waiting (List.find?_eq_none.mpr fun z hz he => ?_))
    simp only [State.loadExpired, Bool.and_eq_true, decide_eq_true_eq] at he
    obtain ⟨⟨hzc, hza⟩, hov⟩ := he
    rw [hone z hz (hzc.trans hc.symm) (hza.trans hap.symm), h] at hov
    exact Bool.noConfusion hov
  · exact ⟨_, rfl, s.reg_bump_self _ 1, (State.onlyRegs.refl s _).bump (List.mem_singleton.mpr rfl) 1⟩
  · exact ⟨_, congrArg Host.Outcome.next ((if_pos rfl).trans (if_pos h)), s.reg_bump_self _ 1, (State.onlyRegs.refl s _).bump (List.mem_singleton.mpr rfl) 1⟩
  · refine congrArg Host.Outcome.next ((if_pos rfl).trans ((if_neg h).trans (State.emit_of_not_toHost rfl s)))

end Sys2Proof.Machine
end

section
/-!
### Failing a task in any phase

Whatever the phase, a task that fails, settles or is passed over changes only what work on tasks may change.
-/
namespace Sys2Proof.Machine

theorem State.failAgain_around (s : State) (x : Task) (st : Status) : s.Around (s.failAgain x st) := by
  unfold State.failAgain
  split
  · exact (State.Around.refl s).putTask _
  · exact .refl s

theorem State.settleFailing_around (s : State) (x : Task) : s.Around (s.settleFailing x) := by
  unfold State.settleFailing
  split
  · exact ((s.countDigested_around x).1.putTask _).freeBits _
  · exact .refl s

theorem State.failTask_around (s : State) (r : TaskRef) (st : Status) : s.Around (s.failTask r st) := by
  unfold State.failTask
  split
  · exact .refl s
  next x _ =>
    have heff := s.failEffects_around x st
    split
    · have hput := heff.putTask (x.failedRunning st s.cycle)
      dsimp only
      split
      · exact hput.putTask _
      · exact hput.trans (State.settleFailing_around _ _)
    · exact s.failAgain_around x st
    · exact s.failAgain_around x st
    · exact .refl s
    · exact .refl s
    · exact (heff.setReg (by decide) _).putTask _

theorem State.settle_around (s : State) (r : TaskRef) : s.Around (s.settle r) := by
  cases hx : s.task r with
  | none =>
    unfold State.settle
    rw [hx]
    exact .refl s
  | some x =>
    by_cases hp : x.phase = .running
    · obtain ⟨y, hw, -⟩ := State.settle_moves hx hp
      exact hw.around
    · unfold State.settle
      simp only [hx]
      split
      · exact s.settleFailing_around x
      next h => exact absurd h hp
      · exact .refl s

theorem State.advanceQueue_around (s : State) (q : Nat) : s.Around (s.advanceQueue q) := (s.advanceQueue_flow q).beside.around

theorem State.fail_around (s : State) (r : TaskRef) (st : Status) : s.Around (s.fail r st) :=
  (s.failTask_around r st).trans (State.advanceQueue_around _ _)

end Sys2Proof.Machine
end

section
/-!
### Peers (R276, R277, R279)
-/
namespace Sys2Proof.Machine

/-- What leaves the watched peers alone: their registers, what is held of them, the time, the FIFOs; and a stopped port stays so. -/
structure State.Spares (s t : State) : Prop where
  peers : t.peers = s.peers
  cycle : t.cycle = s.cycle
  ports : t.ports = s.ports
  regs : ∀ o, 0x510000 ≤ o → o < 0x514000 → t.reg o = s.reg o
  stopped : ∀ p < 64, s.spStopped p = true → t.spStopped p = true

theorem State.Spares.refl (s : State) : s.Spares s := ⟨rfl, rfl, rfl, fun _ _ _ => rfl, fun _ _ h => h⟩

theorem State.Spares.trans {s t u : State} (h : s.Spares t) (k : t.Spares u) : s.Spares u where
  peers := k.peers.trans h.peers
  cycle := k.cycle.trans h.cycle
  ports := k.ports.trans h.ports
  regs o h1 h2 := (k.regs o h1 h2).trans (h.regs o h1 h2)
  stopped p hp hs := k.stopped p hp (h.stopped p hp hs)

theorem State.Spares.foldl {β : Type} {f : State → β → State} (l : List β) (h : ∀ u : State, ∀ x ∈ l, u.Spares (f u x)) (s : State) :
    s.Spares (l.foldl f s) :=
  List.foldlRecOn (motive := fun u : State => s.Spares u) _ _ (.refl s) fun u hu x hx => hu.trans (h u x hx)

theorem State.Around.spares {s t : State} (h : s.Around t) : s.Spares t where
  peers := by rw [h.frame]
  cycle := by rw [h.frame]
  ports := by rw [h.frame]
  regs o h1 h2 := h.regs o (workReg_eq_false (by omega) (by simp only [R.tuRangesFree]; omega) (by omega) (by omega))
  stopped p hp hs := (State.bit_congr (h.regs _ (workReg_eq_false (by simp only [R.spStatus]; omega)
    (by simp only [R.spStatus, R.tuRangesFree]; omega) (by simp only [R.spStatus]; omega) (by simp only [R.spStatus]; omega))) 31).trans hs

theorem State.Voids.spares {s t : State} {r : Nat} (h : s.Voids t r) (hr : r < 256) : s.Spares t where
  peers := by rw [h.frame]
  cycle := by rw [h.frame]
  ports := by rw [h.frame]
  regs o h1 h2 := h.regs o (by simp only [R.rxVoided]; omega) (fun g hg => by simp only [R.tuRefused]; omega)
  stopped p hp hs := (State.bit_congr (h.regs _ (by simp only [R.rxVoided, R.spStatus]; omega)
    (fun g hg => by simp only [R.tuRefused, R.spStatus]; omega)) 31).trans hs

theorem peerReg_not_post {o : Nat} (h1 : 0x510000 ≤ o) (h2 : o < 0x514000) : ¬ postReg o := by
  rintro (h | ⟨k, hk, h | h | h | h⟩) <;>
    simp only [R.feDeadRefused, R.tcFailed, R.spStatus, R.spErrNum, R.spFailed] at h <;> omega

theorem State.Posts.spares {s t : State} (h : s.Posts t) : s.Spares t where
  peers := by rw [h.frame]
  cycle := by rw [h.frame]
  ports := h.ports
  regs o h1 h2 := h.regs o (peerReg_not_post h1 h2)
  stopped p hp hs := h.spStopped hp hs

theorem State.stopPort_spares {s : State} {p : Nat} (hp : p < 64) (m : Msg) (st : Status) : s.Spares (s.stopPort p m st) := by
  obtain ⟨r, c, hshape⟩ := s.stopPort_shape p m st
  refine ⟨by rw [hshape], by rw [hshape], by rw [hshape], fun o h1 h2 => s.reg_stopPort p m st ?_ (fun k hk => ?_) ?_ ?_, fun k hk hs => ?_⟩
  · simp only [R.spFailed]
    omega
  · simp only [R.tcFailed]
    omega
  · simp only [R.spStatus]
    omega
  · simp only [R.spErrNum]
    omega
  · by_cases hkp : k = p
    · rw [hkp]
      exact (s.stopPort_spec p m st).1
    · refine (State.bit_congr (s.reg_stopPort p m st ?_ (fun j hj => ?_) ?_ ?_) 31).trans hs
      · exact spRegs_ne.2.1
      · simp only [R.tcFailed, R.spStatus]
        omega
      · simp only [R.spStatus]
        omega
      · exact spRegs_ne.1

theorem State.failMsg_spares {s : State} {p : Nat} (hp : p < 64) (hs : s.spStopped p = false) (m : Msg) (st : Status) :
    s.Spares (s.failMsg p m st) ∧ (s.failMsg p m st).spStopped p = true := by
  rw [State.failMsg_of_running hs]
  have h := State.withdrawCredits_posts (s.stopPort p m st)
  exact ⟨(State.stopPort_spares hp m st).trans h.spares, h.spStopped hp (s.stopPort_spec p m st).1⟩

/-! A peer dies. -/

theorem State.failAt_around (s : State) (node : Nat) (r : TaskRef) : s.Around (s.failAt node r) := by
  unfold State.failAt
  split
  · exact .refl s
  · split
    · exact (((State.Around.refl s).putTask _).trans (State.failTask_around _ _ _)).trans (State.settle_around _ _)
    · exact .refl s

theorem State.failCollectives_around (s : State) (node : Nat) : s.Around (s.failCollectives node) := by
  unfold State.failCollectives
  exact List.foldlRecOn (motive := fun u : State => s.Around u) _ _ (.refl s) fun u hu r _ => hu.trans (u.fail_around r _)

/-- The ports whose oldest message is for a dead node stop. -/
def State.stopDead (node : Nat) (s : State) (p : Nat) : State :=
  match (s.port p).fifo with
  | m :: _ => if ! s.spStopped p && decide (m.node = node) then s.failMsg p m St.deadDestination else s
  | [] => s

theorem State.stopDead_spec (node : Nat) (s : State) {p : Nat} (hp : p < 64) : s.Spares (s.stopDead node p) ∧
    ∀ m l, (s.port p).fifo = m :: l → m.node = node → (s.stopDead node p).spStopped p = true := by
  unfold State.stopDead
  cases hf : (s.port p).fifo with
  | nil => exact ⟨.refl s, fun _ _ h => nomatch h⟩
  | cons m l =>
    dsimp only
    split
    next h =>
      simp only [Bool.and_eq_true, Bool.not_eq_true'] at h
      obtain ⟨hk, hs⟩ := State.failMsg_spares hp h.1 m St.deadDestination
      exact ⟨hk, fun _ _ _ _ => hs⟩
    next h =>
      refine ⟨.refl s, fun m' l' he hn => ?_⟩
      rw [← (List.cons.inj he).1] at hn
      cases hs : s.spStopped p with
      | true => rfl
      | false => exact absurd (by rw [hs, decide_eq_true hn]; rfl) h

theorem State.stopDead_foldl (node : Nat) (l : List Nat) (hl : ∀ p ∈ l, p < 64) (s : State) :
    s.Spares (l.foldl (State.stopDead node) s) ∧
      ∀ p ∈ l, ∀ m k, (s.port p).fifo = m :: k → m.node = node → (l.foldl (State.stopDead node) s).spStopped p = true := by
  induction l generalizing s with
  | nil => exact ⟨.refl s, fun _ h => absurd h List.not_mem_nil⟩
  | cons q l ih =>
    obtain ⟨h1, h2⟩ := State.stopDead_spec node s (hl q List.mem_cons_self)
    obtain ⟨k1, k2⟩ := ih (fun p hp => hl p (List.mem_cons_of_mem _ hp)) (s.stopDead node q)
    refine ⟨h1.trans k1, fun p hp m k hf hn => ?_⟩
    obtain rfl | hp := List.mem_cons.mp hp
    · exact k1.stopped p (hl p List.mem_cons_self) (h2 m k hf hn)
    · refine k2 p hp m k ?_ hn
      unfold State.port
      rw [h1.ports]
      exact hf

/-- What a dead node had asked for and been granted at an endpoint ends. -/
def State.endAsking (node : Nat) (s : State) (r : Nat) : State :=
  (s.putEndpoint r { s.endpoint r with wait := (s.endpoint r).wait.filter (fun w => decide (w.1 ≠ node)) }).voidGrants r
    (fun g => decide (g.node = node))

theorem State.endAsking_spares (node : Nat) (s : State) {r : Nat} (hr : r < 256) : s.Spares (s.endAsking node r) := by
  have h : s.Spares (s.putEndpoint r { s.endpoint r with wait := (s.endpoint r).wait.filter (fun w => decide (w.1 ≠ node)) }) :=
    ⟨rfl, rfl, rfl, fun _ _ _ => rfl, fun _ _ h => h⟩
  exact h.trans ((State.voidGrants_spec _ r _).1.spares hr)

/-- The credits asked for at a dead node are asked for no more. -/
def State.dropCredits (s : State) (node : Nat) : State := { s with credits := s.credits.filter (fun c => decide (c.node ≠ node)) }

theorem State.peerDies_eq (s : State) (node : Nat) : s.peerDies node =
    ((List.range 256).foldl (State.endAsking node) (((List.range 64).foldl (State.stopDead node)
      ((s.tasks.map Task.ref).foldl (fun u r => u.failAt node r) s)).dropCredits node)).failCollectives node := rfl

/-- R277: the ports whose oldest message is for a node that dies are stopped; the watched peers are left alone. -/
theorem State.peerDies_spec (s : State) (node : Nat) : s.Spares (s.peerDies node) ∧
    ∀ p m l, p < 64 → (s.port p).fifo = m :: l → m.node = node → (s.peerDies node).spStopped p = true := by
  rw [s.peerDies_eq]
  have h1 : s.Spares ((s.tasks.map Task.ref).foldl (fun u r => u.failAt node r) s) :=
    State.Spares.foldl _ (fun u r _ => (u.failAt_around node r).spares) s
  generalize (s.tasks.map Task.ref).foldl (fun u r => u.failAt node r) s = u at h1 ⊢
  obtain ⟨h2, hstop⟩ := State.stopDead_foldl node (List.range 64) (fun p hp => List.mem_range.mp hp) u
  generalize (List.range 64).foldl (State.stopDead node) u = v at h2 hstop ⊢
  have h3 : v.Spares (v.dropCredits node) := ⟨rfl, rfl, rfl, fun _ _ _ => rfl, fun _ _ h => h⟩
  have h4 : (v.dropCredits node).Spares ((List.range 256).foldl (State.endAsking node) (v.dropCredits node)) :=
    State.Spares.foldl _ (fun w r hr => w.endAsking_spares node (List.mem_range.mp hr)) _
  have h5 := (h3.trans h4).trans (State.failCollectives_around _ node).spares
  refine ⟨(h1.trans h2).trans h5, fun p m l hp hf hn => h5.stopped p hp (hstop p (List.mem_range.mpr hp) m l ?_ hn)⟩
  unfold State.port
  rw [h1.ports]
  exact hf

theorem fePeerRegs_ne (n k : Nat) : R.fePeerCfg n ≠ R.fePeerDeaths k ∧ R.fePeerCfg n ≠ R.fePeerResets k ∧
    R.fePeerDeaths n ≠ R.fePeerResets k := by
  simp only [R.fePeerCfg, R.fePeerDeaths, R.fePeerResets]
  omega

theorem fePeerCfg_mem {n : Nat} (hn : n < 1024) : 0x510000 ≤ R.fePeerCfg n ∧ R.fePeerCfg n < 0x514000 := by
  simp only [R.fePeerCfg]
  omega

theorem fePeerResets_mem {n : Nat} (hn : n < 1024) : 0x510000 ≤ R.fePeerResets n ∧ R.fePeerResets n < 0x514000 := by
  simp only [R.fePeerResets]
  omega

theorem fePeerDeaths_mem {n : Nat} (hn : n < 1024) : 0x510000 ≤ R.fePeerDeaths n ∧ R.fePeerDeaths n < 0x514000 := by
  simp only [R.fePeerDeaths]
  omega

/-- A watched peer's entry is as it was. -/
structure State.PeerAs (s t : State) (n : Nat) : Prop where
  peer : t.peer n = s.peer n
  cfg : t.reg (R.fePeerCfg n) = s.reg (R.fePeerCfg n)
  resets : t.reg (R.fePeerResets n) = s.reg (R.fePeerResets n)

theorem State.PeerAs.trans {s t u : State} {n : Nat} (h : s.PeerAs t n) (k : t.PeerAs u n) : s.PeerAs u n :=
  ⟨k.peer.trans h.peer, k.cfg.trans h.cfg, k.resets.trans h.resets⟩

theorem State.Spares.peerAs {s t : State} (h : s.Spares t) {n : Nat} (hn : n < 1024) : s.PeerAs t n :=
  ⟨by unfold State.peer; rw [h.peers], h.regs _ (fePeerCfg_mem hn).1 (fePeerCfg_mem hn).2,
    h.regs _ (fePeerResets_mem hn).1 (fePeerResets_mem hn).2⟩

/-- R277: a peer entry marked dead. -/
theorem State.markDead_spec (s : State) {n : Nat} (hn : n < 1024) : (s.markDead n).cycle = s.cycle ∧
    (s.markDead n).peers = s.peers ∧ (s.markDead n).peerState n = 2 ∧
    (s.markDead n).reg (R.fePeerDeaths n) = satAdd (s.reg (R.fePeerDeaths n)) 1 ∧
    (s.markDead n).reg (R.fePeerResets n) = s.reg (R.fePeerResets n) ∧ (∀ k < 1024, k ≠ n → s.PeerAs (s.markDead n) k) ∧
    ∀ p m l, p < 64 → (s.port p).fifo = m :: l → m.node = s.peerNode n → (s.markDead n).spStopped p = true := by
  obtain ⟨hcd, hcr, hdr⟩ := fePeerRegs_ne n n
  have hcfg (o : Nat) (ho : o ≠ R.fePeerCfg n) := s.reg_setFld_ne 29 2 2 ho
  have hstate := s.fld_setFld_self (R.fePeerCfg n) 29 2 2 (by decide)
  obtain ⟨r, hr⟩ := s.setFld_shape (R.fePeerCfg n) 29 2 2
  unfold State.markDead
  rw [hr] at hcfg hstate ⊢
  generalize hu : ({ s with regs := r } : State) = u at hcfg hstate ⊢
  obtain ⟨r', c, hb⟩ := u.bump_shape (R.fePeerDeaths n) 1
  have hself := u.reg_bump_self (R.fePeerDeaths n) 1
  have hne (o : Nat) (ho : o ≠ R.fePeerDeaths n) := u.reg_bump_ne 1 ho
  generalize hv : u.bump (R.fePeerDeaths n) 1 = v at hb hself hne ⊢
  obtain ⟨hk, hstop⟩ := v.peerDies_spec (s.peerNode n)
  have hvu : v.cycle = s.cycle ∧ v.peers = s.peers ∧ v.ports = s.ports := by
    rw [hb, ← hu]
    exact ⟨rfl, rfl, rfl⟩
  obtain ⟨hvc, hvp, hvq⟩ := hvu
  have hreg (o : Nat) (h1 : 0x510000 ≤ o) (h2 : o < 0x514000) := hk.regs o h1 h2
  refine ⟨hk.cycle.trans hvc, hk.peers.trans hvp, ?_, ?_, ?_, fun k hkn hne' => ⟨?_, ?_, ?_⟩, fun p m l hp hf hm => hstop p m l hp ?_ hm⟩
  · exact (State.fld_congr ((hreg _ (fePeerCfg_mem hn).1 (fePeerCfg_mem hn).2).trans (hne _ hcd)) 29 2).trans hstate
  · exact (hreg _ (fePeerDeaths_mem hn).1 (fePeerDeaths_mem hn).2).trans
      (hself.trans (congrArg (fun w => satAdd w 1) (hcfg _ hcd.symm)))
  · exact ((hreg _ (fePeerResets_mem hn).1 (fePeerResets_mem hn).2).trans (hne _ hdr.symm)).trans (hcfg _ hcr.symm)
  · unfold State.peer
    rw [hk.peers, hvp]
  · refine ((hreg _ (fePeerCfg_mem hkn).1 (fePeerCfg_mem hkn).2).trans (hne _ (fePeerRegs_ne k n).1)).trans (hcfg _ ?_)
    simp only [R.fePeerCfg]
    omega
  · exact ((hreg _ (fePeerResets_mem hkn).1 (fePeerResets_mem hkn).2).trans (hne _ (fePeerRegs_ne n k).2.2.symm)).trans
      (hcfg _ (fePeerRegs_ne n k).2.1.symm)
  · unfold State.port
    rw [hvq]
    exact hf

/-! A heartbeat. -/

/-- The resets counted of a peer after a heartbeat. -/
def State.resetsAfter (s : State) (n : Nat) (inc : DWord) : Word :=
  match (s.peer n).incarnation with
  | some i => if i ≠ inc then satAdd (s.reg (R.fePeerResets n)) 1 else s.reg (R.fePeerResets n)
  | none => s.reg (R.fePeerResets n)

/-- The incarnation of a peer has changed: it has died, and is counted. -/
def State.resetPeer (s : State) (n : Nat) (inc : DWord) : State :=
  if (match (s.peer n).incarnation with | some i => decide (i ≠ inc) | none => false) then
    (if s.peerState n = 2 then s else s.markDead n).bump (R.fePeerResets n) 1
  else s

theorem State.beat_eq (s : State) (n : Nat) (inc : DWord) : s.beat n inc =
    ((s.resetPeer n inc).setFld (R.fePeerCfg n) 29 2 1).putPeer n { lastBeat := s.cycle, incarnation := some inc } := rfl

theorem State.resetPeer_spec (s : State) {n : Nat} (hn : n < 1024) (inc : DWord) : (s.resetPeer n inc).cycle = s.cycle ∧
    (s.resetPeer n inc).reg (R.fePeerResets n) = s.resetsAfter n inc ∧ ∀ k < 1024, k ≠ n → s.PeerAs (s.resetPeer n inc) k := by
  have hdead : ∃ u, (if s.peerState n = 2 then s else s.markDead n) = u ∧ u.cycle = s.cycle ∧
      u.reg (R.fePeerResets n) = s.reg (R.fePeerResets n) ∧ ∀ k < 1024, k ≠ n → s.PeerAs u k := by
    split
    · exact ⟨s, rfl, rfl, rfl, fun _ _ _ => ⟨rfl, rfl, rfl⟩⟩
    · obtain ⟨h1, -, -, -, h2, h3, -⟩ := s.markDead_spec hn
      exact ⟨_, rfl, h1, h2, h3⟩
  obtain ⟨u, hu, hc, hr, hk⟩ := hdead
  have hbumped : (u.bump (R.fePeerResets n) 1).cycle = s.cycle ∧
      (u.bump (R.fePeerResets n) 1).reg (R.fePeerResets n) = satAdd (s.reg (R.fePeerResets n)) 1 ∧
      ∀ k < 1024, k ≠ n → s.PeerAs (u.bump (R.fePeerResets n) 1) k :=
    ⟨hc, (u.reg_bump_self _ 1).trans (by rw [hr]), fun k hk1 hk2 => (hk k hk1 hk2).trans
      ⟨rfl, u.reg_bump_ne 1 (fePeerRegs_ne k n).2.1, u.reg_bump_ne 1 (by simp only [R.fePeerResets]; omega)⟩⟩
  have hstay : s.cycle = s.cycle ∧ s.reg (R.fePeerResets n) = s.reg (R.fePeerResets n) ∧ ∀ k < 1024, k ≠ n → s.PeerAs s k :=
    ⟨rfl, rfl, fun _ _ _ => ⟨rfl, rfl, rfl⟩⟩
  unfold State.resetPeer State.resetsAfter
  rw [hu]
  cases (s.peer n).incarnation with
  | none => exact hstay
  | some i =>
    dsimp only
    by_cases hi : i ≠ inc
    · rw [if_pos (decide_eq_true hi), if_pos hi]
      exact hbumped
    · rw [if_neg (by rw [decide_eq_false hi]; decide), if_neg hi]
      exact hstay

/-- What a heartbeat does at an entry that watches its node. -/
theorem State.beat_spec (s : State) {n : Nat} (hn : n < 1024) (inc : DWord) : (s.beat n inc).cycle = s.cycle ∧
    (s.beat n inc).peer n = { lastBeat := s.cycle, incarnation := some inc } ∧ (s.beat n inc).peerState n = 1 ∧
    (s.beat n inc).reg (R.fePeerResets n) = s.resetsAfter n inc ∧ ∀ k < 1024, k ≠ n → s.PeerAs (s.beat n inc) k := by
  obtain ⟨hc, hr, hk⟩ := s.resetPeer_spec hn inc
  rw [s.beat_eq]
  generalize s.resetPeer n inc = u at hc hr hk ⊢
  have hst := u.fld_setFld_self (R.fePeerCfg n) 29 2 1 (by decide)
  have hne (o : Nat) (ho : o ≠ R.fePeerCfg n) := u.reg_setFld_ne 29 2 1 ho
  obtain ⟨r, hshape⟩ := u.setFld_shape (R.fePeerCfg n) 29 2 1
  rw [hshape] at hst hne ⊢
  refine ⟨hc, State.peer_putPeer_self _ _ _, hst, (hne _ (fePeerRegs_ne n n).2.1.symm).trans hr, fun k h1 h2 => (hk k h1 h2).trans ⟨?_, ?_, ?_⟩⟩
  · exact State.peer_putPeer_ne _ _ h2
  · exact hne _ (by simp only [R.fePeerCfg]; omega)
  · exact hne _ (fePeerRegs_ne n k).2.1.symm

theorem State.foldl_beat_spec (p : Nat → Bool) (inc : DWord) (l : List Nat) (hl : ∀ n ∈ l, n < 1024) (hd : l.Nodup) (s : State) :
    (l.foldl (fun u n => if p n then u.beat n inc else u) s).cycle = s.cycle ∧
    (∀ n ∈ l, p n = true → (l.foldl (fun u n => if p n then u.beat n inc else u) s).peer n = { lastBeat := s.cycle, incarnation := some inc } ∧
      (l.foldl (fun u n => if p n then u.beat n inc else u) s).peerState n = 1 ∧
      (l.foldl (fun u n => if p n then u.beat n inc else u) s).reg (R.fePeerResets n) = s.resetsAfter n inc) ∧
    ∀ k < 1024, k ∉ l → s.PeerAs (l.foldl (fun u n => if p n then u.beat n inc else u) s) k := by
  induction l generalizing s with
  | nil => exact ⟨rfl, fun _ h => absurd h List.not_mem_nil, fun _ _ _ => ⟨rfl, rfl, rfl⟩⟩
  | cons q l ih =>
    obtain ⟨hq, hd'⟩ := List.nodup_cons.mp hd
    have hqn := hl q List.mem_cons_self
    have hl' (n : Nat) (h : n ∈ l) := hl n (List.mem_cons_of_mem _ h)
    rw [List.foldl_cons]
    by_cases hp : p q = true
    · rw [if_pos hp]
      obtain ⟨h1, h2, h3, h4, h5⟩ := s.beat_spec hqn inc
      obtain ⟨k1, k2, k3⟩ := ih hl' hd' (s.beat q inc)
      generalize l.foldl (fun u n => if p n then u.beat n inc else u) (s.beat q inc) = t at k1 k2 k3 ⊢
      refine ⟨k1.trans h1, fun n hn hpn => ?_, fun k hk hkl => ?_⟩
      · obtain rfl | hn := List.mem_cons.mp hn
        · have hsame := k3 n hqn hq
          exact ⟨hsame.peer.trans h2, (State.fld_congr hsame.cfg 29 2).trans h3, hsame.resets.trans h4⟩
        · obtain ⟨m1, m2, m3⟩ := k2 n hn hpn
          have hsame := h5 n (hl' n hn) (fun h => hq (h ▸ hn))
          refine ⟨m1.trans (by rw [h1]), m2, m3.trans ?_⟩
          unfold State.resetsAfter
          rw [hsame.peer, hsame.resets]
      · rw [List.mem_cons, not_or] at hkl
        exact (h5 k hk hkl.1).trans (k3 k hk hkl.2)
    · rw [if_neg hp]
      obtain ⟨k1, k2, k3⟩ := ih hl' hd' s
      refine ⟨k1, fun n hn hpn => k2 n ((List.mem_cons.mp hn).resolve_left ?_) hpn, fun k hk hkl => k3 k hk (fun h => hkl (List.mem_cons_of_mem _ h))⟩
      rintro rfl
      exact hp hpn

/-! Heartbeats of this chip. -/

theorem State.sentFabric.packetLeft {s t : State} {o : Nat → Out} (hw : ∀ p q, (o q).withPort p = o p) (h : s.sentFabric t (o 0))
    (he : s.feEnabled = true) : t.packetLeft o := by
  unfold State.sentFabric at h
  have he' : s.bit R.feCtl 31 = true := he
  rw [if_pos he'] at h
  split at h
  next p _ =>
    refine ⟨p, .inl ?_⟩
    rw [h.1, hw]
    exact List.mem_cons_self
  next =>
    refine ⟨0, .inr ?_⟩
    rw [h.2]
    exact List.mem_append_right _ (List.mem_singleton_self _)

theorem State.foldl_beats_spec (p : Nat → Bool) (node : Nat → Nat) (inc : DWord) (l : List Nat) (s : State) :
    ∃ a b, l.foldl (fun u n => if p n then u.emitFabric (.heartbeat (node n) inc 0) else u) s = { s with out := a, fabricHeld := b } ∧
      s.outKept { s with out := a, fabricHeld := b } ∧
      (s.feEnabled = true → ∀ n ∈ l, p n = true → ({ s with out := a, fabricHeld := b } : State).packetLeft (.heartbeat (node n) inc)) := by
  induction l generalizing s with
  | nil => exact ⟨_, _, rfl, .refl s, fun _ _ h => absurd h List.not_mem_nil⟩
  | cons q l ih =>
    rw [List.foldl_cons]
    by_cases hp : p q = true
    · rw [if_pos hp]
      obtain ⟨a, b, h, hs⟩ := State.emitFabric_of_plain (heartbeat_plain (node q) inc 0) s
      obtain ⟨a', b', h', hk, hleft⟩ := ih { s with out := a, fabricHeld := b }
      rw [h]
      refine ⟨a', b', h', hs.outKept.trans hk, fun he n hn hpn => ?_⟩
      obtain rfl | hn := List.mem_cons.mp hn
      · exact hk.packetLeft (hs.packetLeft (o := .heartbeat (node n) inc) (fun _ _ => rfl) he)
      · exact hleft he n hn hpn
    · rw [if_neg hp]
      obtain ⟨a, b, h, hk, hleft⟩ := ih s
      refine ⟨a, b, h, hk, fun he n hn hpn => hleft he n ((List.mem_cons.mp hn).resolve_left ?_) hpn⟩
      rintro rfl
      exact hp hpn

/-! FE_PEER_CFG. -/

theorem peerEntry_fields {w st node : Nat} (hw : w < 2) (hst : st < 4) (hn : node < 2 ^ 16) :
    getField (BitVec.ofNat 32 (w * 2 ^ 31 + st * 2 ^ 29 + node)) 31 1 = w ∧
    getField (BitVec.ofNat 32 (w * 2 ^ 31 + st * 2 ^ 29 + node)) 29 2 = st ∧
    getField (BitVec.ofNat 32 (w * 2 ^ 31 + st * 2 ^ 29 + node)) 0 16 = node := by
  simp only [getField, BitVec.toNat_ofNat]
  omega

/-- The word a write of FE_PEER_CFG leaves. -/
def State.peerWord (s : State) (n : Nat) (v : Word) : Word :=
  BitVec.ofNat 32 (getField v 31 1 * 2 ^ 31 + (if getField v 31 1 = 0 then 0 else if s.watched n then s.peerState n else 1) * 2 ^ 29 +
    if s.watched n then s.peerNode n else getField v 0 16)

theorem writePeerCfg_eq (n : Nat) (v : Word) (s : State) : writePeerCfg n v s =
    if getField v 31 1 = 1 ∧ ! s.watched n then
      (s.setReg (R.fePeerCfg n) (s.peerWord n v)).putPeer n { lastBeat := s.cycle, incarnation := none }
    else s.setReg (R.fePeerCfg n) (s.peerWord n v) := rfl

theorem State.peerWord_fields (s : State) (n : Nat) (v : Word) : getField (s.peerWord n v) 31 1 = getField v 31 1 ∧
    getField (s.peerWord n v) 29 2 = (if getField v 31 1 = 0 then 0 else if s.watched n then s.peerState n else 1) ∧
    getField (s.peerWord n v) 0 16 = if s.watched n then s.peerNode n else getField v 0 16 := by
  have hst : (if getField v 31 1 = 0 then 0 else if s.watched n then s.peerState n else 1) < 4 := by
    have h : s.peerState n < 2 ^ 2 := getField_lt _ _ _
    split
    · decide
    · split
      · exact h
      · decide
  have hnode : (if s.watched n then s.peerNode n else getField v 0 16) < 2 ^ 16 := by
    split
    · exact getField_lt _ _ _
    · exact getField_lt _ _ _
  exact peerEntry_fields (getField_lt v 31 1) hst hnode

theorem writePeerCfg_spec (n : Nat) (v : Word) (s : State) : ∃ t, writePeerCfg n v s = t ∧ t.reg (R.fePeerCfg n) = s.peerWord n v ∧
    t = { s with regs := t.regs, peers := t.peers } ∧ s.regsBut t [R.fePeerCfg n] ∧
    (getField v 31 1 = 1 → s.watched n = false → t.peer n = { lastBeat := s.cycle, incarnation := none }) := by
  rw [writePeerCfg_eq]
  have hself := s.reg_setReg_self (R.fePeerCfg n) (s.peerWord n v)
  have hne (o : Nat) (ho : o ∉ [R.fePeerCfg n]) := s.reg_setReg_ne (o := o) (s.peerWord n v) (fun h => ho (List.mem_singleton.mpr h))
  obtain ⟨r, hr⟩ := s.setReg_shape (R.fePeerCfg n) (s.peerWord n v)
  generalize s.setReg (R.fePeerCfg n) (s.peerWord n v) = u at hself hne hr ⊢
  split
  · exact ⟨u.putPeer n { lastBeat := s.cycle, incarnation := none }, rfl, (u.reg_putPeer' n _ _).trans hself, by rw [hr]; rfl,
      fun o ho => (u.reg_putPeer' n _ _).trans (hne o ho), fun _ _ => u.peer_putPeer_self n _⟩
  next h => exact ⟨_, rfl, hself, by rw [hr], hne, fun hv hw => absurd ⟨hv, by rw [hw]; rfl⟩ h⟩

/-- Settles O49. -/
theorem peers : Obligations.Peers := by
  unfold Obligations.Peers
  refine ⟨fun s => ⟨fun he hd hp => ?_, fun h => ?_⟩, fun node inc s => ⟨fun he => ?_, fun he => ?_⟩,
    fun n s he hw hst => ⟨fun h => ?_, fun h => ?_⟩, fun src n v s hw => ?_⟩
  · obtain ⟨a, b, hs, -, hleft⟩ := State.foldl_beats_spec s.watched s.peerNode (BitVec.ofNat 64 (s.reg64 R.feIncarnLo)) (List.range 1024)
      { s with beatDue := s.beatDue + 16000 }
    have hact : sendHeartbeats s = { s with beatDue := s.beatDue + 16000, out := a, fabricHeld := b } :=
      (if_pos (by rw [he, decide_eq_true hd, decide_eq_true hp]; rfl)).trans hs
    exact ⟨_, congrArg Host.Outcome.next hact, rfl, fun n hn hwn => hleft he n (List.mem_range.mpr hn) hwn⟩
  · refine congrArg Host.Outcome.next (if_neg fun hc => ?_)
    simp only [Bool.and_eq_true, decide_eq_true_eq] at hc
    obtain ⟨⟨h1, h2⟩, h3⟩ := hc
    obtain h | h | h := h
    · rw [h1] at h
      exact Bool.noConfusion h
    · omega
    · exact h3 h
  · have hact : exec (.heartbeatReceive node inc) s = .next (((List.range 1024).foldl (fun u n =>
        if s.watched n && decide (s.peerNode n = node) then u.beat n inc else u) s).requestCredits) :=
      congrArg Host.Outcome.next (if_pos he)
    obtain ⟨-, h2, -⟩ := State.foldl_beat_spec (fun n => s.watched n && decide (s.peerNode n = node)) inc (List.range 1024)
      (fun n hn => List.mem_range.mp hn) List.nodup_range s
    generalize (List.range 1024).foldl (fun u n => if s.watched n && decide (s.peerNode n = node) then u.beat n inc else u) s = u at hact h2
    refine ⟨_, hact, fun n hn hwn hnode => ?_⟩
    obtain ⟨k1, k2, k3⟩ := h2 n (List.mem_range.mpr hn) (by rw [hwn, decide_eq_true hnode]; rfl)
    have hsame := u.requestCredits_posts.spares.peerAs hn
    exact ⟨hsame.peer.trans k1, (State.fld_congr hsame.cfg 29 2).trans k2, hsame.resets.trans k3⟩
  · exact congrArg Host.Outcome.next (if_neg (by rw [he]; decide))
  · have hact : exec (.peerHeartbeatTimeout n) s = .next (s.markDead n).requestCredits :=
      congrArg Host.Outcome.next (if_pos (by rw [he, hw, decide_eq_true hst, decide_eq_true h]; rfl))
    obtain ⟨-, -, k2, k3, -, -, k5⟩ := s.markDead_spec n.isLt
    generalize s.markDead n = u at hact k2 k3 k5
    have hk := u.requestCredits_posts.spares
    exact ⟨_, hact, (State.fld_congr (hk.regs _ (fePeerCfg_mem n.isLt).1 (fePeerCfg_mem n.isLt).2) 29 2).trans k2,
      (hk.regs _ (fePeerDeaths_mem n.isLt).1 (fePeerDeaths_mem n.isLt).2).trans k3, fun p m l hp hf hm => hk.stopped p hp (k5 p m l hp hf hm)⟩
  · refine congrArg Host.Outcome.next (if_neg fun hc => ?_)
    simp only [Bool.and_eq_true, decide_eq_true_eq] at hc
    omega
  · obtain ⟨t, ht, hreg, hframe, hregs, hpeer⟩ := writePeerCfg_spec n v s
    obtain ⟨f1, f2, f3⟩ := s.peerWord_fields n v
    have hf (lo k : Nat) : t.fld (R.fePeerCfg n) lo k = getField (s.peerWord n v) lo k := congrArg (fun w => getField w lo k) hreg
    refine ⟨t, (State.regWrite_of_takesWrite hw v _).trans (congrArg Host.Outcome.next ht), ?_, (hf 0 16).trans f3, fun hv hwn => ⟨?_, hpeer hv hwn⟩,
      fun hv => ((hf 29 2).trans f2).trans (if_pos hv), hframe, hregs⟩
    · exact congrArg (fun k => decide (k = 1)) ((hf 31 1).trans f1)
    · refine ((hf 29 2).trans f2).trans ((if_neg (by omega)).trans (if_neg ?_))
      rw [hwn]
      decide

end Sys2Proof.Machine
end

section
/-!
### Messages (R263 to R265, R271, R273)
-/
namespace Sys2Proof.Machine

/-! What an answer leaves from does not depend on what a packet changes of its endpoint. -/

/-- A register that the fabric's answers depend on. -/
def answerReg (o : Nat) : Prop := o = R.nodeId ∨ o = R.feStatus ∨ ∃ p < 32, o = R.feLaneStatus p

theorem State.answers_beside {s u : State} {o : Out} (ho : o.plain) (node : Nat)
    (hu : u = { s with regs := u.regs, now := u.now, later := u.later, mem := u.mem, rx := u.rx, freeCtr := u.freeCtr })
    (hr : ∀ k, answerReg k → u.reg k = s.reg k) :
    ∃ a b, u.answerTo node o = { u with out := a, fabricHeld := b } ∧ s.sentAnswer { u with out := a, fabricHeld := b } node o := by
  obtain ⟨a, b, h, hs⟩ := State.answerTo_of_plain ho u node
  refine ⟨a, b, h, State.sentAnswer_congr hs (State.fld_congr (hr _ (.inl rfl)) 0 16) (hr _ (.inr (.inl rfl))) (by rw [hu])
    (by rw [hu]) (State.portOf_congr (fun p hp => hr _ (.inr (.inr ⟨p, hp, rfl⟩))) (by rw [hu]) (by rw [hu]) (by rw [hu]) (by rw [hu])
      (by rw [hu]) o)⟩

theorem answerReg_lt {o : Nat} (h : answerReg o) : o < 0x520000 ∧ o ≠ R.feNoReader ∧ (∀ g < 3, o ≠ R.tuRefused g) ∨
    0x540000 ≤ o ∧ o < 0x540400 := by
  rcases h with rfl | rfl | ⟨p, hp, rfl⟩
  · exact .inl ⟨by decide, by decide, fun g hg => by simp only [R.tuRefused, R.nodeId]; omega⟩
  · exact .inl ⟨by decide, by decide, fun g hg => by simp only [R.tuRefused, R.feStatus]; omega⟩
  · exact .inr ⟨by simp only [R.feLaneStatus]; omega, by simp only [R.feLaneStatus]; omega⟩

/-- A register of the counters by tag. -/
theorem answerReg_ne_tag {o : Nat} (h : answerReg o) {k : Nat} (hk : k < 64) : o ≠ R.tcDropped k ∧ o ≠ R.tcReceived k := by
  simp only [R.tcDropped, R.tcReceived]
  obtain ⟨h1, -, -⟩ | ⟨h1, h2⟩ := answerReg_lt h <;> omega

theorem answerReg_ne_rx {o r : Nat} (h : answerReg o) (hr : r < 256) : o ≠ R.rxRefused r ∧ o ≠ R.rxReceived r := by
  simp only [R.rxRefused, R.rxReceived]
  obtain ⟨h1, -, -⟩ | ⟨h1, h2⟩ := answerReg_lt h <;> omega

/-! A packet without a reader. -/

theorem State.dropNoReader_spec (s : State) (tag : Nat) : (∃ r n, s.dropNoReader tag = { s with regs := r, now := n }) ∧
    (s.dropNoReader tag).reg R.feNoReader = satAdd (s.reg R.feNoReader) 1 ∧
    ∀ o, answerReg o → (s.dropNoReader tag).reg o = s.reg o := by
  obtain ⟨⟨r, n, h⟩, hregs⟩ := (s.bump R.feNoReader 1).countTag_shape R.tcDropped tag 1
  obtain ⟨r', n', hb⟩ := s.bump_shape R.feNoReader 1
  refine ⟨⟨r, n, ?_⟩, (hregs _ fun k hk => ?_).trans (s.reg_bump_self _ 1), fun o ho => (hregs o fun k hk => (answerReg_ne_tag ho hk).1).trans
    (s.reg_bump_ne 1 ?_)⟩
  · unfold State.dropNoReader
    rw [h, hb]
  · simp only [R.feNoReader, R.tcDropped]
    omega
  · obtain ⟨-, h2, -⟩ | ⟨h1, h2⟩ := answerReg_lt ho
    · exact h2
    · simp only [R.feNoReader]
      omega

/-! A refused packet. -/

theorem State.mcEvent_shape (s : State) (source unit : Nat) (st : Status) (r : Option TaskRef) (a : Nat) :
    ∃ g n l, s.mcEvent source unit st r a = { s with regs := g, now := n, later := l } := by
  obtain ⟨g, n, h⟩ := s.bump_shape R.mcCount 1
  unfold State.mcEvent
  rw [h]
  exact ⟨_, _, _, rfl⟩

theorem State.tbUe_shape (s : State) (a site : Nat) (scrub : Bool) : ∃ g n l, s.tbUe a site scrub = { s with regs := g, now := n, later := l } := by
  obtain ⟨g, n, h⟩ := s.bump_shape (R.tbUeCount site) 1
  unfold State.tbUe
  rw [h]
  exact ⟨_, _, _, rfl⟩

theorem State.mcUncorrectable_shape (s : State) (a : Nat) (st : Status) (r : Option TaskRef) :
    ∃ g n l, s.mcUncorrectable a st r = { s with regs := g, now := n, later := l } := by
  unfold State.mcUncorrectable
  split
  · obtain ⟨g, n, l, h⟩ := s.tbUe_shape a (s.siteOf (moduleOf a)) false
    dsimp only
    rw [h]
    exact State.mcEvent_shape _ _ _ _ _ _
  · exact s.mcEvent_shape _ _ _ _ _
  · exact s.mcEvent_shape _ _ _ _ _

theorem State.memRefusal_shape (s : State) (st : Status) (a : Nat) (r : Option TaskRef) :
    ∃ g n l, s.memRefusal st a r = { s with regs := g, now := n, later := l } := by
  unfold State.memRefusal
  split
  · obtain ⟨g, n, h⟩ := s.bump_shape (R.tuRefused (groupOf a)) 1
    exact ⟨g, n, s.later, h⟩
  · split
    · exact s.mcUncorrectable_shape a st r
    · exact ⟨_, _, _, rfl⟩

/-- The registers a refusal counts in. -/
theorem State.reg_memRefusal (s : State) (st : Status) (a : Nat) (r : Option TaskRef) {o : Nat} (hg : ∀ g < 3, o ≠ R.tuRefused g)
    (hm : o ≠ R.mcCount) (ht : ∀ b < 16, o ≠ R.tbUeCount b) : (s.memRefusal st a r).reg o = s.reg o := by
  unfold State.memRefusal
  split
  · exact s.reg_bump_ne 1 (hg _ (groupOf_lt a))
  · split
    · unfold State.mcUncorrectable
      split
      · have hb : s.siteOf (moduleOf a) < 2 ^ 4 := getField_lt _ _ _
        exact (State.reg_mcEvent_ne _ _ _ _ _ _ hm).trans (s.reg_tbUe_ne _ _ _ (ht _ hb))
      · exact s.reg_mcEvent_ne _ _ _ _ _ hm
      · exact s.reg_mcEvent_ne _ _ _ _ _ hm
    · rfl

theorem State.memRefusal_answers (s : State) (st : Status) (a : Nat) {o : Nat} (ho : answerReg o) :
    (s.memRefusal st a none).reg o = s.reg o := by
  refine s.reg_memRefusal st a none (fun g hg => ?_) ?_ fun b hb => ?_
  · obtain ⟨-, -, h⟩ | ⟨h1, h2⟩ := answerReg_lt ho
    · exact h g hg
    · simp only [R.tuRefused]
      omega
  · simp only [R.mcCount]
    obtain ⟨h, -⟩ | ⟨-, h⟩ := answerReg_lt ho <;> omega
  · simp only [R.tbUeCount]
    obtain ⟨h, -⟩ | ⟨-, h⟩ := answerReg_lt ho <;> omega

theorem State.rxRefuse_spec (s : State) {r : Nat} (hr : r < 256) (tag : Nat) :
    (∃ g n, s.rxRefuse r tag = { s with regs := g, now := n }) ∧ ∀ o, answerReg o → (s.rxRefuse r tag).reg o = s.reg o := by
  obtain ⟨⟨g, n, h⟩, hregs⟩ := (s.bump (R.rxRefused r) 1).countTag_shape R.tcDropped tag 1
  obtain ⟨g', n', hb⟩ := s.bump_shape (R.rxRefused r) 1
  refine ⟨⟨g, n, ?_⟩, fun o ho => (hregs o fun k hk => (answerReg_ne_tag ho hk).1).trans (s.reg_bump_ne 1 (answerReg_ne_rx ho hr).1)⟩
  unfold State.rxRefuse
  rw [h, hb]

theorem messageAnswer_sent {s u : State} (p : MessagePacket) (st : Status)
    (hu : u = { s with regs := u.regs, now := u.now, later := u.later, mem := u.mem, rx := u.rx, freeCtr := u.freeCtr })
    (hr : ∀ k, answerReg k → u.reg k = s.reg k) :
    ∃ a b, u.answerMsg p st = { u with out := a, fabricHeld := b } ∧
      s.sentAnswer { u with out := a, fabricHeld := b } p.src (.messageAnswer p.src p.tag p.seq st 0) :=
  State.answers_beside (messageAnswer_plain p.src p.tag p.seq st 0) p.src hu hr

/-! A packet arrives. -/

theorem messageArrived_of_none {p : MessagePacket} {s : State} (c : MemCond) (hp : p.src = s.node ∨ s.feActive = true)
    (h : s.rxFor p.tag = none) : messageArrived p c s = (s.dropNoReader p.tag).answerMsg p St.noReader := by
  unfold messageArrived
  rw [if_neg (by rintro ⟨h1, h2⟩; obtain hp | hp := hp <;> simp_all), h]

/-- The payload lines of a packet are in its slot. -/
def State.storeTail (s : State) (p : MessagePacket) (r : Nat) (g : RxGrant) (c : MemCond) : State :=
  ((((s.noteCorrected g.addr c).writeMem (g.addr + 64) (s.tailLines g.addr p.payload)).stepFree).putEndpoint r
    { s.endpoint r with granted := (s.endpoint r).granted.map (fun h => if h = g then { h with msg := some p } else h) })

/-- A packet whose payload may not be written is counted. -/
def State.refuseTail (s : State) (p : MessagePacket) (r : Nat) (g : RxGrant) (st : Status) : State :=
  if st = St.context then (s.memRefusal st g.addr none).rxRefuse r p.tag else s.memRefusal st g.addr none

theorem tailLines_length (s : State) (a : Nat) (bs : List Byte) : (s.tailLines a bs).length = roundUp (16 + bs.length) 64 - 64 := by
  simp [State.tailLines]

theorem messageArrived_of_granted {p : MessagePacket} {s : State} (c : MemCond) {r : Nat} {g : RxGrant}
    (hp : p.src = s.node ∨ s.feActive = true) (h : s.rxFor p.tag = some r)
    (hg : (s.endpoint r).granted.find? (fun h => decide (h.slot = p.slot) && decide (h.node = p.src) && h.msg.isNone) = some g) :
    messageArrived p c s = if s.tierBWaits g.addr then s else
      match s.memVerdict (s.rxCtx r) .write g.addr (64 + (roundUp (16 + p.payload.length) 64 - 64))
        (writeCond g.addr (64 + (roundUp (16 + p.payload.length) 64 - 64)) c) with
      | some st => (s.refuseTail p r g st).answerMsg p st
      | none => s.storeTail p r g (writeCond g.addr (64 + (roundUp (16 + p.payload.length) 64 - 64)) c) := by
  unfold messageArrived
  rw [if_neg (by rintro ⟨h1, h2⟩; obtain hp | hp := hp <;> simp_all), h]
  dsimp only
  rw [hg]
  dsimp only
  rw [tailLines_length]
  rfl

theorem State.storeTail_spec (s : State) (p : MessagePacket) {r : Nat} {g : RxGrant} (c : MemCond) (hg : g ∈ (s.endpoint r).granted) :
    ∃ t, s.storeTail p r g c = t ∧ { g with msg := some p } ∈ (t.endpoint r).granted ∧
      (∀ i, i < roundUp (16 + p.payload.length) 64 - 64 → ∀ b, p.payload[48 + i]? = some b → t.readByte (g.addr + 64 + i) = b) ∧
      s.sameMemBut t (g.addr + 64) (roundUp (16 + p.payload.length) 64 - 64) ∧
      t = { s with regs := t.regs, now := t.now, mem := t.mem, rx := t.rx, freeCtr := t.freeCtr } ∧
      s.regsBut t [R.tmTierACe, R.tmScratchCe] := by
  obtain ⟨⟨n, m, hshape⟩, hregs⟩ := s.noteCorrected_spec g.addr c
  have hlen := tailLines_length s g.addr p.payload
  have hread (i : Nat) (hi : i < (s.tailLines g.addr p.payload).length) :=
    State.readByte_writeMem_self (s.noteCorrected g.addr c) (g.addr + 64) (s.tailLines g.addr p.payload) hi
  have hbut := State.sameMemBut_writeMem (s.noteCorrected g.addr c) (g.addr + 64) (s.tailLines g.addr p.payload)
  rw [hlen] at hbut
  have hmem (a : Nat) : (s.noteCorrected g.addr c).readByte a = s.readByte a := by rw [hshape]; rfl
  refine ⟨_, rfl, ?_, fun i hi b hb => (hread i (hlen ▸ hi)).trans ?_, fun a ha => (hbut a ha).trans (hmem a), ?_, hregs⟩
  · unfold State.storeTail
    rw [State.endpoint_putEndpoint_self]
    exact List.mem_map.mpr ⟨g, hg, if_pos rfl⟩
  · simp only [State.tailLines, List.getElem_map, List.getElem_range, hb, Option.getD_some]
  · unfold State.storeTail
    rw [hshape]
    rfl

theorem State.refuseTail_spec (s : State) (p : MessagePacket) {r : Nat} (hr : r < 256) (g : RxGrant) (st : Status) :
    (∃ e n l, s.refuseTail p r g st = { s with regs := e, now := n, later := l }) ∧
      ∀ o, answerReg o → (s.refuseTail p r g st).reg o = s.reg o := by
  obtain ⟨e, n, l, h⟩ := s.memRefusal_shape st g.addr none
  have hregs (o : Nat) (ho : answerReg o) := s.memRefusal_answers st g.addr ho
  unfold State.refuseTail
  split
  · obtain ⟨⟨e', n', h'⟩, hregs'⟩ := (s.memRefusal st g.addr none).rxRefuse_spec hr p.tag
    exact ⟨⟨e', n', l, by rw [h', h]⟩, fun o ho => (hregs' o ho).trans (hregs o ho)⟩
  · exact ⟨⟨e, n, l, h⟩, hregs⟩

/-! Line 0 of a slot is written. -/

/-- The 64 bytes of line 0: the header, then payload. -/
def State.firstLine (s : State) (g : RxGrant) (p : MessagePacket) : List Byte :=
  slotHeader p g.phase ++ (List.range 48).map (fun i => (p.payload[i]?).getD (Config.freeByte s.freeCtr (g.addr + 16 + i)))

/-- The slot holds its message, and is granted no more. -/
def State.fillSlot (s : State) (r : Nat) (g : RxGrant) (p : MessagePacket) : State :=
  ((s.writeMem g.addr (s.firstLine g p)).stepFree).putEndpoint r
    { s.endpoint r with granted := (s.endpoint r).granted.filter (fun h => decide (h ≠ g)) }

theorem slotWritten_of_granted {s : State} {r slot : Nat} {g : RxGrant} {p : MessagePacket}
    (hg : (s.endpoint r).granted.find? (fun h => decide (h.slot = slot) && h.msg.isSome) = some g) (hp : g.msg = some p) :
    slotWritten r slot s = if s.tierBWaits g.addr then s else
      ((((s.fillSlot r g p).bump (R.rxReceived r) 1).countTag R.tcReceived p.tag 1).rxEvent r).answerMsg p St.success := by
  unfold slotWritten
  dsimp only
  rw [hg]
  dsimp only
  rw [hp]
  rfl

theorem slotHeader_length (p : MessagePacket) (ph : Bool) : (slotHeader p ph).length = 16 := by
  simp [slotHeader, leBytes]

theorem State.firstLine_length (s : State) (g : RxGrant) (p : MessagePacket) : (s.firstLine g p).length = 64 := by
  simp [State.firstLine, slotHeader_length]

theorem State.readMem_of_bytes {s : State} {a n : Nat} {bs : List Byte} (hn : bs.length = n)
    (h : ∀ i (hi : i < bs.length), s.readByte (a + i) = bs[i]) : s.readMem a n = bs :=
  List.ext_getElem (by simp [State.readMem, hn]) fun i _ hi => by
    simp only [State.readMem, List.getElem_map, List.getElem_range]
    exact h i hi

theorem State.fillSlot_spec (s : State) (r : Nat) (g : RxGrant) (p : MessagePacket) :
    (s.fillSlot r g p).readMem g.addr 16 = slotHeader p g.phase ∧
    (∀ i, i < 48 → ∀ b, p.payload[i]? = some b → (s.fillSlot r g p).readByte (g.addr + 16 + i) = b) ∧
    s.sameMemBut (s.fillSlot r g p) g.addr 64 ∧
    ((s.fillSlot r g p).endpoint r).granted = (s.endpoint r).granted.filter (fun h => decide (h ≠ g)) ∧
    (∃ n m x f, s.fillSlot r g p = { s with now := n, mem := m, rx := x, freeCtr := f }) := by
  have hread (i : Nat) (hi : i < (s.firstLine g p).length) := s.readByte_writeMem_self g.addr (s.firstLine g p) hi
  have hbut := s.sameMemBut_writeMem g.addr (s.firstLine g p)
  rw [s.firstLine_length] at hbut
  have hlen := s.firstLine_length g p
  refine ⟨State.readMem_of_bytes (slotHeader_length p g.phase) fun i hi => ?_, fun i hi b hb => ?_, hbut, ?_, ⟨_, _, _, _, rfl⟩⟩
  · have h16 := slotHeader_length p g.phase
    refine (hread i (by omega)).trans ?_
    unfold State.firstLine
    exact List.getElem_append_left hi
  · have h16 := slotHeader_length p g.phase
    rw [Nat.add_assoc]
    refine (hread (16 + i) (by omega)).trans ?_
    unfold State.firstLine
    rw [List.getElem_append_right (by omega)]
    simp only [List.getElem_map, List.getElem_range, h16, Nat.add_sub_cancel_left, hb, Option.getD_some]
  · unfold State.fillSlot
    rw [State.endpoint_putEndpoint_self]

/-- The counts and the event of a slot that is written. -/
theorem State.countSlot_spec (s : State) {r : Nat} (hr : r < 256) (tag : Nat) : ∃ u,
    ((s.bump (R.rxReceived r) 1).countTag R.tcReceived tag 1).rxEvent r = u ∧
    u = { s with regs := u.regs, now := u.now, later := u.later } ∧ u.reg (R.rxReceived r) = satAdd (s.reg (R.rxReceived r)) 1 ∧
    u.later.flags = s.later.flags ++ (if s.bit (R.rxCfg r) 30 then [(s.fld (R.rxCfg r) 14 9, true)] else []) ∧
    ∀ o, answerReg o → u.reg o = s.reg o := by
  obtain ⟨⟨g, n, h⟩, hregs⟩ := (s.bump (R.rxReceived r) 1).countTag_shape R.tcReceived tag 1
  obtain ⟨g', n', hb⟩ := s.bump_shape (R.rxReceived r) 1
  have hself := (hregs (R.rxReceived r) fun k hk => by simp only [R.rxReceived, R.tcReceived]; omega).trans (s.reg_bump_self _ 1)
  have hcfg := (hregs (R.rxCfg r) fun k hk => by simp only [R.rxCfg, R.tcReceived]; omega).trans
    (s.reg_bump_ne (off := R.rxReceived r) 1 (by simp only [R.rxCfg, R.rxReceived]; omega))
  have hans (o : Nat) (ho : answerReg o) := (hregs o fun k hk => (answerReg_ne_tag ho hk).2).trans
    (s.reg_bump_ne (off := R.rxReceived r) 1 (answerReg_ne_rx ho hr).2)
  replace h : (s.bump (R.rxReceived r) 1).countTag R.tcReceived tag 1 = { s with regs := g, now := n } := h.trans (by rw [hb])
  generalize (s.bump (R.rxReceived r) 1).countTag R.tcReceived tag 1 = u at h hself hcfg hans ⊢
  have hlater : u.later = s.later := by rw [h]
  unfold State.rxEvent
  rw [show u.bit (R.rxCfg r) 30 = s.bit (R.rxCfg r) 30 from State.bit_congr hcfg 30, State.fld_congr hcfg 14 9]
  split
  · refine ⟨_, rfl, ?_, hself, ?_, hans⟩
    · rw [h]
      rfl
    · unfold State.flagLater
      rw [hlater]
  · exact ⟨u, rfl, by rw [h], hself, by rw [hlater, List.append_nil], hans⟩

/-! The delivery reply. -/

/-- Is a message the one delivered? -/
def deliveredMsg (node tag : Nat) (seq : Word) (m : Msg) : Bool :=
  decide (m.node = node) && decide (m.tag = tag) && decide (m.seq = seq) && m.sent

/-- The message is retired at its port. -/
def State.retireMsg (s : State) (p : Nat) (node tag : Nat) (seq : Word) : State :=
  ((s.setFifo p ((s.port p).fifo.filter (fun m => ! deliveredMsg node tag seq m))).wrapAdd (R.spDelivered p) 1).countTag R.tcSent tag 1

theorem delivered_of_port {node tag : Nat} {seq : Word} {s : State} {p : Nat}
    (h : (List.range 64).find? (fun p => (s.port p).fifo.any (deliveredMsg node tag seq)) = some p) :
    delivered node tag seq s = (if (s.port p).fifo.head?.any (deliveredMsg node tag seq) then (s.retireMsg p node tag seq).restartWait p
      else s.retireMsg p node tag seq).requestCredits := by
  unfold deliveredMsg at h
  unfold delivered
  dsimp only
  rw [h]
  rfl

theorem delivered_of_none {node tag : Nat} {seq : Word} {s : State}
    (h : (List.range 64).find? (fun p => (s.port p).fifo.any (deliveredMsg node tag seq)) = none) :
    delivered node tag seq s = s.pieceDelivered node tag := by
  unfold deliveredMsg at h
  unfold delivered
  dsimp only
  rw [h]

theorem State.retireMsg_spec (s : State) (p : Nat) (node tag : Nat) (seq : Word) :
    (∃ r n x, s.retireMsg p node tag seq = { s with regs := r, now := n, ports := x }) ∧
    (s.retireMsg p node tag seq).reg (R.spDelivered p) = s.reg (R.spDelivered p) + 1 ∧
    ((s.retireMsg p node tag seq).port p).fifo = (s.port p).fifo.filter (fun m => ! deliveredMsg node tag seq m) := by
  have hfifo := s.fifo_setFifo_self p ((s.port p).fifo.filter (fun m => ! deliveredMsg node tag seq m))
  have hreg := s.reg_setFifo_ne (p := p) (o := R.spDelivered p) ((s.port p).fifo.filter (fun m => ! deliveredMsg node tag seq m))
    (by simp only [R.spDelivered, R.spStatus]; omega)
  obtain ⟨r, x, h⟩ := s.setFifo_shape p ((s.port p).fifo.filter (fun m => ! deliveredMsg node tag seq m))
  unfold State.retireMsg
  generalize s.setFifo p ((s.port p).fifo.filter (fun m => ! deliveredMsg node tag seq m)) = u at hfifo hreg h ⊢
  obtain ⟨⟨r', n, h'⟩, hregs⟩ := (u.wrapAdd (R.spDelivered p) 1).countTag_shape R.tcSent tag 1
  have hself : (u.wrapAdd (R.spDelivered p) 1).reg (R.spDelivered p) = u.reg (R.spDelivered p) + 1 := State.reg_setReg_self _ _ _
  obtain ⟨r'', h''⟩ := u.setReg_shape (R.spDelivered p) (u.reg (R.spDelivered p) + BitVec.ofNat 32 1)
  have hw : u.wrapAdd (R.spDelivered p) 1 = { u with regs := r'' } := h''
  refine ⟨⟨r', n, x, by rw [h', hw, h]⟩, (hregs _ fun k hk => ?_).trans (hself.trans (by rw [hreg])), ?_⟩
  · simp only [R.spDelivered, R.tcSent]
    omega
  · rw [← hfifo, h', hw]
    rfl

/-- Does a reply answer a piece of a pair? -/
def pieceOf (node tag : Nat) (w : PieceOut) : Bool := decide (w.node = node) && decide (w.tag = tag)

theorem State.pieceDelivered_of_piece {s : State} {node tag : Nat} {x : Task} {w : PieceOut}
    (hx : s.tasks.find? (fun x => x.coll.awaiting.any (pieceOf node tag)) = some x) (hw : x.coll.awaiting.find? (pieceOf node tag) = some w) :
    s.pieceDelivered node tag = ((s.countTag R.tcSent tag 1).putTask
      { x with coll := { x.coll with awaiting := x.coll.awaiting.filter (fun y => decide (y ≠ w)) } }).settle x.ref := by
  unfold pieceOf at hx hw
  unfold State.pieceDelivered
  dsimp only
  rw [hx]
  dsimp only
  rw [hw]

theorem State.pieceDelivered_of_none {s : State} {node tag : Nat}
    (hx : s.tasks.find? (fun x => x.coll.awaiting.any (pieceOf node tag)) = none) : s.pieceDelivered node tag = s := by
  unfold pieceOf at hx
  unfold State.pieceDelivered
  dsimp only
  rw [hx]

theorem State.pieceDelivered_spec {s : State} {x : Task} (hx : s.task x.ref = some x) (hp : x.phase = .running) (tag : Nat)
    (l : List PieceOut) : ∃ t y, ((s.countTag R.tcSent tag 1).putTask { x with coll := { x.coll with awaiting := l } }).settle x.ref = t ∧
      t.task x.ref = some y ∧ y.entry = x.entry ∧ y.coll.awaiting = l ∧ s.sameMem t ∧ s.tasksBut t x.ref := by
  obtain ⟨⟨r, n, h⟩, -⟩ := s.countTag_shape R.tcSent tag 1
  rw [h]
  have hput : (({ s with regs := r, now := n } : State).putTask { x with coll := { x.coll with awaiting := l } }).task x.ref =
      some { x with coll := { x.coll with awaiting := l } } := State.task_putTask_self (s := { s with regs := r, now := n }) hx rfl
  have hbut := State.tasksBut_putTask { s with regs := r, now := n } { x with coll := { x.coll with awaiting := l } }
  obtain ⟨y, hm⟩ := State.settle_moves hput hp
  have hsame := hm.sameMem
  obtain ⟨hw, hy, hpr, -⟩ := hm
  exact ⟨_, y, rfl, hy, by rw [hpr.frame], by rw [hpr.frame], hsame, fun k hk => (hw.others k hk).trans (hbut k hk)⟩

/-! A refusal. -/

theorem State.failPortMsg_stopped {s : State} {p : Nat} (hp : p < 64) (hs : s.spStopped p = true) (m : Msg) (st : Status) :
    (s.failPortMsg p m st).spStopped p = true ∧
      ((s.failPortMsg p m st).port p).fifo = (s.port p).fifo.filter (fun x => decide (x.num ≠ m.num)) ∧
      (s.failPortMsg p m st).reg (R.spFailed p) = s.reg (R.spFailed p) + 1 ∧ (s.failPortMsg p m st).tasks = s.tasks ∧
      s.sameMem (s.failPortMsg p m st) := by
  unfold State.failPortMsg
  dsimp only
  generalize s.credits.filter _ = l
  obtain ⟨t, ht, h⟩ := State.failMsg_requested_of_stopped (s := { s with credits := l }) hp hs m st
  rw [ht]
  exact h

/-- The message a refusal is for. -/
def State.refusedMsg (s : State) (p : Nat) (num : Option Word) : Option Msg :=
  match num with
  | some n => (s.port p).fifo.find? (fun m => m.sent && decide (m.num = n))
  | none => (s.portNext p).filter s.requested

theorem messageRefused_eq (p : Nat) (num : Option Word) (st : Status) (s : State) : messageRefused p num st s =
    match s.refusedMsg p num with
    | some m => s.failPortMsg p m st
    | none => s := by
  unfold messageRefused State.refusedMsg
  cases num with
  | some n =>
    dsimp only
    cases (s.port p).fifo.find? (fun m => m.sent && decide (m.num = n)) <;> rfl
  | none =>
    dsimp only
    cases s.portNext p with
    | none => rfl
    | some m =>
      cases h : s.requested m
      · rw [Option.filter_some_neg (by simp [h])]
        exact if_neg (by simp [h])
      · rw [Option.filter_some_pos h]
        exact if_pos h

/-! A slot granted in vain. -/

/-- The test of the grants that have waited. -/
def State.slotOverdue (s : State) (slot : Nat) (g : RxGrant) : Bool := decide (g.slot = slot) && decide (g.at_ + 160000 ≤ s.cycle)

theorem State.voidGrants_of_one {s : State} {r slot : Nat} {g : RxGrant}
    (h : (s.endpoint r).granted.filter (fun h => decide (h.slot = slot) && h.msg.isNone) = [g]) :
    slotTimeout r slot s = if g.at_ + 160000 ≤ s.cycle then s.voidSlot r g else s := by
  have hpick : (s.endpoint r).granted.filter (fun h => s.slotOverdue slot h && h.msg.isNone) =
      if g.at_ + 160000 ≤ s.cycle then [g] else [] := by
    have hf : (s.endpoint r).granted.filter (fun h => s.slotOverdue slot h && h.msg.isNone) =
        ((s.endpoint r).granted.filter (fun h => decide (h.slot = slot) && h.msg.isNone)).filter
          (fun h => decide (h.at_ + 160000 ≤ s.cycle)) := by
      rw [List.filter_filter]
      refine List.filter_congr fun x _ => ?_
      unfold State.slotOverdue
      cases decide (x.slot = slot) <;> cases decide (x.at_ + 160000 ≤ s.cycle) <;> cases x.msg.isNone <;> rfl
    rw [hf, h]
    by_cases hg : g.at_ + 160000 ≤ s.cycle
    · simp [hg]
    · simp [hg]
  unfold State.slotOverdue at hpick
  unfold slotTimeout State.voidGrants
  rw [hpick]
  split <;> rfl

theorem memVerdict_congr {s t : State} (hd : t.drt = s.drt) (hm : t.reg R.tbSiteMap = s.reg R.tbSiteMap)
    (ctx : Nat) (acc : Acc) (a len : Nat) (c : MemCond) :
    t.memVerdict ctx acc a len c = s.memVerdict ctx acc a len c := by
  have hsite (n : Nat) : t.siteOf n = s.siteOf n := State.fld_congr hm _ _
  unfold State.memVerdict State.drtAllows State.bound
  rw [hd]
  simp only [hsite]

theorem voidLine_marks (n a : Nat) (ph : Bool) : (voidLine n a ph)[4]? = some 0 ∧ (voidLine n a ph)[5]? = some (BitVec.ofNat 8 (2 + boolBit ph)) := by
  simp [voidLine]

/-- What voiding one slot leaves in its line and in the count. -/
theorem State.voidSlot_line (s : State) {r : Nat} (hr : r < 256) (g : RxGrant) :
    (s.voidSlot r g).reg (R.rxVoided r) = satAdd (s.reg (R.rxVoided r)) 1 ∧
    (s.memVerdict (s.rxCtx r) .write g.addr 64 .good = none →
      (s.voidSlot r g).readMem (g.addr + 4) 2 = [0, BitVec.ofNat 8 (2 + boolBit g.phase)]) := by
  have hcount : (s.dropGrant r g).reg (R.rxVoided r) = satAdd (s.reg (R.rxVoided r)) 1 := State.reg_bump_self _ _ 1
  have hctx : (s.dropGrant r g).rxCtx r = s.rxCtx r :=
    State.fld_congr (State.reg_bump_ne (off := R.rxVoided r) _ 1 (by simp only [R.rxCfg, R.rxVoided]; omega)) 0 12
  have hsame : (s.dropGrant r g).memVerdict ((s.dropGrant r g).rxCtx r) .write g.addr 64 .good =
      s.memVerdict (s.rxCtx r) .write g.addr 64 .good := by
    rw [hctx]
    have hne : R.tbSiteMap ≠ R.rxVoided r := by
      unfold R.tbSiteMap R.rxVoided
      omega
    have hmap : (s.dropGrant r g).reg R.tbSiteMap = s.reg R.tbSiteMap := State.reg_bump_ne _ 1 hne
    exact memVerdict_congr (t := s.dropGrant r g) (s := s) rfl hmap _ _ _ _ _
  rw [← hsame]
  cases hv : (s.dropGrant r g).memVerdict ((s.dropGrant r g).rxCtx r) .write g.addr 64 .good with
  | none =>
    rw [State.voidSlot_of_served hv]
    generalize s.dropGrant r g = u at hcount ⊢
    obtain ⟨h4, h5⟩ := voidLine_marks u.freeCtr g.addr g.phase
    have hlen := voidLine_length u.freeCtr g.addr g.phase
    generalize voidLine u.freeCtr g.addr g.phase = bs at h4 h5 hlen ⊢
    have hread (i : Nat) (hi : i < bs.length) := u.readByte_writeMem_self g.addr bs hi
    obtain ⟨h4', e4⟩ := List.getElem?_eq_some_iff.mp h4
    obtain ⟨h5', e5⟩ := List.getElem?_eq_some_iff.mp h5
    refine ⟨hcount, fun _ => ?_⟩
    have hb4 := (hread 4 h4').trans e4
    have hb5 := (hread 5 h5').trans e5
    exact congrArg₂ (fun x y => [x, y]) hb4 hb5
  | some st =>
    rw [State.voidSlot_of_refused hv]
    refine ⟨(State.reg_memRefusal _ _ _ _ (fun k hk => ?_) ?_ fun b hb => ?_).trans hcount, fun h => nomatch h⟩
    all_goals
      simp only [R.rxVoided, R.tuRefused, R.mcCount, R.tbUeCount]
      omega

theorem spDelivered_not_post (p : Nat) : ¬ postReg (R.spDelivered p) := by
  rintro (h | ⟨k, hk, h | h | h | h⟩) <;>
    simp only [R.spDelivered, R.feDeadRefused, R.tcFailed, R.spStatus, R.spErrNum, R.spFailed] at h <;> omega

/-- Settles O47. -/
theorem messageDelivery : Obligations.MessageDelivery := by
  unfold Obligations.MessageDelivery
  refine ⟨fun p c s hp => ⟨fun h => ?_, fun r g hr hg => ⟨fun hw => ?_, fun hw hv => ?_, fun hw st hv => ?_⟩⟩,
    fun r slot s g p hg hp => ⟨fun hw => ?_, fun hw => ?_⟩,
    fun node tag seq s => ⟨fun p hp => ?_, fun hnone => ⟨fun x w hx ht hp hw => ?_, fun hx => ?_⟩⟩,
    fun p num st s => ⟨fun m hs hm => ?_, fun m hs hm => ?_, fun hm => ?_⟩, fun r slot s g hg => ⟨fun h => ?_, fun h => ?_⟩⟩
  · obtain ⟨⟨e, n, hd⟩, hcount, hregs⟩ := s.dropNoReader_spec p.tag
    obtain ⟨a, b, ha, hs⟩ := messageAnswer_sent p St.noReader (by rw [hd]) hregs
    refine ⟨_, congrArg Host.Outcome.next ((messageArrived_of_none c hp h).trans ha), hcount, hs, ?_⟩
    rw [hd]
  · exact congrArg Host.Outcome.next ((messageArrived_of_granted c hp hr hg).trans (if_pos hw))
  · have hact := (messageArrived_of_granted c hp hr hg).trans (if_neg (by rw [hw]; decide))
    rw [hv] at hact
    obtain ⟨t, ht, h1, h2, h3, h4, h5⟩ := s.storeTail_spec p (r := r)
      (writeCond g.addr (64 + (roundUp (16 + p.payload.length) 64 - 64)) c) (List.mem_of_find?_eq_some hg)
    exact ⟨t, congrArg Host.Outcome.next (hact.trans ht), h1, h2, h3, h4, h5⟩
  · have hact := (messageArrived_of_granted c hp hr hg).trans (if_neg (by rw [hw]; decide))
    rw [hv] at hact
    obtain ⟨⟨e, n, l, hd⟩, hregs⟩ := s.refuseTail_spec p (State.lt_of_rxFor hr).1 g st
    obtain ⟨a, b, ha, hs⟩ := messageAnswer_sent p st (by rw [hd]) hregs
    refine ⟨_, congrArg Host.Outcome.next (hact.trans ha), hs, ?_⟩
    rw [hd]
  · exact congrArg Host.Outcome.next ((slotWritten_of_granted hg hp).trans (if_pos hw))
  · have hact := (slotWritten_of_granted hg hp).trans (if_neg (by rw [hw]; decide))
    obtain ⟨h1, h2, h3, h4, n, m, x, f, hd⟩ := s.fillSlot_spec r g p
    obtain ⟨u, hu, hframe, hcount, hflags, hregs⟩ := (s.fillSlot r g p).countSlot_spec r.isLt p.tag
    rw [hu] at hact
    have hmem (a : Nat) : u.readByte a = (s.fillSlot r g p).readByte a := by rw [hframe]; rfl
    have hend : u.endpoint r = (s.fillSlot r g p).endpoint r := by rw [hframe]; rfl
    rw [hd] at hcount hflags hregs
    obtain ⟨a, b, ha, hs⟩ := messageAnswer_sent (s := s) p St.success (by rw [hframe, hd]) hregs
    refine ⟨_, congrArg Host.Outcome.next (hact.trans ha), (State.readMem_of_sameMem hmem _ _).trans h1, fun i hi b' hb => (hmem _).trans (h2 i hi b' hb),
      fun y hy => (hmem y).trans (h3 y hy), (congrArg RxRun.granted hend).trans h4, hcount, hflags, hs, ?_⟩
    rw [hframe, hd]
  · obtain ⟨⟨e, n, x, hd⟩, hcount, hfifo⟩ := s.retireMsg_spec p node tag seq
    have hact := delivered_of_port hp
    have hstep : ∃ v, (if (s.port p).fifo.head?.any (deliveredMsg node tag seq) then (s.retireMsg p node tag seq).restartWait p
        else s.retireMsg p node tag seq) = v ∧ v.reg (R.spDelivered p) = s.reg (R.spDelivered p) + 1 ∧
        (v.port p).fifo = (s.port p).fifo.filter (fun m => ! deliveredMsg node tag seq m) ∧ v.tasks = s.tasks ∧ s.sameMem v := by
      have htasks : (s.retireMsg p node tag seq).tasks = s.tasks := by rw [hd]
      have hmem : s.sameMem (s.retireMsg p node tag seq) := fun a => by rw [hd]; rfl
      split
      · exact ⟨_, rfl, hcount, (State.fifo_restartWait _ p p).trans hfifo, htasks, hmem⟩
      · exact ⟨_, rfl, hcount, hfifo, htasks, hmem⟩
    obtain ⟨v, hv, k1, k2, k3, k4⟩ := hstep
    rw [hv] at hact
    have k := v.requestCredits_posts
    exact ⟨_, congrArg Host.Outcome.next hact, (k.regs _ (spDelivered_not_post p)).trans k1, (congrArg SendPort.fifo (k.port p)).trans k2,
      k.tasks.trans k3, k4.trans k.sameMem⟩
  · obtain ⟨t, y, ht, h⟩ := State.pieceDelivered_spec ht hp tag (x.coll.awaiting.filter (fun z => decide (z ≠ w)))
    exact ⟨t, y, congrArg Host.Outcome.next (((delivered_of_none hnone).trans (State.pieceDelivered_of_piece hx hw)).trans ht), h⟩
  · exact congrArg Host.Outcome.next ((delivered_of_none hnone).trans (State.pieceDelivered_of_none hx))
  · have hact := messageRefused_eq p num st s
    rw [show s.refusedMsg p num = some m from hm] at hact
    have h := State.failPortMsg_stops p.isLt hs m st
    exact ⟨_, congrArg Host.Outcome.next hact, h.stopped, h.status, h.num, congrArg SendPort.fifo (h.port p), h.tasks, h.mem⟩
  · have hact := messageRefused_eq p num st s
    rw [show s.refusedMsg p num = some m from hm] at hact
    exact ⟨_, congrArg Host.Outcome.next hact, State.failPortMsg_stopped p.isLt hs m st⟩
  · have hact := messageRefused_eq p num st s
    rw [show s.refusedMsg p num = none from hm] at hact
    exact congrArg Host.Outcome.next hact
  · have hact := (State.voidGrants_of_one hg).trans (if_pos h)
    obtain ⟨hv, hbut, hgr⟩ := s.voidSlot_spec r g
    obtain ⟨hcount, hline⟩ := s.voidSlot_line r.isLt g
    exact ⟨_, congrArg Host.Outcome.next hact, hcount, hgr, hbut, hline, hv.frame⟩
  · exact congrArg Host.Outcome.next ((State.voidGrants_of_one hg).trans (if_neg (by omega)))

end Sys2Proof.Machine
end

section
/-!
### The exchange of a COLLECTIVE (R175 to R181)
-/
namespace Sys2Proof.Machine

/-! Credits. -/

/-- A task with one more credit, and what the member announces with it. -/
def Task.credited (x : Task) (rank stage piece : Nat) (ann : Announcement) : Task :=
  { x with coll := { x.coll with credits := x.coll.credits ++ [(rank, stage, piece)],
                                 announced := if x.phase = .running then x.coll.announced else x.coll.announced ++ [ann] } }

theorem creditGranted_eq {ref : TaskRef} {s : State} {x : Task} (hx : s.task ref = some x) (ho : openCollective x = true)
    (rank stage piece : Nat) (ann : Announcement) : creditGranted ref rank stage piece ann s =
      if x.phase = .running ∧ ann ≠ x.announcement s.node then s.failTask ref St.mismatch
      else if x.coll.credits.contains (rank, stage, piece) then s
      else s.putTask (x.credited rank stage piece ann) := by
  unfold creditGranted
  rw [hx]
  exact if_neg (by rw [ho]; decide)

/-! Pieces leave. -/

/-- A piece's port is noted by the tasks that wait for its answer. -/
def Task.notedAt (n tag : Nat) (pc : Piece) (p : Nat) (x : Task) : Task :=
  { x with coll := { x.coll with awaiting := x.coll.awaiting.map (fun w =>
      if w.node = n ∧ w.tag = tag ∧ w.stage = pc.stage ∧ w.index = pc.index then { w with port := some p } else w) } }

/-- A task whose wait for answers may have been noted, under a tag. -/
def Task.awaits (tag : Nat) (x y : Task) : Prop :=
  (∃ l, y = { x with coll := { x.coll with awaiting := l } }) ∧ ((∀ w ∈ x.coll.awaiting, w.tag ≠ tag) → y = x)

theorem Task.awaits.refl (tag : Nat) (x : Task) : x.awaits tag x := ⟨⟨_, rfl⟩, fun _ => rfl⟩

theorem Task.awaits.trans {tag : Nat} {x y z : Task} (h : x.awaits tag y) (k : y.awaits tag z) : x.awaits tag z := by
  obtain ⟨⟨l, hl⟩, hn⟩ := h
  obtain ⟨⟨m, hm⟩, kn⟩ := k
  refine ⟨⟨m, by rw [hm, hl]⟩, fun hw => ?_⟩
  have hyx := hn hw
  exact (kn (by rw [hyx]; exact hw)).trans hyx

theorem Task.notedAt_awaits (n tag : Nat) (pc : Piece) (p : Nat) (x : Task) : x.awaits tag (x.notedAt n tag pc p) := by
  refine ⟨⟨_, rfl⟩, fun hw => ?_⟩
  have hsame : x.coll.awaiting.map (fun w =>
      if w.node = n ∧ w.tag = tag ∧ w.stage = pc.stage ∧ w.index = pc.index then { w with port := some p } else w) = x.coll.awaiting :=
    (List.map_congr_left fun w h => if_neg fun hc => hw w h hc.2.1).trans (List.map_id _)
  unfold Task.notedAt
  rw [hsame]

/-- Pieces have left under a tag: their ports are noted, nothing is taken back. -/
structure State.Pieces (s t : State) (tag : Nat) : Prop where
  frame : t = { s with tasks := t.tasks, out := t.out, fabricHeld := t.fabricHeld }
  none : ∀ r, s.task r = none → t.task r = none
  tasks : ∀ r x, s.task r = some x → ∃ y, t.task r = some y ∧ x.awaits tag y
  kept : s.outKept t

theorem State.Pieces.refl (s : State) (tag : Nat) : s.Pieces s tag := ⟨rfl, fun _ h => h, fun _ x h => ⟨x, h, .refl tag x⟩, .refl s⟩

theorem State.Pieces.trans {s t u : State} {tag : Nat} (h : s.Pieces t tag) (k : t.Pieces u tag) : s.Pieces u tag where
  frame := k.frame.trans (by rw [h.frame])
  none r hr := k.none r (h.none r hr)
  tasks r x hx := by
    obtain ⟨y, hy, hxy⟩ := h.tasks r x hx
    obtain ⟨z, hz, hyz⟩ := k.tasks r y hy
    exact ⟨z, hz, hxy.trans hyz⟩
  kept := h.kept.trans k.kept

theorem State.emitFabric_piece (s : State) (n tag : Nat) (pc : Piece) : s.Pieces (s.emitFabric (.collectivePiece n tag pc 0)) tag ∧
    (s.bit R.feCtl 31 = true → (s.emitFabric (.collectivePiece n tag pc 0)).packetLeft (.collectivePiece n tag pc)) := by
  unfold State.emitFabric
  split
  next hf =>
    unfold State.placeOut
    split
    next p _ =>
      have hmap := s.task_map_eq (Task.notedAt n tag pc p) (fun _ => rfl)
      refine ⟨⟨rfl, fun r hr => ?_, fun r x hx => ⟨x.notedAt n tag pc p, ?_, x.notedAt_awaits n tag pc p⟩,
        ⟨fun _ h => List.mem_cons_of_mem _ h, fun _ h => h⟩⟩, fun _ => ⟨p, .inl List.mem_cons_self⟩⟩
      · exact (hmap r).trans (by rw [hr]; rfl)
      · exact (hmap r).trans (by rw [hx]; rfl)
    next =>
      exact ⟨⟨rfl, fun _ h => h, fun _ x h => ⟨x, h, .refl tag x⟩, ⟨fun _ h => h, fun _ h => List.mem_append_left _ h⟩⟩,
        fun _ => ⟨0, .inr (List.mem_append_right _ (List.mem_singleton_self _))⟩⟩
  next hf => exact ⟨.refl s tag, fun h => absurd h hf⟩

theorem State.foldl_pieces (tag : Nat) (pc : Piece) (l : List PieceOut) (s : State) :
    s.Pieces (l.foldl (fun u w => u.emitFabric (.collectivePiece w.node tag pc 0)) s) tag ∧
    (s.bit R.feCtl 31 = true → ∀ w ∈ l,
      (l.foldl (fun u w => u.emitFabric (.collectivePiece w.node tag pc 0)) s).packetLeft (.collectivePiece w.node tag pc)) := by
  induction l generalizing s with
  | nil => exact ⟨.refl s tag, fun _ _ h => absurd h List.not_mem_nil⟩
  | cons q l ih =>
    obtain ⟨h1, h2⟩ := s.emitFabric_piece q.node tag pc
    obtain ⟨k1, k2⟩ := ih (s.emitFabric (.collectivePiece q.node tag pc 0))
    refine ⟨h1.trans k1, fun hf w hw => ?_⟩
    obtain rfl | hw := List.mem_cons.mp hw
    · exact k1.kept.packetLeft (h2 hf)
    · exact k2 ((by rw [h1.frame]; rfl : (s.emitFabric (.collectivePiece q.node tag pc 0)).bit R.feCtl 31 = s.bit R.feCtl 31).trans hf) w hw

/-- The bytes of a piece on the wire, and the ingots counted. -/
theorem State.wireEncode_spec (s : State) (x : Task) (fmt : Nat) (bs : List Byte) :
    (∃ r n, (s.wireEncode x fmt bs).2 = { s with regs := r, now := n }) ∧
    (∀ o, 0x4010b0 ≤ o → (s.wireEncode x fmt bs).2.reg o = s.reg o) ∧
    ((collCtl x.entry).wire = false → (s.wireEncode x fmt bs).1 = bs) := by
  unfold State.wireEncode
  dsimp only
  split
  next hw =>
    refine ⟨?_, ?_, fun h => by rw [h] at hw; exact Bool.noConfusion hw⟩
    · refine List.foldlRecOn (motive := fun a : List Byte × State => ∃ r n, a.2 = { s with regs := r, now := n }) _ _ ⟨_, _, rfl⟩ ?_
      rintro ⟨a, u⟩ ⟨r, n, hu⟩ b _
      obtain ⟨⟨r', n', h⟩, -⟩ := State.countIngot_spec u
        (buildIngot (wireParams (collCtl x.entry).wslot fmt) (s.slotLens (collCtl x.entry).wslot) (s.slotGen (collCtl x.entry).wslot) b).1
        (buildIngot (wireParams (collCtl x.entry).wslot fmt) (s.slotLens (collCtl x.entry).wslot) (s.slotGen (collCtl x.entry).wslot) b).2 b
      obtain rfl : u = { s with regs := r, now := n } := hu
      exact ⟨r', n', h⟩
    · intro o ho
      refine List.foldlRecOn (motive := fun a : List Byte × State => a.2.reg o = s.reg o) _ _ rfl ?_
      rintro ⟨a, u⟩ hu b _
      exact ((State.countIngot_spec u _ _ b).2 o ho).trans hu
  · exact ⟨⟨_, _, rfl⟩, fun _ _ => rfl, fun _ => rfl⟩

/-- The answers a piece waits for. -/
def State.pieceOuts (s : State) (x : Task) (qs : List Nat) (stage i : Nat) : List PieceOut :=
  qs.map (fun q => ({ node := (x.group s.node).getD q 0, tag := (collCtl x.entry).ctag, rank := q, stage := stage, index := i,
                      at_ := s.cycle, port := none } : PieceOut))

/-- A task that has sent a piece. -/
def State.sentPiece (s : State) (x : Task) (qs : List Nat) (stage i : Nat) : Task :=
  { x with coll := { x.coll with sent := x.coll.sent ++ qs.map (fun q => (q, stage, i)),
                                 awaiting := x.coll.awaiting ++ s.pieceOuts x qs stage i, readyAt := none } }

/-- A piece as it crosses the fabric. -/
def State.pieceOf (s : State) (x : Task) (stage i : Nat) (bs : List Byte) : Piece :=
  { rank := x.rank s.node, stage := stage, index := i, ann := x.announcement s.node, bytes := bs }

theorem State.sendPiece_eq (s : State) (x : Task) (qs : List Nat) (stage i : Nat) (bs : List Byte) : s.sendPiece x qs stage i bs =
    (s.pieceOuts x qs stage i).foldl (fun u w => u.emitFabric (.collectivePiece w.node (collCtl x.entry).ctag
      (s.pieceOf x stage i (s.wireEncode x (x.sendStream s.node stage (qs.headD 0)).fmt bs).1) 0))
      ((s.wireEncode x (x.sendStream s.node stage (qs.headD 0)).fmt bs).2.putTask (s.sentPiece x qs stage i)) := by
  unfold State.sendPiece
  generalize s.wireEncode x (x.sendStream s.node stage (qs.headD 0)).fmt bs = e
  obtain ⟨wire, u⟩ := e
  rfl

/-- R176, R275: what sending a piece does. -/
theorem State.sendPiece_spec {s : State} {r : TaskRef} {x : Task} (hx : s.task r = some x) (qs : List Nat) (stage i : Nat) (bs : List Byte)
    (halone : ∀ u, u ∈ s.tasks → u.ref ≠ r → ∀ w, w ∈ u.coll.awaiting → w.tag ≠ (collCtl x.entry).ctag) :
    ∃ t l, s.sendPiece x qs stage i bs = t ∧ t.task r = some { s.sentPiece x qs stage i with
      coll := { (s.sentPiece x qs stage i).coll with awaiting := l } } ∧ s.sameMem t ∧ s.tasksBut t r ∧
      (s.bit R.feCtl 31 = true → ∀ p, p ∈ qs → ∃ pc,
        t.packetLeft (.collectivePiece ((x.group s.node).getD p 0) (collCtl x.entry).ctag pc) ∧
        pc.rank = x.rank s.node ∧ pc.stage = stage ∧ pc.index = i ∧ pc.ann = x.announcement s.node ∧
        ((collCtl x.entry).wire = false → pc.bytes = bs)) := by
  obtain rfl : x.ref = r := State.ref_of_task hx
  rw [s.sendPiece_eq]
  obtain ⟨⟨g, n, hshape⟩, hregs, hwire⟩ := s.wireEncode_spec x (x.sendStream s.node stage (qs.headD 0)).fmt bs
  generalize s.wireEncode x (x.sendStream s.node stage (qs.headD 0)).fmt bs = e at hshape hregs hwire ⊢
  have hfe : (e.2.putTask (s.sentPiece x qs stage i)).bit R.feCtl 31 = s.bit R.feCtl 31 := State.bit_congr (hregs _ (by decide)) 31
  have hput : (e.2.putTask (s.sentPiece x qs stage i)).task x.ref = some (s.sentPiece x qs stage i) := by
    rw [hshape]
    exact State.task_putTask_self (s := { s with regs := g, now := n }) hx rfl
  have hbut : s.tasksBut (e.2.putTask (s.sentPiece x qs stage i)) x.ref := by
    rw [hshape]
    exact State.tasksBut_putTask { s with regs := g, now := n } (s.sentPiece x qs stage i)
  have hmem : s.sameMem (e.2.putTask (s.sentPiece x qs stage i)) := by
    rw [hshape]
    exact fun _ => rfl
  generalize e.2.putTask (s.sentPiece x qs stage i) = u at hfe hput hbut hmem ⊢
  obtain ⟨hp, hleft⟩ := State.foldl_pieces (collCtl x.entry).ctag (s.pieceOf x stage i e.1) (s.pieceOuts x qs stage i) u
  generalize (s.pieceOuts x qs stage i).foldl (fun u w => u.emitFabric (.collectivePiece w.node (collCtl x.entry).ctag
    (s.pieceOf x stage i e.1) 0)) u = t at hp hleft ⊢
  obtain ⟨y, hy, ⟨l, hl⟩, -⟩ := hp.tasks _ _ hput
  refine ⟨t, l, rfl, hy.trans (congrArg some hl), hmem.trans fun a => by rw [hp.frame]; rfl, fun k hk => ?_, fun hf p hps =>
    ⟨s.pieceOf x stage i e.1, ?_, rfl, rfl, rfl, rfl, hwire⟩⟩
  · rw [← hbut k hk]
    cases hz : u.task k with
    | none => exact hp.none k hz
    | some z =>
      obtain ⟨z', hz', -, hsame⟩ := hp.tasks k z hz
      have hzs : s.task k = some z := (hbut k hk).symm.trans hz
      have hzr : z.ref = k := State.ref_of_task hzs
      rw [hz', hsame (halone z (State.mem_of_task hzs) (by rw [hzr]; exact hk))]
  · exact hleft (hfe.trans hf) _ (List.mem_map.mpr ⟨p, hps, rfl⟩)

/-- The members the next piece for a rank goes to. -/
def State.pieceRanks (s : State) (x : Task) (rank : Nat) : List Nat :=
  if x.isRoot s.node then x.peersOf s.node else (x.peersOf s.node).filter (fun q => decide (q = rank))

theorem pieceSend_of_running {ref : TaskRef} {s : State} {x : Task} {rank q stage i r : Nat} {l : List Nat} {bs : List Byte}
    (hx : s.task ref = some x) (hp : x.phase = .running) (ho : openCollective x = true) (hq : s.pieceRanks x rank = q :: l)
    (hn : x.nextPiece s.node q = some (r, stage, i)) (hb : x.pieceBytes s.node stage q i = some bs) : pieceSend ref rank s =
      if (q :: l).all (fun p => x.coll.credits.contains (p, stage, i) &&
        decide (s.pairWaiting ((x.group s.node).getD p 0) (collCtl x.entry).ctag = []))
      then (s.sendPiece x (q :: l) stage i bs).proceed ref else s := by
  unfold State.pieceRanks at hq
  unfold pieceSend
  rw [hx]
  refine (if_neg (by rw [hp, ho]; simp)).trans ?_
  dsimp only
  rw [hq]
  dsimp only
  rw [hn]
  dsimp only
  rw [hb]

/-! Pieces arrive. -/

theorem State.writeDevice_cases (s : State) (x : Task) (ws : List WriteReq) :
    s.writeDevice x ws = (s.bump R.feDeadRefused 1).failTask x.ref St.deadDestination ∨
    ∃ u, s.Beyond u ∧ s.writeDevice x ws = u.putTask (x.writing ws s.cycle) := by
  unfold State.writeDevice
  dsimp only
  split
  · exact .inl rfl
  · exact .inr ⟨_, State.foldl_emitFabric_beyond WriteReq.packet WriteReq.packet_plain (ws.filter (fun w =>
      decide ((match w.cells with | c :: _ => c.addr / 2 ^ 48 | [] => s.node) ≠ s.node))) s, rfl⟩

/-- The outputs a task has ready leave, or it fails: the exchange it has had stays. -/
theorem State.emitOutputs_ends {s : State} {r : TaskRef} {x : Task} (hx : s.task r = some x) (hp : x.phase = .running) :
    ∃ y, ((s.emitOutputs r).proceed r).task r = some y ∧ y.entry = x.entry ∧ y.coll.received = x.coll.received ∧
      s.tasksBut ((s.emitOutputs r).proceed r) r := by
  have hr : x.ref = r := State.ref_of_task hx
  have hgo (u : State) (z : Task) (he : s.emitOutputs r = u.putTask z) (hu : u.tasks = s.tasks) (hzr : z.ref = r)
      (hzp : z.phase = .running) (hze : z.entry = x.entry) (hzc : z.coll = x.coll) : ∃ y, ((s.emitOutputs r).proceed r).task r = some y ∧
        y.entry = x.entry ∧ y.coll.received = x.coll.received ∧ s.tasksBut ((s.emitOutputs r).proceed r) r := by
    have hput : (u.putTask z).task r = some z := State.task_putTask_self ((State.task_of_tasks hu r).trans hx) hzr
    obtain ⟨y, hmv⟩ := State.proceed_moves hput hzp
    rw [he]
    refine ⟨y, hmv.2.1, ?_, ?_, hmv.but fun k hk => (State.tasksBut_putTask_of_ref u hzr k hk).trans (State.task_of_tasks hu k)⟩
    · rw [hmv.2.2.1.frame]
      exact hze
    · rw [hmv.2.2.1.frame, ← hzc]
  have hfail (u : State) (st : Status) (hu : u.tasks = s.tasks) (he : s.emitOutputs r = u.failTask r st) :
      ∃ y, ((s.emitOutputs r).proceed r).task r = some y ∧ y.entry = x.entry ∧ y.coll.received = x.coll.received ∧
        s.tasksBut ((s.emitOutputs r).proceed r) r := by
    obtain ⟨hw, z, hz, hzf, hph⟩ := State.failTask_of_running ((State.task_of_tasks hu r).trans hx) hp st
    rw [← he] at hw hz
    obtain ⟨hw', y, hy, hyf, -⟩ := State.proceed_of_failed hz hph
    exact ⟨y, hy, by rw [hyf, hzf], by rw [hyf, hzf], fun k hk => ((hw.trans hw').others k hk).trans (State.task_of_tasks hu k)⟩
  obtain ⟨-, he | ⟨cells, he⟩⟩ | ⟨-, ⟨m, he⟩ | ⟨g, ws, he⟩⟩ := State.emitOutputs_cases hx
  · exact hgo s _ he rfl hr hp rfl rfl
  · obtain hf | ⟨u, last, hu, hw⟩ := s.writeHost_cases ((s.emitted x (s.readyOutputs x (x.finalTensor s.node))).noteBlocks cells) cells
    · exact hfail s _ rfl (he.trans (hf.trans (congrArg (s.failTask · _) hr)))
    · exact hgo u _ (he.trans hw) hu.2.1 hr hp rfl rfl
  · exact hgo s _ he rfl hr hp rfl rfl
  · obtain hf | ⟨u, hu, hw⟩ := s.writeDevice_cases { s.emitted x (s.readyOutputs x (x.finalTensor s.node)) with gather := g } ws
    · obtain ⟨b, c, hb⟩ := s.bump_shape R.feDeadRefused 1
      exact hfail (s.bump R.feDeadRefused 1) _ (by rw [hb]) (he.trans (hf.trans (congrArg (State.failTask _ · _) hr)))
    · exact hgo u _ (he.trans hw) hu.2.1 hr hp rfl rfl

theorem State.answerPiece_spec (s : State) (x : Task) (rank : Nat) : ∃ a b, s.answerPiece x rank = { s with out := a, fabricHeld := b } := by
  obtain ⟨a, b, h, -⟩ := State.answerTo_of_plain
    (messageAnswer_plain ((x.group s.node).getD rank 0) (collCtl x.entry).ctag 0 St.success 0) s ((x.group s.node).getD rank 0)
  exact ⟨a, b, h⟩

/-- A piece is put in its place, and counted. -/
def State.takePiece (s : State) (x : Task) (p : Piece) (bs : List Byte) : State :=
  (((s.answerPiece x p.rank).countTag R.tcReceived (collCtl x.entry).ctag 1).countTerms x (x.placePiece p bs)).putTask (x.placePiece p bs)

theorem pieceReceive_of_running {ref : TaskRef} {p : Piece} {s : State} {x : Task} (hx : s.task ref = some x) (hp : x.phase = .running)
    (ho : openCollective x = true) : pieceReceive ref p s =
      if p.ann ≠ x.announcement s.node then (s.answerPiece x p.rank).failTask ref St.mismatch
      else if ! x.coll.granted.contains (p.rank, p.stage, p.index) ∨ x.coll.received.contains (p.rank, p.stage, p.index) then s
      else match s.pieceContent x p (min (2 ^ (collCtl x.entry).chunkLog2)
          ((x.recvStream s.node p.stage p.rank).bytes - p.index * 2 ^ (collCtl x.entry).chunkLog2)) with
      | .error st => (s.answerPiece x p.rank).codecFail x st
      | .ok bs => ((s.takePiece x p bs).emitOutputs ref).proceed ref := by
  unfold pieceReceive
  rw [hx]
  exact if_neg (by rw [hp, ho]; simp)

theorem State.takePiece_spec {s : State} {x : Task} (hx : s.task x.ref = some x) (p : Piece) (bs : List Byte) :
    (s.takePiece x p bs).task x.ref = some (x.placePiece p bs) ∧ s.tasksBut (s.takePiece x p bs) x.ref := by
  obtain ⟨a, b, h1⟩ := s.answerPiece_spec x p.rank
  obtain ⟨⟨r, c, h2⟩, -⟩ := (s.answerPiece x p.rank).countTag_shape R.tcReceived (collCtl x.entry).ctag 1
  obtain ⟨⟨r', h3⟩, -⟩ := ((s.answerPiece x p.rank).countTag R.tcReceived (collCtl x.entry).ctag 1).countTerms_spec x (x.placePiece p bs)
  unfold State.takePiece
  have htasks : (((s.answerPiece x p.rank).countTag R.tcReceived (collCtl x.entry).ctag 1).countTerms x (x.placePiece p bs)).tasks = s.tasks := by
    rw [h3, h2, h1]
  generalize ((s.answerPiece x p.rank).countTag R.tcReceived (collCtl x.entry).ctag 1).countTerms x (x.placePiece p bs) = u at htasks ⊢
  exact ⟨State.task_putTask_self ((State.task_of_tasks htasks _).trans hx) rfl, fun k hk =>
    (State.tasksBut_putTask u (x.placePiece p bs) k hk).trans (State.task_of_tasks htasks k)⟩

/-! Failure notices. -/

theorem State.noticeTask_spec {s : State} {ctag : Nat} {x : Task} (h : s.noticeTask ctag = some x) :
    x.phase ≠ .recordIssued ∧ x.phase ≠ .journal := by
  have key : ∀ l : List Task, (match l.find? (fun t => t.engine.isSome) with | some t => some t | none => l.head?) = some x → x ∈ l := by
    intro l hl
    split at hl
    next t ht => exact Option.some.inj hl ▸ List.mem_of_find?_eq_some ht
    next => exact List.mem_of_mem_head? hl
  have hm := key _ h
  simp only [List.mem_filter, Bool.and_eq_true, decide_eq_true_eq] at hm
  exact hm.2.2

theorem State.failDone_of_success {s : State} {x : Task} (hx : s.task x.ref = some x) (hs : x.status = St.success) (st : Status) :
    (s.failDone x st).task x.ref = some { x with status := st, failedAt := s.cycle, bytes := 0, digest := 0 } := by
  have htasks : (s.failDone x st).tasks =
      ((s.failEffects x st).putTask { x with status := st, failedAt := s.cycle, bytes := 0, digest := 0 }).tasks := by
    unfold State.failDone
    rw [if_pos hs]
    rfl
  exact (State.task_of_tasks htasks _).trans
    (State.task_putTask_self ((State.task_of_tasks (s.tasks_failEffects x st) _).trans hx) rfl)

/-- A task that is open fails with the status given. -/
theorem State.fail_of_open {s : State} {x : Task} (hx : s.task x.ref = some x) (hf : x.phase ≠ .failing) (hd : x.phase ≠ .finished)
    (hr : x.phase ≠ .recordIssued) (hj : x.phase ≠ .journal) (st : Status) : ∃ y, (s.fail x.ref st).task x.ref = some y ∧
      y.entry = x.entry ∧ y.status = st ∧ (y.phase = .failing ∨ y.phase = .finished) := by
  by_cases hp : x.phase = .running
  · obtain ⟨-, y, hy, hyf, hph⟩ := State.failTask_of_running hx hp st
    obtain ⟨z, hz, -, hsame⟩ := (State.advanceQueue_flow (s.failTask x.ref st) x.ref.sq).tasks _ _ hy
    obtain rfl := hsame (by obtain h | h := hph <;> rw [h] <;> decide) (by obtain h | h := hph <;> rw [h] <;> decide)
    exact ⟨z, hz, by rw [hyf], by rw [hyf], hph⟩
  · have hu : x.phase.undispatched = true := by
      cases h : x.phase <;> simp_all [Phase.undispatched]
    obtain ⟨-, -, hy⟩ := State.fail_of_undispatched hx hu st
    exact ⟨_, hy, rfl, rfl, .inr rfl⟩

/-! A member is detached. -/

/-- A member is recorded as detached, counted and told so. -/
def State.noteDetached (s : State) (x : Task) (node : Nat) : State :=
  ((s.latchReg R.rdMcastDetach node node).bump R.rdMcastDetachCount 1).emitFabric (.failureNotice node (collCtl x.entry).ctag St.detached 0)

theorem failureNotice_plain (n t : Nat) (st : Status) (p : Nat) : (Out.failureNotice n t st p).plain := ⟨fun _ _ => rfl, rfl, fun _ => rfl⟩

theorem State.noteDetached_spec (s : State) (x : Task) (node : Nat) : ∃ u, s.noteDetached x node = u ∧ u.tasks = s.tasks ∧ s.sameMem u ∧
    u.reg R.rdMcastDetachCount = satAdd (s.reg R.rdMcastDetachCount) 1 ∧
    u.later.latches = s.later.latches ++ [{ off := R.rdMcastDetach, key := node, val := node, also := [] }] ∧
    (s.bit R.feCtl 31 = true → u.packetLeft (.failureNotice node (collCtl x.entry).ctag St.detached)) := by
  have hcount := State.reg_bump_self (s.latchReg R.rdMcastDetach node node) R.rdMcastDetachCount 1
  have hfe := State.reg_bump_ne (o := R.feCtl) (off := R.rdMcastDetachCount) (s.latchReg R.rdMcastDetach node node) 1 (by decide)
  obtain ⟨r, c, hb⟩ := State.bump_shape (s.latchReg R.rdMcastDetach node node) R.rdMcastDetachCount 1
  unfold State.noteDetached
  rw [hb] at hcount hfe ⊢
  obtain ⟨a, b, h, hs⟩ := State.emitFabric_of_plain (failureNotice_plain node (collCtl x.entry).ctag St.detached 0)
    { s.latchReg R.rdMcastDetach node node with regs := r, now := c }
  rw [h]
  exact ⟨_, rfl, rfl, fun _ => rfl, hcount, rfl, fun hf =>
    hs.packetLeft (o := .failureNotice node (collCtl x.entry).ctag St.detached) (fun _ _ => rfl) ((State.bit_congr hfe 31).trans hf)⟩

theorem State.running_of_detachDue {s : State} {x : Task} {rank : Nat} (h : s.detachDue x rank = true) : x.phase = .running := by
  simp only [State.detachDue, Bool.and_eq_true, decide_eq_true_eq] at h
  exact h.1.1.1.1

theorem detachMember_of_due {ref : TaskRef} {rank : Nat} {s : State} {x : Task} (hx : s.task ref = some x) (h : s.detachDue x rank = true) :
    detachMember ref rank s = ((s.noteDetached x ((x.group s.node).getD rank 0)).putTask
      { x with coll := { x.coll with detached := x.coll.detached ++ [rank] } }).proceed ref := by
  unfold detachMember
  rw [hx]
  exact if_pos h

theorem failureNotice_of_task {ctag : Nat} {st : Status} {s : State} {x : Task} (h : s.noticeTask ctag = some x) :
    failureNotice ctag st s = if x.phase = .finished then s.failDone x st else s.fail x.ref st := by
  unfold failureNotice
  rw [h]

/-- Settles O42. -/
theorem collectiveExchange : Obligations.CollectiveExchange := by
  unfold Obligations.CollectiveExchange
  refine ⟨fun ref s x rank stage piece ann hx ho => ⟨fun hc hann => ?_, fun hp hann => ?_, fun hc hann => ?_⟩,
    fun ref s x rank q stage i r l bs hx hp ho hq hn hcr hb => ⟨fun hw halone => ?_, fun hw => ?_⟩,
    fun ref s x p hx hp ho => ⟨fun hann hg hr bs hb => ?_, fun hann h => ?_, fun hann => ?_⟩,
    fun ctag st s x hn hx hph => ?_, fun ref s x rank hx => ⟨fun hd => ?_, fun hd => ?_⟩⟩
  · have hact := creditGranted_eq hx ho rank stage piece ann
    rw [if_neg (fun h => h.2 (hann h.1)), if_neg (by rw [hc]; decide)] at hact
    have hr : (x.credited rank stage piece ann).ref = ref := (State.ref_of_task hx :)
    exact ⟨_, congrArg Host.Outcome.next hact, State.task_putTask_self hx hr, rfl, State.tasksBut_putTask_of_ref s hr⟩
  · have hact := creditGranted_eq hx ho rank stage piece ann
    rw [if_pos ⟨hp, hann⟩] at hact
    obtain ⟨hw, y, hy, hyf, hph⟩ := State.failTask_of_running hx hp St.mismatch
    exact ⟨_, y, congrArg Host.Outcome.next hact, hy, by rw [hyf], by rw [hyf], phase_ne_running_of_failed hph, hw.others⟩
  · exact congrArg Host.Outcome.next ((creditGranted_eq hx ho rank stage piece ann).trans ((if_neg (fun h => h.2 (hann h.1))).trans
      (if_pos hc)))
  · have hact := pieceSend_of_running hx hp ho hq hn hb
    rw [if_pos (List.all_eq_true.mpr fun p hp => by
      rw [List.contains_iff_mem.mpr (hcr p hp), decide_eq_true (hw p hp)]; rfl)] at hact
    obtain ⟨u, m, hu, hy, hmem, hbut, hleft⟩ := State.sendPiece_spec hx (q :: l) stage i bs halone
    rw [hu] at hact
    obtain ⟨z, hz⟩ := State.proceed_moves hy hp
    have hzm := hz.sameMem
    obtain ⟨hwk, hzt, hpr, -⟩ := hz
    refine ⟨_, z, congrArg Host.Outcome.next hact, hzt, by rw [hpr.frame]; rfl, by rw [hpr.frame]; rfl, fun hf p hps => ?_,
      hmem.trans hzm, fun k hk => (hwk.others k hk).trans (hbut k hk)⟩
    obtain ⟨pc, hpc, hrest⟩ := hleft hf p hps
    exact ⟨pc, hwk.around.kept.packetLeft hpc, hrest⟩
  · obtain ⟨p, hp', hwait⟩ := hw
    refine congrArg Host.Outcome.next ((pieceSend_of_running hx hp ho hq hn hb).trans (if_neg fun h => hwait ?_))
    have hall := List.all_eq_true.mp h p hp'
    simp only [Bool.and_eq_true, decide_eq_true_eq] at hall
    exact hall.2
  · obtain rfl : x.ref = ref := State.ref_of_task hx
    have hact := pieceReceive_of_running (p := p) hx hp ho
    rw [if_neg (not_not_intro hann), if_neg (by
      rintro (h | h)
      · rw [List.contains_iff_mem.mpr hg] at h
        exact Bool.noConfusion h
      · exact hr (List.contains_iff_mem.mp h)), hb] at hact
    obtain ⟨ht, hbut⟩ := State.takePiece_spec hx p bs
    obtain ⟨y, hy, he, hrec, hothers⟩ := State.emitOutputs_ends ht hp
    exact ⟨_, y, congrArg Host.Outcome.next hact, hy, he, hrec, fun k hk => (hothers k hk).trans (hbut k hk)⟩
  · refine congrArg Host.Outcome.next ((pieceReceive_of_running hx hp ho).trans ((if_neg (not_not_intro hann)).trans (if_pos ?_)))
    refine h.imp (fun h => ?_) (fun h => List.contains_iff_mem.mpr h)
    rw [Bool.not_eq_true', ← Bool.not_eq_true]
    exact fun hc => h (List.contains_iff_mem.mp hc)
  · have hact := pieceReceive_of_running (p := p) hx hp ho
    rw [if_pos hann] at hact
    obtain ⟨a, b, h⟩ := s.answerPiece_spec x p.rank
    rw [h] at hact
    obtain ⟨hw, y, hy, hyf, hph⟩ := State.failTask_of_running (s := { s with out := a, fabricHeld := b }) hx hp St.mismatch
    exact ⟨_, y, congrArg Host.Outcome.next hact, hy, by rw [hyf], by rw [hyf], phase_ne_running_of_failed hph, hw.others⟩
  · obtain ⟨hr, hj⟩ := State.noticeTask_spec hn
    have hact : exec (.collectiveFailureNotice ctag st) s = .next (failureNotice ctag.toNat st s) := rfl
    rw [failureNotice_of_task hn] at hact
    by_cases hf : x.phase = .finished
    · rw [if_pos hf] at hact
      exact ⟨_, _, hact, State.failDone_of_success hx (hph.2 hf) st, rfl, rfl, .inr hf⟩
    · rw [if_neg hf] at hact
      obtain ⟨y, hy⟩ := State.fail_of_open hx hph.1 hf hr hj st
      exact ⟨_, y, hact, hy⟩
  · obtain rfl : x.ref = ref := State.ref_of_task hx
    obtain ⟨u, hu, htasks, hmem, hcount, hlat, hleft⟩ := s.noteDetached_spec x ((x.group s.node).getD rank 0)
    have hact := detachMember_of_due hx hd
    rw [hu] at hact
    have hput := State.task_putTask_self (y := { x with coll := { x.coll with detached := x.coll.detached ++ [rank] } })
      ((State.task_of_tasks htasks _).trans hx) rfl
    have hbut := State.tasksBut_putTask u { x with coll := { x.coll with detached := x.coll.detached ++ [rank] } }
    obtain ⟨y, hy⟩ := State.proceed_moves hput (State.running_of_detachDue hd :)
    have hym := hy.sameMem
    obtain ⟨hw, hyt, hpr, -⟩ := hy
    have har := ((State.Around.refl u).putTask { x with coll := { x.coll with detached := x.coll.detached ++ [rank] } }).trans hw.around
    exact ⟨_, y, congrArg Host.Outcome.next hact, hyt, by rw [hpr.frame], (har.regs _ (by decide)).trans hcount, har.latches.trans hlat,
      fun hf => har.kept.packetLeft (hleft hf), fun a => (hym a).trans (hmem a),
      fun k hk => (hw.others k hk).trans ((hbut k hk).trans (State.task_of_tasks htasks k))⟩
  · refine congrArg Host.Outcome.next ?_
    unfold detachMember
    rw [hx]
    exact if_neg (by rw [hd]; decide)

end Sys2Proof.Machine
end

section
/-!
### TABLE_LOAD and WINDOW_OPEN (R192, R338, R339)
-/
namespace Sys2Proof.Machine

/-! The packet in hand is answered. -/

/-- The packet in hand is taken out of hand. -/
def State.inHand (s : State) : State := { s with mq := { s.mq with cur := none } }

/-- One more reply is ready. -/
def State.replied (s : State) (p : Packet) (st : Status) (last : Bool) (res : List Byte) : State :=
  { s with mq := { s.mq with replies := s.mq.replies ++ [p.answer st last res] } }

theorem State.reg_replied (s : State) (p : Packet) (st : Status) (last : Bool) (res : List Byte) (o : Nat) :
    (s.replied p st last res).reg o = s.reg o := rfl

theorem State.final_replied {p : Packet} {op : Nat} (ho : pkOpcode p.bytes = op) (h0 : op ≠ 0) (s : State) (st : Status) (res : List Byte) :
    s.final p st res = s.replied p st true res :=
  State.final_of_bytes_ne_nil (Packet.bytes_ne_nil_of_opcode ho h0) s st res

/-- A command that is answered at once, from a state with the same tasks, memory and management queue. -/
theorem State.answered_of_beside {s u : State} (hq : u.mq = { s.mq with cur := none }) (ht : u.tasks = s.tasks) (hm : s.sameMem u)
    (p : Packet) (st : Status) (res : List Byte) : (u.replied p st true res).mq.cur = none ∧
      (u.replied p st true res).mq.replies = s.mq.replies ++ [p.answer st true res] ∧ (u.replied p st true res).tasks = s.tasks ∧
      s.sameMem (u.replied p st true res) := by
  unfold State.replied
  rw [hq]
  exact ⟨rfl, rfl, ht, hm⟩

/-! TABLE_LOAD. -/

theorem State.onBuffer_of_served {s : State} {p : Packet} {op : Nat} (hr : s.cpRuns = true) (hc : s.mq.cur = some p)
    (ho : pkOpcode p.bytes = op) (hw : s.tierBWaits (pkBuffer p.bytes) = false) (f : Packet → State → State) :
    s.onBuffer op f = f p s.inHand := by
  unfold State.onBuffer
  rw [hc]
  exact (if_neg (by rw [hw]; decide)).trans (State.onPacket_of_cur hr hc ho f)

theorem State.onBuffer_of_waiting {s : State} {p : Packet} (hc : s.mq.cur = some p) (hw : s.tierBWaits (pkBuffer p.bytes) = true) (op : Nat)
    (f : Packet → State → State) : s.onBuffer op f = s := by
  unfold State.onBuffer
  rw [hc]
  exact if_pos hw

/-- A slot whose image has been read is loading. -/
def State.loadSlot (s : State) (p : Packet) (c : MemCond) : State :=
  { ((s.inHand.noteCorrected (pkBuffer p.bytes) c).setFld (R.cxSlot (pkBits p.bytes 8 0 2)) 30 2 2) with
      mq := { s.inHand.mq with load := some {
        packet := p, slot := pkBits p.bytes 8 0 2, gen := uintAt p.bytes 10 2, lens := imageLens (s.seenMem (pkBuffer p.bytes) 144) } } }

theorem loadTable_eq {s : State} {p : Packet} (c : MemCond) (hr : s.cpRuns = true) (hc : s.mq.cur = some p) (ho : pkOpcode p.bytes = 0x84)
    (hw : s.tierBWaits (pkBuffer p.bytes) = false) : loadTable c s =
      if s.slotRefs (pkBits p.bytes 8 0 2) ≠ 0 then s.inHand.replied p St.tableBusy true []
      else match s.memVerdict 0 .read (pkBuffer p.bytes) 144 c with
      | some st => (s.inHand.memRefusal st (pkBuffer p.bytes) none).replied p st true []
      | none =>
        if uintAt p.bytes 10 2 = 0 ∨ ! imageValid (s.seenMem (pkBuffer p.bytes) 144) then
          (s.inHand.noteCorrected (pkBuffer p.bytes) c).replied p St.tableImage true []
        else s.loadSlot p c := by
  refine (State.onBuffer_of_served hr hc ho hw _).trans ?_
  simp only [State.final_replied ho (by decide : (0x84 : Nat) ≠ 0)]
  rfl

theorem State.loadSlot_spec (s : State) (p : Packet) (c : MemCond) : (s.loadSlot p c).slotState (pkBits p.bytes 8 0 2) = 2 ∧
    s.loadSlot p c = { s with regs := (s.loadSlot p c).regs, now := (s.loadSlot p c).now, mq := (s.loadSlot p c).mq } ∧
    s.regsBut (s.loadSlot p c) [R.cxSlot (pkBits p.bytes 8 0 2), R.tmTierACe, R.tmScratchCe] := by
  obtain ⟨⟨r, n, h⟩, hregs⟩ := s.inHand.noteCorrected_spec (pkBuffer p.bytes) c
  have hself := (s.inHand.noteCorrected (pkBuffer p.bytes) c).fld_setFld_self (R.cxSlot (pkBits p.bytes 8 0 2)) 30 2 2 (by decide)
  obtain ⟨⟨r', h'⟩, hregs'⟩ := (s.inHand.noteCorrected (pkBuffer p.bytes) c).setsRegs_setFld (R.cxSlot (pkBits p.bytes 8 0 2)) 30 2 2
  unfold State.loadSlot
  generalize (s.inHand.noteCorrected (pkBuffer p.bytes) c).setFld (R.cxSlot (pkBits p.bytes 8 0 2)) 30 2 2 = u at hself h' hregs' ⊢
  refine ⟨hself, ?_, fun o ho => ?_⟩
  · rw [h', h]
    rfl
  · simp only [List.mem_cons, List.not_mem_nil, or_false, not_or] at ho
    exact (hregs' o (by simpa using ho.1)).trans (hregs o (by simpa using ho.2))

/-! Installation. -/

theorem slotWord_fields {g : Nat} (h : g < 65536) : getField (BitVec.ofNat 32 (2 ^ 30 + g)) 0 16 = g ∧
    getField (BitVec.ofNat 32 (2 ^ 30 + g)) 30 2 = 1 := by
  simp only [getField, BitVec.toNat_ofNat]
  omega

/-- The slot holds its image. -/
def State.fillTable (s : State) (l : LoadRun) : State :=
  { s.setReg (R.cxSlot l.slot) (BitVec.ofNat 32 (2 ^ 30 + l.gen)) with
      tables := sset (fun _ => []) s.tables l.slot l.lens, mq := { s.mq with load := none } }

theorem installTable_of_load {s : State} {l : LoadRun} (h : s.mq.load = some l) (hb : l.packet.bytes ≠ []) :
    installTable s = (s.fillTable l).replied l.packet St.success true [] := by
  unfold installTable
  rw [h]
  exact State.final_of_bytes_ne_nil hb _ _ _

theorem State.fillTable_spec (s : State) {l : LoadRun} (hg : l.gen < 65536) : (s.fillTable l).slotLens l.slot = l.lens ∧
    (s.fillTable l).slotGen l.slot = l.gen ∧ (s.fillTable l).slotState l.slot = 1 ∧
    s.fillTable l = { s with
      regs := (s.fillTable l).regs, tables := (s.fillTable l).tables, mq := { s.mq with load := none } } ∧
    s.regsBut (s.fillTable l) [R.cxSlot l.slot] := by
  obtain ⟨hgen, hst⟩ := slotWord_fields hg
  have hself := s.reg_setReg_self (R.cxSlot l.slot) (BitVec.ofNat 32 (2 ^ 30 + l.gen))
  obtain ⟨⟨r, hr⟩, hregs⟩ := s.setsRegs_setReg (R.cxSlot l.slot) (BitVec.ofNat 32 (2 ^ 30 + l.gen))
  have htab : sget (fun _ => []) (sset (fun _ => []) s.tables l.slot l.lens) l.slot = l.lens := sget_sset_self _ _ _ _
  unfold State.fillTable
  generalize sset (fun _ => []) s.tables l.slot l.lens = tab at htab ⊢
  generalize BitVec.ofNat 32 (2 ^ 30 + l.gen) = w at hgen hst hself hr hregs ⊢
  generalize s.setReg (R.cxSlot l.slot) w = u at hself hr hregs ⊢
  refine ⟨htab, (congrArg (fun x => getField x 0 16) hself).trans hgen, (congrArg (fun x => getField x 30 2) hself).trans hst, ?_, hregs⟩
  rw [hr]

/-! WINDOW_OPEN. -/

theorem windowOpened_eq {s : State} {p : Packet} (hr : s.cpRuns = true) (hc : s.mq.cur = some p) (ho : pkOpcode p.bytes = 0x85) :
    windowOpened s =
      if s.bit (R.winCtl (pkBits p.bytes 8 0 6)) 31 then s.inHand.replied p St.state true []
      else if isForbidden (regionOf (uintAt p.bytes 16 8)) ∨ isForbidden (regionOf (uintAt p.bytes 24 8 + 4095)) then
        s.inHand.replied p St.window true []
      else if ! s.bit (R.ctxMap (uintAt p.bytes 10 2 % 4096)) 31 then s.inHand.replied p St.context true []
      else (s.inHand.openWindow p.bytes).replied p St.success true [] := by
  refine (State.onPacket_of_cur hr hc ho _).trans ?_
  simp only [State.final_replied ho (by decide : (0x85 : Nat) ≠ 0)]
  rfl

theorem winWord_fields {c a : Nat} (hc : c < 4096) (ha : a < 8) : getField (BitVec.ofNat 32 (2 ^ 31 + a * 2 ^ 28 + c)) 31 1 = 1 ∧
    getField (BitVec.ofNat 32 (2 ^ 31 + a * 2 ^ 28 + c)) 28 3 = a ∧ getField (BitVec.ofNat 32 (2 ^ 31 + a * 2 ^ 28 + c)) 0 12 = c := by
  simp only [getField, BitVec.toNat_ofNat]
  omega

theorem winRegs_ne (w : Nat) : R.winBaseLo w ≠ R.winLimitLo w ∧ R.winBaseLo w ≠ R.winLimitLo w + 4 ∧
    R.winBaseLo w + 4 ≠ R.winLimitLo w ∧ R.winBaseLo w + 4 ≠ R.winLimitLo w + 4 ∧
    R.winBaseLo w ≠ R.winSrc w ∧ R.winBaseLo w ≠ R.winCtl w ∧ R.winBaseLo w + 4 ≠ R.winSrc w ∧ R.winBaseLo w + 4 ≠ R.winCtl w ∧
    R.winLimitLo w ≠ R.winSrc w ∧ R.winLimitLo w ≠ R.winCtl w ∧ R.winLimitLo w + 4 ≠ R.winSrc w ∧ R.winLimitLo w + 4 ≠ R.winCtl w := by
  unfold R.winBaseLo R.winLimitLo R.winSrc R.winCtl
  omega

theorem pkBits_lt (b : List Byte) (i lo n : Nat) : pkBits b i lo n < 2 ^ n := Nat.mod_lt _ (Nat.two_pow_pos n)

theorem State.openWindow_spec (s : State) (b : List Byte) : (∃ r, s.openWindow b = { s with regs := r }) ∧
    (s.openWindow b).bit (R.winCtl (pkBits b 8 0 6)) 31 = true ∧
    (s.openWindow b).fld (R.winCtl (pkBits b 8 0 6)) 0 12 = uintAt b 10 2 % 4096 ∧
    (s.openWindow b).fld (R.winCtl (pkBits b 8 0 6)) 28 3 = pkBits b 9 0 3 ∧
    (s.openWindow b).reg64 (R.winBaseLo (pkBits b 8 0 6)) = uintAt b 16 8 % 2 ^ 64 ∧
    (s.openWindow b).reg64 (R.winLimitLo (pkBits b 8 0 6)) = uintAt b 24 8 % 2 ^ 64 := by
  obtain ⟨h31, h28, h0⟩ := winWord_fields (c := uintAt b 10 2 % 4096) (a := pkBits b 9 0 3) (Nat.mod_lt _ (by decide)) (pkBits_lt b 9 0 3)
  unfold State.openWindow
  generalize pkBits b 8 0 6 = w
  generalize BitVec.ofNat 32 (2 ^ 31 + pkBits b 9 0 3 * 2 ^ 28 + uintAt b 10 2 % 4096) = ctl at h31 h28 h0 ⊢
  generalize BitVec.ofNat 32 (uintAt b 14 2 * 2 ^ 16 + uintAt b 12 2) = src
  generalize uintAt b 16 8 = lo
  generalize uintAt b 24 8 = hi
  obtain ⟨n1, n2, n3, n4, n5, n6, n7, n8, n9, n10, n11, n12⟩ := winRegs_ne w
  have hlo := s.reg64_setReg64 (R.winBaseLo w) lo
  obtain ⟨r1, e1⟩ := s.setReg64_shape (R.winBaseLo w) lo
  dsimp only
  generalize s.setReg64 (R.winBaseLo w) lo = u1 at hlo e1 ⊢
  have hhi := u1.reg64_setReg64 (R.winLimitLo w) hi
  have hlo' : (u1.setReg64 (R.winLimitLo w) hi).reg64 (R.winBaseLo w) = lo % 2 ^ 64 :=
    (State.reg64_congr (u1.reg_setReg64_ne hi n1 n2) (u1.reg_setReg64_ne hi n3 n4)).trans hlo
  obtain ⟨r2, e2⟩ := u1.setReg64_shape (R.winLimitLo w) hi
  generalize u1.setReg64 (R.winLimitLo w) hi = u2 at hhi hlo' e2 ⊢
  have hctl := (u2.setReg (R.winSrc w) src).reg_setReg_self (R.winCtl w) ctl
  have hkeep (o : Nat) (ho : o ≠ R.winSrc w) (ho' : o ≠ R.winCtl w) : ((u2.setReg (R.winSrc w) src).setReg (R.winCtl w) ctl).reg o = u2.reg o :=
    ((u2.setReg (R.winSrc w) src).reg_setReg_ne ctl ho').trans (u2.reg_setReg_ne src ho)
  obtain ⟨r3, e3⟩ := (((u2.setsRegs_setReg (R.winSrc w) src).mono (k := [R.winSrc w, R.winCtl w]) (by simp)).trans
    ((State.setsRegs_setReg _ (R.winCtl w) ctl).mono (by simp))).1
  generalize (u2.setReg (R.winSrc w) src).setReg (R.winCtl w) ctl = u3 at hctl hkeep e3 ⊢
  exact ⟨⟨r3, by rw [e3, e2, e1]⟩, (congrArg (fun x => decide (getField x 31 1 = 1)) hctl).trans (decide_eq_true h31),
    (congrArg (fun x => getField x 0 12) hctl).trans h0, (congrArg (fun x => getField x 28 3) hctl).trans h28,
    (State.reg64_congr (hkeep _ n5 n6) (hkeep _ n7 n8)).trans hlo', (State.reg64_congr (hkeep _ n9 n10) (hkeep _ n11 n12)).trans hhi⟩

/-- Settles O55. -/
theorem tablesAndWindows : Obligations.TablesAndWindows := by
  unfold Obligations.TablesAndWindows
  intro s hr
  refine ⟨fun p c hc ho hw => ⟨fun h => ?_, fun st h hv => ?_, fun h hv hi => ?_, fun h hv hg hi => ?_⟩, fun p c hc hw => ?_,
    fun l hl hb hg => ?_, fun p hc ho => ⟨fun h => ?_, fun h hs => ?_, fun h hs hm => ?_, fun h hs hm => ?_⟩⟩
  · have hact := (loadTable_eq c hr hc ho hw).trans (if_pos h)
    exact ⟨_, congrArg Host.Outcome.next hact, State.answered_of_beside (u := s.inHand) rfl rfl (fun _ => rfl) p _ _, rfl⟩
  · have hact := (loadTable_eq c hr hc ho hw).trans (if_neg (not_not_intro h))
    rw [hv] at hact
    obtain ⟨g, n, l, hm⟩ := s.inHand.memRefusal_shape st (pkBuffer p.bytes) none
    exact ⟨_, congrArg Host.Outcome.next hact, State.answered_of_beside (by rw [hm]; rfl) (by rw [hm]; rfl) (fun _ => by rw [hm]; rfl) p _ _⟩
  · have hact := (loadTable_eq c hr hc ho hw).trans (if_neg (not_not_intro h))
    rw [hv] at hact
    obtain ⟨⟨g, n, hm⟩, hregs⟩ := s.inHand.noteCorrected_spec (pkBuffer p.bytes) c
    exact ⟨_, congrArg Host.Outcome.next (hact.trans (if_pos (hi.imp id (fun h => by rw [h]; rfl)))),
      State.answered_of_beside (by rw [hm]; rfl) (by rw [hm]; rfl) (fun _ => by rw [hm]; rfl) p _ _, hregs⟩
  · have hact := (loadTable_eq c hr hc ho hw).trans (if_neg (not_not_intro h))
    rw [hv] at hact
    obtain ⟨h1, h2, h3⟩ := s.loadSlot_spec p c
    exact ⟨_, congrArg Host.Outcome.next (hact.trans (if_neg (not_or.mpr ⟨hg, by rw [hi]; decide⟩))), h1, rfl, rfl, h2, h3⟩
  · exact congrArg Host.Outcome.next (State.onBuffer_of_waiting hc hw _ _)
  · obtain ⟨h1, h2, h3, h4, h5⟩ := s.fillTable_spec hg
    have hact : exec .tableInstallComplete s = .next ((s.fillTable l).replied l.packet St.success true []) :=
      congrArg Host.Outcome.next ((if_pos hr).trans (installTable_of_load hl hb))
    have hq : (s.fillTable l).mq = { s.mq with load := none } := by rw [h4]
    unfold State.replied at hact
    generalize s.fillTable l = u at h1 h2 h3 h4 h5 hact hq
    refine ⟨_, hact, h1, h2, h3, ?_, ?_, ?_, h5⟩
    · rw [hq]
    · rw [hq]
    · rw [h4]
  · exact ⟨_, congrArg Host.Outcome.next ((windowOpened_eq hr hc ho).trans (if_pos h)),
      State.answered_of_beside (u := s.inHand) rfl rfl (fun _ => rfl) p _ _, rfl⟩
  · exact ⟨_, congrArg Host.Outcome.next ((windowOpened_eq hr hc ho).trans ((if_neg (by rw [h]; decide)).trans (if_pos hs))),
      State.answered_of_beside (u := s.inHand) rfl rfl (fun _ => rfl) p _ _, rfl⟩
  · exact ⟨_, congrArg Host.Outcome.next ((windowOpened_eq hr hc ho).trans ((if_neg (by rw [h]; decide)).trans ((if_neg hs).trans
      (if_pos (by rw [hm]; rfl))))), State.answered_of_beside (u := s.inHand) rfl rfl (fun _ => rfl) p _ _, rfl⟩
  · have hact := (windowOpened_eq hr hc ho).trans ((if_neg (by rw [h]; decide)).trans ((if_neg hs).trans (if_neg (by rw [hm]; decide))))
    obtain ⟨⟨g, hg⟩, h1, h2, h3, h4, h5⟩ := s.inHand.openWindow_spec p.bytes
    generalize s.inHand.openWindow p.bytes = u at hact hg h1 h2 h3 h4 h5
    exact ⟨_, congrArg Host.Outcome.next hact, State.answered_of_beside (by rw [hg]; rfl) (by rw [hg]; rfl) (fun _ => by rw [hg]; rfl) p _ _,
      (State.bit_congr (u.reg_replied _ _ _ _ _) 31).trans h1, (State.fld_congr (u.reg_replied _ _ _ _ _) 0 12).trans h2,
      (State.fld_congr (u.reg_replied _ _ _ _ _) 28 3).trans h3, (State.reg64_congr (u.reg_replied _ _ _ _ _) (u.reg_replied _ _ _ _ _)).trans h4,
      (State.reg64_congr (u.reg_replied _ _ _ _ _) (u.reg_replied _ _ _ _ _)).trans h5, by rw [hg]; rfl⟩

end Sys2Proof.Machine
end

section
/-!
### The commands on queues (R334 to R337, R341, R343, R349)
-/
namespace Sys2Proof.Machine

/-! ABORT: a task that has ended, and what ending tasks leaves alone. -/

/-- A task that no longer runs and never will. -/
def Phase.ended : Phase → Bool
  | .failing | .finished | .recordIssued | .journal => true
  | _ => false

theorem State.not_abortable_of_ended (s : State) {x : Task} (h : x.phase.ended = true) : s.abortable x = false := by
  unfold State.abortable
  cases hp : x.phase <;> simp_all [Phase.ended]

/-- What an ABORT of tasks keeps: replies, every register but those of work, and that a task has ended. -/
structure State.Ends (s t : State) : Prop where
  mq : t.mq = s.mq
  regs : ∀ o, workReg o = false → t.reg o = s.reg o
  tasks : ∀ k x, s.task k = some x → ∃ y, t.task k = some y ∧ (x.phase.ended = true → y.phase.ended = true)

theorem State.Ends.refl (s : State) : s.Ends s := ⟨rfl, fun _ _ => rfl, fun _ x hx => ⟨x, hx, id⟩⟩

theorem State.Ends.trans {s t u : State} (h : s.Ends t) (k : t.Ends u) : s.Ends u where
  mq := k.mq.trans h.mq
  regs o ho := (k.regs o ho).trans (h.regs o ho)
  tasks r x hx := by
    obtain ⟨y, hy, hxy⟩ := h.tasks r x hx
    obtain ⟨z, hz, hyz⟩ := k.tasks r y hy
    exact ⟨z, hz, hyz ∘ hxy⟩

theorem State.failAgain_phase {s : State} {r : TaskRef} {x : Task} (hx : s.task r = some x) (st : Status) :
    s.tasksBut (s.failAgain x st) r ∧ ∃ y, (s.failAgain x st).task r = some y ∧ y.phase = x.phase := by
  have hr : x.ref = r := State.ref_of_task hx
  unfold State.failAgain
  split
  · exact ⟨State.tasksBut_putTask_of_ref (y := { x with status := st }) s hr, _,
      State.task_putTask_self (y := { x with status := st }) hx hr, rfl⟩
  · exact ⟨fun _ _ => rfl, x, hx, rfl⟩

theorem State.failTask_ends {s : State} {r : TaskRef} {x : Task} (hx : s.task r = some x) (st : Status) :
    s.tasksBut (s.failTask r st) r ∧ ∃ y, (s.failTask r st).task r = some y ∧ y.phase.ended = true := by
  by_cases hrun : x.phase = .running
  · obtain ⟨hw, y, hy, -, hph⟩ := State.failTask_of_running hx hrun st
    exact ⟨hw.others, y, hy, by obtain h | h := hph <;> rw [h] <;> rfl⟩
  · by_cases hu : x.phase.undispatched = true
    · obtain ⟨hturn, hself⟩ := State.failTask_of_undispatched hx hu st
      exact ⟨hturn.others, _, hself, rfl⟩
    · have hend : x.phase.ended = true := by
        cases hp : x.phase <;> simp_all [Phase.ended, Phase.undispatched]
      have hagain : s.failTask r st = s.failAgain x st ∨ s.failTask r st = s := by
        unfold State.failTask
        rw [hx]
        cases hp : x.phase <;> simp_all [Phase.ended]
      obtain h | h := hagain
      · obtain ⟨hbut, y, hy, hph⟩ := State.failAgain_phase hx st
        exact ⟨by rw [h]; exact hbut, y, by rw [h]; exact hy, by rw [hph]; exact hend⟩
      · exact ⟨fun _ _ => by rw [h], x, by rw [h]; exact hx, hend⟩

/-- A task that fails has ended, and no other is brought back. -/
theorem State.fail_ends (s : State) (r : TaskRef) (st : Status) : s.Ends (s.fail r st) ∧
    ∀ x, s.task r = some x → ∃ y, (s.fail r st).task r = some y ∧ y.phase.ended = true := by
  have ha := s.fail_around r st
  have hflow := State.advanceQueue_flow (s.failTask r st) r.sq
  have hgo : ∀ k y, (s.failTask r st).task k = some y → ∃ z, (s.fail r st).task k = some z ∧
      (y.phase.ended = true → z.phase.ended = true) := fun k y hy => by
    obtain ⟨z, hz, -, hsame⟩ := hflow.tasks k y hy
    refine ⟨z, hz, fun he => ?_⟩
    rw [hsame (fun h => by rw [h] at he; exact Bool.noConfusion he) (fun h => by rw [h] at he; exact Bool.noConfusion he)]
    exact he
  have hself : ∀ x, s.task r = some x → ∃ y, (s.fail r st).task r = some y ∧ y.phase.ended = true := fun x hx => by
    obtain ⟨-, y, hy, hend⟩ := State.failTask_ends hx st
    obtain ⟨z, hz, hyz⟩ := hgo r y hy
    exact ⟨z, hz, hyz hend⟩
  refine ⟨⟨by rw [ha.frame], ha.regs, fun k x hx => ?_⟩, hself⟩
  by_cases hk : k = r
  · subst hk
    obtain ⟨y, hy, hend⟩ := hself x hx
    exact ⟨y, hy, fun _ => hend⟩
  · cases hr : s.task r with
    | none =>
      have hnone : s.failTask r st = s := by
        unfold State.failTask
        rw [hr]
      exact hgo k x (by rw [hnone]; exact hx)
    | some x' => exact hgo k x (((State.failTask_ends hr st).1 k hk).trans hx)

theorem State.task_modTask (s : State) (r k : TaskRef) (f : Task → Task) (hf : ∀ x, (f x).ref = x.ref) :
    (s.modTask r f).task k = (s.task k).map (fun x => if x.ref = r then f x else x) :=
  s.task_map_eq (fun x => if x.ref = r then f x else x) (fun x => by split; exacts [hf x, rfl]) k

theorem State.endPadWait_ends (s : State) (r : TaskRef) : s.Ends (s.endPadWait r) := by
  unfold State.endPadWait
  split
  · exact .refl s
  · refine ⟨rfl, fun _ _ => rfl, fun k x hx => ?_⟩
    rw [State.task_modTask, hx]
    · refine ⟨_, rfl, ?_⟩
      dsimp only
      split <;> exact id
    · exact fun _ => rfl

theorem State.abortTask_ends (s : State) (r : TaskRef) : s.Ends (s.abortTask r) ∧
    ∀ x, s.task r = some x → ∃ y, (s.abortTask r).task r = some y ∧ y.phase.ended = true := by
  have hgo (u : State) (hu : s.Ends u) : s.Ends ((u.endPadWait r).fail r St.aborted) ∧
      ∀ x, s.task r = some x → ∃ y, ((u.endPadWait r).fail r St.aborted).task r = some y ∧ y.phase.ended = true := by
    obtain ⟨hf, hself⟩ := (u.endPadWait r).fail_ends r St.aborted
    have hpad := hu.trans (u.endPadWait_ends r)
    refine ⟨hpad.trans hf, fun x hx => ?_⟩
    obtain ⟨y, hy, -⟩ := hpad.tasks r x hx
    exact hself y hy
  unfold State.abortTask
  refine hgo _ ?_
  split
  · split
    · exact ⟨rfl, fun _ _ => rfl, fun _ x hx => ⟨x, hx, id⟩⟩
    · exact .refl s
  · exact .refl s

theorem State.abortTasks_end (l : List TaskRef) (s : State) : s.Ends (l.foldl State.abortTask s) ∧
    ∀ r ∈ l, ∀ x, s.task r = some x → ∃ y, (l.foldl State.abortTask s).task r = some y ∧ y.phase.ended = true := by
  induction l generalizing s with
  | nil => exact ⟨.refl s, fun _ h => absurd h List.not_mem_nil⟩
  | cons a l ih =>
    obtain ⟨ha, hself⟩ := s.abortTask_ends a
    obtain ⟨hl, hrest⟩ := ih (s.abortTask a)
    refine ⟨ha.trans hl, fun r hr x hx => ?_⟩
    obtain rfl | hr := List.mem_cons.mp hr
    · obtain ⟨y, hy, hend⟩ := hself x hx
      obtain ⟨z, hz, hyz⟩ := hl.tasks r y hy
      exact ⟨z, hz, hyz hend⟩
    · obtain ⟨y, hy, -⟩ := ha.tasks r x hx
      exact hrest r hr y hy

theorem State.abortQueues_frame (l : List Nat) (s : State) :
    (l.foldl State.abortQueue s).tasks = s.tasks ∧ (l.foldl State.abortQueue s).mq = s.mq := by
  refine List.foldlRecOn (motive := fun u : State => u.tasks = s.tasks ∧ u.mq = s.mq) _ _ ⟨rfl, rfl⟩ fun u hu q _ => ?_
  unfold State.abortQueue
  split
  · exact hu
  · exact hu

theorem State.abortQueue_paused {s : State} {q : Nat} (h : s.sqMode q = 1 ∨ s.sqMode q = 2) : (s.abortQueue q).sqMode q = 2 := by
  unfold State.abortQueue
  rw [if_pos h]
  exact State.sqMode_setSqMode _ _ _ (by decide)

/-- ABORT acts on its queues and tasks. -/
def State.aborted (s : State) (b : List Byte) : State :=
  ((s.tasks.filter (fun x => inScope b x && s.abortable x)).map Task.ref).foldl State.abortTask ((s.abortQueues b).foldl State.abortQueue s)

/-- An ABORT waits for its tasks. -/
def State.aborting (s : State) (p : Packet) : AbortRun :=
  { packet := p, tasks := (s.tasks.filter (fun x => inScope p.bytes x && s.abortable x)).map Task.ref,
    scope := (s.tasks.filter (inScope p.bytes)).map Task.ref }

theorem abortScope_eq {s : State} {p : Packet} (hr : s.cpRuns = true) (hc : s.mq.cur = some p) (ho : pkOpcode p.bytes = 0x83) :
    abortScope s = if pkBits p.bytes 8 0 2 ≠ 2 ∧ ! s.bit (R.sqCfg (pkNumber p.bytes)) 31 then s.inHand.replied p St.state true []
      else { s.inHand.aborted p.bytes with mq := { (s.inHand.aborted p.bytes).mq with abort := some (s.inHand.aborting p) } } := by
  refine (State.onPacket_of_cur hr hc ho _).trans ?_
  simp only [State.final_replied ho (by decide : (0x83 : Nat) ≠ 0)]
  rfl

theorem State.task_of_mem {s : State} {x : Task} (h : x ∈ s.tasks) : ∃ y, s.task x.ref = some y := by
  refine Option.isSome_iff_exists.mp ?_
  unfold State.task
  exact List.find?_isSome.mpr ⟨x, h, by simp⟩

theorem State.aborted_spec (s : State) (p : Packet) : (s.aborted p.bytes).mq = s.mq ∧
    (∀ r, r ∈ (s.aborting p).tasks → ∀ y, (s.aborted p.bytes).task r = some y → y.phase.ended = true) ∧
    (pkBits p.bytes 8 0 2 = 1 → pkNumber p.bytes < 1024 → (s.sqMode (pkNumber p.bytes) = 1 ∨ s.sqMode (pkNumber p.bytes) = 2) →
      (s.aborted p.bytes).sqMode (pkNumber p.bytes) = 2) := by
  obtain ⟨ht, hq⟩ := State.abortQueues_frame (s.abortQueues p.bytes) s
  obtain ⟨he, hself⟩ := State.abortTasks_end (s.aborting p).tasks ((s.abortQueues p.bytes).foldl State.abortQueue s)
  refine ⟨he.mq.trans hq, fun r hr y hy => ?_, fun h1 hn hm => ?_⟩
  · obtain ⟨x, hx, rfl⟩ := List.mem_map.mp hr
    obtain ⟨x', hx'⟩ := State.task_of_mem (List.mem_of_mem_filter hx)
    obtain ⟨z, hz, hend⟩ := hself x.ref hr x' ((State.task_of_tasks ht x.ref).trans hx')
    obtain rfl : z = y := Option.some.inj (hz.symm.trans hy)
    exact hend
  · have hone : s.abortQueues p.bytes = [pkNumber p.bytes] := by
      unfold State.abortQueues
      rw [h1]
      rfl
    have hlow : workReg (R.sqState (pkNumber p.bytes)) = false := workReg_eq_false (by unfold R.sqState; omega)
      (by unfold R.sqState R.tuRangesFree; omega) (by unfold R.sqState; omega) (by unfold R.sqState; omega)
    dsimp only [State.aborting] at he
    unfold State.aborted
    rw [hone] at he ⊢
    exact (State.fld_congr (he.regs _ hlow) 30 2).trans (State.abortQueue_paused hm)


/-! QUEUE_CREATE: what a new queue or ring is. -/

theorem createQueue_eq {s : State} {p : Packet} (x : RingXlate) (hr : s.cpRuns = true) (hc : s.mq.cur = some p)
    (ho : pkOpcode p.bytes = 0x81) : createQueue x s =
      if s.numberEnabled (pkBits p.bytes 8 0 1) (pkNumber p.bytes) then s.inHand.replied p St.state true []
      else if ! s.bit (R.ctxMap (uintAt p.bytes 12 2 % 4096)) 31 then s.inHand.replied p St.context true []
      else match s.ringList p.bytes x with
        | .error st => (s.inHand.ringRequests p.bytes).replied p st true []
        | .ok rs => (if pkBits p.bytes 8 0 1 = 0 then (s.inHand.ringRequests p.bytes).makeSq p.bytes rs
            else (s.inHand.ringRequests p.bytes).makeCq p.bytes rs).replied p St.success true (leBytes 4 rs.length) := by
  refine (State.onPacket_of_cur hr hc ho _).trans ?_
  simp only [State.final_replied ho (by decide : (0x81 : Nat) ≠ 0)]
  rfl

theorem State.ringRequests_shape (s : State) (b : List Byte) :
    (∃ r n, s.ringRequests b = { s with regs := r, now := n }) ∧ s.regsBut (s.ringRequests b) [R.tuXlateReqs] := by
  unfold State.ringRequests
  split
  · exact ⟨State.bump_shape s _ _, fun o ho => State.reg_bump_ne s _ (List.ne_of_not_mem_cons ho)⟩
  · exact ⟨⟨s.regs, s.now, rfl⟩, fun _ _ => rfl⟩

theorem sqWord_fields {h : Bool} {a k c : Nat} (ha : a < 256) (hk : k < 16) (hc : c < 4096) :
    getField (BitVec.ofNat 32 (2 ^ 31 + boolBit h * 2 ^ 30 + a * 2 ^ 16 + k * 2 ^ 12 + c)) 31 1 = 1 ∧
    getField (BitVec.ofNat 32 (2 ^ 31 + boolBit h * 2 ^ 30 + a * 2 ^ 16 + k * 2 ^ 12 + c)) 30 1 = boolBit h ∧
    getField (BitVec.ofNat 32 (2 ^ 31 + boolBit h * 2 ^ 30 + a * 2 ^ 16 + k * 2 ^ 12 + c)) 12 4 = k ∧
    getField (BitVec.ofNat 32 (2 ^ 31 + boolBit h * 2 ^ 30 + a * 2 ^ 16 + k * 2 ^ 12 + c)) 0 12 = c := by
  simp only [getField, BitVec.toNat_ofNat]
  cases h <;> simp only [boolBit, if_true, if_false, Bool.false_eq_true] <;> omega

theorem cqWord_fields {h : Bool} {k c : Nat} (hk : k < 16) (hc : c < 4096) :
    getField (BitVec.ofNat 32 (2 ^ 31 + boolBit h * 2 ^ 30 + k * 2 ^ 16 + c)) 31 1 = 1 ∧
    getField (BitVec.ofNat 32 (2 ^ 31 + boolBit h * 2 ^ 30 + k * 2 ^ 16 + c)) 30 1 = boolBit h ∧
    getField (BitVec.ofNat 32 (2 ^ 31 + boolBit h * 2 ^ 30 + k * 2 ^ 16 + c)) 16 4 = k := by
  simp only [getField, BitVec.toNat_ofNat]
  cases h <;> simp only [boolBit, if_true, if_false, Bool.false_eq_true] <;> omega

theorem decide_boolBit (h : Bool) : decide (boolBit h = 1) = h := by cases h <;> rfl

/-- What a new submission queue is. -/
structure State.NewSq (s t : State) (b : List Byte) (rs : List XRange) : Prop where
  enabled : t.bit (R.sqCfg (pkNumber b)) 31 = true
  mode : t.sqMode (pkNumber b) = 1
  head : t.sqHead (pkNumber b) = 0
  tail : t.sqTail (pkNumber b) = 0
  phase : t.sqPhase (pkNumber b) = true
  index : t.reg (R.sqIndex (pkNumber b)) = 0
  units : t.sqUnits (pkNumber b) = 2 ^ (pkBits b 9 0 4 + 6)
  ctx : t.sqCtx (pkNumber b) = uintAt b 12 2 % 4096
  host : t.sqHost (pkNumber b) = pkHost b
  base : t.reg64 (R.sqBaseLo (pkNumber b)) = pkBase b % 2 ^ 64
  run : t.sq (pkNumber b) = { sqDefault (pkNumber b) with
    ranges := rs, life := (s.sq (pkNumber b)).life + 1, stale := (s.sq (pkNumber b)).stale }

theorem State.NewSq.congr {s t s' t' : State} {b : List Byte} {rs : List XRange} (h : s.NewSq t b rs)
    (hs : s'.sq (pkNumber b) = s.sq (pkNumber b)) (hr : ∀ o, t'.reg o = t.reg o) (hq : t'.sq (pkNumber b) = t.sq (pkNumber b)) :
    s'.NewSq t' b rs where
  enabled := (State.bit_congr (hr _) 31).trans h.enabled
  mode := (State.fld_congr (hr _) 30 2).trans h.mode
  head := (State.fld_congr (hr _) 0 16).trans h.head
  tail := (State.fld_congr (hr _) 0 16).trans h.tail
  phase := (State.bit_congr (hr _) 29).trans h.phase
  index := (hr _).trans h.index
  units := (congrArg (fun x => 2 ^ (x + 6)) (State.fld_congr (hr _) 12 4)).trans h.units
  ctx := (State.fld_congr (hr _) 0 12).trans h.ctx
  host := (State.bit_congr (hr _) 30).trans h.host
  base := (State.reg64_congr (hr _) (hr _)).trans h.base
  run := by rw [hq, h.run, hs]

theorem sqRegs_ne (n : Nat) : R.sqBaseLo n ≠ R.sqCfg n ∧ R.sqBaseLo n + 4 ≠ R.sqCfg n ∧ R.sqCfg n ≠ R.sqLimits n ∧ R.sqBaseLo n ≠ R.sqLimits n ∧
    R.sqBaseLo n + 4 ≠ R.sqLimits n ∧ R.sqCfg n ≠ R.sqState n ∧ R.sqBaseLo n ≠ R.sqState n ∧ R.sqBaseLo n + 4 ≠ R.sqState n ∧
    R.sqCfg n ≠ R.sqTail n ∧ R.sqBaseLo n ≠ R.sqTail n ∧ R.sqBaseLo n + 4 ≠ R.sqTail n ∧ R.sqState n ≠ R.sqTail n ∧
    R.sqCfg n ≠ R.sqIndex n ∧ R.sqBaseLo n ≠ R.sqIndex n ∧ R.sqBaseLo n + 4 ≠ R.sqIndex n ∧ R.sqState n ≠ R.sqIndex n ∧
    R.sqTail n ≠ R.sqIndex n := by
  unfold R.sqBaseLo R.sqCfg R.sqLimits R.sqState R.sqTail R.sqIndex
  omega

/-- The registers of a submission queue are written. -/
def State.writeSq (s : State) (n base : Nat) (cfg limits state tail index : Word) : State :=
  (((((s.setReg64 (R.sqBaseLo n) base).setReg (R.sqCfg n) cfg).setReg (R.sqLimits n) limits).setReg (R.sqState n) state).setReg
    (R.sqTail n) tail).setReg (R.sqIndex n) index

theorem State.writeSq_spec (s : State) (n base : Nat) (cfg limits state tail index : Word) :
    (∃ r, s.writeSq n base cfg limits state tail index = { s with regs := r }) ∧
    (s.writeSq n base cfg limits state tail index).reg (R.sqCfg n) = cfg ∧
    (s.writeSq n base cfg limits state tail index).reg (R.sqState n) = state ∧
    (s.writeSq n base cfg limits state tail index).reg (R.sqTail n) = tail ∧
    (s.writeSq n base cfg limits state tail index).reg (R.sqIndex n) = index ∧
    (s.writeSq n base cfg limits state tail index).reg64 (R.sqBaseLo n) = base % 2 ^ 64 := by
  obtain ⟨h1, h2, h3, h4, h5, h6, h7, h8, h9, h10, h11, h12, h13, h14, h15, h16, h17⟩ := sqRegs_ne n
  obtain ⟨r, hr⟩ := s.setReg64_shape (R.sqBaseLo n) base
  have hbase := s.reg64_setReg64 (R.sqBaseLo n) base
  unfold State.writeSq
  generalize s.setReg64 (R.sqBaseLo n) base = u at hr hbase ⊢
  refine ⟨⟨_, by rw [hr]; rfl⟩, ?_, ?_, ?_, State.reg_setReg_self _ _ _, ?_⟩
  · rw [State.reg_setReg_ne _ _ h13, State.reg_setReg_ne _ _ h9, State.reg_setReg_ne _ _ h6, State.reg_setReg_ne _ _ h3, State.reg_setReg_self]
  · rw [State.reg_setReg_ne _ _ h16, State.reg_setReg_ne _ _ h12, State.reg_setReg_self]
  · rw [State.reg_setReg_ne _ _ h17, State.reg_setReg_self]
  · refine (State.reg64_congr ?_ ?_).trans hbase
    · rw [State.reg_setReg_ne _ _ h14, State.reg_setReg_ne _ _ h10, State.reg_setReg_ne _ _ h7, State.reg_setReg_ne _ _ h4,
        State.reg_setReg_ne _ _ h1]
    · rw [State.reg_setReg_ne _ _ h15, State.reg_setReg_ne _ _ h11, State.reg_setReg_ne _ _ h8, State.reg_setReg_ne _ _ h5,
        State.reg_setReg_ne _ _ h2]

theorem State.makeSq_eq (s : State) (b : List Byte) (rs : List XRange) : s.makeSq b rs =
    (s.writeSq (pkNumber b) (pkBase b)
      (BitVec.ofNat 32 (2 ^ 31 + boolBit (pkHost b) * 2 ^ 30 + byteAt b 15 * 2 ^ 16 + pkBits b 9 0 4 * 2 ^ 12 + uintAt b 12 2 % 4096))
      (BitVec.ofNat 32 (byteAt b 16 * 2 ^ 24 + uintAt b 20 4 % 2 ^ 20)) 0x60000000 0 0).putSq (pkNumber b)
      { sqDefault (pkNumber b) with ranges := rs, life := (s.sq (pkNumber b)).life + 1, stale := (s.sq (pkNumber b)).stale } := rfl

theorem State.makeSq_shape (s : State) (b : List Byte) (rs : List XRange) : ∃ r q, s.makeSq b rs = { s with regs := r, sqs := q } := by
  rw [State.makeSq_eq]
  obtain ⟨r, hr⟩ := (s.writeSq_spec (pkNumber b) (pkBase b)
      (BitVec.ofNat 32 (2 ^ 31 + boolBit (pkHost b) * 2 ^ 30 + byteAt b 15 * 2 ^ 16 + pkBits b 9 0 4 * 2 ^ 12 + uintAt b 12 2 % 4096))
      (BitVec.ofNat 32 (byteAt b 16 * 2 ^ 24 + uintAt b 20 4 % 2 ^ 20)) 0x60000000 0 0).1
  rw [hr]
  exact ⟨r, _, rfl⟩

theorem State.makeSq_new (s : State) (b : List Byte) (rs : List XRange) : s.NewSq (s.makeSq b rs) b rs := by
  obtain ⟨h31, h30, h12, h0⟩ := sqWord_fields (h := pkHost b) (a := byteAt b 15) (k := pkBits b 9 0 4) (c := uintAt b 12 2 % 4096)
    (BitVec.isLt _) (pkBits_lt b 9 0 4) (Nat.mod_lt _ (by decide))
  rw [State.makeSq_eq]
  generalize BitVec.ofNat 32 (2 ^ 31 + boolBit (pkHost b) * 2 ^ 30 + byteAt b 15 * 2 ^ 16 + pkBits b 9 0 4 * 2 ^ 12 + uintAt b 12 2 % 4096) = cfg
    at h31 h30 h12 h0 ⊢
  generalize BitVec.ofNat 32 (byteAt b 16 * 2 ^ 24 + uintAt b 20 4 % 2 ^ 20) = limits
  obtain ⟨-, hcfg, hst, htl, hix, hbase⟩ := s.writeSq_spec (pkNumber b) (pkBase b) cfg limits 0x60000000 0 0
  generalize s.writeSq (pkNumber b) (pkBase b) cfg limits 0x60000000 0 0 = u at hcfg hst htl hix hbase ⊢
  have hreg : ∀ o, (u.putSq (pkNumber b) { sqDefault (pkNumber b) with
      ranges := rs, life := (s.sq (pkNumber b)).life + 1, stale := (s.sq (pkNumber b)).stale }).reg o = u.reg o := fun o => State.reg_putSq' u _ _ o
  have hrun := u.sq_putSq_self (pkNumber b) { sqDefault (pkNumber b) with
      ranges := rs, life := (s.sq (pkNumber b)).life + 1, stale := (s.sq (pkNumber b)).stale }
  generalize u.putSq (pkNumber b) { sqDefault (pkNumber b) with
      ranges := rs, life := (s.sq (pkNumber b)).life + 1, stale := (s.sq (pkNumber b)).stale } = v at hreg hrun ⊢
  have hcfg' := (hreg _).trans hcfg
  have hst' := (hreg _).trans hst
  have htl' := (hreg _).trans htl
  exact {
    enabled := (congrArg (fun x => decide (getField x 31 1 = 1)) hcfg').trans (decide_eq_true h31)
    mode := (congrArg (fun x => getField x 30 2) hst').trans (by decide)
    head := (congrArg (fun x => getField x 0 16) hst').trans (by decide)
    tail := (congrArg (fun x => getField x 0 16) htl').trans (by decide)
    phase := (congrArg (fun x => decide (getField x 29 1 = 1)) hst').trans (by decide)
    index := (hreg _).trans hix
    units := (congrArg (fun x => 2 ^ (getField x 12 4 + 6)) hcfg').trans (congrArg (fun x => 2 ^ (x + 6)) h12)
    ctx := (congrArg (fun x => getField x 0 12) hcfg').trans h0
    host := ((congrArg (fun x => decide (getField x 30 1 = 1)) hcfg').trans (congrArg (fun x => decide (x = 1)) h30)).trans (decide_boolBit _)
    base := (State.reg64_congr (hreg _) (hreg _)).trans hbase
    run := hrun }

/-- What a new completion ring is. -/
structure State.NewCq (t : State) (b : List Byte) (rs : List XRange) : Prop where
  enabled : t.bit (R.cqCfg (pkNumber b)) 31 = true
  tail : t.cqTail (pkNumber b) = 0
  phase : t.cqPhase (pkNumber b) = true
  head : t.fld (R.cqHead (pkNumber b)) 0 16 = 0
  records : t.cqRecords (pkNumber b) = 2 ^ (pkBits b 9 0 4 + 6)
  host : t.cqHost (pkNumber b) = pkHost b
  base : t.reg64 (R.cqBaseLo (pkNumber b)) = pkBase b % 2 ^ 64
  run : t.cq (pkNumber b) = { cqDefault (pkNumber b) with ranges := rs }

theorem State.NewCq.congr {t t' : State} {b : List Byte} {rs : List XRange} (h : t.NewCq b rs)
    (hr : ∀ o, t'.reg o = t.reg o) (hq : t'.cq (pkNumber b) = t.cq (pkNumber b)) : t'.NewCq b rs where
  enabled := (State.bit_congr (hr _) 31).trans h.enabled
  head := (State.fld_congr (hr _) 0 16).trans h.head
  tail := (State.fld_congr (hr _) 0 16).trans h.tail
  phase := (State.bit_congr (hr _) 31).trans h.phase
  records := (congrArg (fun x => 2 ^ (x + 6)) (State.fld_congr (hr _) 16 4)).trans h.records
  host := (State.bit_congr (hr _) 30).trans h.host
  base := (State.reg64_congr (hr _) (hr _)).trans h.base
  run := hq.trans h.run

theorem cqRegs_ne (n : Nat) : R.cqBaseLo n ≠ R.cqCfg n ∧ R.cqBaseLo n + 4 ≠ R.cqCfg n ∧ R.cqCfg n ≠ R.cqPasid n ∧ R.cqBaseLo n ≠ R.cqPasid n ∧
    R.cqBaseLo n + 4 ≠ R.cqPasid n ∧ R.cqCfg n ≠ R.cqTail n ∧ R.cqBaseLo n ≠ R.cqTail n ∧ R.cqBaseLo n + 4 ≠ R.cqTail n ∧
    R.cqCfg n ≠ R.cqHead n ∧ R.cqBaseLo n ≠ R.cqHead n ∧ R.cqBaseLo n + 4 ≠ R.cqHead n ∧ R.cqTail n ≠ R.cqHead n := by
  unfold R.cqBaseLo R.cqCfg R.cqPasid R.cqTail R.cqHead
  omega

/-- The registers of a completion ring are written. -/
def State.writeCq (s : State) (n base : Nat) (cfg pasid tail head : Word) : State :=
  ((((s.setReg64 (R.cqBaseLo n) base).setReg (R.cqCfg n) cfg).setReg (R.cqPasid n) pasid).setReg (R.cqTail n) tail).setReg (R.cqHead n) head

theorem State.writeCq_spec (s : State) (n base : Nat) (cfg pasid tail head : Word) :
    (∃ r, s.writeCq n base cfg pasid tail head = { s with regs := r }) ∧
    (s.writeCq n base cfg pasid tail head).reg (R.cqCfg n) = cfg ∧
    (s.writeCq n base cfg pasid tail head).reg (R.cqTail n) = tail ∧
    (s.writeCq n base cfg pasid tail head).reg (R.cqHead n) = head ∧
    (s.writeCq n base cfg pasid tail head).reg64 (R.cqBaseLo n) = base % 2 ^ 64 := by
  obtain ⟨h1, h2, h3, h4, h5, h6, h7, h8, h9, h10, h11, h12⟩ := cqRegs_ne n
  obtain ⟨r, hr⟩ := s.setReg64_shape (R.cqBaseLo n) base
  have hbase := s.reg64_setReg64 (R.cqBaseLo n) base
  unfold State.writeCq
  generalize s.setReg64 (R.cqBaseLo n) base = u at hr hbase ⊢
  refine ⟨⟨_, by rw [hr]; rfl⟩, ?_, ?_, State.reg_setReg_self _ _ _, ?_⟩
  · rw [State.reg_setReg_ne _ _ h9, State.reg_setReg_ne _ _ h6, State.reg_setReg_ne _ _ h3, State.reg_setReg_self]
  · rw [State.reg_setReg_ne _ _ h12, State.reg_setReg_self]
  · refine (State.reg64_congr ?_ ?_).trans hbase
    · rw [State.reg_setReg_ne _ _ h10, State.reg_setReg_ne _ _ h7, State.reg_setReg_ne _ _ h4, State.reg_setReg_ne _ _ h1]
    · rw [State.reg_setReg_ne _ _ h11, State.reg_setReg_ne _ _ h8, State.reg_setReg_ne _ _ h5, State.reg_setReg_ne _ _ h2]

theorem State.makeCq_eq (s : State) (b : List Byte) (rs : List XRange) : s.makeCq b rs =
    (s.writeCq (pkNumber b) (pkBase b)
      (BitVec.ofNat 32 (2 ^ 31 + boolBit (pkHost b) * 2 ^ 30 + pkBits b 9 0 4 * 2 ^ 16 + uintAt b 12 2 % 4096))
      (BitVec.ofNat 32 (uintAt b 20 4 % 2 ^ 20)) 0x80000000 0).putCq (pkNumber b) { cqDefault (pkNumber b) with ranges := rs } := rfl

theorem State.makeCq_shape (s : State) (b : List Byte) (rs : List XRange) : ∃ r q, s.makeCq b rs = { s with regs := r, cqs := q } := by
  rw [State.makeCq_eq]
  obtain ⟨r, hr⟩ := (s.writeCq_spec (pkNumber b) (pkBase b)
      (BitVec.ofNat 32 (2 ^ 31 + boolBit (pkHost b) * 2 ^ 30 + pkBits b 9 0 4 * 2 ^ 16 + uintAt b 12 2 % 4096))
      (BitVec.ofNat 32 (uintAt b 20 4 % 2 ^ 20)) 0x80000000 0).1
  rw [hr]
  exact ⟨r, _, rfl⟩

theorem State.makeCq_new (s : State) (b : List Byte) (rs : List XRange) : (s.makeCq b rs).NewCq b rs := by
  obtain ⟨h31, h30, h16⟩ := cqWord_fields (h := pkHost b) (k := pkBits b 9 0 4) (c := uintAt b 12 2 % 4096)
    (pkBits_lt b 9 0 4) (Nat.mod_lt _ (by decide))
  rw [State.makeCq_eq]
  generalize BitVec.ofNat 32 (2 ^ 31 + boolBit (pkHost b) * 2 ^ 30 + pkBits b 9 0 4 * 2 ^ 16 + uintAt b 12 2 % 4096) = cfg at h31 h30 h16 ⊢
  generalize BitVec.ofNat 32 (uintAt b 20 4 % 2 ^ 20) = pasid
  obtain ⟨-, hcfg, htl, hhd, hbase⟩ := s.writeCq_spec (pkNumber b) (pkBase b) cfg pasid 0x80000000 0
  generalize s.writeCq (pkNumber b) (pkBase b) cfg pasid 0x80000000 0 = u at hcfg htl hhd hbase ⊢
  have hreg : ∀ o, (u.putCq (pkNumber b) { cqDefault (pkNumber b) with ranges := rs }).reg o = u.reg o := fun o => State.reg_putCq' u _ _ o
  have hrun := u.cq_putCq_self (pkNumber b) { cqDefault (pkNumber b) with ranges := rs }
  generalize u.putCq (pkNumber b) { cqDefault (pkNumber b) with ranges := rs } = v at hreg hrun ⊢
  have hcfg' := (hreg _).trans hcfg
  have htl' := (hreg _).trans htl
  exact {
    enabled := (congrArg (fun x => decide (getField x 31 1 = 1)) hcfg').trans (decide_eq_true h31)
    tail := (congrArg (fun x => getField x 0 16) htl').trans (by decide)
    phase := (congrArg (fun x => decide (getField x 31 1 = 1)) htl').trans (by decide)
    head := (congrArg (fun x => getField x 0 16) ((hreg _).trans hhd)).trans (by decide)
    records := (congrArg (fun x => 2 ^ (getField x 16 4 + 6)) hcfg').trans (congrArg (fun x => 2 ^ (x + 6)) h16)
    host := ((congrArg (fun x => decide (getField x 30 1 = 1)) hcfg').trans (congrArg (fun x => decide (x = 1)) h30)).trans (decide_boolBit _)
    base := (State.reg64_congr (hreg _) (hreg _)).trans hbase
    run := hrun }


theorem State.sq_replied (s : State) (p : Packet) (st : Status) (last : Bool) (res : List Byte) (k : Nat) :
    (s.replied p st last res).sq k = s.sq k := rfl

theorem State.cq_replied (s : State) (p : Packet) (st : Status) (last : Bool) (res : List Byte) (k : Nat) :
    (s.replied p st last res).cq k = s.cq k := rfl

/-! QUEUE_DESTROY: the registers of a queue or a ring go back to reset. -/

theorem State.resetRegs_shape (l : List Nat) (s : State) : ∃ r, s.resetRegs l = { s with regs := r } :=
  List.foldlRecOn (motive := fun u : State => ∃ r, u = { s with regs := r }) _ _ ⟨s.regs, rfl⟩
    fun _ ⟨r, hu⟩ a _ => ⟨sset resetWord r a (resetWord a), by rw [hu]; rfl⟩

theorem State.resetRegs_reg (l : List Nat) (s : State) {o : Nat} (h : o ∈ l ∨ s.reg o = resetWord o) : (s.resetRegs l).reg o = resetWord o := by
  induction l generalizing s with
  | nil => exact h.resolve_left List.not_mem_nil
  | cons a l ih =>
    refine ih (s.setReg a (resetWord a)) ?_
    by_cases ha : o = a
    · subst ha
      exact .inr (s.reg_setReg_self o _)
    · obtain h | h := h
      · exact .inl (List.mem_of_ne_of_mem ha h)
      · exact .inr ((s.reg_setReg_ne _ ha).trans h)

theorem State.resetRegs_range (s : State) (base n i : Nat) (h : i < n) :
    (s.resetRegs ((List.range n).map (fun i => base + 4 * i))).reg (base + 4 * i) = resetWord (base + 4 * i) :=
  State.resetRegs_reg _ _ (.inl (List.mem_map.mpr ⟨i, List.mem_range.mpr h, rfl⟩))

theorem destroyQueue_eq {s : State} {p : Packet} (hr : s.cpRuns = true) (hc : s.mq.cur = some p) (ho : pkOpcode p.bytes = 0x82) :
    destroyQueue s =
      if ! s.mayDestroy (pkBits p.bytes 8 0 1) (pkNumber p.bytes) then s.inHand.replied p St.state true []
      else if pkBits p.bytes 8 0 1 = 0 then
        ((s.inHand.resetRegs ((List.range 14).map (fun i => R.sqBaseLo (pkNumber p.bytes) + 4 * i))).putSq (pkNumber p.bytes)
          { sqDefault (pkNumber p.bytes) with life := (s.sq (pkNumber p.bytes)).life, stale := (s.abandon (pkNumber p.bytes)).stale }).replied
            p St.success true []
      else ((s.inHand.resetRegs ((List.range 11).map (fun i => R.cqBaseLo (pkNumber p.bytes) + 4 * i))).putCq (pkNumber p.bytes)
          (cqDefault (pkNumber p.bytes))).replied p St.success true [] := by
  refine (State.onPacket_of_cur hr hc ho _).trans ?_
  simp only [State.final_replied ho (by decide : (0x82 : Nat) ≠ 0)]
  rfl

theorem State.sqsBut_putSq (s : State) (q : Nat) (r : SqRun) : s.sqsBut (s.putSq q r) q := fun _ hk => State.sq_putSq_ne s hk r

/-! ABORT's final reply. -/

/-- Does a task of an ABORT still want its records, and not only room for them? -/
def State.abortUnfinished (s : State) (a : AbortRun) : Bool :=
  a.tasks.any (fun r => match s.task r with | none => false | some t => ! s.waitsRoom t)

theorem State.abortUnfinished_iff (s : State) (a : AbortRun) :
    s.abortUnfinished a = true ↔ ∃ r y, r ∈ a.tasks ∧ s.task r = some y ∧ s.waitsRoom y = false := by
  unfold State.abortUnfinished
  rw [List.any_eq_true]
  refine exists_congr fun r => ?_
  cases hx : s.task r with
  | none => simp
  | some x => simp

theorem finishAbort_of_waiting {s : State} {a : AbortRun} (ha : s.mq.abort = some a) : finishAbort s =
    if ! s.cpRuns ∨ s.abortUnfinished a then s
    else if a.packet.bytes = [] then { s with mq := { s.mq with abort := none } }
    else { s with mq := { s.mq with abort := none, replies := s.mq.replies ++
      [{ a.packet.answer St.success true (leBytes 4 a.tasks.length) with waits := a.scope }] } } := by
  unfold finishAbort
  rw [ha]
  rfl

/-! EPOCH_SET, FLAG_WRITE and POWER_SET. -/

/-- The epoch is staged, and the interim reply is ready. -/
def State.epochAt (s : State) (p : Packet) : State :=
  { s.setReg R.epochStaged (BitVec.ofNat 32 (uintAt p.bytes 8 4)) with
      mq := { s.mq with
        cur := none, replies := s.mq.replies ++ [p.answer St.success false (leBytes 4 s.epochNow.toNat)], epoch := some p } }

theorem stageEpoch_eq {s : State} {p : Packet} (hr : s.cpRuns = true) (hc : s.mq.cur = some p) (ho : pkOpcode p.bytes = 0x87) :
    stageEpoch s = if s.inHand.opInProgress 0x87 ∨ BitVec.ofNat 32 (uintAt p.bytes 8 4) = s.epochNow then s.inHand.replied p St.state true []
      else s.epochAt p := by
  refine (State.onPacket_of_cur hr hc ho _).trans ?_
  simp only [State.final_replied ho (by decide : (0x87 : Nat) ≠ 0), State.interim,
    State.reply_eq _ (Packet.bytes_ne_nil_of_opcode ho (by decide : (0x87 : Nat) ≠ 0))]
  rfl

/-- A flag is written as FLAG_WRITE says. -/
def State.flagWritten (s : State) (b : List Byte) : State :=
  if pkBits b 10 0 1 = 1 then s.clearFlag (uintAt b 8 2 % 512) else s.setFlag (uintAt b 8 2 % 512)

theorem writeFlag_eq {s : State} {p : Packet} (hr : s.cpRuns = true) (hc : s.mq.cur = some p) (ho : pkOpcode p.bytes = 0x8F) :
    writeFlag s = (s.inHand.flagWritten p.bytes).replied p St.success true [] := by
  refine (State.onPacket_of_cur hr hc ho _).trans ?_
  simp only [State.final_replied ho (by decide : (0x8F : Nat) ≠ 0)]
  rfl

theorem State.setFlag_spec (s : State) (e : Nat) : (s.setFlag e).flag e = true ∧ (∃ r n, s.setFlag e = { s with regs := r, now := n }) ∧
    s.regsBut (s.setFlag e) [R.eventSet (e / 32)] :=
  ⟨State.bit_hwSet_self s _ _ (Nat.mod_lt e (by decide)), ⟨_, _, rfl⟩, fun _ ho => State.reg_hwSet_ne s _ (List.ne_of_not_mem_cons ho)⟩

theorem State.clearFlag_spec (s : State) (e : Nat) :
    (s.clearFlag e).flag e = (s.flag e && decide (getField (s.setNow (R.eventSet (e / 32))) (e % 32) 1 = 1)) ∧
    (∃ r n, s.clearFlag e = { s with regs := r, now := n }) ∧ s.regsBut (s.clearFlag e) [R.eventSet (e / 32)] := by
  unfold State.clearFlag
  by_cases h : getField (s.setNow (R.eventSet (e / 32))) (e % 32) 1 = 1
  · rw [if_pos h, decide_eq_true h, Bool.and_true]
    exact ⟨rfl, ⟨s.regs, s.now, rfl⟩, fun _ _ => rfl⟩
  · rw [if_neg h, decide_eq_false h, Bool.and_false]
    exact ⟨s.bit_setBit_self _ _ _ (Nat.mod_lt e (by decide)), ⟨_, s.now, rfl⟩, fun _ ho => s.reg_setBit_ne _ _ (List.ne_of_not_mem_cons ho)⟩

theorem State.flagWritten_spec (s : State) (b : List Byte) :
    (pkBits b 10 0 1 = 0 → (s.flagWritten b).flag (uintAt b 8 2 % 512) = true) ∧
    (pkBits b 10 0 1 = 1 → (s.flagWritten b).flag (uintAt b 8 2 % 512) = (s.flag (uintAt b 8 2 % 512) &&
      decide (getField (s.setNow (R.eventSet (uintAt b 8 2 % 512 / 32))) (uintAt b 8 2 % 512 % 32) 1 = 1))) ∧
    (∃ r n, s.flagWritten b = { s with regs := r, now := n }) ∧
    s.regsBut (s.flagWritten b) [R.eventSet (uintAt b 8 2 % 512 / 32)] := by
  unfold State.flagWritten
  split
  next h =>
    obtain ⟨h1, h2, h3⟩ := s.clearFlag_spec (uintAt b 8 2 % 512)
    exact ⟨fun h0 => absurd (h.symm.trans h0) (by decide), fun _ => h1, h2, h3⟩
  next h =>
    obtain ⟨h1, h2, h3⟩ := s.setFlag_spec (uintAt b 8 2 % 512)
    exact ⟨fun _ => h1, fun h' => absurd h' h, h2, h3⟩

theorem setPower_eq {s : State} {p : Packet} (hr : s.cpRuns = true) (hc : s.mq.cur = some p) (ho : pkOpcode p.bytes = 0x88) :
    setPower s = if pkBits p.bytes 8 0 3 = powerNumber s.power then s.inHand.replied p St.success true []
      else if 2 ≤ pkBits p.bytes 8 0 3 ∧ ! s.mayLower then s.inHand.replied p St.state true []
      else { s with mq := { s.mq with
        cur := none, powerTo := some (pkBits p.bytes 8 0 3), replies := s.mq.replies ++ [p.answer St.success true []] } } := by
  refine (State.onPacket_of_cur hr hc ho _).trans ?_
  simp only [State.final_replied ho (by decide : (0x88 : Nat) ≠ 0)]
  rfl

/-- Settles O54. -/
theorem queueCommands : Obligations.QueueCommands := by
  unfold Obligations.QueueCommands
  intro s p hr
  refine ⟨fun hc ho x => ⟨fun h => ?_, fun h hm => ?_, fun st h hm hl => ?_, fun rs h hm hl => ?_⟩,
    fun hc ho => ⟨fun h => ?_, fun h hk => ?_, fun h hk => ?_⟩, fun hc ho hn => ⟨fun h hq => ?_, fun h => ?_⟩,
    fun a ha => ⟨fun h hb => ?_, fun h => ?_⟩, fun hc ho => ⟨fun h => ?_, fun h he => ?_⟩, fun hc ho => ?_,
    fun hc ho => ⟨fun h => ?_, fun h h2 hl => ?_, fun h hl => ?_⟩⟩
  · exact ⟨_, congrArg Host.Outcome.next ((createQueue_eq x hr hc ho).trans (if_pos h)),
      State.answered_of_beside (u := s.inHand) rfl rfl (fun _ => rfl) p _ _, rfl⟩
  · exact ⟨_, congrArg Host.Outcome.next ((createQueue_eq x hr hc ho).trans ((if_neg (by rw [h]; decide)).trans (if_pos (by rw [hm]; rfl)))),
      State.answered_of_beside (u := s.inHand) rfl rfl (fun _ => rfl) p _ _, rfl⟩
  · have hact := (createQueue_eq x hr hc ho).trans ((if_neg (by rw [h]; decide)).trans (if_neg (by rw [hm]; decide)))
    rw [hl] at hact
    obtain ⟨⟨g, n, hs⟩, hregs⟩ := s.inHand.ringRequests_shape p.bytes
    exact ⟨_, congrArg Host.Outcome.next hact,
      State.answered_of_beside (by rw [hs]; rfl) (by rw [hs]; rfl) (fun _ => by rw [hs]; rfl) p _ _, hregs⟩
  · have hact := (createQueue_eq x hr hc ho).trans ((if_neg (by rw [h]; decide)).trans (if_neg (by rw [hm]; decide)))
    rw [hl] at hact
    dsimp only at hact
    obtain ⟨⟨g, n, hs⟩, -⟩ := s.inHand.ringRequests_shape p.bytes
    by_cases hk : pkBits p.bytes 8 0 1 = 0
    · rw [if_pos hk] at hact
      obtain ⟨g', q, hv⟩ := (s.inHand.ringRequests p.bytes).makeSq_shape p.bytes rs
      have hnew := (s.inHand.ringRequests p.bytes).makeSq_new p.bytes rs
      generalize (s.inHand.ringRequests p.bytes).makeSq p.bytes rs = v at hact hv hnew
      have hto := hnew.congr (s' := s) (t' := v.replied p St.success true (leBytes 4 rs.length)) (by rw [hs]; rfl) (v.reg_replied _ _ _ _) (v.sq_replied _ _ _ _ _)
      rw [hs] at hv
      exact ⟨_, congrArg Host.Outcome.next hact, State.answered_of_beside (by rw [hv]; rfl) (by rw [hv]; rfl) (fun _ => by rw [hv]; rfl) p _ _,
        fun _ => ⟨hto.enabled, hto.mode, hto.head, hto.tail, hto.phase, hto.index, hto.units, hto.ctx, hto.host, hto.base, hto.run⟩,
        fun h1 => absurd (hk.symm.trans h1) (by decide)⟩
    · rw [if_neg hk] at hact
      obtain ⟨g', q, hv⟩ := (s.inHand.ringRequests p.bytes).makeCq_shape p.bytes rs
      have hnew := (s.inHand.ringRequests p.bytes).makeCq_new p.bytes rs
      generalize (s.inHand.ringRequests p.bytes).makeCq p.bytes rs = v at hact hv hnew
      have hto := hnew.congr (t' := v.replied p St.success true (leBytes 4 rs.length)) (v.reg_replied _ _ _ _) (v.cq_replied _ _ _ _ _)
      rw [hs] at hv
      exact ⟨_, congrArg Host.Outcome.next hact, State.answered_of_beside (by rw [hv]; rfl) (by rw [hv]; rfl) (fun _ => by rw [hv]; rfl) p _ _,
        fun h0 => absurd h0 hk,
        fun _ => ⟨hto.enabled, hto.tail, hto.phase, hto.head, hto.records, hto.host, hto.base, hto.run⟩⟩
  · exact ⟨_, congrArg Host.Outcome.next ((destroyQueue_eq hr hc ho).trans (if_pos (by rw [h]; rfl))),
      State.answered_of_beside (u := s.inHand) rfl rfl (fun _ => rfl) p _ _, rfl⟩
  · have hact := (destroyQueue_eq hr hc ho).trans ((if_neg (by rw [h]; decide)).trans (if_pos hk))
    obtain ⟨g, hg⟩ := s.inHand.resetRegs_shape ((List.range 14).map (fun i => R.sqBaseLo (pkNumber p.bytes) + 4 * i))
    have hreset := s.inHand.resetRegs_range (R.sqBaseLo (pkNumber p.bytes)) 14
    generalize s.inHand.resetRegs ((List.range 14).map (fun i => R.sqBaseLo (pkNumber p.bytes) + 4 * i)) = u at hact hg hreset
    have hself := u.sq_putSq_self (pkNumber p.bytes)
      { sqDefault (pkNumber p.bytes) with life := (s.sq (pkNumber p.bytes)).life, stale := (s.abandon (pkNumber p.bytes)).stale }
    have hbut := u.sqsBut_putSq (pkNumber p.bytes)
      { sqDefault (pkNumber p.bytes) with life := (s.sq (pkNumber p.bytes)).life, stale := (s.abandon (pkNumber p.bytes)).stale }
    have hkeep := State.reg_putSq' u (pkNumber p.bytes)
      { sqDefault (pkNumber p.bytes) with life := (s.sq (pkNumber p.bytes)).life, stale := (s.abandon (pkNumber p.bytes)).stale }
    have hfr : ∃ q, u.putSq (pkNumber p.bytes)
      { sqDefault (pkNumber p.bytes) with
          life := (s.sq (pkNumber p.bytes)).life, stale := (s.abandon (pkNumber p.bytes)).stale } = { u with sqs := q } := ⟨_, rfl⟩
    generalize u.putSq (pkNumber p.bytes)
      { sqDefault (pkNumber p.bytes) with
          life := (s.sq (pkNumber p.bytes)).life, stale := (s.abandon (pkNumber p.bytes)).stale } = v at hact hself hbut hkeep hfr
    obtain ⟨q, hv⟩ := hfr
    rw [hg] at hv
    have husq : ∀ k, u.sq k = s.sq k := fun k => by rw [hg]; rfl
    exact ⟨_, congrArg Host.Outcome.next hact, State.answered_of_beside (by rw [hv]; rfl) (by rw [hv]; rfl) (fun _ => by rw [hv]; rfl) p _ _,
      fun i hi => (v.reg_replied _ _ _ _ _).trans ((hkeep _).trans (hreset i hi)), (v.sq_replied _ _ _ _ _).trans hself,
      fun k hk => ((v.sq_replied _ _ _ _ _).trans (hbut k hk)).trans (husq k)⟩
  · have hact := (destroyQueue_eq hr hc ho).trans ((if_neg (by rw [h]; decide)).trans (if_neg (by rw [hk]; decide)))
    obtain ⟨g, hg⟩ := s.inHand.resetRegs_shape ((List.range 11).map (fun i => R.cqBaseLo (pkNumber p.bytes) + 4 * i))
    have hreset := s.inHand.resetRegs_range (R.cqBaseLo (pkNumber p.bytes)) 11
    generalize s.inHand.resetRegs ((List.range 11).map (fun i => R.cqBaseLo (pkNumber p.bytes) + 4 * i)) = u at hact hg hreset
    have hself := u.cq_putCq_self (pkNumber p.bytes) (cqDefault (pkNumber p.bytes))
    have hkeep := State.reg_putCq' u (pkNumber p.bytes) (cqDefault (pkNumber p.bytes))
    have hfr : ∃ q, u.putCq (pkNumber p.bytes) (cqDefault (pkNumber p.bytes)) = { u with cqs := q } := ⟨_, rfl⟩
    generalize u.putCq (pkNumber p.bytes) (cqDefault (pkNumber p.bytes)) = v at hact hself hkeep hfr
    obtain ⟨q, hv⟩ := hfr
    rw [hg] at hv
    exact ⟨_, congrArg Host.Outcome.next hact, State.answered_of_beside (by rw [hv]; rfl) (by rw [hv]; rfl) (fun _ => by rw [hv]; rfl) p _ _,
      fun i hi => (v.reg_replied _ _ _ _ _).trans ((hkeep _).trans (hreset i hi)), (v.cq_replied _ _ _ _ _).trans hself⟩
  · exact ⟨_, congrArg Host.Outcome.next ((abortScope_eq hr hc ho).trans (if_pos ⟨h, by rw [hq]; rfl⟩)),
      State.answered_of_beside (u := s.inHand) rfl rfl (fun _ => rfl) p _ _⟩
  · obtain ⟨hmq, hend, hmode⟩ := s.inHand.aborted_spec p
    have hact := (abortScope_eq hr hc ho).trans (if_neg (fun hx => h.elim hx.1 (fun hb => by rw [hb] at hx; exact absurd hx.2 (by decide))))
    generalize s.inHand.aborted p.bytes = u at hact hmq hend hmode
    have hcur : u.mq.cur = none := by rw [hmq]; rfl
    have hrep : u.mq.replies = s.mq.replies := by rw [hmq]; rfl
    exact ⟨_, s.inHand.aborting p, congrArg Host.Outcome.next hact, rfl, rfl, rfl, rfl, hcur, hrep,
      fun r hr' y hy => State.not_abortable_of_ended _ (hend r hr' y hy), fun h1 hm => hmode h1 hn hm⟩
  · refine congrArg Host.Outcome.next ((finishAbort_of_waiting ha).trans ((if_neg (not_or.mpr ⟨by rw [hr]; decide, ?_⟩)).trans (if_neg hb)))
    exact fun hany => (State.abortUnfinished_iff s a).mp hany |>.elim fun r ⟨y, hmem, hy, hw⟩ => by rw [h r hmem y hy] at hw; exact Bool.noConfusion hw
  · exact congrArg Host.Outcome.next ((finishAbort_of_waiting ha).trans (if_pos (.inr ((State.abortUnfinished_iff s a).mpr h))))
  · exact ⟨_, congrArg Host.Outcome.next ((stageEpoch_eq hr hc ho).trans (if_pos h)),
      State.answered_of_beside (u := s.inHand) rfl rfl (fun _ => rfl) p _ _, rfl⟩
  · exact ⟨_, congrArg Host.Outcome.next ((stageEpoch_eq hr hc ho).trans (if_neg (not_or.mpr ⟨fun ht => Bool.noConfusion (h.symm.trans ht), he⟩))),
      s.reg_setReg_self _ _, rfl, rfl, rfl, rfl, fun o hne => s.reg_setReg_ne _ (List.ne_of_not_mem_cons hne)⟩
  · obtain ⟨h0, h1, ⟨g, n, hs⟩, hregs⟩ := s.inHand.flagWritten_spec p.bytes
    have hact := writeFlag_eq hr hc ho
    generalize s.inHand.flagWritten p.bytes = u at h0 h1 hs hregs hact
    exact ⟨_, congrArg Host.Outcome.next hact, by rw [hs]; rfl, by rw [hs]; rfl, h0, h1, by rw [hs]; rfl, hregs⟩
  · exact ⟨_, congrArg Host.Outcome.next ((setPower_eq hr hc ho).trans (if_pos h)),
      State.answered_of_beside (u := s.inHand) rfl rfl (fun _ => rfl) p _ _, rfl⟩
  · exact ⟨_, congrArg Host.Outcome.next ((setPower_eq hr hc ho).trans ((if_neg h).trans (if_pos ⟨h2, by rw [hl]; rfl⟩))),
      State.answered_of_beside (u := s.inHand) rfl rfl (fun _ => rfl) p _ _, rfl⟩
  · have hact := (setPower_eq hr hc ho).trans ((if_neg h).trans (if_neg (fun hx => hl.elim (fun hlt => by omega)
      (fun ht => by rw [ht] at hx; exact absurd hx.2 (by decide)))))
    exact ⟨_, congrArg Host.Outcome.next hact, ⟨rfl, rfl, rfl, fun _ => rfl⟩, rfl, rfl⟩

end Sys2Proof.Machine
end

section
/-!
### Lines of the state tier (R300 to R308)
-/
namespace Sys2Proof.Machine

/-! Marks on the reads that a line serves. -/

/-- A read of a task that awaits the line of an address, on this node. -/
def State.coversLine (s : State) (a : Nat) (i : Issued) : Prop :=
  i.answered = false ∧ s.readsOwn i = true ∧ i.req.addr % 2 ^ 48 / 64 ≤ a / 64 ∧ a / 64 ≤ (i.req.addr % 2 ^ 48 + (i.req.len - 1)) / 64

theorem State.markReads_shape (s : State) (owner : Option TaskRef) (a : Nat) (c f : Bool) :
    ∃ l, s.markReads owner a c f = { s with tasks := l } := by
  cases owner with
  | none => exact ⟨s.tasks, rfl⟩
  | some t => exact ⟨_, rfl⟩

/-- The marks of one read. -/
def State.mark (s : State) (a : Nat) (c f : Bool) (i : Issued) : Issued :=
  if ! i.answered && s.readsOwn i && decide (i.req.addr % 2 ^ 48 / 64 ≤ a / 64) &&
    decide (a / 64 ≤ (i.req.addr % 2 ^ 48 + (i.req.len - 1)) / 64)
  then { i with corrected := i.corrected || c, refreshed := i.refreshed || f } else i

/-- The marks of a task's reads. -/
def State.marked (s : State) (a : Nat) (c f : Bool) (x : Task) : Task := { x with issueQ := x.issueQ.map (s.mark a c f) }

theorem State.markReads_some (s : State) (ref : TaskRef) (a : Nat) (c f : Bool) :
    s.markReads (some ref) a c f = s.modTask ref (s.marked a c f) := rfl

theorem State.mark_of_covers {s : State} {a : Nat} {i : Issued} (hc : s.coversLine a i) (c f : Bool) :
    s.mark a c f i = { i with corrected := i.corrected || c, refreshed := i.refreshed || f } := by
  obtain ⟨h1, h2, h3, h4⟩ := hc
  refine if_pos ?_
  rw [h1, h2, decide_eq_true h3, decide_eq_true h4]
  rfl

theorem State.mark_nothing (s : State) (a : Nat) (i : Issued) : s.mark a false false i = i := by
  unfold State.mark
  rw [Bool.or_false, Bool.or_false]
  exact ite_self i

theorem State.markReads_mem (s : State) {ref : TaskRef} {x : Task} {i : Issued} {a : Nat} (hx : s.task ref = some x) (hi : i ∈ x.issueQ)
    (hc : s.coversLine a i) (c f : Bool) : ∃ y, (s.markReads (some ref) a c f).task ref = some y ∧
      { i with corrected := i.corrected || c, refreshed := i.refreshed || f } ∈ y.issueQ := by
  have htask := State.task_modTask s ref ref (s.marked a c f) (fun _ => rfl)
  rw [hx, Option.map_some, if_pos (State.ref_of_task hx)] at htask
  exact ⟨_, htask, List.mem_map.mpr ⟨i, hi, State.mark_of_covers hc c f⟩⟩

theorem State.markReads_nothing (s : State) (owner : Option TaskRef) (a : Nat) : s.markReads owner a false false = s := by
  cases owner with
  | none => rfl
  | some ref =>
    have hm : s.marked a false false = id := funext fun x => by
      unfold State.marked
      rw [List.map_id'' (s.mark_nothing a)]
      rfl
    have hl : s.tasks.map (fun x => if x.ref = ref then id x else x) = s.tasks := List.map_id'' (fun x => ite_self x) s.tasks
    rw [State.markReads_some, hm]
    unfold State.modTask
    rw [hl]

theorem State.coversLine.congr {s t : State} {a : Nat} {i : Issued} (h : s.coversLine a i) (hn : t.reg R.nodeId = s.reg R.nodeId) :
    t.coversLine a i := by
  obtain ⟨h1, h2, h3⟩ := h
  refine ⟨h1, ?_, h3⟩
  unfold State.readsOwn at h2 ⊢
  rw [show t.node = s.node from State.fld_congr hn 0 16]
  exact h2

/-! A row that reaches the threshold is logged. -/

theorem State.logRow_spec (s : State) (b : Nat) (r : RowAddr) : (∃ g n, s.logRow b r = { s with regs := g, now := n }) ∧
    (∀ o, o < 0x601010 + 0x100 * b → (s.logRow b r).reg o = s.reg o) ∧
    ∀ n, (List.range 16).find? (fun i => ! s.bit (R.tbRow b i) 31) = some n →
      (s.logRow b r).reg (R.tbRow b n) = BitVec.ofNat 32 (2 ^ 31 + r.dev % 32 * 2 ^ 25 + r.bank % 16 * 2 ^ 21 + r.row % 2 ^ 18) := by
  unfold State.logRow
  generalize BitVec.ofNat 32 (2 ^ 31 + r.dev % 32 * 2 ^ 25 + r.bank % 16 * 2 ^ 21 + r.row % 2 ^ 18) = w
  cases h : (List.range 16).find? (fun i => ! s.bit (R.tbRow b i) 31) with
  | some i =>
    refine ⟨⟨_, s.now, rfl⟩, fun o ho => s.reg_setReg_ne w (by unfold R.tbRow; omega), fun n hn => ?_⟩
    obtain rfl := Option.some.inj hn
    exact s.reg_setReg_self _ w
  | none =>
    exact ⟨s.bump_shape _ 1, fun o ho => s.reg_bump_ne 1 (by unfold R.tbRowOverflow; omega), fun n hn => absurd hn (by simp)⟩

/-- What tracking a row keeps of a site. -/
def State.sitesTracked (s t : State) : Prop := ∀ k, ∃ l, t.site k = { s.site k with track := l }

theorem State.sitesTracked.refl (s : State) : s.sitesTracked s := fun k => ⟨(s.site k).track, rfl⟩

theorem rowCount_cons (l : List RowTrack) (r : RowAddr) (n : Nat) : rowCount (({ row := r, count := n } :: l).take 256) r = n := by
  unfold rowCount
  rw [List.take_succ_cons, List.find?_cons_of_pos (by simp)]

theorem State.trackRow_spec (s : State) (b : Nat) (r : RowAddr) :
    (∃ g n q, s.trackRow b r = { s with regs := g, now := n, sites := q }) ∧
    (∀ o, o < 0x601010 + 0x100 * b → (s.trackRow b r).reg o = s.reg o) ∧ s.sitesTracked (s.trackRow b r) ∧
    rowCount ((s.trackRow b r).site b).track r = rowCount (s.site b).track r + 1 ∧
    ∀ n, (List.range 16).find? (fun i => ! s.bit (R.tbRow b i) 31) = some n → rowCount (s.site b).track r + 1 = s.fld R.tbRowCfg 0 4 →
      (s.trackRow b r).reg (R.tbRow b n) = BitVec.ofNat 32 (2 ^ 31 + r.dev % 32 * 2 ^ 25 + r.bank % 16 * 2 ^ 21 + r.row % 2 ^ 18) := by
  have hcount := rowCount_cons ((s.site b).track.filter (fun t => decide (t.row ≠ r))) r (rowCount (s.site b).track r + 1)
  unfold State.trackRow
  dsimp only
  generalize (({ row := r, count := rowCount (s.site b).track r + 1 } : RowTrack) ::
    (s.site b).track.filter (fun t => decide (t.row ≠ r))).take 256 = tr at hcount ⊢
  have hself := s.site_putSite_self b { s.site b with track := tr }
  have hput : s.sitesTracked (s.putSite b { s.site b with track := tr }) := fun k => by
    by_cases hk : k = b
    · subst hk
      exact ⟨tr, hself⟩
    · exact ⟨(s.site k).track, s.site_putSite_ne _ hk⟩
  split
  next h =>
    obtain ⟨⟨g, n, hs⟩, hregs, hlog⟩ := (s.putSite b { s.site b with track := tr }).logRow_spec b r
    have hsite : ∀ k, ((s.putSite b { s.site b with track := tr }).logRow b r).site k = (s.putSite b { s.site b with track := tr }).site k :=
      fun k => by rw [hs]; rfl
    refine ⟨⟨g, n, _, by rw [hs]; rfl⟩, hregs, fun k => by rw [hsite]; exact hput k, by rw [hsite, hself]; exact hcount, fun n hn _ => hlog n hn⟩
  next h => exact ⟨⟨_, _, _, rfl⟩, fun _ _ => rfl, hput, by rw [hself]; exact hcount, fun n _ he => absurd he h⟩


/-! A line is read (R300, R301). -/

theorem State.putWrong_spec (s : State) (a : Nat) (wrong : List Nat) : (∃ m n, s.putWrong a wrong = { s with mem := m, now := n }) ∧
    s.sameMemBut (s.putWrong a wrong) a 64 ∧
    ∀ i, i < 64 → ((s.putWrong a wrong).readByte (a + i)).toNat = ((s.readByte (a + i)).toNat ^^^ wrong.getD i 0) % 256 := by
  unfold State.putWrong
  have hlen : ((List.range 64).map (fun i => BitVec.ofNat 8 ((s.readByte (a + i)).toNat ^^^ wrong.getD i 0))).length = 64 := by
    rw [List.length_map, List.length_range]
  have hbut := s.sameMemBut_writeMem a ((List.range 64).map (fun i => BitVec.ofNat 8 ((s.readByte (a + i)).toNat ^^^ wrong.getD i 0)))
  refine ⟨⟨_, _, rfl⟩, by rw [hlen] at hbut; exact hbut, fun i hi => ?_⟩
  rw [s.readByte_writeMem_self a _ (by rw [hlen]; exact hi)]
  simp only [List.getElem_map, List.getElem_range, BitVec.toNat_ofNat]

/-- What the read of a line may change. -/
structure State.LineRead (s t : State) (a : Nat) : Prop where
  frame : ∃ g n q m, t = { s with regs := g, now := n, sites := q, mem := m }
  bytes : s.sameMemBut t a 64
  low : ∀ o, o < 0x601000 → t.reg o = s.reg o
  sites : s.sitesTracked t

theorem State.readLine_lineRead {s t : State} {b a : Nat} {e : LineErrors} {r : RowAddr} (h : s.readLine b a e r = some t) :
    s.LineRead t a := by
  unfold State.readLine at h
  split at h
  · exact absurd h (by simp)
  · obtain rfl := Option.some.inj h
    exact ⟨⟨_, _, _, _, rfl⟩, fun _ _ => rfl, fun _ _ => rfl, .refl _⟩
  · obtain rfl := Option.some.inj h
    obtain ⟨g, n, hb⟩ := s.bump_shape (R.tbCe b) 1
    obtain ⟨⟨g', n', q, hs⟩, hregs, hsites, -⟩ := (s.bump (R.tbCe b) 1).trackRow_spec b r
    have hsite : ∀ k, (s.bump (R.tbCe b) 1).site k = s.site k := fun k => by rw [hb]; rfl
    refine ⟨⟨g', n', q, s.mem, by rw [hs, hb]⟩, fun x _ => by rw [hs, hb]; rfl, fun o ho => ?_, fun k => ?_⟩
    · exact (hregs o (by omega)).trans (s.reg_bump_ne 1 (by unfold R.tbCe; omega))
    · rw [← hsite k]
      exact hsites k
  next wrong _ =>
    obtain rfl := Option.some.inj h
    obtain ⟨⟨m, n, hs⟩, hbut, -⟩ := s.putWrong_spec a wrong
    exact ⟨⟨s.regs, n, s.sites, m, by rw [hs]⟩, hbut, fun o _ => by rw [hs]; rfl, fun k => by rw [hs]; exact State.sitesTracked.refl s k⟩

theorem State.readLine_none_iff (s : State) (b a : Nat) (e : LineErrors) (r : RowAddr) :
    s.readLine b a e r = none ↔ Rs.judge e (moduleInternal a / 64) = .uncorrectable := by
  unfold State.readLine
  split <;> simp_all

theorem State.readLine_some_of_ne (s : State) (b a : Nat) {e : LineErrors} (r : RowAddr)
    (h : Rs.judge e (moduleInternal a / 64) ≠ .uncorrectable) : ∃ t, s.readLine b a e r = some t :=
  Option.ne_none_iff_exists'.mp (fun hn => h ((s.readLine_none_iff b a e r).mp hn))

/-- What an uncorrectable line notes. -/
def State.lineLost (s : State) (a b : Nat) (scrub : Bool) (source : Nat) (st : Status) (o : Option TaskRef) (addr : Nat) : State :=
  (s.tbUe a b scrub).mcEvent source b st o addr

theorem State.lineLost_spec (s : State) (a : Nat) (b : Fin 9) (scrub : Bool) (source : Nat) (st : Status) (o : Option TaskRef) (addr : Nat) :
    s.onlyRegs (s.lineLost a b scrub source st o addr) [R.tbUeCount b, R.mcCount] ∧
    (s.lineLost a b scrub source st o addr).reg (R.tbUeCount b) = satAdd (s.reg (R.tbUeCount b)) 1 ∧
    (s.lineLost a b scrub source st o addr).reg R.mcCount = satAdd (s.reg R.mcCount) 1 ∧
    (s.lineLost a b scrub source st o addr).later.latches = s.later.latches ++
      [{ off := R.tbUe, key := 0, val := boolBit scrub * 2 ^ 30 + b.val % 16, also := pairWords R.tbUeAddrLo (a / 64 * 64) }] ∧
    (s.lineLost a b scrub source st o addr).later.events = s.later.events ++
      [{ source := source, unit := b.val, status := st, task := o, addr := addr, time := s.gtc }] := by
  have hne : R.tbUeCount b ≠ R.mcCount := by unfold R.tbUeCount R.mcCount; omega
  have hlo : R.gtcLo ≠ R.tbUeCount b := by unfold R.tbUeCount R.gtcLo; omega
  have hhi : R.gtcLo + 4 ≠ R.tbUeCount b := by unfold R.tbUeCount R.gtcLo; omega
  obtain ⟨g, n, hb⟩ := s.bump_shape (R.tbUeCount b) 1
  have hself := s.reg_bump_self (R.tbUeCount b) 1
  have hmc := s.reg_bump_ne (o := R.mcCount) 1 hne.symm
  have hgtc : (s.bump (R.tbUeCount b) 1).gtc = s.gtc := State.reg64_congr (s.reg_bump_ne 1 hlo) (s.reg_bump_ne 1 hhi)
  have hout : ∀ o', o' ≠ R.tbUeCount b → (s.bump (R.tbUeCount b) 1).reg o' = s.reg o' := fun o' h => s.reg_bump_ne 1 h
  unfold State.lineLost State.tbUe
  dsimp only
  rw [hb] at hself hmc hgtc hout ⊢
  generalize hl : ({ off := R.tbUe, key := 0, val := boolBit scrub * 2 ^ 30 + b.val % 16, also := pairWords R.tbUeAddrLo (a / 64 * 64) } : Latch) = l
  have hreg : ∀ o', (({ s with regs := g, now := n } : State).latch l).reg o' = ({ s with regs := g, now := n } : State).reg o' := fun o' =>
    State.reg_latch' _ _ _
  have hevents : (({ s with regs := g, now := n } : State).latch l).later.events = s.later.events := rfl
  have hlatches : (({ s with regs := g, now := n } : State).latch l).later.latches = s.later.latches ++ [l] := rfl
  have hframe : ({ s with regs := g, now := n } : State).latch l = { s with
    regs := g, now := n, later := (({ s with regs := g, now := n } : State).latch l).later } := rfl
  have hg' : (({ s with regs := g, now := n } : State).latch l).gtc = s.gtc := (State.reg64_congr (hreg _) (hreg _)).trans hgtc
  generalize ({ s with regs := g, now := n } : State).latch l = u at hreg hevents hlatches hframe hg' ⊢
  obtain ⟨-, -, -, hmcself, hev⟩ := u.mcEvent_beside source b st o addr
  have hmne : ∀ o', o' ≠ R.mcCount → (u.mcEvent source b st o addr).reg o' = u.reg o' := fun o' h => u.reg_mcEvent_ne _ _ _ _ _ h
  have hlat : (u.mcEvent source b st o addr).later.latches = u.later.latches := rfl
  obtain ⟨g', n', l', hs⟩ := u.mcEvent_shape source b st o addr
  generalize u.mcEvent source b st o addr = v at hmcself hev hmne hlat hs ⊢
  refine ⟨⟨?_, fun o' ho => ?_⟩, ?_, ?_, ?_, ?_⟩
  · rw [hs, hframe]
  · simp only [List.mem_cons, List.not_mem_nil, or_false, not_or] at ho
    rw [hmne o' ho.2, hreg, hout o' ho.1]
  · rw [hmne _ hne, hreg, hself]
  · rw [hmcself, hreg, hmc]
  · rw [hlat, hlatches]
  · rw [hev, hevents, hg']

theorem State.mcUncorrectable_tierB (s : State) {a : Nat} {b : Fin 9} (ha : regionOf a = .tierB) (hb : s.siteOf (moduleOf a) = b) (st : Status)
    (o : Option TaskRef) : s.mcUncorrectable a st o = s.lineLost a b false 4 st o (lineOf a) := by
  unfold State.mcUncorrectable
  rw [ha]
  dsimp only
  rw [hb]
  rfl

/-! A read whose bank is under refresh waits (R303). -/

/-- A read waits at its site. -/
def State.holdLine (s : State) (b : Nat) (h : HeldLine) : State := s.putSite b { s.site b with held := (s.site b).held ++ [h] }

theorem State.holdLine_site (s : State) (b : Nat) (h : HeldLine) : (s.holdLine b h).site b = { s.site b with held := (s.site b).held ++ [h] } :=
  s.site_putSite_self b _

/-- A read waits for the refresh of its bank, and is counted. -/
def State.hitRefresh (s : State) (b : Nat) (h : HeldLine) : State :=
  (s.bump (R.tbRefreshHit b) 1).putSite b { s.site b with held := (s.site b).held ++ [h] }

theorem State.hitRefresh_spec (s : State) (b : Nat) (h : HeldLine) :
    (∃ g n q, s.hitRefresh b h = { s with regs := g, now := n, sites := q }) ∧
    (s.hitRefresh b h).reg (R.tbRefreshHit b) = satAdd (s.reg (R.tbRefreshHit b)) 1 ∧
    (s.hitRefresh b h).site b = { s.site b with held := (s.site b).held ++ [h] } ∧
    s.regsBut (s.hitRefresh b h) [R.tbRefreshHit b] := by
  obtain ⟨g, n, hb⟩ := s.bump_shape (R.tbRefreshHit b) 1
  have hself := s.reg_bump_self (R.tbRefreshHit b) 1
  have hout : s.regsBut (s.bump (R.tbRefreshHit b) 1) [R.tbRefreshHit b] := fun o ho => s.reg_bump_ne 1 (List.ne_of_not_mem_cons ho)
  unfold State.hitRefresh
  generalize s.bump (R.tbRefreshHit b) 1 = u at hb hself hout ⊢
  have hsite := u.site_putSite_self b { s.site b with held := (s.site b).held ++ [h] }
  have hreg := State.reg_putSite' u b { s.site b with held := (s.site b).held ++ [h] }
  have hfr : ∃ q, u.putSite b { s.site b with held := (s.site b).held ++ [h] } = { u with sites := q } := ⟨_, rfl⟩
  generalize u.putSite b { s.site b with held := (s.site b).held ++ [h] } = v at hsite hreg hfr ⊢
  obtain ⟨q, hv⟩ := hfr
  exact ⟨⟨g, n, q, by rw [hv, hb]⟩, (hreg _).trans hself, hsite, fun o ho => (hreg o).trans (hout o ho)⟩

theorem State.atBank_busy {s : State} {b : Nat} {h : HeldLine} (hb : s.bankBusy b h.row.bank = true) (serve : State → State) :
    s.atBank b h serve = match h.use with
      | .request owner => (s.hitRefresh b h).markReads owner h.addr false true
      | _ => s.hitRefresh b h := by
  unfold State.atBank
  rw [if_pos hb]
  rfl

theorem State.atBank_free {s : State} {b : Nat} {h : HeldLine} (hb : s.bankBusy b h.row.bank = false) (serve : State → State) :
    s.atBank b h serve = serve s := if_neg (by rw [hb]; decide)

theorem State.bankBusy_congr {s t : State} {b : Nat} (hr : (t.site b).refreshing = (s.site b).refreshing) (hc : t.cycle = s.cycle) (k : Nat) :
    t.bankBusy b k = s.bankBusy b k := by
  unfold State.bankBusy
  rw [hr, hc]

/-! The requests for a line. -/

theorem readTierB_eq {s : State} {a : Nat} {b : Fin 9} (ha : regionOf a = .tierB) (ht : s.tbReady = true) (hb : s.siteOf (moduleOf a) = b)
    (e : LineErrors) (r : RowAddr) (o : Option TaskRef) : readTierB a e r o s =
      s.atBank b { use := .request o, accepted := true, addr := a, errors := e, row := r } (serveRequest b a e r o) := by
  have hlt := b.isLt
  unfold readTierB
  rw [hb]
  exact if_neg (fun h => h.elim (fun h => h ha) (fun h => h.elim (fun h => by rw [ht] at h; exact absurd h (by decide)) (fun h => by omega)))

theorem serveRequest_of_clean {s : State} {b a : Nat} {e : LineErrors} (h : Rs.judge e (moduleInternal (lineOf a) / 64) = .clean) (r : RowAddr)
    (o : Option TaskRef) : serveRequest b a e r o s = s := by
  unfold serveRequest State.readLine isCorrected
  rw [h]
  exact s.markReads_nothing o a

theorem serveRequest_of_missed {s : State} {b a : Nat} {e : LineErrors} {wrong : List Nat}
    (h : Rs.judge e (moduleInternal (lineOf a) / 64) = .missed wrong) (r : RowAddr) (o : Option TaskRef) :
    serveRequest b a e r o s = s.putWrong (lineOf a) wrong := by
  unfold serveRequest State.readLine isCorrected
  rw [h]
  exact (s.putWrong (lineOf a) wrong).markReads_nothing o a

theorem serveRequest_of_corrected {s : State} {b a : Nat} {e : LineErrors} (h : Rs.judge e (moduleInternal (lineOf a) / 64) = .corrected)
    (r : RowAddr) (o : Option TaskRef) :
    serveRequest b a e r o s = ((s.bump (R.tbCe b) 1).trackRow b r).markReads o a true false := by
  unfold serveRequest State.readLine isCorrected
  rw [h]
  rfl

theorem serveRequest_of_uncorrectable {s : State} {b : Fin 9} {a : Nat} {e : LineErrors} (ha : regionOf a = .tierB)
    (hb : s.siteOf (moduleOf a) = b) (h : Rs.judge e (moduleInternal (lineOf a) / 64) = .uncorrectable) (r : RowAddr) (o : Option TaskRef) :
    serveRequest b a e r o s = match o with
      | some t => (s.lineLost a b false 4 St.uncorrectable o (lineOf a)).fail t St.uncorrectable
      | none => s.lineLost a b false 4 St.uncorrectable o (lineOf a) := by
  unfold serveRequest
  rw [(s.readLine_none_iff b (lineOf a) e r).mpr h]
  cases o with
  | none => exact s.mcUncorrectable_tierB ha hb St.uncorrectable none
  | some t => exact congrArg (fun u : State => u.fail t St.uncorrectable) (s.mcUncorrectable_tierB ha hb St.uncorrectable (some t))

/-- A read that was corrected: counted at its site, with its row tracked, and the reads it serves marked. -/
theorem State.corrected_spec (s : State) (b : Fin 9) (r : RowAddr) :
    (∃ g n q, (s.bump (R.tbCe b) 1).trackRow b r = { s with regs := g, now := n, sites := q }) ∧
    ((s.bump (R.tbCe b) 1).trackRow b r).reg (R.tbCe b) = satAdd (s.reg (R.tbCe b)) 1 ∧
    rowCount (((s.bump (R.tbCe b) 1).trackRow b r).site b).track r = rowCount (s.site b).track r + 1 ∧
    ((s.bump (R.tbCe b) 1).trackRow b r).reg R.nodeId = s.reg R.nodeId ∧
    ∀ n, (List.range 16).find? (fun i => ! s.bit (R.tbRow b i) 31) = some n → rowCount (s.site b).track r + 1 = s.fld R.tbRowCfg 0 4 →
      ((s.bump (R.tbCe b) 1).trackRow b r).reg (R.tbRow b n) =
        BitVec.ofNat 32 (2 ^ 31 + r.dev % 32 * 2 ^ 25 + r.bank % 16 * 2 ^ 21 + r.row % 2 ^ 18) := by
  obtain ⟨g, n, hb⟩ := s.bump_shape (R.tbCe b) 1
  have hself := s.reg_bump_self (R.tbCe b) 1
  have hout : ∀ o, o ≠ R.tbCe b → (s.bump (R.tbCe b) 1).reg o = s.reg o := fun o ho => s.reg_bump_ne 1 ho
  have hsite : (s.bump (R.tbCe b) 1).site b = s.site b := by rw [hb]; rfl
  generalize s.bump (R.tbCe b) 1 = u at hb hself hout hsite ⊢
  obtain ⟨⟨g', n', q, hs⟩, hregs, -, hcount, hlog⟩ := u.trackRow_spec b r
  have hbits : (fun i => ! u.bit (R.tbRow b i) 31) = fun i => ! s.bit (R.tbRow b i) 31 :=
    funext fun i => congrArg not (State.bit_congr (hout _ (by unfold R.tbRow R.tbCe; omega)) 31)
  rw [hsite] at hcount hlog
  rw [hbits, State.fld_congr (hout R.tbRowCfg (by unfold R.tbRowCfg R.tbCe; omega)) 0 4] at hlog
  exact ⟨⟨g', n', q, by rw [hs, hb]⟩, (hregs _ (by unfold R.tbCe; omega)).trans hself, hcount,
    (hregs _ (by unfold R.nodeId; omega)).trans (hout _ (by unfold R.nodeId R.tbCe; omega)), hlog⟩


/-! The scrub (R302). -/

/-- The scrub moves on to its next line. -/
def State.scrubOn (s : State) (b : Nat) : State :=
  s.putSite b { s.site b with scrubLine := ((s.site b).scrubLine + 1) % 2 ^ 33, scrubAt := some s.cycle }

theorem State.scrubOn_site (s : State) (b : Nat) : (s.scrubOn b).site b =
    { s.site b with scrubLine := ((s.site b).scrubLine + 1) % 2 ^ 33, scrubAt := some s.cycle } := s.site_putSite_self b _

theorem State.scrubOn_frame (s : State) (b : Nat) : ∃ q, s.scrubOn b = { s with sites := q } := ⟨_, rfl⟩

theorem State.atSite_waiting {s : State} {b : Nat} {h : HeldLine} (ha : h.accepted = false) (serve : State → State) :
    s.atSite b h serve = s.holdLine b h := if_neg (by rw [ha]; decide)

theorem State.atSite_accepted {s : State} {b : Nat} {h : HeldLine} (ha : h.accepted = true) (serve : State → State) :
    s.atSite b h serve = s.atBank b h serve := if_pos ha

theorem scrubLine_of_due {s : State} {b m : Nat} (hm : s.moduleAt b = some m) (hd : s.scrubDue b = true) (e : LineErrors) (r : RowAddr) :
    scrubLine b e r s = (s.scrubOn b).atSite b
      { use := .scrub, accepted := s.tbReady, addr := moduleAddress m (64 * (s.site b).scrubLine), errors := e, row := r }
      (serveScrub b (moduleAddress m (64 * (s.site b).scrubLine)) e r) := by
  unfold scrubLine
  rw [hm]
  exact if_neg (by rw [hd]; decide)

theorem scrubLine_of_not_due {s : State} {b m : Nat} (hm : s.moduleAt b = some m) (hd : s.scrubDue b = false) (e : LineErrors) (r : RowAddr) :
    scrubLine b e r s = s := by
  unfold scrubLine
  rw [hm]
  exact if_pos (by rw [hd]; rfl)

/-- What a step of the scrub keeps: all but a line's bytes, tasks, and where the scrub goes on. -/
structure State.Scrubs (s t : State) (b a : Nat) : Prop where
  bytes : s.sameMemBut t a 64
  tasks : t.tasks = s.tasks
  line : (t.site b).scrubLine = (s.site b).scrubLine
  since : (t.site b).scrubAt = (s.site b).scrubAt

theorem serveScrub_scrubs (s : State) (b : Fin 9) (a : Nat) (e : LineErrors) (r : RowAddr) : s.Scrubs (serveScrub b a e r s) b a := by
  unfold serveScrub
  cases h : s.readLine b a e r with
  | none =>
    obtain ⟨⟨hs, -⟩, -⟩ := s.lineLost_spec a b true 5 0 none a
    exact ⟨fun x _ => (congrArg (fun u : State => u.readByte x) hs :), (congrArg State.tasks hs :), (congrArg (fun u : State => (u.site b).scrubLine) hs :),
      (congrArg (fun u : State => (u.site b).scrubAt) hs :)⟩
  | some t =>
    obtain ⟨⟨g, n, q, m, hs⟩, hbytes, -, hsites⟩ := State.readLine_lineRead h
    obtain ⟨l, hl⟩ := hsites b
    dsimp only
    have ht : t.tasks = s.tasks := by rw [hs]
    split
    · exact ⟨fun x _ => by rw [hs]; rfl, ht, (congrArg SiteRun.scrubLine hl :), (congrArg SiteRun.scrubAt hl :)⟩
    · exact ⟨hbytes, ht, (congrArg SiteRun.scrubLine hl :), (congrArg SiteRun.scrubAt hl :)⟩

theorem State.holdLine_scrubs (s : State) (b a : Nat) (h : HeldLine) : s.Scrubs (s.holdLine b h) b a :=
  ⟨fun _ _ => rfl, rfl, (congrArg SiteRun.scrubLine (s.holdLine_site b h) :), (congrArg SiteRun.scrubAt (s.holdLine_site b h) :)⟩

theorem State.hitRefresh_scrubs (s : State) (b a : Nat) (h : HeldLine) : s.Scrubs (s.hitRefresh b h) b a := by
  obtain ⟨⟨g, n, q, hs⟩, -, hsite, -⟩ := s.hitRefresh_spec b h
  exact ⟨fun x _ => by rw [hs]; rfl, by rw [hs], (congrArg SiteRun.scrubLine hsite :), (congrArg SiteRun.scrubAt hsite :)⟩

theorem State.scrub_scrubs (s : State) (b : Fin 9) (a : Nat) (acc : Bool) (e : LineErrors) (r : RowAddr) :
    s.Scrubs (s.atSite b { use := .scrub, accepted := acc, addr := a, errors := e, row := r } (serveScrub b a e r)) b a := by
  cases acc with
  | false =>
    rw [State.atSite_waiting rfl]
    exact s.holdLine_scrubs b a _
  | true =>
    rw [State.atSite_accepted rfl]
    cases hb : s.bankBusy b r.bank with
    | true =>
      rw [State.atBank_busy hb]
      exact s.hitRefresh_scrubs b a _
    | false =>
      rw [State.atBank_free hb]
      exact serveScrub_scrubs s b a e r

theorem serveScrub_of_uncorrectable {s : State} {b : Fin 9} {a : Nat} {e : LineErrors} (h : Rs.judge e (moduleInternal a / 64) = .uncorrectable)
    (r : RowAddr) : serveScrub b a e r s = s.lineLost a b true 5 0 none a := by
  unfold serveScrub
  rw [(s.readLine_none_iff b a e r).mpr h]
  rfl

/-! Refresh (R303). -/

/-- The refreshes of a site when one more bank is refreshed. -/
def State.refreshed (s : State) (b bank : Nat) : List (Nat × Nat) :=
  (s.site b).refreshing.filter (fun y => decide (s.cycle < y.2) && decide (y.1 ≠ bank)) ++ [(bank, s.cycle + refreshCycles)]

theorem refreshBank_of_refreshes {s : State} {b : Nat} (h : s.refreshes b = true) (bank writes : Nat) : refreshBank b bank writes s =
    (((s.bump (R.tbRefreshHit b) writes).setFld (R.tbSiteStatus b) 16 3 (s.site b).nextRate).putSite b
      { s.site b with refreshing := s.refreshed b bank }) := if_pos h

theorem State.refreshed_mem (s : State) (b bank : Nat) : (bank, s.cycle + 448) ∈ s.refreshed b bank :=
  List.mem_append_right _ (List.mem_singleton.mpr rfl)

theorem State.any_refreshed (s : State) (b bank k : Nat) :
    (s.refreshed b bank).any (fun x => decide (x.1 = k) && decide (s.cycle < x.2)) = (decide (k = bank) || s.bankBusy b k) := by
  unfold State.refreshed State.bankBusy
  rw [List.any_append, List.any_filter]
  by_cases hk : k = bank
  · subst hk
    simp [refreshCycles]
  · have hne : ¬ bank = k := fun h => hk h.symm
    simp only [List.any_cons, List.any_nil, hne, hk, decide_false, Bool.false_and, Bool.or_false, Bool.false_or]
    refine congrArg (fun f => List.any _ f) (funext fun y => ?_)
    by_cases hy : y.1 = k
    · simp [hy, hk]
    · simp [hy]

theorem refreshBank_spec {s : State} {b : Fin 9} (h : s.refreshes b = true) (bank writes : Nat) :
    (∃ g n q, refreshBank b bank writes s = { s with regs := g, now := n, sites := q }) ∧
    (refreshBank b bank writes s).reg (R.tbRefreshHit b) = satAdd (s.reg (R.tbRefreshHit b)) writes ∧
    (refreshBank b bank writes s).fld (R.tbSiteStatus b) 16 3 = (s.site b).nextRate % 8 ∧
    ((refreshBank b bank writes s).site b).refreshing = s.refreshed b bank ∧
    s.regsBut (refreshBank b bank writes s) [R.tbRefreshHit b, R.tbSiteStatus b] := by
  have hne : R.tbRefreshHit b ≠ R.tbSiteStatus b := by unfold R.tbRefreshHit R.tbSiteStatus; omega
  obtain ⟨g, n, hb⟩ := s.bump_shape (R.tbRefreshHit b) writes
  have hself := s.reg_bump_self (R.tbRefreshHit b) writes
  have hout : ∀ o, o ≠ R.tbRefreshHit b → (s.bump (R.tbRefreshHit b) writes).reg o = s.reg o := fun o ho => s.reg_bump_ne writes ho
  rw [refreshBank_of_refreshes h]
  generalize s.bump (R.tbRefreshHit b) writes = u at hb hself hout ⊢
  obtain ⟨g', hf⟩ := u.setFld_shape (R.tbSiteStatus b) 16 3 (s.site b).nextRate
  have hfld := u.fld_setFld_self (R.tbSiteStatus b) 16 3 (s.site b).nextRate (by decide)
  have hfne : ∀ o, o ≠ R.tbSiteStatus b → (u.setFld (R.tbSiteStatus b) 16 3 (s.site b).nextRate).reg o = u.reg o := fun o ho => u.reg_setFld_ne _ _ _ ho
  generalize u.setFld (R.tbSiteStatus b) 16 3 (s.site b).nextRate = v at hf hfld hfne ⊢
  have hsite := v.site_putSite_self b { s.site b with refreshing := s.refreshed b bank }
  have hreg := State.reg_putSite' v b { s.site b with refreshing := s.refreshed b bank }
  have hfr : ∃ q, v.putSite b { s.site b with refreshing := s.refreshed b bank } = { v with sites := q } := ⟨_, rfl⟩
  generalize v.putSite b { s.site b with refreshing := s.refreshed b bank } = w at hsite hreg hfr ⊢
  obtain ⟨q, hw⟩ := hfr
  refine ⟨⟨g', n, q, by rw [hw, hf, hb]⟩, (hreg _).trans ((hfne _ hne).trans hself), (State.fld_congr (hreg _) 16 3).trans hfld,
    congrArg SiteRun.refreshing hsite, fun o ho => ?_⟩
  simp only [List.mem_cons, List.not_mem_nil, or_false, not_or] at ho
  exact (hreg o).trans ((hfne o ho.2).trans (hout o ho.1))

theorem pollRate_of_due {s : State} {b : Nat} (hr : s.refreshes b = true)
    (h : ∀ at_, (s.site b).polledAt = some at_ → at_ + 51200 ≤ s.cycle) (rate : Nat) :
    pollRate b rate s = s.putSite b { s.site b with nextRate := rate, polledAt := some s.cycle } := by
  refine if_pos ?_
  rw [hr, Bool.true_and, Option.all_eq_true]
  exact fun x hx => decide_eq_true (h x hx)

theorem pollRate_of_early {s : State} {b at_ : Nat} (hp : (s.site b).polledAt = some at_) (h : s.cycle < at_ + 51200) (rate : Nat) :
    pollRate b rate s = s := by
  refine if_neg ?_
  rw [hp, Option.all_some, Bool.and_eq_true, decide_eq_true_eq]
  exact fun hx => absurd hx.2 (Nat.not_le.mpr h)

/-! The evacuation copy (R308). -/

theorem State.changeRecord_spec (s : State) (f : RepairRecord → RepairRecord) :
    (∃ g w d, s.changeRecord f = { s with regs := g, record := f s.record, recordWrite := w, recordDirty := d }) ∧
    s.regsBut (s.changeRecord f) [R.cpRecord] := by
  unfold State.changeRecord
  dsimp only
  split
  · exact ⟨⟨_, _, _, rfl⟩, fun _ _ => rfl⟩
  · exact ⟨⟨_, _, _, rfl⟩, fun o ho => State.reg_setBit_ne ({ s with record := f s.record } : State) 27 true (List.ne_of_not_mem_cons ho)⟩

theorem copyLine_eq {s : State} {v : EvacRun} (h : s.evac = some v) (hh : ∀ x, x ∈ (s.site v.source).held → x.use ≠ .copy) (e : LineErrors)
    (r : RowAddr) : copyLine e r s = s.atSite v.source
      { use := .copy, accepted := s.tbReady, addr := moduleAddress v.lm (64 * v.line), errors := e, row := r }
      (serveCopy (moduleAddress v.lm (64 * v.line)) e r) := by
  unfold copyLine
  rw [h]
  refine if_neg (fun hany => ?_)
  obtain ⟨x, hx, hu⟩ := List.any_eq_true.mp hany
  exact hh x hx (of_decide_eq_true hu)

theorem copyLine_of_held {s : State} {v : EvacRun} (h : s.evac = some v) (hh : ∃ x, x ∈ (s.site v.source).held ∧ x.use = .copy)
    (e : LineErrors) (r : RowAddr) : copyLine e r s = s := by
  obtain ⟨x, hx, hu⟩ := hh
  unfold copyLine
  rw [h]
  exact if_pos (List.any_eq_true.mpr ⟨x, hx, decide_eq_true hu⟩)

/-- A line has been copied. -/
def State.lineCopied (s : State) : State := s.setReg64 R.tbEvacDoneLo (s.reg64 R.tbEvacDoneLo + 64)

theorem serveCopy_of_read {s t : State} {v : EvacRun} {a : Nat} {e : LineErrors} {r : RowAddr} (h : s.evac = some v)
    (ht : s.readLine v.source a e r = some t) : serveCopy a e r s =
      if v.line + 1 = moduleLines then t.lineCopied.rebind v else { t.lineCopied with evac := some { v with line := v.line + 1 } } := by
  unfold serveCopy
  rw [h]
  dsimp only
  rw [ht]
  rfl

theorem serveCopy_of_uncorrectable {s : State} {v : EvacRun} {a : Nat} {e : LineErrors} (h : s.evac = some v)
    (hj : Rs.judge e (moduleInternal a / 64) = .uncorrectable) (r : RowAddr) : serveCopy a e r s =
      (s.lineLost a v.source false 4 St.uncorrectable none a).cancelEvac.endEvac St.uncorrectable := by
  unfold serveCopy
  rw [h]
  dsimp only
  rw [(s.readLine_none_iff v.source a e r).mpr hj]
  rfl

theorem State.lineCopied_spec (s : State) : (∃ g, s.lineCopied = { s with regs := g }) ∧
    s.lineCopied.reg64 R.tbEvacDoneLo = (s.reg64 R.tbEvacDoneLo + 64) % 2 ^ 64 :=
  ⟨s.setReg64_shape _ _, s.reg64_setReg64 R.tbEvacDoneLo (s.reg64 R.tbEvacDoneLo + 64)⟩

theorem tbSiteStatus_ne {b k : Nat} (h : b ≠ k) : R.tbSiteStatus b ≠ R.tbSiteStatus k := by
  unfold R.tbSiteStatus
  omega

theorem tbSiteStatus_ge (b : Nat) : 0x601000 ≤ R.tbSiteStatus b := by
  unfold R.tbSiteStatus
  omega

/-- The registers of a module's last line copied. -/
def State.rebound (s : State) (v : EvacRun) : State :=
  (((s.setFld R.tbSiteMap (4 * v.lm) 4 v.target).setSiteState v.target 1).setSiteState v.source 6).setReg R.tbEvac 0

/-- The binding that goes to the record (R345). -/
def EvacRun.bound (v : EvacRun) (r : RepairRecord) : RepairRecord :=
  { r with siteMap := r.siteMap.set v.lm v.target, siteState := (r.siteState.set v.target 1).set v.source 6 }

theorem State.rebind_eq (s : State) (v : EvacRun) :
    s.rebind v = ({ s.rebound v with evac := none } : State).changeRecord v.bound := rfl

theorem State.rebound_spec (s : State) {v : EvacRun} (ht : v.target < 9) (hl : v.lm < 8) (hne : v.source ≠ v.target) :
    (∃ g, s.rebound v = { s with regs := g }) ∧ (s.rebound v).siteOf v.lm = v.target ∧ (s.rebound v).siteState v.target = 1 ∧
    (s.rebound v).siteState v.source = 6 ∧ (s.rebound v).bit R.tbEvac 31 = false := by
  have hmap (k : Nat) : R.tbSiteMap ≠ R.tbSiteStatus k := Nat.ne_of_lt (Nat.lt_of_lt_of_le (by decide) (tbSiteStatus_ge k))
  have hev (k : Nat) : R.tbSiteStatus k ≠ R.tbEvac := Nat.ne_of_gt (Nat.lt_of_lt_of_le (by decide) (tbSiteStatus_ge k))
  unfold State.rebound State.setSiteState
  obtain ⟨g1, e1⟩ := s.setFld_shape R.tbSiteMap (4 * v.lm) 4 v.target
  have hsite := s.fld_setFld_self R.tbSiteMap (4 * v.lm) 4 v.target (by omega)
  generalize s.setFld R.tbSiteMap (4 * v.lm) 4 v.target = u1 at e1 hsite ⊢
  obtain ⟨g2, e2⟩ := u1.setFld_shape (R.tbSiteStatus v.target) 29 3 1
  have htarget := u1.fld_setFld_self (R.tbSiteStatus v.target) 29 3 1 (by decide)
  have hsite2 := (u1.fld_setFld_ne 29 3 1 (4 * v.lm) 4 (hmap v.target)).trans hsite
  generalize u1.setFld (R.tbSiteStatus v.target) 29 3 1 = u2 at e2 htarget hsite2 ⊢
  obtain ⟨g3, e3⟩ := u2.setFld_shape (R.tbSiteStatus v.source) 29 3 6
  have hsource := u2.fld_setFld_self (R.tbSiteStatus v.source) 29 3 6 (by decide)
  have htarget3 := (u2.fld_setFld_ne 29 3 6 29 3 (tbSiteStatus_ne hne.symm)).trans htarget
  have hsite3 := (u2.fld_setFld_ne 29 3 6 (4 * v.lm) 4 (hmap v.source)).trans hsite2
  generalize u2.setFld (R.tbSiteStatus v.source) 29 3 6 = u3 at e3 hsource htarget3 hsite3 ⊢
  have hself := u3.reg_setReg_self R.tbEvac 0
  have hkeep : ∀ o, o ≠ R.tbEvac → (u3.setReg R.tbEvac 0).reg o = u3.reg o := fun o ho => u3.reg_setReg_ne 0 ho
  obtain ⟨g4, e4⟩ := u3.setReg_shape R.tbEvac 0
  generalize u3.setReg R.tbEvac 0 = u4 at hself hkeep e4 ⊢
  refine ⟨⟨g4, by rw [e4, e3, e2, e1]⟩, ?_, (State.fld_congr (hkeep _ (hev _)) 29 3).trans htarget3, (State.fld_congr (hkeep _ (hev _)) 29 3).trans hsource,
    (congrArg (fun x => decide (getField x 31 1 = 1)) hself).trans (by decide)⟩
  exact ((State.fld_congr (hkeep _ (by decide)) (4 * v.lm) 4).trans hsite3).trans (Nat.mod_eq_of_lt (by omega))

theorem State.rebind_spec (s : State) {v : EvacRun} (hsrc : v.source < 9) (ht : v.target < 9) (hl : v.lm < 8) (hne : v.source ≠ v.target) :
    (s.rebind v).evac = none ∧ (s.rebind v).siteOf v.lm = v.target ∧ (s.rebind v).siteState v.target = 1 ∧ (s.rebind v).siteState v.source = 6 ∧
    (s.rebind v).record.siteMap = s.record.siteMap.set v.lm v.target ∧ (s.rebind v).bit R.tbEvac 31 = false := by
  obtain ⟨⟨g, hg⟩, h1, h2, h3, h4⟩ := s.rebound_spec ht hl hne
  rw [State.rebind_eq]
  generalize s.rebound v = u at hg h1 h2 h3 h4 ⊢
  have hreg0 : ∀ o, ({ u with evac := none } : State).reg o = u.reg o := fun _ => rfl
  have hrec : ({ u with evac := none } : State).record = s.record := by rw [hg]
  have hevac : ({ u with evac := none } : State).evac = none := rfl
  generalize ({ u with evac := none } : State) = w at hreg0 hrec hevac ⊢
  obtain ⟨⟨g', x, d, hc⟩, hregs⟩ := w.changeRecord_spec v.bound
  have hlow : ∀ o, o < 0x900000 → (w.changeRecord v.bound).reg o = u.reg o := fun o ho =>
    (hregs o (by simp only [List.mem_singleton, R.cpRecord]; omega)).trans (hreg0 o)
  have hst (k : Nat) (hk : k < 9) : R.tbSiteStatus k < 0x900000 := by unfold R.tbSiteStatus; omega
  generalize w.changeRecord v.bound = y at hc hlow ⊢
  refine ⟨by rw [hc]; exact hevac, (State.fld_congr (hlow _ (by decide)) (4 * v.lm) 4).trans h1,
    (State.fld_congr (hlow _ (hst _ ht)) 29 3).trans h2, (State.fld_congr (hlow _ (hst _ hsrc)) 29 3).trans h3, ?_,
    (State.bit_congr (hlow _ (by decide)) 31).trans h4⟩
  rw [hc, ← hrec]
  rfl

/-- The registers of a copy that ends. -/
def State.uncopied (s : State) (v : EvacRun) : State :=
  (((s.setFld (R.tbSiteStatus v.target) 29 3 2).setBit (R.tbSiteStatus v.target) 28 true).setFld (R.tbSiteStatus v.source) 29 3 1).setReg
    R.tbEvac 0

theorem State.cancelEvac_of_evac {s : State} {v : EvacRun} (h : s.evac = some v) : s.cancelEvac = { s.uncopied v with evac := none } := by
  unfold State.cancelEvac
  rw [h]
  rfl

theorem State.uncopied_spec (s : State) {v : EvacRun} (hne : v.source ≠ v.target) : (∃ g, s.uncopied v = { s with regs := g }) ∧
    (s.uncopied v).siteState v.target = 2 ∧ (s.uncopied v).siteState v.source = 1 ∧ (s.uncopied v).reg R.tbEvac = 0 ∧
    s.regsBut (s.uncopied v) [R.tbSiteStatus v.target, R.tbSiteStatus v.source, R.tbEvac] := by
  have hev (k : Nat) : R.tbSiteStatus k ≠ R.tbEvac := Nat.ne_of_gt (Nat.lt_of_lt_of_le (by decide) (tbSiteStatus_ge k))
  unfold State.uncopied
  obtain ⟨g1, e1⟩ := s.setFld_shape (R.tbSiteStatus v.target) 29 3 2
  have h1 := s.fld_setFld_self (R.tbSiteStatus v.target) 29 3 2 (by decide)
  have k1 : ∀ o, o ≠ R.tbSiteStatus v.target → (s.setFld (R.tbSiteStatus v.target) 29 3 2).reg o = s.reg o := fun o ho => s.reg_setFld_ne _ _ _ ho
  generalize s.setFld (R.tbSiteStatus v.target) 29 3 2 = u1 at e1 h1 k1 ⊢
  obtain ⟨g2, e2⟩ := (u1.setsRegs_setBit (R.tbSiteStatus v.target) 28 true).1
  have h2 := (u1.fld_setBit_other (R.tbSiteStatus v.target) 28 29 3 true (by decide)).trans h1
  have k2 : ∀ o, o ≠ R.tbSiteStatus v.target → (u1.setBit (R.tbSiteStatus v.target) 28 true).reg o = u1.reg o := fun o ho => u1.reg_setBit_ne _ _ ho
  generalize u1.setBit (R.tbSiteStatus v.target) 28 true = u2 at e2 h2 k2 ⊢
  obtain ⟨g3, e3⟩ := u2.setFld_shape (R.tbSiteStatus v.source) 29 3 1
  have h3 := (u2.fld_setFld_ne 29 3 1 29 3 (tbSiteStatus_ne hne.symm)).trans h2
  have s3 := u2.fld_setFld_self (R.tbSiteStatus v.source) 29 3 1 (by decide)
  have k3 : ∀ o, o ≠ R.tbSiteStatus v.source → (u2.setFld (R.tbSiteStatus v.source) 29 3 1).reg o = u2.reg o := fun o ho => u2.reg_setFld_ne _ _ _ ho
  generalize u2.setFld (R.tbSiteStatus v.source) 29 3 1 = u3 at e3 h3 s3 k3 ⊢
  have hself := u3.reg_setReg_self R.tbEvac 0
  have k4 : ∀ o, o ≠ R.tbEvac → (u3.setReg R.tbEvac 0).reg o = u3.reg o := fun o ho => u3.reg_setReg_ne 0 ho
  obtain ⟨g4, e4⟩ := u3.setReg_shape R.tbEvac 0
  generalize u3.setReg R.tbEvac 0 = u4 at hself k4 e4 ⊢
  refine ⟨⟨g4, by rw [e4, e3, e2, e1]⟩, (State.fld_congr (k4 _ (hev _)) 29 3).trans h3, (State.fld_congr (k4 _ (hev _)) 29 3).trans s3, hself,
    fun o ho => ?_⟩
  simp only [List.mem_cons, List.not_mem_nil, or_false, not_or] at ho
  rw [k4 o ho.2.2, k3 o ho.2.1, k2 o ho.1, k1 o ho.1]

theorem State.endEvac_spec (s : State) (st : Status) : (∃ q, s.endEvac st = { s with mq := q }) ∧ (s.endEvac st).mq.evac = none := by
  unfold State.endEvac
  split
  next h => exact ⟨⟨s.mq, rfl⟩, h⟩
  next p _ =>
    unfold State.reply
    split
    · exact ⟨⟨_, rfl⟩, rfl⟩
    · exact ⟨⟨_, rfl⟩, rfl⟩

theorem State.copyLost_spec (s : State) {v : EvacRun} (h : s.evac = some v) (hsrc : v.source < 9) (hne : v.source ≠ v.target) (a : Nat) :
    ((s.lineLost a v.source false 4 St.uncorrectable none a).cancelEvac.endEvac St.uncorrectable).evac = none ∧
    ((s.lineLost a v.source false 4 St.uncorrectable none a).cancelEvac.endEvac St.uncorrectable).siteState v.target = 2 ∧
    ((s.lineLost a v.source false 4 St.uncorrectable none a).cancelEvac.endEvac St.uncorrectable).siteState v.source = 1 ∧
    ((s.lineLost a v.source false 4 St.uncorrectable none a).cancelEvac.endEvac St.uncorrectable).mq.evac = none ∧
    s.sameMem ((s.lineLost a v.source false 4 St.uncorrectable none a).cancelEvac.endEvac St.uncorrectable) := by
  obtain ⟨⟨hu, -⟩, -⟩ := s.lineLost_spec a ⟨v.source, hsrc⟩ false 4 St.uncorrectable none a
  dsimp only at hu
  generalize s.lineLost a v.source false 4 St.uncorrectable none a = u at hu ⊢
  have hevac : u.evac = some v := by rw [hu]; exact h
  rw [State.cancelEvac_of_evac hevac]
  obtain ⟨⟨g, hg⟩, h1, h2, -⟩ := u.uncopied_spec hne
  generalize u.uncopied v = w at hg h1 h2 ⊢
  have hreg0 : ∀ o, ({ w with evac := none } : State).reg o = w.reg o := fun _ => rfl
  have hev0 : ({ w with evac := none } : State).evac = none := rfl
  have hmem0 : w.sameMem { w with evac := none } := fun _ => rfl
  generalize ({ w with evac := none } : State) = x at hreg0 hev0 hmem0 ⊢
  obtain ⟨⟨q, hq⟩, hnone⟩ := x.endEvac_spec St.uncorrectable
  have hreg1 : ∀ o, (x.endEvac St.uncorrectable).reg o = x.reg o := fun o => by rw [hq]; rfl
  have hmem1 : x.sameMem (x.endEvac St.uncorrectable) := fun o => by rw [hq]; rfl
  have hev1 : (x.endEvac St.uncorrectable).evac = x.evac := by rw [hq]
  generalize x.endEvac St.uncorrectable = y at hnone hreg1 hmem1 hev1 ⊢
  refine ⟨hev1.trans hev0, (State.fld_congr ((hreg1 _).trans (hreg0 _)) 29 3).trans h1,
    (State.fld_congr ((hreg1 _).trans (hreg0 _)) 29 3).trans h2, hnone, fun o => ?_⟩
  refine (hmem1 o).trans ((hmem0 o).trans ?_)
  rw [hg, hu]
  rfl

/-! The row log goes to the repair record (R306). -/

/-- What a row log entry says of a row. -/
def State.loggedRow (s : State) (b n : Nat) : RowEntry :=
  { kind := 1, unit := b, state := 0, dev := s.fld (R.tbRow b n) 25 5, serial := (s.site b).serial, bank := s.fld (R.tbRow b n) 21 4,
    row := s.fld (R.tbRow b n) 0 18 }

theorem copyRow_eq (b n : Nat) (s : State) : copyRow b n s = if s.cpRuns ∧ s.fld (R.tbRow b n) 31 1 = 1 then
    (s.setBit (R.tbRow b n) 31 false).recordRow (s.loggedRow b n) else s := rfl

theorem State.recordRow_first {s : State} (h : s.record.rows = []) (e : RowEntry) :
    s.recordRow e = s.changeRecord (fun r => { r with rows := r.rows ++ [e] }) := by
  unfold State.recordRow
  rw [h]
  exact if_neg (by simp)

theorem State.recordRow_regs (s : State) (e : RowEntry) : s.regsBut (s.recordRow e) [R.cpRecord] := by
  unfold State.recordRow
  dsimp only
  split
  · exact fun _ _ => rfl
  · exact (s.changeRecord_spec _).2

theorem copyRow_spec {s : State} (b : Fin 9) (n : Fin 16) (hr : s.cpRuns = true) (hb : s.bit (R.tbRow b n) 31 = true) :
    (copyRow b n s).bit (R.tbRow b n) 31 = false ∧ (s.record.rows = [] → (copyRow b n s).record.rows = [s.loggedRow b n]) := by
  rw [copyRow_eq, if_pos ⟨hr, of_decide_eq_true hb⟩]
  have hbit := s.bit_setBit_self (R.tbRow b n) 31 false (by decide)
  have hrec : (s.setBit (R.tbRow b n) 31 false).record = s.record := rfl
  generalize s.setBit (R.tbRow b n) 31 false = u at hbit hrec ⊢
  refine ⟨(State.bit_congr (u.recordRow_regs _ _ ?_) 31).trans hbit, fun h => ?_⟩
  · simp only [List.mem_singleton, R.tbRow, R.cpRecord]
    omega
  · rw [State.recordRow_first (by rw [hrec]; exact h)]
    obtain ⟨⟨g, w, d, hs⟩, -⟩ := u.changeRecord_spec (fun r => { r with rows := r.rows ++ [s.loggedRow b n] })
    rw [hs]
    show u.record.rows ++ [s.loggedRow b n] = [s.loggedRow b n]
    rw [hrec, h]
    rfl


/-! One line read, case by case. -/

theorem State.marked_reads {s u : State} {a : Nat} (hn : u.reg R.nodeId = s.reg R.nodeId) (ht : u.tasks = s.tasks) (o : Option TaskRef)
    (c f : Bool) : ∀ ref x i, o = some ref → s.task ref = some x → i ∈ x.issueQ → s.coversLine a i →
      ∃ y, (u.markReads o a c f).task ref = some y ∧ { i with corrected := i.corrected || c, refreshed := i.refreshed || f } ∈ y.issueQ := by
  rintro ref x i rfl hx hi hc
  exact u.markReads_mem ((State.task_of_tasks ht ref).trans hx) hi (hc.congr hn) c f

theorem State.tierBRead_waits {s : State} {b : Fin 9} {a : Nat} {e : LineErrors} {r : RowAddr} {o : Option TaskRef}
    (hbusy : s.bankBusy b r.bank = true) (serve : State → State) :
    ∃ t, s.atBank b { use := .request o, accepted := true, addr := a, errors := e, row := r } serve = t ∧
      t.reg (R.tbRefreshHit b) = satAdd (s.reg (R.tbRefreshHit b)) 1 ∧
      (t.site b).held = (s.site b).held ++ [{ use := .request o, accepted := true, addr := a, errors := e, row := r }] ∧
      (∀ ref x i, o = some ref → s.task ref = some x → i ∈ x.issueQ → s.coversLine a i →
        ∃ y, t.task ref = some y ∧ { i with refreshed := true } ∈ y.issueQ) ∧
      t = { s with regs := t.regs, now := t.now, sites := t.sites, tasks := t.tasks } ∧ s.regsBut t [R.tbRefreshHit b] := by
  rw [State.atBank_busy hbusy]
  obtain ⟨⟨g, n, q, hs⟩, hhit, hsite, hregs⟩ := s.hitRefresh_spec b { use := .request o, accepted := true, addr := a, errors := e, row := r }
  dsimp only
  generalize s.hitRefresh b { use := .request o, accepted := true, addr := a, errors := e, row := r } = u at hs hhit hsite hregs ⊢
  have hmark := State.marked_reads (a := a) (hregs R.nodeId (by simp only [List.mem_singleton, R.nodeId, R.tbRefreshHit]; omega))
    (show u.tasks = s.tasks by rw [hs]) o false true
  obtain ⟨l, hl⟩ := u.markReads_shape o a false true
  have hreg : ∀ k, (u.markReads o a false true).reg k = u.reg k := fun k => by rw [hl]; rfl
  have hst : (u.markReads o a false true).site b = u.site b := by rw [hl]; rfl
  generalize u.markReads o a false true = t at hmark hl hreg hst ⊢
  refine ⟨t, rfl, (hreg _).trans hhit, by rw [hst, hsite], fun ref x i ho hx hi hc => ?_, by rw [hl, hs], fun k hk => (hreg k).trans (hregs k hk)⟩
  have h := hmark ref x i ho hx hi hc
  rwa [Bool.or_false, Bool.or_true] at h

theorem State.tierBRead_corrected (s : State) (b : Fin 9) (a : Nat) (r : RowAddr) (o : Option TaskRef) :
    ∃ t, ((s.bump (R.tbCe b) 1).trackRow b r).markReads o a true false = t ∧
      t.reg (R.tbCe b) = satAdd (s.reg (R.tbCe b)) 1 ∧ rowCount (t.site b).track r = rowCount (s.site b).track r + 1 ∧
      (∀ ref x i, o = some ref → s.task ref = some x → i ∈ x.issueQ → s.coversLine a i →
        ∃ y, t.task ref = some y ∧ { i with corrected := true } ∈ y.issueQ) ∧
      (∀ n, (List.range 16).find? (fun i => ! s.bit (R.tbRow b i) 31) = some n →
        rowCount (s.site b).track r + 1 = s.fld R.tbRowCfg 0 4 →
        t.reg (R.tbRow b n) = BitVec.ofNat 32 (2 ^ 31 + r.dev % 32 * 2 ^ 25 + r.bank % 16 * 2 ^ 21 + r.row % 2 ^ 18)) ∧
      t = { s with regs := t.regs, now := t.now, sites := t.sites, tasks := t.tasks } := by
  obtain ⟨⟨g, n, q, hs⟩, hce, hcount, hnode, hlog⟩ := s.corrected_spec b r
  generalize (s.bump (R.tbCe b) 1).trackRow b r = u at hs hce hcount hnode hlog ⊢
  have hmark := State.marked_reads (a := a) hnode (show u.tasks = s.tasks by rw [hs]) o true false
  obtain ⟨l, hl⟩ := u.markReads_shape o a true false
  have hreg : ∀ k, (u.markReads o a true false).reg k = u.reg k := fun k => by rw [hl]; rfl
  have hst : (u.markReads o a true false).site b = u.site b := by rw [hl]; rfl
  generalize u.markReads o a true false = t at hmark hl hreg hst ⊢
  refine ⟨t, rfl, (hreg _).trans hce, by rw [hst]; exact hcount, fun ref x i ho hx hi hc => ?_, fun n hn he => (hreg _).trans (hlog n hn he),
    by rw [hl, hs]⟩
  have h := hmark ref x i ho hx hi hc
  rwa [Bool.or_false, Bool.or_true] at h

theorem workReg_tbUeCount (b : Fin 9) : workReg (R.tbUeCount b) = false :=
  workReg_eq_false (by unfold R.tbUeCount; omega) (by unfold R.tbUeCount R.tuRangesFree; omega) (by unfold R.tbUeCount; omega)
    (by unfold R.tbUeCount; omega)

theorem State.tierBRead_fails {s : State} {b : Fin 9} {a : Nat} {ref : TaskRef} {x : Task} (hx : s.task ref = some x) (hp : x.phase = .running) :
    ∃ y, ((s.lineLost a b false 4 St.uncorrectable (some ref) (lineOf a)).fail ref St.uncorrectable).task ref = some y ∧ y.entry = x.entry ∧
      y.status = St.uncorrectable ∧ (y.phase = .failing ∨ y.phase = .finished) ∧
      ((s.lineLost a b false 4 St.uncorrectable (some ref) (lineOf a)).fail ref St.uncorrectable).reg (R.tbUeCount b) =
        satAdd (s.reg (R.tbUeCount b)) 1 := by
  obtain ⟨⟨hs, -⟩, hue, -⟩ := s.lineLost_spec a b false 4 St.uncorrectable (some ref) (lineOf a)
  generalize s.lineLost a b false 4 St.uncorrectable (some ref) (lineOf a) = u at hs hue ⊢
  obtain rfl : x.ref = ref := State.ref_of_task hx
  have hux : u.task x.ref = some x := (State.task_of_tasks (congrArg State.tasks hs :) x.ref).trans hx
  obtain ⟨y, hy, hent, hst, hph⟩ := State.fail_of_open hux (by rw [hp]; decide) (by rw [hp]; decide) (by rw [hp]; decide)
    (by rw [hp]; decide) St.uncorrectable
  exact ⟨y, hy, hent, hst, hph, ((u.fail_around x.ref St.uncorrectable).regs _ (workReg_tbUeCount b)).trans hue⟩

/-- A step of the scrub that is due. -/
theorem State.scrub_spec (s : State) (b : Fin 9) (a : Nat) (e : LineErrors) (r : RowAddr) :
    let t := (s.scrubOn b).atSite b { use := .scrub, accepted := s.tbReady, addr := a, errors := e, row := r } (serveScrub b a e r)
    s.sameMemBut t a 64 ∧ t.tasks = s.tasks ∧ (t.site b).scrubLine = ((s.site b).scrubLine + 1) % 2 ^ 33 ∧
    (t.site b).scrubAt = some s.cycle ∧
    (s.tbReady = false → t = { s with sites := t.sites } ∧
      (t.site b).held = (s.site b).held ++ [{ use := .scrub, accepted := false, addr := a, errors := e, row := r }]) ∧
    (s.tbReady = true → s.bankBusy b r.bank = false → Rs.judge e (moduleInternal a / 64) = .uncorrectable →
      t.reg (R.tbUeCount b) = satAdd (s.reg (R.tbUeCount b)) 1 ∧ t.reg R.mcCount = satAdd (s.reg R.mcCount) 1 ∧
      t.later.events = s.later.events ++ [{ source := 5, unit := b.val, status := 0, task := none, addr := a, time := s.gtc }] ∧
      s.sameMem t) := by
  have hsite := s.scrubOn_site b
  have hreg : ∀ o, (s.scrubOn b).reg o = s.reg o := State.reg_putSite' s b _
  have hbusy := State.bankBusy_congr (s := s) (t := s.scrubOn b) (b := b) (by rw [hsite]) rfl r.bank
  obtain ⟨q, hq⟩ := s.scrubOn_frame b
  generalize s.scrubOn b = u at hsite hreg hbusy hq ⊢
  obtain ⟨hbytes, htasks, hline, hsince⟩ := u.scrub_scrubs b a s.tbReady e r
  refine ⟨fun x hx => (hbytes x hx).trans (by rw [hq]; rfl), htasks.trans (by rw [hq]), hline.trans (by rw [hsite]),
    hsince.trans (by rw [hsite]), fun ht => ?_, fun ht hfree hj => ?_⟩
  · rw [State.atSite_waiting ht, ht]
    exact ⟨by rw [hq]; rfl, by rw [State.holdLine_site, hsite]⟩
  · rw [State.atSite_accepted ht, State.atBank_free (hbusy.trans hfree), serveScrub_of_uncorrectable hj]
    obtain ⟨⟨hs, -⟩, hue, hmc, -, hev⟩ := u.lineLost_spec a b true 5 0 none a
    have hgtc : u.gtc = s.gtc := State.reg64_congr (hreg _) (hreg _)
    have hlater : u.later = s.later := by rw [hq]
    have hmem : u.sameMem (u.lineLost a b true 5 0 none a) := fun x => (congrArg (fun v : State => v.readByte x) hs :)
    rw [hreg] at hue hmc
    rw [hgtc, hlater] at hev
    exact ⟨hue, hmc, hev, fun x => (hmem x).trans (by rw [hq]; rfl)⟩

/-- Settles O50. -/
theorem tierBLines : Obligations.TierBLines := by
  unfold Obligations.TierBLines
  refine ⟨fun a e r b o s ha ht hb => ⟨fun hbusy => ?_, fun hfree => ⟨fun hj => ?_, fun hj => ?_, fun wrong hj => ?_, fun hj ho => ?_,
      fun ref x hj ho hx hp => ?_⟩⟩,
    fun b e r s => ⟨fun m hm => ⟨fun hd => ?_, fun hd => congrArg Host.Outcome.next (scrubLine_of_not_due hm hd e r)⟩, fun hm => ?_⟩,
    fun b bank writes rate s => ⟨fun h => ⟨?_, fun hp => ?_, fun at_ hp hlt => ?_⟩, fun h => ⟨?_, ?_⟩⟩,
    fun e r s => ⟨fun v hv hsrc htgt hlm hne => ⟨fun hh => ⟨fun ht => ?_, fun ht hbusy => ?_, fun ht hfree => ⟨fun hj hl => ?_, fun hj hl => ?_,
      fun hj => ?_⟩⟩, fun hh => congrArg Host.Outcome.next (copyLine_of_held hv hh e r)⟩, fun hv => ?_⟩,
    fun b n s => ⟨fun hr hbit => ?_, fun h => ?_⟩⟩
  · obtain ⟨t, h, hrest⟩ := State.tierBRead_waits (a := a) (e := e) (o := o) hbusy (serveRequest b a e r o)
    exact ⟨t, congrArg Host.Outcome.next ((readTierB_eq ha ht hb e r o).trans h), hrest⟩
  · exact congrArg Host.Outcome.next ((readTierB_eq ha ht hb e r o).trans ((State.atBank_free hfree _).trans (serveRequest_of_clean hj r o)))
  · obtain ⟨t, h, hce, hcount, hmark, hlog, hframe⟩ := s.tierBRead_corrected b a r o
    exact ⟨t, congrArg Host.Outcome.next ((readTierB_eq ha ht hb e r o).trans ((State.atBank_free hfree _).trans
      ((serveRequest_of_corrected hj r o).trans h))), hce, hcount, hmark, hlog, hframe⟩
  · obtain ⟨⟨m, n, hs⟩, hbut, hbytes⟩ := s.putWrong_spec (lineOf a) wrong
    have hact := (readTierB_eq ha ht hb e r o).trans ((State.atBank_free hfree _).trans (serveRequest_of_missed hj r o))
    generalize s.putWrong (lineOf a) wrong = u at hs hbut hbytes hact
    exact ⟨u, congrArg Host.Outcome.next hact, by rw [hs], hbut, hbytes⟩
  · subst ho
    have hact := (readTierB_eq ha ht hb e r none).trans ((State.atBank_free hfree _).trans (serveRequest_of_uncorrectable ha hb hj r none))
    obtain ⟨hs, hue, hmc, hlat, hev⟩ := s.lineLost_spec a b false 4 St.uncorrectable none (lineOf a)
    dsimp only at hact
    generalize s.lineLost a b false 4 St.uncorrectable none (lineOf a) = u at hact hs hue hmc hlat hev
    rw [show boolBit false * 2 ^ 30 + b.val % 16 = b.val % 16 from Nat.zero_add _] at hlat
    exact ⟨u, congrArg Host.Outcome.next hact, hue, hmc, hlat, hev, hs⟩
  · subst ho
    have hact := (readTierB_eq ha ht hb e r (some ref)).trans
      ((State.atBank_free hfree _).trans (serveRequest_of_uncorrectable ha hb hj r (some ref)))
    obtain ⟨y, hy⟩ := State.tierBRead_fails (b := b) (a := a) hx hp
    exact ⟨_, y, congrArg Host.Outcome.next hact, hy⟩
  · have hact := scrubLine_of_due hm hd e r
    obtain ⟨hbut, htasks, hline, hsince, hwait, hlost⟩ :=
      State.scrub_spec s b (moduleAddress m (64 * (s.site b).scrubLine)) e r
    generalize (s.scrubOn b).atSite b { use := .scrub, accepted := s.tbReady, addr := moduleAddress m (64 * (s.site b).scrubLine), errors := e, row := r }
      (serveScrub b (moduleAddress m (64 * (s.site b).scrubLine)) e r) = t at hact hbut htasks hline hsince hwait hlost
    exact ⟨t, congrArg Host.Outcome.next hact, hline, hsince, hbut, htasks, hwait, hlost⟩
  · exact congrArg Host.Outcome.next (by unfold scrubLine; rw [hm])
  · obtain ⟨⟨g, n, q, hs⟩, hhit, hrate, hsite, hregs⟩ := refreshBank_spec h bank writes
    have hbusy : ∀ k, (refreshBank b bank writes s).bankBusy b k = (decide (k = bank) || s.bankBusy b k) := fun k => by
      rw [← s.any_refreshed b bank k, ← hsite]
      unfold State.bankBusy
      rw [hs]
    have hact : exec (.refreshDue b bank writes) s = .next (refreshBank b bank writes s) := rfl
    generalize refreshBank b bank writes s = t at hs hhit hrate hsite hregs hbusy hact
    refine ⟨t, hact, hhit, by rw [hbusy, decide_eq_true rfl, Bool.true_or], by rw [hsite]; exact s.refreshed_mem b bank, fun k hk => ?_, hrate,
      by rw [hs], hregs⟩
    rw [hbusy, decide_eq_false hk, Bool.false_or]
  · exact ⟨_, congrArg Host.Outcome.next (pollRate_of_due h hp rate), s.site_putSite_self b _, rfl⟩
  · exact congrArg Host.Outcome.next (pollRate_of_early hp hlt rate)
  · exact congrArg Host.Outcome.next (if_neg (by rw [h]; decide))
  · exact congrArg Host.Outcome.next (if_neg (by rw [h, Bool.false_and]; decide))
  · have hact := (copyLine_eq hv hh e r).trans (State.atSite_waiting ht _)
    exact ⟨_, congrArg Host.Outcome.next hact, rfl, by rw [State.holdLine_site, ht]⟩
  · have hact := (copyLine_eq hv hh e r).trans ((State.atSite_accepted ht _).trans (State.atBank_busy hbusy _))
    obtain ⟨⟨g, n, q, hs⟩, hhit, -⟩ := s.hitRefresh_spec v.source
      { use := .copy, accepted := s.tbReady, addr := moduleAddress v.lm (64 * v.line), errors := e, row := r }
    dsimp only at hact
    generalize s.hitRefresh v.source
      { use := .copy, accepted := s.tbReady, addr := moduleAddress v.lm (64 * v.line), errors := e, row := r } = t at hact hs hhit
    exact ⟨t, congrArg Host.Outcome.next hact, hhit, by rw [hs]⟩
  · obtain ⟨u, hu⟩ := s.readLine_some_of_ne v.source (moduleAddress v.lm (64 * v.line)) r hj
    have hact := (copyLine_eq hv hh e r).trans ((State.atSite_accepted ht _).trans ((State.atBank_free hfree _).trans
      ((serveCopy_of_read hv hu).trans (if_neg hl))))
    obtain ⟨⟨g, n, q, m, hs⟩, hbytes, hlow, -⟩ := State.readLine_lineRead hu
    obtain ⟨⟨g', hg⟩, hdone⟩ := u.lineCopied_spec
    have hdone' : u.reg64 R.tbEvacDoneLo = s.reg64 R.tbEvacDoneLo := State.reg64_congr (hlow _ (by decide)) (hlow _ (by decide))
    rw [hdone'] at hdone
    have hmem : u.sameMem u.lineCopied := fun x => by rw [hg]; rfl
    have htasks : u.lineCopied.tasks = s.tasks := by rw [hg, hs]
    generalize u.lineCopied = w at hact hdone hmem htasks
    exact ⟨_, congrArg Host.Outcome.next hact, rfl, hdone, fun x hx => (hmem x).trans (hbytes x hx), htasks⟩
  · obtain ⟨u, hu⟩ := s.readLine_some_of_ne v.source (moduleAddress v.lm (64 * v.line)) r hj
    have hact := (copyLine_eq hv hh e r).trans ((State.atSite_accepted ht _).trans ((State.atBank_free hfree _).trans
      ((serveCopy_of_read hv hu).trans (if_pos hl))))
    obtain ⟨⟨g, n, q, m, hs⟩, -⟩ := State.readLine_lineRead hu
    obtain ⟨⟨g', hg⟩, -⟩ := u.lineCopied_spec
    have hrec : u.lineCopied.record = s.record := by rw [hg, hs]
    generalize u.lineCopied = w at hact hrec
    have hend := w.rebind_spec hsrc htgt hlm hne
    rw [hrec] at hend
    exact ⟨_, congrArg Host.Outcome.next hact, hend⟩
  · have hact := (copyLine_eq hv hh e r).trans ((State.atSite_accepted ht _).trans ((State.atBank_free hfree _).trans
      (serveCopy_of_uncorrectable hv hj r)))
    exact ⟨_, congrArg Host.Outcome.next hact, s.copyLost_spec hv hsrc hne (moduleAddress v.lm (64 * v.line))⟩
  · exact congrArg Host.Outcome.next (by unfold copyLine; rw [hv])
  · exact ⟨_, rfl, copyRow_spec b n hr hbit⟩
  · refine congrArg Host.Outcome.next ((copyRow_eq b n s).trans (if_neg (fun hx => ?_)))
    obtain ⟨hr, hbit⟩ := hx
    obtain h | h := h
    · rw [h] at hr
      exact Bool.noConfusion hr
    · exact absurd (decide_eq_true hbit) (by rw [show decide (s.fld (R.tbRow b n) 31 1 = 1) = false from h]; decide)

end Sys2Proof.Machine
end

section
/-!
### Port arbiters (R312 to R323)
-/
namespace Sys2Proof.Machine

theorem State.arb_putArb_self (s : State) (n : Nat) (x : ArbRun) : (s.putArb n x).arb n = x := sget_sset_self arbDefault s.arbs n x

theorem State.arb_putArb_ne (s : State) {n k : Nat} (x : ArbRun) (h : k ≠ n) : (s.putArb n x).arb k = s.arb k := sget_sset_ne arbDefault s.arbs x h

theorem ArbRun.slot_putSlot_self (a : ArbRun) (i : Nat) (b : Option Burst) : (a.putSlot i b).slot i = b := sget_sset_self _ _ _ _

theorem ArbRun.slot_putSlot_ne (a : ArbRun) {i j : Nat} (b : Option Burst) (h : j ≠ i) : (a.putSlot i b).slot j = a.slot j :=
  sget_sset_ne _ _ _ h

/-! ### A decision among one request -/

/-- A request that competes by rank and age, and older ones of its stream do not wait. -/
structure Waiting.alone (w : Waiting) (all : List Waiting) : Prop where
  oldest : ∀ v ∈ all, sameStream v w = true → w.seq ≤ v.seq
  notHeartbeat : w.req.owner ≠ .heartbeat
  notCopy : w.req.owner ≠ .copy

theorem oldestOf_one {w : Waiting} {all : List Waiting} (h : w.alone all) : oldestOf all [w] = [w] := by
  unfold oldestOf
  refine List.filter_eq_self.mpr fun v hv => ?_
  obtain rfl := List.mem_singleton.mp hv
  refine List.all_eq_true.mpr fun x hx => ?_
  cases hs : sameStream x v with
  | false => rfl
  | true => exact decide_eq_true (h.oldest x hx hs)

theorem State.winnerOn_one (s : State) (n : Nat) (a : ArbRun) {w : Waiting} {all : List Waiting} (h : w.alone all) (c : Nat) :
    s.winnerOn n a all [w] c = if c = w.req.channel then some w else none := by
  have hh : ∀ l : List Waiting, (l = [w] ∨ l = []) → l.find? (fun w => decide (w.req.owner = .heartbeat)) = none ∧
      l.find? (fun w => isCopy w.req) = none := by
    rintro l (rfl | rfl)
    · simp [h.notHeartbeat, h.notCopy, isCopy]
    · simp
  unfold State.winnerOn
  rw [oldestOf_one h]
  by_cases hc : c = w.req.channel
  · have hl : [w].filter (fun w => decide (w.req.channel = c)) = [w] := by simp [hc]
    obtain ⟨h1, h2⟩ := hh [w] (.inl rfl)
    dsimp only
    rw [hl, h1, h2, if_pos hc]
    rfl
  · have hl : [w].filter (fun w => decide (w.req.channel = c)) = [] := by simp [Ne.symm hc]
    obtain ⟨h1, h2⟩ := hh [] (.inr rfl)
    dsimp only
    rw [hl, h1, h2, if_neg hc]
    rfl

theorem State.winnerOn_nil (s : State) (n : Nat) (a : ArbRun) (all : List Waiting) (c : Nat) : s.winnerOn n a all [] c = none := rfl

theorem filterMap_range_one {α : Type} (f : Nat → Option α) (ch : Nat) (h : ∀ c, c ≠ ch → f c = none) (k : Nat) :
    (List.range k).filterMap f = if ch < k then (f ch).toList else [] := by
  induction k with
  | zero => rfl
  | succ k ih =>
    rw [List.range_succ, List.filterMap_append, ih]
    obtain hlt | rfl | hgt := Nat.lt_trichotomy ch k
    · simp [hlt, Nat.lt_succ_of_lt hlt, h k (Nat.ne_of_gt hlt)]
    · simp only [Nat.lt_irrefl, if_false, List.nil_append, Nat.lt_succ_self, if_true]
      cases hf : f ch <;> simp [hf]
    · simp [Nat.not_lt.mpr (Nat.le_of_lt hgt), Nat.not_lt.mpr hgt, h k (Nat.ne_of_lt hgt)]

/-- The winner on a channel with an idle slot. -/
def State.grantOn (s : State) (n : Nat) (a : ArbRun) (all l : List Waiting) (c : Nat) : Option (Waiting × Nat) :=
  match a.idle n c with
  | [] => none
  | i :: _ => (s.winnerOn n a all l c).map (fun w => (w, i))

/-- The best of the winners of the channels. -/
def bestGrant (all : List Waiting) (ws : List (Waiting × Nat)) : Option (Waiting × Nat) :=
  match bestOf all (ws.map Prod.fst) with
  | none => none
  | some w => ws.find? (fun x => decide (x.1 = w))

theorem State.nextGrant_eq (s : State) (n : Nat) (a : ArbRun) (all l : List Waiting) :
    s.nextGrant n a all l = bestGrant all ((List.range (arbShape n).1).filterMap (s.grantOn n a all l)) := rfl

theorem State.nextGrant_nil (s : State) (n : Nat) (a : ArbRun) (all : List Waiting) : s.nextGrant n a all [] = none := by
  rw [State.nextGrant_eq, List.filterMap_eq_nil_iff.mpr]
  · rfl
  · intro c _
    unfold State.grantOn
    rw [s.winnerOn_nil]
    split <;> rfl

theorem State.nextGrant_one (s : State) (n : Nat) (a : ArbRun) {w : Waiting} {all : List Waiting} (h : w.alone all)
    (hc : w.req.channel < (arbShape n).1) : s.nextGrant n a all [w] = (a.idle n w.req.channel).head?.map (fun i => (w, i)) := by
  have hoff (c : Nat) (hne : c ≠ w.req.channel) : s.grantOn n a all [w] c = none := by
    unfold State.grantOn
    rw [s.winnerOn_one n a h, if_neg hne]
    split <;> rfl
  have hon : s.grantOn n a all [w] w.req.channel = (a.idle n w.req.channel).head?.map (fun i => (w, i)) := by
    unfold State.grantOn
    rw [s.winnerOn_one n a h, if_pos rfl]
    cases a.idle n w.req.channel <;> rfl
  rw [State.nextGrant_eq, filterMap_range_one _ w.req.channel hoff, if_pos hc, hon]
  cases a.idle n w.req.channel with
  | nil => rfl
  | cons i l => simp [bestGrant, bestOf]

theorem State.grantAll_of_none {s : State} {n : Nat} {away l : List Waiting} (h : s.nextGrant n (s.arb n) (l ++ away) l = none) (f : Nat) :
    s.grantAll n away f l = (l, s) := by
  cases f with
  | zero => rfl
  | succ f =>
    unfold State.grantAll
    rw [h]

/-- An arbiter's slot taken by a request. -/
def ArbRun.take (a : ArbRun) (i : Nat) (w : Waiting) (now : Nat) : ArbRun :=
  { (a.putSlot i (some { req := w.req, key := w.key, at_ := now })) with
    grants := sset (fun _ => 0) a.grants w.req.channel (sget (fun _ => 0) a.grants w.req.channel + 1) }

theorem State.grantAll_one {s : State} {n i : Nat} {away : List Waiting} {w : Waiting}
    (h : s.nextGrant n (s.arb n) ([w] ++ away) [w] = some (w, i)) (f : Nat) :
    s.grantAll n away (f + 1) [w] =
      ([], (s.putArb n ((s.arb n).take i w s.cycle)).countGrant n (streamRank ([w] ++ away) w) w) := by
  rw [State.grantAll, h]
  have hnil : [w].filter (fun v => decide (v ≠ w)) = [] := by simp
  dsimp only
  rw [hnil]
  exact State.grantAll_of_none (State.nextGrant_nil _ _ _ _) f


/-! ### One pass of a decision -/

/-- An arbiter is as given, and every other one as before. -/
structure State.SetsArb (s t : State) (n : Nat) (x : ArbRun) : Prop where
  self : t.arb n = x
  others : ∀ k, k ≠ n → t.arb k = s.arb k

theorem State.setsArb_putArb (s : State) (n : Nat) (x : ArbRun) : s.SetsArb (s.putArb n x) n x :=
  ⟨s.arb_putArb_self n x, fun _ hk => s.arb_putArb_ne x hk⟩

theorem State.SetsArb.trans {s t u : State} {n : Nat} {x y : ArbRun} (h : s.SetsArb t n x) (k : t.SetsArb u n y) : s.SetsArb u n y :=
  ⟨k.self, fun j hj => (k.others j hj).trans (h.others j hj)⟩

theorem State.SetsArb.of_arbs {s t u : State} {n : Nat} {x : ArbRun} (h : s.SetsArb t n x) (hu : u.arbs = t.arbs) : s.SetsArb u n x := by
  have ha : ∀ k, u.arb k = t.arb k := fun k => by
    unfold State.arb
    rw [hu]
  exact ⟨(ha n).trans h.self, fun k hk => (ha k).trans (h.others k hk)⟩

/-- The arbiter while its requests compete. -/
def State.competing (s : State) (n : Nat) : State := s.putArb n { s.arb n with parked := [], held := [] }

/-- The end of a pass: the losers that were parked stay so, the others are parked or told to retry. -/
def endPass (n : Nat) (parked : List Waiting) (g : List Waiting × State) : State :=
  (g.1.filter (fun w => ! parked.contains w)).foldl (fun u w => u.park n w)
    (g.2.putArb n { g.2.arb n with parked := g.1.filter (fun w => parked.contains w) })

theorem State.decideOnce_eq {s : State} {n : Nat} (hh : (s.arb n).held = []) (arriving : List Waiting) :
    s.decideOnce n arriving = endPass n (s.arb n).parked
      ((s.competing n).grantAll n (s.arb n).backoff ((arbShape n).1 * (arbShape n).2) ((s.arb n).parked ++ arriving)) := by
  unfold State.decideOnce
  simp only [hh, List.filter_nil, List.append_nil]
  rfl

theorem State.competing_arb (s : State) (n : Nat) : (s.competing n).arb n = { s.arb n with parked := [], held := [] } := s.arb_putArb_self n _

theorem ArbRun.eq_of_held {a : ArbRun} (h : a.held = []) : { a with held := [] } = a := by
  cases a
  exact h ▸ rfl

theorem ArbRun.eq_of_empty {a : ArbRun} (hp : a.parked = []) (h : a.held = []) : { a with parked := [], held := [] } = a := by
  cases a
  obtain rfl : _ = [] := hp
  obtain rfl : _ = [] := h
  rfl

/-- A pass in which nothing is granted and nothing arrives leaves every arbiter as it is. -/
theorem State.decideOnce_still {s : State} {n : Nat} (hh : (s.arb n).held = [])
    (hg : (s.competing n).nextGrant n ((s.competing n).arb n) ((s.arb n).parked ++ (s.arb n).backoff) (s.arb n).parked = none) :
    (∃ q, s.decideOnce n [] = { s with arbs := q }) ∧ s.SetsArb (s.decideOnce n []) n (s.arb n) := by
  rw [State.decideOnce_eq hh, List.append_nil, State.grantAll_of_none hg]
  have hall : (s.arb n).parked.filter (fun w => (s.arb n).parked.contains w) = (s.arb n).parked :=
    List.filter_eq_self.mpr fun w hw => List.contains_iff_mem.mpr hw
  have hnone : (s.arb n).parked.filter (fun w => ! (s.arb n).parked.contains w) = [] :=
    List.filter_eq_nil_iff.mpr fun w hw => by rw [List.contains_iff_mem.mpr hw]; decide
  unfold endPass
  dsimp only
  rw [hall, hnone, s.competing_arb n]
  have hset := (s.setsArb_putArb n { s.arb n with parked := [], held := [] }).trans
    ((s.competing n).setsArb_putArb n { ({ s.arb n with parked := [], held := [] } : ArbRun) with parked := (s.arb n).parked })
  refine ⟨⟨_, rfl⟩, ⟨hset.self.trans ?_, hset.others⟩⟩
  exact ArbRun.eq_of_held hh

theorem State.decideOnce_nothing {s : State} {n : Nat} (hh : (s.arb n).held = []) (hp : (s.arb n).parked = []) :
    (∃ q, s.decideOnce n [] = { s with arbs := q }) ∧ s.SetsArb (s.decideOnce n []) n (s.arb n) :=
  State.decideOnce_still hh (by rw [hp]; exact State.nextGrant_nil _ _ _ _)

/-- A pass that grants its one request a slot. -/
theorem State.decideOnce_granted {s : State} {n i : Nat} {arriving : List Waiting} {w : Waiting} (hh : (s.arb n).held = [])
    (hw : (s.arb n).parked ++ arriving = [w]) (h : w.alone ([w] ++ (s.arb n).backoff)) (hc : w.req.channel < (arbShape n).1) {l : List Nat}
    (hi : (s.arb n).idle n w.req.channel = i :: l) : s.decideOnce n arriving =
      (((s.competing n).putArb n (((s.competing n).arb n).take i w s.cycle)).countGrant n (streamRank ([w] ++ (s.arb n).backoff) w) w).putArb n
        { (((s.competing n).putArb n (((s.competing n).arb n).take i w s.cycle)).countGrant n
            (streamRank ([w] ++ (s.arb n).backoff) w) w).arb n with parked := [] } := by
  have hidle : ((s.competing n).arb n).idle n w.req.channel = i :: l := by
    rw [s.competing_arb n]
    exact hi
  have hg : (s.competing n).nextGrant n ((s.competing n).arb n) ([w] ++ (s.arb n).backoff) [w] = some (w, i) := by
    rw [State.nextGrant_one _ n _ h hc, hidle]
    rfl
  have hfuel : ∃ f, (arbShape n).1 * (arbShape n).2 = f + 1 := by
    refine Nat.exists_eq_succ_of_ne_zero (fun h0 => ?_)
    have h2 : (arbShape n).2 = 0 := (Nat.mul_eq_zero.mp h0).resolve_left (by omega)
    have hnil : (s.arb n).idle n w.req.channel = [] := by
      unfold ArbRun.idle slotsOf
      rw [h2, if_pos hc]
      rfl
    rw [hnil] at hi
    exact List.noConfusion rfl (heq_of_eq hi)
  obtain ⟨f, hf⟩ := hfuel
  rw [State.decideOnce_eq hh, hw, hf, State.grantAll_one hg]
  rfl

/-- A pass that finds no slot for a request that arrives. -/
theorem State.decideOnce_lost {s : State} {n : Nat} {w : Waiting} (hh : (s.arb n).held = []) (hp : (s.arb n).parked = [])
    (h : w.alone ([w] ++ (s.arb n).backoff)) (hc : w.req.channel < (arbShape n).1) (hi : (s.arb n).idle n w.req.channel = []) :
    ∃ u, s.decideOnce n [w] = u.park n w ∧ (∃ q, u = { s with arbs := q }) ∧ s.SetsArb u n (s.arb n) := by
  have hidle : ((s.competing n).arb n).idle n w.req.channel = [] := by
    rw [s.competing_arb n]
    exact hi
  have hg : (s.competing n).nextGrant n ((s.competing n).arb n) ([w] ++ (s.arb n).backoff) [w] = none := by
    rw [State.nextGrant_one _ n _ h hc, hidle]
    rfl
  rw [State.decideOnce_eq hh, hp, List.nil_append, State.grantAll_of_none hg]
  refine ⟨(s.competing n).putArb n { (s.competing n).arb n with parked := [] }, rfl, ⟨_, rfl⟩, ?_⟩
  have hset := (s.setsArb_putArb n { s.arb n with parked := [], held := [] }).trans
    ((s.competing n).setsArb_putArb n { (s.competing n).arb n with parked := [] })
  refine ⟨hset.self.trans ?_, hset.others⟩
  rw [s.competing_arb n]
  exact ArbRun.eq_of_empty hp hh

/-! ### Counting a grant, and losing -/

theorem State.countGrant_frame (s : State) (n rank : Nat) (w : Waiting) : ∃ r, s.countGrant n rank w = { s with regs := r } := by
  unfold State.countGrant State.bump64
  dsimp only
  split
  · exact s.setReg64_shape _ _
  · obtain ⟨r, hr⟩ := s.setReg64_shape (R.arbBeatsLo n rank) (s.reg64 (R.arbBeatsLo n rank) + beatsOf w.req)
    rw [hr]
    exact ⟨_, rfl⟩

theorem State.countGrant_spec (s : State) (n : Nat) {w : Waiting} (hk : w.key.rank ≤ 3) (hc : w.req.owner ≠ .copy) :
    (s.countGrant n w.key.rank w).reg64 (R.arbBeatsLo n w.key.rank) = (s.reg64 (R.arbBeatsLo n w.key.rank) + beatsOf w.req) % 2 ^ 64 ∧
    s.regsBut (s.countGrant n w.key.rank w) [R.arbBeatsLo n w.key.rank, R.arbBeatsLo n w.key.rank + 4, R.arbMaxWait n w.key.rank] := by
  have h1 : R.arbBeatsLo n w.key.rank ≠ R.arbMaxWait n w.key.rank := by unfold R.arbBeatsLo R.arbMaxWait; omega
  have h2 : R.arbBeatsLo n w.key.rank + 4 ≠ R.arbMaxWait n w.key.rank := by unfold R.arbBeatsLo R.arbMaxWait; omega
  unfold State.countGrant State.bump64
  rw [if_neg (by unfold isCopy; rw [decide_eq_false hc]; decide)]
  dsimp only
  generalize BitVec.ofNat 32 (max (s.reg (R.arbMaxWait n w.key.rank)).toNat (min (s.cycle - w.at_) 0xFFFFFFFF)) = m
  generalize R.arbMaxWait n w.key.rank = om at h1 h2 ⊢
  generalize R.arbBeatsLo n w.key.rank = ob at h1 h2 ⊢
  have hself := s.reg64_setReg64 ob (s.reg64 ob + beatsOf w.req)
  have hne : ∀ o, o ≠ ob → o ≠ ob + 4 → (s.setReg64 ob (s.reg64 ob + beatsOf w.req)).reg o = s.reg o := fun o h h4 => s.reg_setReg64_ne _ h h4
  generalize s.setReg64 ob (s.reg64 ob + beatsOf w.req) = u at hself hne ⊢
  refine ⟨(State.reg64_congr (u.reg_setReg_ne m h1) (u.reg_setReg_ne m h2)).trans hself, fun o ho => ?_⟩
  simp only [List.mem_cons, List.not_mem_nil, or_false, not_or] at ho
  obtain ⟨ho1, ho2, ho3⟩ := ho
  exact (u.reg_setReg_ne m ho3).trans (hne o ho1 ho2)

theorem State.park_parked {s : State} {n : Nat} {w : Waiting} (hb : w.req.owner ≠ .heartbeat) (hr : s.retryService n = false)
    (hp : (s.arb n).parked = []) : s.park n w = (s.putArb n { s.arb n with parked := [w] }).bump (R.arbParked n) 1 := by
  unfold State.park
  dsimp only
  rw [hp]
  exact (if_neg hb).trans ((if_neg (by rw [hr]; decide)).trans (if_pos (by decide)))

theorem State.park_retry {s : State} {n : Nat} {w : Waiting} (hb : w.req.owner ≠ .heartbeat) (hr : s.retryService n = true) :
    s.park n w = ((s.putArb n { s.arb n with backoff := (s.arb n).backoff ++ [{ w with since := s.cycle }] }).bump (R.arbRetries n) 1).emit
      (.retryAnswer n w.key.requester) :=
  (if_neg hb).trans (if_pos hr)

/-! ### Both passes of a decision -/

theorem State.reaching_nil {s : State} {n : Nat} (h : (s.arb n).held = []) : s.reaching n = [] := by
  unfold State.reaching
  rw [h]
  dsimp only
  rw [List.filter_nil, List.take_nil, ite_self]

/-- The arbiter when the bursts of some slots are over. -/
def ArbRun.freed (a : ArbRun) (ending : List Nat) : ArbRun := ending.foldl (fun x i => x.putSlot i none) a

theorem ArbRun.freed_spec (a : ArbRun) (ending : List Nat) : (∃ x, a.freed ending = { a with slots := x }) ∧
    ∀ i, (a.freed ending).slot i = if i ∈ ending then none else a.slot i := by
  unfold ArbRun.freed
  induction ending generalizing a with
  | nil => exact ⟨⟨a.slots, rfl⟩, fun i => (if_neg List.not_mem_nil).symm⟩
  | cons j l ih =>
    obtain ⟨⟨x, hx⟩, hs⟩ := ih (a.putSlot j none)
    refine ⟨⟨x, hx⟩, fun i => (hs i).trans ?_⟩
    by_cases hl : i ∈ l
    · rw [if_pos hl, if_pos (List.mem_cons_of_mem j hl)]
    · rw [if_neg hl]
      by_cases hj : i = j
      · subst hj
        rw [if_pos List.mem_cons_self, a.slot_putSlot_self]
      · rw [if_neg (fun h => (List.mem_cons.mp h).elim hj hl), a.slot_putSlot_ne none hj]

/-- The state in which the first pass is made. -/
def State.freedAt (s : State) (n : Nat) (ending : List Nat) : State := s.putArb n ((s.arb n).freed ending)

theorem State.decideAt_eq (s : State) (n : Nat) (ending : List Nat) (arriving : List Waiting) : s.decideAt n ending arriving =
    ((s.freedAt n ending).decideOnce n arriving).decideOnce n (((s.freedAt n ending).decideOnce n arriving).reaching n) := rfl

theorem State.freedAt_arb (s : State) (n : Nat) (ending : List Nat) : (s.freedAt n ending).arb n = (s.arb n).freed ending := s.arb_putArb_self n _

/-- After a first pass that leaves nothing parked or held, the second changes nothing. -/
theorem State.secondPass {s u : State} {n : Nat} {x : ArbRun} (h : s.SetsArb u n x) (hp : x.parked = []) (hh : x.held = []) :
    (∃ q, u.decideOnce n (u.reaching n) = { u with arbs := q }) ∧ s.SetsArb (u.decideOnce n (u.reaching n)) n x := by
  have hh' : (u.arb n).held = [] := by rw [h.self]; exact hh
  have hp' : (u.arb n).parked = [] := by rw [h.self]; exact hp
  rw [State.reaching_nil hh']
  obtain ⟨hf, hset⟩ := State.decideOnce_nothing hh' hp'
  rw [h.self] at hset
  exact ⟨hf, h.trans hset⟩

theorem State.decideAt_quiet {s : State} {n : Nat} (hp : (s.arb n).parked = []) (hh : (s.arb n).held = []) (ending : List Nat) :
    (∃ q, s.decideAt n ending [] = { s with arbs := q }) ∧ s.SetsArb (s.decideAt n ending []) n ((s.arb n).freed ending) := by
  obtain ⟨⟨x, hx⟩, -⟩ := (s.arb n).freed_spec ending
  have hfp : ((s.arb n).freed ending).parked = [] := by rw [hx]; exact hp
  have hfh : ((s.arb n).freed ending).held = [] := by rw [hx]; exact hh
  have hset := s.setsArb_putArb n ((s.arb n).freed ending)
  rw [State.decideAt_eq]
  obtain ⟨⟨q, hq⟩, hone⟩ := State.decideOnce_nothing (s := s.freedAt n ending) (n := n) (by rw [State.freedAt_arb]; exact hfh)
    (by rw [State.freedAt_arb]; exact hfp)
  rw [State.freedAt_arb] at hone
  obtain ⟨⟨q', hq'⟩, htwo⟩ := State.secondPass (hset.trans hone) hfp hfh
  exact ⟨⟨q', by rw [hq', hq]; rfl⟩, htwo⟩

/-- The arbiter when a request has taken a slot. -/
def ArbRun.taken (a : ArbRun) (i : Nat) (w : Waiting) (now : Nat) : ArbRun := { a.take i w now with parked := [], held := [] }

theorem ArbRun.taken_slot (a : ArbRun) (i : Nat) (w : Waiting) (now : Nat) :
    (a.taken i w now).slot i = some { req := w.req, key := w.key, at_ := now } :=
  (a.slot_putSlot_self i (some { req := w.req, key := w.key, at_ := now }) :)

theorem ArbRun.taken_slot_ne (a : ArbRun) {i j : Nat} (w : Waiting) (now : Nat) (h : j ≠ i) : (a.taken i w now).slot j = a.slot j :=
  (a.slot_putSlot_ne (some { req := w.req, key := w.key, at_ := now }) h :)

/-- What a grant changes: the registers that count it, and the arbiter. -/
theorem State.decideAt_granted {s : State} {n i : Nat} {ending : List Nat} {arriving : List Waiting} {w : Waiting} (hh : (s.arb n).held = [])
    (hw : (s.arb n).parked ++ arriving = [w]) (h : w.alone ([w] ++ (s.arb n).backoff)) (hc : w.req.channel < (arbShape n).1) {l : List Nat}
    (hi : ((s.arb n).freed ending).idle n w.req.channel = i :: l) : ∃ v,
      (∃ q, s.decideAt n ending arriving = { (v.countGrant n (streamRank ([w] ++ (s.arb n).backoff) w) w) with arbs := q }) ∧
      (∃ q, v = { s with arbs := q }) ∧
      s.SetsArb (s.decideAt n ending arriving) n (((s.arb n).freed ending).taken i w s.cycle) := by
  obtain ⟨⟨x, hx⟩, -⟩ := (s.arb n).freed_spec ending
  have harb := s.freedAt_arb n ending
  have hfb : ((s.freedAt n ending).arb n).backoff = (s.arb n).backoff := by rw [harb, hx]
  have hone := State.decideOnce_granted (s := s.freedAt n ending) (n := n) (arriving := arriving) (w := w)
    (by rw [harb, hx]; exact hh) (by rw [harb, hx]; exact hw) (by rw [hfb]; exact h) hc (by rw [harb]; exact hi)
  rw [hfb] at hone
  have hcyc : (s.freedAt n ending).cycle = s.cycle := rfl
  have hcomp := (s.freedAt n ending).competing_arb n
  have hframe : ∃ q, (s.freedAt n ending).competing n = { s with arbs := q } := ⟨_, rfl⟩
  rw [harb] at hcomp
  rw [hcyc] at hone
  have hset' : s.SetsArb ((s.freedAt n ending).competing n) n { (s.arb n).freed ending with parked := [], held := [] } :=
    ⟨hcomp, fun k hk => ((s.freedAt n ending).arb_putArb_ne _ hk).trans (s.arb_putArb_ne _ hk)⟩
  generalize (s.freedAt n ending).competing n = c at hone hcomp hframe hset'
  obtain ⟨q, hq⟩ := hframe
  rw [hcomp] at hone
  have htake := hset'.trans (c.setsArb_putArb n (({ (s.arb n).freed ending with parked := [], held := [] } : ArbRun).take i w s.cycle))
  generalize hv : c.putArb n (({ (s.arb n).freed ending with parked := [], held := [] } : ArbRun).take i w s.cycle) = v at hone htake
  obtain ⟨g, hg⟩ := v.countGrant_frame n (streamRank ([w] ++ (s.arb n).backoff) w) w
  have hcount := htake.of_arbs (u := v.countGrant n (streamRank ([w] ++ (s.arb n).backoff) w) w) (by rw [hg])
  refine ⟨v, ?_⟩
  generalize v.countGrant n (streamRank ([w] ++ (s.arb n).backoff) w) w = u at hone hcount ⊢
  have hput := hcount.trans (u.setsArb_putArb n { u.arb n with parked := [] })
  rw [hcount.self] at hput hone
  rw [State.decideAt_eq, hone]
  obtain ⟨⟨q', hq'⟩, htwo⟩ := State.secondPass (x := ((s.arb n).freed ending).taken i w s.cycle) hput rfl rfl
  exact ⟨⟨q', by rw [hq']; rfl⟩, ⟨_, by rw [← hv, hq]; rfl⟩, htwo⟩

theorem ArbRun.freed_nil (a : ArbRun) : a.freed [] = a := rfl

/-- The first pass finds no slot for a request that arrives. -/
theorem State.firstPass_lost {s : State} {n : Nat} {w : Waiting} (hp : (s.arb n).parked = []) (hh : (s.arb n).held = [])
    (h : w.alone ([w] ++ (s.arb n).backoff)) (hc : w.req.channel < (arbShape n).1) (hi : (s.arb n).idle n w.req.channel = []) :
    ∃ u, (s.freedAt n []).decideOnce n [w] = u.park n w ∧ (∃ q, u = { s with arbs := q }) ∧ s.SetsArb u n (s.arb n) := by
  have harb : (s.freedAt n []).arb n = s.arb n := s.freedAt_arb n []
  have hset : s.SetsArb (s.freedAt n []) n (s.arb n) := s.setsArb_putArb n (s.arb n)
  obtain ⟨u, hu, ⟨q, hq⟩, hsu⟩ := State.decideOnce_lost (s := s.freedAt n []) (n := n) (w := w) (by rw [harb]; exact hh)
    (by rw [harb]; exact hp) (by rw [harb]; exact h) hc (by rw [harb]; exact hi)
  rw [harb] at hsu
  exact ⟨u, hu, ⟨q, by rw [hq]; rfl⟩, hset.trans hsu⟩

theorem State.retryService_of_arbs {s u : State} {q : SMap ArbRun} (h : u = { s with arbs := q }) (n : Nat) :
    u.retryService n = s.retryService n := by
  rw [h]
  rfl

/-- A request that finds no slot is parked. -/
theorem State.decideAt_parked {s : State} {n : Nat} {w : Waiting} (hp : (s.arb n).parked = []) (hh : (s.arb n).held = [])
    (h : w.alone ([w] ++ (s.arb n).backoff)) (hc : w.req.channel < (arbShape n).1) (hi : (s.arb n).idle n w.req.channel = [])
    (hr : s.retryService n = false) : (∃ g c q, s.decideAt n [] [w] = { s with regs := g, now := c, arbs := q }) ∧
      s.SetsArb (s.decideAt n [] [w]) n { s.arb n with parked := [w] } ∧
      (s.decideAt n [] [w]).reg (R.arbParked n) = satAdd (s.reg (R.arbParked n)) 1 ∧ s.regsBut (s.decideAt n [] [w]) [R.arbParked n] := by
  obtain ⟨u, hu, ⟨q, hq⟩, hsu⟩ := State.firstPass_lost hp hh h hc hi
  rw [State.park_parked h.notHeartbeat ((State.retryService_of_arbs hq n).trans hr) (by rw [hsu.self]; exact hp)] at hu
  have hput := hsu.trans (u.setsArb_putArb n { u.arb n with parked := [w] })
  rw [hsu.self] at hput hu
  have hreg : ∀ o, (u.putArb n { s.arb n with parked := [w] }).reg o = s.reg o := fun o => by rw [hq]; rfl
  have hfr : ∃ q, u.putArb n { s.arb n with parked := [w] } = { s with arbs := q } := ⟨_, by rw [hq]; rfl⟩
  generalize u.putArb n { s.arb n with parked := [w] } = v at hu hput hreg hfr
  obtain ⟨q', hv⟩ := hfr
  have hself := v.reg_bump_self (R.arbParked n) 1
  have hout : ∀ o, o ∉ [R.arbParked n] → (v.bump (R.arbParked n) 1).reg o = v.reg o := fun o ho => v.reg_bump_ne 1 (List.ne_of_not_mem_cons ho)
  obtain ⟨g, c, hb⟩ := v.bump_shape (R.arbParked n) 1
  have hsb := hput.of_arbs (u := v.bump (R.arbParked n) 1) (by rw [hb])
  rw [State.decideAt_eq, hu]
  generalize v.bump (R.arbParked n) 1 = y at hself hout hb hsb ⊢
  have hheld : (y.arb n).held = [] := by rw [hsb.self]; exact hh
  have hcomp := y.competing_arb n
  have hstill := State.decideOnce_still hheld (by
    rw [hcomp, hsb.self]
    exact (State.nextGrant_one _ n _ h hc).trans (congrArg (fun l : List Nat => l.head?.map (fun i => (w, i))) hi :))
  rw [State.reaching_nil hheld]
  obtain ⟨⟨q'', hy⟩, hlast⟩ := hstill
  rw [hsb.self] at hlast
  have hregy : ∀ o, (y.decideOnce n []).reg o = y.reg o := fun o => by rw [hy]; rfl
  refine ⟨⟨g, c, q'', by rw [hy, hb, hv]⟩, hsb.trans hlast, ?_, fun o ho => ?_⟩
  · rw [hregy, hself, hreg]
  · rw [hregy, hout o ho, hreg]

/-- A request that finds no slot is told to retry. -/
theorem State.decideAt_retried {s : State} {n : Nat} {w : Waiting} (hp : (s.arb n).parked = []) (hh : (s.arb n).held = [])
    (h : w.alone ([w] ++ (s.arb n).backoff)) (hc : w.req.channel < (arbShape n).1) (hi : (s.arb n).idle n w.req.channel = [])
    (hr : s.retryService n = true) :
    (∃ g c q, s.decideAt n [] [w] = { s with regs := g, now := c, arbs := q, out := .retryAnswer n w.key.requester :: s.out }) ∧
      s.SetsArb (s.decideAt n [] [w]) n { s.arb n with backoff := (s.arb n).backoff ++ [{ w with since := s.cycle }] } ∧
      (s.decideAt n [] [w]).reg (R.arbRetries n) = satAdd (s.reg (R.arbRetries n)) 1 ∧ s.regsBut (s.decideAt n [] [w]) [R.arbRetries n] := by
  obtain ⟨u, hu, ⟨q, hq⟩, hsu⟩ := State.firstPass_lost hp hh h hc hi
  rw [State.park_retry h.notHeartbeat ((State.retryService_of_arbs hq n).trans hr), State.emit_of_not_toHost rfl] at hu
  have hcyc : u.cycle = s.cycle := by rw [hq]
  have hput := hsu.trans (u.setsArb_putArb n { u.arb n with backoff := (u.arb n).backoff ++ [{ w with since := u.cycle }] })
  rw [hsu.self, hcyc] at hput hu
  have hfr : ∃ q, u.putArb n { s.arb n with backoff := (s.arb n).backoff ++ [{ w with since := s.cycle }] } = { s with arbs := q } :=
    ⟨_, by rw [hq]; rfl⟩
  have hreg : ∀ o, (u.putArb n { s.arb n with backoff := (s.arb n).backoff ++ [{ w with since := s.cycle }] }).reg o = s.reg o := fun o => by
    rw [hq]; rfl
  generalize u.putArb n { s.arb n with backoff := (s.arb n).backoff ++ [{ w with since := s.cycle }] } = v at hu hput hreg hfr
  obtain ⟨q', hv⟩ := hfr
  have hself := v.reg_bump_self (R.arbRetries n) 1
  have hout : ∀ o, o ∉ [R.arbRetries n] → (v.bump (R.arbRetries n) 1).reg o = v.reg o := fun o ho => v.reg_bump_ne 1 (List.ne_of_not_mem_cons ho)
  obtain ⟨g, c, hb⟩ := v.bump_shape (R.arbRetries n) 1
  have hsb := hput.of_arbs (u := v.bump (R.arbRetries n) 1) (by rw [hb])
  generalize v.bump (R.arbRetries n) 1 = y at hself hout hb hsb hu
  have hsy := hsb.of_arbs (u := { y with out := .retryAnswer n w.key.requester :: y.out }) rfl
  obtain ⟨⟨q'', hy⟩, hlast⟩ := State.secondPass hsy hp hh
  rw [State.decideAt_eq, hu]
  have hregy : ∀ o, ({ y with out := .retryAnswer n w.key.requester :: y.out } : State).reg o = y.reg o := fun _ => rfl
  generalize hz : ({ y with out := .retryAnswer n w.key.requester :: y.out } : State) = z at hy hlast hregy ⊢
  have hregz : ∀ o, (z.decideOnce n (z.reaching n)).reg o = z.reg o := fun o => by rw [hy]; rfl
  refine ⟨⟨g, c, q'', by rw [hy, ← hz, hb, hv]⟩, hlast, ?_, fun o ho => ?_⟩
  · rw [hregz, hregy, hself, hreg]
  · rw [hregz, hregy, hout o ho, hreg]


/-! ### Arrivals and retries -/

theorem reqKey_rank {s : State} {r : BurstReq} {k : ReqKey} (h : s.reqKey r = some k) : k.rank ≤ 3 := by
  unfold State.reqKey at h
  cases ho : r.owner with
  | task ref control =>
    rw [ho] at h
    dsimp only at h
    cases hx : s.task ref with
    | none => rw [hx] at h; exact absurd h (by simp)
    | some t =>
      rw [hx] at h
      obtain ⟨p, -, rfl⟩ := Option.map_eq_some_iff.mp h
      show (if control then 0 else if entrySession t.entry then 2 else 1) ≤ 3
      split
      · decide
      · split <;> decide
  | remote node session age =>
    rw [ho] at h
    obtain rfl := Option.some.inj h
    show (if session then 2 else 1) ≤ 3
    split <;> decide
  | _ =>
    rw [ho] at h
    obtain rfl := Option.some.inj h
    exact Nat.le_of_ble_eq_true rfl

/-- A request as it arrives. -/
def State.arrival (s : State) (n : Nat) (r : BurstReq) (k : ReqKey) : Waiting :=
  { req := r, key := k, seq := (s.arb n).issued, at_ := s.cycle, since := s.cycle, wait := 16 }

/-- An arbiter that has counted one more request. -/
def ArbRun.counted (a : ArbRun) : ArbRun := { a with issued := a.issued + 1 }

theorem State.arrive_of_fits {s : State} {n : Nat} {r : BurstReq} {k : ReqKey} (hk : s.reqKey r = some k) (hf : s.reqFits n r = true)
    (hh : (s.arb n).held = []) : s.arrive n r = (s.putArb n (s.arb n).counted, [s.arrival n r k]) := by
  unfold State.arrive
  dsimp only
  rw [hk]
  refine if_neg ?_
  rw [hf, hh]
  simp

theorem State.arrive_of_not {s : State} {n : Nat} {r : BurstReq} (h : s.reqKey r = none ∨ s.reqFits n r = false) : s.arrive n r = (s, []) := by
  unfold State.arrive
  dsimp only
  cases hk : s.reqKey r with
  | none => rfl
  | some k =>
    refine if_pos ?_
    rw [h.resolve_left (by rw [hk]; exact Option.some_ne_none k)]
    rfl

theorem channel_of_fits {s : State} {n : Nat} {r : BurstReq} (h : s.reqFits n r = true) : r.channel < (arbShape n).1 := by
  unfold State.reqFits at h
  simp only [Bool.and_eq_true, decide_eq_true_eq] at h
  refine Decidable.byContradiction fun hc => h.1.2 ?_
  unfold slotsOf
  exact if_neg hc

theorem Waiting.alone_self {w : Waiting} (hb : w.req.owner ≠ .heartbeat) (hc : w.req.owner ≠ .copy) : w.alone ([w] ++ []) :=
  ⟨fun v hv _ => by rw [List.append_nil, List.mem_singleton] at hv; rw [hv], hb, hc⟩

theorem State.retrying_nil (s : State) (n : Nat) : s.retrying n [] = [] := by
  unfold State.retrying
  rw [List.filter_eq_nil_iff.mpr (fun i _ => by simp)]
  rfl

/-- A place in back-off whose time has come. -/
def State.retryAt (s : State) (n i : Nat) : Option Waiting :=
  match (s.arb n).backoff[i]? with
  | none => none
  | some w => if w.since + w.wait ≤ s.cycle then some w else none

theorem filterMap_filter_eq {α : Type} (f : Nat → Option α) (i k : Nat) :
    ((List.range k).filter (fun j => [i].contains j)).filterMap f = if i < k then (f i).toList else [] := by
  rw [List.filterMap_filter, filterMap_range_one _ i]
  · simp
  · intro c hc
    simp [hc]

theorem State.retrying_one (s : State) {n i : Nat} {w : Waiting} (hw : (s.arb n).backoff[i]? = some w) :
    s.retrying n [i] = if w.since + w.wait ≤ s.cycle then [w] else [] := by
  have hi : i < (s.arb n).backoff.length := (List.getElem?_eq_some_iff.mp hw).1
  have heq : s.retrying n [i] = ((List.range (s.arb n).backoff.length).filter (fun j => [i].contains j)).filterMap (s.retryAt n) := rfl
  rw [heq, filterMap_filter_eq, if_pos hi]
  unfold State.retryAt
  rw [hw]
  dsimp only
  split <;> rfl

/-! ### The watchdog (R322) -/

theorem State.burstFails_around (s : State) (n : Nat) (r : BurstReq) : (s.emit (.burstError n r.owner)).Around (s.burstFails n r) := by
  have h0 := State.Around.refl (s.emit (.burstError n r.owner))
  unfold State.burstFails
  dsimp only
  split
  · exact ((h0.withTasks _).trans (State.fail_around _ _ _)).trans (State.settle_around _ _)
  · exact h0.emit _
  · exact h0.emit _
  · exact h0.emit _
  · exact h0.emit _
  · exact h0

theorem State.burstFails_task {s : State} {n : Nat} {r : BurstReq} {ref : TaskRef} {c : Bool} {x : Task} (ho : r.owner = .task ref c)
    (hx : s.task ref = some x) (hp : x.phase = .running) : ∃ y, (s.burstFails n r).task ref = some y ∧ y.entry = x.entry ∧
      y.status = St.portWatchdog ∧ (y.phase = .failing ∨ y.phase = .finished) := by
  have hemit : (s.emit (.burstError n r.owner)).tasks = s.tasks := by rw [State.emit_of_not_toHost rfl]
  have hmod := State.task_modTask (s.emit (.burstError n r.owner)) ref ref (fun x => x.endBurst r c) (fun x => by
    unfold Task.endBurst
    dsimp only
    split
    · rfl
    · split <;> rfl)
  rw [(State.task_of_tasks hemit ref).trans hx, Option.map_some, if_pos (State.ref_of_task hx)] at hmod
  have hend : (x.endBurst r c).phase = x.phase ∧ (x.endBurst r c).entry = x.entry := by
    unfold Task.endBurst
    dsimp only
    split
    · exact ⟨rfl, rfl⟩
    · split <;> exact ⟨rfl, rfl⟩
  have heq : s.burstFails n r =
      (((s.emit (.burstError n r.owner)).modTask ref (fun x => x.endBurst r c)).fail ref St.portWatchdog).settle ref := by
    unfold State.burstFails
    rw [ho]
  rw [heq]
  generalize (s.emit (.burstError n r.owner)).modTask ref (fun x => x.endBurst r c) = u at hmod ⊢
  have hph : (x.endBurst r c).phase = .running := hend.1.trans hp
  have href : (x.endBurst r c).ref = ref := State.ref_of_task hmod
  rw [← href] at hmod ⊢
  obtain ⟨y, hy, hent, hst, hyp⟩ := State.fail_of_open hmod (by rw [hph]; decide) (by rw [hph]; decide) (by rw [hph]; decide)
    (by rw [hph]; decide) St.portWatchdog
  obtain ⟨-, z, hz, hzy, hzp⟩ := State.settle_of_failed hy hyp
  exact ⟨z, hz, by rw [hzy]; exact hent.trans hend.2, by rw [hzy]; exact hst, hzp⟩

/-- What the watchdog notes of a slot that has expired. -/
def State.expired (s : State) (n slot : Nat) (b : Burst) : State :=
  ((((s.putArb n ((s.arb n).putSlot slot none)).latchReg (R.arbWdogFault n) slot (slot * 256 + b.key.requester)).bump (R.arbWdogCount n) 1).mcEvent
    9 n (if (burstTask b.req).isSome then St.portWatchdog else 0) (burstTask b.req) 0).setBit (R.arbCtl n) 31 true

theorem portWatchdog_of_slot {s : State} {n slot : Nat} {b : Burst} (hb : (s.arb n).slot slot = some b) :
    portWatchdog n slot s =
      if b.at_ + (s.reg (R.arbWdog n)).toNat ≤ s.cycle then (s.expired n slot b).burstFails n b.req else s := by
  unfold portWatchdog
  rw [hb]
  rfl

theorem State.expired_spec (s : State) (n : Fin 48) (slot : Nat) (b : Burst) : (s.expired n slot b).tasks = s.tasks ∧
    ((s.expired n slot b).arb n).slot slot = none ∧ (s.expired n slot b).retryService n = true ∧
    (s.expired n slot b).reg (R.arbWdogCount n) = satAdd (s.reg (R.arbWdogCount n)) 1 ∧
    { off := R.arbWdogFault n, key := slot, val := slot * 256 + b.key.requester, also := [] } ∈ (s.expired n slot b).later.latches ∧
    ∃ e, e ∈ (s.expired n slot b).later.events ∧ e.source = 9 ∧ e.unit = n.val ∧ e.task = burstTask b.req := by
  have h1 : R.arbWdogCount n ≠ R.mcCount := by unfold R.arbWdogCount R.mcCount; omega
  have h2 : R.arbWdogCount n ≠ R.arbCtl n := by unfold R.arbWdogCount R.arbCtl; omega
  unfold State.expired
  have harb := s.arb_putArb_self n ((s.arb n).putSlot slot none)
  have hslot : ((s.putArb n ((s.arb n).putSlot slot none)).arb n).slot slot = none := by rw [harb, ArbRun.slot_putSlot_self]
  have hreg1 : ∀ o, (s.putArb n ((s.arb n).putSlot slot none)).reg o = s.reg o := State.reg_putArb' s n _
  have htasks1 : (s.putArb n ((s.arb n).putSlot slot none)).tasks = s.tasks := rfl
  generalize s.putArb n ((s.arb n).putSlot slot none) = u1 at hslot hreg1 htasks1 ⊢
  have hreg2 := State.reg_latch' u1
    { off := R.arbWdogFault n, key := slot, val := slot * 256 + b.key.requester, also := [] }
  rw [show u1.latch { off := R.arbWdogFault n, key := slot, val := slot * 256 + b.key.requester, also := [] } =
    u1.latchReg (R.arbWdogFault n) slot (slot * 256 + b.key.requester) from rfl] at hreg2
  have hlat2 : (u1.latchReg (R.arbWdogFault n) slot (slot * 256 + b.key.requester)).later.latches = u1.later.latches ++
    [{ off := R.arbWdogFault n, key := slot, val := slot * 256 + b.key.requester, also := [] }] := rfl
  have hslot2 : (((u1.latchReg (R.arbWdogFault n) slot (slot * 256 + b.key.requester)).arb n).slot slot) = none := hslot
  have htasks2 : (u1.latchReg (R.arbWdogFault n) slot (slot * 256 + b.key.requester)).tasks = u1.tasks := rfl
  generalize u1.latchReg (R.arbWdogFault n) slot (slot * 256 + b.key.requester) = u2 at hreg2 hlat2 hslot2 htasks2 ⊢
  have hself := u2.reg_bump_self (R.arbWdogCount n) 1
  obtain ⟨g, c, hb⟩ := u2.bump_shape (R.arbWdogCount n) 1
  rw [hb] at hself ⊢
  have hslot3 : (({ u2 with regs := g, now := c } : State).arb n).slot slot = none := hslot2
  have hlat3 : ({ u2 with regs := g, now := c } : State).later = u2.later := rfl
  have htasks3 : ({ u2 with regs := g, now := c } : State).tasks = u2.tasks := rfl
  generalize ({ u2 with regs := g, now := c } : State) = u3 at hself hslot3 hlat3 htasks3 ⊢
  have hev := u3.mcEvent_beside 9 n (if (burstTask b.req).isSome then St.portWatchdog else 0) (burstTask b.req) 0
  have hreg4 := u3.reg_mcEvent_ne 9 n (if (burstTask b.req).isSome then St.portWatchdog else 0) (burstTask b.req) 0 h1
  have hlat4 : (u3.mcEvent 9 n (if (burstTask b.req).isSome then St.portWatchdog else 0) (burstTask b.req) 0).later.latches = u3.later.latches := rfl
  have hslot4 : (((u3.mcEvent 9 n (if (burstTask b.req).isSome then St.portWatchdog else 0) (burstTask b.req) 0).arb n).slot slot) = none := by
    obtain ⟨g', c', l', hs⟩ := u3.mcEvent_shape 9 n (if (burstTask b.req).isSome then St.portWatchdog else 0) (burstTask b.req) 0
    rw [hs]
    exact hslot3
  obtain ⟨htasks4, -, -, -, hevents⟩ := hev
  generalize u3.mcEvent 9 n (if (burstTask b.req).isSome then St.portWatchdog else 0) (burstTask b.req) 0 = u4 at hreg4 hlat4 hslot4 htasks4 hevents ⊢
  obtain ⟨⟨g', hset⟩, -⟩ := u4.setsRegs_setBit (R.arbCtl n) 31 true
  have hbit := u4.bit_setBit_self (R.arbCtl n) 31 true (by decide)
  have hreg5 := u4.reg_setBit_ne 31 true h2
  generalize u4.setBit (R.arbCtl n) 31 true = u5 at hset hbit hreg5 ⊢
  have hlater : u5.later = u4.later := by rw [hset]
  refine ⟨?_, ?_, hbit, ?_, ?_, ?_⟩
  · rw [hset]
    exact htasks4.trans (htasks3.trans (htasks2.trans htasks1))
  · rw [hset]
    exact hslot4
  · rw [hreg5, hreg4, hself, hreg2, hreg1]
  · rw [hlater, hlat4, hlat3, hlat2]
    exact List.mem_append_right _ (List.mem_singleton.mpr rfl)
  · rw [hlater, hevents]
    exact ⟨_, List.mem_append_right _ (List.mem_singleton.mpr rfl), rfl, rfl, rfl⟩


/-! ### The statement, clause by clause -/

theorem sameStream_self (w : Waiting) : sameStream w w = true := by simp [sameStream]

theorem streamRank_self (w : Waiting) : streamRank ([w] ++ []) w = w.key.rank := by
  simp [streamRank, sameStream_self]

theorem arbiterArrival_of_fits {s : State} {n : Nat} {r : BurstReq} {k : ReqKey} (hk : s.reqKey r = some k) (hf : s.reqFits n r = true)
    (hh : (s.arb n).held = []) :
    arbiterArrival n r s = (s.putArb n (s.arb n).counted).decideAt n [] [s.arrival n r k] := by
  unfold arbiterArrival
  rw [State.arrive_of_fits hk hf hh]

/-- What holds of a request that arrives where nothing waits. -/
structure State.Arrives (s t : State) (n : Nat) (w : Waiting) : Prop where
  granted : ∀ i l, (s.arb n).idle n w.req.channel = i :: l → (t.arb n).slot i = some { req := w.req, key := w.key, at_ := s.cycle } ∧
    (t.arb n).parked = [] ∧ (∀ j, j ≠ i → (t.arb n).slot j = (s.arb n).slot j) ∧ (∀ j, j ≠ n → t.arb j = s.arb j) ∧
    t.reg64 (R.arbBeatsLo n w.key.rank) = (s.reg64 (R.arbBeatsLo n w.key.rank) + beatsOf w.req) % 2 ^ 64 ∧
    t = { s with regs := t.regs, arbs := t.arbs } ∧
    s.regsBut t [R.arbBeatsLo n w.key.rank, R.arbBeatsLo n w.key.rank + 4, R.arbMaxWait n w.key.rank]
  parked : (s.arb n).idle n w.req.channel = [] → s.retryService n = false → (t.arb n).parked = [w] ∧
    (∀ j, (t.arb n).slot j = (s.arb n).slot j) ∧ t.reg (R.arbParked n) = satAdd (s.reg (R.arbParked n)) 1 ∧
    t = { s with regs := t.regs, now := t.now, arbs := t.arbs } ∧ s.regsBut t [R.arbParked n]
  retried : (s.arb n).idle n w.req.channel = [] → s.retryService n = true → (t.arb n).backoff = [{ w with since := s.cycle }] ∧
    (t.arb n).parked = [] ∧ (∀ j, (t.arb n).slot j = (s.arb n).slot j) ∧ t.reg (R.arbRetries n) = satAdd (s.reg (R.arbRetries n)) 1 ∧
    t = { s with regs := t.regs, now := t.now, arbs := t.arbs, out := .retryAnswer n w.key.requester :: s.out } ∧
    s.regsBut t [R.arbRetries n]

theorem State.decideAt_arrives {s : State} {n : Nat} {w : Waiting} (hp : (s.arb n).parked = []) (hh : (s.arb n).held = [])
    (hb : (s.arb n).backoff = []) (ha : w.alone ([w] ++ [])) (hc : w.req.channel < (arbShape n).1) (hk : w.key.rank ≤ 3) :
    s.Arrives (s.decideAt n [] [w]) n w where
  granted i l hi := by
    obtain ⟨v, ⟨q, hq⟩, ⟨q', hv⟩, hset⟩ := State.decideAt_granted (arriving := [w]) (ending := []) hh (by rw [hp]; rfl) (by rw [hb]; exact ha) hc hi
    rw [hb, streamRank_self] at hq
    obtain ⟨hbeats, hregs⟩ := v.countGrant_spec n hk ha.notCopy
    obtain ⟨g, hg⟩ := v.countGrant_frame n w.key.rank w
    generalize v.countGrant n w.key.rank w = u at hq hbeats hregs hg
    generalize s.decideAt n [] [w] = t at hq hset ⊢
    have hregv : ∀ o, v.reg o = s.reg o := fun o => by rw [hv]; rfl
    have hregt : ∀ o, t.reg o = u.reg o := fun o => by rw [hq]; rfl
    refine ⟨by rw [hset.self]; exact ArbRun.taken_slot _ _ _ _, by rw [hset.self]; rfl, fun j hj => ?_, hset.others, ?_, by rw [hq, hg, hv], fun o ho => ?_⟩
    · rw [hset.self]
      exact ArbRun.taken_slot_ne _ _ _ hj
    · rw [State.reg64_congr (hregt _) (hregt _), hbeats, State.reg64_congr (hregv _) (hregv _)]
    · rw [hregt, hregs o ho, hregv]
  parked hi hr := by
    obtain ⟨⟨g, c, q, hs⟩, hset, hcount, hregs⟩ := State.decideAt_parked hp hh (by rw [hb]; exact ha) hc hi hr
    generalize s.decideAt n [] [w] = t at hs hset hcount hregs ⊢
    exact ⟨by rw [hset.self], fun j => by rw [hset.self]; rfl, hcount, by rw [hs], hregs⟩
  retried hi hr := by
    obtain ⟨⟨g, c, q, hs⟩, hset, hcount, hregs⟩ := State.decideAt_retried hp hh (by rw [hb]; exact ha) hc hi hr
    generalize s.decideAt n [] [w] = t at hs hset hcount hregs ⊢
    exact ⟨by rw [hset.self, hb]; rfl, by rw [hset.self]; exact hp, fun j => by rw [hset.self]; rfl, hcount, by rw [hs], hregs⟩

/-- The retries leave their back-off. -/
theorem State.takeRetries_spec (s : State) (n : Nat) (ws : List Waiting) : (∃ q, s.takeRetries n ws = { s with arbs := q }) ∧
    s.SetsArb (s.takeRetries n ws) n { s.arb n with backoff := (s.arb n).backoff.filter (fun w => ! ws.contains w) } :=
  ⟨⟨_, rfl⟩, s.setsArb_putArb n _⟩

theorem arbiterDecision_eq (n : Nat) (ending retries : List Nat) (s : State) : arbiterDecision n ending [] retries s =
    (s.takeRetries n (s.retrying n retries)).decideAt n (s.ended n ending) ((s.retrying n retries).map again) := by
  unfold arbiterDecision State.arriveAll
  dsimp only
  rw [List.append_nil]

theorem arbiterDecision_quiet (n : Nat) (ending : List Nat) (s : State) : ∃ u, arbiterDecision n ending [] [] s = u.decideAt n (s.ended n ending) [] ∧
    (∃ q, u = { s with arbs := q }) ∧ s.SetsArb u n (s.arb n) := by
  obtain ⟨hu, hset⟩ := s.takeRetries_spec n []
  have hall : (s.arb n).backoff.filter (fun w => ! ([] : List Waiting).contains w) = (s.arb n).backoff :=
    List.filter_eq_self.mpr fun _ _ => rfl
  rw [hall] at hset
  exact ⟨s.takeRetries n [], by rw [arbiterDecision_eq, State.retrying_nil]; rfl, hu, hset⟩

theorem ArbRun.freed_idle_congr {a b : ArbRun} (h : a.slots = b.slots) (ending : List Nat) (n c : Nat) :
    (a.freed ending).idle n c = (b.freed ending).idle n c := by
  have hs : ∀ i, a.slot i = b.slot i := fun i => by unfold ArbRun.slot; rw [h]
  unfold ArbRun.idle
  refine congrArg (fun f => List.filter f _) (funext fun i => ?_)
  rw [(a.freed_spec ending).2 i, (b.freed_spec ending).2 i, hs]

theorem arbiterRetry_of_due {s : State} {n i : Nat} {w : Waiting} (hw : (s.arb n).backoff[i]? = some w) (h : w.since + w.wait ≤ s.cycle) :
    arbiterRetry n i s = (s.takeRetries n [w]).decideAt n [] [again w] := by
  have hret := s.retrying_one hw
  rw [if_pos h] at hret
  unfold arbiterRetry
  rw [hret]
  exact if_neg (List.cons_ne_nil w [])

theorem filter_not_contains (l : List Waiting) (w : Waiting) :
    l.filter (fun v => ! [w].contains v) = l.filter (fun v => decide (v ≠ w)) :=
  List.filter_congr fun v _ => by simp

theorem again_alone {l : List Waiting} {w : Waiting} (h : ∀ v, v ∈ l → v ≠ w → sameStream v w = false) (hb : w.req.owner ≠ .heartbeat)
    (hc : w.req.owner ≠ .copy) : (again w).alone ([again w] ++ l.filter (fun v => decide (v ≠ w))) := by
  refine ⟨fun v hv hs => ?_, hb, hc⟩
  obtain hv | hv := List.mem_append.mp hv
  · rw [List.mem_singleton.mp hv]
  · obtain ⟨hv, hne⟩ := List.mem_filter.mp hv
    have hno : sameStream v w = true := hs
    rw [h v hv (of_decide_eq_true hne)] at hno
    exact Bool.noConfusion hno

theorem workReg_arb {o : Nat} (h : 0x700000 ≤ o ∧ o < 0x704000) : workReg o = false :=
  workReg_eq_false (by omega) (by unfold R.tuRangesFree; omega) (by omega) (by omega)

/-- Settles O52. -/
theorem portArbitration : Obligations.PortArbitration := by
  unfold Obligations.PortArbitration
  refine ⟨fun n r s hp hh => ⟨fun k hk hf hb hcp hhb => ?_, fun h => ?_⟩,
    fun n ending s hh => ⟨fun hp => ?_, fun w i l hp hb hcp hhb hi hc => ?_, fun w i l hp hb hdue hcp hhb hi hc => ?_⟩,
    fun n i s w hw => ⟨fun hdue hone hp hh hcp hhb hc => ⟨fun k l hi => ?_, fun hi hr => ?_⟩, fun hlt => ?_⟩,
    fun n slot s b hb => ⟨fun hdue => ?_, fun hlt => ?_⟩⟩
  · have hact : exec (.arbiterRequestArrival n r) s = .next _ := congrArg Host.Outcome.next (arbiterArrival_of_fits hk hf hh)
    have hset := s.setsArb_putArb n (s.arb n).counted
    have harr := State.decideAt_arrives (s := s.putArb n (s.arb n).counted) (w := s.arrival n r k) (by rw [hset.self]; exact hp)
      (by rw [hset.self]; exact hh) (by rw [hset.self]; exact hb) (Waiting.alone_self hhb hcp) (channel_of_fits hf) (reqKey_rank hk)
    have hidle : ((s.putArb n (s.arb n).counted).arb n).idle n r.channel = (s.arb n).idle n r.channel := by rw [hset.self]; rfl
    have hslot : ∀ j, ((s.putArb n (s.arb n).counted).arb n).slot j = (s.arb n).slot j := fun j => by rw [hset.self]; rfl
    have hreg : ∀ o, (s.putArb n (s.arb n).counted).reg o = s.reg o := State.reg_putArb' s n _
    have hfr : ∃ q, s.putArb n (s.arb n).counted = { s with arbs := q } := ⟨_, rfl⟩
    generalize s.putArb n (s.arb n).counted = u at hact harr hset hidle hslot hreg hfr
    generalize u.decideAt n [] [s.arrival n r k] = t at hact harr
    obtain ⟨q, hu⟩ := hfr
    have hret := State.retryService_of_arbs hu n
    refine ⟨fun i l hi => ?_, fun hi hr => ?_, fun hi hr => ?_⟩
    · obtain ⟨h1, h2, h3, h4, h5, h6, h7⟩ := harr.granted i l (hidle.trans hi)
      refine ⟨t, hact, h1.trans (by rw [hu]; rfl), h2, fun j hj => (h3 j hj).trans (hslot j), fun j hj => (h4 j hj).trans (hset.others j hj), ?_,
        by rw [h6, hu], fun o ho => (h7 o ho).trans (hreg o)⟩
      exact h5.trans (congrArg (fun x => (x + beatsOf r) % 2 ^ 64) (State.reg64_congr (hreg _) (hreg _)))
    · obtain ⟨h1, h2, h3, h4, h5⟩ := harr.parked (hidle.trans hi) (hret.trans hr)
      exact ⟨t, hact, h1, fun j => (h2 j).trans (hslot j), by rw [h3, hreg], by rw [h4, hu], fun o ho => (h5 o ho).trans (hreg o)⟩
    · obtain ⟨h1, h2, h3, h4, h5, h6⟩ := harr.retried (hidle.trans hi) (hret.trans hr)
      exact ⟨t, hact, h1.trans (by rw [hu]; rfl), h2, fun j => (h3 j).trans (hslot j), by rw [h4, hreg], by rw [h5, hu]; rfl,
        fun o ho => (h6 o ho).trans (hreg o)⟩
  · have hact : arbiterArrival n r s = s.decideAt n [] [] := by
      unfold arbiterArrival
      rw [State.arrive_of_not h]
    obtain ⟨⟨q, hs⟩, hset⟩ := State.decideAt_quiet hp hh []
    refine ⟨_, congrArg Host.Outcome.next hact, by rw [hs], fun j => ?_⟩
    by_cases hj : j = n
    · subst hj
      exact hset.self
    · exact hset.others j hj
  · obtain ⟨u, hact, hu, hset⟩ := arbiterDecision_quiet n ending s
    obtain ⟨⟨q', hq'⟩, hdone⟩ := State.decideAt_quiet (s := u) (by rw [hset.self]; exact hp) (by rw [hset.self]; exact hh) (s.ended n ending)
    rw [hset.self] at hdone
    obtain ⟨q, rfl⟩ := hu
    exact ⟨_, congrArg Host.Outcome.next hact, by rw [hq'], fun i => by rw [hdone.self]; exact ((s.arb n).freed_spec (s.ended n ending)).2 i,
      (hset.trans hdone).others⟩
  · obtain ⟨u, hact, hu, hset⟩ := arbiterDecision_quiet n ending s
    obtain ⟨v, ⟨q₁, h₁⟩, ⟨q₂, h₂⟩, hdone⟩ := State.decideAt_granted (s := u) (n := n) (ending := s.ended n ending) (arriving := []) (w := w) (l := l)
      (i := i) (by rw [hset.self]; exact hh) (by rw [hset.self, hp]; rfl) (by rw [hset.self, hb]; exact Waiting.alone_self hhb hcp) hc
      (by rw [hset.self]; exact hi)
    obtain ⟨q, hu⟩ := hu
    refine ⟨_, congrArg Host.Outcome.next hact, ?_, by rw [hdone.self]; rfl, ?_⟩
    · rw [hdone.self, ArbRun.taken_slot, hu]
    · obtain ⟨g, hg⟩ := v.countGrant_frame n (streamRank ([w] ++ (u.arb n).backoff) w) w
      rw [h₁, hg, h₂, hu]
  · have hret := s.retrying_one (n := n) (i := 0) (w := w) (by rw [hb]; rfl)
    rw [if_pos hdue] at hret
    obtain ⟨⟨q, hu⟩, hset⟩ := s.takeRetries_spec n [w]
    have hact := arbiterDecision_eq n ending [0] s
    rw [hret, List.map_cons, List.map_nil] at hact
    generalize s.takeRetries n [w] = u at hact hu hset
    have hnil : (s.arb n).backoff.filter (fun v => ! [w].contains v) = [] := by rw [hb]; simp
    rw [hnil] at hset
    have hidle : ((u.arb n).freed (s.ended n ending)).idle n (again w).req.channel = i :: l := by
      rw [hset.self]
      exact (ArbRun.freed_idle_congr (a := { s.arb n with backoff := [] }) (b := s.arb n) rfl _ _ _).trans hi
    obtain ⟨v, ⟨q₁, h₁⟩, ⟨q₂, h₂⟩, hdone⟩ := State.decideAt_granted (s := u) (n := n) (ending := s.ended n ending) (arriving := [again w])
      (w := again w) (l := l) (i := i) (by rw [hset.self]; exact hh) (by rw [hset.self]; exact congrArg (· ++ [again w]) hp)
      (by rw [hset.self]; exact Waiting.alone_self (w := again w) hhb hcp) hc hidle
    refine ⟨_, congrArg Host.Outcome.next hact, ?_, ?_, ?_⟩
    · rw [hdone.self, ArbRun.taken_slot, hu]
      rfl
    · obtain ⟨x, hx⟩ := ((u.arb n).freed_spec (s.ended n ending)).1
      rw [hdone.self, hx, hset.self]
      rfl
    · obtain ⟨g, hg⟩ := v.countGrant_frame n (streamRank ([again w] ++ (u.arb n).backoff) (again w)) (again w)
      rw [h₁, hg, h₂, hu]
  · have hact := arbiterRetry_of_due hw hdue
    obtain ⟨⟨q, hu⟩, hset⟩ := s.takeRetries_spec n [w]
    rw [filter_not_contains] at hset
    generalize s.takeRetries n [w] = u at hact hu hset
    obtain ⟨v, ⟨q₁, h₁⟩, ⟨q₂, h₂⟩, hdone⟩ := State.decideAt_granted (s := u) (n := n) (ending := []) (arriving := [again w])
      (w := again w) (l := l) (i := k) (by rw [hset.self]; exact hh) (by rw [hset.self]; exact congrArg (· ++ [again w]) hp)
      (by rw [hset.self]; exact again_alone hone hhb hcp) hc (by rw [hset.self]; exact hi)
    refine ⟨_, congrArg Host.Outcome.next hact, ?_, ?_, ?_⟩
    · rw [hdone.self, ArbRun.taken_slot, hu]
      rfl
    · rw [hdone.self, ArbRun.freed_nil, hset.self]
      rfl
    · obtain ⟨g, hg⟩ := v.countGrant_frame n (streamRank ([again w] ++ (u.arb n).backoff) (again w)) (again w)
      rw [h₁, hg, h₂, hu]
  · have hact := arbiterRetry_of_due hw hdue
    obtain ⟨⟨q, hu⟩, hset⟩ := s.takeRetries_spec n [w]
    rw [filter_not_contains] at hset
    generalize s.takeRetries n [w] = u at hact hu hset
    obtain ⟨⟨g, c, q', hs⟩, hdone, -⟩ := State.decideAt_retried (s := u) (n := n) (w := again w) (by rw [hset.self]; exact hp)
      (by rw [hset.self]; exact hh) (by rw [hset.self]; exact again_alone hone hhb hcp) hc (by rw [hset.self]; exact hi)
      ((State.retryService_of_arbs hu n).trans hr)
    refine ⟨_, congrArg Host.Outcome.next hact, ?_, ?_⟩
    · rw [hdone.self, hset.self, hu]
      rfl
    · rw [hs, hu]
      rfl
  · refine congrArg Host.Outcome.next (if_pos ?_)
    rw [s.retrying_one hw, if_neg (Nat.not_le.mpr hlt)]
  · obtain ⟨htasks, hslot, hret, hcount, hlat, hev⟩ := s.expired_spec n slot b
    have hact := (portWatchdog_of_slot hb).trans (if_pos hdue)
    have htask : ∀ ref c x, b.req.owner = .task ref c → s.task ref = some x → x.phase = .running → _ := fun ref c x ho hx hp =>
      State.burstFails_task (s := s.expired n slot b) (n := n) ho ((State.task_of_tasks htasks ref).trans hx) hp
    generalize s.expired n slot b = u at hslot hret hcount hlat hev hact htask
    have hemit := State.emit_of_not_toHost (s := u) (o := .burstError n b.req.owner) rfl
    have haround := u.burstFails_around n b.req
    rw [hemit] at haround
    generalize u.burstFails n b.req = t at hact haround htask
    obtain ⟨e, hmem, hsrc, hunit, htsk⟩ := hev
    have hreg : ∀ o, workReg o = false → t.reg o = u.reg o := haround.regs
    refine ⟨t, congrArg Host.Outcome.next hact, ?_, ?_, ?_, ?_, ⟨e, ?_, hsrc, hunit, htsk⟩, haround.kept.out _ List.mem_cons_self, htask⟩
    · rw [haround.frame]
      exact hslot
    · exact (State.bit_congr (hreg _ (workReg_arb (by unfold R.arbCtl; omega))) 31).trans hret
    · exact (hreg _ (workReg_arb (by unfold R.arbWdogCount; omega))).trans hcount
    · rw [haround.latches]
      exact hlat
    · rw [haround.events]
      exact hmem
  · exact congrArg Host.Outcome.next ((portWatchdog_of_slot hb).trans (if_neg (Nat.not_le.mpr hlt)))

end Sys2Proof.Machine
end

section
/-!
### IDENT_READ into a buffer past the last local address (R347)
-/
namespace Sys2Proof.Machine

/-- IDENT_READ of the block record, 64 bytes, into a buffer that begins at byte 1 beyond the 48 bits of a local address. -/
def strayPacket : Packet := ⟨[0x8B] ++ List.replicate 15 0 ++ leBytes 8 (2 ^ 48 + 1) ++ leBytes 4 64, 0⟩

/-- The byte that is made free: the one at local address 1 takes this value. -/
def strayByte : Byte := Config.freeByte 0 (2 ^ 48 + 1)

/-- A state with that packet in hand, in whose memory the byte at local address 1 is another one. -/
def strayState : State := { State.reset.writeMem 1 [strayByte + 1] with mq := { MqRun.empty with cur := some strayPacket } }

theorem strayState_byte : strayState.readByte 1 = strayByte + 1 := State.reset.readByte_writeMem_self 1 [strayByte + 1] (i := 0) (by decide)

theorem State.blockRecord_length (s : State) : s.blockRecord.length = 64 := by
  simp [State.blockRecord]

theorem strayState_identity : (strayState.identity (byteAt strayPacket.bytes 8) (byteAt strayPacket.bytes 9)).length = 64 :=
  strayState.blockRecord_length

/-- An uncorrectable word under the buffer fails the command. -/
theorem strayState_verdict (n : Nat) : strayState.memVerdict 0 .write (pkBuffer strayPacket.bytes) n
    (writeCond (pkBuffer strayPacket.bytes) n .uncorrectable) = some St.uncorrectable := by
  have hb : strayState.bound (pkBuffer strayPacket.bytes) n = true := by
    have hr : decide (regionOf (pkBuffer strayPacket.bytes) ≠ .tierB) = true := by decide
    unfold State.bound
    rw [hr, Bool.true_or]
  have hc : writeCond (pkBuffer strayPacket.bytes) n .uncorrectable = .uncorrectable := by
    have hr : regionOf (pkBuffer strayPacket.bytes) ≠ .scratch := by decide
    have ha : decide (pkBuffer strayPacket.bytes % 64 = 0) = false := by decide
    unfold writeCond wholeWords
    rw [if_neg hr, ha, Bool.false_and]
    rfl
  unfold State.memVerdict
  rw [hb, hc]
  rfl

/-- Bits of one byte that no later cell reaches become free. -/
theorem State.readByte_freeBits_cons (s : State) (a : Nat) (cs : List (Nat × Byte)) (h : ∀ x ∈ cs, x.1 % 2 ^ 48 ≠ a % 2 ^ 48) :
    (s.freeBits ((a, 0xFF) :: cs)).readByte (a % 2 ^ 48) = Config.freeByte s.freeCtr a := by
  show sget (memDefault s.memGen) (memPutCells s.memGen s.mem (freeCells s.freeCtr ((a, 0xFF) :: cs))) _ = _
  rw [freeCells, List.map_cons, memPutCells, memPutCells_other]
  · rw [memPut, sget_sset_self, WCell.apply]
    simpa using BitVec.and_allOnes (x := Config.freeByte s.freeCtr a)
  · intro c hc
    obtain ⟨p, hp, rfl⟩ := List.mem_map.mp hc
    exact h p hp

/-- The first of the freed bytes, at the local part of its address. -/
theorem State.readByte_freeBytes_head (s : State) (a n : Nat) (h : n < 2 ^ 48) :
    (s.freeBytes (List.range' a (n + 1))).readByte (a % 2 ^ 48) = Config.freeByte s.freeCtr a := by
  unfold State.freeBytes
  rw [List.range'_succ, List.map_cons]
  refine s.readByte_freeBits_cons a _ fun x hx => ?_
  obtain ⟨b, hb, rfl⟩ := List.mem_map.mp hx
  obtain ⟨hlo, hhi⟩ := List.mem_range'_1.mp hb
  show b % 2 ^ 48 ≠ a % 2 ^ 48
  omega

theorem State.fillBuffer_of_refused {s : State} {p : Packet} {op : Nat} (ho : pkOpcode p.bytes = op) (h0 : op ≠ 0) {bytes : List Byte}
    {c : MemCond} {st : Status} (h : s.memVerdict 0 .write (pkBuffer p.bytes) bytes.length (writeCond (pkBuffer p.bytes) bytes.length c) = some st)
    (result : List Byte) : s.fillBuffer p bytes c result =
      ((s.memRefusal st (pkBuffer p.bytes) none).freeBytes (List.range' (pkBuffer p.bytes) bytes.length)).replied p st true [] := by
  unfold State.fillBuffer
  dsimp only
  rw [h]
  exact State.final_replied ho h0 _ _ _

theorem readIdentity_eq {s : State} {p : Packet} (c : MemCond) (hr : s.cpRuns = true) (hc : s.mq.cur = some p) (ho : pkOpcode p.bytes = 0x8B)
    (hw : s.tierBWaits (pkBuffer p.bytes) = false) : readIdentity c s =
      if pkLen p.bytes < (s.identity (byteAt p.bytes 8) (byteAt p.bytes 9)).length then
        s.inHand.replied p St.overflow true (leBytes 4 (s.identity (byteAt p.bytes 8) (byteAt p.bytes 9)).length)
      else s.inHand.fillBuffer p (s.identity (byteAt p.bytes 8) (byteAt p.bytes 9)) c
        (leBytes 4 (s.identity (byteAt p.bytes 8) (byteAt p.bytes 9)).length) := by
  have hid : s.inHand.identity (byteAt p.bytes 8) (byteAt p.bytes 9) = s.identity (byteAt p.bytes 8) (byteAt p.bytes 9) := rfl
  refine (State.onBuffer_of_served hr hc ho hw _).trans ?_
  dsimp only
  rw [State.final_replied ho (by decide : (0x8B : Nat) ≠ 0), hid]

theorem strayState_identRead : ∃ u : State, u.freeCtr = 0 ∧ readIdentity .uncorrectable strayState =
    (u.freeBytes (List.range' (2 ^ 48 + 1) 64)).replied strayPacket St.uncorrectable true [] := by
  have hl : ¬ pkLen strayPacket.bytes < (strayState.identity (byteAt strayPacket.bytes 8) (byteAt strayPacket.bytes 9)).length := by
    rw [strayState_identity]
    decide
  have hv : strayState.inHand.memVerdict 0 .write (pkBuffer strayPacket.bytes)
      (strayState.identity (byteAt strayPacket.bytes 8) (byteAt strayPacket.bytes 9)).length
      (writeCond (pkBuffer strayPacket.bytes) (strayState.identity (byteAt strayPacket.bytes 8) (byteAt strayPacket.bytes 9)).length
        .uncorrectable) = some St.uncorrectable :=
    (memVerdict_congr rfl rfl 0 .write _ _ _).trans (strayState_verdict _)
  have hrun := (readIdentity_eq .uncorrectable (by decide) rfl (by decide) (by decide)).trans
    ((if_neg hl).trans (State.fillBuffer_of_refused (op := 0x8B) (by decide) (by decide) hv _))
  rw [strayState_identity] at hrun
  obtain ⟨g, n, l, hu⟩ := strayState.inHand.memRefusal_shape St.uncorrectable (pkBuffer strayPacket.bytes) none
  exact ⟨_, by rw [hu]; rfl, hrun⟩

/-- Refutes O57: IDENT_READ into a buffer past the last local address, whose write fails: the bytes made free are those at the local
part of the buffer's address, below the buffer. -/
theorem not_serviceCommands : ¬ Obligations.ServiceCommands := by
  intro h
  obtain ⟨-, -, -, hident, -⟩ := h strayState (by decide)
  obtain ⟨-, hrefused, -⟩ := hident strayPacket .uncorrectable rfl (by decide)
  obtain ⟨t, ht, hmem, -⟩ := hrefused St.uncorrectable (by decide) (by rw [strayState_identity]; decide) (strayState_verdict _)
  obtain ⟨u, hu, hrun⟩ := strayState_identRead
  have hnext : t = readIdentity .uncorrectable strayState := (Host.Outcome.next.inj ht).symm
  have hfreed : t.readByte 1 = strayByte := by
    rw [hnext, hrun]
    refine (u.readByte_freeBytes_head (2 ^ 48 + 1) 63 (by decide)).trans ?_
    rw [hu]
    rfl
  have hkept : t.readByte 1 = strayByte + 1 := (hmem 1 (.inl (by decide))).trans strayState_byte
  have heq : strayByte = strayByte + 1 := hfreed.symm.trans hkept
  exact absurd heq (by bv_omega)

end Sys2Proof.Machine
end

section
/-!
### A self-reset over an image past the last local address (R377)
-/
namespace Sys2Proof.Machine

/-- A task of opcode 0x06 whose output is compressed: one ingot, with its list past the 48 bits of a local address. -/
def strayEntry : List Byte :=
  [0x06] ++ List.replicate 55 0 ++ [1] ++ List.replicate 103 0 ++ [0x40, 1] ++ List.replicate 6 0 ++ leBytes 8 (2 ^ 48) ++ leBytes 8 4096 ++
    leBytes 8 64

/-- The byte that the reset makes free at the list's first address: the one at local address 0 takes this value. -/
def strayListByte : Byte := Config.freeByte 0 (2 ^ 48)

/-- A state in which that task runs, and in whose memory the byte at local address 0 is another one. -/
def strayRun : State :=
  { State.reset.writeMem 0 [strayListByte + 1] with tasks := [{ newTask ⟨0, 0, 0⟩ strayEntry (0, 0) 0 with phase := .running }] }

theorem strayRun_byte : strayRun.readByte 0 = strayListByte + 1 := State.reset.readByte_writeMem_self 0 [strayListByte + 1] (i := 0) (by decide)

theorem strayRun_lostCells : strayRun.lostCells = (2 ^ 48, 0xFF) :: (List.range' (2 ^ 48 + 1) 15 ++ List.range' 4096 64).map (fun a => (a, 0xFF)) := by
  decide +kernel

theorem State.carry_sameMem (s old : State) (offs : List Nat) : s.sameMem (s.carry old offs) := fun a =>
  List.foldlRecOn (motive := fun u : State => u.readByte a = s.readByte a) offs _ rfl fun _ h _ _ => h

/-- A self-reset makes the lost cells free and leaves the rest of memory. -/
theorem State.readByte_selfReset {s : State} (h : s.recordWrite = none) (cause a : Nat) :
    (s.selfReset cause).readByte a = (s.freeBits s.lostCells).readByte a := by
  have hcut : (s.freeBits s.lostCells).cutRecord = s.freeBits s.lostCells := by
    unfold State.cutRecord
    rw [show (s.freeBits s.lostCells).recordWrite = none from h]
  unfold State.selfReset
  rw [hcut]
  refine List.foldlRecOn (motive := fun u : State => u.readByte a = (s.freeBits s.lostCells).readByte a) _ _ ?_ fun _ h _ _ => h
  split
  · exact State.carry_sameMem _ _ _ a
  · exact State.carry_sameMem _ _ _ a

/-- Refutes O58: a reset while a task writes an image past the last local address makes the bytes at the local part of the image's
addresses free, which the image does not name. -/
theorem not_resets : ¬ Obligations.Resets := by
  intro h
  obtain ⟨-, hself, -⟩ := h
  obtain ⟨t, ht, -, -, -, -, -, -, -, -, -, -, -, -, -, -, hmem, -⟩ := (hself strayRun .hotReset 29 (.inl ⟨rfl, rfl⟩)).1 rfl (by decide)
  have hnext : t = strayRun.selfReset 29 := (Host.Outcome.next.inj ht).symm
  have hkept : t.readByte 0 = strayListByte + 1 := by
    refine (hmem 0 fun x hx => ?_).trans strayRun_byte
    rw [strayRun_lostCells, List.mem_cons] at hx
    obtain rfl | hx := hx
    · decide
    · obtain ⟨a, ha, rfl⟩ := List.mem_map.mp hx
      rw [List.mem_append, List.mem_range'_1, List.mem_range'_1] at ha
      show a ≠ 0
      omega
  have hfreed : t.readByte 0 = strayListByte := by
    rw [hnext, State.readByte_selfReset rfl, strayRun_lostCells]
    refine strayRun.readByte_freeBits_cons (2 ^ 48) _ fun x hx => ?_
    obtain ⟨a, ha, rfl⟩ := List.mem_map.mp hx
    rw [List.mem_append, List.mem_range'_1, List.mem_range'_1] at ha
    show a % 2 ^ 48 ≠ 2 ^ 48 % 2 ^ 48
    omega
  exact absurd (hfreed.symm.trans hkept) (by bv_omega)

end Sys2Proof.Machine
end

section
/-!
### Start-up, the pads, entry into low power, and wake (R382 to R392)
-/
namespace Sys2Proof.Machine

/-! What the steps of a start leave alone. -/

/-- Nothing has changed but registers, the record with its write, and the retired codec units. -/
def State.Started (s t : State) : Prop := ∃ g d w r a b, t = { s with
  regs := g, record := d, recordWrite := w, recordDirty := r, compRetired := a, expRetired := b }

theorem State.Started.refl (s : State) : s.Started s := ⟨_, _, _, _, _, _, rfl⟩

theorem State.Started.trans {s t u : State} (h : s.Started t) (k : t.Started u) : s.Started u := by
  obtain ⟨_, _, _, _, _, _, rfl⟩ := h
  obtain ⟨_, _, _, _, _, _, rfl⟩ := k
  exact ⟨_, _, _, _, _, _, rfl⟩

theorem State.Started.of_regs {s t : State} (h : ∃ g, t = { s with regs := g }) : s.Started t := by
  obtain ⟨g, rfl⟩ := h
  exact ⟨_, _, _, _, _, _, rfl⟩

theorem State.Started.foldl {α : Type} {f : State → α → State} (hf : ∀ (u : State) x, u.Started (f u x)) (s : State) (l : List α) :
    s.Started (l.foldl f s) :=
  List.foldlRecOn (motive := fun u : State => s.Started u) l f (.refl s) fun _ h x _ => h.trans (hf _ x)

theorem State.Started.setReg (s : State) (o : Nat) (v : Word) : s.Started (s.setReg o v) := .of_regs (s.setReg_shape o v)
theorem State.Started.setFld (s : State) (o lo n v : Nat) : s.Started (s.setFld o lo n v) := .of_regs (s.setFld_shape o lo n v)
theorem State.Started.setBit (s : State) (o i : Nat) (b : Bool) : s.Started (s.setBit o i b) := .of_regs (s.setsRegs_setBit o i b).1

theorem State.Started.withReg {s t : State} (h : s.Started t) (o : Nat) (v : Word) : s.Started (t.setReg o v) := h.trans (.setReg t o v)

theorem State.Started.withBit {s t : State} (h : s.Started t) (o i : Nat) (b : Bool) : s.Started (t.setBit o i b) := h.trans (.setBit t o i b)

theorem State.Started.changeRecord (s : State) (f : RepairRecord → RepairRecord) : s.Started (s.changeRecord f) := by
  obtain ⟨⟨g, w, d, h⟩, -⟩ := s.changeRecord_spec f
  exact ⟨g, _, w, d, _, _, h⟩

theorem State.Started.keeps {s t : State} (h : s.Started t) : t.tasks = s.tasks ∧ s.sameMem t ∧ t.padWait = s.padWait := by
  obtain ⟨_, _, _, _, _, _, rfl⟩ := h
  exact ⟨rfl, fun _ => rfl, rfl⟩

theorem State.settleRows_spec (s : State) (sel : RowEntry → Bool) (oks : List Bool) :
    s.Started (s.settleRows sel oks) ∧ s.regsBut (s.settleRows sel oks) [R.cpRecord] := by
  unfold State.settleRows
  split
  · exact ⟨.changeRecord s _, (s.changeRecord_spec _).2⟩
  · exact ⟨.refl s, fun _ _ => rfl⟩

theorem State.useRecord_started (s : State) : s.Started s.useRecord := by
  unfold State.useRecord
  split
  next copy r _ => exact ((((State.Started.refl s).withBit _ _ _).withBit _ _ _).withBit _ _ _).withReg _ _
  next =>
    have h := (((State.Started.refl s).withBit R.cpRecord 31 false).withBit R.cpRecord 30 true).withBit R.cpRecord 28 false
    exact h.trans ⟨_, _, _, _, _, _, rfl⟩

/-- The registers that a restore sets before the image. -/
def State.restoreRegs (s : State) : State :=
  let s1 := (List.range 68).foldl (fun u e => u.setReg (R.engStatus e) (engineWord s.record e)) s
  let s2 := (s1.setReg R.cxCompActive (BitVec.ofNat 32 (activeUnits s.record.compRetired))).setReg R.cxExpActive
    (BitVec.ofNat 32 (activeUnits s.record.expRetired))
  let s3 := (List.range 32).foldl (fun u p => u.setReg (R.feLaneStatus p) (BitVec.ofNat 32 (laneWord s.record p))) s2
  let s4 := s3.setReg R.tbSiteMap (BitVec.ofNat 32 (((List.range 8).map (fun m => s.record.siteMap.getD m 0xF * 16 ^ m)).sum))
  s4.setBit R.mqState 29 (decide (s.record.pair % 2 = 1))

theorem State.restore_eq (s : State) (image : Bool) : s.restore image =
    { s.restoreRegs.setBit R.mqState 28 image with compRetired := s.record.compRetired, expRetired := s.record.expRetired } := rfl

theorem State.restoreRegs_started (s : State) : s.Started s.restoreRegs := by
  unfold State.restoreRegs
  have hengines := State.Started.foldl (f := fun u e => u.setReg (R.engStatus e) (engineWord s.record e)) (fun u e => .setReg u _ _) s (List.range 68)
  have hunits := (hengines.withReg R.cxCompActive (BitVec.ofNat 32 (activeUnits s.record.compRetired))).withReg R.cxExpActive
    (BitVec.ofNat 32 (activeUnits s.record.expRetired))
  have hlanes := hunits.trans (State.Started.foldl (f := fun u p => u.setReg (R.feLaneStatus p) (BitVec.ofNat 32 (laneWord s.record p)))
    (fun u p => .setReg u _ _) _ (List.range 32))
  exact (hlanes.withReg _ _).withBit _ _ _

theorem State.runningImage_congr {s t : State} (h : t.regs = s.regs) : t.runningImage = s.runningImage := by
  unfold State.runningImage State.bit State.fld State.reg
  rw [h]

theorem State.restore_spec (s : State) (image : Bool) : s.Started (s.restore image) ∧ (s.restore image).runningImage = image := by
  rw [s.restore_eq]
  have h := s.restoreRegs_started
  generalize s.restoreRegs = u at h ⊢
  have hbit := u.bit_setBit_self R.mqState 28 image (by decide)
  have hset := State.Started.setBit u R.mqState 28 image
  generalize u.setBit R.mqState 28 image = v at hbit hset ⊢
  refine ⟨(h.trans hset).trans ⟨_, _, _, _, _, _, rfl⟩, (State.runningImage_congr ?_).trans hbit⟩
  rfl

/-! The checks. -/

/-- The images whose signature fails are not there. -/
def State.imagesChecked (s : State) (r : BootResult) : State :=
  if r.imageBOk then (if r.imageAOk then s.useRecord else s.useRecord.setReg R.cpVersionA 0)
  else (if r.imageAOk then s.useRecord else s.useRecord.setReg R.cpVersionA 0).setReg R.cpVersionB 0

theorem State.imagesChecked_started (s : State) (r : BootResult) : s.Started (s.imagesChecked r) := by
  have ha : s.Started (if r.imageAOk then s.useRecord else s.useRecord.setReg R.cpVersionA 0) := by
    split
    · exact s.useRecord_started
    · exact s.useRecord_started.trans (.setReg _ _ _)
  unfold State.imagesChecked
  split
  · exact ha
  · exact ha.trans (.setReg _ _ _)

/-- The checks have their result: the stacks' word, and how start-up goes on. -/
def State.stacksChecked (s : State) (w : Word) (ids : List (List Byte)) : State :=
  let u := s.setReg R.stStatus w
  { u with stackIds := ids, startup := if u.bit R.stStatus 30 then .paused else .stopped }

theorem checksDone_of_checks (r : BootResult) {s : State} (h : s.startup = .checks) (hr : s.restoring = false) (hp : s.powered = true) :
    checksDone r s = match bootImage (s.bit R.cpBoot 0) r.imageAOk r.imageBOk with
      | none => { (((s.imagesChecked r).setBit R.pwStatus 28 true).setFld R.mqState 30 2 2) with startup := .stopped }
      | some image => (((s.imagesChecked r).restore image).settleRows (fun e => decide (e.kind = 0)) r.rowsApplied).stacksChecked
        (BitVec.ofNat 32 (stackWord r.stackChecks)) r.identities := by
  refine (if_neg ?_).trans ?_
  · rw [h, hr, hp]
    decide
  · cases bootImage (s.bit R.cpBoot 0) r.imageAOk r.imageBOk <;> rfl

/-- TIER_A_OK of the stacks' word. -/
theorem stackWord_ok (l : List StackCheck) :
    getField (BitVec.ofNat 32 (stackWord l)) 30 1 = boolBit ((List.range 8).all (fun n => decide ((l.getD n 0).val = 0))) := by
  have hlt (n : Nat) : (l.getD n 0).val < 4 := (l.getD n 0).isLt
  have hsum : ((List.range 8).map (fun n => (l.getD n 0).val * 4 ^ n)).sum < 2 ^ 30 := by
    simp only [List.range_succ, List.range_zero, List.nil_append, List.cons_append, List.map_cons, List.map_nil, List.sum_cons, List.sum_nil]
    have := hlt 0; have := hlt 1; have := hlt 2; have := hlt 3; have := hlt 4; have := hlt 5; have := hlt 6; have := hlt 7
    omega
  unfold stackWord
  generalize ((List.range 8).map (fun n => (l.getD n 0).val * 4 ^ n)).sum = x at hsum ⊢
  cases (List.range 8).all (fun n => decide ((l.getD n 0).val = 0)) with
  | true => simp only [getField, boolBit, BitVec.toNat_ofNat, if_true]; omega
  | false => simp only [getField, boolBit, BitVec.toNat_ofNat, if_false, Bool.false_eq_true]; omega

theorem State.stacksChecked_shape (s : State) (w : Word) (ids : List (List Byte)) :
    ∃ g p, s.stacksChecked w ids = { s with regs := g, stackIds := ids, startup := p } := ⟨_, _, rfl⟩

theorem State.stacksChecked_spec (s : State) (w : Word) (ids : List (List Byte)) :
    (s.stacksChecked w ids).reg R.stStatus = w ∧ (s.stacksChecked w ids).runningImage = s.runningImage ∧
    (s.stacksChecked w ids).startup = if getField w 30 1 = 1 then .paused else .stopped := by
  have hself := s.reg_setReg_self R.stStatus w
  have hne := s.reg_setReg_ne (o := R.mqState) (off := R.stStatus) w (by decide)
  unfold State.stacksChecked
  generalize s.setReg R.stStatus w = u at hself hne ⊢
  have hrun := State.bit_congr hne 28
  refine ⟨(State.reg_of_regs_eq ?_ _).trans hself, (State.runningImage_congr ?_).trans hrun, ?_⟩
  · rfl
  · rfl
  · dsimp only
    rw [State.bit_eq, hself]
    simp only [decide_eq_true_eq]

theorem checksDone_spec (r : BootResult) {s : State} (h : s.startup = .checks) (hr : s.restoring = false) (hp : s.powered = true) :
    (∀ image, bootImage (s.bit R.cpBoot 0) r.imageAOk r.imageBOk = some image →
      ∃ t, checksDone r s = t ∧ t.reg R.stStatus = BitVec.ofNat 32 (stackWord r.stackChecks) ∧ t.runningImage = image ∧
        t.stackIds = r.identities ∧ ((∀ n, n < 8 → (r.stackChecks.getD n 0).val = 0) → t.startup = .paused) ∧
        ((∃ n, n < 8 ∧ (r.stackChecks.getD n 0).val ≠ 0) → t.startup = .stopped) ∧ t.tasks = s.tasks ∧ s.sameMem t) ∧
    (bootImage (s.bit R.cpBoot 0) r.imageAOk r.imageBOk = none →
      ∃ t, checksDone r s = t ∧ t.bit R.pwStatus 28 = true ∧ t.startup = .stopped ∧ t.cpRuns = false ∧ t.tasks = s.tasks ∧ s.sameMem t) := by
  have hact := checksDone_of_checks r h hr hp
  have himg := s.imagesChecked_started r
  generalize s.imagesChecked r = u at hact himg
  refine ⟨fun image hi => ?_, fun hi => ?_⟩
  · rw [hi] at hact
    dsimp only at hact
    obtain ⟨hrest, hrun⟩ := u.restore_spec image
    generalize u.restore image = v at hact hrest hrun
    obtain ⟨hrows, hregs⟩ := v.settleRows_spec (fun e => decide (e.kind = 0)) r.rowsApplied
    generalize v.settleRows (fun e => decide (e.kind = 0)) r.rowsApplied = w at hact hrows hregs
    obtain ⟨htasks, hmem, -⟩ := (himg.trans (hrest.trans hrows)).keeps
    obtain ⟨h1, h2, h3⟩ := w.stacksChecked_spec (BitVec.ofNat 32 (stackWord r.stackChecks)) r.identities
    obtain ⟨g, p, hw⟩ := w.stacksChecked_shape (BitVec.ofNat 32 (stackWord r.stackChecks)) r.identities
    rw [stackWord_ok] at h3
    generalize BitVec.ofNat 32 (stackWord r.stackChecks) = word at hact h1 h2 h3 hw
    refine ⟨_, hact, h1, h2.trans ((State.bit_congr (hregs _ (by decide)) 28).trans hrun), ?_, fun hall => ?_, fun ⟨n, hn, hbad⟩ => ?_, ?_, fun x => ?_⟩
    · rw [hw]
    · rw [List.all_eq_true.mpr fun n hn => decide_eq_true (hall n (List.mem_range.mp hn))] at h3
      exact h3
    · refine h3.trans (if_neg fun hone => hbad ?_)
      cases hall : (List.range 8).all (fun n => decide ((r.stackChecks.getD n 0).val = 0)) with
      | true => exact of_decide_eq_true (List.all_eq_true.mp hall n (List.mem_range.mpr hn))
      | false => rw [hall] at hone; exact absurd hone (by decide)
    · rw [hw]
      exact htasks
    · rw [hw]
      exact hmem x
  · rw [hi] at hact
    dsimp only at hact
    have hbit := u.bit_setBit_self R.pwStatus 28 true (by decide)
    have hset := State.Started.setBit u R.pwStatus 28 true
    generalize u.setBit R.pwStatus 28 true = v at hact hbit hset
    have hfld := v.fld_setFld_self R.mqState 30 2 2 (by decide)
    have hne := v.reg_setFld_ne (o := R.pwStatus) (off := R.mqState) 30 2 2 (by decide)
    have hset' := State.Started.setFld v R.mqState 30 2 2
    generalize v.setFld R.mqState 30 2 2 = w at hact hfld hne hset'
    obtain ⟨htasks, hmem, -⟩ := (himg.trans (hset.trans hset')).keeps
    refine ⟨_, hact, (State.bit_congr (s := v) hne 28).trans hbit, rfl, ?_, htasks, hmem⟩
    show decide (w.fld R.mqState 30 2 ≠ 2) = false
    rw [hfld]
    decide

end Sys2Proof.Machine
end

section
/-!
### The release of the pads and of the core hold, and tier B's return to service (R381, R384, R390)
-/
namespace Sys2Proof.Machine

/-! PAD_RELEASE and the core hold. -/

theorem padRelease_of_takesWrite {s : State} {src : Requester} (h : s.takesWrite src R.padRelease) (v : Word) :
    exec (.padRelease src v) s = .next (releasePads v s) := by
  refine (if_neg ?_).trans (State.regWrite_of_takesWrite h v _)
  rw [h.1]
  exact fun hb => Bool.noConfusion hb.1

theorem releasePads_of_held {v : Word} {s : State} (hv : getField v 0 1 = 1) (hp : s.bit R.pwStatus 31 = true) (hb : s.below = false)
    (hs : s.startup ≠ .checks) : releasePads v s = match s.startup with
      | .paused => { s.setBit R.pwStatus 31 false with startup := .continuing, padAt := s.cycle }
      | .done => { s.setBit R.pwStatus 31 false with padExit := true, padAt := s.cycle }
      | _ => s.setBit R.pwStatus 31 false := by
  refine if_neg ?_
  rw [hv, hp, hb]
  simp [hs]

theorem releasePads_of_not_held {v : Word} {s : State} (h : getField v 0 1 = 0 ∨ s.bit R.pwStatus 31 = false ∨ s.startup = .checks) :
    releasePads v s = s := by
  refine if_pos ?_
  obtain h | h | h := h
  · exact .inl h
  · exact .inr (.inl (by rw [h]; rfl))
  · exact .inr (.inr (.inl h))

/-- The pads are released: their bit, and what goes on from there. -/
theorem padsReleased_spec (s : State) : (s.setBit R.pwStatus 31 false).bit R.pwStatus 31 = false ∧
    s.setsRegs (s.setBit R.pwStatus 31 false) [R.pwStatus] :=
  ⟨s.bit_setBit_self _ 31 _ (by decide), s.setsRegs_setBit _ _ _⟩

theorem releasePads_of_paused {v : Word} {s : State} (hv : getField v 0 1 = 1) (hp : s.bit R.pwStatus 31 = true) (hb : s.below = false)
    (hs : s.startup = .paused) : ∃ t, releasePads v s = t ∧ t.bit R.pwStatus 31 = false ∧
      t = { s with regs := t.regs, startup := .continuing, padAt := s.cycle } ∧ s.regsBut t [R.pwStatus] := by
  have hact := releasePads_of_held hv hp hb (by rw [hs]; decide)
  rw [hs] at hact
  dsimp only at hact
  obtain ⟨hbit, ⟨g, hg⟩, hregs⟩ := padsReleased_spec s
  generalize s.setBit R.pwStatus 31 false = u at hact hbit hg hregs
  have hreg : ∀ o, ({ u with startup := .continuing, padAt := s.cycle } : State).reg o = u.reg o := State.reg_of_regs_eq rfl
  exact ⟨_, hact, (State.bit_congr (hreg _) 31).trans hbit, by rw [hg], fun o ho => (hreg o).trans (hregs o ho)⟩

theorem releasePads_of_done {v : Word} {s : State} (hv : getField v 0 1 = 1) (hp : s.bit R.pwStatus 31 = true) (hb : s.below = false)
    (hs : s.startup = .done) : ∃ t, releasePads v s = t ∧ t.bit R.pwStatus 31 = false ∧
      t = { s with regs := t.regs, padExit := true, padAt := s.cycle } ∧ s.regsBut t [R.pwStatus] := by
  have hact := releasePads_of_held hv hp hb (by rw [hs]; decide)
  rw [hs] at hact
  dsimp only at hact
  obtain ⟨hbit, ⟨g, hg⟩, hregs⟩ := padsReleased_spec s
  generalize s.setBit R.pwStatus 31 false = u at hact hbit hg hregs
  have hreg : ∀ o, ({ u with padExit := true, padAt := s.cycle } : State).reg o = u.reg o := State.reg_of_regs_eq rfl
  exact ⟨_, hact, (State.bit_congr (hreg _) 31).trans hbit, by rw [hg], fun o ho => (hreg o).trans (hregs o ho)⟩

theorem padRelease_below {s : State} (hb : s.below = true) (src : Requester) (v : Word) :
    (src ≠ .host → exec (.padRelease src v) s = .next s) ∧
      (src = .host → exec (.padRelease src v) s = .next (s.hold (.reg .host R.padRelease (leBytes 4 v.toNat)))) := by
  refine ⟨fun h => if_pos ⟨hb, h⟩, fun h => ?_⟩
  subst h
  refine (if_neg fun h => h.2 rfl).trans (congrArg Host.Outcome.next ?_)
  exact if_pos hb

theorem releaseCores_spec (v : Word) (s : State) :
    (getField v 0 1 = 1 → s.bit R.pwStatus 29 = true → ∃ t, releaseCores v s = t ∧ t.bit R.pwCoreHold 31 = false ∧
      s.onlyRegs t [R.pwCoreHold]) ∧
    ((getField v 0 1 = 0 ∨ s.bit R.pwStatus 29 = false) → releaseCores v s = s) := by
  refine ⟨fun hv hr => ⟨_, if_pos ⟨hv, hr⟩, s.bit_setBit_self _ 31 _ (by decide), (s.setsRegs_setBit _ _ _).onlyRegs⟩, fun h => if_neg ?_⟩
  rintro ⟨hv, hr⟩
  obtain h | h := h
  · rw [hv] at h
    exact absurd h (by decide)
  · rw [hr] at h
    exact Bool.noConfusion h

/-! Tier B serves again. -/

/-- What the endpoints that serve their waiting requests leave alone. -/
theorem State.serveEndpoints_spec (s : State) :
    (∃ g x o f, s.serveEndpoints = { s with regs := g, rx := x, out := o, fabricHeld := f }) ∧
    ∀ o, (o < R.rxTail 0 ∨ R.rxTail 256 ≤ o) → s.serveEndpoints.reg o = s.reg o := by
  unfold State.serveEndpoints
  refine List.foldlRecOn (motive := fun u : State => (∃ g x o f, u = { s with regs := g, rx := x, out := o, fabricHeld := f }) ∧
    ∀ o, (o < R.rxTail 0 ∨ R.rxTail 256 ≤ o) → u.reg o = s.reg o) _ _ ⟨⟨_, _, _, _, rfl⟩, fun _ _ => rfl⟩ fun u hu r hr => ?_
  obtain ⟨⟨g, x, o, f, hs⟩, hregs⟩ := hu
  have hlt := List.mem_range.mp hr
  have hserved := u.serveWaiting_grants hlt
  refine ⟨⟨_, _, _, _, hserved.frame.trans (by rw [hs])⟩, fun o ho => (hserved.reg ?_).trans (hregs o ho)⟩
  unfold R.rxTail at ho ⊢
  omega

theorem State.bit_foldl_clearBit (off : Nat → Nat) {i : Nat} (hi : i < 32) (l : List Nat) (s : State) {n : Nat}
    (h : n ∈ l ∨ s.bit (off n) i = false) : (l.foldl (fun u k => u.setBit (off k) i false) s).bit (off n) i = false := by
  induction l generalizing s with
  | nil => exact h.resolve_left List.not_mem_nil
  | cons k l ih =>
    refine ih _ ?_
    by_cases he : off n = off k
    · exact .inr (by rw [he]; exact s.bit_setBit_self _ i _ hi)
    · refine h.imp (fun hm => (List.mem_cons.mp hm).resolve_left (fun hk => he (congrArg off hk))) fun hb => ?_
      exact (State.bit_congr (s.reg_setBit_ne i false he) i).trans hb

theorem State.leaveSelfRefresh_fold (l : List Nat) (s : State) (b : Nat) :
    (l.foldl (fun u b => u.setBit (R.tbSiteStatus b) 28 (decide (u.siteState b = 2))) s).siteState b = s.siteState b ∧
    ((b ∈ l ∨ s.bit (R.tbSiteStatus b) 28 = decide (s.siteState b = 2)) →
      (l.foldl (fun u b => u.setBit (R.tbSiteStatus b) 28 (decide (u.siteState b = 2))) s).bit (R.tbSiteStatus b) 28 =
        decide (s.siteState b = 2)) := by
  induction l generalizing s with
  | nil => exact ⟨rfl, fun h => h.resolve_left List.not_mem_nil⟩
  | cons k l ih =>
    rw [List.foldl_cons]
    have hstate : (s.setBit (R.tbSiteStatus k) 28 (decide (s.siteState k = 2))).siteState b = s.siteState b := by
      by_cases he : R.tbSiteStatus b = R.tbSiteStatus k
      · unfold State.siteState
        rw [he]
        exact s.fld_setBit_other _ 28 29 3 _ (by decide)
      · exact State.fld_congr (s.reg_setBit_ne 28 _ he) 29 3
    have hbit : (b ∈ k :: l ∨ s.bit (R.tbSiteStatus b) 28 = decide (s.siteState b = 2)) →
        b ∈ l ∨ (s.setBit (R.tbSiteStatus k) 28 (decide (s.siteState k = 2))).bit (R.tbSiteStatus b) 28 = decide (s.siteState b = 2) := by
      intro h
      by_cases he : b = k
      · subst he
        exact .inr (s.bit_setBit_self _ 28 _ (by decide))
      · refine h.imp (fun hm => (List.mem_cons.mp hm).resolve_left he) fun hb => ?_
        exact (State.bit_congr (s.reg_setBit_ne 28 _ (tbSiteStatus_ne he)) 28).trans hb
    generalize s.setBit (R.tbSiteStatus k) 28 (decide (s.siteState k = 2)) = u at hstate hbit ⊢
    obtain ⟨h1, h2⟩ := ih u
    rw [hstate] at h1 h2
    exact ⟨h1, fun h => h2 (hbit h)⟩

theorem State.leaveSelfRefresh_started (s : State) : s.Started s.leaveSelfRefresh :=
  .foldl (fun u _ => .setBit u _ _ _) s _

/-- The state in which tier B serves, before what has waited for it goes on. -/
def State.tierBReady (s : State) : State := s.setBit R.pwStatus 30 true

theorem State.tierBServes_eq (s : State) :
    s.tierBServes = (s.tierBReady.padWait.foldl State.replay { s.tierBReady with padWait := [] }).serveEndpoints := rfl

theorem State.tierBReady_spec (s : State) : s.setsRegs s.tierBReady [R.pwStatus] ∧ s.tierBReady.tbReady = true ∧
    s.tierBReady.bit R.pwStatus 29 = s.bit R.pwStatus 29 :=
  ⟨s.setsRegs_setBit _ _ _, s.bit_setBit_self _ 30 _ (by decide), s.bit_setBit_other _ (i := 30) (j := 29) _ (by decide)⟩

/-- Where nothing has waited, tier B's return changes no more than what the endpoints grant. -/
theorem State.tierBServes_of_none {s : State} (h : s.padWait = []) : (∃ g x o f, s.tierBServes =
      { s with regs := g, rx := x, out := o, fabricHeld := f }) ∧ s.tierBServes.tbReady = true ∧
    s.tierBServes.bit R.pwStatus 29 = s.bit R.pwStatus 29 ∧ ∀ n, s.tierBServes.retryService n = s.retryService n := by
  obtain ⟨⟨⟨g, hg⟩, hregs⟩, hready, h29⟩ := s.tierBReady_spec
  rw [s.tierBServes_eq]
  generalize s.tierBReady = u at hg hregs hready h29 ⊢
  have hp : u.padWait = [] := by rw [hg]; exact h
  have hu : ({ u with padWait := [] } : State) = u := by rw [hg, h]
  rw [hp, List.foldl_nil, hu]
  obtain ⟨⟨g', x, o, f, hs⟩, hlow⟩ := u.serveEndpoints_spec
  generalize u.serveEndpoints = t at hs hlow ⊢
  have hpw : t.reg R.pwStatus = u.reg R.pwStatus := hlow _ (.inl (by decide))
  refine ⟨⟨g', x, o, f, by rw [hs, hg]⟩, (State.bit_congr hpw 30).trans hready, (State.bit_congr hpw 29).trans h29, fun n => ?_⟩
  have harb : R.rxTail 256 ≤ R.arbCtl n := by
    unfold R.rxTail R.arbCtl
    omega
  refine State.bit_congr ((hlow _ (.inr harb)).trans (hregs _ ?_)) 31
  simp only [List.mem_singleton, R.arbCtl, R.pwStatus]
  omega

end Sys2Proof.Machine
end

section
/-!
### The end of the continuation, entry into low power, and wake (R384 to R392)
-/
namespace Sys2Proof.Machine

/-! The continuation. -/

theorem State.Started.ite {s t u : State} {p : Prop} [Decidable p] (ht : s.Started t) (hu : s.Started u) : s.Started (if p then t else u) := by
  split
  · exact ht
  · exact hu

theorem State.siteFails_started (s : State) (b check : Nat) : s.Started (s.siteFails b check) :=
  (State.Started.setFld s _ _ _ _).trans (.setFld _ _ _ _ _)

theorem State.trainSites_started (s : State) (trained : List Bool) : s.Started (s.trainSites trained) :=
  .foldl (fun u b => .ite (.refl u) (u.siteFails_started b 6)) s _

theorem State.reviveSites_started (s : State) : s.Started s.reviveSites :=
  .foldl (fun u _ => .ite ((State.Started.setFld u _ _ _ _).trans (.changeRecord _ _)) (.refl u)) s _

theorem State.bindKept_started (s : State) : s.Started s.bindKept :=
  .foldl (fun u _ => .ite (.setFld u _ _ _ _) (.refl u)) s _

theorem State.bindCold_started (s : State) : s.Started s.bindCold := by
  refine .foldl (fun u m => .ite ?_ (.refl u)) s _
  split
  · exact (State.Started.setFld u _ _ _ _).trans (.setFld _ _ _ _ _)
  · exact .setFld u _ _ _ _

/-- The sites are trained and bound, on a start from Off or after a self-reset. -/
def State.sitesBound (s : State) (trained rows : List Bool) : State :=
  if s.coldStart then ((s.trainSites trained).settleRows (s.trainSites trained).rowApplies rows).reviveSites.bindCold else s.bindKept

theorem State.sitesBound_started (s : State) (trained rows : List Bool) : s.Started (s.sitesBound trained rows) := by
  have hrows := (s.trainSites trained).settleRows_spec (s.trainSites trained).rowApplies rows
  exact .ite (((s.trainSites_started trained).trans (hrows.1.trans (State.reviveSites_started _))).trans (State.bindCold_started _))
    s.bindKept_started

/-- Every port is out of retry service. -/
def State.portsServe (s : State) : State := (List.range 48).foldl (fun u n => u.setBit (R.arbCtl n) 31 false) s

theorem State.portsServe_spec (s : State) : s.Started s.portsServe ∧ ∀ n, n < 48 → s.portsServe.retryService n = false :=
  ⟨.foldl (fun u _ => .setBit u _ _ _) s _, fun _ hn => s.bit_foldl_clearBit R.arbCtl (by decide) _ (.inl (List.mem_range.mpr hn))⟩

/-- Start-up has ended: READY is set. -/
def State.startupEnded (s : State) : State := ({ s with startup := .done, coldStart := false } : State).setBit R.pwStatus 29 true

theorem State.startupEnded_spec (s : State) : (∃ g, s.startupEnded = { s with regs := g, startup := .done, coldStart := false }) ∧
    s.startupEnded.bit R.pwStatus 29 = true ∧ ∀ o, o ≠ R.pwStatus → s.startupEnded.reg o = s.reg o := by
  have hreg : ∀ o, ({ s with startup := .done, coldStart := false } : State).reg o = s.reg o := State.reg_of_regs_eq rfl
  unfold State.startupEnded
  generalize hu : ({ s with startup := .done, coldStart := false } : State) = u at hreg ⊢
  obtain ⟨g, hg⟩ := (u.setsRegs_setBit R.pwStatus 29 true).1
  refine ⟨⟨g, by rw [hg, ← hu]⟩, u.bit_setBit_self _ 29 _ (by decide), fun o ho => (u.reg_setBit_ne 29 true ho).trans (hreg o)⟩

theorem continuationDone_eq (trained rows : List Bool) (s : State) : continuationDone trained rows s =
    if s.startup ≠ .continuing ∨ (! s.coldStart ∧ s.cycle < s.padAt + 2 * cyclesPerUs) then s
    else (s.sitesBound trained rows).leaveSelfRefresh.portsServe.startupEnded.tierBServes := rfl

theorem continuationDone_spec (trained rows : List Bool) {s : State} (h : s.startup = .continuing)
    (hc : s.coldStart = true ∨ s.padAt + 3200 ≤ s.cycle) : ∃ u t : State, continuationDone trained rows s = t ∧ u.startup = .done ∧
      u.coldStart = false ∧ u.tbReady = true ∧ u.bit R.pwStatus 29 = true ∧ (∀ n, n < 48 → u.retryService n = false) ∧
      u.padWait = s.padWait ∧ t = (u.padWait.foldl State.replay { u with padWait := [] }).serveEndpoints ∧
      (s.padWait = [] → t.startup = .done ∧ t.coldStart = false ∧ t.tbReady = true ∧ t.bit R.pwStatus 29 = true ∧
        ∀ n, n < 48 → t.retryService n = false) := by
  have hact := (continuationDone_eq trained rows s).trans (if_neg (by
    rintro (hn | ⟨hn, hlt⟩)
    · exact hn h
    · obtain hc | hc := hc
      · rw [hc] at hn
        exact Bool.noConfusion hn
      · unfold cyclesPerUs at hlt
        omega))
  have hstart := (s.sitesBound_started trained rows).trans (State.leaveSelfRefresh_started _)
  generalize (s.sitesBound trained rows).leaveSelfRefresh = a at hact hstart
  obtain ⟨hports, hretry⟩ := a.portsServe_spec
  obtain ⟨-, -, hwait⟩ := (hstart.trans hports).keeps
  generalize a.portsServe = b at hact hretry hwait
  obtain ⟨⟨g, hg⟩, h29, hregs⟩ := b.startupEnded_spec
  have harb : ∀ n, b.startupEnded.retryService n = b.retryService n := fun n => by
    refine State.bit_congr (hregs _ ?_) 31
    unfold R.arbCtl R.pwStatus
    omega
  have hdone : b.startupEnded.startup = .done ∧ b.startupEnded.coldStart = false ∧ b.startupEnded.padWait = s.padWait := by
    rw [hg]
    exact ⟨rfl, rfl, hwait⟩
  generalize b.startupEnded = v at hact h29 harb hdone
  obtain ⟨hd, hcold, hpw⟩ := hdone
  obtain ⟨⟨⟨g', hg'⟩, hregs'⟩, hready, h29'⟩ := v.tierBReady_spec
  have hu : v.tierBReady.startup = .done ∧ v.tierBReady.coldStart = false ∧ v.tierBReady.padWait = s.padWait := by
    rw [hg']
    exact ⟨hd, hcold, hpw⟩
  obtain ⟨hu1, hu2, hu3⟩ := hu
  refine ⟨v.tierBReady, _, hact, hu1, hu2, hready, h29'.trans h29, fun n hn => ?_, hu3, v.tierBServes_eq, fun hnone => ?_⟩
  · refine (State.bit_congr (hregs' _ ?_) 31).trans ((harb n).trans (hretry n hn))
    simp only [List.mem_singleton, R.arbCtl, R.pwStatus]
    omega
  · obtain ⟨⟨g2, x, o, f, hs⟩, k1, k2, k3⟩ := State.tierBServes_of_none (hpw.trans hnone)
    refine ⟨?_, ?_, k1, k2.trans h29, fun n hn => (k3 n).trans ((harb n).trans (hretry n hn))⟩
    · rw [hs]
      exact hd
    · rw [hs]
      exact hcold

theorem continuationDone_of_not {trained rows : List Bool} {s : State}
    (h : s.startup ≠ .continuing ∨ (s.coldStart = false ∧ s.cycle < s.padAt + 3200)) : continuationDone trained rows s = s := by
  refine (continuationDone_eq trained rows s).trans (if_pos (h.imp_right fun hc => ⟨?_, hc.2⟩))
  rw [hc.1]
  rfl

theorem selfRefreshExit_spec {s : State} (h : s.padExit = true) (hc : s.padAt + 3200 ≤ s.cycle) : ∃ u t : State, selfRefreshExit s = t ∧
    u.padExit = false ∧ u.tbReady = true ∧ (∀ b, b < 9 → u.bit (R.tbSiteStatus b) 28 = decide (s.siteState b = 2)) ∧
    u.padWait = s.padWait ∧ t = (u.padWait.foldl State.replay { u with padWait := [] }).serveEndpoints ∧
    (s.padWait = [] → t.padExit = false ∧ t.tbReady = true) := by
  have hact : selfRefreshExit s = ({ s with padExit := false } : State).leaveSelfRefresh.tierBServes := if_pos ⟨h, hc⟩
  have hstate : ∀ b, ({ s with padExit := false } : State).siteState b = s.siteState b := fun b => State.fld_congr (State.reg_of_regs_eq rfl _) 29 3
  generalize hs : ({ s with padExit := false } : State) = a at hact hstate
  have hbits (b : Nat) (hb : b < 9) : a.leaveSelfRefresh.bit (R.tbSiteStatus b) 28 = decide (s.siteState b = 2) := by
    rw [← hstate]
    exact (State.leaveSelfRefresh_fold _ a b).2 (.inl (List.mem_range.mpr hb))
  have hkeep : a.leaveSelfRefresh.padExit = false ∧ a.leaveSelfRefresh.padWait = s.padWait := by
    obtain ⟨_, _, _, _, _, _, hg⟩ := a.leaveSelfRefresh_started
    rw [hg, ← hs]
    exact ⟨rfl, rfl⟩
  generalize a.leaveSelfRefresh = v at hact hbits hkeep
  obtain ⟨hex, hpw⟩ := hkeep
  obtain ⟨⟨⟨g', hg'⟩, hregs'⟩, hready, -⟩ := v.tierBReady_spec
  have hu : v.tierBReady.padExit = false ∧ v.tierBReady.padWait = s.padWait := by
    rw [hg']
    exact ⟨hex, hpw⟩
  refine ⟨v.tierBReady, _, hact, hu.1, hready, fun b hb => ?_, hu.2, v.tierBServes_eq, fun hnone => ?_⟩
  · refine (State.bit_congr (hregs' _ ?_) 28).trans (hbits b hb)
    simp only [List.mem_singleton, R.tbSiteStatus, R.pwStatus]
    omega
  · obtain ⟨⟨g2, x, o, f, ht⟩, k1, -⟩ := State.tierBServes_of_none (hpw.trans hnone)
    refine ⟨?_, k1⟩
    rw [ht]
    exact hex

theorem selfRefreshExit_of_not {s : State} (h : s.padExit = false ∨ s.cycle < s.padAt + 3200) : selfRefreshExit s = s := by
  refine if_neg ?_
  rintro ⟨hp, hc⟩
  unfold cyclesPerUs at hc
  obtain h | h := h
  · rw [hp] at h
    exact Bool.noConfusion h
  · omega

/-! Idle. -/

theorem State.power_active_of_not_below {s : State} (h : s.below = false) : s.power = .active ∧ s.entering = none ∧ s.waking = none := by
  unfold State.below at h
  simpa [and_assoc] using h

theorem State.beginEntry_idleGated (s : State) : s.beginEntry .idleGated = { s with
    entering := some .idleGated, powerAt := s.cycle, idleCycles := 0, mq := { s.mq with powerTo := none } } := rfl

theorem autoIdle_of_idle {s : State} (hcfg : s.bit R.pwCfg 31 = true) (hb : s.below = false) (hi : s.isIdle = true)
    (ht : s.fld R.pwCfg 0 16 * 1600 ≤ s.idleCycles) : autoIdle s = { s with
      entering := some .idleGated, powerAt := s.cycle, idleCycles := 0, mq := { s.mq with powerTo := none } } :=
  (if_pos ⟨hcfg, (State.power_active_of_not_below hb).1, by rw [hb]; rfl, hi, ht⟩).trans s.beginEntry_idleGated

theorem autoIdle_of_not {s : State} (h : s.bit R.pwCfg 31 = false ∨ s.below = true ∨ s.isIdle = false ∨
    s.idleCycles < s.fld R.pwCfg 0 16 * 1600) : autoIdle s = s := by
  refine if_neg ?_
  rintro ⟨hcfg, -, hb, hi, ht⟩
  unfold cyclesPerUs at ht
  obtain h | h | h | h := h
  · rw [hcfg] at h
    exact Bool.noConfusion h
  · rw [h] at hb
    exact Bool.noConfusion hb
  · rw [hi] at h
    exact Bool.noConfusion h
  · omega

end Sys2Proof.Machine
end

section
/-!
### Entry into low power, and wake (R385 to R389, R392)
-/
namespace Sys2Proof.Machine

/-! What an Off entry keeps. -/

theorem State.carry_shape (s old : State) (offs : List Nat) : ∃ g, s.carry old offs = { s with regs := g } :=
  State.foldl_regs_shape offs (fun u _ => u.setReg_shape _ _) s

theorem State.carry_reg (s old : State) (offs : List Nat) {o : Nat} (h : o ∈ offs ∨ s.reg o = old.reg o) : (s.carry old offs).reg o = old.reg o := by
  unfold State.carry
  induction offs generalizing s with
  | nil => exact h.resolve_left List.not_mem_nil
  | cons k l ih =>
    refine ih _ ?_
    by_cases he : o = k
    · subst he
      exact .inr (s.reg_setReg_self _ _)
    · exact h.imp (fun hm => (List.mem_cons.mp hm).resolve_left he) fun hr => (s.reg_setReg_ne _ he).trans hr

theorem State.cutRecord_freeCtr (s : State) : s.cutRecord.freeCtr = s.freeCtr := by
  unfold State.cutRecord State.putCopy
  split
  · rfl
  · split <;> rfl

/-- What a cold reset leaves. -/
theorem State.cold_spec (s : State) (kept : List Nat) : (s.cold kept).mem = [] ∧ (s.cold kept).memGen = s.freeCtr + 1 ∧
    (s.cold kept).tasks = [] ∧ (s.cold kept).entering = none ∧ (s.cold kept).waking = none ∧ (s.cold kept).cycle = s.cycle ∧
    ∀ o, o ∈ kept → o ≠ R.cpRecord → (s.cold kept).reg o = s.reg o := by
  have hfree := s.cutRecord_freeCtr
  unfold State.cold State.loseMemory
  generalize s.cutRecord = c at hfree ⊢
  dsimp only
  generalize hn : ({ State.reset with
    mem := (State.stepFree { c with mem := [], memGen := c.freeCtr + 1 }).mem,
    memGen := (State.stepFree { c with mem := [], memGen := c.freeCtr + 1 }).memGen,
    freeCtr := (State.stepFree { c with mem := [], memGen := c.freeCtr + 1 }).freeCtr,
    out := s.out, cycle := s.cycle, checksAt := s.cycle, pending := s.pending,
    flash0 := (State.stepFree { c with mem := [], memGen := c.freeCtr + 1 }).flash0,
    flash1 := (State.stepFree { c with mem := [], memGen := c.freeCtr + 1 }).flash1,
    record := (State.stepFree { c with mem := [], memGen := c.freeCtr + 1 }).startRecord,
    gtcHold := if kept.contains R.gtcLo then s.gtcHold else 0 } : State) = n
  have hfields : n.mem = [] ∧ n.memGen = s.freeCtr + 1 ∧ n.tasks = [] ∧ n.entering = none ∧ n.waking = none ∧ n.cycle = s.cycle := by
    rw [← hn, ← hfree]
    exact ⟨rfl, rfl, rfl, rfl, rfl, rfl⟩
  obtain ⟨h1, h2, h3, h4, h5, h6⟩ := hfields
  have hcarry : ∀ o, o ∈ kept → (n.carry s (imageRegs ++ kept)).reg o = s.reg o := fun o ho =>
    n.carry_reg s _ (.inl (List.mem_append_right _ ho))
  obtain ⟨g, hg⟩ := n.carry_shape s (imageRegs ++ kept)
  generalize n.carry s (imageRegs ++ kept) = u at hcarry hg ⊢
  have hreg : ∀ o, o ≠ R.cpRecord → (u.setBit R.cpRecord 27 false).reg o = u.reg o := fun o ho => u.reg_setBit_ne _ _ ho
  obtain ⟨g', hg'⟩ := (u.setsRegs_setBit R.cpRecord 27 false).1
  generalize u.setBit R.cpRecord 27 false = v at hreg hg' ⊢
  have hv : v = { n with regs := g' } := by rw [hg', hg]
  refine ⟨?_, ?_, ?_, ?_, ?_, ?_, fun o ho hne => (hreg o hne).trans (hcarry o ho)⟩
  all_goals rw [hv]
  · exact h1
  · exact h2
  · exact h3
  · exact h4
  · exact h5
  · exact h6

/-- The block in Off. -/
theorem State.offState_spec (s : State) (x : Option LatchedWake) : ∃ u, ({ s.offState with latchedWake := x } : State) = u ∧ u.power = .off ∧
    u.mem = [] ∧ u.memGen = s.freeCtr + 1 ∧ u.tasks = [] ∧ u.entering = none ∧ u.waking = none ∧ u.cycle = s.cycle ∧ u.gtc = s.gtc ∧
    u.latchedWake = x := by
  obtain ⟨h1, h2, h3, h4, h5, h6, hregs⟩ := s.cold_spec alwaysOnRegs
  have hlo := hregs R.gtcLo (by decide) (by decide)
  have hhi := hregs (R.gtcLo + 4) (by decide) (by decide)
  unfold State.offState
  generalize s.cold alwaysOnRegs = c at h1 h2 h3 h4 h5 h6 hlo hhi ⊢
  have hreg : ∀ o, o ≠ R.stStatus → (c.setReg R.stStatus 0).reg o = c.reg o := fun o ho => c.reg_setReg_ne _ ho
  obtain ⟨g, hg⟩ := c.setReg_shape R.stStatus 0
  generalize c.setReg R.stStatus 0 = v at hreg hg ⊢
  have hv : ∀ o, ({ v with power := .off, latchedWake := x } : State).reg o = v.reg o := State.reg_of_regs_eq rfl
  have hgtc : ({ v with power := .off, latchedWake := x } : State).reg64 R.gtcLo = s.reg64 R.gtcLo :=
    State.reg64_congr ((hv _).trans ((hreg _ (by decide)).trans hlo)) ((hv _).trans ((hreg _ (by decide)).trans hhi))
  have hfields : v.mem = [] ∧ v.memGen = s.freeCtr + 1 ∧ v.tasks = [] ∧ v.entering = none ∧ v.waking = none ∧ v.cycle = s.cycle := by
    rw [hg]
    exact ⟨h1, h2, h3, h4, h5, h6⟩
  obtain ⟨k1, k2, k3, k4, k5, k6⟩ := hfields
  exact ⟨_, rfl, rfl, k1, k2, k3, k4, k5, k6, hgtc, rfl⟩

/-! Wake. -/

theorem State.reg_startWake_ne (s : State) (w : LatchedWake) {o : Nat}
    (h : o ∉ [R.pwWake, R.pwWakeDetail, R.pwWakeTimeLo, R.pwWakeTimeLo + 4, R.rstCause]) : (s.startWake w).reg o = s.reg o := by
  simp only [List.mem_cons, List.not_mem_nil, or_false, not_or] at h
  obtain ⟨h1, h2, h3, h4, h5⟩ := h
  rw [State.startWake_eq]
  have hnoted : (s.wakeNoted w).reg o = s.reg o := by
    unfold State.wakeNoted
    rw [State.reg_noteSet', State.reg_setReg64_ne _ _ h3 h4, State.reg_setReg_ne _ _ h2, State.reg_setReg_ne _ _ h1]
  generalize s.wakeNoted w = u at hnoted ⊢
  have hcause : (if s.power = .off then u.hwSet R.rstCause 26 else u).reg o = u.reg o := by
    split
    · exact u.reg_hwSet_ne 26 h5
    · rfl
  generalize (if s.power = .off then u.hwSet R.rstCause 26 else u) = v at hcause ⊢
  exact (State.reg_of_regs_eq rfl o).trans (hcause.trans hnoted)

theorem State.foldl_hold (held : List HeldAccess) (s : State) : ∃ b, held.foldl State.hold s = { s with wakeBuf := b } ∧ s.wakeBuf <+: b :=
  List.foldlRecOn (motive := fun u : State => ∃ b, u = { s with wakeBuf := b } ∧ s.wakeBuf <+: b) held State.hold
    ⟨s.wakeBuf, rfl, List.prefix_refl _⟩ fun u ⟨b, hu, hb⟩ a _ => by
      unfold State.hold
      split
      · exact ⟨u.wakeBuf ++ [a], by rw [hu], by rw [hu]; exact hb.trans (List.prefix_append _ _)⟩
      · exact ⟨b, hu, hb⟩

theorem State.gtc_lt (s : State) : s.gtc < 2 ^ 64 := by
  have hlo := (s.reg R.gtcLo).isLt
  have hhi := (s.reg (R.gtcLo + 4)).isLt
  unfold State.gtc State.reg64
  omega

theorem State.gtc_startWake (s : State) (w : LatchedWake) : (s.startWake w).gtc = s.gtc :=
  State.reg64_congr (s.reg_startWake_ne w (by decide)) (s.reg_startWake_ne w (by decide))

/-! Entry completes. -/

/-- The state that an entry ends in, before a wake latched meanwhile starts. -/
def State.entered (s : State) (p : PState) : State :=
  if p = .off then { s.offState with latchedWake := s.latchedWake } else { s with entering := none, power := p }

theorem entryComplete_eq {s : State} {p : PState} (h : s.entering = some p) : entryComplete s =
    if ! s.linesDone ∨ s.cycle < s.powerAt + entryCycles p then s
    else match (s.entered p).latchedWake with
      | some w => (s.entered p).startWake w
      | none => s.entered p := by
  unfold entryComplete
  rw [h]
  rfl

theorem State.entered_of_ne_off (s : State) {p : PState} (h : p ≠ .off) : s.entered p = { s with entering := none, power := p } := if_neg h

theorem State.entered_off (s : State) : s.entered .off = { s.offState with latchedWake := s.latchedWake } := if_pos rfl

theorem entryComplete_off {s : State} (hp : s.entering = some .off) (hl : s.linesDone = true) (hc : s.powerAt + entryCycles .off ≤ s.cycle) :
    ∃ t, entryComplete s = t ∧ t.power = .off ∧ t.mem = [] ∧ t.memGen = s.freeCtr + 1 ∧ t.tasks = [] ∧ t.entering = none ∧ t.gtc = s.gtc ∧
      (s.latchedWake = none → t.waking = none) ∧
      ∀ w, s.latchedWake = some w → t.waking = some .off ∧ t.powerAt = s.cycle ∧ t.bit R.rstCause 26 = true := by
  have hact := (entryComplete_eq hp).trans (if_neg (by rw [hl]; simp only [Bool.not_true, Bool.false_eq_true, false_or]; omega))
  obtain ⟨u, hu, h1, h2, h3, h4, h5, h6, h7, h8, h9⟩ := s.offState_spec s.latchedWake
  rw [s.entered_off, hu, h9] at hact
  cases hw : s.latchedWake with
  | none =>
    rw [hw] at hact
    exact ⟨u, hact, h1, h2, h3, h4, h5, h8, fun _ => h6, fun w h => absurd h (by simp)⟩
  | some w =>
    rw [hw] at hact
    dsimp only at hact
    have hgtc := u.gtc_startWake w
    obtain ⟨t, ht, -, -, -, -, -, hcause, g, n, hs⟩ := u.startWake_spec w
    rw [ht] at hact hgtc
    have hcause := hcause h1
    refine ⟨t, hact, ?_, ?_, ?_, ?_, ?_, hgtc.trans h8, fun h => absurd h (by simp), fun _ _ => ⟨?_, ?_, hcause⟩⟩
    all_goals rw [hs]
    · exact h1
    · exact h2
    · exact h3
    · exact h4
    · exact h5
    · exact congrArg some h1
    · exact h7

theorem entryComplete_woken {s : State} {p : PState} {w : LatchedWake} (hp : s.entering = some p) (hl : s.linesDone = true)
    (hc : s.powerAt + entryCycles p ≤ s.cycle) (ho : p ≠ .off) (hw : s.latchedWake = some w) (ht : w.time < 2 ^ 64) :
    ∃ t, entryComplete s = t ∧ t.entering = none ∧ t.power = p ∧ t.waking = some p ∧ t.powerAt = s.cycle ∧ t.latchedWake = none ∧
      t.bit R.pwWake 31 = true ∧ t.fld R.pwWake 28 3 = (wakeCode w.source).1 ∧ t.fld R.pwWake 25 3 = powerNumber p ∧
      t.reg64 R.pwWakeTimeLo = w.time ∧ t.tasks = s.tasks ∧ s.sameMem t := by
  have hact := (entryComplete_eq hp).trans (if_neg (by rw [hl]; simp only [Bool.not_true, Bool.false_eq_true, false_or]; omega))
  rw [s.entered_of_ne_off ho] at hact
  generalize hu : ({ s with entering := none, power := p } : State) = u at hact
  have hfields : u.latchedWake = some w ∧ u.power = p ∧ u.entering = none ∧ u.cycle = s.cycle ∧ u.tasks = s.tasks ∧ s.sameMem u := by
    rw [← hu]
    exact ⟨hw, rfl, rfl, rfl, rfl, fun _ => rfl⟩
  obtain ⟨k1, k2, k3, k4, k5, k6⟩ := hfields
  rw [k1] at hact
  dsimp only at hact
  obtain ⟨t, htw, h1, h2, h3, -, h5, -, g, n, hs⟩ := u.startWake_spec w
  rw [htw] at hact
  rw [Nat.mod_eq_of_lt ht] at h5
  refine ⟨t, hact, ?_, ?_, ?_, ?_, ?_, h1, h2, h3.trans (congrArg powerNumber k2), h5, ?_, fun x => ?_⟩
  all_goals rw [hs]
  · exact k3
  · exact k2
  · exact congrArg some k2
  · exact k4
  · exact k5
  · exact k6 x

/-! A wake source is presented. -/

theorem wakeEvent_awake {s : State} (w : WakeSource) (held : List HeldAccess) (h : s.below = false ∨ s.powered = false) : wakeEvent w held s = s := by
  refine if_pos (h.elim (fun hb => .inr ?_) fun hp => .inl ?_)
  · rw [hb]
    rfl
  · rw [hp]
    rfl

theorem wakeEvent_of_below {s : State} {w : WakeSource} (held : List HeldAccess) (hp : s.powered = true) (hb : s.below = true)
    (h : s.entering.isSome = true ∨ s.waking.isSome = true ∨ wakes s.power w = true) :
    wakeEvent w held s = (held.foldl State.hold s).wakeBy w :=
  (if_neg (by rw [hp, hb]; decide)).trans (if_pos h)

theorem State.wakeBy_of_asleep {s : State} {w : WakeSource} (he : s.entering = none) (hk : s.waking = none) (hw : wakes s.power w = true) :
    s.wakeBy w = s.startWake { source := w, at_ := s.cycle, time := s.gtc } := by
  unfold State.wakeBy
  rw [he, hk, hw]
  rfl

theorem State.wakeBy_of_entering {s : State} {w : WakeSource} {p : PState} (he : s.entering = some p) (hw : wakes p w = true)
    (hl : s.latchedWake = none) : s.wakeBy w = { s with latchedWake := some { source := w, at_ := s.cycle, time := s.gtc } } := by
  unfold State.wakeBy
  rw [he]
  dsimp only
  rw [hl, hw]
  rfl

theorem State.wakeBy_of_waking {s : State} (w : WakeSource) (he : s.entering = none) (hk : s.waking.isSome = true)
    (hseen : s.wakeSeen ≠ s.cycle) : s.wakeBy w = s := by
  have hrep (n : Nat) : replacesWake s.wakeSeen n s.cycle w = false := by
    unfold replacesWake
    rw [decide_eq_false hseen, Bool.false_and]
  have hnone : s.waking.isNone = false := by
    obtain ⟨q, hq⟩ := Option.isSome_iff_exists.mp hk
    rw [hq]
    rfl
  unfold State.wakeBy
  rw [he]
  dsimp only
  rw [hrep, hnone]
  simp

/-- The counter of a state with other held accesses. -/
theorem State.gtc_wakeBuf (s : State) (b : List HeldAccess) : ({ s with wakeBuf := b } : State).gtc = s.gtc :=
  State.reg64_congr (State.reg_of_regs_eq rfl _) (State.reg_of_regs_eq rfl _)

theorem wakeEvent_asleep {s : State} {w : WakeSource} (held : List HeldAccess) (hp : s.powered = true) (ha : s.power ≠ .active)
    (he : s.entering = none) (hk : s.waking = none) (hw : wakes s.power w = true) :
    ∃ t, wakeEvent w held s = t ∧ t.waking = some s.power ∧ t.powerAt = s.cycle ∧ t.bit R.pwWake 31 = true ∧
      t.fld R.pwWake 28 3 = (wakeCode w).1 ∧ t.fld R.pwWake 25 3 = powerNumber s.power ∧ t.reg64 R.pwWakeTimeLo = s.gtc ∧
      t.reg R.pwWakeDetail = BitVec.ofNat 32 (wakeCode w).2 ∧ (s.power = .off → t.bit R.rstCause 26 = true) ∧
      s.wakeBuf <+: t.wakeBuf ∧ t.tasks = s.tasks ∧ s.sameMem t := by
  have hb : s.below = true := by
    unfold State.below
    rw [decide_eq_true ha]
    rfl
  have hact := wakeEvent_of_below held hp hb (.inr (.inr hw))
  obtain ⟨b, hu, hbuf⟩ := s.foldl_hold held
  rw [hu] at hact
  rw [State.wakeBy_of_asleep (s := { s with wakeBuf := b }) he hk hw, s.gtc_wakeBuf] at hact
  obtain ⟨t, ht, h1, h2, h3, h4, h5, h6, g, n, hs⟩ := ({ s with wakeBuf := b } : State).startWake_spec { source := w, at_ := s.cycle, time := s.gtc }
  rw [ht] at hact
  rw [Nat.mod_eq_of_lt s.gtc_lt] at h5
  refine ⟨t, hact, ?_, ?_, h1, h2, h3, h5, h4, h6, ?_, ?_, fun x => ?_⟩
  all_goals rw [hs]
  · exact hbuf
  · rfl

theorem wakeEvent_entering {s : State} {w : WakeSource} {p : PState} (held : List HeldAccess) (hp : s.powered = true)
    (he : s.entering = some p) (hw : wakes p w = true) (hl : s.latchedWake = none) : ∃ t, wakeEvent w held s = t ∧
      t = { s with wakeBuf := t.wakeBuf, latchedWake := some { source := w, at_ := s.cycle, time := s.gtc } } ∧ s.wakeBuf <+: t.wakeBuf := by
  have hb : s.below = true := by
    unfold State.below
    rw [he]
    simp
  have hact := wakeEvent_of_below (w := w) held hp hb (.inl (by rw [he]; rfl))
  obtain ⟨b, hu, hbuf⟩ := s.foldl_hold held
  rw [hu] at hact
  rw [State.wakeBy_of_entering (s := { s with wakeBuf := b }) he hw hl, s.gtc_wakeBuf] at hact
  exact ⟨_, hact, rfl, hbuf⟩

theorem wakeEvent_waking {s : State} {w : WakeSource} (held : List HeldAccess) (hp : s.powered = true) (he : s.entering = none)
    (hk : s.waking.isSome = true) (hseen : s.wakeSeen ≠ s.cycle) : ∃ t, wakeEvent w held s = t ∧ t = { s with wakeBuf := t.wakeBuf } ∧
      s.wakeBuf <+: t.wakeBuf := by
  have hb : s.below = true := by
    unfold State.below
    rw [hk]
    simp
  have hact := wakeEvent_of_below (w := w) held hp hb (.inr (.inl hk))
  obtain ⟨b, hu, hbuf⟩ := s.foldl_hold held
  rw [hu] at hact
  rw [State.wakeBy_of_waking (s := { s with wakeBuf := b }) w he hk hseen] at hact
  exact ⟨_, hact, rfl, hbuf⟩

/-! The wake ends. -/

theorem wakeComplete_eq {s : State} {p : PState} (h : s.waking = some p) : wakeComplete s =
    if s.cycle < s.powerAt + wakeDelay p then s
    else (s.wakeBuf.foldl State.forward { s with waking := none, power := .active, idleCycles := 0, wakeBuf := [] }).serveEndpoints := by
  unfold wakeComplete
  rw [h]

theorem wakeComplete_of_none_held {s : State} {p : PState} (h : s.waking = some p) (hc : s.powerAt + wakeDelay p ≤ s.cycle) (hb : s.wakeBuf = []) :
    ∃ t, wakeComplete s = t ∧ t.waking = none ∧ t.power = .active ∧ t.wakeBuf = [] ∧ t.tasks = s.tasks ∧ s.sameMem t := by
  have hact := (wakeComplete_eq h).trans (if_neg (Nat.not_lt.mpr hc))
  rw [hb, List.foldl_nil] at hact
  obtain ⟨⟨g, x, o, f, hs⟩, -⟩ := ({ s with waking := none, power := .active, idleCycles := 0, wakeBuf := [] } : State).serveEndpoints_spec
  rw [hs] at hact
  exact ⟨_, hact, rfl, rfl, rfl, rfl, fun _ => rfl⟩

theorem entryCycles_of_mem {p : PState} {n : Nat}
    (h : (p, n) ∈ [(PState.idleGated, 6400), (.bankHold, 16000), (.retention, 80000), (.off, 3200000)]) : entryCycles p = n := by
  simp only [List.mem_cons, List.not_mem_nil, or_false, Prod.mk.injEq] at h
  obtain ⟨rfl, rfl⟩ | ⟨rfl, rfl⟩ | ⟨rfl, rfl⟩ | ⟨rfl, rfl⟩ := h <;> rfl

theorem wakeDelay_of_mem {p : PState} {n : Nat}
    (h : (p, n) ∈ [(PState.idleGated, 3200), (.bankHold, 28800), (.retention, 1920000), (.off, 400000000)]) : wakeDelay p = n := by
  simp only [List.mem_cons, List.not_mem_nil, or_false, Prod.mk.injEq] at h
  obtain ⟨rfl, rfl⟩ | ⟨rfl, rfl⟩ | ⟨rfl, rfl⟩ | ⟨rfl, rfl⟩ := h <;> rfl

/-- Settles O59. -/
theorem startupAndPower : Obligations.StartupAndPower := by
  refine ⟨fun r s => ⟨fun h hr hp => ?_, fun h => ?_⟩, fun src v s => ⟨fun hw => ⟨fun hv hp => ⟨fun hs => ?_, fun hs => ?_, fun hs => ?_⟩, fun h => ?_⟩,
    fun hb => padRelease_below hb src v, fun hw => ⟨fun hv hr => ?_, fun h => ?_⟩⟩, fun trained rows s => ⟨fun h hc => ?_, fun h => ?_⟩,
    fun s => ⟨fun h hc => ?_, fun h => ?_⟩, fun s => ⟨fun h1 h2 h3 h4 => congrArg Host.Outcome.next (autoIdle_of_idle h1 h2 h3 h4),
      fun h => congrArg Host.Outcome.next (autoIdle_of_not h)⟩, fun s p n he hn => ?_, fun w held s hp => ⟨fun ha he hk hw => ?_, fun p he hw hl => ?_,
      fun he hk hseen => ?_⟩, fun w held s h => congrArg Host.Outcome.next (wakeEvent_awake w held h), fun s p n hk hn => ?_⟩
  · obtain ⟨hboot, hnone⟩ := checksDone_spec r h hr hp
    refine ⟨fun image hi => ?_, fun hi => ?_⟩
    · obtain ⟨t, ht, hrest⟩ := hboot image hi
      exact ⟨t, congrArg Host.Outcome.next ht, hrest⟩
    · obtain ⟨t, ht, hrest⟩ := hnone hi
      exact ⟨t, congrArg Host.Outcome.next ht, hrest⟩
  · refine congrArg Host.Outcome.next (if_pos (h.imp_right (Or.imp_right fun hp => ?_)))
    rw [hp]
    rfl
  · obtain ⟨t, ht, hrest⟩ := releasePads_of_paused hv hp hw.1 hs
    exact ⟨t, (padRelease_of_takesWrite hw v).trans (congrArg Host.Outcome.next ht), hrest⟩
  · obtain ⟨t, ht, hrest⟩ := releasePads_of_done hv hp hw.1 hs
    exact ⟨t, (padRelease_of_takesWrite hw v).trans (congrArg Host.Outcome.next ht), hrest⟩
  · exact (padRelease_of_takesWrite hw v).trans (congrArg Host.Outcome.next (releasePads_of_not_held (.inr (.inr hs))))
  · exact (padRelease_of_takesWrite hw v).trans (congrArg Host.Outcome.next (releasePads_of_not_held (h.imp_right .inl)))
  · obtain ⟨t, ht, hrest⟩ := (releaseCores_spec v s).1 hv hr
    exact ⟨t, (State.regWrite_of_takesWrite hw v _).trans (congrArg Host.Outcome.next ht), hrest⟩
  · exact (State.regWrite_of_takesWrite hw v _).trans (congrArg Host.Outcome.next ((releaseCores_spec v s).2 h))
  · obtain ⟨u, t, ht, hrest⟩ := continuationDone_spec trained rows h hc
    exact ⟨u, t, congrArg Host.Outcome.next ht, hrest⟩
  · exact congrArg Host.Outcome.next (continuationDone_of_not h)
  · obtain ⟨u, t, ht, hrest⟩ := selfRefreshExit_spec h hc
    exact ⟨u, t, congrArg Host.Outcome.next ht, hrest⟩
  · exact congrArg Host.Outcome.next (selfRefreshExit_of_not h)
  · have hcyc := entryCycles_of_mem hn
    subst hcyc
    refine ⟨fun h => congrArg Host.Outcome.next ((entryComplete_eq he).trans (if_pos (h.imp_left fun hl => ?_))), fun hl hc => ⟨fun ho hw => ?_,
      fun ho => ?_, fun w ho hw ht => ?_⟩⟩
    · rw [hl]
      rfl
    · refine congrArg Host.Outcome.next ((entryComplete_eq he).trans ((if_neg ?_).trans ?_))
      · rw [hl]
        simp only [Bool.not_true, Bool.false_eq_true, false_or]
        omega
      · rw [s.entered_of_ne_off ho]
        dsimp only
        rw [hw]
    · subst ho
      obtain ⟨t, ht, hrest⟩ := entryComplete_off he hl hc
      exact ⟨t, congrArg Host.Outcome.next ht, hrest⟩
    · obtain ⟨t, ht, hrest⟩ := entryComplete_woken he hl hc ho hw ht
      exact ⟨t, congrArg Host.Outcome.next ht, hrest⟩
  · obtain ⟨t, ht, hrest⟩ := wakeEvent_asleep held hp ha he hk hw
    exact ⟨t, congrArg Host.Outcome.next ht, hrest⟩
  · obtain ⟨t, ht, hrest⟩ := wakeEvent_entering held hp he hw hl
    exact ⟨t, congrArg Host.Outcome.next ht, hrest⟩
  · obtain ⟨t, ht, hrest⟩ := wakeEvent_waking (w := w) held hp he hk hseen
    exact ⟨t, congrArg Host.Outcome.next ht, hrest⟩
  · have hdelay := wakeDelay_of_mem hn
    subst hdelay
    refine ⟨fun hc => congrArg Host.Outcome.next ((wakeComplete_eq hk).trans (if_pos hc)), fun hc =>
      ⟨congrArg Host.Outcome.next ((wakeComplete_eq hk).trans (if_neg (Nat.not_lt.mpr hc))), fun hb => ?_⟩⟩
    obtain ⟨t, ht, hrest⟩ := wakeComplete_of_none_held hk hc hb
    exact ⟨t, congrArg Host.Outcome.next ht, hrest⟩

end Sys2Proof.Machine
end

section
/-!
### Lanes, the spare control-core pair, and the repair record (R395 to R409)
-/
namespace Sys2Proof.Machine

/-! A change of the record. -/

theorem State.changeRecord_of_idle {s : State} (h : s.recordWrite = none) (f : RepairRecord → RepairRecord) :
    (s.changeRecord f).recordWrite = some { f s.record with seq := (f s.record).seq + 1 } ∧ (s.changeRecord f).record = f s.record := by
  have hact : s.changeRecord f = ({ s with record := f s.record } : State).startRecordWrite := if_neg (by rw [h]; decide)
  rw [hact]
  exact ⟨rfl, rfl⟩

theorem State.changeRecord_writes (s : State) (f : RepairRecord → RepairRecord) : (s.changeRecord f).recordWrite.isSome = true := by
  cases h : s.recordWrite with
  | none => rw [(State.changeRecord_of_idle h f).1]; rfl
  | some r =>
    have hact : s.changeRecord f = { s with record := f s.record, recordDirty := true } := if_pos (by rw [h]; rfl)
    rw [hact]
    exact congrArg Option.isSome h

/-! Fabric lanes. -/

theorem State.onlyRegs.mono {s t : State} {l k : List Nat} (h : s.onlyRegs t l) (hk : ∀ o ∈ l, o ∈ k) : s.onlyRegs t k :=
  ⟨h.1, fun o ho => h.2 o fun hm => ho (hk o hm)⟩

theorem feLaneCtl_ne (p : Nat) : R.feLaneCtl p ≠ R.feLaneStatus p := by
  unfold R.feLaneCtl R.feLaneStatus
  omega

theorem laneField_eq (dir : Nat) : laneField dir = 24 ∨ laneField dir = 28 := by
  unfold laneField
  split
  · exact .inl rfl
  · exact .inr rfl

theorem writeLaneCtl_of_refused {s : State} {p : Nat} {v : Word} (hv : getField v 31 1 = 1)
    (h : s.laneRefused p (getField v 30 1) (getField v 0 3) = true) : writeLaneCtl p v s = s.hwSet (R.feLaneStatus p) 23 :=
  (if_neg (by rw [hv]; decide)).trans (if_pos h)

/-- The port leaves service. -/
def State.laneOut (s : State) (p : Nat) (w : Word) : State :=
  ((s.setBit (R.feLaneStatus p) 0 true).setBit (R.feLaneStatus p) 1 false).setReg (R.feLaneCtl p) w

theorem State.laneOut_spec (s : State) (p : Nat) (w : Word) : s.setsRegs (s.laneOut p w) [R.feLaneStatus p, R.feLaneCtl p] ∧
    (s.laneOut p w).bit (R.feLaneStatus p) 0 = true ∧ (s.laneOut p w).bit (R.feLaneStatus p) 1 = false := by
  have h0 := s.bit_setBit_self (R.feLaneStatus p) 0 true (by decide)
  have k1 := (s.setsRegs_setBit (R.feLaneStatus p) 0 true).mono (k := [R.feLaneStatus p, R.feLaneCtl p]) (by simp)
  unfold State.laneOut
  generalize s.setBit (R.feLaneStatus p) 0 true = u at h0 k1 ⊢
  have h1 := u.bit_setBit_self (R.feLaneStatus p) 1 false (by decide)
  have h0' := (u.bit_setBit_other (R.feLaneStatus p) (i := 1) (j := 0) false (by decide)).trans h0
  have k2 := (u.setsRegs_setBit (R.feLaneStatus p) 1 false).mono (k := [R.feLaneStatus p, R.feLaneCtl p]) (by simp)
  generalize u.setBit (R.feLaneStatus p) 1 false = v at h1 h0' k2 ⊢
  have hne := v.reg_setReg_ne (off := R.feLaneCtl p) w (feLaneCtl_ne p).symm
  have k3 := (v.setsRegs_setReg (R.feLaneCtl p) w).mono (k := [R.feLaneStatus p, R.feLaneCtl p]) (by simp)
  exact ⟨(k1.trans k2).trans k3, (State.bit_congr hne 0).trans h0', (State.bit_congr hne 1).trans h1⟩

theorem writeLaneCtl_of_taken {s : State} {p : Nat} {v : Word} (hv : getField v 31 1 = 1)
    (h : s.laneRefused p (getField v 30 1) (getField v 0 3) = false) : ∃ t, writeLaneCtl p v s = t ∧ t.bit (R.feLaneStatus p) 0 = true ∧
      t.bit (R.feLaneStatus p) 1 = false ∧ t.draining.contains p = true ∧ t = { s with regs := t.regs, draining := t.draining } ∧
      s.regsBut t [R.feLaneStatus p, R.feLaneCtl p] := by
  have hact : writeLaneCtl p v s = { s.laneOut p (putField (v &&& 0xE0000007) 3 4 (s.fld (R.feLaneStatus p) (laneField (getField v 30 1)) 4)) with
      draining := if s.draining.contains p then s.draining else s.draining ++ [p] } :=
    (if_neg (by rw [hv]; decide)).trans (if_neg (by rw [h]; decide))
  have hin : (if s.draining.contains p then s.draining else s.draining ++ [p]).contains p = true := by
    split
    next hc => exact hc
    next => exact List.contains_iff_mem.mpr (List.mem_append_right _ (List.mem_singleton.mpr rfl))
  generalize (if s.draining.contains p then s.draining else s.draining ++ [p]) = d at hact hin
  generalize putField (v &&& 0xE0000007) 3 4 (s.fld (R.feLaneStatus p) (laneField (getField v 30 1)) 4) = w at hact
  obtain ⟨⟨⟨g, hg⟩, hregs⟩, h0, h1⟩ := s.laneOut_spec p w
  generalize s.laneOut p w = u at hact hg hregs h0 h1
  have hreg : ∀ o, ({ u with draining := d } : State).reg o = u.reg o := State.reg_of_regs_eq rfl
  exact ⟨_, hact, (State.bit_congr (hreg _) 0).trans h0, (State.bit_congr (hreg _) 1).trans h1, hin, by rw [hg],
    fun o ho => (hreg o).trans (hregs o ho)⟩

/-- The port is back in service. -/
def State.laneIn (s : State) (p : Nat) : State :=
  ((s.setBit (R.feLaneStatus p) 0 false).setBit (R.feLaneStatus p) 1 true).setReg (R.feLaneCtl p) 0

theorem State.laneIn_spec (s : State) (p : Nat) : s.setsRegs (s.laneIn p) [R.feLaneStatus p, R.feLaneCtl p] ∧
    (s.laneIn p).bit (R.feLaneStatus p) 0 = false ∧ (s.laneIn p).bit (R.feLaneStatus p) 1 = true := by
  have h0 := s.bit_setBit_self (R.feLaneStatus p) 0 false (by decide)
  have k1 := (s.setsRegs_setBit (R.feLaneStatus p) 0 false).mono (k := [R.feLaneStatus p, R.feLaneCtl p]) (by simp)
  unfold State.laneIn
  generalize s.setBit (R.feLaneStatus p) 0 false = u at h0 k1 ⊢
  have h1 := u.bit_setBit_self (R.feLaneStatus p) 1 true (by decide)
  have h0' := (u.bit_setBit_other (R.feLaneStatus p) (i := 1) (j := 0) true (by decide)).trans h0
  have k2 := (u.setsRegs_setBit (R.feLaneStatus p) 1 true).mono (k := [R.feLaneStatus p, R.feLaneCtl p]) (by simp)
  generalize u.setBit (R.feLaneStatus p) 1 true = v at h1 h0' k2 ⊢
  have hne := v.reg_setReg_ne (off := R.feLaneCtl p) 0 (feLaneCtl_ne p).symm
  have k3 := (v.setsRegs_setReg (R.feLaneCtl p) 0).mono (k := [R.feLaneStatus p, R.feLaneCtl p]) (by simp)
  exact ⟨(k1.trans k2).trans k3, (State.bit_congr hne 0).trans h0', (State.bit_congr hne 1).trans h1⟩

/-- A lane map entry in the record. -/
def laneSet (dir p : Nat) (m : LaneMap) (r : RepairRecord) : RepairRecord :=
  if dir = 1 then { r with laneRx := r.laneRx.set p m } else { r with laneTx := r.laneTx.set p m }

theorem laneSet_seq (dir p : Nat) (m : LaneMap) (r : RepairRecord) : (laneSet dir p m r).seq = r.seq := by
  unfold laneSet
  split <;> rfl

theorem remapDone_of_trained {s : State} {p : Nat} (h : s.bit (R.feLaneStatus p) 0 = true) (hd : s.draining.contains p = false) :
    remapDone p true s = if s.bit (R.feLaneCtl p) 29 then
        (s.laneIn p).changeRecord (laneSet (s.fld (R.feLaneCtl p) 30 1) p
          (laneMapOf (s.fld (R.feLaneStatus p) (laneField (s.fld (R.feLaneCtl p) 30 1)) 4)))
      else s.laneIn p := by
  have hbit : (getField (s.reg (R.feLaneCtl p)) 29 1 = 1) = (s.bit (R.feLaneCtl p) 29 = true) := by rw [State.bit_eq, decide_eq_true_eq]
  refine (if_neg (by rw [h, hd]; decide)).trans ((if_pos rfl).trans ?_)
  dsimp only
  simp only [hbit]
  rfl

theorem remapDone_of_kept {s : State} {p : Nat} (h : s.bit (R.feLaneStatus p) 0 = true) (hd : s.draining.contains p = false)
    (hk : s.bit (R.feLaneCtl p) 29 = true) (hw : s.recordWrite = none) : ∃ t r, remapDone p true s = t ∧
      t.bit (R.feLaneStatus p) 0 = false ∧ t.bit (R.feLaneStatus p) 1 = true ∧ t.recordWrite = some r ∧ r.seq = s.record.seq + 1 ∧
      r.laneTx = t.record.laneTx ∧ r.laneRx = t.record.laneRx := by
  have hact := (remapDone_of_trained h hd).trans (if_pos hk)
  obtain ⟨⟨⟨g, hg⟩, -⟩, h0, h1⟩ := s.laneIn_spec p
  generalize s.laneIn p = u at hact hg h0 h1
  generalize laneMapOf (s.fld (R.feLaneStatus p) (laneField (s.fld (R.feLaneCtl p) 30 1)) 4) = m at hact
  have hu : u.recordWrite = none ∧ u.record = s.record := by
    rw [hg]
    exact ⟨hw, rfl⟩
  obtain ⟨hrun, hrec⟩ := State.changeRecord_of_idle hu.1 (laneSet (s.fld (R.feLaneCtl p) 30 1) p m)
  have hreg := (u.changeRecord_spec (laneSet (s.fld (R.feLaneCtl p) 30 1) p m)).2 (R.feLaneStatus p) (by
    simp only [List.mem_singleton, R.feLaneStatus, R.cpRecord]
    omega)
  refine ⟨_, _, hact, (State.bit_congr hreg 0).trans h0, (State.bit_congr hreg 1).trans h1, hrun, ?_, ?_, ?_⟩
  · rw [laneSet_seq, hu.2]
  · rw [hrec]
  · rw [hrec]

/-- A retraining that fails leaves the map as it was before. -/
def State.laneFailed (s : State) (p lo m : Nat) : State :=
  (((s.setBit (R.feLaneStatus p) 0 false).setBit (R.feLaneStatus p) 1 false).hwSet (R.feLaneStatus p) 22).setFld (R.feLaneStatus p) lo 4 m

theorem State.laneFailed_spec (s : State) (p : Nat) {lo m : Nat} (hlo : lo = 24 ∨ lo = 28) (hm : m < 16) :
    s.onlyRegs (s.laneFailed p lo m) [R.feLaneStatus p] ∧ (s.laneFailed p lo m).bit (R.feLaneStatus p) 0 = false ∧
    (s.laneFailed p lo m).bit (R.feLaneStatus p) 1 = false ∧ (s.laneFailed p lo m).bit (R.feLaneStatus p) 22 = true ∧
    (s.laneFailed p lo m).fld (R.feLaneStatus p) lo 4 = m := by
  have h0 := s.bit_setBit_self (R.feLaneStatus p) 0 false (by decide)
  have k1 := (s.setsRegs_setBit (R.feLaneStatus p) 0 false).onlyRegs
  unfold State.laneFailed
  generalize s.setBit (R.feLaneStatus p) 0 false = u at h0 k1 ⊢
  have h1 := u.bit_setBit_self (R.feLaneStatus p) 1 false (by decide)
  have h0' := (u.bit_setBit_other (R.feLaneStatus p) (i := 1) (j := 0) false (by decide)).trans h0
  have k2 := k1.trans (u.setsRegs_setBit (R.feLaneStatus p) 1 false).onlyRegs
  generalize u.setBit (R.feLaneStatus p) 1 false = v at h1 h0' k2 ⊢
  have hset : ∀ o, (v.hwSet (R.feLaneStatus p) 22).reg o = (v.setBit (R.feLaneStatus p) 22 true).reg o := State.reg_of_regs_eq rfl
  have h22 := v.bit_hwSet_self (R.feLaneStatus p) 22 (by decide)
  have h1' := (State.bit_congr (hset _) 1).trans ((v.bit_setBit_other (R.feLaneStatus p) (i := 22) (j := 1) true (by decide)).trans h1)
  have h0'' := (State.bit_congr (hset _) 0).trans ((v.bit_setBit_other (R.feLaneStatus p) (i := 22) (j := 0) true (by decide)).trans h0')
  have k3 := k2.trans (v.onlyRegs_hwSet (R.feLaneStatus p) 22)
  generalize v.hwSet (R.feLaneStatus p) 22 = w at h22 h1' h0'' k3 ⊢
  have k4 := k3.trans (w.setsRegs_setFld (R.feLaneStatus p) lo 4 m).onlyRegs
  have hm' := (w.fld_setFld_self (R.feLaneStatus p) lo 4 m (by omega)).trans (Nat.mod_eq_of_lt hm)
  exact ⟨k4, (w.bit_setFld_other _ lo 4 m 0 (by omega)).trans h0'', (w.bit_setFld_other _ lo 4 m 1 (by omega)).trans h1',
    (w.bit_setFld_other _ lo 4 m 22 (by omega)).trans h22, hm'⟩

theorem remapDone_of_failed {s : State} {p : Nat} (h : s.bit (R.feLaneStatus p) 0 = true) (hd : s.draining.contains p = false) :
    ∃ t, remapDone p false s = t ∧ t.bit (R.feLaneStatus p) 0 = false ∧ t.bit (R.feLaneStatus p) 1 = false ∧
      t.bit (R.feLaneStatus p) 22 = true ∧
      t.fld (R.feLaneStatus p) (laneField (s.fld (R.feLaneCtl p) 30 1)) 4 = s.fld (R.feLaneCtl p) 3 4 ∧
      s.onlyRegs t [R.feLaneStatus p, R.feLaneCtl p] := by
  have hact : remapDone p false s = (s.laneFailed p (laneField (s.fld (R.feLaneCtl p) 30 1)) (s.fld (R.feLaneCtl p) 3 4)).setReg (R.feLaneCtl p) 0 :=
    (if_neg (by rw [h, hd]; decide)).trans (if_neg (by decide))
  have hlt : s.fld (R.feLaneCtl p) 3 4 < 16 := getField_lt _ 3 4
  have hlo := laneField_eq (s.fld (R.feLaneCtl p) 30 1)
  generalize s.fld (R.feLaneCtl p) 3 4 = m at hact hlt ⊢
  generalize laneField (s.fld (R.feLaneCtl p) 30 1) = lo at hact hlo ⊢
  obtain ⟨hregs, h0, h1, h22, hmap⟩ := s.laneFailed_spec p hlo hlt
  generalize s.laneFailed p lo m = u at hact hregs h0 h1 h22 hmap
  have hne := u.reg_setReg_ne (off := R.feLaneCtl p) 0 (feLaneCtl_ne p).symm
  refine ⟨_, hact, (State.bit_congr hne 0).trans h0, (State.bit_congr hne 1).trans h1, (State.bit_congr hne 22).trans h22,
    (State.fld_congr hne lo 4).trans hmap, ?_⟩
  have hstat : s.onlyRegs u [R.feLaneStatus p, R.feLaneCtl p] := hregs.mono (by simp)
  exact hstat.trans ((u.setsRegs_setReg (R.feLaneCtl p) 0).mono (by simp)).onlyRegs

theorem remapDone_of_not {s : State} {p : Nat} (trained : Bool) (h : s.bit (R.feLaneStatus p) 0 = false ∨ s.draining.contains p = true) :
    remapDone p trained s = s := by
  refine if_pos (h.imp_left fun h => ?_)
  rw [h]
  rfl

end Sys2Proof.Machine
end

section
/-!
### The spare control-core pair and the record writes (R397, R398, R408, R409)
-/
namespace Sys2Proof.Machine

/-! The spare pair. -/

theorem switchPair_spec (v : Word) (s : State) :
    (getField v 0 1 = 1 → s.cpRuns = false → s.bit R.cpPair 31 = false → ∃ t, switchPair v s = t ∧ t.bit R.cpPair 0 = true ∧
      s.onlyRegs t [R.cpPair]) ∧
    ((getField v 0 1 = 0 ∨ s.cpRuns = true ∨ s.bit R.cpPair 31 = true) → switchPair v s = s) := by
  refine ⟨fun hv hr hb => ⟨_, if_pos ⟨hv, by rw [hr]; rfl, by rw [hb]; rfl⟩, s.bit_setBit_self _ 0 _ (by decide),
    (s.setsRegs_setBit _ _ _).onlyRegs⟩, fun h => if_neg ?_⟩
  rintro ⟨hv, hr, hb⟩
  obtain h | h | h := h
  · rw [hv] at h
    exact absurd h (by decide)
  · rw [h] at hr
    exact Bool.noConfusion hr
  · rw [h] at hb
    exact Bool.noConfusion hb

/-- The spare pair is the one in use, and no request to switch is left. -/
def State.pairTaken (s : State) : State := (s.setBit R.cpPair 0 false).setBit R.cpPair 31 true

theorem State.pairTaken_spec (s : State) : s.setsRegs s.pairTaken [R.cpPair] ∧ s.pairTaken.bit R.cpPair 31 = true ∧
    s.pairTaken.bit R.cpPair 0 = false := by
  have h0 := s.bit_setBit_self R.cpPair 0 false (by decide)
  have k1 := s.setsRegs_setBit R.cpPair 0 false
  unfold State.pairTaken
  generalize s.setBit R.cpPair 0 false = u at h0 k1 ⊢
  exact ⟨k1.trans (u.setsRegs_setBit R.cpPair 31 true), u.bit_setBit_self R.cpPair 31 true (by decide),
    (u.bit_setBit_other R.cpPair (i := 31) (j := 0) true (by decide)).trans h0⟩

theorem tbSiteStatus_ne_of_mod {o : Nat} (h : o % 0x100 ≠ 0) (k : Nat) : o ≠ R.tbSiteStatus k := by
  unfold R.tbSiteStatus
  omega

theorem State.sameMem_of_mem {s t : State} (hm : t.mem = s.mem) (hg : t.memGen = s.memGen) : s.sameMem t := fun a => by
  unfold State.readByte
  rw [hm, hg]

/-- What a cancelled evacuation leaves alone. -/
theorem State.cancelEvac_spec (s : State) : (∃ g, s.cancelEvac = { s with regs := g, evac := none }) ∧
    ∀ o, o % 0x100 ≠ 0 → o ≠ R.tbEvac → s.cancelEvac.reg o = s.reg o := by
  cases h : s.evac with
  | none =>
    have hact : s.cancelEvac = s := by
      unfold State.cancelEvac
      rw [h]
    rw [hact]
    exact ⟨⟨s.regs, by rw [← h]⟩, fun _ _ _ => rfl⟩
  | some v =>
    rw [State.cancelEvac_of_evac h]
    have hset : s.setsRegs (s.uncopied v) [R.tbSiteStatus v.target, R.tbSiteStatus v.source, R.tbEvac] := by
      unfold State.uncopied
      refine State.setsRegs.trans (State.setsRegs.trans (State.setsRegs.trans ((s.setsRegs_setFld _ _ _ _).mono ?_)
        ((State.setsRegs_setBit _ _ _ _).mono ?_)) ((State.setsRegs_setFld _ _ _ _ _).mono ?_)) ((State.setsRegs_setReg _ _ _).mono ?_)
      all_goals simp
    obtain ⟨⟨g, hg⟩, hregs⟩ := hset
    generalize s.uncopied v = u at hg hregs ⊢
    refine ⟨⟨g, by rw [hg]⟩, fun o hm he => (State.reg_of_regs_eq rfl o).trans (hregs o ?_)⟩
    simp only [List.mem_cons, List.not_mem_nil, or_false, not_or]
    exact ⟨tbSiteStatus_ne_of_mod hm _, tbSiteStatus_ne_of_mod hm _, he⟩

/-- MQ_STATE of the pair that has booted. -/
def pairWord (pair image : Bool) : Word := BitVec.ofNat 32 (boolBit pair * 2 ^ 29 + boolBit image * 2 ^ 28)

theorem pairWord_fields (pair image : Bool) : decide (getField (pairWord pair image) 29 1 = 1) = pair ∧
    decide (getField (pairWord pair image) 28 1 = 1) = image ∧ getField (pairWord pair image) 30 2 = 0 := by
  cases pair <;> cases image <;> decide

/-- The registers of the queue pair as it is disabled. -/
def State.queueOff (s : State) (w : Word) : State := ((s.setReg R.mqState w).setBit R.mqCfg 31 false).setReg R.mqPending 0

theorem State.queueOff_spec (s : State) (w : Word) : s.setsRegs (s.queueOff w) [R.mqState, R.mqCfg, R.mqPending] ∧
    (s.queueOff w).reg R.mqState = w ∧ (s.queueOff w).bit R.mqCfg 31 = false ∧ (s.queueOff w).reg R.mqPending = 0 := by
  have h1 := s.reg_setReg_self R.mqState w
  have k1 := (s.setsRegs_setReg R.mqState w).mono (k := [R.mqState, R.mqCfg, R.mqPending]) (by simp)
  unfold State.queueOff
  generalize s.setReg R.mqState w = u at h1 k1 ⊢
  have h2 := u.bit_setBit_self R.mqCfg 31 false (by decide)
  have h1' := (u.reg_setBit_ne (off := R.mqCfg) (o := R.mqState) 31 false (by decide)).trans h1
  have k2 := k1.trans ((u.setsRegs_setBit R.mqCfg 31 false).mono (by simp))
  generalize u.setBit R.mqCfg 31 false = v at h1' h2 k2 ⊢
  refine ⟨k2.trans ((v.setsRegs_setReg R.mqPending 0).mono (by simp)), (v.reg_setReg_ne _ (by decide)).trans h1', ?_, v.reg_setReg_self _ _⟩
  exact (State.bit_congr (v.reg_setReg_ne (off := R.mqPending) (o := R.mqCfg) 0 (by decide)) 31).trans h2

/-- The queue pair starts anew on the spare pair; a retirement in progress goes on without its command. -/
def State.queueAnew (s : State) (r : Option RetireRun) : State := { s with mq := { MqRun.empty with retire := r.map orphanRetire } }

theorem sparePairBooted_eq {s : State} (h : s.bit R.cpPair 0 = true) (aOk bOk : Bool) : sparePairBooted aOk bOk s =
    match bootImage (s.bit R.cpBoot 0) aOk bOk with
    | none => s.pairTaken.setBit R.pwStatus 28 true
    | some image => ((s.pairTaken.cancelEvac.queueOff (pairWord (! s.bit R.mqState 29) image)).queueAnew s.mq.retire).changeRecord
        (fun r => { r with pair := boolBit (! s.bit R.mqState 29) }) := by
  unfold sparePairBooted State.pairTaken State.queueOff pairWord State.queueAnew
  rw [h]
  refine (if_neg (by decide)).trans ?_
  cases bootImage (s.bit R.cpBoot 0) aOk bOk with
  | none => dsimp only
  | some image => dsimp only

theorem sparePairBooted_of_image {s : State} (h : s.bit R.cpPair 0 = true) {aOk bOk image : Bool}
    (hi : bootImage (s.bit R.cpBoot 0) aOk bOk = some image) : ∃ t, sparePairBooted aOk bOk s = t ∧ t.bit R.cpPair 31 = true ∧
      t.bit R.cpPair 0 = false ∧ (t.bit R.mqState 29 = ! s.bit R.mqState 29) ∧ t.runningImage = image ∧ t.mqMode = 0 ∧ t.mqEn = false ∧
      t.reg R.mqPending = 0 ∧ t.mq.cur = none ∧ t.mq.replies = [] ∧ t.evac = none ∧ t.record.pair = boolBit (! s.bit R.mqState 29) ∧
      t.tasks = s.tasks ∧ s.sameMem t := by
  have hact := sparePairBooted_eq h aOk bOk
  rw [hi] at hact
  dsimp only at hact
  generalize (! s.bit R.mqState 29) = pair at hact ⊢
  obtain ⟨⟨⟨g1, e1⟩, -⟩, h31, h0⟩ := s.pairTaken_spec
  generalize s.pairTaken = u at hact e1 h31 h0
  obtain ⟨⟨g2, e2⟩, k2⟩ := u.cancelEvac_spec
  generalize u.cancelEvac = v at hact e2 k2
  obtain ⟨w29, w28, w30⟩ := pairWord_fields pair image
  generalize pairWord pair image = w at hact w29 w28 w30
  obtain ⟨⟨⟨g3, e3⟩, k3⟩, hstate, hcfg, hpend⟩ := v.queueOff_spec w
  generalize v.queueOff w = x at hact e3 k3 hstate hcfg hpend
  generalize hy : x.queueAnew s.mq.retire = y at hact
  have hyreg : ∀ o, y.reg o = x.reg o := by
    rw [← hy]
    exact State.reg_of_regs_eq rfl
  have hyf : y.mq.cur = none ∧ y.mq.replies = [] ∧ y.evac = none ∧ y.tasks = s.tasks ∧ s.sameMem y := by
    rw [← hy, e3, e2, e1]
    exact ⟨rfl, rfl, rfl, rfl, fun _ => rfl⟩
  obtain ⟨hcur, hrep, hev, htasks, hmem⟩ := hyf
  obtain ⟨⟨g4, n, d, e4⟩, k4⟩ := y.changeRecord_spec (fun r => { r with pair := boolBit pair })
  generalize y.changeRecord (fun r => { r with pair := boolBit pair }) = t at hact e4 k4
  have hsame : y.sameMem t := State.sameMem_of_mem (by rw [e4]) (by rw [e4])
  have htreg : ∀ o, o ≠ R.cpRecord → t.reg o = x.reg o := fun o ho => (k4 o (by simpa using ho)).trans (hyreg o)
  have hpair : t.reg R.cpPair = u.reg R.cpPair :=
    (htreg _ (by decide)).trans ((k3 _ (by decide)).trans (k2 _ (by decide) (by decide)))
  have hmq : t.reg R.mqState = w := (htreg _ (by decide)).trans hstate
  refine ⟨t, hact, (State.bit_congr hpair 31).trans h31, (State.bit_congr hpair 0).trans h0, ?_, ?_, ?_,
    (State.bit_congr (htreg _ (by decide)) 31).trans hcfg, (htreg _ (by decide)).trans hpend, ?_, ?_, ?_, ?_, ?_, hmem.trans hsame⟩
  · rw [State.bit_eq, hmq]
    exact w29
  · unfold State.runningImage
    rw [State.bit_eq, hmq]
    exact w28
  · unfold State.mqMode State.fld
    rw [hmq]
    exact w30
  all_goals rw [e4]
  · exact hcur
  · exact hrep
  · exact hev
  · exact htasks

theorem sparePairBooted_of_none {s : State} (h : s.bit R.cpPair 0 = true) {aOk bOk : Bool} (hi : bootImage (s.bit R.cpBoot 0) aOk bOk = none) :
    ∃ t, sparePairBooted aOk bOk s = t ∧ t.bit R.pwStatus 28 = true ∧ s.onlyRegs t [R.cpPair, R.pwStatus] := by
  have hact := sparePairBooted_eq h aOk bOk
  rw [hi] at hact
  dsimp only at hact
  have hset := s.pairTaken_spec.1.mono (k := [R.cpPair, R.pwStatus]) (by simp)
  generalize s.pairTaken = u at hact hset
  exact ⟨_, hact, u.bit_setBit_self _ 28 _ (by decide), (hset.trans ((u.setsRegs_setBit R.pwStatus 28 true).mono (by simp))).onlyRegs⟩

theorem sparePairBooted_of_not {s : State} (h : s.bit R.cpPair 0 = false) (aOk bOk : Bool) : sparePairBooted aOk bOk s = s :=
  if_pos (by rw [h]; rfl)

/-! Record writes. -/

/-- A copy of the record in flash. -/
def State.flashCopy (s : State) (b : Bool) : Option RepairRecord := if b then s.flash1 else s.flash0

theorem State.putCopy_spec (s : State) (c : Bool) (r : Option RepairRecord) :
    (∃ a b, s.putCopy c r = { s with flash0 := a, flash1 := b }) ∧ (s.putCopy c r).flashCopy c = r ∧
    (s.putCopy c r).flashCopy (! c) = s.flashCopy (! c) := by
  cases c with
  | true => exact ⟨⟨_, _, rfl⟩, rfl, rfl⟩
  | false => exact ⟨⟨_, _, rfl⟩, rfl, rfl⟩

theorem State.flashCopy_congr {s t : State} (h0 : t.flash0 = s.flash0) (h1 : t.flash1 = s.flash1) (b : Bool) : t.flashCopy b = s.flashCopy b := by
  unfold State.flashCopy
  rw [h0, h1]

/-- A copy that reads back is the copy in use. -/
def State.copyRegsOf (s : State) (c : Bool) (r : RepairRecord) : State :=
  ((s.setBit R.cpRecord 28 c).setBit R.cpRecord 31 true).setReg R.cpRecordSeq r.seq

/-- The write has ended. -/
def State.writeOver (s : State) (d : RepairRecord) : State := ({ s with record := d, recordWrite := none } : State).setBit R.cpRecord 27 false

/-- A write that has been read back. -/
def State.writeEnded (s : State) (r : RepairRecord) (ok : Bool) : State :=
  if ok then ((s.putCopy s.recordTarget (some r)).copyRegsOf s.recordTarget r).writeOver { s.record with seq := r.seq }
  else ((s.putCopy s.recordTarget none).hwSet R.cpRecord 29).writeOver s.record

theorem recordWritten_eq {s : State} {r : RepairRecord} (h : s.recordWrite = some r) (ok : Bool) : recordWritten ok s =
    if (((s.writeEnded r ok).releaseEvac r).releaseRetire r).recordDirty then
      (((s.writeEnded r ok).releaseEvac r).releaseRetire r).startRecordWrite
    else ((s.writeEnded r ok).releaseEvac r).releaseRetire r := by
  have hkeep : ((s.putCopy s.recordTarget none).hwSet R.cpRecord 29).record = s.record := by
    unfold State.putCopy
    split <;> rfl
  unfold recordWritten State.writeEnded State.copyRegsOf State.writeOver
  rw [h]
  cases ok with
  | true => simp only [if_true]
  | false => simp only [Bool.false_eq_true, if_false, ← hkeep]

theorem State.writeOver_spec (s : State) (d : RepairRecord) : (∃ g, s.writeOver d = { s with regs := g, record := d, recordWrite := none }) ∧
    (s.writeOver d).bit R.cpRecord 27 = false ∧ (∀ i, i < 27 ∨ 27 < i → (s.writeOver d).bit R.cpRecord i = s.bit R.cpRecord i) ∧
    ∀ o, o ≠ R.cpRecord → (s.writeOver d).reg o = s.reg o := by
  have hreg : ∀ o, ({ s with record := d, recordWrite := none } : State).reg o = s.reg o := State.reg_of_regs_eq rfl
  unfold State.writeOver
  generalize hu : ({ s with record := d, recordWrite := none } : State) = u at hreg ⊢
  obtain ⟨g, hg⟩ := (u.setsRegs_setBit R.cpRecord 27 false).1
  refine ⟨⟨g, by rw [hg, ← hu]⟩, u.bit_setBit_self _ 27 _ (by decide), fun i hi => ?_, fun o ho => (u.reg_setBit_ne 27 false ho).trans (hreg o)⟩
  exact (u.bit_setBit_other R.cpRecord (i := 27) (j := i) false (by omega)).trans (State.bit_congr (hreg _) i)

theorem State.copyRegsOf_spec (s : State) (c : Bool) (r : RepairRecord) : (∃ g, s.copyRegsOf c r = { s with regs := g }) ∧
    (s.copyRegsOf c r).bit R.cpRecord 31 = true ∧ (s.copyRegsOf c r).bit R.cpRecord 28 = c ∧ (s.copyRegsOf c r).reg R.cpRecordSeq = r.seq := by
  have h28 := s.bit_setBit_self R.cpRecord 28 c (by decide)
  obtain ⟨g1, e1⟩ := (s.setsRegs_setBit R.cpRecord 28 c).1
  unfold State.copyRegsOf
  generalize s.setBit R.cpRecord 28 c = u at h28 e1 ⊢
  have h31 := u.bit_setBit_self R.cpRecord 31 true (by decide)
  have h28' := (u.bit_setBit_other R.cpRecord (i := 31) (j := 28) true (by decide)).trans h28
  obtain ⟨g2, e2⟩ := (u.setsRegs_setBit R.cpRecord 31 true).1
  generalize u.setBit R.cpRecord 31 true = v at h31 h28' e2 ⊢
  have hne := v.reg_setReg_ne (off := R.cpRecordSeq) (o := R.cpRecord) r.seq (by decide)
  have hself := v.reg_setReg_self R.cpRecordSeq r.seq
  obtain ⟨g3, e3⟩ := v.setReg_shape R.cpRecordSeq r.seq
  exact ⟨⟨g3, by rw [e3, e2, e1]⟩, (State.bit_congr hne 31).trans h31, (State.bit_congr hne 28).trans h28', hself⟩

/-- A write that reads back. -/
theorem State.writeEnded_ok (s : State) (r : RepairRecord) : ∃ t, s.writeEnded r true = t ∧ t.flashCopy s.recordTarget = some r ∧
    t.flashCopy (! s.recordTarget) = s.flashCopy (! s.recordTarget) ∧ t.bit R.cpRecord 31 = true ∧ t.bit R.cpRecord 28 = s.recordTarget ∧
    t.reg R.cpRecordSeq = r.seq ∧ t.recordWrite = none ∧ t.bit R.cpRecord 27 = false ∧ t.recordDirty = s.recordDirty ∧
    t.record.seq = r.seq := by
  have hact : s.writeEnded r true = ((s.putCopy s.recordTarget (some r)).copyRegsOf s.recordTarget r).writeOver { s.record with seq := r.seq } :=
    if_pos rfl
  rw [hact]
  generalize s.recordTarget = c
  obtain ⟨⟨a, b, e1⟩, hin, hout⟩ := s.putCopy_spec c (some r)
  generalize s.putCopy c (some r) = u at e1 hin hout ⊢
  obtain ⟨⟨g, e2⟩, h31, h28, hseq⟩ := u.copyRegsOf_spec c r
  generalize u.copyRegsOf c r = v at e2 h31 h28 hseq ⊢
  obtain ⟨⟨g', e3⟩, h27, hbits, hregs⟩ := v.writeOver_spec { s.record with seq := r.seq }
  generalize v.writeOver { s.record with seq := r.seq } = t at e3 h27 hbits hregs ⊢
  have hflash : ∀ k, t.flashCopy k = u.flashCopy k := State.flashCopy_congr (by rw [e3, e2]) (by rw [e3, e2])
  refine ⟨t, rfl, (hflash _).trans hin, (hflash _).trans hout, (hbits 31 (.inr (by decide))).trans h31, (hbits 28 (.inr (by decide))).trans h28,
    (hregs _ (by decide)).trans hseq, by rw [e3], h27, ?_, by rw [e3]⟩
  rw [e3, e2, e1]

/-- A write whose read-back differs. -/
theorem State.writeEnded_bad (s : State) (r : RepairRecord) : ∃ t, s.writeEnded r false = t ∧ t.flashCopy s.recordTarget = none ∧
    t.flashCopy (! s.recordTarget) = s.flashCopy (! s.recordTarget) ∧ t.bit R.cpRecord 29 = true ∧ t.recordWrite = none ∧
    t.bit R.cpRecord 27 = false ∧ t.recordDirty = s.recordDirty := by
  have hact : s.writeEnded r false = ((s.putCopy s.recordTarget none).hwSet R.cpRecord 29).writeOver s.record := if_neg (by decide)
  rw [hact]
  generalize s.recordTarget = c
  obtain ⟨⟨a, b, e1⟩, hin, hout⟩ := s.putCopy_spec c none
  generalize s.putCopy c none = u at e1 hin hout ⊢
  have h29 := u.bit_hwSet_self R.cpRecord 29 (by decide)
  obtain ⟨g, n, e2⟩ : ∃ g n, u.hwSet R.cpRecord 29 = { u with regs := g, now := n } := ⟨_, _, rfl⟩
  generalize u.hwSet R.cpRecord 29 = v at e2 h29 ⊢
  obtain ⟨⟨g', e3⟩, h27, hbits, -⟩ := v.writeOver_spec s.record
  generalize v.writeOver s.record = t at e3 h27 hbits ⊢
  have hflash : ∀ k, t.flashCopy k = u.flashCopy k := State.flashCopy_congr (by rw [e3, e2]) (by rw [e3, e2])
  refine ⟨t, rfl, (hflash _).trans hin, (hflash _).trans hout, (hbits 29 (.inr (by decide))).trans h29, by rw [e3], h27, ?_⟩
  rw [e3, e2, e1]

theorem State.reply_shape (s : State) (p : Packet) (st : Status) (last : Bool) (res : List Byte) :
    ∃ q, s.reply p st last res = { s with mq := q } := by
  unfold State.reply
  split
  · exact ⟨s.mq, rfl⟩
  · exact ⟨_, rfl⟩

/-- The replies that a record write releases. -/
theorem State.released_shape (s : State) (r : RepairRecord) : ∃ q, (s.releaseEvac r).releaseRetire r = { s with mq := q } := by
  have hevac : ∃ q, s.releaseEvac r = { s with mq := q } := by
    unfold State.releaseEvac
    split
    · exact ⟨s.mq, rfl⟩
    · split
      · obtain ⟨q, hq⟩ := State.reply_shape _ _ _ _ _
        exact ⟨q, hq⟩
      · exact ⟨s.mq, rfl⟩
  obtain ⟨q, hq⟩ := hevac
  rw [hq]
  unfold State.releaseRetire
  split
  · exact ⟨q, rfl⟩
  · split
    · obtain ⟨q', hq'⟩ := State.reply_shape _ _ _ _ _
      exact ⟨q', hq'⟩
    · exact ⟨q, rfl⟩

theorem State.startRecordWrite_spec (s : State) : s.startRecordWrite.recordWrite = some { s.record with seq := s.record.seq + 1 } ∧
    s.startRecordWrite.recordDirty = false ∧ s.startRecordWrite.bit R.cpRecord 27 = true ∧
    ∀ b, s.startRecordWrite.flashCopy b = s.flashCopy b := by
  have hact : s.startRecordWrite = { s.setBit R.cpRecord 27 true with
      recordWrite := some { s.record with seq := s.record.seq + 1 }, recordDirty := false } := rfl
  rw [hact]
  have h27 := s.bit_setBit_self R.cpRecord 27 true (by decide)
  obtain ⟨g, hg⟩ := (s.setsRegs_setBit R.cpRecord 27 true).1
  generalize s.setBit R.cpRecord 27 true = u at h27 hg ⊢
  refine ⟨rfl, rfl, (State.bit_congr (State.reg_of_regs_eq ?_ _) 27).trans h27, State.flashCopy_congr ?_ ?_⟩
  · rfl
  · rw [hg]
  · rw [hg]

theorem recordWritten_ok {s : State} {r : RepairRecord} (h : s.recordWrite = some r) (hd : s.recordDirty = false) :
    ∃ t, recordWritten true s = t ∧ t.flashCopy s.recordTarget = some r ∧ t.flashCopy (! s.recordTarget) = s.flashCopy (! s.recordTarget) ∧
      t.bit R.cpRecord 31 = true ∧ t.bit R.cpRecord 28 = s.recordTarget ∧ t.reg R.cpRecordSeq = r.seq ∧ t.recordWrite = none ∧
      t.bit R.cpRecord 27 = false := by
  have hact := recordWritten_eq h true
  obtain ⟨u, hu, h1, h2, h3, h4, h5, h6, h7, h8, -⟩ := s.writeEnded_ok r
  rw [hu] at hact
  obtain ⟨q, hq⟩ := u.released_shape r
  rw [hq, if_neg (by rw [show ({ u with mq := q } : State).recordDirty = false from h8.trans hd]; decide)] at hact
  have hreg : ∀ o, ({ u with mq := q } : State).reg o = u.reg o := State.reg_of_regs_eq rfl
  exact ⟨_, hact, h1, h2, (State.bit_congr (hreg _) 31).trans h3, (State.bit_congr (hreg _) 28).trans h4, (hreg _).trans h5, h6,
    (State.bit_congr (hreg _) 27).trans h7⟩

theorem recordWritten_bad {s : State} {r : RepairRecord} (h : s.recordWrite = some r) (hd : s.recordDirty = false) :
    ∃ t, recordWritten false s = t ∧ t.flashCopy s.recordTarget = none ∧ t.flashCopy (! s.recordTarget) = s.flashCopy (! s.recordTarget) ∧
      t.bit R.cpRecord 29 = true ∧ t.recordWrite = none ∧ t.bit R.cpRecord 27 = false := by
  have hact := recordWritten_eq h false
  obtain ⟨u, hu, h1, h2, h3, h4, h5, h6⟩ := s.writeEnded_bad r
  rw [hu] at hact
  obtain ⟨q, hq⟩ := u.released_shape r
  rw [hq, if_neg (by rw [show ({ u with mq := q } : State).recordDirty = false from h6.trans hd]; decide)] at hact
  have hreg : ∀ o, ({ u with mq := q } : State).reg o = u.reg o := State.reg_of_regs_eq rfl
  exact ⟨_, hact, h1, h2, (State.bit_congr (hreg _) 29).trans h3, h4, (State.bit_congr (hreg _) 27).trans h5⟩

theorem recordWritten_dirty {s : State} {r : RepairRecord} (h : s.recordWrite = some r) (hd : s.recordDirty = true) :
    ∃ t x, recordWritten true s = t ∧ t.flashCopy s.recordTarget = some r ∧ t.recordWrite = some x ∧ x.seq = r.seq + 1 ∧
      t.recordDirty = false ∧ t.bit R.cpRecord 27 = true := by
  have hact := recordWritten_eq h true
  obtain ⟨u, hu, h1, -, -, -, -, -, -, h8, h9⟩ := s.writeEnded_ok r
  rw [hu] at hact
  obtain ⟨q, hq⟩ := u.released_shape r
  rw [hq, if_pos (show ({ u with mq := q } : State).recordDirty = true from h8.trans hd)] at hact
  obtain ⟨k1, k2, k3, k4⟩ := ({ u with mq := q } : State).startRecordWrite_spec
  exact ⟨_, _, hact, (k4 _).trans h1, k1, congrArg (· + 1) h9, k2, k3⟩

/-! Row reports. -/

/-- A row that the record does not hold enters it, and the record is written. -/
theorem rowReported_new {stack pc bank row : Nat} {s : State} {e : RowEntry}
    (he : e = { kind := 0, unit := stack, state := 0, dev := pc, serial := 0, bank := bank, row := row % 2 ^ 18 }) (hr : s.cpRuns = true)
    (hnew : ∀ x, x ∈ s.record.rows → ({ x with state := 0 } : RowEntry) ≠ e) (hlen : s.record.rows.length < 4079) :
    ∃ t, rowReported stack pc bank row s = t ∧ t.record.rows = s.record.rows ++ [e] ∧ t.recordWrite.isSome = true ∧ t.tasks = s.tasks ∧
      s.sameMem t := by
  have hstate : e.state = 0 := by rw [he]
  have hact : rowReported stack pc bank row s = s.changeRecord (fun r => { r with rows := r.rows ++ [e] }) := by
    unfold rowReported
    rw [hr, if_pos rfl, ← he]
    refine if_neg ?_
    rintro (hany | hge)
    · obtain ⟨x, hx, hsame⟩ := List.any_eq_true.mp hany
      rw [decide_eq_true_eq, hstate] at hsame
      exact hnew x hx hsame
    · omega
  have hrun := s.changeRecord_writes (fun r => { r with rows := r.rows ++ [e] })
  obtain ⟨⟨g, n, d, hs⟩, -⟩ := s.changeRecord_spec (fun r => { r with rows := r.rows ++ [e] })
  generalize s.changeRecord (fun r => { r with rows := r.rows ++ [e] }) = t at hact hrun hs
  refine ⟨t, hact, ?_, hrun, ?_, fun a => ?_⟩
  all_goals rw [hs]
  rfl

theorem rowReported_known {stack pc bank row : Nat} {s : State} {e : RowEntry}
    (he : e = { kind := 0, unit := stack, state := 0, dev := pc, serial := 0, bank := bank, row := row % 2 ^ 18 })
    (h : ∃ x, x ∈ s.record.rows ∧ ({ x with state := 0 } : RowEntry) = e) : rowReported stack pc bank row s = s := by
  obtain ⟨x, hx, hsame⟩ := h
  have hstate : e.state = 0 := by rw [he]
  unfold rowReported
  rw [← he]
  split
  · refine if_pos (.inl (List.any_eq_true.mpr ⟨x, hx, ?_⟩))
    rw [decide_eq_true_eq, hstate]
    exact hsame
  · rfl

theorem laneWrite_of_takesWrite {s : State} {src : Requester} {p : Fin 32} {v : Word} {c : Instr} (h : s.takesWrite src (R.feLaneCtl p))
    (hc : c = .laneRemap src p v ∨ c = .laneRestore src p v) : exec c s = .next (writeLaneCtl p v s) := by
  obtain rfl | rfl := hc
  · exact State.regWrite_of_takesWrite h v _
  · exact State.regWrite_of_takesWrite h v _

/-- Settles O60. -/
theorem serviceAndRepair : Obligations.ServiceAndRepair := by
  refine ⟨fun src p v s c hw hc => ?_, fun p s => ⟨fun h hd => ⟨fun hk => ?_, fun hk hn => ?_, ?_⟩, fun trained h => ?_⟩,
    fun src v s hw => ⟨fun hv hr hb => ?_, fun h => ?_⟩, fun aOk bOk s => ⟨fun h => ⟨fun image hi => ?_, fun hi => ?_⟩, fun h => ?_⟩,
    fun s r h => ⟨fun hd => ⟨?_, ?_⟩, fun hd => ?_⟩, fun ok s h => ?_, fun stack pc bank row s => ⟨fun hr hnew hlen => ?_, fun h => ?_, fun h => ?_⟩⟩
  · have hact := laneWrite_of_takesWrite hw hc
    refine ⟨fun hv => hact.trans (congrArg Host.Outcome.next (if_pos hv)), fun hv hl => ?_, fun hv hl => ?_⟩
    · refine ⟨_, hact.trans (congrArg Host.Outcome.next (writeLaneCtl_of_refused hv hl)), s.bit_hwSet_self _ 23 (by decide), s.onlyRegs_hwSet _ _⟩
    · obtain ⟨t, ht, hrest⟩ := writeLaneCtl_of_taken hv hl
      exact ⟨t, hact.trans (congrArg Host.Outcome.next ht), hrest⟩
  · obtain ⟨hset, h0, h1⟩ := s.laneIn_spec p
    exact ⟨_, congrArg Host.Outcome.next ((remapDone_of_trained h hd).trans (if_neg (by rw [hk]; decide))), h0, h1, hset.onlyRegs⟩
  · obtain ⟨t, r, ht, hrest⟩ := remapDone_of_kept h hd hk hn
    exact ⟨t, r, congrArg Host.Outcome.next ht, hrest⟩
  · obtain ⟨t, ht, hrest⟩ := remapDone_of_failed h hd
    exact ⟨t, congrArg Host.Outcome.next ht, hrest⟩
  · exact congrArg Host.Outcome.next (remapDone_of_not trained h)
  · obtain ⟨t, ht, hrest⟩ := (switchPair_spec v s).1 hv hr hb
    exact ⟨t, (State.regWrite_of_takesWrite hw v _).trans (congrArg Host.Outcome.next ht), hrest⟩
  · exact (State.regWrite_of_takesWrite hw v _).trans (congrArg Host.Outcome.next ((switchPair_spec v s).2 h))
  · obtain ⟨t, ht, hrest⟩ := sparePairBooted_of_image h hi
    exact ⟨t, congrArg Host.Outcome.next ht, hrest⟩
  · obtain ⟨t, ht, hrest⟩ := sparePairBooted_of_none h hi
    exact ⟨t, congrArg Host.Outcome.next ht, hrest⟩
  · exact congrArg Host.Outcome.next (sparePairBooted_of_not h aOk bOk)
  · obtain ⟨t, ht, hrest⟩ := recordWritten_ok h hd
    exact ⟨t, congrArg Host.Outcome.next ht, hrest⟩
  · obtain ⟨t, ht, hrest⟩ := recordWritten_bad h hd
    exact ⟨t, congrArg Host.Outcome.next ht, hrest⟩
  · obtain ⟨t, x, ht, hrest⟩ := recordWritten_dirty h hd
    exact ⟨t, x, congrArg Host.Outcome.next ht, hrest⟩
  · refine congrArg Host.Outcome.next ?_
    unfold recordWritten
    rw [h]
  · obtain ⟨t, ht, hrest⟩ := rowReported_new rfl hr hnew hlen
    exact ⟨t, congrArg Host.Outcome.next ht, hrest⟩
  · exact congrArg Host.Outcome.next (rowReported_known rfl h)
  · refine congrArg Host.Outcome.next ?_
    unfold rowReported
    rw [h]
    rfl

end Sys2Proof.Machine
end
